-- ==== Sys2Proof/Word.lean ====
section
/-! DEFINITION. Word types, and the two plain-data containers the machine is built of: a byte list in little-endian
order (R11) and a canonical sparse map from natural numbers, which holds memory, the registers and every other table of
which only the entries that differ from their reset value are listed. -/

namespace Sys2Proof

/-- A register or XQ general value of 64 bits. -/
abbrev Word := BitVec 64

/-- A 32-bit word of a descriptor, entry or header (R11). -/
abbrev Word32 := BitVec 32

/-- One byte. -/
abbrev Byte := BitVec 8

/-- A sparse map: the keys strictly rise, and no listed value equals what the key reads as when it is unlisted. -/
abbrev SMap (α : Type) := List (Nat × α)

/-- The value at key `k`: the listed one, else the value `d k` that an unlisted key reads as. -/
def smapGet {α : Type} (d : Nat → α) : SMap α → Nat → α
  | [], k => d k
  | (a, v) :: m, k => if a = k then v else smapGet d m k

/-- Place `v` at `k`, whatever `v` is. -/
def smapPut {α : Type} (k : Nat) (v : α) : SMap α → SMap α
  | [] => [(k, v)]
  | (a, w) :: m =>
    if k < a then (k, v) :: (a, w) :: m
    else if a = k then (k, v) :: m
    else (a, w) :: smapPut k v m

/-- Take the entry at `k` out. -/
def smapDel {α : Type} (k : Nat) : SMap α → SMap α
  | [] => []
  | (a, w) :: m => if a = k then smapDel k m else (a, w) :: smapDel k m

/-- Write `v` at `k`. Writing what the unlisted key reads as removes the entry, so equal maps are equal lists. -/
def smapSet {α : Type} [DecidableEq α] (d : Nat → α) (m : SMap α) (k : Nat) (v : α) : SMap α :=
  if v = d k then smapDel k m else smapPut k v m

/-- The canonical form of a sparse map, with the keys above `lo`. -/
def smapWfAbove {α : Type} [DecidableEq α] (d : Nat → α) : Option Nat → SMap α → Bool
  | _, [] => true
  | lo, (a, v) :: m =>
    (match lo with | none => true | some b => decide (b < a)) && decide (v ≠ d a) && smapWfAbove d (some a) m

/-- The canonical form of a sparse map. -/
def smapWf {α : Type} [DecidableEq α] (d : Nat → α) (m : SMap α) : Bool := smapWfAbove d none m

end Sys2Proof
end

