-- ==== Sys2Proof/Config.lean ====
section
/-! DEFINITION. What an implementation fixes and the spec leaves open, and the free values. Every opaque constant here has
no body, so that nothing can be proved of its value: a statement that holds, holds for every value of it. The assumption log
rows named beside them say what each stands for. -/

namespace Sys2Proof

/-- A free value: what the spec says results, without saying which value it is. The argument is the counter `freeCount`
of the state, which every use reads and advances (log 1). -/
opaque Config.freeValue (w : Nat) : Nat → BitVec w

/-- R21, R303, R706: the fused number behind a field that the reset column calls fused, by cell id and field number; the
functions of Machine/CellTree bring it into the range the spec gives (log 2). -/
opaque Config.fuse (cell field : Nat) : Nat

/-- R48, R614: the number of the clock island that holds a cell's control logic (log 3). -/
opaque Config.island (cell : Nat) : Nat

/-- R593: the syndrome of a word with the given errors, where the spec's guarantees do not settle its class: the check
equations and P are no part of the part's interface (log 4). The arguments are the mark, the data flips, the check flips and
the inverted address bits. -/
opaque Config.syndrome (marked : Bool) (data : BitVec 64) (check : BitVec 8) (addr : Nat) : BitVec 8

/-- R593: how a word with errors that the guarantees of the code do not cover is decoded: modulo 4, CLEAN, CORRECTED (the bit
is the quotient modulo 72), MARKED or BAD (log 4). -/
opaque Config.openWord (marked : Bool) (data : BitVec 64) (check : BitVec 8) (addr : Nat) : Nat

/-- R362: the source MAC address of Ethernet port p; the spec names no register or fuse that holds it (log 32). -/
opaque Config.portMac (p : Nat) : Nat

/-- R558: the fused digest of the public key of slot k, the first byte the most significant (log 2). -/
opaque Config.keyHash (k : Nat) : BitVec 384

/-- R558, R565: word m of the nonce that the root of trust holds after power-on reset; the reset column calls it random (log 1). -/
opaque Config.resetNonce (m : Nat) : BitVec 64

/-- R693: the number that the straps MOD_ID1 and MOD_ID0 give, sampled at the end of power-on reset (log 2). -/
opaque Config.modId : Nat

end Sys2Proof
end

