-- ==== Sys2Proof/Machine/RegMap.lean ====
section
/-! DEFINITION. The register maps of the part: every register that a map table of spec/ defines, with its cell kind, offset,
stride, width and fields (types of R14, reset values of R21). The table of each register is in the chapter its comment names. -/

namespace Sys2Proof.Machine

/-- R14: the type of a register field. -/
inductive FieldTy where
  | ro | rw | rw1c | wo | rwp | rsv
  deriving DecidableEq, Repr

/-- One field of a register map: bits [hi:lo], its type and its reset value. -/
structure FieldMap where
  hi : Nat
  lo : Nat
  ty : FieldTy
  reset : Nat
  deriving DecidableEq, Repr

/-- The place of a register: the cell kinds that hold it (none: the CCB of every cell, R49), whether the QNW cell alone has
it, its offset, its strides with their counts, and its width in bits (R22). -/
structure RegMap where
  kinds : List Nat
  qnwOnly : Bool
  offset : Nat
  strides : List (Nat × Nat)
  width : Nat
  fields : List FieldMap
  deriving DecidableEq, Repr

/-- The registers, by the names of their maps. -/
inductive RegId where
  | CELL_IDENT
  | CELL_CHILD_COUNT
  | CELL_CHILDn
  | CELL_STATE
  | CELL_CTRL
  | CELL_RESET
  | CELL_CLOCK
  | CELL_POWER
  | CELL_UNIT_BASE
  | CELL_UNIT_SIZE
  | CELL_ERR_STATUS
  | CELL_ERR_ADDR
  | CELL_ERR_TIME
  | CELL_ERR_INFO
  | PRIM_MAP
  | PRIM_MAP_C
  | PRIM_CLK_CAP
  | PRIM_CLK_CAP_C
  | PRIM_CLK_STATUS
  | PRIM_CLK_LIMIT
  | PRIM_QUEUE_STATUS
  | PRIM_QUEUE_CTRL
  | PRIM_ISSUE_TICKET
  | PRIM_RUN_TICKET
  | PRIM_DONE_TICKET
  | PRIM_ACC_STATUS
  | SMC_STATUS
  | PLT_RING_CTRL
  | FEED_STATUS
  | MOV_QUEUE_STATUS
  | MOV_QUEUE_CTRL
  | MOV_ISSUE_TICKET
  | MOV_DONE_TICKET
  | MOV_NOTICE_COUNT
  | GDR_BOOT_PC
  | GDR_ATTN
  | GDR_INBOX
  | GCL_DISPATCH_EN
  | GCL_QUEUE_STATUS
  | GCL_QUEUE_CTRL
  | GCL_POST
  | GCL_POST_RESULT
  | GCL_PROGp
  | GDR_DBG_CTRL
  | GDR_DBG_STATUS
  | GDR_DBG_REG_SEL
  | GDR_DBG_REG_DATA
  | GDR_DBG_BPb
  | COL_STATUS
  | COL_QUOTA_FREE
  | COL_CMD_ARG
  | COL_CMD
  | COL_CMD_RESULT
  | COL_ROUND_TIMEOUT
  | COL_BINDb_CTRL
  | COL_BINDb_RANGE
  | COL_BINDb_WIN
  | COL_BINDb_STEP
  | COL_SLOTn_STATE
  | COL_SLOTn_ROUND_FIRST
  | COL_SLOTn_ROUND_LAST
  | COL_SLOTn_INFO
  | COL_SLOTn_DISCARDS
  | COL_SLOTn_SKEW_COUNT
  | TRN_STATUS
  | TRN_NODE_ADDR
  | TRN_UDP_PORT
  | TRN_CONN_TABLE
  | TRN_REGION_TABLE
  | TRN_TIMER
  | TRN_CONN_TIMER
  | TRN_REGION_CMD
  | TRN_REGION_RESULT
  | TRN_SLOW
  | TRN_SQq_CFG
  | TRN_SQq_PTR
  | TRN_SQq_DB
  | TRN_CQq_CFG
  | TRN_CQq_PTR
  | TRN_CONNc_CTRL
  | TRN_CONNc_STATE
  | ETH_CFG
  | ETH_STATUS
  | ETH_PFC
  | SPG_STATUS
  | SPG_CMD_ARG
  | SPG_CMD
  | SPG_CMD_RESULT
  | SPG_PARSE
  | SPG_FLOW_CFG
  | SPG_FLOW_STATUS
  | SPG_COUNT_BASE
  | SPG_PORTp_CTRL
  | SPG_RXQq_CFG
  | SPG_RXQq_PTR
  | SHT_STATUS
  | SHT_BUF
  | SHT_COLL
  | SHT_LOOP
  | SHT_PORTp_CFG
  | SHT_SVCs_CFG
  | SHT_SVCs_RATE
  | SHT_SVCs_BURST
  | SHT_SUBQq_CFG
  | SHT_SUBQq_RATE
  | SHT_SUBQq_BURST
  | SHT_SUBQq_STATUS
  | SHT_TXRr_CFG
  | SHT_TXRr_PTR
  | SHT_TXRr_DB
  | CAT_STATUS
  | CAT_WBS
  | CAT_VOL_TABLE
  | CAT_BE_TABLE
  | CAT_TIMER
  | CAT_XCQ
  | CAT_Qq_CFG
  | CAT_Qq_CQ
  | CAT_Qq_OWNER
  | CAT_Qq_PTR
  | CAT_Qq_ELOG
  | CAT_Qq_DB
  | CAT_Qq_RESP
  | CAT_Qq_CTRL
  | CAT_Qq_STATE
  | PCI_IRQ_RAISE
  | PCI_IRQ_ROUTEs
  | PCI_UP_STATUS
  | PCI_WIN
  | PCI_TAG_STATUS
  | PCI_BAR4_SEGn
  | PCI_FNf_STATUS
  | PCI_FNf_DMA
  | PCI_DP_CFG_ADDR
  | PCI_DP_CFG_DATA
  | PCI_DP_OUT
  | PCI_DP_INWw_BUS
  | PCI_DP_INWw_MAP
  | PCI_VFv_CTRL
  | PCI_VFv_STATE
  | PCI_VFv_PROV
  | PCI_VFv_KEYS
  | PCI_VFv_DIRTY_CTRL
  | PCI_VFv_DIRTY_RANGE
  | PCI_VFv_DIRTY_PAGES
  | PCI_VFv_DIRTY_MAPA
  | PCI_VFv_DIRTY_MAPB
  | PCI_VFv_DIRTY_MISS
  | PCI_VFv_PAGEp
  | FLT_CFG
  | FLT_Qq_CFG
  | FLT_Qq_PTR
  | FLT_Qq_DB
  | KEY_CMD_ARG
  | KEY_CMD
  | KEY_CMD_RESULT
  | KEY_ATTRn
  | ROT_STATUS
  | ROT_CMD_ARG
  | ROT_CMD
  | ROT_CMD_RESULT
  | ROT_MEASUREm
  | ROT_NONCEm
  | EPH_STATUS
  | EPH_JOB
  | EPH_CFG
  | EPH_EPOCH_STEP
  | EPH_DESTd_COMMIT
  | EPH_DESTd_STATE
  | EPH_WARN_CFG
  | EPH_WARN_STATUS
  | EPH_CMDQ_CFG
  | EPH_CMDQ_PTR
  | EPH_CMDQ_DB
  | SMC_FLIP_CTRL
  | SMC_FLIP_DATA
  | SMC_FLIP_ADDR
  | CHR_STATUS
  | CHR_TIME
  | CHR_TB_RATE
  | CHR_TB_RATE_C
  | CHR_TB_STEP
  | CHR_TB_PENDING
  | CHR_SAFE_CTRL
  | CHR_RESET_REQ
  | CHR_INPUT_LEVEL
  | CHR_INPUT_STUCK
  | CHR_TXTSp_INFO
  | CHR_TXTSp_TIME
  | HEL_STATUS
  | HEL_CAP_W
  | HEL_CAP_W_C
  | HEL_PEAK
  | HEL_PEAK_C
  | HEL_SLEW
  | HEL_MEAS
  | HEL_CAL
  | HEL_EVENTS
  | HEL_THERM
  | HEL_THROTTLE
  | HEL_REASON
  | HEL_ACCORD_CFG
  | HEL_ACCORD_STATUS
  | HEL_DERATE
  | HEL_DERATE_RESULT
  | HEL_MON_SEL
  | HEL_MON_DATA
  | HEL_PHASE
  | HEL_SEEn
  | DOM_COREn_BOOT_PC
  | DOM_COREn_WDT_CFG
  | DOM_COREn_WDT_KICK
  | DOM_COREn_WDT_STATUS
  | DOM_COREn_WDT_LAST
  | DOM_COREn_WDT_PC
  | DOM_FW_STATUS
  | DOM_HOST_HEARTBEAT
  | DOM_HOST_HB_CFG
  | DOM_HOST_STATE
  | DOM_HOST_ATTACH
  | PHOT_CTRL
  | PHOT_OVF
  | PHOT_SELc
  | PHOT_CNTc
  | PHOT_EXP_CTRL
  | PHOT_EXP_LIST
  | PHOT_EXP_RING
  | PHOT_EXP_PTR
  | ROT_FLASH_ARG
  | ROT_FLASH_CMD
  | ROT_FLASH_RESULT
  | PLT_FLIP_CTRL
  | PLT_FLIP_DATA
  | PLT_FLIP_ADDR
  | CELL_FEATn
  deriving DecidableEq, Repr

/-- The registers of the unit register block of a cell kind; kind 0 stands for the CCB of every cell (R49). -/
def RegId.ofKind : Nat → List RegId
  | 0x0 => [.CELL_IDENT, .CELL_CHILD_COUNT, .CELL_CHILDn, .CELL_STATE, .CELL_CTRL, .CELL_RESET,
      .CELL_CLOCK, .CELL_POWER, .CELL_UNIT_BASE, .CELL_UNIT_SIZE, .CELL_ERR_STATUS, .CELL_ERR_ADDR,
      .CELL_ERR_TIME, .CELL_ERR_INFO, .PHOT_CTRL, .PHOT_OVF, .PHOT_SELc, .PHOT_CNTc,
      .CELL_FEATn]
  | 0x1 => [.PHOT_EXP_CTRL, .PHOT_EXP_LIST, .PHOT_EXP_RING, .PHOT_EXP_PTR]
  | 0x10 => [.PRIM_MAP, .PRIM_MAP_C, .PRIM_CLK_CAP, .PRIM_CLK_CAP_C, .PRIM_CLK_STATUS, .PRIM_CLK_LIMIT,
      .PRIM_QUEUE_STATUS, .PRIM_QUEUE_CTRL, .PRIM_ISSUE_TICKET, .PRIM_RUN_TICKET, .PRIM_DONE_TICKET, .PRIM_ACC_STATUS]
  | 0x12 => [.PLT_RING_CTRL, .FEED_STATUS, .PLT_FLIP_CTRL, .PLT_FLIP_DATA, .PLT_FLIP_ADDR]
  | 0x14 => [.SMC_STATUS, .SMC_FLIP_CTRL, .SMC_FLIP_DATA, .SMC_FLIP_ADDR]
  | 0x16 => [.MOV_QUEUE_STATUS, .MOV_QUEUE_CTRL, .MOV_ISSUE_TICKET, .MOV_DONE_TICKET, .MOV_NOTICE_COUNT]
  | 0x17 => [.GCL_DISPATCH_EN, .GCL_QUEUE_STATUS, .GCL_QUEUE_CTRL, .GCL_POST, .GCL_POST_RESULT, .GCL_PROGp]
  | 0x18 => [.GDR_BOOT_PC, .GDR_ATTN, .GDR_INBOX, .GDR_DBG_CTRL, .GDR_DBG_STATUS, .GDR_DBG_REG_SEL,
      .GDR_DBG_REG_DATA, .GDR_DBG_BPb]
  | 0x20 => [.PCI_IRQ_RAISE, .PCI_IRQ_ROUTEs]
  | 0x21 => [.PCI_UP_STATUS, .PCI_WIN, .PCI_TAG_STATUS, .PCI_BAR4_SEGn, .PCI_FNf_STATUS, .PCI_FNf_DMA,
      .PCI_VFv_CTRL, .PCI_VFv_STATE, .PCI_VFv_PROV, .PCI_VFv_KEYS, .PCI_VFv_DIRTY_CTRL, .PCI_VFv_DIRTY_RANGE,
      .PCI_VFv_DIRTY_PAGES, .PCI_VFv_DIRTY_MAPA, .PCI_VFv_DIRTY_MAPB, .PCI_VFv_DIRTY_MISS, .PCI_VFv_PAGEp]
  | 0x22 => [.PCI_DP_CFG_ADDR, .PCI_DP_CFG_DATA, .PCI_DP_OUT, .PCI_DP_INWw_BUS, .PCI_DP_INWw_MAP]
  | 0x24 => [.ETH_CFG, .ETH_STATUS, .ETH_PFC]
  | 0x25 => [.SPG_STATUS, .SPG_CMD_ARG, .SPG_CMD, .SPG_CMD_RESULT, .SPG_PARSE, .SPG_FLOW_CFG,
      .SPG_FLOW_STATUS, .SPG_COUNT_BASE, .SPG_PORTp_CTRL, .SPG_RXQq_CFG, .SPG_RXQq_PTR]
  | 0x26 => [.SHT_STATUS, .SHT_BUF, .SHT_COLL, .SHT_LOOP, .SHT_PORTp_CFG, .SHT_SVCs_CFG,
      .SHT_SVCs_RATE, .SHT_SVCs_BURST, .SHT_SUBQq_CFG, .SHT_SUBQq_RATE, .SHT_SUBQq_BURST, .SHT_SUBQq_STATUS,
      .SHT_TXRr_CFG, .SHT_TXRr_PTR, .SHT_TXRr_DB]
  | 0x27 => [.TRN_STATUS, .TRN_NODE_ADDR, .TRN_UDP_PORT, .TRN_CONN_TABLE, .TRN_REGION_TABLE, .TRN_TIMER,
      .TRN_CONN_TIMER, .TRN_REGION_CMD, .TRN_REGION_RESULT, .TRN_SLOW, .TRN_SQq_CFG, .TRN_SQq_PTR,
      .TRN_SQq_DB, .TRN_CQq_CFG, .TRN_CQq_PTR, .TRN_CONNc_CTRL, .TRN_CONNc_STATE]
  | 0x28 => [.COL_STATUS, .COL_QUOTA_FREE, .COL_CMD_ARG, .COL_CMD, .COL_CMD_RESULT, .COL_ROUND_TIMEOUT,
      .COL_BINDb_CTRL, .COL_BINDb_RANGE, .COL_BINDb_WIN, .COL_BINDb_STEP, .COL_SLOTn_STATE, .COL_SLOTn_ROUND_FIRST,
      .COL_SLOTn_ROUND_LAST, .COL_SLOTn_INFO, .COL_SLOTn_DISCARDS, .COL_SLOTn_SKEW_COUNT]
  | 0x29 => [.CAT_STATUS, .CAT_WBS, .CAT_VOL_TABLE, .CAT_BE_TABLE, .CAT_TIMER, .CAT_XCQ,
      .CAT_Qq_CFG, .CAT_Qq_CQ, .CAT_Qq_OWNER, .CAT_Qq_PTR, .CAT_Qq_ELOG, .CAT_Qq_DB,
      .CAT_Qq_RESP, .CAT_Qq_CTRL, .CAT_Qq_STATE]
  | 0x2a => [.FLT_CFG, .FLT_Qq_CFG, .FLT_Qq_PTR, .FLT_Qq_DB]
  | 0x2c => [.KEY_CMD_ARG, .KEY_CMD, .KEY_CMD_RESULT, .KEY_ATTRn]
  | 0x2d => [.EPH_STATUS, .EPH_JOB, .EPH_CFG, .EPH_EPOCH_STEP, .EPH_DESTd_COMMIT, .EPH_DESTd_STATE,
      .EPH_WARN_CFG, .EPH_WARN_STATUS, .EPH_CMDQ_CFG, .EPH_CMDQ_PTR, .EPH_CMDQ_DB]
  | 0x2e => [.DOM_COREn_BOOT_PC, .DOM_COREn_WDT_CFG, .DOM_COREn_WDT_KICK, .DOM_COREn_WDT_STATUS, .DOM_COREn_WDT_LAST, .DOM_COREn_WDT_PC,
      .DOM_FW_STATUS, .DOM_HOST_HEARTBEAT, .DOM_HOST_HB_CFG, .DOM_HOST_STATE, .DOM_HOST_ATTACH]
  | 0x2f => [.GDR_DBG_CTRL, .GDR_DBG_STATUS, .GDR_DBG_REG_SEL, .GDR_DBG_REG_DATA, .GDR_DBG_BPb]
  | 0x30 => [.CHR_STATUS, .CHR_TIME, .CHR_TB_RATE, .CHR_TB_RATE_C, .CHR_TB_STEP, .CHR_TB_PENDING,
      .CHR_SAFE_CTRL, .CHR_RESET_REQ, .CHR_INPUT_LEVEL, .CHR_INPUT_STUCK, .CHR_TXTSp_INFO, .CHR_TXTSp_TIME]
  | 0x31 => [.HEL_STATUS, .HEL_CAP_W, .HEL_CAP_W_C, .HEL_PEAK, .HEL_PEAK_C, .HEL_SLEW,
      .HEL_MEAS, .HEL_CAL, .HEL_EVENTS, .HEL_THERM, .HEL_THROTTLE, .HEL_REASON,
      .HEL_ACCORD_CFG, .HEL_ACCORD_STATUS, .HEL_DERATE, .HEL_DERATE_RESULT, .HEL_MON_SEL, .HEL_MON_DATA,
      .HEL_PHASE, .HEL_SEEn]
  | 0x32 => [.ROT_STATUS, .ROT_CMD_ARG, .ROT_CMD, .ROT_CMD_RESULT, .ROT_MEASUREm, .ROT_NONCEm,
      .ROT_FLASH_ARG, .ROT_FLASH_CMD, .ROT_FLASH_RESULT]
  | _ => []

/-- The map of a register. Reset values written "fused", "per cell" or "random" stand as 0 here and are given by
`resetValue` of Machine/Cells. -/
def RegId.map : RegId → RegMap
  | .CELL_IDENT => ⟨[], false, 0x0, [], 32, [⟨15, 0, .ro, 0⟩, ⟨23, 16, .ro, 0⟩, ⟨31, 24, .ro, 0xb0⟩]⟩
  | .CELL_CHILD_COUNT => ⟨[], false, 0x4, [], 32, [⟨9, 0, .ro, 0⟩, ⟨31, 10, .rsv, 0⟩]⟩
  | .CELL_CHILDn => ⟨[], false, 0x400, [(0x4, 256)], 32, [⟨15, 0, .ro, 0⟩, ⟨31, 16, .ro, 0⟩]⟩
  | .CELL_STATE => ⟨[], false, 0x8, [], 32, [⟨2, 0, .ro, 0⟩, ⟨3, 3, .ro, 0⟩, ⟨4, 4, .ro, 0⟩, ⟨15, 5, .rsv, 0⟩, ⟨31, 16, .ro, 0⟩]⟩
  | .CELL_CTRL => ⟨[], false, 0xc, [], 32, [⟨0, 0, .rw, 0⟩, ⟨31, 1, .rsv, 0⟩]⟩
  | .CELL_RESET => ⟨[], false, 0x10, [], 32, [⟨0, 0, .wo, 0⟩, ⟨31, 1, .rsv, 0⟩]⟩
  | .CELL_CLOCK => ⟨[], false, 0x14, [], 32, [⟨10, 0, .ro, 0⟩, ⟨15, 11, .rsv, 0⟩, ⟨31, 16, .ro, 0⟩]⟩
  | .CELL_POWER => ⟨[], false, 0x18, [], 32, [⟨1, 0, .ro, 0⟩, ⟨3, 2, .rsv, 0⟩, ⟨5, 4, .rw, 0⟩, ⟨15, 6, .rsv, 0⟩, ⟨31, 16, .ro, 0⟩]⟩
  | .CELL_UNIT_BASE => ⟨[], false, 0x20, [], 64, [⟨47, 0, .ro, 0⟩, ⟨63, 48, .rsv, 0⟩]⟩
  | .CELL_UNIT_SIZE => ⟨[], false, 0x28, [], 32, [⟨31, 0, .ro, 0⟩]⟩
  | .CELL_ERR_STATUS => ⟨[], false, 0x40, [], 32, [⟨0, 0, .rw1c, 0⟩, ⟨1, 1, .rw1c, 0⟩, ⟨7, 2, .rsv, 0⟩, ⟨15, 8, .ro, 0⟩, ⟨31, 16, .ro, 0⟩]⟩
  | .CELL_ERR_ADDR => ⟨[], false, 0x48, [], 64, [⟨47, 0, .ro, 0⟩, ⟨63, 48, .rsv, 0⟩]⟩
  | .CELL_ERR_TIME => ⟨[], false, 0x50, [], 64, [⟨63, 0, .ro, 0⟩]⟩
  | .CELL_ERR_INFO => ⟨[], false, 0x58, [], 32, [⟨31, 0, .ro, 0⟩]⟩
  | .PRIM_MAP => ⟨[0x10], false, 0x0, [], 32, [⟨4, 0, .rwp, 0⟩, ⟨7, 5, .rsv, 0⟩, ⟨12, 8, .rwp, 0⟩, ⟨15, 13, .rsv, 0⟩, ⟨20, 16, .ro, 0⟩, ⟨23, 21, .rsv, 0⟩, ⟨28, 24, .ro, 0⟩, ⟨31, 29, .rsv, 0⟩]⟩
  | .PRIM_MAP_C => ⟨[0x10], false, 0x4, [], 32, [⟨4, 0, .rwp, 0⟩, ⟨7, 5, .rsv, 0⟩, ⟨12, 8, .rwp, 0⟩, ⟨31, 13, .rsv, 0⟩]⟩
  | .PRIM_CLK_CAP => ⟨[0x10], true, 0x10, [], 32, [⟨10, 0, .rwp, 0x708⟩, ⟨15, 11, .rsv, 0⟩, ⟨26, 16, .ro, 0x708⟩, ⟨31, 27, .rsv, 0⟩]⟩
  | .PRIM_CLK_CAP_C => ⟨[0x10], true, 0x14, [], 32, [⟨10, 0, .rwp, 0xf7⟩, ⟨31, 11, .rsv, 0⟩]⟩
  | .PRIM_CLK_STATUS => ⟨[0x10], true, 0x18, [], 32, [⟨10, 0, .ro, 0⟩, ⟨15, 11, .rsv, 0⟩, ⟨26, 16, .ro, 0⟩, ⟨31, 27, .rsv, 0⟩]⟩
  | .PRIM_CLK_LIMIT => ⟨[0x10], true, 0x1c, [], 32, [⟨10, 0, .ro, 0x708⟩, ⟨31, 11, .rsv, 0⟩]⟩
  | .PRIM_QUEUE_STATUS => ⟨[0x10], true, 0x20, [], 32, [⟨6, 0, .ro, 0⟩, ⟨7, 7, .rsv, 0⟩, ⟨8, 8, .ro, 1⟩, ⟨9, 9, .ro, 0⟩, ⟨10, 10, .ro, 0⟩, ⟨11, 11, .ro, 0⟩, ⟨12, 12, .ro, 1⟩, ⟨13, 13, .ro, 0⟩, ⟨15, 14, .rsv, 0⟩, ⟨18, 16, .ro, 0⟩, ⟨31, 19, .rsv, 0⟩]⟩
  | .PRIM_QUEUE_CTRL => ⟨[0x10], true, 0x24, [], 32, [⟨0, 0, .rw, 0⟩, ⟨1, 1, .wo, 0⟩, ⟨31, 2, .rsv, 0⟩]⟩
  | .PRIM_ISSUE_TICKET => ⟨[0x10], true, 0x28, [], 64, [⟨63, 0, .ro, 1⟩]⟩
  | .PRIM_RUN_TICKET => ⟨[0x10], true, 0x30, [], 64, [⟨63, 0, .ro, 0⟩]⟩
  | .PRIM_DONE_TICKET => ⟨[0x10], true, 0x38, [], 64, [⟨63, 0, .ro, 0⟩]⟩
  | .PRIM_ACC_STATUS => ⟨[0x10], true, 0x40, [], 32, [⟨0, 0, .ro, 0⟩, ⟨13, 1, .ro, 0⟩, ⟨15, 14, .rsv, 0⟩, ⟨27, 16, .ro, 0⟩, ⟨31, 28, .rsv, 0⟩]⟩
  | .SMC_STATUS => ⟨[0x14], false, 0x0, [], 32, [⟨0, 0, .ro, 0⟩, ⟨1, 1, .ro, 0⟩, ⟨7, 2, .rsv, 0⟩, ⟨15, 8, .ro, 0⟩, ⟨17, 16, .ro, 0⟩, ⟨31, 18, .rsv, 0⟩]⟩
  | .PLT_RING_CTRL => ⟨[0x12], false, 0x0, [], 32, [⟨0, 0, .rw, 1⟩, ⟨1, 1, .ro, 1⟩, ⟨15, 2, .rsv, 0⟩, ⟨23, 16, .ro, 0⟩, ⟨31, 24, .rsv, 0⟩]⟩
  | .FEED_STATUS => ⟨[0x12], true, 0x8, [], 32, [⟨0, 0, .ro, 0⟩, ⟨1, 1, .ro, 0⟩, ⟨31, 2, .rsv, 0⟩]⟩
  | .MOV_QUEUE_STATUS => ⟨[0x16], false, 0x0, [], 32, [⟨5, 0, .ro, 0⟩, ⟨7, 6, .rsv, 0⟩, ⟨8, 8, .ro, 1⟩, ⟨9, 9, .ro, 0⟩, ⟨10, 10, .ro, 0⟩, ⟨11, 11, .ro, 0⟩, ⟨12, 12, .ro, 0⟩, ⟨31, 13, .rsv, 0⟩]⟩
  | .MOV_QUEUE_CTRL => ⟨[0x16], false, 0x4, [], 32, [⟨0, 0, .rw, 0⟩, ⟨1, 1, .wo, 0⟩, ⟨31, 2, .rsv, 0⟩]⟩
  | .MOV_ISSUE_TICKET => ⟨[0x16], false, 0x8, [], 64, [⟨63, 0, .ro, 1⟩]⟩
  | .MOV_DONE_TICKET => ⟨[0x16], false, 0x10, [], 64, [⟨63, 0, .ro, 0⟩]⟩
  | .MOV_NOTICE_COUNT => ⟨[0x16], false, 0x18, [], 32, [⟨31, 0, .rw, 0⟩]⟩
  | .GDR_BOOT_PC => ⟨[0x18], false, 0x40000, [], 64, [⟨1, 0, .rsv, 0⟩, ⟨63, 2, .rw, 0x3fffffffffff0000⟩]⟩
  | .GDR_ATTN => ⟨[0x18], false, 0x40008, [], 32, [⟨0, 0, .wo, 0⟩, ⟨1, 1, .ro, 0⟩, ⟨15, 2, .rsv, 0⟩, ⟨31, 16, .rw, 0⟩]⟩
  | .GDR_INBOX => ⟨[0x18], false, 0x40010, [], 32, [⟨3, 0, .ro, 0⟩, ⟨8, 4, .ro, 0⟩, ⟨31, 9, .rsv, 0⟩]⟩
  | .GCL_DISPATCH_EN => ⟨[0x17], false, 0x0, [], 32, [⟨7, 0, .rw, 0⟩, ⟨31, 8, .rsv, 0⟩]⟩
  | .GCL_QUEUE_STATUS => ⟨[0x17], false, 0x4, [], 32, [⟨10, 0, .ro, 0⟩, ⟨11, 11, .ro, 1⟩, ⟨12, 12, .ro, 0⟩, ⟨13, 13, .ro, 0⟩, ⟨14, 14, .ro, 0⟩, ⟨31, 15, .rsv, 0⟩]⟩
  | .GCL_QUEUE_CTRL => ⟨[0x17], false, 0x8, [], 32, [⟨0, 0, .rw, 0⟩, ⟨1, 1, .wo, 0⟩, ⟨31, 2, .rsv, 0⟩]⟩
  | .GCL_POST => ⟨[0x17], false, 0x10, [], 64, [⟨5, 0, .rsv, 0⟩, ⟨47, 6, .wo, 0⟩, ⟨63, 48, .rsv, 0⟩]⟩
  | .GCL_POST_RESULT => ⟨[0x17], false, 0x18, [], 32, [⟨1, 0, .ro, 0⟩, ⟨31, 2, .rsv, 0⟩]⟩
  | .GCL_PROGp => ⟨[0x17], false, 0x100, [(0x4, 256)], 32, [⟨0, 0, .rw, 0⟩, ⟨2, 1, .rw, 0⟩, ⟨3, 3, .rsv, 0⟩, ⟨6, 4, .rw, 0⟩, ⟨31, 7, .rsv, 0⟩]⟩
  | .GDR_DBG_CTRL => ⟨[0x18, 0x2f], false, 0x40020, [], 32, [⟨0, 0, .rw, 0⟩, ⟨1, 1, .wo, 0⟩, ⟨31, 2, .rsv, 0⟩]⟩
  | .GDR_DBG_STATUS => ⟨[0x18, 0x2f], false, 0x40024, [], 32, [⟨0, 0, .ro, 0⟩, ⟨2, 1, .ro, 0⟩, ⟨4, 3, .ro, 0⟩, ⟨31, 5, .rsv, 0⟩]⟩
  | .GDR_DBG_REG_SEL => ⟨[0x18, 0x2f], false, 0x40028, [], 32, [⟨8, 0, .rw, 0⟩, ⟨31, 9, .rsv, 0⟩]⟩
  | .GDR_DBG_REG_DATA => ⟨[0x18, 0x2f], false, 0x40030, [], 64, [⟨63, 0, .rw, 0⟩]⟩
  | .GDR_DBG_BPb => ⟨[0x18, 0x2f], false, 0x40040, [(0x8, 4)], 64, [⟨0, 0, .rw, 0⟩, ⟨1, 1, .rw, 0⟩, ⟨63, 2, .rw, 0⟩]⟩
  | .COL_STATUS => ⟨[0x28], false, 0x0, [], 32, [⟨10, 0, .ro, 0⟩, ⟨11, 11, .ro, 0⟩, ⟨15, 12, .rsv, 0⟩, ⟨30, 16, .ro, 0⟩, ⟨31, 31, .rsv, 0⟩]⟩
  | .COL_QUOTA_FREE => ⟨[0x28], false, 0x4, [], 32, [⟨16, 0, .ro, 0x10000⟩, ⟨31, 17, .rsv, 0⟩]⟩
  | .COL_CMD_ARG => ⟨[0x28], false, 0x8, [], 64, [⟨63, 0, .rw, 0⟩]⟩
  | .COL_CMD => ⟨[0x28], false, 0x10, [], 32, [⟨3, 0, .wo, 0⟩, ⟨15, 4, .rsv, 0⟩, ⟨25, 16, .wo, 0⟩, ⟨31, 26, .rsv, 0⟩]⟩
  | .COL_CMD_RESULT => ⟨[0x28], false, 0x18, [], 32, [⟨1, 0, .ro, 0⟩, ⟨7, 2, .rsv, 0⟩, ⟨15, 8, .ro, 0⟩, ⟨25, 16, .ro, 0⟩, ⟨31, 26, .rsv, 0⟩]⟩
  | .COL_ROUND_TIMEOUT => ⟨[0x28], false, 0x20, [], 32, [⟨15, 0, .rw, 0x1388⟩, ⟨31, 16, .rsv, 0⟩]⟩
  | .COL_BINDb_CTRL => ⟨[0x28], false, 0x200, [(0x20, 64)], 64, [⟨0, 0, .rw, 0⟩, ⟨3, 1, .rw, 0⟩, ⟨7, 4, .rw, 0⟩, ⟨19, 8, .rw, 0⟩, ⟨31, 20, .rsv, 0⟩, ⟨47, 32, .rw, 0⟩, ⟨63, 48, .rsv, 0⟩]⟩
  | .COL_BINDb_RANGE => ⟨[0x28], false, 0x208, [(0x20, 64)], 64, [⟨31, 0, .rw, 0⟩, ⟨63, 32, .rw, 0⟩]⟩
  | .COL_BINDb_WIN => ⟨[0x28], false, 0x210, [(0x20, 64)], 64, [⟨5, 0, .rsv, 0⟩, ⟨47, 6, .rw, 0⟩, ⟨63, 48, .rsv, 0⟩]⟩
  | .COL_BINDb_STEP => ⟨[0x28], false, 0x218, [(0x20, 64)], 64, [⟨31, 0, .rw, 0⟩, ⟨63, 32, .ro, 0⟩]⟩
  | .COL_SLOTn_STATE => ⟨[0x28], false, 0x10000, [(0x40, 1024)], 64, [⟨1, 0, .ro, 0⟩, ⟨15, 2, .rsv, 0⟩, ⟨31, 16, .ro, 0⟩, ⟨63, 32, .ro, 0⟩]⟩
  | .COL_SLOTn_ROUND_FIRST => ⟨[0x28], false, 0x10008, [(0x40, 1024)], 64, [⟨63, 0, .ro, 0⟩]⟩
  | .COL_SLOTn_ROUND_LAST => ⟨[0x28], false, 0x10010, [(0x40, 1024)], 64, [⟨63, 0, .ro, 0⟩]⟩
  | .COL_SLOTn_INFO => ⟨[0x28], false, 0x10018, [(0x40, 1024)], 64, [⟨11, 0, .ro, 0⟩, ⟨15, 12, .rsv, 0⟩, ⟨31, 16, .ro, 0⟩, ⟨34, 32, .ro, 0⟩, ⟨47, 35, .rsv, 0⟩, ⟨59, 48, .ro, 0⟩, ⟨63, 60, .rsv, 0⟩]⟩
  | .COL_SLOTn_DISCARDS => ⟨[0x28], false, 0x10020, [(0x40, 1024)], 64, [⟨15, 0, .ro, 0⟩, ⟨31, 16, .ro, 0⟩, ⟨47, 32, .ro, 0⟩, ⟨63, 48, .ro, 0⟩]⟩
  | .COL_SLOTn_SKEW_COUNT => ⟨[0x28], false, 0x10028, [(0x40, 1024)], 32, [⟨31, 0, .ro, 0⟩]⟩
  | .TRN_STATUS => ⟨[0x27], false, 0x0, [], 64, [⟨16, 0, .ro, 0⟩, ⟨31, 17, .rsv, 0⟩, ⟨48, 32, .ro, 0⟩, ⟨57, 49, .ro, 0⟩, ⟨63, 58, .rsv, 0⟩]⟩
  | .TRN_NODE_ADDR => ⟨[0x27], false, 0x8, [], 32, [⟨15, 0, .rw, 0⟩, ⟨31, 16, .rsv, 0⟩]⟩
  | .TRN_UDP_PORT => ⟨[0x27], false, 0xc, [], 32, [⟨15, 0, .rw, 0x98a9⟩, ⟨31, 16, .rsv, 0⟩]⟩
  | .TRN_CONN_TABLE => ⟨[0x27], false, 0x10, [], 64, [⟨11, 0, .rsv, 0⟩, ⟨47, 12, .rw, 0⟩, ⟨63, 48, .rsv, 0⟩]⟩
  | .TRN_REGION_TABLE => ⟨[0x27], false, 0x18, [], 64, [⟨4, 0, .rw, 0⟩, ⟨11, 5, .rsv, 0⟩, ⟨47, 12, .rw, 0⟩, ⟨63, 48, .rsv, 0⟩]⟩
  | .TRN_TIMER => ⟨[0x27], false, 0x20, [], 64, [⟨15, 0, .rw, 8⟩, ⟨31, 16, .rw, 0x3e8⟩, ⟨39, 32, .rw, 7⟩, ⟨63, 40, .rsv, 0⟩]⟩
  | .TRN_CONN_TIMER => ⟨[0x27], false, 0x28, [], 64, [⟨15, 0, .rw, 0x3e8⟩, ⟨31, 16, .rw, 0xa⟩, ⟨47, 32, .rw, 0xc8⟩, ⟨63, 48, .rsv, 0⟩]⟩
  | .TRN_REGION_CMD => ⟨[0x27], false, 0x30, [], 32, [⟨1, 0, .wo, 0⟩, ⟨11, 2, .rsv, 0⟩, ⟨31, 12, .wo, 0⟩]⟩
  | .TRN_REGION_RESULT => ⟨[0x27], false, 0x38, [], 32, [⟨1, 0, .ro, 0⟩, ⟨7, 2, .rsv, 0⟩, ⟨15, 8, .ro, 0⟩, ⟨31, 16, .rsv, 0⟩]⟩
  | .TRN_SLOW => ⟨[0x27], false, 0x40, [], 32, [⟨0, 0, .rw, 0⟩, ⟨1, 1, .rw, 0⟩, ⟨7, 2, .rsv, 0⟩, ⟨15, 8, .rw, 0⟩, ⟨19, 16, .rw, 0⟩, ⟨31, 20, .rsv, 0⟩]⟩
  | .TRN_SQq_CFG => ⟨[0x27], false, 0x40000, [(0x20, 4096)], 64, [⟨0, 0, .rw, 0⟩, ⟨1, 1, .rw, 0⟩, ⟨6, 2, .rw, 0⟩, ⟨11, 7, .rsv, 0⟩, ⟨47, 12, .rw, 0⟩, ⟨59, 48, .rw, 0⟩, ⟨63, 60, .rsv, 0⟩]⟩
  | .TRN_SQq_PTR => ⟨[0x27], false, 0x40008, [(0x20, 4096)], 64, [⟨15, 0, .rw, 0⟩, ⟨31, 16, .ro, 0⟩, ⟨43, 32, .rw, 0⟩, ⟨63, 44, .rsv, 0⟩]⟩
  | .TRN_SQq_DB => ⟨[0x27], false, 0x40010, [(0x20, 4096)], 64, [⟨5, 0, .rsv, 0⟩, ⟨47, 6, .rw, 0⟩, ⟨63, 48, .rsv, 0⟩]⟩
  | .TRN_CQq_CFG => ⟨[0x27], false, 0x60000, [(0x20, 4096)], 64, [⟨0, 0, .rw, 0⟩, ⟨5, 1, .rw, 0⟩, ⟨11, 6, .rsv, 0⟩, ⟨47, 12, .rw, 0⟩, ⟨63, 48, .rsv, 0⟩]⟩
  | .TRN_CQq_PTR => ⟨[0x27], false, 0x60008, [(0x20, 4096)], 64, [⟨15, 0, .rw, 0⟩, ⟨31, 16, .ro, 0⟩, ⟨63, 32, .rw, 0xffffffff⟩]⟩
  | .TRN_CONNc_CTRL => ⟨[0x27], false, 0x100000, [(0x10, 65536)], 32, [⟨0, 0, .rw, 0⟩, ⟨31, 1, .rsv, 0⟩]⟩
  | .TRN_CONNc_STATE => ⟨[0x27], false, 0x100008, [(0x10, 65536)], 64, [⟨2, 0, .ro, 0⟩, ⟨3, 3, .ro, 0⟩, ⟨6, 4, .ro, 0⟩, ⟨7, 7, .rsv, 0⟩, ⟨11, 8, .ro, 0⟩, ⟨15, 12, .rsv, 0⟩, ⟨31, 16, .ro, 0⟩, ⟨47, 32, .ro, 0⟩, ⟨63, 48, .rsv, 0⟩]⟩
  | .ETH_CFG => ⟨[0x24], false, 0x0, [], 64, [⟨0, 0, .rw, 0⟩, ⟨1, 1, .rw, 0⟩, ⟨3, 2, .rsv, 0⟩, ⟨6, 4, .rw, 0⟩, ⟨15, 7, .rsv, 0⟩, ⟨29, 16, .rw, 0x2400⟩, ⟨63, 30, .rsv, 0⟩]⟩
  | .ETH_STATUS => ⟨[0x24], false, 0x8, [], 32, [⟨0, 0, .ro, 0⟩, ⟨1, 1, .ro, 0⟩, ⟨2, 2, .ro, 0⟩, ⟨31, 3, .rsv, 0⟩]⟩
  | .ETH_PFC => ⟨[0x24], false, 0x10, [], 64, [⟨7, 0, .rw, 0⟩, ⟨15, 8, .ro, 0⟩, ⟨31, 16, .rw, 0x200⟩, ⟨47, 32, .rw, 0x100⟩, ⟨63, 48, .rw, 0x200⟩]⟩
  | .SPG_STATUS => ⟨[0x25], false, 0x0, [], 32, [⟨0, 0, .ro, 0⟩, ⟨10, 1, .ro, 0⟩, ⟨11, 11, .ro, 0⟩, ⟨31, 12, .rsv, 0⟩]⟩
  | .SPG_CMD_ARG => ⟨[0x25], false, 0x8, [], 64, [⟨63, 0, .rw, 0⟩]⟩
  | .SPG_CMD => ⟨[0x25], false, 0x10, [], 32, [⟨3, 0, .wo, 0⟩, ⟨6, 4, .wo, 0⟩, ⟨15, 7, .rsv, 0⟩, ⟨30, 16, .wo, 0⟩, ⟨31, 31, .rsv, 0⟩]⟩
  | .SPG_CMD_RESULT => ⟨[0x25], false, 0x18, [], 32, [⟨1, 0, .ro, 0⟩, ⟨7, 2, .rsv, 0⟩, ⟨15, 8, .ro, 0⟩, ⟨31, 16, .rsv, 0⟩]⟩
  | .SPG_PARSE => ⟨[0x25], false, 0x20, [], 64, [⟨15, 0, .rw, 0x12b5⟩, ⟨31, 16, .rw, 0x17c1⟩, ⟨47, 32, .rw, 0x9100⟩, ⟨63, 48, .rsv, 0⟩]⟩
  | .SPG_FLOW_CFG => ⟨[0x25], false, 0x28, [], 64, [⟨4, 0, .rw, 0⟩, ⟨11, 5, .rsv, 0⟩, ⟨47, 12, .rw, 0⟩, ⟨63, 48, .rw, 0x3e8⟩]⟩
  | .SPG_FLOW_STATUS => ⟨[0x25], false, 0x30, [], 64, [⟨17, 0, .ro, 0⟩, ⟨31, 18, .rsv, 0⟩, ⟨54, 32, .ro, 0⟩, ⟨55, 55, .ro, 0⟩, ⟨63, 56, .rsv, 0⟩]⟩
  | .SPG_COUNT_BASE => ⟨[0x25], false, 0x38, [], 64, [⟨4, 0, .rw, 0⟩, ⟨5, 5, .rsv, 0⟩, ⟨47, 6, .rw, 0⟩, ⟨63, 48, .rsv, 0⟩]⟩
  | .SPG_PORTp_CTRL => ⟨[0x25], false, 0x100, [(0x4, 8)], 32, [⟨0, 0, .ro, 0⟩, ⟨1, 1, .rw, 0⟩, ⟨31, 2, .rsv, 0⟩]⟩
  | .SPG_RXQq_CFG => ⟨[0x25], false, 0x10000, [(0x10, 4096)], 64, [⟨0, 0, .rw, 0⟩, ⟨5, 1, .rw, 0⟩, ⟨11, 6, .rsv, 0⟩, ⟨47, 12, .rw, 0⟩, ⟨63, 48, .rsv, 0⟩]⟩
  | .SPG_RXQq_PTR => ⟨[0x25], false, 0x10008, [(0x10, 4096)], 64, [⟨15, 0, .rw, 0⟩, ⟨31, 16, .ro, 0⟩, ⟨63, 32, .rw, 0xffffffff⟩]⟩
  | .SHT_STATUS => ⟨[0x26], false, 0x0, [], 32, [⟨17, 0, .ro, 0x20000⟩, ⟨18, 18, .ro, 0⟩, ⟨31, 19, .rsv, 0⟩]⟩
  | .SHT_BUF => ⟨[0x26], false, 0x8, [], 32, [⟨17, 0, .rw, 0x4000⟩, ⟨31, 18, .rsv, 0⟩]⟩
  | .SHT_COLL => ⟨[0x26], false, 0x10, [], 32, [⟨15, 0, .rw, 0xfff8⟩, ⟨31, 16, .rsv, 0⟩]⟩
  | .SHT_LOOP => ⟨[0x26], false, 0x18, [], 32, [⟨2, 0, .rw, 0⟩, ⟨31, 3, .rsv, 0⟩]⟩
  | .SHT_PORTp_CFG => ⟨[0x26], false, 0x100, [(0x8, 12)], 64, [⟨19, 0, .rw, 0⟩, ⟨23, 20, .rsv, 0⟩, ⟨47, 24, .rw, 0x4000⟩, ⟨54, 48, .rw, 0x34⟩, ⟨63, 55, .rsv, 0⟩]⟩
  | .SHT_SVCs_CFG => ⟨[0x26], false, 0x10000, [(0x20, 512)], 64, [⟨0, 0, .rw, 0⟩, ⟨3, 1, .rsv, 0⟩, ⟨7, 4, .rw, 0⟩, ⟨11, 8, .rw, 0⟩, ⟨15, 12, .rsv, 0⟩, ⟨22, 16, .rw, 0x20⟩, ⟨31, 23, .rsv, 0⟩, ⟨47, 32, .rw, 1⟩, ⟨63, 48, .rsv, 0⟩]⟩
  | .SHT_SVCs_RATE => ⟨[0x26], false, 0x10008, [(0x20, 512)], 64, [⟨19, 0, .rw, 0⟩, ⟨31, 20, .rsv, 0⟩, ⟨51, 32, .rw, 0⟩, ⟨63, 52, .rsv, 0⟩]⟩
  | .SHT_SVCs_BURST => ⟨[0x26], false, 0x10010, [(0x20, 512)], 64, [⟨23, 0, .rw, 0x4000⟩, ⟨31, 24, .rsv, 0⟩, ⟨55, 32, .rw, 0x4000⟩, ⟨63, 56, .rsv, 0⟩]⟩
  | .SHT_SUBQq_CFG => ⟨[0x26], false, 0x100000, [(0x20, 65536)], 64, [⟨0, 0, .rw, 0⟩, ⟨3, 1, .rsv, 0⟩, ⟨7, 4, .rw, 0⟩, ⟨16, 8, .rw, 0⟩, ⟨31, 17, .rsv, 0⟩, ⟨47, 32, .rw, 1⟩, ⟨63, 48, .rw, 0x40⟩]⟩
  | .SHT_SUBQq_RATE => ⟨[0x26], false, 0x100008, [(0x20, 65536)], 64, [⟨19, 0, .rw, 0⟩, ⟨31, 20, .rsv, 0⟩, ⟨51, 32, .rw, 0⟩, ⟨63, 52, .rsv, 0⟩]⟩
  | .SHT_SUBQq_BURST => ⟨[0x26], false, 0x100010, [(0x20, 65536)], 64, [⟨23, 0, .rw, 0x4000⟩, ⟨31, 24, .rsv, 0⟩, ⟨55, 32, .rw, 0x4000⟩, ⟨63, 56, .rsv, 0⟩]⟩
  | .SHT_SUBQq_STATUS => ⟨[0x26], false, 0x100018, [(0x20, 65536)], 64, [⟨25, 0, .ro, 0⟩, ⟨31, 26, .rsv, 0⟩, ⟨49, 32, .ro, 0⟩, ⟨63, 50, .rsv, 0⟩]⟩
  | .SHT_TXRr_CFG => ⟨[0x26], false, 0x400000, [(0x20, 1024)], 64, [⟨0, 0, .rw, 0⟩, ⟨1, 1, .rw, 0⟩, ⟨6, 2, .rw, 0⟩, ⟨11, 7, .rsv, 0⟩, ⟨47, 12, .rw, 0⟩, ⟨63, 48, .rsv, 0⟩]⟩
  | .SHT_TXRr_PTR => ⟨[0x26], false, 0x400008, [(0x20, 1024)], 64, [⟨15, 0, .rw, 0⟩, ⟨31, 16, .ro, 0⟩, ⟨63, 32, .rw, 0xffffffff⟩]⟩
  | .SHT_TXRr_DB => ⟨[0x26], false, 0x400010, [(0x20, 1024)], 64, [⟨5, 0, .rsv, 0⟩, ⟨47, 6, .rw, 0⟩, ⟨63, 48, .rsv, 0⟩]⟩
  | .CAT_STATUS => ⟨[0x29], false, 0x0, [], 64, [⟨16, 0, .ro, 0⟩, ⟨31, 17, .rsv, 0⟩, ⟨47, 32, .ro, 0⟩, ⟨63, 48, .rsv, 0⟩]⟩
  | .CAT_WBS => ⟨[0x29], false, 0x8, [], 64, [⟨5, 0, .rw, 0x20⟩, ⟨29, 6, .rsv, 0⟩, ⟨39, 30, .rw, 0⟩, ⟨63, 40, .rsv, 0⟩]⟩
  | .CAT_VOL_TABLE => ⟨[0x29], false, 0x10, [], 64, [⟨4, 0, .rw, 0⟩, ⟨11, 5, .rsv, 0⟩, ⟨47, 12, .rw, 0⟩, ⟨63, 48, .rsv, 0⟩]⟩
  | .CAT_BE_TABLE => ⟨[0x29], false, 0x18, [], 64, [⟨10, 0, .rw, 0⟩, ⟨11, 11, .rsv, 0⟩, ⟨47, 12, .rw, 0⟩, ⟨63, 48, .rsv, 0⟩]⟩
  | .CAT_TIMER => ⟨[0x29], false, 0x20, [], 32, [⟨23, 0, .rw, 0x2710⟩, ⟨27, 24, .rw, 3⟩, ⟨31, 28, .rsv, 0⟩]⟩
  | .CAT_XCQ => ⟨[0x29], false, 0x28, [], 32, [⟨11, 0, .rw, 0⟩, ⟨12, 12, .rw, 0⟩, ⟨31, 13, .rsv, 0⟩]⟩
  | .CAT_Qq_CFG => ⟨[0x29], false, 0x100000, [(0x40, 4096)], 64, [⟨1, 0, .rw, 0⟩, ⟨6, 2, .rw, 0⟩, ⟨7, 7, .rw, 0⟩, ⟨11, 8, .rsv, 0⟩, ⟨47, 12, .rw, 0⟩, ⟨63, 48, .rw, 0⟩]⟩
  | .CAT_Qq_CQ => ⟨[0x29], false, 0x100008, [(0x40, 4096)], 64, [⟨11, 0, .rsv, 0⟩, ⟨47, 12, .rw, 0⟩, ⟨63, 48, .rsv, 0⟩]⟩
  | .CAT_Qq_OWNER => ⟨[0x29], false, 0x100010, [(0x40, 4096)], 64, [⟨0, 0, .rw, 0⟩, ⟨9, 1, .rw, 0⟩, ⟨15, 10, .rsv, 0⟩, ⟨31, 16, .rw, 0⟩, ⟨63, 32, .rw, 0xffffffff⟩]⟩
  | .CAT_Qq_PTR => ⟨[0x29], false, 0x100018, [(0x40, 4096)], 64, [⟨15, 0, .rw, 0⟩, ⟨31, 16, .ro, 0⟩, ⟨47, 32, .rw, 0⟩, ⟨63, 48, .ro, 0⟩]⟩
  | .CAT_Qq_ELOG => ⟨[0x29], false, 0x100020, [(0x40, 4096)], 64, [⟨3, 0, .rw, 0⟩, ⟨5, 4, .rsv, 0⟩, ⟨47, 6, .rw, 0⟩, ⟨63, 48, .rsv, 0⟩]⟩
  | .CAT_Qq_DB => ⟨[0x29], false, 0x100028, [(0x40, 4096)], 64, [⟨5, 0, .rsv, 0⟩, ⟨47, 6, .rw, 0⟩, ⟨63, 48, .rsv, 0⟩]⟩
  | .CAT_Qq_RESP => ⟨[0x29], false, 0x100030, [(0x40, 4096)], 64, [⟨31, 0, .rw, 0⟩, ⟨63, 32, .rw, 0⟩]⟩
  | .CAT_Qq_CTRL => ⟨[0x29], false, 0x100038, [(0x40, 4096)], 32, [⟨0, 0, .rw, 0⟩, ⟨1, 1, .wo, 0⟩, ⟨31, 2, .rsv, 0⟩]⟩
  | .CAT_Qq_STATE => ⟨[0x29], false, 0x10003c, [(0x40, 4096)], 32, [⟨2, 0, .ro, 0⟩, ⟨3, 3, .ro, 0⟩, ⟨4, 4, .ro, 0⟩, ⟨15, 5, .rsv, 0⟩, ⟨31, 16, .ro, 0⟩]⟩
  | .PCI_IRQ_RAISE => ⟨[0x20], false, 0x0, [], 32, [⟨3, 0, .wo, 0⟩, ⟨31, 4, .rsv, 0⟩]⟩
  | .PCI_IRQ_ROUTEs => ⟨[0x20], false, 0x10000, [(0x8, 13328)], 64, [⟨0, 0, .rw, 0⟩, ⟨1, 1, .rw, 0⟩, ⟨10, 2, .rw, 0⟩, ⟨11, 11, .rsv, 0⟩, ⟨22, 12, .rw, 0⟩, ⟨31, 23, .rsv, 0⟩, ⟨47, 32, .rw, 0⟩, ⟨63, 48, .rsv, 0⟩]⟩
  | .PCI_UP_STATUS => ⟨[0x21], false, 0x0, [], 32, [⟨0, 0, .ro, 0⟩, ⟨1, 1, .ro, 0⟩, ⟨4, 2, .ro, 0⟩, ⟨9, 5, .ro, 0⟩, ⟨10, 10, .ro, 0⟩, ⟨31, 11, .rsv, 0⟩]⟩
  | .PCI_WIN => ⟨[0x21], false, 0x8, [], 64, [⟨3, 0, .rw, 0⟩, ⟨7, 4, .rw, 0⟩, ⟨23, 8, .rsv, 0⟩, ⟨47, 24, .rw, 0x21000⟩, ⟨63, 48, .rsv, 0⟩]⟩
  | .PCI_TAG_STATUS => ⟨[0x21], false, 0x10, [], 32, [⟨12, 0, .ro, 0⟩, ⟨15, 13, .rsv, 0⟩, ⟨28, 16, .ro, 0⟩, ⟨31, 29, .rsv, 0⟩]⟩
  | .PCI_BAR4_SEGn => ⟨[0x21], false, 0x100, [(0x8, 16)], 64, [⟨0, 0, .rw, 0⟩, ⟨31, 1, .rsv, 0⟩, ⟨47, 32, .rw, 0⟩, ⟨63, 48, .rsv, 0⟩]⟩
  | .PCI_FNf_STATUS => ⟨[0x21], false, 0x10000, [(0x10, 257)], 32, [⟨0, 0, .ro, 0⟩, ⟨1, 1, .ro, 0⟩, ⟨2, 2, .ro, 0⟩, ⟨15, 3, .rsv, 0⟩, ⟨31, 16, .ro, 0⟩]⟩
  | .PCI_FNf_DMA => ⟨[0x21], false, 0x10008, [(0x10, 257)], 32, [⟨0, 0, .rw, 0⟩, ⟨1, 1, .rw, 0⟩, ⟨7, 2, .rsv, 0⟩, ⟨27, 8, .rw, 0⟩, ⟨31, 28, .rsv, 0⟩]⟩
  | .PCI_DP_CFG_ADDR => ⟨[0x22], false, 0x1000, [], 64, [⟨1, 0, .rsv, 0⟩, ⟨11, 2, .rw, 0⟩, ⟨14, 12, .rw, 0⟩, ⟨19, 15, .rw, 0⟩, ⟨27, 20, .rw, 0⟩, ⟨31, 28, .rsv, 0⟩, ⟨34, 32, .ro, 0⟩, ⟨63, 35, .rsv, 0⟩]⟩
  | .PCI_DP_CFG_DATA => ⟨[0x22], false, 0x1008, [], 32, [⟨31, 0, .rw, 0⟩]⟩
  | .PCI_DP_OUT => ⟨[0x22], false, 0x1010, [], 64, [⟨31, 0, .rsv, 0⟩, ⟨63, 32, .rw, 0⟩]⟩
  | .PCI_DP_INWw_BUS => ⟨[0x22], false, 0x1100, [(0x10, 8)], 64, [⟨0, 0, .rw, 0⟩, ⟨1, 1, .rw, 0⟩, ⟨2, 2, .rw, 0⟩, ⟨3, 3, .rw, 0⟩, ⟨11, 4, .rsv, 0⟩, ⟨63, 12, .rw, 0⟩]⟩
  | .PCI_DP_INWw_MAP => ⟨[0x22], false, 0x1108, [(0x10, 8)], 64, [⟨5, 0, .rw, 0⟩, ⟨11, 6, .rsv, 0⟩, ⟨47, 12, .rw, 0⟩, ⟨63, 48, .rsv, 0⟩]⟩
  | .PCI_VFv_CTRL => ⟨[0x21], false, 0x20000, [(0x20, 256)], 32, [⟨0, 0, .rw, 0⟩, ⟨31, 1, .rsv, 0⟩]⟩
  | .PCI_VFv_STATE => ⟨[0x21], false, 0x20004, [(0x20, 256)], 32, [⟨2, 0, .ro, 0⟩, ⟨3, 3, .ro, 0⟩, ⟨15, 4, .rsv, 0⟩, ⟨31, 16, .ro, 0⟩]⟩
  | .PCI_VFv_PROV => ⟨[0x21], false, 0x20008, [(0x20, 256)], 64, [⟨11, 0, .rw, 0⟩, ⟨15, 12, .rsv, 0⟩, ⟨31, 16, .rw, 0⟩, ⟨47, 32, .rw, 0⟩, ⟨63, 48, .rsv, 0⟩]⟩
  | .PCI_VFv_KEYS => ⟨[0x21], false, 0x20010, [(0x20, 256)], 32, [⟨13, 0, .rw, 0⟩, ⟨15, 14, .rsv, 0⟩, ⟨30, 16, .rw, 0⟩, ⟨31, 31, .rsv, 0⟩]⟩
  | .PCI_VFv_DIRTY_CTRL => ⟨[0x21], false, 0x30000, [(0x40, 256)], 32, [⟨0, 0, .rw, 0⟩, ⟨1, 1, .ro, 0⟩, ⟨2, 2, .wo, 0⟩, ⟨3, 3, .ro, 0⟩, ⟨31, 4, .rsv, 0⟩]⟩
  | .PCI_VFv_DIRTY_RANGE => ⟨[0x21], false, 0x30008, [(0x40, 256)], 64, [⟨11, 0, .rsv, 0⟩, ⟨63, 12, .rw, 0⟩]⟩
  | .PCI_VFv_DIRTY_PAGES => ⟨[0x21], false, 0x30010, [(0x40, 256)], 32, [⟨31, 0, .rw, 0⟩]⟩
  | .PCI_VFv_DIRTY_MAPA => ⟨[0x21], false, 0x30018, [(0x40, 256)], 64, [⟨5, 0, .rsv, 0⟩, ⟨63, 6, .rw, 0⟩]⟩
  | .PCI_VFv_DIRTY_MAPB => ⟨[0x21], false, 0x30020, [(0x40, 256)], 64, [⟨5, 0, .rsv, 0⟩, ⟨63, 6, .rw, 0⟩]⟩
  | .PCI_VFv_DIRTY_MISS => ⟨[0x21], false, 0x30028, [(0x40, 256)], 32, [⟨31, 0, .ro, 0⟩]⟩
  | .PCI_VFv_PAGEp => ⟨[0x21], false, 0x80000, [(0x800, 256), (0x8, 256)], 64, [⟨3, 0, .rw, 0⟩, ⟨4, 4, .rw, 0⟩, ⟨15, 5, .rsv, 0⟩, ⟨27, 16, .rw, 0⟩, ⟨63, 28, .rw, 0⟩]⟩
  | .FLT_CFG => ⟨[0x2a], false, 0x0, [], 64, [⟨3, 0, .rw, 0⟩, ⟨11, 4, .rsv, 0⟩, ⟨47, 12, .rw, 0⟩, ⟨63, 48, .rw, 0x3e8⟩]⟩
  | .FLT_Qq_CFG => ⟨[0x2a], false, 0x10000, [(0x20, 256)], 64, [⟨0, 0, .rw, 0⟩, ⟨1, 1, .rw, 0⟩, ⟨6, 2, .rw, 0⟩, ⟨11, 7, .rsv, 0⟩, ⟨47, 12, .rw, 0⟩, ⟨63, 48, .rsv, 0⟩]⟩
  | .FLT_Qq_PTR => ⟨[0x2a], false, 0x10008, [(0x20, 256)], 64, [⟨15, 0, .rw, 0⟩, ⟨31, 16, .ro, 0⟩, ⟨63, 32, .rw, 0xffffffff⟩]⟩
  | .FLT_Qq_DB => ⟨[0x2a], false, 0x10010, [(0x20, 256)], 64, [⟨5, 0, .rsv, 0⟩, ⟨47, 6, .rw, 0⟩, ⟨63, 48, .rsv, 0⟩]⟩
  | .KEY_CMD_ARG => ⟨[0x2c], false, 0x0, [], 64, [⟨47, 0, .rw, 0⟩, ⟨61, 48, .rw, 0⟩, ⟨63, 62, .rsv, 0⟩]⟩
  | .KEY_CMD => ⟨[0x2c], false, 0x8, [], 32, [⟨1, 0, .wo, 0⟩, ⟨2, 2, .wo, 0⟩, ⟨3, 3, .wo, 0⟩, ⟨4, 4, .wo, 0⟩, ⟨5, 5, .wo, 0⟩, ⟨6, 6, .wo, 0⟩, ⟨15, 7, .rsv, 0⟩, ⟨29, 16, .wo, 0⟩, ⟨31, 30, .rsv, 0⟩]⟩
  | .KEY_CMD_RESULT => ⟨[0x2c], false, 0x10, [], 32, [⟨1, 0, .ro, 0⟩, ⟨7, 2, .rsv, 0⟩, ⟨15, 8, .ro, 0⟩, ⟨29, 16, .ro, 0⟩, ⟨31, 30, .rsv, 0⟩]⟩
  | .KEY_ATTRn => ⟨[0x2c], false, 0x10000, [(0x8, 16384)], 64, [⟨1, 0, .ro, 0⟩, ⟨2, 2, .ro, 0⟩, ⟨3, 3, .ro, 0⟩, ⟨6, 4, .ro, 0⟩, ⟨7, 7, .rsv, 0⟩, ⟨15, 8, .ro, 0⟩, ⟨63, 16, .rsv, 0⟩]⟩
  | .ROT_STATUS => ⟨[0x32], false, 0x0, [], 64, [⟨2, 0, .ro, 0⟩, ⟨3, 3, .ro, 0⟩, ⟨5, 4, .ro, 0⟩, ⟨7, 6, .ro, 0⟩, ⟨11, 8, .ro, 0⟩, ⟨18, 12, .ro, 0⟩, ⟨25, 19, .ro, 0⟩, ⟨31, 26, .rsv, 0⟩, ⟨39, 32, .ro, 0⟩, ⟨63, 40, .rsv, 0⟩]⟩
  | .ROT_CMD_ARG => ⟨[0x32], false, 0x8, [], 64, [⟨47, 0, .rw, 0⟩, ⟨63, 48, .rw, 0⟩]⟩
  | .ROT_CMD => ⟨[0x32], false, 0x10, [], 32, [⟨2, 0, .wo, 0⟩, ⟨31, 3, .rsv, 0⟩]⟩
  | .ROT_CMD_RESULT => ⟨[0x32], false, 0x18, [], 32, [⟨1, 0, .ro, 0⟩, ⟨7, 2, .rsv, 0⟩, ⟨15, 8, .ro, 0⟩, ⟨31, 16, .rsv, 0⟩]⟩
  | .ROT_MEASUREm => ⟨[0x32], false, 0x40, [(0x8, 6)], 64, [⟨63, 0, .ro, 0⟩]⟩
  | .ROT_NONCEm => ⟨[0x32], false, 0x80, [(0x8, 4)], 64, [⟨63, 0, .ro, 0⟩]⟩
  | .EPH_STATUS => ⟨[0x2d], false, 0x0, [], 64, [⟨0, 0, .ro, 0⟩, ⟨1, 1, .ro, 0⟩, ⟨2, 2, .ro, 0⟩, ⟨31, 3, .rsv, 0⟩, ⟨63, 32, .ro, 0⟩]⟩
  | .EPH_JOB => ⟨[0x2d], false, 0x8, [], 64, [⟨5, 0, .rsv, 0⟩, ⟨47, 6, .rw, 0⟩, ⟨63, 48, .rsv, 0⟩]⟩
  | .EPH_CFG => ⟨[0x2d], false, 0x10, [], 32, [⟨15, 0, .rw, 1⟩, ⟨23, 16, .rw, 0x64⟩, ⟨31, 24, .rsv, 0⟩]⟩
  | .EPH_EPOCH_STEP => ⟨[0x2d], false, 0x18, [], 64, [⟨63, 0, .ro, 0⟩]⟩
  | .EPH_DESTd_COMMIT => ⟨[0x2d], false, 0x20, [(0x10, 2)], 64, [⟨63, 0, .ro, 0⟩]⟩
  | .EPH_DESTd_STATE => ⟨[0x2d], false, 0x28, [(0x10, 2)], 32, [⟨0, 0, .ro, 0⟩, ⟨1, 1, .ro, 0⟩, ⟨7, 2, .rsv, 0⟩, ⟨15, 8, .ro, 0⟩, ⟨31, 16, .rsv, 0⟩]⟩
  | .EPH_WARN_CFG => ⟨[0x2d], false, 0x40, [], 64, [⟨15, 0, .rw, 0x3e8⟩, ⟨31, 16, .rw, 0x2710⟩, ⟨39, 32, .rw, 5⟩, ⟨43, 40, .rw, 1⟩, ⟨63, 44, .rsv, 0⟩]⟩
  | .EPH_WARN_STATUS => ⟨[0x2d], false, 0x48, [], 32, [⟨3, 0, .rw1c, 0⟩, ⟨31, 4, .rsv, 0⟩]⟩
  | .EPH_CMDQ_CFG => ⟨[0x2d], false, 0x100, [], 64, [⟨0, 0, .rw, 0⟩, ⟨1, 1, .rw, 0⟩, ⟨6, 2, .rw, 0⟩, ⟨11, 7, .rsv, 0⟩, ⟨47, 12, .rw, 0⟩, ⟨63, 48, .rsv, 0⟩]⟩
  | .EPH_CMDQ_PTR => ⟨[0x2d], false, 0x108, [], 64, [⟨15, 0, .rw, 0⟩, ⟨31, 16, .ro, 0⟩, ⟨63, 32, .rw, 0xffffffff⟩]⟩
  | .EPH_CMDQ_DB => ⟨[0x2d], false, 0x110, [], 64, [⟨5, 0, .rsv, 0⟩, ⟨47, 6, .rw, 0⟩, ⟨63, 48, .rsv, 0⟩]⟩
  | .SMC_FLIP_CTRL => ⟨[0x14], false, 0x8, [], 32, [⟨0, 0, .rw, 0⟩, ⟨1, 1, .rw, 0⟩, ⟨7, 2, .rsv, 0⟩, ⟨15, 8, .rw, 0⟩, ⟨23, 16, .rw, 0⟩, ⟨29, 24, .rw, 0⟩, ⟨31, 30, .rsv, 0⟩]⟩
  | .SMC_FLIP_DATA => ⟨[0x14], false, 0x10, [], 64, [⟨63, 0, .rw, 0⟩]⟩
  | .SMC_FLIP_ADDR => ⟨[0x14], false, 0x18, [], 64, [⟨5, 0, .rsv, 0⟩, ⟨47, 6, .rw, 0⟩, ⟨63, 48, .rsv, 0⟩]⟩
  | .CHR_STATUS => ⟨[0x30], false, 0x0, [], 32, [⟨0, 0, .ro, 0⟩, ⟨1, 1, .ro, 0⟩, ⟨2, 2, .ro, 0⟩, ⟨3, 3, .ro, 0⟩, ⟨4, 4, .ro, 0⟩, ⟨5, 5, .ro, 0⟩, ⟨7, 6, .rsv, 0⟩, ⟨9, 8, .ro, 0⟩, ⟨10, 10, .rw1c, 0⟩, ⟨31, 11, .rsv, 0⟩]⟩
  | .CHR_TIME => ⟨[0x30], false, 0x8, [], 64, [⟨63, 0, .ro, 0⟩]⟩
  | .CHR_TB_RATE => ⟨[0x30], false, 0x10, [], 64, [⟨31, 0, .rwp, 0⟩, ⟨63, 32, .ro, 0⟩]⟩
  | .CHR_TB_RATE_C => ⟨[0x30], false, 0x18, [], 64, [⟨31, 0, .rwp, 0xffffffff⟩, ⟨63, 32, .rsv, 0⟩]⟩
  | .CHR_TB_STEP => ⟨[0x30], false, 0x20, [], 64, [⟨63, 0, .wo, 0⟩]⟩
  | .CHR_TB_PENDING => ⟨[0x30], false, 0x28, [], 64, [⟨63, 0, .ro, 0⟩]⟩
  | .CHR_SAFE_CTRL => ⟨[0x30], false, 0x30, [], 32, [⟨0, 0, .wo, 0⟩, ⟨1, 1, .rw, 0⟩, ⟨31, 2, .rsv, 0⟩]⟩
  | .CHR_RESET_REQ => ⟨[0x30], false, 0x38, [], 32, [⟨0, 0, .wo, 0⟩, ⟨31, 1, .rsv, 0⟩]⟩
  | .CHR_INPUT_LEVEL => ⟨[0x30], false, 0x40, [], 64, [⟨63, 0, .ro, 0⟩]⟩
  | .CHR_INPUT_STUCK => ⟨[0x30], false, 0x48, [], 64, [⟨63, 0, .rw1c, 0⟩]⟩
  | .CHR_TXTSp_INFO => ⟨[0x30], false, 0x100, [(0x10, 8)], 64, [⟨0, 0, .ro, 0⟩, ⟨5, 1, .ro, 0⟩, ⟨6, 6, .rw1c, 0⟩, ⟨7, 7, .ro, 0⟩, ⟨11, 8, .ro, 0⟩, ⟨15, 12, .rsv, 0⟩, ⟨31, 16, .ro, 0⟩, ⟨39, 32, .ro, 0⟩, ⟨63, 40, .rsv, 0⟩]⟩
  | .CHR_TXTSp_TIME => ⟨[0x30], false, 0x108, [(0x10, 8)], 64, [⟨63, 0, .ro, 0⟩]⟩
  | .HEL_STATUS => ⟨[0x31], false, 0x0, [], 32, [⟨0, 0, .ro, 0⟩, ⟨1, 1, .ro, 0⟩, ⟨2, 2, .ro, 0⟩, ⟨3, 3, .ro, 0⟩, ⟨4, 4, .ro, 0⟩, ⟨5, 5, .ro, 0⟩, ⟨7, 6, .rsv, 0⟩, ⟨15, 8, .ro, 0⟩, ⟨31, 16, .rsv, 0⟩]⟩
  | .HEL_CAP_W => ⟨[0x31], false, 0x8, [], 32, [⟨11, 0, .rwp, 0xaf0⟩, ⟨15, 12, .rsv, 0⟩, ⟨27, 16, .ro, 0xaf0⟩, ⟨31, 28, .rsv, 0⟩]⟩
  | .HEL_CAP_W_C => ⟨[0x31], false, 0xc, [], 32, [⟨11, 0, .rwp, 0x50f⟩, ⟨31, 12, .rsv, 0⟩]⟩
  | .HEL_PEAK => ⟨[0x31], false, 0x10, [], 64, [⟨11, 0, .rwp, 0xce4⟩, ⟨15, 12, .rsv, 0⟩, ⟨25, 16, .rwp, 0x3e8⟩, ⟨31, 26, .rsv, 0⟩, ⟨43, 32, .ro, 0xce4⟩, ⟨47, 44, .rsv, 0⟩, ⟨57, 48, .ro, 0x3e8⟩, ⟨63, 58, .rsv, 0⟩]⟩
  | .HEL_PEAK_C => ⟨[0x31], false, 0x18, [], 32, [⟨11, 0, .rwp, 0x31b⟩, ⟨15, 12, .rsv, 0⟩, ⟨25, 16, .rwp, 0x17⟩, ⟨31, 26, .rsv, 0⟩]⟩
  | .HEL_SLEW => ⟨[0x31], false, 0x20, [], 32, [⟨7, 0, .rw, 0xb4⟩, ⟨15, 8, .rw, 0⟩, ⟨31, 16, .rw, 0⟩]⟩
  | .HEL_MEAS => ⟨[0x31], false, 0x28, [], 64, [⟨15, 0, .ro, 0⟩, ⟨31, 16, .ro, 0⟩, ⟨47, 32, .ro, 0⟩, ⟨63, 48, .ro, 0⟩]⟩
  | .HEL_CAL => ⟨[0x31], false, 0x30, [], 64, [⟨15, 0, .ro, 0x89a2⟩, ⟨31, 16, .ro, 0⟩, ⟨39, 32, .ro, 0⟩, ⟨47, 40, .ro, 0⟩, ⟨63, 48, .rsv, 0⟩]⟩
  | .HEL_EVENTS => ⟨[0x31], false, 0x38, [], 32, [⟨0, 0, .rw1c, 0⟩, ⟨1, 1, .rw1c, 0⟩, ⟨2, 2, .rw1c, 0⟩, ⟨3, 3, .rw1c, 0⟩, ⟨4, 4, .rw1c, 0⟩, ⟨5, 5, .rw1c, 0⟩, ⟨6, 6, .rw1c, 0⟩, ⟨31, 7, .rsv, 0⟩]⟩
  | .HEL_THERM => ⟨[0x31], false, 0x40, [], 64, [⟨7, 0, .rw, 0x64⟩, ⟨15, 8, .rw, 0x73⟩, ⟨23, 16, .rw, 0x5f⟩, ⟨31, 24, .ro, 0⟩, ⟨39, 32, .ro, 0⟩, ⟨43, 40, .ro, 0⟩, ⟨63, 44, .rsv, 0⟩]⟩
  | .HEL_THROTTLE => ⟨[0x31], false, 0x48, [], 32, [⟨10, 0, .rw, 0x384⟩, ⟨15, 11, .rsv, 0⟩, ⟨27, 16, .rw, 0x640⟩, ⟨31, 28, .rsv, 0⟩]⟩
  | .HEL_REASON => ⟨[0x31], false, 0x50, [], 32, [⟨9, 0, .ro, 0⟩, ⟨15, 10, .rsv, 0⟩, ⟨25, 16, .ro, 0⟩, ⟨31, 26, .rsv, 0⟩]⟩
  | .HEL_ACCORD_CFG => ⟨[0x31], false, 0x58, [], 64, [⟨0, 0, .rw, 0⟩, ⟨10, 1, .rw, 0⟩, ⟨15, 11, .rsv, 0⟩, ⟨23, 16, .rw, 4⟩, ⟨31, 24, .rsv, 0⟩, ⟨47, 32, .rw, 0xc8⟩, ⟨63, 48, .rsv, 0⟩]⟩
  | .HEL_ACCORD_STATUS => ⟨[0x31], false, 0x60, [], 64, [⟨0, 0, .ro, 0⟩, ⟨7, 1, .rsv, 0⟩, ⟨15, 8, .ro, 0⟩, ⟨26, 16, .ro, 0⟩, ⟨31, 27, .rsv, 0⟩, ⟨63, 32, .ro, 0⟩]⟩
  | .HEL_DERATE => ⟨[0x31], false, 0x68, [], 32, [⟨15, 0, .wo, 0⟩, ⟨23, 16, .wo, 0⟩, ⟨31, 24, .rsv, 0⟩]⟩
  | .HEL_DERATE_RESULT => ⟨[0x31], false, 0x6c, [], 32, [⟨1, 0, .ro, 0⟩, ⟨7, 2, .rsv, 0⟩, ⟨15, 8, .ro, 0⟩, ⟨31, 16, .rsv, 0⟩]⟩
  | .HEL_MON_SEL => ⟨[0x31], false, 0x70, [], 32, [⟨15, 0, .rw, 0⟩, ⟨31, 16, .rsv, 0⟩]⟩
  | .HEL_MON_DATA => ⟨[0x31], false, 0x78, [], 32, [⟨15, 0, .ro, 0⟩, ⟨23, 16, .ro, 0⟩, ⟨30, 24, .rsv, 0⟩, ⟨31, 31, .ro, 0⟩]⟩
  | .HEL_PHASE => ⟨[0x31], false, 0x80, [], 32, [⟨0, 0, .rw, 1⟩, ⟨7, 1, .rsv, 0⟩, ⟨13, 8, .ro, 0⟩, ⟨31, 14, .rsv, 0⟩]⟩
  | .HEL_SEEn => ⟨[0x31], false, 0x1000, [(0x8, 64)], 64, [⟨15, 0, .rw, 0x4e2⟩, ⟨31, 16, .rw, 0x258⟩, ⟨47, 32, .rw, 0x3e8⟩, ⟨63, 48, .rw, 0⟩]⟩
  | .DOM_COREn_BOOT_PC => ⟨[0x2e], false, 0x100, [(0x40, 8)], 64, [⟨1, 0, .rsv, 0⟩, ⟨63, 2, .rw, 0x3fffffffffff0000⟩]⟩
  | .DOM_COREn_WDT_CFG => ⟨[0x2e], false, 0x108, [(0x40, 8)], 32, [⟨0, 0, .rw, 1⟩, ⟨1, 1, .rw, 1⟩, ⟨15, 2, .rsv, 0⟩, ⟨31, 16, .rw, 0x1f4⟩]⟩
  | .DOM_COREn_WDT_KICK => ⟨[0x2e], false, 0x110, [(0x40, 8)], 32, [⟨0, 0, .wo, 0⟩, ⟨31, 1, .rsv, 0⟩]⟩
  | .DOM_COREn_WDT_STATUS => ⟨[0x2e], false, 0x118, [(0x40, 8)], 32, [⟨15, 0, .ro, 0x1f4⟩, ⟨23, 16, .ro, 0⟩, ⟨24, 24, .rw1c, 0⟩, ⟨31, 25, .rsv, 0⟩]⟩
  | .DOM_COREn_WDT_LAST => ⟨[0x2e], false, 0x120, [(0x40, 8)], 64, [⟨63, 0, .ro, 0⟩]⟩
  | .DOM_COREn_WDT_PC => ⟨[0x2e], false, 0x128, [(0x40, 8)], 64, [⟨63, 0, .ro, 0⟩]⟩
  | .DOM_FW_STATUS => ⟨[0x2e], false, 0x100000, [(0x100000, 2)], 64, [⟨1, 0, .rw, 0⟩, ⟨7, 2, .rsv, 0⟩, ⟨15, 8, .rw, 0⟩, ⟨23, 16, .ro, 0⟩, ⟨31, 24, .rsv, 0⟩, ⟨63, 32, .rw, 0⟩]⟩
  | .DOM_HOST_HEARTBEAT => ⟨[0x2e], false, 0x100008, [(0x100000, 2)], 32, [⟨31, 0, .rw, 0⟩]⟩
  | .DOM_HOST_HB_CFG => ⟨[0x2e], false, 0x100010, [(0x100000, 2)], 32, [⟨15, 0, .rw, 0x7d0⟩, ⟨31, 16, .rsv, 0⟩]⟩
  | .DOM_HOST_STATE => ⟨[0x2e], false, 0x100018, [(0x100000, 2)], 32, [⟨0, 0, .ro, 0⟩, ⟨1, 1, .ro, 0⟩, ⟨15, 2, .rsv, 0⟩, ⟨31, 16, .ro, 0⟩]⟩
  | .DOM_HOST_ATTACH => ⟨[0x2e], false, 0x100020, [(0x100000, 2)], 32, [⟨0, 0, .wo, 0⟩, ⟨31, 1, .rsv, 0⟩]⟩
  | .PHOT_CTRL => ⟨[], false, 0x800, [], 32, [⟨7, 0, .rw, 0⟩, ⟨11, 8, .rw, 0⟩, ⟨31, 12, .rsv, 0⟩]⟩
  | .PHOT_OVF => ⟨[], false, 0x808, [], 32, [⟨7, 0, .rw1c, 0⟩, ⟨31, 8, .rsv, 0⟩]⟩
  | .PHOT_SELc => ⟨[], false, 0x840, [(0x4, 8)], 32, [⟨11, 0, .rw, 0⟩, ⟨15, 12, .rsv, 0⟩, ⟨27, 16, .rw, 0xfff⟩, ⟨31, 28, .rsv, 0⟩]⟩
  | .PHOT_CNTc => ⟨[], false, 0x880, [(0x8, 8)], 64, [⟨47, 0, .rw, 0⟩, ⟨63, 48, .rsv, 0⟩]⟩
  | .PHOT_EXP_CTRL => ⟨[0x1], false, 0x0, [], 32, [⟨0, 0, .rw, 0⟩, ⟨11, 1, .rsv, 0⟩, ⟨31, 12, .rw, 0x3e8⟩]⟩
  | .PHOT_EXP_LIST => ⟨[0x1], false, 0x8, [], 64, [⟨10, 0, .rw, 0⟩, ⟨11, 11, .rsv, 0⟩, ⟨47, 12, .rw, 0⟩, ⟨63, 48, .rsv, 0⟩]⟩
  | .PHOT_EXP_RING => ⟨[0x1], false, 0x10, [], 64, [⟨4, 0, .rw, 0⟩, ⟨11, 5, .rsv, 0⟩, ⟨47, 12, .rw, 0⟩, ⟨63, 48, .rsv, 0⟩]⟩
  | .PHOT_EXP_PTR => ⟨[0x1], false, 0x18, [], 64, [⟨15, 0, .rw, 0⟩, ⟨31, 16, .ro, 0⟩, ⟨63, 32, .rw, 0xffffffff⟩]⟩
  | .ROT_FLASH_ARG => ⟨[0x32], false, 0x100, [], 64, [⟨47, 0, .rw, 0⟩, ⟨63, 48, .rsv, 0⟩]⟩
  | .ROT_FLASH_CMD => ⟨[0x32], false, 0x108, [], 64, [⟨1, 0, .wo, 0⟩, ⟨7, 2, .rsv, 0⟩, ⟨33, 8, .wo, 0⟩, ⟨47, 34, .rsv, 0⟩, ⟨56, 48, .wo, 0⟩, ⟨63, 57, .rsv, 0⟩]⟩
  | .ROT_FLASH_RESULT => ⟨[0x32], false, 0x110, [], 32, [⟨1, 0, .ro, 0⟩, ⟨7, 2, .rsv, 0⟩, ⟨15, 8, .ro, 0⟩, ⟨31, 16, .rsv, 0⟩]⟩
  | .PLT_FLIP_CTRL => ⟨[0x12], false, 0x10, [], 32, [⟨0, 0, .rw, 0⟩, ⟨1, 1, .rw, 0⟩, ⟨7, 2, .rsv, 0⟩, ⟨15, 8, .rw, 0⟩, ⟨23, 16, .rw, 0⟩, ⟨29, 24, .rw, 0⟩, ⟨31, 30, .rsv, 0⟩]⟩
  | .PLT_FLIP_DATA => ⟨[0x12], false, 0x18, [], 64, [⟨63, 0, .rw, 0⟩]⟩
  | .PLT_FLIP_ADDR => ⟨[0x12], false, 0x20, [], 64, [⟨5, 0, .rsv, 0⟩, ⟨47, 6, .rw, 0⟩, ⟨63, 48, .rsv, 0⟩]⟩
  | .CELL_FEATn => ⟨[], false, 0x100, [(0x8, 8)], 64, [⟨63, 0, .ro, 0⟩]⟩

/-- A named field of a register: the register and bits [hi:lo]. -/
structure Fld where
  reg : RegId
  hi : Nat
  lo : Nat
  deriving DecidableEq, Repr

namespace F
/-! `CELL_IDENT`: 02_cells_and_address_space -/
def CELL_IDENT_ID : Fld := ⟨.CELL_IDENT, 15, 0⟩
def CELL_IDENT_KIND : Fld := ⟨.CELL_IDENT, 23, 16⟩
def CELL_IDENT_STEPPING : Fld := ⟨.CELL_IDENT, 31, 24⟩
/-! `CELL_CHILD_COUNT`: 02_cells_and_address_space -/
def CELL_CHILD_COUNT_COUNT : Fld := ⟨.CELL_CHILD_COUNT, 9, 0⟩
/-! `CELL_CHILDn`: 02_cells_and_address_space -/
def CELL_CHILDn_LO : Fld := ⟨.CELL_CHILDn, 15, 0⟩
def CELL_CHILDn_HI : Fld := ⟨.CELL_CHILDn, 31, 16⟩
/-! `CELL_STATE`: 02_cells_and_address_space -/
def CELL_STATE_STATE : Fld := ⟨.CELL_STATE, 2, 0⟩
def CELL_STATE_QUIESCE_BUSY : Fld := ⟨.CELL_STATE, 3, 3⟩
def CELL_STATE_RESETTING : Fld := ⟨.CELL_STATE, 4, 4⟩
def CELL_STATE_GEN : Fld := ⟨.CELL_STATE, 31, 16⟩
/-! `CELL_CTRL`: 02_cells_and_address_space -/
def CELL_CTRL_EN : Fld := ⟨.CELL_CTRL, 0, 0⟩
/-! `CELL_RESET`: 02_cells_and_address_space -/
def CELL_RESET_RESET : Fld := ⟨.CELL_RESET, 0, 0⟩
/-! `CELL_CLOCK`: 02_cells_and_address_space -/
def CELL_CLOCK_ISLAND : Fld := ⟨.CELL_CLOCK, 10, 0⟩
def CELL_CLOCK_FMAX_MHZ : Fld := ⟨.CELL_CLOCK, 31, 16⟩
/-! `CELL_POWER`: 02_cells_and_address_space -/
def CELL_POWER_PSTATE : Fld := ⟨.CELL_POWER, 1, 0⟩
def CELL_POWER_POWER_REQ : Fld := ⟨.CELL_POWER, 5, 4⟩
def CELL_POWER_CUR_MHZ : Fld := ⟨.CELL_POWER, 31, 16⟩
/-! `CELL_UNIT_BASE`: 02_cells_and_address_space -/
def CELL_UNIT_BASE_BASE : Fld := ⟨.CELL_UNIT_BASE, 47, 0⟩
/-! `CELL_UNIT_SIZE`: 02_cells_and_address_space -/
def CELL_UNIT_SIZE_SIZE : Fld := ⟨.CELL_UNIT_SIZE, 31, 0⟩
/-! `CELL_ERR_STATUS`: 02_cells_and_address_space -/
def CELL_ERR_STATUS_VALID : Fld := ⟨.CELL_ERR_STATUS, 0, 0⟩
def CELL_ERR_STATUS_OVERFLOW : Fld := ⟨.CELL_ERR_STATUS, 1, 1⟩
def CELL_ERR_STATUS_CLASS : Fld := ⟨.CELL_ERR_STATUS, 15, 8⟩
def CELL_ERR_STATUS_COUNT : Fld := ⟨.CELL_ERR_STATUS, 31, 16⟩
/-! `CELL_ERR_ADDR`: 02_cells_and_address_space -/
def CELL_ERR_ADDR_ADDR : Fld := ⟨.CELL_ERR_ADDR, 47, 0⟩
/-! `CELL_ERR_TIME`: 02_cells_and_address_space -/
def CELL_ERR_TIME_TIME : Fld := ⟨.CELL_ERR_TIME, 63, 0⟩
/-! `CELL_ERR_INFO`: 02_cells_and_address_space -/
def CELL_ERR_INFO_INFO : Fld := ⟨.CELL_ERR_INFO, 31, 0⟩
/-! `PRIM_MAP`: 04_primary_array -/
def PRIM_MAP_SPARE_ROW : Fld := ⟨.PRIM_MAP, 4, 0⟩
def PRIM_MAP_SPARE_COL : Fld := ⟨.PRIM_MAP, 12, 8⟩
def PRIM_MAP_ROW_IN_FORCE : Fld := ⟨.PRIM_MAP, 20, 16⟩
def PRIM_MAP_COL_IN_FORCE : Fld := ⟨.PRIM_MAP, 28, 24⟩
/-! `PRIM_MAP_C`: 04_primary_array -/
def PRIM_MAP_C_SPARE_ROW_C : Fld := ⟨.PRIM_MAP_C, 4, 0⟩
def PRIM_MAP_C_SPARE_COL_C : Fld := ⟨.PRIM_MAP_C, 12, 8⟩
/-! `PRIM_CLK_CAP`: 04_primary_array -/
def PRIM_CLK_CAP_CAP_MHZ : Fld := ⟨.PRIM_CLK_CAP, 10, 0⟩
def PRIM_CLK_CAP_CAP_IN_FORCE : Fld := ⟨.PRIM_CLK_CAP, 26, 16⟩
/-! `PRIM_CLK_CAP_C`: 04_primary_array -/
def PRIM_CLK_CAP_C_CAP_MHZ_C : Fld := ⟨.PRIM_CLK_CAP_C, 10, 0⟩
/-! `PRIM_CLK_STATUS`: 04_primary_array -/
def PRIM_CLK_STATUS_ARRAY_MHZ : Fld := ⟨.PRIM_CLK_STATUS, 10, 0⟩
def PRIM_CLK_STATUS_FUSED_MIN_MHZ : Fld := ⟨.PRIM_CLK_STATUS, 26, 16⟩
/-! `PRIM_CLK_LIMIT`: 04_primary_array -/
def PRIM_CLK_LIMIT_HEL_LIMIT_MHZ : Fld := ⟨.PRIM_CLK_LIMIT, 10, 0⟩
/-! `PRIM_QUEUE_STATUS`: 04_primary_array -/
def PRIM_QUEUE_STATUS_COUNT : Fld := ⟨.PRIM_QUEUE_STATUS, 6, 0⟩
def PRIM_QUEUE_STATUS_EMPTY : Fld := ⟨.PRIM_QUEUE_STATUS, 8, 8⟩
def PRIM_QUEUE_STATUS_FULL : Fld := ⟨.PRIM_QUEUE_STATUS, 9, 9⟩
def PRIM_QUEUE_STATUS_BUSY : Fld := ⟨.PRIM_QUEUE_STATUS, 10, 10⟩
def PRIM_QUEUE_STATUS_PAUSED : Fld := ⟨.PRIM_QUEUE_STATUS, 11, 11⟩
def PRIM_QUEUE_STATUS_BLOCKED : Fld := ⟨.PRIM_QUEUE_STATUS, 12, 12⟩
def PRIM_QUEUE_STATUS_DARK : Fld := ⟨.PRIM_QUEUE_STATUS, 13, 13⟩
def PRIM_QUEUE_STATUS_RUN_KIND : Fld := ⟨.PRIM_QUEUE_STATUS, 18, 16⟩
/-! `PRIM_QUEUE_CTRL`: 04_primary_array -/
def PRIM_QUEUE_CTRL_PAUSE : Fld := ⟨.PRIM_QUEUE_CTRL, 0, 0⟩
def PRIM_QUEUE_CTRL_FLUSH : Fld := ⟨.PRIM_QUEUE_CTRL, 1, 1⟩
/-! `PRIM_ISSUE_TICKET`: 04_primary_array -/
def PRIM_ISSUE_TICKET_NEXT : Fld := ⟨.PRIM_ISSUE_TICKET, 63, 0⟩
/-! `PRIM_RUN_TICKET`: 04_primary_array -/
def PRIM_RUN_TICKET_RUN : Fld := ⟨.PRIM_RUN_TICKET, 63, 0⟩
/-! `PRIM_DONE_TICKET`: 04_primary_array -/
def PRIM_DONE_TICKET_DONE : Fld := ⟨.PRIM_DONE_TICKET, 63, 0⟩
/-! `PRIM_ACC_STATUS`: 04_primary_array -/
def PRIM_ACC_STATUS_RETAINED : Fld := ⟨.PRIM_ACC_STATUS, 0, 0⟩
def PRIM_ACC_STATUS_ACC_M : Fld := ⟨.PRIM_ACC_STATUS, 13, 1⟩
def PRIM_ACC_STATUS_ACC_N : Fld := ⟨.PRIM_ACC_STATUS, 27, 16⟩
/-! `SMC_STATUS`: 06_plates_and_feeding -/
def SMC_STATUS_TRAINED : Fld := ⟨.SMC_STATUS, 0, 0⟩
def SMC_STATUS_TRAIN_FAIL : Fld := ⟨.SMC_STATUS, 1, 1⟩
def SMC_STATUS_TEMP_C : Fld := ⟨.SMC_STATUS, 15, 8⟩
def SMC_STATUS_REFRESH : Fld := ⟨.SMC_STATUS, 17, 16⟩
/-! `PLT_RING_CTRL`: 06_plates_and_feeding -/
def PLT_RING_CTRL_RING_EN : Fld := ⟨.PLT_RING_CTRL, 0, 0⟩
def PLT_RING_CTRL_EN_IN_FORCE : Fld := ⟨.PLT_RING_CTRL, 1, 1⟩
def PLT_RING_CTRL_RING_MIB : Fld := ⟨.PLT_RING_CTRL, 23, 16⟩
/-! `FEED_STATUS`: 06_plates_and_feeding -/
def FEED_STATUS_HEAD_STAGED : Fld := ⟨.FEED_STATUS, 0, 0⟩
def FEED_STATUS_WB_BUSY : Fld := ⟨.FEED_STATUS, 1, 1⟩
/-! `MOV_QUEUE_STATUS`: 06_plates_and_feeding -/
def MOV_QUEUE_STATUS_COUNT : Fld := ⟨.MOV_QUEUE_STATUS, 5, 0⟩
def MOV_QUEUE_STATUS_EMPTY : Fld := ⟨.MOV_QUEUE_STATUS, 8, 8⟩
def MOV_QUEUE_STATUS_FULL : Fld := ⟨.MOV_QUEUE_STATUS, 9, 9⟩
def MOV_QUEUE_STATUS_BUSY : Fld := ⟨.MOV_QUEUE_STATUS, 10, 10⟩
def MOV_QUEUE_STATUS_PAUSED : Fld := ⟨.MOV_QUEUE_STATUS, 11, 11⟩
def MOV_QUEUE_STATUS_WAITING : Fld := ⟨.MOV_QUEUE_STATUS, 12, 12⟩
/-! `MOV_QUEUE_CTRL`: 06_plates_and_feeding -/
def MOV_QUEUE_CTRL_PAUSE : Fld := ⟨.MOV_QUEUE_CTRL, 0, 0⟩
def MOV_QUEUE_CTRL_FLUSH : Fld := ⟨.MOV_QUEUE_CTRL, 1, 1⟩
/-! `MOV_ISSUE_TICKET`: 06_plates_and_feeding -/
def MOV_ISSUE_TICKET_NEXT : Fld := ⟨.MOV_ISSUE_TICKET, 63, 0⟩
/-! `MOV_DONE_TICKET`: 06_plates_and_feeding -/
def MOV_DONE_TICKET_DONE : Fld := ⟨.MOV_DONE_TICKET, 63, 0⟩
/-! `MOV_NOTICE_COUNT`: 06_plates_and_feeding -/
def MOV_NOTICE_COUNT_COUNT : Fld := ⟨.MOV_NOTICE_COUNT, 31, 0⟩
/-! `GDR_BOOT_PC`: 09_guider_cores -/
def GDR_BOOT_PC_PC : Fld := ⟨.GDR_BOOT_PC, 63, 2⟩
/-! `GDR_ATTN`: 09_guider_cores -/
def GDR_ATTN_RAISE : Fld := ⟨.GDR_ATTN, 0, 0⟩
def GDR_ATTN_PENDING : Fld := ⟨.GDR_ATTN, 1, 1⟩
def GDR_ATTN_CODE : Fld := ⟨.GDR_ATTN, 31, 16⟩
/-! `GDR_INBOX`: 09_guider_cores -/
def GDR_INBOX_NEXT_SLOT : Fld := ⟨.GDR_INBOX, 3, 0⟩
def GDR_INBOX_USED : Fld := ⟨.GDR_INBOX, 8, 4⟩
/-! `GCL_DISPATCH_EN`: 09_guider_cores -/
def GCL_DISPATCH_EN_CORE_EN : Fld := ⟨.GCL_DISPATCH_EN, 7, 0⟩
/-! `GCL_QUEUE_STATUS`: 09_guider_cores -/
def GCL_QUEUE_STATUS_COUNT : Fld := ⟨.GCL_QUEUE_STATUS, 10, 0⟩
def GCL_QUEUE_STATUS_EMPTY : Fld := ⟨.GCL_QUEUE_STATUS, 11, 11⟩
def GCL_QUEUE_STATUS_FULL : Fld := ⟨.GCL_QUEUE_STATUS, 12, 12⟩
def GCL_QUEUE_STATUS_PAUSED : Fld := ⟨.GCL_QUEUE_STATUS, 13, 13⟩
def GCL_QUEUE_STATUS_HEAD_WAIT : Fld := ⟨.GCL_QUEUE_STATUS, 14, 14⟩
/-! `GCL_QUEUE_CTRL`: 09_guider_cores -/
def GCL_QUEUE_CTRL_PAUSE : Fld := ⟨.GCL_QUEUE_CTRL, 0, 0⟩
def GCL_QUEUE_CTRL_FLUSH : Fld := ⟨.GCL_QUEUE_CTRL, 1, 1⟩
/-! `GCL_POST`: 09_guider_cores -/
def GCL_POST_IMAGE : Fld := ⟨.GCL_POST, 47, 6⟩
/-! `GCL_POST_RESULT`: 09_guider_cores -/
def GCL_POST_RESULT_RESULT : Fld := ⟨.GCL_POST_RESULT, 1, 0⟩
/-! `GCL_PROGp`: 09_guider_cores -/
def GCL_PROGp_VALID : Fld := ⟨.GCL_PROGp, 0, 0⟩
def GCL_PROGp_STEER : Fld := ⟨.GCL_PROGp, 2, 1⟩
def GCL_PROGp_CORE : Fld := ⟨.GCL_PROGp, 6, 4⟩
/-! `GDR_DBG_CTRL`: 09_guider_cores -/
def GDR_DBG_CTRL_HALT : Fld := ⟨.GDR_DBG_CTRL, 0, 0⟩
def GDR_DBG_CTRL_STEP : Fld := ⟨.GDR_DBG_CTRL, 1, 1⟩
/-! `GDR_DBG_STATUS`: 09_guider_cores -/
def GDR_DBG_STATUS_HALTED : Fld := ⟨.GDR_DBG_STATUS, 0, 0⟩
def GDR_DBG_STATUS_REASON : Fld := ⟨.GDR_DBG_STATUS, 2, 1⟩
def GDR_DBG_STATUS_BP : Fld := ⟨.GDR_DBG_STATUS, 4, 3⟩
/-! `GDR_DBG_REG_SEL`: 09_guider_cores -/
def GDR_DBG_REG_SEL_REG : Fld := ⟨.GDR_DBG_REG_SEL, 8, 0⟩
/-! `GDR_DBG_REG_DATA`: 09_guider_cores -/
def GDR_DBG_REG_DATA_DATA : Fld := ⟨.GDR_DBG_REG_DATA, 63, 0⟩
/-! `GDR_DBG_BPb`: 09_guider_cores -/
def GDR_DBG_BPb_EN : Fld := ⟨.GDR_DBG_BPb, 0, 0⟩
def GDR_DBG_BPb_ACTION : Fld := ⟨.GDR_DBG_BPb, 1, 1⟩
def GDR_DBG_BPb_ADDR : Fld := ⟨.GDR_DBG_BPb, 63, 2⟩
/-! `COL_STATUS`: 10_collector -/
def COL_STATUS_OPEN : Fld := ⟨.COL_STATUS, 10, 0⟩
def COL_STATUS_CREDIT_HELD : Fld := ⟨.COL_STATUS, 11, 11⟩
def COL_STATUS_INTAKE_CELLS : Fld := ⟨.COL_STATUS, 30, 16⟩
/-! `COL_QUOTA_FREE`: 10_collector -/
def COL_QUOTA_FREE_FREE_KIB : Fld := ⟨.COL_QUOTA_FREE, 16, 0⟩
/-! `COL_CMD_ARG`: 10_collector -/
def COL_CMD_ARG_ARG : Fld := ⟨.COL_CMD_ARG, 63, 0⟩
/-! `COL_CMD`: 10_collector -/
def COL_CMD_CMD : Fld := ⟨.COL_CMD, 3, 0⟩
def COL_CMD_SLOT : Fld := ⟨.COL_CMD, 25, 16⟩
/-! `COL_CMD_RESULT`: 10_collector -/
def COL_CMD_RESULT_RESULT : Fld := ⟨.COL_CMD_RESULT, 1, 0⟩
def COL_CMD_RESULT_CODE : Fld := ⟨.COL_CMD_RESULT, 15, 8⟩
def COL_CMD_RESULT_SLOT : Fld := ⟨.COL_CMD_RESULT, 25, 16⟩
/-! `COL_ROUND_TIMEOUT`: 10_collector -/
def COL_ROUND_TIMEOUT_MS : Fld := ⟨.COL_ROUND_TIMEOUT, 15, 0⟩
/-! `COL_BINDb_CTRL`: 10_collector -/
def COL_BINDb_CTRL_EN : Fld := ⟨.COL_BINDb_CTRL, 0, 0⟩
def COL_BINDb_CTRL_PORT : Fld := ⟨.COL_BINDb_CTRL, 3, 1⟩
def COL_BINDb_CTRL_FMT : Fld := ⟨.COL_BINDb_CTRL, 7, 4⟩
def COL_BINDb_CTRL_RANK : Fld := ⟨.COL_BINDb_CTRL, 19, 8⟩
def COL_BINDb_CTRL_COLL_ID : Fld := ⟨.COL_BINDb_CTRL, 47, 32⟩
/-! `COL_BINDb_RANGE`: 10_collector -/
def COL_BINDb_RANGE_ELEM_BASE : Fld := ⟨.COL_BINDb_RANGE, 31, 0⟩
def COL_BINDb_RANGE_LENGTH : Fld := ⟨.COL_BINDb_RANGE, 63, 32⟩
/-! `COL_BINDb_WIN`: 10_collector -/
def COL_BINDb_WIN_WIN_OFFSET : Fld := ⟨.COL_BINDb_WIN, 47, 6⟩
/-! `COL_BINDb_STEP`: 10_collector -/
def COL_BINDb_STEP_STEP : Fld := ⟨.COL_BINDb_STEP, 31, 0⟩
def COL_BINDb_STEP_COVERED : Fld := ⟨.COL_BINDb_STEP, 63, 32⟩
/-! `COL_SLOTn_STATE`: 10_collector -/
def COL_SLOTn_STATE_STATE : Fld := ⟨.COL_SLOTn_STATE, 1, 0⟩
def COL_SLOTn_STATE_COLL_ID : Fld := ⟨.COL_SLOTn_STATE, 31, 16⟩
def COL_SLOTn_STATE_STEP : Fld := ⟨.COL_SLOTn_STATE, 63, 32⟩
/-! `COL_SLOTn_ROUND_FIRST`: 10_collector -/
def COL_SLOTn_ROUND_FIRST_TIME : Fld := ⟨.COL_SLOTn_ROUND_FIRST, 63, 0⟩
/-! `COL_SLOTn_ROUND_LAST`: 10_collector -/
def COL_SLOTn_ROUND_LAST_TIME : Fld := ⟨.COL_SLOTn_ROUND_LAST, 63, 0⟩
/-! `COL_SLOTn_INFO`: 10_collector -/
def COL_SLOTn_INFO_LATE_RANK : Fld := ⟨.COL_SLOTn_INFO, 11, 0⟩
def COL_SLOTn_INFO_LATE_CHUNKS : Fld := ⟨.COL_SLOTn_INFO, 31, 16⟩
def COL_SLOTn_INFO_ABORT_CAUSE : Fld := ⟨.COL_SLOTn_INFO, 34, 32⟩
def COL_SLOTn_INFO_ABORT_RANK : Fld := ⟨.COL_SLOTn_INFO, 59, 48⟩
/-! `COL_SLOTn_DISCARDS`: 10_collector -/
def COL_SLOTn_DISCARDS_STALE : Fld := ⟨.COL_SLOTn_DISCARDS, 15, 0⟩
def COL_SLOTn_DISCARDS_EARLY : Fld := ⟨.COL_SLOTn_DISCARDS, 31, 16⟩
def COL_SLOTn_DISCARDS_EXCESS : Fld := ⟨.COL_SLOTn_DISCARDS, 47, 32⟩
def COL_SLOTn_DISCARDS_ABORT_DISCARDS : Fld := ⟨.COL_SLOTn_DISCARDS, 63, 48⟩
/-! `COL_SLOTn_SKEW_COUNT`: 10_collector -/
def COL_SLOTn_SKEW_COUNT_COUNT : Fld := ⟨.COL_SLOTn_SKEW_COUNT, 31, 0⟩
/-! `TRN_STATUS`: 11_transit -/
def TRN_STATUS_CONNECTED : Fld := ⟨.TRN_STATUS, 16, 0⟩
def TRN_STATUS_TAGS : Fld := ⟨.TRN_STATUS, 48, 32⟩
def TRN_STATUS_REVOKES : Fld := ⟨.TRN_STATUS, 57, 49⟩
/-! `TRN_NODE_ADDR`: 11_transit -/
def TRN_NODE_ADDR_ADDR : Fld := ⟨.TRN_NODE_ADDR, 15, 0⟩
/-! `TRN_UDP_PORT`: 11_transit -/
def TRN_UDP_PORT_PORT : Fld := ⟨.TRN_UDP_PORT, 15, 0⟩
/-! `TRN_CONN_TABLE`: 11_transit -/
def TRN_CONN_TABLE_BASE : Fld := ⟨.TRN_CONN_TABLE, 47, 12⟩
/-! `TRN_REGION_TABLE`: 11_transit -/
def TRN_REGION_TABLE_COUNT_LOG2 : Fld := ⟨.TRN_REGION_TABLE, 4, 0⟩
def TRN_REGION_TABLE_BASE : Fld := ⟨.TRN_REGION_TABLE, 47, 12⟩
/-! `TRN_TIMER`: 11_transit -/
def TRN_TIMER_INIT_US : Fld := ⟨.TRN_TIMER, 15, 0⟩
def TRN_TIMER_CAP_US : Fld := ⟨.TRN_TIMER, 31, 16⟩
def TRN_TIMER_RETRY_LIMIT : Fld := ⟨.TRN_TIMER, 39, 32⟩
/-! `TRN_CONN_TIMER`: 11_transit -/
def TRN_CONN_TIMER_CONNECT_MS : Fld := ⟨.TRN_CONN_TIMER, 15, 0⟩
def TRN_CONN_TIMER_DRAIN_MS : Fld := ⟨.TRN_CONN_TIMER, 31, 16⟩
def TRN_CONN_TIMER_POLL_NS : Fld := ⟨.TRN_CONN_TIMER, 47, 32⟩
/-! `TRN_REGION_CMD`: 11_transit -/
def TRN_REGION_CMD_CMD : Fld := ⟨.TRN_REGION_CMD, 1, 0⟩
def TRN_REGION_CMD_INDEX : Fld := ⟨.TRN_REGION_CMD, 31, 12⟩
/-! `TRN_REGION_RESULT`: 11_transit -/
def TRN_REGION_RESULT_RESULT : Fld := ⟨.TRN_REGION_RESULT, 1, 0⟩
def TRN_REGION_RESULT_CODE : Fld := ⟨.TRN_REGION_RESULT, 15, 8⟩
/-! `TRN_SLOW`: 11_transit -/
def TRN_SLOW_EN : Fld := ⟨.TRN_SLOW, 0, 0⟩
def TRN_SLOW_ACCESS_EN : Fld := ⟨.TRN_SLOW, 1, 1⟩
def TRN_SLOW_PROGRAM : Fld := ⟨.TRN_SLOW, 15, 8⟩
def TRN_SLOW_CLUSTER : Fld := ⟨.TRN_SLOW, 19, 16⟩
/-! `TRN_SQq_CFG`: 11_transit -/
def TRN_SQq_CFG_EN : Fld := ⟨.TRN_SQq_CFG, 0, 0⟩
def TRN_SQq_CFG_POLL : Fld := ⟨.TRN_SQq_CFG, 1, 1⟩
def TRN_SQq_CFG_SIZE_LOG2 : Fld := ⟨.TRN_SQq_CFG, 6, 2⟩
def TRN_SQq_CFG_BASE : Fld := ⟨.TRN_SQq_CFG, 47, 12⟩
def TRN_SQq_CFG_PD : Fld := ⟨.TRN_SQq_CFG, 59, 48⟩
/-! `TRN_SQq_PTR`: 11_transit -/
def TRN_SQq_PTR_TAIL : Fld := ⟨.TRN_SQq_PTR, 15, 0⟩
def TRN_SQq_PTR_HEAD : Fld := ⟨.TRN_SQq_PTR, 31, 16⟩
def TRN_SQq_PTR_CQ : Fld := ⟨.TRN_SQq_PTR, 43, 32⟩
/-! `TRN_SQq_DB`: 11_transit -/
def TRN_SQq_DB_LINE : Fld := ⟨.TRN_SQq_DB, 47, 6⟩
/-! `TRN_CQq_CFG`: 11_transit -/
def TRN_CQq_CFG_EN : Fld := ⟨.TRN_CQq_CFG, 0, 0⟩
def TRN_CQq_CFG_SIZE_LOG2 : Fld := ⟨.TRN_CQq_CFG, 5, 1⟩
def TRN_CQq_CFG_BASE : Fld := ⟨.TRN_CQq_CFG, 47, 12⟩
/-! `TRN_CQq_PTR`: 11_transit -/
def TRN_CQq_PTR_HEAD : Fld := ⟨.TRN_CQq_PTR, 15, 0⟩
def TRN_CQq_PTR_TAIL : Fld := ⟨.TRN_CQq_PTR, 31, 16⟩
def TRN_CQq_PTR_NOTIFY_BIT : Fld := ⟨.TRN_CQq_PTR, 63, 32⟩
/-! `TRN_CONNc_CTRL`: 11_transit -/
def TRN_CONNc_CTRL_EN : Fld := ⟨.TRN_CONNc_CTRL, 0, 0⟩
/-! `TRN_CONNc_STATE`: 11_transit -/
def TRN_CONNc_STATE_STATE : Fld := ⟨.TRN_CONNc_STATE, 2, 0⟩
def TRN_CONNc_STATE_QUIESCE_BUSY : Fld := ⟨.TRN_CONNc_STATE, 3, 3⟩
def TRN_CONNc_STATE_PSTATE : Fld := ⟨.TRN_CONNc_STATE, 6, 4⟩
def TRN_CONNc_STATE_CAUSE : Fld := ⟨.TRN_CONNc_STATE, 11, 8⟩
def TRN_CONNc_STATE_GEN : Fld := ⟨.TRN_CONNc_STATE, 31, 16⟩
def TRN_CONNc_STATE_PEER_GEN : Fld := ⟨.TRN_CONNc_STATE, 47, 32⟩
/-! `ETH_CFG`: 12_ethernet_and_spectrograph -/
def ETH_CFG_BREAKOUT : Fld := ⟨.ETH_CFG, 0, 0⟩
def ETH_CFG_DSCP_TRUST : Fld := ⟨.ETH_CFG, 1, 1⟩
def ETH_CFG_DEFAULT_PRIO : Fld := ⟨.ETH_CFG, 6, 4⟩
def ETH_CFG_MAX_FRAME : Fld := ⟨.ETH_CFG, 29, 16⟩
/-! `ETH_STATUS`: 12_ethernet_and_spectrograph -/
def ETH_STATUS_LINK0 : Fld := ⟨.ETH_STATUS, 0, 0⟩
def ETH_STATUS_LINK1 : Fld := ⟨.ETH_STATUS, 1, 1⟩
def ETH_STATUS_BREAKOUT_IN_FORCE : Fld := ⟨.ETH_STATUS, 2, 2⟩
/-! `ETH_PFC`: 12_ethernet_and_spectrograph -/
def ETH_PFC_PFC_EN : Fld := ⟨.ETH_PFC, 7, 0⟩
def ETH_PFC_PAUSED : Fld := ⟨.ETH_PFC, 15, 8⟩
def ETH_PFC_XOFF_KIB : Fld := ⟨.ETH_PFC, 31, 16⟩
def ETH_PFC_XON_KIB : Fld := ⟨.ETH_PFC, 47, 32⟩
def ETH_PFC_HEADROOM_KIB : Fld := ⟨.ETH_PFC, 63, 48⟩
/-! `SPG_STATUS`: 12_ethernet_and_spectrograph -/
def SPG_STATUS_PATTERN_BANK : Fld := ⟨.SPG_STATUS, 0, 0⟩
def SPG_STATUS_SANCTUM_RULES : Fld := ⟨.SPG_STATUS, 10, 1⟩
def SPG_STATUS_INGRESS_PAUSED : Fld := ⟨.SPG_STATUS, 11, 11⟩
/-! `SPG_CMD_ARG`: 12_ethernet_and_spectrograph -/
def SPG_CMD_ARG_ARG : Fld := ⟨.SPG_CMD_ARG, 63, 0⟩
/-! `SPG_CMD`: 12_ethernet_and_spectrograph -/
def SPG_CMD_CMD : Fld := ⟨.SPG_CMD, 3, 0⟩
def SPG_CMD_PORT : Fld := ⟨.SPG_CMD, 6, 4⟩
def SPG_CMD_COUNT : Fld := ⟨.SPG_CMD, 30, 16⟩
/-! `SPG_CMD_RESULT`: 12_ethernet_and_spectrograph -/
def SPG_CMD_RESULT_RESULT : Fld := ⟨.SPG_CMD_RESULT, 1, 0⟩
def SPG_CMD_RESULT_CODE : Fld := ⟨.SPG_CMD_RESULT, 15, 8⟩
/-! `SPG_PARSE`: 12_ethernet_and_spectrograph -/
def SPG_PARSE_VXLAN_PORT : Fld := ⟨.SPG_PARSE, 15, 0⟩
def SPG_PARSE_GENEVE_PORT : Fld := ⟨.SPG_PARSE, 31, 16⟩
def SPG_PARSE_EXTRA_TPID : Fld := ⟨.SPG_PARSE, 47, 32⟩
/-! `SPG_FLOW_CFG`: 12_ethernet_and_spectrograph -/
def SPG_FLOW_CFG_SPILL_LOG2 : Fld := ⟨.SPG_FLOW_CFG, 4, 0⟩
def SPG_FLOW_CFG_SPILL_BASE : Fld := ⟨.SPG_FLOW_CFG, 47, 12⟩
def SPG_FLOW_CFG_AGE_MS : Fld := ⟨.SPG_FLOW_CFG, 63, 48⟩
/-! `SPG_FLOW_STATUS`: 12_ethernet_and_spectrograph -/
def SPG_FLOW_STATUS_ONCHIP : Fld := ⟨.SPG_FLOW_STATUS, 17, 0⟩
def SPG_FLOW_STATUS_SPILLED : Fld := ⟨.SPG_FLOW_STATUS, 54, 32⟩
def SPG_FLOW_STATUS_SPILL_FULL : Fld := ⟨.SPG_FLOW_STATUS, 55, 55⟩
/-! `SPG_COUNT_BASE`: 12_ethernet_and_spectrograph -/
def SPG_COUNT_BASE_COUNT_LOG2 : Fld := ⟨.SPG_COUNT_BASE, 4, 0⟩
def SPG_COUNT_BASE_BASE : Fld := ⟨.SPG_COUNT_BASE, 47, 6⟩
/-! `SPG_PORTp_CTRL`: 12_ethernet_and_spectrograph -/
def SPG_PORTp_CTRL_ACTIVE : Fld := ⟨.SPG_PORTp_CTRL, 0, 0⟩
def SPG_PORTp_CTRL_PATTERN_EN : Fld := ⟨.SPG_PORTp_CTRL, 1, 1⟩
/-! `SPG_RXQq_CFG`: 12_ethernet_and_spectrograph -/
def SPG_RXQq_CFG_EN : Fld := ⟨.SPG_RXQq_CFG, 0, 0⟩
def SPG_RXQq_CFG_SIZE_LOG2 : Fld := ⟨.SPG_RXQq_CFG, 5, 1⟩
def SPG_RXQq_CFG_BASE : Fld := ⟨.SPG_RXQq_CFG, 47, 12⟩
/-! `SPG_RXQq_PTR`: 12_ethernet_and_spectrograph -/
def SPG_RXQq_PTR_TAIL : Fld := ⟨.SPG_RXQq_PTR, 15, 0⟩
def SPG_RXQq_PTR_HEAD : Fld := ⟨.SPG_RXQq_PTR, 31, 16⟩
def SPG_RXQq_PTR_NOTIFY_BIT : Fld := ⟨.SPG_RXQq_PTR, 63, 32⟩
/-! `SHT_STATUS`: 13_shutter -/
def SHT_STATUS_FREE_CELLS : Fld := ⟨.SHT_STATUS, 17, 0⟩
def SHT_STATUS_RESERVE_ONLY : Fld := ⟨.SHT_STATUS, 18, 18⟩
/-! `SHT_BUF`: 13_shutter -/
def SHT_BUF_RESERVE : Fld := ⟨.SHT_BUF, 17, 0⟩
/-! `SHT_COLL`: 13_shutter -/
def SHT_COLL_SUBQ_BASE : Fld := ⟨.SHT_COLL, 15, 0⟩
/-! `SHT_LOOP`: 13_shutter -/
def SHT_LOOP_PORT : Fld := ⟨.SHT_LOOP, 2, 0⟩
/-! `SHT_PORTp_CFG`: 13_shutter -/
def SHT_PORTp_CFG_PIR : Fld := ⟨.SHT_PORTp_CFG, 19, 0⟩
def SHT_PORTp_CFG_PBS : Fld := ⟨.SHT_PORTp_CFG, 47, 24⟩
def SHT_PORTp_CFG_OVH : Fld := ⟨.SHT_PORTp_CFG, 54, 48⟩
/-! `SHT_SVCs_CFG`: 13_shutter -/
def SHT_SVCs_CFG_EN : Fld := ⟨.SHT_SVCs_CFG, 0, 0⟩
def SHT_SVCs_CFG_PARENT : Fld := ⟨.SHT_SVCs_CFG, 7, 4⟩
def SHT_SVCs_CFG_RELAY : Fld := ⟨.SHT_SVCs_CFG, 11, 8⟩
def SHT_SVCs_CFG_OVH : Fld := ⟨.SHT_SVCs_CFG, 22, 16⟩
def SHT_SVCs_CFG_WEIGHT : Fld := ⟨.SHT_SVCs_CFG, 47, 32⟩
/-! `SHT_SVCs_RATE`: 13_shutter -/
def SHT_SVCs_RATE_CIR : Fld := ⟨.SHT_SVCs_RATE, 19, 0⟩
def SHT_SVCs_RATE_PIR : Fld := ⟨.SHT_SVCs_RATE, 51, 32⟩
/-! `SHT_SVCs_BURST`: 13_shutter -/
def SHT_SVCs_BURST_CBS : Fld := ⟨.SHT_SVCs_BURST, 23, 0⟩
def SHT_SVCs_BURST_PBS : Fld := ⟨.SHT_SVCs_BURST, 55, 32⟩
/-! `SHT_SUBQq_CFG`: 13_shutter -/
def SHT_SUBQq_CFG_EN : Fld := ⟨.SHT_SUBQq_CFG, 0, 0⟩
def SHT_SUBQq_CFG_EGRESS : Fld := ⟨.SHT_SUBQq_CFG, 7, 4⟩
def SHT_SUBQq_CFG_PARENT : Fld := ⟨.SHT_SUBQq_CFG, 16, 8⟩
def SHT_SUBQq_CFG_WEIGHT : Fld := ⟨.SHT_SUBQq_CFG, 47, 32⟩
def SHT_SUBQq_CFG_QLIMIT_KIB : Fld := ⟨.SHT_SUBQq_CFG, 63, 48⟩
/-! `SHT_SUBQq_RATE`: 13_shutter -/
def SHT_SUBQq_RATE_CIR : Fld := ⟨.SHT_SUBQq_RATE, 19, 0⟩
def SHT_SUBQq_RATE_PIR : Fld := ⟨.SHT_SUBQq_RATE, 51, 32⟩
/-! `SHT_SUBQq_BURST`: 13_shutter -/
def SHT_SUBQq_BURST_CBS : Fld := ⟨.SHT_SUBQq_BURST, 23, 0⟩
def SHT_SUBQq_BURST_PBS : Fld := ⟨.SHT_SUBQq_BURST, 55, 32⟩
/-! `SHT_SUBQq_STATUS`: 13_shutter -/
def SHT_SUBQq_STATUS_BYTES : Fld := ⟨.SHT_SUBQq_STATUS, 25, 0⟩
def SHT_SUBQq_STATUS_FRAMES : Fld := ⟨.SHT_SUBQq_STATUS, 49, 32⟩
/-! `SHT_TXRr_CFG`: 13_shutter -/
def SHT_TXRr_CFG_EN : Fld := ⟨.SHT_TXRr_CFG, 0, 0⟩
def SHT_TXRr_CFG_POLL : Fld := ⟨.SHT_TXRr_CFG, 1, 1⟩
def SHT_TXRr_CFG_SIZE_LOG2 : Fld := ⟨.SHT_TXRr_CFG, 6, 2⟩
def SHT_TXRr_CFG_BASE : Fld := ⟨.SHT_TXRr_CFG, 47, 12⟩
/-! `SHT_TXRr_PTR`: 13_shutter -/
def SHT_TXRr_PTR_TAIL : Fld := ⟨.SHT_TXRr_PTR, 15, 0⟩
def SHT_TXRr_PTR_HEAD : Fld := ⟨.SHT_TXRr_PTR, 31, 16⟩
def SHT_TXRr_PTR_NOTIFY_BIT : Fld := ⟨.SHT_TXRr_PTR, 63, 32⟩
/-! `SHT_TXRr_DB`: 13_shutter -/
def SHT_TXRr_DB_LINE : Fld := ⟨.SHT_TXRr_DB, 47, 6⟩
/-! `CAT_STATUS`: 14_catalogue -/
def CAT_STATUS_TAGS : Fld := ⟨.CAT_STATUS, 16, 0⟩
def CAT_STATUS_STORE_FREE_MIB : Fld := ⟨.CAT_STATUS, 47, 32⟩
/-! `CAT_WBS`: 14_catalogue -/
def CAT_WBS_SIZE_GIB : Fld := ⟨.CAT_WBS, 5, 0⟩
def CAT_WBS_BASE : Fld := ⟨.CAT_WBS, 39, 30⟩
/-! `CAT_VOL_TABLE`: 14_catalogue -/
def CAT_VOL_TABLE_COUNT_LOG2 : Fld := ⟨.CAT_VOL_TABLE, 4, 0⟩
def CAT_VOL_TABLE_BASE : Fld := ⟨.CAT_VOL_TABLE, 47, 12⟩
/-! `CAT_BE_TABLE`: 14_catalogue -/
def CAT_BE_TABLE_COUNT : Fld := ⟨.CAT_BE_TABLE, 10, 0⟩
def CAT_BE_TABLE_BASE : Fld := ⟨.CAT_BE_TABLE, 47, 12⟩
/-! `CAT_TIMER`: 14_catalogue -/
def CAT_TIMER_BACKEND_MS : Fld := ⟨.CAT_TIMER, 23, 0⟩
def CAT_TIMER_RETRIES : Fld := ⟨.CAT_TIMER, 27, 24⟩
/-! `CAT_XCQ`: 14_catalogue -/
def CAT_XCQ_CQ : Fld := ⟨.CAT_XCQ, 11, 0⟩
def CAT_XCQ_EN : Fld := ⟨.CAT_XCQ, 12, 12⟩
/-! `CAT_Qq_CFG`: 14_catalogue -/
def CAT_Qq_CFG_OWNER : Fld := ⟨.CAT_Qq_CFG, 1, 0⟩
def CAT_Qq_CFG_SIZE_LOG2 : Fld := ⟨.CAT_Qq_CFG, 6, 2⟩
def CAT_Qq_CFG_POLL : Fld := ⟨.CAT_Qq_CFG, 7, 7⟩
def CAT_Qq_CFG_SQ_BASE : Fld := ⟨.CAT_Qq_CFG, 47, 12⟩
def CAT_Qq_CFG_VOLUME : Fld := ⟨.CAT_Qq_CFG, 63, 48⟩
/-! `CAT_Qq_CQ`: 14_catalogue -/
def CAT_Qq_CQ_CQ_BASE : Fld := ⟨.CAT_Qq_CQ, 47, 12⟩
/-! `CAT_Qq_OWNER`: 14_catalogue -/
def CAT_Qq_OWNER_PORT : Fld := ⟨.CAT_Qq_OWNER, 0, 0⟩
def CAT_Qq_OWNER_FN : Fld := ⟨.CAT_Qq_OWNER, 9, 1⟩
def CAT_Qq_OWNER_CONN : Fld := ⟨.CAT_Qq_OWNER, 31, 16⟩
def CAT_Qq_OWNER_NOTIFY_BIT : Fld := ⟨.CAT_Qq_OWNER, 63, 32⟩
/-! `CAT_Qq_PTR`: 14_catalogue -/
def CAT_Qq_PTR_SQ_TAIL : Fld := ⟨.CAT_Qq_PTR, 15, 0⟩
def CAT_Qq_PTR_SQ_HEAD : Fld := ⟨.CAT_Qq_PTR, 31, 16⟩
def CAT_Qq_PTR_CQ_HEAD : Fld := ⟨.CAT_Qq_PTR, 47, 32⟩
def CAT_Qq_PTR_CQ_TAIL : Fld := ⟨.CAT_Qq_PTR, 63, 48⟩
/-! `CAT_Qq_ELOG`: 14_catalogue -/
def CAT_Qq_ELOG_LOG_LOG2 : Fld := ⟨.CAT_Qq_ELOG, 3, 0⟩
def CAT_Qq_ELOG_BASE : Fld := ⟨.CAT_Qq_ELOG, 47, 6⟩
/-! `CAT_Qq_DB`: 14_catalogue -/
def CAT_Qq_DB_LINE : Fld := ⟨.CAT_Qq_DB, 47, 6⟩
/-! `CAT_Qq_RESP`: 14_catalogue -/
def CAT_Qq_RESP_RESP_KEY : Fld := ⟨.CAT_Qq_RESP, 31, 0⟩
def CAT_Qq_RESP_ADDR_HI : Fld := ⟨.CAT_Qq_RESP, 63, 32⟩
/-! `CAT_Qq_CTRL`: 14_catalogue -/
def CAT_Qq_CTRL_EN : Fld := ⟨.CAT_Qq_CTRL, 0, 0⟩
def CAT_Qq_CTRL_RESET : Fld := ⟨.CAT_Qq_CTRL, 1, 1⟩
/-! `CAT_Qq_STATE`: 14_catalogue -/
def CAT_Qq_STATE_STATE : Fld := ⟨.CAT_Qq_STATE, 2, 0⟩
def CAT_Qq_STATE_QUIESCE_BUSY : Fld := ⟨.CAT_Qq_STATE, 3, 3⟩
def CAT_Qq_STATE_RESETTING : Fld := ⟨.CAT_Qq_STATE, 4, 4⟩
def CAT_Qq_STATE_GEN : Fld := ⟨.CAT_Qq_STATE, 31, 16⟩
/-! `PCI_IRQ_RAISE`: 15_pcie_ports -/
def PCI_IRQ_RAISE_SOURCE : Fld := ⟨.PCI_IRQ_RAISE, 3, 0⟩
/-! `PCI_IRQ_ROUTEs`: 15_pcie_ports -/
def PCI_IRQ_ROUTEs_EN : Fld := ⟨.PCI_IRQ_ROUTEs, 0, 0⟩
def PCI_IRQ_ROUTEs_PORT : Fld := ⟨.PCI_IRQ_ROUTEs, 1, 1⟩
def PCI_IRQ_ROUTEs_FN : Fld := ⟨.PCI_IRQ_ROUTEs, 10, 2⟩
def PCI_IRQ_ROUTEs_VECTOR : Fld := ⟨.PCI_IRQ_ROUTEs, 22, 12⟩
def PCI_IRQ_ROUTEs_COAL_US : Fld := ⟨.PCI_IRQ_ROUTEs, 47, 32⟩
/-! `PCI_UP_STATUS`: 15_pcie_ports -/
def PCI_UP_STATUS_LINK_UP : Fld := ⟨.PCI_UP_STATUS, 0, 0⟩
def PCI_UP_STATUS_FLIT : Fld := ⟨.PCI_UP_STATUS, 1, 1⟩
def PCI_UP_STATUS_SPEED : Fld := ⟨.PCI_UP_STATUS, 4, 2⟩
def PCI_UP_STATUS_WIDTH : Fld := ⟨.PCI_UP_STATUS, 9, 5⟩
def PCI_UP_STATUS_PERST : Fld := ⟨.PCI_UP_STATUS, 10, 10⟩
/-! `PCI_WIN`: 15_pcie_ports -/
def PCI_WIN_CCB_SEL : Fld := ⟨.PCI_WIN, 3, 0⟩
def PCI_WIN_LOG_SEL : Fld := ⟨.PCI_WIN, 7, 4⟩
def PCI_WIN_UNIT_BASE : Fld := ⟨.PCI_WIN, 47, 24⟩
/-! `PCI_TAG_STATUS`: 15_pcie_ports -/
def PCI_TAG_STATUS_OUTSTANDING : Fld := ⟨.PCI_TAG_STATUS, 12, 0⟩
def PCI_TAG_STATUS_QUARANTINED : Fld := ⟨.PCI_TAG_STATUS, 28, 16⟩
/-! `PCI_BAR4_SEGn`: 15_pcie_ports -/
def PCI_BAR4_SEGn_EN : Fld := ⟨.PCI_BAR4_SEGn, 0, 0⟩
def PCI_BAR4_SEGn_BASE : Fld := ⟨.PCI_BAR4_SEGn, 47, 32⟩
/-! `PCI_FNf_STATUS`: 15_pcie_ports -/
def PCI_FNf_STATUS_EXISTS : Fld := ⟨.PCI_FNf_STATUS, 0, 0⟩
def PCI_FNf_STATUS_BME : Fld := ⟨.PCI_FNf_STATUS, 1, 1⟩
def PCI_FNf_STATUS_FLR_BUSY : Fld := ⟨.PCI_FNf_STATUS, 2, 2⟩
def PCI_FNf_STATUS_FGEN : Fld := ⟨.PCI_FNf_STATUS, 31, 16⟩
/-! `PCI_FNf_DMA`: 15_pcie_ports -/
def PCI_FNf_DMA_PASID_EN : Fld := ⟨.PCI_FNf_DMA, 0, 0⟩
def PCI_FNf_DMA_PRIV : Fld := ⟨.PCI_FNf_DMA, 1, 1⟩
def PCI_FNf_DMA_PASID : Fld := ⟨.PCI_FNf_DMA, 27, 8⟩
/-! `PCI_DP_CFG_ADDR`: 15_pcie_ports -/
def PCI_DP_CFG_ADDR_DWORD : Fld := ⟨.PCI_DP_CFG_ADDR, 11, 2⟩
def PCI_DP_CFG_ADDR_FN : Fld := ⟨.PCI_DP_CFG_ADDR, 14, 12⟩
def PCI_DP_CFG_ADDR_DEV : Fld := ⟨.PCI_DP_CFG_ADDR, 19, 15⟩
def PCI_DP_CFG_ADDR_BUS : Fld := ⟨.PCI_DP_CFG_ADDR, 27, 20⟩
def PCI_DP_CFG_ADDR_STATUS : Fld := ⟨.PCI_DP_CFG_ADDR, 34, 32⟩
/-! `PCI_DP_CFG_DATA`: 15_pcie_ports -/
def PCI_DP_CFG_DATA_DATA : Fld := ⟨.PCI_DP_CFG_DATA, 31, 0⟩
/-! `PCI_DP_OUT`: 15_pcie_ports -/
def PCI_DP_OUT_BASE : Fld := ⟨.PCI_DP_OUT, 63, 32⟩
/-! `PCI_DP_INWw_BUS`: 15_pcie_ports -/
def PCI_DP_INWw_BUS_EN : Fld := ⟨.PCI_DP_INWw_BUS, 0, 0⟩
def PCI_DP_INWw_BUS_R : Fld := ⟨.PCI_DP_INWw_BUS, 1, 1⟩
def PCI_DP_INWw_BUS_W : Fld := ⟨.PCI_DP_INWw_BUS, 2, 2⟩
def PCI_DP_INWw_BUS_COLL : Fld := ⟨.PCI_DP_INWw_BUS, 3, 3⟩
def PCI_DP_INWw_BUS_BUS_BASE : Fld := ⟨.PCI_DP_INWw_BUS, 63, 12⟩
/-! `PCI_DP_INWw_MAP`: 15_pcie_ports -/
def PCI_DP_INWw_MAP_SIZE_LOG2 : Fld := ⟨.PCI_DP_INWw_MAP, 5, 0⟩
def PCI_DP_INWw_MAP_DEV_BASE : Fld := ⟨.PCI_DP_INWw_MAP, 47, 12⟩
/-! `PCI_VFv_CTRL`: 16_virtual_functions -/
def PCI_VFv_CTRL_EN : Fld := ⟨.PCI_VFv_CTRL, 0, 0⟩
/-! `PCI_VFv_STATE`: 16_virtual_functions -/
def PCI_VFv_STATE_STATE : Fld := ⟨.PCI_VFv_STATE, 2, 0⟩
def PCI_VFv_STATE_QUIESCE_BUSY : Fld := ⟨.PCI_VFv_STATE, 3, 3⟩
def PCI_VFv_STATE_GEN : Fld := ⟨.PCI_VFv_STATE, 31, 16⟩
/-! `PCI_VFv_PROV`: 16_virtual_functions -/
def PCI_VFv_PROV_PD : Fld := ⟨.PCI_VFv_PROV, 11, 0⟩
def PCI_VFv_PROV_SUBQ_BASE : Fld := ⟨.PCI_VFv_PROV, 31, 16⟩
def PCI_VFv_PROV_SUBQ_COUNT : Fld := ⟨.PCI_VFv_PROV, 47, 32⟩
/-! `PCI_VFv_KEYS`: 16_virtual_functions -/
def PCI_VFv_KEYS_KEY_BASE : Fld := ⟨.PCI_VFv_KEYS, 13, 0⟩
def PCI_VFv_KEYS_KEY_COUNT : Fld := ⟨.PCI_VFv_KEYS, 30, 16⟩
/-! `PCI_VFv_DIRTY_CTRL`: 16_virtual_functions -/
def PCI_VFv_DIRTY_CTRL_LOG_EN : Fld := ⟨.PCI_VFv_DIRTY_CTRL, 0, 0⟩
def PCI_VFv_DIRTY_CTRL_ACTIVE : Fld := ⟨.PCI_VFv_DIRTY_CTRL, 1, 1⟩
def PCI_VFv_DIRTY_CTRL_SWAP : Fld := ⟨.PCI_VFv_DIRTY_CTRL, 2, 2⟩
def PCI_VFv_DIRTY_CTRL_SWAP_BUSY : Fld := ⟨.PCI_VFv_DIRTY_CTRL, 3, 3⟩
/-! `PCI_VFv_DIRTY_RANGE`: 16_virtual_functions -/
def PCI_VFv_DIRTY_RANGE_BASE : Fld := ⟨.PCI_VFv_DIRTY_RANGE, 63, 12⟩
/-! `PCI_VFv_DIRTY_PAGES`: 16_virtual_functions -/
def PCI_VFv_DIRTY_PAGES_PAGES : Fld := ⟨.PCI_VFv_DIRTY_PAGES, 31, 0⟩
/-! `PCI_VFv_DIRTY_MAPA`: 16_virtual_functions -/
def PCI_VFv_DIRTY_MAPA_BASE : Fld := ⟨.PCI_VFv_DIRTY_MAPA, 63, 6⟩
/-! `PCI_VFv_DIRTY_MAPB`: 16_virtual_functions -/
def PCI_VFv_DIRTY_MAPB_BASE : Fld := ⟨.PCI_VFv_DIRTY_MAPB, 63, 6⟩
/-! `PCI_VFv_DIRTY_MISS`: 16_virtual_functions -/
def PCI_VFv_DIRTY_MISS_COUNT : Fld := ⟨.PCI_VFv_DIRTY_MISS, 31, 0⟩
/-! `PCI_VFv_PAGEp`: 16_virtual_functions -/
def PCI_VFv_PAGEp_KIND : Fld := ⟨.PCI_VFv_PAGEp, 3, 0⟩
def PCI_VFv_PAGEp_W : Fld := ⟨.PCI_VFv_PAGEp, 4, 4⟩
def PCI_VFv_PAGEp_INDEX : Fld := ⟨.PCI_VFv_PAGEp, 27, 16⟩
def PCI_VFv_PAGEp_DEV_PAGE : Fld := ⟨.PCI_VFv_PAGEp, 63, 28⟩
/-! `FLT_CFG`: 17_filter_and_root_of_trust -/
def FLT_CFG_PROG_LOG2 : Fld := ⟨.FLT_CFG, 3, 0⟩
def FLT_CFG_BASE : Fld := ⟨.FLT_CFG, 47, 12⟩
def FLT_CFG_STALL_US : Fld := ⟨.FLT_CFG, 63, 48⟩
/-! `FLT_Qq_CFG`: 17_filter_and_root_of_trust -/
def FLT_Qq_CFG_EN : Fld := ⟨.FLT_Qq_CFG, 0, 0⟩
def FLT_Qq_CFG_POLL : Fld := ⟨.FLT_Qq_CFG, 1, 1⟩
def FLT_Qq_CFG_SIZE_LOG2 : Fld := ⟨.FLT_Qq_CFG, 6, 2⟩
def FLT_Qq_CFG_BASE : Fld := ⟨.FLT_Qq_CFG, 47, 12⟩
/-! `FLT_Qq_PTR`: 17_filter_and_root_of_trust -/
def FLT_Qq_PTR_TAIL : Fld := ⟨.FLT_Qq_PTR, 15, 0⟩
def FLT_Qq_PTR_HEAD : Fld := ⟨.FLT_Qq_PTR, 31, 16⟩
def FLT_Qq_PTR_NOTIFY_BIT : Fld := ⟨.FLT_Qq_PTR, 63, 32⟩
/-! `FLT_Qq_DB`: 17_filter_and_root_of_trust -/
def FLT_Qq_DB_LINE : Fld := ⟨.FLT_Qq_DB, 47, 6⟩
/-! `KEY_CMD_ARG`: 17_filter_and_root_of_trust -/
def KEY_CMD_ARG_ADDR : Fld := ⟨.KEY_CMD_ARG, 47, 0⟩
def KEY_CMD_ARG_KEK : Fld := ⟨.KEY_CMD_ARG, 61, 48⟩
/-! `KEY_CMD`: 17_filter_and_root_of_trust -/
def KEY_CMD_CMD : Fld := ⟨.KEY_CMD, 1, 0⟩
def KEY_CMD_SIZE : Fld := ⟨.KEY_CMD, 2, 2⟩
def KEY_CMD_CHECK : Fld := ⟨.KEY_CMD, 3, 3⟩
def KEY_CMD_ENC : Fld := ⟨.KEY_CMD, 4, 4⟩
def KEY_CMD_DEC : Fld := ⟨.KEY_CMD, 5, 5⟩
def KEY_CMD_WRAP : Fld := ⟨.KEY_CMD, 6, 6⟩
def KEY_CMD_INDEX : Fld := ⟨.KEY_CMD, 29, 16⟩
/-! `KEY_CMD_RESULT`: 17_filter_and_root_of_trust -/
def KEY_CMD_RESULT_RESULT : Fld := ⟨.KEY_CMD_RESULT, 1, 0⟩
def KEY_CMD_RESULT_CODE : Fld := ⟨.KEY_CMD_RESULT, 15, 8⟩
def KEY_CMD_RESULT_INDEX : Fld := ⟨.KEY_CMD_RESULT, 29, 16⟩
/-! `KEY_ATTRn`: 17_filter_and_root_of_trust -/
def KEY_ATTRn_STATE : Fld := ⟨.KEY_ATTRn, 1, 0⟩
def KEY_ATTRn_SIZE : Fld := ⟨.KEY_ATTRn, 2, 2⟩
def KEY_ATTRn_CHECK : Fld := ⟨.KEY_ATTRn, 3, 3⟩
def KEY_ATTRn_USAGE : Fld := ⟨.KEY_ATTRn, 6, 4⟩
def KEY_ATTRn_RUNNING : Fld := ⟨.KEY_ATTRn, 15, 8⟩
/-! `ROT_STATUS`: 17_filter_and_root_of_trust -/
def ROT_STATUS_BOOT : Fld := ⟨.ROT_STATUS, 2, 0⟩
def ROT_STATUS_DEBUG_OPEN : Fld := ⟨.ROT_STATUS, 3, 3⟩
def ROT_STATUS_DEBUG_POLICY : Fld := ⟨.ROT_STATUS, 5, 4⟩
def ROT_STATUS_KEY_SLOT : Fld := ⟨.ROT_STATUS, 7, 6⟩
def ROT_STATUS_REVOKED : Fld := ⟨.ROT_STATUS, 11, 8⟩
def ROT_STATUS_FUSE_SVN : Fld := ⟨.ROT_STATUS, 18, 12⟩
def ROT_STATUS_BOOT_SVN : Fld := ⟨.ROT_STATUS, 25, 19⟩
def ROT_STATUS_FAIL_CODE : Fld := ⟨.ROT_STATUS, 39, 32⟩
/-! `ROT_CMD_ARG`: 17_filter_and_root_of_trust -/
def ROT_CMD_ARG_ADDR : Fld := ⟨.ROT_CMD_ARG, 47, 0⟩
def ROT_CMD_ARG_VALUE : Fld := ⟨.ROT_CMD_ARG, 63, 48⟩
/-! `ROT_CMD`: 17_filter_and_root_of_trust -/
def ROT_CMD_CMD : Fld := ⟨.ROT_CMD, 2, 0⟩
/-! `ROT_CMD_RESULT`: 17_filter_and_root_of_trust -/
def ROT_CMD_RESULT_RESULT : Fld := ⟨.ROT_CMD_RESULT, 1, 0⟩
def ROT_CMD_RESULT_CODE : Fld := ⟨.ROT_CMD_RESULT, 15, 8⟩
/-! `ROT_MEASUREm`: 17_filter_and_root_of_trust -/
def ROT_MEASUREm_DIGEST : Fld := ⟨.ROT_MEASUREm, 63, 0⟩
/-! `ROT_NONCEm`: 17_filter_and_root_of_trust -/
def ROT_NONCEm_NONCE : Fld := ⟨.ROT_NONCEm, 63, 0⟩
/-! `EPH_STATUS`: 18_ephemeris -/
def EPH_STATUS_RETAINED : Fld := ⟨.EPH_STATUS, 0, 0⟩
def EPH_STATUS_DRAINING : Fld := ⟨.EPH_STATUS, 1, 1⟩
def EPH_STATUS_CMD_BUSY : Fld := ⟨.EPH_STATUS, 2, 2⟩
def EPH_STATUS_SHARDS_DRAINED : Fld := ⟨.EPH_STATUS, 63, 32⟩
/-! `EPH_JOB`: 18_ephemeris -/
def EPH_JOB_BASE : Fld := ⟨.EPH_JOB, 47, 6⟩
/-! `EPH_CFG`: 18_ephemeris -/
def EPH_CFG_CADENCE : Fld := ⟨.EPH_CFG, 15, 0⟩
def EPH_CFG_RATE_GBPS : Fld := ⟨.EPH_CFG, 23, 16⟩
/-! `EPH_EPOCH_STEP`: 18_ephemeris -/
def EPH_EPOCH_STEP_STEP : Fld := ⟨.EPH_EPOCH_STEP, 63, 0⟩
/-! `EPH_DESTd_COMMIT`: 18_ephemeris -/
def EPH_DESTd_COMMIT_STEP : Fld := ⟨.EPH_DESTd_COMMIT, 63, 0⟩
/-! `EPH_DESTd_STATE`: 18_ephemeris -/
def EPH_DESTd_STATE_VALID : Fld := ⟨.EPH_DESTd_STATE, 0, 0⟩
def EPH_DESTd_STATE_SLOT : Fld := ⟨.EPH_DESTd_STATE, 1, 1⟩
def EPH_DESTd_STATE_LAST_STATUS : Fld := ⟨.EPH_DESTd_STATE, 15, 8⟩
/-! `EPH_WARN_CFG`: 18_ephemeris -/
def EPH_WARN_CFG_ECC_PER_S : Fld := ⟨.EPH_WARN_CFG, 15, 0⟩
def EPH_WARN_CFG_LINK_PER_S : Fld := ⟨.EPH_WARN_CFG, 31, 16⟩
def EPH_WARN_CFG_THERM_C : Fld := ⟨.EPH_WARN_CFG, 39, 32⟩
def EPH_WARN_CFG_DOME_COUNT : Fld := ⟨.EPH_WARN_CFG, 43, 40⟩
/-! `EPH_WARN_STATUS`: 18_ephemeris -/
def EPH_WARN_STATUS_ARMED : Fld := ⟨.EPH_WARN_STATUS, 3, 0⟩
/-! `EPH_CMDQ_CFG`: 18_ephemeris -/
def EPH_CMDQ_CFG_EN : Fld := ⟨.EPH_CMDQ_CFG, 0, 0⟩
def EPH_CMDQ_CFG_POLL : Fld := ⟨.EPH_CMDQ_CFG, 1, 1⟩
def EPH_CMDQ_CFG_SIZE_LOG2 : Fld := ⟨.EPH_CMDQ_CFG, 6, 2⟩
def EPH_CMDQ_CFG_BASE : Fld := ⟨.EPH_CMDQ_CFG, 47, 12⟩
/-! `EPH_CMDQ_PTR`: 18_ephemeris -/
def EPH_CMDQ_PTR_TAIL : Fld := ⟨.EPH_CMDQ_PTR, 15, 0⟩
def EPH_CMDQ_PTR_HEAD : Fld := ⟨.EPH_CMDQ_PTR, 31, 16⟩
def EPH_CMDQ_PTR_NOTIFY_BIT : Fld := ⟨.EPH_CMDQ_PTR, 63, 32⟩
/-! `EPH_CMDQ_DB`: 18_ephemeris -/
def EPH_CMDQ_DB_LINE : Fld := ⟨.EPH_CMDQ_DB, 47, 6⟩
/-! `SMC_FLIP_CTRL`: 19_memory_integrity -/
def SMC_FLIP_CTRL_ARM : Fld := ⟨.SMC_FLIP_CTRL, 0, 0⟩
def SMC_FLIP_CTRL_MATCH_EN : Fld := ⟨.SMC_FLIP_CTRL, 1, 1⟩
def SMC_FLIP_CTRL_WORDS : Fld := ⟨.SMC_FLIP_CTRL, 15, 8⟩
def SMC_FLIP_CTRL_CHECK : Fld := ⟨.SMC_FLIP_CTRL, 23, 16⟩
def SMC_FLIP_CTRL_ADDR_BIT : Fld := ⟨.SMC_FLIP_CTRL, 29, 24⟩
/-! `SMC_FLIP_DATA`: 19_memory_integrity -/
def SMC_FLIP_DATA_MASK : Fld := ⟨.SMC_FLIP_DATA, 63, 0⟩
/-! `SMC_FLIP_ADDR`: 19_memory_integrity -/
def SMC_FLIP_ADDR_LINE : Fld := ⟨.SMC_FLIP_ADDR, 47, 6⟩
/-! `CHR_STATUS`: 20_clocks_reset_bringup -/
def CHR_STATUS_XTAL_STABLE : Fld := ⟨.CHR_STATUS, 0, 0⟩
def CHR_STATUS_PCIE_REF_OK : Fld := ⟨.CHR_STATUS, 1, 1⟩
def CHR_STATUS_ETH_REF_OK : Fld := ⟨.CHR_STATUS, 2, 2⟩
def CHR_STATUS_SAFE : Fld := ⟨.CHR_STATUS, 3, 3⟩
def CHR_STATUS_TB_XTAL : Fld := ⟨.CHR_STATUS, 4, 4⟩
def CHR_STATUS_SLEWING : Fld := ⟨.CHR_STATUS, 5, 5⟩
def CHR_STATUS_RESET_CAUSE : Fld := ⟨.CHR_STATUS, 9, 8⟩
def CHR_STATUS_CLOCK_LOSS : Fld := ⟨.CHR_STATUS, 10, 10⟩
/-! `CHR_TIME`: 20_clocks_reset_bringup -/
def CHR_TIME_TIME : Fld := ⟨.CHR_TIME, 63, 0⟩
/-! `CHR_TB_RATE`: 20_clocks_reset_bringup -/
def CHR_TB_RATE_RATE : Fld := ⟨.CHR_TB_RATE, 31, 0⟩
def CHR_TB_RATE_RATE_IN_FORCE : Fld := ⟨.CHR_TB_RATE, 63, 32⟩
/-! `CHR_TB_RATE_C`: 20_clocks_reset_bringup -/
def CHR_TB_RATE_C_RATE_C : Fld := ⟨.CHR_TB_RATE_C, 31, 0⟩
/-! `CHR_TB_STEP`: 20_clocks_reset_bringup -/
def CHR_TB_STEP_OFFSET : Fld := ⟨.CHR_TB_STEP, 63, 0⟩
/-! `CHR_TB_PENDING`: 20_clocks_reset_bringup -/
def CHR_TB_PENDING_PENDING : Fld := ⟨.CHR_TB_PENDING, 63, 0⟩
/-! `CHR_SAFE_CTRL`: 20_clocks_reset_bringup -/
def CHR_SAFE_CTRL_RELEASE : Fld := ⟨.CHR_SAFE_CTRL, 0, 0⟩
def CHR_SAFE_CTRL_FW_FAULT : Fld := ⟨.CHR_SAFE_CTRL, 1, 1⟩
/-! `CHR_RESET_REQ`: 20_clocks_reset_bringup -/
def CHR_RESET_REQ_WARM : Fld := ⟨.CHR_RESET_REQ, 0, 0⟩
/-! `CHR_INPUT_LEVEL`: 20_clocks_reset_bringup -/
def CHR_INPUT_LEVEL_LEVEL : Fld := ⟨.CHR_INPUT_LEVEL, 63, 0⟩
/-! `CHR_INPUT_STUCK`: 20_clocks_reset_bringup -/
def CHR_INPUT_STUCK_STUCK : Fld := ⟨.CHR_INPUT_STUCK, 63, 0⟩
/-! `CHR_TXTSp_INFO`: 20_clocks_reset_bringup -/
def CHR_TXTSp_INFO_VALID : Fld := ⟨.CHR_TXTSp_INFO, 0, 0⟩
def CHR_TXTSp_INFO_COUNT : Fld := ⟨.CHR_TXTSp_INFO, 5, 1⟩
def CHR_TXTSp_INFO_OVERFLOW : Fld := ⟨.CHR_TXTSp_INFO, 6, 6⟩
def CHR_TXTSp_INFO_HALF : Fld := ⟨.CHR_TXTSp_INFO, 7, 7⟩
def CHR_TXTSp_INFO_MSG_TYPE : Fld := ⟨.CHR_TXTSp_INFO, 11, 8⟩
def CHR_TXTSp_INFO_SEQUENCE_ID : Fld := ⟨.CHR_TXTSp_INFO, 31, 16⟩
def CHR_TXTSp_INFO_DOMAIN : Fld := ⟨.CHR_TXTSp_INFO, 39, 32⟩
/-! `CHR_TXTSp_TIME`: 20_clocks_reset_bringup -/
def CHR_TXTSp_TIME_TIME : Fld := ⟨.CHR_TXTSp_TIME, 63, 0⟩
/-! `HEL_STATUS`: 21_heliostat_power -/
def HEL_STATUS_SENSOR_DISAGREE : Fld := ⟨.HEL_STATUS, 0, 0⟩
def HEL_STATUS_SENSOR_FAIL : Fld := ⟨.HEL_STATUS, 1, 1⟩
def HEL_STATUS_TRIP : Fld := ⟨.HEL_STATUS, 2, 2⟩
def HEL_STATUS_PACING : Fld := ⟨.HEL_STATUS, 3, 3⟩
def HEL_STATUS_THROTTLE : Fld := ⟨.HEL_STATUS, 4, 4⟩
def HEL_STATUS_BUCKET_LOW : Fld := ⟨.HEL_STATUS, 5, 5⟩
def HEL_STATUS_DARK_LEVEL : Fld := ⟨.HEL_STATUS, 15, 8⟩
/-! `HEL_CAP_W`: 21_heliostat_power -/
def HEL_CAP_W_CAP_W : Fld := ⟨.HEL_CAP_W, 11, 0⟩
def HEL_CAP_W_CAP_IN_FORCE : Fld := ⟨.HEL_CAP_W, 27, 16⟩
/-! `HEL_CAP_W_C`: 21_heliostat_power -/
def HEL_CAP_W_C_CAP_W_C : Fld := ⟨.HEL_CAP_W_C, 11, 0⟩
/-! `HEL_PEAK`: 21_heliostat_power -/
def HEL_PEAK_PEAK_W : Fld := ⟨.HEL_PEAK, 11, 0⟩
def HEL_PEAK_PEAK_US : Fld := ⟨.HEL_PEAK, 25, 16⟩
def HEL_PEAK_PEAK_W_IN_FORCE : Fld := ⟨.HEL_PEAK, 43, 32⟩
def HEL_PEAK_PEAK_US_IN_FORCE : Fld := ⟨.HEL_PEAK, 57, 48⟩
/-! `HEL_PEAK_C`: 21_heliostat_power -/
def HEL_PEAK_C_PEAK_W_C : Fld := ⟨.HEL_PEAK_C, 11, 0⟩
def HEL_PEAK_C_PEAK_US_C : Fld := ⟨.HEL_PEAK_C, 25, 16⟩
/-! `HEL_SLEW`: 21_heliostat_power -/
def HEL_SLEW_SLEW_A : Fld := ⟨.HEL_SLEW, 7, 0⟩
def HEL_SLEW_FLOOR : Fld := ⟨.HEL_SLEW, 15, 8⟩
def HEL_SLEW_HOLD_US : Fld := ⟨.HEL_SLEW, 31, 16⟩
/-! `HEL_MEAS`: 21_heliostat_power -/
def HEL_MEAS_VIN_MV : Fld := ⟨.HEL_MEAS, 15, 0⟩
def HEL_MEAS_IIN_CA : Fld := ⟨.HEL_MEAS, 31, 16⟩
def HEL_MEAS_P_MEAS_W : Fld := ⟨.HEL_MEAS, 47, 32⟩
def HEL_MEAS_P_EST_W : Fld := ⟨.HEL_MEAS, 63, 48⟩
/-! `HEL_CAL`: 21_heliostat_power -/
def HEL_CAL_GAIN : Fld := ⟨.HEL_CAL, 15, 0⟩
def HEL_CAL_OFFSET_W : Fld := ⟨.HEL_CAL, 31, 16⟩
def HEL_CAL_DISAGREE_RUN : Fld := ⟨.HEL_CAL, 39, 32⟩
def HEL_CAL_AGREE_RUN : Fld := ⟨.HEL_CAL, 47, 40⟩
/-! `HEL_EVENTS`: 21_heliostat_power -/
def HEL_EVENTS_DISAGREE_SET : Fld := ⟨.HEL_EVENTS, 0, 0⟩
def HEL_EVENTS_DISAGREE_CLEAR : Fld := ⟨.HEL_EVENTS, 1, 1⟩
def HEL_EVENTS_SENSOR_FAIL : Fld := ⟨.HEL_EVENTS, 2, 2⟩
def HEL_EVENTS_TRIP : Fld := ⟨.HEL_EVENTS, 3, 3⟩
def HEL_EVENTS_PEAK_END : Fld := ⟨.HEL_EVENTS, 4, 4⟩
def HEL_EVENTS_THROTTLE_IN : Fld := ⟨.HEL_EVENTS, 5, 5⟩
def HEL_EVENTS_ACCORD_START : Fld := ⟨.HEL_EVENTS, 6, 6⟩
/-! `HEL_THERM`: 21_heliostat_power -/
def HEL_THERM_LIMIT_C : Fld := ⟨.HEL_THERM, 7, 0⟩
def HEL_THERM_TRIP_C : Fld := ⟨.HEL_THERM, 15, 8⟩
def HEL_THERM_STACK_LIMIT_C : Fld := ⟨.HEL_THERM, 23, 16⟩
def HEL_THERM_HOT_C : Fld := ⟨.HEL_THERM, 31, 24⟩
def HEL_THERM_MARGIN_C : Fld := ⟨.HEL_THERM, 39, 32⟩
def HEL_THERM_HOT_SRC : Fld := ⟨.HEL_THERM, 43, 40⟩
/-! `HEL_THROTTLE`: 21_heliostat_power -/
def HEL_THROTTLE_ARRAY_MHZ : Fld := ⟨.HEL_THROTTLE, 10, 0⟩
def HEL_THROTTLE_CORE_MHZ : Fld := ⟨.HEL_THROTTLE, 27, 16⟩
/-! `HEL_REASON`: 21_heliostat_power -/
def HEL_REASON_ARRAY : Fld := ⟨.HEL_REASON, 9, 0⟩
def HEL_REASON_CORES : Fld := ⟨.HEL_REASON, 25, 16⟩
/-! `HEL_ACCORD_CFG`: 21_heliostat_power -/
def HEL_ACCORD_CFG_EN : Fld := ⟨.HEL_ACCORD_CFG, 0, 0⟩
def HEL_ACCORD_CFG_SLOT : Fld := ⟨.HEL_ACCORD_CFG, 10, 1⟩
def HEL_ACCORD_CFG_STEPS : Fld := ⟨.HEL_ACCORD_CFG, 23, 16⟩
def HEL_ACCORD_CFG_MARGIN_US : Fld := ⟨.HEL_ACCORD_CFG, 47, 32⟩
/-! `HEL_ACCORD_STATUS`: 21_heliostat_power -/
def HEL_ACCORD_STATUS_PACING : Fld := ⟨.HEL_ACCORD_STATUS, 0, 0⟩
def HEL_ACCORD_STATUS_RUN : Fld := ⟨.HEL_ACCORD_STATUS, 15, 8⟩
def HEL_ACCORD_STATUS_PACE_MHZ : Fld := ⟨.HEL_ACCORD_STATUS, 26, 16⟩
def HEL_ACCORD_STATUS_IDLE_US : Fld := ⟨.HEL_ACCORD_STATUS, 63, 32⟩
/-! `HEL_DERATE`: 21_heliostat_power -/
def HEL_DERATE_CELL : Fld := ⟨.HEL_DERATE, 15, 0⟩
def HEL_DERATE_STEPS : Fld := ⟨.HEL_DERATE, 23, 16⟩
/-! `HEL_DERATE_RESULT`: 21_heliostat_power -/
def HEL_DERATE_RESULT_RESULT : Fld := ⟨.HEL_DERATE_RESULT, 1, 0⟩
def HEL_DERATE_RESULT_CODE : Fld := ⟨.HEL_DERATE_RESULT, 15, 8⟩
/-! `HEL_MON_SEL`: 21_heliostat_power -/
def HEL_MON_SEL_CELL : Fld := ⟨.HEL_MON_SEL, 15, 0⟩
/-! `HEL_MON_DATA`: 21_heliostat_power -/
def HEL_MON_DATA_MARGIN_PS : Fld := ⟨.HEL_MON_DATA, 15, 0⟩
def HEL_MON_DATA_DERATE : Fld := ⟨.HEL_MON_DATA, 23, 16⟩
def HEL_MON_DATA_VALID : Fld := ⟨.HEL_MON_DATA, 31, 31⟩
/-! `HEL_PHASE`: 21_heliostat_power -/
def HEL_PHASE_LEARN_EN : Fld := ⟨.HEL_PHASE, 0, 0⟩
def HEL_PHASE_ARRAY_PHASE : Fld := ⟨.HEL_PHASE, 13, 8⟩
/-! `HEL_SEEn`: 21_heliostat_power -/
def HEL_SEEn_ARRAY_W : Fld := ⟨.HEL_SEEn, 15, 0⟩
def HEL_SEEn_STACK_W : Fld := ⟨.HEL_SEEn, 31, 16⟩
def HEL_SEEn_CORE_MW : Fld := ⟨.HEL_SEEn, 47, 32⟩
def HEL_SEEn_WINDOWS : Fld := ⟨.HEL_SEEn, 63, 48⟩
/-! `DOM_COREn_BOOT_PC`: 22_dome_firmware -/
def DOM_COREn_BOOT_PC_PC : Fld := ⟨.DOM_COREn_BOOT_PC, 63, 2⟩
/-! `DOM_COREn_WDT_CFG`: 22_dome_firmware -/
def DOM_COREn_WDT_CFG_EN : Fld := ⟨.DOM_COREn_WDT_CFG, 0, 0⟩
def DOM_COREn_WDT_CFG_RESTART : Fld := ⟨.DOM_COREn_WDT_CFG, 1, 1⟩
def DOM_COREn_WDT_CFG_TIMEOUT_MS : Fld := ⟨.DOM_COREn_WDT_CFG, 31, 16⟩
/-! `DOM_COREn_WDT_KICK`: 22_dome_firmware -/
def DOM_COREn_WDT_KICK_KICK : Fld := ⟨.DOM_COREn_WDT_KICK, 0, 0⟩
/-! `DOM_COREn_WDT_STATUS`: 22_dome_firmware -/
def DOM_COREn_WDT_STATUS_REMAINING_MS : Fld := ⟨.DOM_COREn_WDT_STATUS, 15, 0⟩
def DOM_COREn_WDT_STATUS_EXPIRIES : Fld := ⟨.DOM_COREn_WDT_STATUS, 23, 16⟩
def DOM_COREn_WDT_STATUS_FENCED : Fld := ⟨.DOM_COREn_WDT_STATUS, 24, 24⟩
/-! `DOM_COREn_WDT_LAST`: 22_dome_firmware -/
def DOM_COREn_WDT_LAST_TIME : Fld := ⟨.DOM_COREn_WDT_LAST, 63, 0⟩
/-! `DOM_COREn_WDT_PC`: 22_dome_firmware -/
def DOM_COREn_WDT_PC_PC : Fld := ⟨.DOM_COREn_WDT_PC, 63, 0⟩
/-! `DOM_FW_STATUS`: 22_dome_firmware -/
def DOM_FW_STATUS_STATE : Fld := ⟨.DOM_FW_STATUS, 1, 0⟩
def DOM_FW_STATUS_FAILED_SVC : Fld := ⟨.DOM_FW_STATUS, 15, 8⟩
def DOM_FW_STATUS_FENCED : Fld := ⟨.DOM_FW_STATUS, 23, 16⟩
def DOM_FW_STATUS_FW_VERSION : Fld := ⟨.DOM_FW_STATUS, 63, 32⟩
/-! `DOM_HOST_HEARTBEAT`: 22_dome_firmware -/
def DOM_HOST_HEARTBEAT_COUNT : Fld := ⟨.DOM_HOST_HEARTBEAT, 31, 0⟩
/-! `DOM_HOST_HB_CFG`: 22_dome_firmware -/
def DOM_HOST_HB_CFG_TIMEOUT_MS : Fld := ⟨.DOM_HOST_HB_CFG, 15, 0⟩
/-! `DOM_HOST_STATE`: 22_dome_firmware -/
def DOM_HOST_STATE_ARMED : Fld := ⟨.DOM_HOST_STATE, 0, 0⟩
def DOM_HOST_STATE_ABSENT : Fld := ⟨.DOM_HOST_STATE, 1, 1⟩
def DOM_HOST_STATE_HGEN : Fld := ⟨.DOM_HOST_STATE, 31, 16⟩
/-! `DOM_HOST_ATTACH`: 22_dome_firmware -/
def DOM_HOST_ATTACH_ATTACH : Fld := ⟨.DOM_HOST_ATTACH, 0, 0⟩
/-! `PHOT_CTRL`: 23_photometers -/
def PHOT_CTRL_EN : Fld := ⟨.PHOT_CTRL, 7, 0⟩
def PHOT_CTRL_CHAIN : Fld := ⟨.PHOT_CTRL, 11, 8⟩
/-! `PHOT_OVF`: 23_photometers -/
def PHOT_OVF_OVF : Fld := ⟨.PHOT_OVF, 7, 0⟩
/-! `PHOT_SELc`: 23_photometers -/
def PHOT_SELc_EVENT : Fld := ⟨.PHOT_SELc, 11, 0⟩
def PHOT_SELc_QUAL : Fld := ⟨.PHOT_SELc, 27, 16⟩
/-! `PHOT_CNTc`: 23_photometers -/
def PHOT_CNTc_COUNT : Fld := ⟨.PHOT_CNTc, 47, 0⟩
/-! `PHOT_EXP_CTRL`: 23_photometers -/
def PHOT_EXP_CTRL_EN : Fld := ⟨.PHOT_EXP_CTRL, 0, 0⟩
def PHOT_EXP_CTRL_PERIOD_US : Fld := ⟨.PHOT_EXP_CTRL, 31, 12⟩
/-! `PHOT_EXP_LIST`: 23_photometers -/
def PHOT_EXP_LIST_ENTRIES : Fld := ⟨.PHOT_EXP_LIST, 10, 0⟩
def PHOT_EXP_LIST_BASE : Fld := ⟨.PHOT_EXP_LIST, 47, 12⟩
/-! `PHOT_EXP_RING`: 23_photometers -/
def PHOT_EXP_RING_SIZE_LOG2 : Fld := ⟨.PHOT_EXP_RING, 4, 0⟩
def PHOT_EXP_RING_BASE : Fld := ⟨.PHOT_EXP_RING, 47, 12⟩
/-! `PHOT_EXP_PTR`: 23_photometers -/
def PHOT_EXP_PTR_HEAD : Fld := ⟨.PHOT_EXP_PTR, 15, 0⟩
def PHOT_EXP_PTR_TAIL : Fld := ⟨.PHOT_EXP_PTR, 31, 16⟩
def PHOT_EXP_PTR_NOTIFY_BIT : Fld := ⟨.PHOT_EXP_PTR, 63, 32⟩
/-! `ROT_FLASH_ARG`: 24_module_electrical -/
def ROT_FLASH_ARG_ADDR : Fld := ⟨.ROT_FLASH_ARG, 47, 0⟩
/-! `ROT_FLASH_CMD`: 24_module_electrical -/
def ROT_FLASH_CMD_CMD : Fld := ⟨.ROT_FLASH_CMD, 1, 0⟩
def ROT_FLASH_CMD_OFFSET : Fld := ⟨.ROT_FLASH_CMD, 33, 8⟩
def ROT_FLASH_CMD_PAGES : Fld := ⟨.ROT_FLASH_CMD, 56, 48⟩
/-! `ROT_FLASH_RESULT`: 24_module_electrical -/
def ROT_FLASH_RESULT_RESULT : Fld := ⟨.ROT_FLASH_RESULT, 1, 0⟩
def ROT_FLASH_RESULT_CODE : Fld := ⟨.ROT_FLASH_RESULT, 15, 8⟩
/-! `PLT_FLIP_CTRL`: 19_memory_integrity -/
def PLT_FLIP_CTRL_ARM : Fld := ⟨.PLT_FLIP_CTRL, 0, 0⟩
def PLT_FLIP_CTRL_MATCH_EN : Fld := ⟨.PLT_FLIP_CTRL, 1, 1⟩
def PLT_FLIP_CTRL_WORDS : Fld := ⟨.PLT_FLIP_CTRL, 15, 8⟩
def PLT_FLIP_CTRL_CHECK : Fld := ⟨.PLT_FLIP_CTRL, 23, 16⟩
def PLT_FLIP_CTRL_ADDR_BIT : Fld := ⟨.PLT_FLIP_CTRL, 29, 24⟩
/-! `PLT_FLIP_DATA`: 19_memory_integrity -/
def PLT_FLIP_DATA_MASK : Fld := ⟨.PLT_FLIP_DATA, 63, 0⟩
/-! `PLT_FLIP_ADDR`: 19_memory_integrity -/
def PLT_FLIP_ADDR_LINE : Fld := ⟨.PLT_FLIP_ADDR, 47, 6⟩
/-! `CELL_FEATn`: 02_cells_and_address_space -/
def CELL_FEATn_FEAT : Fld := ⟨.CELL_FEATn, 63, 0⟩
end F

end Sys2Proof.Machine
end

