-- ==== Sys2Proof/Machine/CellTree.lean ====
section
/-! DEFINITION. The cell tree (R43 to R50), the cell kinds, the placement of CCBs and unit register blocks (R48, R51, R707),
the fused frequencies (R706) and the cells that hold each memory (R67, R70, R595). -/

namespace Sys2Proof.Machine

/-- R43: the id of the cell at a path. -/
def cellId (die slot member : Nat) : Nat := 0x2000 * die + 0x200 * slot + member

/-- R43: the fields of an id. -/
def cellDie (id : Nat) : Nat := id / 0x2000
def cellSlot (id : Nat) : Nat := id / 0x200 % 16
def cellMember (id : Nat) : Nat := id % 0x200

/-- R45: the subsystem cell kind and the member count and kind of a hub slot. -/
def hubSlot : Nat → Option (Nat × Nat)
  | 1 => some (0x20, 26) | 2 => some (0x23, 8) | 3 => some (0x25, 0) | 4 => some (0x26, 0)
  | 5 => some (0x27, 0) | 6 => some (0x28, 0) | 7 => some (0x29, 0) | 8 => some (0x2A, 40)
  | 9 => some (0x2C, 0) | 10 => some (0x2D, 0) | 11 => some (0x2E, 8) | 12 => some (0x30, 0)
  | 13 => some (0x31, 0) | 14 => some (0x32, 0) | 15 => some (0x33, 0) | _ => none

/-- R46: the subsystem cell kind and the member count of a slot of quadrant q (0 to 3 for QNW, QNE, QSW, QSE). -/
def quadSlot (q : Nat) : Nat → Option (Nat × Nat)
  | 1 => some (0x10, 289) | 2 => some (0x12, 0) | 3 => some (0x13, 2) | 4 => some (0x15, 16)
  | 5 => some (0x17, 8) | 6 => some (0x17, 8) | 7 => some (0x17, 8) | 8 => some (0x17, 8)
  | 9 => if q = 0 ∨ q = 2 then some (0x19, 0) else none
  | 10 => if q = 0 ∨ q = 1 then some (0x1A, 0) else none
  | 11 => if q = 2 ∨ q = 3 then some (0x1B, 0) else none
  | 12 => some (0x1C, 0) | _ => none

/-- The subsystem of a die and slot. -/
def slotInfo (die slot : Nat) : Option (Nat × Nat) :=
  if die = 1 then hubSlot slot else if 2 ≤ die ∧ die ≤ 5 then quadSlot (die - 2) slot else none

/-- R45, R46: the kind of a member cell of a subsystem kind. -/
def memberKind (k member : Nat) : Nat :=
  if k = 0x20 then (if member ≤ 2 then 0x21 else 0x22) else k + 1

/-- R43 to R47: the kind of a cell; none where the id names no cell. -/
def cellKind (id : Nat) : Option Nat :=
  let die := cellDie id
  let slot := cellSlot id
  let m := cellMember id
  if 0x10000 ≤ id then none
  else if id = 0 then some 0x01
  else if die = 0 ∨ 5 < die then none
  else if slot = 0 then (if m = 0 then some (if die = 1 then 0x02 else 0x03) else none)
  else match slotInfo die slot with
    | none => none
    | some (k, n) => if m = 0 then some k else if m ≤ n then some (memberKind k m) else none

/-- The kind of a cell, or 0 where the id names none. -/
def kindOf (id : Nat) : Nat := (cellKind id).getD 0

/-- R44: the parent of a cell; the device cell is its own. -/
def cellParent (id : Nat) : Nat :=
  if cellMember id ≠ 0 then id - cellMember id
  else if cellSlot id ≠ 0 then id - 0x200 * cellSlot id
  else 0

/-- The cell and its ancestors, the cell first. -/
def cellPath (id : Nat) : List Nat :=
  if id = 0 then [0]
  else if cellSlot id = 0 then [id, 0]
  else if cellMember id = 0 then [id, cellParent id, 0]
  else [id, cellParent id, cellParent (cellParent id), 0]

/-- Whether `a` is `id` or an ancestor of it. -/
def isAncestor (a id : Nat) : Bool := (cellPath id).contains a

/-- R50: the children of a cell, in ascending order of id. -/
def cellChildren (id : Nat) : List Nat :=
  match kindOf id with
  | 0x01 => [0x2000, 0x4000, 0x6000, 0x8000, 0xA000]
  | 0x02 | 0x03 =>
    (List.range 15).filterMap fun k =>
      if (slotInfo (cellDie id) (k + 1)).isSome then some (id + (k + 1) * 0x200) else none
  | _ =>
    if cellMember id = 0 ∧ cellSlot id ≠ 0 then
      match slotInfo (cellDie id) (cellSlot id) with
      | some (_, n) => (List.range n).map fun m => id + m + 1
      | none => []
    else []

/-- The cell and all its descendants. -/
def cellSubtree (id : Nat) : List Nat :=
  let l1 := cellChildren id
  let l2 := l1.flatMap cellChildren
  let l3 := l2.flatMap cellChildren
  id :: (l1 ++ l2 ++ l3)

/-- R54: the cells without an enable. -/
def noEnable (id : Nat) : Bool :=
  [0x01, 0x02, 0x03, 0x30, 0x31, 0x32, 0x2E, 0x33, 0x1C].contains (kindOf id)

/-- R706: the group cells, which hold no logic of their own. -/
def isGroup (id : Nat) : Bool := [0x01, 0x02, 0x03, 0x23, 0x13, 0x15].contains (kindOf id)

/-- R707: the size of a cell's unit register block, 0 where it has none. -/
def unitSize (id : Nat) : Nat :=
  match kindOf id with
  | 0x01 => 0x1000 | 0x10 => 0x1000 | 0x12 => 0x1000 | 0x14 => 0x1000 | 0x16 => 0x1000 | 0x17 => 0x1000
  | 0x18 => 0x80000 | 0x2F => 0x80000
  | 0x20 => 0x40000 | 0x21 => 0x100000 | 0x22 => 0x200000000 | 0x24 => 0x1000
  | 0x25 => 0x100000 | 0x26 => 0x800000 | 0x27 => 0x200000 | 0x28 => 0x20000 | 0x29 => 0x200000
  | 0x2A => 0x100000 | 0x2C => 0x40000 | 0x2D => 0x10000 | 0x2E => 0x300000
  | 0x30 => 0x10000 | 0x31 => 0x10000 | 0x32 => 0x10000 | _ => 0

/-- R48: the device address of a cell's CCB. -/
def ccbBase (id : Nat) : Nat := 0x020000000000 + 0x1000 * id

/-- The slot of 16 MiB, or the 8 GiB block of a downstream port, that R707 places for a cell, whether or not it has a block. -/
def unitSlotBase (id : Nat) : Nat :=
  if kindOf id = 0x22 then 0x021000000000 + 0x200000000 * (cellMember id - 3)
  else 0x024000000000 + 0x1000000 * id

/-- R707: the device address of a cell's unit register block, 0 where it has none. -/
def unitBase (id : Nat) : Nat := if unitSize id = 0 then 0 else unitSlotBase id

/-- The cell whose unit register block holds a device address, with the offset in the block. -/
def unitAt (a : Nat) : Option (Nat × Nat) :=
  if 0x021000000000 ≤ a ∧ a < 0x024000000000 then
    let k := (a - 0x021000000000) / 0x200000000
    if k < 24 then some (0x2203 + k, (a - 0x021000000000) % 0x200000000) else none
  else if 0x024000000000 ≤ a ∧ a < 0x030000000000 then
    let id := (a - 0x024000000000) / 0x1000000
    let off := (a - 0x024000000000) % 0x1000000
    if off < unitSize id ∧ kindOf id ≠ 0x22 then some (id, off) else none
  else none

/-- R67: CCB space. -/
def inCcb (a : Nat) : Bool := decide (0x020000000000 ≤ a ∧ a < 0x020010000000)

/-- R67: the range of CCB space and unit register blocks. -/
def inRegSpace (a : Nat) : Bool := decide (0x020000000000 ≤ a ∧ a < 0x030000000000)

/-- R70: the stack of a stack memory address. -/
def stackOf (a : Nat) : Nat :=
  let f := fun k => a / 2 ^ k % 8
  (f 12) ^^^ (f 15) ^^^ (f 18) ^^^ (f 21) ^^^ (f 24) ^^^ (f 27) ^^^ (f 30) ^^^ (f 33) ^^^ (f 36) ^^^ (a / 2 ^ 39 % 2)

/-- R70: the stack-local offset. -/
def stackLocal (a : Nat) : Nat := (a / 2 ^ 15 % 2 ^ 25) * 2 ^ 12 + a % 2 ^ 12

/-- R67: stack memory and the Plates. -/
def inStack (a : Nat) : Bool := decide (a < 0x00C000000000)
def inPlates (a : Nat) : Bool := decide (0x010000000000 ≤ a ∧ a < 0x010040000000)

/-- The cells of quadrant q. -/
def quadCell (q slot member : Nat) : Nat := cellId (q + 2) slot member

/-- R45, R46: the ids the rules name. -/
def qnwCell : Nat := 0x4200
def platesCell (q : Nat) : Nat := quadCell q 2 0
def smcCell (stack : Nat) : Nat := quadCell (stack / 2) 3 (stack % 2 + 1)
def moverCell (m : Nat) : Nat := quadCell (m / 16) 4 (m % 16 + 1)
def clusterCell (c : Nat) : Nat := quadCell (c / 4) (c % 4 + 5) 0
def guiderCell (n : Nat) : Nat := clusterCell (n / 8) + n % 8 + 1
def domeCell (n : Nat) : Nat := 0x3601 + n
def filterCell (n : Nat) : Nat := 0x3001 + n
def ethCell (p : Nat) : Nat := 0x2401 + p
def upCell (p : Nat) : Nat := 0x2201 + p
def downCell (k : Nat) : Nat := 0x2203 + k
def pciCell : Nat := 0x2200
def spgCell : Nat := 0x2600
def shtCell : Nat := 0x2800
def trnCell : Nat := 0x2A00
def colCell : Nat := 0x2C00
def catCell : Nat := 0x2E00
def fltCell : Nat := 0x3000
def keyCell : Nat := 0x3200
def ephCell : Nat := 0x3400
def domeSub : Nat := 0x3600
def chrCell : Nat := 0x3800
def helCell : Nat := 0x3A00
def rotCell : Nat := 0x3C00

/-- The quadrant of a Plates address (R67). -/
def platesQuad (a : Nat) : Nat := (a - 0x010000000000) / 0x10000000

/-- Where this model keeps the local memory of a core cell: the bytes of its unit slot, which the aperture of R304 shows and
which R707 leaves unmapped for a Filter unit. -/
def localBase (cell : Nat) : Nat := 0x024000000000 + 0x1000000 * cell

/-- R226, R266: the size of a core's local memory. -/
def localSize (cell : Nat) : Nat := if kindOf cell = 0x2B then 0x4000 else 0x40000

/-- R595: the cell of the memory that holds an address: the controller of its stack, the Plates of its quadrant, or the core
whose local memory it is. -/
def memCell (a : Nat) : Option Nat :=
  if inStack a then some (smcCell (stackOf a))
  else if inPlates a then some (platesCell (platesQuad a))
  else if 0x024000000000 ≤ a then
    let id := (a - 0x024000000000) / 0x1000000
    let k := kindOf id
    if (k = 0x18 ∨ k = 0x2F ∨ k = 0x2B) ∧ (a - 0x024000000000) % 0x1000000 < localSize id then some id else none
  else none

/-- R706: the highest frequency a cell's island may run before any derate, in MHz. -/
def fusedFmax (id : Nat) : Nat :=
  match kindOf id with
  | 0x11 => 1000 + 25 * (Config.fuse id 0 % 33)
  | 0x18 => 2400 + 25 * (Config.fuse id 0 % 25)
  | 0x19 | 0x1A | 0x1B => 1800
  | 0x2F => 1200 | 0x2B => 1500 | 0x14 => 1250 | 0x12 => 1000 | 0x28 => 1000 | 0x30 => 50
  | _ => if isGroup id then 0 else 1000

/-- R108: the row and the column that manufacturing test found to map out in the quadrant of a quarter cell that has a defective segment. -/
def testedRow (quarter : Nat) : Nat := Config.fuse quarter 1 % 17
def testedCol (quarter : Nat) : Nat := Config.fuse quarter 2 % 17

/-- R110: a segment fused as defective at manufacturing test; the map found there leaves none of them mapped (R108, log 72). -/
def fusedDefective (id : Nat) : Bool :=
  kindOf id == 0x11 && Config.fuse id 9 % 2 == 1
    && ((cellMember id - 1) / 17 == testedRow (cellParent id) || (cellMember id - 1) % 17 == testedCol (cellParent id))

/-- R108: the quadrant of a quarter cell has a defective segment. -/
def anyDefective (quarter : Nat) : Bool := (List.range 289).any fun k => fusedDefective (quarter + 1 + k)

/-- R108: the fused map: row 16 and column 16 for a quadrant without a defective segment. -/
def fusedRow (quarter : Nat) : Nat := if anyDefective quarter then testedRow quarter else 16
def fusedCol (quarter : Nat) : Nat := if anyDefective quarter then testedCol quarter else 16

/-- R264: the values of feat0 to feat7. -/
def featValue : Nat → Nat
  | 0 => 0x0100 + 0xB0 * 2 ^ 16
  | 1 => 2 ^ 19 - 1
  | 2 => 0x10 + 0x8 * 2 ^ 8 + 0x8 * 2 ^ 12 + 0x40 * 2 ^ 16 + 0x28 * 2 ^ 24 + 0x8 * 2 ^ 32 + 0x2 * 2 ^ 36
      + 0x18 * 2 ^ 40 + 0x8 * 2 ^ 48 + 0x4 * 2 ^ 52
  | 3 => 0x0800 + 0x0800 * 2 ^ 16 + 0x40 * 2 ^ 32 + 0x40 * 2 ^ 40 + 0x20 * 2 ^ 48
  | 4 => 0x0400 + 0x0300 * 2 ^ 16 + 0x0100 * 2 ^ 32 + 0x0040 * 2 ^ 48
  | 5 => 0x01FF + 0xF * 2 ^ 16 + 0x1000 * 2 ^ 32
  | 6 => 0x7F + 0x08 * 2 ^ 8 + 0x4 * 2 ^ 16 + 0x100 * 2 ^ 24
  | _ => 0

/-- The instance of a register within its strides: index i counts the last stride fastest. -/
def strideOffset : List (Nat × Nat) → Nat → Nat
  | [], _ => 0
  | [(st, _)], i => st * i
  | (st, _) :: (st2, n2) :: _, i => st * (i / n2) + st2 * (i % n2)

/-- The number of instances of a register. -/
def RegMap.count (m : RegMap) : Nat := (m.strides.map Prod.snd).foldl (· * ·) 1

/-- The device address of instance i of a register in a cell. -/
def regAddr (r : RegId) (cell i : Nat) : Nat :=
  let m := r.map
  (if m.kinds.isEmpty then ccbBase cell else unitBase cell) + m.offset + strideOffset m.strides i

/-- Whether a cell has a register: its kind, and the QNW restriction of R139 and chapter 06; the feature copies and the
exposure registers belong to the device cell (R71). -/
def hasReg (r : RegId) (cell : Nat) : Bool :=
  (r.map.kinds.isEmpty || r.map.kinds.contains (kindOf cell))
    && (!r.map.qnwOnly || cellDie cell == 2) && (decide (r ≠ .CELL_FEATn) || decide (cell = 0))

/-- The instance of register r, at a block offset, that holds the byte at `off`: (instance, byte within the register). -/
def regHolds (r : RegId) (off : Nat) : Option (Nat × Nat) :=
  let m := r.map
  if off < m.offset then none
  else
    let d := off - m.offset
    let hit := match m.strides with
      | [] => (0, d)
      | [(st, n)] => if d / st < n then (d / st, d % st) else (n, m.width)
      | (st, n) :: (st2, n2) :: _ =>
        if d / st < n ∧ d % st / st2 < n2 then (d / st * n2 + d % st / st2, d % st % st2) else (0, m.width)
    if hit.2 < m.width / 8 then some hit else none

/-- The register that holds the byte at a device address: the cell, the register, the instance and the byte within it. -/
def regAt (a : Nat) : Option (Nat × RegId × Nat × Nat) :=
  let place := if inCcb a then some ((a - 0x020000000000) / 0x1000, 0, (a - 0x020000000000) % 0x1000)
    else (unitAt a).map fun p => (p.1, kindOf p.1, p.2)
  match place with
  | none => none
  | some (cell, kind, off) =>
    if (cellKind cell).isNone then none
    else (RegId.ofKind kind).findSome? fun r =>
      if hasReg r cell then (regHolds r off).map fun h => (cell, r, h.1, h.2) else none

/-- Every cell of the part. -/
def allCells : List Nat := cellSubtree 0

/-- R21: the value a register holds after reset of its cell. -/
def resetValue (r : RegId) (cell i : Nat) : BitVec 64 :=
  let base := BitVec.ofNat 64 ((r.map.fields.map fun f => f.reset % 2 ^ (f.hi - f.lo + 1) * 2 ^ f.lo).foldl (· + ·) 0)
  match r with
  | .CELL_IDENT => BitVec.ofNat 64 (cell + kindOf cell * 2 ^ 16 + 0xB0 * 2 ^ 24)
  | .CELL_CHILD_COUNT => BitVec.ofNat 64 (cellChildren cell).length
  | .CELL_CHILDn => BitVec.ofNat 64 ((cellChildren cell).getD (2 * i) 0 + (cellChildren cell).getD (2 * i + 1) 0 * 2 ^ 16)
  | .CELL_CTRL => if noEnable cell then 1 else 0
  | .CELL_CLOCK => BitVec.ofNat 64 ((if isGroup cell then 0x7FF else Config.island cell % 1700) + fusedFmax cell * 2 ^ 16)
  | .CELL_UNIT_BASE => BitVec.ofNat 64 (unitBase cell)
  | .CELL_UNIT_SIZE => BitVec.ofNat 64 (unitSize cell)
  | .CELL_FEATn => BitVec.ofNat 64 (featValue i)
  | .PRIM_MAP =>
    let row := fusedRow cell
    let col := fusedCol cell
    BitVec.ofNat 64 (row + col * 2 ^ 8 + row * 2 ^ 16 + col * 2 ^ 24)
  | .PRIM_MAP_C => BitVec.ofNat 64 (31 - fusedRow cell + (31 - fusedCol cell) * 2 ^ 8)
  | .PLT_RING_CTRL => base + BitVec.ofNat 64 ((if cellDie cell = 2 ∨ cellDie cell = 4 then 0x10 else 0x08) * 2 ^ 16)
  | .PCI_FNf_STATUS => if i = 0 then base ||| 1 else base
  | .ROT_STATUS =>
    base + BitVec.ofNat 64 (Config.fuse cell 3 % 4 * 2 ^ 4 + Config.fuse cell 4 % 16 * 2 ^ 8 + Config.fuse cell 5 % 65 * 2 ^ 12)
  | .ROT_NONCEm => Config.resetNonce i
  | _ => base

end Sys2Proof.Machine
end

