-- ==== Sys2Proof/Machine/Formats.lean ====
section
/-! DEFINITION. Number formats and arithmetic (spec chapter 03_number_formats): the element formats, exact dyadic values,
the one rounding of the running sum, the output conversion with its rounding modes, stochastic rounding, MX quantisation,
and the exact-sum word of the Collector. -/

namespace Sys2Proof.Machine

/-- The element formats of R73, by their 4-bit code; codes 0x9 to 0xF are reserved and stand for no format. -/
inductive Fmt where
  | fp32 | bf16 | fp16 | e4m3 | e5m2 | e3m2 | e2m3 | e2m1 | int8
  deriving DecidableEq, Repr

/-- R73: the format a code names. -/
def Fmt.ofCode : Nat → Option Fmt
  | 0 => some .fp32 | 1 => some .bf16 | 2 => some .fp16 | 3 => some .e4m3 | 4 => some .e5m2
  | 5 => some .e3m2 | 6 => some .e2m3 | 7 => some .e2m1 | 8 => some .int8 | _ => none

/-- R73: the width of an element in bits. -/
def Fmt.width : Fmt → Nat
  | .fp32 => 32 | .bf16 => 16 | .fp16 => 16 | .e4m3 => 8 | .e5m2 => 8
  | .e3m2 => 6 | .e2m3 => 6 | .e2m1 => 4 | .int8 => 8

/-- R73: whether scaling mode NONE is allowed. -/
def Fmt.allowsNone : Fmt → Bool
  | .e3m2 | .e2m3 | .e2m1 => false
  | _ => true

/-- R73: whether scaling mode MX is allowed. -/
def Fmt.allowsMx : Fmt → Bool
  | .fp32 | .bf16 | .fp16 => false
  | _ => true

/-- R74: the mantissa width. -/
def Fmt.man : Fmt → Nat
  | .fp32 => 23 | .bf16 => 7 | .fp16 => 10 | .e4m3 => 3 | .e5m2 => 2
  | .e3m2 => 2 | .e2m3 => 3 | .e2m1 => 1 | .int8 => 0

/-- R74: the exponent width. -/
def Fmt.exp : Fmt → Nat
  | .fp32 => 8 | .bf16 => 8 | .fp16 => 5 | .e4m3 => 4 | .e5m2 => 5
  | .e3m2 => 3 | .e2m3 => 2 | .e2m1 => 2 | .int8 => 0

/-- R74: the exponent bias. -/
def Fmt.bias : Fmt → Int
  | .fp32 => 127 | .bf16 => 127 | .fp16 => 15 | .e4m3 => 7 | .e5m2 => 15
  | .e3m2 => 3 | .e2m3 => 1 | .e2m1 => 1 | .int8 => 0

/-- R75: whether the all-ones exponent encodes infinity and NaN as IEEE 754 has them. -/
def Fmt.ieee : Fmt → Bool
  | .fp32 | .bf16 | .fp16 | .e5m2 => true
  | _ => false

/-- R75: the bits, without the sign, of the largest finite value. -/
def Fmt.maxBits : Fmt → Nat
  | .fp32 => 0x7F7FFFFF | .bf16 => 0x7F7F | .fp16 => 0x7BFF | .e4m3 => 0x7E | .e5m2 => 0x7B
  | .e3m2 => 0x1F | .e2m3 => 0x1F | .e2m1 => 0x7 | .int8 => 0x7F

/-- R76: the canonical NaN; the formats that encode none answer 0, which R96 writes under a scale of 0xFF. -/
def Fmt.nanBits : Fmt → Nat
  | .fp32 => 0x7FC00000 | .bf16 => 0x7FC0 | .fp16 => 0x7E00 | .e5m2 => 0x7E | .e4m3 => 0x7F
  | _ => 0

/-- The bits of +∞ in a format that has it (R75). -/
def Fmt.infBits (f : Fmt) : Nat := (2 ^ f.exp - 1) * 2 ^ f.man

/-- A value as the part computes with it: NaN, an infinity, or the exact dyadic number (−1)^neg × m × 2^e (a zero keeps
its sign). -/
inductive Num where
  | nan
  | inf (neg : Bool)
  | fin (neg : Bool) (m : Nat) (e : Int)
  deriving DecidableEq, Repr

/-- The positive zero. -/
def Num.zero : Num := .fin false 0 0

def Num.isNan : Num → Bool
  | .nan => true
  | _ => false

def Num.isInf : Num → Bool
  | .inf _ => true
  | _ => false

def Num.isZero : Num → Bool
  | .fin _ 0 _ => true
  | _ => false

/-- The sign of a value; a NaN has none and answers false. -/
def Num.neg : Num → Bool
  | .nan => false
  | .inf n => n
  | .fin n _ _ => n

def Num.negate : Num → Num
  | .nan => .nan
  | .inf n => .inf (!n)
  | .fin n m e => .fin (!n) m e

/-- The value an integer has. -/
def Num.ofInt (i : Int) : Num := .fin (i < 0) i.natAbs 0

/-- R74, R75, R78: the value of the low bits of `b` in format `f`; `mx` says the element stands under MX scaling, where
INT8 is MXINT8. -/
def decodeElem (f : Fmt) (mx : Bool) (b : Nat) : Num :=
  match f with
  | .int8 =>
    let u := b % 256
    let i : Int := if u < 128 then u else (u : Int) - 256
    .fin (i < 0) i.natAbs (if mx then -6 else 0)
  | f =>
    let s := b / 2 ^ (f.width - 1) % 2 = 1
    let e := b / 2 ^ f.man % 2 ^ f.exp
    let m := b % 2 ^ f.man
    if f.ieee ∧ e = 2 ^ f.exp - 1 then (if m = 0 then .inf s else .nan)
    else if f = .e4m3 ∧ e = 15 ∧ m = 7 then .nan
    else if e = 0 then .fin s m (1 - f.bias - f.man)
    else .fin s (2 ^ f.man + m) ((e : Int) - f.bias - f.man)

/-- R79: the exponent of an MX scale byte; 0xFF is NaN. -/
def mxScale (b : Nat) : Option Int := if b % 256 = 255 then none else some ((b % 256 : Nat) - 127 : Int)

/-- The signed integer value of m × 2^(e − base), for base ≤ e. -/
def dyInt (neg : Bool) (m : Nat) (e base : Int) : Int :=
  let v : Int := (m * 2 ^ (e - base).toNat : Nat)
  if neg then -v else v

/-- The sign of an exact zero sum is settled by the caller. The exact sum of two finite values. -/
def dyAdd (n1 : Bool) (m1 : Nat) (e1 : Int) (n2 : Bool) (m2 : Nat) (e2 : Int) : Int × Int :=
  let b := min e1 e2
  (dyInt n1 m1 e1 b + dyInt n2 m2 e2 b, b)

/-- The exact product. ∞ × 0 has no value here and answers NaN; the caller raises INVALID (R85). -/
def Num.mul : Num → Num → Num
  | .nan, _ => .nan
  | _, .nan => .nan
  | .inf a, .inf b => .inf (a != b)
  | .inf a, .fin b m _ => if m = 0 then .nan else .inf (a != b)
  | .fin a m _, .inf b => if m = 0 then .nan else .inf (a != b)
  | .fin a m e, .fin b k g => .fin (a != b) (m * k) (e + g)

/-- The exact sum under IEEE 754 rules for zeros (round to nearest: x + (−x) is +0) and infinities; unrounded. -/
def Num.add : Num → Num → Num
  | .nan, _ => .nan
  | _, .nan => .nan
  | .inf a, .inf b => if a = b then .inf a else .nan
  | .inf a, .fin _ _ _ => .inf a
  | .fin _ _ _, .inf b => .inf b
  | .fin a m e, .fin b k g =>
    let (s, x) := dyAdd a m e b k g
    if s = 0 then .fin (a && b) 0 0 else .fin (s < 0) s.natAbs x

/-- Multiply by a power of two, exactly. -/
def Num.scale2 (k : Int) : Num → Num
  | .fin n m e => .fin n m (e + k)
  | v => v

/-- Order of two values that are not NaN: −∞ below every finite value, zeros of either sign equal. -/
def Num.lt : Num → Num → Bool
  | .nan, _ => false
  | _, .nan => false
  | .inf a, .inf b => a && !b
  | .inf a, _ => a
  | _, .inf b => !b
  | .fin a m e, .fin b k g =>
    let x := min e g
    decide (dyInt a m e x < dyInt b k g x)

/-- Equality of value: zeros of either sign are equal, a NaN equals nothing. -/
def Num.beqVal (a b : Num) : Bool :=
  match a, b with
  | .nan, _ => false
  | _, .nan => false
  | a, b => !a.lt b && !b.lt a

/-- The sticky arithmetic flags of R87. -/
structure ArithFlags where
  nanIn : Bool := false
  invalid : Bool := false
  overflow : Bool := false
  saturated : Bool := false
  deriving DecidableEq, Repr

/-- Flags are sticky: the union of two sets. -/
def ArithFlags.or (a b : ArithFlags) : ArithFlags :=
  ⟨a.nanIn || b.nanIn, a.invalid || b.invalid, a.overflow || b.overflow, a.saturated || b.saturated⟩

def ArithFlags.mkNanIn (b : Bool) : ArithFlags := { nanIn := b }
def ArithFlags.mkInvalid (b : Bool) : ArithFlags := { invalid := b }
def ArithFlags.mkOverflow (b : Bool) : ArithFlags := { overflow := b }
def ArithFlags.mkSaturated (b : Bool) : ArithFlags := { saturated := b }

/-- The rounding modes of R88, by the RND code. -/
inductive Rnd where
  | rne | rz | ru | rd | sr
  deriving DecidableEq, Repr

def Rnd.ofCode : Nat → Option Rnd
  | 0 => some .rne | 1 => some .rz | 2 => some .ru | 3 => some .rd | 4 => some .sr | _ => none

/-- floor(log2 m) for m > 0. -/
def log2Nat (m : Nat) : Nat := Nat.log2 m

/-- R88, R93: round the magnitude m × 2^e onto the grid of step 2^q: the integer number of steps. `draw` is r of R92. -/
def roundSteps (rnd : Rnd) (neg : Bool) (draw : Nat) (m : Nat) (e q : Int) : Nat :=
  if q ≤ e then m * 2 ^ (e - q).toNat
  else
    let d := 2 ^ (q - e).toNat
    let lo := m / d
    let rem := m % d
    if rem = 0 then lo
    else
      let up : Bool := match rnd with
        | .rne => decide (d < 2 * rem) || (decide (2 * rem = d) && decide (lo % 2 = 1))
        | .rz => false
        | .ru => !neg
        | .rd => neg
        | .sr => decide (draw < rem * 65536 / d)
      if up then lo + 1 else lo

/-- R90: the roundings under which an overflow stays at the largest finite magnitude whatever SAT holds. -/
def Rnd.towardZero (rnd : Rnd) (neg : Bool) : Bool :=
  match rnd with
  | .rz => true
  | .ru => neg
  | .rd => !neg
  | _ => false

/-- The sign bit of a format, placed. -/
def signBits (f : Fmt) (neg : Bool) : Nat := if neg then 2 ^ (f.width - 1) else 0

/-- The encoding of n steps of 2^q in a floating-point format; n is at most 2^(man+1), and q is the step of its binade. -/
def encodeSteps (f : Fmt) (n : Nat) (q : Int) : Nat :=
  if n < 2 ^ f.man then n
  else
    let (n, q) := if n = 2 ^ (f.man + 1) then (2 ^ f.man, q + 1) else (n, q)
    (q + f.man + f.bias).toNat * 2 ^ f.man + (n - 2 ^ f.man)

/-- R89 for INT8 (and R96 for MXINT8, whose step is 2^−6): a negative value saturates to −128 steps, a positive to 127. -/
def convertInt8 (mx : Bool) (rnd : Rnd) (draw : Nat) (v : Num) : Nat × ArithFlags :=
  match v with
  | .nan => (0, .mkInvalid (!mx))
  | .inf n => (if n then 0x80 else 0x7F, .mkSaturated true)
  | .fin n m e =>
    let k := roundSteps rnd n draw m e (if mx then -6 else 0)
    if n then (if 128 < k then (0x80, .mkSaturated true) else ((256 - k) % 256, {}))
    else (if 127 < k then (0x7F, .mkSaturated true) else (k, {}))

/-- R88 to R91, R93 and R96: one conversion of a value to the target format. `mx` says the target is an MX element, which
saturates whatever `sat` holds and encodes neither infinity nor NaN. -/
def convertOut (f : Fmt) (mx sat : Bool) (rnd : Rnd) (draw : Nat) (v : Num) : Nat × ArithFlags :=
  if f = .int8 then convertInt8 mx rnd draw v
  else
    let satur := mx || !f.allowsNone
    match v with
    | .nan => (if satur then 0 else f.nanBits, {})
    | .inf n =>
      if satur || sat then (signBits f n + f.maxBits, .mkSaturated true)
      else if f.ieee then (signBits f n + f.infBits, {})
      else (f.nanBits, .mkOverflow true)
    | .fin n m e =>
      if m = 0 then (signBits f n, {})
      else
        let lg : Int := (log2Nat m : Int) + e
        let q : Int := max lg (1 - f.bias) - f.man
        let k := roundSteps rnd n draw m e q
        let bits := encodeSteps f k q
        if f.maxBits < bits then
          if satur || sat || rnd.towardZero n then (signBits f n + f.maxBits, .mkSaturated true)
          else if f.ieee then (signBits f n + f.infBits, .mkOverflow true)
          else (f.nanBits, .mkOverflow true)
        else (signBits f n + bits, {})

/-- R83 step 4 and R84: a value rounded once to FP32, to nearest with ties to even; overflow gives an infinity. -/
def toFp32 (v : Num) : Nat × ArithFlags := convertOut .fp32 false false .rne 0 v

/-- The FP32 value of a 32-bit word. -/
def fromFp32 (b : Nat) : Num := decodeElem .fp32 false b

/-- FP32 addition, nearest even, under IEEE 754 (R101 and the epilogue). The flag INVALID says +∞ met −∞. -/
def fp32Add (a b : Nat) : Nat × ArithFlags :=
  let x := fromFp32 a
  let y := fromFp32 b
  let s := x.add y
  let (r, fl) := toFp32 s
  (r, fl.or (.mkInvalid (s.isNan && !x.isNan && !y.isNan)))

/-- FP32 multiplication, nearest even. -/
def fp32Mul (a b : Nat) : Nat × ArithFlags :=
  let x := fromFp32 a
  let y := fromFp32 b
  let s := x.mul y
  let (r, fl) := toFp32 s
  (r, fl.or (.mkInvalid (s.isNan && !x.isNan && !y.isNan)))

/-- One product of a block: the two scaled elements (R83 step 3, R79: a NaN scale makes every element NaN). -/
structure Product where
  a : Num
  b : Num
  sa : Option Int
  sb : Option Int
  deriving DecidableEq, Repr

def Product.nanIn (p : Product) : Bool := p.a.isNan || p.b.isNan || p.sa.isNone || p.sb.isNone

def Product.value (p : Product) : Num :=
  match p.sa, p.sb with
  | some x, some y => (p.a.mul p.b).scale2 (x + y)
  | _, _ => .nan

/-- R85 rule 6: the sign of a sum that is exactly zero. "Every nonzero-weighted product is −0" with no +0 product means
every product of the block is a negative zero. -/
def zeroSumNeg (acc : Num) (ps : List Product) : Bool :=
  acc.isZero && acc.neg && ps.all fun p => p.value.isZero && p.value.neg

/-- R83 step 4 with R85: the FP32 running sum after one block, and the flags the block raises. A block of padding alone
(no products) leaves it as it is. -/
def blockStep (acc : Nat) (ps : List Product) : Nat × ArithFlags :=
  if ps.isEmpty then (acc, {})
  else
    let a := fromFp32 acc
    let vs := ps.map Product.value
    let nanElem := ps.any Product.nanIn
    if a.isNan || nanElem then (Fmt.fp32.nanBits, .mkNanIn nanElem)
    else if vs.any Num.isNan then (Fmt.fp32.nanBits, .mkInvalid true)
    else
      let infs := (a :: vs).filter Num.isInf
      let pos := infs.any fun v => !v.neg
      let ngs := infs.any fun v => v.neg
      if pos && ngs then (Fmt.fp32.nanBits, .mkInvalid true)
      else if pos then (Fmt.fp32.infBits, {})
      else if ngs then (signBits .fp32 true + Fmt.fp32.infBits, {})
      else
        let s := vs.foldl Num.add a
        if s.isZero then (signBits .fp32 (zeroSumNeg a ps), {})
        else toFp32 s

/-- R86: the INT32 running sum after one block's exact sum, saturating. The word is 32-bit two's complement. -/
def intBlockStep (acc : BitVec 32) (s : Int) : BitVec 32 × ArithFlags :=
  let t := acc.toInt + s
  if 2147483647 < t then (0x7FFFFFFF#32, .mkSaturated true)
  else if t < -2147483648 then (0x80000000#32, .mkSaturated true)
  else (BitVec.ofInt 32 t, {})

/-- R86: the epilogue's conversion of the INT32 sum to FP32. -/
def intToFp32 (w : BitVec 32) : Nat := (toFp32 (.ofInt w.toInt)).1

/-- R92: the 16-bit draw of an output element. -/
def srDraw (seed : BitVec 64) (row col : Nat) : Nat :=
  let x := seed ^^^ (BitVec.ofNat 64 (row % 2 ^ 32) <<< 32) ^^^ BitVec.ofNat 64 (col % 2 ^ 32)
  let x := x ^^^ (x >>> 30)
  let x := x * 0xbf58476d1ce4e5b9#64
  let x := x ^^^ (x >>> 27)
  let x := x * 0x94d049bb133111eb#64
  let x := x ^^^ (x >>> 31)
  (x >>> 48).toNat

/-- R94: the element maximum exponent. -/
def Fmt.emax : Fmt → Int
  | .e4m3 => 8 | .e5m2 => 15 | .e3m2 => 4 | .e2m3 => 2 | .e2m1 => 2 | _ => 0

/-- floor(log2 |v|) of a nonzero finite value. -/
def Num.floorLog2 : Num → Int
  | .fin _ m e => (log2Nat m : Int) + e
  | _ => 0

/-- The larger magnitude of two finite values. -/
def Num.maxAbs (a b : Num) : Num :=
  match a, b with
  | .fin _ m e, .fin _ k g => if (Num.fin false m e).lt (.fin false k g) then .fin false k g else .fin false m e
  | a, _ => a

/-- R95, R96: MX quantisation of one block of FP32 values, each with the draw of its own coordinates: the scale byte, the
element encodings, and the flags. -/
def mxQuantise (f : Fmt) (rnd : Rnd) (vs : List (Num × Nat)) : Nat × List Nat × ArithFlags :=
  if vs.any fun v => v.1.isNan || v.1.isInf then (0xFF, vs.map fun _ => 0, {})
  else
    let amax := (vs.map Prod.fst).foldl Num.maxAbs .zero
    if amax.isZero then (0, vs.map fun _ => 0, {})
    else
      let e := max (-127) (min 127 (amax.floorLog2 - f.emax))
      let q := vs.map fun v => convertOut f true true rnd v.2 (v.1.scale2 (-e))
      ((e + 127).toNat, q.map Prod.fst, (q.map Prod.snd).foldl ArithFlags.or {})

/-! The exact-sum word of the Collector (R97 to R100). -/

/-- R97: an EXACT accumulator word. SUM is the two's complement integer of bits [309:0]. -/
structure ExactWord where
  sum : Int := 0
  nan : Bool := false
  pinf : Bool := false
  ninf : Bool := false
  poison : Bool := false
  deriving DecidableEq, Repr

/-- R98: the formats EXACT and FAST modes accept. -/
def Fmt.collectable : Fmt → Bool
  | .fp32 | .bf16 | .fp16 | .e4m3 | .e5m2 => true
  | _ => false

/-- R98: add one contribution. SUM is held to 310 bits; R99 keeps it in range. -/
def ExactWord.add (w : ExactWord) (v : Num) (poisoned : Bool) : ExactWord :=
  if poisoned then { w with poison := true }
  else match v with
    | .nan => { w with nan := true }
    | .inf true => { w with ninf := true }
    | .inf false => { w with pinf := true }
    | .fin n m e => { w with sum := w.sum + dyInt n m e (-149) }

/-- Canonical NaN test of R100 rule 2. -/
def ExactWord.isNan (w : ExactWord) : Bool := w.nan || (w.pinf && w.ninf)

/-- R100: the completed word rounded once to the output format; the second part says the delivery carries poison. -/
def ExactWord.round (w : ExactWord) (f : Fmt) (sat : Bool) : Nat × Bool × ArithFlags :=
  if w.poison then (f.nanBits, true, {})
  else if w.isNan then (f.nanBits, false, {})
  else if w.pinf then let r := convertOut f false sat .rne 0 (.inf false); (r.1, false, r.2)
  else if w.ninf then let r := convertOut f false sat .rne 0 (.inf true); (r.1, false, r.2)
  else if w.sum = 0 then (0, false, {})
  else let r := convertOut f false sat .rne 0 (.fin (w.sum < 0) w.sum.natAbs (-149)); (r.1, false, r.2)

/-- R97: the 320 bits of the word. -/
def ExactWord.toNat (w : ExactWord) : Nat :=
  (BitVec.ofInt 310 w.sum).toNat + (if w.isNan then 2 ^ 310 else 0) + (if w.pinf then 2 ^ 311 else 0)
    + (if w.ninf then 2 ^ 312 else 0) + (if w.poison then 2 ^ 313 else 0)

/-- R97: the word that 320 bits hold. -/
def ExactWord.ofNat (n : Nat) : ExactWord :=
  { sum := (BitVec.ofNat 310 n).toInt, nan := n / 2 ^ 310 % 2 = 1, pinf := n / 2 ^ 311 % 2 = 1,
    ninf := n / 2 ^ 312 % 2 = 1, poison := n / 2 ^ 313 % 2 = 1 }

/-- R101: the FAST-mode reductions. -/
inductive FastOp where
  | sum | max | min
  deriving DecidableEq, Repr

/-- R101: the maximum; +0 counts above −0, and a NaN on either side gives the canonical NaN. -/
def fp32Max (a b : Nat) : Nat :=
  let x := fromFp32 a
  let y := fromFp32 b
  if x.isNan || y.isNan then Fmt.fp32.nanBits
  else if x.lt y then b else if y.lt x then a else if x.neg then b else a

/-- R101: the minimum, with the same order of zeros. -/
def fp32Min (a b : Nat) : Nat :=
  let x := fromFp32 a
  let y := fromFp32 b
  if x.isNan || y.isNan then Fmt.fp32.nanBits
  else if x.lt y then a else if y.lt x then b else if x.neg then a else b

def FastOp.apply (op : FastOp) (a b : Nat) : Nat :=
  match op with
  | .sum => (fp32Add a b).1
  | .max => fp32Max a b
  | .min => fp32Min a b

end Sys2Proof.Machine
end

