-- ==== Sys2Proof/Machine/Operands.lean ====
section
/-! DEFINITION. The operand forms of the commands: who sends one, the cores, the immediates and offsets of the XQ formats
(R267), and how each is read as a number. -/

namespace Sys2Proof.Machine

/-- R216, R217: a core that runs XQ. -/
inductive CoreRef where
  | guider (n : Fin 128)
  | dome (n : Fin 8)
  | filter (n : Fin 40)
  deriving DecidableEq, Repr

/-- The cell of a core. -/
def CoreRef.cell : CoreRef → Nat
  | .guider n => guiderCell n.val
  | .dome n => domeCell n.val
  | .filter n => filterCell n.val

def CoreRef.isGuider : CoreRef → Bool
  | .guider _ => true
  | _ => false

def CoreRef.isDome : CoreRef → Bool
  | .dome _ => true
  | _ => false

def CoreRef.isFilter : CoreRef → Bool
  | .filter _ => true
  | _ => false

/-- R135: the order of cores in one arbiter cycle: guider cores by number, then Dome cores. -/
def CoreRef.order : CoreRef → Nat
  | .guider n => n.val
  | .dome n => 128 + n.val
  | .filter n => 136 + n.val

/-- R52: an agent that reaches register space: host software through an upstream port, or firmware on a Dome core. XQ cores
reach it by their own loads and stores. -/
inductive Agent where
  | host (port : Fin 2)
  | firmware (core : Fin 8)
  deriving DecidableEq, Repr

def Agent.isHost : Agent → Bool
  | .host _ => true
  | .firmware _ => false

/-- R267, R269: an immediate of format I (14 bits) or of the long format LI (32 bits). -/
inductive Imm where
  | short (v : BitVec 14)
  | long (v : BitVec 32)
  deriving DecidableEq, Repr

/-- R279: a signed immediate, sign-extended to 64 bits. -/
def Imm.signed : Imm → Word
  | .short v => v.signExtend 64
  | .long v => v.signExtend 64

/-- R279: an unsigned immediate, zero-extended. -/
def Imm.unsigned : Imm → Word
  | .short v => v.zeroExtend 64
  | .long v => v.zeroExtend 64

/-- R269: the length in bytes of the instruction that holds the immediate. -/
def Imm.len : Imm → Nat
  | .short _ => 4
  | .long _ => 8

/-- R283: the offset of B.cc in words (20 bits), or of LB.cc in bytes (32 bits). -/
inductive BrOff where
  | short (v : BitVec 20)
  | long (v : BitVec 32)
  deriving DecidableEq, Repr

/-- R283: the displacement in bytes. -/
def BrOff.disp : BrOff → Word
  | .short v => v.signExtend 64 * 4
  | .long v => v.signExtend 64

def BrOff.len : BrOff → Nat
  | .short _ => 4
  | .long _ => 8

/-- R283: the offset of CALL in words (24 bits), or of LCALL in bytes. -/
inductive CallOff where
  | short (v : BitVec 24)
  | long (v : BitVec 32)
  deriving DecidableEq, Repr

def CallOff.disp : CallOff → Word
  | .short v => v.signExtend 64 * 4
  | .long v => v.signExtend 64

def CallOff.len : CallOff → Nat
  | .short _ => 4
  | .long _ => 8

/-- R289: a bit address in a register (format X) or in word 1 (format LX). -/
inductive BitOpnd where
  | reg (ra : Fin 32)
  | imm (b : BitVec 32)
  deriving DecidableEq, Repr

def BitOpnd.len : BitOpnd → Nat
  | .reg _ => 4
  | .imm _ => 8

/-- R291: the forms of BB (register, 13-bit offset) and LBB (bit address, 20-bit offset). -/
inductive BbForm where
  | short (ra : Fin 32) (off : BitVec 13)
  | long (b : BitVec 32) (off : BitVec 20)
  deriving DecidableEq, Repr

def BbForm.len : BbForm → Nat
  | .short _ _ => 4
  | .long _ _ => 8

def BbForm.disp : BbForm → Word
  | .short _ v => v.signExtend 64 * 4
  | .long _ v => v.signExtend 64 * 4

def BbForm.opnd : BbForm → BitOpnd
  | .short ra _ => .reg ra
  | .long b _ => .imm b

/-- R273: the condition codes; code 15 is undefined. -/
inductive Cond where
  | eq | ne | cs | cc | mi | pl | vs | vc | hi | ls | ge | lt | gt | le | al
  deriving DecidableEq, Repr

/-- R604: what the code of an on-chip buffer finds in the words it gives out: a word corrected, or one found uncorrectable. -/
inductive BufErr where
  | clean | corrected | bad
  deriving DecidableEq, Repr

/-- R400, R604: what a port finds of a frame that arrives: a wrong FCS; or a right one, and what the code of the ingress buffer will find
as the frame leaves it. -/
inductive RxCheck where
  | bad
  | good (err : BufErr)
  deriving DecidableEq, Repr

def RxCheck.ok : RxCheck → Bool
  | .bad => false
  | .good _ => true

def RxCheck.err : RxCheck → BufErr
  | .bad => .clean
  | .good e => e

/-- R442, R604: a port node that selects, and what the code of the Shutter buffer finds as the frame leaves it. -/
structure ShtSelect where
  port : Fin 12
  err : BufErr := .clean
  deriving DecidableEq, Repr

/-- R255, R604: a core whose fetch of its next instruction is looked at, and what the code of its instruction cache finds. -/
structure FetchIn where
  core : CoreRef
  cache : BufErr := .clean
  deriving DecidableEq, Repr

/-- R362, R366, R367: a Transit packet: the IP addresses of its frame (R365), the fields of its header, the extension words after
word 5, and its payload. -/
structure TrnPkt where
  v6 : Bool := false
  /-- R362: the frame carried an IEEE 802.1Q tag. -/
  tagged : Bool := false
  src : List (BitVec 8) := []
  dst : List (BitVec 8) := []
  version : Nat := 1
  type : Nat := 0
  p : Bool := false
  solicit : Bool := false
  notify : Bool := false
  retx : Bool := false
  path : Nat := 0
  dstConn : Nat := 0
  srcNode : Nat := 0
  dstNode : Nat := 0
  srcConn : Nat := 0
  dstGen : Nat := 0
  psn : Nat := 0
  msn : Nat := 0
  idx : Nat := 0
  ext : List (BitVec 32) := []
  payload : List (BitVec 8) := []
  /-- R604: what the code of the staging buffer, or of the Collector's intake for a COLLECTIVE packet, finds in the payload. -/
  err : BufErr := .clean
  deriving DecidableEq, Repr

/-- R515, R516: a request from a device below a downstream port. -/
inductive InRequest where
  | write (addr : Nat) (bytes : List (BitVec 8)) (ep : Bool)
  | read (addr len : Nat)
  | atomic (addr : Nat)
  deriving DecidableEq, Repr

/-- R507, R510: what a completion brings. -/
inductive CplBody where
  | data (bytes : List (BitVec 8))
  | translation (target size : Nat) (r w : Bool)
  deriving DecidableEq, Repr

/-- R518: why Downstream Port Containment triggers. -/
inductive DpcCause where
  | uncorrectable | errNonfatal | errFatal | surpriseDown
  deriving DecidableEq, Repr

/-- R512: a link or TLP error. -/
inductive LinkError where
  | receiver | badTlp | badDllp | replayRollover | replayTimeout | correctedFec
  | ecrc | malformed | flowControl | dataLink
  deriving DecidableEq, Repr

/-- R604: an error found in a running sum of the south accumulators, that of output element (i, n), or in a line on the feed path, in
west feeder QNW or QSW or north loader QNW or QNE (0 to 3). `bad` says that it is uncorrectable. -/
inductive PrimUpset where
  | south (i n : Nat) (bad : Bool)
  | feed (unit : Fin 4) (line : Nat) (bad : Bool)
  deriving DecidableEq, Repr

/-- R631, R641, R642: what the Heliostat is told at a tick: the weighted sums of activity of the tick ended, in mW, of the domains
ARRAY, STACK, the Dome cores and hub logic, each guider core by number, OTHER; the array current of the tick ended in A, and its
slots that carried no A row; the predicted array current of the next tick at 1,800 MHz in A; a sample of the input voltage in mV
and current in units of 0.01 A, where one falls in this tick. `upsets` are what the codes of the array's own buffers found in the tick
(R604). -/
structure HelTickIn where
  array : Nat := 0
  stack : Nat := 0
  domeHub : Nat := 0
  cores : List (Nat × Nat) := []
  rest : Nat := 0
  current : Nat := 0
  slots : Nat := 0
  predicted : Nat := 0
  sample : Option (Nat × Nat) := none
  upsets : List PrimUpset := []
  deriving DecidableEq, Repr

/-- R608: a clock source. -/
inductive ClockSource where
  | crystal | pcieRef | ethRef
  deriving DecidableEq, Repr

/-- R622: the cause of a warm reset that no register write asks for. -/
inductive WarmCause where
  | sysReset | clockLoss
  deriving DecidableEq, Repr

/-- Where a register access of an agent is addressed: a device address; an offset of PF BAR0 (R493) or of VF BAR0 (R527); a dword of
a function's configuration space with its byte enables (R487). -/
inductive RegTarget where
  | device (a : Nat)
  | bar0 (off : Nat)
  | vfBar0 (v off : Nat)
  | config (fn off en : Nat)
  deriving DecidableEq, Repr

/-- R604: an error found in the data of an arriving run: in the intake, in the line that holds element k; in the accumulator memory of
element k (R344). `bad` says that it is uncorrectable. -/
inductive RunUpset where
  | intake (k : Nat) (bad : Bool)
  | accumulator (k : Nat) (bad : Bool)
  deriving DecidableEq, Repr


/-- R331, R332: a run that arrives: the connection that delivered it, none for a local source; whether it carries results; the fields
of its header; its elements, each with its poison flag. -/
structure RunIn where
  conn : Option Nat
  result : Bool
  fmt : Nat
  rank : Nat
  collId : Nat
  step : Nat
  offset : Nat
  elems : List (Nat × Bool)
  upsets : List RunUpset := []
  deriving DecidableEq, Repr

/-- R360: a register of a binding. -/
inductive BindReg where
  | ctrl | range | win | step
  deriving DecidableEq, Repr

/-- R398: a queue or ring whose doorbell line is polled. -/
inductive PollTarget where
  | sendQueue (q : Fin 4096)
  | catalogue (q : Fin 4096)
  | txRing (r : Fin 1024)
  | filter (q : Fin 256)
  | ephemeris
  deriving DecidableEq, Repr

/-- R602: a memory with a flip mask: a stack memory controller, or the Plates of a quadrant. -/
inductive FlipTarget where
  | stack (n : Fin 8)
  | plates (quad : Fin 4)
  deriving DecidableEq, Repr

/-! Bytes and words of structures in memory (R11). -/

/-- The number that bytes stand for, the first the least significant. -/
def leNat : List Byte → Nat
  | [] => 0
  | b :: bs => b.toNat + 256 * leNat bs

/-- The low n bytes of a number, the least significant first. -/
def natLe : Nat → Nat → List Byte
  | 0, _ => []
  | n + 1, v => BitVec.ofNat 8 v :: natLe n (v / 256)

/-- The 32-bit words of a structure of 4 × n bytes. -/
def wordsOf : Nat → List Byte → List Word32
  | 0, _ => []
  | n + 1, bs => BitVec.ofNat 32 (leNat (bs.take 4)) :: wordsOf n (bs.drop 4)

/-- The bytes of words. -/
def bytesOf (ws : List Word32) : List Byte := ws.flatMap fun w => natLe 4 w.toNat

/-- Bits [hi:lo] of word w of a structure. -/
def wfield (ws : List Word32) (w hi lo : Nat) : Nat := (ws.getD w 0).toNat / 2 ^ lo % 2 ^ (hi - lo + 1)

/-- A 64-bit field of words w and w + 1, low word first. -/
def wlong (ws : List Word32) (w : Nat) : Nat := (ws.getD w 0).toNat + 2 ^ 32 * (ws.getD (w + 1) 0).toNat

/-- Bits [hi:lo] of a number. -/
def bitsOf (v hi lo : Nat) : Nat := v / 2 ^ lo % 2 ^ (hi - lo + 1)

/-- The number with bits [hi:lo] replaced. -/
def putBits (v hi lo x : Nat) : Nat :=
  v % 2 ^ lo + x % 2 ^ (hi - lo + 1) * 2 ^ lo + v / 2 ^ (hi + 1) * 2 ^ (hi + 1)

/-- The words built from (word, hi, lo, value) entries over n zero words. -/
def buildWords (n : Nat) (fs : List (Nat × Nat × Nat × Nat)) : List Word32 :=
  (List.range n).map fun w =>
    BitVec.ofNat 32 ((fs.filter fun f => f.1 == w).foldl (fun a f => putBits a f.2.1 f.2.2.1 f.2.2.2) 0)

/-- Pad or cut a byte list to n bytes with zeros. -/
def padBytes (n : Nat) (bs : List Byte) : List Byte := (bs ++ List.replicate (n - bs.length) 0).take n

end Sys2Proof.Machine
end

