-- ==== Sys2Proof/Syntax.lean ====
section
/-! DEFINITION. The commands: one constructor for each row of spec/opcode_table.json, in the table's order. A command that is
an XQ instruction names the core that executes it as its next instruction; a command that is an event of the part names the
unit, queue or entry it happens to. -/

namespace Sys2Proof

open Sys2Proof.Machine

/-- The commands of the part. -/
inductive Instr where
  -- Cells and registers
  | registerWrite (a : Agent) (t : RegTarget) (size value : Nat)
  | rwpPairWrite (a : Agent) (r : RegId) (cell value : Nat)
  | rwpComplementCheck (r : RegId) (cell : Nat) (agree : Bool)
  | cellCtrlEnWrite (a : Agent) (cell : Nat) (en : Bool)
  | quiesceComplete (cell : Nat)
  | cellResetWrite (a : Agent) (cell : Nat)
  | cellResetComplete (cell : Nat)
  | powerGateApply (cell : Nat)
  | powerRestoreComplete (cell : Nat)
  | errStatusClear (a : Agent) (cell : Nat) (valid overflow : Bool)
  -- The Primary
  | primMapWrite (a : Agent) (quad : Fin 4) (complement : Bool) (value : Nat)
  | prim (core : CoreRef) (rd ra : Fin 32)
  | primAccept
  | primPreload
  | primFirstMultiply
  | primArrayEnd
  | primReadyNotice
  | primComplete
  | primPause (a : Agent) (pause : Bool)
  | primQueueFlush (a : Agent)
  -- Stack memory, rings and staging
  | smcTrainingComplete (stack : Fin 8) (ok : Bool)
  | smcTempUpdate (stack : Fin 8) (tempC : BitVec 8)
  | ringEnWrite (a : Agent) (quad : Fin 4) (en : Bool)
  | ringChangeTakeEffect (quad : Fin 4)
  | prefetch
  | headStaged
  | writeBehindDrain (lines : Nat)
  -- Movers
  | move (core : CoreRef) (rd ra rb : Fin 32)
  | moverCopy (m : Fin 64)
  | moverSweep (m : Fin 64)
  | moverFeed (m : Fin 64)
  | moverComplete (m : Fin 64)
  | feedPush (m : Fin 64) (entry : Nat)
  | feedVolume (m : Fin 64) (entry : Nat)
  | feedFlush (m : Fin 64) (entry : Nat)
  | feedFlushCompletion (m : Fin 64) (entry : Nat) (ok : Bool)
  | feedWait (m : Fin 64) (entry : Nat)
  | movNoticeCountWrite (a : Agent) (m : Fin 64) (value : BitVec 32)
  | movQueuePause (a : Agent) (m : Fin 64) (pause : Bool)
  | movQueueFlush (a : Agent) (m : Fin 64)
  -- XQ integer arithmetic
  | add (core : CoreRef) (w : Bool) (rd ra rb : Fin 32)
  | sub (core : CoreRef) (w : Bool) (rd ra rb : Fin 32)
  | adc (core : CoreRef) (w : Bool) (rd ra rb : Fin 32)
  | sbc (core : CoreRef) (w : Bool) (rd ra rb : Fin 32)
  | cmp (core : CoreRef) (w : Bool) (ra rb : Fin 32)
  | neg (core : CoreRef) (w : Bool) (rd ra : Fin 32)
  | mul (core : CoreRef) (w : Bool) (rd ra rb : Fin 32)
  | mulhu (core : CoreRef) (w : Bool) (rd ra rb : Fin 32)
  | mulhs (core : CoreRef) (w : Bool) (rd ra rb : Fin 32)
  | divu (core : CoreRef) (w : Bool) (rd ra rb : Fin 32)
  | divs (core : CoreRef) (w : Bool) (rd ra rb : Fin 32)
  | remu (core : CoreRef) (w : Bool) (rd ra rb : Fin 32)
  | rems (core : CoreRef) (w : Bool) (rd ra rb : Fin 32)
  | sel (core : CoreRef) (cond : Cond) (rd ra rb : Fin 32)
  -- XQ logic, shift and count
  | and (core : CoreRef) (w : Bool) (rd ra rb : Fin 32)
  | or (core : CoreRef) (w : Bool) (rd ra rb : Fin 32)
  | xor (core : CoreRef) (w : Bool) (rd ra rb : Fin 32)
  | andn (core : CoreRef) (w : Bool) (rd ra rb : Fin 32)
  | tst (core : CoreRef) (w : Bool) (ra rb : Fin 32)
  | shl (core : CoreRef) (w : Bool) (rd ra rb : Fin 32)
  | shr (core : CoreRef) (w : Bool) (rd ra rb : Fin 32)
  | sar (core : CoreRef) (w : Bool) (rd ra rb : Fin 32)
  | ror (core : CoreRef) (w : Bool) (rd ra rb : Fin 32)
  | clz (core : CoreRef) (w : Bool) (rd ra : Fin 32)
  | ctz (core : CoreRef) (w : Bool) (rd ra : Fin 32)
  | popc (core : CoreRef) (w : Bool) (rd ra : Fin 32)
  | bswap (core : CoreRef) (w : Bool) (rd ra : Fin 32)
  | sextb (core : CoreRef) (rd ra : Fin 32)
  | sexth (core : CoreRef) (rd ra : Fin 32)
  | sextw (core : CoreRef) (rd ra : Fin 32)
  | zextw (core : CoreRef) (rd ra : Fin 32)
  -- XQ immediates
  | addi (core : CoreRef) (rd ra : Fin 32) (imm : Imm)
  | cmpi (core : CoreRef) (ra : Fin 32) (imm : Imm)
  | andi (core : CoreRef) (rd ra : Fin 32) (imm : Imm)
  | ori (core : CoreRef) (rd ra : Fin 32) (imm : Imm)
  | xori (core : CoreRef) (rd ra : Fin 32) (imm : Imm)
  | shli (core : CoreRef) (w : Bool) (rd ra : Fin 32) (amount : BitVec 6)
  | shri (core : CoreRef) (w : Bool) (rd ra : Fin 32) (amount : BitVec 6)
  | sari (core : CoreRef) (w : Bool) (rd ra : Fin 32) (amount : BitVec 6)
  | movi (core : CoreRef) (rd : Fin 32) (imm : Imm)
  | lmovhi (core : CoreRef) (rd : Fin 32) (imm : BitVec 32)
  -- XQ loads and stores
  | ldb (core : CoreRef) (rd ra : Fin 32) (imm : Imm)
  | ldbs (core : CoreRef) (rd ra : Fin 32) (imm : Imm)
  | ldh (core : CoreRef) (rd ra : Fin 32) (imm : Imm)
  | ldhs (core : CoreRef) (rd ra : Fin 32) (imm : Imm)
  | ldw (core : CoreRef) (rd ra : Fin 32) (imm : Imm)
  | ldws (core : CoreRef) (rd ra : Fin 32) (imm : Imm)
  | ldd (core : CoreRef) (rd ra : Fin 32) (imm : Imm)
  | stb (core : CoreRef) (rs ra : Fin 32) (imm : Imm)
  | sth (core : CoreRef) (rs ra : Fin 32) (imm : Imm)
  | stw (core : CoreRef) (rs ra : Fin 32) (imm : Imm)
  | std (core : CoreRef) (rs ra : Fin 32) (imm : Imm)
  -- XQ atomics; `half` says the operand is 4 bytes
  | swap (core : CoreRef) (half : Bool) (rd ra rb : Fin 32)
  | cas (core : CoreRef) (half : Bool) (rd ra rb : Fin 32)
  | fadd (core : CoreRef) (half : Bool) (rd ra rb : Fin 32)
  | fand (core : CoreRef) (half : Bool) (rd ra rb : Fin 32)
  | for_ (core : CoreRef) (half : Bool) (rd ra rb : Fin 32)
  | fxor (core : CoreRef) (half : Bool) (rd ra rb : Fin 32)
  | fmaxu (core : CoreRef) (half : Bool) (rd ra rb : Fin 32)
  | fminu (core : CoreRef) (half : Bool) (rd ra rb : Fin 32)
  | fmaxs (core : CoreRef) (half : Bool) (rd ra rb : Fin 32)
  | fmins (core : CoreRef) (half : Bool) (rd ra rb : Fin 32)
  -- XQ branches and calls
  | bcc (core : CoreRef) (cond : Cond) (off : BrOff)
  | call (core : CoreRef) (off : CallOff)
  | br (core : CoreRef) (ra : Fin 32)
  | callr (core : CoreRef) (ra : Fin 32)
  | ret (core : CoreRef)
  -- XQ data stack
  | push (core : CoreRef) (ra : Fin 32)
  | pop (core : CoreRef) (rd : Fin 32)
  | pushm (core : CoreRef) (ra rb : Fin 32)
  | popm (core : CoreRef) (ra rb : Fin 32)
  | addds (core : CoreRef) (imm : BitVec 14)
  | getds (core : CoreRef) (rd : Fin 32) (imm : BitVec 14)
  -- XQ control registers and system
  | crr (core : CoreRef) (reg : Fin 32) (cr : BitVec 12)
  | crw (core : CoreRef) (reg : Fin 32) (cr : BitVec 12)
  | crs (core : CoreRef) (reg : Fin 32) (cr : BitVec 12)
  | crc (core : CoreRef) (reg : Fin 32) (cr : BitVec 12)
  | nop (core : CoreRef)
  | fence (core : CoreRef)
  | ifence (core : CoreRef)
  | xret (core : CoreRef)
  | brk (core : CoreRef)
  | rsfl (core : CoreRef) (ra : Fin 32)
  | sys (core : CoreRef) (imm : BitVec 16)
  -- XQ bits
  | setb (core : CoreRef) (b : BitOpnd)
  | clrb (core : CoreRef) (b : BitOpnd)
  | cplb (core : CoreRef) (b : BitOpnd)
  | tstb (core : CoreRef) (b : BitOpnd)
  | getb (core : CoreRef) (rd : Fin 32) (b : BitOpnd)
  | putb (core : CoreRef) (src : Fin 32) (b : BitOpnd)
  | movb (core : CoreRef) (ra rb : Fin 32)
  | bopb (core : CoreRef) (ra rb rc : Fin 32) (tt : BitVec 4)
  | waitb (core : CoreRef) (b : BitOpnd) (value : Bool)
  | waitbWake (core : CoreRef)
  | bb (core : CoreRef) (form : BbForm) (sense : Bool)
  -- XQ device
  | phaser (core : CoreRef) (ra : Fin 32)
  | phase (core : CoreRef) (imm : BitVec 14)
  | time (core : CoreRef) (rd : Fin 32)
  -- Filter sequencer extension
  | vxor (core : CoreRef) (vd va vb : Fin 8)
  | vshuf (core : CoreRef) (vd va vb : Fin 8)
  | vinc32 (core : CoreRef) (vd va : Fin 8)
  | vinc64 (core : CoreRef) (vd va : Fin 8)
  | vinc128 (core : CoreRef) (vd va : Fin 8)
  | vinc128l (core : CoreRef) (vd va : Fin 8)
  | vmovg (core : CoreRef) (vd : Fin 8) (ra : Fin 32) (h : Bool)
  | vgetg (core : CoreRef) (rd : Fin 32) (va : Fin 8) (h : Bool)
  | fblk (core : CoreRef) (vd va : Fin 8) (agree : Bool)
  | fblkInv (core : CoreRef) (vd va : Fin 8) (agree : Bool)
  | fgmul (core : CoreRef) (vd va vb : Fin 8)
  | fgmulX (core : CoreRef) (vd va vb : Fin 8)
  | vld (core : CoreRef) (vd : Fin 8) (ra : Fin 32) (imm : BitVec 14)
  | vst (core : CoreRef) (vd : Fin 8) (ra : Fin 32) (imm : BitVec 14)
  -- Core events and guider clusters
  | interruptTake (core : CoreRef)
  | tcmpTimer (core : CoreRef)
  | guiderCoreStart (n : Fin 128)
  | attnRaise (a : Agent) (n : Fin 128) (code : BitVec 16)
  | localApertureAccess (a : Agent) (core : CoreRef) (write : Bool) (off size value : Nat)
  | dispatchDeliver (cluster : Fin 16)
  | gclPost (a : Agent) (cluster : Fin 16) (image : BitVec 42)
  | clusterPause (a : Agent) (cluster : Fin 16) (pause : Bool)
  | clusterFlush (a : Agent) (cluster : Fin 16)
  | dbgHalt (a : Agent) (core : CoreRef) (halt : Bool)
  | dbgStep (a : Agent) (core : CoreRef)
  | dbgRegDataAccess (a : Agent) (core : CoreRef) (write : Bool) (value : Word)
  -- The Collector
  | colOpen (a : Agent)
  | colClose (a : Agent) (slot : Fin 1024)
  | colAbort (a : Agent) (slot : Fin 1024)
  | colReset (a : Agent) (slot : Fin 1024)
  | colMemberFail (a : Agent) (slot : Fin 1024)
  | collectiveRunArrive (run : RunIn)
  | bindingWrite (k : Fin 24) (addr : Nat) (bytes : List (BitVec 8)) (ep : Bool)
  | bindingRegWrite (a : Agent) (reg : BindReg) (b : Fin 64) (value : Word)
  | egressRunSend (i : Nat)
  | chunkComplete (slot : Fin 1024) (chunk : Nat) (next : Bool)
  | programItemRepost (slot : Fin 1024)
  | roundTimeout (slot : Fin 1024)
  -- Transit: connections
  | connEnWrite (a : Agent) (c : Fin 65536) (en : Bool)
  | connectRetry (c : Fin 65536)
  | connectTimeout (c : Fin 65536)
  | disconnectRetry (c : Fin 65536)
  | drainTimeout (c : Fin 65536)
  -- Transit: packets received
  | transitConnect (k : TrnPkt)
  | transitConnectReply (k : TrnPkt)
  | transitDisconnect (k : TrnPkt)
  | transitDisconnectReply (k : TrnPkt)
  | transitWrite (k : TrnPkt)
  | transitReadReq (k : TrnPkt)
  | transitReadResp (k : TrnPkt)
  | transitAtomic (k : TrnPkt)
  | transitAtomicResp (k : TrnPkt)
  | transitCollective (k : TrnPkt)
  | transitAck (k : TrnPkt)
  | transitNak (k : TrnPkt)
  -- Transit: timers, queues, regions
  | lossyRetransmitTimer (c : Fin 65536) (path : Fin 16) (psn : Nat)
  | pathTimer (c : Fin 65536) (path : Fin 16)
  | ackTimer (c : Fin 65536) (path : Fin 16)
  | creditReturnTimer (c : Fin 65536) (coll : Bool)
  | creditAckTimer (c : Fin 65536)
  | trnSqTailWrite (a : Agent) (q : Fin 4096) (tail : BitVec 16)
  | doorbellPoll (t : PollTarget)
  | sqWrite (q : Fin 4096)
  | sqRead (q : Fin 4096)
  | sqAtomic (q : Fin 4096)
  | cqEntryPost (q : Fin 4096)
  | trnCqEnable (a : Agent) (q : Fin 4096)
  | regionValidate (a : Agent) (index : BitVec 20)
  | regionRevoke (a : Agent) (index : BitVec 20)
  | revokeComplete (index : BitVec 20)
  -- Ethernet and the Spectrograph
  | frameReceive (p : Fin 8) (half : Fin 2) (bytes : List (BitVec 8)) (fcsOk : RxCheck)
  | flowAgeOut (flow : Nat)
  | ethLinkChange (p : Fin 8) (half : Fin 2) (up : Bool)
  | pfcReceive (p : Fin 8) (half : Fin 2) (prio : Fin 8) (quanta : BitVec 16)
  | pfcRefresh (p : Fin 8) (half : Fin 2) (prio : Fin 8)
  | pfcXonSend (p : Fin 8) (half : Fin 2) (prio : Fin 8)
  | loadBank (a : Agent) (p : Fin 8) (count : BitVec 15)
  | swapBank (a : Agent) (p : Fin 8)
  | loadPatterns (a : Agent) (count : BitVec 15)
  | swapPatterns (a : Agent)
  | loadSanctum (a : Agent) (count : BitVec 15)
  | spgCmdComplete
  | rxqEnable (a : Agent) (q : Fin 4096)
  | rxqTailWrite (a : Agent) (q : Fin 4096) (tail : BitVec 16)
  -- Shutter
  | heldFrameAdmit
  | shutterSelect (p : ShtSelect)
  | bucketRefill (level : Fin 3)
  | txRingEntry (r : Fin 1024)
  | txrEnable (a : Agent) (r : Fin 1024)
  | txrTailWrite (a : Agent) (r : Fin 1024) (tail : BitVec 16)
  -- The Catalogue
  | catSqTailWrite (a : Agent) (q : Fin 4096) (tail : BitVec 16)
  | catEntryTake (q : Fin 4096)
  | catRead (q : Nat) (slot : Nat)
  | catWrite (q : Nat) (slot : Nat)
  | catFlush (q : Nat) (slot : Nat)
  | catDeallocate (q : Nat) (slot : Nat)
  | backendWriteback (seg : Nat)
  | backendWriteFail (seg : Nat) (cause : BitVec 8) (status : BitVec 15)
  | backendTimeout (be : Fin 1024) (id : Nat)
  | nvmeCqPoll (be : Fin 1024)
  | programBackendResponse (be : Fin 1024)
  | remoteBackendCompletion (be : Fin 1024) (entry : List (BitVec 32))
  | catQueueEnWrite (a : Agent) (q : Fin 4096) (en : Bool)
  | catQueueReset (a : Agent) (q : Fin 4096)
  | catQueueResetComplete (q : Fin 4096)
  -- PCI Express ports
  | pcieLinkChange (j : Fin 26) (up : Bool) (speed : BitVec 4) (width : BitVec 6) (flit : Bool)
  | upstreamFundamentalReset (p : Fin 2)
  | pfDoorbellWrite (p : Fin 2) (off : Nat) (value : BitVec 32)
  | bar4Write (p : Fin 2) (off : Nat) (bytes : List (BitVec 8)) (ep : Bool)
  | irqRaise (a : Agent) (source : BitVec 4)
  | msixSend (source : Fin 13328)
  | completionTimeout (j : Fin 26) (tag : Nat)
  | tagQuarantineEnd (p : Fin 2) (tag : Nat)
  | pcieCompletionReceive (p : Fin 2) (tag status : Nat) (body : CplBody) (ep : Bool)
  | atsInvalidation (p : Fin 2) (fn : Fin 257) (addr size : Nat)
  | bmeClear (p : Fin 2) (fn : Fin 257)
  | bmeSet (p : Fin 2) (fn : Fin 257)
  | flrStart (p : Fin 2) (fn : Fin 257)
  | flrComplete (p : Fin 2) (fn : Fin 257)
  | inboundRequest (k : Fin 24) (r : InRequest)
  | dpCfgDataAccess (a : Agent) (k : Fin 24) (write : Bool) (value : BitVec 32) (status : BitVec 3) (data : BitVec 32)
  | dpcTrigger (k : Fin 24) (cause : DpcCause)
  | dpcRelease (a : Agent) (k : Fin 24)
  | presenceChange (k : Fin 24) (on : Bool)
  -- Virtual functions
  | vfShutdown (a : Agent) (p : Fin 2) (v : Fin 256)
  | vfShutdownComplete (p : Fin 2) (v : Fin 256)
  | vfEnable (a : Agent) (p : Fin 2) (v : Fin 256)
  | vfDoorbellWrite (p : Fin 2) (v page : Fin 256) (off : BitVec 12) (bytes : List (BitVec 8)) (ep : Bool)
  | dirtySwap (a : Agent) (p : Fin 2) (v : Fin 256)
  | dirtySwapComplete (p : Fin 2) (v : Fin 256)
  | dirtyLogEnWrite (a : Agent) (p : Fin 2) (v : Fin 256) (en : Bool)
  -- Filter and the root of trust
  | fltTailWrite (a : Agent) (q : Fin 256) (tail : BitVec 16)
  | fltQueueEnable (a : Agent) (q : Fin 256)
  | filterDescStart
  | filterDescComplete (u : Fin 40)
  | filterStallTimeout (u : Fin 40)
  | loadPlain (a : Agent) (index : BitVec 14) (size check enc dec wrap : Bool)
  | loadWrapped (a : Agent) (index : BitVec 14) (size check enc dec wrap : Bool)
  | erase (a : Agent) (index : BitVec 14)
  | keyEraseComplete (index : BitVec 14)
  | secureBoot (agree : Bool)
  | verify (a : Agent)
  | recoveryBoot (a : Agent)
  | svnCommit (a : Agent)
  | revokeKey (a : Agent)
  | debugUnlock (a : Agent)
  | rotCmdDone
  | flashRead (a : Agent) (offset : BitVec 26) (pages : BitVec 9)
  | flashErase (a : Agent) (offset : BitVec 26)
  | flashProgram (a : Agent) (offset : BitVec 26) (pages : BitVec 9)
  | flashCmdDone (error : Bool)
  -- Ephemeris
  | ephCmdqTailWrite (a : Agent) (tail : BitVec 16)
  | boundary
  | rollback
  | restore
  | endEpoch
  | ephDrain
  | ephDestCommit (d : Fin 2)
  | ephDrainEnd
  | ephWarnSample
  -- Memory integrity, clocks, resets
  | flipArm (a : Agent) (t : FlipTarget) (value : BitVec 32)
  | sourceStable (c : ClockSource)
  | sourceFail (c : ClockSource)
  | safeRelease (a : Agent)
  | tbStep (a : Agent) (offset : Word)
  | txtsTimeRead (a : Agent) (p : Fin 8)
  | inputChange (i : Nat) (on : Bool)
  | inputStuck (i : Nat)
  | warmReset (c : WarmCause)
  | warmResetReq (a : Agent)
  | powerOnResetEnd
  | bootCellsEnable
  | dpPerstRelease (k : Fin 24)
  -- Heliostat
  | helTick (t : HelTickIn)
  | helWindow
  | thermalSample (dies : Vector (BitVec 8) 5)
  | helDerate (a : Agent) (cell : BitVec 16) (steps : BitVec 8)
  -- Dome cores and the host
  | watchdogExpiry (n : Fin 8)
  | wdtKick (a : Agent) (n : Fin 8)
  | domeCoreStart (n : Fin 8)
  | hostHeartbeat (p : Fin 2) (count : BitVec 32)
  | heartbeatExpiry (p : Fin 2)
  | attach (a : Agent) (p : Fin 2)
  -- Exposures and the module
  | exposureEnable (a : Agent) (periodUs : BitVec 20)
  | exposureTick
  | inputPowerUp
  | pwrEnAssert
  | pwrEnDeassert
  | powerLoss
  | thermalShutdown
  | pfcPauseExpiry (p : Fin 8) (half : Fin 2) (prio : Fin 8)
  | flowMeterRefill (flow bytes : Nat)
  | mctpRequest (smbus : Bool) (addr sensor : Nat)
  | standbyRailLoss
  | pcieLinkError (j : Fin 26) (e : LinkError) (header : List (BitVec 32))
  -- Exceptions of an XQ core before an instruction
  | undefinedEncoding (core : CoreRef) (word : BitVec 32)
  | instructionFetchFault (core : FetchIn)
  deriving DecidableEq, Repr

end Sys2Proof
end

