-- ==== Sys2Proof/Machine/State.lean ====
section
/-! DEFINITION. The state of the part, as plain data: the registers of every map, the memories with their check state, the
XQ cores, the queues and engines of every unit, the pins, and the queue of commands that are waiting. INVENTORY.md lists
each piece with the rule that names it. -/

namespace Sys2Proof.Machine

open Sys2Proof

/-- Why the machine stops with a fault. -/
inductive Fault where
  /-- Raised by no meaning of this model: the spec gives every access and every command an effect (R14, R23, R69), so no
  command stops the part with a fault. Safe. -/
  | none
  deriving DecidableEq, Repr

/-- Why a command has no meaning. -/
inductive Refusal where
  /-- A command this model has not given its meaning yet. Raised by the arms of Dispatch alone. Safe. -/
  | notModelled (mnemonic : String)
  deriving DecidableEq, Repr

/-- R592, R593, R602: what is wrong with one stored 64-bit word: the poison mark of R597, the flipped data and check bits,
and the address bit its check bits were formed with inverted (0: none). -/
structure WordErr where
  marked : Bool := false
  data : BitVec 64 := 0
  check : BitVec 8 := 0
  addrBit : Nat := 0
  deriving DecidableEq, Repr

/-- The eight words of a 64-byte line. -/
abbrev LineErr := List WordErr

/-- A line without an error. -/
def LineErr.clean : LineErr := List.replicate 8 {}

/-- R251: a core asleep in WAITB: the key of the bit and the value it named, and whether the bit has left the value since. -/
structure Sleep where
  bit : Nat
  value : Bool
  left : Bool
  /-- R269: the length of the WAITB in bytes. -/
  len : Nat
  deriving DecidableEq, Repr

/-- R218 (and R266): the architectural state of one XQ core. The control registers `cr` and the general registers `g` list
what differs from their reset values. -/
structure CoreState where
  g : SMap Word := []
  v : SMap (BitVec 128) := []
  pc : Word := 0
  z : Bool := false
  n : Bool := false
  c : Bool := false
  ov : Bool := false
  cr : SMap Word := []
  /-- R240: the on-chip entries of the U partition (of the D partition on a Dome core), newest first. -/
  rsLow : List Word := []
  /-- R240: the on-chip entries of the G partition, newest first. -/
  rsG : List Word := []
  asleep : Option Sleep := none
  /-- R296: the phase tag. -/
  phase : Nat := 0
  /-- R306: the core has started and neither stopped nor been reset since. -/
  running : Bool := false
  /-- R320: a STEP has been written and its one instruction has not executed yet. -/
  stepping : Bool := false
  deriving DecidableEq, Repr

/-- R308: a work item: 16 words. -/
abbrev WorkItem := List Word32

/-- R134, R144: a Primary descriptor in the queue. -/
structure PrimDesc where
  ticket : Nat
  words : List Word32
  issuer : CoreRef
  phase : Nat
  /-- R60, R317: the issuing core has been reset since. -/
  cut : Bool := false
  deriving DecidableEq, Repr

/-- One line of output: its address, its bytes (a part of the line at the end of a row), its mark, its output row, the south quadrant
that produces it (2 or 3), and the (n tile, chunk) pair of R121, or the part of a CONVERT (R167), that it completes in. -/
structure OutLine where
  addr : Nat
  bytes : List Byte
  mark : Bool
  row : Nat
  quad : Nat
  pair : Nat
  deriving DecidableEq, Repr

/-- What an operation delivers. -/
structure PrimResult where
  /-- The lines of its output, in the order in which the epilogue writes them. -/
  lines : List OutLine
  /-- R166: the output elements in row-major order, with their poison flags. -/
  elems : List (Nat × Bool)
  /-- R162: the running sums. -/
  sums : List (Nat × (BitVec 32 × Bool))
  flags : ArithFlags
  deriving DecidableEq, Repr

/-- R127: an accepted descriptor that has not yet left the array. -/
structure PrimOp where
  desc : PrimDesc
  acceptTime : Nat
  /-- R127: the operation occupies the array. -/
  occupies : Bool := false
  /-- R195: HEAD_STAGED read 1 at acceptance. -/
  staged : Bool := false
  /-- R158: the activation table, read once, with whether any line of it was poisoned. -/
  table : List Word32 := []
  tablePoison : Bool := false
  /-- R164: the ticket of the loopback operation whose output is the A stream. -/
  loopSrc : Option Nat := none
  /-- R164: where that output lies: base, stride, scale base, scale stride. -/
  loopLayout : List Nat := []
  /-- R165: the elements the Collector has delivered, by k-major index, with their poison marks. -/
  elems : SMap (Option (Nat × Bool)) := []
  /-- R166: the part's rank in the collective of DEST. -/
  collRank : Nat := 0
  /-- R151, R158: its checks wait at the activation table. -/
  checking : Bool := false
  /-- R151, R168: something has held it: an earlier operation's output in its inputs, a full write-behind. -/
  held : Bool := false
  /-- R111: the array clock at its first multiply, in MHz. -/
  clock : Nat := 0
  /-- What it delivers, once its first output has left; of the lines, those that have not. -/
  out : Option PrimResult := none
  /-- R169: the marked lines that have left. -/
  poisonLines : Nat := 0
  /-- R167: the ready notices posted. -/
  posted : Nat := 0
  /-- R604: the running sums and the lines of the feed path found uncorrectable. -/
  badSums : List (Nat × Nat) := []
  badLines : List Nat := []
  deriving DecidableEq, Repr

/-- R169: a descriptor that has left the array, been refused or been flushed, and whose completion is not posted yet. -/
structure PrimDone where
  desc : PrimDesc
  acceptTime : Nat
  status : Nat
  refuse : Nat := 0
  flags : ArithFlags := {}
  poisonLines : Nat := 0
  arrayCycles : Nat := 0
  stallSlots : Nat := 0
  /-- R167: the ready notices of its visible output, and how many of them have been posted. -/
  notices : Nat := 0
  posted : Nat := 0
  /-- R164: of an operation that ended early, the output rows wholly written, from row 0. -/
  rows : Nat := 0
  deriving DecidableEq, Repr

/-- R192: a line of output that waits in the write-behind of a south quadrant. -/
structure WbLine where
  ticket : Nat
  line : OutLine
  deriving DecidableEq, Repr

/-- R163: the loopback state. -/
structure Loopback where
  ticket : Nat
  m : Nat
  n : Nat
  fmt : Nat
  mx : Nat
  base : Nat
  stride : Nat
  scaleBase : Nat
  scaleStride : Nat
  deriving DecidableEq, Repr

/-- The Primary: its queue, the accepted operation, the completions to post, and the data the array keeps. -/
structure PrimState where
  queue : List PrimDesc := []
  op : Option PrimOp := none
  done : List PrimDone := []
  /-- R124, R162: the south accumulator words by row × 2,048 + column, each with its poison flag. -/
  acc : SMap (BitVec 32 × Bool) := []
  loop : Option Loopback := none
  /-- R129: the ticket whose first tile is preloaded. -/
  preload : Option Nat := none
  /-- R189: prefetch has begun for the descriptor with this ticket. -/
  prefetch : Option Nat := none
  /-- R195: the rings hold the first tile and rows of the descriptor with this ticket. -/
  staged : Option Nat := none
  /-- R124: the ticket of the operation that retained the accumulators. -/
  accTicket : Nat := 0
  /-- R643: a Heliostat dark frame is in the array. -/
  darkFrame : Bool := false
  wb : List WbLine := []
  deriving DecidableEq, Repr

/-- R198: a mover descriptor in a queue. -/
structure MovDesc where
  ticket : Nat
  words : List Word32
  issuer : CoreRef
  phase : Nat
  /-- R60, R317: the issuing core has been reset since. -/
  cut : Bool := false
  deriving DecidableEq, Repr

/-- R210: how far an entry of a feed list has come. -/
inductive EntryStatus where
  | waiting | running | done | failed (status info : Nat)
  deriving DecidableEq, Repr

/-- R209: an entry of a feed list that its mover has reached. -/
structure FeedEntry where
  words : List Word32
  status : EntryStatus
  /-- R213: the bytes asked for so far, the commands outstanding, and the first failure with its Catalogue status. -/
  pos : Nat := 0
  busy : Nat := 0
  bad : Option Nat := none
  deriving DecidableEq, Repr

/-- The descriptor that occupies a mover. -/
structure MovRun where
  desc : MovDesc
  startTime : Nat
  status : Nat := 0
  refuse : Nat := 0
  bytes : Nat := 0
  poisonLines : Nat := 0
  corrected : Nat := 0
  failEntry : Nat := 0xFFFFFFFF
  info : Nat := 0
  /-- The descriptor has ended and waits for its completion to be posted. -/
  ended : Bool := false
  /-- R215: no further entry starts. -/
  stopping : Bool := false
  entries : List FeedEntry := []
  deriving DecidableEq, Repr

/-- One mover: its queue and the descriptor that occupies it. -/
structure MoverState where
  queue : List MovDesc := []
  run : Option MovRun := none
  /-- R137, R198: flushed descriptors whose completion is not posted yet. -/
  flushed : List MovDesc := []
  deriving DecidableEq, Repr

/-- R569 to R574: the protected set and the retained epoch of Ephemeris. -/
structure EpochState where
  /-- R571: an epoch is retained. -/
  retained : Bool := false
  /-- R569: the regions of the protected set, base and length, in order. -/
  regions : List (Nat × Nat) := []
  snapBase : Nat := 0
  /-- R572: the granules that are COPIED; the others are PROTECTED while an epoch is retained. -/
  copied : SMap Bool := []
  /-- R574: a copy could not be written; the running checkpoint ends with this status. -/
  copyFailed : Bool := false
  /-- R587: after NO_CONSISTENT_STEP, until the protected set is written: the regions whose bytes are of no defined step. -/
  broken : List (Nat × Nat) := []
  deriving DecidableEq, Repr

/-- R339: the accumulator word of an element: the EXACT word, or the FP32 word of FAST, which opens with the first contribution. -/
inductive ColWord where
  | exact (w : ExactWord)
  | fast (w : Option Nat)
  deriving DecidableEq, Repr

/-- R342, R343: where an element is: in its slot and open, in the backing area, completed and not delivered yet, delivered. -/
inductive ColPlace where
  | open | evicted | waiting | delivered
  deriving DecidableEq, Repr

/-- R339: an element of a round. -/
structure ColElem where
  word : ColWord
  count : Nat := 0
  poison : Bool := false
  place : ColPlace := .open
  /-- R347: the output of a completed element, with its poison. -/
  out : Nat × Bool := (0, false)
  /-- R342: the order of additions, for the choice of the element to evict. -/
  stamp : Nat := 0
  /-- R342: the bytes of its eviction record, as one number. -/
  record : Nat := 0
  deriving DecidableEq, Repr

/-- R348, R352: what is noted of a chunk of a round. -/
structure ColChunk where
  first : Option Nat := none
  last : Nat := 0
  rank : Nat := 0
  done : Bool := false
  deriving DecidableEq, Repr

/-- R325: one round of a collective. -/
structure ColRound where
  elems : SMap ColElem := []
  chunks : SMap ColChunk := []
  /-- R350: contributions of the own rank that were routed. -/
  routed : Nat := 0
  /-- R355: the first arrival of the round. -/
  arrived : Option Nat := none
  /-- R646: the total time the array had been occupied at ROUND_FIRST. -/
  busy : Nat := 0
  deriving DecidableEq, Repr

/-- R331, R332: a run of contributions or results: the connection that delivered it, none for a local source; the elements with
their poison flags. -/
structure ColRun where
  conn : Option Nat
  result : Bool
  fmt : Nat
  rank : Nat
  collId : Nat
  step : Nat
  offset : Nat
  elems : List (Nat × Bool)
  /-- R332: the arrival time. -/
  time : Nat
  /-- R345: the intake cells of the run as it arrived; those of a run in part taken stay occupied. -/
  cells : Nat := 0
  deriving DecidableEq, Repr

/-- R347: a completed element of a FORWARD collective that the target has not taken yet. -/
structure ColForward where
  slot : Nat
  step : Nat
  elem : Nat
  value : Nat × Bool
  /-- R332: when it completed. -/
  time : Nat
  deriving DecidableEq, Repr

/-- R349: a PROGRAM item that the cluster queue has refused: cluster, program, key and argument words. -/
structure ColItem where
  cluster : Nat
  program : Nat
  key : Nat
  args : List Word32
  deriving DecidableEq, Repr

/-- R327, R330: an open collective: its descriptor and member table as read at OPEN, and its two rounds. Its state, step and
summaries are in the slot registers. -/
structure ColSlot where
  words : List Word32 := []
  members : List Word32 := []
  cur : ColRound := {}
  nxt : ColRound := {}
  clock : Nat := 0
  items : List ColItem := []
  /-- R355: the timeout of the current round in ms. -/
  timeoutMs : Nat := 0
  deriving DecidableEq, Repr

/-- R336: a run queued for Transit. -/
structure EgressRun where
  slot : Nat
  conn : Nat
  /-- The rank it goes to, and with it the shard of a contribution. -/
  dest : Nat
  result : Bool
  rank : Nat
  collId : Nat
  step : Nat
  fmt : Nat
  offset : Nat
  elems : List Nat
  poison : Bool
  deriving DecidableEq, Repr

/-- The Collector. -/
structure ColState where
  slots : SMap ColSlot := []
  egress : List EgressRun := []
  /-- R346: runs in the intake that wait for a slot of accumulator memory. -/
  intake : List ColRun := []
  forwards : List ColForward := []
  /-- R345: intake cells granted to a connection and not used. -/
  granted : SMap Nat := []
  deriving DecidableEq, Repr

/-- R502, R536: what a host access of the part is for. Catalogue queues are named by number, their commands by take order. -/
inductive HostPurpose where
  | catEntry (q : Nat)
  | catList (q cmd : Nat)
  | catData (q cmd pos : Nat)
  | catOut (q cmd lba : Nat)
  | catRecord (q : Nat)
  | catLogged (q : Nat)
  | dirtyRead (port v map line : Nat)
  | dirtyWrite (port v map line : Nat)
  deriving DecidableEq, Repr

/-- R502: an access the part makes for a function: a write of `data`, else a read of `len` bytes. `pos` bytes have been issued. -/
structure HostOp where
  id : Nat
  port : Nat
  fn : Nat
  write : Bool
  addr : Nat
  len : Nat
  purpose : HostPurpose
  data : List Byte := []
  poison : Bool := false
  pos : Nat := 0
  /-- A read's data so far, by offset. -/
  got : SMap Byte := []
  deriving DecidableEq, Repr

/-- R506, R508, R510: a non-posted request: live; its data to be discarded; timed out, its tag in quarantine; of an earlier generation. -/
inductive HostReqState where
  | live | discard | quarantine | oldGen
  deriving DecidableEq, Repr

/-- A non-posted request of an upstream port: a read for an operation, or a Translation Request (R503). -/
structure HostReq where
  port : Nat
  fn : Nat
  tag : Nat
  state : HostReqState := .live
  op : Nat
  off : Nat
  addr : Nat
  len : Nat
  translate : Bool := false
  /-- R504: an invalidation has met the translation in flight. -/
  stale : Bool := false
  /-- R505, R506: when the request was issued; once it has timed out, when it did. -/
  since : Nat := 0
  /-- R510: when the reset or shutdown of its function began. -/
  stopped : Option Nat := none
  deriving DecidableEq, Repr

/-- A host operation that has ended, with what it is for. -/
structure HostDone where
  purpose : HostPurpose
  ok : Bool
  /-- R506: it ended by a completion timeout. -/
  timeout : Bool := false
  bytes : List Byte := []
  poison : Bool := false
  deriving DecidableEq, Repr

/-- R503: a cached translation: 2^size bytes from a bus address. -/
structure Translation where
  fn : Nat
  bus : Nat
  size : Nat
  target : Nat
  r : Bool
  w : Bool
  deriving DecidableEq, Repr

/-- What a PCI Express port sends. -/
inductive TlpKind where
  | memWrite | memRead | translation | interrupt | errCor | errNonfatal | errFatal | invalidated
  | configRead | configWrite
  /-- A completion, with its status. -/
  | completion (status : Nat)
  deriving DecidableEq, Repr

/-- A packet that a port (0 and 1: H0 and H1; 2 + k: downstream port k) has sent, in order. -/
structure Tlp where
  port : Nat
  fn : Nat
  kind : TlpKind
  addr : Nat := 0
  len : Nat := 0
  bytes : List Byte := []
  ep : Bool := false
  tag : Nat := 0
  /-- R502: the PASID prefix with Privileged Mode Requested. -/
  pasid : Option (Nat × Bool) := none
  /-- R503. -/
  translated : Bool := false
  deriving DecidableEq, Repr

/-- R487 to R491, R499, R513: a function: its configuration space and MSI-X table by dword number, and its pending bits. Only what
differs from the reset values is listed. -/
structure PciFn where
  cfg : SMap (BitVec 32) := []
  msix : SMap (BitVec 32) := []
  pba : SMap Bool := []
  deriving DecidableEq, Repr

/-- R501: an interrupt route: pending, the host writes that must be issued first, the time of its last message. -/
structure RouteState where
  pending : Bool := false
  waits : List Nat := []
  last : Option Nat := none
  deriving DecidableEq, Repr

/-- R531, R537, R538: a virtual function: the queues recorded at its shutdown (kind of R525 and number), and whether a stop of its
dirty-page logging waits for bitmap lines. -/
structure VfState where
  recorded : List (Nat × Nat) := []
  stopping : Bool := false
  deriving DecidableEq, Repr

/-- R535, R536: a page to mark in a bitmap of a virtual function. -/
structure DirtyMark where
  port : Nat
  v : Nat
  map : Nat
  page : Nat
  deriving DecidableEq, Repr

/-- The PCI Express ports. Functions are keyed by port × 512 + function. -/
structure PciState where
  fns : SMap PciFn := []
  ops : List HostOp := []
  reqs : List HostReq := []
  nextOp : Nat := 0
  finished : List HostDone := []
  cache : List (Nat × Translation) := []
  routes : SMap RouteState := []
  vfs : SMap VfState := []
  dirty : List DirtyMark := []
  /-- R335, R516: posted requests from below a downstream port that wait for intake space, by port: window offset, bytes, EP. -/
  held : List (Nat × ColRun) := []
  /-- R511: the upstream ports whose link has yet to train after a fundamental reset; and until when the functions of a port answer
  configuration requests with Request Retry Status. -/
  retrain : List Nat := [0, 1]
  retry : List (Nat × Nat) := []
  sent : List Tlp := []
  deriving DecidableEq, Repr

/-- R405: a received frame that waits in an ingress buffer, with its half, priority and stamp (R403, R404). -/
structure IngressFrame where
  bytes : List Byte
  half : Nat
  prio : Nat
  stamp : Nat
  /-- R604: what the buffer's code will find as the frame leaves it; and a mark that the frame carries already. -/
  err : BufErr := .clean
  mark : Bool := false
  deriving DecidableEq, Repr

/-- R619: a transmit timestamp. -/
structure TxStamp where
  half : Nat
  msgType : Nat
  seq : Nat
  domain : Nat
  time : Nat
  deriving DecidableEq, Repr

/-- An Ethernet port: its ingress buffer; the (half, priority) pairs it has paused at the peer, and those the peer has paused (R405,
R407); its transmit timestamps. -/
structure EthPort where
  ingress : List IngressFrame := []
  pausing : List (Nat × Nat) := []
  paused : List (Nat × Nat) := []
  stamps : List TxStamp := []
  deriving DecidableEq, Repr

/-- A frame that a port has sent, without its FCS. -/
structure SentFrame where
  port : Nat
  half : Nat
  bytes : List Byte
  time : Nat
  /-- R604: sent with its FCS inverted. -/
  badFcs : Bool := false
  deriving DecidableEq, Repr

/-- The Ethernet ports. -/
structure EthState where
  ports : SMap EthPort := []
  sent : List SentFrame := []
  deriving DecidableEq, Repr

/-- R438: where a frame enters Shutter. -/
inductive ShtSource where
  | spectrograph | transit | collector | ring (r : Nat)
  deriving DecidableEq, Repr

/-- A frame in Shutter; `egress` is the Ethernet port it was given, or 15 for the egress of its queue. -/
structure ShtFrame where
  bytes : List Byte
  egress : Nat
  /-- R604: the frame carries a mark. -/
  mark : Bool := false
  deriving DecidableEq, Repr

/-- R439: a frame held at its source. -/
structure HeldFrame where
  src : ShtSource
  subq : Nat
  egress : Nat
  bytes : List Byte
  deriving DecidableEq, Repr

/-- R446: the rates, depths and overhead of a node in force. -/
structure NodeRate where
  cir : Nat
  pir : Nat
  cbs : Nat
  pbs : Nat
  ovh : Nat
  deriving DecidableEq, Repr

/-- Shutter. Nodes are keyed: q for subscriber queues, 0x10000 + s for service nodes, 0x20000 + p for port nodes. -/
structure ShtState where
  queues : SMap (List ShtFrame) := []
  /-- R437: the relay FIFOs, by service. -/
  relays : SMap (List ShtFrame) := []
  held : List HeldFrame := []
  /-- R443: the start tags of children and the virtual times of parents. -/
  tags : SMap Nat := []
  vtime : SMap Nat := []
  /-- R441, R443: the queues and services that were eligible when last looked at. -/
  eligible : SMap Bool := []
  /-- R445: bucket levels in units of 1/160 byte. -/
  committed : SMap Int := []
  peak : SMap Int := []
  inForce : SMap NodeRate := []
  /-- R450: the transmit rings whose next PHASE is 0. -/
  flip : SMap Bool := []
  deriving DecidableEq, Repr

/-- R416, R420: a rule: its key words and masks, its action, and for the sanctum table its ports. -/
structure SpgRule where
  value : List Word32
  mask : List Word32
  action : List Word32
  ports : Nat
  deriving DecidableEq, Repr

/-- R416: a rule bank: the default action, the three profiles of 14 entries, the rules. -/
structure SpgBank where
  dflt : List Word32 := []
  profiles : List Word32 := []
  rules : List SpgRule := []
  deriving DecidableEq, Repr

/-- R415: a pattern. -/
structure SpgPattern where
  group : Nat
  nocase : Bool
  bytes : List Byte
  deriving DecidableEq, Repr

/-- R423, R424: a flow: its key, and the meter of a spilled flow in bytes. -/
structure SpgFlow where
  key : List Byte
  meter : Nat
  deriving DecidableEq, Repr

/-- R432: the Spectrograph command in progress: its number, port, and its refusal code. -/
structure SpgCommand where
  cmd : Nat
  port : Nat
  code : Nat
  deriving DecidableEq, Repr

/-- The Spectrograph. -/
structure SpgState where
  /-- By port × 2 + bank. -/
  banks : SMap SpgBank := []
  patterns : SMap (List SpgPattern) := []
  sanctum : SpgBank := {}
  /-- By flow index. -/
  flows : SMap (Option SpgFlow) := []
  cmd : Option SpgCommand := none
  /-- R425: the receive queues whose next PHASE is 0. -/
  flip : SMap Bool := []
  deriving DecidableEq, Repr

/-- R533: a virtual function of an upstream port, and its generation when it started what is tagged so. -/
structure VfGen where
  port : Nat
  v : Nat
  gen : Nat
  deriving DecidableEq, Repr

/-- R392, R533: a completion entry that waits: its words, PHASE apart, whether it holds a tag, and the VF that started its operation. -/
structure TrnEntry where
  words : List Word32
  tag : Bool
  vf : Option VfGen
  deriving DecidableEq, Repr

/-- Who started a Transit operation: an entry of a send queue, with its TAG and OPC; or a unit of the part (0 the Catalogue, 1
Ephemeris) with its own two numbers. -/
inductive TrnOrigin where
  | sq (q tag opc : Nat) (vf : Option VfGen)
  | unit (u a b : Nat)
  deriving DecidableEq, Repr

/-- A packet to send, or sent and not acknowledged. -/
structure TrnOut where
  type : Nat
  msn : Nat
  idx : Nat := 0
  ext : List Word32 := []
  payload : List Byte := []
  p : Bool := false
  notify : Bool := false
  psn : Nat := 0
  tries : Nat := 0
  deriving DecidableEq, Repr

/-- R385: an operation in flight at the side that issued it. -/
structure TrnOp where
  origin : TrnOrigin
  type : Nat
  msn : Nat
  notify : Bool
  /-- The packets of the message, or of the response, and those acknowledged, answered or placed. -/
  total : Nat
  got : SMap Bool := []
  /-- R393: the lowest PKT_INDEX refused, with its code. -/
  nak : Option (Nat × Nat) := none
  localAddr : Nat := 0
  lkey : Nat := 0
  pd : Nat := 0
  len : Nat := 0
  localFail : Bool := false
  poison : Bool := false
  /-- The path, PSN and index of every packet sent. -/
  sent : List (Nat × Nat × Nat) := []
  deriving DecidableEq, Repr

/-- R380, R382: one path of a connection, as sender and as receiver. `base` is the expected or base PSN, `marks` the PSNs accepted
beyond it. -/
structure TrnPath where
  next : Nat := 0
  unacked : List TrnOut := []
  retries : Nat := 0
  base : Nat := 0
  marks : List Nat := []
  sinceAck : Nat := 0
  /-- The expected PSN of the last NAK SEQ and its time. -/
  nakAt : Option (Nat × Nat) := none
  deriving DecidableEq, Repr

/-- R385: a NOTIFY message being received. -/
structure TrnNotify where
  msn : Nat
  imm : Nat
  total : Nat
  got : SMap Bool := []
  refused : Bool := false
  deriving DecidableEq, Repr

/-- R378: the counts of one pool: as sender, and as receiver. -/
structure TrnPool where
  consumed : Nat := 0
  limit : Nat := 0
  ret : Nat := 0
  rxLimit : Nat := 0
  rxRet : Nat := 0
  arrived : Nat := 0
  /-- LIMIT and RET as the last ACK carried them. -/
  told : Nat × Nat := (0, 0)
  deriving DecidableEq, Repr

/-- A connection that is not IDLE: its entry as read, and its protocol state. -/
structure TrnConn where
  entry : List Word32 := []
  paths : SMap TrnPath := []
  nextPath : Nat := 0
  msn : Nat := 0
  data : TrnPool := {}
  coll : TrnPool := {}
  out : List TrnOut := []
  ops : List TrnOp := []
  notifies : List TrnNotify := []
  /-- R385: the packets of messages with NOTIFY beyond the 64 in progress, oldest message first. -/
  later : List (List TrnOut) := []
  /-- R374: DISCONNECT has been sent. -/
  closing : Bool := false
  /-- R368: PEER_GEN holds the peer's generation. -/
  heard : Bool := false
  lastDisc : Option Nat := none
  lastItem : Option Nat := none
  /-- R379: the order of the least recent grant. -/
  granted : Nat := 0
  deriving DecidableEq, Repr

/-- An operation of a unit of the part that has ended, with its status (R393). -/
structure TrnDone where
  unit : Nat
  a : Nat
  b : Nat
  status : Nat
  deriving DecidableEq, Repr

/-- Transit. -/
structure TrnState where
  conns : SMap TrnConn := []
  /-- R392: completion entries that wait, by completion queue. -/
  cqs : SMap (List TrnEntry) := []
  flip : SMap Bool := []
  /-- R379: the packets that stay in staging for a waiting RECV_NOTIFY, in the order of those entries: the completion queue, the
  connection and the cells of each. -/
  staged : List (Nat × Nat × Nat) := []
  revokes : List Nat := []
  finished : List TrnDone := []
  clock : Nat := 0
  deriving DecidableEq, Repr

/-- How far a part of a Catalogue command has come. -/
inductive PartState where
  | idle | issued | done
  | failed (status info : Nat)
  deriving DecidableEq, Repr

/-- R455: the part of a command that lies in one stripe unit: first volume block, blocks, backend number, backend block, the address
of its data in the store. For a READ, the 64-byte pieces that the store supplied, by their number in the part. -/
structure CatPart where
  lba : Nat
  nb : Nat
  be : Nat
  block : Nat
  addr : Nat := 0
  state : PartState := .idle
  overlay : SMap (Option (List Byte × Bool)) := []
  deriving DecidableEq, Repr

/-- How far a Catalogue command has come: its segment list is being read; it has passed its checks; it has started; a READ moves data
to its buffer. -/
inductive CatPhase where
  | listing | ready | running | moving
  deriving DecidableEq, Repr

/-- R462: a taken command: its take order, the slot it was taken from, its words, the volume and backends it acts on. -/
structure CatCmd where
  seq : Nat
  slot : Nat
  words : List Word32
  volNo : Nat
  vol : List Word32
  bes : List (Nat × List Word32)
  phase : CatPhase := .ready
  segs : List (Nat × Nat) := []
  parts : List CatPart := []
  /-- The store area it holds. -/
  area : Option (Nat × Nat) := none
  /-- Buffer accesses outstanding. -/
  moves : Nat := 0
  /-- R473, R507: the source of a WRITE held poison; it could not be read. -/
  poison : Bool := false
  lost : Bool := false
  /-- R473: the failure of the lowest volume block: block, status, INFO. -/
  fail : Option (Nat × Nat × Nat) := none
  /-- R464: it waits for store room since this time. -/
  waitRoom : Option Nat := none
  /-- The feed entry of a command of a mover's internal queue; the number of an operation of Ephemeris. -/
  entry : Nat := 0
  /-- The data of a WRITE of Ephemeris. -/
  inline : List Byte := []
  deriving DecidableEq, Repr

/-- R464, R468: data of a completed WRITE (or a DEALLOCATE, without data) held in the store for one backend. -/
structure StoreSeg where
  id : Nat
  q : Nat
  seq : Nat
  cid : Nat
  volNo : Nat
  dealloc : Bool
  log2 : Nat
  lba : Nat
  nb : Nat
  be : Nat
  beWords : List Word32
  block : Nat
  addr : Nat
  attempts : Nat := 0
  issued : Bool := false
  deriving DecidableEq, Repr

/-- What a backend command serves: a store segment, part i of a READ, a FLUSH. -/
inductive BeOwner where
  | seg (id : Nat)
  | part (q seq i : Nat)
  | flush (q seq : Nat)
  deriving DecidableEq, Repr

/-- A backend command in flight: its identifier on the backend, the order of issue, the queue it is of. -/
structure BeCmd where
  be : Nat
  id : Nat
  serial : Nat
  opc : Nat
  owner : BeOwner
  q : Nat
  /-- A page of the store that holds its PRP list or range. -/
  page : Option Nat := none
  /-- R477: the part of the store that a READ fills. -/
  area : Option (Nat × Nat) := none
  /-- R475: it has timed out; its late result is discarded. -/
  late : Bool := false
  /-- R475: its queue's generation has moved on, or its queue resets. -/
  stale : Bool := false
  /-- R475: firmware has reset its controller, which will not complete it. -/
  gone : Bool := false
  deriving DecidableEq, Repr

/-- R457, R480, R482: a backend: its entry, its ring indices, the flipped phase of an NVMe completion queue, and the latest command
that a DURABLE response covers. -/
structure CatBackend where
  words : List Word32 := []
  tail : Nat := 0
  head : Nat := 0
  cqHead : Nat := 0
  flip : Bool := false
  durable : Nat := 0
  deriving DecidableEq, Repr

/-- R470: a failed part: the take order of its command, its first volume block, backend, backend status, and whether it has been
reported. -/
structure CatFailure where
  seq : Nat
  lba : Nat
  be : Nat
  status : Nat
  reported : Bool := false
  deriving DecidableEq, Repr

/-- A Catalogue queue: the entries held, its commands, its failures. -/
structure CatQueue where
  vol : List Word32 := []
  bes : List (Nat × List Word32) := []
  cmds : List CatCmd := []
  nextSeq : Nat := 0
  /-- A host read of the entry at SQ_HEAD is under way. -/
  reading : Bool := false
  /-- R507: an entry could not be read. -/
  fault : Bool := false
  failed : List CatFailure := []
  logSeq : Nat := 0
  flip : Bool := false
  /-- Completion and log entries written and not yet accepted by the host link. -/
  records : Nat := 0
  /-- R479: no completion or log entry is written. -/
  noRecords : Bool := false
  /-- R477: the areas of reset commands, until the reset completes. -/
  held : List (Nat × Nat) := []
  deriving DecidableEq, Repr

/-- R467: an ended backend write or deallocate that is not durable yet: its queue and take order, its backend, and the order of its
issue and of its end. -/
structure CatVolatile where
  q : Nat
  seq : Nat
  be : Nat
  serial : Nat
  ended : Nat
  deriving DecidableEq, Repr

/-- The Catalogue. Queue 4,096 + m is the internal queue of mover m, and queue 4,160 that of Ephemeris. -/
structure CatState where
  queues : SMap CatQueue := []
  segs : List StoreSeg := []
  becmds : List BeCmd := []
  bes : SMap CatBackend := []
  nextId : Nat := 0
  /-- R467: ended backend writes that are not durable yet. -/
  nondur : List CatVolatile := []
  /-- Ended commands of internal queues: mover, entry, STATUS, INFO. -/
  moverDone : List (Nat × Nat × Nat × Nat) := []
  /-- R462: the queue served last; the first turn is queue 0's (log 36). -/
  turn : Nat := 4095
  deriving DecidableEq, Repr

/-- R541, R549: a Filter descriptor that has started on a unit: its queue, ring index and words; the key entries it runs with and the
keys in the engines; the blocks placed in input slots, taken from output slots, and the bytes written; the time of the last progress. -/
structure FltRun where
  q : Nat
  idx : Nat
  words : List Word32
  /-- R652: a Dome core issued it. -/
  dome : Bool := false
  named : List Nat := []
  keys : List (List Byte) := []
  placed : Nat := 0
  taken : Nat := 0
  bytes : Nat := 0
  /-- R550. -/
  poison : Bool := false
  progress : Nat := 0
  progStatus : Nat := 0
  /-- R545: it has ended: its status and refusal code. -/
  ended : Option (Nat × Nat) := none
  deriving DecidableEq, Repr

/-- A Filter unit: the descriptor it runs, and the chain program table entry of the program it holds (R543). -/
structure FltUnit where
  run : Option FltRun := none
  program : List Word32 := []
  deriving DecidableEq, Repr

/-- The Filter subsystem: its units, the descriptors read that wait for their FENCE (R541), the next queue in turn. -/
structure FltState where
  units : SMap FltUnit := []
  fenced : SMap (Option (List Word32)) := []
  next : Nat := 0
  deriving DecidableEq, Repr

/-- R552: an entry of the key store: the key and its complement, 256 bits each. -/
structure KeyEntry where
  key : BitVec 256 := 0
  comp : BitVec 256 := 0
  deriving DecidableEq, Repr

/-- The root of trust: whether it has left reset; the outcome code of the command that is BUSY, 0 for done (R568), and of
the flash command (R700) with its range when it changes the flash; DEBUG_UNLOCK (R565); the fuses blown (R563, R564); the flash, whose
unlisted bytes are erased (R697). Fuses and flash outlive every reset. -/
structure RotState where
  running : Bool := false
  cmd : Option Nat := none
  flashCmd : Option (Nat × Option (Nat × Nat)) := none
  unlocked : Bool := false
  svn : Option Nat := none
  /-- R563: the counter before the commit in progress. -/
  svnFrom : Option Nat := none
  revoked : Nat := 0
  flash : SMap Byte := []
  deriving DecidableEq, Repr

/-- R587: a read of a destination under way: the source, byte offset and length, the bytes that have arrived, the piece outstanding. -/
structure EphRead where
  src : Nat
  off : Nat
  len : Nat
  data : List Byte := []
  poison : Bool := false
  failed : Bool := false
  id : Option Nat := none
  deriving DecidableEq, Repr

/-- R582, R587: a slot with a valid commit record: its source, slot, step and manifest. -/
structure EphCand where
  src : Nat
  slot : Nat
  step : Nat
  manifest : List Byte
  deriving DecidableEq, Repr

/-- R570, R587: the reading of commit records: the slots still to read, the record whose manifest is being read, what was found. -/
structure EphScan where
  todo : List (Nat × Nat)
  record : Option (List Byte) := none
  cands : List EphCand := []
  invalid : Nat := 0
  deriving DecidableEq, Repr

/-- R587: a RESTORE: the steps still to try, the shard, the copies of it still to try, the counts. -/
structure EphRestore where
  maxStep : Nat
  invalid : Nat := 0
  cands : List EphCand := []
  steps : List Nat := []
  shard : Nat := 0
  tries : Option (List EphCand) := none
  used : Nat := 0
  failed : Nat := 0
  deriving DecidableEq, Repr

/-- R583: a destination of a checkpoint: how far it has come, its slot, its operations outstanding, its status once it has ended. -/
inductive EphPhase where
  | invalid | invalidFlush | shards | manifest | flush | record | recordFlush | ended
  deriving DecidableEq, Repr

structure EphDest where
  phase : EphPhase
  slot : Nat
  out : List Nat := []
  status : Nat := 0
  deriving DecidableEq, Repr

/-- R579: a drain: its step, the device map, the next granule, the digest of the shard being read, the digests so far. -/
structure EphDrain where
  step : Nat
  map : List Byte
  granule : Nat := 0
  hash : List (BitVec 64) := []
  digests : List (List Byte) := []
  dests : List (Option EphDest)
  deriving DecidableEq, Repr

/-- Ephemeris: the job descriptor in use; the reading, restore and drain under way; the bytes that a read has brought; R585: the
warnings whose measure was beyond its threshold at the last sample, and the times of what the measures count. -/
structure EphState where
  job : List Word32 := []
  read : Option EphRead := none
  scan : Option EphScan := none
  restore : Option EphRestore := none
  drain : Option EphDrain := none
  nextId : Nat := 0
  rx : List Byte := []
  rxPoison : Bool := false
  beyond : Nat := 0
  eccTimes : List Nat := []
  linkTimes : List Nat := []
  wdtTimes : List Nat := []
  /-- R584: the destinations that the reset in progress has ABANDONED. -/
  abandoned : List Nat := []
  deriving DecidableEq, Repr

/-- R637: what a window has gathered of one phase: the ticks the array held it with the sums of its calibrated power, its clock and the
stack power; the ticks a guider core held it, with the samples of core power at FMAX and their number. -/
structure HelPhaseAcc where
  ticks : Nat := 0
  arrayW : Rat := 0
  clock : Nat := 0
  stackW : Rat := 0
  coreTicks : Nat := 0
  coreMw : Rat := 0
  cores : Nat := 0
  deriving DecidableEq, Repr

/-- The Heliostat: the calibration (R632); the bucket level in W µs and the excursion timer in ticks (R635); the raw estimates of the
current sample period, the pairs of the window, whether a sample lay outside 40 to 70 V; the phases of the window (R637); the dark
frame with its level in A and its hold, and the LEVEL of an issued DARK that left the array last (R643); the thermal steps of the
array (key 0) and of guider core n (key n + 1), and the samples towards the next (R645); TRIP; the ACCORD limit, and the least of the
other limits at the last tick (R647); the array clock of the last tick. -/
structure HelState where
  gain : Rat := 100 / 93
  offset : Rat := 0
  bucket : Rat := 500000
  timer : Nat := 0
  rawSum : Rat := 0
  rawTicks : Nat := 0
  pairs : List (Rat × Rat) := []
  badVolt : Bool := false
  phases : SMap HelPhaseAcc := []
  frame : Option (Rat × Nat) := none
  darkLevel : Option Nat := none
  therm : SMap Nat := []
  thermCold : Nat := 0
  thermHot : Nat := 0
  trip : Bool := false
  accord : Option Nat := none
  others : Nat := 1800
  clock : Nat := 1800
  deriving DecidableEq, Repr

/-- R622 to R625: whether bring-up has reached step 3 since power-on, and since the last reset; a warm reset in progress; a crystal
that was stable has failed; whether Dome core 0 has started since the last power-on or warm reset; the sources that have failed; the
downstream ports whose PERST_N is deasserted; R618: what a slew has withheld and not yet taken from PENDING, in units of 2⁻³² ns. -/
structure ChrState where
  everUp : Bool := false
  up : Bool := false
  warm : Bool := false
  xtalLost : Bool := false
  started : Bool := false
  failed : List Nat := []
  released : List Nat := []
  withheld : Nat := 0
  /-- R627: when the PCI Express reference was last judged stable. -/
  pcieAt : Nat := 0
  deriving DecidableEq, Repr

/-- R685 to R690, R704: the module: the input is above its lockout, the standby rail runs, PWR_EN, PWR_GOOD, the latch of the thermal
shutdown, and the filtered inputs of R621. -/
structure PowerState where
  input : Bool := true
  standby : Bool := true
  pwrEn : Bool := true
  good : Bool := true
  latch : Bool := false
  inputs : Nat := 0
  deriving DecidableEq, Repr

/-- R655, R656: the Dome cores: what is left of each watchdog in ns (by core), the times of its last expiries, the cores to enable when
their reset completes; R668: the answers to MCTP requests, by sideband (false I3C, true SMBus) and sensor; R665: the bytes of the request slots, by offset in the Dome cores block. -/
structure DomState where
  wdt : SMap Nat := []
  expiries : SMap (List Nat) := []
  restart : List Nat := []
  mctp : List (Bool × Nat × Nat) := []
  slots : SMap Byte := []
  /-- R663: what is left of the heartbeat timer of a port, in ns. -/
  beat : SMap Nat := []
  /-- R652: the entries of a ring that a Dome core has posted, by `filterKey`, `txrKey` or `jobKey`. -/
  posted : SMap (List Nat) := []
  deriving DecidableEq, Repr

/-- R677 to R680: the exposures: the selected counters (cell and number), the number of the last tick, the ticks lost since the last
record, the last instant taken. -/
structure ExpState where
  list : List (Nat × Nat) := []
  seq : Nat := 0
  lost : Nat := 0
  last : Nat := 0
  deriving DecidableEq, Repr

/-- The state of the part. -/
structure State where
  /-- The commands that are waiting, first in, first out. -/
  pending : List Instr := []
  /-- The model's own counter of free values used (log 1); no rule of the spec names it. -/
  freeCount : Nat := 0
  /-- R616: the device time base in ns, with the 32-bit fraction of R617. -/
  now : Nat := 0
  timeFrac : Nat := 0
  /-- R49, R14: every register of the maps, by device address; an unlisted one holds its reset value. -/
  regs : SMap (BitVec 64) := []
  /-- R670: the photometer counters and their overflow bits, by device address. -/
  phot : SMap (BitVec 64) := []
  /-- R67, R226: the bytes of stack memory, Plates and every core's local memory; an unlisted byte reads 0 (R599). -/
  mem : List Host.Cell := []
  /-- R593: the lines that are not CLEAN, by line address. -/
  lineErr : SMap LineErr := []
  /-- R599: the valid bits of the lines, by line address. -/
  valid : SMap Bool := []
  /-- R245, R250: every bit that is 1: the shared bits and the EVENT device bits by bit address, the private bits of a core by
  the keys of `privateKey`. -/
  bits : SMap Bool := []
  /-- The XQ cores, by cell id. -/
  cores : SMap CoreState := []
  /-- R309: the cluster queues, by cluster number. -/
  clusters : SMap (List WorkItem) := []
  prim : PrimState := {}
  /-- The movers, by number. -/
  movers : SMap MoverState := []
  col : ColState := {}
  pci : PciState := {}
  eth : EthState := {}
  sht : ShtState := {}
  spg : SpgState := {}
  trn : TrnState := {}
  cat : CatState := {}
  eph : EphState := {}
  hel : HelState := {}
  chr : ChrState := {}
  power : PowerState := {}
  dom : DomState := {}
  exp : ExpState := {}
  flt : FltState := {}
  keys : SMap KeyEntry := []
  rot : RotState := {}
  /-- R646: the total time for which an operation has occupied the array. -/
  busyNs : Nat := 0
  epoch : EpochState := {}
  /-- What the last read command returned to the agent that sent it, with the EP bit of R305. -/
  reply : Word := 0
  replyPoison : Bool := false
  deriving DecidableEq, Repr

/-- The part right after power-on reset (R625 step 1): every register at its reset value, memory with nothing listed, every
queue empty. -/
def State.reset : State := {}

end Sys2Proof.Machine
end

