-- ==== Sys2Proof/Machine/Ops.lean ====
section
/-! DEFINITION. The named operations over the state: registers and their fields, free values, photometer events (R670 to
R676), cell states (R55), the error record (R65), the bit store, and the memories with their check code, valid bits, flip
mask and copy-on-write (chapter 19, R187, R572). -/

namespace Sys2Proof.Machine

open Sys2Proof

/-- What a meaning answers. -/
abbrev Out := Host.Outcome State Fault Refusal

/-! ## Registers -/

/-- R670: the photometer counters and overflow bits are kept apart from the other registers. -/
def RegId.isPhot : RegId → Bool
  | .PHOT_CNTc => true
  | .PHOT_OVF => true
  | _ => false

/-- The value a register holds. -/
def State.reg (s : State) (r : RegId) (cell : Nat) (i : Nat := 0) : BitVec 64 :=
  smapGet (fun _ => resetValue r cell i) (if r.isPhot then s.phot else s.regs) (regAddr r cell i)

/-- The state with a register holding v. -/
def State.setReg (s : State) (r : RegId) (cell : Nat) (v : BitVec 64) (i : Nat := 0) : State :=
  if r.isPhot then { s with phot := smapSet (fun _ => resetValue r cell i) s.phot (regAddr r cell i) v }
  else { s with regs := smapSet (fun _ => resetValue r cell i) s.regs (regAddr r cell i) v }

/-- The value of a field. -/
def State.fld (s : State) (f : Fld) (cell : Nat) (i : Nat := 0) : Nat := bitsOf (s.reg f.reg cell i).toNat f.hi f.lo

/-- The state with a field holding v; the register's other bits stay. -/
def State.setFld (s : State) (f : Fld) (cell v : Nat) (i : Nat := 0) : State :=
  s.setReg f.reg cell (BitVec.ofNat 64 (putBits (s.reg f.reg cell i).toNat f.hi f.lo v)) i

/-- A one-bit field. -/
def State.flag (s : State) (f : Fld) (cell : Nat) (i : Nat := 0) : Bool := s.fld f cell i == 1

/-- The state with a one-bit field set or cleared. -/
def State.setFlag (s : State) (f : Fld) (cell : Nat) (b : Bool) (i : Nat := 0) : State := s.setFld f cell (if b then 1 else 0) i

/-- Take a free value of w bits: the value, and the state with the counter advanced (log 1). -/
def State.free (s : State) (w : Nat) : BitVec w × State :=
  (Config.freeValue w s.freeCount, { s with freeCount := s.freeCount + 1 })

/-! ## Cell states -/

/-- R55, R708: the readiness condition a chapter names: a stack memory controller is ready once trained. -/
def State.cellReady (s : State) (id : Nat) : Bool :=
  if kindOf id = 0x14 then s.flag F.SMC_STATUS_TRAINED id else true

/-- R63, R110: the cell is in FAULT: it has entered fault, or it is a segment fused as defective. The stored STATE field keeps 4 while
a cell is in FAULT; every other state is computed. -/
def State.faulted (s : State) (id : Nat) : Bool := s.fld F.CELL_STATE_STATE id == 4 || fusedDefective id

/-- R55, R62: the state of the first cell of a path, given the path of its ancestors. -/
def State.pathState (s : State) : List Nat → Nat
  | [] => 3
  | id :: up =>
    if s.flag F.CELL_STATE_RESETTING id then (if noEnable id then 2 else 0)
    else if s.faulted id then 4
    else if !s.flag F.CELL_CTRL_EN id then (if s.flag F.CELL_STATE_QUIESCE_BUSY id then 1 else 0)
    else if !s.flag F.CELL_STATE_QUIESCE_BUSY id && s.pathState up == 3 && s.fld F.CELL_POWER_PSTATE id == 0
        && s.cellReady id then 3
    else 2

/-- R55: the state a cell reads: 0 OFF, 1 QUIESCING, 2 ENABLE_PENDING, 3 ENABLED, 4 FAULT. -/
def State.cellState (s : State) (id : Nat) : Nat := s.pathState (cellPath id)

/-- R612, R688: no island runs: the crystal has failed and has not returned, or the rails are down. -/
def State.stopped (s : State) : Bool := s.chr.xtalLost || !s.power.good

/-- The cell is ENABLED, and its island runs. -/
def State.enabled (s : State) (id : Nat) : Bool := !s.stopped && s.cellState id == 3

/-- R61: the cell is resetting. -/
def State.resetting (s : State) (id : Nat) : Bool := s.flag F.CELL_STATE_RESETTING id

/-! ## Photometers -/

/-- R671: event i of a cell kind. -/
def evOf (kind i : Nat) : Nat := 0x100 + 0x20 * (kind - 0x10) + i

/-- R673: add to counter c of a cell, modulo 2^48; the carry of a chained even counter goes to the odd one. -/
def State.bumpCounter (s : State) (cell c inc : Nat) : State :=
  let chained := bitsOf (s.fld F.PHOT_CTRL_CHAIN cell) (c / 2) (c / 2) == 1
  let sum := s.fld F.PHOT_CNTc_COUNT cell c + inc
  let s := s.setFld F.PHOT_CNTc_COUNT cell sum c
  if sum < 2 ^ 48 then s
  else if chained && c % 2 == 0 then
    let odd := s.fld F.PHOT_CNTc_COUNT cell (c + 1) + 1
    let s := s.setFld F.PHOT_CNTc_COUNT cell odd (c + 1)
    if odd < 2 ^ 48 then s
    else s.setFld F.PHOT_OVF_OVF cell (s.fld F.PHOT_OVF_OVF cell ||| 2 ^ (c + 1))
  else s.setFld F.PHOT_OVF_OVF cell (s.fld F.PHOT_OVF_OVF cell ||| 2 ^ c)

/-- R671, R672: whether counter c of a cell counts this event and qualifier. -/
def State.counterTakes (s : State) (cell c ev qual : Nat) : Bool :=
  let chained := bitsOf (s.fld F.PHOT_CTRL_CHAIN cell) (c / 2) (c / 2) == 1
  bitsOf (s.fld F.PHOT_CTRL_EN cell) c c == 1 && !(chained && c % 2 == 1)
    && s.fld F.PHOT_SELc_EVENT cell c == ev && (s.fld F.PHOT_SELc_QUAL cell c == 0xFFF || s.fld F.PHOT_SELc_QUAL cell c == qual)

/-- R674: a gated cell increments nothing. -/
def State.gated (s : State) (cell : Nat) : Bool := s.fld F.CELL_POWER_PSTATE cell != 0

/-- R671: count an event of a cell, in the cell and in every ancestor. An event without a qualifier is given the qualifier
0xFFF, which only a QUAL of 0xFFF names; `unq` says so. -/
def State.countIn (s : State) (cell ev inc : Nat) (qual : Option Nat) : State :=
  (List.range 8).foldl (fun s c =>
    let hit := match qual with
      | some q => s.counterTakes cell c ev q
      | none => s.counterTakes cell c ev (s.fld F.PHOT_SELc_QUAL cell c)
    if hit then s.bumpCounter cell c inc else s) s

def State.count (s : State) (cell ev : Nat) (qual : Option Nat := none) (inc : Nat := 1) : State :=
  if s.gated cell then s else (cellPath cell).foldl (fun s c => s.countIn c ev inc qual) s

/-! ## Bits -/

/-- R245: the key of private bit i of the core whose cell is given. -/
def privateKey (cell i : Nat) : Nat := 2 ^ 32 + (i + 2 ^ 16 * cell)

/-- The stored value of a bit, by key. -/
def State.bitAt (s : State) (k : Nat) : Bool := smapGet (fun _ => false) s.bits k

/-- R251: note that a bit has a value, for the cores asleep on it. -/
def State.noteBit (s : State) (k : Nat) (v : Bool) : State :=
  { s with cores := s.cores.map fun p =>
      match p.2.asleep with
      | some w => if w.bit = k ∧ w.value ≠ v then (p.1, { p.2 with asleep := some { w with left := true } }) else p
      | none => p }

/-- Write a stored bit. -/
def State.putBit (s : State) (k : Nat) (v : Bool) : State :=
  { s with bits := smapSet (fun _ => false) s.bits k v }.noteBit k v

/-- R248: an event of the part sets its EVENT device bit. -/
def State.event (s : State) (b : Nat) : State := s.putBit b true

/-! ## The error record -/

/-- R585: the times within a window before now. -/
def State.within (s : State) (ns : Nat) (l : List Nat) : List Nat := l.filter fun t => decide (s.now < t + ns)

/-- R585: an error of class ECC_CORR, for the ECC measure of Ephemeris. -/
def State.noteEcc (s : State) : State :=
  { s with eph := { s.eph with eccTimes := s.now :: s.within 1000000000 s.eph.eccTimes } }

/-- R585: a correctable error of a port, for the LINK measure. -/
def State.noteLinkErr (s : State) : State :=
  { s with eph := { s.eph with linkTimes := s.now :: s.within 1000000000 s.eph.linkTimes } }

/-- R65: an error arrives at a cell. The classes that put the cell in FAULT go through `recordInternal` of Cells. -/
def State.recordError (s : State) (cell cls addr info : Nat) : State :=
  let s := s.count cell 0x004 (some cls)
  let s := if cls = 0x02 then s.noteEcc else s
  if s.flag F.CELL_ERR_STATUS_VALID cell then
    let n := s.fld F.CELL_ERR_STATUS_COUNT cell
    (s.setFld F.CELL_ERR_STATUS_COUNT cell (if n = 0xFFFF then n else n + 1)).setFlag F.CELL_ERR_STATUS_OVERFLOW cell true
  else
    let s := s.setFld F.CELL_ERR_STATUS_CLASS cell cls
    let s := s.setFld F.CELL_ERR_STATUS_COUNT cell 1
    let s := s.setFlag F.CELL_ERR_STATUS_VALID cell true
    let s := s.setFld F.CELL_ERR_ADDR_ADDR cell addr
    let s := s.setFld F.CELL_ERR_TIME_TIME cell s.now
    let s := s.setFld F.CELL_ERR_INFO_INFO cell info
    s.event (0x40000000 + cell)

/-- R66: the error classes. -/
def clsAccess : Nat := 0x01
def clsEccCorr : Nat := 0x02
def clsEccUncorr : Nat := 0x03
def clsAddr : Nat := 0x04

/-- R604: what the code of an on-chip buffer found is recorded in the cell that owns it, with ADDR and INFO 0 (log 76). -/
def State.bufErr (s : State) (cell : Nat) : BufErr → State
  | .clean => s
  | .corrected => s.recordError cell clsEccCorr 0 0
  | .bad => s.recordError cell clsEccUncorr 0 0
def clsPoison : Nat := 0x05
def clsProtocol : Nat := 0x06
def clsTimeout : Nat := 0x07
def clsInternal : Nat := 0x08
def clsLink : Nat := 0x09

/-! ## Memory -/

/-- The 64-byte line of an address. -/
def lineOf (a : Nat) : Nat := a - a % 64

/-- R599: one stored byte; a byte of an invalid line reads 0. -/
def State.byte (s : State) (a : Nat) : Byte := smapGet (fun _ => 0) s.mem a

/-- Write one stored byte. -/
def Memory.setByte (m : List Host.Cell) (a : Nat) (b : Byte) : List Host.Cell := smapSet (fun _ => 0) m a b

/-- Write bytes at ascending addresses. -/
def Memory.setBytes : List Host.Cell → Nat → List Byte → List Host.Cell
  | m, _, [] => m
  | m, a, b :: bs => Memory.setBytes (Memory.setByte m a b) (a + 1) bs

/-- The canonical form of memory: addresses strictly rising and no entry 0 (what an unlisted address reads as). -/
def Memory.wf (m : List Host.Cell) : Bool := smapWf (fun _ => 0) m

/-- n stored bytes from an address. -/
def State.bytes (s : State) (a : Nat) : Nat → List Byte
  | 0 => []
  | n + 1 => s.byte a :: s.bytes (a + 1) n

/-- R593: what one word reads as. -/
inductive WordState where
  | clean
  | corrected (check : Bool) (bit : Nat)
  | marked
  | bad
  deriving DecidableEq, Repr

/-- The set bits of a mask. -/
def onesOf (w : Nat) (v : Nat) : List Nat := (List.range w).filter fun i => v / 2 ^ i % 2 == 1

/-- R593: judge one word by its errors. Combinations the code's guarantees do not cover take the open decoding (log 4). -/
def WordErr.judge (e : WordErr) : WordState :=
  let d := onesOf 64 e.data.toNat
  let c := onesOf 8 e.check.toNat
  let n := d.length + c.length
  if e.addrBit = 0 ∧ !e.marked ∧ n = 0 then .clean
  else if e.addrBit = 0 ∧ e.marked ∧ n = 0 then .marked
  else if e.addrBit = 0 ∧ !e.marked ∧ n = 1 then
    match d with
    | b :: _ => .corrected false b
    | [] => .corrected true (c.headD 0)
  else if (e.addrBit = 0 ∧ !e.marked ∧ n = 2) ∨ (e.addrBit ≠ 0 ∧ !e.marked ∧ n = 0) then .bad
  else
    let k := Config.openWord e.marked e.data e.check e.addrBit
    match k % 4 with
    | 0 => .clean
    | 1 => if k / 4 % 72 < 64 then .corrected false (k / 4 % 72) else .corrected true (k / 4 % 72 - 64)
    | 2 => .marked
    | _ => .bad

/-- R593: the syndrome of a word. -/
def WordErr.syndrome (e : WordErr) : Nat :=
  if e.judge = .clean then 0 else (Config.syndrome e.marked e.data e.check e.addrBit).toNat

/-- R594: the outcome of a line read. -/
structure LineRead where
  bytes : List Byte
  poison : Bool
  /-- The class recorded; 0 for none. -/
  cls : Nat
  info : Nat
  deriving DecidableEq, Repr

/-- The stored errors of a line. -/
def State.lineErrOf (s : State) (la : Nat) : LineErr := smapGet (fun _ => LineErr.clean) s.lineErr la

/-- R596: the delivered bytes of one word: the stored ones, with the corrected data bit inverted. -/
def correctedBytes (st : WordState) (bs : List Byte) : List Byte :=
  match st with
  | .corrected false b => natLe 8 (leNat bs ^^^ 2 ^ b)
  | _ => bs

/-- R594, R595: judge a line. `kind` bits: SWEEP and LOCAL of INFO. -/
def State.readLine (s : State) (la : Nat) (sweep : Bool) : LineRead :=
  let errs := s.lineErrOf la
  let sts := errs.map WordErr.judge
  let raw := s.bytes la 64
  let out := (List.range 8).flatMap fun w => correctedBytes (sts.getD w .clean) (raw.drop (8 * w) |>.take 8)
  let isOk := fun st => match st with
    | WordState.clean => true
    | WordState.corrected _ _ => true
    | _ => false
  let firstBad := (List.range 8).find? fun w => sts.getD w .clean != .clean
  match firstBad with
  | none => ⟨raw, false, 0, 0⟩
  | some w =>
    let st := sts.getD w .clean
    let syn := (errs.getD w {}).syndrome
    let local_ := !(inStack la || inPlates la)
    let base := w + syn % 256 * 2 ^ 3 + (if sweep then 2 ^ 18 else 0) + (if local_ then 2 ^ 19 else 0)
    let corr := match st with
      | .corrected chk b => (if chk then 2 ^ 11 else 0) + b * 2 ^ 12
      | _ => 0
    if sts.all isOk then ⟨out, false, clsEccCorr, base + corr⟩
    else if sts.all (· == .marked) then ⟨raw, true, 0, 0⟩
    else if sts.all (· == .bad) && errs.all (fun e => e.syndrome == syn) then ⟨raw, true, clsAddr, base⟩
    else ⟨raw, true, clsEccUncorr, base⟩

/-- R595: the address a line's record holds: the device address, or the local offset. -/
def recordAddr (la : Nat) : Nat := if inStack la || inPlates la then la else la % 0x1000000

/-- R595, R675: record the class of a line read and count the read. -/
def State.noteRead (s : State) (la : Nat) (r : LineRead) : State :=
  match memCell la with
  | none => s
  | some c =>
    let s := if inStack la then s.count c (evOf 0x14 0) else if inPlates la then s.count c (evOf 0x12 0) else s
    if r.cls = 0 then s else s.recordError c r.cls (recordAddr la) r.info

/-- R599: whether any write has reached the line since its valid bit was cleared. -/
def State.lineValid (s : State) (la : Nat) : Bool := smapGet (fun _ => false) s.valid la

/-- R602: the flip registers of a memory cell: the fields ARM, MATCH_EN, WORDS, CHECK, ADDR_BIT, MASK and LINE. -/
structure FlipMask where
  words : Nat
  check : Nat
  addrBit : Nat
  mask : Nat
  deriving DecidableEq, Repr

/-- R602: the mask that corrupts a write to this line, if one is armed for it. -/
def State.flipFor (s : State) (la : Nat) : Option (Nat × FlipMask) :=
  match memCell la with
  | none => none
  | some c =>
    let smc := kindOf c == 0x14
    if kindOf c ≠ 0x14 ∧ kindOf c ≠ 0x12 then none
    else
      let ctrl := (s.reg (if smc then .SMC_FLIP_CTRL else .PLT_FLIP_CTRL) c).toNat
      let line := bitsOf (s.reg (if smc then .SMC_FLIP_ADDR else .PLT_FLIP_ADDR) c).toNat 47 6
      if bitsOf ctrl 0 0 = 1 ∧ (bitsOf ctrl 1 1 = 0 ∨ line * 64 = la) then
        let ab := bitsOf ctrl 29 24
        some (c, ⟨bitsOf ctrl 15 8, bitsOf ctrl 23 16, if 3 ≤ ab ∧ ab ≤ 47 then ab else 0,
          (s.reg (if smc then .SMC_FLIP_DATA else .PLT_FLIP_DATA) c).toNat⟩)
      else none

/-- R602: ARM clears in the act of the corrupted write. -/
def State.disarmFlip (s : State) (c : Nat) : State :=
  if kindOf c = 0x14 then s.setFlag F.SMC_FLIP_CTRL_ARM c false else s.setFlag F.PLT_FLIP_CTRL_ARM c false

/-- R602: the errors a mask leaves in word w of a line written with the given mark. -/
def FlipMask.word (f : FlipMask) (marked : Bool) (w : Nat) : WordErr :=
  if bitsOf f.words w w = 1 then ⟨marked, BitVec.ofNat 64 f.mask, BitVec.ofNat 8 f.check, f.addrBit⟩ else ⟨marked, 0, 0, 0⟩

/-- R597, R602: one whole-line write reaches the memory: the data, the mark, an armed flip mask, the valid bit. -/
def State.writeLine (s : State) (la : Nat) (bs : List Byte) (mark : Bool) : State :=
  let s := match memCell la with
    | some c => if inStack la then s.count c (evOf 0x14 1) else if inPlates la then s.count c (evOf 0x12 1) else s
    | none => s
  let (s, errs, bs) : State × LineErr × List Byte := match s.flipFor la with
    | none => (s, List.replicate 8 ({ marked := mark } : WordErr), bs)
    | some (c, f) =>
      (s.disarmFlip c, (List.range 8).map (f.word mark),
        (List.range 8).flatMap fun w =>
          let word := bs.drop (8 * w) |>.take 8
          if bitsOf f.words w w = 1 then natLe 8 (leNat word ^^^ f.mask) else word)
  { s with
    mem := Memory.setBytes s.mem (lineOf la) (bs.take 64)
    lineErr := smapSet (fun _ => LineErr.clean) s.lineErr (lineOf la) errs
    valid := smapSet (fun _ => false) s.valid (lineOf la) true }

/-- R597: the merge of a partial write: the line's bytes with `bs` from offset `off`. -/
def mergeBytes (old : List Byte) (off : Nat) (bs : List Byte) : List Byte :=
  old.take off ++ bs ++ old.drop (off + bs.length)

/-- R597: a write of at most one line, whole or partial. -/
def State.writeInLine (s : State) (a : Nat) (bs : List Byte) (mark : Bool) : State :=
  let la := lineOf a
  if bs.length = 64 then s.writeLine la bs mark
  else
    let r := s.readLine la false
    let s := s.noteRead la r
    s.writeLine la (mergeBytes r.bytes (a % 64) bs) (mark || r.poison)

/-- R569: the granule of the protected set that holds an address. -/
def granuleOf : List (Nat × Nat) → Nat → Nat → Option Nat
  | [], _, _ => none
  | (b, l) :: rs, base, a => if b ≤ a ∧ a < b + l then some ((base + (a - b)) / 65536) else granuleOf rs (base + l) a

/-- R572: copy one granule into the snapshot area, line by line, marks with it. -/
def State.copyLines (s : State) (src dst : Nat) : Nat → State
  | 0 => s
  | n + 1 =>
    let r := s.readLine src false
    ((s.noteRead src r).writeLine dst r.bytes r.poison).copyLines (src + 64) (dst + 64) n

/-- R572, R574: before a write: a PROTECTED granule of a retained epoch is copied first. Where the copy cannot be written, the
epoch ends and the write proceeds without it. -/
def State.copyOnWrite (s : State) (a : Nat) : State :=
  if !s.epoch.retained then
    (if (granuleOf s.epoch.broken 0 a).isSome then { s with epoch := { s.epoch with broken := [] } } else s)
  else match granuleOf s.epoch.regions 0 a with
    | none => s
    | some g =>
      if smapGet (fun _ => false) s.epoch.copied g then s
      else
        let dst := s.epoch.snapBase + 65536 * g
        let src := a - a % 65536
        let up := (List.range 16).all fun k =>
          s.enabled ((memCell (dst + 4096 * k)).getD 0) && s.enabled ((memCell (src + 4096 * k)).getD 0)
        if up then
          let s := s.copyLines src dst 1024
          let s := s.count ephCell (evOf 0x2D 0)
          { s with epoch := { s.epoch with copied := smapSet (fun _ => false) s.epoch.copied g true } }
        else { s with epoch := { s.epoch with retained := false, copied := [], copyFailed := true } }

/-- A write of bytes at an address, cut at line boundaries, each part under R572 and R597. `fuel` bounds the lines. -/
def State.writeMem (s : State) (a : Nat) (bs : List Byte) (mark : Bool) : (fuel : Nat) → State
  | 0 => s
  | fuel + 1 =>
    match bs with
    | [] => s
    | bs =>
      let n := 64 - a % 64
      let s := (s.copyOnWrite a).writeInLine a (bs.take n) mark
      s.writeMem (a + (bs.take n).length) (bs.drop n) mark fuel

/-- R598: bytes read from the lines they lie in, with the mark of any of them. -/
def State.readMem (s : State) (a n : Nat) : (fuel : Nat) → List Byte × Bool × State
  | 0 => ([], false, s)
  | fuel + 1 =>
    if n = 0 then ([], false, s)
    else
      let k := min n (64 - a % 64)
      let r := s.readLine (lineOf a) false
      let s := s.noteRead (lineOf a) r
      let (bs, p, s) := s.readMem (a + k) (n - k) fuel
      ((r.bytes.drop (a % 64) |>.take k) ++ bs, r.poison || p, s)

/-- R186: the ring range of a quadrant. -/
def ringRange (q : Nat) : Nat × Nat :=
  let base := 0x010000000000 + 0x10000000 * q
  (base + (if q % 2 = 0 then 0x0F000000 else 0x0F800000), base + 0x10000000)

/-- R187: the quadrant whose ring in force an extent [a, a + n) touches. -/
def State.ringTouched (s : State) (a n : Nat) : Option Nat :=
  (List.range 4).find? fun q =>
    s.flag F.PLT_RING_CTRL_EN_IN_FORCE (platesCell q) && decide (a < (ringRange q).2) && decide ((ringRange q).1 < a + n)

/-- R652: an extent touches the Dome reserve. -/
def touchesReserve (a n : Nat) : Bool := decide (a < 0x00C000000000) && decide (0x00BFE0000000 < a + n)

/-- R187, R652: an extent touches no ring in force, nor the Dome reserve unless `dome` says that a Dome core asks. -/
def State.extentFree (s : State) (dome : Bool) (a n : Nat) : Bool := (s.ringTouched a n).isNone && (dome || !touchesReserve a n)

/-- R187, R652: an access to a ring in force, or under `reserved` to the Dome reserve, has no effect: the state with ACCESS
recorded in the Plates cell of the quadrant or in the device cell. -/
def State.refusedRange (s : State) (reserved : Bool) (a n : Nat) : Option State :=
  match s.ringTouched a n with
  | some q => some ((s.count (platesCell q) (evOf 0x12 3)).recordError (platesCell q) clsAccess a 0)
  | none => if reserved && touchesReserve a n then some (s.recordError 0 clsAccess a 0) else none

/-- Whether an extent lies wholly in stack memory or wholly in the Plates (R67). -/
def extentMapped (a n : Nat) : Bool :=
  if n = 0 then inStack a || inPlates a
  else (inStack a && inStack (a + n - 1)) || (inPlates a && inPlates (a + n - 1))

/-- Whether an extent lies wholly in stack memory or wholly in one quadrant's Plates (R207). -/
def extentOneQuad (a n : Nat) : Bool :=
  extentMapped a n && (inStack a || platesQuad a == platesQuad (a + (n - 1)))

/-- Whether every memory cell that holds a byte of the extent is ENABLED; a granule of 4 KiB lies on one cell. -/
def State.memUp (s : State) (a n : Nat) : Bool :=
  (List.range ((4095 + (n + a % 4096)) / 4096)).all fun k =>
    match memCell (a - a % 4096 + 4096 * k) with
    | some c => s.enabled c
    | none => false

/-- The outcome of an agent's access to memory. -/
inductive MemRes where
  | ok (bytes : List Byte) (poison : Bool)
  | unmapped
  | ring
  | down
  deriving DecidableEq, Repr

/-- A read of n bytes of Plates or stack memory by an agent (R69, R187, R229): where none of it is mapped, where it touches a
ring in force (under `reserved`, the Dome reserve of R652), where a memory cell is not ENABLED; else the data and the mark. -/
def State.load (s : State) (a n : Nat) (reserved : Bool := false) : MemRes × State :=
  if !extentMapped a n then (.unmapped, s)
  else match s.refusedRange reserved a n with
    | some s => (.ring, s)
    | none =>
      if !s.memUp a n then (.down, s)
      else
        let (bs, p, s) := s.readMem a n (n / 64 + 2)
        (.ok bs p, s)

/-- A write by an agent, under the same conditions. -/
def State.store (s : State) (a : Nat) (bs : List Byte) (mark : Bool) (reserved : Bool := false) : MemRes × State :=
  if !extentMapped a bs.length then (.unmapped, s)
  else match s.refusedRange reserved a bs.length with
    | some s => (.ring, s)
    | none => if !s.memUp a bs.length then (.down, s) else (.ok [] false, s.writeMem a bs mark (bs.length / 64 + 2))

/-- R600: clear the valid bits, and with them the contents, of the lines in [a, b). -/
def State.clearMem (s : State) (a b : Nat) : State :=
  { s with
    mem := s.mem.filter fun p => decide (lineOf p.1 < a ∨ b ≤ lineOf p.1)
    lineErr := s.lineErr.filter fun p => decide (p.1 < a ∨ b ≤ p.1)
    valid := s.valid.filter fun p => decide (p.1 < a ∨ b ≤ p.1) }

/-! ## XQ cores -/

/-- The state of a core. -/
def State.core (s : State) (c : CoreRef) : CoreState := smapGet (fun _ => {}) s.cores c.cell

/-- The state with a core replaced. -/
def State.setCore (s : State) (c : CoreRef) (k : CoreState) : State :=
  { s with cores := smapSet (fun _ => {}) s.cores c.cell k }

/-- The state with one core changed by f. -/
def State.mapCore (s : State) (c : CoreRef) (f : CoreState → CoreState) : State := s.setCore c (f (s.core c))

/-- A general register (R219). -/
def CoreState.get (k : CoreState) (r : Fin 32) : Word := smapGet (fun _ => 0) k.g r.val

/-- Write a general register. -/
def CoreState.set (k : CoreState) (r : Fin 32) (v : Word) : CoreState := { k with g := smapSet (fun _ => 0) k.g r.val v }

end Sys2Proof.Machine
end

