-- ==== Sys2Proof/Machine/Rings.lean ====
section
/-! DEFINITION. What the rings of the queues share: the place of an entry, indices modulo 65,536, the bit set after an entry,
and a read or write of a structure in device memory by the part. -/

namespace Sys2Proof.Machine

open Sys2Proof

/-- The address of entry `idx` of a ring of 2^log2 entries of `size` bytes. -/
def ringAt (base log2 size idx : Nat) : Nat := base + size * (idx % 2 ^ log2)

/-- The number of entries from one index to another, modulo 65,536. -/
def ringDist (head tail : Nat) : Nat := (tail + 65536 - head % 65536) % 65536

/-- R652: the keys of what a Dome core may have issued through a ring: a Filter queue, a transmit ring, the job of Ephemeris. -/
def filterKey (q : Nat) : Nat := q
def txrKey (r : Nat) : Nat := 0x1000 + r
def jobKey : Nat := 0x2000

/-- R652: a Dome core posted entry `idx`. -/
def State.domePosted (s : State) (key idx : Nat) : Bool := (smapGet (fun _ => []) s.dom.posted key).contains idx

def State.setPosted (s : State) (key : Nat) (l : List Nat) : State :=
  { s with dom := { s.dom with posted := smapSet (fun _ => []) s.dom.posted key l } }

/-- R652: TAIL moves from one index to another by a write of a Dome core, or of another agent. -/
def State.postEntries (s : State) (key : Nat) (dome : Bool) (old new : Nat) : State :=
  let n := ringDist old new
  let kept := (smapGet (fun _ => []) s.dom.posted key).filter fun e => decide (n ≤ ringDist old e)
  s.setPosted key (if dome then kept ++ (List.range n).map fun k => (old + k) % 65536 else kept)

/-- The phase that follows entry `idx`: it changes at the end of each pass through the ring. -/
def nextPhase (log2 idx : Nat) (phase : Bool) : Bool := if (idx + 1) % 2 ^ log2 = 0 then !phase else phase

/-- R245: a bit address of the global cluster or Dome shared bits. -/
def sharedNotifiable (b : Nat) : Bool :=
  decide (0x20000000 ≤ b ∧ b ≤ 0x20FFFFFF) || decide (0x21000000 ≤ b ∧ b ≤ 0x210FFFFF)

/-- Set the NOTIFY_BIT of a queue; 0xFFFFFFFF is none. -/
def State.notifyBit (s : State) (b : Nat) : State :=
  if b = 0xFFFFFFFF then s else if sharedNotifiable b then s.putBit b true else s

/-- A read by the part of n bytes of device memory: the bytes and their mark; none where it is refused. -/
def State.devRead (s : State) (a n : Nat) : Option (List Byte × Bool) × State :=
  let r := s.load a n
  match r.1 with
  | .ok bs p => (some (bs, p), r.2)
  | _ => (none, r.2)

/-- A write by the part of bytes to device memory; whether it took effect. -/
def State.devWrite (s : State) (a : Nat) (bs : List Byte) (mark : Bool := false) : Bool × State :=
  let r := s.store a bs mark
  match r.1 with
  | .ok _ _ => (true, r.2)
  | _ => (false, r.2)

end Sys2Proof.Machine
end

