-- ==== Sys2Proof/Machine/DeviceBits.lean ====
section
/-! DEFINITION. The device bits (R248 to R250, and the tables of the unit chapters), the conditions they show, and what a change of a
LEVEL bit means to a core asleep on it (R251). -/

namespace Sys2Proof.Machine

open Sys2Proof

/-! ## The conditions -/

/-- R127: an operation or an issued DARK occupies the array. -/
def State.primBusy (s : State) : Bool := match s.prim.op with
  | some op => op.occupies
  | none => false

def State.mover (s : State) (m : Nat) : MoverState := smapGet (fun _ => {}) s.movers m

/-- R345, R346: the cells of a run of so many bytes. -/
def intakeCells (bytes : Nat) : Nat := (bytes + 255) / 256
def ColRun.bytes (r : ColRun) : Nat := 16 + r.elems.length * (((Fmt.ofCode r.fmt).getD .fp32).width / 8)

/-- R346: the intake cells of runs not yet freed, together with those reserved by grants. -/
def State.intakeUsed (s : State) : Nat :=
  (s.col.intake.map fun r => max r.cells (intakeCells r.bytes)).sum + (s.col.granted.map Prod.snd).sum

/-- R345: CREDIT_HELD. -/
def State.creditHeld (s : State) : Bool := decide (16384 ≤ s.intakeUsed)

/-- The length of a frame through its FCS. -/
def ShtFrame.len (f : ShtFrame) : Nat := f.bytes.length + 4
def ShtFrame.cells (f : ShtFrame) : Nat := (f.len + 255) / 256

/-- `SHT_STATUS`.FREE_CELLS as it reads. -/
def State.freeCells (s : State) : Nat :=
  let used := ((s.sht.queues ++ s.sht.relays).map fun p => (p.2.map ShtFrame.cells).sum).sum
  131072 - used
def State.shtReserve (s : State) : Nat := min 131072 (s.fld F.SHT_BUF_RESERVE shtCell)

/-- R423: on-chip contexts, and the spill contexts of `SPG_FLOW_CFG`. -/
def onchipFlows : Nat := 131072
def State.spillFlows (s : State) : Nat :=
  let n := s.fld F.SPG_FLOW_CFG_SPILL_LOG2 spgCell
  if 10 ≤ n ∧ n ≤ 22 then 2 ^ n else 0
def State.flowsIn (s : State) (lo hi : Nat) : List Nat :=
  (s.spg.flows.map Prod.fst).filter fun k => decide (lo ≤ k) && decide (k < hi)
def State.onchipUsed (s : State) : Nat := (s.flowsIn 0 onchipFlows).length
def State.spillUsed (s : State) : Nat := (s.flowsIn onchipFlows (onchipFlows + 2 ^ 22)).length

/-- `SPG_FLOW_STATUS`.SPILL_FULL. -/
def State.spillFull (s : State) : Bool :=
  if s.spillFlows = 0 then decide (onchipFlows ≤ s.onchipUsed) else decide (s.spillFlows ≤ s.spillUsed)

/-- R462: the tags in use: operations of send queues, their waiting completions, and the commands of the Catalogue with the completion
entries that wait to be written. -/
def State.trnTags (s : State) : Nat :=
  ((s.trn.conns.map fun p => (p.2.ops.filter fun o => match o.origin with
    | .sq _ _ _ _ => true
    | .unit 1 _ _ => true
    | _ => false).length).sum) + ((s.trn.cqs.map fun p => (p.2.filter TrnEntry.tag).length).sum)
def State.catTags (s : State) : Nat :=
  (s.cat.queues.map fun p => p.2.cmds.length).sum
    + (s.pci.ops.filter fun o => match o.purpose with
        | .catRecord _ => true
        | _ => false).length
    + (s.trn.conns.map fun p => (p.2.ops.filter fun o => match o.origin with
        | .unit 0 q b => decide (q < 0x10000) && b % 4 == 3
        | _ => false).length).sum
def State.tagFree (s : State) : Bool := decide (s.trnTags + s.catTags < 65536)

def State.pciFn (s : State) (port fn : Nat) : PciFn := smapGet (fun _ => {}) s.pci.fns (port * 512 + fn)
def State.fnBme (s : State) (port fn : Nat) : Bool := s.flag F.PCI_FNf_STATUS_BME (upCell port) fn

def State.catQueue (s : State) (q : Nat) : CatQueue := smapGet (fun _ => {}) s.cat.queues q

/-- R459: the owner of a queue; an internal queue is a DEVICE queue. -/
def State.catOwner (s : State) (q : Nat) : Nat := if 4096 ≤ q then 0 else s.fld F.CAT_Qq_CFG_OWNER catCell q

/-- R55, R476: a queue's state: FAULT of R507; EN, and whether a quiesce or reset is in progress. -/
def State.catEn (s : State) (q : Nat) : Bool := s.flag F.CAT_Qq_CTRL_EN catCell q
def State.catBusy (s : State) (q : Nat) : Bool := s.flag F.CAT_Qq_STATE_QUIESCE_BUSY catCell q
def State.catResetting (s : State) (q : Nat) : Bool := s.flag F.CAT_Qq_STATE_RESETTING catCell q
def State.catQState (s : State) (q : Nat) : Nat :=
  if (s.catQueue q).fault then 4
  else if !s.catEn q then (if s.catBusy q then 1 else 0)
  else if !s.catBusy q && s.enabled catCell then 3 else 2

/-- R663: a queue of FN 0 of a port whose host is absent takes no entry. -/
def State.catAbsent (s : State) (q : Nat) : Bool :=
  s.catOwner q == 1 && s.fld F.CAT_Qq_OWNER_FN catCell q == 0
    && s.flag F.DOM_HOST_STATE_ABSENT domeSub (s.fld F.CAT_Qq_OWNER_PORT catCell q)

/-- R462: a queue would take its next entry, but for a tag. -/
def State.catWants (s : State) (q : Nat) : Bool :=
  !s.catAbsent q &&
  let log2 := s.fld F.CAT_Qq_CFG_SIZE_LOG2 catCell q
  let x := s.catQueue q
  s.catQState q == 3 && decide (6 ≤ log2) && decide (log2 ≤ 16) && s.catOwner q != 3
    && s.fld F.CAT_Qq_PTR_SQ_HEAD catCell q != s.fld F.CAT_Qq_PTR_SQ_TAIL catCell q && !x.reading
    && decide (x.cmds.length + ringDist (s.fld F.CAT_Qq_PTR_CQ_HEAD catCell q) (s.fld F.CAT_Qq_PTR_CQ_TAIL catCell q) < 2 ^ log2)
    && (s.catOwner q != 1 || (x.records == 0
        && s.fnBme (s.fld F.CAT_Qq_OWNER_PORT catCell q) (s.fld F.CAT_Qq_OWNER_FN catCell q)))

/-- The queues whose register `r` holds 1 in a bit. -/
def State.catQueuesWith (s : State) (r : RegId) (bit : Nat) : List Nat :=
  let base := regAddr r catCell 0
  s.regs.filterMap fun p =>
    if base ≤ p.1 ∧ p.1 < base + 0x40000 ∧ (p.1 - base) % 64 = 0 ∧ p.2.toNat / 2 ^ bit % 2 = 1 then some ((p.1 - base) / 64) else none

/-- Queues whose EN is 1; queues in a quiesce or reset. -/
def State.catEnQueues (s : State) : List Nat := s.catQueuesWith .CAT_Qq_CTRL 0
def State.catBusyQueues (s : State) : List Nat := s.catQueuesWith .CAT_Qq_STATE 3

/-- R462: of the queues with entries to take, queue q is the next after the one served last. -/
def State.catTurn (s : State) (q : Nat) : Bool :=
  let d := fun k => (k + 4096 - (s.cat.turn + 1)) % 4096
  (s.catEnQueues.filter fun k => s.catWants k).all fun k => decide (d q ≤ d k)

/-- R484: a queue waits for a tag; a WRITE waits for room. -/
def State.catTagWait (s : State) : Bool := !s.tagFree && s.catEnQueues.any fun q => s.catWants q
def State.catStoreFull (s : State) : Bool := s.cat.queues.any fun p => p.2.cmds.any fun c => c.waitRoom.isSome

/-- R391: a send queue has an entry and waits for a tag. -/
def State.trnTagWait (s : State) : Bool :=
  !s.tagFree && (s.enabled trnCell || s.flag F.CELL_STATE_QUIESCE_BUSY trnCell)
    && s.regs.any fun p =>
      let d := p.1 - regAddr .TRN_SQq_CFG trnCell 0
      let log2 := s.fld F.TRN_SQq_CFG_SIZE_LOG2 trnCell (d / 0x20)
      decide (regAddr .TRN_SQq_CFG trnCell 0 ≤ p.1 ∧ d < 0x20000) && d % 0x20 == 0 && p.2.toNat % 2 == 1
        && decide (6 ≤ log2) && decide (log2 ≤ 16)
        && s.fld F.TRN_SQq_PTR_HEAD trnCell (d / 0x20) != s.fld F.TRN_SQq_PTR_TAIL trnCell (d / 0x20)

/-- R486: member j + 1 of the PCI Express ports has link. -/
def State.pcieUp (s : State) (j : Nat) : Bool :=
  if j < 2 then s.flag F.PCI_UP_STATUS_LINK_UP (upCell j)
  else bitsOf (smapGet (fun _ => 0) (s.pciFn j 0).cfg 0x70).toNat 29 29 == 1

/-! ## The bits -/

/-- R248, R250: the value of a LEVEL device bit; none where the address names no LEVEL bit. -/
def State.levelBit (s : State) (b : Nat) : Option Bool :=
  if b = 0x40010000 then some (decide (s.prim.queue.length < 64))
  else if b = 0x40010001 then some (s.prim.queue.isEmpty && !s.primBusy)
  else if b = 0x40010002 then some (s.flag F.PRIM_ACC_STATUS_RETAINED qnwCell)
  else if 0x40010100 ≤ b ∧ b < 0x40010140 then some (decide ((s.mover (b - 0x40010100)).queue.length < 32))
  else if 0x40010140 ≤ b ∧ b < 0x40010180 then
    let m := s.mover (b - 0x40010140)
    some (m.queue.isEmpty && m.run.isNone)
  else if 0x40010200 ≤ b ∧ b < 0x40010208 then
    let c := ethCell (b - 0x40010200)
    some (s.flag F.ETH_STATUS_LINK0 c || s.flag F.ETH_STATUS_LINK1 c)
  else if 0x40010208 ≤ b ∧ b < 0x40010222 then some (s.pcieUp (b - 0x40010208))
  else if b = 0x40023001 then some (decide (0 < s.spillUsed))
  else if b = 0x40023002 then some s.spillFull
  else if b = 0x40024000 then some (decide (s.freeCells ≤ s.shtReserve))
  else if b = 0x40025002 then some s.trnTagWait
  else if 0x40026400 ≤ b ∧ b < 0x40026800 then some (s.fld F.COL_SLOTn_STATE_STATE colCell (b - 0x40026400) == 2)
  else if b = 0x40026800 then some s.creditHeld
  else if b = 0x40027000 then some s.catStoreFull
  else if b = 0x40027002 then some s.catTagWait
  else if b = 0x4002A002 then some s.epoch.retained
  else if b = 0x4002A003 then some s.eph.drain.isSome
  else if b = 0x4002C002 then some (s.flag F.CHR_STATUS_SAFE chrCell)
  else if b = 0x4002D001 then some (s.flag F.HEL_STATUS_SENSOR_DISAGREE helCell)
  else if b = 0x4002D002 then some s.hel.trip
  else if b = 0x4002D003 then some s.hel.accord.isSome
  else none

/-- The addresses of the EVENT device bits beside the error events: a first address and how many. -/
def eventRanges : List (Nat × Nat) :=
  [(0x40010300, 1), (0x40021000, 26), (0x40021020, 24), (0x40021040, 24), (0x40021060, 24), (0x40021080, 2), (0x40021082, 2),
    (0x40022000, 8), (0x40023000, 1), (0x40025000, 2), (0x40026000, 1024), (0x40027001, 1), (0x40028000, 1), (0x40029000, 1),
    (0x4002A000, 2), (0x4002B000, 10), (0x4002C000, 2), (0x4002D000, 1), (0x4002E000, 1)]

/-- R248, R250: whether an address names an EVENT device bit. -/
def eventBit (b : Nat) : Bool :=
  (decide (0x40000000 ≤ b ∧ b < 0x40010000) && (cellKind (b - 0x40000000)).isSome)
    || eventRanges.any fun r => decide (r.1 ≤ b ∧ b < r.1 + r.2)

/-- R245: where a bit lies. -/
inductive BitPlace where
  | stored (key : Nat)
  | event (b : Nat)
  | level (b : Nat)
  deriving DecidableEq, Repr

/-- The key of a bit's value. -/
def BitPlace.key : BitPlace → Nat
  | .stored k => k
  | .event b => b
  | .level b => b

/-- R245, R248 to R250: a device bit. -/
def State.deviceBit (s : State) (b : Nat) : Option BitPlace :=
  if (s.levelBit b).isSome then some (.level b) else if eventBit b then some (.event b) else none

/-- R245: the first global address of the shared bits that a core's local addresses name. -/
def CoreRef.sharedBase (c : CoreRef) : Nat :=
  match c with
  | .guider n => 0x20000000 + 0x100000 * (n.val / 8)
  | _ => 0x21000000

/-- R245, R266: the bit a bit address names in a core's bit space. -/
def State.bitPlace (s : State) (c : CoreRef) (b : Nat) : Option BitPlace :=
  match c with
  | .filter _ => if b ≤ 0xFFF then some (.stored (privateKey c.cell b)) else none
  | _ =>
    if b ≤ 0xFFFF then some (.stored (privateKey c.cell b))
    else if 0x100000 ≤ b ∧ b ≤ 0x1FFFFF then some (.stored (c.sharedBase + (b - 0x100000)))
    else if 0x20000000 ≤ b ∧ b ≤ 0x210FFFFF then some (.stored b)
    else if 0x40000000 ≤ b ∧ b ≤ 0x4002FFFF then s.deviceBit b
    else none

/-- R252: a value of `bww` enables a watch that names no bit; each write that leaves it so records ACCESS (log 70). -/
def State.badWatch (s : State) (c : CoreRef) (n : Nat) (v : Word) : Bool :=
  decide (0x48 ≤ n) && decide (n ≤ 0x4B) && v.getLsbD 33 && (s.bitPlace c (v.toNat % 2 ^ 32)).isNone

/-- R251: note the LEVEL bits, for the cores asleep on one. -/
def State.noteLevels (s : State) : State :=
  { s with cores := s.cores.map fun p =>
      match p.2.asleep with
      | some w => match s.levelBit w.bit with
        | some v => if v ≠ w.value then (p.1, { p.2 with asleep := some { w with left := true } }) else p
        | none => p
      | none => p }

end Sys2Proof.Machine
end

