-- ==== Sys2Proof/Machine/Clusters.lean ====
section
/-! DEFINITION. Work dispatch of the guider clusters: the queues, the choice of a target, the inboxes and GCL_POST (R308 to
R316). -/

namespace Sys2Proof.Machine

open Sys2Proof

/-- R309: the queue of a cluster, head first. -/
def State.clusterQueue (s : State) (c : Nat) : List WorkItem := smapGet (fun _ => []) s.clusters c

def State.setClusterQueue (s : State) (c : Nat) (q : List WorkItem) : State :=
  { s with clusters := smapSet (fun _ => []) s.clusters c q }

/-- R308: the SOURCE, PROGRAM and KEY of an item. -/
def itemSource (w : WorkItem) : Nat := wfield w 0 3 0
def itemProgram (w : WorkItem) : Nat := wfield w 0 15 8
def itemKey (w : WorkItem) : Nat := wfield w 1 31 0

/-- R308: build an item. -/
def mkItem (source program key arrival : Nat) (args : List Word32) : WorkItem :=
  buildWords 4 [(0, 3, 0, source), (0, 7, 4, 1), (0, 15, 8, program), (1, 31, 0, key), (2, 31, 0, arrival),
    (3, 31, 0, arrival / 2 ^ 32)] ++ (args ++ List.replicate 12 0).take 12

/-- R309: an item from a source enters a cluster queue, or is refused; the answer says which. -/
def State.postItem (s : State) (c source program key : Nat) (args : List Word32) : Bool × State :=
  let cell := clusterCell c
  let q := s.clusterQueue c
  if decide (1024 ≤ q.length) || !s.flag F.GCL_PROGp_VALID cell program || s.fld F.GCL_PROGp_STEER cell program == 3
      || !s.enabled cell then
    (false, s.count cell (evOf 0x17 1) (some source))
  else
    (true, (s.setClusterQueue c (q ++ [mkItem source program key s.now args])).count cell (evOf 0x17 0) (some source))

/-- R311: the key of the FULL bit of a slot of core n. -/
def fullBit (n slot : Nat) : Nat := privateKey (guiderCell n) (0xFF00 + slot)

/-- R311: the slots of core n that are used. -/
def State.slotsUsed (s : State) (n : Nat) : Nat := ((List.range 16).filter fun k => s.bitAt (fullBit n k)).length

/-- R310: the list L of a cluster. -/
def State.dispatchList (s : State) (c : Nat) : List Nat :=
  (List.range 8).filter fun n => bitsOf (s.fld F.GCL_DISPATCH_EN_CORE_EN (clusterCell c)) n n == 1

/-- R310: core n of a cluster can take an item: its cell is ENABLED and it has a free slot. -/
def State.canTake (s : State) (c n : Nat) : Bool :=
  s.enabled (guiderCell (8 * c + n)) && decide (s.slotsUsed (8 * c + n) < 16)

/-- The element of a list with the least key, the first of equals. -/
def minBy (f : Nat → Nat) : List Nat → Option Nat
  | [] => none
  | x :: xs => match minBy f xs with
    | none => some x
    | some y => if f y < f x then some y else some x

/-- R310: the target of an item. -/
def State.dispatchTarget (s : State) (c : Nat) (w : WorkItem) : Option Nat :=
  let cell := clusterCell c
  let l := s.dispatchList c
  let p := itemProgram w
  let pick := match s.fld F.GCL_PROGp_STEER cell p with
    | 0 => minBy (fun n => s.slotsUsed (8 * c + n)) (l.filter (s.canTake c))
    | 1 => l[itemKey w % l.length]?
    | 2 => if l.isEmpty then none else some (s.fld F.GCL_PROGp_CORE cell p)
    | _ => none
  pick.filter fun n => s.canTake c n
    && !s.bitAt (fullBit (8 * c + n) (s.fld F.GDR_INBOX_NEXT_SLOT (guiderCell (8 * c + n))))

/-- R310: delivery is allowed: the cluster cell is ENABLED and PAUSE is 0. -/
def State.dispatching (s : State) (c : Nat) : Bool :=
  s.enabled (clusterCell c) && !s.flag F.GCL_QUEUE_CTRL_PAUSE (clusterCell c)

/-- R310 to R312: deliver the head item. -/
def State.deliver (s : State) (c : Nat) : State :=
  match s.clusterQueue c with
  | [] => s
  | w :: q =>
    if !s.dispatching c then s
    else match s.dispatchTarget c w with
      | none => s
      | some n =>
        let core := 8 * c + n
        let cell := guiderCell core
        let slot := s.fld F.GDR_INBOX_NEXT_SLOT cell
        let s := s.writeMem (localBase cell + 0x3FC00 + 64 * slot) (bytesOf w) false 2
        let s := s.setFld F.GDR_INBOX_NEXT_SLOT cell (slot + 1)
        ((s.putBit (fullBit core slot) true).setClusterQueue c q).count (clusterCell c) (evOf 0x17 2)

/-- R309, R316: discard every queued item, counting each as refused. -/
def State.flushCluster (s : State) (c : Nat) : State :=
  let s' := (s.clusterQueue c).foldl (fun s w => s.count (clusterCell c) (evOf 0x17 1) (some (itemSource w))) s
  s'.setClusterQueue c []

/-- R316: a reset of core n discards the items of its inbox and returns NEXT_SLOT to 0; the FULL bits go with the private bits. -/
def State.dropInbox (s : State) (n : Nat) : State :=
  let cell := guiderCell n
  let s := (List.range 16).foldl (fun s k =>
    if s.bitAt (fullBit n k) then
      s.count (clusterCell (n / 8)) (evOf 0x17 1) (some ((s.byte (localBase cell + 0x3FC00 + 64 * k)).toNat % 16))
    else s) s
  s.setFld F.GDR_INBOX_NEXT_SLOT cell 0

/-- The class a failed memory access records (log 14). -/
def memClass : MemRes → Nat
  | .ok _ true => clsPoison
  | _ => clsAccess

/-- R314: post the item image at a device address. -/
def State.gclPostImage (s : State) (c image : Nat) : State :=
  let cell := clusterCell c
  let r := s.load image 64
  match r.1 with
  | .ok bs false =>
    let w := wordsOf 16 bs
    let p := r.2.postItem c 5 (itemProgram w) (itemKey w) (w.drop 4)
    p.2.setFld F.GCL_POST_RESULT_RESULT cell (if p.1 then 1 else 2)
  | e => (r.2.recordError cell (memClass e) image 0).setFld F.GCL_POST_RESULT_RESULT cell 3

/-- The value `GCL_QUEUE_STATUS` reads. -/
def State.gclStatus (s : State) (c : Nat) : Nat :=
  let q := s.clusterQueue c
  let wait := match q with
    | [] => false
    | w :: _ => s.dispatching c && (s.dispatchTarget c w).isNone
  q.length + 2 ^ 11 * q.isEmpty.toNat + 2 ^ 12 * (decide (q.length = 1024)).toNat
    + 2 ^ 13 * (s.flag F.GCL_QUEUE_CTRL_PAUSE (clusterCell c)).toNat + 2 ^ 14 * wait.toNat

/-- The cluster number of a cluster cell. -/
def clusterOf (cell : Nat) : Nat := (cellDie cell - 2) * 4 + cellSlot cell - 5

/-- The number of a guider core cell. -/
def guiderOf (cell : Nat) : Nat := 8 * clusterOf (cell - cellMember cell) + cellMember cell - 1

def execDispatchDeliver (cluster : Fin 16) (s : State) : Out := .next (s.deliver cluster.val)

end Sys2Proof.Machine
end

