-- ==== Sys2Proof/Machine/Frames.lean ====
section
/-! DEFINITION. What the part reads in a frame (R404, R409 to R414, R422) and the checksums it uses. A frame is its bytes from the
destination address up to, and without, the FCS. -/

namespace Sys2Proof.Machine

open Sys2Proof

/-- A big-endian number of bytes. -/
def beNat (bs : List Byte) : Nat := bs.foldl (fun n b => n * 256 + b.toNat) 0

/-- The low n bytes of a number, the most significant first. -/
def natBe (n v : Nat) : List Byte := (natLe n v).reverse

/-- n bytes at an offset, big-endian. -/
def beAt (bs : List Byte) (o n : Nat) : Nat := beNat (bs.drop o |>.take n)

/-- One step of a reflected CRC. -/
def crcStep (poly : Nat) (c : Nat) : Nat := if c % 2 = 1 then c / 2 ^^^ poly else c / 2

/-- CRC-32C (Castagnoli) of bytes. -/
def crc32c (bs : List Byte) : Nat :=
  (bs.foldl (fun c b => (List.range 8).foldl (fun c _ => crcStep 0x82F63B78 c) (c ^^^ b.toNat)) 0xFFFFFFFF) ^^^ 0xFFFFFFFF

/-- The one's complement sum of 16-bit words, folded; an odd byte is padded with 0. -/
def onesSum : List Byte → Nat → Nat
  | [], a => a
  | [b], a => (a + b.toNat * 256) % 65535 + (if (a + b.toNat * 256) ≠ 0 ∧ (a + b.toNat * 256) % 65535 = 0 then 65535 else 0)
  | b :: c :: bs, a =>
    let t := a + b.toNat * 256 + c.toNat
    onesSum bs (if t ≠ 0 ∧ t % 65535 = 0 then 65535 else t % 65535)

/-- The Internet checksum of bytes. -/
def inetSum (bs : List Byte) : Nat := 65535 - onesSum bs 0

/-- What parsing has found. -/
structure Parse where
  fail : Bool := false
  l3 : Option Nat := none
  l4 : Option Nat := none
  tun : Option Nat := none
  il2 : Nat := 0
  il3 : Option Nat := none
  il4 : Option Nat := none
  pay : Option Nat := none
  frag : Bool := false
  depth : Nat := 0
  /-- 0 non-IP; 1 IPv4; 2 IPv6, of the innermost layer. -/
  pclass : Nat := 0
  proto : Nat := 0
  vni : Nat := 0
  /-- The protocol of the outer layer. -/
  outerProto : Nat := 0
  deriving DecidableEq, Repr

/-- R409, R412, `SPG_PARSE`: the configurable values of parsing. -/
structure ParseCfg where
  vxlan : Nat
  geneve : Nat
  tpid : Nat
  deriving DecidableEq, Repr

def ParseCfg.isTag (c : ParseCfg) (t : Nat) : Bool := t == 0x8100 || t == 0x88A8 || t == c.tpid

/-- R409, R410: step over tags from the EtherType at o: the EtherType reached, the offset after it and the depth; none where the
frame ends or a ninth step is needed. `free` tags need no walker step. -/
def skipTags (c : ParseCfg) (bs : List Byte) (o free depth : Nat) : (fuel : Nat) → Option (Nat × Nat × Nat)
  | 0 => none
  | fuel + 1 =>
    if bs.length < o + 2 then none
    else
      let t := beAt bs o 2
      if !c.isTag t then some (t, o + 2, depth)
      else if bs.length < o + 4 then none
      else if 0 < free then skipTags c bs (o + 4) (free - 1) depth fuel
      else if 8 ≤ depth then none
      else skipTags c bs (o + 4) 0 (depth + 1) fuel

/-- An IP header: whether it fails, its class, protocol, the offset after it, and whether it is a fragment. -/
structure IpHead where
  fail : Bool
  cls : Nat := 0
  proto : Nat := 0
  next : Nat := 0
  frag : Bool := false

/-- R409, R411, R412: IPv4. -/
def parseIpv4 (bs : List Byte) (o : Nat) : IpHead :=
  let h := bs.drop o |>.take 20
  if h.length < 20 ∨ beAt h 0 1 ≠ 0x45 ∨ inetSum h ≠ 0 ∨ bs.length - o < beAt h 2 2 then { fail := true }
  else
    { fail := false, cls := 1, proto := beAt h 9 1, next := o + 20, frag := beAt h 6 2 % 0x4000 != 0 }

/-- R412: the Next Header values that fail. -/
def badNext (n : Nat) : Bool := [0, 43, 51, 60, 135, 139, 140].contains n

/-- R409, R411, R412: IPv6, with at most one Fragment header. -/
def parseIpv6 (bs : List Byte) (o : Nat) : IpHead :=
  let h := bs.drop o |>.take 40
  let nh := beAt h 6 1
  if h.length < 40 ∨ beAt h 0 1 / 16 ≠ 6 ∨ bs.length - (o + 40) < beAt h 4 2 ∨ badNext nh then { fail := true }
  else if nh ≠ 44 then { fail := false, cls := 2, proto := nh, next := o + 40 }
  else
    let f := beAt bs (o + 40) 1
    if bs.length < o + 48 ∨ badNext f ∨ f = 44 then { fail := true }
    else { fail := false, cls := 2, proto := f, next := o + 48, frag := true }

/-- R409 to R413: one IP layer whose EtherType has been read, with what follows it. `outer` says that no tunnel has been entered. -/
def parseLayer (c : ParseCfg) (bs : List Byte) (p : Parse) (outer : Bool) (et o : Nat) : (fuel : Nat) → Parse
  | 0 => { p with fail := true }
  | fuel + 1 =>
    if et ≠ 0x0800 ∧ et ≠ 0x86DD then { p with pclass := 0, proto := 0, il3 := none, il4 := none, pay := some o }
    else
      let p := { p with l3 := if outer then some o else p.l3, il3 := some o }
      let h := if et = 0x0800 then parseIpv4 bs o else parseIpv6 bs o
      if h.fail then { p with fail := true }
      else
        let p := { p with pclass := h.cls, proto := h.proto }
        let p := if outer then { p with outerProto := h.proto } else p
        if h.frag then { p with frag := true, l4 := none, tun := none, il4 := none, pay := none }
        else
          let o4 := h.next
          let p := { p with l4 := if outer then some o4 else p.l4, il4 := some o4 }
          if h.proto = 6 then
            let d := beAt bs (o4 + 12) 1 / 16 * 4
            if bs.length < o4 + 20 ∨ d < 20 ∨ bs.length < o4 + d then { p with fail := true }
            else { p with pay := some (o4 + d) }
          else if h.proto = 17 then
            if bs.length < o4 + 8 then { p with fail := true }
            else
              let port := beAt bs (o4 + 2) 2
              let vx := c.vxlan != 0 && port == c.vxlan
              let gn := !vx && c.geneve != 0 && port == c.geneve
              if !vx && !gn then { p with pay := some (o4 + 8) }
              else
                let t := o4 + 8
                let bad := if vx then beAt bs t 1 / 8 % 2 == 0 else beAt bs t 1 % 64 != 0 || beAt bs (t + 2) 2 != 0x6558
                if 8 ≤ p.depth ∨ bs.length < t + 8 ∨ bad then { p with fail := true }
                else
                  let p := { p with depth := p.depth + 1, tun := some (p.tun.getD t), vni := if p.tun.isNone then beAt bs (t + 4) 3 else p.vni,
                                    il2 := t + 8, il3 := none, il4 := none }
                  match skipTags c bs (t + 20) 0 p.depth 10 with
                  | none => { p with fail := true }
                  | some (et, o, d) => parseLayer c bs { p with depth := d } false et o fuel
          else { p with pay := some o4 }

/-- R409 to R413: parse a frame. -/
def parseFrame (c : ParseCfg) (bs : List Byte) : Parse :=
  match skipTags c bs 12 2 0 16 with
  | none => { fail := true }
  | some (et, o, d) => parseLayer c bs { depth := d } true et o 10

/-- R404, R447: the PCP of the outermost tag. -/
def framePcp (c : ParseCfg) (bs : List Byte) : Option Nat :=
  if bs.length < 16 ∨ !c.isTag (beAt bs 12 2) then none else some (beAt bs 14 1 / 32)

/-- R422: the addresses of an IP header, each in 16 bytes. -/
def ipAddrs (bs : List Byte) (cls o : Nat) : List Byte :=
  if cls = 1 then padBytes 16 (bs.drop (o + 12) |>.take 4) ++ padBytes 16 (bs.drop (o + 16) |>.take 4)
  else bs.drop (o + 8) |>.take 32

/-- R422: the source and destination ports of a TCP or UDP header. -/
def l4Ports (bs : List Byte) (proto : Nat) (o : Option Nat) : List Byte :=
  match o with
  | some o => if proto = 6 ∨ proto = 17 then padBytes 4 (bs.drop o |>.take 4) else [0, 0, 0, 0]
  | none => [0, 0, 0, 0]

/-- R422: the flow key; none for a non-IP frame. -/
def flowKey (bs : List Byte) (p : Parse) : Option (List Byte) :=
  if p.fail ∨ p.pclass = 0 then none
  else p.il3.map fun o =>
    ipAddrs bs p.pclass o ++ l4Ports bs p.proto p.il4 ++ natBe 1 p.proto ++ natBe 3 p.vni

/-- R404: the DSCP of an untagged IP frame, by its EtherType alone. -/
def frameDscp (bs : List Byte) : Option Nat :=
  if beAt bs 12 2 = 0x0800 then some (beAt bs 15 1 / 4)
  else if beAt bs 12 2 = 0x86DD then some (beAt bs 14 2 / 64 % 64)
  else none

/-- The protocol after the extension headers of an IPv6 header, and the offset of its header; none for that in a fragment (log 77). -/
def ipv6Upper (bs : List Byte) (nh o : Nat) : (fuel : Nat) → Nat × Option Nat
  | 0 => (nh, none)
  | k + 1 =>
    if nh = 44 then (beAt bs o 1, none)
    else if nh = 51 then ipv6Upper bs (beAt bs o 1) (o + 4 * (beAt bs (o + 1) 1 + 2)) k
    else if badNext nh then ipv6Upper bs (beAt bs o 1) (o + 8 * (beAt bs (o + 1) 1 + 1)) k
    else (nh, some o)

/-- R401, R422: the hash over the outermost IP header and its L4 ports, 0 for a fragment; none for a non-IP frame. A header that R412
refuses is an IP header here (log 77). -/
def outerHash (c : ParseCfg) (bs : List Byte) : Option Nat :=
  match skipTags c bs 12 2 0 16 with
  | none => none
  | some (et, o, _) =>
    let hash := fun (cls : Nat) (u : Nat × Option Nat) =>
      some (crc32c (padBytes 32 (ipAddrs bs cls o) ++ l4Ports bs u.1 u.2 ++ natBe 1 u.1 ++ [0, 0, 0]))
    if et = 0x0800 then
      let l4 := if beAt bs (o + 6) 2 % 0x4000 = 0 then some (o + 4 * max 5 (beAt bs o 1 % 16)) else none
      hash 1 (beAt bs (o + 9) 1, l4)
    else if et = 0x86DD then hash 2 (ipv6Upper bs (beAt bs (o + 6) 1) (o + 40) 32)
    else none

/-- R413: the offset of a base. -/
def Parse.base (p : Parse) : Nat → Option Nat
  | 0 => some 0
  | 1 => p.l3
  | 2 => p.l4
  | 3 => p.tun
  | 4 => some p.il2
  | 5 => p.il3
  | 6 => p.il4
  | _ => p.pay

end Sys2Proof.Machine
end

