-- ==== Sys2Proof/Machine/Ecdsa.lean ====
section
/-! DEFINITION. ECDSA over the curve P-384 of FIPS 186-5, as the root of trust verifies it (R559, R565). -/

namespace Sys2Proof.Machine

/-- The field of the curve, its coefficient b (a is −3), its order, and its base point. -/
def p384P : Nat := 2 ^ 384 - 2 ^ 128 - 2 ^ 96 + 2 ^ 32 - 1
def p384B : Nat := 0xB3312FA7E23EE7E4988E056BE3F82D19181D9C6EFE8141120314088F5013875AC656398D8A2ED19D2A85C8EDD3EC2AEF
def p384N : Nat := 0xFFFFFFFFFFFFFFFFFFFFFFFFFFFFFFFFFFFFFFFFFFFFFFFFC7634D81F4372DDF581A0DB248B0A77AECEC196ACCC52973
def p384Gx : Nat := 0xAA87CA22BE8B05378EB1C71EF320AD746E1D3B628BA79B9859F741E082542A385502F25DBF55296C3A545E3872760AB7
def p384Gy : Nat := 0x3617DE4A96262C6F5D9E98BF9292DC29F8F41DBD289A147CE9DA3113B5F0B8C00A60B1CE1D7E819D7A431D7C90EA0E5F

/-- b to the power e modulo m, over the low n bits of e. -/
def powMod (m : Nat) : (n b e r : Nat) → Nat
  | 0, _, _, r => r
  | n + 1, b, e, r => powMod m n (b * b % m) (e / 2) (if e % 2 = 1 then r * b % m else r)

/-- The inverse modulo a prime m. -/
def invMod (m a : Nat) : Nat := powMod m 384 (a % m) (m - 2) 1

/-- A point of the curve; none is the point at infinity. -/
abbrev EcPoint := Option (Nat × Nat)

/-- a − b modulo the field. -/
def fsub (a b : Nat) : Nat := (a + p384P - b % p384P) % p384P

/-- The third point of the line of slope l through two points, reflected. -/
def ecThird (l : Nat) (p q : Nat × Nat) : Nat × Nat :=
  let x := fsub (fsub (l * l) p.1) q.1
  (x, fsub (l * fsub p.1 x) p.2)

/-- The sum of two points. -/
def ecAdd (p q : EcPoint) : EcPoint :=
  match p, q with
  | none, q => q
  | p, none => p
  | some a, some b =>
    if a.1 ≠ b.1 then some (ecThird (fsub b.2 a.2 * invMod p384P (fsub b.1 a.1) % p384P) a b)
    else if (a.2 + b.2) % p384P = 0 then none
    else some (ecThird (fsub (3 * a.1 * a.1) 3 * invMod p384P (2 * a.2) % p384P) a a)

/-- k times a point, over the low n bits of k. -/
def ecMul : (n k : Nat) → EcPoint → EcPoint → EcPoint
  | 0, _, _, r => r
  | n + 1, k, p, r => ecMul n (k / 2) (ecAdd p p) (if k % 2 = 1 then ecAdd r p else r)

/-- Whether a pair of coordinates is a point of the curve. -/
def onCurve (x y : Nat) : Bool := decide (x < p384P) && decide (y < p384P) && y * y % p384P == fsub (x * x * x + p384B) (3 * x)

/-- FIPS 186-5: whether (r, s) is a valid signature on a digest of 48 bytes under the key (x, y). -/
def ecdsaVerify (x y r s : Nat) (digest : List Byte) : Bool :=
  if !onCurve x y ∨ r = 0 ∨ p384N ≤ r ∨ s = 0 ∨ p384N ≤ s then false
  else
    let w := invMod p384N s
    let u1 := beNat digest * w % p384N
    let u2 := r * w % p384N
    match ecAdd (ecMul 384 u1 (some (p384Gx, p384Gy)) none) (ecMul 384 u2 (some (x, y)) none) with
    | none => false
    | some q => q.1 % p384N == r

end Sys2Proof.Machine
end

