-- ==== Sys2Proof/Machine/Aes.lean ====
section
/-! DEFINITION. The block cipher of FIPS 197 that R301 names, and the multiplication in GF(2^128) of R300. -/

namespace Sys2Proof.Machine

/-- Multiply by x in GF(2^8). -/
def xtime (a : Nat) : Nat := if 128 ≤ a then ((2 * a) ^^^ 0x11B) % 256 else 2 * a

/-- The product in GF(2^8), over the low `n` bits of b. -/
def gf8Mul (a : Nat) : (n b : Nat) → Nat
  | 0, _ => 0
  | n + 1, b => (if b % 2 = 1 then a else 0) ^^^ gf8Mul (xtime a) n (b / 2)

/-- a to the power of a bit list, the most significant first. -/
def gf8Pow (a : Nat) : List Bool → Nat → Nat
  | [], r => r
  | b :: bs, r =>
    let q := gf8Mul r 8 r
    gf8Pow a bs (if b then gf8Mul q 8 a else q)

/-- The inverse in GF(2^8): the 254th power; 0 for 0. -/
def gf8Inv (a : Nat) : Nat := gf8Pow a [true, true, true, true, true, true, true, false] 1

/-- Rotate a byte left. -/
def rotByte (a n : Nat) : Nat := (a * 2 ^ n) % 256 ||| a * 2 ^ n / 256

/-- The S-box of FIPS 197. -/
def aesSub (a : Nat) : Nat :=
  let b := gf8Inv a
  b ^^^ rotByte b 1 ^^^ rotByte b 2 ^^^ rotByte b 3 ^^^ rotByte b 4 ^^^ 0x63

/-- The inverse S-box. -/
def aesInvSub (a : Nat) : Nat := gf8Inv (rotByte a 1 ^^^ rotByte a 3 ^^^ rotByte a 6 ^^^ 0x05)

def xorBytes (a b : List Nat) : List Nat := List.zipWith (· ^^^ ·) a b

/-- The key schedule: each round's word from the one before and the one Nk before; the newest word first. -/
def aesExpand (nk : Nat) : (n i rcon : Nat) → List (List Nat) → List (List Nat)
  | 0, _, _, ws => ws
  | n + 1, i, rcon, ws =>
    let prev := ws.headD []
    let t := if i % nk = 0 then xorBytes ((prev.drop 1 ++ prev.take 1).map aesSub) [rcon, 0, 0, 0]
      else if 6 < nk ∧ i % nk = 4 then prev.map aesSub else prev
    aesExpand nk n (i + 1) (if i % nk = 0 then xtime rcon else rcon) (xorBytes (ws.getD (nk - 1) []) t :: ws)

/-- A list cut in pieces of n. -/
def chunksOf (n : Nat) : (fuel : Nat) → List Nat → List (List Nat)
  | 0, _ => []
  | fuel + 1, l => if l.isEmpty then [] else l.take n :: chunksOf n fuel (l.drop n)

/-- The round keys of a key of 16, 24 or 32 bytes, 16 bytes each, the first round first. -/
def aesKeys (key : List Nat) : List (List Nat) :=
  let nk := key.length / 4
  let ws := (aesExpand nk (4 * (nk + 7) - nk) nk 1 (chunksOf 4 nk key).reverse).reverse
  (chunksOf 16 (nk + 7) ws.flatten)

def shiftRows (s : List Nat) : List Nat := (List.range 16).map fun i => s.getD ((i + 4 * (i % 4)) % 16) 0
def invShiftRows (s : List Nat) : List Nat := (List.range 16).map fun i => s.getD ((i + 12 * (i % 4)) % 16) 0

/-- One column times a circulant matrix. -/
def mixColumn (m : List Nat) (col : List Nat) : List Nat :=
  (List.range 4).map fun r => (List.range 4).foldl (fun a c => a ^^^ gf8Mul (col.getD c 0) 8 (m.getD ((c + 4 - r) % 4) 0)) 0

def mixColumns (m : List Nat) (s : List Nat) : List Nat := (chunksOf 4 4 s).flatMap (mixColumn m)

def aesRounds : List (List Nat) → List Nat → List Nat
  | [], s => s
  | [k], s => xorBytes (shiftRows (s.map aesSub)) k
  | k :: ks, s => aesRounds ks (xorBytes (mixColumns [2, 3, 1, 1] (shiftRows (s.map aesSub))) k)

/-- The forward cipher of a block of 16 bytes. -/
def aesEncrypt (key block : List Nat) : List Nat :=
  match aesKeys key with
  | [] => block
  | k :: ks => aesRounds ks (xorBytes block k)

def aesInvRounds : List (List Nat) → List Nat → List Nat
  | [], s => s
  | [k], s => xorBytes ((invShiftRows s).map aesInvSub) k
  | k :: ks, s => aesInvRounds ks (mixColumns [14, 11, 13, 9] (xorBytes ((invShiftRows s).map aesInvSub) k))

/-- The inverse cipher. -/
def aesDecrypt (key block : List Nat) : List Nat :=
  match (aesKeys key).reverse with
  | [] => block
  | k :: ks => aesInvRounds ks (xorBytes block k)

/-! ## GF(2^128) -/

/-- The value times x modulo x^128 + x^7 + x^2 + x + 1; bit i is the coefficient of x^i. -/
def gf128Double (v : Nat) : Nat := if 2 ^ 127 ≤ v then ((2 * v) % 2 ^ 128) ^^^ 0x87 else 2 * v

/-- The product, over the low n coefficients of b. -/
def gf128Mul : (n a b : Nat) → Nat
  | 0, _, _ => 0
  | n + 1, a, b => (if b % 2 = 1 then a else 0) ^^^ gf128Mul n (gf128Double a) (b / 2)

/-- A byte with its bits reversed. -/
def revByte (b : Nat) : Nat := ((List.range 8).map fun i => b / 2 ^ i % 2 * 2 ^ (7 - i)).sum

/-- R300: the bit orders: GCM takes bit 7 of byte 0 as the coefficient of x^0. -/
def gcmOrder (v : Nat) : Nat := leNat ((natLe 16 v).map fun b => BitVec.ofNat 8 (revByte b.toNat))

end Sys2Proof.Machine
end

