-- ==== Sys2Proof/Machine/CoreRegs.lean ====
section
/-! DEFINITION. The control registers and modes of the XQ cores (R262 to R266), and the debug halt (R319, R320). -/

namespace Sys2Proof.Machine

open Sys2Proof

/-! ## Control registers -/

/-- R216: the modes, by the codes of `mst`. -/
def modeU : Nat := 0
def modeG : Nat := 1
def modeD : Nat := 2

/-- R262, R266: the value of `coreid`. Of a Filter sequencer R266 gives KIND and CORE alone; CLUSTER reads 0 (log 70). -/
def CoreRef.coreid (c : CoreRef) : Nat :=
  c.cell + (match c with
    | .guider n => 1 * 2 ^ 16 + n.val * 2 ^ 24 + n.val / 8 * 2 ^ 32
    | .dome n => 2 * 2 ^ 16 + n.val * 2 ^ 24 + 0x10 * 2 ^ 32
    | .filter n => 3 * 2 ^ 16 + n.val * 2 ^ 24)

/-- The reset value of a control register (R222, R262 to R264, R266). -/
def crReset (c : CoreRef) (n : Nat) : Word :=
  if n = 0 then (match c with | .guider _ => 1 | .dome _ => 2 | .filter _ => 3)
  else if n = 2 then 0x20
  else if n = 4 then BitVec.ofNat 64 c.coreid
  else if n = 0x40 then BitVec.allOnes 64
  else if 0xC0 ≤ n ∧ n ≤ 0xC7 then BitVec.ofNat 64 (featValue (n - 0xC0))
  else 0

/-- The value of a control register; `rsdepth` counts the on-chip entries. -/
def CoreState.crGet (k : CoreState) (c : CoreRef) (n : Nat) : Word :=
  if n = 3 then BitVec.ofNat 64 (k.rsLow.length + k.rsG.length * 2 ^ 16) else smapGet (crReset c) k.cr n

/-- Write a control register as it stands. -/
def CoreState.crPut (k : CoreState) (c : CoreRef) (n : Nat) (v : Word) : CoreState :=
  { k with cr := smapSet (crReset c) k.cr n v }

/-- The running mode. -/
def CoreState.mode (k : CoreState) (c : CoreRef) : Nat := (k.crGet c 0).toNat % 4

def CoreState.xe (k : CoreState) (c : CoreRef) : Bool := (k.crGet c 0).getLsbD 2
def CoreState.ie (k : CoreState) (c : CoreRef) : Bool := (k.crGet c 0).getLsbD 3

/-- R262: the first number of a mode's bank: ds, dslo, dshi, rs, rslo, rsbase. -/
def crBank (mode : Nat) : Nat := if mode = 0 then 0x20 else if mode = 1 then 0x28 else 0x30

/-- R262, R266: whether a control register is present on a core kind. -/
def crExists (c : CoreRef) (n : Nat) : Bool :=
  let common := n == 0 || n == 4 || decide (0xC0 ≤ n ∧ n ≤ 0xC7)
  let cpu := n == 3 || n == 8 || decide (0x10 ≤ n ∧ n ≤ 0x15) || n == 0x40 || n == 0x41 || decide (0x48 ≤ n ∧ n ≤ 0x4B)
  match c with
  | .guider _ => common || cpu || n == 1 || n == 2 || decide (0x20 ≤ n ∧ n ≤ 0x25) || decide (0x28 ≤ n ∧ n ≤ 0x2D)
      || decide (0x50 ≤ n ∧ n ≤ 0x5F)
  | .dome _ => common || cpu || decide (0x30 ≤ n ∧ n ≤ 0x35)
  | .filter _ => common

/-- The bits of a control register that a program may write (R262, R263 and the register tables). -/
def crWritable (n : Nat) : Nat :=
  if n = 0 then 0xC
  else if n = 1 then 0xF
  else if n = 2 then 0x1FF
  else if n = 3 ∨ n = 4 ∨ (0xC0 ≤ n ∧ n ≤ 0xC7) then 0
  else if n = 8 then 2 ^ 64 - 2 ^ 12
  else if n = 0x12 then 0xF
  else if n = 0x13 then 0xFF
  else if 0x20 ≤ n ∧ n ≤ 0x35 then 2 ^ 64 - 8
  else if n = 0x41 then 1
  else if 0x48 ≤ n ∧ n ≤ 0x4B then 2 ^ 34 - 1
  else if 0x50 ≤ n ∧ n ≤ 0x5F then (if n % 2 = 0 then 2 ^ 64 - 2 ^ 12 + 0xF else 2 ^ 64 - 2 ^ 12)
  else 2 ^ 64 - 1

/-- R264, R265: the bits of feat0 to feat7 that are not RSV. -/
def featDefined : Nat → Nat
  | 0 => 2 ^ 24 - 1
  | 1 => 2 ^ 19 - 1
  | 2 | 3 => 2 ^ 56 - 1
  | 4 => 2 ^ 64 - 1
  | 5 => 2 ^ 20 - 1 + (2 ^ 16 - 1) * 2 ^ 32
  | 6 => 0x7F + 0xFF * 2 ^ 8 + 0xF * 2 ^ 16 + 0xFFF * 2 ^ 24
  | _ => 0

/-- The bits of a control register that are not RSV: what a debug write reaches (R321; of feat0 to feat6 it reaches the RO fields
under R321's 'ignoring mode and RO rules', log 70). -/
def crDefined (n : Nat) : Nat :=
  if n = 0 then 0xF else if n = 4 then 2 ^ 40 - 1 else if 0xC0 ≤ n ∧ n ≤ 0xC7 then featDefined (n - 0xC0) else crWritable n

/-- The data stack pointer of the running mode. -/
def CoreState.ds (k : CoreState) (c : CoreRef) : Word := k.crGet c (crBank (k.mode c))
def CoreState.dslo (k : CoreState) (c : CoreRef) : Word := k.crGet c (crBank (k.mode c) + 1)
def CoreState.dshi (k : CoreState) (c : CoreRef) : Word := k.crGet c (crBank (k.mode c) + 2)

/-- The flags as one value (R219). -/
def CoreState.fl (k : CoreState) : Word :=
  BitVec.ofNat 64 (k.z.toNat + 2 * k.n.toNat + 4 * k.c.toNat + 8 * k.ov.toNat)

/-- Write the flags from a value; bits [63:4] are RSV. -/
def CoreState.setFl (k : CoreState) (w : Word) : CoreState :=
  { k with z := w.getLsbD 0, n := w.getLsbD 1, c := w.getLsbD 2, ov := w.getLsbD 3 }

/-! ## Halt -/

/-- R319: the core is halted. -/
def State.halted (s : State) (c : CoreRef) : Bool := !c.isFilter && s.flag F.GDR_DBG_STATUS_HALTED c.cell

/-- R320: halt a core with a reason. -/
def State.haltCore (s : State) (c : CoreRef) (reason bp : Nat) : State :=
  let s := s.setFlag F.GDR_DBG_STATUS_HALTED c.cell true
  let s := s.setFld F.GDR_DBG_STATUS_REASON c.cell reason
  let s := s.setFld F.GDR_DBG_STATUS_BP c.cell bp
  s.mapCore c fun k => { k with asleep := none, stepping := false }

/-! ## Start -/

/-- R222: the private bits of a core cell read 0. -/
def State.clearPrivate (s : State) (cell : Nat) : State :=
  { s with bits := s.bits.filter fun p => decide (p.1 < privateKey cell 0 ∨ privateKey cell 0x10000 ≤ p.1) }

/-- R222, R306, R651: in the cycle in which a core's cell becomes ENABLED its state is that of R222, with the pc given. -/
def State.coreUp (s : State) (c : CoreRef) (pc : Word) : State := (s.clearPrivate c.cell).setCore c { pc := pc }

/-- R306, R651: a core begins to execute. A HALT written while it was OFF takes effect before the first instruction (R321). -/
def State.startCore (s : State) (c : CoreRef) : State :=
  let s := s.mapCore c fun k => { k with running := true }
  if s.flag F.GDR_DBG_CTRL_HALT c.cell then s.haltCore c 1 0 else s

end Sys2Proof.Machine
end

