-- ==== Sys2Proof/Machine/Faults.lean ====
section
/-! DEFINITION. How a cell enters FAULT (R63), and what a quiesce of a cell and its descendants marks (R56). -/

namespace Sys2Proof.Machine

/-- R56, R63: each of these cells that is ENABLED begins a quiesce. Which are ENABLED is judged before any of them changes. -/
def State.beginQuiesces (s : State) (cells : List Nat) : State :=
  (cells.filter s.enabled).foldl (fun (s : State) c => (s.setFlag F.CELL_STATE_QUIESCE_BUSY c true).count c 0x006) s

/-- R63: a cell enters FAULT: each of its descendants in ENABLED begins a quiesce. -/
def State.enterFault (s : State) (cell : Nat) : State :=
  if s.faulted cell then s
  else (s.beginQuiesces ((cellSubtree cell).drop 1)).setFld F.CELL_STATE_STATE cell 4

/-- R63, R65: an error of class INTERNAL. -/
def State.recordInternal (s : State) (cell addr info : Nat) : State := (s.recordError cell clsInternal addr info).enterFault cell

end Sys2Proof.Machine
end

