-- ==== Sys2Proof/Machine/PrimCompute.lean ====
section
/-! DEFINITION. What a Primary operation computes: its descriptor (R145, R146), operand layouts (R148), running sums (R83 to
R86, R117), epilogue (R154 to R159), output layout (R149), ready pairs (R167) and poison (R175, R176). -/

namespace Sys2Proof.Machine

open Sys2Proof

/-! ## The descriptor -/

/-- R145: fields of a Primary descriptor. -/
def PrimDesc.field (d : PrimDesc) (w hi lo : Nat) : Nat := wfield d.words w hi lo
def PrimDesc.addr (d : PrimDesc) (w : Nat) : Nat := wlong d.words w % 2 ^ 48
def PrimDesc.kind (d : PrimDesc) : Nat := d.field 0 3 0
def PrimDesc.retain (d : PrimDesc) : Bool := d.field 0 8 8 == 1 && (d.kind == 1 || d.kind == 2)
def PrimDesc.rnd (d : PrimDesc) : Rnd := (Rnd.ofCode (d.field 0 11 9)).getD .rne
def PrimDesc.sat (d : PrimDesc) : Bool := d.field 0 12 12 == 1
def PrimDesc.cmplEn (d : PrimDesc) : Bool := d.field 0 13 13 == 1
def PrimDesc.doneBit (d : PrimDesc) : Nat := d.field 1 31 0
def PrimDesc.cmplAddr (d : PrimDesc) : Nat := d.addr 2
def PrimDesc.seed (d : PrimDesc) : BitVec 64 := BitVec.ofNat 64 (wlong d.words 4)
def PrimDesc.m (d : PrimDesc) : Nat := d.field 6 31 0
def PrimDesc.n (d : PrimDesc) : Nat := d.field 7 24 0
def PrimDesc.k (d : PrimDesc) : Nat := d.field 8 24 0
def PrimDesc.aFmt (d : PrimDesc) : Fmt := (Fmt.ofCode (d.field 9 3 0)).getD .fp32
def PrimDesc.aMx (d : PrimDesc) : Bool := d.field 9 4 4 == 1
def PrimDesc.bFmt (d : PrimDesc) : Fmt := (Fmt.ofCode (d.field 9 11 8)).getD .fp32
def PrimDesc.bMx (d : PrimDesc) : Bool := d.field 9 12 12 == 1
def PrimDesc.outFmt (d : PrimDesc) : Fmt := (Fmt.ofCode (d.field 9 19 16)).getD .fp32
def PrimDesc.outMx (d : PrimDesc) : Bool := d.field 9 20 20 == 1
def PrimDesc.aSrc (d : PrimDesc) : Nat := d.field 9 25 24
def PrimDesc.dest (d : PrimDesc) : Nat := d.field 9 30 28
def PrimDesc.epi (d : PrimDesc) (i : Nat) : Bool := d.field 28 i i == 1
def PrimDesc.addFmt (d : PrimDesc) : Fmt := (Fmt.ofCode (d.field 28 11 8)).getD .fp32
def PrimDesc.isMatmul (d : PrimDesc) : Bool := d.kind == 1 || d.kind == 2

/-- The columns of the A stream: K, or N of a CONVERT. -/
def PrimDesc.inner (d : PrimDesc) : Nat := if d.kind = 3 then d.n else d.k

/-- R82: the integer group. -/
def PrimDesc.isInt (d : PrimDesc) : Bool := d.isMatmul && d.aFmt == .int8 && d.bFmt == .int8 && !d.aMx && !d.bMx

/-- R148: the bytes of a row of c elements. -/
def rowBytes (f : Fmt) (mx : Bool) (c : Nat) : Nat :=
  if mx then (c + 31) / 32 * (4 * f.width) else (c * f.width + 7) / 8

/-- The bytes of a row of block scales. -/
def scaleBytes (c : Nat) : Nat := (c + 31) / 32

/-- One extent: base, stride, rows and the bytes of a row. -/
structure Extent where
  base : Nat
  stride : Nat
  rows : Nat
  bytes : Nat
  deriving DecidableEq, Repr

/-- R173 (0x08): the bytes from an extent's base to the last byte of its last row. -/
def Extent.span (e : Extent) : Nat := (e.rows - 1) * e.stride + e.bytes

/-- The epilogue runs and its fields are read (R145, R154). -/
def PrimDesc.epiUsed (d : PrimDesc) : Bool := d.dest != 4

/-- The A stream and its scales as extents, from their bases and strides. -/
def PrimDesc.aStream (d : PrimDesc) (base stride scaleBase scaleStride : Nat) : List Extent :=
  ⟨base, stride, d.m, rowBytes d.aFmt d.aMx d.inner⟩ :: (if d.aMx then [⟨scaleBase, scaleStride, d.m, scaleBytes d.inner⟩] else [])

/-- R145: A and its scales in memory. -/
def PrimDesc.aMem (d : PrimDesc) : List Extent :=
  if d.aSrc = 0 then d.aStream (d.addr 10) (d.field 12 31 0) (d.addr 13) (d.field 15 31 0) else []

/-- R145: B and its scales. -/
def PrimDesc.bExtents (d : PrimDesc) : List Extent :=
  if d.isMatmul then
    ⟨d.addr 16, d.field 18 31 0, d.n, rowBytes d.bFmt d.bMx d.k⟩
      :: (if d.bMx then [⟨d.addr 19, d.field 21 31 0, d.n, scaleBytes d.k⟩] else [])
  else []

/-- R145, R160: the column-scale and bias vectors. -/
def PrimDesc.vectors (d : PrimDesc) : List Extent :=
  (if d.epiUsed && d.epi 1 then [⟨d.addr 33, 0, 1, 4 * d.n⟩] else [])
  ++ (if d.epiUsed && d.epi 2 then [⟨d.addr 35, 0, 1, 4 * d.n⟩] else [])

/-- R145: the addend matrix D. -/
def PrimDesc.addend (d : PrimDesc) : List Extent :=
  if d.epiUsed && d.epi 3 then [⟨d.addr 37, d.field 39 31 0, d.m, rowBytes d.addFmt false d.n⟩] else []

/-- R145, R158: the activation table. -/
def PrimDesc.tableExtent (d : PrimDesc) : List Extent := if d.epiUsed && d.epi 4 then [⟨d.addr 40, 0, 1, 2048⟩] else []

/-- The extents that are read from memory while the operation runs. -/
def PrimDesc.streams (d : PrimDesc) : List Extent := d.aMem ++ d.bExtents ++ d.vectors ++ d.addend

/-- R145: the extents a descriptor reads, in word order. -/
def PrimDesc.reads (d : PrimDesc) : List Extent := d.streams ++ d.tableExtent

/-- R164: the loopback extents an operation reads. -/
def PrimOp.loopReads (op : PrimOp) : List Extent :=
  let g := op.loopLayout.getD
  if op.desc.aSrc = 1 then op.desc.aStream (g 0 0) (g 1 0) (g 2 0) (g 3 0) else []

/-- The A stream of an operation in memory. -/
def PrimOp.aExtents (op : PrimOp) : List Extent := op.loopReads ++ op.desc.aMem

/-- R149: the extents a descriptor writes: the output and its scales. -/
def PrimDesc.writes (d : PrimDesc) : List Extent :=
  if d.dest = 0 ∨ d.dest = 1 ∨ d.dest = 3 then
    [⟨d.addr 22, d.field 24 31 0, d.m, rowBytes d.outFmt d.outMx d.n⟩]
    ++ (if d.outMx then [⟨d.addr 25, d.field 27 31 0, d.m, scaleBytes d.n⟩] else [])
  else []

/-! ## Operand reads -/

/-- An element as read: its bits, and whether its line carried poison. -/
abbrev Elem := Nat × Bool

/-- The lines of n bytes from an aligned address: the bytes as one number, and the marks, those that the lines `bad` take on the feed
path among them (R604). -/
def State.rowData (s : State) (bad : List Nat) (base bytes : Nat) : Nat × List Bool :=
  let ls := (List.range ((bytes + 63) / 64)).map fun k => base + 64 * k
  (leNat (ls.flatMap fun l => (s.readLine l false).bytes), ls.map fun l => (s.readLine l false).poison || bad.contains l)

/-- R81: element k of width w of a row. -/
def rowElem (r : Nat × List Bool) (w k : Nat) : Elem :=
  (r.1 / 2 ^ (w * k) % 2 ^ w, r.2.getD (w * k / 512) false || r.2.getD ((w * k + w - 1) / 512) false)

/-- The elements of the rows of an extent, c to a row. -/
def State.rowElems (s : State) (bad : List Nat) (e : Extent) (w c i : Nat) : List Elem :=
  let r := s.rowData bad (e.base + i * e.stride) e.bytes
  (List.range c).map (rowElem r w)

/-- R148, R164, R165: row i of the A stream: its elements and its block scales. -/
def State.aRow (s : State) (op : PrimOp) (i : Nat) : List Elem × List Elem :=
  let d := op.desc
  let c := d.inner
  if d.aSrc = 2 then
    ((List.range c).map fun k => (smapGet (fun _ => none) op.elems (i * c + k)).getD (0, false), [])
  else
    let g := op.loopLayout.getD
    let e : Extent := if d.aSrc = 1 then ⟨g 0 0, g 1 0, d.m, rowBytes d.aFmt d.aMx c⟩
      else ⟨d.addr 10, d.field 12 31 0, d.m, rowBytes d.aFmt d.aMx c⟩
    let sc : Extent := if d.aSrc = 1 then ⟨g 2 0, g 3 0, d.m, scaleBytes c⟩
      else ⟨d.addr 13, d.field 15 31 0, d.m, scaleBytes c⟩
    (s.rowElems op.badLines e d.aFmt.width c i, if d.aMx then s.rowElems op.badLines sc 8 (scaleBytes c) i else [])

/-- R148: column n of B. -/
def State.bCol (s : State) (op : PrimOp) (n : Nat) : List Elem × List Elem :=
  let d := op.desc
  (s.rowElems op.badLines ⟨d.addr 16, d.field 18 31 0, d.n, rowBytes d.bFmt d.bMx d.k⟩ d.bFmt.width d.k n,
    if d.bMx then s.rowElems op.badLines ⟨d.addr 19, d.field 21 31 0, d.n, scaleBytes d.k⟩ 8 (scaleBytes d.k) n else [])

/-! ## Running sums -/

/-- A running sum: the 32-bit word, its poison flag and the flags raised. -/
structure Sum where
  word : Nat
  poison : Bool
  flags : ArithFlags
  deriving DecidableEq, Repr

/-- The scale of a block: 1 under NONE. -/
def blockScale (mx : Bool) (l : List Elem) : Option Int := if mx then mxScale (l.headD (0, false)).1 else some 0

/-- R83, R86: fold the blocks of one row and one column into a running sum, the first block first. -/
def foldBlocks (d : PrimDesc) : (blocks : Nat) → Sum → (a sa b sb : List Elem) → Sum
  | 0, acc, _, _, _, _ => acc
  | n + 1, acc, a, sa, b, sb =>
    let a1 := a.take 32
    let b1 := b.take 32
    let poison := acc.poison || (a1 ++ b1 ++ sa.take 1 ++ sb.take 1).any Prod.snd
    let r := if d.isInt then
        let t := (List.zipWith (fun x y => (BitVec.ofNat 8 x.1).toInt * (BitVec.ofNat 8 y.1).toInt) a1 b1).sum
        let q := intBlockStep (BitVec.ofNat 32 acc.word) t
        (q.1.toNat, q.2)
      else
        blockStep acc.word (List.zipWith (fun x y => Product.mk (decodeElem d.aFmt d.aMx x.1) (decodeElem d.bFmt d.bMx y.1)
          (blockScale d.aMx sa) (blockScale d.bMx sb)) a1 b1)
    foldBlocks d n ⟨r.1, poison, acc.flags.or r.2⟩ (a.drop 32) (sa.drop 1) (b.drop 32) (sb.drop 1)

/-- The key of the south accumulator word of output (i, n). -/
def accKey (i n : Nat) : Nat := i * 2048 + n

/-- R83, R117: the running sum of output element (i, n). A NaN among the retained words raises NAN_IN (R87). -/
def State.runningSum (s : State) (d : PrimDesc) (i n : Nat) (a b : List Elem × List Elem) : Sum :=
  let start := if d.kind = 2 then smapGet (fun _ => (0, false)) s.prim.acc (accKey i n) else (0, false)
  let nan := d.kind == 2 && !d.isInt && (fromFp32 start.1.toNat).isNan
  foldBlocks d ((d.k + 31) / 32) ⟨start.1.toNat, start.2, .mkNanIn nan⟩ a.1 a.2 b.1 b.2

/-- R604: a running sum whose word in the south accumulators was found uncorrectable. -/
def Sum.struck (x : Sum) (bad : Bool) : Sum := { x with poison := x.poison || bad }

/-- R150: a CONVERT element as an FP32 value. -/
def convertElem (d : PrimDesc) (e : Elem) (sc : Elem) : Sum :=
  let v := decodeElem d.aFmt d.aMx e.1
  let scaled := if d.aMx then (match mxScale sc.1 with
    | some x => v.scale2 x
    | none => .nan) else v
  let r := toFp32 scaled
  ⟨r.1, e.2 || (d.aMx && sc.2), r.2.or (.mkNanIn scaled.isNan)⟩

/-! ## The epilogue -/

/-- The epilogue's vectors and tables: column scales, biases and the activation table. -/
structure EpiData where
  colscale : List Elem
  bias : List Elem
  table : List Word32
  tablePoison : Bool

/-- R155: the scale stage on the factors present after x. -/
def scaleStage (x : Nat) (fs : List Nat) : Nat × ArithFlags :=
  let vs := fs.map fromFp32
  let xv := fromFp32 x
  let p := vs.foldl Num.mul xv
  let nanIn := vs.any Num.isNan
  if xv.isNan || nanIn then (Fmt.fp32.nanBits, .mkNanIn nanIn)
  else
    let infs := (xv :: vs).any Num.isInf
    let zeros := (xv :: vs).any Num.isZero
    if infs && zeros then (Fmt.fp32.nanBits, .mkInvalid true) else toFp32 p

/-- R155: the add stage: x, a bias, and a product of two factors. -/
def addStage (x : Nat) (bias : Option Nat) (prod : Option (Nat × Nat)) : Nat × ArithFlags :=
  let xv := fromFp32 x
  let ins := (bias.toList ++ (prod.map fun p => [p.1, p.2]).getD []).map fromFp32
  let nanIn := ins.any Num.isNan
  let pv := prod.map fun p => (fromFp32 p.1).mul (fromFp32 p.2)
  let terms := xv :: ((bias.map fromFp32).toList ++ pv.toList)
  if xv.isNan || nanIn then (Fmt.fp32.nanBits, .mkNanIn nanIn)
  else if terms.any Num.isNan then (Fmt.fp32.nanBits, .mkInvalid true)
  else
    let pos := terms.any fun v => v.isInf && !v.neg
    let ngs := terms.any fun v => v.isInf && v.neg
    if pos && ngs then (Fmt.fp32.nanBits, .mkInvalid true)
    else if pos then (Fmt.fp32.infBits, {})
    else if ngs then (signBits .fp32 true + Fmt.fp32.infBits, {})
    else
      let t := terms.foldl Num.add (.fin true 0 0)
      if t.isZero then (signBits .fp32 (terms.all Num.neg), {}) else toFp32 t

/-- R157: fusedMultiplyAdd to FP32, nearest even. -/
def fma (a b c : Nat) : Nat × ArithFlags :=
  let av := fromFp32 a
  let bv := fromFp32 b
  let cv := fromFp32 c
  let p := av.mul bv
  if av.isNan || bv.isNan || cv.isNan then (Fmt.fp32.nanBits, {})
  else if p.isNan || (p.isInf && cv.isInf && p.neg != cv.neg) then (Fmt.fp32.nanBits, .mkInvalid true)
  else if p.isInf then (signBits .fp32 p.neg + Fmt.fp32.infBits, {})
  else if cv.isInf then (c, {})
  else
    let t := p.add cv
    if t.isZero then (signBits .fp32 (p.neg && cv.neg), {}) else toFp32 t

/-- R156, R157: the activation. -/
def activate (t : List Word32) (x : Nat) : Nat × ArithFlags :=
  let w := fun i => (t.getD i 0).toNat
  let xv := fromFp32 x
  let out := fun b => if (fromFp32 b).isNan then (Fmt.fp32.nanBits, ArithFlags.mkNanIn true) else (b, {})
  if xv.isNan then (Fmt.fp32.nanBits, {})
  else if xv.isInf then out (if xv.neg then w 320 else w 321)
  else
    let sgm := ((List.range 63).filter fun q =>
      let bp := fromFp32 (w (q + 1))
      bp.lt xv || bp.beqVal xv).length
    let c0 := w (64 + 4 * sgm)
    let c1 := w (65 + 4 * sgm)
    let c2 := w (66 + 4 * sgm)
    let nanIn := [c0, c1, c2].any fun c => (fromFp32 c).isNan
    let r1 := fma c2 x c1
    let r2 := fma r1.1 x c0
    if nanIn then (Fmt.fp32.nanBits, (r1.2.or r2.2).or (.mkNanIn true)) else (r2.1, r1.2.or r2.2)

/-- R159: the order in which −0 is less than +0. -/
def ltZero (a b : Num) : Bool := a.lt b || (a.isZero && b.isZero && a.neg && !b.neg)

def clampStage (x lo hi : Nat) : Nat :=
  let xv := fromFp32 x
  if xv.isNan then Fmt.fp32.nanBits
  else if ltZero xv (fromFp32 lo) then lo
  else if ltZero (fromFp32 hi) xv then hi
  else x

/-- R154: the epilogue of output element (i, n), with the element of D it reads. -/
def epilogue (d : PrimDesc) (e : EpiData) (n : Nat) (dElem : Elem) (x : Sum) : Sum :=
  let w := if d.isInt then intToFp32 (BitVec.ofNat 32 x.word) else x.word
  let sc := e.colscale.getD n (0, false)
  let bi := e.bias.getD n (0, false)
  let s1 : Nat × ArithFlags := if d.epi 0 || d.epi 1 then
      scaleStage w ((if d.epi 0 then [d.field 29 31 0] else []) ++ (if d.epi 1 then [sc.1] else []))
    else (w, {})
  let dv := match d.addFmt with
    | .fp32 => dElem.1
    | f => (toFp32 (decodeElem f false dElem.1)).1
  let s2 : Nat × ArithFlags := if d.epi 2 || d.epi 3 then
      addStage s1.1 (if d.epi 2 then some bi.1 else none) (if d.epi 3 then some (d.field 30 31 0, dv) else none)
    else (s1.1, {})
  let s3 : Nat × ArithFlags := if d.epi 4 then activate e.table s2.1 else (s2.1, {})
  let s4 := if d.epi 5 then clampStage s3.1 (d.field 31 31 0) (d.field 32 31 0) else s3.1
  ⟨s4, x.poison || (d.epi 1 && sc.2) || (d.epi 2 && bi.2) || (d.epi 3 && dElem.2) || (d.epi 4 && e.tablePoison),
    (x.flags.or s1.2).or (s2.2.or s3.2)⟩

/-! ## The output -/

/-- An output row: the element encodings with their poison flags, the scale bytes with theirs, and the flags raised. -/
structure OutRow where
  elems : List Elem
  scales : List Elem
  flags : ArithFlags
  deriving DecidableEq, Repr

/-- R95: quantise a row in blocks of 32, padding the last with +0. -/
def quantRow (d : PrimDesc) (i : Nat) : (blocks col : Nat) → List Sum → OutRow
  | 0, _, _ => ⟨[], [], {}⟩
  | b + 1, col, xs =>
    let blk := xs.take 32
    let vs := (List.range blk.length).map fun j => (fromFp32 (blk.getD j ⟨0, false, {}⟩).word, srDraw d.seed i (col + j))
    let q := mxQuantise d.outFmt d.rnd (vs ++ List.replicate (32 - blk.length) (Num.zero, 0))
    let p := blk.any Sum.poison
    let rest := quantRow d i b (col + 32) (xs.drop 32)
    let es := (List.range 32).map fun j =>
      if j < blk.length then (q.2.1.getD j 0, (blk.getD j ⟨0, false, {}⟩).poison) else (0, false)
    ⟨es ++ rest.elems, (q.1, p) :: rest.scales, q.2.2.or rest.flags⟩

/-- R88 to R96: convert a row of epilogue values to the output format. -/
def outRow (d : PrimDesc) (i : Nat) (xs : List Sum) : OutRow :=
  let fl := (xs.map Sum.flags).foldl ArithFlags.or {}
  if d.outMx then
    let q := quantRow d i ((xs.length + 31) / 32) 0 xs
    { q with flags := fl.or q.flags }
  else
    let cs := (List.range xs.length).map fun j =>
      let x := xs.getD j ⟨0, false, {}⟩
      let r := convertOut d.outFmt false d.sat d.rnd (srDraw d.seed i j) (fromFp32 x.word)
      ((r.1, x.poison), r.2)
    ⟨cs.map Prod.fst, [], fl.or ((cs.map Prod.snd).foldl ArithFlags.or {})⟩

/-- Elements packed as a little-endian bit string (R81, R148). -/
def packElems (w : Nat) (es : List Elem) : Nat := es.foldr (fun e v => e.1 + 2 ^ w * v) 0

/-- R121: the chunks of an operation, and its (n tile, chunk) pairs. -/
def PrimDesc.chunks (d : PrimDesc) : Nat := (d.m + 4095) / 4096
def PrimDesc.nTiles (d : PrimDesc) : Nat := (d.n + 2047) / 2048

/-- R121, R167: the (n tile, chunk) pairs of an operation, or the parts of a CONVERT's output that have a notice each. -/
def PrimDesc.pairs (d : PrimDesc) : Nat := if d.kind = 3 then (d.m * d.n + 8388607) / 8388608 else d.nTiles * d.chunks

/-- R167: the ready notices that the whole output of an operation makes. -/
def PrimDesc.noticeCount (d : PrimDesc) : Nat := if d.dest = 3 then d.pairs else 0

/-- R121, R167: the pair, or the part of a CONVERT, in which a line of row i with its last element in column `last` is complete. -/
def PrimDesc.pairOf (d : PrimDesc) (i last : Nat) : Nat :=
  if d.kind = 3 then (i * d.n + last) / 8388608 else last / 2048 * d.chunks + i / 4096

/-- R29, R192: the south quadrant whose epilogue units produce a line of row i that begins in column `col`. A CONVERT fills each
array cycle across row ends (R150). -/
def PrimDesc.southQuad (d : PrimDesc) (i col : Nat) : Nat :=
  if (if d.kind = 3 then i * d.n + col else col) % 2048 < 1024 then 2 else 3

/-- R149, R176: the lines of row i of w-bit elements at an aligned address; each element stands for `cols` columns. -/
def PrimDesc.rowLines (d : PrimDesc) (i base w cols bytes : Nat) (es : List Elem) : List OutLine :=
  let v := packElems w es
  (List.range ((bytes + 63) / 64)).map fun k =>
    let n := min 64 (bytes - 64 * k)
    let marked := (List.range es.length).any fun j =>
      (es.getD j (0, false)).2 && (decide (w * j / 512 = k) || decide ((w * j + w - 1) / 512 = k))
    let last := min (d.n - 1) (((512 * k + 511) / w + 1) * cols - 1)
    ⟨base + 64 * k, natLe n (v / 2 ^ (512 * k)), marked, i, d.southQuad i (512 * k / w * cols), d.pairOf i last⟩

/-- R149: the lines of output row i. -/
def PrimDesc.outLines (d : PrimDesc) (i : Nat) (o : OutRow) : List OutLine :=
  if d.writes.isEmpty then []
  else d.rowLines i (d.addr 22 + i * d.field 24 31 0) d.outFmt.width 1 (rowBytes d.outFmt d.outMx d.n) o.elems
    ++ (if d.outMx then d.rowLines i (d.addr 25 + i * d.field 27 31 0) 8 32 (scaleBytes d.n) o.scales else [])

/-- R121, R150: the order in which the epilogue writes: pair after pair, and row-major within one. -/
def PrimDesc.passOrder (d : PrimDesc) (ls : List OutLine) : List OutLine :=
  (List.range d.pairs).flatMap fun p => ls.filter fun l => l.pair == p

/-- A computed row: its running sums and its output. -/
abbrev PrimRow := List Sum × OutRow

/-- What an operation delivers of its computed rows. -/
def PrimDesc.deliver (d : PrimDesc) (rows : List PrimRow) : PrimResult :=
  let outs := rows.map Prod.snd
  let lines := (List.range d.m).flatMap fun i => d.outLines i (outs.getD i ⟨[], [], {}⟩)
  let sums := (List.range d.m).flatMap fun i =>
    (List.range d.n).map fun n =>
      let x := ((rows.getD i ([], ⟨[], [], {}⟩)).1.getD n ⟨0, false, {}⟩)
      (accKey i n, (BitVec.ofNat 32 x.word, x.poison))
  let sumFlags := (rows.flatMap Prod.fst).foldl (fun f x => f.or x.flags) {}
  ⟨d.passOrder lines, outs.flatMap OutRow.elems, if d.retain then sums else [],
    outs.foldl (fun f o => f.or o.flags) sumFlags⟩

/-- R144 to R176: the rows of an operation, from the memory and the accumulators as they stand. -/
def State.primRows (s : State) (op : PrimOp) : List PrimRow :=
  let d := op.desc
  let epi := d.epiUsed
  let vec := fun (b : Bool) (w : Nat) =>
    if b && epi then s.rowElems op.badLines ⟨d.addr w, 0, 1, 4 * d.n⟩ 32 d.n 0 else []
  let e : EpiData := ⟨vec (d.epi 1) 33, vec (d.epi 2) 35, op.table, op.tablePoison⟩
  let cols := if d.isMatmul then (List.range d.n).map (s.bCol op) else []
  (List.range d.m).map fun i =>
    let a := s.aRow op i
    let sums := (List.range d.n).map fun n =>
      if d.isMatmul then (s.runningSum d i n a (cols.getD n ([], []))).struck (op.badSums.contains (i, n))
      else convertElem d (a.1.getD n (0, false)) (a.2.getD (n / 32) (0, false))
    let ds := if epi && d.epi 3 then
        s.rowElems op.badLines ⟨d.addr 37, d.field 39 31 0, d.m, rowBytes d.addFmt false d.n⟩ d.addFmt.width d.n i
      else []
    let xs := (List.range d.n).map fun n => epilogue d e n (ds.getD n (0, false)) (sums.getD n ⟨0, false, {}⟩)
    (sums, if epi then outRow d i xs else ⟨[], [], {}⟩)

/-- R144 to R176: everything an operation delivers. -/
def State.primResult (s : State) (op : PrimOp) : PrimResult := op.desc.deliver (s.primRows op)

/-- The lines of an extent. -/
def Extent.lines (e : Extent) : List Nat :=
  (List.range e.rows).flatMap fun i => (List.range ((e.bytes + 63) / 64)).map fun k => e.base + i * e.stride + 64 * k

/-- The lines of extents, read n times over. -/
def readTimes (n : Nat) (es : List Extent) : List Nat := (List.range n).flatMap fun _ => es.flatMap Extent.lines

/-- R121, R148, R160: the memory lines an operation reads, for the records of R595: A once for each n tile, B and the epilogue's vectors
once for each chunk, D once. A CONVERT has one chunk and one n tile (log 24). The table was read in the checks (R158). -/
def PrimOp.readLines (op : PrimOp) : List Nat :=
  let d := op.desc
  let nts := if d.isMatmul then d.nTiles else 1
  let mcs := if d.isMatmul then d.chunks else 1
  readTimes nts op.aExtents ++ readTimes mcs d.bExtents ++ readTimes mcs d.vectors ++ readTimes 1 d.addend

/-! ## Errors of the array's own buffers -/

/-- R29, R184: the cell of a west feeder or north loader. -/
def feedCell (unit : Fin 4) : Nat :=
  match unit.val with
  | 0 => cellId 2 9 0
  | 1 => cellId 4 9 0
  | 2 => cellId 2 10 0
  | _ => cellId 3 10 0

/-- R604: what an error of the array's own buffers marks for the operation in the array, and its record. -/
def State.primUpset (s : State) (op : PrimOp) : PrimUpset → PrimOp × State
  | .south i n bad =>
    if !op.desc.isMatmul then (op, s)
    else
      (if bad then { op with badSums := (i, n) :: op.badSums } else op,
        s.bufErr (cellId (op.desc.southQuad i n + 2) 11 0) (if bad then .bad else .corrected))
  | .feed u line bad =>
    (if bad then { op with badLines := line :: op.badLines } else op, s.bufErr (feedCell u) (if bad then .bad else .corrected))

/-- R604: the errors of a tick, while an operation is in the array and none of its output has left. -/
def State.primUpsets (s : State) (us : List PrimUpset) : State :=
  us.foldl (fun s u => match s.prim.op with
    | none => s
    | some op =>
      if !op.occupies ∨ op.desc.kind = 4 ∨ op.out.isSome then s
      else
        let r := s.primUpset op u
        { r.2 with prim := { r.2.prim with op := some r.1 } }) s

/-! ## Time -/

/-- R114: the K elements of one tile. -/
def PrimDesc.kTile (d : PrimDesc) : Nat :=
  let small := fun f => f == Fmt.e3m2 || f == Fmt.e2m3 || f == Fmt.e2m1
  if small d.aFmt && small d.bFmt then 4096
  else match d.aFmt with
    | .bf16 | .fp16 => 1024
    | .fp32 => 256
    | _ => 2048

/-- R119, R120: the cycles that load one tile: its weight and scale bytes over 2,048. For E2M1 under ρ = 1 the table of R120 gives
1,056, which the division of R119 does not (log 79); W_min is 2,048 under both. -/
def PrimDesc.loadCycles (d : PrimDesc) : Nat :=
  if d.bFmt = .e2m1 ∧ d.kTile = 2048 then 1056
  else (d.kTile * 2048 * d.bFmt.width / 8 + (if d.bMx then d.kTile / 32 * 2048 else 0)) / 2048

/-- R126: the slots of a chunk of mc rows whose k tiles are kts, followed by another chunk or by nothing. -/
def PrimDesc.chunkSlots (d : PrimDesc) (mc kts : Nat) (last : Bool) : Nat :=
  (kts - 1) * max mc 4096 + max mc (if last then 0 else max 2048 d.loadCycles)

/-- R126, R130, R133: the slots of an operation's passes, or the cycles of a CONVERT's elements or of a DARK. -/
def PrimDesc.slots (d : PrimDesc) : Nat :=
  if d.kind = 4 then d.field 6 31 0
  else if d.kind = 3 then (d.m * d.n + 2047) / 2048
  else
    let kts := (d.k + d.kTile - 1) / d.kTile
    let nts := d.nTiles
    let full := d.chunks - 1
    let rest := d.m - full * 4096
    let one := full * d.chunkSlots 4096 kts false
    (nts - 1) * (one + d.chunkSlots rest kts false) + one + d.chunkSlots rest kts true

end Sys2Proof.Machine
end

