-- ==== Sys2Proof/Machine/PrimQueue.lean ====
section
/-! DEFINITION. The Primary queue and what ends an operation: issue (R134, R135, R295), flush and pause (R137, R138), the
blocking conditions (R106, R140), the array clock (R111), completion (R169 to R172) and the early ends (R141, R142, R177). -/

namespace Sys2Proof.Machine

open Sys2Proof

def qnwPrim : Nat := qnwCell

/-- The Primary quarter cell of quadrant q. -/
def quarterCell (q : Nat) : Nat := quadCell q 1 0

/-- R106: the mapped segments of quadrant q. -/
def State.mappedSegments (s : State) (q : Nat) : List Nat :=
  let sr := s.fld F.PRIM_MAP_ROW_IN_FORCE (quarterCell q)
  let sc := s.fld F.PRIM_MAP_COL_IN_FORCE (quarterCell q)
  (List.range 17).flatMap fun r => (List.range 17).filterMap fun c =>
    if r ≠ sr ∧ c ≠ sc then some (quarterCell q + 1 + 17 * r + c) else none

/-- `PRIM_QUEUE_STATUS.BLOCKED`: a quarter cell or a mapped segment is not ENABLED. -/
def State.primBlocked (s : State) : Bool :=
  (List.range 4).any fun q => !s.enabled (quarterCell q) || (s.mappedSegments q).any fun id => !s.enabled id

/-- R111: the lowest FMAX_MHZ among the mapped segments. -/
def State.fusedMin (s : State) : Nat :=
  ((List.range 4).flatMap s.mappedSegments).foldl (fun m id => min m (s.fld F.CELL_CLOCK_FMAX_MHZ id)) 2047

/-- R111: the array clock in MHz. -/
def State.arrayClock (s : State) : Nat :=
  let m := min (min 1800 (s.fld F.PRIM_CLK_CAP_CAP_IN_FORCE qnwPrim)) (min (s.fld F.PRIM_CLK_LIMIT_HEL_LIMIT_MHZ qnwPrim) s.fusedMin)
  max 500 (m / 25 * 25)

/-- `PRIM_CLK_STATUS`: ARRAY_MHZ is 0 while any quarter cell is not ENABLED. -/
def State.primClkStatus (s : State) : Nat :=
  let up := (List.range 4).all fun q => s.enabled (quarterCell q)
  (if up then s.arrayClock else 0) + s.fusedMin * 2 ^ 16

def State.setPrim (s : State) (p : PrimState) : State := { s with prim := p }

/-- `PRIM_QUEUE_STATUS` as it reads. -/
def State.primStatus (s : State) : Nat :=
  let n := s.prim.queue.length
  let kind := if s.primBusy then ((s.prim.op.map fun op => op.desc.kind).getD 0) else if s.prim.darkFrame then 5 else 0
  n + 2 ^ 8 * (decide (n = 0)).toNat + 2 ^ 9 * (decide (n = 64)).toNat + 2 ^ 10 * s.primBusy.toNat
    + 2 ^ 11 * (s.flag F.PRIM_QUEUE_CTRL_PAUSE qnwPrim).toNat + 2 ^ 12 * s.primBlocked.toNat
    + 2 ^ 13 * s.prim.darkFrame.toNat + kind * 2 ^ 16

/-- `PRIM_RUN_TICKET` as it reads. -/
def State.primRun (s : State) : Nat := if s.primBusy then ((s.prim.op.map fun op => op.desc.ticket).getD 0) else 0

/-- R134, R135, R295: queue a descriptor: the ticket, or 0 where the queue is full or the QNW quarter cell is resetting. -/
def State.primPush (s : State) (c : CoreRef) (ws : List Word32) : Nat × State :=
  if s.resetting qnwPrim ∨ 64 ≤ s.prim.queue.length then (0, s)
  else
    let t := (s.reg .PRIM_ISSUE_TICKET qnwPrim).toNat
    let d : PrimDesc := { ticket := t, words := ws, issuer := c, phase := (s.core c).phase }
    let s := s.setPrim { s.prim with queue := s.prim.queue ++ [d] }
    (t, (s.setReg .PRIM_ISSUE_TICKET qnwPrim (BitVec.ofNat 64 (t + 1))).noteLevels)

/-! ## Completion -/

/-- R171, R246: the key of a DONE_BIT that the issuing core may name. -/
def doneKey (c : CoreRef) (b : Nat) : Option Nat :=
  match c with
  | .guider n =>
    if b ≤ 0xFFFF then some (privateKey c.cell b)
    else if 0x100000 ≤ b ∧ b ≤ 0x1FFFFF then some (0x20000000 + 0x100000 * (n.val / 8) + (b - 0x100000))
    else none
  | .dome _ => if b ≤ 0xFFFF then some (privateKey c.cell b) else none
  | .filter _ => none

/-- R171: DONE_BIT meets the rule. -/
def doneOk (c : CoreRef) (b : Nat) : Bool := b == 0xFFFFFFFF || (doneKey c b).isSome

/-- R60, R171, R317: set DONE_BIT; a private bit of a core that is not ENABLED, or that has been reset since it issued the
descriptor (`cut`), is not set: the set is discarded and counted. -/
def State.setDone (s : State) (c : CoreRef) (b : Nat) (cut : Bool) : State :=
  if b = 0xFFFFFFFF then s
  else match doneKey c b with
    | none => s
    | some k => if k < 2 ^ 32 ∨ (s.enabled c.cell ∧ !cut) then s.putBit k true else s.count c.cell 0x005

/-- R171: CMPL_ADDR meets checks 0x07 and 0x08; `dome` says that a Dome core issued the descriptor (R652). -/
def State.cmplOk (s : State) (dome : Bool) (a : Nat) : Bool := a % 64 == 0 && extentMapped a 64 && s.extentFree dome a 64

/-- R171, R204: write a completion record; where its memory cell is not ENABLED the record is lost and ACCESS recorded. -/
def State.writeRecord (s : State) (dome en : Bool) (a : Nat) (ws : List Word32) (cell : Nat) : State :=
  if !en || !s.cmplOk dome a then s
  else if s.memUp a 64 then s.writeMem a (bytesOf ws) false 2
  else s.recordError cell clsAccess a 0

/-- R169: the completion record. -/
def PrimDone.record (p : PrimDone) (now : Nat) : List Word32 :=
  let t := p.desc.ticket
  let fl := p.flags
  buildWords 16 [(0, 31, 0, t), (1, 31, 0, t / 2 ^ 32), (2, 7, 0, p.status), (2, 8, 8, fl.nanIn.toNat), (2, 9, 9, fl.invalid.toNat),
    (2, 10, 10, fl.overflow.toNat), (2, 11, 11, fl.saturated.toNat), (2, 15, 12, p.desc.kind), (2, 23, 16, p.refuse),
    (3, 31, 0, p.desc.field 45 31 0), (4, 31, 0, min p.poisonLines 0xFFFFFFFF), (6, 31, 0, p.acceptTime),
    (7, 31, 0, p.acceptTime / 2 ^ 32), (8, 31, 0, now), (9, 31, 0, now / 2 ^ 32), (10, 31, 0, p.arrayCycles),
    (11, 31, 0, p.arrayCycles / 2 ^ 32), (12, 31, 0, p.stallSlots), (13, 31, 0, p.stallSlots / 2 ^ 32)]

/-- R124: clear RETAINED. -/
def State.clearRetained (s : State) : State :=
  (s.setReg .PRIM_ACC_STATUS qnwPrim 0).setPrim { s.prim with acc := [] }

/-- The completion that is posted next: the lowest ticket of those that have left, when no operation of a lower ticket remains. -/
def State.nextDone (s : State) : Option PrimDone :=
  match s.prim.done with
  | [] => none
  | d :: ds =>
    let p := ds.foldl (fun a b => if b.desc.ticket < a.desc.ticket then b else a) d
    match s.prim.op with
    | some op => if op.desc.ticket < p.desc.ticket then none else some p
    | none => some p

/-- R170: the statuses. -/
def primOk : Nat := 0
def primProtocol : Nat := 1
def primFlushed : Nat := 2
def primArrayFault : Nat := 3
def primArrayReset : Nat := 4
def primSourceFailed : Nat := 5
def primMemoryFault : Nat := 6

/-! ## What an operation waits for -/

/-- Whether two extents share a byte. -/
def Extent.meets (e f : Extent) : Bool :=
  (List.range e.rows).any fun i => (List.range f.rows).any fun j =>
    decide (e.base + i * e.stride < f.base + j * f.stride + f.bytes) && decide (f.base + j * f.stride < e.base + i * e.stride + e.bytes)

/-- R151, R172: an operation of a lower ticket whose write tail has not ended writes into one of these extents. -/
def State.behind (s : State) (ticket : Nat) (es : List Extent) : Bool :=
  let tails := (s.prim.op.map PrimOp.desc).toList
    ++ (s.prim.done.filter fun p => p.status != primProtocol && p.status != primFlushed).map PrimDone.desc
  tails.any fun d => decide (d.ticket < ticket) && d.kind != 4 && d.writes.any fun w => es.any w.meets

/-- R165: every element of a Collector source's row i has arrived. -/
def PrimOp.rowHere (op : PrimOp) (i : Nat) : Bool :=
  let c := op.desc.inner
  op.desc.aSrc != 2 || (List.range c).all fun k => (smapGet (fun _ => none) op.elems (i * c + k)).isSome

/-- R164: a completion is that of an operation's loopback source, with a status other than OK. -/
def PrimOp.failedBy (op : PrimOp) (p : PrimDone) : Bool := op.loopSrc == some p.desc.ticket && p.status != primOk

/-- R164: row i of a loopback source is visible. What the source wrote before it left the array is; of a source that ended early, the
rows it had written. -/
def State.loopRowHere (s : State) (op : PrimOp) (i : Nat) : Bool :=
  match s.prim.done.find? (op.failedBy ·) with
  | some p => decide (i < p.rows)
  | none => true

/-- R164: the loopback source of an operation has ended early and its completion is not posted yet. -/
def State.loopFailed (s : State) (op : PrimOp) : Bool := s.prim.done.any (op.failedBy ·)

/-- R164, R165: row i of the A stream can be read. -/
def State.aRowHere (s : State) (op : PrimOp) (i : Nat) : Bool := op.rowHere i && s.loopRowHere op i

/-! ## The early end -/

/-- The least of some numbers, or a default. -/
def leastOf (dflt : Nat) (l : List Nat) : Nat := l.foldl min dflt

/-- R139, R676: what an operation counts: the cycles it occupied the array, the slots that multiply, stall, or are bubbles. -/
def State.primCount (s : State) (cyc mult stall bubbles : Nat) : State :=
  let s := s.count qnwPrim (evOf 0x10 0) none cyc
  let s := s.count qnwPrim (evOf 0x10 1) none mult
  let s := s.count qnwPrim (evOf 0x10 2) none stall
  s.count qnwPrim (evOf 0x10 3) none bubbles

/-- R126: slots that carry an A row. -/
def PrimDesc.multSlots (d : PrimDesc) : Nat :=
  if d.isMatmul then d.nTiles * ((d.k + d.kTile - 1) / d.kTile) * d.m else 0

/-- R126: the slots of the loop. -/
def PrimDesc.bubbles (d : PrimDesc) : Nat := if d.isMatmul then d.slots - d.multSlots else 0

/-- R130, R133, R169: the cycles, multiplying slots, stalled slots and bubbles of an operation that ended early: free values within what
the whole operation would count (log 21). -/
def State.freeCounts (s : State) (op : PrimOp) : (Nat × Nat × Nat × Nat) × State :=
  let d := op.desc
  if !op.occupies then ((0, 0, 0, 0), s)
  else
    let m := s.free 64
    let b := m.2.free 64
    let st := b.2.free 64
    let f := st.2.free 64
    let mult := m.1.toNat % (d.multSlots + 1)
    let bub := b.1.toNat % (d.bubbles + 1)
    let stall := if d.kind = 4 then 0 else st.1.toNat
    let more := if d.kind = 4 then d.slots + 1 else if d.kind = 3 then d.slots + 257 else 4177
    ((mult + bub + stall + f.1.toNat % more, mult, stall, bub), f.2)

/-- The lines that an operation has still to write: those left of what it delivers, or all of it. -/
def State.linesToCome (s : State) (op : PrimOp) : List OutLine :=
  if !op.occupies ∨ op.desc.kind = 4 then []
  else match op.out with
    | some r => r.lines
    | none => (s.primResult op).lines

/-- R141, R142, R177: the operation in the array, in its start latency or in its checks ends. How many of the lines it might have written
by then it has written is a free value (log 21). After a memory fault the lines in a write-behind are not written either. -/
def State.primEnd (s : State) (status : Nat) : State :=
  match s.prim.op with
  | none => s
  | some op =>
    let d := op.desc
    let k := s.free 64
    let fl := k.2.free 4
    let x := fl.2.freeCounts op
    let s := x.2
    let all := s.linesToCome op
    let can := if s.behind d.ticket d.streams then []
      else all.takeWhile fun l => s.aRowHere op l.row && s.memUp l.addr l.bytes.length
    let n := k.1.toNat % (can.length + 1)
    let lines := can.take n
    let s := lines.foldl (fun (s : State) l => s.writeMem l.addr l.bytes l.mark 2) s
    let lost := if status = primMemoryFault then (s.prim.wb.filter fun l => l.ticket == d.ticket).map WbLine.line else []
    let missing := lost ++ all.drop n
    let wrote := op.occupies && d.kind != 4
    let flags : ArithFlags := if wrote then ⟨fl.1.getLsbD 0, fl.1.getLsbD 1, fl.1.getLsbD 2, fl.1.getLsbD 3⟩ else {}
    let done : PrimDone :=
      { desc := d, acceptTime := op.acceptTime, status := status, flags := flags,
        poisonLines := op.poisonLines + (lines.filter OutLine.mark).length - (lost.filter OutLine.mark).length,
        arrayCycles := x.1.1, stallSlots := x.1.2.2.1, posted := op.posted,
        notices := if wrote then max op.posted (leastOf d.noticeCount (missing.map OutLine.pair)) else 0,
        rows := if wrote then leastOf d.m (missing.map OutLine.row) else 0 }
    let wb := if status = primMemoryFault then s.prim.wb.filter fun l => l.ticket != d.ticket else s.prim.wb
    let s := s.primCount x.1.1 x.1.2.1 x.1.2.2.1 x.1.2.2.2
    (s.setPrim { s.prim with op := none, done := s.prim.done ++ [done], wb := wb, preload := none }).clearRetained.noteLevels

/-- R171: post the next completion: the record, DONE_BIT, the ticket. A status other than OK clears RETAINED (R124) and the
loopback state (R163) and fails the operation that reads its loopback output (R164). -/
def State.postDone (s : State) (p : PrimDone) : State :=
  let c := p.desc.issuer
  let s := s.writeRecord c.isDome p.desc.cmplEn p.desc.cmplAddr (p.record s.now) qnwPrim
  let s := s.setDone c p.desc.doneBit p.desc.cut
  let s := s.setReg .PRIM_DONE_TICKET qnwPrim (BitVec.ofNat 64 p.desc.ticket)
  let fails := (s.prim.op.map fun op => op.failedBy p).getD false
  let s := if fails then s.primEnd primSourceFailed else s
  let s := s.setPrim { s.prim with done := s.prim.done.filter fun q => q.desc.ticket ≠ p.desc.ticket }
  let s := s.count qnwPrim (evOf 0x10 6) (some p.status)
  if p.status = 0 then s
  else
    let next := match s.prim.op with
      | some op => op.checking && op.desc.isMatmul
      | none => false
    let s := if s.flag F.PRIM_ACC_STATUS_RETAINED qnwPrim ∧ s.prim.accTicket = p.desc.ticket ∧ !next then s.clearRetained.noteLevels else s
    if (s.prim.loop.map Loopback.ticket) = some p.desc.ticket then s.setPrim { s.prim with loop := none } else s

/-- R192, R193: a completion waits for its write-behind lines and its ready notices. -/
def State.doneReady (s : State) (p : PrimDone) : Bool :=
  p.posted == p.notices && s.prim.wb.all fun l => l.ticket != p.desc.ticket

/-- R171: PRIM_COMPLETE. -/
def execPrimComplete (s : State) : Out :=
  .next (if s.stopped then s else match s.nextDone with
    | some p => if s.doneReady p then s.postDone p else s
    | none => s)

/-! ## Flush, memory faults and reset -/

/-- R137: every queued descriptor is completed FLUSHED, in ticket order. -/
def State.primFlush (s : State) : State :=
  let ds := s.prim.queue.map fun d => ({ desc := d, acceptTime := 0, status := primFlushed } : PrimDone)
  (s.setPrim { s.prim with queue := [], done := s.prim.done ++ ds, preload := none, prefetch := none, staged := none }).noteLevels

/-- Whether an extent has a byte in the memory of a cell; a granule of 4 KiB lies on one cell. -/
def Extent.onCell (e : Extent) (cell : Nat) : Bool :=
  (List.range e.rows).any fun i =>
    let a := e.base + i * e.stride
    (List.range ((4095 + (e.bytes + a % 4096)) / 4096)).any fun k => memCell (a - a % 4096 + 4096 * k) == some cell

/-- Every extent that an operation still reads or writes; the table only in its checks (R158). -/
def PrimOp.extents (op : PrimOp) : List Extent :=
  if op.desc.kind = 4 then []
  else op.loopReads ++ op.desc.streams ++ (if op.checking then op.desc.tableExtent else []) ++ op.desc.writes

/-- Whether every memory cell of an extent is ENABLED. -/
def State.extentUp (s : State) (e : Extent) : Bool := (List.range e.rows).all fun i => s.memUp (e.base + i * e.stride) e.bytes

/-- R167, R169, R177: an operation in its write tail ends with MEMORY_FAULT: the lines of its output that have not been written are no
output of it. -/
def PrimDone.loses (p : PrimDone) (lost : List OutLine) : PrimDone :=
  { p with
    status := primMemoryFault
    poisonLines := p.poisonLines - (lost.filter OutLine.mark).length
    notices := max p.posted (leastOf p.notices (lost.map OutLine.pair)) }

/-- R177: the operations whose output waits in a write-behind for a memory cell that failed end with MEMORY_FAULT, and RETAINED is
cleared. -/
def State.failWriteBehind (s : State) (bad : WbLine → Bool) : State :=
  let ts := (s.prim.wb.filter bad).map WbLine.ticket
  if ts.isEmpty then s
  else
    let s := if (s.prim.op.map fun op => ts.contains op.desc.ticket).getD false then s.primEnd primMemoryFault else s
    let done := s.prim.done.map fun p =>
      if ts.contains p.desc.ticket then
        p.loses ((s.prim.wb.filter fun l => l.ticket == p.desc.ticket).map WbLine.line)
      else p
    (s.setPrim { s.prim with done := done, wb := s.prim.wb.filter fun l => !ts.contains l.ticket }).clearRetained.noteLevels

/-- R177: a memory cell has entered FAULT, or is found not ENABLED: the operation whose path it lies on ends at once. -/
def State.primMemoryFail (s : State) (cell : Nat) : State :=
  let s := s.failWriteBehind fun l => memCell l.line.addr == some cell
  match s.prim.op with
  | none => s
  | some op => if op.extents.any fun e => e.onCell cell then s.primEnd primMemoryFault else s

/-- R143: a reset of the QNW Primary quarter cell discards everything and restarts the tickets. -/
def State.primReset (s : State) : State :=
  (((s.setPrim { wb := [] }).setReg .PRIM_ISSUE_TICKET qnwPrim 1).setReg .PRIM_DONE_TICKET qnwPrim 0).setReg
    .PRIM_ACC_STATUS qnwPrim 0

/-! ## The feed rings -/

/-- R195: a descriptor needs no prefetch: the operands of its first tile and first A rows do not lie in stack memory. -/
def PrimDesc.noPrefetch (d : PrimDesc) : Bool := d.kind == 4 || (d.aMem ++ d.bExtents).all fun e => !inStack e.base

/-- R186: the ring of a quadrant is in force. -/
def State.ringUp (s : State) (q : Nat) : Bool := s.flag F.PLT_RING_CTRL_EN_IN_FORCE (platesCell q)

/-- R189, R194: those of these extents that lie in stack memory are read by units whose quadrants have their rings in force. -/
def State.ringsOf (s : State) (es : List Extent) (quads : List Nat) : Bool :=
  (es.all fun e => !inStack e.base) || quads.all s.ringUp

/-- R189: the rings that the prefetch of a descriptor's first tile and first A rows uses are in force: west feeders lie on QNW and QSW,
weight loaders on QNW and QNE. -/
def State.ringsFor (s : State) (d : PrimDesc) : Bool := s.ringsOf d.aMem [0, 2] && s.ringsOf d.bExtents [0, 1]

/-- R189, R194: the rings that all of a descriptor's reads use are in force: the epilogue units lie on QSW and QSE. -/
def State.ringsForAll (s : State) (d : PrimDesc) : Bool := s.ringsFor d && s.ringsOf (d.vectors ++ d.addend) [2, 3]

/-- R189 to R191: the prefetch of the head descriptor's first tile and rows may go on: it needs one, its rings are in force, and it
waits for no write tail (R190). -/
def State.canPrefetch (s : State) (d : PrimDesc) : Bool := !d.noPrefetch && s.ringsFor d && !s.behind d.ticket (d.aMem ++ d.bExtents)

/-- `FEED_STATUS` as it reads. -/
def State.feedStatus (s : State) : Nat :=
  let staged := match s.prim.queue with
    | [] => false
    | d :: _ => d.noPrefetch || s.prim.staged == some d.ticket
  staged.toNat + 2 * (!s.prim.wb.isEmpty).toNat

/-- R188: a change of RING_EN takes effect once the queue is empty, the array is not occupied and no write-behind holds data;
the lines of a released ring become invalid (R600). -/
def State.ringChange (s : State) (q : Nat) : State :=
  let c := platesCell q
  let en := s.flag F.PLT_RING_CTRL_RING_EN c
  if en = s.flag F.PLT_RING_CTRL_EN_IN_FORCE c ∨ !s.prim.queue.isEmpty ∨ s.primBusy ∨ !s.prim.wb.isEmpty then s
  else
    let s := s.setFlag F.PLT_RING_CTRL_EN_IN_FORCE c en
    s.clearMem (ringRange q).1 (ringRange q).2

/-- R192: drain lines of the write-behinds in the order of arrival. A line whose memory cell is not ENABLED ends its operation
(R177). -/
def State.drainOne (s : State) : State :=
  match s.prim.wb with
  | [] => s
  | w :: ls =>
    let l := w.line
    if s.memUp l.addr l.bytes.length then
      (s.setPrim { s.prim with wb := ls }).writeMem l.addr l.bytes l.mark 2
    else s.failWriteBehind fun x => x.ticket == w.ticket

def State.drain (s : State) : Nat → State
  | 0 => s
  | n + 1 => s.drainOne.drain n

def execRingChangeTakeEffect (quad : Fin 4) (s : State) : Out := .next (if s.stopped then s else s.ringChange quad.val)

def execWriteBehindDrain (lines : Nat) (s : State) : Out := .next (if s.stopped then s else s.drain lines)

/-- R189, R190: prefetch begins for the descriptor at the head. What the engines read ahead for the operation that occupies the array
leaves no state of its own: it shows in its feed stalls alone (R196). -/
def execPrefetch (s : State) : Out :=
  .next (if s.stopped then s else match s.prim.queue with
    | d :: _ => if s.canPrefetch d then s.setPrim { s.prim with prefetch := some d.ticket } else s
    | [] => s)

/-- R190, R195: the rings come to hold the first tile and rows of the head descriptor. -/
def execHeadStaged (s : State) : Out :=
  .next (if s.stopped then s else match s.prim.queue with
    | d :: _ => if s.prim.prefetch = some d.ticket ∧ s.canPrefetch d then s.setPrim { s.prim with staged := some d.ticket } else s
    | [] => s)

/-- R129: the first tile of the head MATMUL is preloaded while the array is occupied. -/
def execPrimPreload (s : State) : Out :=
  .next (if s.stopped then s else match s.prim.queue with
    | d :: _ => if s.primBusy ∧ d.isMatmul then s.setPrim { s.prim with preload := some d.ticket } else s
    | [] => s)

end Sys2Proof.Machine
end

