-- ==== Sys2Proof/Machine/Accord.lean ====
section
/-! DEFINITION. Accord (R646, R647): the rounds of the watched Collector slot, and the pace they set. -/

namespace Sys2Proof.Machine

open Sys2Proof

def State.setHel (s : State) (h : HelState) : State := { s with hel := h }

/-- R648: a bit of `HEL_EVENTS` is set. -/
def State.helEvent (s : State) (b : Nat) : State :=
  (s.setReg .HEL_EVENTS helCell (s.reg .HEL_EVENTS helCell ||| BitVec.ofNat 64 (2 ^ b))).event 0x4002D000

/-- R647: pacing ends and the limit is lifted. -/
def State.accordEnd (s : State) : State :=
  let s := s.setHel { s.hel with accord := none }
  (s.setFlag F.HEL_STATUS_PACING helCell false).setFld F.HEL_ACCORD_STATUS_PACE_MHZ helCell 0 |>.setFlag F.HEL_ACCORD_STATUS_PACING helCell false
    |>.noteLevels

/-- A multiple of 25 MHz not above a clock, and at least `low`. -/
def floor25 (low : Nat) (f : Rat) : Nat := max low ((f / 25).floor.toNat * 25)

/-- R647: the ACCORD limit after a round with the times i and w in ns; pacing ends where it is no limit. -/
def State.accordPace (s : State) (i w : Int) : State :=
  let den : Int := w + i - 1000 * s.fld F.HEL_ACCORD_CFG_MARGIN_US helCell
  let f : Rat := (s.arrayClock : Rat) * w / den
  if den ≤ 0 ∨ (s.hel.others : Rat) ≤ f then s.accordEnd
  else
    let m := floor25 500 f
    let was := s.hel.accord.isSome
    let s := s.setHel { s.hel with accord := some m }
    let s := (s.setFlag F.HEL_STATUS_PACING helCell true).setFlag F.HEL_ACCORD_STATUS_PACING helCell true
    let s := s.setFld F.HEL_ACCORD_STATUS_PACE_MHZ helCell m
    (if was then s else s.helEvent 6).noteLevels

/-- R646: a round of slot n is complete; `own` is this part's rank, `busy` the total time the array had been occupied at ROUND_FIRST. -/
def State.accordRound (s : State) (n own busy : Nat) (first : Option Nat) : State :=
  if !s.flag F.HEL_ACCORD_CFG_EN helCell ∨ s.fld F.HEL_ACCORD_CFG_SLOT helCell ≠ n then s
  else
    let start := first.getD (s.fld F.COL_SLOTn_ROUND_FIRST_TIME colCell n)
    let span : Int := s.fld F.COL_SLOTn_ROUND_LAST_TIME colCell n - start
    let w : Int := min span (s.busyNs - busy)
    let i : Int := span - w
    let late := s.fld F.COL_SLOTn_INFO_LATE_RANK colCell n
    let early := late != own && decide (1000 * (s.fld F.HEL_ACCORD_CFG_MARGIN_US helCell : Int) < i)
    let s := s.count helCell (evOf 0x31 (if early then 7 else 8))
    let run := if early then min 255 (s.fld F.HEL_ACCORD_STATUS_RUN helCell + 1) else 0
    let s := s.setFld F.HEL_ACCORD_STATUS_RUN helCell run
    let s := s.setFld F.HEL_ACCORD_STATUS_IDLE_US helCell (min 0xFFFFFFFF (i.toNat / 1000))
    if s.hel.accord.isSome then (if late = own then s.accordEnd else s.accordPace i w)
    else if max 1 (s.fld F.HEL_ACCORD_CFG_STEPS helCell) ≤ run then s.accordPace i w
    else s

/-- R647: the STATE of slot n leaves OPEN. -/
def State.accordSlotLeft (s : State) (n : Nat) : State :=
  if s.hel.accord.isSome ∧ s.fld F.HEL_ACCORD_CFG_SLOT helCell = n then s.accordEnd else s

end Sys2Proof.Machine
end

