-- ==== Sys2Proof/Machine/Collector.lean ====
section
/-! DEFINITION. The Collector (chapter 10): the checks of a run (R334), accumulation with quota and backing (R339 to R344),
delivery (R347), egress (R336), rounds (R350, R353), abort (R355 to R357) and the commands (R329, R359). -/

namespace Sys2Proof.Machine

open Sys2Proof

/-! ## Slots -/

def State.colSlot (s : State) (n : Nat) : ColSlot := smapGet (fun _ => {}) s.col.slots n

def State.setColSlot (s : State) (n : Nat) (c : ColSlot) : State :=
  { s with col := { s.col with slots := smapSet (fun _ => {}) s.col.slots n c } }

/-- R327: the fields of the open descriptor. -/
def ColSlot.field (c : ColSlot) (w hi lo : Nat) : Nat := wfield c.words w hi lo
def ColSlot.addr (c : ColSlot) (w : Nat) : Nat := wlong c.words w % 2 ^ 48
def ColSlot.kind (c : ColSlot) : Nat := c.field 0 3 0
def ColSlot.exact (c : ColSlot) : Bool := c.field 0 9 8 == 0
def ColSlot.op (c : ColSlot) : FastOp := match c.field 0 11 10 with
  | 1 => .max
  | 2 => .min
  | _ => .sum
def ColSlot.outFmt (c : ColSlot) : Fmt := (Fmt.ofCode (c.field 0 15 12)).getD .fp32
def ColSlot.sat (c : ColSlot) : Bool := c.field 0 16 16 == 1
def ColSlot.steer (c : ColSlot) : Nat := c.field 0 19 17
def ColSlot.collId (c : ColSlot) : Nat := c.field 1 15 0
def ColSlot.ownRank (c : ColSlot) : Nat := c.field 1 27 16
def ColSlot.size (c : ColSlot) : Nat := c.field 2 12 0
def ColSlot.elems (c : ColSlot) : Nat := c.field 3 31 0
def ColSlot.shard (c : ColSlot) : Nat := c.field 4 31 0
def ColSlot.chunk (c : ColSlot) : Nat := 2 ^ c.field 5 4 0
def ColSlot.quota (c : ColSlot) : Nat := c.field 7 16 0 * 1024
def ColSlot.spill (c : ColSlot) : Nat := c.addr 12
def ColSlot.skew (c : ColSlot) : Nat := c.addr 14
def ColSlot.outBytes (c : ColSlot) : Nat := c.outFmt.width / 8

/-- R329: the slot bytes of an element. -/
def ColSlot.slotBytes (c : ColSlot) : Nat := if c.exact then 40 else 4

/-- R328: the entry of a rank: its connection, and whether it is local. -/
def ColSlot.conn (c : ColSlot) (r : Nat) : Nat := wfield c.members r 15 0
def ColSlot.isLocal (c : ColSlot) (r : Nat) : Bool := wfield c.members r 16 16 == 1

/-- R323: the shard of a rank, as a range of offsets. -/
def ColSlot.shardOf (c : ColSlot) (r : Nat) : Nat × Nat :=
  if c.kind = 1 then (0, c.elems) else (min c.elems (r * c.shard), min c.elems ((r + 1) * c.shard))

/-- R322: L, the elements this part accumulates. -/
def ColSlot.inL (c : ColSlot) (e : Nat) : Bool :=
  let r := c.shardOf c.ownRank
  decide (r.1 ≤ e) && decide (e < r.2)

def ColSlot.sizeL (c : ColSlot) : Nat := (c.shardOf c.ownRank).2 - (c.shardOf c.ownRank).1

/-- R322: O, the output of the part, as a range. -/
def ColSlot.rangeO (c : ColSlot) : Nat × Nat := if c.kind = 2 then c.shardOf c.ownRank else (0, c.elems)

def ColSlot.sizeO (c : ColSlot) : Nat := c.rangeO.2 - c.rangeO.1

/-- R322: the contributions an element of L expects. -/
def ColSlot.expected (c : ColSlot) : Nat := if c.kind = 3 then 1 else c.size

/-- ALL_GATHER and ALL_REDUCE: results are exchanged. -/
def ColSlot.gathers (c : ColSlot) : Bool := c.kind == 3 || c.kind == 4

/-- R324, R350: the chunks that hold elements of O. -/
def ColSlot.chunksO (c : ColSlot) : List Nat :=
  if c.sizeO = 0 then []
  else (List.range ((c.rangeO.2 + c.chunk - 1) / c.chunk)).filter fun k => decide (c.rangeO.1 < (k + 1) * c.chunk)

/-- The elements of chunk k that lie in O, as a range. -/
def ColSlot.chunkRange (c : ColSlot) (k : Nat) : Nat × Nat :=
  (max c.rangeO.1 (k * c.chunk), min c.rangeO.2 ((k + 1) * c.chunk))

/-- R352: a chunk lies outside the own shard. -/
def ColSlot.gatherChunk (c : ColSlot) (k : Nat) : Bool := c.kind != 1 && !c.inL (k * c.chunk)

def State.colState (s : State) (n : Nat) : Nat := s.fld F.COL_SLOTn_STATE_STATE colCell n
def State.colStep (s : State) (n : Nat) : Nat := s.fld F.COL_SLOTn_STATE_STEP colCell n

/-- The slot of an open collective, OPEN or ABORTED, by its id. -/
def State.colFind (s : State) (id : Nat) : Option Nat :=
  (List.range 1024).find? fun n => s.colState n != 0 && s.fld F.COL_SLOTn_STATE_COLL_ID colCell n == id

/-- R325: a step as the signed difference from the current one. -/
def stepDiff (t s : Nat) : Int := (BitVec.ofNat 32 t - BitVec.ofNat 32 s).toInt

def ColSlot.round (c : ColSlot) (next : Bool) : ColRound := if next then c.nxt else c.cur
def ColSlot.setRound (c : ColSlot) (next : Bool) (r : ColRound) : ColSlot := if next then { c with nxt := r } else { c with cur := r }

/-- What is noted of a chunk of a round. -/
def ColRound.chunk (r : ColRound) (k : Nat) : ColChunk := smapGet (fun _ => {}) r.chunks k

def ColSlot.elem (c : ColSlot) (next : Bool) (e : Nat) : Option ColElem :=
  smapGet (fun _ => none) ((c.round next).elems.map fun p => (p.1, some p.2)) e

def ColSlot.setElem (c : ColSlot) (next : Bool) (e : Nat) (x : ColElem) : ColSlot :=
  let r := c.round next
  c.setRound next { r with elems := smapPut e x r.elems }

/-- R353: note an arrival for the chunk of an element; `done` says that it completed an element. -/
def ColSlot.noteArrival (c : ColSlot) (next : Bool) (e time rank : Nat) (done : Bool) : ColSlot :=
  let r := c.round next
  let k := e / c.chunk
  let x := r.chunk k
  let x := { x with first := some (match x.first with
    | some t => min t time
    | none => time) }
  let x := if done then { x with last := time, rank := rank } else x
  c.setRound next { r with chunks := smapSet (fun _ => {}) r.chunks k x }

/-! ## Discards -/

/-- R334: record a discarded run: PROTOCOL with slot, rank and subcode. -/
def State.colProtocol (s : State) (slot : Option Nat) (rank sub : Nat) : State :=
  s.recordError colCell clsProtocol 0 (slot.getD 0x3FF + rank % 4096 * 2 ^ 10 + sub * 2 ^ 24)

/-- The photometer event DISCARDS with its qualifier. -/
def State.colDiscard (s : State) (qual : Nat) : State := s.count colCell (evOf 0x28 5) (some qual)

/-- Add 1 to a saturating 16-bit counter of the slot registers. -/
def State.colBump (s : State) (f : Fld) (n : Nat) : State :=
  let v := s.fld f colCell n
  if v < 0xFFFF then s.setFld f colCell (v + 1) n else s

/-! ## Abort -/

/-- R356, R357: the state of both rounds is discarded: elements, waiting elements, intake runs, items not posted and results not
sent. An operation that takes its A stream from the collective ends (R177). -/
def State.colDrop (s : State) (n : Nat) : State :=
  let c := s.colSlot n
  let s := s.setColSlot n { c with cur := {}, nxt := {}, items := [] }
  let s := { s with col := { s.col with
    intake := s.col.intake.filter fun r => r.collId != c.collId
    forwards := s.col.forwards.filter fun f => f.slot != n
    egress := s.col.egress.filter fun g => !(g.slot == n && g.result) } }
  match s.prim.op with
  | some op => if op.desc.isMatmul ∨ op.desc.kind = 3 then
      if op.desc.aSrc = 2 ∧ op.desc.field 10 15 0 = c.collId then s.primEnd primSourceFailed else s
    else s
  | none => s

/-- R355, R356: a collective is aborted. A cause that meets a slot already ABORTED changes nothing. -/
def State.colAbort (s : State) (n cause rank : Nat) : State :=
  if s.colState n ≠ 1 then s
  else
    let s := s.setFld F.COL_SLOTn_STATE_STATE colCell 2 n
    let s := s.setFld F.COL_SLOTn_INFO_ABORT_CAUSE colCell cause n
    let s := s.setFld F.COL_SLOTn_INFO_ABORT_RANK colCell rank n
    ((s.colDrop n).accordSlotLeft n).noteLevels

/-- R342, R347: a memory cell on the path of the backing area or of the output is not ENABLED. -/
def State.colMemoryFault (s : State) (n a : Nat) : State := (s.recordError colCell clsAccess a 0).colAbort n 5 0

/-- R355: the connection of a remote member leaves the connected state. -/
def State.colConnLost (s : State) (conn : Nat) : State :=
  (List.range 1024).foldl (fun s n =>
    if s.colState n ≠ 1 then s
    else
      let c := s.colSlot n
      match (List.range c.size).find? fun r => r != c.ownRank && !c.isLocal r && c.conn r == conn with
      | some r => s.colAbort n 3 r
      | none => s) s

/-! ## Accumulation -/

/-- The slots of accumulator memory that a collective holds, over both rounds. -/
def ColSlot.used (c : ColSlot) : Nat :=
  ((c.cur.elems ++ c.nxt.elems).filter fun p =>
    p.2.place == .open || (p.2.place == .waiting && c.inL p.1)).length

/-- R342: the open, incomplete element least recently added to: its round and offset. -/
def ColSlot.oldest (c : ColSlot) : Option (Bool × Nat × ColElem) :=
  let all := (c.cur.elems.map fun p => (false, p.1, p.2)) ++ (c.nxt.elems.map fun p => (true, p.1, p.2))
  (all.filter fun p => p.2.2.place == .open).foldl (fun b p => match b with
    | none => some p
    | some q => if p.2.2.stamp < q.2.2.stamp then some p else b) none

/-- R342: the address of an element's record in the backing area. -/
def ColSlot.recordAddr (c : ColSlot) (step e : Nat) : Nat :=
  c.spill + 64 * (2 * (e - (c.shardOf c.ownRank).1) + step % 2)

/-- The step of a round. -/
def State.roundStep (s : State) (n : Nat) (next : Bool) : Nat := (s.colStep n + next.toNat) % 2 ^ 32

/-- R97, R342: the eviction record of an element: its word little-endian, the 40 bytes of R97 under EXACT and the FP32 word under FAST,
then `rest`. -/
def ColElem.recordBytes (x : ColElem) (rest : Nat) : List Byte :=
  match x.word with
  | .exact w => natLe 40 w.toNat ++ natLe 24 rest
  | .fast w => natLe 4 (w.getD 0) ++ natLe 60 rest

/-- R342: make room for one more slot. False: no element can be evicted. That the word comes first is the model's choice, and the place of
count and flag is not given: those bytes are free values (log 22). A record that cannot be written aborts the collective. -/
def State.colMakeRoom (s : State) (n : Nat) : Bool × State :=
  let c := s.colSlot n
  if (c.used + 1) * c.slotBytes ≤ c.quota then (true, s)
  else match c.oldest with
    | none => (false, s)
    | some (next, e, x) =>
      let a := c.recordAddr (s.roundStep n next) e
      if s.memUp a 64 then
        let (v, s) := s.free 512
        let bs := x.recordBytes v.toNat
        let s := (s.setColSlot n (c.setElem next e { x with place := .evicted, record := leNat bs })).writeMem a bs false 2
        (true, s.count colCell (evOf 0x28 1))
      else (true, s.colMemoryFault n a)

/-- R342, R344: read an evicted element back. A poisoned record sets its flag. Where another agent has written the record, the
results are undefined (R328): its word is a free value (log 22). -/
def State.colRefill (s : State) (n : Nat) (next : Bool) (e : Nat) (x : ColElem) : State :=
  let c := s.colSlot n
  let a := c.recordAddr (s.roundStep n next) e
  if s.memUp a 64 then
    let (bs, p, s) := s.readMem a 64 2
    let (v, s) := if leNat bs = x.record then (none, s) else let q := s.free 320; (some q.1.toNat, q.2)
    let word := match v, x.word with
      | none, w => w
      | some v, .exact _ => .exact (ExactWord.ofNat v)
      | some v, .fast _ => .fast (some (v % 2 ^ 32))
    (s.setColSlot n (c.setElem next e { x with place := .open, poison := x.poison || p, word := word })).count colCell (evOf 0x28 2)
  else s.colMemoryFault n a

/-- R339: combine a contribution with the word. -/
def ColSlot.combine (c : ColSlot) (f : Fmt) (x : ColElem) (v : Nat × Bool) : ColElem :=
  let num := decodeElem f false v.1
  let word := match x.word with
    | .exact w => .exact (w.add num v.2)
    | .fast w =>
      if v.2 then .fast w
      else .fast (some (match w with
        | some a => c.op.apply a (toFp32 num).1
        | none => match c.op with
          | .sum => FastOp.sum.apply 0 (toFp32 num).1
          | _ => (toFp32 num).1))
  { x with word := word, count := x.count + 1, poison := x.poison || v.2 }

/-- R347: the output of a completed element. -/
def ColSlot.output (c : ColSlot) (x : ColElem) : Nat × Bool :=
  if x.poison then (c.outFmt.nanBits, true)
  else match x.word with
    | .exact w => let r := w.round c.outFmt c.sat; (r.1, r.2.1)
    | .fast w => (w.getD 0, false)

/-- What became of one element of a run. -/
inductive AddFate where
  | added
  | completed
  | excess
  | blocked
  deriving DecidableEq, Repr

/-- The photometer event ADDITIONS. -/
def State.colAdded (s : State) : State := s.count colCell (evOf 0x28 0)

/-- R339, R340: one contribution reaches an element of L. -/
def State.colAdd (s : State) (n : Nat) (next : Bool) (run : ColRun) (e : Nat) (v : Nat × Bool) : AddFate × State :=
  let c := s.colSlot n
  let here := c.elem next e
  let finished := match here with
    | some x => decide (x.place = ColPlace.waiting ∨ x.place = ColPlace.delivered)
    | none => false
  if finished then (.excess, s)
  else
    let needs := match here with
      | some x => decide (x.place = ColPlace.evicted)
      | none => true
    let (ok, s) := if needs then s.colMakeRoom n else (true, s)
    if !ok then (.blocked, s)
    else if s.colState n ≠ 1 then (.added, s)
    else
      let s := match here with
        | some x => if x.place = ColPlace.evicted then s.colRefill n next e x else s
        | none => s
      if s.colState n ≠ 1 then (.added, s)
      else
        let c := s.colSlot n
        let x := (c.elem next e).getD { word := if c.exact then .exact {} else .fast none }
        let x := { c.combine ((Fmt.ofCode run.fmt).getD .fp32) x v with stamp := c.clock }
        let done := x.count == c.expected
        let x := if done then { x with place := .waiting, out := c.output x } else x
        let c := { (c.setElem next e x).noteArrival next e run.time run.rank done with clock := c.clock + 1 }
        (if done then .completed else .added, (s.setColSlot n c).colAdded)

/-- R340: a RESULT element completes on arrival with the value it carries. -/
def State.colResult (s : State) (n : Nat) (next : Bool) (run : ColRun) (e : Nat) (v : Nat × Bool) : AddFate × State :=
  let c := s.colSlot n
  if (c.elem next e).isSome then (.excess, s)
  else
    let out := if v.2 then (c.outFmt.nanBits, true) else v
    let c := (c.setElem next e { word := .fast none, count := 1, poison := v.2, place := .waiting, out := out }).noteArrival
      next e run.time run.rank true
    (.completed, s.setColSlot n c)

/-! ## Egress -/

/-- R336: queue one element for Transit: it joins the run it continues, of one collective, step, type, source and shard, or begins one. -/
def growRun (fmtBytes : Nat) (g : EgressRun) (v : Nat × Bool) : List EgressRun → List EgressRun
  | [] => [{ g with elems := [v.1], poison := v.2 }]
  | h :: hs =>
    if h.slot = g.slot ∧ h.conn = g.conn ∧ h.dest = g.dest ∧ h.result = g.result ∧ h.rank = g.rank ∧ h.collId = g.collId
        ∧ h.step = g.step ∧ h.fmt = g.fmt
        ∧ h.poison = v.2 ∧ h.offset + h.elems.length = g.offset ∧ h.elems.length < 4080 / fmtBytes then
      { h with elems := h.elems ++ [v.1] } :: hs
    else h :: growRun fmtBytes g v hs

def State.colEgress (s : State) (g : EgressRun) (v : Nat × Bool) : State :=
  let w := ((Fmt.ofCode g.fmt).getD .fp32).width / 8
  { s with col := { s.col with egress := growRun w g v s.col.egress } }

/-- R336: a local contribution for another rank's shard is routed to its owner. -/
def State.colRoute (s : State) (n : Nat) (next : Bool) (run : ColRun) (e : Nat) (v : Nat × Bool) : State :=
  let c := s.colSlot n
  let owner := e / c.shard
  let r := c.round next
  let own := run.rank == c.ownRank
  let s := s.setColSlot n (c.setRound next { r with routed := r.routed + own.toNat })
  s.colEgress ⟨n, c.conn owner, owner, false, run.rank, c.collId, run.step, run.fmt, e, [], false⟩ v

/-- R336: a completed element of the own shard goes to every other member as a RESULT. -/
def State.colSendResult (s : State) (n : Nat) (next : Bool) (e : Nat) (v : Nat × Bool) : State :=
  let c := s.colSlot n
  if !c.gathers then s
  else (List.range c.size).foldl (fun s r =>
    if r = c.ownRank then s
    else s.colEgress ⟨n, c.conn r, r, true, c.ownRank, c.collId, s.roundStep n next, c.field 0 15 12, e, [], false⟩ v) s

/-! ## Delivery -/

/-- The element is delivered, and its slot free. -/
def State.colDelivered (s : State) (n : Nat) (next : Bool) (e : Nat) : State :=
  let c := s.colSlot n
  match c.elem next e with
  | some x => s.setColSlot n (c.setElem next e { x with place := .delivered })
  | none => s

/-- R347: write a stretch of completed elements that lies in one line, marked where one of them is poisoned. -/
def State.colWrite (s : State) (n : Nat) (next : Bool) (es : List (Nat × (Nat × Bool))) : State :=
  if s.colState n ≠ 1 then s
  else match es with
    | [] => s
    | (e, _) :: _ =>
      let c := s.colSlot n
      let a := c.addr 10 + e * c.outBytes
      let bs := es.flatMap fun p => natLe c.outBytes p.2.1
      if s.memUp a bs.length then
        es.foldl (fun s p => s.colDelivered n next p.1) (s.writeMem a bs (es.any fun p => p.2.2) 2)
      else s.colMemoryFault n a

/-- Cut completed elements into stretches of consecutive offsets within a line of output. -/
def stretches (perLine : Nat) : List (Nat × (Nat × Bool)) → List (List (Nat × (Nat × Bool)))
  | [] => []
  | p :: ps =>
    match stretches perLine ps with
    | (q :: qs) :: rest =>
      if q.1 = p.1 + 1 ∧ q.1 / perLine = p.1 / perLine then (p :: q :: qs) :: rest else [p] :: (q :: qs) :: rest
    | rest => [p] :: rest

/-- R347: deliver the elements that a run completed, and send their results. A collective that the run's own evictions or refills have
aborted delivers nothing (R356). -/
def State.colDeliver (s : State) (n : Nat) (next : Bool) (es : List (Nat × (Nat × Bool))) : State :=
  if s.colState n ≠ 1 then s
  else
    let c := s.colSlot n
    let s := es.foldl (fun s p => if c.inL p.1 then s.colSendResult n next p.1 p.2 else s) s
    match c.steer with
    | 2 => s
    | 4 =>
      let step := s.roundStep n next
      { s with col := { s.col with forwards := s.col.forwards ++ es.map fun p => ⟨n, step, p.1, p.2, s.now⟩ } }
    | _ => (stretches (64 / c.outBytes) es).foldl (fun s g => s.colWrite n next g) s

/-! ## Rounds -/

/-- R353: LATE_RANK and LATE_CHUNKS of the chunks' last ranks. -/
def lateOf (ranks : List Nat) : Option (Nat × Nat) :=
  ranks.foldl (fun b r =>
    let k := (ranks.filter (· == r)).length
    match b with
    | none => some (r, k)
    | some (q, m) => if m < k ∨ (m = k ∧ r < q) then some (r, k) else b) none

/-- R350: whether the current round is complete. -/
def State.roundDone (s : State) (n : Nat) : Bool :=
  let c := s.colSlot n
  if c.sizeO = 0 then c.cur.routed == c.elems
  else c.chunksO.all (fun k => (c.cur.chunk k).done)
    && !(c.gathers && s.col.egress.any fun g => g.slot == n && g.result && g.step == s.colStep n)

/-- R350, R353: the round completes. Where no chunk lies in the own shard, ROUND_FIRST and LATE_RANK are free values (log 22). -/
def State.roundComplete (s : State) (n : Nat) : State :=
  let c := s.colSlot n
  let own := c.cur.chunks.filter fun p => !c.gatherChunk p.1 && p.2.done
  let firsts := own.filterMap fun p => p.2.first
  let (first, s) := match firsts with
    | [] => let q := s.free 64; (q.1.toNat, q.2)
    | t :: ts => (ts.foldl min t, s)
  let (late, s) := match lateOf (own.map fun p => p.2.rank) with
    | some l => (l, s)
    | none => let q := s.free 12; ((q.1.toNat, 0), q.2)
  let s := s.setFld F.COL_SLOTn_ROUND_FIRST_TIME colCell first n
  let s := s.setFld F.COL_SLOTn_ROUND_LAST_TIME colCell s.now n
  let s := s.setFld F.COL_SLOTn_INFO_LATE_RANK colCell late.1 n
  let s := s.setFld F.COL_SLOTn_INFO_LATE_CHUNKS colCell (min late.2 0xFFFF) n
  let busy := c.cur.busy
  let s := s.setColSlot n { c with cur := c.nxt, nxt := {}, timeoutMs := s.fld F.COL_ROUND_TIMEOUT_MS colCell }
  let s := s.setFld F.COL_SLOTn_STATE_STEP colCell (s.colStep n + 1) n
  let s := (s.event (0x40026000 + n)).count colCell (evOf 0x28 6)
  s.accordRound n c.ownRank busy (if firsts.isEmpty then none else some first)

/-- R325, R350: the round completes if it can, and the one after it with it. -/
def State.roundCheck (s : State) (n : Nat) : Nat → State
  | 0 => s
  | k + 1 => if s.colState n = 1 ∧ s.roundDone n then (s.roundComplete n).roundCheck n k else s

/-! ## Runs -/

/-- R334: what becomes of a run. -/
inductive RunFate where
  | discard (sub : Option Nat)
  | aborted
  | stale
  | early
  | hold
  | take (next : Bool)
  deriving DecidableEq, Repr

/-- R333, R334: the rank checks. -/
def ColSlot.rankOk (c : ColSlot) (r : ColRun) : Bool :=
  match r.conn with
  | some cn => decide (r.rank < c.size) && r.rank != c.ownRank && !c.isLocal r.rank && c.conn r.rank == cn
  | none => r.rank == c.ownRank || (decide (r.rank < c.size) && c.isLocal r.rank)

/-- R334, check 8: the offsets. -/
def ColSlot.offsetsOk (c : ColSlot) (r : ColRun) : Bool :=
  let lo := r.offset
  let hi := r.offset + r.elems.length
  let within := fun (p : Nat × Nat) => decide (p.1 ≤ lo) && decide (hi ≤ p.2)
  let own := within (c.shardOf c.ownRank)
  decide (hi ≤ c.elems)
    && (match r.conn, r.result with
      | some _, true => c.gathers && within (c.shardOf r.rank)
      | some _, false => c.kind != 3 && own
      | none, _ => c.kind != 3 || own)

/-- R334, R335: the checks of a run for the slot of its collective. -/
def State.runFate (s : State) (n : Nat) (r : ColRun) : RunFate :=
  let c := s.colSlot n
  let d := stepDiff r.step (s.colStep n)
  if s.colState n = 2 then .aborted
  else if !c.rankOk r then .discard (some 1)
  else if !(((Fmt.ofCode r.fmt).map Fmt.collectable).getD false) || (r.result && r.fmt != c.field 0 15 12) then .discard (some 7)
  else if d < 0 then .stale
  else if 1 < d then (if r.conn.isSome then .early else .hold)
  else if !c.offsetsOk r then .discard (some 8)
  else .take (d == 1)

/-- Take the elements of a run in turn. What cannot have a slot stays at the head of the intake, with all of the run's cells (R345); the
elements completed are given back. -/
def State.colElems (s : State) (n : Nat) (next : Bool) (run : ColRun) :
    Nat → List (Nat × Bool) → List (Nat × (Nat × Bool)) → List (Nat × (Nat × Bool)) × State
  | _, [], acc => (acc.reverse, s)
  | e, v :: vs, acc =>
    let c := s.colSlot n
    if s.colState n ≠ 1 then (acc.reverse, s)
    else if run.conn.isNone ∧ !c.inL e then (s.colRoute n next run e v).colElems n next run (e + 1) vs acc
    else
      let (fate, s) := if run.result then s.colResult n next run e v else s.colAdd n next run e v
      match fate with
      | .added => s.colElems n next run (e + 1) vs acc
      | .completed =>
        let out := match (s.colSlot n).elem next e with
          | some x => x.out
          | none => (0, false)
        s.colElems n next run (e + 1) vs ((e, out) :: acc)
      | .excess =>
        let s := ((s.colBump F.COL_SLOTn_DISCARDS_EXCESS n).colDiscard 2).colProtocol (some n) run.rank 4
        s.colElems n next run (e + 1) vs acc
      | .blocked =>
        let rest := { run with offset := e, elems := v :: vs, cells := max run.cells (intakeCells run.bytes) }
        (acc.reverse, { s with col := { s.col with intake := rest :: s.col.intake } })

/-- R355, R646: note the first arrival of a round, and with it the time the array had been occupied. -/
def State.noteRound (s : State) (n : Nat) (next : Bool) (time : Nat) (own : Bool) : State :=
  let c := s.colSlot n
  let r := c.round next
  let seen := r.chunks.any fun p => !c.gatherChunk p.1
  let r := { r with arrived := some (r.arrived.getD time), busy := if own && !seen then s.busyNs else r.busy }
  s.setColSlot n (c.setRound next r)

/-- R334: a run that is not held meets its fate. -/
def State.colTakeRun (s : State) (r : ColRun) : State :=
  match s.colFind r.collId with
  | none => (s.colProtocol none r.rank 6).colDiscard 4
  | some n =>
    match s.runFate n r with
    | .discard sub => (s.colProtocol (some n) r.rank (sub.getD 0)).colDiscard 4
    | .aborted => (s.colBump F.COL_SLOTn_DISCARDS_ABORT_DISCARDS n).colDiscard 3
    | .stale =>
      let s := (s.colBump F.COL_SLOTn_DISCARDS_STALE n).colDiscard 0
      if r.conn.isNone then s.colProtocol (some n) r.rank 3 else s
    | .early => ((s.colBump F.COL_SLOTn_DISCARDS_EARLY n).colDiscard 1).colProtocol (some n) r.rank 2
    | .hold => s
    | .take next =>
      let s := s.noteRound n next r.time ((s.colSlot n).inL r.offset)
      let (outs, s) := s.colElems n next r r.offset r.elems []
      (s.colDeliver n next outs).roundCheck n 2

/-- R334: a run would be accumulated or routed. -/
def State.colTakes (s : State) (r : ColRun) : Bool := match s.colFind r.collId with
  | none => false
  | some n => match s.runFate n r with
    | .take _ => true
    | _ => false

/-- R346: a run arrives: it is checked, and goes through the intake behind the runs that wait there. -/
def State.colArrive (s : State) (r : ColRun) : State :=
  if !s.col.intake.isEmpty && s.colTakes r then { s with col := { s.col with intake := s.col.intake ++ [r] } } else s.colTakeRun r

/-- R342: the adders can take the next element of a run: it needs no slot, or there is or can be one. -/
def State.runReady (s : State) (r : ColRun) : Bool := match s.colFind r.collId with
  | none => true
  | some n => match s.runFate n r with
    | .take next =>
      let c := s.colSlot n
      let room := c.oldest.isSome || decide ((c.used + 1) * c.slotBytes ≤ c.quota)
      let needs := match c.elem next r.offset with
        | some x => x.place == .evicted
        | none => c.inL r.offset
      r.result || room || !needs
    | _ => true

/-- R358: the Collector cell is OFF, in FAULT or being reset. -/
def State.colDown (s : State) : Bool :=
  s.cellState colCell == 0 || s.cellState colCell == 4 || s.resetting colCell

/-- R335: a local run is held. A forwarding collective is held by an ABORTED target too (R356). -/
def State.colHolds (s : State) (r : ColRun) (forward : Bool) : Bool :=
  !s.enabled colCell || s.creditHeld
    || (match s.colFind r.collId with
      | none => false
      | some n => match s.runFate n r with
        | .hold => true
        | .aborted => forward
        | _ => false)

/-- R333, R358: Transit hands a run over. -/
def State.colTransitRun (s : State) (r : ColRun) : State := if s.colDown then s.colDiscard 4 else s.colArrive r

/-- R165, R343: the Primary operation that occupies the array takes the waiting elements of its collective's current round. -/
def State.colFeedPrimary (s : State) : State :=
  match s.prim.op with
  | none => s
  | some op =>
    let d := op.desc
    if !op.occupies ∨ d.kind = 4 ∨ d.aSrc ≠ 2 then s
    else match s.colFind (d.field 10 15 0) with
      | none => s
      | some n =>
        let base := d.field 11 31 0
        let c := s.colSlot n
        let len := d.m * d.inner
        let ready := c.cur.elems.filter fun p =>
          p.2.place == .waiting && decide (base ≤ p.1) && decide (p.1 < base + len)
            && (smapGet (fun _ => none) op.elems (p.1 - base)).isNone
        let elems := ready.foldl (fun m p => smapSet (fun _ => none) m (p.1 - base) (some p.2.out)) op.elems
        let s := s.setPrim { s.prim with op := some { op with elems := elems } }
        ready.foldl (fun s p => s.colDelivered n false p.1) s

/-- R347: whether the target of a FORWARD element takes it now, and the contribution it becomes. -/
def State.forwardRun (s : State) (f : ColForward) : ColRun :=
  let c := s.colSlot f.slot
  ⟨none, false, c.field 0 15 12, c.field 17 27 16, c.field 17 15 0, f.step, c.field 18 31 0 + f.elem, [f.value], f.time, 0⟩

/-- R347: release a FORWARD element to its target. -/
def State.colForward (s : State) (f : ColForward) : State :=
  let r := s.forwardRun f
  let next := stepDiff f.step (s.colStep f.slot) == 1
  let s := { s with col := { s.col with forwards := s.col.forwards.erase f } }
  (s.colDelivered f.slot next f.elem).colArrive r

/-- R335, R346: what waited goes on: the intake's runs in order of arrival, FORWARD elements whose target takes them, elements for the
Primary. Each round of the loop takes one of them; `fuel` exceeds the elements that can exist. -/
def State.colPump (s : State) : (fuel : Nat) → State
  | 0 => s
  | k + 1 =>
    match s.col.forwards.find? fun f => !s.colHolds (s.forwardRun f) true with
    | some f => (s.colForward f).colPump k
    | none => match s.col.intake with
      | r :: rest => if s.runReady r then ({ s with col := { s.col with intake := rest } }.colTakeRun r).colPump k else s.colFeedPrimary
      | [] => s.colFeedPrimary

/-- More than the elements of both rounds of every collective. -/
def pumpFuel : Nat := 2 ^ 43

/-- Everything that waited on the Collector goes on as far as it can. -/
def State.colSettle (s : State) : State := s.colPump pumpFuel

/-! ## Chunks -/

/-- R348: every element of the chunk that lies in O has been delivered. -/
def State.chunkReady (s : State) (n k : Nat) (next : Bool) : Bool :=
  let c := s.colSlot n
  let r := c.chunkRange k
  !((c.round next).chunk k).done && c.chunksO.contains k
    && (List.range (r.2 - r.1)).all fun i => match c.elem next (r.1 + i) with
      | some x => x.place == .delivered
      | none => false

/-- The chunk holds a poisoned element. -/
def ColSlot.chunkPoisoned (c : ColSlot) (k : Nat) (next : Bool) : Bool :=
  let r := c.chunkRange k
  (c.round next).elems.any fun p => decide (r.1 ≤ p.1) && decide (p.1 < r.2) && p.2.out.2

/-- R352: the skew record of a chunk. -/
def ColSlot.skewRecord (c : ColSlot) (k step : Nat) (next : Bool) : List Word32 :=
  let x := (c.round next).chunk k
  let first := x.first.getD 0
  buildWords 8 [(0, 31, 0, step), (1, 31, 0, k), (2, 31, 0, first), (3, 31, 0, first / 2 ^ 32), (4, 31, 0, x.last),
    (5, 31, 0, x.last / 2 ^ 32), (6, 11, 0, x.rank), (6, 12, 12, (c.gatherChunk k).toNat), (6, 13, 13, (c.chunkPoisoned k next).toNat)]

/-- R348: write the skew record. -/
def State.colSkew (s : State) (n k : Nat) (next : Bool) : State :=
  let c := s.colSlot n
  if c.skew = 0 then s
  else
    let cnt := s.fld F.COL_SLOTn_SKEW_COUNT_COUNT colCell n
    let a := c.skew + 32 * (cnt % 2 ^ c.field 16 4 0)
    let s := if s.memUp a 32 then s.writeMem a (bytesOf (c.skewRecord k (s.roundStep n next) next)) false 2
      else s.recordError colCell clsAccess a 0
    s.setFld F.COL_SLOTn_SKEW_COUNT_COUNT colCell (cnt + 1) n

/-- R203: a ready notice reaches a mover. -/
def State.moverNotice (s : State) (m : Nat) : State :=
  let c := moverCell m
  (s.setFld F.MOV_NOTICE_COUNT_COUNT c (s.fld F.MOV_NOTICE_COUNT_COUNT c + 1)).count c (evOf 0x16 4)

/-- R349: the work item of a chunk. -/
def State.chunkItem (s : State) (n k : Nat) (next : Bool) : ColItem :=
  let c := s.colSlot n
  let r := c.chunkRange k
  let a := c.addr 10 + r.1 * c.outBytes
  ⟨c.field 17 19 16, c.field 17 7 0, k,
    [BitVec.ofNat 32 (c.collId + n * 2 ^ 16), BitVec.ofNat 32 (s.roundStep n next), BitVec.ofNat 32 k, BitVec.ofNat 32 (r.2 - r.1),
      BitVec.ofNat 32 a, BitVec.ofNat 32 (a / 2 ^ 32),
      BitVec.ofNat 32 ((c.chunkPoisoned k next).toNat + 2 * (c.gatherChunk k).toNat)]⟩

/-- R349: post an item; a refused one waits, and with it those after it. -/
def State.postColItem (s : State) (n : Nat) (i : ColItem) : State :=
  let c := s.colSlot n
  if c.items.isEmpty then
    let p := s.postItem i.cluster 4 i.program i.key i.args
    if p.1 then p.2 else p.2.setColSlot n { p.2.colSlot n with items := [i] }
  else s.setColSlot n { c with items := c.items ++ [i] }

/-- R348: a chunk completes: its skew record, then its notice or item; then the round, where it was the last. -/
def State.chunkComplete (s : State) (n k : Nat) (next : Bool) : State :=
  if s.colState n ≠ 1 ∨ !s.chunkReady n k next then s
  else
    let s := s.colSkew n k next
    let c := s.colSlot n
    let s := match c.steer with
      | 1 => s.postColItem n (s.chunkItem n k next)
      | 3 => s.moverNotice (c.field 17 5 0)
      | _ => s
    let c := s.colSlot n
    let r := c.round next
    let x := r.chunk k
    let r := { r with chunks := smapSet (fun _ => {}) r.chunks k { x with done := true } }
    (s.setColSlot n (c.setRound next r)).roundCheck n 2

/-- R349: the refused items are posted again, in order. -/
def State.repostItems (s : State) (n : Nat) : List ColItem → State
  | [] => s.setColSlot n { s.colSlot n with items := [] }
  | i :: is =>
    let p := (s.count colCell (evOf 0x28 7)).postItem i.cluster 4 i.program i.key i.args
    if p.1 then p.2.repostItems n is else p.2.setColSlot n { p.2.colSlot n with items := i :: is }

/-! ## Commands -/

/-- R359: read n lines for the Collector; a failure gives its class and the line. -/
def State.colRead (s : State) (a : Nat) : Nat → Except (Nat × Nat) (List Byte) × State
  | 0 => (.ok [], s)
  | n + 1 =>
    let r := s.load a 64
    match r.1 with
    | .ok bs false =>
      let q := r.2.colRead (a + 64) n
      (match q.1 with
        | .ok rest => .ok (bs ++ rest)
        | .error e => .error e, q.2)
    | .ok _ true => (.error (clsPoison, a), r.2)
    | _ => (.error (clsAccess, a), r.2)

/-- R328, R359: read the member table, without a line that holds nothing but the entry of OWN_RANK; `n` lines are left of `of`. -/
def State.colReadTable (s : State) (c : ColSlot) (of : Nat) : (n : Nat) → Except (Nat × Nat) (List Byte) × State
  | 0 => (.ok [], s)
  | n + 1 =>
    let i := of - (n + 1)
    let one : Except (Nat × Nat) (List Byte) × State :=
      if c.ownRank = 16 * i ∧ c.size = 16 * i + 1 then (.ok (List.replicate 64 0), s) else s.colRead (c.addr 8 + 64 * i) 1
    match one.1 with
    | .error e => (.error e, one.2)
    | .ok bs =>
      let q := one.2.colReadTable c of n
      (match q.1 with
        | .ok rest => .ok (bs ++ rest)
        | .error e => .error e, q.2)

/-- R329: the extents of a descriptor: base and length. -/
def ColSlot.extents (c : ColSlot) : List (Nat × Nat) :=
  [(c.addr 8, 4 * c.size)]
    ++ (if c.steer = 0 ∨ c.steer = 1 ∨ c.steer = 3 then [(c.addr 10, c.elems * c.outBytes)] else [])
    ++ (if c.spill = 0 then [] else [(c.spill, 2 * c.sizeL * 64)])
    ++ (if c.skew = 0 then [] else [(c.skew, 2 ^ c.field 16 4 0 * 32)])

/-- The quota in KiB that open collectives have reserved. -/
def State.colQuota (s : State) : Nat :=
  ((List.range 1024).map fun n => if s.colState n = 0 then 0 else (s.colSlot n).field 7 16 0).sum

/-- `COL_QUOTA_FREE` as it reads. -/
def State.colQuotaFree (s : State) : Nat := 65536 - s.colQuota

/-- Open collectives. -/
def State.colOpen (s : State) : Nat := ((List.range 1024).filter fun n => s.colState n != 0).length

/-- R329, check 0x08; R310 takes an entry of STEER 3 as VALID 0. -/
def State.colSteerOk (s : State) (c : ColSlot) : Bool :=
  match c.steer with
  | 0 => true
  | 1 => s.flag F.GCL_PROGp_VALID (clusterCell (c.field 17 19 16)) (c.field 17 7 0)
    && s.fld F.GCL_PROGp_STEER (clusterCell (c.field 17 19 16)) (c.field 17 7 0) != 3
  | 2 => true
  | 3 => s.enabled (moverCell (c.field 17 5 0))
  | 4 => match s.colFind (c.field 17 15 0) with
    | none => false
    | some t =>
      let tc := s.colSlot t
      let r := c.field 17 27 16
      s.colState t == 1 && (r == tc.ownRank || (decide (r < tc.size) && tc.isLocal r))
        && decide (c.field 18 31 0 + c.elems ≤ tc.elems)
  | _ => false

/-- R329: the checks 0x01 to 0x08 in order; 0 where they hold. `dome` says that a Dome core wrote the command (R652). -/
def State.colCheck (s : State) (dome : Bool) (c : ColSlot) : Nat :=
  let modeOk := (c.field 0 9 8 == 0 && c.field 0 11 10 == 0 && ((Fmt.ofCode (c.field 0 15 12)).map Fmt.collectable).getD false)
    || (c.field 0 9 8 == 1 && decide (c.field 0 11 10 ≤ 2) && Fmt.ofCode (c.field 0 15 12) == some .fp32)
  let sharded := c.kind != 1
  let ranges := decide (1 ≤ c.size) && decide (c.size ≤ 4096) && decide (c.ownRank < c.size) && decide (1 ≤ c.elems)
    && decide (c.elems ≤ 0x80000000) && decide (6 ≤ c.field 5 4 0) && decide (c.field 5 4 0 ≤ 20)
    && decide (1 ≤ c.field 7 16 0) && decide (c.field 7 16 0 ≤ 65536) && decide (c.field 16 4 0 ≤ 16)
    && (!sharded || (c.shard % c.chunk == 0 && decide (c.elems ≤ c.size * c.shard)))
  let needs := c.spill == 0 || c.steer == 2
  let extOk := c.extents.all fun p => p.1 % 64 == 0 && (p.2 == 0 || (extentOneQuad p.1 p.2 && s.extentFree dome p.1 p.2))
  if !(decide (1 ≤ c.kind) && decide (c.kind ≤ 4) && c.field 0 7 4 == 1) then 1
  else if !modeOk then 2
  else if !ranges then 3
  else if (s.colFind c.collId).isSome then 4
  else if 1024 ≤ s.colOpen then 5
  else if 65536 < s.colQuota + c.field 7 16 0 ∨ (needs ∧ c.quota < 2 * c.sizeO * c.slotBytes) then 6
  else if !extOk then 7
  else if !s.colSteerOk c then 8
  else 0

/-- The outcome of a command in `COL_CMD_RESULT`. -/
def State.colReply (s : State) (code slot : Nat) : State :=
  let s := s.setFld F.COL_CMD_RESULT_RESULT colCell (if code = 0 then 1 else 2)
  (s.setFld F.COL_CMD_RESULT_CODE colCell code).setFld F.COL_CMD_RESULT_SLOT colCell slot

/-- A refused command that names no slot: SLOT is a free value (log 22). -/
def State.colRefuse (s : State) (code : Nat) : State :=
  let q := s.free 10
  q.2.colReply code q.1.toNat

/-- R361: the registers of a slot return to their reset values. -/
def State.colClearSlot (s : State) (n : Nat) : State :=
  ([RegId.COL_SLOTn_STATE, RegId.COL_SLOTn_ROUND_FIRST, RegId.COL_SLOTn_ROUND_LAST, RegId.COL_SLOTn_INFO,
    RegId.COL_SLOTn_DISCARDS, RegId.COL_SLOTn_SKEW_COUNT] : List RegId).foldl (fun s r => s.setReg r colCell 0 n) s

/-- R330: which free slot is allocated is a free value (log 22). -/
def State.colAllocate (s : State) (c : ColSlot) : State :=
  let free := (List.range 1024).filter fun n => s.colState n == 0
  let q := s.free 10
  let n := free.getD (q.1.toNat % free.length) 0
  let s := (q.2.colClearSlot n).setColSlot n { c with timeoutMs := s.fld F.COL_ROUND_TIMEOUT_MS colCell }
  let s := s.setFld F.COL_SLOTn_STATE_STATE colCell 1 n
  let s := s.setFld F.COL_SLOTn_STATE_COLL_ID colCell c.collId n
  (s.setFld F.COL_SLOTn_STATE_STEP colCell (c.field 6 31 0) n).colReply 0 n

/-- R329, R330, R359: OPEN. -/
def State.colOpenCmd (s : State) (dome : Bool) : State :=
  let a := s.fld F.COL_CMD_ARG_ARG colCell
  if a % 64 ≠ 0 then s.colRefuse 7
  else match s.colRead a 2 with
    | (.error e, s) => (s.recordError colCell e.1 e.2 0).colRefuse 7
    | (.ok bs, s) =>
      let c : ColSlot := { words := wordsOf 32 bs }
      let code := s.colCheck dome c
      if code ≠ 0 then s.colRefuse code
      else match s.colReadTable c ((4 * c.size + 63) / 64) ((4 * c.size + 63) / 64) with
        | (.error e, s) => (s.recordError colCell e.1 e.2 0).colRefuse 9
        | (.ok bs, s) =>
          let c := { c with members := wordsOf c.size bs }
          if c.kind ≠ 1 ∧ (List.range c.size).any fun r => r != c.ownRank && c.isLocal r then s.colRefuse 9
          else s.colAllocate c

/-- R357: CLOSE discards, frees the slot, its quota and its id, and clears its bits. -/
def State.colClose (s : State) (n : Nat) : State :=
  let s := (s.colDrop n).colClearSlot n
  (((s.setColSlot n {}).accordSlotLeft n).putBit (0x40026000 + n) false).noteLevels

/-- R357: RESET discards the state of both rounds and opens the slot at a step. -/
def State.colReset (s : State) (n t : Nat) : State :=
  let s := s.colDrop n
  let s := s.setColSlot n { s.colSlot n with timeoutMs := s.fld F.COL_ROUND_TIMEOUT_MS colCell }
  ((s.setFld F.COL_SLOTn_STATE_STATE colCell 1 n).setFld F.COL_SLOTn_STATE_STEP colCell t n).noteLevels

/-- R359: a write of `COL_CMD`. -/
def State.colCommand (s : State) (dome : Bool) (cmd n : Nat) : State :=
  let arg := s.fld F.COL_CMD_ARG_ARG colCell
  let named := fun (f : State → State) => if s.colState n = 0 then s.colReply 0x0A n else (f s).colReply 0 n
  let s := match cmd with
    | 1 => s.colOpenCmd dome
    | 2 => named fun s => s.colClose n
    | 3 => named fun s => s.colAbort n 1 0
    | 4 => named fun s => s.colReset n (arg % 2 ^ 32)
    | 5 => named fun s => s.colAbort n 2 (arg % 4096)
    | _ => s.colRefuse 1
  s.colSettle

/-- R355: a round has not completed in time. -/
def State.roundTimeout (s : State) (n : Nat) : State :=
  let c := s.colSlot n
  if s.colState n = 1 ∧ c.timeoutMs ≠ 0 ∧ c.cur.arrived.isSome then
    ((s.recordError colCell clsTimeout 0 n).colAbort n 4 0).colSettle
  else s

/-- R358: a reset of the cell closes every collective; queued runs go with it. What is granted stays reserved (R345). -/
def State.colCellReset (s : State) : State :=
  let s := (List.range 1024).foldl (fun s n => if s.colState n = 0 then s else s.colClose n) s
  { s with col := { granted := s.col.granted } }

/-! ## Bindings -/

/-- R337: the element bytes of a binding, and the bytes it covers. -/
def State.bindBytes (s : State) (b : Nat) : Nat :=
  ((Fmt.ofCode (s.fld F.COL_BINDb_CTRL_FMT colCell b)).getD .fp32).width / 8

def State.bindLen (s : State) (b : Nat) : Nat := s.fld F.COL_BINDb_RANGE_LENGTH colCell b * s.bindBytes b

/-- R337, R360: the enabled binding of a port that takes a window offset: the lowest-numbered. -/
def State.bindAt (s : State) (port w : Nat) : Option Nat :=
  (List.range 64).find? fun b =>
    let base := 64 * s.fld F.COL_BINDb_WIN_WIN_OFFSET colCell b
    s.flag F.COL_BINDb_CTRL_EN colCell b && s.fld F.COL_BINDb_CTRL_PORT colCell b == port
      && decide (base ≤ w) && decide (w < base + s.bindLen b)

/-- The elements that bytes hold. -/
def elemsOf (eb : Nat) (ep : Bool) : List Byte → (fuel : Nat) → List (Nat × Bool)
  | _, 0 => []
  | bs, k + 1 => (leNat (bs.take eb), ep) :: elemsOf eb ep (bs.drop eb) k

/-- The run that bytes at a binding's window offset make. -/
def State.bindRun (s : State) (b w : Nat) (bs : List Byte) (ep : Bool) : ColRun :=
  let eb := s.bindBytes b
  let idx := (w - 64 * s.fld F.COL_BINDb_WIN_WIN_OFFSET colCell b) / eb
  ⟨none, false, s.fld F.COL_BINDb_CTRL_FMT colCell b, s.fld F.COL_BINDb_CTRL_RANK colCell b,
    s.fld F.COL_BINDb_CTRL_COLL_ID colCell b, s.fld F.COL_BINDb_STEP_STEP colCell b,
    s.fld F.COL_BINDb_RANGE_ELEM_BASE colCell b + idx, elemsOf eb ep bs (bs.length / eb), s.now, 0⟩

/-- R338: the binding accepts bytes that lie within one step: the run they make, and COVERED and STEP. -/
def State.bindPart (s : State) (b w : Nat) (bs : List Byte) (ep : Bool) : ColRun × State :=
  let run := s.bindRun b w bs ep
  let cov := s.fld F.COL_BINDb_STEP_COVERED colCell b + bs.length
  (run, if cov = s.bindLen b then
      (s.setFld F.COL_BINDb_STEP_COVERED colCell 0 b).setFld F.COL_BINDb_STEP_STEP colCell (s.fld F.COL_BINDb_STEP_STEP colCell b + 1) b
    else s.setFld F.COL_BINDb_STEP_COVERED colCell cov b)

/-- R337, R338: a binding accepts a write: the runs it makes, one for each step it has elements of. They are the write's from then on,
whatever becomes of the binding (R360). -/
def State.bindWrite (s : State) (b w : Nat) (bs : List Byte) (ep : Bool) : List ColRun × State :=
  let base := 64 * s.fld F.COL_BINDb_WIN_WIN_OFFSET colCell b
  let eb := s.bindBytes b
  if (w - base) % eb ≠ 0 ∨ bs.length % eb ≠ 0 ∨ base + s.bindLen b < w + bs.length then
    ([], (s.colProtocol (s.colFind (s.fld F.COL_BINDb_CTRL_COLL_ID colCell b)) (s.fld F.COL_BINDb_CTRL_RANK colCell b) 5).colDiscard 4)
  else
    let k := min bs.length (s.bindLen b - s.fld F.COL_BINDb_STEP_COVERED colCell b)
    let x := s.bindPart b w (bs.take k) ep
    if k = bs.length then ([x.1], x.2)
    else
      let y := x.2.bindPart b (w + k) (bs.drop k) ep
      ([x.1, y.1], y.2)

/-- R360: whether a write to a binding register takes effect; `ctrl` is the value a write of `COL_BINDb_CTRL` would leave. -/
def State.bindWritable (s : State) (r : RegId) (b : Nat) (ctrl : Nat) : Bool :=
  let en := s.flag F.COL_BINDb_CTRL_EN colCell b
  let old := (s.reg .COL_BINDb_CTRL colCell b).toNat
  if r = .COL_BINDb_CTRL then
    (!en || ctrl / 2 == old / 2) && (ctrl % 2 == 0 || decide (bitsOf ctrl 7 4 ≤ 4))
  else !en

end Sys2Proof.Machine
end

