-- ==== Sys2Proof/Machine/Ethernet.lean ====
section
/-! DEFINITION. The Ethernet ports (R399 to R407, R429): priorities, the ingress buffers with priority-based flow control, the
frames a port sends and its transmit timestamps (R619). -/

namespace Sys2Proof.Machine

open Sys2Proof

def State.ethPort (s : State) (p : Nat) : EthPort := smapGet (fun _ => {}) s.eth.ports p

def State.setEthPort (s : State) (p : Nat) (x : EthPort) : State :=
  { s with eth := { s.eth with ports := smapSet (fun _ => {}) s.eth.ports p x } }

/-- `SPG_PARSE` as it stands. -/
def State.parseCfg (s : State) : ParseCfg :=
  ⟨s.fld F.SPG_PARSE_VXLAN_PORT spgCell, s.fld F.SPG_PARSE_GENEVE_PORT spgCell, s.fld F.SPG_PARSE_EXTRA_TPID spgCell⟩

/-- R399: the port runs two halves. -/
def State.breakout (s : State) (p : Nat) : Bool := s.flag F.ETH_STATUS_BREAKOUT_IN_FORCE (ethCell p)

/-- R400: MAX_FRAME, brought to the nearer bound. -/
def State.maxFrame (s : State) (p : Nat) : Nat := max 1518 (min 9216 (s.fld F.ETH_CFG_MAX_FRAME (ethCell p)))

/-- R402: a half has link. -/
def State.ethLink (s : State) (p half : Nat) : Bool :=
  s.flag (if half = 0 then F.ETH_STATUS_LINK0 else F.ETH_STATUS_LINK1) (ethCell p)

/-- R404: the ingress priority of a frame. -/
def State.ingressPrio (s : State) (p : Nat) (bs : List Byte) : Nat :=
  match framePcp s.parseCfg bs with
  | some n => n
  | none => match (if s.flag F.ETH_CFG_DSCP_TRUST (ethCell p) then frameDscp bs else none) with
    | some v => v / 8
    | none => s.fld F.ETH_CFG_DEFAULT_PRIO (ethCell p)

/-- R447: the priority of a frame on its egress port. -/
def State.egressPrio (s : State) (p : Nat) (bs : List Byte) : Nat :=
  (framePcp s.parseCfg bs).getD (s.fld F.ETH_CFG_DEFAULT_PRIO (ethCell p))

/-- R447: a peer pauses a priority on a port. -/
def State.prioPaused (s : State) (p prio : Nat) : Bool := bitsOf (s.fld F.ETH_PFC_PAUSED (ethCell p)) prio prio == 1

/-! ## Sending -/

/-- R619: what the stamp of a PTP event message holds: messageType, sequenceId and domainNumber. -/
def ptpEvent (c : ParseCfg) (bs : List Byte) : Option (Nat × Nat × Nat) :=
  let body := match skipTags c bs 12 2 0 4 with
    | some (et, o, 0) =>
      if et = 0x88F7 then some o
      else
        let x := parseFrame { c with vxlan := 0, geneve := 0 } bs
        if !x.fail ∧ !x.frag ∧ x.outerProto = 17 ∧ beAt bs (x.l4.getD 0 + 2) 2 = 319 then x.pay else none
    | _ => none
  body.bind fun o =>
    let mt := beAt bs o 1 % 16
    if bs.length < o + 34 ∨ 3 < mt then none else some (mt, beAt bs (o + 30) 2, beAt bs (o + 4) 1)

/-- R619: place a transmit timestamp; one that finds the 16 entries full is discarded. -/
def State.stampFrame (s : State) (p half : Nat) (bs : List Byte) : State :=
  match ptpEvent s.parseCfg bs with
  | none => s
  | some (mt, sq, dom) =>
    let x := s.ethPort p
    if 16 ≤ x.stamps.length then
      (s.setFlag F.CHR_TXTSp_INFO_OVERFLOW chrCell true p).count chrCell (evOf 0x30 5) (some p)
    else (s.setEthPort p { x with stamps := x.stamps ++ [⟨half, mt, sq, dom, s.now⟩] }).count chrCell (evOf 0x30 4) (some p)

/-- A frame leaves a half of a port, with its FCS inverted where it carries a mark (R604). -/
def State.emitFrame (s : State) (p half : Nat) (bs : List Byte) (mark : Bool := false) : State :=
  { s with eth := { s.eth with sent := s.eth.sent ++ [⟨p, half, bs, s.now, mark⟩] } }

/-- R400, R401, R402: a port transmits a frame that Shutter has selected. A marked one is counted as any that is sent (R604, log 76). -/
def State.transmit (s : State) (p : Nat) (bs : List Byte) (mark : Bool := false) : State :=
  let c := ethCell p
  let half := if s.breakout p then ((outerHash s.parseCfg bs).getD 0) % 2 else 0
  if s.maxFrame p < bs.length + 4 then s.count c (evOf 0x24 4) (some 3)
  else if !s.ethLink p half then s.count c (evOf 0x24 4) (some 4)
  else
    let prio := s.egressPrio p bs
    let s := (s.count c (evOf 0x24 2) (some prio)).count c (evOf 0x24 3) (some prio) (bs.length + 4)
    (s.emitFrame p half bs mark).stampFrame p half bs

/-- R405: a PFC frame for one priority, by IEEE 802.1Qbb. Its source is the port's own address (log 32). -/
def State.sendPfc (s : State) (p half prio quanta : Nat) : State :=
  let times := (List.range 8).flatMap fun i => natBe 2 (if i = prio then quanta else 0)
  let bs := natBe 6 0x0180C2000001 ++ natBe 6 (Config.portMac p) ++ natBe 2 0x8808 ++ natBe 2 0x0101 ++ natBe 2 (2 ^ prio) ++ times
  if s.ethLink p half then (s.emitFrame p half (padBytes 60 bs)).count (ethCell p) (evOf 0x24 5) (some prio) else s

/-! ## The ingress buffer -/

/-- R405: the bytes of the ingress buffer of a port or half. -/
def State.bufferBytes (s : State) (p : Nat) : Nat := if s.breakout p then 4194304 else 8388608

/-- R405: the bytes that wait on a half, of every priority or of one. -/
def State.occupancy (s : State) (p half : Nat) (prio : Option Nat) : Nat :=
  (((s.ethPort p).ingress.filter fun f => f.half == half && (prio.getD f.prio) == f.prio).map fun f => f.bytes.length + 4).sum

def State.pfcOn (s : State) (p prio : Nat) : Bool := bitsOf (s.fld F.ETH_PFC_PFC_EN (ethCell p)) prio prio == 1

/-- The enabled priorities of a port. -/
def State.pfcCount (s : State) (p : Nat) : Nat := ((List.range 8).filter fun n => s.pfcOn p n).length

/-- R405, R406: admit a received frame to the ingress buffer, or drop it. -/
def State.admitIngress (s : State) (p : Nat) (f : IngressFrame) : State :=
  let c := ethCell p
  let n := f.bytes.length + 4
  let xoff := 1024 * s.fld F.ETH_PFC_XOFF_KIB c
  let room := 1024 * s.fld F.ETH_PFC_HEADROOM_KIB c
  let occ := s.occupancy p f.half (some f.prio)
  let x := s.ethPort p
  if s.pfcOn p f.prio then
    if xoff + room < occ + n then s.count c (evOf 0x24 7) (some f.prio)
    else
      let s := s.setEthPort p { x with ingress := x.ingress ++ [f] }
      if xoff ≤ occ + n ∧ !x.pausing.contains (f.half, f.prio) then
        let x := s.ethPort p
        (s.setEthPort p { x with pausing := x.pausing ++ [(f.half, f.prio)] }).sendPfc p f.half f.prio 0xFFFF
      else s
  else if s.bufferBytes p < s.occupancy p f.half none + n + s.pfcCount p * room then s.count c (evOf 0x24 8) (some f.prio)
  else s.setEthPort p { x with ingress := x.ingress ++ [f] }

/-- R400: whether a received frame passes the MAC; the cause where it does not. -/
def State.macDiscard (s : State) (p half : Nat) (bs : List Byte) (fcsOk : Bool) : Option Nat :=
  if s.cellState (ethCell p) ≠ 3 ∨ !s.ethLink p half then some 4
  else if !fcsOk then some 0
  else if bs.length + 4 < 64 then some 1
  else if s.maxFrame p < bs.length + 4 then some 2
  else none

/-- R407: the `PAUSED` field follows the pairs that the peer pauses. -/
def State.notePaused (s : State) (p : Nat) : State :=
  let x := s.ethPort p
  let v := ((List.range 8).map fun n => if x.paused.any fun q => q.2 == n then 2 ^ n else 0).sum
  s.setFld F.ETH_PFC_PAUSED (ethCell p) v

/-- R407: a PFC frame pauses a priority, or releases it. -/
def State.pfcReceive (s : State) (p half prio quanta : Nat) : State :=
  let s := s.count (ethCell p) (evOf 0x24 6) (some prio)
  let x := s.ethPort p
  let rest := x.paused.filter fun q => q != (half, prio)
  (s.setEthPort p { x with paused := if quanta = 0 then rest else rest ++ [(half, prio)] }).notePaused p

/-- R407: the pause time of a priority runs out. -/
def State.pfcExpire (s : State) (p half prio : Nat) : State :=
  let x := s.ethPort p
  (s.setEthPort p { x with paused := x.paused.filter fun q => q != (half, prio) }).notePaused p

/-- R405: the pause is sent again while the occupancy stays at or above XON. -/
def State.pfcRefresh (s : State) (p half prio : Nat) : State :=
  let xon := 1024 * s.fld F.ETH_PFC_XON_KIB (ethCell p)
  if (s.ethPort p).pausing.contains (half, prio) ∧ s.pfcOn p prio ∧ xon ≤ s.occupancy p half (some prio) then
    s.sendPfc p half prio 0xFFFF
  else s

/-- R405: the occupancy has fallen below XON. A priority whose bit of PFC_EN has been cleared sends nothing. -/
def State.pfcXon (s : State) (p half prio : Nat) : State :=
  let xon := 1024 * s.fld F.ETH_PFC_XON_KIB (ethCell p)
  let x := s.ethPort p
  if x.pausing.contains (half, prio) ∧ s.occupancy p half (some prio) < xon then
    let s := s.setEthPort p { x with pausing := x.pausing.filter fun q => q != (half, prio) }
    if s.pfcOn p prio then s.sendPfc p half prio 0 else s
  else s

/-- R402: a half gains or loses link. -/
def State.ethLinkChange (s : State) (p half : Nat) (up : Bool) : State :=
  let f := if half = 0 then F.ETH_STATUS_LINK0 else F.ETH_STATUS_LINK1
  if s.flag f (ethCell p) = up ∨ (half = 1 ∧ !s.breakout p) ∨ (up ∧ s.cellState (ethCell p) = 0) then s
  else (s.setFlag f (ethCell p) up).event (0x40022000 + p)

/-- R429: a reset of the cell, or its going OFF: no link, both buffers discarded, PFC state cleared. -/
def State.ethDown (s : State) (p : Nat) (reset : Bool) : State :=
  let s := (s.ethLinkChange p 0 false).ethLinkChange p 1 false
  let x := s.ethPort p
  if reset then (s.setEthPort p { x with ingress := [], pausing := [], paused := [] }).notePaused p else s

/-- R619: the head entry as `CHR_TXTSp_INFO` reads; OVERFLOW is the stored bit. -/
def State.txtsInfo (s : State) (p : Nat) : Nat :=
  let x := (s.ethPort p).stamps
  let ov := (s.flag F.CHR_TXTSp_INFO_OVERFLOW chrCell p).toNat * 2 ^ 6
  match x with
  | [] => ov
  | h :: _ => 1 + x.length * 2 + ov + h.half * 2 ^ 7 + h.msgType * 2 ^ 8 + h.seq * 2 ^ 16 + h.domain * 2 ^ 32

/-- R619: a read of `CHR_TXTSp_TIME` removes the head entry. -/
def State.txtsTime (s : State) (p : Nat) : Nat × State :=
  let x := s.ethPort p
  match x.stamps with
  | [] => (0, s)
  | h :: t => (h.time, s.setEthPort p { x with stamps := t })

end Sys2Proof.Machine
end

