-- ==== Sys2Proof/Machine/Pcie.lean ====
section
/-! DEFINITION. The PCI Express ports as requester and interrupter (chapter 15): the configuration space of every function
(R487 to R491, R513), error logging (R512), host accesses with their tags, translations and completions (R502 to R508, R510),
dirty-page logging (R535 to R538), and the MSI-X messages of the interrupt routes (R499 to R501). -/

namespace Sys2Proof.Machine

open Sys2Proof

/-- R486: the cell of port j: 0 and 1 are H0 and H1, 2 + k is downstream port k. -/
def portCell (j : Nat) : Nat := 0x2201 + j

def State.setPciFn (s : State) (port fn : Nat) (f : PciFn) : State :=
  { s with pci := { s.pci with fns := smapSet (fun _ => {}) s.pci.fns (port * 512 + fn) f } }

def State.setPci (s : State) (p : PciState) : State := { s with pci := p }

/-! ## Configuration space -/

/-- A dword of a configuration space: its reset value, the bits a write sets, and the bits a write of 1 clears. Places the
chapter does not give are those of the specification (log 30). -/
structure CfgDword where
  reset : Nat
  rw : Nat := 0
  rw1c : Nat := 0
  deriving DecidableEq, Repr

/-- The AER dwords, common to every function (R488, R512). -/
def aerDword (header : Nat) : Nat → Option CfgDword
  | 0x100 => some ⟨header, 0, 0⟩
  | 0x104 => some ⟨0, 0, 0x07FFF030⟩
  | 0x108 => some ⟨0, 0x07FFF030, 0⟩
  | 0x10C => some ⟨0x00462030, 0x07FFF030, 0⟩
  | 0x110 => some ⟨0, 0, 0xF1C1⟩
  | 0x114 => some ⟨0x2000, 0xF1C1, 0⟩
  | 0x118 => some ⟨0xA0, 0x140, 0⟩
  | _ => none

/-- R487 to R490: PF0. -/
def pfDword : Nat → CfgDword
  | 0x00 => ⟨0x94801FD7, 0, 0⟩
  | 0x04 => ⟨0x00100000, 0x0546, 0xF9000000⟩
  | 0x08 => ⟨0x120000B0, 0, 0⟩
  | 0x0C => ⟨0, 0xFF, 0⟩
  | 0x10 => ⟨0x4, 0xFC000000, 0⟩
  | 0x14 => ⟨0, 0xFFFFFFFF, 0⟩
  | 0x18 => ⟨0x4, 0xF0000000, 0⟩
  | 0x1C => ⟨0, 0xFFFFFFFF, 0⟩
  | 0x20 => ⟨0xC, 0, 0⟩
  | 0x24 => ⟨0, 0xFFFFFFF0, 0⟩
  | 0x2C => ⟨0x94801FD7, 0, 0⟩
  | 0x34 => ⟨0x40, 0, 0⟩
  | 0x3C => ⟨0, 0xFF, 0⟩
  | 0x40 => ⟨0x00035001, 0, 0⟩
  | 0x44 => ⟨0x8, 0x3, 0⟩
  | 0x50 => ⟨0x07FF6011, 0xC0000000, 0⟩
  | 0x54 => ⟨0x200000, 0, 0⟩
  | 0x58 => ⟨0x280000, 0, 0⟩
  | 0x60 => ⟨0x00020010, 0, 0⟩
  | 0x64 => ⟨0x10008022, 0, 0⟩
  | 0x68 => ⟨0x2810, 0x7FFF, 0xF0000⟩
  | 0x6C => ⟨0x106, 0, 0⟩
  | 0x70 => ⟨0, 0xCB, 0⟩
  | 0x84 => ⟨0x3000F, 0, 0⟩
  | 0x88 => ⟨0, 0x100F, 0⟩
  | 0x8C => ⟨0x7E, 0, 0⟩
  | 0x90 => ⟨0x6, 0xFFBF, 0x200000⟩
  | 0x150 => ⟨0x16010003, 0, 0⟩
  | 0x154 => ⟨Config.fuse rotCell 100 % 2 ^ 32, 0, 0⟩
  | 0x158 => ⟨Config.fuse rotCell 100 / 2 ^ 32 % 2 ^ 32, 0, 0⟩
  | 0x160 => ⟨0x1A010010, 0, 0⟩
  | 0x168 => ⟨0, 0x19, 0⟩
  | 0x16C => ⟨0x01000100, 0, 0⟩
  | 0x170 => ⟨0, 0xFFFF, 0⟩
  | 0x174 => ⟨0x00010001, 0, 0⟩
  | 0x178 => ⟨0x94810000, 0, 0⟩
  | 0x17C => ⟨0xFFFFFFFF, 0, 0⟩
  | 0x180 => ⟨1, 0xFFFFFFFF, 0⟩
  | 0x184 => ⟨0x4, 0xFFFF0000, 0⟩
  | 0x188 => ⟨0, 0xFFFFFFFF, 0⟩
  | 0x18C => ⟨0x4, 0xFFF00000, 0⟩
  | 0x190 => ⟨0, 0xFFFFFFFF, 0⟩
  | 0x1A0 => ⟨0x1B01000F, 0, 0⟩
  | 0x1A4 => ⟨0x20, 0x801F0000, 0⟩
  | 0x1B0 => ⟨0x1C01001B, 0, 0⟩
  | 0x1B4 => ⟨0x1400, 0x10000, 0⟩
  | 0x1C0 => ⟨0x1F010019, 0, 0⟩
  | 0x1F0 => ⟨0x20010025, 0, 0⟩
  | 0x200 => ⟨0x23010026, 0, 0⟩
  | 0x230 => ⟨0x2601002A, 0, 0⟩
  | 0x260 => ⟨0x28010031, 0, 0⟩
  | 0x280 => ⟨0x2D010027, 0, 0⟩
  | 0x2D0 => ⟨0x0001000E, 0, 0⟩
  | d => (aerDword 0x15020001 d).getD ⟨0, 0, 0⟩

/-- R491: a VF. -/
def vfDword : Nat → CfgDword
  | 0x00 => ⟨0xFFFFFFFF, 0, 0⟩
  | 0x04 => ⟨0x00100000, 0x4, 0xF9000000⟩
  | 0x08 => ⟨0x120000B0, 0, 0⟩
  | 0x2C => ⟨0x94801FD7, 0, 0⟩
  | 0x34 => ⟨0x40, 0, 0⟩
  | 0x40 => ⟨0x00028010, 0, 0⟩
  | 0x44 => ⟨0x10008022, 0, 0⟩
  | 0x48 => ⟨0, 0, 0xF0000⟩
  | 0x64 => ⟨0x3000F, 0, 0⟩
  | 0x80 => ⟨0x003F0011, 0xC0000000, 0⟩
  | 0x84 => ⟨0x8000, 0, 0⟩
  | 0x88 => ⟨0x9000, 0, 0⟩
  | 0x150 => ⟨0x1601000F, 0, 0⟩
  | 0x154 => ⟨0x20, 0x80000000, 0⟩
  | 0x160 => ⟨0x0001000E, 0, 0⟩
  | d => (aerDword 0x15020001 d).getD ⟨0, 0, 0⟩

/-- R488, R513: the register at offset r of a link structure of a port with `lanes` lanes: Secondary PCI Express (0x19), Data Link Feature
(0x25), Physical Layer 16.0, 32.0 and 64.0 GT/s (0x26, 0x2A, 0x31) and Lane Margining (0x27), as the specification lays them out (log
30). -/
def linkDword (dp : Bool) (lanes id r : Nat) : CfgDword :=
  let perLane := fun (lo bytes : Nat) => decide (lo ≤ r) && decide (r < lo + bytes * lanes)
  let none_ : CfgDword := ⟨0, 0, 0⟩
  match id with
  | 0x19 =>
    if r = 4 then ⟨0, if dp then 0xFE03 else 0xFE00, 0⟩
    else if r = 8 then ⟨0, 0, 2 ^ lanes - 1⟩
    else if perLane 0x0C 2 then ⟨0x7F7F7F7F, 0, 0⟩ else none_
  | 0x25 => if r = 4 then ⟨0x80000001, 0, 0⟩ else none_
  | 0x26 =>
    if r = 0x0C then ⟨0, 0, 0x10⟩
    else if r = 0x10 ∨ r = 0x14 ∨ r = 0x18 then ⟨0, 0, 2 ^ lanes - 1⟩
    else if perLane 0x20 1 then ⟨0xFFFFFFFF, 0, 0⟩ else none_
  | 0x2A =>
    if r = 4 then ⟨0x100, 0, 0⟩
    else if r = 8 then ⟨0, 0x703, 0⟩
    else if r = 0x0C then ⟨0, 0, 0x10⟩
    else if perLane 0x20 1 then ⟨0xFFFFFFFF, 0, 0⟩ else none_
  | 0x31 =>
    if r = 0x0C then ⟨0, 0, 0x10⟩ else if perLane 0x10 1 then ⟨0xFFFFFFFF, 0, 0⟩ else none_
  | _ => if perLane 8 4 then ⟨0x9C38, 0xFF7F, 0⟩ else none_

/-- R488, R513: where the link structures of PF0 and of a downstream port begin, with their identifiers. -/
def linkCaps (dp : Bool) : List (Nat × Nat) :=
  if dp then [(0x1B0, 0x19), (0x1E0, 0x25), (0x1F0, 0x26), (0x220, 0x2A), (0x250, 0x31), (0x270, 0x27)]
  else [(0x1C0, 0x19), (0x1F0, 0x25), (0x200, 0x26), (0x230, 0x2A), (0x260, 0x31), (0x280, 0x27)]

/-- The register of a link structure at an offset of a configuration space; none at a header and outside the structures. -/
def linkReg (dp : Bool) (lanes off : Nat) : Option CfgDword :=
  match ((linkCaps dp).filter fun c => decide (c.1 ≤ off)).getLast? with
  | none => none
  | some (base, id) => if off = base ∨ base + 0x48 ≤ off then none else some (linkDword dp lanes id (off - base))

/-- R486: the lanes of port j. -/
def portLanes (j : Nat) : Nat := if j < 10 then 16 else 4

/-- R513, R518, R520: a downstream port. -/
def dpDword : Nat → CfgDword
  | 0x00 => ⟨0x94801FD7, 0, 0⟩
  | 0x04 => ⟨0x00100000, 0x0547, 0xF9000000⟩
  | 0x08 => ⟨0x060400B0, 0, 0⟩
  | 0x0C => ⟨0x00010000, 0xFF, 0⟩
  | 0x18 => ⟨0, 0xFFFFFF, 0⟩
  | 0x1C => ⟨0, 0, 0xF9000000⟩
  | 0x20 => ⟨0, 0xFFF0FFF0, 0⟩
  | 0x24 => ⟨0x00010001, 0xFFF0FFF0, 0⟩
  | 0x28 => ⟨0, 0xFFFFFFFF, 0⟩
  | 0x2C => ⟨0, 0xFFFFFFFF, 0⟩
  | 0x34 => ⟨0x60, 0, 0⟩
  | 0x3C => ⟨0, 0x004300FF, 0⟩
  | 0x60 => ⟨0x01420010, 0, 0⟩
  | 0x64 => ⟨0x8022, 0, 0⟩
  | 0x68 => ⟨0, 0x70FF, 0xF0000⟩
  | 0x70 => ⟨0, 0xD3, 0⟩
  | 0x74 => ⟨0x60, 0, 0⟩
  | 0x78 => ⟨0, 0x1FFF, 0x11F0000⟩
  | 0x7C => ⟨0, 0xF, 0⟩
  | 0x84 => ⟨0xF, 0, 0⟩
  | 0x88 => ⟨0, 0xF, 0⟩
  | 0x8C => ⟨0x7E, 0, 0⟩
  | 0x90 => ⟨0x6, 0xFFBF, 0x200000⟩
  | 0x12C => ⟨0, 0x7, 0⟩
  | 0x130 => ⟨0, 0, 0x7F⟩
  | 0x150 => ⟨0x1B01001D, 0, 0⟩
  | 0x154 => ⟨0x00020000, 0xFF0000, 0⟩
  | 0x158 => ⟨0, 0, 0x9⟩
  | 0x1B0 => ⟨0x1E010019, 0, 0⟩
  | 0x1E0 => ⟨0x1F010025, 0, 0⟩
  | 0x1F0 => ⟨0x22010026, 0, 0⟩
  | 0x220 => ⟨0x2501002A, 0, 0⟩
  | 0x250 => ⟨0x27010031, 0, 0⟩
  | 0x270 => ⟨0x00010027, 0, 0⟩
  | d => (aerDword 0x15020001 d).getD ⟨0, 0, 0⟩

/-- The dword at an offset of a function's configuration space. -/
def cfgDword (port fn off : Nat) : CfgDword :=
  if 2 ≤ port then
    if off = 0x6C then ⟨0x180006 + 0x10 * portLanes port, 0, 0⟩ else (linkReg true (portLanes port) off).getD (dpDword off)
  else if fn = 0 then (linkReg false 16 off).getD (pfDword off)
  else vfDword off

/-- The bits of a dword that a Function Level Reset leaves, by the specification: Max_Payload_Size, the link registers and what is
sticky (log 30). -/
def stickyBits (fn off : Nat) : Nat :=
  let all := 2 ^ 32 - 1
  if off = (if fn = 0 then 0x68 else 0x48) then 0xE0
  else if 0x104 ≤ off ∧ off ≤ 0x138 then all
  else if fn = 0 ∧ (off = 0x70 ∨ off = 0x90 ∨ (0x1C0 ≤ off ∧ off < 0x2D0)) then all
  else 0

/-- The stored value of a configuration dword. The Command register of an upstream function shows the BME field of its status. -/
def State.cfg (s : State) (port fn off : Nat) : Nat :=
  (smapGet (fun o => BitVec.ofNat 32 (cfgDword port fn o).reset) (s.pciFn port fn).cfg off).toNat

def State.setCfg (s : State) (port fn off v : Nat) : State :=
  let f := s.pciFn port fn
  s.setPciFn port fn { f with cfg := smapSet (fun o => BitVec.ofNat 32 (cfgDword port fn o).reset) f.cfg off (BitVec.ofNat 32 v) }

/-- Set bits of a configuration dword. -/
def State.cfgSet (s : State) (port fn off mask : Nat) : State := s.setCfg port fn off (s.cfg port fn off ||| mask)

/-- What a write of `v` to the enabled bytes `en` of a dword leaves: bits of `rw` are set, ones of `rw1c` clear. -/
def CfgDword.write (d : CfgDword) (old v en : Nat) : Nat :=
  let set := d.rw &&& en
  let clr := d.rw1c &&& en &&& v
  (List.range 32).foldl (fun n i =>
    let b := if set / 2 ^ i % 2 = 1 then v / 2 ^ i % 2 else if clr / 2 ^ i % 2 = 1 then 0 else old / 2 ^ i % 2
    n + b * 2 ^ i) 0

def State.fnExists (s : State) (port fn : Nat) : Bool := s.flag F.PCI_FNf_STATUS_EXISTS (upCell port) fn
def State.fnFlr (s : State) (port fn : Nat) : Bool := s.flag F.PCI_FNf_STATUS_FLR_BUSY (upCell port) fn

/-- R503: ATS Enable of a function. -/
def State.atsOn (s : State) (port fn : Nat) : Bool :=
  bitsOf (s.cfg port fn (if fn = 0 then 0x1A4 else 0x154)) 31 31 == 1

/-- R502: Max_Payload_Size and Max_Read_Request_Size; a VF uses those of its PF (log 30). -/
def State.maxPayload (s : State) (port : Nat) : Nat := min 512 (128 * 2 ^ bitsOf (s.cfg port 0 0x68) 7 5)
def State.maxRead (s : State) (port : Nat) : Nat := min 4096 (128 * 2 ^ bitsOf (s.cfg port 0 0x68) 14 12)

/-- R502: the PASID prefix of a function's requests. PASID Enable is the PF's capability for its VFs too (log 30). -/
def State.pasidOf (s : State) (port fn : Nat) : Option (Nat × Bool) :=
  if bitsOf (s.cfg port 0 0x1B4) 16 16 = 1 ∧ s.flag F.PCI_FNf_DMA_PASID_EN (upCell port) fn then
    some (s.fld F.PCI_FNf_DMA_PASID (upCell port) fn, s.flag F.PCI_FNf_DMA_PRIV (upCell port) fn)
  else none

/-- A packet leaves a port. -/
def State.sendTlp (s : State) (t : Tlp) : State :=
  let k := if 2 ≤ t.port then 0x22 else 0x21
  let s := (s.count (portCell t.port) (evOf k 0)).count (portCell t.port) (evOf k 2) none t.bytes.length
  s.setPci { s.pci with sent := s.pci.sent ++ [t] }

/-- A packet arrives at a port. -/
def State.noteTlp (s : State) (port bytes : Nat) : State :=
  let k := if 2 ≤ port then 0x22 else 0x21
  (s.count (portCell port) (evOf k 1)).count (portCell port) (evOf k 3) none bytes

/-! ## Error logging -/

/-- R512: a correctable error: its status bit, its count, and the message that Device Control enables. -/
def State.aerCor (s : State) (port fn bit : Nat) : State :=
  let s := s.cfgSet port fn 0x110 (2 ^ bit)
  let s := s.count (portCell port) (evOf (if 2 ≤ port then 0x22 else 0x21) 4) (if 2 ≤ port then none else some bit)
  if port < 2 ∧ bitsOf (s.cfg port fn 0x114) bit bit = 0 ∧ bitsOf (s.cfg port 0 0x68) 0 0 = 1 then
    s.sendTlp { port := port, fn := fn, kind := .errCor }
  else s

/-- R512: the header of the first unmasked error, with its number; a further one overflows the log. -/
def State.aerHeader (s : State) (port fn bit : Nat) (hdr : List (BitVec 32)) : State :=
  let pending := s.cfg port fn 0x104 &&& (2 ^ 32 - 1 - s.cfg port fn 0x108)
  let s := s.cfgSet port fn 0x104 (2 ^ bit)
  if bitsOf (s.cfg port fn 0x108) bit bit = 1 then s
  else if pending = 0 then
    let s := s.setCfg port fn 0x118 (putBits (s.cfg port fn 0x118) 4 0 bit)
    (List.range 4).foldl (fun s i => s.setCfg port fn (0x11C + 4 * i) (hdr.getD i 0).toNat) s
  else if hdr.isEmpty then s else s.aerCor port fn 15

/-- R512: an uncorrectable error; an advisory one of non-fatal severity is reported as correctable bit 13. -/
def State.aerUncor (s : State) (port fn bit : Nat) (advisory : Bool) (hdr : List (BitVec 32) := []) : State :=
  let fatal := bitsOf (s.cfg port fn 0x10C) bit bit == 1
  let masked := advisory && !fatal && bitsOf (s.cfg port fn 0x114) 13 13 == 1
  let s := if masked then s.cfgSet port fn 0x104 (2 ^ bit) else s.aerHeader port fn bit hdr
  if advisory && !fatal then s.aerCor port fn 13
  else
    let on := bitsOf (s.cfg port 0 0x68) (if fatal then 2 else 1) (if fatal then 2 else 1) == 1 || bitsOf (s.cfg port 0 0x04) 8 8 == 1
    if port < 2 ∧ bitsOf (s.cfg port fn 0x108) bit bit = 0 ∧ on then
      s.sendTlp { port := port, fn := fn, kind := if fatal then .errFatal else .errNonfatal }
    else s

def aerPoisoned : Nat := 12
def aerTimeout : Nat := 14
def aerUnexpected : Nat := 16
def aerUnsupported : Nat := 20

/-! ## Interrupts -/

/-- R499: the vectors of a function. -/
def vectorsOf (fn : Nat) : Nat := if fn = 0 then 2048 else 64

/-- A dword of an MSI-X table; the mask bit of a vector is 1 after reset. -/
def msixReset (d : Nat) : BitVec 32 := if d % 4 = 3 then 1 else 0

def PciFn.table (f : PciFn) (d : Nat) : Nat := (smapGet msixReset f.msix d).toNat

/-- The Message Control register: enabled and not masked as a whole. -/
def State.msixOn (s : State) (port fn : Nat) : Bool :=
  let c := s.cfg port fn (if fn = 0 then 0x50 else 0x80)
  bitsOf c 31 31 == 1 && bitsOf c 30 30 == 0

/-- R499, R501, R508: a message is due: it is sent, or its pending bit is set where the vector, the function or Bus Master Enable
holds it back. -/
def State.msixFire (s : State) (port fn vec : Nat) : State :=
  let f := s.pciFn port fn
  if s.msixOn port fn ∧ f.table (4 * vec + 3) % 2 = 0 ∧ s.fnBme port fn ∧ !s.fnFlr port fn then
    let s := s.count (upCell port) (evOf 0x21 11) (some fn)
    let s := s.setPciFn port fn { f with pba := smapSet (fun _ => false) f.pba vec false }
    s.sendTlp { port := port, fn := fn, kind := .interrupt, addr := f.table (4 * vec) + f.table (4 * vec + 1) * 2 ^ 32, len := 4,
                bytes := natLe 4 (f.table (4 * vec + 2)), pasid := s.pasidOf port fn }
  else s.setPciFn port fn { f with pba := smapSet (fun _ => false) f.pba vec true }

/-- The pending vectors of a function are sent once nothing holds them back. -/
def State.msixFlush (s : State) (port fn : Nat) : State :=
  ((s.pciFn port fn).pba.map Prod.fst).foldl (fun s v => s.msixFire port fn v) s

def State.route (s : State) (src : Nat) : RouteState := smapGet (fun _ => {}) s.pci.routes src

def State.setRoute (s : State) (src : Nat) (r : RouteState) : State :=
  s.setPci { s.pci with routes := smapSet (fun _ => {}) s.pci.routes src r }

/-- R500, R501: a source fires; `wait` is the host write that makes its entry visible. -/
def State.routeFire (s : State) (src : Nat) (wait : Option Nat := none) : State :=
  if s.flag F.PCI_IRQ_ROUTEs_EN pciCell src then
    let r := s.route src
    s.setRoute src { r with pending := true, waits := r.waits ++ wait.toList }
  else s

/-- R501: a pending route sends its message. -/
def State.routeSend (s : State) (src : Nat) : State :=
  let r := s.route src
  let port := s.fld F.PCI_IRQ_ROUTEs_PORT pciCell src
  let fn := s.fld F.PCI_IRQ_ROUTEs_FN pciCell src
  let vec := s.fld F.PCI_IRQ_ROUTEs_VECTOR pciCell src
  let gap := 1000 * s.fld F.PCI_IRQ_ROUTEs_COAL_US pciCell src
  if !r.pending ∨ !s.flag F.PCI_IRQ_ROUTEs_EN pciCell src then s
  else if !s.fnExists port fn ∨ vectorsOf fn ≤ vec then
    (s.setRoute src { r with pending := false, waits := [] }).count (upCell port) (evOf 0x21 12)
  else if (s.pci.ops.any fun o => r.waits.contains o.id) ∨ (r.last.any fun t => decide (s.now < t + gap)) then s
  else (s.setRoute src { pending := false, waits := [], last := some s.now }).msixFire port fn vec

/-! ## Host accesses -/

/-- R503: the outcome of a translation. -/
inductive Translated where
  | done (a : Nat) (cached : Bool)
  | denied
  | miss

def State.translate (s : State) (port fn a : Nat) (write : Bool) : Translated :=
  if !s.atsOn port fn then .done a false
  else match s.pci.cache.find? fun p => p.1 == port && p.2.fn == fn && a / 2 ^ p.2.size == p.2.bus / 2 ^ p.2.size with
    | none => .miss
    | some (_, t) => if (if write then t.w else t.r) then .done (t.target / 2 ^ t.size * 2 ^ t.size + a % 2 ^ t.size) true else .denied

/-- R505: the time, in ns, that a Completion Timeout Value stands for. -/
def completionTimeout : Nat → Nat
  | 1 => 50000
  | 2 => 5000000
  | 5 => 20000000
  | 6 => 100000000
  | 9 => 300000000
  | 10 => 1000000000
  | 13 => 5000000000
  | 14 => 64000000000
  | _ => 10000000

/-- R505, R517: the timeout of a port's non-posted requests; a VF uses that of its PF (log 30). -/
def State.timeoutOf (s : State) (port : Nat) : Nat := completionTimeout (bitsOf (s.cfg port 0 0x88) 3 0)

/-- R489: the non-posted requests outstanding on a port, and the tags in quarantine. -/
def State.outstanding (s : State) (port : Nat) : Nat :=
  (s.pci.reqs.filter fun r => r.port == port && (r.state == .live || r.state == .discard)).length

def State.quarantined (s : State) (port : Nat) : Nat :=
  (s.pci.reqs.filter fun r => r.port == port && (r.state == .quarantine || r.state == .oldGen)).length

/-- A free tag of a port; which one is the model's (log 31). -/
def State.freeTag (s : State) (port : Nat) : Option Nat :=
  if 4096 ≤ s.outstanding port then none
  else
    let used := (s.pci.reqs.filter fun r => r.port == port).map HostReq.tag
    (List.range (used.length + 1)).find? fun t => !used.contains t

/-- R503: ask for a translation, unless one is asked already. -/
def State.askTranslation (s : State) (port fn a : Nat) (w : Bool) : State :=
  let page := 4096 * (a / 4096)
  if s.pci.reqs.any fun r => r.translate && r.port == port && r.fn == fn && r.addr == page && r.state == .live then s
  else match s.freeTag port with
    | none => s
    | some t =>
      let r : HostReq := { port := port, fn := fn, tag := t, op := 0, off := 0, addr := page, len := if w then 1 else 0, translate := true, since := s.now }
      let s := s.count (portCell port) (evOf 0x21 9)
      (s.setPci { s.pci with reqs := s.pci.reqs ++ [r] }).sendTlp
        { port := port, fn := fn, kind := .translation, addr := page, tag := t, pasid := s.pasidOf port fn }

def State.vf (s : State) (port v : Nat) : VfState := smapGet (fun _ => {}) s.pci.vfs (port * 256 + v)

def State.setVf (s : State) (port v : Nat) (x : VfState) : State :=
  s.setPci { s.pci with vfs := smapSet (fun _ => {}) s.pci.vfs (port * 256 + v) x }

/-- R535: writes of the function are logged. -/
def State.logging (s : State) (port fn : Nat) : Bool :=
  decide (1 ≤ fn) && s.flag F.PCI_VFv_DIRTY_CTRL_LOG_EN (upCell port) (fn - 1) && !(s.vf port (fn - 1)).stopping

/-- R508, R536: a function may issue a request now; a write that is logged waits for PF0's Bus Master Enable. -/
def State.mayIssue (s : State) (o : HostOp) : Bool :=
  s.enabled (upCell o.port) && s.fnExists o.port o.fn && s.fnBme o.port o.fn && !s.fnFlr o.port o.fn
    && (!o.write || !s.logging o.port o.fn || s.fnBme o.port 0)

/-- R535: log one page written for a VF. -/
def State.logDirty (s : State) (port fn a : Nat) : State :=
  if !s.logging port fn then s
  else
    let v := fn - 1
    let c := upCell port
    let base := s.fld F.PCI_VFv_DIRTY_RANGE_BASE c v
    let page := a / 4096
    if base ≤ page ∧ page - base < s.fld F.PCI_VFv_DIRTY_PAGES_PAGES c v then
      let m : DirtyMark := ⟨port, v, s.fld F.PCI_VFv_DIRTY_CTRL_ACTIVE c v, page - base⟩
      if s.pci.dirty.contains m then s else s.setPci { s.pci with dirty := s.pci.dirty ++ [m] }
    else
      let n := s.fld F.PCI_VFv_DIRTY_MISS_COUNT c v
      s.setFld F.PCI_VFv_DIRTY_MISS_COUNT c (if n = 0xFFFFFFFF then n else n + 1) v

/-- How far the issue of an operation came. -/
inductive Issued where
  | waits | all | lost
  deriving DecidableEq, Repr

/-- R502, R503: issue the requests of an operation, as far as they can be. -/
def State.issueOp (s : State) (o : HostOp) : (fuel : Nat) → Issued × HostOp × State
  | 0 => (.waits, o, s)
  | fuel + 1 =>
    if o.len ≤ o.pos then (.all, o, s)
    else if !s.mayIssue o then (.waits, o, s)
    else
      let a := o.addr + o.pos
      let n := min (min (if o.write then s.maxPayload o.port else s.maxRead o.port) (o.len - o.pos)) (4096 - a % 4096)
      match s.translate o.port o.fn a o.write with
      | .miss => (.waits, o, s.askTranslation o.port o.fn a o.write)
      | .denied => (.lost, o, s)
      | .done b cached =>
        let s := if cached then s.count (portCell o.port) (evOf 0x21 8) else s
        let t : Tlp :=
          { port := o.port, fn := o.fn, kind := if o.write then .memWrite else .memRead, addr := b, len := n,
            ep := o.poison, pasid := s.pasidOf o.port o.fn, translated := cached }
        if o.write then
          ((s.logDirty o.port o.fn a).sendTlp { t with bytes := (o.data.drop o.pos).take n }).issueOp { o with pos := o.pos + n } fuel
        else match s.freeTag o.port with
          | none => (.waits, o, s)
          | some tag =>
            let r : HostReq := { port := o.port, fn := o.fn, tag := tag, op := o.id, off := o.pos, addr := a, len := n, since := s.now }
            ((s.setPci { s.pci with reqs := s.pci.reqs ++ [r] }).sendTlp { t with tag := tag, ep := false }).issueOp
              { o with pos := o.pos + n } fuel

/-- The bitmap marks and accesses that remain for a bitmap of a VF. -/
def State.dirtyLeft (s : State) (port v map : Nat) : Bool :=
  (s.pci.dirty.any fun m => m.port == port && m.v == v && m.map == map)
    || s.pci.ops.any fun o => match o.purpose with
      | .dirtyRead p w m _ => p == port && w == v && m == map
      | .dirtyWrite p w m _ => p == port && w == v && m == map
      | _ => false

/-- R538: a stop of logging is done once its bitmap lines are written. -/
def State.dirtyStopped (s : State) (port v : Nat) : State :=
  let x := s.vf port v
  if x.stopping ∧ !s.dirtyLeft port v 0 ∧ !s.dirtyLeft port v 1 then
    (s.setVf port v { x with stopping := false }).setFlag F.PCI_VFv_DIRTY_CTRL_LOG_EN (upCell port) false v
  else s

/-- The bus address of a line of a bitmap. -/
def State.bitmapLine (s : State) (port v map line : Nat) : Nat :=
  s.fld (if map = 0 then F.PCI_VFv_DIRTY_MAPA_BASE else F.PCI_VFv_DIRTY_MAPB_BASE) (upCell port) v * 64 + 64 * line

/-- R536: the line with the bits of its marked pages set. -/
def markLine (bs : List Byte) (pages : List Nat) : List Byte :=
  (List.range 64).map fun i => pages.foldl (fun b p => if p % 512 / 8 = i then b ||| BitVec.ofNat 8 (2 ^ (p % 8)) else b) (bs.getD i 0)

def State.addHostOp (s : State) (o : HostOp) : State :=
  s.setPci { s.pci with ops := s.pci.ops ++ [{ o with id := s.pci.nextOp }], nextOp := s.pci.nextOp + 1 }

/-- An operation has ended: a bitmap line goes on to its write; every other is left to its unit. -/
def State.hostFinish (s : State) (d : HostDone) : State :=
  match d.purpose with
  | .dirtyRead port v map line =>
    if !d.ok then s
    else
      let mine := fun (m : DirtyMark) => m.port == port && m.v == v && m.map == map && m.page / 512 == line
      let pages := (s.pci.dirty.filter mine).map DirtyMark.page
      let s := s.setPci { s.pci with dirty := s.pci.dirty.filter fun m => !mine m }
      s.addHostOp { id := 0, port := port, fn := 0, write := true, addr := s.bitmapLine port v map line, len := 64,
                    purpose := .dirtyWrite port v map line, data := markLine d.bytes pages, poison := d.poison }
  | .dirtyWrite port v map line =>
    if d.ok then s.dirtyStopped port v
    else s.setPci { s.pci with dirty := s.pci.dirty ++ [⟨port, v, map, 512 * line⟩] }
  | _ => s.setPci { s.pci with finished := s.pci.finished ++ [d] }

/-- Take an operation out; the data of its outstanding requests is discarded. -/
def State.dropOp (s : State) (id : Nat) : State :=
  let reqs := s.pci.reqs.map fun r => if r.op = id ∧ r.state = .live ∧ !r.translate then { r with state := .discard } else r
  s.setPci { s.pci with ops := s.pci.ops.filter fun o => o.id != id, reqs := reqs }

def State.putOp (s : State) (o : HostOp) : State :=
  s.setPci { s.pci with ops := s.pci.ops.map fun x => if x.id = o.id then o else x }

/-- Issue what can be issued. Writes of a port leave in order. -/
def State.issueOps (s : State) : List HostOp → (blocked : List Nat) → State
  | [], _ => s
  | o :: ops, blocked =>
    if o.write && blocked.contains o.port then s.issueOps ops blocked
    else
      let r := s.issueOp o (o.len + 1)
      match r.1 with
      | .waits => (r.2.2.putOp r.2.1).issueOps ops (if o.write then o.port :: blocked else blocked)
      | .lost => ((r.2.2.dropOp o.id).hostFinish { purpose := o.purpose, ok := false }).issueOps ops blocked
      | .all =>
        if o.write then ((r.2.2.dropOp o.id).hostFinish { purpose := o.purpose, ok := true }).issueOps ops blocked
        else (r.2.2.putOp r.2.1).issueOps ops blocked

/-- R536: a bitmap line is read for the first mark of each bitmap that has no access in flight. -/
def State.dirtyStart (s : State) : List DirtyMark → State
  | [] => s
  | m :: ms =>
    let busy := s.pci.ops.any fun o => match o.purpose with
      | .dirtyRead p w k _ => p == m.port && w == m.v && k == m.map
      | .dirtyWrite p w k _ => p == m.port && w == m.v && k == m.map
      | _ => false
    if busy then s.dirtyStart ms
    else
      (s.addHostOp { id := 0, port := m.port, fn := 0, write := false, addr := s.bitmapLine m.port m.v m.map (m.page / 512), len := 64,
                     purpose := .dirtyRead m.port m.v m.map (m.page / 512) }).dirtyStart ms

/-- Issue whatever the ports can issue now. -/
def State.pciePump (s : State) : State :=
  let s := s.issueOps s.pci.ops []
  let s := s.dirtyStart s.pci.dirty
  s.issueOps s.pci.ops []

/-- R508: whether an operation of a function waits rather than ends while its Bus Master Enable is 0: completion and log entries,
and the bitmap accesses of PF0. -/
def HostPurpose.waits : HostPurpose → Bool
  | .catRecord _ => true
  | .catLogged _ => true
  | .dirtyWrite _ _ _ _ => true
  | _ => false

/-- R508, R509: an access of a function ends at once: its Bus Master Enable is 0, and the access is not one that waits. -/
def State.hostLost (s : State) (port fn : Nat) (p : HostPurpose) : Bool := !s.fnBme port fn && !p.waits

/-- A read of n bytes for a function. -/
def State.hostRead (s : State) (port fn a n : Nat) (p : HostPurpose) : State :=
  if s.hostLost port fn p then s.hostFinish { purpose := p, ok := false }
  else (s.addHostOp { id := 0, port := port, fn := fn, write := false, addr := a, len := n, purpose := p }).pciePump

/-- A write for a function: the number of the operation. -/
def State.hostWrite (s : State) (port fn a : Nat) (bs : List Byte) (ep : Bool) (p : HostPurpose) : Nat × State :=
  if s.hostLost port fn p then (s.pci.nextOp, s.hostFinish { purpose := p, ok := false })
  else (s.pci.nextOp, (s.addHostOp { id := 0, port := port, fn := fn, write := true, addr := a, len := bs.length, purpose := p,
                                     data := bs, poison := ep }).pciePump)

/-! ## Completions -/

def State.dropReq (s : State) (port tag : Nat) : State :=
  s.setPci { s.pci with reqs := s.pci.reqs.filter fun r => !(r.port == port && r.tag == tag) }

def State.putReq (s : State) (q : HostReq) : State :=
  s.setPci { s.pci with reqs := s.pci.reqs.map fun r => if r.port = q.port ∧ r.tag = q.tag then q else r }

/-- End an operation without success. -/
def State.failOp (s : State) (id : Nat) (timeout : Bool := false) : State :=
  match s.pci.ops.find? fun o => o.id == id with
  | none => s
  | some o => (s.dropOp id).hostFinish { purpose := o.purpose, ok := false, timeout := timeout }

/-- R506, R512: an Unexpected Completion. -/
def State.unexpected (s : State) (port fn : Nat) : State :=
  ((s.count (portCell port) (evOf 0x21 6)).aerUncor port fn aerUnexpected true).recordError (portCell port) clsProtocol 0 0

/-- The data of a completion reaches its operation. -/
def State.deliverData (s : State) (r : HostReq) (bs : List Byte) (ep : Bool) : State :=
  let n := min bs.length r.len
  let s := if n < r.len then s.putReq { r with off := r.off + n, addr := r.addr + n, len := r.len - n } else s.dropReq r.port r.tag
  match s.pci.ops.find? fun o => o.id == r.op with
  | none => s
  | some o =>
    let got := ((List.range n).zip bs).foldl (fun m p => smapSet (fun _ => 0) m (r.off + p.1) p.2) o.got
    let o := { o with got := got, poison := o.poison || ep }
    if o.pos = o.len ∧ !(s.pci.reqs.any fun q => q.op == o.id && q.state == .live && !q.translate) then
      (s.dropOp o.id).hostFinish { purpose := o.purpose, ok := true, poison := o.poison,
                                   bytes := (List.range o.len).map fun i => smapGet (fun _ => 0) got i }
    else s.putOp o

/-- R503: the operations whose next access lies in a page that could not be translated. -/
def State.failWaiting (s : State) (port fn page : Nat) : State :=
  (s.pci.ops.filter fun o => o.port == port && o.fn == fn && decide (o.pos < o.len)
    && (o.addr + o.pos) / 4096 * 4096 == page).foldl (fun s o => s.failOp o.id) s

/-- R503: keep a translation; a port holds 4,096 (the oldest leaves, log 31). -/
def State.cacheAdd (s : State) (port : Nat) (t : Translation) : State :=
  let mine := s.pci.cache.filter fun p => p.1 == port
  let cache := if 4096 ≤ mine.length then s.pci.cache.erase (mine.headD (port, t)) else s.pci.cache
  s.setPci { s.pci with cache := cache ++ [(port, t)] }

/-- R504, R506, R507, R510: a completion arrives at an upstream port. -/
def State.hostCompletion (s : State) (port tag status : Nat) (body : CplBody) (ep : Bool) : State :=
  let s := s.noteTlp port (match body with
    | .data bs => bs.length
    | .translation _ _ _ _ => 8)
  match s.pci.reqs.find? fun r => r.port == port && r.tag == tag with
  | none => s.unexpected port 0
  | some r =>
    match r.state with
    | .quarantine => s.unexpected port r.fn
    | .oldGen => ((s.dropReq port tag).count (portCell port) 0x005).pciePump
    | .discard => (s.dropReq port tag).pciePump
    | .live =>
      if status ≠ 0 then
        let s := s.dropReq port tag
        (if r.translate then s.failWaiting port r.fn r.addr else s.failOp r.op).pciePump
      else match body with
        | .translation a size rd w =>
          let s := s.dropReq port tag
          (if r.stale ∨ !r.translate then s else s.cacheAdd port ⟨r.fn, r.addr, max 12 (min size 30), a, rd, w⟩).pciePump
        | .data bs =>
          let s := if ep then s.aerUncor port r.fn aerPoisoned true else s
          (if r.translate then (s.dropReq port tag).failWaiting port r.fn r.addr else s.deliverData r bs ep).pciePump

/-- R505, R506: a request times out, not before its time. -/
def State.hostTimeout (s : State) (port tag : Nat) : State :=
  match s.pci.reqs.find? fun r => r.port == port && r.tag == tag with
  | none => s
  | some r =>
    if (r.state = .live ∨ r.state = .discard) ∧ r.since + s.timeoutOf port ≤ s.now then
      let s := s.putReq { r with state := .quarantine, since := s.now }
      let s := (s.count (portCell port) (evOf 0x21 5)).count (portCell port) (evOf 0x21 7)
      let s := (s.aerUncor port r.fn aerTimeout false).recordError (portCell port) clsTimeout 0 0
      let s := if r.state ≠ .live then s else if r.translate then s.failWaiting port r.fn r.addr else s.failOp r.op true
      s.pciePump
    else s

/-- R506, R510: a quarantined tag is free again, one timeout period after its timeout, or after the reset of its function began. -/
def State.quarantineEnd (s : State) (port tag : Nat) : State :=
  match s.pci.reqs.find? fun r => r.port == port && r.tag == tag with
  | some r =>
    let t := if r.state = .oldGen then r.stopped.getD r.since else r.since
    if (r.state = .quarantine ∨ r.state = .oldGen) ∧ t + s.timeoutOf port ≤ s.now then (s.dropReq port tag).pciePump else s
  | none => s

/-- R504: an Invalidation Request for 2^size bytes of a function's bus addresses. -/
def State.invalidate (s : State) (port fn a size : Nat) : State :=
  let hit := fun b sz => decide (a / 2 ^ max size sz = b / 2 ^ max size sz)
  let s := (s.noteTlp port 8).count (portCell port) (evOf 0x21 10)
  let s := s.setPci { s.pci with
    cache := s.pci.cache.filter fun p => !(p.1 == port && p.2.fn == fn && hit p.2.bus p.2.size)
    reqs := s.pci.reqs.map fun r =>
      if r.translate ∧ r.port = port ∧ r.fn = fn ∧ hit r.addr 12 then { r with stale := true } else r }
  s.sendTlp { port := port, fn := fn, kind := .invalidated, addr := a }

/-! ## A function stops -/

/-- R508: the function issues nothing more; outstanding reads are discarded, and its operations end. With `all`, those that would
wait go too (R509, R531). -/
def State.stopFn (s : State) (port fn : Nat) (all : Bool) : State :=
  let s := (s.pci.ops.filter fun o => o.port == port && o.fn == fn && (all || !o.purpose.waits)).foldl (fun s o => s.failOp o.id) s
  if all then
    s.setPci { s.pci with reqs := s.pci.reqs.map fun r => if r.port = port ∧ r.fn = fn then { r with stopped := some (r.stopped.getD s.now) } else r }
  else s

/-- R508: Bus Master Enable goes to 0. -/
def State.bmeOff (s : State) (port fn : Nat) : State :=
  if !s.fnBme port fn then s
  else
    let s := s.setFlag F.PCI_FNf_STATUS_BME (upCell port) false fn
    let s := s.setCfg port fn 0x04 (putBits (s.cfg port fn 0x04) 2 2 0)
    (s.event (0x40021082 + port)).stopFn port fn false

/-- R508: Bus Master Enable returns: what waited is written, and pending messages are sent. -/
def State.bmeOn (s : State) (port fn : Nat) : State :=
  if s.fnBme port fn ∨ !s.fnExists port fn ∨ s.fnFlr port fn then s
  else
    let s := s.setFlag F.PCI_FNf_STATUS_BME (upCell port) true fn
    let s := s.cfgSet port fn 0x04 4
    ((s.event (0x40021082 + port)).pciePump).msixFlush port fn

/-- The configuration of a function that a Function Level Reset leaves. -/
def stickyCfg (port fn : Nat) (cfg : SMap (BitVec 32)) : SMap (BitVec 32) :=
  let reset := fun o => BitVec.ofNat 32 (cfgDword port fn o).reset
  cfg.foldl (fun m p =>
    let k := BitVec.ofNat 32 (stickyBits fn p.1)
    smapSet reset m p.1 ((p.2 &&& k) ||| (reset p.1 &&& ~~~k))) []

/-- R509, R532: a function's MSI-X table and its configuration space, but for what is sticky, return to their reset values, and its
cached translations go. -/
def State.clearFn (s : State) (port fn : Nat) (table config : Bool) : State :=
  let f := s.pciFn port fn
  let s := s.setPciFn port fn { cfg := if config then stickyCfg port fn f.cfg else f.cfg, msix := if table then [] else f.msix, pba := if table then [] else f.pba }
  s.setPci { s.pci with cache := s.pci.cache.filter fun p => !(p.1 == port && p.2.fn == fn) }

/-- R510: the generation moves on: the requests outstanding belong to an earlier one. -/
def State.nextGen (s : State) (port fn : Nat) : State :=
  let c := upCell port
  let g := s.fld F.PCI_FNf_STATUS_FGEN c fn + 1
  let s := s.setFld F.PCI_FNf_STATUS_FGEN c g fn
  let s := if fn = 0 then s else s.setFld F.PCI_VFv_STATE_GEN c g (fn - 1)
  let old := fun (r : HostReq) => r.port == port && r.fn == fn && (r.state == .live || r.state == .discard)
  let n := (s.pci.reqs.filter old).length
  let s := s.setPci { s.pci with reqs := s.pci.reqs.map fun r => if old r then { r with state := .oldGen } else r }
  s.count c (evOf 0x21 7) none n

/-! ## Dirty-page logging -/

/-- R537: SWAP. -/
def State.dirtySwap (s : State) (port v : Nat) : State :=
  let c := upCell port
  if !s.flag F.PCI_VFv_DIRTY_CTRL_LOG_EN c v ∨ s.flag F.PCI_VFv_DIRTY_CTRL_SWAP_BUSY c v then s.recordError c clsAccess 0 0
  else
    let s := s.setFld F.PCI_VFv_DIRTY_CTRL_ACTIVE c (1 - s.fld F.PCI_VFv_DIRTY_CTRL_ACTIVE c v) v
    s.setFlag F.PCI_VFv_DIRTY_CTRL_SWAP_BUSY c true v

/-- R537: the swap returns once nothing of the old bitmap is left to write. -/
def State.dirtySwapped (s : State) (port v : Nat) : State :=
  let c := upCell port
  if s.flag F.PCI_VFv_DIRTY_CTRL_SWAP_BUSY c v ∧ !s.dirtyLeft port v (1 - s.fld F.PCI_VFv_DIRTY_CTRL_ACTIVE c v) then
    s.setFlag F.PCI_VFv_DIRTY_CTRL_SWAP_BUSY c false v
  else s

/-- R538: a write of LOG_EN. -/
def State.dirtyLogEn (s : State) (port v : Nat) (en : Bool) : State :=
  let c := upCell port
  let x := s.vf port v
  let on := s.flag F.PCI_VFv_DIRTY_CTRL_LOG_EN c v
  if en then
    if on then s.setVf port v { x with stopping := false }
    else
      let s := s.setFlag F.PCI_VFv_DIRTY_CTRL_LOG_EN c true v
      (s.setFld F.PCI_VFv_DIRTY_CTRL_ACTIVE c 0 v).setFld F.PCI_VFv_DIRTY_MISS_COUNT c 0 v
  else if on then (s.setVf port v { x with stopping := true }).dirtyStopped port v
  else s

end Sys2Proof.Machine
end

