-- ==== Sys2Proof/Machine/Shutter.lean ====
section
/-! DEFINITION. Shutter (chapter 13): the tree (R435 to R437), admission (R438, R439), eligibility, choice and charging (R441 to
R444), the buckets (R445, R446), and the transmit rings (R450, R451). -/

namespace Sys2Proof.Machine

open Sys2Proof

def State.setSht (s : State) (x : ShtState) : State := { s with sht := x }

/-- The keys of service and port nodes. -/
def svcKey (n : Nat) : Nat := 0x10000 + n
def portKey (p : Nat) : Nat := 0x20000 + p

/-! ## The tree -/

def State.svcParent (s : State) (n : Nat) : Nat := s.fld F.SHT_SVCs_CFG_PARENT shtCell n
def State.subqParent (s : State) (q : Nat) : Nat := s.fld F.SHT_SUBQq_CFG_PARENT shtCell q

/-- R437: the relay port of a service; 0 for none. -/
def State.svcRelay (s : State) (n : Nat) : Nat :=
  let r := s.fld F.SHT_SVCs_CFG_RELAY shtCell n
  if 8 ≤ r ∧ r ≤ 10 then r else 0

/-- The port node at the root of a queue. -/
def State.subqRoot (s : State) (q : Nat) : Nat := s.svcParent (s.subqParent q)

/-- The services whose configuration differs from reset, by number. -/
def State.listedServices (s : State) : List Nat :=
  let base := regAddr .SHT_SVCs_CFG shtCell 0
  (s.regs.filterMap fun p => if base ≤ p.1 ∧ p.1 < base + 0x4000 ∧ (p.1 - base) % 32 = 0 then some ((p.1 - base) / 32) else none)

/-- R437: the relay service of port i into Ep. -/
def State.relayOf (s : State) (i p : Nat) : Option Nat :=
  if p < 8 then s.listedServices.find? fun n => s.svcRelay n == i && s.svcParent n == p else none

def State.subqFrames (s : State) (q : Nat) : List ShtFrame := smapGet (fun _ => []) s.sht.queues q
def State.setSubq (s : State) (q : Nat) (l : List ShtFrame) : State :=
  s.setSht { s.sht with queues := smapSet (fun _ => []) s.sht.queues q l }
def State.relayFrames (s : State) (n : Nat) : List ShtFrame := smapGet (fun _ => []) s.sht.relays n
def State.setRelay (s : State) (n : Nat) (l : List ShtFrame) : State :=
  s.setSht { s.sht with relays := smapSet (fun _ => []) s.sht.relays n l }

/-- R438: the Ethernet port a frame of a queue leaves by: the root, or the egress it or its queue names. -/
def State.frameEgress (s : State) (q : Nat) (f : ShtFrame) : Nat :=
  let root := s.subqRoot q
  if root < 8 then root
  else if f.egress = 15 then s.fld F.SHT_SUBQq_CFG_EGRESS shtCell q
  else f.egress

/-- `SHT_STATUS` as it reads. -/
def State.shtStatus (s : State) : Nat := s.freeCells + (decide (s.freeCells ≤ s.shtReserve)).toNat * 2 ^ 18

/-- The bytes a queue holds. -/
def State.subqBytes (s : State) (q : Nat) : Nat := ((s.subqFrames q).map ShtFrame.len).sum

/-- `SHT_SUBQq_STATUS` as it reads. -/
def State.subqStatus (s : State) (q : Nat) : Nat := s.subqBytes q + (s.subqFrames q).length * 2 ^ 32

/-! ## Nodes -/

/-- R446: the rates a node's registers hold. Port nodes have a peak bucket only. -/
def State.nodeRegs (s : State) (key : Nat) : NodeRate :=
  if key < 0x10000 then
    ⟨min 800000 (s.fld F.SHT_SUBQq_RATE_CIR shtCell key), s.fld F.SHT_SUBQq_RATE_PIR shtCell key,
      s.fld F.SHT_SUBQq_BURST_CBS shtCell key, s.fld F.SHT_SUBQq_BURST_PBS shtCell key, 0x20⟩
  else if key < 0x20000 then
    let n := key - 0x10000
    ⟨min 800000 (s.fld F.SHT_SVCs_RATE_CIR shtCell n), s.fld F.SHT_SVCs_RATE_PIR shtCell n,
      s.fld F.SHT_SVCs_BURST_CBS shtCell n, s.fld F.SHT_SVCs_BURST_PBS shtCell n, min 0x5F (s.fld F.SHT_SVCs_CFG_OVH shtCell n)⟩
  else
    let p := key - 0x20000
    ⟨0, min 800000 (s.fld F.SHT_PORTp_CFG_PIR shtCell p), 0, s.fld F.SHT_PORTp_CFG_PBS shtCell p,
      min 0x5F (s.fld F.SHT_PORTp_CFG_OVH shtCell p)⟩

/-- The rates in force after reset. -/
def nodeReset (key : Nat) : NodeRate :=
  if key < 0x10000 then ⟨0, 0, 0x4000, 0x4000, 0x20⟩
  else if key < 0x20000 then ⟨0, 0, 0x4000, 0x4000, 0x20⟩
  else ⟨0, 0, 0, 0x4000, 0x34⟩

def State.nodeRate (s : State) (key : Nat) : NodeRate := smapGet nodeReset s.sht.inForce key

/-- R445: a depth in bucket units. -/
def depthUnits (d : Nat) : Int := (max 64 d) * 160

def State.committed (s : State) (key : Nat) : Int := smapGet (fun _ => depthUnits 0x4000) s.sht.committed key
def State.peak (s : State) (key : Nat) : Int := smapGet (fun _ => depthUnits 0x4000) s.sht.peak key

/-- Set the level of a node's buckets. -/
def State.setBuckets (s : State) (key : Nat) (c p : Int) : State :=
  s.setSht { s.sht with
    committed := smapSet (fun _ => depthUnits 0x4000) s.sht.committed key c
    peak := smapSet (fun _ => depthUnits 0x4000) s.sht.peak key p }

/-- R445: the peak bucket is positive, or there is no peak limit. -/
def State.peakOk (s : State) (key : Nat) : Bool := (s.nodeRate key).pir == 0 || decide (0 < s.peak key)

/-- R441, R445: an eligible node is green. -/
def State.nodeGreen (s : State) (key : Nat) : Bool := (s.nodeRate key).cir != 0 && decide (0 < s.committed key)

def State.startTag (s : State) (key : Nat) : Nat := smapGet (fun _ => 0) s.sht.tags key
def State.setTag (s : State) (key v : Nat) : State := s.setSht { s.sht with tags := smapSet (fun _ => 0) s.sht.tags key (v % 2 ^ 48) }
def State.vtimeOf (s : State) (key : Nat) : Nat := smapGet (fun _ => 0) s.sht.vtime key
def State.setVtime (s : State) (key v : Nat) : State := s.setSht { s.sht with vtime := smapSet (fun _ => 0) s.sht.vtime key v }

/-- R443: a precedes b, by the signed 48-bit difference. -/
def tagLess (a b : Nat) : Bool := decide ((b + 2 ^ 48 - a % 2 ^ 48) % 2 ^ 48 < 2 ^ 47) && a != b

/-! ## Eligibility -/

/-- R441: a subscriber queue. -/
def State.subqEligible (s : State) (q : Nat) : Bool :=
  match s.subqFrames q with
  | [] => false
  | f :: _ =>
    let root := s.subqRoot q
    let e := s.frameEgress q f
    let unpaused := root == 11 || decide (8 ≤ e) || !s.prioPaused e (s.egressPrio e f.bytes)
    let room := if 8 ≤ root ∧ root ≤ 10 then
        (match s.relayOf root e with
          | some r => decide ((s.relayFrames r).length < 4)
          | none => false)
      else true
    unpaused && room && s.peakOk q

/-- The queues under a service that hold a frame. -/
def State.childQueues (s : State) (n : Nat) : List Nat :=
  (s.sht.queues.map Prod.fst).filter fun q => s.subqParent q == n

/-- R437: a relay service that may be eligible: its parent is an Ethernet port and no lower service is the same relay. -/
def State.relayService (s : State) (n : Nat) : Bool :=
  s.svcRelay n != 0 && s.relayOf (s.svcRelay n) (s.svcParent n) == some n

/-- R441: a service node. -/
def State.svcEligible (s : State) (n : Nat) : Bool :=
  s.flag F.SHT_SVCs_CFG_EN shtCell n && s.peakOk (svcKey n) && decide (s.svcParent n < 12)
    && (if s.svcRelay n ≠ 0 then
        s.relayService n && (match s.relayFrames n with
          | [] => false
          | f :: _ => !s.prioPaused (s.svcParent n) (s.egressPrio (s.svcParent n) f.bytes))
      else (s.childQueues n).any fun q => s.subqEligible q)

/-- The services that may be eligible: parents of queues with frames, and those whose relay FIFO holds one. -/
def State.liveServices (s : State) : List Nat :=
  (((s.sht.queues.map Prod.fst).map fun q => s.subqParent q) ++ s.sht.relays.map Prod.fst).dedup

/-- The eligible services under a port node. -/
def State.childServices (s : State) (p : Nat) : List Nat :=
  s.liveServices.filter fun n => s.svcParent n == p && s.svcEligible n

/-- R429, R441: an Ethernet port node can start a frame: its cell is in no quiesce. -/
def State.portStarts (s : State) (p : Nat) : Bool := decide (8 ≤ p) || !s.flag F.CELL_STATE_QUIESCE_BUSY (ethCell p)

/-- R449: Shutter sends frames, while it is ENABLED and in a quiesce. -/
def State.shtSends (s : State) : Bool := s.enabled shtCell || s.flag F.CELL_STATE_QUIESCE_BUSY shtCell

/-- R441: a port node, but for whether classification can take a looped frame. -/
def State.portEligible (s : State) (p : Nat) : Bool :=
  s.shtSends && s.peakOk (portKey p) && !(s.childServices p).isEmpty && s.portStarts p

/-- R443: raise the start tag of a child that turns eligible, and note what is eligible. -/
def State.noteEligible (s : State) (key parent : Nat) (el : Bool) : State :=
  let was := smapGet (fun _ => false) s.sht.eligible key
  if was = el then s
  else
    let s := s.setSht { s.sht with eligible := smapSet (fun _ => false) s.sht.eligible key el }
    if el ∧ tagLess (s.startTag key) (s.vtimeOf parent) then s.setTag key (s.vtimeOf parent) else s

/-- R443: bring the note of eligibility up to date, queues first. -/
def State.shtUpdate (s : State) : State :=
  let keys := ((s.sht.queues.map Prod.fst) ++ (s.sht.eligible.map Prod.fst).filter fun k => decide (k < 0x10000)).dedup
  let s := keys.foldl (fun s q => s.noteEligible q (svcKey (s.subqParent q)) (s.subqEligible q)) s
  let svcs := (s.liveServices ++ (s.sht.eligible.map Prod.fst).filterMap fun k => if 0x10000 ≤ k then some (k - 0x10000) else none).dedup
  svcs.foldl (fun s n => s.noteEligible (svcKey n) (portKey (s.svcParent n)) (s.svcEligible n)) s

/-! ## Admission -/

/-- What R439 does with a frame. -/
inductive Admission where
  | admitted
  /-- Discarded under check 1 or 2: DISABLED, MISROUTED, NO_RELAY. -/
  | discarded (why : Nat)
  /-- Check 3 or 4 (3: queue limit; 4: buffer). -/
  | noRoom (why : Nat)
  deriving DecidableEq, Repr

/-- R439: the checks of a frame for a queue, from the Spectrograph or not. -/
def State.admitCheck (s : State) (q : Nat) (f : ShtFrame) (spg : Bool) : Admission :=
  let root := s.subqRoot q
  let limit := min 32768 (s.fld F.SHT_SUBQq_CFG_QLIMIT_KIB shtCell q) * 1024
  if !s.flag F.SHT_SUBQq_CFG_EN shtCell q then .discarded 0
  else if root < 8 ∧ f.egress ≠ 15 ∧ f.egress ≠ root then .discarded 1
  else if 8 ≤ root ∧ root ≤ 10 ∧ (s.relayOf root (s.frameEgress q f)).isNone then .discarded 2
  else if limit < s.subqBytes q + f.len then .noRoom 3
  else if spg ∧ s.freeCells < s.shtReserve + f.cells then .noRoom 4
  else if s.freeCells < f.cells then .noRoom 4
  else .admitted

/-- R438: the egress that the source of a frame stated, or that of its queue. -/
def State.statedEgress (s : State) (q : Nat) (f : ShtFrame) : Nat := if f.egress = 15 then s.frameEgress q f else f.egress

/-- R439: count a discard; check 2 records PROTOCOL. -/
def State.admitDrop (s : State) (q : Nat) (f : ShtFrame) (why : Nat) : State :=
  let s := s.count shtCell (evOf 0x26 4) (some why)
  if why = 1 ∨ why = 2 then s.recordError shtCell clsProtocol 0 (q + s.statedEgress q f % 16 * 2 ^ 16) else s

/-- Place an admitted frame. -/
def State.enqueue (s : State) (q : Nat) (f : ShtFrame) : State :=
  (s.setSubq q (s.subqFrames q ++ [f])).shtUpdate.noteLevels

/-- R438, R439, R449: a frame from the Spectrograph: discarded where it cannot be placed. Whether it was placed. -/
def State.admitSpg (s : State) (q : Nat) (bs : List Byte) (mark : Bool := false) : Bool × State :=
  let f : ShtFrame := ⟨bs, 15, mark⟩
  if !s.enabled shtCell then (false, s.admitDrop q f 0)
  else match s.admitCheck q f true with
    | .admitted => (true, s.enqueue q f)
    | .discarded w => (false, s.admitDrop q f w)
    | .noRoom w => (false, s.admitDrop q f w)

/-- R438, R439: a frame of a source that holds: admitted, discarded or held. A frame behind a held one of its source is held. -/
def State.admitHeld (s : State) (src : ShtSource) (q egress : Nat) (bs : List Byte) : Admission × State :=
  let f : ShtFrame := ⟨bs, egress, false⟩
  let hold := fun (s : State) =>
    (s.setSht { s.sht with held := s.sht.held ++ [⟨src, q, egress, bs⟩] }).count shtCell (evOf 0x26 5)
  if (s.sht.held.any fun h => h.src == src) ∨ !s.enabled shtCell then (.noRoom 4, hold s)
  else match s.admitCheck q f false with
    | .admitted => (.admitted, s.enqueue q f)
    | .discarded w => (.discarded w, s.admitDrop q f w)
    | .noRoom w => (.noRoom w, hold s)

/-! ## Transmit rings -/

/-- R450: the phase and status a ring writes into word 4 of the entry at its head, and what follows (R451). -/
def State.txrDone (s : State) (r status : Nat) : State :=
  let log2 := s.fld F.SHT_TXRr_CFG_SIZE_LOG2 shtCell r
  let head := s.fld F.SHT_TXRr_PTR_HEAD shtCell r
  let a := ringAt (4096 * s.fld F.SHT_TXRr_CFG_BASE shtCell r) log2 32 head
  let flip := smapGet (fun _ => false) s.sht.flip r
  let w := s.devWrite (a + 16) (natLe 4 (status + (!flip).toNat * 2 ^ 31))
  let s := if w.1 then w.2 else w.2.recordError shtCell clsAccess a 0
  let s := s.setFld F.SHT_TXRr_PTR_HEAD shtCell ((head + 1) % 65536) r
  let s := s.setSht { s.sht with flip := smapSet (fun _ => false) s.sht.flip r (!nextPhase log2 head (!flip)) }
  let s := if status = 2 then s.count shtCell (evOf 0x26 8) else s
  (s.notifyBit (s.fld F.SHT_TXRr_PTR_NOTIFY_BIT shtCell r)).routeFire (12288 + r)

/-- R525: the page map entries that name a queue: the port and VF of each. -/
def State.pagesOf (s : State) (kind index : Nat) : List (Nat × Nat) :=
  ([0, 1] : List Nat).flatMap fun h =>
    let base := regAddr .PCI_VFv_PAGEp (upCell h) 0
    s.regs.filterMap fun p =>
      if base ≤ p.1 ∧ p.1 < base + 0x80000 ∧ bitsOf p.2.toNat 3 0 = kind ∧ bitsOf p.2.toNat 27 16 = index then
        some (h, (p.1 - base) / 2048) else none

/-- R525: the subscriber ranges of the VFs that a ring is mapped to allow a queue. -/
def State.subqAllowed (s : State) (r q : Nat) : Bool :=
  (s.pagesOf 5 r).all fun p =>
    let b := s.fld F.PCI_VFv_PROV_SUBQ_BASE (upCell p.1) p.2
    decide (b ≤ q) && decide (q < b + s.fld F.PCI_VFv_PROV_SUBQ_COUNT (upCell p.1) p.2)

/-- R450, R451: the entry's fields are in range and its reserved ones 0. -/
def txrValid (ws : List Word32) : Bool :=
  let len := wfield ws 2 13 0
  let eg := wfield ws 2 19 16
  wlong ws 0 % 64 == 0 && decide (wlong ws 0 < 2 ^ 48) && decide (60 ≤ len) && decide (len ≤ 16320) && wfield ws 2 15 14 == 0
    && wfield ws 2 31 20 == 0 && wfield ws 3 31 16 == 0 && (decide (eg < 8) || eg == 15)
    && (List.range 3).all fun i => wfield ws (5 + i) 31 0 == 0

/-- R451: a ring takes its head entry. -/
def State.txrTake (s : State) (r : Nat) : State :=
  let log2 := s.fld F.SHT_TXRr_CFG_SIZE_LOG2 shtCell r
  let head := s.fld F.SHT_TXRr_PTR_HEAD shtCell r
  if !s.flag F.SHT_TXRr_CFG_EN shtCell r ∨ log2 < 6 ∨ 16 < log2 ∨ head = s.fld F.SHT_TXRr_PTR_TAIL shtCell r
      ∨ !s.enabled shtCell ∨ (s.sht.held.any fun h => h.src == .ring r) then s
  else
    let a := ringAt (4096 * s.fld F.SHT_TXRr_CFG_BASE shtCell r) log2 32 head
    match s.devRead a 32 with
    | (none, s) => s.recordError shtCell clsAccess a 0
    | (some (_, true), s) => (s.recordError shtCell clsPoison a 0).txrDone r 2
    | (some (bs, false), s) =>
      let ws := wordsOf 8 bs
      let buf := wlong ws 0
      let len := wfield ws 2 13 0
      let q := wfield ws 3 15 0
      if !txrValid ws ∨ !extentOneQuad buf len ∨ !s.extentFree (s.domePosted (txrKey r) head) buf len ∨ !s.subqAllowed r q then s.txrDone r 2
      else match s.devRead buf len with
        | (some (fr, false), s) =>
          let x := s.admitHeld (.ring r) q (wfield ws 2 19 16) fr
          (match x.1 with
            | .admitted => x.2.txrDone r 0
            | .discarded _ => x.2.txrDone r 1
            | .noRoom _ => x.2)
        | (_, s) => s.txrDone r 2

/-- The head entry of a ring no longer waits for room. -/
def State.txrWithdraw (s : State) (r : Nat) : State :=
  s.setSht { s.sht with held := s.sht.held.filter fun h => h.src != .ring r }

/-- R451: EN goes from 0 to 1. -/
def State.txrEnable (s : State) (r : Nat) : State :=
  let s := (((s.txrWithdraw r).setFld F.SHT_TXRr_PTR_HEAD shtCell 0 r).setFld F.SHT_TXRr_PTR_TAIL shtCell 0 r).setPosted (txrKey r) []
  s.setSht { s.sht with flip := smapSet (fun _ => false) s.sht.flip r false }

/-! ## Held frames -/

/-- R439: admit the first held frame, in the order of holding, that no earlier one of its source precedes and that has room or is
discarded. -/
def State.admitFirst (s : State) : List HeldFrame → (seen : List HeldFrame) → State
  | [], _ => s
  | h :: hs, seen =>
    if seen.any fun x => x.src == h.src then s.admitFirst hs (seen ++ [h])
    else
      let f : ShtFrame := ⟨h.bytes, h.egress, false⟩
      let out := fun (s : State) => s.setSht { s.sht with held := seen ++ hs }
      let ring := fun (s : State) (status : Nat) => match h.src with
        | .ring r => s.txrDone r status
        | _ => s
      match s.admitCheck h.subq f false with
      | .admitted => ring ((out s).enqueue h.subq f) 0
      | .discarded w => ring ((out s).admitDrop h.subq f w) 1
      | .noRoom _ => s.admitFirst hs (seen ++ [h])

/-- R439: one held frame is admitted. -/
def State.heldAdmit (s : State) : State := if s.enabled shtCell then s.admitFirst s.sht.held [] else s

/-! ## Selection -/

/-- R442: the better of two children: green before yellow, then the lesser start tag, then the lower number. -/
def State.better (s : State) (a b : Nat) : Bool :=
  let ga := s.nodeGreen a
  let gb := s.nodeGreen b
  if ga ≠ gb then ga
  else if s.startTag a ≠ s.startTag b then tagLess (s.startTag a) (s.startTag b)
  else decide (a ≤ b)

def State.bestOf (s : State) : List Nat → Option Nat
  | [] => none
  | k :: ks => match s.bestOf ks with
    | none => some k
    | some b => if s.better k b then some k else some b

/-- R444: the charged length with an overhead. -/
def chargedLen (len ovh : Nat) : Nat := max 1 (len + ovh - 32)

/-- R443, R445: charge a node for a charged length: debit its buckets; as a child of `parent` with `weight`, advance its tag. -/
def State.charge (s : State) (key l : Nat) : State :=
  let r := s.nodeRate key
  let d : Int := l * 160
  s.setBuckets key (if key < 0x20000 then s.committed key - d else s.committed key) (if r.pir = 0 then s.peak key else s.peak key - d)

def State.advance (s : State) (key parent l weight : Nat) : State :=
  (s.setVtime parent (s.startTag key)).setTag key (s.startTag key + l * 65536 / max 1 weight)

/-- R442 to R444: port node p selects: the service, the queue where it is no relay, the frame and its egress. Its frame is charged and
leaves its queue. -/
def State.select (s : State) (p : Nat) : Option (ShtFrame × Nat × State) :=
  if !s.portEligible p then none
  else match s.bestOf ((s.childServices p).map svcKey) with
    | none => none
    | some sk =>
      let n := sk - 0x10000
      let sOvh := (s.nodeRate sk).ovh
      let pOvh := (s.nodeRate (portKey p)).ovh
      let green := s.nodeGreen sk
      let finish := fun (s : State) (f : ShtFrame) (e : Nat) =>
        let l := chargedLen f.len sOvh
        let s := (s.charge sk l).advance sk (portKey p) l (s.fld F.SHT_SVCs_CFG_WEIGHT shtCell n)
        let pl := chargedLen f.len pOvh
        let s := s.charge (portKey p) pl
        let s := s.count shtCell (evOf 0x26 (if green then 2 else 3))
        let s := (s.count shtCell (evOf 0x26 0) (some p)).count shtCell (evOf 0x26 1) (some p) pl
        some (f, e, s)
      if s.svcRelay n ≠ 0 then
        match s.relayFrames n with
        | [] => none
        | f :: fs => finish (s.setRelay n fs) f p
      else match s.bestOf ((s.childQueues n).filter fun q => s.subqEligible q) with
        | none => none
        | some q => match s.subqFrames q with
          | [] => none
          | f :: fs =>
            let e := s.frameEgress q f
            let l := chargedLen f.len sOvh
            let s := (s.charge q l).advance q sk l (s.fld F.SHT_SUBQq_CFG_WEIGHT shtCell q)
            finish (s.setSubq q fs) f e

/-- R604: what the code of the Shutter buffer finds as a frame leaves it. -/
def ShtFrame.leaves (f : ShtFrame) (err : BufErr) : ShtFrame := { f with mark := f.mark || err == .bad }

/-- R436, R442: port nodes 0 to 10 dispose of the frame they select: transmit it, or move it into its relay FIFO. -/
def State.selectPort (s : State) (p : Nat) (err : BufErr) : State :=
  match s.shtUpdate.select p with
  | none => s.shtUpdate
  | some (f, e, s) =>
    let s := s.bufErr shtCell err
    let f := f.leaves err
    let s := if p < 8 then s.transmit p f.bytes f.mark
      else match s.relayOf p e with
        | some r => s.setRelay r (s.relayFrames r ++ [f])
        | none => s
    s.shtUpdate.noteLevels

/-! ## Buckets -/

/-- R445, R446: a refill tick of one node. -/
def State.refillNode (s : State) (key k : Nat) : State :=
  let r := s.nodeRegs key
  let s := s.setSht { s.sht with inForce := smapSet nodeReset s.sht.inForce key r }
  let up := fun (l : Int) (rate depth : Nat) => min (l + rate * k) (depthUnits depth)
  s.setBuckets key (if key < 0x20000 then up (s.committed key) r.cir r.cbs else s.committed key) (up (s.peak key) r.pir r.pbs)

/-- The nodes of a level whose refill can change anything: those with a level, a rate in force or a register of their own. -/
def State.refillKeys (s : State) (lo hi : Nat) (base stride : Nat) : List Nat :=
  let own := (s.sht.committed.map Prod.fst) ++ (s.sht.peak.map Prod.fst) ++ s.sht.inForce.map Prod.fst
  let regs := s.regs.filterMap fun p =>
    if base ≤ p.1 ∧ p.1 < base + stride * (hi - lo) then some (lo + (p.1 - base) / stride) else none
  ((own.filter fun k => decide (lo ≤ k ∧ k < hi)) ++ regs).dedup

/-- R445: a refill tick of a level: 0 the subscriber queues (1 µs), 1 the services (250 ns), 2 the port nodes (100 ns). -/
def State.refillLevel (s : State) (level : Nat) : State :=
  let s := match level with
    | 0 => (s.refillKeys 0 0x10000 (regAddr .SHT_SUBQq_CFG shtCell 0) 32).foldl (fun (s : State) k => s.refillNode k 20) s
    | 1 => (s.refillKeys 0x10000 0x10200 (regAddr .SHT_SVCs_CFG shtCell 0) 32).foldl (fun (s : State) k => s.refillNode k 5) s
    | _ => (s.refillKeys 0x20000 0x2000C (regAddr .SHT_PORTp_CFG shtCell 0) 8).foldl (fun (s : State) k => s.refillNode k 2) s
  s.shtUpdate

/-- R445: the buckets of a node are filled when its EN goes from 0 to 1. -/
def State.fillNode (s : State) (key : Nat) : State :=
  let r := s.nodeRate key
  s.setBuckets key (depthUnits r.cbs) (depthUnits r.pbs)

/-! ## Register rules and reset -/

/-- Whether anything under a service holds a frame. -/
def State.svcHolds (s : State) (n : Nat) : Bool := !(s.childQueues n).isEmpty || !(s.relayFrames n).isEmpty

/-- R437, R448: the value a write of a queue's or service's configuration leaves: fields it may not change keep their value, and then
ACCESS is recorded. -/
def State.shtCfgWrite (s : State) (r : RegId) (i v : Nat) : Nat × Bool :=
  let old := (s.reg r shtCell i).toNat
  match r with
  | .SHT_SUBQq_CFG =>
    let locked := bitsOf old 0 0 == 1 || !(s.subqFrames i).isEmpty
    let parent := bitsOf v 16 8
    let badP := bitsOf old 16 8 != parent && (locked || s.svcRelay parent != 0)
    let badE := bitsOf old 7 4 != bitsOf v 7 4 && locked
    let v := if badP then putBits v 16 8 (bitsOf old 16 8) else v
    (if badE then putBits v 7 4 (bitsOf old 7 4) else v, badP || badE)
  | .SHT_SVCs_CFG =>
    let locked := bitsOf old 0 0 == 1 || s.svcHolds i
    if bitsOf old 11 4 ≠ bitsOf v 11 4 ∧ locked then (putBits v 11 4 (bitsOf old 11 4), true) else (v, false)
  | _ => (v, false)

/-- The source is a transmit ring. -/
def ShtSource.isRing : ShtSource → Bool
  | .ring _ => true
  | _ => false

/-- R449: a reset of the cell discards every frame, tag, bucket and relay FIFO. Frames held at other units stay there; the rings, whose
registers are reset, hold none. -/
def State.shtReset (s : State) : State := s.setSht { held := s.sht.held.filter fun h => !h.src.isRing }

/-- R449: the buffer holds no frame. -/
def State.shtEmpty (s : State) : Bool := s.sht.queues.isEmpty && s.sht.relays.isEmpty

end Sys2Proof.Machine
end

