-- ==== Sys2Proof/Machine/Transit.lean ====
section
/-! DEFINITION. Transit (chapter 11): framing (R362 to R368), connections (R369 to R375), receiving (R376, R377), credits (R378,
R379), reliability (R380 to R385), regions and revocation (R386 to R389), and the queues (R390 to R394). -/

namespace Sys2Proof.Machine

open Sys2Proof

def State.setTrn (s : State) (t : TrnState) : State := { s with trn := t }
def State.conn (s : State) (c : Nat) : TrnConn := smapGet (fun _ => {}) s.trn.conns c
def State.setConn (s : State) (c : Nat) (x : TrnConn) : State :=
  s.setTrn { s.trn with conns := smapSet (fun _ => {}) s.trn.conns c x }

def State.connPstate (s : State) (c : Nat) : Nat := s.fld F.TRN_CONNc_STATE_PSTATE trnCell c
def State.connEn (s : State) (c : Nat) : Bool := s.flag F.TRN_CONNc_CTRL_EN trnCell c
def State.connGen (s : State) (c : Nat) : Nat := s.fld F.TRN_CONNc_STATE_GEN trnCell c
def State.connPeerGen (s : State) (c : Nat) : Nat := s.fld F.TRN_CONNc_STATE_PEER_GEN trnCell c
def State.setPstate (s : State) (c p : Nat) : State := s.setFld F.TRN_CONNc_STATE_PSTATE trnCell p c

def psIdle : Nat := 0
def psConnecting : Nat := 1
def psConnected : Nat := 2
def psDraining : Nat := 3
def psFailed : Nat := 4

/-- R370: bits 3 to 0 of `TRN_CONNc_STATE` as they read: STATE and QUIESCE_BUSY follow PSTATE and EN. -/
def State.connState (s : State) (c : Nat) : Nat :=
  let p := s.connPstate c
  let st := if p = psIdle then (if s.connEn c then 2 else 0) else if p = psDraining then (if s.connEn c then 2 else 1) else 3
  st + 8 * (decide (p = psDraining)).toNat

/-- R369: the fields of a connection entry. -/
def TrnConn.field (x : TrnConn) (w hi lo : Nat) : Nat := wfield x.entry w hi lo
def TrnConn.lossy (x : TrnConn) : Bool := x.field 0 1 0 == 1
def TrnConn.pathCount (x : TrnConn) : Nat := x.field 0 5 2 + 1
def TrnConn.pmtu (x : TrnConn) : Nat := 1024 * 2 ^ x.field 0 7 6
def TrnConn.v6 (x : TrnConn) : Bool := x.field 0 11 11 == 1
def TrnConn.pd (x : TrnConn) : Nat := x.field 0 27 16
def TrnConn.ip (x : TrnConn) (w : Nat) : List Byte :=
  let all := bytesOf ((x.entry.drop w).take 4)
  if x.v6 then padBytes 16 all else padBytes 16 (all.take 4)
def TrnConn.path (x : TrnConn) (p : Nat) : TrnPath := smapGet (fun _ => {}) x.paths p
def TrnConn.setPath (x : TrnConn) (p : Nat) (q : TrnPath) : TrnConn := { x with paths := smapSet (fun _ => {}) x.paths p q }

/-- The set bits of PORT_MASK. -/
def TrnConn.ports (x : TrnConn) : List Nat := onesOf 8 (x.field 2 7 0)

/-- R364: the Ethernet port of a path. -/
def TrnConn.pathPort (x : TrnConn) (p : Nat) : Nat := x.ports.getD (p % max 1 x.ports.length) 0

/-! ## Framing -/

/-- The packet types of R367. -/
def tWrite : Nat := 1
def tReadReq : Nat := 2
def tReadResp : Nat := 3
def tAtomic : Nat := 4
def tAtomicResp : Nat := 5
def tCollective : Nat := 6
def tAck : Nat := 8
def tNak : Nat := 9
def tConnect : Nat := 0xA
def tConnectReply : Nat := 0xB
def tDisconnect : Nat := 0xC
def tDisconnectReply : Nat := 0xD

/-- R367: the extension words of a type; none for an undefined type. -/
def trnExtWords : Nat → Option Nat
  | 1 => some 5 | 2 => some 4 | 3 => some 0 | 4 => some 8 | 5 => some 2 | 6 => some 0
  | 8 => some 7 | 9 => some 3 | 0xA => some 5 | 0xB => some 5 | 0xC => some 0 | 0xD => some 0 | _ => none

/-- R366, R367: the bytes of a packet from its base header on. -/
def TrnPkt.bytes (k : TrnPkt) : List Byte :=
  let w0 := k.version % 16 * 2 ^ 28 + k.type % 16 * 2 ^ 24 + k.p.toNat * 2 ^ 23 + k.solicit.toNat * 2 ^ 22 + k.notify.toNat * 2 ^ 21
    + k.retx.toNat * 2 ^ 20 + k.path % 16 * 2 ^ 16 + k.dstConn % 65536
  let ws := [w0, k.srcNode % 65536 * 2 ^ 16 + k.dstNode % 65536, k.srcConn % 65536 * 2 ^ 16 + k.dstGen % 65536, k.psn, k.msn,
    k.idx % 2 ^ 22] ++ k.ext.map BitVec.toNat
  ws.flatMap (natBe 4) ++ k.payload

/-- R366, R367: read a packet from the bytes after the UDP header. An undefined type keeps its number, for check 1 of R376. -/
def TrnPkt.ofBytes (v6 : Bool) (src dst : List Byte) (bs : List Byte) : TrnPkt :=
  let w := fun i => beAt bs (4 * i) 4
  let n := (trnExtWords (bitsOf (w 0) 27 24)).getD 0
  { v6 := v6, src := src, dst := dst, version := bitsOf (w 0) 31 28, type := bitsOf (w 0) 27 24, p := bitsOf (w 0) 23 23 == 1,
    solicit := bitsOf (w 0) 22 22 == 1, notify := bitsOf (w 0) 21 21 == 1, retx := bitsOf (w 0) 20 20 == 1,
    path := bitsOf (w 0) 19 16, dstConn := w 0 % 65536, srcNode := bitsOf (w 1) 31 16, dstNode := w 1 % 65536,
    srcConn := bitsOf (w 2) 31 16, dstGen := w 2 % 65536, psn := w 3, msn := w 4, idx := w 5 % 2 ^ 22,
    ext := (List.range n).map (fun i => BitVec.ofNat 32 (w (6 + i))), payload := bs.drop (24 + 4 * n) }

/-- A 64-bit field of the extension, high word first. -/
def TrnPkt.long (k : TrnPkt) (i : Nat) : Nat := 2 ^ 32 * (k.ext.getD i 0).toNat + (k.ext.getD (i + 1) 0).toNat
def TrnPkt.word (k : TrnPkt) (i : Nat) : Nat := (k.ext.getD i 0).toNat

/-- The words of a 64-bit field. -/
def words64 (v : Nat) : List Word32 := [BitVec.ofNat 32 (v / 2 ^ 32), BitVec.ofNat 32 v]

/-- R362: the UDP checksum over the pseudo-header; 0 is sent as 0xFFFF. -/
def udpSum (v6 : Bool) (src dst udp : List Byte) : Nat :=
  let pseudo := if v6 then src ++ dst ++ natBe 4 udp.length ++ natBe 4 17 else src.take 4 ++ dst.take 4 ++ natBe 2 17 ++ natBe 2 udp.length
  inetSum (pseudo ++ udp)

/-- R362, R364: the frame of a packet on a path. -/
def State.trnFrame (s : State) (x : TrnConn) (path : Nat) (body : List Byte) : List Byte :=
  let mac := (bytesOf ((x.entry.drop 12).take 2)).take 6
  let tag := if x.field 0 12 12 = 1 then natBe 2 0x8100 ++ natBe 2 (x.field 0 10 8 * 2 ^ 13 + x.field 2 23 12) else []
  let src := x.ip 4
  let dst := x.ip 8
  let sport := 0xC000 + (x.field 3 29 16 + 1021 * path) % 16384
  let head := natBe 2 sport ++ natBe 2 (s.fld F.TRN_UDP_PORT_PORT trnCell) ++ natBe 2 (8 + body.length)
  let sum := udpSum x.v6 src dst (head ++ [0, 0] ++ body)
  let udp := head ++ natBe 2 (if sum = 0 then 0xFFFF else sum) ++ body
  let dscp := x.field 2 29 24
  let ip := if x.v6 then
      natBe 4 (0x60000000 + dscp * 2 ^ 22) ++ natBe 2 udp.length ++ natBe 1 17 ++ natBe 1 64 ++ src ++ dst
    else
      let h := fun c => natBe 1 0x45 ++ natBe 1 (dscp * 4) ++ natBe 2 (20 + udp.length) ++ natBe 2 0 ++ natBe 2 0x4000 ++ natBe 1 64
        ++ natBe 1 17 ++ natBe 2 c ++ src.take 4 ++ dst.take 4
      h (inetSum (h 0))
  padBytes 6 mac ++ natBe 6 (Config.portMac (x.pathPort path)) ++ tag ++ natBe 2 (if x.v6 then 0x86DD else 0x0800) ++ ip ++ udp

/-- R363, R438: a packet leaves through Shutter. -/
def State.trnSend (s : State) (c path : Nat) (k : TrnPkt) : State :=
  let x := s.conn c
  let k := { k with
    version := 1, path := path, dstConn := x.field 1 31 16, srcNode := s.fld F.TRN_NODE_ADDR_ADDR trnCell,
    dstNode := x.field 1 15 0, srcConn := c, dstGen := s.connPeerGen c }
  let f := s.trnFrame x path k.bytes
  let e := x.pathPort path
  let s := s.count trnCell (evOf 0x27 0) (some k.type)
  if k.type = tCollective then (s.admitHeld .collector (s.fld F.SHT_COLL_SUBQ_BASE shtCell / 8 * 8 + e) e f).2
  else (s.admitHeld .transit (x.field 3 15 0) e f).2

/-- R362: whether a frame has the shape of Transit, and the packet it carries with whether its UDP checksum holds. -/
def transitOf (port : Nat) (bs : List Byte) : Option (TrnPkt × Bool) :=
  let tagged := beAt bs 12 2 == 0x8100
  let o := if tagged then 18 else 14
  let et := beAt bs (o - 2) 2
  if et = 0x0800 then
    let h := bs.drop o |>.take 20
    let len := beAt h 2 2
    let udp := (bs.drop (o + 20)).take (len - 20)
    if h.length = 20 ∧ beAt h 0 1 = 0x45 ∧ inetSum h = 0 ∧ beAt h 4 2 = 0 ∧ beAt h 6 2 = 0x4000 ∧ beAt h 8 1 = 64 ∧ beAt h 9 1 = 17
        ∧ len ≤ bs.length - o ∧ 32 ≤ udp.length ∧ beAt udp 2 2 = port then
      let src := padBytes 16 (h.drop 12 |>.take 4)
      let dst := padBytes 16 (h.drop 16 |>.take 4)
      some ({ TrnPkt.ofBytes false src dst (udp.drop 8) with tagged := tagged }, beAt udp 6 2 == 0 || udpSum false src dst udp == 0)
    else none
  else if et = 0x86DD then
    let h := bs.drop o |>.take 40
    let udp := (bs.drop (o + 40)).take (beAt h 4 2)
    if h.length = 40 ∧ beAt h 0 1 / 16 = 6 ∧ beAt h 6 1 = 17 ∧ beAt h 7 1 = 64 ∧ beAt h 4 2 ≤ bs.length - (o + 40) ∧ 32 ≤ udp.length
        ∧ beAt udp 2 2 = port then
      let src := h.drop 8 |>.take 16
      let dst := h.drop 24 |>.take 16
      some ({ TrnPkt.ofBytes true src dst (udp.drop 8) with tagged := tagged }, beAt udp 6 2 == 0 || udpSum true src dst udp == 0)
    else none
  else none

/-- R362: a packet of a connection has an 802.1Q tag where the connection's VLAN_EN is 1, and none otherwise; the entry of one that is
idle has not been read. -/
def State.trnShape (s : State) (k : TrnPkt) : Bool :=
  s.connPstate k.dstConn == psIdle || k.tagged == ((s.conn k.dstConn).field 0 12 12 == 1)

/-- R362, R408: the frame is Transit: the packet it carries, with whether its UDP checksum holds. -/
def State.transitFrame (s : State) (bs : List Byte) : Option (TrnPkt × Bool) :=
  (transitOf (s.fld F.TRN_UDP_PORT_PORT trnCell) bs).filter fun r => s.trnShape r.1

/-! ## Credits -/

/-- The signed 32-bit difference of two counts (R378, R381). -/
def diff32 (a b : Nat) : Int := (BitVec.ofNat 32 a - BitVec.ofNat 32 b).toInt

def add32 (a b : Nat) : Nat := (a + b) % 2 ^ 32

/-- R378: the cost of a packet in cells. -/
def trnCost (type payload : Nat) : Nat :=
  if type = tWrite ∨ type = tReadResp ∨ type = tCollective then max 1 ((payload + 255) / 256)
  else if type = tReadReq ∨ type = tAtomic ∨ type = tAtomicResp then 1 else 0

def TrnConn.pool (x : TrnConn) (coll : Bool) : TrnPool := if coll then x.coll else x.data
def TrnConn.setPool (x : TrnConn) (coll : Bool) (p : TrnPool) : TrnConn := if coll then { x with coll := p } else { x with data := p }

/-- R379: the cells reserved for the peer. -/
def TrnPool.reserved (p : TrnPool) : Nat := (diff32 (diff32 p.rxLimit p.rxRet % 2 ^ 32).toNat p.arrived).toNat

/-- The cells that a pool of a connection may hold reserved. -/
def TrnConn.most (x : TrnConn) (coll : Bool) : Nat := if coll then x.field 14 24 16 else x.field 14 10 0

/-- R379: the cells of the packets that stay in staging for a full completion queue. -/
def State.stagedCells (s : State) (c : Nat) : Nat := ((s.trn.staged.filter fun h => h.2.1 == c).map fun h => h.2.2).sum

/-- R346, R379: the cells of a pool that are free: the staging buffer, or the Collector's intake, which grants only while it is ENABLED
(R358). -/
def State.poolFree (s : State) (coll : Bool) : Nat :=
  if coll then (if s.enabled colCell then 16384 - s.intakeUsed else 0)
  else 131072 - (s.trn.conns.map fun p => p.2.data.reserved).sum - (s.trn.staged.map fun h => h.2.2).sum

/-- R345: the intake cells granted to a connection and not used. -/
def State.noteGranted (s : State) (c : Nat) : State :=
  { s with col := { s.col with granted := smapSet (fun _ => 0) s.col.granted c (s.conn c).coll.reserved } }

/-- R379: raise the grant of one pool of a connection as far as the free cells allow. -/
def State.grantPool (s : State) (c : Nat) (coll : Bool) : State :=
  let x := s.conn c
  let p := x.pool coll
  let want := x.most coll - p.reserved - (if coll then 0 else s.stagedCells c)
  let n := min want (s.poolFree coll)
  if n = 0 then s
  else
    let x := { x.setPool coll { p with rxLimit := add32 p.rxLimit n } with granted := s.trn.clock + 1 }
    let s := (s.setTrn { s.trn with clock := s.trn.clock + 1 }).setConn c x
    if coll then s.noteGranted c else s

/-- R379: grants go to connections in order of the least recent grant. A draining one keeps its own (R374, log 33). -/
def State.grantAll (s : State) : State :=
  let live := (s.trn.conns.map Prod.fst).filter fun c => s.connPstate c != psIdle && s.connPstate c != psFailed
  let live := live.mergeSort fun a b => (s.conn a).granted < (s.conn b).granted || ((s.conn a).granted == (s.conn b).granted && a ≤ b)
  live.foldl (fun s c => (s.grantPool c false).grantPool c true) s

/-! ## Acknowledgement -/

/-- R382: SACK of a path. -/
def TrnPath.sack (q : TrnPath) : Nat :=
  ((List.range 63).map fun i => if q.marks.contains (add32 q.base (1 + i)) then 2 ^ i else 0).sum

/-- R379, R384: send an ACK on a path. Under LOSSLESS its SACK is 0 (log 33). -/
def State.sendAck (s : State) (c p : Nat) : State :=
  let x := s.conn c
  let q := x.path p
  let x := x.setPath p { q with sinceAck := 0 }
  let tell := fun (l : TrnPool) => { l with told := (l.rxLimit, l.ret) }
  let s := s.setConn c { x with data := tell x.data, coll := tell x.coll }
  s.trnSend c p { type := tAck, ext := [BitVec.ofNat 32 q.base] ++ words64 (if x.lossy then q.sack else 0)
    ++ [x.data.rxLimit, x.coll.rxLimit, x.data.ret, x.coll.ret].map (BitVec.ofNat 32) }

/-- R379: LIMIT or RET has changed since the last ACK; by 64 cells. -/
def TrnPool.changed (l : TrnPool) : Bool := l.told != (l.rxLimit, l.ret)
def TrnPool.changed64 (l : TrnPool) : Bool :=
  decide (64 ≤ diff32 l.rxLimit l.told.1) || decide (64 ≤ diff32 l.ret l.told.2)

/-- R374: operations of the connection are in progress: it is CONNECTED or DRAINING. -/
def State.connLive (s : State) (c : Nat) : Bool := s.connPstate c == psConnected || s.connPstate c == psDraining

/-- R379: an ACK for credit leaves at once after a change of 64 cells. It goes on path 0 (log 33). -/
def State.creditAck (s : State) (c : Nat) : State :=
  let x := s.conn c
  if s.connLive c ∧ (x.data.changed64 ∨ x.coll.changed64) then s.sendAck c 0 else s

def State.creditAckAll (s : State) : State := (s.trn.conns.map Prod.fst).foldl (fun s c => s.creditAck c) s

/-- R380, R386: send a NAK on a path. -/
def State.sendNak (s : State) (c p code psn msn : Nat) : State :=
  (s.count trnCell (evOf 0x27 4) (some code)).trnSend c p
    { type := tNak, ext := [BitVec.ofNat 32 code, BitVec.ofNat 32 psn, BitVec.ofNat 32 msn] }

/-! ## Completions -/

/-- R392: a completion entry waits for its queue. -/
def State.cqWait (s : State) (cq : Nat) (e : TrnEntry) : State :=
  let l := smapGet (fun _ => []) s.trn.cqs cq
  s.setTrn { s.trn with cqs := smapSet (fun _ => []) s.trn.cqs cq (l ++ [e]) }

/-- R533: what a VF started in an earlier generation: its result is discarded. -/
def State.vfPast (s : State) (g : Option VfGen) : Bool :=
  g.any fun x => s.fld F.PCI_FNf_STATUS_FGEN (upCell x.port) (x.v + 1) != x.gen

/-- R525, R533: the VF whose page map names a send queue, with its generation. -/
def State.sqVf (s : State) (q : Nat) : Option VfGen :=
  (s.pagesOf 2 q).head?.map fun p => ⟨p.1, p.2, s.fld F.PCI_FNf_STATUS_FGEN (upCell p.1) (p.2 + 1)⟩

/-- R533: the generation of a VF has moved on: the entries that wait for what it started before are discarded. -/
def State.trnVfPast (s : State) : State :=
  let n := (s.trn.cqs.map fun p => (p.2.filter fun e => s.vfPast e.vf).length).sum
  let keep := s.trn.cqs.foldl (fun m p => smapSet (fun _ => []) m p.1 (p.2.filter fun e => !s.vfPast e.vf)) []
  (s.setTrn { s.trn with cqs := keep }).count trnCell 0x005 none n

/-- R392: the words of a completion entry, PHASE apart. -/
def cqEntry (tag status opc conn sq imm old msn : Nat) : List Word32 :=
  buildWords 8 [(0, 31, 0, tag), (1, 7, 0, status), (1, 11, 8, opc), (2, 15, 0, conn), (2, 27, 16, sq), (3, 31, 0, imm), (4, 31, 0, old),
    (5, 31, 0, old / 2 ^ 32), (6, 31, 0, msn)]

/-- An operation ends: its completion entry, or the answer to its unit. That of an earlier generation of a VF is discarded (R533). -/
def State.opDone (s : State) (c : Nat) (origin : TrnOrigin) (msn status old : Nat) (tag : Bool := true) : State :=
  match origin with
  | .sq q t opc vf =>
    if s.vfPast vf then s.count trnCell 0x005
    else s.cqWait (s.fld F.TRN_SQq_PTR_CQ trnCell q) ⟨cqEntry t status opc c q 0 old msn, tag, vf⟩
  | .unit u a b => s.setTrn { s.trn with finished := s.trn.finished ++ [⟨u, a, b, status⟩] }

/-- R392: write the entry at the head of those that wait. Whether it was written, with the entry. -/
def State.cqPost (s : State) (cq : Nat) : Option (List Word32) × State :=
  let log2 := s.fld F.TRN_CQq_CFG_SIZE_LOG2 trnCell cq
  let head := s.fld F.TRN_CQq_PTR_HEAD trnCell cq
  let tail := s.fld F.TRN_CQq_PTR_TAIL trnCell cq
  match smapGet (fun _ => []) s.trn.cqs cq with
  | [] => (none, s)
  | ⟨e, tag, _⟩ :: rest =>
    let a := ringAt (4096 * s.fld F.TRN_CQq_CFG_BASE trnCell cq) log2 32 tail
    if !s.flag F.TRN_CQq_CFG_EN trnCell cq ∨ log2 < 6 ∨ 16 < log2 ∨ 2 ^ log2 ≤ ringDist head tail then (none, s)
    else
      let flip := smapGet (fun _ => false) s.trn.flip cq
      let w1 := (e.getD 1 0).toNat + (!flip).toNat * 2 ^ 12
      match s.store a (bytesOf (e.set 1 (BitVec.ofNat 32 w1))) false true with
      | (.ok _ _, s) =>
        let s := s.setFld F.TRN_CQq_PTR_TAIL trnCell ((tail + 1) % 65536) cq
        let s := s.setTrn { s.trn with
          cqs := smapSet (fun _ => []) s.trn.cqs cq rest
          staged := if tag then s.trn.staged else s.trn.staged.eraseP fun h => h.1 == cq
          flip := smapSet (fun _ => false) s.trn.flip cq (!nextPhase log2 tail (!flip)) }
        (some e, ((s.notifyBit (s.fld F.TRN_CQq_PTR_NOTIFY_BIT trnCell cq)).routeFire (4096 + cq)).noteLevels)
      | (_, s) => (none, s)

/-- Enabling a completion queue: PHASE 1 and TAIL at HEAD. -/
def State.cqEnable (s : State) (cq : Nat) : State :=
  let s := s.setFld F.TRN_CQq_PTR_TAIL trnCell (s.fld F.TRN_CQq_PTR_HEAD trnCell cq) cq
  s.setTrn { s.trn with flip := smapSet (fun _ => false) s.trn.flip cq false }

/-! ## Failure, quiesce and enable -/

/-- R394: a slow-path item. -/
def State.slowItem (s : State) (c event cause node conn rkey addr : Nat) : State :=
  if !s.flag F.TRN_SLOW_EN trnCell then s
  else
    (s.postItem (s.fld F.TRN_SLOW_CLUSTER trnCell) 3 (s.fld F.TRN_SLOW_PROGRAM trnCell) c
      ([event + cause % 16 * 2 ^ 4 + c * 2 ^ 16, node % 65536 + conn % 65536 * 2 ^ 16, s.connGen c, rkey, addr, addr / 2 ^ 32].map
        (BitVec.ofNat 32))).2

/-- R375: an operation in flight completes with a status when its connection is lost. -/
def State.closeOps (s : State) (c status : Nat) : State :=
  let x := s.conn c
  x.ops.foldl (fun s o => s.opDone c o.origin o.msn status 0) (s.setConn c { x with ops := [] })

/-- R379: free what a connection holds: its packets, its reservations. -/
def State.freeConn (s : State) (c : Nat) : State :=
  let x := s.conn c
  let s := s.setTrn { s.trn with staged := s.trn.staged.map fun h => if h.2.1 = c then (h.1, c, 0) else h }
  (s.setConn c { x with paths := [], out := [], later := [], notifies := [], data := {}, coll := {} }).noteGranted c

/-- What is kept of a connection that ends: the times that R373 and R394 count from. -/
def TrnConn.ended (x : TrnConn) : TrnConn := { lastDisc := x.lastDisc, lastItem := x.lastItem }

/-- R375: a connection enters FAILED. -/
def State.connFail (s : State) (c cause : Nat) : State :=
  let was := s.connPstate c
  let s := (s.setPstate c psFailed).setFld F.TRN_CONNc_STATE_CAUSE trnCell cause c
  let s := s.closeOps c (if cause = 1 then 8 else 9)
  let x := s.conn c
  let s := s.freeConn c
  let s := s.slowItem c 2 cause (x.field 1 15 0) (x.field 1 31 16) 0 0
  let s := s.event 0x40025001
  (if was = psConnected then s.colConnLost c else s).grantAll

/-- R371: the entry of a connection meets its checks. -/
def State.entryOk (s : State) (x : TrnConn) : Bool :=
  decide (x.field 0 1 0 ≤ 1) && x.field 0 7 6 != 3 && x.field 2 7 0 != 0 && decide (16 ≤ x.field 14 10 0) && decide (x.field 14 10 0 ≤ 1024)
    && decide (x.field 14 24 16 ≤ 256) && s.flag F.TRN_CQq_CFG_EN trnCell (x.field 15 11 0)
    && (x.lossy || x.ports.all fun p => s.pfcOn p (x.field 0 10 8))

/-- R368: the extension of CONNECT and CONNECT_REPLY. -/
def State.connectExt (s : State) (c : Nat) (echo : Option Nat) (status : Nat) : List Word32 :=
  let x := s.conn c
  buildWords 5 [(0, 7, 0, x.field 0 7 0), (0, 8, 8, echo.isSome.toNat), (0, 31, 16, s.connGen c), (1, 15, 0, echo.getD 0),
    (2, 31, 0, x.data.rxLimit), (3, 31, 0, x.coll.rxLimit), (4, 7, 0, status)]

/-- R371: CONNECT leaves on path 0. -/
def State.sendConnect (s : State) (c : Nat) : State :=
  let peer := s.connPeerGen c
  s.trnSend c 0 { type := tConnect, ext := s.connectExt c (if (s.conn c).heard then some peer else none) 0 }

/-- R371: a connection becomes ENABLED. -/
def State.connStart (s : State) (c : Nat) : State :=
  let a := 4096 * s.fld F.TRN_CONN_TABLE_BASE trnCell + 128 * c
  let s := s.setFld F.TRN_CONNc_STATE_CAUSE trnCell 0 c
  match s.load a 128 true with
  | (.ok bs p, s) =>
    let x : TrnConn := { (s.conn c).ended with entry := wordsOf 32 bs }
    let s := s.setConn c x
    if p ∨ !s.entryOk x then s.connFail c 5
    else
      let s := (s.setPstate c psConnecting).setFld F.TRN_CONNc_STATE_PEER_GEN trnCell 0 c
      s.grantAll.sendConnect c
  | (_, s) => (s.setConn c (s.conn c).ended).connFail c 5

/-- R374: the quiesce of a connection completes; one with EN 1 starts again. -/
def State.connIdle (s : State) (c : Nat) : State :=
  let s := (s.closeOps c 9).freeConn c
  let s := s.setConn c (s.conn c).ended
  let s := s.setFld F.TRN_CONNc_STATE_GEN trnCell (s.connGen c + 1) c
  let s := ((s.setPstate c psIdle).event 0x40025001).grantAll
  if s.connEn c ∧ s.enabled trnCell then s.connStart c else s

/-- R375, R383: a connection fails for want of an answer. One that drains is then in FAILED with its operations completed, which
completes its quiesce (R374). -/
def State.connLost (s : State) (c : Nat) : State :=
  if s.connPstate c = psDraining then (s.connFail c 1).connIdle c else s.connFail c 1

/-- R374: once a draining connection's own operations have completed, DISCONNECT is sent. -/
def State.connDrained (s : State) (c : Nat) : State :=
  let x := s.conn c
  if s.connPstate c = psDraining ∧ x.ops.isEmpty ∧ !x.closing then
    (s.setConn c { x with closing := true }).trnSend c 0 { type := tDisconnect }
  else s

/-- R374: a quiesce begins. -/
def State.connQuiesce (s : State) (c : Nat) : State :=
  let p := s.connPstate c
  if p = psIdle ∨ p = psDraining then s
  else if p = psConnected then
    ((s.setPstate c psDraining).setConn c { s.conn c with closing := false }).colConnLost c |>.connDrained c
  else s.connIdle c

/-- R370: a write of EN. -/
def State.connWriteEn (s : State) (c : Nat) (en : Bool) : State :=
  let s := s.setFlag F.TRN_CONNc_CTRL_EN trnCell en c
  if en then (if s.connPstate c = psIdle ∧ s.enabled trnCell then s.connStart c else s) else s.connQuiesce c

/-! ## Sending -/

/-- R378 to R380: the first path from `p` on, in round-robin order, whose window has room. -/
def TrnConn.freePath (x : TrnConn) : Option Nat :=
  (List.range x.pathCount).findSome? fun i =>
    let p := (x.nextPath + i) % x.pathCount
    if (x.path p).unacked.length < 64 then some p else none

/-- Note on the operation a packet belongs to, that it has been sent. -/
def noteSent (ops : List TrnOp) (k : TrnOut) (p psn : Nat) : List TrnOp :=
  ops.map fun o => if o.msn = k.msn ∧ o.type = k.type then { o with sent := o.sent ++ [(p, psn, k.idx)] } else o

/-- The packet that an outgoing one makes on a path. -/
def TrnOut.pkt (k : TrnOut) (retx : Bool) : TrnPkt :=
  { type := k.type, p := k.p, notify := k.notify, retx := retx, psn := k.psn, msn := k.msn, idx := k.idx, ext := k.ext, payload := k.payload }

/-- R378, R380: send what waits, in order within each pool, while credit and a window allow. `stuck` names the pools that wait. -/
def State.sendOut (s : State) (c : Nat) : List TrnOut → (stuck : List Bool) → State
  | [], _ => s
  | k :: ks, stuck =>
    let coll := k.type == tCollective
    if stuck.contains coll then s.sendOut c ks stuck
    else
      let x := s.conn c
      let l := x.pool coll
      let n := trnCost k.type k.payload.length
      match (if diff32 l.limit (add32 l.consumed n) < 0 then none else x.freePath) with
      | none => (s.count trnCell (evOf 0x27 8)).sendOut c ks (coll :: stuck)
      | some p =>
        let q := x.path p
        let k' := { k with psn := q.next }
        let x := x.setPath p { q with next := add32 q.next 1, unacked := q.unacked ++ [k'] }
        let x := { x.setPool coll { l with consumed := add32 l.consumed n } with
          out := x.out.erase k, nextPath := (p + 1) % x.pathCount, ops := noteSent x.ops k p q.next }
        ((s.setConn c x).trnSend c p (k'.pkt false)).sendOut c ks stuck

def State.connPump (s : State) (c : Nat) : State :=
  if s.connLive c then s.sendOut c (s.conn c).out [] else s

/-- Queue packets on a connection and send what can be sent. -/
def State.queueOut (s : State) (c : Nat) (ks : List TrnOut) : State :=
  let x := s.conn c
  (s.setConn c { x with out := x.out ++ ks }).connPump c

/-- Retransmit packets of a path; each counts as one more transmission (R383). -/
def State.resend (s : State) (c p : Nat) (sel : TrnOut → Bool) : State :=
  let q := (s.conn c).path p
  let hit := q.unacked.filter sel
  let x := (s.conn c).setPath p { q with unacked := q.unacked.map fun k => if sel k then { k with tries := k.tries + 1 } else k }
  hit.foldl (fun s k => (s.count trnCell (evOf 0x27 2)).trnSend c p (k.pkt true)) (s.setConn c x)

/-- R383: RETRY_LIMIT. -/
def State.retryLimit (s : State) : Nat := s.fld F.TRN_TIMER_RETRY_LIMIT trnCell

/-- R380, R383: one retry against a path under LOSSLESS, from a PSN on. -/
def State.goBack (s : State) (c p psn : Nat) : State :=
  let q := (s.conn c).path p
  if s.retryLimit < q.retries + 1 then s.connLost c
  else
    let x := (s.conn c).setPath p { q with retries := q.retries + 1 }
    (s.setConn c x).resend c p fun k => decide (0 ≤ diff32 k.psn psn)

/-! ## Regions -/

/-- R386: the address of a region entry. -/
def State.regionAddr (s : State) (i : Nat) : Nat := 4096 * s.fld F.TRN_REGION_TABLE_BASE trnCell + 32 * i
def State.regionCount (s : State) : Nat := 2 ^ min 20 (s.fld F.TRN_REGION_TABLE_COUNT_LOG2 trnCell)

/-- What an access asks: W 0, R 1, A 2, RED 3. -/
inductive TrnRight where
  | w | r | a | red
  deriving DecidableEq, Repr

def TrnRight.bit : TrnRight → Nat
  | .r => 2 | .w => 3 | .a => 4 | .red => 5

/-- R386: check an access of n bytes at x; the code of the first check that fails, or the device address. -/
def State.regionCheck (s : State) (key pd : Nat) (right : TrnRight) (x n : Nat) (natural : Bool) : Except Nat Nat × State :=
  let i := key / 4096
  if s.regionCount ≤ i then (.error 3, s)
  else match s.load (s.regionAddr i) 32 true with
    | (.ok bs false, s) =>
      let e := wordsOf 8 bs
      let pa := wlong e 2 % 2 ^ 48
      let va := wlong e 4
      let len := wlong e 6 % 2 ^ 48
      if wfield e 0 1 0 ≠ 1 ∨ wfield e 0 19 8 ≠ key % 4096 ∨ s.trn.revokes.contains i then (.error 3, s)
      else if wfield e 1 11 0 ≠ pd then (.error 4, s)
      else if wfield e 0 right.bit right.bit = 0 then (.error 5, s)
      else if right = .red then (.ok 0, s)
      else if x < va ∨ va + len < x + n ∨ (natural ∧ x % n ≠ 0) then (.error 6, s)
      else
        let a := pa + (x - va)
        if !extentMapped a n ∨ !s.memUp a n ∨ !s.extentFree false a n then (.error 7, s) else (.ok a, s)
    | (_, s) => (.error 3, s)

/-- The outcome of a region command. -/
def State.regionReply (s : State) (code : Nat) : State :=
  (s.setFld F.TRN_REGION_RESULT_RESULT trnCell (if code = 0 then 1 else 2)).setFld F.TRN_REGION_RESULT_CODE trnCell code

/-- Write word 0 of a region entry. -/
def State.setRegion0 (s : State) (i w : Nat) : State :=
  let r := s.devWrite (s.regionAddr i) (natLe 4 w)
  if r.1 then r.2 else r.2.recordError trnCell clsAccess (s.regionAddr i) 0

/-- R386, R388, R397: a write of `TRN_REGION_CMD`. -/
def State.regionCommand (s : State) (cmd i : Nat) : State :=
  if cmd ≠ 1 ∧ cmd ≠ 2 then s.regionReply 1
  else if s.regionCount ≤ i then s.regionReply 2
  else match s.devRead (s.regionAddr i) 32 with
    | (some (bs, false), s) =>
      let e := wordsOf 8 bs
      let st := wfield e 0 1 0
      let w0 := (e.getD 0 0).toNat
      let pa := wlong e 2 % 2 ^ 48
      let len := wlong e 6 % 2 ^ 48
      if (cmd = 1 ∧ st ≠ 0) ∨ (cmd = 2 ∧ (st ≠ 1 ∨ s.trn.revokes.contains i)) then s.regionReply 3
      else if cmd = 1 then
        if len = 0 ∨ !extentOneQuad pa len ∨ 2 ^ 64 < wlong e 4 + len then s.regionReply 5
        else (s.setRegion0 i (putBits w0 1 0 1)).regionReply 0
      else if 256 ≤ s.trn.revokes.length then s.regionReply 6
      else
        let s := (s.setRegion0 i (putBits w0 1 0 2)).count trnCell (evOf 0x27 9)
        (s.setTrn { s.trn with revokes := s.trn.revokes ++ [i] }).regionReply 0
    | (_, s) => s.regionReply 4

/-- R388: step 4 of a revocation. No access is in flight between two commands of this model. -/
def State.revokeDone (s : State) (i : Nat) : State :=
  if !s.trn.revokes.contains i then s
  else
    let r := s.devRead (s.regionAddr i) 4
    let w0 := match r.1 with
      | some (bs, _) => leNat bs
      | none => 0
    let s := r.2.setRegion0 i (putBits (putBits w0 19 8 (bitsOf w0 19 8 + 1)) 1 0 0)
    (s.setTrn { s.trn with revokes := s.trn.revokes.erase i }).event 0x40025000

/-! ## Operations -/

/-- The packets of a message of bytes, with the poison of each. -/
def cutMessage (pmtu : Nat) (bs : List Byte) : (fuel : Nat) → List (List Byte)
  | 0 => []
  | k + 1 => if bs.isEmpty then [] else bs.take pmtu :: cutMessage pmtu (bs.drop pmtu) k

/-- Read a message from device memory packet by packet: the bytes of each with its poison; none where a read fails. -/
def State.readMessage (s : State) (pmtu a n : Nat) : (fuel : Nat) → Option (List (List Byte × Bool)) × State
  | 0 => (some [], s)
  | k + 1 =>
    if n = 0 then (some [], s)
    else match s.load a (min pmtu n) true with
      | (.ok bs p, s) =>
        let r := s.readMessage pmtu (a + bs.length) (n - bs.length) k
        (r.1.map ((bs, p) :: ·), r.2)
      | (_, s) => (none, s)

/-- The next MSN of a connection. -/
def State.takeMsn (s : State) (c : Nat) : Nat × State :=
  let x := s.conn c
  (x.msn, s.setConn c { x with msn := add32 x.msn 1 })

def State.addOp (s : State) (c : Nat) (o : TrnOp) : State :=
  let x := s.conn c
  s.setConn c { x with ops := x.ops ++ [o] }

/-- R367: words 6 to 9 of WRITE and READ_REQ. -/
def addrWords (rkey addr lenM1 : Nat) : List Word32 := [BitVec.ofNat 32 rkey] ++ words64 addr ++ [BitVec.ofNat 32 lenM1]

/-- R385: 64 messages with NOTIFY are in progress. -/
def TrnConn.notifyFull (x : TrnConn) : Bool := decide (64 ≤ (x.ops.filter fun o => o.notify).length)

/-- A WRITE of message packets starts. One with NOTIFY beyond the 64 in progress waits for one of those to end (R385). -/
def State.startWrite (s : State) (c : Nat) (origin : TrnOrigin) (rkey addr imm : Nat) (notify : Bool)
    (packets : List (List Byte × Bool)) : State :=
  let waits := notify && (s.conn c).notifyFull
  let (msn, s) := s.takeMsn c
  let len := (packets.map fun p => p.1.length).sum
  let ext := addrWords rkey addr (len - 1) ++ [BitVec.ofNat 32 imm]
  let s := s.addOp c { origin := origin, type := tWrite, msn := msn, notify := notify, total := packets.length, len := len }
  let ks : List TrnOut := (packets.zipIdx).map fun p =>
    { type := tWrite, msn := msn, idx := p.2, ext := ext, payload := p.1.1, p := p.1.2, notify := notify }
  if waits then s.setConn c { s.conn c with later := (s.conn c).later ++ [ks] } else s.queueOut c ks

/-- R385: a message with NOTIFY has ended; the first that waits goes out. -/
def State.nextNotify (s : State) (c : Nat) : State :=
  match (s.conn c).later with
  | [] => s
  | ks :: rest => (s.setConn c { s.conn c with later := rest }).queueOut c ks

/-- A READ starts. -/
def State.startRead (s : State) (c : Nat) (origin : TrnOrigin) (rkey addr len dst lkey pd : Nat) : State :=
  let (msn, s) := s.takeMsn c
  let pm := (s.conn c).pmtu
  let s := s.addOp c { origin := origin, type := tReadReq, msn := msn, notify := false, total := (len + pm - 1) / pm, localAddr := dst,
                       lkey := lkey, pd := pd, len := len }
  s.queueOut c [{ type := tReadReq, msn := msn, ext := addrWords rkey addr (len - 1) }]

/-- An ATOMIC starts. -/
def State.startAtomic (s : State) (c : Nat) (origin : TrnOrigin) (ext : List Word32) : State :=
  let (msn, s) := s.takeMsn c
  let s := s.addOp c { origin := origin, type := tAtomic, msn := msn, notify := false, total := 1 }
  s.queueOut c [{ type := tAtomic, msn := msn, ext := ext }]

/-- R385, R393: an operation ends, if it has: every packet acknowledged, answered or placed, or its request refused. -/
def State.opCheck (s : State) (c : Nat) (o : TrnOp) (old : Nat) : State :=
  let request := o.type == tReadReq || o.type == tAtomic
  let done := decide (o.total ≤ o.got.length) || (request && o.nak.isSome)
  let x := s.conn c
  if !done then s.setConn c { x with ops := x.ops.map fun y => if y.msn = o.msn ∧ y.type = o.type then o else y }
  else
    let status := match o.nak with
      | some (_, code) => code
      | none => if o.localFail then 2 else if o.type = tAtomic ∧ o.poison then 0xA else 0
    let s := s.setConn c { x with ops := x.ops.filter fun y => !(y.msn == o.msn && y.type == o.type) }
    let s := s.opDone c o.origin o.msn status old
    (if o.notify then s.nextNotify c else s).connDrained c

def State.findOp (s : State) (c type msn : Nat) : Option TrnOp := (s.conn c).ops.find? fun o => o.type == type && o.msn == msn

/-- A packet of one of our messages is acknowledged, or answered by a NAK with a code. -/
def State.ackOne (s : State) (c : Nat) (k : TrnOut) (nak : Option Nat) : State :=
  match s.findOp c k.type k.msn with
  | none => s
  | some o =>
    let o := match nak with
      | none => o
      | some code => if (o.nak.any fun p => decide (p.1 ≤ k.idx)) then o else { o with nak := some (k.idx, code) }
    let o := if o.type = tWrite then { o with got := smapSet (fun _ => false) o.got k.idx true } else o
    s.opCheck c o 0

/-! ## Receiving -/

/-- R376: a packet fails a check with PROTOCOL. -/
def State.trnProtocol (s : State) (k : TrnPkt) (order : Nat) : State :=
  (s.recordError trnCell clsProtocol 0 (k.dstConn + order * 2 ^ 16 + k.type * 2 ^ 24)).count trnCell (evOf 0x27 6) (some order)

def State.trnDiscard (s : State) (order : Nat) : State := s.count trnCell (evOf 0x27 6) (some order)

/-- R373: a packet for a connection that is not connected is answered with DISCONNECT, once in 100 µs. A FAILED connection sends
nothing (R375). -/
def State.answerDisconnect (s : State) (c : Nat) : State :=
  let x := s.conn c
  if s.connPstate c = psFailed ∨ (x.lastDisc.any fun t => decide (s.now < t + 100000)) then s
  else (s.setConn c { x with lastDisc := some s.now }).trnSend c 0 { type := tDisconnect }

/-- R380, R382: what the PSN of a packet says. -/
inductive PsnFate where
  | accept | duplicate | beyond
  deriving DecidableEq, Repr

def TrnConn.psnFate (x : TrnConn) (p psn : Nat) : PsnFate :=
  let q := x.path p
  let d := diff32 psn q.base
  if d < 0 ∨ q.marks.contains psn then .duplicate
  else if x.lossy then (if d ≤ 63 then .accept else .beyond) else (if d = 0 then .accept else .beyond)

/-- The base moves over marked PSNs. -/
def slideBase (base : Nat) (marks : List Nat) : Nat → Nat × List Nat
  | 0 => (base, marks)
  | k + 1 => if marks.contains base then slideBase (add32 base 1) (marks.erase base) k else (base, marks)

/-- R378, R380, R382: a packet is accepted: its PSN, its cells, the count towards the next ACK. -/
def State.acceptPkt (s : State) (c : Nat) (k : TrnPkt) : State :=
  let x := s.conn c
  let coll := k.type == tCollective
  let q := x.path k.path
  let b := slideBase q.base (q.marks ++ [k.psn]) 65
  let x := x.setPath k.path { q with base := b.1, marks := b.2, sinceAck := q.sinceAck + 1 }
  let l := x.pool coll
  let s := s.setConn c (x.setPool coll { l with arrived := add32 l.arrived (trnCost k.type k.payload.length) })
  if coll then s.noteGranted c else s

/-- R386, R394: an access is refused: a NAK, and an item where ACCESS_EN asks for it. -/
def State.refuse (s : State) (c : Nat) (k : TrnPkt) (code rkey addr : Nat) : State :=
  let s := s.sendNak c k.path code k.psn k.msn
  let x := s.conn c
  if s.flag F.TRN_SLOW_ACCESS_EN trnCell ∧ !(x.lastItem.any fun t => decide (s.now < t + 10000)) then
    (s.setConn c { x with lastItem := some s.now }).slowItem c 3 code k.srcNode k.srcConn rkey addr
  else s

/-- R385: note a packet of a NOTIFY message; the message is complete when every bit is 1. Its last packet stays in staging until its
entry is written (R379). -/
def State.noteNotify (s : State) (c : Nat) (k : TrnPkt) (total : Nat) (refused : Bool) : State :=
  if !k.notify then s
  else
    let x := s.conn c
    let cur := (x.notifies.find? fun n => n.msn == k.msn)
    if cur.isNone ∧ 64 ≤ x.notifies.length then s
    else
      let n : TrnNotify := cur.getD { msn := k.msn, imm := k.word 4, total := total }
      let n : TrnNotify := { n with got := smapSet (fun _ => false) n.got k.idx true, refused := n.refused || refused }
      let rest := x.notifies.filter fun m => m.msn != k.msn
      if n.got.length < n.total then s.setConn c { x with notifies := rest ++ [n] }
      else
        let s := s.setConn c { x with notifies := rest }
        if n.refused then s
        else
          let cq := x.field 15 11 0
          let s := s.cqWait cq ⟨cqEntry 0 0x10 0 c 0 n.imm 0 n.msn, false, none⟩
          s.setTrn { s.trn with staged := s.trn.staged ++ [(cq, c, trnCost k.type k.payload.length)] }

/-- R385, R386: a WRITE packet. -/
def State.takeWrite (s : State) (c : Nat) (k : TrnPkt) : State :=
  let x := s.conn c
  let len := k.word 3 + 1
  let total := (len + x.pmtu - 1) / x.pmtu
  match s.regionCheck (k.word 0) x.pd .w (k.long 1) len false with
  | (.error code, s) => (s.refuse c k code (k.word 0) (k.long 1)).noteNotify c k total true
  | (.ok a, s) =>
    let off := k.idx * x.pmtu
    let s := s.writeMem (a + off) (k.payload.take (len - off)) k.p (x.pmtu / 64 + 2)
    s.noteNotify c k total false

/-- R385, R386: a READ_REQ: the data is read and its responses queued. -/
def State.takeReadReq (s : State) (c : Nat) (k : TrnPkt) : State :=
  let x := s.conn c
  let len := k.word 3 + 1
  match s.regionCheck (k.word 0) x.pd .r (k.long 1) len false with
  | (.error code, s) => s.refuse c k code (k.word 0) (k.long 1)
  | (.ok a, s) =>
    let r := s.readMessage x.pmtu a len (len / x.pmtu + 1)
    r.2.queueOut c (((r.1.getD []).zipIdx).map fun p =>
      { type := tReadResp, msn := k.msn, idx := p.2, payload := p.1.1, p := p.1.2 })

/-- R587: bytes of a READ of Ephemeris arrive. -/
def State.ephPlace (s : State) (off : Nat) (bs : List Byte) (p : Bool) : State :=
  { s with eph := { s.eph with rx := mergeBytes (padBytes (max s.eph.rx.length (off + bs.length)) s.eph.rx) off bs, rxPoison := s.eph.rxPoison || p } }

/-- R386, R393: place bytes of a READ response at the requester; those of an earlier generation of a VF are discarded (R533). -/
def State.placeLocal (s : State) (o : TrnOp) (off : Nat) (bs : List Byte) (p : Bool) : Bool × State :=
  match o.origin with
  | .sq _ _ _ vf => if s.vfPast vf then (true, s) else match s.regionCheck o.lkey o.pd .w o.localAddr o.len false with
    | (.ok a, s) => (true, s.writeMem (a + off) bs p (bs.length / 64 + 2))
    | (.error _, s) => (false, s)
  | .unit 1 _ _ => (true, s.ephPlace off bs p)
  | .unit _ _ _ => s.devWrite (o.localAddr + off) bs p

/-- R385: a READ_RESP. -/
def State.takeReadResp (s : State) (c : Nat) (k : TrnPkt) : State :=
  match s.findOp c tReadReq k.msn with
  | none => s
  | some o =>
    let off := k.idx * (s.conn c).pmtu
    let r := s.placeLocal o off (k.payload.take (o.len - off)) k.p
    let o := { o with localFail := o.localFail || !r.1, poison := o.poison || k.p, got := smapSet (fun _ => false) o.got k.idx true }
    r.2.opCheck c o 0

/-- R281, R367: the new value of an ATOMIC; none where CAS does not write. -/
def atomicNew (aop w old x cmp : Nat) : Option Nat :=
  let signed := fun v => (BitVec.ofNat w v).toInt
  match aop with
  | 0 => some x
  | 1 => if old = cmp then some x else none
  | 2 => some ((old + x) % 2 ^ w)
  | 3 => some (old &&& x)
  | 4 => some (old ||| x)
  | 5 => some (old ^^^ x)
  | 6 => some (max old x)
  | 7 => some (min old x)
  | 8 => some (if signed old < signed x then x else old)
  | _ => some (if signed x < signed old then x else old)

/-- R367, R386: an ATOMIC: executed once and answered. A poisoned line is not written. -/
def State.takeAtomic (s : State) (c : Nat) (k : TrnPkt) : State :=
  let x := s.conn c
  let n := if k.word 3 / 16 % 2 = 1 then 4 else 8
  match s.regionCheck (k.word 0) x.pd .a (k.long 1) n true with
  | (.error code, s) => s.refuse c k code (k.word 0) (k.long 1)
  | (.ok a, s) => match s.load a n true with
    | (.ok bs p, s) =>
      let old := leNat bs
      let s := if p then s else match atomicNew (k.word 3 % 16) (8 * n) old (k.long 4 % 2 ^ (8 * n)) (k.long 6 % 2 ^ (8 * n)) with
        | some v => s.writeMem a (natLe n v) false 2
        | none => s
      s.queueOut c [{ type := tAtomicResp, msn := k.msn, ext := words64 old, p := p }]
    | (_, s) => s.refuse c k 7 (k.word 0) (k.long 1)

/-- R385: an ATOMIC_RESP. -/
def State.takeAtomicResp (s : State) (c : Nat) (k : TrnPkt) : State :=
  match s.findOp c tAtomic k.msn with
  | none => s
  | some o => s.opCheck c { o with got := [(0, true)], poison := k.p } (k.long 0)

/-- R331, R386: a COLLECTIVE packet goes to the Collector. -/
def State.takeCollective (s : State) (c : Nat) (k : TrnPkt) : State :=
  let x := s.conn c
  match s.regionCheck (x.field 16 31 0) x.pd .red 0 0 false with
  | (.error code, s) => s.refuse c k code (x.field 16 31 0) 0
  | (.ok _, s) =>
    let h := fun i => beAt k.payload (4 * i) 4
    let fmt := bitsOf (h 0) 27 24
    let w := ((Fmt.ofCode fmt).getD .fp32).width / 8
    let n := min (h 1 % 65536) ((k.payload.length - 16) / w)
    (s.colTransitRun ⟨some c, bitsOf (h 0) 31 28 == 2, fmt, h 0 % 4096, bitsOf (h 1) 31 16, h 2, h 3,
      elemsOf w k.p ((k.payload.drop 16).take (n * w)) n, s.now, 0⟩).colSettle

/-- R384: acknowledge after an accepted packet, where an ACK is due at once. -/
def State.ackDue (s : State) (c : Nat) (k : TrnPkt) : State :=
  if !s.connLive c then s
  else if 8 ≤ ((s.conn c).path k.path).sinceAck ∨ k.solicit ∨ k.retx then s.sendAck c k.path else s

/-- R376, checks 7 to 9: a packet of types 0x1 to 0x6. An uncorrectable word of the buffer it has waited in marks it (R604). -/
def State.takeData (s : State) (c : Nat) (k : TrnPkt) : State :=
  let x := s.conn c
  let coll := k.type == tCollective
  match x.psnFate k.path k.psn with
  | .duplicate => (s.count trnCell (evOf 0x27 3)).sendAck c k.path
  | .beyond =>
    let s := s.trnDiscard 7
    let q := x.path k.path
    let soon := q.nakAt.any fun t => t.1 == q.base && decide (s.now < t.2 + 8000)
    if x.lossy ∨ soon then s
    else (s.setConn c (x.setPath k.path { q with nakAt := some (q.base, s.now) })).sendNak c k.path 1 q.base 0
  | .accept =>
    if (x.pool coll).reserved < trnCost k.type k.payload.length then s.trnProtocol k 8
    else
      let s := (s.acceptPkt c k).bufErr (if coll then colCell else trnCell) k.err
      let k := { k with p := k.p || k.err == BufErr.bad }
      let s := match k.type with
        | 1 => s.takeWrite c k
        | 2 => s.takeReadReq c k
        | 3 => s.takeReadResp c k
        | 4 => s.takeAtomic c k
        | 5 => s.takeAtomicResp c k
        | _ => s.takeCollective c k
      (s.grantAll.ackDue c k).creditAckAll

/-- The later of two cumulative counts (R378). -/
def later32 (a b : Nat) : Nat := if diff32 a b < 0 then b else a

/-- R379, R382: an ACK: acknowledged packets leave the window, and credit moves. -/
def State.takeAck (s : State) (c : Nat) (k : TrnPkt) : State :=
  let x := s.conn c
  let q := x.path k.path
  let base := k.word 0
  let sack := if x.lossy then k.long 1 else 0
  let hit := fun (o : TrnOut) =>
    let d := diff32 o.psn base
    decide (d < 0) || (decide (1 ≤ d) && decide (d ≤ 63) && sack / 2 ^ (d.toNat - 1) % 2 == 1)
  let acked := q.unacked.filter hit
  let rest := q.unacked.filter fun o => !hit o
  let moved := match q.unacked with
    | o :: _ => decide (diff32 o.psn base < 0)
    | [] => false
  let x := x.setPath k.path { q with unacked := rest, retries := if moved then 0 else q.retries }
  let credit := fun (l : TrnPool) lim ret => { l with limit := later32 lim l.limit, rxRet := later32 ret l.rxRet }
  let x := { x with data := credit x.data (k.word 3) (k.word 5), coll := credit x.coll (k.word 4) (k.word 6) }
  let s := (s.setConn c x).noteGranted c
  let s := acked.foldl (fun s o => s.ackOne c o none) s
  ((s.connPump c).grantAll).creditAckAll

/-- R380, R386: a NAK. -/
def State.takeNak (s : State) (c : Nat) (k : TrnPkt) : State :=
  let code := k.word 0 % 256
  let psn := k.word 1
  let x := s.conn c
  let s := s.count trnCell (evOf 0x27 5) (some code)
  if code = 1 then (if x.lossy then s else s.goBack c k.path psn)
  else if 3 ≤ code ∧ code ≤ 7 then
    match x.ops.find? fun o => o.msn == k.word 2 && o.sent.any fun t => t.1 == k.path && t.2.1 == psn with
    | none => s
    | some o =>
      let idx := ((o.sent.find? fun t => t.1 == k.path && t.2.1 == psn).map fun t => t.2.2).getD 0
      let q := x.path k.path
      let s := s.setConn c (x.setPath k.path { q with unacked := q.unacked.filter fun u => u.psn != psn })
      (s.ackOne c { type := o.type, msn := o.msn, idx := idx } (some code)).connPump c
  else s

/-- R372: the parameters of a CONNECT or CONNECT_REPLY equal the connection's own. -/
def TrnConn.sameParams (x : TrnConn) (k : TrnPkt) : Bool := x.field 0 7 0 == k.word 0 % 256

/-- R372: a side enters CONNECTED: the counters start at 0 and the peer's grants are taken. -/
def State.enterConnected (s : State) (c : Nat) (k : TrnPkt) : State :=
  if s.connPstate c ≠ psConnecting then s
  else
    let x := s.conn c
    let x := { x with
      paths := [], nextPath := 0, data := { x.data with limit := k.word 2, told := (x.data.rxLimit, 0) },
      coll := { x.coll with limit := k.word 3, told := (x.coll.rxLimit, 0) } }
    ((s.setConn c x).setPstate c psConnected).event 0x40025001

/-- R372: a CONNECT. One of a peer that has restarted is answered as any other, and the connection fails (log 33). -/
def State.takeConnect (s : State) (c : Nat) (k : TrnPkt) : State :=
  let p := s.connPstate c
  let gen := bitsOf (k.word 0) 31 16
  if p = psIdle ∨ p = psDraining ∨ p = psFailed then s
  else
    let restarted := decide (p = psConnected) && gen != s.connPeerGen c
    let s := s.setFld F.TRN_CONNc_STATE_PEER_GEN trnCell gen c
    let x := s.conn c
    let s := s.setConn c { x with heard := true }
    let ok := x.sameParams k
    let s := s.trnSend c 0 { type := tConnectReply, ext := s.connectExt c (some gen) (if ok then 0 else 1) }
    if restarted then s.connFail c 2
    else if !ok then s.connFail c 4
    else if bitsOf (k.word 0) 8 8 = 1 ∧ k.word 1 % 65536 = s.connGen c ∧ k.word 4 % 256 = 0 then s.enterConnected c k
    else s

/-- R372: a CONNECT_REPLY. -/
def State.takeConnectReply (s : State) (c : Nat) (k : TrnPkt) : State :=
  let p := s.connPstate c
  if p = psConnected ∧ k.word 4 % 256 = 1 then s.connFail c 4
  else if p ≠ psConnecting then s
  else
    let x := s.conn c
    let s := s.setFld F.TRN_CONNc_STATE_PEER_GEN trnCell (bitsOf (k.word 0) 31 16) c
    let s := s.setConn c { x with heard := true }
    if k.word 4 % 256 = 1 then s.connFail c 4
    else if bitsOf (k.word 0) 8 8 = 1 ∧ k.word 1 % 65536 = s.connGen c ∧ x.sameParams k ∧ k.word 4 % 256 = 0 then s.enterConnected c k
    else s

/-- R373, R374: a DISCONNECT. One that meets a draining connection is answered too (log 33). -/
def State.takeDisconnect (s : State) (c : Nat) : State :=
  let p := s.connPstate c
  if p = psConnected then (s.trnSend c 0 { type := tDisconnectReply }).connFail c 2
  else if p = psDraining then s.trnSend c 0 { type := tDisconnectReply }
  else s

/-- R374: a DISCONNECT_REPLY. -/
def State.takeDisconnectReply (s : State) (c : Nat) : State :=
  if s.connPstate c = psDraining ∧ (s.conn c).closing then s.connIdle c else s

/-- R376: a received packet. -/
def State.trnReceive (s : State) (k : TrnPkt) : State :=
  let c := k.dstConn
  let s := s.count trnCell (evOf 0x27 1) (some k.type)
  let x := s.conn c
  let p := s.connPstate c
  if k.version ≠ 1 ∨ (trnExtWords k.type).isNone then s.trnProtocol k 1
  else if k.dstNode ≠ s.fld F.TRN_NODE_ADDR_ADDR trnCell then s.trnDiscard 2
  else if p = psIdle then
    if k.type = tConnect ∧ !s.connEn c then (s.trnDiscard 3).slowItem c 1 0 k.srcNode k.srcConn 0 0 else s.trnDiscard 3
  else if k.srcNode ≠ x.field 1 15 0 ∨ k.srcConn ≠ x.field 1 31 16 ∨ k.v6 ≠ x.v6 ∨ k.dst ≠ x.ip 4 ∨ k.src ≠ x.ip 8 then s.trnProtocol k 4
  else if k.type ≤ 9 ∧ (!s.connLive c ∨ k.dstGen ≠ s.connGen c) then
    let s := s.trnDiscard 5
    let s := if k.dstGen ≠ s.connGen c then s.count trnCell 0x005 else s
    if s.connLive c then s else s.answerDisconnect c
  else if x.pathCount ≤ k.path then s.trnProtocol k 6
  else match k.type with
    | 8 => s.takeAck c k
    | 9 => s.takeNak c k
    | 0xA => s.takeConnect c k
    | 0xB => s.takeConnectReply c k
    | 0xC => s.takeDisconnect c
    | 0xD => s.takeDisconnectReply c
    | _ => s.takeData c k

/-! ## Send queues -/

/-- R391: the words of an entry meet its format. -/
def sqValid (ws : List Word32) : Bool :=
  let opc := wfield ws 0 3 0
  let n := if wfield ws 9 4 4 = 1 then 4 else 8
  decide (1 ≤ opc) && decide (opc ≤ 3) && wfield ws 0 7 4 == 1 && wfield ws 0 31 10 == 0 && wfield ws 1 31 16 == 0
    && wfield ws 3 31 16 == 0 && wfield ws 9 31 5 == 0
    && (opc != 3 || (decide (wfield ws 9 3 0 ≤ 9) && wlong ws 6 % n == 0))

/-- R390, R391: the queue takes its head entry, if it may start now: the entry, with the head moved. While the cell quiesces it takes
entries too, which end CONN_CLOSED (R374). -/
def State.sqTake (s : State) (q : Nat) (want : Nat) : Option (List Word32) × State :=
  let log2 := s.fld F.TRN_SQq_CFG_SIZE_LOG2 trnCell q
  let head := s.fld F.TRN_SQq_PTR_HEAD trnCell q
  if !s.flag F.TRN_SQq_CFG_EN trnCell q ∨ log2 < 6 ∨ 16 < log2 ∨ head = s.fld F.TRN_SQq_PTR_TAIL trnCell q
      ∨ !(s.enabled trnCell || s.flag F.CELL_STATE_QUIESCE_BUSY trnCell) then (none, s)
  else
    let a := ringAt (4096 * s.fld F.TRN_SQq_CFG_BASE trnCell q) log2 64 head
    match s.load a 64 true with
    | (.ok bs p, s) =>
      let ws := wordsOf 16 bs
      let opc := wfield ws 0 3 0
      let mine := opc == want || (want == 1 && (decide (opc < 1) || decide (3 < opc)))
      let busy := s.trn.conns.any fun c => c.2.ops.any fun o => match o.origin with
        | .sq r _ _ _ => r == q
        | _ => false
      let full := opc == 1 && wfield ws 0 8 8 == 1 && (s.conn (wfield ws 1 15 0)).notifyFull
      if !mine ∨ !s.tagFree ∨ (wfield ws 0 9 9 = 1 ∧ busy) ∨ full then (none, s)
      else
        let s := s.setFld F.TRN_SQq_PTR_HEAD trnCell ((head + 1) % 65536) q
        if p then (some [], s.recordError trnCell clsPoison a 0) else (some ws, s)
    | (_, s) => (none, s.recordError trnCell clsAccess a 0)

/-- R391: start an entry. -/
def State.sqStart (s : State) (q want : Nat) : State :=
  match s.sqTake q want with
  | (none, s) => s.noteLevels
  | (some ws, s) =>
    let c := wfield ws 1 15 0
    let opc := wfield ws 0 3 0
    let origin := TrnOrigin.sq q (wfield ws 15 31 0) opc (s.sqVf q)
    let pd := s.fld F.TRN_SQq_CFG_PD trnCell q
    let x := s.conn c
    let len := wfield ws 8 31 0 + 1
    let loc := wlong ws 2 % 2 ^ 48
    let s := if !sqValid ws ∨ (s.connPstate c ≠ psIdle ∧ x.pd ≠ pd) then s.opDone c origin 0 1 0
      else if s.connPstate c ≠ psConnected then s.opDone c origin 0 9 0
      else match opc with
        | 1 => match s.regionCheck (wfield ws 4 31 0) pd .r loc len false with
          | (.error _, s) => s.opDone c origin 0 2 0
          | (.ok a, s) => match s.readMessage x.pmtu a len (len / x.pmtu + 1) with
            | (some ps, s) => s.startWrite c origin (wfield ws 5 31 0) (wlong ws 6) (wfield ws 14 31 0) (wfield ws 0 8 8 == 1) ps
            | (none, s) => s.opDone c origin 0 2 0
        | 2 => s.startRead c origin (wfield ws 5 31 0) (wlong ws 6) len loc (wfield ws 4 31 0) pd
        | _ => s.startAtomic c origin ([ws.getD 5 0] ++ words64 (wlong ws 6) ++ [ws.getD 9 0] ++ words64 (wlong ws 10) ++ words64 (wlong ws 12))
    s.noteLevels

/-- R398: read the doorbell line of a queue: the value of bytes 0 and 1, unless the line is poisoned. -/
def State.readDoorbell (s : State) (line cell : Nat) : Option Nat × State :=
  match s.devRead line 64 with
  | (some (bs, false), s) => (some (leNat (bs.take 2)), s)
  | (some (_, true), s) => (none, s.recordError cell clsPoison line 0)
  | (none, s) => (none, s.recordError cell clsAccess line 0)

/-- R398: a poll of a send queue's doorbell line. -/
def State.sqPoll (s : State) (q : Nat) : State :=
  if !s.flag F.TRN_SQq_CFG_POLL trnCell q then s
  else match s.readDoorbell (64 * s.fld F.TRN_SQq_DB_LINE trnCell q) trnCell with
    | (some t, s) => s.setFld F.TRN_SQq_PTR_TAIL trnCell t q
    | (none, s) => s

/-- R398, R451: a poll of a transmit ring's doorbell line. -/
def State.txrPoll (s : State) (r : Nat) : State :=
  if !s.flag F.SHT_TXRr_CFG_POLL shtCell r then s
  else match s.readDoorbell (64 * s.fld F.SHT_TXRr_DB_LINE shtCell r) shtCell with
    | (some t, s) => (s.postEntries (txrKey r) false (s.fld F.SHT_TXRr_PTR_TAIL shtCell r) t).setFld F.SHT_TXRr_PTR_TAIL shtCell t r
    | (none, s) => s

/-! ## Timers, egress and the cell -/

/-- R383: a packet's timer expires under LOSSY. -/
def State.lossyTimer (s : State) (c p psn : Nat) : State :=
  let x := s.conn c
  match (x.path p).unacked.find? fun k => k.psn == psn with
  | none => s
  | some k =>
    if !s.connLive c ∨ !x.lossy then s else if s.retryLimit ≤ k.tries then s.connLost c else s.resend c p fun u => u.psn == psn

/-- R380: a path's timer expires under LOSSLESS. -/
def State.pathTimer (s : State) (c p : Nat) : State :=
  let x := s.conn c
  match (x.path p).unacked with
  | [] => s
  | k :: _ => if !s.connLive c ∨ x.lossy then s else s.goBack c p k.psn

/-- R384: 2 µs after an acceptance that no ACK has covered. -/
def State.ackTimer (s : State) (c p : Nat) : State :=
  if s.connLive c ∧ 0 < ((s.conn c).path p).sinceAck then s.sendAck c p else s

/-- R379: a pool that has had nothing to send returns its grant. -/
def State.creditReturn (s : State) (c : Nat) (coll : Bool) : State :=
  let x := s.conn c
  let l := x.pool coll
  if !s.connLive c ∨ (x.out.any fun k => (k.type == tCollective) == coll) then s
  else
    let l := { l with ret := add32 l.ret (diff32 l.limit l.consumed).toNat, consumed := l.limit }
    (s.setConn c (x.setPool coll l)).creditAck c

/-- R379: 2 µs after LIMIT or RET last changed. -/
def State.creditTimer (s : State) (c : Nat) : State :=
  let x := s.conn c
  if s.connLive c ∧ (x.data.changed ∨ x.coll.changed) then s.sendAck c 0 else s

/-- R331, R336: a run of the Collector's egress goes to Transit. -/
def State.sendRun (s : State) (g : EgressRun) : State :=
  let w := ((Fmt.ofCode g.fmt).getD .fp32).width / 8
  let h := [(if g.result then 2 else 1) * 2 ^ 28 + g.fmt * 2 ^ 24 + g.rank, g.collId * 2 ^ 16 + g.elems.length, g.step, g.offset]
  let payload := h.flatMap (natBe 4) ++ g.elems.flatMap (natLe w)
  let s := { s with col := { s.col with egress := s.col.egress.erase g } }
  let s := if s.connPstate g.conn = psConnected then
      let (msn, s) := s.takeMsn g.conn
      s.queueOut g.conn [{ type := tCollective, msn := msn, payload := payload, p := g.poison }]
    else s
  s.roundCheck g.slot 2

/-- `TRN_STATUS` as it reads. -/
def State.trnStatus (s : State) : Nat :=
  ((s.trn.conns.map Prod.fst).filter fun c => s.connPstate c == psConnected).length + s.trnTags * 2 ^ 32 + s.trn.revokes.length * 2 ^ 49

/-- The connections that are not idle. -/
def State.liveConns (s : State) : List Nat :=
  let base := regAddr .TRN_CONNc_STATE trnCell 0
  s.regs.filterMap fun p =>
    if base ≤ p.1 ∧ p.1 < base + 0x100000 ∧ (p.1 - base) % 16 = 0 ∧ bitsOf p.2.toNat 6 4 ≠ 0 then some ((p.1 - base) / 16) else none

/-- The connections whose EN is 1. -/
def State.enConns (s : State) : List Nat :=
  let base := regAddr .TRN_CONNc_CTRL trnCell 0
  s.regs.filterMap fun p =>
    if base ≤ p.1 ∧ p.1 < base + 0x100000 ∧ (p.1 - base) % 16 = 0 ∧ p.2.toNat % 2 = 1 then some ((p.1 - base) / 16) else none

/-- R370: the Transit cell becomes ENABLED. -/
def State.trnCellUp (s : State) : State :=
  s.enConns.foldl (fun s c => if s.connPstate c = psIdle then s.connStart c else s) s

/-- R375: the Transit cell leaves ENABLED: every connection quiesces. -/
def State.trnCellDown (s : State) : State := s.liveConns.foldl (fun s c => s.connQuiesce c) s

/-- R375: a reset of the Transit cell: the generations, and the revokes that complete. The registers are cleared by the reset. -/
def State.trnReset (s : State) : State :=
  let gens := (List.range 65536).map fun c => (c, s.connGen c + 1)
  let lost := s.liveConns.filter fun c => s.connPstate c == psConnected
  let s := s.trn.revokes.foldl (fun s i => s.revokeDone i) s
  let s := s.trn.conns.foldl (fun s p => s.setConn p.1 p.2.ended) (s.setTrn {})
  let s := lost.foldl (fun s c => s.colConnLost c) s
  let s := gens.foldl (fun s g => (s.setReg .TRN_CONNc_STATE trnCell (BitVec.ofNat 64 (g.2 % 65536 * 2 ^ 16)) g.1).setFlag
    F.TRN_CONNc_CTRL_EN trnCell false g.1) s
  { s with col := { s.col with granted := [] } }

end Sys2Proof.Machine
end

