-- ==== Sys2Proof/Machine/Catalogue.lean ====
section
/-! DEFINITION. The Catalogue (chapter 14): volumes and backends (R453 to R456), the store (R464, R465), backend commands (R457, R475,
R480 to R482), failures (R470 to R472), completions (R461, R471), and the life of a command (R462 to R469) and of a queue
(R476 to R479). -/

namespace Sys2Proof.Machine

open Sys2Proof

def State.setCat (s : State) (x : CatState) : State := { s with cat := x }
def State.setCatQueue (s : State) (q : Nat) (x : CatQueue) : State :=
  s.setCat { s.cat with queues := smapSet (fun _ => {}) s.cat.queues q x }
def State.catBackend (s : State) (b : Nat) : CatBackend := smapGet (fun _ => {}) s.cat.bes b
def State.setCatBackend (s : State) (b : Nat) (x : CatBackend) : State :=
  s.setCat { s.cat with bes := smapSet (fun _ => {}) s.cat.bes b x }

/-- The number of the internal queue of a mover. -/
def catInternal (m : Nat) : Nat := 4096 + m

/-- R579: the internal queue of Ephemeris, as that of a mover 64. -/
def ephMover : Nat := 64

def State.catConn (s : State) (q : Nat) : Nat := s.fld F.CAT_Qq_OWNER_CONN catCell q

/-! ## Commands -/

def CatCmd.opc (c : CatCmd) : Nat := wfield c.words 0 3 0
def CatCmd.ordered (c : CatCmd) : Bool := wfield c.words 0 8 8 == 1
def CatCmd.cid (c : CatCmd) : Nat := wfield c.words 1 15 0
def CatCmd.lba (c : CatCmd) : Nat := wlong c.words 2
def CatCmd.nb (c : CatCmd) : Nat := wfield c.words 4 15 0 + 1
def CatCmd.buf (c : CatCmd) : Nat := wlong c.words 6
def CatCmd.log2 (c : CatCmd) : Nat := wfield c.vol 0 7 4
def CatCmd.len (c : CatCmd) : Nat := c.nb * 2 ^ c.log2
def opRead : Nat := 1
def opWrite : Nat := 2
def opFlush : Nat := 3
def opDealloc : Nat := 4

/-- R473: the statuses. -/
def stProtocol : Nat := 1
def stVolume : Nat := 2
def stRange : Nat := 3
def stMedia : Nat := 4
def stUnavailable : Nat := 5
def stTimeout : Nat := 6
def stDeferred : Nat := 7
def stReset : Nat := 8
def stAccessLost : Nat := 9
def stPoisoned : Nat := 0xA

/-- R461: INFO of a backend status. -/
def beInfo (be status : Nat) : Nat := be % 1024 + status % 32768 * 2 ^ 16

/-- R454: a volume entry that can be used: VALID, with a block size and stripe unit the rule allows. -/
def volValid (v : List Word32) : Bool :=
  wfield v 0 0 0 == 1 && (wfield v 0 7 4 == 9 || wfield v 0 7 4 == 12) && decide (wfield v 0 11 8 ≤ 8)

/-- R456: a backend entry that can be used. -/
def beValid (w : List Word32) : Bool := wfield w 0 2 2 == 1 && wfield w 0 1 0 != 3

/-- R454: the volume entry v and the backends of its stripe, as read. What cannot be read is not VALID. -/
def State.catTables (s : State) (v : Nat) : List Word32 × List (Nat × List Word32) × State :=
  let rd := fun (s : State) (a : Nat) => match s.devRead a 64 with
    | (some (bs, false), s) => (wordsOf 16 bs, s)
    | (_, s) => ([], s)
  let r := if v < 2 ^ min 16 (s.fld F.CAT_VOL_TABLE_COUNT_LOG2 catCell) then rd s (4096 * s.fld F.CAT_VOL_TABLE_BASE catCell + 64 * v) else ([], s)
  if !volValid r.1 then (r.1, [], r.2)
  else
    let nums := (List.range (wfield r.1 0 15 12 + 1)).map fun i => wfield r.1 (6 + i / 2) (16 * (i % 2) + 15) (16 * (i % 2))
    let out := nums.foldl (fun (acc : List (Nat × List Word32) × State) n =>
      let t := if n < min 1024 (acc.2.fld F.CAT_BE_TABLE_COUNT catCell) then rd acc.2 (4096 * acc.2.fld F.CAT_BE_TABLE_BASE catCell + 64 * n)
        else ([], acc.2)
      (acc.1 ++ [(n, t.1)], t.2)) ([], r.2)
    (r.1, out.1, out.2)

/-- R455: the parts of a command from block b on. -/
def catSplit (vol : List Word32) (bes : List (Nat × List Word32)) (b n : Nat) : (fuel : Nat) → List CatPart
  | 0 => []
  | k + 1 =>
    if n = 0 then []
    else
      let su := 2 ^ wfield vol 0 11 8
      let w := wfield vol 0 15 12 + 1
      let u := b / su
      let m := min n (su - b % su)
      { lba := b, nb := m, be := (bes.getD (u % w) (0, [])).1, block := wlong vol 4 + u / w * su + b % su } :: catSplit vol bes (b + m) (n - m) k

def CatCmd.split (c : CatCmd) : List CatPart := catSplit c.vol c.bes c.lba c.nb (c.nb + 1)

/-- The entry of a backend of a command. -/
def CatCmd.beWords (c : CatCmd) (be : Nat) : List Word32 := ((c.bes.find? fun p => p.1 == be).map Prod.snd).getD []

def State.putCmd (s : State) (q : Nat) (c : CatCmd) : State :=
  let x := s.catQueue q
  s.setCatQueue q { x with cmds := x.cmds.map fun d => if d.seq = c.seq then c else d }

def State.findCmd (s : State) (q seq : Nat) : Option CatCmd := (s.catQueue q).cmds.find? fun c => c.seq == seq

/-- R473: keep the failure of the lowest volume block. -/
def CatCmd.fails (c : CatCmd) (lba status info : Nat) : CatCmd :=
  if c.fail.any fun f => decide (f.1 ≤ lba) then c else { c with fail := some (lba, status, info) }

/-! ## The store -/

/-- R464: the store area. -/
def State.storeArea (s : State) : Nat × Nat :=
  let g := s.fld F.CAT_WBS_SIZE_GIB catCell
  (2 ^ 30 * s.fld F.CAT_WBS_BASE catCell, (if 1 ≤ g ∧ g ≤ 32 then g else 32) * 2 ^ 30)

/-- The areas of the store in use. -/
def State.storeUsed (s : State) : List (Nat × Nat) :=
  ((s.cat.segs.filter fun g => !g.dealloc).map fun g => (g.addr, g.nb * 2 ^ g.log2))
    ++ (s.cat.queues.flatMap fun p => (p.2.cmds.filterMap fun c => c.area) ++ p.2.held)
    ++ (s.cat.becmds.flatMap fun b => (b.page.map fun a => (a, 4096)).toList ++ b.area.toList)

/-- The first free area of n bytes, on a 4 KiB boundary, of `size` bytes at `base`. -/
def State.firstFree (s : State) (base size n : Nat) : Option Nat :=
  let used := s.storeUsed.filter fun u => decide (base < u.1 + u.2) && decide (u.1 < base + size)
  let up := fun a => (a + 4095) / 4096 * 4096
  let cands := (base :: used.map fun u => up (u.1 + u.2)).mergeSort (· ≤ ·)
  cands.find? fun a => decide (a + n ≤ base + size) && used.all fun u => decide (a + n ≤ u.1) || decide (u.1 + u.2 ≤ a)

/-- The part of the store for the Catalogue's own lists: its last 32nd (log 36). A command's data lies before it, so that a store full
of data still reaches its backends. -/
def State.storePages (s : State) : Nat := s.storeArea.2 / 32

/-- R464: room for n bytes of data; a page for a list. -/
def State.storeAlloc (s : State) (n : Nat) : Option Nat := s.firstFree s.storeArea.1 (s.storeArea.2 - s.storePages) n
def State.pageAlloc (s : State) : Option Nat := s.firstFree (s.storeArea.1 + s.storeArea.2 - s.storePages) s.storePages 4096

/-- `CAT_STATUS` as it reads. The store is the part's while the cell is not OFF (R464). -/
def State.catStatus (s : State) : Nat :=
  s.catTags + (if s.cellState catCell = 0 then 0 else (s.storeArea.2 - (s.storeUsed.map Prod.snd).sum) / 2 ^ 20) * 2 ^ 32

/-- R465: what the store holds of 64-byte piece g of a part: the newest data of a completed WRITE or DEALLOCATE. -/
def State.storePiece (s : State) (volNo lba log2 g : Nat) : Option (List Byte × Bool) :=
  let b := lba + 64 * g / 2 ^ log2
  match (s.cat.segs.filter fun x => x.volNo == volNo && decide (x.lba ≤ b) && decide (b < x.lba + x.nb)).getLast? with
  | none => none
  | some x =>
    if x.dealloc then some (List.replicate 64 0, false)
    else
      let r := s.readLine (x.addr + lba * 2 ^ log2 + 64 * g - x.lba * 2 ^ log2) false
      some (r.bytes, r.poison)

/-! ## Backend commands -/

/-- R457: the PCI Express port of a drive. -/
def nvmePort (w : List Word32) : Nat := 10 + wfield w 1 3 0

/-- A downstream port has its link and no containment. -/
def State.dpUp (s : State) (port : Nat) : Bool :=
  s.enabled (portCell port) && bitsOf (s.cfg port 0 0x70) 29 29 == 1 && bitsOf (s.cfg port 0 0x158) 0 0 == 0

/-- R473: a backend can be reached. -/
def State.beReachable (s : State) (w : List Word32) : Bool :=
  (s.enabled catCell || s.cellState catCell == 1)
    && match wfield w 0 1 0 with
      | 0 => s.dpUp (nvmePort w)
      | 1 => s.connPstate (wfield w 1 15 0) == psConnected
      | _ => true

/-- R457: the drive's doorbells, by NVMe with a stride of 0 (log 36): SQ tail, CQ head. -/
def State.nvmeDoorbell (s : State) (w : List Word32) (cq : Bool) (v : Nat) : State :=
  let port := nvmePort w
  let a := 2 ^ 32 * s.fld F.PCI_DP_OUT_BASE (portCell port) + 0x1000 + 8 * wfield w 3 31 16 + (if cq then 4 else 0)
  s.sendTlp { port := port, fn := 0, kind := .memWrite, addr := a, len := 4, bytes := natLe 4 v }

/-- The lowest identifier of a backend not in use. -/
def State.freeBeId (s : State) (be : Nat) : Nat :=
  kthLeast ((s.cat.becmds.filter fun b => b.be == be).map BeCmd.id) 0 65537
where
  /-- The least number from n on that a list does not hold. -/
  kthLeast (used : List Nat) (n : Nat) : Nat → Nat
    | 0 => n
    | k + 1 => if used.contains n then kthLeast used (n + 1) k else n

/-- R457: an NVMe command of 64 bytes: opcode, identifier, namespace, PRP1, PRP2, command dwords 10 to 12. -/
def nvmeEntry (opc cid nsid prp1 prp2 d10 d11 d12 : Nat) : List Byte :=
  bytesOf (buildWords 16 [(0, 7, 0, opc), (0, 31, 16, cid), (1, 31, 0, nsid), (6, 31, 0, prp1), (7, 31, 0, prp1 / 2 ^ 32), (8, 31, 0, prp2),
    (9, 31, 0, prp2 / 2 ^ 32), (10, 31, 0, d10), (11, 31, 0, d11), (12, 31, 0, d12)])

/-- The pages after the first that n bytes at an address touch. -/
def prpPages (a n : Nat) : List Nat := (List.range ((4095 + (n + a % 4096)) / 4096 - 1)).map fun i => 4096 * (a / 4096) + 4096 * (i + 1)

/-- What an attempt to issue a backend command gives: issued, not now, or its backend cannot be reached. -/
inductive BeIssue where
  | issued | busy | unreachable
  deriving DecidableEq, Repr

/-- Note a backend command as issued; `area` is what a READ fills. -/
def State.addBeCmd (s : State) (be id opc q : Nat) (owner : BeOwner) (page : Option Nat) (area : Nat × Nat) : State :=
  (s.setCat { s.cat with
    becmds := s.cat.becmds ++ [{ be := be, id := id, serial := s.cat.nextId, opc := opc, owner := owner, q := q, page := page,
                                 area := if opc = opRead then some area else none }]
    nextId := s.cat.nextId + 1 }).count catCell (evOf 0x29 5) (some be)

/-- R457: issue to a drive. -/
def State.nvmeIssue (s : State) (be : Nat) (w : List Word32) (opc blk nb addr len q : Nat) (owner : BeOwner) : BeIssue × State :=
  let x := s.catBackend be
  let depth := wfield w 3 11 0 + 1
  let tail := (x.tail + 1) % depth
  let id := s.freeBeId be
  let pages := prpPages addr len
  let list := (opc == opRead || opc == opWrite) && decide (2 ≤ pages.length)
  let page := if list || opc == opDealloc then s.pageAlloc else none
  if tail = x.head ∨ ((list || opc == opDealloc) && page.isNone) then (.busy, s)
  else
    let p := page.getD 0
    let s := if list then (s.devWrite p (pages.flatMap (natLe 8))).2
      else if opc = opDealloc then (s.devWrite p (natLe 4 0 ++ natLe 4 nb ++ natLe 8 blk)).2 else s
    let nsid := wfield w 2 31 0
    let e := if opc = opFlush then nvmeEntry 0 id nsid 0 0 0 0 0
      else if opc = opDealloc then nvmeEntry 9 id nsid p 0 0 4 0
      else nvmeEntry (if opc = opRead then 2 else 1) id nsid addr (if list then p else pages.headD 0) blk (blk / 2 ^ 32) (nb - 1)
    let r := s.devWrite (wlong w 4 % 2 ^ 48 + 64 * x.tail) e
    let s := (r.2.addBeCmd be id opc q owner page (addr, len)).setCatBackend be { x with words := w, tail := tail }
    (.issued, s.nvmeDoorbell w false tail)

/-- R480: issue to an export queue of a peer. -/
def State.remoteIssue (s : State) (be : Nat) (w : List Word32) (opc blk nb addr len q : Nat) (owner : BeOwner) : BeIssue × State :=
  let x := s.catBackend be
  let log2 := wfield w 6 4 0
  if 2 ^ log2 - 1 ≤ (s.cat.becmds.filter fun b => b.be == be).length then (.busy, s)
  else
    let id := s.freeBeId be
    let e := buildWords 16 [(0, 3, 0, opc), (0, 7, 4, 1), (1, 15, 0, id), (2, 31, 0, blk), (3, 31, 0, blk / 2 ^ 32), (4, 15, 0, nb - 1),
      (6, 31, 0, addr), (7, 31, 0, addr / 2 ^ 32), (8, 31, 0, wfield w 3 31 0)]
    let tail := (x.tail + 1) % 65536
    let s := (s.addBeCmd be id opc q owner none (addr, len)).setCatBackend be { x with words := w, tail := tail }
    (.issued, s.startWrite (wfield w 1 15 0) (.unit 0 (0x10000 + be) id) (wfield w 2 31 0) (wlong w 4 + 64 * (x.tail % 2 ^ log2))
      (tail + wfield w 1 27 16 * 2 ^ 16) true [(bytesOf e, false)])

/-- R482: issue to a program; a refused item fails the command. -/
def State.programIssue (s : State) (be : Nat) (w : List Word32) (opc volNo blk nb addr len q : Nat) (owner : BeOwner) :
    BeIssue × State :=
  let id := s.freeBeId be
  let r := s.postItem (wfield w 1 11 8) 2 (wfield w 1 7 0) q
    ([opc + volNo * 2 ^ 16, id, blk, blk / 2 ^ 32, nb - 1 + be * 2 ^ 16, 0, addr, addr / 2 ^ 32].map (BitVec.ofNat 32))
  if r.1 then (.issued, (r.2.addBeCmd be id opc q owner none (addr, len)).setCatBackend be { r.2.catBackend be with words := w })
  else (.unreachable, r.2.count catCell (evOf 0x29 5) (some be))

/-- Issue a backend command. -/
def State.beIssue (s : State) (be : Nat) (w : List Word32) (opc volNo blk nb addr len q : Nat) (owner : BeOwner) : BeIssue × State :=
  if !s.beReachable w then (.unreachable, s)
  else match wfield w 0 1 0 with
    | 0 => s.nvmeIssue be w opc blk nb addr len q owner
    | 1 => s.remoteIssue be w opc blk nb addr len q owner
    | _ => s.programIssue be w opc volNo blk nb addr len q owner

/-! ## Completions -/

/-- R472: write an entry of the error log of a queue. -/
def State.catLog (s : State) (q : Nat) (ws : List Word32) : State :=
  let x := s.catQueue q
  let log2 := s.fld F.CAT_Qq_ELOG_LOG_LOG2 catCell q
  if 4096 ≤ q ∨ log2 < 4 ∨ 12 < log2 ∨ x.noRecords then s
  else
    let a := ringAt (64 * s.fld F.CAT_Qq_ELOG_BASE catCell q) log2 32 x.logSeq
    let s := s.setCatQueue q { x with logSeq := (x.logSeq + 1) % 65536 }
    if s.catOwner q = 1 then
      let s := s.setCatQueue q { s.catQueue q with records := (s.catQueue q).records + 1 }
      (s.hostWrite (s.fld F.CAT_Qq_OWNER_PORT catCell q) (s.fld F.CAT_Qq_OWNER_FN catCell q) a (bytesOf ws) false (.catLogged q)).2
    else
      let r := s.devWrite a (bytesOf ws)
      if r.1 then r.2 else r.2.recordError catCell clsAccess a 0

/-- R461: write a completion entry where the owner of the queue looks for it. -/
def State.catRecord (s : State) (q : Nat) (ws : List Word32) : State :=
  let x := s.catQueue q
  let log2 := s.fld F.CAT_Qq_CFG_SIZE_LOG2 catCell q
  let tail := s.fld F.CAT_Qq_PTR_CQ_TAIL catCell q
  let ws := ws.set 1 (BitVec.ofNat 32 (putBits (ws.getD 1 0).toNat 31 31 (!x.flip).toNat))
  let a := ringAt (4096 * s.fld F.CAT_Qq_CQ_CQ_BASE catCell q) log2 16 tail
  let s := s.setFld F.CAT_Qq_PTR_CQ_TAIL catCell ((tail + 1) % 65536) q
  let s := s.setCatQueue q { x with flip := !nextPhase log2 tail (!x.flip) }
  match s.catOwner q with
  | 1 =>
    let s := s.setCatQueue q { s.catQueue q with records := (s.catQueue q).records + 1 }
    let r := s.hostWrite (s.fld F.CAT_Qq_OWNER_PORT catCell q) (s.fld F.CAT_Qq_OWNER_FN catCell q) a (bytesOf ws) false (.catRecord q)
    r.2.routeFire q (some r.1)
  | 2 =>
    let to64 := 2 ^ 32 * s.fld F.CAT_Qq_RESP_ADDR_HI catCell q + 64 * s.fld F.CAT_Qq_DB_LINE catCell q % 2 ^ 32
    let v := s.free 32
    if s.connPstate (s.catConn q) = psConnected then
      v.2.startWrite (s.catConn q) (.unit 0 q 3) (s.fld F.CAT_Qq_RESP_RESP_KEY catCell q) (ringAt to64 log2 16 tail) v.1.toNat true
        [(bytesOf ws, false)]
    else s.setFld F.CAT_Qq_PTR_CQ_HEAD catCell (s.fld F.CAT_Qq_PTR_CQ_TAIL catCell q) q
  | _ =>
    let r := s.devWrite a (bytesOf ws)
    let s := if r.1 then r.2 else r.2.recordError catCell clsAccess a 0
    (s.notifyBit (s.fld F.CAT_Qq_OWNER_NOTIFY_BIT catCell q)).routeFire q

/-- R470, R471: the failed parts not reported yet: their count, and the first by volume block. -/
def CatQueue.unreported (x : CatQueue) : List CatFailure := x.failed.filter fun f => !f.reported

def lowestFailure : List CatFailure → Option CatFailure
  | [] => none
  | f :: fs => match lowestFailure fs with
    | none => some f
    | some g => if f.lba ≤ g.lba then some f else some g

/-- R461, R471: a command completes. -/
def State.catComplete (s : State) (q : Nat) (c : CatCmd) (status info : Nat) : State :=
  let x := s.catQueue q
  let s := s.setCatQueue q { x with cmds := x.cmds.filter fun d => d.seq != c.seq }
  let s := s.count catCell (evOf 0x29 1) (some status)
  if 4096 ≤ q then
    s.setCat { s.cat with moverDone := s.cat.moverDone ++ [(q - 4096, c.entry, status, info)] }
  else if x.noRecords then s
  else
    let un := x.unreported
    let deferred := status == 0 && !un.isEmpty
    let info := if deferred then ((lowestFailure un).map fun f => beInfo f.be f.status).getD 0 else info
    let s := s.setCatQueue q { s.catQueue q with failed := x.failed.map fun f => { f with reported := true } }
    s.catRecord q (buildWords 4 [(0, 15, 0, c.cid), (0, 31, 16, s.fld F.CAT_Qq_PTR_SQ_HEAD catCell q),
      (1, 7, 0, if deferred then stDeferred else status), (1, 15, 8, min 255 un.length), (2, 31, 0, info)])

/-! ## Ends of backend commands -/

/-- R470: an attempt at a store segment has failed; after the last, the failure is recorded and the data released. -/
def State.segFail (s : State) (id cause status : Nat) (last : Bool := false) : State :=
  match s.cat.segs.find? fun g => g.id == id with
  | none => s
  | some g =>
    let n := g.attempts + 1
    if n < max 1 (s.fld F.CAT_TIMER_RETRIES catCell) ∧ !last then
      (s.setCat { s.cat with segs := s.cat.segs.map fun h => if h.id = id then { h with attempts := n, issued := false } else h }).count
        catCell (evOf 0x29 6) (some g.be)
    else
      let s := (s.setCat { s.cat with segs := s.cat.segs.filter fun h => h.id != id }).count catCell (evOf 0x29 7)
      let x := s.catQueue g.q
      let s := s.setCatQueue g.q { x with failed := x.failed ++ [⟨g.seq, g.lba, g.be, status, false⟩] }
      s.catLog g.q (buildWords 8 [(0, 15, 0, g.cid), (0, 31, 16, g.q), (1, 7, 0, cause), (1, 17, 8, g.be), (2, 31, 0, g.lba),
        (3, 31, 0, g.lba / 2 ^ 32), (4, 15, 0, g.nb - 1), (4, 31, 16, x.logSeq), (5, 31, 0, beInfo g.be status), (6, 31, 0, s.now),
        (7, 31, 0, s.now / 2 ^ 32)])

/-- R467: a backend write or deallocate has ended; whether it is durable. -/
def State.segDone (s : State) (id : Nat) (serial : Nat) (durable : Bool) : State :=
  match s.cat.segs.find? fun g => g.id == id with
  | none => s.count catCell 0x005
  | some g =>
    let kind := wfield g.beWords 0 1 0
    let now := durable || (kind == 0 && wfield g.beWords 0 3 3 == 0) || (kind == 2 && decide (serial ≤ (s.catBackend g.be).durable))
    s.setCat { s.cat with
      segs := s.cat.segs.filter fun h => h.id != id
      nextId := s.cat.nextId + 1
      nondur := if now then s.cat.nondur else s.cat.nondur ++ [⟨g.q, g.seq, g.be, serial, s.cat.nextId⟩] }

/-- R473: a part of a READ ends. -/
def State.partEnd (s : State) (q seq i : Nat) (st : PartState) : State :=
  match s.findCmd q seq with
  | none => s.count catCell 0x005
  | some c => s.putCmd q { c with parts := (c.parts.zipIdx).map fun p => if p.2 = i then { p.1 with state := st } else p.1 }

/-- R467: a FLUSH fails. -/
def State.flushFail (s : State) (q seq cause be status : Nat) : State :=
  match s.findCmd q seq with
  | none => s.count catCell 0x005
  | some c => s.putCmd q (c.fails 0 (if cause = stUnavailable then stUnavailable else stDeferred) (beInfo be status))

/-- A backend command has failed with a cause of R472 and a backend status. -/
def State.ownerFail (s : State) (b : BeCmd) (cause status : Nat) : State :=
  match b.owner with
  | .seg id => s.segFail id cause status
  | .part q seq i => s.partEnd q seq i (.failed cause (beInfo b.be status))
  | .flush q seq => s.flushFail q seq cause b.be status

/-- R60, R475: the result of a command of an earlier generation, or of one that a reset has met, is discarded and counted. The store
still holds its data, and sends it again. -/
def State.beDiscard (s : State) (b : BeCmd) : State :=
  let s := s.count catCell 0x005
  match b.owner with
  | .seg id => s.setCat { s.cat with segs := s.cat.segs.map fun g => if g.id = id then { g with issued := false } else g }
  | _ => s

/-- R475: the generation of a queue moves on, or its reset begins. -/
def State.beStale (s : State) (q : Nat) : State :=
  s.setCat { s.cat with becmds := s.cat.becmds.map fun b => if b.q = q then { b with stale := true } else b }

/-- R457, R475, R481, R482: a backend command ends: its failure as cause and backend status, none for success. -/
def State.beEnd (s : State) (be id : Nat) (fail : Option (Nat × Nat)) (durable : Bool) : State :=
  match s.cat.becmds.find? fun b => b.be == be && b.id == id with
  | none => s
  | some b =>
    let s := s.setCat { s.cat with becmds := s.cat.becmds.filter fun d => !(d.be == be && d.id == id) }
    let program := wfield (s.catBackend be).words 0 1 0 == 2
    let covers := fun (n : CatVolatile) => if program then decide (n.serial ≤ b.serial) else decide (n.ended < b.serial)
    if b.late then s.count catCell 0x005
    else if b.stale then s.beDiscard b
    else match fail with
      | some (cause, status) => s.ownerFail b cause status
      | none =>
        let s := if durable then s.setCat { s.cat with nondur := s.cat.nondur.filter fun n => !(n.be == be && covers n) } else s
        match b.owner with
        | .seg g => s.segDone g b.serial durable
        | .part q seq i => s.partEnd q seq i .done
        | .flush q seq => match s.findCmd q seq with
          | some _ => s
          | none => s.count catCell 0x005

/-- R475: a backend command times out. Its identifier stays in use, unless its controller has been reset. -/
def State.beTimeout (s : State) (be id : Nat) : State :=
  match s.cat.becmds.find? fun b => b.be == be && b.id == id && !b.late with
  | none => s
  | some b =>
    let mine := fun (d : BeCmd) => d.be == be && d.id == id
    let s := s.setCat { s.cat with
      becmds := if b.gone then s.cat.becmds.filter fun d => !mine d
        else s.cat.becmds.map fun d => if mine d then { d with late := true } else d }
    let s := (s.recordError catCell clsTimeout 0 0).count catCell (evOf 0x29 8)
    if b.stale then s.beDiscard b else s.ownerFail b stTimeout 0

/-- R456, R481: the commands of a backend that has become unreachable fail. -/
def State.beLost (s : State) (be : Nat) : State :=
  (s.cat.becmds.filter fun b => b.be == be).foldl (fun s b => s.beEnd be b.id (some (stUnavailable, 0)) false) s

/-- The backends that are drives of a port; their rings begin anew (log 36). -/
def State.portDrives (s : State) (port : Nat) : List Nat :=
  (s.cat.bes.filter fun p => wfield p.2.words 0 1 0 == 0 && !p.2.words.isEmpty && nvmePort p.2.words == port).map Prod.fst
def State.beNewRings (s : State) (be : Nat) : State :=
  s.setCatBackend be { s.catBackend be with tail := 0, head := 0, cqHead := 0, flip := false }

/-- R518, R520: the drives of a port are lost. -/
def State.catPortLost (s : State) (port : Nat) : State :=
  (s.portDrives port).foldl (fun s be => (s.beLost be).beNewRings be) s

/-- R475: firmware resets the controller of a port's drive, by a write that clears EN of its Controller Configuration: the identifiers
of timed-out commands are free, and those outstanding are never completed. -/
def State.nvmeReset (s : State) (port : Nat) : State :=
  let ds := s.portDrives port
  let s := s.setCat { s.cat with
    becmds := (s.cat.becmds.filter fun b => !(b.late && ds.contains b.be)).map fun b => if ds.contains b.be then { b with gone := true } else b }
  ds.foldl (fun s be => s.beNewRings be) s

/-- R481: remote backends whose connection is not CONNECTED fail their commands. -/
def State.catConnsLost (s : State) : State :=
  let bes := (s.cat.becmds.map BeCmd.be).dedup.filter fun be =>
    let w := (s.catBackend be).words
    wfield w 0 1 0 == 1 && s.connPstate (wfield w 1 15 0) != psConnected
  bes.foldl (fun s be => s.beLost be) s

/-- R457: read the next entry of an NVMe completion queue: whether there was one. Success of a Flush makes durable what ended
before it was issued. -/
def State.nvmeEntry (s : State) (be : Nat) : Bool × State :=
  let x := s.catBackend be
  let w := x.words
  match s.devRead (wlong w 6 % 2 ^ 48 + 16 * x.cqHead) 16 with
  | (some (bs, false), s) =>
    let e := wordsOf 4 bs
    if wfield e 3 16 16 = x.flip.toNat then (false, s)
    else
      let depth := wfield w 3 11 0 + 1
      let h := (x.cqHead + 1) % depth
      let s := s.setCatBackend be { x with cqHead := h, flip := if h = 0 then !x.flip else x.flip, head := wfield e 2 15 0 }
      let st := wfield e 3 31 17
      let id := wfield e 3 15 0
      let fl := (s.cat.becmds.find? fun b => b.be == be && b.id == id).any fun b => b.opc == opFlush
      (true, (s.beEnd be id (if st = 0 then none else some (stMedia, st)) fl).nvmeDoorbell w true h)
  | (_, s) => (false, s)

/-- R457: read the entries of an NVMe completion queue, up to the first that is not new. -/
def State.nvmePoll (s : State) (be : Nat) : (fuel : Nat) → State
  | 0 => s
  | k + 1 =>
    let r := s.nvmeEntry be
    if r.1 then r.2.nvmePoll be k else r.2

/-- R457: a poll of a backend of kind NVME. A phase bit that equals the flipped phase is no new entry. -/
def State.catNvmePoll (s : State) (be : Nat) : State :=
  let w := (s.catBackend be).words
  if w.isEmpty ∨ wfield w 0 1 0 ≠ 0 then s else s.nvmePoll be (wfield w 3 11 0 + 1)

/-- R482: the next response of a program: whether it could be read. -/
def State.programEntry (s : State) (be : Nat) : Bool × State :=
  let x := s.catBackend be
  match s.devRead (ringAt (wlong x.words 4 % 2 ^ 48) (wfield x.words 2 4 0) 16 x.head) 16 with
  | (some (bs, false), s) =>
    let e := wordsOf 4 bs
    let st := wfield e 1 7 0
    let id := wfield e 0 31 0
    let durable := wfield e 1 8 8 == 1
    let serial := ((s.cat.becmds.find? fun b => b.be == be && b.id == id).map BeCmd.serial).getD 0
    let s := s.setCatBackend be { x with head := (x.head + 1) % 65536, durable := if durable then max x.durable serial else x.durable }
    (true, s.beEnd be id (if st = 0 then none else some (stMedia, st)) durable)
  | (_, s) => (false, s)

/-- R482: the responses of a program up to the TAIL of its doorbell line. -/
def State.programEntries (s : State) (be tail : Nat) : (fuel : Nat) → State
  | 0 => s
  | k + 1 =>
    if (s.catBackend be).head = tail then s
    else
      let r := s.programEntry be
      if r.1 then r.2.programEntries be tail k else r.2

def State.programPoll (s : State) (be : Nat) : State :=
  let w := (s.catBackend be).words
  if w.isEmpty ∨ wfield w 0 1 0 ≠ 2 then s
  else match s.readDoorbell (wlong w 6 / 64 % 2 ^ 42 * 64) catCell with
    | (some t, s) => s.programEntries be t (2 ^ wfield w 2 4 0)
    | (none, s) => s

/-- R481: a completion entry of a peer. DEFERRED_ERROR of a READ or WRITE reports an earlier failure, and the command itself has
ended (log 36). -/
def State.remoteDone (s : State) (be : Nat) (e : List Word32) : State :=
  let w := (s.catBackend be).words
  if w.isEmpty ∨ wfield w 0 1 0 ≠ 1 then s
  else
    let id := wfield e 0 15 0
    let st := wfield e 1 7 0
    let fl := (s.cat.becmds.find? fun b => b.be == be && b.id == id).any fun b => b.opc == opFlush
    let ok := st == 0 || (st == stDeferred && !fl)
    s.beEnd be id (if ok then none else some (stMedia, st)) (fl && ok)

/-- R464: the store sends a segment to its backend, after the earlier ones that overlap it. -/
def State.writeBack (s : State) (id : Nat) : State :=
  match s.cat.segs.find? fun g => g.id == id with
  | none => s
  | some g =>
    let before := s.cat.segs.takeWhile fun h => h.id != id
    if g.issued ∨ before.any fun h => h.volNo == g.volNo && decide (h.lba < g.lba + g.nb) && decide (g.lba < h.lba + h.nb) then s
    else
      let r := s.beIssue g.be g.beWords (if g.dealloc then opDealloc else opWrite) g.volNo g.block g.nb g.addr (g.nb * 2 ^ g.log2) g.q (.seg id)
      match r.1 with
      | .issued => r.2.setCat { r.2.cat with segs := r.2.cat.segs.map fun h => if h.id = id then { h with issued := true } else h }
      | .busy => r.2
      | .unreachable => r.2.segFail id stUnavailable 0

/-! ## Buffers -/

/-- R473, R507: the source of a WRITE could not be read from volume block `lba` on; a READ's buffer could not be written there. -/
def CatCmd.losesHost (c : CatCmd) (lba : Nat) : CatCmd := { c.fails lba stAccessLost 0 with lost := true }

/-- R473: the source of a WRITE held poison at a volume block. -/
def CatCmd.meetsPoison (c : CatCmd) (lba : Nat) : CatCmd := { c.fails lba stPoisoned 0 with poison := true }

/-- The volume block of a command that byte `off` of its buffer belongs to. -/
def CatCmd.blockOf (c : CatCmd) (off : Nat) : Nat := c.lba + off / 2 ^ c.log2

/-- The operation of a command's buffer from byte `off` on, as the Transit operation's number; `kind` 0 reads data, 1 reads a list,
2 writes data. -/
def CatCmd.moveTag (c : CatCmd) (off kind : Nat) : Nat := 4 * (c.seq * 2 ^ 16 + off / 2 ^ c.log2) + kind

/-- Copy n 64-byte pieces from device memory into the store at `dst` with their marks, as a command's bytes from `off` on. -/
def State.copyPieces (s : State) (c : CatCmd) (src dst off : Nat) : (n : Nat) → CatCmd × State
  | 0 => (c, s)
  | n + 1 => match s.devRead src 64 with
    | (none, s) => (c.losesHost (c.blockOf off), s)
    | (some (bs, p), s) =>
      (s.devWrite dst bs p).2.copyPieces (if p then c.meetsPoison (c.blockOf off) else c) (src + 64) (dst + 64) (off + 64) n

/-- The data of a WRITE is read from its buffer into the store at `dst`, segment by segment; `off` bytes have been read. -/
def State.catFetch (s : State) (q : Nat) (c : CatCmd) (dst off : Nat) : List (Nat × Nat) → CatCmd × State
  | [] => (c, s)
  | (a, n) :: rest =>
    match s.catOwner q with
    | 1 =>
      let s := s.hostRead (s.fld F.CAT_Qq_OWNER_PORT catCell q) (s.fld F.CAT_Qq_OWNER_FN catCell q) a n (.catData q c.seq dst)
      s.catFetch q { c with moves := c.moves + 1 } (dst + n) (off + n) rest
    | 2 =>
      if s.connPstate (s.catConn q) = psConnected then
        (s.startRead (s.catConn q) (.unit 0 q (c.moveTag off 0)) (wfield c.words 8 31 0) a n dst 0 0).catFetch q
          { c with moves := c.moves + 1 } (dst + n) (off + n) rest
      else s.catFetch q (c.losesHost (c.blockOf off)) (dst + n) (off + n) rest
    | _ =>
      let r := s.copyPieces c a dst off (n / 64)
      r.2.catFetch q r.1 (dst + n) (off + n) rest

/-- R465, R474: the 64-byte pieces of a part, with their marks. The bytes of a part that failed are open. -/
def State.partPieces (s : State) (p : CatPart) (log2 : Nat) : List Nat → List (List Byte × Bool) × State
  | [] => ([], s)
  | g :: gs =>
    let one : (List Byte × Bool) × State := match p.state with
      | .failed _ _ =>
        let v := s.free 512
        ((natLe 64 v.1.toNat, true), v.2)
      | _ => match smapGet (fun _ => none) p.overlay g with
        | some x => (x, s)
        | none =>
          let la := p.addr + 64 * g
          let r := s.readLine la false
          ((r.bytes, r.poison), s.noteRead la r)
    let r := one.2.partPieces p log2 gs
    (one.1 :: r.1, r.2)

def State.cmdPieces (s : State) (log2 : Nat) : List CatPart → List (List Byte × Bool) × State
  | [] => ([], s)
  | p :: ps =>
    let r := s.partPieces p log2 (List.range (p.nb * 2 ^ log2 / 64))
    let t := r.2.cmdPieces log2 ps
    (r.1 ++ t.1, t.2)

/-- Group neighbouring pieces with one mark. -/
def groupPieces : List (List Byte × Bool) → List (List Byte × Bool)
  | [] => []
  | (b, p) :: rest => match groupPieces rest with
    | (c, r) :: more => if p = r then (b ++ c, p) :: more else (b, p) :: (c, r) :: more
    | [] => [(b, p)]

/-- Write pieces to device memory as the bytes of a READ from `off` on. -/
def State.putPieces (s : State) (c : CatCmd) (a off : Nat) : List (List Byte × Bool) → CatCmd × State
  | [] => (c, s)
  | (bs, p) :: rest =>
    let w := s.devWrite a bs p
    w.2.putPieces (if w.1 then c else c.losesHost (c.blockOf off)) (a + bs.length) (off + bs.length) rest

/-- R465, R474: data of one mark goes to a host buffer, with EP where it is marked. -/
def State.hostOut (s : State) (q : Nat) (c : CatCmd) (a off : Nat) (g : List Byte × Bool) : CatCmd × State :=
  ({ c with moves := c.moves + 1 },
    (s.hostWrite (s.fld F.CAT_Qq_OWNER_PORT catCell q) (s.fld F.CAT_Qq_OWNER_FN catCell q) a g.1 g.2 (.catOut q c.seq (c.blockOf off))).2)

/-- R474, R481: data of one mark goes to a peer's buffer by a Transit WRITE of its own, with P on every packet where it is marked. -/
def State.peerOut (s : State) (q : Nat) (c : CatCmd) (a off : Nat) (g : List Byte × Bool) : CatCmd × State :=
  let conn := s.catConn q
  if s.connPstate conn = psConnected then
    let v := s.free 32
    let per := (s.conn conn).pmtu
    ({ c with moves := c.moves + 1 },
      v.2.startWrite conn (.unit 0 q (c.moveTag off 2)) (wfield c.words 8 31 0) a v.1.toNat false
        ((cutMessage per g.1 (g.1.length / per + 1)).map fun p => (p, g.2)))
  else (c.losesHost (c.blockOf off), s)

/-- Each group of neighbouring pieces with one mark goes out by itself. -/
def State.groupsOut (s : State) (q : Nat) (c : CatCmd) (peer : Bool) (a off : Nat) : List (List Byte × Bool) → CatCmd × State
  | [] => (c, s)
  | g :: gs =>
    let r := if peer then s.peerOut q c a off g else s.hostOut q c a off g
    r.2.groupsOut q r.1 peer (a + g.1.length) (off + g.1.length) gs

/-- R465: the data of a READ goes to its buffer; `off` bytes have gone. -/
def State.catDeliver (s : State) (q : Nat) (c : CatCmd) (ps : List (List Byte × Bool)) (off : Nat) : List (Nat × Nat) → CatCmd × State
  | [] => (c, s)
  | (a, n) :: rest =>
    let mine := ps.take (n / 64)
    let more := ps.drop (n / 64)
    match s.catOwner q with
    | 0 =>
      if q = catInternal ephMover then (s.ephPlace 0 (mine.flatMap Prod.fst) (mine.any Prod.snd)).catDeliver q c more (off + n) rest
      else
        let r := s.putPieces c a off mine
        let s := if r.1.lost then r.2.recordError catCell clsAccess a 0 else r.2
        s.catDeliver q r.1 more (off + n) rest
    | o =>
      let r := s.groupsOut q c (o == 2) a off (groupPieces mine)
      r.2.catDeliver q r.1 more (off + n) rest

/-! ## Taking and checking -/

/-- R463, 0x01. -/
def catReserved (ws : List Word32) : Bool :=
  decide (1 ≤ wfield ws 0 3 0) && decide (wfield ws 0 3 0 ≤ 4) && wfield ws 0 7 4 == 1 && wfield ws 0 31 10 == 0 && wfield ws 1 31 16 == 0
    && wfield ws 4 31 16 == 0 && wfield ws 5 31 0 == 0 && wfield ws 9 31 9 == 0
    && (List.range 6).all fun i => wfield ws (10 + i) 31 0 == 0

/-- R460: the segments of a list; none where one is not as the rule asks. -/
def segsOf (n : Nat) (bs : List Byte) : Option (List (Nat × Nat)) :=
  let l := (List.range n).map fun i => wordsOf 4 ((bs.drop (16 * i)).take 16)
  if l.all fun w => wlong w 0 % 64 == 0 && wfield w 2 31 0 != 0 && wfield w 2 5 0 == 0 && wfield w 3 31 0 == 0 then
    some (l.map fun w => (wlong w 0, wfield w 2 31 0))
  else none

/-- R463, 0x02 to 0x05: the status and INFO of the first check that fails; `segs` is the buffer. -/
def catCheck (c : CatCmd) (segs : Option (List (Nat × Nat))) : Option (Nat × Nat) :=
  let data := c.opc == opRead || c.opc == opWrite
  let segsOk := match segs with
    | none => false
    | some l => !volValid c.vol || (l.map Prod.snd).sum == c.len
  if data && !segsOk then some (stProtocol, 2)
  else if !volValid c.vol ∨ ((c.opc = opWrite ∨ c.opc = opDealloc) ∧ wfield c.vol 0 1 1 = 1) then some (stVolume, 0)
  else if c.opc ≠ opFlush ∧ wlong c.vol 2 < c.lba + c.nb then some (stRange, 0)
  else if !(c.bes.all fun b => beValid b.2) then some (stVolume, 0)
  else none

/-- R463: a command whose segments are known is checked: it completes, or is ready. -/
def State.catAccept (s : State) (q : Nat) (c : CatCmd) (segs : Option (List (Nat × Nat))) : State :=
  match catCheck c segs with
  | some (st, info) => s.catComplete q c st info
  | none => s.putCmd q { c with phase := .ready, segs := segs.getD [], area := none }

/-- R460: the segment list of a command is read. That of a peer comes into a page of the store, once there is one. -/
def State.catList (s : State) (q : Nat) (c : CatCmd) : State :=
  let n := wfield c.words 9 8 0
  match s.catOwner q with
  | 1 =>
    (s.putCmd q { c with phase := .listing, moves := 1 }).hostRead (s.fld F.CAT_Qq_OWNER_PORT catCell q) (s.fld F.CAT_Qq_OWNER_FN catCell q)
      c.buf (16 * n) (.catList q c.seq)
  | 2 =>
    if s.connPstate (s.catConn q) ≠ psConnected then s.catComplete q c stAccessLost 0
    else match s.pageAlloc with
      | some a =>
        (s.putCmd q { c with phase := .listing, moves := 1, area := some (a, 4096) }).startRead (s.catConn q) (.unit 0 q (c.moveTag 0 1))
          (wfield c.words 8 31 0) c.buf (16 * n) a 0 0
      | none => s.putCmd q { c with phase := .listing, moves := 0 }
  | _ => match s.devRead c.buf (16 * n) with
    | (some (bs, false), s) => s.catAccept q c (segsOf n bs)
    | (some (_, true), s) => (s.recordError catCell clsPoison c.buf 0).catComplete q c stAccessLost 0
    | (none, s) => (s.recordError catCell clsAccess c.buf 0).catComplete q c stAccessLost 0

/-- R460, R462: an entry is taken. -/
def State.catTake (s : State) (q slot : Nat) (ws : List Word32) (volNo : Nat) (vol : List Word32) (bes : List (Nat × List Word32))
    (entry : Nat := 0) : State :=
  let x := s.catQueue q
  let c : CatCmd := { seq := x.nextSeq, slot := slot, words := ws, volNo := volNo, vol := vol, bes := bes, entry := entry }
  let s := s.setCatQueue q { x with cmds := x.cmds ++ [c], nextSeq := x.nextSeq + 1 }
  let s := s.count catCell (evOf 0x29 0) (some c.opc)
  if !catReserved ws then s.catComplete q c stProtocol 1
  else if c.opc ≠ opRead ∧ c.opc ≠ opWrite then s.catAccept q c (some [])
  else if wfield ws 0 9 9 = 0 then s.catAccept q c (if c.buf % 64 = 0 then some [(c.buf, c.len)] else none)
  else
    let n := wfield ws 9 8 0
    if n = 0 ∨ 256 < n then s.catComplete q c stProtocol 2 else s.catList q c

/-- `CAT_Qq_STATE` as it reads. -/
def State.catStateReg (s : State) (q : Nat) : Nat := putBits (s.reg .CAT_Qq_STATE catCell q).toNat 2 0 (s.catQState q)

/-- The entry at SQ_HEAD has been read. -/
def State.catEntry (s : State) (q : Nat) (bs : List Byte) : State :=
  let head := s.fld F.CAT_Qq_PTR_SQ_HEAD catCell q
  let x := s.catQueue q
  let s := s.setFld F.CAT_Qq_PTR_SQ_HEAD catCell ((head + 1) % 65536) q
  s.catTake q head (wordsOf 16 bs) (s.fld F.CAT_Qq_CFG_VOLUME catCell q) x.vol x.bes

/-- R462: a queue takes the entry at its head, in its turn. -/
def State.catEntryTake (s : State) (q : Nat) : State :=
  if !s.catWants q ∨ !s.tagFree ∨ !s.catTurn q then s
  else
    let s := s.setCat { s.cat with turn := q }
    let log2 := s.fld F.CAT_Qq_CFG_SIZE_LOG2 catCell q
    let a := ringAt (4096 * s.fld F.CAT_Qq_CFG_SQ_BASE catCell q) log2 64 (s.fld F.CAT_Qq_PTR_SQ_HEAD catCell q)
    if s.catOwner q = 1 then
      (s.setCatQueue q { s.catQueue q with reading := true }).hostRead (s.fld F.CAT_Qq_OWNER_PORT catCell q) (s.fld F.CAT_Qq_OWNER_FN catCell q)
        a 64 (.catEntry q)
    else match s.devRead a 64 with
      | (some (bs, false), s) => s.catEntry q bs
      | (some (_, true), s) => s.recordError catCell clsPoison a 0
      | (none, s) => s.recordError catCell clsAccess a 0

/-- R398, R459: a poll of the doorbell line of a DEVICE queue. -/
def State.catPoll (s : State) (q : Nat) : State :=
  if !s.flag F.CAT_Qq_CFG_POLL catCell q ∨ s.catOwner q ≠ 0 then s
  else match s.readDoorbell (64 * s.fld F.CAT_Qq_DB_LINE catCell q) catCell with
    | (some t, s) => s.setFld F.CAT_Qq_PTR_SQ_TAIL catCell t q
    | (none, s) => s

/-! ## The life of a command -/

/-- R466: a command may start. -/
def CatQueue.mayStart (x : CatQueue) (c : CatCmd) : Bool :=
  let before := x.cmds.filter fun d => decide (d.seq < c.seq)
  (!c.ordered || before.isEmpty) && !before.any CatCmd.ordered

/-- Issue the backend commands of the parts of a READ that need one and have none. -/
def State.issueParts (s : State) (q : Nat) (c : CatCmd) : List (CatPart × Nat) → List CatPart × State
  | [] => ([], s)
  | (p, i) :: ps =>
    let one : CatPart × State := if p.state ≠ .idle then (p, s)
      else
        let r := s.beIssue p.be (c.beWords p.be) opRead c.volNo p.block p.nb p.addr (p.nb * 2 ^ c.log2) q (.part q c.seq i)
        match r.1 with
        | .issued => ({ p with state := .issued }, r.2)
        | .busy => (p, r.2)
        | .unreachable => ({ p with state := .failed stUnavailable (beInfo p.be 0) }, r.2)
    let r := one.2.issueParts q c ps
    (one.1 :: r.1, r.2)

/-- R465: the parts of a READ as it starts: what the store holds of each. -/
def State.startParts (s : State) (c : CatCmd) (base : Nat) : List CatPart :=
  c.split.map fun p =>
    let n := p.nb * 2 ^ c.log2 / 64
    let ov := (List.range n).filterMap fun g => (s.storePiece c.volNo p.lba c.log2 g).map fun x => (g, some x)
    { p with addr := base + (p.lba - c.lba) * 2 ^ c.log2, overlay := ov, state := if ov.length = n then .done else .idle }

/-- R464, R468: the segments that a completed WRITE or DEALLOCATE leaves in the store. -/
def State.addSegs (s : State) (q : Nat) (c : CatCmd) : State :=
  c.parts.foldl (fun s p =>
    s.setCat { s.cat with
      nextId := s.cat.nextId + 1
      segs := s.cat.segs ++ [{ id := s.cat.nextId, q := q, seq := c.seq, cid := c.cid, volNo := c.volNo, dealloc := c.opc == opDealloc,
                               log2 := c.log2, lba := p.lba, nb := p.nb, be := p.be, beWords := c.beWords p.be, block := p.block, addr := p.addr }] }) s

/-- R464: a WRITE waits for room. -/
def State.catWait (s : State) (q : Nat) (c : CatCmd) : State := (s.putCmd q { c with waitRoom := some (c.waitRoom.getD s.now) }).noteLevels

/-- A command starts. -/
def State.catStart (s : State) (q : Nat) (c : CatCmd) : State :=
  if !(s.catQueue q).mayStart c then s
  else if c.opc = opFlush then s.putCmd q { c with phase := .running }
  else if c.opc = opDealloc then
    let c := { c with parts := c.split }
    (s.addSegs q c).catComplete q c 0 0
  else match s.storeAlloc c.len with
    | none => if c.opc = opWrite then s.catWait q c else s
    | some base =>
      let s := match c.waitRoom with
        | some t => s.count catCell (evOf 0x29 4) none (s.now - t)
        | none => s
      let c := { c with phase := .running, area := some (base, c.len), waitRoom := none }
      if c.opc = opRead then
        let parts := s.startParts c base
        let s := s.putCmd q { c with parts := parts }
        let r := s.issueParts q c parts.zipIdx
        r.2.putCmd q { c with parts := r.1 }
      else
        let c := { c with parts := c.split.map fun p => { p with addr := base + (p.lba - c.lba) * 2 ^ c.log2 } }
        let s := (s.putCmd q c).noteLevels
        if !c.inline.isEmpty then (s.devWrite base c.inline).2.putCmd q c
        else
          let r := s.catFetch q c base 0 c.segs
          r.2.putCmd q r.1

/-- R464, R473: the data of a WRITE is in the store, or could not be read (R507: its range keeps its earlier values). A poisoned source
leaves the old values or the new. -/
def State.finishWrite (s : State) (q : Nat) (c : CatCmd) : State :=
  let s := s.count catCell (evOf 0x29 3) none c.len
  match c.fail with
  | some (_, st, info) =>
    if c.lost then s.catComplete q c st info
    else
      let v := s.free 1
      (if v.1 = 1 then v.2.addSegs q c else v.2).catComplete q c st info
  | none => (s.addSegs q c).catComplete q c 0 0

/-- R465, R474: every part of a READ has ended. -/
def State.finishRead (s : State) (q : Nat) (c : CatCmd) : State :=
  let c := c.parts.foldl (fun (c : CatCmd) p => match p.state with
    | .failed st info => c.fails p.lba st info
    | _ => c) c
  let c := { c with phase := .moving }
  if c.lost then s.putCmd q c
  else
    let ps := s.cmdPieces c.log2 c.parts
    let r := ps.2.catDeliver q c ps.1 0 c.segs
    r.2.putCmd q r.1

/-- R467: a FLUSH: whether its covered writes have ended, and the backends that must still be flushed. -/
def State.advanceFlush (s : State) (q : Nat) (c : CatCmd) : State :=
  let x := s.catQueue q
  let open_ := (x.cmds.any fun d => decide (d.seq < c.seq) && (d.opc == opWrite || d.opc == opDealloc))
    || s.cat.segs.any fun g => g.q == q && decide (g.seq < c.seq)
  let bad := lowestFailure (x.failed.filter fun f => decide (f.seq < c.seq))
  if open_ then s
  else match c.fail with
    | some (_, st, info) =>
      if st = stDeferred then s.catComplete q c st info
      else match bad with
        | some f => s.catComplete q c stDeferred (beInfo f.be f.status)
        | none => s.catComplete q c st info
    | none =>
      let left := ((s.cat.nondur.filter fun n => n.q == q && decide (n.seq < c.seq)).map CatVolatile.be).dedup
      if left.isEmpty then
        match bad with
        | some f => s.catComplete q c stDeferred (beInfo f.be f.status)
        | none => s.catComplete q c 0 0
      else left.foldl (fun s be =>
        if s.cat.becmds.any fun b => b.be == be && b.owner == .flush q c.seq then s
        else
          let w := (s.catBackend be).words
          let r := s.beIssue be w opFlush c.volNo 0 1 0 0 q (.flush q c.seq)
          if r.1 = .unreachable then r.2.flushFail q c.seq stUnavailable be 0 else r.2) s

/-- One advance of a command. -/
def State.catStep (s : State) (q seq : Nat) : State :=
  match s.findCmd q seq with
  | none => s
  | some c => match c.phase with
    | .listing => if c.moves = 0 then s.catList q c else s
    | .ready => s.catStart q c
    | .running =>
      if c.opc = opFlush then s.advanceFlush q c
      else if c.opc = opWrite then (if c.moves = 0 then s.finishWrite q c else s)
      else
        let r := s.issueParts q c c.parts.zipIdx
        let c := { c with parts := r.1 }
        let s := r.2.putCmd q c
        if c.parts.all fun p => p.state != .idle && p.state != .issued then s.finishRead q c else s
    | .moving =>
      if c.moves ≠ 0 then s
      else
        let s := s.count catCell (evOf 0x29 2) none c.len
        match c.fail with
        | some (_, st, info) => s.catComplete q c st info
        | none => s.catComplete q c 0 0

/-! ## Queues -/

/-- R476: a queue becomes ENABLED. -/
def State.catQueueStart (s : State) (q : Nat) : State :=
  let t := s.catTables (s.fld F.CAT_Qq_CFG_VOLUME catCell q)
  let s := t.2.2
  s.setCatQueue q { s.catQueue q with vol := t.1, bes := t.2.1, flip := false, logSeq := 0, noRecords := false }

/-- R58, R476 to R478: a quiesce or reset completes. -/
def State.catQueueOff (s : State) (q : Nat) : State :=
  let s := (s.beStale q).setFld F.CAT_Qq_STATE_GEN catCell (s.fld F.CAT_Qq_STATE_GEN catCell q + 1) q
  let s := (s.setFlag F.CAT_Qq_STATE_QUIESCE_BUSY catCell false q).setFlag F.CAT_Qq_STATE_RESETTING catCell false q
  let s := s.setReg .CAT_Qq_PTR catCell 0 q
  let s := s.setCatQueue q { s.catQueue q with vol := [], bes := [], reading := false, flip := false, held := [] }
  if s.catEn q ∧ s.enabled catCell then s.catQueueStart q else s

/-- R476: the quiesce of a queue completes when every taken command has written its completion. -/
def State.catSettleQueue (s : State) (q : Nat) : State :=
  let x := s.catQueue q
  if q < 4096 ∧ s.catBusy q ∧ !s.catResetting q ∧ x.cmds.isEmpty ∧ x.records = 0 ∧ !x.reading then s.catQueueOff q else s

/-- R56, R476: a quiesce begins; a queue in FAULT has none, and stays in FAULT until it is reset (R55). -/
def State.catQuiesce (s : State) (q : Nat) : State :=
  if s.catBusy q ∨ (s.catQueue q).fault then s else (s.setFlag F.CAT_Qq_STATE_QUIESCE_BUSY catCell true q).catSettleQueue q

/-- R59, R476: a write of EN. -/
def State.catWriteEn (s : State) (q : Nat) (en : Bool) : State :=
  let was := s.catEn q
  let s := s.setFlag F.CAT_Qq_CTRL_EN catCell en q
  if en then (if !was ∧ !s.catBusy q ∧ !(s.catQueue q).fault ∧ s.enabled catCell then s.catQueueStart q else s)
  else if was ∧ s.enabled catCell then s.catQuiesce q else s

/-- R477, R479: a queue resets; without `records` no completion and no log entry is written, also where a reset is under way. FAULT
ends as the reset begins (log 75). -/
def State.catQueueReset (s : State) (q : Nat) (records : Bool) : State :=
  let x := s.catQueue q
  let x := { x with noRecords := x.noRecords || !records }
  if s.catResetting q then s.setCatQueue q x
  else
    let s := s.setFlag F.CAT_Qq_CTRL_EN catCell false q
    let s := (s.setFlag F.CAT_Qq_STATE_QUIESCE_BUSY catCell true q).setFlag F.CAT_Qq_STATE_RESETTING catCell true q
    let s := (s.count catCell (evOf 0x29 9)).beStale q
    let s := s.setCatQueue q { x with fault := false, held := x.held ++ x.cmds.filterMap CatCmd.area }
    x.cmds.foldl (fun s c => s.catComplete q c stReset 0) s

/-- R477: data moves for a queue. -/
def State.catMoves (s : State) (q : Nat) : Bool :=
  (s.pci.ops.any fun o => match o.purpose with
    | .catEntry k => k == q
    | .catList k _ => k == q
    | .catData k _ _ => k == q
    | .catOut k _ _ => k == q
    | _ => false)
  || s.trn.conns.any fun p => p.2.ops.any fun o => match o.origin with
    | .unit 0 k b => k == q && b % 4 != 3
    | _ => false

/-- R477: the reset of a queue completes. -/
def State.catResetDone (s : State) (q : Nat) : State :=
  if s.catResetting q ∧ !(s.cat.becmds.any fun b => b.q == q) ∧ !s.catMoves q then (s.catQueueOff q).event 0x40027001 else s

/-- One command row of the Catalogue: advance the command of slot `slot` as far as it goes. -/
def State.catAdvance (s : State) (q slot opc : Nat) : State :=
  match (s.catQueue q).cmds.find? fun c => c.slot == slot && c.opc == opc with
  | none => s
  | some c => (((s.catStep q c.seq).catStep q c.seq).catStep q c.seq).catSettleQueue q

/-! ## What other units bring -/

/-- An operation of a command's buffer that begins at a volume block has ended; `poison` is the first block whose data was poisoned.
That of a command which a reset has ended is discarded and counted (R60). -/
def State.catMoved (s : State) (q seq : Nat) (ok : Bool) (lba : CatCmd → Nat) (poison : CatCmd → Option Nat) : State :=
  match s.findCmd q seq with
  | none => s.count catCell 0x005
  | some c =>
    let c := { c with moves := c.moves - 1 }
    let c := match poison c with
      | some b => c.meetsPoison b
      | none => c
    s.putCmd q (if ok then c else c.losesHost (lba c))

/-- A segment list has arrived. -/
def State.catListed (s : State) (q seq : Nat) (bytes : Option (List Byte)) : State :=
  match s.findCmd q seq with
  | none => s.count catCell 0x005
  | some c =>
    let c := { c with moves := 0 }
    match bytes with
    | none => s.catComplete q c stAccessLost 0
    | some bs => s.catAccept q c (segsOf (wfield c.words 9 8 0) bs)

/-- Write data of a host buffer into the store line by line. -/
def State.storeBytes (s : State) (a : Nat) (bs : List Byte) (mark : Bool) : State := (s.devWrite a bs mark).2

/-- R507, R508: what a host access of the Catalogue brings. An entry whose read Bus Master Enable stopped is read again when it returns. -/
def State.catHost (s : State) (d : HostDone) : State :=
  match d.purpose with
  | .catEntry q =>
    let x := s.catQueue q
    if !x.reading then s
    else
      let s := s.setCatQueue q { x with reading := false }
      if s.catQState q ≠ 3 then s
      else if d.ok ∧ !d.poison then s.catEntry q d.bytes
      else if !s.fnBme (s.fld F.CAT_Qq_OWNER_PORT catCell q) (s.fld F.CAT_Qq_OWNER_FN catCell q) then s
      else (s.setCatQueue q { s.catQueue q with fault := true }).recordError catCell (if d.timeout then clsTimeout else clsLink) 0 0
  | .catList q seq => s.catListed q seq (if d.ok ∧ !d.poison then some d.bytes else none)
  | .catData q seq a =>
    let live := (s.findCmd q seq).isSome
    let s := if d.ok ∧ live then s.storeBytes a d.bytes d.poison else s
    let lba := fun (c : CatCmd) => c.blockOf (a - (c.area.getD (a, 0)).1)
    s.catMoved q seq d.ok lba fun c => if d.poison then some (lba c) else none
  | .catOut q seq lba => s.catMoved q seq d.ok (fun _ => lba) fun _ => none
  | .catRecord q | .catLogged q => s.setCatQueue q { s.catQueue q with records := (s.catQueue q).records - 1 }
  | _ => s

/-- The offset of the first poisoned line of a range of the store. -/
def State.storePoison (s : State) (a n : Nat) : Option Nat :=
  ((List.range (n / 64)).find? fun k => (s.readLine (a + 64 * k) false).poison).map (64 * ·)

/-- What a Transit operation of the Catalogue brings. -/
def State.catTransit (s : State) (d : TrnDone) : State :=
  if 0x10000 ≤ d.a then (if d.status = 0 then s else s.beEnd (d.a - 0x10000) d.b (some (stUnavailable, 0)) false)
  else
    let q := d.a
    let seq := d.b / 4 / 2 ^ 16
    let ok := d.status == 0
    let lba := fun (c : CatCmd) => c.lba + d.b / 4 % 2 ^ 16
    match d.b % 4 with
    | 1 => match s.findCmd q seq with
      | none => s.count catCell 0x005
      | some c =>
        let r := s.devRead (c.area.getD (0, 0)).1 (16 * wfield c.words 9 8 0)
        r.2.catListed q seq (match r.1 with
          | some (bs, false) => if ok then some bs else none
          | _ => none)
    | 3 => s.setFld F.CAT_Qq_PTR_CQ_HEAD catCell (s.fld F.CAT_Qq_PTR_CQ_TAIL catCell q) q
    | 0 => s.catMoved q seq ok lba fun c => c.area.bind fun a => (s.storePoison a.1 a.2).map c.blockOf
    | _ => s.catMoved q seq ok lba fun _ => none

/-- R481: an entry posted to the completion queue that the Catalogue consumes. -/
def State.catNotify (s : State) (cq : Nat) (e : List Word32) : State :=
  if !s.flag F.CAT_XCQ_EN catCell ∨ s.fld F.CAT_XCQ_CQ catCell ≠ cq then s
  else
    let s := s.setFld F.TRN_CQq_PTR_HEAD trnCell (s.fld F.TRN_CQq_PTR_TAIL trnCell cq) cq
    if wfield e 1 7 0 ≠ 0x10 then s
    else
      let imm := wfield e 3 31 0
      let q := bitsOf imm 27 16
      if s.catOwner q = 2 ∧ s.catConn q = wfield e 2 15 0 then s.setFld F.CAT_Qq_PTR_SQ_TAIL catCell (imm % 65536) q
      else s.recordError catCell clsProtocol 0 0

/-- Take up what host accesses and Transit operations have brought, and settle every queue. -/
def State.catConsume (s : State) : State :=
  let hs := s.pci.finished
  let s := hs.foldl (fun s d => s.catHost d) (s.setPci { s.pci with finished := [] })
  let ts := s.trn.finished.filter fun d => d.unit == 0
  let s := ts.foldl (fun s d => s.catTransit d) (s.setTrn { s.trn with finished := s.trn.finished.filter fun d => d.unit != 0 })
  let s := s.catConnsLost
  ((s.cat.queues.map Prod.fst).foldl (fun s q => s.catSettleQueue q) s).noteLevels

/-! ## The cell -/

/-- The cell becomes ENABLED, or leaves it. -/
def State.catCellUp (s : State) : State :=
  s.catEnQueues.foldl (fun s q => if s.catBusy q || (s.catQueue q).fault then s else s.catQueueStart q) s
def State.catCellDown (s : State) : State := s.catEnQueues.foldl (fun s q => s.catQuiesce q) s

/-- R483: every queue has completed its quiesce and the store holds no data for any backend. -/
def State.catIdle (s : State) : Bool :=
  s.cat.segs.isEmpty && s.catBusyQueues.isEmpty && s.cat.queues.all fun p => p.2.cmds.isEmpty

/-- R483: a reset of the cell: the store and every queue go, without completions. The generations stay, one higher; the results of what
is in flight are discarded. The commands of the internal queues end QUEUE_RESET for the feed lists and operations they serve (log 75). -/
def State.catReset (s : State) : State :=
  let gens := (List.range 4096).map fun q => (q, s.fld F.CAT_Qq_STATE_GEN catCell q + 1)
  let ended := s.cat.queues.flatMap fun p => if p.1 < 4096 then [] else p.2.cmds.map fun c => (p.1 - 4096, c.entry, stReset, 0)
  let s := s.setCat { s.cat with
    queues := s.cat.queues.map fun p => (p.1, { nextSeq := p.2.nextSeq })
    segs := [], nondur := [], turn := 4095
    becmds := s.cat.becmds.map fun b => { b with stale := true }
    moverDone := s.cat.moverDone ++ ended }
  let s := gens.foldl (fun s g =>
    (s.setReg .CAT_Qq_CTRL catCell 0 g.1).setReg .CAT_Qq_STATE catCell (BitVec.ofNat 64 (g.2 % 65536 * 2 ^ 16)) g.1) s
  s.event 0x40027001

/-- R459, R213, R579: a command of an internal queue, with its data where it is a WRITE of Ephemeris; false where no tag is free. -/
def State.catInternalCmd (s : State) (m entry opc volNo lba nb : Nat) (vol : List Word32) (bes : List (Nat × List Word32)) (buf n : Nat)
    (inline : List Byte := []) : Bool × State :=
  if !s.tagFree ∨ !s.enabled catCell then (false, s)
  else
    let q := catInternal m
    let x := s.catQueue q
    let ws := buildWords 16 [(0, 3, 0, opc), (0, 7, 4, 1), (2, 31, 0, lba), (3, 31, 0, lba / 2 ^ 32), (4, 15, 0, nb - 1), (6, 31, 0, buf),
      (7, 31, 0, buf / 2 ^ 32)]
    let c : CatCmd := { seq := x.nextSeq, slot := entry, words := ws, volNo := volNo, vol := vol, bes := bes, entry := entry, segs := [(buf, n)],
                        inline := inline }
    let s := (s.setCatQueue q { x with cmds := x.cmds ++ [c], nextSeq := x.nextSeq + 1 }).count catCell (evOf 0x29 0) (some opc)
    (true, match catCheck c (some [(buf, c.len)]) with
      | some (st, info) => s.catComplete q c st info
      | none => s)

/-- R459, R213: a mover submits a READ of blocks into a buffer on its internal queue; false where no tag is free. -/
def State.catMoverRead (s : State) (m entry volNo lba nb : Nat) (vol : List Word32) (bes : List (Nat × List Word32)) (buf n : Nat) :
    Bool × State := s.catInternalCmd m entry opRead volNo lba nb vol bes buf n

end Sys2Proof.Machine
end

