-- ==== Sys2Proof/Machine/Movers.lean ====
section
/-! DEFINITION. The movers (R198 to R208) and feed lists (R209 to R215). -/

namespace Sys2Proof.Machine

open Sys2Proof

def State.setMover (s : State) (m : Nat) (x : MoverState) : State := { s with movers := smapSet (fun _ => {}) s.movers m x }

def MovDesc.op (d : MovDesc) : Nat := wfield d.words 0 3 0
def MovDesc.cmplEn (d : MovDesc) : Bool := wfield d.words 0 8 8 == 1
def MovDesc.cmplAddr (d : MovDesc) : Nat := wlong d.words 2 % 2 ^ 48
def MovDesc.src (d : MovDesc) : Nat := wlong d.words 4 % 2 ^ 48
def MovDesc.dst (d : MovDesc) : Nat := wlong d.words 6 % 2 ^ 48
def MovDesc.rowBytes (d : MovDesc) : Nat := wfield d.words 8 31 0
def MovDesc.rows (d : MovDesc) : Nat := wfield d.words 9 31 0
def MovDesc.doneBit (d : MovDesc) : Nat := wfield d.words 1 31 0

/-- R203: the notice condition for a value. -/
def State.noticeOk (s : State) (m v : Nat) : Bool :=
  decide (0 ≤ (BitVec.ofNat 32 (s.fld F.MOV_NOTICE_COUNT_COUNT (moverCell m)) - BitVec.ofNat 32 v).toInt)

/-- R203: the head descriptor waits on its notice. -/
def State.movWaiting (s : State) (m : Nat) : Bool :=
  match (s.mover m).queue with
  | [] => false
  | d :: _ => (s.mover m).run.isNone && wfield d.words 0 9 9 == 1 && !s.noticeOk m (wfield d.words 12 31 0)

/-- `MOV_QUEUE_STATUS` as it reads. -/
def State.movStatus (s : State) (m : Nat) : Nat :=
  let n := (s.mover m).queue.length
  n + 2 ^ 8 * (decide (n = 0)).toNat + 2 ^ 9 * (decide (n = 32)).toNat + 2 ^ 10 * (s.mover m).run.isSome.toNat
    + 2 ^ 11 * (s.flag F.MOV_QUEUE_CTRL_PAUSE (moverCell m)).toNat + 2 ^ 12 * (s.movWaiting m).toNat

/-- R134, R198: queue a descriptor: the ticket, or 0 where the queue is full or the cell is resetting. -/
def State.movPush (s : State) (c : CoreRef) (m : Fin 64) (ws : List Word32) : Nat × State :=
  let cell := moverCell m.val
  let x := s.mover m.val
  if s.resetting cell ∨ 32 ≤ x.queue.length then (0, s)
  else
    let t := (s.reg .MOV_ISSUE_TICKET cell).toNat
    let d : MovDesc := { ticket := t, words := ws, issuer := c, phase := (s.core c).phase }
    let s := s.setMover m.val { x with queue := x.queue ++ [d] }
    (t, (s.setReg .MOV_ISSUE_TICKET cell (BitVec.ofNat 64 (t + 1))).noteLevels)

/-! ## Checks and completion -/

/-- The rows of a COPY or SWEEP from a base. -/
def MovDesc.extents (d : MovDesc) (base stride : Nat) : List (Nat × Nat) := (List.range d.rows).map fun i => (base + i * stride, d.rowBytes)

/-- The span of a strided extent: it lies wholly in one memory where the span does. -/
def MovDesc.span (d : MovDesc) (stride : Nat) : Nat := if d.rows = 1 then d.rowBytes else (d.rows - 1) * stride + d.rowBytes

/-- R207: the code of the first check a descriptor fails, 0 for none. -/
def State.movCheck (s : State) (d : MovDesc) : Nat :=
  let op := d.op
  let dome := d.issuer.isDome
  let ss := wfield d.words 10 31 0
  let ds := wfield d.words 11 31 0
  let strideBad := fun st => d.rows > 1 && (st % 64 != 0 || decide (st < d.rowBytes))
  let bad := fun a n => !extentOneQuad a n || !s.extentFree dome a n
  if op = 0 ∨ 3 < op ∨ wfield d.words 0 7 4 ≠ 1 then 0x01
  else if d.rows = 0 ∨ (op ≠ 3 ∧ (d.rowBytes = 0 ∨ d.rowBytes % 64 ≠ 0)) then 0x05
  else if d.src % 64 ≠ 0 ∨ (op = 1 ∧ d.dst % 64 ≠ 0) ∨ (d.cmplEn ∧ d.cmplAddr % 64 ≠ 0) ∨ (op ≠ 3 ∧ strideBad ss) ∨ (op = 1 ∧ strideBad ds) then 0x07
  else if (op = 3 ∧ bad d.src (32 * d.rows)) ∨ (op ≠ 3 ∧ bad d.src (d.span ss)) ∨ (op = 1 ∧ bad d.dst (d.span ds))
      ∨ (d.cmplEn ∧ bad d.cmplAddr 64) then 0x08
  else if !doneOk d.issuer d.doneBit then 0x0F
  else 0

/-- R206: the statuses. -/
def movProtocol : Nat := 1
def movFlushed : Nat := 2
def movMemory : Nat := 6
def movPort : Nat := 7
def movVolume : Nat := 8
def movFault : Nat := 9

/-- R205: the completion record. -/
def MovRun.record (r : MovRun) (now : Nat) : List Word32 :=
  let t := r.desc.ticket
  buildWords 16 [(0, 31, 0, t), (1, 31, 0, t / 2 ^ 32), (2, 7, 0, r.status), (2, 11, 8, r.desc.op), (2, 19, 12, r.refuse),
    (3, 31, 0, wfield r.desc.words 13 31 0), (4, 31, 0, r.bytes), (5, 31, 0, r.bytes / 2 ^ 32), (6, 31, 0, min r.poisonLines 0xFFFFFFFF),
    (7, 31, 0, r.corrected), (8, 31, 0, r.failEntry), (9, 31, 0, r.info), (10, 31, 0, r.startTime), (11, 31, 0, r.startTime / 2 ^ 32),
    (12, 31, 0, now), (13, 31, 0, now / 2 ^ 32)]

/-- R171, R204: the completion acts of a descriptor. -/
def State.movPost (s : State) (m : Nat) (r : MovRun) : State :=
  let cell := moverCell m
  let c := r.desc.issuer
  let s := s.writeRecord c.isDome r.desc.cmplEn r.desc.cmplAddr (r.record s.now) cell
  let s := s.setDone c r.desc.doneBit r.desc.cut
  (s.setReg .MOV_DONE_TICKET cell (BitVec.ofNat 64 r.desc.ticket)).count cell (evOf 0x16 2) (some r.status)

/-- A descriptor that occupies the mover. -/
def State.setRun (s : State) (m : Nat) (r : MovRun) : State := s.setMover m { s.mover m with run := some r }

/-- R207: a refusal. -/
def State.movRefuse (s : State) (m : Nat) (r : MovRun) (code : Nat) : State :=
  (s.setRun m { r with status := movProtocol, refuse := code, ended := true }).recordError (moverCell m) clsProtocol 0
    (code + r.desc.ticket % 2 ^ 24 * 2 ^ 8)

/-- R198, R203, R207: the head descriptor starts, if it has the operation asked for and nothing holds it back. -/
def State.movStart (s : State) (m op : Nat) (go : MovRun → State → State) : State :=
  let x := s.mover m
  match x.queue with
  | [] => s
  | d :: rest =>
    if d.op ≠ op ∧ !(op = 1 ∧ (d.op = 0 ∨ 3 < d.op)) then s
    else if x.run.isSome ∨ !x.flushed.isEmpty ∨ !s.enabled (moverCell m) ∨ s.flag F.MOV_QUEUE_CTRL_PAUSE (moverCell m) ∨ s.movWaiting m then s
    else
      let r : MovRun := { desc := d, startTime := s.now }
      let s := (s.setMover m { x with queue := rest, run := some r }).noteLevels
      let code := s.movCheck d
      if code ≠ 0 then s.movRefuse m r code else go r s

/-- R171, R204: the completion of the descriptor that has ended, or of the next flushed one. R205 gives no START_TIME for one that never
started: 0 (DESIGN CHOICE, log 74). -/
def State.movComplete (s : State) (m : Nat) : State :=
  let x := s.mover m
  match x.run with
  | some r => if r.ended then ((s.setMover m { x with run := none }).noteLevels).movPost m r else s
  | none => match x.flushed with
    | [] => s
    | d :: rest => (s.setMover m { x with flushed := rest }).movPost m { desc := d, startTime := 0, status := movFlushed }

/-- R137, R198: a flush; the descriptor that occupies the mover is not affected. -/
def State.movFlush (s : State) (m : Nat) : State :=
  let x := s.mover m
  (s.setMover m { x with queue := [], flushed := x.flushed ++ x.queue }).noteLevels

/-! ## COPY and SWEEP -/

/-- R200, R202: one line of a COPY. `old` is the state before the descriptor: where its own writes have changed the source line,
which of the two it holds is open. -/
def State.copyLine (s : State) (old : State) (src dst : Nat) : Bool × State :=
  let a := old.readLine src false
  let b := s.readLine src false
  let s := s.noteRead src b
  let pick : LineRead × State := if a.bytes = b.bytes ∧ a.poison = b.poison then (b, s)
    else
      let v := s.free 1
      (if v.1 = 1 then a else b, v.2)
  (pick.1.poison, pick.2.writeMem dst pick.1.bytes pick.1.poison 2)

/-- The lines of one row: the run, and whether memory failed. -/
def State.copyRow (s : State) (old : State) (m : Nat) (r : MovRun) (src dst : Nat) : (n : Nat) → MovRun × Bool × State
  | 0 => (r, false, s)
  | n + 1 =>
    if !s.memUp src 64 ∨ !s.memUp dst 64 then (r, true, s)
    else
      let c := moverCell m
      let w := s.copyLine old src dst
      let s := (w.2.count c (evOf 0x16 0) none 64).count c (evOf 0x16 1) none 64
      let s := if w.1 then s.count c (evOf 0x16 3) else s
      s.copyRow old m { r with bytes := r.bytes + 64, poisonLines := r.poisonLines + w.1.toNat } (src + 64) (dst + 64) n

def State.copyRows (s : State) (old : State) (m : Nat) (r : MovRun) : List (Nat × Nat) → State
  | [] => s.setRun m { r with ended := true }
  | (src, dst) :: rest =>
    let x := s.copyRow old m r src dst (r.desc.rowBytes / 64)
    if x.2.1 then x.2.2.setRun m { x.1 with status := movMemory, ended := true } else x.2.2.copyRows old m x.1 rest

/-- R200: a COPY. -/
def State.movCopy (s : State) (m : Nat) : State :=
  s.movStart m 1 fun r s =>
    let ss := wfield r.desc.words 10 31 0
    let ds := wfield r.desc.words 11 31 0
    s.copyRows s m r ((List.range r.desc.rows).map fun i => (r.desc.src + i * ss, r.desc.dst + i * ds))

/-- R38, R201, R602: one line of a SWEEP: whether it was corrected, whether it holds poison. -/
def State.sweepLine (s : State) (a : Nat) : Bool × Bool × State :=
  if !s.lineValid a then (false, false, s)
  else
    let r := s.readLine a true
    let s := s.noteRead a r
    if r.poison then (false, true, s)
    else if r.cls = clsEccCorr then (true, false, (s.copyOnWrite a).writeLine a r.bytes false)
    else (false, false, s)

def State.sweepRow (s : State) (m : Nat) (r : MovRun) (a : Nat) : (n : Nat) → MovRun × Bool × State
  | 0 => (r, false, s)
  | n + 1 =>
    if !s.memUp a 64 then (r, true, s)
    else
      let c := moverCell m
      let w := s.sweepLine a
      let s := w.2.2.count c (evOf 0x16 0) none 64
      let s := if w.2.1 then s.count c (evOf 0x16 3) else s
      s.sweepRow m { r with corrected := r.corrected + w.1.toNat, poisonLines := r.poisonLines + w.2.1.toNat } (a + 64) n

def State.sweepRows (s : State) (m : Nat) (r : MovRun) : List Nat → State
  | [] => s.setRun m { r with ended := true }
  | a :: rest =>
    let x := s.sweepRow m r a (r.desc.rowBytes / 64)
    if x.2.1 then x.2.2.setRun m { x.1 with status := movMemory, ended := true } else x.2.2.sweepRows m x.1 rest

/-- R201: a SWEEP. -/
def State.movSweep (s : State) (m : Nat) : State :=
  s.movStart m 2 fun r s =>
    s.sweepRows m r ((List.range r.desc.rows).map fun i => r.desc.src + i * wfield r.desc.words 10 31 0)

/-! ## Feed lists -/

def FeedEntry.kind (e : FeedEntry) : Nat := wfield e.words 0 3 0
def FeedEntry.port (e : FeedEntry) : Nat := wfield e.words 0 7 4
def FeedEntry.length (e : FeedEntry) : Nat := wfield e.words 1 31 0
def FeedEntry.local (e : FeedEntry) : Nat := wlong e.words 2 % 2 ^ 48
def FeedEntry.peer (e : FeedEntry) : Nat := wlong e.words 4
def FeedEntry.over (e : FeedEntry) : Bool := match e.status with
  | .done => true
  | .failed _ _ => true
  | _ => false

/-- R211: the number of the downstream port of an entry among the PCI Express ports. -/
def FeedEntry.pcie (e : FeedEntry) : Nat := 2 + e.port

/-- R215: the descriptor ends once every entry that was started has run to its end, with the earliest failure. -/
def State.feedSettle (s : State) (m : Nat) : State :=
  match (s.mover m).run with
  | none => s
  | some r =>
    if r.ended ∨ r.desc.op ≠ 3 ∨ !r.entries.all FeedEntry.over ∨ (r.entries.length < r.desc.rows ∧ !r.stopping) then s
    else
      let bad := (r.entries.zipIdx).findSome? fun p => match p.1.status with
        | .failed st info => some (p.2, st, info)
        | _ => none
      match bad with
      | none => s.setRun m { r with ended := true }
      | some (i, st, info) =>
        if st = movProtocol then (s.setRun m { r with failEntry := i }).movRefuse m { r with failEntry := i } info
        else s.setRun m { r with ended := true, status := st, info := info, failEntry := i }

/-- Replace entry i of the running list; a failed entry stops the list. -/
def State.putEntry (s : State) (m i : Nat) (e : FeedEntry) : State :=
  match (s.mover m).run with
  | none => s
  | some r =>
    let bad := match e.status with
      | .failed _ _ => true
      | _ => false
    (s.setRun m { r with entries := r.entries.set i e, stopping := r.stopping || bad }).feedSettle m

/-- R207, R209: the check an entry fails, 0 for none. -/
def State.entryCheck (s : State) (dome : Bool) (e : FeedEntry) : Nat :=
  let k := e.kind
  let data := k == 1 || k == 2
  if k = 0 ∨ 4 < k ∨ 7 < e.port then 0x10
  else
    let block := 2 ^ wfield (s.catTables (wfield e.words 6 15 0)).1 0 7 4
    if data ∧ (e.length % 64 ≠ 0 ∨ e.length = 0 ∨ e.local % 64 ≠ 0) then 0x11
    else if (k = 1 ∧ e.peer % 64 ≠ 0) ∨ (k = 3 ∧ e.peer % 4 ≠ 0) ∨ (k = 2 ∧ e.peer % block ≠ 0) then 0x11
    else if data ∧ (!extentOneQuad e.local e.length ∨ !s.extentFree dome e.local e.length) then 0x12
    else 0

/-- R210, R214: entry i of the list can start now. -/
def MovRun.mayStart (r : MovRun) (i : Nat) (e : FeedEntry) : Bool :=
  r.desc.op == 3 && !r.ended && !r.stopping && i == r.entries.length && decide (i < r.desc.rows)
    && (wfield e.words 0 8 8 == 0 || r.entries.all FeedEntry.over) && r.entries.all fun x => x.kind != 4 || x.over

/-- R187, R209: the entry of the running list at index i, as read: its words, whether its line was poisoned; none where memory failed.
One that lies in a ring in force reads 0. -/
def State.readEntry (s : State) (m i : Nat) : Option (List Word32 × Bool) × State :=
  match (s.mover m).run with
  | none => (none, s)
  | some r =>
    let a := r.desc.src + 32 * i
    let x := s.load a 32
    match x.1 with
    | .ok bs p => (some (wordsOf 8 bs, p), x.2)
    | .ring => (some (wordsOf 8 (List.replicate 32 0), false), x.2)
    | _ => (none, x.2)

/-- R210: the mover reaches entry i, of kind `kind`; where it may start, `go` starts it. -/
def State.feedReach (s : State) (m i kind : Nat) (go : FeedEntry → State → State) : State :=
  match (s.mover m).run with
  | none => s
  | some r =>
    if r.desc.op ≠ 3 ∨ r.ended ∨ r.stopping ∨ i ≠ r.entries.length ∨ r.desc.rows ≤ i then s
    else
      let x := s.readEntry m i
      let place := fun (s : State) (r : MovRun) (e : FeedEntry) => s.setRun m { r with entries := r.entries ++ [e] }
      match x.1 with
      | none => ((place s r ⟨[], .running, 0, 0, none⟩)).putEntry m i ⟨[], .failed movMemory 0, 0, 0, none⟩
      | some (ws, p) =>
        let e : FeedEntry := { words := ws, status := .running }
        let code := s.entryCheck r.desc.issuer.isDome e
        let mine := e.kind == kind || (code == 0x10 && kind == 1)
        if !mine ∨ !r.mayStart i e then s
        else
          let r := { r with poisonLines := r.poisonLines + p.toNat }
          let s := place x.2 r e
          if code ≠ 0 then s.putEntry m i { e with status := .failed movProtocol code } else go e s

/-- R211: the Memory Writes of a PUSH: n bytes from `a` to `peer`, cut at the Max_Payload_Size and at 4 KiB of PEER. How many bytes have
not been sent, since a memory cell failed, and the poisoned lines carried. -/
def State.pushBytes (s : State) (m port mps a peer n poison : Nat) : (fuel : Nat) → Nat × Nat × State
  | 0 => (n, poison, s)
  | k + 1 =>
    let len := min n (min mps (4096 - peer % 4096))
    if n = 0 ∨ !s.memUp a len then (n, poison, s)
    else
      let r := s.readMem a len (len / 64 + 2)
      let lines := ((List.range (len / 64)).filter fun i => (s.readLine (a + 64 * i) false).poison).length
      let s := r.2.2.sendTlp
        { port := port, fn := 0, kind := .memWrite, addr := peer, len := len, bytes := r.1, ep := r.2.1 }
      s.pushBytes m port mps (a + len) (peer + len) (n - len) (poison + lines) k

/-- R66: the class INFO names for a port that is contained, down or without its device (log 37). -/
def portLostInfo : Nat := clsLink

/-- R211: FEED_PUSH. -/
def State.feedPush (s : State) (m i : Nat) : State :=
  s.feedReach m i 1 fun e s =>
    if !s.dpUp e.pcie then s.putEntry m i { e with status := .failed movPort portLostInfo }
    else
      let mps := 128 * 2 ^ min 5 (bitsOf (s.cfg e.pcie 0 0x68) 7 5)
      let x := s.pushBytes m e.pcie mps e.local e.peer e.length 0 (e.length / 64 + 1)
      let sent := e.length - x.1
      let s := match (x.2.2.mover m).run with
        | some r => x.2.2.setRun m { r with bytes := r.bytes + sent, poisonLines := r.poisonLines + x.2.1 }
        | none => x.2.2
      let c := moverCell m
      let s := ((s.count c (evOf 0x16 0) none sent).count c (evOf 0x16 1) none sent).count c (evOf 0x16 3) none x.2.1
      s.putEntry m i { e with status := if x.1 = 0 then .done else .failed movMemory 0 }

/-- R213: ask for what a VOLUME entry still lacks, and end it once every command has completed. -/
def State.volumePump (s : State) (m i : Nat) (e : FeedEntry) (vol : List Word32) (bes : List (Nat × List Word32)) : (fuel : Nat) → State
  | 0 => s
  | k + 1 =>
    if e.pos < e.length ∧ e.bad.isNone then
      let block := 2 ^ wfield vol 0 7 4
      let n := min (e.length - e.pos) (65536 * block)
      let nb := (n + block - 1) / block
      let r := s.catMoverRead m i (wfield e.words 6 15 0) ((e.peer + e.pos) / block) nb vol bes (e.local + e.pos) n
      if r.1 then
        let e := { e with pos := e.pos + n, busy := e.busy + 1 }
        (r.2.putEntry m i e).volumePump m i e vol bes k
      else r.2
    else s

/-- R213: an ended command of a mover's internal queue reaches its entry. R206: one whose data could not be written to LOCAL says that a
memory cell failed. -/
def State.movTakeOne (s : State) (d : Nat × Nat × Nat × Nat) : State :=
  let (m, i, st, _) := d
  match (s.mover m).run with
  | none => s
  | some r => match r.entries[i]? with
    | none => s
    | some e =>
      if e.kind ≠ 2 ∨ e.busy = 0 ∨ r.ended then s
      else
        let e := { e with busy := e.busy - 1, bad := if st = 0 then e.bad else some (e.bad.getD st) }
        if e.busy ≠ 0 ∨ (e.pos < e.length ∧ e.bad.isNone) then s.putEntry m i e
        else match e.bad with
          | some st => s.putEntry m i { e with status := if st = stAccessLost then .failed movMemory 0 else .failed movVolume st }
          | none =>
            let n := ((List.range (e.length / 64)).filter fun j => (s.readLine (e.local + 64 * j) false).poison).length
            let s := (s.setRun m { r with poisonLines := r.poisonLines + n }).count (moverCell m) (evOf 0x16 3) none n
            s.putEntry m i { e with status := .done }

/-- Take up the ended commands of the internal queues. -/
def State.movTake (s : State) : State :=
  let ds := s.cat.moverDone.filter fun d => d.1 != ephMover
  ds.foldl (fun s d => s.movTakeOne d) (s.setCat { s.cat with moverDone := s.cat.moverDone.filter fun d => d.1 == ephMover })

/-- R213: FEED_VOLUME: the entry starts, or goes on asking. -/
def State.feedVolume (s : State) (m i : Nat) : State :=
  let go := fun (e : FeedEntry) (s : State) =>
    let t := s.catTables (wfield e.words 6 15 0)
    (t.2.2.volumePump m i e t.1 t.2.1 (e.length / 2 ^ 25 + 2)).movTake
  match ((s.mover m).run.bind fun r => r.entries[i]?) with
  | some e => if e.kind = 2 ∧ e.status = .running ∧ !(s.mover m).run.any MovRun.ended then go e s else s
  | none => s.feedReach m i 2 go

/-- R212: FEED_FLUSH: the read is sent; one of a mover is outstanding on a port at a time. -/
def State.feedFlush (s : State) (m i : Nat) : State :=
  s.feedReach m i 3 fun e s =>
    if !s.dpUp e.pcie then s.putEntry m i { e with status := .failed movPort portLostInfo }
    else s.sendTlp { port := e.pcie, fn := 0, kind := .memRead, addr := e.peer, tag := m }

/-- R212: the read of a FLUSH ends: `info` is 0 for Successful Completion, else the class INFO names (log 37). -/
def State.flushEnd (s : State) (m i info : Nat) : State :=
  match ((s.mover m).run.bind fun r => r.entries[i]?) with
  | some e =>
    if e.kind = 3 ∧ e.status = .running then
      s.putEntry m i { e with status := if info = 0 then .done else .failed movPort info }
    else s
  | none => s

/-- R214: FEED_WAIT: the entry starts; it completes once its notice condition holds. -/
def State.feedWait (s : State) (m i : Nat) : State :=
  let go := fun (e : FeedEntry) (s : State) => if s.noticeOk m e.length then s.putEntry m i { e with status := .done } else s
  match ((s.mover m).run.bind fun r => r.entries[i]?) with
  | some e => if e.kind = 4 ∧ e.status = .running then go e s else s
  | none => s.feedReach m i 4 go

/-- The number of a mover whose cell is given. -/
def moverOf (cell : Nat) : Nat := (cellDie cell - 2) * 16 + cellMember cell - 1

/-- R215, R518: a port is lost: the FLUSH entries that wait on it fail. -/
def State.movPortLost (s : State) (port : Nat) : State :=
  (s.movers.map Prod.fst).foldl (fun s m =>
    let es := ((s.mover m).run.map MovRun.entries).getD []
    (es.zipIdx.filter fun p => p.1.kind == 3 && p.1.status == .running && p.1.pcie == port).foldl
      (fun s p => s.flushEnd m p.2 portLostInfo) s) s

/-- R208, R213: the commands of a mover's internal queue are discarded; the results of what has been issued for them too (R60). -/
def State.movDropReads (s : State) (m : Nat) : State :=
  let q := catInternal m
  let s := (s.beStale q).setCatQueue q { s.catQueue q with cmds := [] }
  s.setCat { s.cat with moverDone := s.cat.moverDone.filter fun d => d.1 != m }

/-- R208: the cell enters FAULT: the descriptor that occupies the mover ends, and writes nothing more. -/
def State.movFaulted (s : State) (m : Nat) : State :=
  match (s.mover m).run with
  | none => s
  | some r => if r.ended then s else (s.movDropReads m).setRun m { r with ended := true, status := movFault, stopping := true }

/-- R208: a reset of the cell: its descriptors are discarded and the tickets restart. -/
def State.movReset (s : State) (m : Nat) : State :=
  let s := (s.setMover m {}).movDropReads m
  ((s.setReg .MOV_ISSUE_TICKET (moverCell m) 1).setReg .MOV_DONE_TICKET (moverCell m) 0).noteLevels

/-- R206: a memory cell has failed: running feed lists end at their next access; nothing is in flight between commands. -/
def State.movBusy (s : State) (m : Nat) : Bool := (s.mover m).run.isSome

def execMoverCopy (m : Fin 64) (s : State) : Out := .next (s.movCopy m.val)
def execMoverSweep (m : Fin 64) (s : State) : Out := .next (s.movSweep m.val)

/-- R209: a FEED starts; its entries follow. -/
def execMoverFeed (m : Fin 64) (s : State) : Out := .next (s.movStart m.val 3 fun _ s => s)
def execMoverComplete (m : Fin 64) (s : State) : Out := .next (if s.stopped then s else s.movTake.movComplete m.val)
def execFeedPush (m : Fin 64) (entry : Nat) (s : State) : Out := .next (if s.stopped then s else s.feedPush m.val entry)
def execFeedVolume (m : Fin 64) (entry : Nat) (s : State) : Out := .next (if s.stopped then s else s.movTake.feedVolume m.val entry)
def execFeedFlush (m : Fin 64) (entry : Nat) (s : State) : Out := .next (if s.stopped then s else s.feedFlush m.val entry)
/-- R212: a completion returns for the read of a FLUSH that is under way. -/
def State.flushAnswer (s : State) (m i : Nat) (ok : Bool) : State :=
  match ((s.mover m).run.bind fun r => r.entries[i]?) with
  | some e => if e.kind = 3 ∧ e.status = .running then (s.noteTlp e.pcie 0).flushEnd m i (if ok then 0 else clsProtocol) else s
  | none => s

def execFeedFlushCompletion (m : Fin 64) (entry : Nat) (ok : Bool) (s : State) : Out :=
  .next (if s.stopped then s else s.flushAnswer m.val entry ok)
def execFeedWait (m : Fin 64) (entry : Nat) (s : State) : Out := .next (if s.stopped then s else s.feedWait m.val entry)

end Sys2Proof.Machine
end

