-- ==== Sys2Proof/Machine/Ephemeris.lean ====
section
/-! DEFINITION. Ephemeris (chapter 18): the job (R569, R570), epochs (R571, R574), the command ring (R575 to R578), the drain and
its commit (R579 to R584), the warnings (R585), rollback and restore (R586, R587), quiesce and reset (R589). -/

namespace Sys2Proof.Machine

open Sys2Proof

def State.setEph (s : State) (x : EphState) : State := { s with eph := x }

/-- The status codes of R577. -/
def ephOk : Nat := 0
def ephProtocol : Nat := 1
def ephBusy : Nat := 2
def ephNoEpoch : Nat := 3
def ephNoStep : Nat := 4
def ephDestError : Nat := 5
def ephMemoryFault : Nat := 6
def ephPoisoned : Nat := 7
def ephAbandoned : Nat := 8

/-! ## The job -/

def roundUp (n k : Nat) : Nat := (n + k - 1) / k * k

/-- R569: fields of a job descriptor. -/
def jobRegions (w : List Word32) : List (Nat × Nat) :=
  (List.range (wfield w 0 10 4)).map fun r => (wlong w (16 + 4 * r) % 2 ^ 48, wlong w (18 + 4 * r))
def jobBytes (w : List Word32) : Nat := ((jobRegions w).map Prod.snd).sum
def jobSnap (w : List Word32) : Nat := wlong w 4 % 2 ^ 48
def jobMembers (w : List Word32) : Nat := wfield w 2 24 12
def jobShardSize (w : List Word32) : Nat := 65536 * 2 ^ wfield w 0 14 11
def jobShards (w : List Word32) : Nat := (jobBytes w + jobShardSize w - 1) / jobShardSize w
def jobDestOn (w : List Word32) (d : Nat) : Bool := wfield w 0 (15 + d) (15 + d) == 1

/-- R581: where the shard table of a manifest starts, and the manifest's length. -/
def tableOff (members : Nat) : Nat := roundUp (128 + 4 * members) 64
def manifestBytes (w : List Word32) : Nat := tableOff (jobMembers w) + 64 * jobShards w

/-- R580: the shard offset. -/
def shardOff (w : List Word32) : Nat := roundUp (4096 + manifestBytes w) 65536

/-- R579: the length of shard i. -/
def shardLen (w : List Word32) (i : Nat) : Nat := min (jobShardSize w) (jobBytes w - i * jobShardSize w)

/-- Two extents share a byte. -/
def overlaps (a n b m : Nat) : Bool := decide (a < b + m) && decide (b < a + n)

/-- R570, R652: a region, or the snapshot area, that may be used. -/
def State.jobExtent (s : State) (a n : Nat) : Bool :=
  a % 65536 == 0 && n % 65536 == 0 && n != 0 && inStack a && inStack (a + n - 1) && s.extentFree (s.domePosted jobKey 0) a n

/-- No two extents of a list overlap. -/
def disjoint : List (Nat × Nat) → Bool
  | [] => true
  | r :: rs => (rs.all fun t => !overlaps r.1 r.2 t.1 t.2) && disjoint rs

/-- R570: the first words of a descriptor are in range. -/
def jobShape (w : List Word32) : Bool :=
  wfield w 0 3 0 == 1 && decide (1 ≤ wfield w 0 10 4 ∧ wfield w 0 10 4 ≤ 64) && decide (wfield w 0 14 11 ≤ 14) && wfield w 0 31 17 == 0
    && decide (wfield w 2 11 0 < jobMembers w ∧ jobMembers w ≤ 4096) && wfield w 2 31 25 == 0
    && decide (wfield w 3 11 0 < jobMembers w) && wfield w 3 31 12 == 0 && wfield w 5 31 16 == 0 && wfield w 7 31 16 == 0
    && (jobDestOn w 0 || jobDestOn w 1)

/-- R570: the rest of the checks. -/
def State.jobOk (s : State) (w : List Word32) : Bool :=
  let rs := jobRegions w
  let p := jobBytes w
  (List.range (wfield w 0 10 4)).all (fun r => wfield w (17 + 4 * r) 31 16 == 0) && rs.all (fun r => s.jobExtent r.1 r.2)
    && s.jobExtent (jobSnap w) p && disjoint ((jobSnap w, p) :: rs) && decide (p ≤ 2 ^ 38) && decide (shardOff w + p ≤ wlong w 14)

/-- A read of a structure: its bytes, none where the read fails or returns poison. -/
def State.ephBytes (s : State) (a n : Nat) : Option (List Byte) × State :=
  match s.devRead a n with
  | (some (bs, false), s) => (some bs, s)
  | (_, s) => (none, s)

/-- R570: read and check the job descriptor. -/
def State.jobRead (s : State) : Option (List Word32) × State :=
  let base := 64 * s.fld F.EPH_JOB_BASE ephCell
  match s.ephBytes base 64 with
  | (none, s) => (none, s)
  | (some bs, s) =>
    let w := wordsOf 16 bs
    if !jobShape w then (none, s)
    else match s.ephBytes base (64 + 16 * wfield w 0 10 4) with
      | (none, s) => (none, s)
      | (some bs, s) =>
        let w := wordsOf (16 + 4 * wfield w 0 10 4) bs
        if !s.jobOk w then (none, s)
        else match s.ephBytes (wlong w 6 % 2 ^ 48) (4 * jobMembers w) with
          | (none, s) => (none, s)
          | (some _, s) => (some w, s)

/-- R569: the address of granule g of the protected set. -/
def granuleAddr : List (Nat × Nat) → Nat → Nat
  | [], _ => 0
  | (b, l) :: rs, g => if g < l / 65536 then b + 65536 * g else granuleAddr rs (g - l / 65536)

/-! ## Epochs -/

/-- R574: the retained epoch ends. -/
def State.epochEnd (s : State) : State :=
  (({ s with epoch := { broken := s.epoch.broken } } : State).setReg .EPH_EPOCH_STEP ephCell 0).noteLevels

/-- `EPH_EPOCH_STEP` as it reads. -/
def State.epochStep (s : State) : Nat := if s.epoch.retained then s.fld F.EPH_EPOCH_STEP_STEP ephCell else 0

/-- `EPH_STATUS` as it reads. -/
def State.ephStatus (s : State) : Nat :=
  putBits (putBits (putBits (s.reg .EPH_STATUS ephCell).toNat 0 0 s.epoch.retained.toNat) 1 1 s.eph.drain.isSome.toNat)
    2 2 s.eph.restore.isSome.toNat

/-! ## Operations on the destinations -/

/-- The byte offset of a slot of a destination. -/
def slotBase (w : List Word32) (d slot : Nat) : Nat := wlong w (10 + 2 * d) + slot * wlong w 14

/-- R579: the operations of Ephemeris that hold a tag. -/
def State.ephTags (s : State) : Nat :=
  (match s.eph.drain with
    | some dr => (dr.dests.map fun d => match d with
        | some d => d.out.length
        | none => 0).sum
    | none => 0)
  + (match s.eph.read with
    | some r => if r.id.isSome then 1 else 0
    | none => 0)

def State.ephTagFree (s : State) : Bool := s.tagFree && decide (s.ephTags < 256)

/-- The number of the next operation. -/
def State.ephId (s : State) : Nat × State := (s.eph.nextId, s.setEph { s.eph with nextId := s.eph.nextId + 1 })

/-- The outcome of an attempt to start an operation: its number; that it must wait for a tag; that it cannot run. -/
inductive EphStart where
  | started (id : Nat)
  | wait
  | failed
  deriving DecidableEq, Repr

/-- A command of the internal Catalogue queue. Byte offsets and lengths are taken in whole blocks (log 42). -/
def State.ephCat (s : State) (opc off len : Nat) (bs : List Byte) : EphStart × State :=
  let w := s.eph.job
  let volNo := wfield w 8 15 0
  let t := s.catTables volNo
  let s := t.2.2
  if !volValid t.1 ∨ !s.enabled catCell then (.failed, s)
  else if !s.ephTagFree then (.wait, s)
  else
    let block := 2 ^ wfield t.1 0 7 4
    let nb := max 1 ((len + block - 1) / block)
    let (id, s) := s.ephId
    let r := s.catInternalCmd ephMover id opc volNo (off / block) nb t.1 t.2.1 0 (nb * block) (padBytes (if opc = opWrite then nb * block else 0) bs)
    (if r.1 then .started id else .wait, r.2)

/-- A Transit WRITE or READ of the buddy area. -/
def State.ephBuddy (s : State) (off len : Nat) (bs : Option (List Byte)) : EphStart × State :=
  let w := s.eph.job
  let c := wfield w 8 31 16
  if s.connPstate c ≠ psConnected then (.failed, s)
  else if !s.ephTagFree then (.wait, s)
  else
    let key := wfield w 9 31 0
    let pm := (s.conn c).pmtu
    let (id, s) := s.ephId
    (.started id, match bs with
      | some bs => s.startWrite c (.unit 1 id 0) key off 0 false ((cutMessage pm bs (len / pm + 1)).map fun p => (p, false))
      | none => s.startRead c (.unit 1 id 0) key off len 0 0 0)

/-- A write of bytes to a destination, at an offset of a slot. -/
def State.ephWrite (s : State) (d slot off : Nat) (bs : List Byte) : EphStart × State :=
  let a := slotBase s.eph.job d slot + off
  if d = 0 then s.ephCat opWrite a bs.length bs else s.ephBuddy a bs.length (some bs)

/-! ## Reading the destinations -/

/-- Begin to read len bytes at an offset of a slot. -/
def State.ephReadFrom (s : State) (src slot off len : Nat) : State :=
  s.setEph { s.eph with read := some { src := src, off := slotBase s.eph.job src slot + off, len := len } }

/-- Ask for the next piece of a read. -/
def State.ephReadStep (s : State) (r : EphRead) : State :=
  let pos := r.data.length
  let n := min 65536 (r.len - pos)
  let s := s.setEph { s.eph with rx := [], rxPoison := false }
  let x := if r.src = 0 then s.ephCat opRead (r.off + pos) n [] else s.ephBuddy (r.off + pos) n none
  match x.1 with
  | .started id => x.2.setEph { x.2.eph with read := some { r with id := some id } }
  | .wait => x.2
  | .failed => x.2.setEph { x.2.eph with read := some { r with failed := true } }

/-- A read is over: it has all its bytes, or has failed. -/
def EphRead.isOver (r : EphRead) : Bool := r.failed || decide (r.len ≤ r.data.length)

/-- The piece outstanding of a read has ended. -/
def State.ephPiece (s : State) (r : EphRead) (ok : Bool) : State :=
  let n := min 65536 (r.len - r.data.length)
  let bs := padBytes n s.eph.rx
  s.setEph { s.eph with
    read := some (if ok then { r with data := r.data ++ bs, poison := r.poison || s.eph.rxPoison, id := none } else { r with failed := true, id := none })
    rx := []
    rxPoison := false }

/-- R582: fields of a commit record and of a manifest. -/
def recordShape (bs : List Byte) : Bool :=
  leNat (bs.take 4) == 0x54435045 && leNat (bs.drop 16 |>.take 8) == 2 ^ 64 - 1 - leNat (bs.drop 8 |>.take 8)
def recordStep (bs : List Byte) : Nat := leNat (bs.drop 8 |>.take 8)
def recordManifest (bs : List Byte) : Nat := leNat (bs.drop 4 |>.take 4)

/-- R582: a commit record and its manifest are valid for a job. -/
def recordValid (w : List Word32) (rec man : List Byte) : Bool :=
  let f := fun i n => leNat (man.drop i |>.take n)
  sha384 man == (rec.drop 24 |>.take 48) && f 0 4 == 0x4D485045 && f 4 4 == 1 && f 16 8 == recordStep rec && f 8 4 == wfield w 1 31 0
    && f 12 2 % 4096 == wfield w 2 11 0 && f 24 8 == jobBytes w && f 36 4 == wfield w 0 14 11

/-- R581: the digest of shard i in a manifest. -/
def manifestDigest (man : List Byte) (i : Nat) : List Byte :=
  man.drop (tableOff (leNat (man.drop 14 |>.take 2) % 8192) + 64 * i + 16) |>.take 48

/-- R582: the read of a scan is over: a record, or the manifest it names. -/
def State.scanFeed (s : State) (sc : EphScan) (r : EphRead) : State :=
  let skip := { sc with todo := sc.todo.drop 1, record := none, invalid := sc.invalid + 1 }
  let sc := match sc.record, sc.todo with
    | _, [] => sc
    | none, _ => if r.failed ∨ r.poison ∨ !recordShape r.data then skip else { sc with record := some r.data }
    | some rec, (src, slot) :: rest =>
      if r.failed ∨ r.poison ∨ !recordValid s.eph.job rec r.data then skip
      else { sc with todo := rest, record := none, cands := sc.cands ++ [⟨src, slot, recordStep rec, r.data⟩] }
  s.setEph { s.eph with scan := some sc, read := none }

/-- R570: the commits noted at enable: of each destination the newest. -/
def State.noteCommits (s : State) (cands : List EphCand) : State :=
  cands.foldl (fun (s : State) c =>
    if s.flag F.EPH_DESTd_STATE_VALID ephCell c.src ∧ c.step ≤ s.fld F.EPH_DESTd_COMMIT_STEP ephCell c.src then s
    else
      let s := s.setFld F.EPH_DESTd_COMMIT_STEP ephCell c.step c.src
      (s.setFlag F.EPH_DESTd_STATE_VALID ephCell true c.src).setFld F.EPH_DESTd_STATE_SLOT ephCell c.slot c.src) s

/-! ## Entries -/

/-- The address of the entry at HEAD. -/
def State.ephEntryAt (s : State) : Nat :=
  ringAt (4096 * s.fld F.EPH_CMDQ_CFG_BASE ephCell) (s.fld F.EPH_CMDQ_CFG_SIZE_LOG2 ephCell) 64 (s.fld F.EPH_CMDQ_PTR_HEAD ephCell)

/-- R575, R576: an entry completes: words 8 to 15 are written as one, HEAD advances, and NOTIFY_BIT is set. -/
def State.ephAnswer (s : State) (fs : List (Nat × Nat × Nat × Nat)) : State :=
  let s := (s.devWrite (s.ephEntryAt + 32) (bytesOf (buildWords 8 fs))).2
  let s := s.setFld F.EPH_CMDQ_PTR_HEAD ephCell ((s.fld F.EPH_CMDQ_PTR_HEAD ephCell + 1) % 65536)
  s.notifyBit (s.fld F.EPH_CMDQ_PTR_NOTIFY_BIT ephCell)

/-- R575: a 64-bit field of the answer. -/
def ans64 (w v : Nat) : List (Nat × Nat × Nat × Nat) := [(w, 31, 0, v), (w + 1, 31, 0, v / 2 ^ 32)]

/-- R575, R577: a RESTORE completes. -/
def State.restoreEnd (s : State) (r : EphRestore) (status step : Nat) : State :=
  let other := if status = ephOk then ((r.cands.filter fun c => c.step != step).length) * jobShards s.eph.job else 0
  let s := (s.setEph { s.eph with restore := none, scan := none, read := none }).count ephCell (evOf 0x2D 9) (some status)
  s.ephAnswer ([(0, 7, 0, status), (1, 15, 0, r.invalid), (4, 31, 0, r.used), (5, 31, 0, other), (6, 31, 0, r.failed)]
    ++ ans64 2 (if status = ephOk then step else 0))

/-- The distinct steps of a list, newest first. -/
def stepsOf (l : List Nat) : List Nat := (l.dedup.mergeSort fun a b => decide (b ≤ a))

/-- R569: write a shard to the protected set, granule by granule; whether every write took effect. -/
def State.shardWrite (s : State) (rs : List (Nat × Nat)) (g : Nat) : (n : Nat) → List Byte → Bool × State
  | 0, _ => (true, s)
  | n + 1, bs =>
    let w := s.devWrite (granuleAddr rs g) (bs.take 65536)
    if w.1 then w.2.shardWrite rs (g + 1) n (bs.drop 65536) else (false, w.2)

/-- R587: the read of a copy of a shard is over. -/
def State.restoreFeed (s : State) (x : EphRestore) (r : EphRead) : State :=
  match x.tries with
  | some (c :: rest) =>
    if !r.failed ∧ !r.poison ∧ sha384 r.data = manifestDigest c.manifest x.shard then
      let w := s.eph.job
      let g := x.shard * jobShardSize w / 65536
      let y := s.shardWrite (jobRegions w) g (r.data.length / 65536) r.data
      let s := y.2.setEph { y.2.eph with read := none, restore := some { x with shard := x.shard + 1, tries := none, used := x.used + 1 } }
      if y.1 then s else s.restoreEnd { x with used := x.used + 1 } ephMemoryFault 0
    else s.setEph { s.eph with read := none, restore := some { x with tries := some rest, failed := x.failed + 1 } }
  | _ => s.setEph { s.eph with read := none }

/-- R587: the next move of a RESTORE whose reads are over. -/
def State.restoreNext (s : State) (x : EphRestore) : State :=
  match x.steps with
  | [] =>
    let s := s.restoreEnd x ephNoStep 0
    { s with epoch := { s.epoch with broken := jobRegions s.eph.job } }
  | t :: rest =>
    if jobShards s.eph.job ≤ x.shard then
      let s := s.restoreEnd x ephOk t
      { s with epoch := { s.epoch with broken := [] } }
    else match x.tries with
      | none => s.setEph { s.eph with restore := some { x with tries := some (x.cands.filter fun c => c.step == t) } }
      | some [] => s.setEph { s.eph with restore := some { x with steps := rest, shard := 0, tries := none } }
      | some (c :: _) => s.ephReadFrom c.src c.slot (shardOff s.eph.job + x.shard * jobShardSize s.eph.job) (shardLen s.eph.job x.shard)

/-- The next move of a scan whose reads are over. -/
def State.scanNext (s : State) (sc : EphScan) : State :=
  match sc.todo with
  | (src, slot) :: _ =>
    (match sc.record with
      | none => s.ephReadFrom src slot 0 128
      | some rec => s.ephReadFrom src slot 4096 (recordManifest rec))
  | [] =>
    let s := s.setEph { s.eph with scan := none }
    match s.eph.restore with
    | none => s.noteCommits sc.cands
    | some x =>
      let cands := sc.cands.filter fun c => decide (c.step ≤ x.maxStep)
      s.setEph { s.eph with restore := some { x with invalid := sc.invalid, cands := cands, steps := stepsOf (cands.map EphCand.step) } }

/-- Go on with the scan or restore under way until it waits. -/
def State.ephGo (s : State) : (fuel : Nat) → State
  | 0 => s
  | fuel + 1 =>
    match s.eph.read with
    | some r =>
      if r.id.isSome then s
      else if r.isOver then
        (match s.eph.scan, s.eph.restore with
          | some sc, _ => s.scanFeed sc r
          | none, some x => s.restoreFeed x r
          | none, none => s.setEph { s.eph with read := none }).ephGo fuel
      else
        let s2 := s.ephReadStep r
        match s2.eph.read with
        | some r2 => if r2 = r then s2 else s2.ephGo fuel
        | none => s2
    | none =>
      match s.eph.scan, s.eph.restore with
      | some sc, _ => (s.scanNext sc).ephGo fuel
      | none, some x => (s.restoreNext x).ephGo fuel
      | none, none => s

/-! ## The drain -/

def State.setDrain (s : State) (d : EphDrain) : State := s.setEph { s.eph with drain := some d }

/-- The destination of a drain that still runs. -/
def EphDrain.live (dr : EphDrain) (d : Nat) : Option EphDest :=
  match dr.dests.getD d none with
  | some x => if x.phase = .ended then none else some x
  | none => none

def EphDrain.put (dr : EphDrain) (d : Nat) (x : EphDest) : EphDrain := { dr with dests := dr.dests.set d (some x) }

/-- R583, R584: a destination ends with a status; a commit is noted. -/
def State.destEnd (s : State) (d status : Nat) : State :=
  match s.eph.drain with
  | none => s
  | some dr =>
    match dr.live d with
    | none => s
    | some x =>
      let s := s.setDrain (dr.put d { x with phase := .ended, status := status, out := [] })
      let s := (s.setFld F.EPH_DESTd_STATE_LAST_STATUS ephCell status d).count ephCell (evOf 0x2D 4) (some status)
      if status ≠ ephOk then s
      else
        let s := s.setFld F.EPH_DESTd_COMMIT_STEP ephCell dr.step d
        (s.setFlag F.EPH_DESTd_STATE_VALID ephCell true d).setFld F.EPH_DESTd_STATE_SLOT ephCell x.slot d

/-- R584: every destination fails. -/
def State.drainFail (s : State) (status : Nat) : State := (s.destEnd 0 status).destEnd 1 status

/-- Start an operation of a destination and enter a phase with it; where it must wait for a tag nothing changes. -/
def State.destOp (s : State) (d : Nat) (x : EphDest) (next : EphPhase) (op : EphStart × State) : State :=
  match op.1 with
  | .wait => s
  | .failed => op.2.destEnd d ephDestError
  | .started id =>
    match op.2.eph.drain with
    | none => op.2
    | some dr => op.2.setDrain (dr.put d { x with phase := next, out := x.out ++ [id] })

/-- R571, R583: the mark of step st: any retained epoch ends, every granule becomes PROTECTED, and the drain starts with the invalid
record in the slot that does not hold the destination's newest valid commit. -/
def State.mark (s : State) (st : Nat) : State :=
  let w := s.eph.job
  let s := { s with epoch := { retained := true, regions := jobRegions w, snapBase := jobSnap w } }
  let s := s.setReg .EPH_EPOCH_STEP ephCell (BitVec.ofNat 64 st)
  let s := s.setReg .EPH_WARN_STATUS ephCell 0
  let s := s.setFld F.EPH_STATUS_SHARDS_DRAINED ephCell 0
  let m := s.devRead (wlong w 6 % 2 ^ 48) (4 * jobMembers w)
  let s := m.2
  let dest := fun d => if jobDestOn w d then
      some ({ phase := .invalid
              slot := if s.flag F.EPH_DESTd_STATE_VALID ephCell d then 1 - s.fld F.EPH_DESTd_STATE_SLOT ephCell d else 0 } : EphDest)
    else none
  let s := (s.setDrain { step := st, map := (m.1.map Prod.fst).getD [], hash := sha384Init, dests := [dest 0, dest 1] }).noteLevels
  match m.1 with
  | none => (s.drainFail ephMemoryFault).epochEnd
  | some (_, true) => s.drainFail ephPoisoned
  | some (_, false) => s

/-- R583 step 1: a destination that has not begun writes its invalid record, and on the Catalogue a FLUSH after it. -/
def State.destBegin (s : State) (d : Nat) : State :=
  match s.eph.drain with
  | none => s
  | some dr =>
    match dr.live d with
    | none => s
    | some x =>
      if d = 1 ∧ s.connPstate (wfield s.eph.job 8 31 16) ≠ psConnected then s.destEnd 1 ephDestError
      else if x.phase = .invalid ∧ x.out.isEmpty then
        s.destOp d x .invalidFlush (s.ephWrite d x.slot 0 (List.replicate 128 0))
      else if x.phase = .invalidFlush ∧ x.out.isEmpty then
        if d = 0 then s.destOp 0 x .shards (s.ephCat opFlush 0 0 []) else s.setDrain (dr.put d { x with phase := .shards })
      else s

/-- R573: the bytes of granule g of the image, with their mark; none where a cell on the path is not ENABLED. -/
def State.drainRead (s : State) (g : Nat) : Option (List Byte × Bool) × State :=
  let a := if smapGet (fun _ => false) s.epoch.copied g then s.epoch.snapBase + 65536 * g else granuleAddr s.epoch.regions g
  match s.load a 65536 with
  | (.ok bs p, s) => (some (bs, p), s)
  | (_, s) => (none, s)

/-- The digest of a message of n bytes in whole blocks, whose hash value is given. -/
def shaFinish (hv : List (BitVec 64)) (n : Nat) : List Byte :=
  ((shaBlocks 1 hv ([0x80] ++ List.replicate 111 0 ++ (natLe 16 (8 * n)).reverse)).take 6).flatMap fun w => (natLe 8 w.toNat).reverse

/-- R581: the manifest of a drain. -/
def EphDrain.manifest (dr : EphDrain) (w : List Word32) : List Byte :=
  let n := jobShards w
  let head := natLe 4 0x4D485045 ++ natLe 4 1 ++ natLe 4 (wfield w 1 31 0) ++ natLe 2 (wfield w 2 11 0) ++ natLe 2 (jobMembers w)
    ++ natLe 8 dr.step ++ natLe 8 (jobBytes w) ++ natLe 4 n ++ natLe 4 (wfield w 0 14 11)
  padBytes (tableOff (jobMembers w)) (padBytes 128 head ++ dr.map)
    ++ (dr.digests.zipIdx).flatMap fun p => natLe 4 p.2 ++ natLe 4 (shardLen w p.2) ++ natLe 8 (p.2 * jobShardSize w) ++ p.1

/-- R582: the commit record of a drain. -/
def EphDrain.record (dr : EphDrain) (w : List Word32) : List Byte :=
  let m := dr.manifest w
  padBytes 128 (natLe 4 0x54435045 ++ natLe 4 m.length ++ natLe 8 dr.step ++ natLe 8 (2 ^ 64 - 1 - dr.step) ++ sha384 m)

/-- R579: whether every live destination can take a write now. -/
def State.drainReady (s : State) (dr : EphDrain) : Bool :=
  (List.range 2).all (fun d => match dr.live d with
    | none => true
    | some x => (x.phase == .shards) && (x.out.isEmpty || dr.granule != 0)) && decide (s.ephTags + 2 ≤ 256) && decide (s.trnTags + s.catTags + 2 ≤ 65536)

/-- R579: a write of drained bytes to each live destination, entering a phase with it. -/
def State.drainWrite (s : State) (off : Nat) (bs : List Byte) (next : EphPhase) : State :=
  (List.range 2).foldl (fun (s : State) d => match s.eph.drain with
    | none => s
    | some dr => match dr.live d with
      | none => s
      | some x =>
        let s := s.count ephCell (evOf 0x2D 2) (some d) bs.length
        s.destOp d x next (s.ephWrite d x.slot off bs)) s

/-- R579: EPH_DRAIN: the drain reads its next granule, hashes it and writes it to each destination; after the last, it writes the
manifest, in pieces of the same size. -/
def State.drainStep (s : State) : State :=
  match s.eph.drain with
  | none => s
  | some dr =>
    let w := s.eph.job
    let total := jobBytes w / 65536
    if !s.drainReady dr then s
    else if total ≤ dr.granule then
      let m := dr.manifest w
      let k := dr.granule - total
      (s.setDrain { dr with granule := dr.granule + 1 }).drainWrite (4096 + 65536 * k) (m.drop (65536 * k) |>.take 65536)
        (if m.length ≤ 65536 * (k + 1) then .manifest else .shards)
    else match s.drainRead dr.granule with
      | (none, s) => (s.drainFail ephMemoryFault).epochEnd
      | (some (_, true), s) => s.drainFail ephPoisoned
      | (some (bs, false), s) =>
        let g := dr.granule + 1
        let per := jobShardSize w / 65536
        let hv := shaBlocks 512 dr.hash bs
        let ends := g % per = 0 ∨ g = total
        let i := dr.granule / per
        let dr := if ends then { dr with granule := g, hash := sha384Init, digests := dr.digests ++ [shaFinish hv (shardLen w i)] }
          else { dr with granule := g, hash := hv }
        let s := s.setDrain dr
        let s := if ends then (s.setFld F.EPH_STATUS_SHARDS_DRAINED ephCell (i + 1)).count ephCell (evOf 0x2D 3) else s
        s.drainWrite (shardOff w + 65536 * (g - 1)) bs .shards

/-- R583: EPH_DEST_COMMIT: a destination whose writes have completed goes on: to the FLUSH, the commit record, its FLUSH, the end. -/
def State.destCommit (s : State) (d : Nat) : State :=
  match s.eph.drain with
  | none => s
  | some dr =>
    match dr.live d with
    | none => s
    | some x =>
      if !x.out.isEmpty then s
      else
        let record := fun (_ : Unit) => s.destOp d x .record (s.ephWrite d x.slot 0 (dr.record s.eph.job))
        match x.phase with
        | .manifest => if d = 0 then s.destOp d x .flush (s.ephCat opFlush 0 0 []) else record ()
        | .flush => record ()
        | .record => if d = 0 then s.destOp d x .recordFlush (s.ephCat opFlush 0 0 []) else s.destEnd d ephOk
        | .recordFlush => s.destEnd d ephOk
        | _ => s

/-- R583: EPH_DRAIN_END: the drain ends when each destination is committed or failed. -/
def State.drainEnd (s : State) : State :=
  match s.eph.drain with
  | none => s
  | some dr =>
    if (List.range 2).all fun d => (dr.live d).isNone then ((s.setEph { s.eph with drain := none }).event 0x4002A000).noteLevels else s

/-! ## What the Catalogue and Transit bring -/

/-- An operation of the drain has ended; one that nothing waits for is discarded (R60). -/
def State.ephOpDrain (s : State) (id : Nat) (ok : Bool) : State :=
  match s.eph.drain with
  | none => s.count ephCell 0x005
  | some dr =>
    match (List.range 2).find? fun d => (dr.live d).any fun x => x.out.contains id with
    | none => s.count ephCell 0x005
    | some d =>
      match dr.live d with
      | none => s
      | some x => if ok then s.setDrain (dr.put d { x with out := x.out.filter (· != id) }) else s.destEnd d ephDestError

/-- An operation of Ephemeris has ended. -/
def State.ephOpDone (s : State) (id : Nat) (ok : Bool) : State :=
  match s.eph.read with
  | some r => if r.id = some id then s.ephPiece r ok else s.ephOpDrain id ok
  | none => s.ephOpDrain id ok

/-- R574: a copy could not be written: the epoch has ended, and the running checkpoint fails. -/
def State.ephCopyFailed (s : State) : State :=
  if s.epoch.copyFailed then (({ s with epoch := { s.epoch with copyFailed := false } } : State).drainFail ephMemoryFault).epochEnd else s

/-- Take up what the internal queue and Transit have brought, and go on with what waited for it. -/
def State.ephTake (s : State) : State :=
  let cs := s.cat.moverDone.filter fun d => d.1 == ephMover
  let s := s.setCat { s.cat with moverDone := s.cat.moverDone.filter fun d => d.1 != ephMover }
  let s := cs.foldl (fun (s : State) d => s.ephOpDone d.2.1 (d.2.2.1 == 0)) s
  let ts := s.trn.finished.filter fun d => d.unit == 1
  let s := s.setTrn { s.trn with finished := s.trn.finished.filter fun d => d.unit != 1 }
  let s := ts.foldl (fun (s : State) d => s.ephOpDone d.a (d.status == 0)) s
  ((s.ephCopyFailed.destBegin 0).destBegin 1).ephGo 64

/-! ## Commands -/

/-- R576: the ring may take its next entry. -/
def State.ephReady (s : State) : Bool :=
  let log := s.fld F.EPH_CMDQ_CFG_SIZE_LOG2 ephCell
  s.enabled ephCell && !s.eph.job.isEmpty && s.flag F.EPH_CMDQ_CFG_EN ephCell && decide (6 ≤ log ∧ log ≤ 12)
    && s.fld F.EPH_CMDQ_PTR_HEAD ephCell != s.fld F.EPH_CMDQ_PTR_TAIL ephCell && s.eph.restore.isNone && s.eph.scan.isNone

/-- R576: an entry with a wrong OPC, VERSION or reserved field, or a BOUNDARY not above the retained step. -/
def State.ephRefused (s : State) (w : List Word32) : Bool :=
  let opc := wfield w 0 3 0
  opc == 0 || decide (4 < opc) || wfield w 0 7 4 != 1 || wfield w 0 31 11 != 0 || ([1, 4, 5, 6, 7].any fun i => wfield w i 31 0 != 0)
    || (opc == 1 && s.epoch.retained && decide (wlong w 2 ≤ s.epochStep))

/-- R576: the entry at HEAD, where it is one of these OPCs. -/
def State.ephEntry (s : State) (mine : Nat → Bool) : Option (List Word32) × State :=
  if !s.ephReady then (none, s)
  else
    let a := s.ephEntryAt
    match s.devRead a 64 with
    | (some (bs, false), s) =>
      let w := wordsOf 16 bs
      (if mine (wfield w 0 3 0) then some w else none, s)
    | (some (_, true), s) => (none, s.recordError ephCell clsPoison a 0)
    | (none, s) => (none, s.recordError ephCell clsAccess a 0)

/-- R578: a BOUNDARY entry; an entry whose OPC is none of R575 is taken here too. -/
def State.ephBoundary (s : State) : State :=
  match s.ephEntry fun o => o == 1 || o == 0 || decide (4 < o) with
  | (none, s) => s
  | (some w, s) =>
    if s.ephRefused w then s.ephAnswer [(0, 7, 0, ephProtocol)]
    else
      let st := wlong w 2
      let due := s.epoch.broken.isEmpty && (wfield w 0 8 8 == 1 || !s.epoch.retained
        || decide (max 1 (s.fld F.EPH_CFG_CADENCE ephCell) ≤ st - s.epochStep) || s.fld F.EPH_WARN_STATUS_ARMED ephCell != 0)
      let marks := due && s.eph.drain.isNone
      let s := s.count ephCell (evOf 0x2D (if marks then 5 else 6))
      (if marks then (s.mark st).ephTake else s).ephAnswer [(0, 7, 0, ephOk), (0, 8, 8, marks.toNat), (0, 9, 9, due.toNat)]

/-- R586: copy one COPIED granule back: the lines with a mark, none where a cell on the path is not ENABLED. -/
def State.rollGranule (s : State) (g : Nat) : Option Nat × State :=
  let src := s.epoch.snapBase + 65536 * g
  let dst := granuleAddr s.epoch.regions g
  if s.memUp src 65536 ∧ s.memUp dst 65536 then
    let n := ((List.range 1024).filter fun k => (s.readLine (src + 64 * k) false).poison).length
    (some n, (s.copyLines src dst 1024).count ephCell (evOf 0x2D 8) none 65536)
  else (none, s)

/-- R586: ROLLBACK. -/
def State.ephRollback (s : State) : State :=
  match s.ephEntry (· == 2) with
  | (none, s) => s
  | (some w, s) =>
    if s.ephRefused w then s.ephAnswer [(0, 7, 0, ephProtocol)]
    else if !s.epoch.retained then s.ephAnswer [(0, 7, 0, ephNoEpoch)]
    else
      let gs := (s.epoch.copied.filter fun p => p.2).map Prod.fst
      let r := gs.foldl (fun (a : Bool × Nat × State) g =>
        let x := a.2.2.rollGranule g
        (a.1 && x.1.isSome, a.2.1 + x.1.getD 0, x.2)) (true, 0, s)
      let s := r.2.2
      s.ephAnswer ([(0, 7, 0, if r.1 then ephOk else ephMemoryFault), (7, 31, 0, r.2.1)] ++ ans64 2 s.epochStep)

/-- R587: RESTORE: it is taken, or goes on. -/
def State.ephRestore (s : State) : State :=
  if s.eph.restore.isSome then s.ephTake
  else match s.ephEntry (· == 3) with
    | (none, s) => s
    | (some w, s) =>
      if s.ephRefused w then s.ephAnswer [(0, 7, 0, ephProtocol)]
      else if s.eph.drain.isSome then (s.count ephCell (evOf 0x2D 9) (some ephBusy)).ephAnswer [(0, 7, 0, ephBusy)]
      else
        let s := s.epochEnd
        let todo := ([0, 1].filter fun d => wfield w 0 (9 + d) (9 + d) == 1).flatMap fun d => [(d, 0), (d, 1)]
        (s.setEph { s.eph with restore := some { maxStep := wlong w 2 }, scan := some { todo := todo } }).ephTake

/-- R574: END_EPOCH. A drain in progress loses its image: its destinations fail (log 42). -/
def State.ephEndEpoch (s : State) : State :=
  match s.ephEntry (· == 4) with
  | (none, s) => s
  | (some w, s) =>
    if s.ephRefused w then s.ephAnswer [(0, 7, 0, ephProtocol)]
    else (s.drainFail ephAbandoned).epochEnd.ephAnswer [(0, 7, 0, ephOk)]

/-- R575: a poll of the ring's doorbell line. -/
def State.ephPoll (s : State) : State :=
  if !s.flag F.EPH_CMDQ_CFG_POLL ephCell then s
  else match s.readDoorbell (64 * s.fld F.EPH_CMDQ_DB_LINE ephCell) ephCell with
    | (some t, s) => s.setFld F.EPH_CMDQ_PTR_TAIL ephCell t
    | (none, s) => s

/-- EN of the ring set from 0 to 1. -/
def State.ephEnable (s : State) : State := (s.setFld F.EPH_CMDQ_PTR_TAIL ephCell 0).setFld F.EPH_CMDQ_PTR_HEAD ephCell 0

/-! ## Warnings -/

/-- R585: the warnings whose measure is beyond its threshold. -/
def State.warnOver (s : State) : List Bool :=
  let sec := 1000000000
  let th := fun (f : Fld) => s.fld f ephCell
  let most := fun (n t : Nat) => t != 0 && decide (t ≤ n)
  let margin := s.fld F.HEL_THERM_MARGIN_C helCell
  let tc := th F.EPH_WARN_CFG_THERM_C
  [most (s.within sec s.eph.eccTimes).length (th F.EPH_WARN_CFG_ECC_PER_S),
   most (s.within sec s.eph.linkTimes).length (th F.EPH_WARN_CFG_LINK_PER_S),
   tc != 0 && decide ((BitVec.ofNat 8 margin).toInt < tc),
   most (s.within (60 * sec) s.eph.wdtTimes).length (th F.EPH_WARN_CFG_DOME_COUNT)]

/-- R585: the measures are sampled; a warning whose measure crosses its threshold becomes armed. -/
def State.warnSample (s : State) : State :=
  if !s.enabled ephCell then s
  else
    let crossed := s.warnOver
    let was := s.eph.beyond
    let s := s.setEph { s.eph with beyond := ((crossed.zipIdx).map fun p => p.1.toNat * 2 ^ p.2).sum }
    (crossed.zipIdx).foldl (fun (s : State) p =>
      if p.1 ∧ bitsOf was p.2 p.2 = 0 then
        let a := s.fld F.EPH_WARN_STATUS_ARMED ephCell
        ((s.setFld F.EPH_WARN_STATUS_ARMED ephCell (a ||| 2 ^ p.2)).count ephCell (evOf 0x2D 7) (some p.2)).event 0x4002A001
      else s) s

/-! ## The cell -/

/-- R570: the cell becomes ENABLED: the job descriptor is read, and the commit records of each enabled destination. -/
def State.ephUp (s : State) : State :=
  match s.jobRead with
  | (none, s) => (s.recordError ephCell clsProtocol (64 * s.fld F.EPH_JOB_BASE ephCell) 0).enterFault ephCell
  | (some w, s) =>
    let todo := ([0, 1].filter (jobDestOn w)).flatMap fun d => [(d, 0), (d, 1)]
    let s := ([0, 1] : List Nat).foldl (fun (s : State) d =>
      ((s.setReg .EPH_DESTd_COMMIT ephCell 0 d).setFlag F.EPH_DESTd_STATE_VALID ephCell false d).setFld F.EPH_DESTd_STATE_SLOT ephCell 0 d) s
    (s.setEph { s.eph with job := w, scan := some { todo := todo } }).ephTake

/-- R589: nothing is in progress. -/
def State.ephIdle (s : State) : Bool := s.eph.restore.isNone && s.eph.drain.isNone

/-- R589: the quiesce completes: the retained epoch ends. -/
def State.ephDown (s : State) : State := (s.setEph { s.eph with job := [], scan := none, read := none }).epochEnd

/-- R584, R589: a reset of the cell. -/
def State.ephReset (s : State) : State :=
  let live := match s.eph.drain with
    | some dr => [0, 1].filter fun d => (dr.live d).isSome
    | none => []
  let s := ((s.drainFail ephAbandoned).epochEnd).setPosted jobKey []
  (s.setEph { nextId := s.eph.nextId, eccTimes := s.eph.eccTimes, linkTimes := s.eph.linkTimes, wdtTimes := s.eph.wdtTimes
              abandoned := live }).noteLevels

/-- R584: what a reset ABANDONED is recorded, also once the other registers hold their reset values (log 42). -/
def State.ephFresh (s : State) : State :=
  s.eph.abandoned.foldl (fun s d => s.setFld F.EPH_DESTd_STATE_LAST_STATUS ephCell ephAbandoned d) (s.setEph { s.eph with abandoned := [] })

end Sys2Proof.Machine
end

