-- ==== Sys2Proof/Machine/Spectrograph.lean ====
section
/-! DEFINITION. The Spectrograph (chapter 12): keys and patterns (R414, R415), rules and actions (R416 to R418), flows (R422 to R424),
receive queues and work items (R425 to R427), the order of classification (R408), and the commands (R419 to R421, R432, R433). -/

namespace Sys2Proof.Machine

open Sys2Proof

def State.setSpg (s : State) (x : SpgState) : State := { s with spg := x }
def State.spgBank (s : State) (k : Nat) : SpgBank := smapGet (fun _ => {}) s.spg.banks k
def State.activeBank (s : State) (p : Nat) : Nat := s.fld F.SPG_PORTp_CTRL_ACTIVE spgCell p

/-! ## Keys -/

/-- R414: one extracted word and its MISSING bit. -/
def extractWord (bs : List Byte) (x : Parse) (e : Nat) : Nat × Bool :=
  if e % 2 = 0 then (0, false)
  else
    let n := bitsOf e 5 4 + 1
    match x.base (bitsOf e 3 1) with
    | none => (0, true)
    | some b =>
      let o := b + bitsOf e 15 8
      if bs.length < o + n then (0, true) else (beAt bs o n, false)

/-- R414: word 14 but for MISSING. -/
def keyWord14 (x : Parse) (half prio : Nat) : Nat :=
  half * 2 ^ 14 + x.frag.toNat * 2 ^ 15 + x.depth * 2 ^ 16 + x.pclass * 2 ^ 20 + x.tun.isSome.toNat * 2 ^ 23 + prio * 2 ^ 24

/-- R414: the key of a frame under the profiles of a bank. -/
def frameKey (profiles : List Word32) (bs : List Byte) (x : Parse) (half prio w15 : Nat) : List Nat :=
  let ws := (List.range 14).map fun f => extractWord bs x (profiles.getD (14 * x.pclass + f) 0).toNat
  let missing := ((ws.zipIdx).map fun p => if p.1.2 then 2 ^ p.2 else 0).sum
  (ws.map Prod.fst) ++ [keyWord14 x half prio + missing, w15]

/-- R415: an ASCII letter in lower case. -/
def lowerCase (b : Byte) : Byte := if 0x41 ≤ b.toNat ∧ b.toNat ≤ 0x5A then b + 0x20 else b

/-- R415: bytes occur at the head of others. -/
def startsWith (nocase : Bool) : List Byte → List Byte → Bool
  | [], _ => true
  | _ :: _, [] => false
  | p :: ps, b :: bs => (if nocase then lowerCase p == lowerCase b else p == b) && startsWith nocase ps bs

/-- R415: bytes occur somewhere in others. -/
def occursIn (nocase : Bool) (p : List Byte) : List Byte → Bool
  | [] => p.isEmpty
  | b :: bs => startsWith nocase p (b :: bs) || occursIn nocase p bs

/-- R414, R415: word 15: the lowest pattern that matches, HIT and the groups. -/
def patternWord (ps : List SpgPattern) (payload : List Byte) : Nat :=
  let hits := ((ps.zipIdx).filter fun p => !p.1.bytes.isEmpty && occursIn p.1.nocase p.1.bytes payload)
  match hits with
  | [] => 0
  | (_, n) :: _ =>
    n + 2 ^ 12 + ((List.range 16).map fun g => if hits.any fun p => p.1.group == g then 2 ^ (16 + g) else 0).sum

/-- R415: the pattern search of a frame on a port. -/
def State.patternOf (s : State) (p : Nat) (bs : List Byte) (x : Parse) : Nat :=
  if !s.flag F.SPG_PORTp_CTRL_PATTERN_EN spgCell p then 0
  else match x.pay with
    | none => 0
    | some o => patternWord (smapGet (fun _ => []) s.spg.patterns (s.fld F.SPG_STATUS_PATTERN_BANK spgCell)) ((bs.drop o).take 4096)

/-- R417: a rule matches a key. -/
def SpgRule.hits (r : SpgRule) (key : List Nat) : Bool :=
  wfield r.action 0 0 0 == 1 && (List.range 16).all fun i =>
    (key.getD i 0 ^^^ (r.value.getD i 0).toNat) &&& (r.mask.getD i 0).toNat == 0

/-! ## Decisions -/

/-- What decided a frame: its action, the rule (0xFFFF for the default action), the receive entry's flags, and key words 14, 15. -/
structure Verdict where
  action : List Word32
  rule : Nat
  sanctum : Bool := false
  dflt : Bool := false
  parseFail : Bool := false
  w14 : Nat := 0
  w15 : Nat := 0

/-- R408: the port's default action. -/
def State.dfltVerdict (s : State) (p : Nat) : Verdict :=
  { action := (s.spgBank (2 * p + s.activeBank p)).dflt, rule := 0xFFFF, dflt := true }

/-- R408, steps 3 to 5: the decision on a parsed frame. -/
def State.decideFrame (s : State) (p : Nat) (f : IngressFrame) (x : Parse) : Verdict :=
  let w15 := s.patternOf p f.bytes x
  let t := s.spg.sanctum
  let sk := frameKey t.profiles f.bytes x f.half f.prio w15
  let b := s.spgBank (2 * p + s.activeBank p)
  let bk := frameKey b.profiles f.bytes x f.half f.prio w15
  match t.rules.zipIdx.find? fun r => bitsOf r.1.ports p p == 1 && r.1.hits sk with
  | some (r, n) => { action := r.action, rule := n, sanctum := true, w14 := sk.getD 14 0, w15 := w15 }
  | none => match b.rules.zipIdx.find? fun r => r.1.hits bk with
    | some (r, n) => { action := r.action, rule := n, w14 := bk.getD 14 0, w15 := w15 }
    | none => { s.dfltVerdict p with w14 := bk.getD 14 0, w15 := w15 }

/-! ## Flows -/

/-- `SPG_FLOW_STATUS` as it reads. -/
def State.flowStatus (s : State) : Nat := s.onchipUsed + s.spillUsed * 2 ^ 32 + s.spillFull.toNat * 2 ^ 55

/-- The k-th number that a rising list does not hold. -/
def kthFree (k : Nat) : List Nat → Nat
  | [] => k
  | u :: us => if u ≤ k then kthFree (k + 1) us else k

/-- R423: a free context of a range: which one is open (log 1). -/
def State.takeContext (s : State) (lo size : Nat) (key : List Byte) : Nat × State :=
  let used := (s.flowsIn lo (lo + size)).map fun k => k - lo
  let v := s.free 32
  let k := lo + kthFree (v.1.toNat % (size - used.length)) used
  (k, v.2.setSpg { v.2.spg with flows := smapSet (fun _ => none) v.2.spg.flows k (some ⟨key, 16384⟩) })

/-- R423: the flow index of a frame with a flow; none where no context is free. -/
def State.flowOf (s : State) (key : List Byte) : Option Nat × State :=
  match s.spg.flows.find? fun p => p.2.any fun f => f.key == key with
  | some (k, _) => (some k, s)
  | none =>
    if s.onchipUsed < onchipFlows then
      let r := s.takeContext 0 onchipFlows key
      (some r.1, r.2)
    else if s.spillUsed < s.spillFlows then
      let r := s.takeContext onchipFlows s.spillFlows key
      (some r.1, r.2)
    else (none, s)

def State.flowAt (s : State) (k : Nat) : Option SpgFlow := smapGet (fun _ => none) s.spg.flows k
def State.setFlow (s : State) (k : Nat) (f : Option SpgFlow) : State :=
  s.setSpg { s.spg with flows := smapSet (fun _ => none) s.spg.flows k f }

/-- R424: the length charged to the meter of a spilled flow: the frame through its FCS. -/
def meterLen (bs : List Byte) : Nat := bs.length + 4

/-! ## Receive queues -/

/-- What a receive entry says of a frame (R425). -/
structure RxInfo where
  bytes : List Byte
  port : Nat
  half : Nat
  stamp : Nat
  flow : Option Nat
  mirror : Bool := false
  mark : Bool := false

/-- R425: the address of the entry a queue fills next; none where it is not enabled or has no posted entry. -/
def State.rxEntry (s : State) (q : Nat) : Option Nat :=
  let log2 := s.fld F.SPG_RXQq_CFG_SIZE_LOG2 spgCell q
  let head := s.fld F.SPG_RXQq_PTR_HEAD spgCell q
  if !s.flag F.SPG_RXQq_CFG_EN spgCell q ∨ log2 < 6 ∨ 16 < log2 ∨ head = s.fld F.SPG_RXQq_PTR_TAIL spgCell q then none
  else some (ringAt (4096 * s.fld F.SPG_RXQq_CFG_BASE spgCell q) log2 32 head)

/-- R427: the item of a PROGRAM action. Whether it was posted. -/
def State.rxItem (s : State) (v : Verdict) (i : RxInfo) (q idx buf : Nat) (trunc : Bool) : Bool × State :=
  let hash := match flowKey i.bytes (parseFrame s.parseCfg i.bytes) with
    | some k => 2 ^ 31 + crc32c k % 2 ^ 31
    | none => 2 ^ 31
  let key := i.flow.getD hash
  let w4 := i.port + i.half * 8 + v.sanctum.toNat * 16 + v.dflt.toNat * 32 + v.rule * 2 ^ 16
  s.postItem (wfield v.action 0 19 16) 1 (wfield v.action 0 15 8) key
    ([w4, q + idx * 2 ^ 16, buf, buf / 2 ^ 32, i.bytes.length + trunc.toNat * 2 ^ 16, v.w14, v.w15].map (BitVec.ofNat 32))

/-- R425 to R427: deliver a frame into a receive queue, and post its item where `program`. Whether it was delivered. A line of the
entry or buffer that is refused records ACCESS (log 34). -/
def State.rxDeliver (s : State) (v : Verdict) (i : RxInfo) (q : Nat) (program : Bool) : Bool × State :=
  match s.rxEntry q with
  | none => (false, s)
  | some a =>
    match s.devRead a 12 with
    | (none, s) => (false, s.recordError spgCell clsAccess a 0)
    | (some (_, true), s) => (false, s.recordError spgCell clsPoison a 0)
    | (some (eb, false), s) =>
      let ws := wordsOf 3 eb
      let buf := wlong ws 0 % 2 ^ 48
      let room := wfield ws 2 15 0
      let len := i.bytes.length
      let trunc := decide (room < len)
      let w := s.devWrite buf (i.bytes.take room) i.mark
      let s := if w.1 then w.2 else w.2.recordError spgCell clsAccess buf 0
      let log2 := s.fld F.SPG_RXQq_CFG_SIZE_LOG2 spgCell q
      let head := s.fld F.SPG_RXQq_PTR_HEAD spgCell q
      let it := if program then s.rxItem v i q head buf trunc else (false, s)
      let refused := program && !it.1
      let s := if refused then it.2.count spgCell (evOf 0x25 9) else it.2
      let flip := smapGet (fun _ => false) s.spg.flip q
      let w3 := len + trunc.toNat * 2 ^ 16 + it.1.toNat * 2 ^ 17 + refused.toNat * 2 ^ 18 + i.mirror.toNat * 2 ^ 19
        + v.parseFail.toNat * 2 ^ 20 + v.dflt.toNat * 2 ^ 21 + v.sanctum.toNat * 2 ^ 22 + i.port * 2 ^ 23 + i.half * 2 ^ 26
        + (!flip).toNat * 2 ^ 31
      let out : List Word32 := [w3, v.rule, i.flow.getD 0xFFFFFFFF, i.stamp, i.stamp / 2 ^ 32].map (BitVec.ofNat 32)
      let w := s.devWrite (a + 12) (bytesOf out)
      let s := if w.1 then w.2 else w.2.recordError spgCell clsAccess a 0
      let s := s.setFld F.SPG_RXQq_PTR_HEAD spgCell ((head + 1) % 65536) q
      let s := s.setSpg { s.spg with flip := smapSet (fun _ => false) s.spg.flip q (!nextPhase log2 head (!flip)) }
      (true, (s.notifyBit (s.fld F.SPG_RXQq_PTR_NOTIFY_BIT spgCell q)).routeFire (8192 + q))

/-- R426: a queue's EN goes from 0 to 1. -/
def State.rxqEnable (s : State) (q : Nat) : State :=
  let s := (s.setFld F.SPG_RXQq_PTR_HEAD spgCell 0 q).setFld F.SPG_RXQq_PTR_TAIL spgCell 0 q
  s.setSpg { s.spg with flip := smapSet (fun _ => false) s.spg.flip q false }

/-! ## Actions -/

/-- R418: an 8-byte atomic add of the counter area. A poisoned line is not written (log 34). -/
def State.counterAdd (s : State) (a inc : Nat) : State :=
  match s.devRead a 8 with
  | (some (bs, false), s) => (s.devWrite a (natLe 8 (leNat bs + inc))).2
  | (some (_, true), s) => s.recordError spgCell clsPoison a 0
  | (none, s) => s.recordError spgCell clsAccess a 0

/-- R418: COUNT. -/
def State.countFrame (s : State) (v : Verdict) (bs : List Byte) : State :=
  if wfield v.action 0 4 4 = 0 then s
  else
    let log2 := min 20 (s.fld F.SPG_COUNT_BASE_COUNT_LOG2 spgCell)
    let k := wfield v.action 4 19 0
    if log2 = 0 ∨ 2 ^ log2 ≤ k then s.count spgCell (evOf 0x25 10)
    else
      let a := 64 * s.fld F.SPG_COUNT_BASE_BASE spgCell + 16 * k
      (s.counterAdd a 1).counterAdd (a + 8) bs.length

/-- R418: MIRROR. -/
def State.mirrorFrame (s : State) (v : Verdict) (i : RxInfo) : State :=
  if wfield v.action 0 3 3 = 0 then s
  else
    let n := wfield v.action 3 13 0
    let bs := if n = 0 then i.bytes else i.bytes.take n
    let r := if wfield v.action 2 28 28 = 1 then s.rxDeliver v { i with bytes := bs, mirror := true } (wfield v.action 2 27 16) false
      else s.admitSpg (wfield v.action 2 15 0) bs i.mark
    if r.1 then r.2 else r.2.count spgCell (evOf 0x25 11)

/-- R418: the primary action. -/
def State.primaryAction (s : State) (v : Verdict) (i : RxInfo) : State :=
  let q := wfield v.action 1 27 16
  let rx := fun (r : Bool × State) => if r.1 then r.2 else r.2.count spgCell (evOf 0x25 8)
  match wfield v.action 0 2 1 with
  | 0 => s
  | 1 => (s.admitSpg (wfield v.action 1 15 0) i.bytes i.mark).2
  | 2 => rx (s.rxDeliver v i q false)
  | _ => rx (s.rxDeliver v i q true)

/-- R604: the frame carries a mark once it has left the ingress buffer. -/
def IngressFrame.marked (f : IngressFrame) : Bool := f.mark || f.err == .bad

/-- R408, R418: a decided frame takes its action, and its copy is made after it. -/
def State.actOn (s : State) (p : Nat) (f : IngressFrame) (v : Verdict) (flow : Option Nat) : State :=
  let s := if v.sanctum then s.count spgCell (evOf 0x25 5)
    else if v.dflt then s.count spgCell (evOf 0x25 4) (some p) else s.count spgCell (evOf 0x25 3) (some p)
  let i : RxInfo := { bytes := f.bytes, port := p, half := f.half, stamp := f.stamp, flow := flow, mark := f.marked }
  ((s.countFrame v f.bytes).primaryAction v i).mirrorFrame v i

/-- R408: classify a frame. The first component says whether it was taken; a frame that waits for its meter (R424) is not, and then
nothing has changed. A frame that is taken leaves the ingress buffer, with what its code finds there; a mark that reaches Transit goes on
as P (R604, log 76). -/
def State.classify (s : State) (p : Nat) (f : IngressFrame) : Bool × State :=
  let x := parseFrame s.parseCfg f.bytes
  if x.fail then
    (true, ((s.bufErr (ethCell p) f.err).count spgCell (evOf 0x25 0)).actOn p f { s.dfltVerdict p with parseFail := true } none)
  else
    let walk := fun (s : State) =>
      let s := s.bufErr (ethCell p) f.err
      if x.depth = 0 then s else s.count spgCell (evOf 0x25 1) none x.depth
    match s.transitFrame f.bytes with
    | some (k, ok) =>
      let s := (walk s).count spgCell (evOf 0x25 2)
      (true, if ok then s.trnReceive { k with p := k.p || f.marked } else s.count trnCell (evOf 0x27 7))
    | none =>
      let v := s.decideFrame p f x
      match (if wfield v.action 0 5 5 = 1 then flowKey f.bytes x else none) with
      | none => (true, (walk s).actOn p f v none)
      | some key => match s.flowOf key with
        | (none, s) => (true, (walk s).actOn p f { s.dfltVerdict p with w14 := v.w14, w15 := v.w15 } none)
        | (some k, t) =>
          if k < onchipFlows then (true, (walk t).actOn p f v (some k))
          else
            let m := ((t.flowAt k).map SpgFlow.meter).getD 0
            let n := meterLen f.bytes
            if n ≤ m then
              let t := t.setFlow k ((t.flowAt k).map fun w => { w with meter := m - n })
              (true, (((walk t).count spgCell (evOf 0x25 6)).actOn p f v (some k)).noteLevels)
            else if s.pfcOn p f.prio then (false, s)
            else (true, ((walk t).count spgCell (evOf 0x25 6)).count spgCell (evOf 0x25 7))

/-- R421, R430: classification runs. -/
def State.classifying (s : State) : Bool := s.enabled spgCell && !s.flag F.SPG_STATUS_INGRESS_PAUSED spgCell

/-- R422: the flow of a frame. -/
def State.frameFlow (s : State) (f : IngressFrame) : Option (List Byte) := flowKey f.bytes (parseFrame s.parseCfg f.bytes)

/-- R424, R428: a frame of port p waits behind those of `kept` that wait: behind one of its port and priority, where PFC is on, and
behind an earlier one of its flow, whose order it keeps. -/
def State.waitsBehind (s : State) (kept : List (Nat × IngressFrame)) (p : Nat) (f : IngressFrame) : Bool :=
  kept.any fun g => (g.1 == p && g.2.prio == f.prio && s.pfcOn p f.prio) || ((s.frameFlow f).isSome && s.frameFlow g.2 == s.frameFlow f)

/-- Classify frames of the ports in order; those that wait stay in the buffers. -/
def State.classifyWaiting (s : State) : List (Nat × IngressFrame) → (kept : List (Nat × IngressFrame)) → State
  | [], kept => (List.range 8).foldl (fun (s : State) p =>
      s.setEthPort p { s.ethPort p with ingress := (kept.filter fun g => g.1 == p).map Prod.snd }) s
  | (p, f) :: fs, kept =>
    if s.waitsBehind kept p f then s.classifyWaiting fs (kept ++ [(p, f)])
    else
      let r := s.classify p f
      if r.1 then r.2.classifyWaiting fs kept else r.2.classifyWaiting fs (kept ++ [(p, f)])

/-- Put a frame behind those that came no later. -/
def byArrival (g : Nat × IngressFrame) : List (Nat × IngressFrame) → List (Nat × IngressFrame)
  | [] => [g]
  | h :: t => if g.2.stamp < h.2.stamp then g :: h :: t else h :: byArrival g t

/-- The frames in the ingress buffers, in order of arrival. -/
def State.waiting (s : State) : List (Nat × IngressFrame) :=
  ((List.range 8).flatMap fun p => (s.ethPort p).ingress.map fun f => (p, f)).foldl (fun l g => byArrival g l) []

/-- R408, R428: classification takes the frames that wait, in order of arrival. -/
def State.classifyAll (s : State) : State := if s.classifying then s.classifyWaiting s.waiting [] else s

/-- R405: a PFC frame: its class vector and times. -/
def pfcFrame (bs : List Byte) : Option (List (Nat × Nat)) :=
  if beAt bs 12 2 = 0x8808 ∧ beAt bs 14 2 = 0x0101 then
    some (((List.range 8).filter fun n => bitsOf (beAt bs 16 2) n n == 1).map fun n => (n, beAt bs (18 + 2 * n) 2))
  else none

/-- R400, R403 to R408: a port receives a frame; `bs` ends before the FCS. -/
def State.frameReceive (s : State) (p half : Nat) (bs : List Byte) (fcsOk : Bool) (err : BufErr) : State :=
  let half := if s.breakout p then half else 0
  match s.macDiscard p half bs fcsOk with
  | some cause => s.count (ethCell p) (evOf 0x24 4) (some cause)
  | none => match pfcFrame bs with
    | some ts => ts.foldl (fun s t => s.pfcReceive p half t.1 t.2) s
    | none =>
      let prio := s.ingressPrio p bs
      let s := (s.count (ethCell p) (evOf 0x24 0) (some prio)).count (ethCell p) (evOf 0x24 1) (some prio) (bs.length + 4)
      (s.admitIngress p ⟨bs, half, prio, s.now, err, false⟩).classifyAll

/-- R423: a flow's context is freed. -/
def State.flowAge (s : State) (k : Nat) : State := (s.setFlow k none).noteLevels

/-- R424: a meter regains credit, and what waits for it is classified. -/
def State.meterRefill (s : State) (k n : Nat) : State :=
  match s.flowAt k with
  | none => s
  | some f => if k < onchipFlows then s else (s.setFlow k (some { f with meter := min 16384 (f.meter + n) })).classifyAll

/-- R436: port node 11 returns a frame to classification. Where it cannot be taken, nothing is selected. -/
def State.selectLoop (s : State) (err : BufErr) : State :=
  let s := s.shtUpdate
  if !s.classifying then s
  else match s.select 11 with
    | none => s
    | some (f, _, t) =>
      let p := t.fld F.SHT_LOOP_PORT shtCell
      let fr : IngressFrame := ⟨f.bytes, 0, t.ingressPrio p f.bytes, t.now, .clean, (f.leaves err).mark⟩
      if t.waitsBehind t.waiting p fr then s
      else
        let r := (t.bufErr shtCell err).classify p fr
        if r.1 then r.2.shtUpdate.noteLevels else s

/-! ## Images and commands -/

/-- R433, 0x05: the reserved bits of an action, as (word, hi, lo). -/
def actionReserved (ws : List Word32) : Bool :=
  wfield ws 0 7 6 == 0 && wfield ws 0 31 20 == 0 && wfield ws 1 31 28 == 0 && wfield ws 2 31 29 == 0 && wfield ws 3 31 14 == 0
    && wfield ws 4 31 20 == 0 && wlong ws 5 == 0 && wfield ws 7 31 0 == 0 && wfield ws 3 5 0 == 0

/-- R414: the reserved bits of an extraction entry. -/
def entryReserved (e : Word32) : Bool := bitsOf e.toNat 7 6 == 0 && bitsOf e.toNat 31 16 == 0

/-- R416, R420: a rule of an image. -/
def ruleOf (bs : List Byte) : SpgRule :=
  ⟨wordsOf 16 bs, wordsOf 16 (bs.drop 64), wordsOf 8 (bs.drop 128), leNat (bs.drop 160 |>.take 4)⟩

/-- R416, R420: the rules of an image, n of them. -/
def rulesOf (n : Nat) (bs : List Byte) : List SpgRule := (List.range n).map fun k => ruleOf ((bs.drop (192 * k)).take 192)

/-- R416, R420: a bank image. -/
def bankOf (n : Nat) (bs : List Byte) : SpgBank :=
  ⟨wordsOf 8 bs, wordsOf 42 (bs.drop 32), rulesOf n (bs.drop 256)⟩

/-- R433, 0x05, for a bank or the sanctum table. -/
def bankOk (sanctum : Bool) (n : Nat) (bs : List Byte) : Bool :=
  let b := bankOf n bs
  (if sanctum then (bs.take 32).all (· == 0) else actionReserved b.dflt) && b.profiles.all entryReserved
    && ((bs.drop 200).take 56).all (· == 0)
    && (List.range n).all fun k =>
      let r := (bs.drop (256 + 192 * k)).take 192
      actionReserved (wordsOf 8 (r.drop 128)) && ((r.drop (if sanctum then 161 else 160)).all (· == 0))

/-- R415: a pattern entry of an image. -/
def patternOfBytes (bs : List Byte) : SpgPattern :=
  let w := leNat (bs.take 4)
  ⟨bitsOf w 11 8, bitsOf w 12 12 == 1, (bs.drop 64).take (bitsOf w 6 0)⟩

/-- R433, 0x05, for the pattern table. -/
def patternsOk (n : Nat) (bs : List Byte) : Bool :=
  (List.range n).all fun k =>
    let e := (bs.drop (128 * k)).take 128
    let w := leNat (e.take 4)
    decide (bitsOf w 6 0 ≤ 64) && bitsOf w 7 7 == 0 && bitsOf w 31 13 == 0 && ((e.drop 4).take 60).all (· == 0)

/-- The bytes of an image. -/
def imageBytes (cmd n : Nat) : Nat := if cmd = 3 then 128 * n else 256 + 192 * n

/-- R433: the refusal code of a command, 0 for none, and the image read. `dome` says that a Dome core asks. -/
def State.spgCheck (s : State) (dome : Bool) (cmd n arg : Nat) : Nat × List Byte × State :=
  if cmd = 0 ∨ 5 < cmd then (1, [], s)
  else if cmd = 2 ∨ cmd = 4 then (0, [], s)
  else if (if cmd = 1 then 16384 else if cmd = 3 then 4096 else 512) < n then (2, [], s)
  else
    let len := imageBytes cmd n
    if arg % 64 ≠ 0 ∨ !extentOneQuad arg len ∨ !s.extentFree dome arg len then (3, [], s)
    else match s.load arg len with
      | (.ok bs false, s) =>
        if (if cmd = 3 then patternsOk n bs else bankOk (cmd == 5) n bs) then (0, bs, s) else (5, [], s)
      | (_, s) => (4, [], s)

/-- R419, R421: what an accepted command does; its end is `spgComplete`. -/
def State.spgStart (s : State) (cmd port n : Nat) (bs : List Byte) : State :=
  match cmd with
  | 1 => s.setSpg { s.spg with banks := smapSet (fun _ => {}) s.spg.banks (2 * port + (1 - s.activeBank port)) (bankOf n bs) }
  | 2 => s.setFld F.SPG_PORTp_CTRL_ACTIVE spgCell (1 - s.activeBank port) port
  | 3 =>
    let ps := (List.range n).map fun k => patternOfBytes ((bs.drop (128 * k)).take 128)
    s.setSpg { s.spg with patterns := smapSet (fun _ => []) s.spg.patterns (1 - s.fld F.SPG_STATUS_PATTERN_BANK spgCell) ps }
  | 4 => s.setFld F.SPG_STATUS_PATTERN_BANK spgCell (1 - s.fld F.SPG_STATUS_PATTERN_BANK spgCell)
  | _ => ((s.setSpg { s.spg with sanctum := bankOf n bs }).setFld F.SPG_STATUS_SANCTUM_RULES spgCell n).setFlag
      F.SPG_STATUS_INGRESS_PAUSED spgCell true

/-- R421, R432, R433: a write of `SPG_CMD`. -/
def State.spgCommand (s : State) (dome : Bool) (v : Nat) : State :=
  let cmd := bitsOf v 3 0
  let port := bitsOf v 6 4
  let n := bitsOf v 30 16
  if s.fld F.SPG_CMD_RESULT_RESULT spgCell = 3 ∨ (cmd = 5 ∧ !dome) then
    s.recordError spgCell clsAccess (regAddr .SPG_CMD spgCell 0) 0
  else
    let (code, bs, s) := s.spgCheck dome cmd n (s.fld F.SPG_CMD_ARG_ARG spgCell)
    let s := (s.setFld F.SPG_CMD_RESULT_RESULT spgCell 3).setFld F.SPG_CMD_RESULT_CODE spgCell 0
    let s := s.setSpg { s.spg with cmd := some ⟨cmd, port, code⟩ }
    if code = 0 then s.spgStart cmd port n bs else s.recordError spgCell clsProtocol 0 (code + cmd * 2 ^ 8)

/-- R432: the command in progress leaves BUSY. -/
def State.spgComplete (s : State) : State :=
  match s.spg.cmd with
  | none => s
  | some c =>
    let s := s.setSpg { s.spg with cmd := none }
    let s := (s.setFld F.SPG_CMD_RESULT_RESULT spgCell (if c.code = 0 then 1 else 2)).setFld F.SPG_CMD_RESULT_CODE spgCell c.code
    let s := s.event 0x40023000
    if c.cmd = 5 ∧ c.code = 0 then (s.setFlag F.SPG_STATUS_INGRESS_PAUSED spgCell false).classifyAll else s

/-- R430: a reset of the cell; its registers are returned by the reset itself. -/
def State.spgReset (s : State) : State := (s.setSpg {}).noteLevels

end Sys2Proof.Machine
end

