-- ==== Sys2Proof/Machine/PcieEvents.lean ====
section
/-! DEFINITION. What happens at the PCI Express ports (chapters 15 and 16): doorbells (R497, R498, R525), the windows of the BARs
(R495, R526), Function Level Reset and fundamental reset (R509 to R511), virtual functions (R529 to R534), configuration writes,
containment and hot-plug (R518 to R520), inbound requests (R515, R516). -/

namespace Sys2Proof.Machine

open Sys2Proof

/-- Take up what the host link, Transit and the Catalogue's internal queues have brought. -/
def State.settle (s : State) : State := s.catConsume.movTake.ephTake

/-- Write the RW fields of a register within a mask of bits. -/
def State.writeRw (s : State) (r : RegId) (cell i v mask : Nat) : State :=
  let old := (s.reg r cell i).toNat
  let new := r.map.fields.foldl (fun n f =>
    if f.ty = .rw then
      let m := bitsOf mask f.hi f.lo
      putBits n f.hi f.lo ((bitsOf v f.hi f.lo &&& m) ||| (bitsOf n f.hi f.lo &&& (2 ^ (f.hi - f.lo + 1) - 1 - m)))
    else n) old
  s.setReg r cell (BitVec.ofNat 64 new) i

/-! ## Doorbells -/

def State.ignoreDoorbell (s : State) (port : Nat) : State := s.count (upCell port) (evOf 0x21 13)

/-- R498, R525: a Catalogue doorbell acts only for the function that owns the queue. -/
def State.catOwnedBy (s : State) (q port fn : Nat) : Bool :=
  s.catOwner q == 1 && s.fld F.CAT_Qq_OWNER_PORT catCell q == port && s.fld F.CAT_Qq_OWNER_FN catCell q == fn

/-- R398: what follows a write of a send queue's TAIL. -/
def State.sqTailWritten (s : State) (q : Nat) : State := s.sqPoll q

/-- R497: a doorbell of a page kind of R525 (1 Catalogue, 2 and 3 Transit, 4 receive queue, 5 transmit ring), at page offset 0 or 4. -/
def State.doorbell (s : State) (kind index off v : Nat) : State :=
  match kind with
  | 1 => if off = 0 then s.writeRw .CAT_Qq_PTR catCell index v 0xFFFFFFFF else s.writeRw .CAT_Qq_PTR catCell index (v * 2 ^ 32) (0xFFFFFFFF * 2 ^ 32)
  | 2 => (s.writeRw .TRN_SQq_PTR trnCell index v 0xFFFFFFFF).sqTailWritten index
  | 3 => s.writeRw .TRN_CQq_PTR trnCell index v 0xFFFFFFFF
  | 4 => s.writeRw .SPG_RXQq_PTR spgCell index v 0xFFFFFFFF
  | _ =>
    let put := s.writeRw .SHT_TXRr_PTR shtCell index v 0xFFFFFFFF
    (put.postEntries (txrKey index) false (s.fld F.SHT_TXRr_PTR_TAIL shtCell index) (put.fld F.SHT_TXRr_PTR_TAIL shtCell index)).txrPoll index

/-- R487, R490: Memory Space Enable of the Command register, or of SR-IOV Control for every VF. -/
def State.memSpace (s : State) (port fn : Nat) : Bool :=
  if fn = 0 then bitsOf (s.cfg port 0 0x04) 1 1 == 1 else bitsOf (s.cfg port 0 0x168) 3 3 == 1

/-- R511, R628: the functions of an upstream port answer configuration requests with Request Retry Status. -/
def State.retrying (s : State) (port : Nat) : Bool :=
  s.pci.retrain.contains port || s.pci.retry.any fun r => r.1 == port && decide (s.now < r.2)

/-- R487, R628: a function decodes its BARs once it answers configuration requests normally, while Memory Space Enable is 1; R489: in
D3hot it decodes none; R509: nor does it act during an FLR. -/
def State.fnAwake (s : State) (port fn : Nat) : Bool :=
  s.fnExists port fn && !s.fnFlr port fn && !s.retrying port && s.memSpace port fn && (fn != 0 || bitsOf (s.cfg port 0 0x44) 1 0 != 3)

/-- R487, R489, R512: a request to a BAR that a function does not decode is an Unsupported Request. -/
def State.unsupported (s : State) (port fn : Nat) : State :=
  (s.aerUncor port fn aerUnsupported true).recordError (portCell port) clsProtocol 0 0

/-- R497, R498: a 32-bit write of PF BAR2. -/
def State.pfDoorbell (s : State) (port off v : Nat) : State :=
  if s.fnFlr port 0 then s
  else if !s.fnAwake port 0 then s.unsupported port 0
  else
    let region := off / 0x1000000
    let page := off / 4096 % 4096
    let at_ := off % 4096
    if region = 0 ∧ (at_ = 0 ∨ at_ = 4) then (if s.catOwnedBy page port 0 then s.doorbell 1 page at_ v else s.ignoreDoorbell port)
    else if 1 ≤ region ∧ region ≤ 4 ∧ at_ = 0 ∧ (region < 4 ∨ page < 1024) then s.doorbell (region + 1) page 0 v
    else s

/-- R497: a read of PF BAR2 returns the 32 bits the doorbell names. -/
def State.pfDoorbellRead (s : State) (off : Nat) : Nat :=
  let region := off / 0x1000000
  let page := off / 4096 % 4096
  let at_ := off % 4096
  let low := fun (r : RegId) (cell : Nat) => (s.reg r cell page).toNat % 2 ^ 32
  match region, at_ with
  | 0, 0 => low .CAT_Qq_PTR catCell
  | 0, 4 => (s.reg .CAT_Qq_PTR catCell page).toNat / 2 ^ 32
  | 1, 0 => low .TRN_SQq_PTR trnCell
  | 2, 0 => low .TRN_CQq_PTR trnCell
  | 3, 0 => low .SPG_RXQq_PTR spgCell
  | 4, 0 => if page < 1024 then low .SHT_TXRr_PTR shtCell else 0
  | _, _ => 0

/-! ## Windows onto device memory -/

/-- R495: the device address of a byte of PF BAR4, where its segment is enabled. -/
def State.bar4Addr (s : State) (port off : Nat) : Option Nat :=
  let n := off / 2 ^ 32
  if n < 16 ∧ s.flag F.PCI_BAR4_SEGn_EN (upCell port) n then
    some (2 ^ 32 * s.fld F.PCI_BAR4_SEGn_BASE (upCell port) n + off % 2 ^ 32)
  else none

/-- R69, R187, R495: a write by host software to device memory. -/
def State.hostStore (s : State) (port a : Nat) (bs : List Byte) (ep : Bool) : State :=
  let r := s.store a bs ep true
  match r.1 with
  | .ok _ _ => r.2
  | .ring => r.2
  | _ => r.2.recordError (upCell port) clsAccess a 0

/-- R69, R187, R495: a read by host software of device memory: the bytes, and whether the completion carries EP. -/
def State.hostLoad (s : State) (port a n : Nat) : List Byte × Bool × State :=
  let r := s.load a n true
  match r.1 with
  | .ok bs p => (bs, p, r.2)
  | .ring => (List.replicate n 0, false, r.2)
  | _ => (List.replicate n 0, false, r.2.recordError (upCell port) clsAccess a 0)

/-- R495: a write of PF BAR4. -/
def State.bar4Write (s : State) (port off : Nat) (bs : List Byte) (ep : Bool) : State :=
  if s.fnFlr port 0 then s
  else if !s.fnAwake port 0 then s.unsupported port 0
  else
    let s := if ep then s.aerUncor port 0 aerPoisoned true else s
    match s.bar4Addr port off with
    | some a => s.hostStore port a bs ep
    | none => s.recordError (upCell port) clsAccess 0 0

/-- R495: a read of PF BAR4. -/
def State.bar4Read (s : State) (port off n : Nat) : List Byte × Bool × State :=
  if s.fnFlr port 0 then (List.replicate n 0, false, s)
  else if !s.fnAwake port 0 then (List.replicate n 0, false, s.unsupported port 0)
  else match s.bar4Addr port off with
    | some a => s.hostLoad port a n
    | none => (List.replicate n 0, false, s.recordError (upCell port) clsAccess 0 0)

/-! ## Virtual functions -/

def State.vfBusy (s : State) (port v : Nat) : Bool := s.flag F.PCI_VFv_STATE_QUIESCE_BUSY (upCell port) v
def State.vfEn (s : State) (port v : Nat) : Bool := s.flag F.PCI_VFv_CTRL_EN (upCell port) v

/-- R529: STATE of a VF. -/
def State.vfState (s : State) (port v : Nat) : Nat :=
  if !s.vfEn port v then (if s.vfBusy port v then 1 else 0)
  else if !s.vfBusy port v && s.enabled (upCell port) && s.fnExists port (v + 1) then 3 else 2

/-- `PCI_VFv_STATE` as it reads. -/
def State.vfStateReg (s : State) (port v : Nat) : Nat := putBits (s.reg .PCI_VFv_STATE (upCell port) v).toNat 2 0 (s.vfState port v)

/-- R531: the queues of a VF that a shutdown records: kind of R525 and number. -/
def State.vfQueues (s : State) (port v : Nat) : List (Nat × Nat) :=
  let cats := (s.catEnQueues.filter fun q => s.catOwnedBy q port (v + 1)).map fun q => (1, q)
  let pages := (List.range 256).filterMap fun p =>
    let w := (s.reg .PCI_VFv_PAGEp (upCell port) (256 * v + p)).toNat
    let k := bitsOf w 3 0
    let i := bitsOf w 27 16
    let en := (k == 2 && s.flag F.TRN_SQq_CFG_EN trnCell i) || (k == 4 && s.flag F.SPG_RXQq_CFG_EN spgCell i)
      || (k == 5 && decide (i < 1024) && s.flag F.SHT_TXRr_CFG_EN shtCell i)
    if en then some (k, i) else none
  (cats ++ pages).dedup

/-- R531: stop one recorded queue. -/
def State.vfStopQueue (s : State) (x : Nat × Nat) : State :=
  match x.1 with
  | 1 => s
  | 2 => s.setFlag F.TRN_SQq_CFG_EN trnCell false x.2
  | 4 => s.setFlag F.SPG_RXQq_CFG_EN spgCell false x.2
  | _ => (s.txrWithdraw x.2).setFlag F.SHT_TXRr_CFG_EN shtCell false x.2

/-- R534: start one recorded queue again. -/
def State.vfStartQueue (s : State) (x : Nat × Nat) : State :=
  match x.1 with
  | 1 => s.catWriteEn x.2 true
  | 2 => s.setFlag F.TRN_SQq_CFG_EN trnCell true x.2
  | 4 => (s.setFlag F.SPG_RXQq_CFG_EN spgCell true x.2).rxqEnable x.2
  | _ => (s.setFlag F.SHT_TXRr_CFG_EN shtCell true x.2).txrEnable x.2

/-- The Catalogue queues that a function owns, whatever their state. -/
def State.fnCatQueues (s : State) (port fn : Nat) : List Nat :=
  let base := regAddr .CAT_Qq_OWNER catCell 0
  let base0 := regAddr .CAT_Qq_CFG catCell 0
  let of := s.regs.filterMap fun p =>
    if base0 ≤ p.1 ∧ p.1 < base0 + 0x40000 ∧ ((p.1 - base0) % 64 = 0 ∨ (p.1 - base) % 64 = 0) then some ((p.1 - base0) / 64) else none
  of.dedup.filter fun q => s.catOwnedBy q port fn

/-- R479, R509, R531: every Catalogue queue of a function is reset, without records. -/
def State.resetFnQueues (s : State) (port fn : Nat) : State :=
  (s.fnCatQueues port fn).foldl (fun s q => s.catQueueReset q false) s

/-- R530, R531: a shutdown begins; one in progress is joined. -/
def State.vfShutdown (s : State) (port v : Nat) : State :=
  if s.vfBusy port v then s
  else
    let qs := s.vfQueues port v
    let s := s.setFlag F.PCI_VFv_STATE_QUIESCE_BUSY (upCell port) true v
    let s := s.setVf port v { s.vf port v with recorded := qs }
    let s := s.stopFn port (v + 1) true
    let s := s.resetFnQueues port (v + 1)
    (qs.foldl (fun s x => s.vfStopQueue x) s).settle

/-- R534: a VF that reads ENABLED enables what was recorded. -/
def State.vfStarted (s : State) (port v : Nat) : State :=
  if s.vfState port v ≠ 3 then s
  else
    let x := s.vf port v
    x.recorded.foldl (fun s q => s.vfStartQueue q) (s.setVf port v { x with recorded := [] })

/-- R532: a shutdown completes. -/
def State.vfShutdownDone (s : State) (port v : Nat) : State :=
  if !s.vfBusy port v then s
  else
    let s := ((s.nextGen port (v + 1)).trnVfPast).clearFn port (v + 1) true false
    (s.setFlag F.PCI_VFv_STATE_QUIESCE_BUSY (upCell port) false v).vfStarted port v

/-- R529, R530: a write of `PCI_VFv_CTRL`.EN. -/
def State.vfWriteEn (s : State) (port v : Nat) (en : Bool) : State :=
  let was := s.vfState port v
  let s := s.setFlag F.PCI_VFv_CTRL_EN (upCell port) en v
  if en then (if was = 3 then s else s.vfStarted port v) else if was = 3 then s.vfShutdown port v else s

/-- R509: the configuration space of a function that ceases to exist is gone whole. -/
def State.wipeFn (s : State) (port fn : Nat) : State :=
  (s.clearFn port fn true true).setPciFn port fn {}

/-- R530: a VF comes to exist or ceases to. -/
def State.setExists (s : State) (port v : Nat) (on : Bool) : State :=
  let was := s.fnExists port (v + 1)
  if was = on then s
  else if on then (s.setFlag F.PCI_FNf_STATUS_EXISTS (upCell port) true (v + 1)).vfStarted port v
  else
    let s := if s.vfState port v = 3 then s.vfShutdown port v else s.stopFn port (v + 1) true
    let s := s.setFlag F.PCI_FNf_STATUS_EXISTS (upCell port) false (v + 1)
    let s := (s.setFlag F.PCI_FNf_STATUS_BME (upCell port) false (v + 1)).setFlag F.PCI_FNf_STATUS_FLR_BUSY (upCell port) false (v + 1)
    s.wipeFn port (v + 1)

/-- R490: the VFs that exist follow VF Enable and NumVFs. -/
def State.vfsFollow (s : State) (port : Nat) : State :=
  let n := if bitsOf (s.cfg port 0 0x168) 0 0 = 1 then s.cfg port 0 0x170 % 65536 else 0
  (List.range 256).foldl (fun s v => s.setExists port v (decide (v < n))) s

/-- R530: the upstream port cell leaves ENABLED, or becomes ENABLED. -/
def State.upCellDown (s : State) (port : Nat) : State :=
  (List.range 256).foldl (fun s v => if s.vfEn port v ∧ s.fnExists port (v + 1) then s.vfShutdown port v else s) s
def State.upCellUp (s : State) (port : Nat) : State := (List.range 256).foldl (fun s v => s.vfStarted port v) s

/-- R525, R526: the page map entry of a page of VF BAR2. -/
def State.vfPage (s : State) (port v p : Nat) : Nat := (s.reg .PCI_VFv_PAGEp (upCell port) (256 * v + p)).toNat

/-- R487, R509: a request to a BAR of a VF that does not decode it: unsupported, but during an FLR, and where there is no such VF. -/
def State.vfUnsupported (s : State) (port v : Nat) : State :=
  if !s.fnExists port (v + 1) ∨ s.fnFlr port (v + 1) then s else s.unsupported port (v + 1)

/-- R525, R526: a write of VF BAR2, at an offset of page p. -/
def State.vfBar2Write (s : State) (port v p off : Nat) (bs : List Byte) (ep : Bool) : State :=
  let w := s.vfPage port v p
  let kind := bitsOf w 3 0
  let i := bitsOf w 27 16
  if !s.fnAwake port (v + 1) then s.vfUnsupported port v
  else if kind = 6 then
    if bitsOf w 4 4 = 0 then s.ignoreDoorbell port
    else
      let s := if ep then s.aerUncor port (v + 1) aerPoisoned true else s
      s.hostStore port (bitsOf w 63 28 * 4096 + off) bs ep
  else if kind = 0 ∨ 5 < kind ∨ bs.length ≠ 4 ∨ !(off = 0 ∨ (kind = 1 ∧ off = 4)) ∨ s.vfState port v ≠ 3 then s
  else if (kind = 1 ∧ !s.catOwnedBy i port (v + 1))
      ∨ (kind = 2 ∧ s.fld F.TRN_SQq_CFG_PD trnCell i ≠ s.fld F.PCI_VFv_PROV_PD (upCell port) v) then s.ignoreDoorbell port
  else if kind = 5 ∧ 1024 ≤ i then s
  else s.doorbell kind i off (leNat bs)

/-- R526, R527: a read of VF BAR2. -/
def State.vfBar2Read (s : State) (port v p off n : Nat) : List Byte × Bool × State :=
  let w := s.vfPage port v p
  let i := bitsOf w 27 16
  let zero := (List.replicate n (0 : Byte), false, s)
  if !s.fnAwake port (v + 1) then (List.replicate n 0, false, s.vfUnsupported port v)
  else match bitsOf w 3 0 with
    | 6 => s.hostLoad port (bitsOf w 63 28 * 4096 + off) n
    | 1 => if n = 4 ∧ (off = 0 ∨ off = 4) then (natLe 4 (s.pfDoorbellRead (i * 4096 + off)), false, s) else zero
    | 2 => if n = 4 ∧ off = 0 then (natLe 4 (s.pfDoorbellRead (0x1000000 + i * 4096)), false, s) else zero
    | 3 => if n = 4 ∧ off = 0 then (natLe 4 (s.pfDoorbellRead (0x2000000 + i * 4096)), false, s) else zero
    | 4 => if n = 4 ∧ off = 0 then (natLe 4 (s.pfDoorbellRead (0x3000000 + i * 4096)), false, s) else zero
    | 5 => if n = 4 ∧ off = 0 then (natLe 4 (s.pfDoorbellRead (0x4000000 + i * 4096)), false, s) else zero
    | _ => zero

/-! ## Function Level Reset -/

/-- R509: an FLR begins. -/
def State.flrStart (s : State) (port fn : Nat) : State :=
  if !s.fnExists port fn ∨ s.fnFlr port fn then s
  else
    let s := s.bmeOff port fn
    let s := (s.setFlag F.PCI_FNf_STATUS_FLR_BUSY (upCell port) true fn).event (0x40021080 + port)
    let s := (s.stopFn port fn true).resetFnQueues port fn
    let s := (s.clearFn port fn true true).setReg .PCI_FNf_DMA (upCell port) 0 fn
    (if fn = 0 then s.vfsFollow port else s.vfShutdown port (fn - 1)).settle

/-- R510: an FLR completes. That of a VF is its shutdown, and GEN moves once. -/
def State.flrComplete (s : State) (port fn : Nat) : State :=
  if !s.fnFlr port fn then s
  else
    let s := s.setFlag F.PCI_FNf_STATUS_FLR_BUSY (upCell port) false fn
    if fn = 0 then s.nextGen port 0 else s.vfShutdownDone port (fn - 1)


/-! ## Containment, presence and links -/

/-- R486: the link of a port comes up or goes down; LINK_EVENT. For an upstream port its speed code, width and Flit mode. -/
def State.setLink (s : State) (j : Nat) (up : Bool) (speed width : Nat) (flit : Bool) : State :=
  if j < 2 then
    let was := s.flag F.PCI_UP_STATUS_LINK_UP (upCell j)
    let s := s.setFlag F.PCI_UP_STATUS_LINK_UP (upCell j) up
    let s := s.setFlag F.PCI_UP_STATUS_FLIT (upCell j) (up && flit)
    let s := (s.setFld F.PCI_UP_STATUS_SPEED (upCell j) (if up then speed else 0)).setFld F.PCI_UP_STATUS_WIDTH (upCell j) (if up then width else 0)
    let ls := if up then speed * 2 ^ 16 + width * 2 ^ 20 else 0
    let s := s.setCfg j 0 0x70 (putBits (s.cfg j 0 0x70) 31 16 (ls / 2 ^ 16))
    let s := if up ∧ s.pci.retrain.contains j then
        s.setPci { s.pci with retrain := s.pci.retrain.filter (· != j), retry := (j, s.now + 100000000) :: s.pci.retry.filter fun r => r.1 != j }
      else s
    if was = up then s else s.event (0x40021000 + j)
  else
    let old := s.cfg j 0 0x70
    let was := bitsOf old 29 29 == 1
    let st := if up then speed + width * 2 ^ 4 + 2 ^ 13 else 0
    let s := s.setCfg j 0 0x70 (putBits old 31 16 st)
    if was = up then s else (s.cfgSet j 0 0x78 0x1000000).event (0x40021000 + j)

/-- R511: a fundamental reset of an upstream port: an FLR of PF0, which shuts down every VF; the link trains again. -/
def State.fundamental (s : State) (port : Nat) : State :=
  let vfs := (List.range 256).filter fun v => s.fnExists port (v + 1)
  let s := s.flrStart port 0
  let s := vfs.foldl (fun s v => s.vfShutdown port v) s
  let s := s.setLink port false 0 0 false
  s.setPci { s.pci with retrain := if s.pci.retrain.contains port then s.pci.retrain else port :: s.pci.retrain }


/-- R486: the link of a port is held in the Disabled state. Non-posted requests below a downstream port end as containment ends them
(log 30). -/
def State.linkDisable (s : State) (j : Nat) : State :=
  let s := s.setLink j false 0 0 false
  if j < 2 then s else ((s.movPortLost j).catPortLost j).settle

/-- R518: containment triggers. -/
def State.dpcTrigger (s : State) (k : Nat) (cause : DpcCause) : State :=
  let port := 2 + k
  let en := bitsOf (s.cfg port 0 0x154) 17 16
  let takes := match cause with
    | .surpriseDown => true
    | .errFatal => en == 1 || en == 2
    | .errNonfatal => en == 2
    | .uncorrectable => en == 1 || en == 2
  let s := match cause with
    | .errNonfatal => (s.cfgSet port 0 0x130 0x24).event (0x40021060 + k)
    | .errFatal => (s.cfgSet port 0 0x130 0x44).event (0x40021060 + k)
    | _ => s
  if !takes ∨ bitsOf (s.cfg port 0 0x158) 0 0 = 1 then s
  else
    let why := match cause with
      | .uncorrectable => 0
      | .errNonfatal => 1
      | .errFatal => 2
      | .surpriseDown => 0
    let s := s.setCfg port 0 0x158 (putBits (putBits (s.cfg port 0 0x158) 0 0 1) 2 1 why)
    let s := s.setLink port false 0 0 false
    let s := ((s.event (0x40021020 + k)).count (downCell k) (evOf 0x22 7))
    ((s.movPortLost port).catPortLost port).settle

/-- R519: firmware clears DPC Trigger Status; the link may train again. -/
def State.dpcRelease (s : State) (k : Nat) : State := s.setCfg (2 + k) 0 0x158 (putBits (s.cfg (2 + k) 0 0x158) 0 0 0)

/-- R486: a rate and width that a port can train to. -/
def trains (j speed width : Nat) : Bool := decide (1 ≤ speed) && decide (speed ≤ 6) && [1, 2, 4, 8, 16].contains width && decide (width ≤ portLanes j)

/-- R486, R518: the link of a port changes: up, to a rate and width that it supports, in Flit mode at 64.0 GT/s. A downstream link that
goes down uncontained, in an ENABLED cell, is a Surprise Down; one that firmware has disabled stays down. -/
def State.linkChange (s : State) (j : Nat) (up : Bool) (speed width : Nat) (flit : Bool) : State :=
  let flit := flit || speed == 6
  if up ∧ !trains j speed width then s
  else if j < 2 then (if up ∧ s.cellState (upCell j) ≠ 3 then s else s.setLink j up speed width flit)
  else
    let contained := bitsOf (s.cfg j 0 0x158) 0 0 == 1
    let disabled := bitsOf (s.cfg j 0 0x70) 4 4 == 1 || bitsOf (s.cfg j 0 0x3C) 22 22 == 1
    if up then (if s.cellState (portCell j) ≠ 3 ∨ contained ∨ disabled then s else s.setLink j true speed width flit)
    else if bitsOf (s.cfg j 0 0x70) 29 29 = 1 ∧ !contained then s.dpcTrigger (j - 2) .surpriseDown
    else s

/-- R520, R621: Presence Detect State of a downstream port is the filtered level of its input. -/
def State.presentNow (s : State) (k : Nat) : State :=
  s.setCfg (2 + k) 0 0x78 (putBits (s.cfg (2 + k) 0 0x78) 22 22 (bitsOf s.power.inputs (8 + k) (8 + k)))

/-- R520: presence changes; its loss while the link is up triggers containment. -/
def State.presence (s : State) (k : Nat) (on : Bool) : State :=
  let port := 2 + k
  let s := { s with power := { s.power with inputs := putBits s.power.inputs (8 + k) (8 + k) on.toNat } }
  let old := s.cfg port 0 0x78
  if (bitsOf old 22 22 == 1) = on then s
  else
    let s := s.setCfg port 0 0x78 (putBits (putBits old 22 22 on.toNat) 19 19 1)
    let s := s.event (0x40021040 + k)
    if !on ∧ bitsOf (s.cfg port 0 0x70) 29 29 = 1 then s.dpcTrigger k .surpriseDown else s

/-- R512: the AER bit of an error, and whether it is correctable. -/
def LinkError.bit : LinkError → Nat × Bool
  | .receiver => (0, true)
  | .badTlp => (6, true)
  | .badDllp => (7, true)
  | .replayRollover => (8, true)
  | .replayTimeout => (12, true)
  | .correctedFec => (0, true)
  | .ecrc => (19, false)
  | .malformed => (18, false)
  | .flowControl => (13, false)
  | .dataLink => (4, false)

/-- R512, R518, R522: a port detects an error. Corrected FEC is counted; it has no status bit. -/
def State.linkError (s : State) (j : Nat) (e : LinkError) (hdr : List Word32) : State :=
  let (bit, cor) := e.bit
  let seen := fun (s : State) => if 2 ≤ j then s.event (0x40021060 + (j - 2)) else s
  if e = .correctedFec then s.count (portCell j) (evOf (if 2 ≤ j then 0x22 else 0x21) 4) (if 2 ≤ j then none else some 0) |>.noteLinkErr
  else if cor then seen (s.aerCor j 0 bit).noteLinkErr
  else
    let s := seen ((s.aerUncor j 0 bit false hdr).recordError (portCell j) clsLink 0 0)
    if 2 ≤ j ∧ bitsOf (s.cfg j 0 0x108) bit bit = 0 then s.dpcTrigger (j - 2) .uncorrectable else s

/-! ## Inbound requests -/

/-- R515: the first enabled window that holds an address range, lowest first. -/
def State.inWindow (s : State) (k a n : Nat) : Option Nat :=
  let c := downCell k
  let coll := (List.range 8).find? fun w => s.flag F.PCI_DP_INWw_BUS_EN c w && s.flag F.PCI_DP_INWw_BUS_COLL c w
  (List.range 8).find? fun w =>
    let sz := s.fld F.PCI_DP_INWw_MAP_SIZE_LOG2 c w
    let base := 4096 * s.fld F.PCI_DP_INWw_BUS_BUS_BASE c w
    s.flag F.PCI_DP_INWw_BUS_EN c w && decide (12 ≤ sz) && decide (sz ≤ 40) && base % 2 ^ sz == 0
      && (!s.flag F.PCI_DP_INWw_BUS_COLL c w || coll == some w) && decide (base ≤ a) && decide (a + n ≤ base + 2 ^ sz)

/-- R516: a request is refused: row r of the rule, an Unsupported Request or Completer Abort for a read, PROTOCOL where the row says. -/
def State.inRefuse (s : State) (k row : Nat) (read abort protocol : Bool) : State :=
  let port := 2 + k
  let s := s.count (downCell k) (evOf 0x22 6) (some row)
  let s := if abort then s else (s.aerUncor port 0 aerUnsupported true).event (0x40021060 + k)
  let s := if protocol then s.recordError (downCell k) clsProtocol 0 0 else s
  if read then s.sendTlp { port := port, fn := 0, kind := .completion (if abort then 4 else 1) } else s

/-- R335: the accepted runs of a port that nothing holds any more reach the Collector, in order; `fuel` counts them. -/
def State.heldTake (s : State) (k : Nat) : (fuel : Nat) → State
  | 0 => s
  | n + 1 => match s.pci.held.find? fun h => h.1 == k with
    | none => s
    | some (_, r) =>
      if s.colHolds r false then s
      else (((s.setPci { s.pci with held := s.pci.held.erase (k, r) }).colArrive r).colSettle).heldTake k n

def State.heldRetry (s : State) (k : Nat) : State := s.heldTake k s.pci.held.length

/-- R335, R337, R360: a write to the Collector window is accepted; what cannot be taken yet is held. -/
def State.inCollector (s : State) (k w : Nat) (bs : List Byte) (ep : Bool) : State :=
  match s.bindAt k w with
  | none => s.inRefuse k 4 false false true
  | some b =>
    let r := s.bindWrite b w bs ep
    (r.2.setPci { r.2.pci with held := r.2.pci.held ++ r.1.map fun g => (k, g) }).heldRetry k

/-- R515, R516: a request that nothing holds up. -/
def State.inRequest (s : State) (k : Nat) (r : InRequest) : State :=
  let c := downCell k
  let (a, n, read, atomic) : Nat × Nat × Bool × Bool := match r with
    | .write a bs _ => (a, bs.length, false, false)
    | .read a n => (a, n, true, false)
    | .atomic a => (a, 1, true, true)
  let s := s.noteTlp (2 + k) (if read then 0 else n)
  match (if atomic then none else s.inWindow k a n) with
  | none => s.inRefuse k 7 read false true
  | some w =>
    let off := a - 4096 * s.fld F.PCI_DP_INWw_BUS_BUS_BASE c w
    if s.flag F.PCI_DP_INWw_BUS_COLL c w then
      match r with
      | .write _ bs ep => s.inCollector k off bs ep
      | _ => s.inRefuse k 5 true false false
    else if (read ∧ !s.flag F.PCI_DP_INWw_BUS_R c w) ∨ (!read ∧ !s.flag F.PCI_DP_INWw_BUS_W c w) then s.inRefuse k 6 read false true
    else
      let d := 4096 * s.fld F.PCI_DP_INWw_MAP_DEV_BASE c w + off
      match r with
      | .write _ bs ep =>
        let x := s.store d bs ep true
        (match x.1 with
          | .unmapped => s.inRefuse k 7 false false true
          | .down => s.inRefuse k 8 false true true
          | _ => x.2)
      | _ =>
        let x := s.load d n true
        (match x.1 with
          | .ok bs p => x.2.sendTlp { port := 2 + k, fn := 0, kind := .completion 0, addr := a, len := n, bytes := bs, ep := p }
          | .ring => x.2.sendTlp { port := 2 + k, fn := 0, kind := .completion 0, addr := a, len := n, bytes := List.replicate n 0 }
          | .unmapped => s.inRefuse k 7 true false true
          | .down => s.inRefuse k 8 true true true)


/-- R335, R516, R518: a request arrives from below a port. Posted traffic behind a held write waits outside the part; a contained port
takes nothing. -/
def State.inbound (s : State) (k : Nat) (r : InRequest) : State :=
  let s := s.heldRetry k
  let posted : Bool := match r with
    | .write _ _ _ => true
    | _ => false
  if !s.dpUp (2 + k) ∨ (posted ∧ s.pci.held.any fun h => h.1 == k) then s else s.inRequest k r

/-! ## Configuration space -/

/-- R509: bits of an enabled byte mask over the 32 bits of a dword. -/
def byteMask (en : Nat) : Nat := ((List.range 4).map fun i => if en / 2 ^ i % 2 = 1 then 0xFF * 2 ^ (8 * i) else 0).sum

/-- The offset of the PCI Express capability's Device Control register of a function. -/
def devCtlOff (fn : Nat) : Nat := if fn = 0 then 0x68 else 0x48

/-- R511: the completion of a configuration request that a function cannot take yet: Request Retry Status. -/
def State.retryCpl (s : State) (port fn off : Nat) : State :=
  s.sendTlp { port := port, fn := fn, kind := .completion 2, addr := off, len := 4 }

/-- R508: the commands of a function's Catalogue queues that still need its buffers: those not started end, a READ fails. -/
def State.catFnLost (s : State) (port fn : Nat) : State :=
  (s.fnCatQueues port fn).foldl (fun s q =>
    (s.catQueue q).cmds.foldl (fun s c =>
      if c.opc ≠ opRead ∧ c.opc ≠ opWrite then s
      else match c.phase with
        | .ready => s.catComplete q c stAccessLost 0
        | .running => if c.opc = opRead then s.putCmd q (c.losesHost c.lba) else s
        | _ => s) s) s

/-- R508: Bus Master Enable of a function is cleared. -/
def State.bmeClear (s : State) (port fn : Nat) : State :=
  if s.fnBme port fn then ((s.bmeOff port fn).catFnLost port fn).settle else s

/-- R489: a write of an unsupported power state is discarded. -/
def powerState (old new : Nat) : Nat := if bitsOf new 1 0 = 1 ∨ bitsOf new 1 0 = 2 then putBits new 1 0 (bitsOf old 1 0) else new

/-- A configuration write of a function of an upstream port: a dword and its byte enables. -/
def State.cfgWriteUp (s : State) (port fn off v en : Nat) : State :=
  if s.retrying port then s.retryCpl port fn off
  else if !s.fnExists port fn ∨ s.fnFlr port fn then s
  else
    let m := byteMask en
    let d := cfgDword port fn off
    let old := s.cfg port fn off
    let vfOn := bitsOf (s.cfg port 0 0x168) 0 0 == 1
    let flr := off == devCtlOff fn && bitsOf (v &&& m) 15 15 == 1
    if flr then s.flrStart port fn
    else if fn = 0 ∧ off = 0x170 ∧ vfOn then s
    else
      let new := d.write old v m
      let new := if off = 0x04 then putBits new 2 2 (bitsOf old 2 2) else if fn = 0 ∧ off = 0x44 then powerState old new else new
      let s := s.setCfg port fn off new
      let s := if off = 0x04 ∧ bitsOf m 2 2 = 1 then
          (if bitsOf v 2 2 = 1 then s.bmeOn port fn else s.bmeClear port fn)
        else s
      let s := if off = (if fn = 0 then 0x50 else 0x80) then s.msixFlush port fn else s
      let ats := off == (if fn = 0 then 0x1A4 else 0x154)
      let s := if ats ∧ !s.atsOn port fn then s.setPci { s.pci with cache := s.pci.cache.filter fun p => !(p.1 == port && p.2.fn == fn) } else s
      (if fn = 0 ∧ off = 0x168 then s.vfsFollow port else s).settle

/-- R513: a configuration write of a downstream port. Link Disable and Secondary Bus Reset hold its link down, which is no Surprise
Down (log 30). -/
def State.cfgWriteDown (s : State) (k off v en : Nat) : State :=
  let port := 2 + k
  let s := s.setCfg port 0 off ((cfgDword port 0 off).write (s.cfg port 0 off) v (byteMask en))
  let held := (off == 0x70 && bitsOf (s.cfg port 0 0x70) 4 4 == 1) || (off == 0x3C && bitsOf (s.cfg port 0 0x3C) 22 22 == 1)
  if held ∧ bitsOf (s.cfg port 0 0x70) 29 29 = 1 then s.linkDisable port else s

/-- R509, R511: a configuration read. During an FLR it returns the function's reset values. A function that does not exist, or that
answers with Request Retry Status, reads all ones. -/
def State.cfgRead (s : State) (port fn off : Nat) : Nat :=
  if port < 2 ∧ (s.retrying port || !s.fnExists port fn) then 0xFFFFFFFF
  else if port < 2 ∧ s.fnFlr port fn then (cfgDword port fn off).reset
  else s.cfg port fn off

/-- R517: an access of `PCI_DP_CFG_DATA` with the outcome that the device below gives: the value read. A port without its link gives
Unsupported Request, a contained one 4. -/
def State.dpCfgAccess (s : State) (k : Nat) (write : Bool) (v status data : Nat) : Nat × State :=
  let port := 2 + k
  let c := downCell k
  let st := if bitsOf (s.cfg port 0 0x158) 0 0 = 1 then 4 else if !s.dpUp port then 1 else min 5 status
  let a := (s.reg .PCI_DP_CFG_ADDR c).toNat % 2 ^ 28
  let s := if s.dpUp port then
      (s.sendTlp { port := port, fn := 0, kind := if write then .configWrite else .configRead, addr := a, len := 4,
                   bytes := if write then natLe 4 v else [] })
    else s
  let s := s.setFld F.PCI_DP_CFG_ADDR_STATUS c st
  let s := if st = 3 then ((s.count c (evOf 0x22 5)).aerUncor port 0 aerTimeout false).event (0x40021060 + k) else s
  (if st = 0 then data % 2 ^ 32 else 0xFFFFFFFF, s)

/-- R506, R517: a request of a port times out. Below a downstream port it is the read of a FLUSH, tagged with its mover. -/
def State.requestTimeout (s : State) (j tag : Nat) : State :=
  if j < 2 then (s.hostTimeout j tag).settle
  else
    let es := ((s.mover tag).run.map MovRun.entries).getD []
    match es.zipIdx.find? fun p => p.1.kind == 3 && p.1.status == .running && p.1.pcie == j with
    | none => s
    | some (_, i) =>
      let s := ((s.count (portCell j) (evOf 0x22 5)).aerUncor j 0 aerTimeout false).event (0x40021060 + (j - 2))
      s.flushEnd tag i clsTimeout

/-- R627: PERST_N of a downstream port whose cell leaves ENABLED is asserted. -/
def State.perstAssert (s : State) (k : Nat) : State := { s with chr := { s.chr with released := s.chr.released.filter (· != k) } }

/-- R521: a reset of a downstream port cell. -/
def State.dpReset (s : State) (k : Nat) : State :=
  let port := 2 + k
  let s := (((s.perstAssert k).linkDisable port).setPciFn port 0 {}).presentNow k
  s.setPci { s.pci with held := s.pci.held.filter fun h => h.1 != k }

/-- R521: a port has no request of its own outstanding. -/
def State.portIdle (s : State) (j : Nat) : Bool :=
  if j < 2 then s.outstanding j == 0 && !(s.pci.ops.any fun o => o.port == j)
  else !(s.movers.any fun m => ((m.2.run.map MovRun.entries).getD []).any fun e => e.kind == 3 && e.status == .running && e.pcie == j)
    && !(s.pci.held.any fun h => 2 + h.1 == j)

end Sys2Proof.Machine
end

