-- ==== Sys2Proof/Machine/Filter.lean ====
section
/-! DEFINITION. The Filter units and the key store (chapter 17): descriptors and their checks (R541 to R545), the stream between
memory and the slots of a sequencer's local memory (R546 to R550), the dual computation (R551), and the key commands (R552 to R557). -/

namespace Sys2Proof.Machine

open Sys2Proof

/-! ## The key store -/

def keyEmpty : Nat := 0
def keyValid : Nat := 1
def keyErasing : Nat := 2
def keyFault : Nat := 3

/-- R552: the material of an entry. -/
def State.keyEntry (s : State) (k : Nat) : KeyEntry := smapGet (fun _ => {}) s.keys k

def State.setKeyEntry (s : State) (k : Nat) (e : KeyEntry) : State := { s with keys := smapSet (fun _ => {}) s.keys k e }

def State.keyState (s : State) (k : Nat) : Nat := s.fld F.KEY_ATTRn_STATE keyCell k

/-- R552, R556: an entry's key enters an engine: its bytes, 16 or 32; none where its copy and complement disagree, which puts the
entry in FAULT. -/
def State.keyEnters (s : State) (k : Nat) : Option (List Byte) × State :=
  let e := s.keyEntry k
  if e.comp = ~~~e.key then
    (some (natLe (if s.flag F.KEY_ATTRn_SIZE keyCell k then 32 else 16) e.key.toNat), s)
  else (none, (s.setFld F.KEY_ATTRn_STATE keyCell keyFault k).recordError keyCell clsEccUncorr 0 k)

/-- R555: both copies of an erased entry are overwritten with zeros, the entry becomes EMPTY, and KEY_DONE is set. -/
def State.keyErased (s : State) (k : Nat) : State :=
  ((s.setKeyEntry k {}).setReg .KEY_ATTRn keyCell 0 k).event 0x40029000

/-- R555: the completion of an erase, once no descriptor runs with the entry. -/
def State.keyEraseComplete (s : State) (k : Nat) : State :=
  if s.keyState k = keyErasing ∧ s.fld F.KEY_ATTRn_RUNNING keyCell k = 0 then s.keyErased k else s

/-- R554: the outcome of a key command: code 0 for done. -/
def State.keyResult (s : State) (code idx : Nat) : State :=
  let s := s.setFld F.KEY_CMD_RESULT_RESULT keyCell (if code = 0 then 1 else 2)
  (s.setFld F.KEY_CMD_RESULT_CODE keyCell code).setFld F.KEY_CMD_RESULT_INDEX keyCell idx

/-- R554: entry idx becomes VALID with the SIZE, CHECK and usage bits of a command word. -/
def State.keyLoaded (s : State) (idx v : Nat) (key : List Byte) : State :=
  let m : BitVec 256 := BitVec.ofNat 256 (leNat key)
  let s := s.setKeyEntry idx ⟨m, ~~~m⟩
  let s := s.setReg .KEY_ATTRn keyCell 0 idx
  let s := s.setFld F.KEY_ATTRn_STATE keyCell keyValid idx
  let s := s.setFld F.KEY_ATTRn_SIZE keyCell (bitsOf v 2 2) idx
  let s := s.setFld F.KEY_ATTRn_CHECK keyCell (bitsOf v 3 3) idx
  (s.setFld F.KEY_ATTRn_USAGE keyCell (bitsOf v 6 4) idx).keyResult 0 idx

/-- R554: the 64-byte aligned source of a load; none where the read fails or returns poison. -/
def State.keySource (s : State) (n : Nat) : Option (List Byte) × State :=
  let a := s.fld F.KEY_CMD_ARG_ADDR keyCell
  if a % 64 ≠ 0 then (none, s)
  else match s.devRead a n with
    | (some (bs, false), s) => (some bs, s)
    | (_, s) => (none, s)

/-- One step of the inverse of RFC 3394: `t` is the step's number, the blocks R[1] to R[n] rotate with it. -/
def unwrapStep (key : List Nat) (n : Nat) (st : List Nat × List (List Nat)) (t : Nat) : List Nat × List (List Nat) :=
  let i := (t - 1) % n
  let tb := (natLe 8 t).reverse.map BitVec.toNat
  let b := aesDecrypt key (xorBytes st.1 tb ++ st.2.getD i [])
  (b.take 8, st.2.set i (b.drop 8))

/-- R554: AES Key Unwrap of RFC 3394: the key, none where the integrity check fails. -/
def keyUnwrap (key wrapped : List Byte) : Option (List Byte) :=
  let w := wrapped.map BitVec.toNat
  let n := w.length / 8 - 1
  let r := ((List.range (6 * n)).map fun i => 6 * n - i).foldl (unwrapStep (key.map BitVec.toNat) n)
    (w.take 8, chunksOf 8 n (w.drop 8))
  if r.1 = List.replicate 8 0xA6 then some (r.2.flatten.map (BitVec.ofNat 8)) else none

/-- R554: LOAD_PLAIN. -/
def State.keyLoadPlain (s : State) (v idx : Nat) : State :=
  match s.keySource 64 with
  | (none, s) => s.keyResult 3 idx
  | (some bs, s) =>
    let key := bs.take 32
    let okSize := bitsOf v 2 2 == 1 || (key.drop 16).all (· == 0)
    if (bs.drop 32 == key.map fun b => ~~~b) && okSize then s.keyLoaded idx v key else s.keyResult 4 idx

/-- R554: LOAD_WRAPPED. -/
def State.keyLoadWrapped (s : State) (v idx : Nat) : State :=
  match s.keySource (if bitsOf v 2 2 = 1 then 40 else 24) with
  | (none, s) => s.keyResult 3 idx
  | (some bs, s) =>
    let kek := s.fld F.KEY_CMD_ARG_KEK keyCell
    if s.keyState kek ≠ keyValid ∨ bitsOf (s.fld F.KEY_ATTRn_USAGE keyCell kek) 2 2 = 0 then s.keyResult 5 idx
    else match s.keyEnters kek with
      | (none, s) => s.keyResult 5 idx
      | (some k, s) =>
        match keyUnwrap k bs with
        | some key => s.keyLoaded idx v key
        | none => s.keyResult 4 idx

/-- R554, R555: ERASE. -/
def State.keyErase (s : State) (idx : Nat) : State :=
  let st := s.keyState idx
  (if st = keyEmpty ∨ st = keyFault then s.keyErased idx
    else s.setFld F.KEY_ATTRn_STATE keyCell keyErasing idx).keyResult 0 idx

/-- R554, R566: a write of KEY_CMD by an agent that may issue the command. -/
def State.keyCommand (s : State) (v : Nat) : State :=
  let cmd := bitsOf v 1 0
  let idx := bitsOf v 29 16
  if s.faulted rotCell ∨ cmd = 0 ∨ bitsOf v 15 7 ≠ 0 ∨ bitsOf v 31 30 ≠ 0 then s.keyResult 1 idx
  else if cmd = 3 then s.keyErase idx
  else if s.keyState idx ≠ keyEmpty then s.keyResult 2 idx
  else if cmd = 1 then s.keyLoadPlain v idx
  else s.keyLoadWrapped v idx

/-- R61: the key store cell is reset: every entry is EMPTY. -/
def State.keyReset (s : State) : State := { s with keys := [] }

/-! ## Units and queues -/

def State.fltUnit (s : State) (u : Nat) : FltUnit := smapGet (fun _ => {}) s.flt.units u

def State.setFltUnit (s : State) (u : Nat) (x : FltUnit) : State :=
  { s with flt := { s.flt with units := smapSet (fun _ => {}) s.flt.units u x } }

def State.setFltRun (s : State) (u : Nat) (r : FltRun) : State := s.setFltUnit u { s.fltUnit u with run := some r }

def State.fltHeld (s : State) (q : Nat) : Option (List Word32) := smapGet (fun _ => none) s.flt.fenced q

def State.setFltHeld (s : State) (q : Nat) (w : Option (List Word32)) : State :=
  { s with flt := { s.flt with fenced := smapSet (fun _ => none) s.flt.fenced q w } }

def State.setFltNext (s : State) (q : Nat) : State := { s with flt := { s.flt with next := q % 256 } }

/-- R541: a descriptor of the queue runs on some unit, or waits there for its completion. -/
def State.fltRunning (s : State) (q : Nat) : Bool :=
  (List.range 40).any fun u => match (s.fltUnit u).run with
    | some r => r.q == q
    | none => false

/-- R541: EN set from 0 to 1 sets HEAD and TAIL to 0. -/
def State.fltEnable (s : State) (q : Nat) : State :=
  (((s.setFld F.FLT_Qq_PTR_TAIL fltCell 0 q).setFld F.FLT_Qq_PTR_HEAD fltCell 0 q).setFltHeld q none).setPosted (filterKey q) []

/-- R541: a queue whose next descriptor may start. -/
def State.fltReady (s : State) (q : Nat) : Bool :=
  let log := s.fld F.FLT_Qq_CFG_SIZE_LOG2 fltCell q
  s.flag F.FLT_Qq_CFG_EN fltCell q && decide (6 ≤ log ∧ log ≤ 16)
    && s.fld F.FLT_Qq_PTR_HEAD fltCell q != s.fld F.FLT_Qq_PTR_TAIL fltCell q
    && ((s.fltHeld q).isNone || !s.fltRunning q)

/-- R541: a poll of the queue's doorbell line. -/
def State.fltPoll (s : State) (q : Nat) : State :=
  if !s.flag F.FLT_Qq_CFG_POLL fltCell q then s
  else match s.readDoorbell (64 * s.fld F.FLT_Qq_DB_LINE fltCell q) fltCell with
    | (some t, s) => (s.postEntries (filterKey q) false (s.fld F.FLT_Qq_PTR_TAIL fltCell q) t).setFld F.FLT_Qq_PTR_TAIL fltCell t q
    | (none, s) => s

/-! ## The stream -/

/-- The status codes of R545. -/
def fltOk : Nat := 0x00
def fltProtocol : Nat := 0x01
def fltKey : Nat := 0x02
def fltMemoryFault : Nat := 0x06
def fltFilterFault : Nat := 0x0B
def fltKeyFault : Nat := 0x0C
def fltSeqFault : Nat := 0x0D
def fltUnitReset : Nat := 0x0E

def FltRun.pad (r : FltRun) : Nat := wfield r.words 0 13 12
def FltRun.hdrLen (r : FltRun) : Nat := wfield r.words 3 31 0
def FltRun.length (r : FltRun) : Nat := wfield r.words 8 31 0
def FltRun.addr (r : FltRun) (w : Nat) : Nat := wlong r.words w % 2 ^ 48

/-- R547: the blocks of a segment. -/
def fltBlocks (pad len : Nat) : Nat := if pad = 2 ∧ len = 0 then 1 else (len + 15) / 16

/-- R547: a block of the stream: its bytes completed by PAD. -/
def fltPadBlock (pad : Nat) (bs : List Byte) : List Byte :=
  padBytes 16 (if pad = 2 ∧ bs.length < 16 then bs ++ [0x80] else bs)

/-- R546: the local memory of a unit, and a slot in it. -/
def fltLocal (u : Fin 40) (off : Nat) : Nat := localBase (filterCell u.val) + off

/-- A write into the local memory of a unit by its stream engine. -/
def State.fltPut (s : State) (u : Fin 40) (off : Nat) (bs : List Byte) : State := s.writeMem (fltLocal u off) bs false (bs.length / 64 + 2)

/-- R545: the descriptor of a unit ends with a status; the sequencer stops. -/
def State.fltEnd (s : State) (u : Fin 40) (status code : Nat) : State :=
  let s := s.mapCore (.filter u) fun k => { k with running := false }
  match (s.fltUnit u.val).run with
  | some r => if r.ended.isSome then s else s.setFltRun u.val { r with ended := some (status, code) }
  | none => s

/-- R549: the run of a unit that is still in progress. -/
def State.fltLive (s : State) (u : Fin 40) : Option FltRun :=
  match (s.fltUnit u.val).run with
  | some r => if r.ended.isNone then some r else none
  | none => none

/-- R547: place the next blocks of the input stream in free slots. -/
def State.fltPlace (s : State) (u : Fin 40) : (fuel : Nat) → State
  | 0 => s
  | fuel + 1 =>
    match s.fltLive u with
    | none => s
    | some r =>
      let hb := fltBlocks r.pad r.hdrLen
      let total := hb + fltBlocks r.pad r.length
      let j := r.placed
      let bit := privateKey (filterCell u.val) (0xE00 + j % 128)
      if total ≤ j ∨ s.bitAt bit then s
      else
        let (off, n) := if j < hb then (16 * j, min 16 (r.hdrLen - 16 * j))
          else (r.hdrLen + 16 * (j - hb), min 16 (r.length - 16 * (j - hb)))
        let x : MemRes × State := if n = 0 then (.ok [] false, s) else s.load (r.addr 4 + off) n
        match x.1 with
        | .down => x.2.fltEnd u fltMemoryFault 0
        | res =>
          let (bs, p) := match res with
            | .ok bs p => (bs, p)
            | _ => (List.replicate n 0, false)
          let s := x.2.fltPut u (0x3000 + 16 * (j % 128)) (fltPadBlock r.pad bs)
          let s := (s.setFltRun u.val { r with placed := j + 1, poison := r.poison || p }).putBit bit true
          let s := if j + 1 = total then s.putBit (privateKey (filterCell u.val) 0xF00) true else s
          s.fltPlace u fuel

/-- R548, R550: take the next output blocks whose OUT_FULL is 1. -/
def State.fltDrain (s : State) (u : Fin 40) : (fuel : Nat) → Bool × State
  | 0 => (true, s)
  | fuel + 1 =>
    match (s.fltUnit u.val).run with
    | none => (true, s)
    | some r =>
      let k := r.taken
      let bit := privateKey (filterCell u.val) (0xE80 + k % 128)
      if !s.bitAt bit then (true, s)
      else
        let n := min 16 (r.length - 16 * k)
        let (bs, p, s) := s.readMem (fltLocal u (0x3800 + 16 * (k % 128))) 16 2
        let x : MemRes × State := if n = 0 then (.ok [] false, s) else s.store (r.addr 6 + 16 * k) (bs.take n) (r.poison || p)
        match x.1 with
        | .down => (false, x.2)
        | _ => ((x.2.putBit bit false).setFltRun u.val { r with taken := k + 1, bytes := r.bytes + n }).fltDrain u fuel

/-- The stream engine runs as far as it can. -/
def State.fltPump (s : State) (u : Fin 40) : State :=
  let s := s.fltPlace u 129
  match s.fltLive u with
  | none => s
  | some _ =>
    let x := s.fltDrain u 129
    if x.1 then x.2 else x.2.fltEnd u fltMemoryFault 0

/-- R547 to R549: the program has written a private bit: IN_FULL cleared, OUT_FULL set, or DONE set. -/
def State.filterBit (s : State) (u : Fin 40) (b : Nat) (v : Bool) : State :=
  match s.fltLive u with
  | none => s
  | some r =>
    if b = 0xF01 ∧ v then
      let g1 := ((s.core (.filter u)).get 1).toNat % 2 ^ 32
      (s.setFltRun u.val { r with progStatus := g1 }).fltEnd u fltOk 0
    else if (0xE00 ≤ b ∧ b ≤ 0xE7F ∧ !v) ∨ (0xE80 ≤ b ∧ b ≤ 0xEFF ∧ v) then
      (s.setFltRun u.val { r with progress := s.now }).fltPump u
    else s

/-- R266, R551: the sequencer stops: by an exception, or because the two computations of a block disagree. -/
def State.seqStop (s : State) (u : Fin 40) (disagree : Bool) : State :=
  if disagree then
    ((s.fltEnd u fltFilterFault 0).recordInternal (filterCell u.val) 0 0).event 0x40028000
  else s.fltEnd u fltSeqFault 0

/-- R301: the cipher of a block under the key of the running descriptor. Where it names two, the spec does not say which key a block
takes: a free choice (log 40). -/
def State.fblk (s : State) (u : Fin 40) (inv : Bool) (x : BitVec 128) : BitVec 128 × State :=
  let keys := match (s.fltUnit u.val).run with
    | some r => r.keys
    | none => []
  let (k, s) : Nat × State := if keys.length ≤ 1 then (0, s) else let f := s.free 1; (f.1.toNat, f.2)
  let key := (keys.getD k []).map BitVec.toNat
  let blk := (natLe 16 x.toNat).map BitVec.toNat
  let out := if key.isEmpty then blk else if inv then aesDecrypt key blk else aesEncrypt key blk
  (BitVec.ofNat 128 (leNat (out.map (BitVec.ofNat 8))), s)

/-! ## The checks and the start -/

/-- R543 check 0x01. -/
def fltShape (w : List Word32) : Bool :=
  wfield w 0 11 8 == 1 && wfield w 0 13 12 != 3 && wfield w 0 31 17 == 0 && wfield w 1 15 14 == 0 && wfield w 1 31 26 == 0
    && wfield w 2 31 15 == 0 && [5, 7, 10, 12, 14].all fun i => wfield w i 31 16 == 0

/-- R543 check 0x04, R652: an extent of a descriptor; `dome`: a Dome core issued it. -/
def State.fltExtent (s : State) (dome : Bool) (a n align : Nat) : Bool := a % align == 0 && extentOneQuad a n && s.extentFree dome a n

/-- R543 check 0x04. -/
def State.fltExtents (s : State) (dome : Bool) (w : List Word32) : Bool :=
  let a := fun i => wlong w i % 2 ^ 48
  let len := wfield w 8 31 0
  s.fltExtent dome (a 4) (wfield w 3 31 0 + len) 16 && s.fltExtent dome (a 6) len 16 && s.fltExtent dome (a 9) 64 64
    && s.fltExtent dome (a 11) 64 64 && (wfield w 0 16 16 == 0 || s.fltExtent dome (a 13) 32 64)

/-- R543 key check: a key that grants the usage of DIR and lies in the range of the ORIGIN. -/
def State.fltKeyOk (s : State) (w : List Word32) (k : Nat) : Bool :=
  let origin := wfield w 1 25 16
  let port := (origin - 1) / 256
  let v := (origin - 1) % 256
  let base := s.fld F.PCI_VFv_KEYS_KEY_BASE (upCell port) v
  let usage := s.fld F.KEY_ATTRn_USAGE keyCell k
  s.keyState k == keyValid && bitsOf usage (wfield w 0 14 14) (wfield w 0 14 14) == 1
    && (origin == 0 || (decide (port < 2) && s.vfState port v == 3
      && decide (base ≤ k ∧ k < base + s.fld F.PCI_VFv_KEYS_KEY_COUNT (upCell port) v)))

/-- The keys a descriptor names. -/
def fltKeys (w : List Word32) : List Nat := wfield w 1 13 0 :: (if wfield w 2 14 14 = 1 then [wfield w 2 13 0] else [])

/-- R543 check 0x02: the program's table entry, and the program where the unit does not hold it. -/
def State.fltProgram (s : State) (u : Fin 40) (prog : Nat) : Bool × State :=
  if 2 ^ min 8 (s.fld F.FLT_CFG_PROG_LOG2 fltCell) ≤ prog then (false, s)
  else match s.devRead (4096 * s.fld F.FLT_CFG_BASE fltCell + 16 * prog) 16 with
    | (some (bs, false), s) =>
      let e := (wordsOf 4 bs).take 3
      let len := wfield e 2 31 0
      if len < 4 ∨ 8192 < len ∨ len % 4 ≠ 0 then (false, s)
      else if (s.fltUnit u.val).program = e then (true, s)
      else match s.devRead (wlong e 0) len with
        | (some (code, false), s) =>
          let s := s.fltPut u 0 code
          (true, (s.setFltUnit u.val { s.fltUnit u.val with program := e }).count (filterCell u.val) (evOf 0x2B 2))
        | (_, s) => (false, s)
    | (_, s) => (false, s)

/-- R555: RUNNING of the entries a descriptor runs with. -/
def State.keyCount (s : State) (ks : List Nat) (up : Bool) : State :=
  ks.dedup.foldl (fun (s : State) k =>
    let n := s.fld F.KEY_ATTRn_RUNNING keyCell k
    s.setFld F.KEY_ATTRn_RUNNING keyCell (if up then n + 1 else n - 1) k) s

/-- R556: the keys enter the engines; none where a complement check fails. -/
def State.keysEnter (s : State) : List Nat → Option (List (List Byte)) × State
  | [] => (some [], s)
  | k :: ks =>
    match s.keyEnters k with
    | (none, s) => (none, s)
    | (some b, s) =>
      match s.keysEnter ks with
      | (some l, s) => (some (b :: l), s)
      | (none, s) => (none, s)

/-- R549: the state in which a sequencer starts, with the descriptor and PARAM copied. -/
def State.fltLaunch (s : State) (u : Fin 40) (r : FltRun) (param : List Byte) : State :=
  let cell := filterCell u.val
  let s := { s with bits := s.bits.filter fun p => decide (p.1 < privateKey cell 0 ∨ privateKey cell 0x1000 ≤ p.1) }
  let s := s.fltPut u 0x2400 (bytesOf r.words)
  let s := s.fltPut u 0x2440 param
  let s := s.fltPut u 0x2480 (List.replicate 64 0)
  let s := s.setCore (.filter u) { pc := BitVec.ofNat 64 0xFFFFFFFFFFFC0000, running := true }
  let s := s.setFltRun u.val r
  let s := if fltBlocks r.pad r.hdrLen + fltBlocks r.pad r.length = 0 then s.putBit (privateKey cell 0xF00) true else s
  s.fltPump u

/-- R543: a started descriptor is checked and, unless it fails a check, runs. -/
def State.fltBegin (s : State) (u : Fin 40) (r : FltRun) : State :=
  let w := r.words
  let s := s.setFltRun u.val r
  let refuse := fun (s : State) code => s.fltEnd u fltProtocol code
  if !fltShape w then refuse s 1
  else
    let p := s.fltProgram u (wfield w 0 7 0)
    let s := p.2
    if !p.1 then refuse s 2
    else if r.pad = 0 ∧ (r.hdrLen % 16 ≠ 0 ∨ r.length % 16 ≠ 0) then refuse s 3
    else if !s.fltExtents r.dome w then refuse s 4
    else if !(fltKeys w).all (s.fltKeyOk w) then s.fltEnd u fltKey 0
    else match s.keysEnter (fltKeys w) with
      | (none, s) => s.fltEnd u fltKeyFault 0
      | (some ks, s) =>
        let r := { r with named := fltKeys w, keys := ks, progress := s.now }
        let s := (s.keyCount r.named true).setFltRun u.val r
        match s.load (r.addr 9) 64 with
        | (.ok bs p, s) => s.fltLaunch u { r with poison := p } bs
        | (_, s) => s.fltEnd u fltMemoryFault 0

/-- R541: the next descriptor starts: of the first ready queue in turn, on the lowest-numbered unit that is ENABLED and idle. -/
def State.fltStart (s : State) : State :=
  if !s.enabled fltCell then s
  else match (List.finRange 40).find? (fun u => s.enabled (filterCell u.val) && (s.fltUnit u.val).run.isNone),
      ((List.range 256).map fun i => (s.flt.next + i) % 256).find? s.fltReady with
    | some u, some q =>
      let head := s.fld F.FLT_Qq_PTR_HEAD fltCell q
      let s := s.setFltNext (q + 1)
      let at_ := ringAt (4096 * s.fld F.FLT_Qq_CFG_BASE fltCell q) (s.fld F.FLT_Qq_CFG_SIZE_LOG2 fltCell q) 64 head
      let x : Option (List Word32) × State := match s.fltHeld q with
        | some w => (some w, s)
        | none => match s.devRead at_ 64 with
          | (some (bs, false), s) => (some (wordsOf 16 bs), s)
          | (some (_, true), s) => (none, s.recordError fltCell clsPoison at_ 0)
          | (none, s) => (none, s.recordError fltCell clsAccess at_ 0)
      (match x with
        | (none, s) => s
        | (some w, s) =>
          if wfield w 0 15 15 = 1 ∧ s.fltRunning q then s.setFltHeld q (some w)
          else
            let s := (s.setFltHeld q none).setFld F.FLT_Qq_PTR_HEAD fltCell ((head + 1) % 65536) q
            s.fltBegin u { q := q, idx := head, words := w, dome := s.domePosted (filterKey q) head })
    | _, _ => s

/-! ## The end -/

/-- R549: no progress for STALL_US. -/
def State.fltStall (s : State) (u : Fin 40) : State :=
  match s.fltLive u with
  | none => s
  | some r =>
    let limit := 1000 * s.fld F.FLT_CFG_STALL_US fltCell
    if limit = 0 ∨ s.now < r.progress + limit then s else s.fltEnd u fltSeqFault 0

/-- R544: the completion record. -/
def FltRun.record (r : FltRun) (u status code time : Nat) : List Word32 :=
  buildWords 8 [(0, 15, 0, r.idx), (0, 23, 16, r.q), (1, 7, 0, status), (1, 15, 8, code), (1, 21, 16, u),
    (2, 31, 0, wfield r.words 15 31 0), (3, 31, 0, r.progStatus), (4, 31, 0, r.bytes), (5, 31, 0, r.bytes / 2 ^ 32),
    (6, 31, 0, time), (7, 31, 0, time / 2 ^ 32)]

/-- R544, R549, R550, R555: an ended descriptor completes: under OK the output slots drain and RESULT is written; then the record and
the NOTIFY_BIT. -/
def State.fltComplete (s : State) (u : Fin 40) : State :=
  match (s.fltUnit u.val).run with
  | none => s
  | some r =>
    match r.ended with
    | none => s
    | some (status, code) =>
      let x : Nat × State :=
        if status ≠ fltOk then (status, s)
        else
          let d := s.fltDrain u 129
          let r2 := ((d.2.fltUnit u.val).run).getD r
          if !d.1 then (fltMemoryFault, d.2)
          else
            let (bs, p, s) := d.2.readMem (fltLocal u 0x2480) 64 3
            match s.store (r.addr 11) bs (r2.poison || p) with
            | (.down, s) => (fltMemoryFault, s)
            | (_, s) => (fltOk, s)
      let s := x.2
      let r := ((s.fltUnit u.val).run).getD r
      let s := if wfield r.words 0 16 16 = 1 ∧ status ≠ fltProtocol then (s.devWrite (r.addr 13) (bytesOf (r.record u.val x.1 code s.now))).2
        else if wfield r.words 0 16 16 = 1 ∧ s.fltExtent r.dome (r.addr 13) 32 64 then
          (s.devWrite (r.addr 13) (bytesOf (r.record u.val x.1 code s.now))).2
        else s
      let s := s.keyCount r.named false
      let s := s.setFltUnit u.val { s.fltUnit u.val with run := none }
      (s.count (filterCell u.val) (evOf 0x2B 1) (some x.1)).notifyBit (s.fld F.FLT_Qq_PTR_NOTIFY_BIT fltCell r.q)

/-- R545: the unit cell is reset: its descriptor ends with UNIT_RESET, and the unit holds no program. -/
def State.fltUnitReset (s : State) (u : Fin 40) : State :=
  let s := s.fltEnd u 0x0E 0
  let s := s.setFltUnit u.val { s.fltUnit u.val with program := [] }
  (s.clearPrivate (filterCell u.val)).setCore (.filter u) {}

end Sys2Proof.Machine
end

