-- ==== Sys2Proof/Machine/RootOfTrust.lean ====
section
/-! DEFINITION. The root of trust (R558 to R568) and the boot flash (R697 to R700): images and their checks, the boot, the
commands of `ROT_CMD` and of `ROT_FLASH_CMD`. -/

namespace Sys2Proof.Machine

open Sys2Proof

def State.setRot (s : State) (r : RotState) : State := { s with rot := r }

/-! ## Fuses -/

/-- R558, R563: the counter fuses blown. -/
def State.fuseSvn (s : State) : Nat := s.rot.svn.getD (Config.fuse rotCell 5 % 65)

/-- R558, R564: the revoked key slots, one bit each. -/
def State.revokedSlots (s : State) : Nat := Config.fuse rotCell 4 % 16 ||| s.rot.revoked

/-- R558: the digest of the public key of a slot. -/
def keyHashBytes (slot : Nat) : List Byte := (natLe 48 (Config.keyHash slot).toNat).reverse

/-- R565, R566: whether debug is open. -/
def State.debugOpen (s : State) : Bool :=
  let policy := s.fld F.ROT_STATUS_DEBUG_POLICY rotCell
  !s.faulted rotCell && (policy == 0 || (policy == 1 && s.rot.unlocked))

/-- `ROT_STATUS` as it reads. -/
def State.rotStatus (s : State) : Nat :=
  let v := (s.reg .ROT_STATUS rotCell).toNat
  putBits (putBits (putBits v 3 3 s.debugOpen.toNat) 11 8 s.revokedSlots) 18 12 s.fuseSvn

def bootRom : Nat := 0
def bootRecovery : Nat := 3
def bootFailed : Nat := 4

/-- `ROT_STATUS`.BOOT. -/
def State.boot (s : State) : Nat := s.fld F.ROT_STATUS_BOOT rotCell

/-! ## The flash -/

/-- R697: the size of the flash, and of a slot. -/
def flashSize : Nat := 0x4000000
def flashSlot : Nat := 0x1000000

def State.flashByte (s : State) (a : Nat) : Byte := smapGet (fun _ => 0xFF) s.rot.flash a

def State.flashBytes (s : State) (a n : Nat) : List Byte := (List.range n).map fun i => s.flashByte (a + i)

/-- Place bytes in the flash. -/
def flashPut : SMap Byte → Nat → List Byte → SMap Byte
  | m, _, [] => m
  | m, a, b :: bs => flashPut (smapSet (fun _ => 0xFF) m a b) (a + 1) bs

/-! ## Images -/

/-- The extent of QNW's Plates (R67, R559). -/
def inQnwPlates (a n : Nat) : Bool := decide (0x010000000000 ≤ a) && decide (a + n ≤ 0x010010000000)

/-- R559: fields of a header, as 64 words. -/
def imgBodyLen (w : List Word32) : Nat := wfield w 2 31 0
def imgLoad (w : List Word32) : Nat := wlong w 4 % 2 ^ 48
def imgEntry (w : List Word32) : Nat := wlong w 6 % 2 ^ 48
def imgSlot (w : List Word32) : Nat := wfield w 1 23 16
def imgSvn (w : List Word32) : Nat := wfield w 1 31 24

/-- R559, code 0x01. -/
def imgShape (w : List Word32) : Bool :=
  wfield w 0 31 0 == 0x46425953 && wfield w 1 15 0 == 1 && (w.getD 3 0 :: (w.drop 8).take 8).all (· == 0)
    && wfield w 5 31 16 == 0 && wfield w 7 31 16 == 0

/-- R559, code 0x02: a public key of 96 bytes is that of a slot. -/
def keyOfSlot (slot : Nat) (pub : List Byte) : Bool := decide (slot ≤ 3) && sha384 pub == keyHashBytes slot

/-- R559, code 0x05. -/
def imgPlace (w : List Word32) : Bool :=
  let n := imgBodyLen w
  n % 64 == 0 && decide (64 ≤ n ∧ n ≤ 0x800000) && imgLoad w % 64 == 0 && inQnwPlates (imgLoad w) n
    && decide (imgLoad w ≤ imgEntry w ∧ imgEntry w < imgLoad w + n)

/-- A signature (r, s) of 96 bytes under a public key of 96 bytes. -/
def sigOk (pub sig digest : List Byte) : Bool :=
  ecdsaVerify (beNat (pub.take 48)) (beNat (pub.drop 48)) (beNat (sig.take 48)) (beNat (sig.drop 48)) digest

/-- R559: the checks that need no body: the code of the first that fails, 0 for none. -/
def State.imgHeaderCode (s : State) (hdr : List Byte) : Nat :=
  let w := wordsOf 64 hdr
  if !imgShape w then 1
  else if !keyOfSlot (imgSlot w) (hdr.drop 64 |>.take 96) ∨ bitsOf s.revokedSlots (imgSlot w) (imgSlot w) = 1 then 2
  else if !imgPlace w then 5
  else 0

/-- R559: the digest of an image. -/
def imgDigest (hdr body : List Byte) : List Byte := sha384 (hdr.take 160 ++ body)

/-- R559: the checks over the body. -/
def State.imgBodyCode (s : State) (hdr body : List Byte) : Nat :=
  if !sigOk (hdr.drop 64 |>.take 96) (hdr.drop 160 |>.take 96) (imgDigest hdr body) then 3
  else if imgSvn (wordsOf 64 hdr) < s.fuseSvn then 4
  else 0

/-- A read by the root of trust: the bytes, none where the read fails or returns poison. -/
def State.rotRead (s : State) (a n : Nat) : Option (List Byte) × State :=
  match s.devRead a n with
  | (some (bs, false), s) => (some bs, s)
  | (_, s) => (none, s)

/-- R562: every check of R559 on the image in device memory: its code, 0 where it is valid. -/
def State.imgVerify (s : State) (a : Nat) : Nat × State :=
  match s.rotRead a 256 with
  | (none, s) => (6, s)
  | (some hdr, s) =>
    let c := s.imgHeaderCode hdr
    if c ≠ 0 then (c, s)
    else match s.rotRead (a + 256) (imgBodyLen (wordsOf 64 hdr)) with
      | (none, s) => (6, s)
      | (some body, s) => (s.imgBodyCode hdr body, s)

/-! ## Boot -/

/-- R560: copy a body to LOAD_ADDR and judge the copy: the code of R559, and the digest. -/
def State.bootCopy (s : State) (hdr body : List Byte) : Nat × List Byte × State :=
  let w := wordsOf 64 hdr
  let st := s.devWrite (imgLoad w) body
  if !st.1 then (6, [], st.2)
  else match st.2.rotRead (imgLoad w) (imgBodyLen w) with
    | (none, s) => (6, [], s)
    | (some copy, s) => (s.imgBodyCode hdr copy, imgDigest hdr copy, s)

/-- R560, R561, R651: a valid image is booted: BOOT, its measurement, and Dome core 0 enabled at ENTRY. -/
def State.bootFrom (s : State) (boot : Nat) (hdr digest : List Byte) : State :=
  let w := wordsOf 64 hdr
  let s := s.setFld F.ROT_STATUS_BOOT rotCell boot
  let s := s.setFld F.ROT_STATUS_KEY_SLOT rotCell (imgSlot w)
  let s := s.setFld F.ROT_STATUS_BOOT_SVN rotCell (imgSvn w)
  let s := (List.range 6).foldl (fun (s : State) m =>
    s.setReg .ROT_MEASUREm rotCell (BitVec.ofNat 64 (leNat (digest.drop (8 * m) |>.take 8))) m) s
  let s := s.setFld F.DOM_COREn_BOOT_PC_PC domeSub (imgEntry w / 4) 0
  s.setFlag F.CELL_CTRL_EN (domeCell 0) true

/-- R561: no candidate is valid. -/
def State.bootFail (s : State) (code : Nat) : State :=
  (s.setFld F.ROT_STATUS_BOOT rotCell bootFailed).setFld F.ROT_STATUS_FAIL_CODE rotCell code

/-- R560: try the slot of the flash with the given number: the code, and on 0 the part booted from it. -/
def State.bootSlot (s : State) (slot : Nat) : Nat × State :=
  let base := slot * flashSlot
  let hdr := s.flashBytes base 256
  let c := s.imgHeaderCode hdr
  if c ≠ 0 then (c, s)
  else
    let r := s.bootCopy hdr (s.flashBytes (base + 256) (imgBodyLen (wordsOf 64 hdr)))
    if r.1 = 0 then (0, r.2.2.bootFrom (slot + 1) hdr r.2.1) else (r.1, r.2.2)

/-- R558, R560, R561: the boot ROM runs once the root of trust has left reset. `agree` says that every fuse row agrees with its
complement row. -/
def State.secureBoot (s : State) (agree : Bool) : State :=
  if !s.rot.running ∨ s.resetting rotCell ∨ s.boot ≠ bootRom then s
  else if !agree then s.bootFail 7
  else
    let svn := fun slot => imgSvn (wordsOf 64 (s.flashBytes (slot * flashSlot) 256))
    let first := if svn 0 < svn 1 then 1 else 0
    let r := s.bootSlot first
    if r.1 = 0 then r.2
    else
      let r2 := r.2.bootSlot (1 - first)
      if r2.1 = 0 then r2.2 else r2.2.bootFail r2.1

/-! ## Commands -/

/-- R565: a new nonce. -/
def State.newNonce (s : State) : State :=
  (List.range 4).foldl (fun (s : State) m => let f := s.free 64; f.2.setReg .ROT_NONCEm rotCell f.1 m) s

/-- R561: RECOVERY_BOOT. -/
def State.rotRecovery (s : State) (a : Nat) : Nat × State :=
  if s.boot ≠ bootFailed then (0x0A, s)
  else
    let fail := fun (s : State) (code : Nat) => (code, s.setFld F.ROT_STATUS_FAIL_CODE rotCell code)
    match s.rotRead a 256 with
    | (none, s) => fail s 6
    | (some hdr, s) =>
      let w := wordsOf 64 hdr
      let c := s.imgHeaderCode hdr
      if c ≠ 0 then fail s c
      else if decide (a < imgLoad w + imgBodyLen w) && decide (imgLoad w < a + 256 + imgBodyLen w) then (5, s)
      else match s.rotRead (a + 256) (imgBodyLen w) with
        | (none, s) => fail s 6
        | (some body, s) =>
          let r := s.bootCopy hdr body
          if r.1 = 0 then (0, r.2.2.bootFrom bootRecovery hdr r.2.1) else fail r.2.2 r.1

/-- R563: an interrupted commit leaves the counter between its old value and the new one, which is open (log 1). -/
def State.svnBroken (s : State) : State :=
  match s.rot.svnFrom with
  | none => s
  | some old =>
    let f := s.free 7
    f.2.setRot { f.2.rot with svn := some (min f.2.fuseSvn (old + f.1.toNat)), svnFrom := none }

/-- R563: SVN_COMMIT. The fuses read as blown from the write of the command on (log 41). -/
def State.rotSvnCommit (s : State) (v : Nat) : Nat × State :=
  if s.fld F.ROT_STATUS_BOOT_SVN rotCell < v ∨ 64 < v then (8, s)
  else if v ≤ s.fuseSvn then (0, s)
  else (0, s.setRot { s.rot with svn := some v, svnFrom := some s.fuseSvn })

/-- R564: REVOKE_KEY. -/
def State.rotRevoke (s : State) (v : Nat) : Nat × State :=
  if 3 < v ∨ v = s.fld F.ROT_STATUS_KEY_SLOT rotCell then (9, s)
  else (0, s.setRot { s.rot with revoked := s.rot.revoked ||| 2 ^ v })

/-- R565: whether a token is good. -/
def State.tokenOk (s : State) (t : List Byte) : Bool :=
  let nonce := (List.range 4).flatMap fun m => natLe 8 (s.reg .ROT_NONCEm rotCell m).toNat
  let pub := t.drop 40 |>.take 96
  t.take 8 == natLe 8 (Config.fuse rotCell 100) && (t.drop 8 |>.take 32) == nonce
    && keyOfSlot (s.fld F.ROT_STATUS_KEY_SLOT rotCell) pub && sigOk pub (t.drop 136) (sha384 (t.take 40))

/-- R565: DEBUG_UNLOCK. -/
def State.rotUnlock (s : State) (a : Nat) : Nat × State :=
  let r := s.rotRead a 232
  let ok := match r.1 with
    | some t => r.2.tokenOk t
    | none => false
  let s := r.2.newNonce
  if ok then (0, s.setRot { s.rot with unlocked := true }) else (3, s)

/-- R568: a command of `ROT_CMD` begins: RESULT reads BUSY and its outcome is held until the command leaves BUSY. -/
def State.rotCommand (s : State) (cmd : Nat) : State :=
  let a := s.fld F.ROT_CMD_ARG_ADDR rotCell
  let v := s.fld F.ROT_CMD_ARG_VALUE rotCell
  let r : Nat × State := if cmd = 1 then (let x := s.imgVerify a; x)
    else if cmd = 2 then s.rotRecovery a
    else if cmd = 3 then s.rotSvnCommit v
    else if cmd = 4 then s.rotRevoke v
    else if cmd = 5 then s.rotUnlock a
    else (1, s)
  let s := r.2.setRot { r.2.rot with cmd := some r.1 }
  s.setFld F.ROT_CMD_RESULT_RESULT rotCell 3

/-- R563, R564, R568: a write of `ROT_CMD`; `host` says that host software wrote it. -/
def State.rotCmdWrite (s : State) (host : Bool) (v : Nat) : State :=
  let cmd := bitsOf v 2 0
  if s.rot.cmd.isSome ∨ (host ∧ (cmd = 3 ∨ cmd = 4)) then s.recordError rotCell clsAccess (regAddr .ROT_CMD rotCell 0) 0
  else s.rotCommand cmd

/-- R568: the command leaves BUSY. -/
def State.rotCmdDone (s : State) : State :=
  match s.rot.cmd with
  | none => s
  | some code =>
    let s := s.setRot { s.rot with cmd := none, svnFrom := none }
    let s := s.setFld F.ROT_CMD_RESULT_RESULT rotCell (if code = 0 then 1 else 2)
    (s.setFld F.ROT_CMD_RESULT_CODE rotCell code).event 0x4002E000

/-! ## The flash commands -/

/-- R699: PROGRAM page by page: whether every memory read was good. -/
def State.flashProgram (s : State) (off a : Nat) : (pages : Nat) → Bool × State
  | 0 => (true, s)
  | n + 1 =>
    match s.rotRead a 256 with
    | (none, s) => (false, s)
    | (some bs, s) =>
      let old := s.flashBytes off 256
      let s := s.setRot { s.rot with flash := flashPut s.rot.flash off (List.zipWith (· &&& ·) old bs) }
      s.flashProgram (off + 256) (a + 256) n

/-- R699: READ, page by page; a page that the memory refuses is not written (log 41). -/
def State.flashRead (s : State) (off a : Nat) : (pages : Nat) → State
  | 0 => s
  | n + 1 => (s.devWrite a (s.flashBytes off 256)).2.flashRead (off + 256) (a + 256) n

/-- R699: a flash command: the code of its refusal, or its effect. -/
def State.flashCommand (s : State) (v : Nat) : State :=
  let cmd := bitsOf v 1 0
  let off := bitsOf v 33 8
  let pages := bitsOf v 56 48
  let a := s.fld F.ROT_FLASH_ARG_ADDR rotCell
  let len := if cmd = 2 then 0x10000 else 256 * pages
  let b := s.boot
  let booted := b = 1 ∧ off < flashSlot ∨ b = 2 ∧ off < 2 * flashSlot ∧ flashSlot < off + len
  let finish := fun (s : State) (code : Nat) (range : Option (Nat × Nat)) =>
    (s.setRot { s.rot with flashCmd := some (code, range) }).setFld F.ROT_FLASH_RESULT_RESULT rotCell 3
  if cmd = 0 ∨ bitsOf v 7 2 ≠ 0 ∨ bitsOf v 47 34 ≠ 0 ∨ bitsOf v 63 57 ≠ 0 then finish s 1 none
  else if flashSize < off + len ∨ (cmd = 2 ∧ off % 0x10000 ≠ 0) ∨ (cmd ≠ 2 ∧ (off % 256 ≠ 0 ∨ pages = 0 ∨ 256 < pages)) then finish s 2 none
  else if cmd ≠ 1 ∧ booted then finish s 3 none
  else if cmd ≠ 2 ∧ !(a % 64 == 0 && extentOneQuad a len && s.extentFree true a len) then finish s 4 none
  else if cmd = 1 then finish (s.flashRead off a pages) 0 none
  else if cmd = 2 then
    finish (s.setRot { s.rot with flash := s.rot.flash.filter fun p => decide (p.1 < off ∨ off + 0x10000 ≤ p.1) }) 0 (some (off, len))
  else
    let r := s.flashProgram off a pages
    finish r.2 (if r.1 then 0 else 6) (some (off, len))

/-- R698, R700: a write of `ROT_FLASH_CMD`. -/
def State.flashCmdWrite (s : State) (host : Bool) (v : Nat) : State :=
  if s.rot.flashCmd.isSome ∨ host then s.recordError rotCell clsAccess (regAddr .ROT_FLASH_CMD rotCell 0) 0 else s.flashCommand v

/-- R699: a range of the flash holds unknown bytes (log 1). -/
def State.flashUnknown (s : State) (off : Nat) : (n : Nat) → State
  | 0 => s
  | n + 1 =>
    let f := s.free 8
    (f.2.setRot { f.2.rot with flash := flashPut f.2.rot.flash off [f.1] }).flashUnknown (off + 1) n

/-- R699, R700: the flash command leaves BUSY; `error` says that the flash device failed during an ERASE or a PROGRAM. -/
def State.flashCmdDone (s : State) (error : Bool) : State :=
  match s.rot.flashCmd with
  | none => s
  | some (code, range) =>
    let s := s.setRot { s.rot with flashCmd := none }
    let x : Nat × State := match error, range with
      | true, some (off, n) => (5, (s.flashUnknown off n).recordError rotCell clsLink 0 0)
      | _, _ => (code, s)
    let s := x.2.setFld F.ROT_FLASH_RESULT_RESULT rotCell (if x.1 = 0 then 1 else 2)
    (s.setFld F.ROT_FLASH_RESULT_CODE rotCell x.1).event 0x4002E000

/-- R697, R699: an ERASE or PROGRAM that is cut short leaves unknown bytes in its range (log 41). -/
def State.flashBroken (s : State) : State :=
  match s.rot.flashCmd with
  | some (_, some (off, n)) => s.flashUnknown off n
  | _ => s

/-- R61, R565: the root of trust cell is reset: its commands are discarded and a new nonce is drawn. -/
def State.rotReset (s : State) : State :=
  let s := s.svnBroken.flashBroken
  (s.setRot { s.rot with cmd := none, flashCmd := none }).newNonce

end Sys2Proof.Machine
end

