-- ==== Sys2Proof/Machine/Heliostat.lean ====
section
/-! DEFINITION. The Heliostat (chapter 21): the estimate and its calibration, the cap and the peak, sharing by phase, the
limits of the array and guider clocks, slew and dark frames, heat, and derates. Powers are exact rationals; where the spec
gives no rounding of a value that a register shows in whole units, the neighbour is a free bit (log 43). -/

namespace Sys2Proof.Machine

open Sys2Proof

/-- Log 43: a value in whole units: the value where it is whole, else one of its two neighbours. -/
def State.roundOpen (s : State) (x : Rat) : Int × State :=
  if x.den = 1 then (x.floor, s)
  else let (b, s) := s.free 1; (x.floor + b.toNat, s)

/-- A whole number held in an unsigned field of w bits. -/
def clampField (w : Nat) (x : Int) : Nat := (max 0 (min (2 ^ w - 1) x)).toNat

/-- A number taken as the nearer bound of a range. -/
def clampNat (lo hi x : Nat) : Nat := max lo (min hi x)

/-- R645: a signed 8-bit field. -/
def signedByte (x : Int) : Nat := ((max (-128) (min 127 x)) % 256).toNat

/-- R19, R634: CAP_W, PEAK_W and PEAK_US in force; PEAK_W is at least CAP_W. -/
def State.helCap (s : State) : Nat := s.fld F.HEL_CAP_W_CAP_IN_FORCE helCell
/-- R20, R634: PEAK_W in force, and what PEAK_W_IN_FORCE reads: the value the pair agreed on, brought into CAP_W in force to 3,300. -/
def State.helPeak (s : State) : Nat := max s.helCap (s.fld F.HEL_PEAK_PEAK_W_IN_FORCE helCell)
def State.helPeakUs (s : State) : Nat := s.fld F.HEL_PEAK_PEAK_US_IN_FORCE helCell

/-- R634: the depth D of the bucket, in W µs, and the sustained rate R, in W. -/
def State.helDepth (s : State) : Rat := (s.helPeak - s.helCap : Nat) * (s.helPeakUs : Rat)
def State.helRate (s : State) : Rat := (s.helCap : Rat) - s.helDepth / 10000

/-- SLEW_A, FLOOR in A, and the limits under THROTTLE_IN_N, within their ranges. -/
def State.helSlew (s : State) : Nat := clampNat 18 180 (s.fld F.HEL_SLEW_SLEW_A helCell)
def State.helFloor (s : State) : Rat := (min 128 (s.fld F.HEL_SLEW_FLOOR helCell) : Nat) * 1800 / 128
def State.helThrottleArray (s : State) : Nat := clampNat 500 1800 (s.fld F.HEL_THROTTLE_ARRAY_MHZ helCell)
def State.helThrottleCore (s : State) : Nat := clampNat 1200 3000 (s.fld F.HEL_THROTTLE_CORE_MHZ helCell)

/-- R621, R644: THROTTLE_IN_N is asserted after its filter, or its STUCK bit is set. -/
def State.throttleIn (s : State) : Bool :=
  bitsOf s.power.inputs 3 3 == 1 || bitsOf (s.fld F.CHR_INPUT_STUCK_STUCK chrCell) 3 3 == 1

/-- The phase tag of guider core n (R296), and whether its cell is not OFF. -/
def State.corePhase (s : State) (n : Nat) : Nat := (smapGet (fun _ => {}) s.cores (guiderCell n)).phase
def State.coreOn (s : State) (n : Nat) : Bool := s.cellState (guiderCell n) != 0

/-- `CELL_CLOCK.FMAX_MHZ` of guider core n. -/
def State.coreFmax (s : State) (n : Nat) : Nat := s.fld F.CELL_CLOCK_FMAX_MHZ (guiderCell n)

/-- `CELL_POWER.CUR_MHZ` of guider core n as the Heliostat last set it (R640); FMAX_MHZ before its first tick. -/
def State.coreClock (s : State) (n : Nat) : Nat :=
  let c := s.fld F.CELL_POWER_CUR_MHZ (guiderCell n)
  if c = 0 then s.coreFmax n else min (s.coreFmax n) c

/-- R631: the raw load of guider core n in the tick, in W. -/
def HelTickIn.coreW (t : HelTickIn) (n : Nat) : Rat := (((t.cores.find? fun p => p.1 == n).map Prod.snd).getD 0 : Nat) / (1000 : Rat)

/-- R631: the raw load of the part in the tick, in W. -/
def HelTickIn.rawW (t : HelTickIn) : Rat :=
  ((t.array + t.stack + t.domeHub + t.rest : Nat) : Rat) / 1000 + ((List.range 128).map t.coreW).foldl (· + ·) 0

/-- R631: the calibrated estimate of the part for the tick, in W. -/
def State.helEstimate (s : State) (t : HelTickIn) : Rat := s.hel.gain * t.rawW + s.hel.offset

/-- R631, R632: a sample of voltage (mV) and current (0.01 A): the measured power, and the pair of the sample period. -/
def State.helSample (s : State) (mv ca : Nat) : State :=
  let w : Rat := (mv * ca : Nat) / (100000 : Rat)
  let (p, s) := s.roundOpen w
  let s := s.setFld F.HEL_MEAS_VIN_MV helCell (min 0xFFFF mv)
  let s := s.setFld F.HEL_MEAS_IIN_CA helCell (min 0xFFFF ca)
  let s := s.setFld F.HEL_MEAS_P_MEAS_W helCell (clampField 16 p)
  let e := if s.hel.rawTicks = 0 then 0 else s.hel.rawSum / s.hel.rawTicks
  s.setHel { s.hel with
    pairs := s.hel.pairs ++ [(w, e)]
    badVolt := s.hel.badVolt || decide (mv < 40000) || decide (70000 < mv)
    rawSum := 0, rawTicks := 0 }

/-- R633, R635: the controlled power of the tick ended, and whether the greater-of rule set it. -/
def State.helControlled (s : State) (est : Rat) : Rat × Bool :=
  if s.flag F.HEL_STATUS_SENSOR_DISAGREE helCell then
    let m : Rat := if s.flag F.HEL_STATUS_SENSOR_FAIL helCell then est * 112 / 100
      else (s.fld F.HEL_MEAS_VIN_MV helCell * s.fld F.HEL_MEAS_IIN_CA helCell : Nat) / (100000 : Rat)
    if est < m then (m, true) else (est, false)
  else (est, false)

/-- R636, R638: what sets the CAP limit: nothing beyond PEAK_W, the reserve or the timer, the 60 A term. -/
inductive CapCause where
  | peakW | rate | current
  deriving DecidableEq, Repr

/-- R635: the bucket, the excursion timer, and the allowed power of the next tick. Before the first sample there is no measured
voltage and no 60 A term (log 43). -/
def State.helBucket (s : State) (p : Rat) : (Rat × CapCause) × State :=
  let cap := s.helCap
  let r := s.helRate
  let b := min s.helDepth (s.hel.bucket + (r - p))
  let timer := if (cap : Rat) < p then s.hel.timer + 1 else 0
  let s := if timer = 1 then s.count helCell (evOf 0x31 6) else s
  let reserve := ((s.helPeak : Rat) - r) * 10
  let timerOk := decide (timer + 10 < s.helPeakUs)
  let high := decide (reserve < b) && timerOk
  let wasHigh := !s.flag F.HEL_STATUS_BUCKET_LOW helCell
  let s := s.setHel { s.hel with bucket := b, timer := timer }
  let s := if wasHigh && !timerOk && decide (0 < timer) then s.helEvent 4 else s
  let s := s.setFlag F.HEL_STATUS_BUCKET_LOW helCell (!high)
  let allowed : Rat := if high then s.helPeak else r
  let v := s.fld F.HEL_MEAS_VIN_MV helCell
  let most : Rat := (v : Rat) * 98 * 60 / 100000
  if v ≠ 0 ∧ most < allowed then ((most, .current), s) else ((allowed, if high then .peakW else .rate), s)

/-- R636: the share k of the array and guider cores. -/
def State.helShare (s : State) (t : HelTickIn) (allowed : Rat) : Rat :=
  let g := s.hel.gain
  let fixed := g * ((t.stack + t.rest + t.domeHub : Nat) : Rat) / 1000 + s.hel.offset
  let share := allowed - fixed
  let da : Rat := s.fld F.HEL_SEEn_ARRAY_W helCell (s.fld F.HEL_PHASE_ARRAY_PHASE helCell)
  let dc : Rat := (((List.range 128).filter s.coreOn).map fun n => s.fld F.HEL_SEEn_CORE_MW helCell (s.corePhase n)).foldl (· + ·) 0
  let need := da + dc / 1000
  if need ≤ share then 1 else max 0 (share / need)

/-- R645: the steps by which THERMAL lowers the array (key 0) or guider core n (key n + 1). -/
def State.thermSteps (s : State) (k : Nat) : Nat := smapGet (fun _ => 0) s.hel.therm k

/-- R638: the limits of the array in force, but SLEW and ACCORD, each with its bit of `HEL_REASON`. -/
def State.arrayLimits (s : State) (k : Rat) (capBits : List Nat) (throttle : Bool) : List (Nat × Nat) :=
  capBits.map (fun b => (b, floor25 500 (1800 * k)))
    ++ (if s.thermSteps 0 = 0 then [] else [(4, max 500 (1800 - 25 * s.thermSteps 0))])
    ++ (if s.hel.trip then [(5, 500)] else []) ++ (if throttle then [(6, s.helThrottleArray)] else []) ++ [(9, s.fusedMin)]

/-- R640: the limits of guider core n in force beside FMAX_MHZ. -/
def State.coreLimits (s : State) (n : Nat) (k : Rat) (capBits : List Nat) (throttle : Bool) : List (Nat × Nat) :=
  let f := s.coreFmax n
  capBits.map (fun b => (b, floor25 1200 (f * k)))
    ++ (if s.thermSteps (n + 1) = 0 then [] else [(4, max 1200 (f - 25 * s.thermSteps (n + 1)))])
    ++ (if s.hel.trip then [(5, 1200)] else []) ++ (if throttle then [(6, s.helThrottleCore)] else [])

/-- The least of limits and of a highest clock. -/
def leastLimit (top : Nat) (l : List (Nat × Nat)) : Nat := l.foldl (fun m p => min m p.2) top

/-- The bits of the limits equal to a clock. -/
def limitBits (l : List (Nat × Nat)) (f : Nat) : Nat := (l.filter fun p => p.2 == f).foldl (fun m p => m ||| 2 ^ p.1) 0

/-- R640: the clock of every guider core; the bits of the limits that hold a core below its FMAX_MHZ. -/
def State.helCores (s : State) (k : Rat) (capBits : List Nat) (throttle : Bool) : Nat × State :=
  (List.range 128).foldl (fun (acc : Nat × State) n =>
    let s := acc.2
    if !s.coreOn n then acc
    else
      let l := s.coreLimits n k capBits throttle
      let f := max 1200 (leastLimit (s.coreFmax n) l / 25 * 25)
      let s := if f = s.coreClock n then s else s.count helCell (evOf 0x31 3)
      (if f < s.coreFmax n then acc.1 ||| limitBits l f else acc.1, s.setFld F.CELL_POWER_CUR_MHZ (guiderCell n) f)) (0, s)

/-- R637: gather the tick just ended. -/
def State.helGather (s : State) (t : HelTickIn) : State :=
  let g := s.hel.gain
  let at_ := fun (m : SMap HelPhaseAcc) p => smapGet (fun _ => ({} : HelPhaseAcc)) m p
  let put := fun (m : SMap HelPhaseAcc) p (a : HelPhaseAcc) => smapSet (fun _ => {}) m p a
  let p := s.fld F.HEL_PHASE_ARRAY_PHASE helCell
  let a := at_ s.hel.phases p
  let m := put s.hel.phases p { a with
    ticks := a.ticks + 1, arrayW := a.arrayW + g * t.array / 1000, clock := a.clock + s.hel.clock, stackW := a.stackW + g * t.stack / 1000 }
  let on := (List.range 128).filter s.coreOn
  let m := on.foldl (fun m n =>
    let a := at_ m (s.corePhase n)
    put m (s.corePhase n) { a with
      coreMw := a.coreMw + g * 1000 * t.coreW n * s.coreFmax n / s.coreClock n, cores := a.cores + 1 }) m
  let m := ((on.map s.corePhase).dedup).foldl (fun m p => let a := at_ m p; put m p { a with coreTicks := a.coreTicks + 1 }) m
  s.setHel { s.hel with phases := m, rawSum := s.hel.rawSum + t.rawW, rawTicks := s.hel.rawTicks + 1 }

/-- R643: the level in A of the dark frame after the tick; none where there is no frame. -/
def State.darkStep (s : State) (current : Nat) : Option (Rat × Nat) :=
  let idle := s.prim.op.isNone && s.prim.queue.isEmpty && s.enabled qnwCell
  match s.hel.frame with
  | some (l, h) =>
    if !idle ∨ !s.prim.darkFrame then none
    else if 0 < h then some (l, h - 1)
    else
      let l' := if s.helFloor < l then max s.helFloor (l - s.helSlew) else l
      if l' ≤ 0 then none else some (l', 0)
  | none =>
    let start : Rat := match s.hel.darkLevel with
      | some v => (v : Rat) * 1800 / 128
      | none => current
    if idle ∧ 0 < current ∧ 0 < start then some (start, s.fld F.HEL_SLEW_HOLD_US helCell) else none

/-- R641: the SLEW limit under the least of the other limits; none where that clock meets the bound. -/
def State.slewLimit (s : State) (t : HelTickIn) (others : Nat) : Option Nat :=
  let most : Nat := t.current + s.helSlew
  if t.predicted * others ≤ most * 1800 then none else some (floor25 500 ((most * 1800 : Nat) / (t.predicted : Rat)))

/-- R638, R641 to R643: the clock of the array, the dark frame and the infill. -/
def State.helArray (s : State) (t : HelTickIn) (limits : List (Nat × Nat)) (cores : Nat) : State :=
  let accord := match s.hel.accord with | some f => [(8, f)] | none => []
  let slew := match s.slewLimit t (leastLimit 1800 (limits ++ accord)) with | some f => [(3, f)] | none => []
  let others := leastLimit 1800 (limits ++ slew)
  let limits := limits ++ accord ++ slew
  let f := leastLimit 1800 limits
  let bits := limitBits limits f
  let s := (List.range 10).foldl (fun (s : State) b => if bitsOf bits b b = 1 then s.count helCell (evOf 0x31 0) (some b) else s) s
  let s := s.setFld F.PRIM_CLK_LIMIT_HEL_LIMIT_MHZ qnwCell f
  let s := (s.setFld F.HEL_REASON_ARRAY helCell bits).setFld F.HEL_REASON_CORES helCell cores
  let frame := s.darkStep t.current
  let infill : Rat := if frame.isSome then 0 else max 0 ((t.current : Rat) - s.helSlew - (t.predicted : Rat) * f / 1800)
  let level := match frame with | some (l, _) => l | none => infill
  let s := s.setFld F.HEL_STATUS_DARK_LEVEL helCell (min 128 (level * 128 / 1800 + 1 / 2).floor.toNat)
  let s := if frame.isSome then (s.count helCell (evOf 0x31 1)).count qnwCell (evOf 0x10 4) none s.arrayClock else s
  let s := if 0 < infill then (s.count helCell (evOf 0x31 2)).count qnwCell (evOf 0x10 5) none t.slots else s
  let clock := s.arrayClock
  let s := if clock = s.hel.clock then s else (s.count helCell (evOf 0x31 3)).count qnwCell (evOf 0x10 7)
  let s := s.setPrim { s.prim with darkFrame := frame.isSome }
  s.setHel { s.hel with others := others, clock := clock, frame := frame, darkLevel := if frame.isSome then none else s.hel.darkLevel }

/-- R631 to R644: one tick of 1 µs. -/
def State.helTick (s : State) (t : HelTickIn) : State :=
  let s := s.helGather t
  let est := s.helEstimate t
  let s := match t.sample with | some (mv, ca) => s.helSample mv ca | none => s
  let e := s.roundOpen est
  let s := e.2.setFld F.HEL_MEAS_P_EST_W helCell (clampField 16 e.1)
  let p := s.helControlled est
  let a := s.helBucket p.1
  let s := a.2
  let k := s.helShare t a.1.1
  let capBits := (match a.1.2 with | .peakW => [0] | .rate => [1] | .current => [2]) ++ (if p.2 then [7] else [])
  let throttle := s.throttleIn
  let s := if throttle && !s.flag F.HEL_STATUS_THROTTLE helCell then s.helEvent 5 else s
  let s := s.setFlag F.HEL_STATUS_THROTTLE helCell throttle
  let s := if s.hel.accord.isSome then s.count helCell (evOf 0x31 9) else s
  let c := s.helCores k capBits throttle
  (c.2.helArray t (c.2.arrayLimits k capBits throttle) c.1).noteLevels

/-- R631. The errors that the tick brings to the array's buffers come first (R604). -/
def execHelTick (t : HelTickIn) (s : State) : Out := .next (if s.stopped then s else (s.primUpsets t.upsets).helTick t)

/-! ## Windows -/

/-- The mean of a list of numbers. -/
def meanOf (l : List Rat) : Rat := if l.isEmpty then 0 else l.foldl (· + ·) 0 / l.length

/-- R632: the gain and offset that the pairs of a window ask for, within their bounds. -/
def windowFit (gain : Rat) (pairs : List (Rat × Rat)) : Rat × Rat :=
  let m := meanOf (pairs.map Prod.fst)
  let e := meanOf (pairs.map Prod.snd)
  let es := pairs.map Prod.snd
  let spread := es.foldl max (es.headD 0) - es.foldl min (es.headD 0)
  let var := (es.map fun x => (x - e) * (x - e)).foldl (· + ·) 0
  let cov := (pairs.map fun p => (p.2 - e) * (p.1 - m)).foldl (· + ·) 0
  let (g, o) : Rat × Rat := if e * 2 / 100 ≤ spread ∧ var ≠ 0 then (cov / var, m - cov / var * e) else (gain, m - gain * e)
  (max (90 / 100) (min (130 / 100) g), max (-200) (min 200 o))

/-- R632: `HEL_CAL` shows GAIN to the nearest unit and OFFSET in W. -/
def State.showCal (s : State) : State :=
  let (o, s) := s.roundOpen s.hel.offset
  (s.setFld F.HEL_CAL_GAIN helCell (s.hel.gain * 32768 + 1 / 2).floor.toNat).setFld F.HEL_CAL_OFFSET_W helCell (o % 65536).toNat

/-- R637: one field of the seeing table moves. -/
def State.seeMove (s : State) (f : Fld) (n : Nat) (first : Bool) (sample : Rat) : State :=
  let x : Rat := s.fld f helCell n
  let (v, s) := s.roundOpen (if first then sample else x + (sample - x) / 16)
  s.setFld f helCell (clampField 16 v) n

/-- R637: entry n learns from a window. -/
def State.seeLearn (s : State) (n : Nat) (a : HelPhaseAcc) : State :=
  let array := decide (1000 ≤ a.ticks) && decide (0 < a.clock)
  let cores := decide (1000 ≤ a.coreTicks) && decide (0 < a.cores)
  if !array && !cores then s
  else
    let w := s.fld F.HEL_SEEn_WINDOWS helCell n
    let first := w == 0
    let s := if array then
        (s.seeMove F.HEL_SEEn_ARRAY_W n first (a.arrayW * 1800 / a.clock)).seeMove F.HEL_SEEn_STACK_W n first (a.stackW / a.ticks)
      else s
    let s := if cores then s.seeMove F.HEL_SEEn_CORE_MW n first (a.coreMw / a.cores) else s
    s.setFld F.HEL_SEEn_WINDOWS helCell (min 0xFFFF (w + 1)) n

/-- R633: SENSOR_DISAGREE changes. -/
def State.setDisagree (s : State) (v : Bool) : State :=
  if s.flag F.HEL_STATUS_SENSOR_DISAGREE helCell = v then s
  else (s.setFlag F.HEL_STATUS_SENSOR_DISAGREE helCell v).helEvent (if v then 0 else 1)

/-- R632, R633, R637: the end of a window of 10 ms. -/
def State.helWindow (s : State) : State :=
  let pairs := s.hel.pairs
  let m := meanOf (pairs.map Prod.fst)
  let c := s.hel.gain * meanOf (pairs.map Prod.snd) + s.hel.offset
  let fail := s.hel.badVolt
  let agree := !fail && decide ((if m < c then c - m else m - c) ≤ max m c * 12 / 100)
  let phases := s.hel.phases
  let frozen := s.flag F.HEL_STATUS_SENSOR_DISAGREE helCell
  let s := s.setFlag F.HEL_STATUS_SENSOR_FAIL helCell fail
  let s := if fail then s.helEvent 2 else s
  let s := s.count helCell (evOf 0x31 (if agree then 5 else 4))
  let run := fun f => min 255 (s.fld f helCell + 1)
  let s := (s.setFld F.HEL_CAL_DISAGREE_RUN helCell (if agree then 0 else run F.HEL_CAL_DISAGREE_RUN)).setFld
    F.HEL_CAL_AGREE_RUN helCell (if agree then run F.HEL_CAL_AGREE_RUN else 0)
  let s := if 16 ≤ s.fld F.HEL_CAL_DISAGREE_RUN helCell then s.setDisagree true
    else if 16 ≤ s.fld F.HEL_CAL_AGREE_RUN helCell then s.setDisagree false else s
  let s := if agree && !frozen then
      let (g, o) := windowFit s.hel.gain pairs
      (s.setHel { s.hel with gain := s.hel.gain + (g - s.hel.gain) / 8, offset := s.hel.offset + (o - s.hel.offset) / 8 }).showCal
    else s
  let s := if agree && s.flag F.HEL_PHASE_LEARN_EN helCell then phases.foldl (fun (s : State) p => s.seeLearn p.1 p.2) s else s
  (s.setHel { s.hel with pairs := [], badVolt := false, phases := [] }).noteLevels

def execHelWindow (s : State) : Out := .next (if s.hel.pairs.isEmpty ∨ s.stopped then s else s.helWindow)

/-! ## Heat -/

/-- R645: the temperatures, the hub die first, then the quadrant dies, then the stacks that are trained, by the numbers of HOT_SRC,
each with its limit. -/
def State.sensors (s : State) (dies : Vector (BitVec 8) 5) : List (Nat × Nat × Nat) :=
  (List.range 5).map (fun i => (i, (dies.toList.getD i 0).toNat, s.fld F.HEL_THERM_LIMIT_C helCell))
    ++ ((List.range 8).filter fun k => s.flag F.SMC_STATUS_TRAINED (smcCell k)).map fun k =>
      (5 + k, s.fld F.SMC_STATUS_TEMP_C (smcCell k), s.fld F.HEL_THERM_STACK_LIMIT_C helCell)

/-- The margin of a sensor. -/
def sensorMargin (p : Nat × Nat × Nat) : Int := (p.2.2 : Int) - p.2.1

/-- R645: every THERMAL limit is lowered (up) or raised by one step; a limit at its bound stays. -/
def State.thermMove (s : State) (up : Bool) : State :=
  let most := fun k => if k = 0 then (1800 - 500) / 25 else (s.coreFmax (k - 1) - 1200) / 25
  let therm := (List.range 129).foldl (fun m k =>
    let n := smapGet (fun _ => 0) m k
    smapSet (fun _ => 0) m k (if up then max n (min (most k) (n + 1)) else n - 1)) s.hel.therm
  s.setHel { s.hel with therm := therm }

/-- R645: the steps of THERMAL: one down for each 10 samples with MARGIN_C below 0, one up for each 100 with MARGIN_C at 3 or more. -/
def State.thermal (s : State) (margin : Int) : State :=
  let cold := if margin < 0 then s.hel.thermCold + 1 else 0
  let hot := if 3 ≤ margin then s.hel.thermHot + 1 else 0
  let s := if cold = 10 then s.thermMove true else if hot = 100 then s.thermMove false else s
  s.setHel { s.hel with thermCold := cold % 10, thermHot := hot % 100 }

/-- R645: TRIP begins or ends. -/
def State.tripCheck (s : State) (hottest : Nat) : State :=
  let limit := s.fld F.HEL_THERM_LIMIT_C helCell
  if max limit (s.fld F.HEL_THERM_TRIP_C helCell) ≤ hottest then
    if s.hel.trip then s else ((s.setHel { s.hel with trip := true }).setFlag F.HEL_STATUS_TRIP helCell true).helEvent 3
  else if s.hel.trip ∧ hottest + 10 < limit then (s.setHel { s.hel with trip := false }).setFlag F.HEL_STATUS_TRIP helCell false
  else s

/-- R645: a sample of the temperatures, every 100 µs. Sensors that tie for the smallest margin are chosen among by a free value
(log 43). -/
def State.thermalSample (s : State) (dies : Vector (BitVec 8) 5) : State :=
  let l := s.sensors dies
  let margin := l.foldl (fun m p => min m (sensorMargin p)) 255
  let least := (l.filter fun p => sensorMargin p == margin).map Prod.fst
  let (pick, s) := if 1 < least.length then (let q := s.free 8; (q.1.toNat, q.2)) else (0, s)
  let hottest := (dies.toList.map BitVec.toNat).foldl max 0
  let s := s.setFld F.HEL_THERM_HOT_C helCell hottest
  let s := s.setFld F.HEL_THERM_MARGIN_C helCell (signedByte margin)
  let s := s.setFld F.HEL_THERM_HOT_SRC helCell (least.getD (pick % least.length) 0)
  ((s.thermal margin).tripCheck hottest).noteLevels

def execThermalSample (dies : Vector (BitVec 8) 5) (s : State) : Out := .next (if s.stopped then s else s.thermalSample dies)

/-! ## Derates -/

/-- R639: the derate a cell holds, in steps. -/
def State.derateOf (s : State) (cell : Nat) : Nat := (fusedFmax cell - s.fld F.CELL_CLOCK_FMAX_MHZ cell) / 25

/-- R639: a write of `HEL_DERATE`. -/
def State.helDerate (s : State) (v : Nat) : State :=
  let cell := bitsOf v 15 0
  let steps := bitsOf v 23 16
  let kind := kindOf cell
  let low := if kind = 0x11 then 1000 else 2400
  let code := if kind ≠ 0x11 ∧ kind ≠ 0x18 then 1
    else if steps < s.derateOf cell then 2
    else if fusedFmax cell < low + 25 * steps then 3 else 0
  let s := if code = 0 then s.setFld F.CELL_CLOCK_FMAX_MHZ cell (fusedFmax cell - 25 * steps) else s
  ((s.setFld F.HEL_DERATE_RESULT_RESULT helCell (if code = 0 then 1 else 2)).setFld F.HEL_DERATE_RESULT_CODE helCell code).noteLevels

/-- R639: `HEL_MON_DATA` as it reads; the slack of a path monitor is a free value (log 1). -/
def State.helMonData (s : State) : Nat × State :=
  let cell := s.fld F.HEL_MON_SEL_CELL helCell
  let kind := kindOf cell
  if kind ≠ 0x11 ∧ kind ≠ 0x18 then (0, s)
  else
    let (m, s) := s.free 16
    let on := s.fld F.CELL_POWER_PSTATE cell == 0
    ((if on then m.toNat + 2 ^ 31 else 0) + s.derateOf cell * 2 ^ 16, s)

end Sys2Proof.Machine
end

