-- ==== Sys2Proof/Machine/Chrono.lean ====
section
/-! DEFINITION. The Chronograph (chapter 20) but for resets: the passing of time (R616 to R618), the sources and the safe states
(R608 to R613), the conditioned inputs (R620, R621), PERST_N (R627), and FAULT_N (R694). -/

namespace Sys2Proof.Machine

open Sys2Proof

def State.setChr (s : State) (c : ChrState) : State := { s with chr := c }

/-! ## Time -/

/-- The number that w bits stand for in two's complement. -/
def signedOf (w v : Nat) : Int := if v < 2 ^ (w - 1) then v else (v : Int) - 2 ^ w

/-- R617: the advance of the time base for each ns of its source, in units of 2⁻³² ns. -/
def State.tbRate (s : State) : Nat :=
  (2 ^ 32 + max (-4194304) (min 4194304 (signedOf 32 (s.fld F.CHR_TB_RATE_RATE_IN_FORCE chrCell)))).toNat

/-- `CHR_TB_PENDING` as a number. -/
def State.tbPending (s : State) : Int := signedOf 64 (s.fld F.CHR_TB_PENDING_PENDING chrCell)

/-- R618: PENDING takes a value; SLEWING reads 1 while it is not 0. -/
def State.setPendingNs (s : State) (p : Int) : State :=
  (s.setReg .CHR_TB_PENDING chrCell (BitVec.ofInt 64 p)).setFlag F.CHR_STATUS_SLEWING chrCell (p != 0)

/-- R617, R618: the time base advances for n ns of its source. -/
def State.tbAdvance (s : State) (n : Nat) : State :=
  let total := n * s.tbRate
  let p := s.tbPending
  let held := if p < 0 then min (total / 2) (p.natAbs * 2 ^ 32 - s.chr.withheld) else 0
  let w := s.chr.withheld + held
  let sum := s.timeFrac + (total - held)
  let s := { s with now := (s.now + sum / 2 ^ 32) % 2 ^ 64, timeFrac := sum % 2 ^ 32 }
  if p < 0 then
    let s := s.count chrCell (evOf 0x30 6) none n
    (s.setPendingNs (p + (w / 2 ^ 32 : Nat))).setChr { s.chr with withheld := w % 2 ^ 32 }
  else s

/-- R618: a write of `CHR_TB_STEP`: a forward offset at once, a backward one by a slew. -/
def State.tbStep (s : State) (v : Nat) : State :=
  let p := s.tbPending + signedOf 64 v
  if 0 < p then ({ s with now := (s.now + p.toNat) % 2 ^ 64 }.setPendingNs 0).setChr { s.chr with withheld := 0 }
  else s.setPendingNs p

/-- The cells whose photometer counts anything. -/
def State.countingCells (s : State) : List Nat :=
  (s.regs.filter fun p => inCcb p.1 && p.1 % 0x1000 == 0x800).map fun p => (p.1 - 0x020000000000) / 0x1000

/-- R303, R706: `CELL_POWER.CUR_MHZ` as it reads: never above `FMAX_MHZ`. -/
def State.cellMhz (s : State) (cell : Nat) : Nat :=
  let kind := kindOf cell
  if s.gated cell ∨ isGroup cell then 0
  else if kind = 0x11 ∨ (0x19 ≤ kind ∧ kind ≤ 0x1B) then s.primClkStatus % 2 ^ 11
  else if kind = 0x18 then
    let c := s.fld F.CELL_POWER_CUR_MHZ cell
    let f := s.fld F.CELL_CLOCK_FMAX_MHZ cell
    if c = 0 then f else min f c
  else s.fld F.CELL_CLOCK_FMAX_MHZ cell

/-- R671, R675: the common events that count time: TIME_NS, CYCLES and ENABLED_NS, over n ns from time t; while the
islands stand only the Chronograph counts (R612). -/
def State.countTime (s : State) (t n : Nat) : State :=
  s.countingCells.foldl (fun (s : State) g =>
    let sub := (cellSubtree g).filter fun c => !s.gated c && (!s.stopped || c == chrCell)
    let cycles := sub.foldl (fun k c => k + ((t + n) * s.cellMhz c / 1000 - t * s.cellMhz c / 1000)) 0
    let s := s.countIn g 0x001 (n * sub.length) (some 0xFFF)
    let s := s.countIn g 0x002 cycles (some 0xFFF)
    s.countIn g 0x003 (n * (sub.filter s.enabled).length) (some 0xFFF)) s

/-- The cycles of a cell's clock in n ns from time t on. -/
def State.cyclesOf (s : State) (cell t n : Nat) : Nat := (t + n) * s.cellMhz cell / 1000 - t * s.cellMhz cell / 1000

/-- R361: the cycles in which no intake cell is free and unreserved: the intake is full, and credit is held (log 22). -/
def State.countIntake (s : State) (t n : Nat) : State :=
  if s.creditHeld && !s.stopped && !s.gated colCell then
    (s.count colCell (evOf 0x28 3) none (s.cyclesOf colCell t n)).count colCell (evOf 0x28 4) none (s.cyclesOf colCell t n)
  else s

/-- R655: the watchdog of Dome core n counts. -/
def State.wdtRuns (s : State) (n : Fin 8) : Bool :=
  !s.stopped && s.flag F.DOM_COREn_WDT_CFG_EN domeSub n.val && s.enabled (domeCell n.val) && !s.flag F.GDR_DBG_STATUS_HALTED (domeCell n.val)

/-- What is left of a watchdog in ns. -/
def State.wdtLeft (s : State) (n : Nat) : Nat := smapGet (fun _ => 500000000) s.dom.wdt n

def State.setWdt (s : State) (n v : Nat) : State :=
  { s with dom := { s.dom with wdt := smapSet (fun _ => 500000000) s.dom.wdt n v } }

/-- R663: the heartbeat timer of a port counts. -/
def State.beatRuns (s : State) (p : Nat) : Bool :=
  !s.stopped && s.flag F.DOM_HOST_STATE_ARMED domeSub p && !s.flag F.DOM_HOST_STATE_ABSENT domeSub p

/-- R663: what is left of the heartbeat timer of a port in ns. -/
def State.beatLeft (s : State) (p : Nat) : Nat := smapGet (fun _ => 0) s.dom.beat p

def State.setBeat (s : State) (p v : Nat) : State :=
  { s with dom := { s.dom with beat := smapSet (fun _ => 0) s.dom.beat p v } }

/-- n ns of the time source pass (R616): the time base, the counts of time, the watchdogs, the heartbeat timers, the time for which
the array was occupied. -/
def State.advanceNs (s : State) (n : Nat) : State :=
  if !s.power.good then s
  else
    let t := s.now
    let s := s.tbAdvance n
    let s := (s.countTime t (s.now - t)).countIntake t (s.now - t)
    let s := (List.finRange 8).foldl (fun (s : State) k => if s.wdtRuns k then s.setWdt k.val (s.wdtLeft k.val - n) else s) s
    let s := ([0, 1] : List Nat).foldl (fun (s : State) p => if s.beatRuns p then s.setBeat p (s.beatLeft p - n) else s) s
    let s := if s.flag F.CHR_STATUS_SAFE chrCell then s.count chrCell (evOf 0x30 1) none n else s
    if s.primBusy ∧ !s.stopped then { s with busyNs := s.busyNs + n } else s

/-! ## Sources -/

def ClockSource.index : ClockSource → Nat
  | .crystal => 0
  | .pcieRef => 1
  | .ethRef => 2

def ClockSource.stableField : ClockSource → Fld
  | .crystal => F.CHR_STATUS_XTAL_STABLE
  | .pcieRef => F.CHR_STATUS_PCIE_REF_OK
  | .ethRef => F.CHR_STATUS_ETH_REF_OK

def State.srcStable (s : State) (c : ClockSource) : Bool := s.flag c.stableField chrCell

/-- R613: every source is judged stable. -/
def State.allStable (s : State) : Bool := s.srcStable .crystal && s.srcStable .pcieRef && s.srcStable .ethRef

/-- R402, R611: the transmitters of the Ethernet ports are squelched, and no port keeps its link. -/
def State.squelch (s : State) : State :=
  (List.range 8).foldl (fun (s : State) p => (s.ethLinkChange p 0 false).ethLinkChange p 1 false) s

/-- R611, R613, R627: PERST_N of every downstream port is asserted; a link that was up goes down. -/
def State.perstAll (s : State) : State :=
  let s := s.setChr { s.chr with released := [] }
  (List.range 24).foldl (fun (s : State) k => s.linkChange (2 + k) false 0 0 false) s

/-- R611: the safe states. -/
def State.safeStates (s : State) : State := ((s.setFlag F.CHR_STATUS_SAFE chrCell true).perstAll).squelch

/-- R610 to R613: a source has failed. A reference that was never judged stable does not fail. -/
def State.sourceFail (s : State) (c : ClockSource) : State :=
  let was := s.srcStable c
  if c ≠ .crystal ∧ !was ∨ c = .crystal ∧ s.chr.xtalLost then s
  else
    let s := s.setFlag c.stableField chrCell false
    let s := s.setChr { s.chr with failed := c.index :: s.chr.failed.filter (· != c.index) }
    let s := ((s.setFlag F.CHR_STATUS_CLOCK_LOSS chrCell true).count chrCell (evOf 0x30 0) (some c.index)).safeStates
    let s := match c with
      | .crystal => (s.setFlag F.CHR_STATUS_TB_XTAL chrCell false).setChr { s.chr with xtalLost := true }
      | .pcieRef => (s.fundamental 0).fundamental 1
      | .ethRef => s
    (s.event 0x4002C000).noteLevels

/-- R609: a source is judged stable; CLOCK_EVENT where it had failed. The crystal's return, with its warm reset, is with the resets. -/
def State.sourceStable (s : State) (c : ClockSource) : State :=
  let again := s.chr.failed.contains c.index
  let s := s.setFlag c.stableField chrCell true
  let s := if c = .crystal then s.setFlag F.CHR_STATUS_TB_XTAL chrCell true else s
  let s := s.setChr { s.chr with failed := s.chr.failed.filter (· != c.index), pcieAt := if c = .pcieRef then s.now else s.chr.pcieAt }
  (if again then s.event 0x4002C000 else s).noteLevels

/-- R613: a write of RELEASE. -/
def State.safeRelease (s : State) : State :=
  if s.allStable then (s.setFlag F.CHR_STATUS_SAFE chrCell false).noteLevels
  else s.recordError chrCell clsAccess (regAddr .CHR_SAFE_CTRL chrCell 0) 0

/-! ## Inputs -/

/-- R621: the inputs that have a stuck limit. -/
def inputCanStick (i : Nat) : Bool := i == 3 || decide (32 ≤ i ∧ i ≤ 55)

/-- R621: the defined input bits. -/
def inputDefined (i : Nat) : Bool := decide (i ≤ 3 ∨ 8 ≤ i ∧ i ≤ 31 ∨ 32 ≤ i ∧ i ≤ 55)

/-- The filtered level of an input: asserted. -/
def State.inputOn (s : State) (i : Nat) : Bool := bitsOf s.power.inputs i i == 1

/-- `CHR_INPUT_STUCK`. -/
def State.inputStuck (s : State) (i : Nat) : Bool := bitsOf (s.fld F.CHR_INPUT_STUCK_STUCK chrCell) i i == 1

def State.setInput (s : State) (i : Nat) (on : Bool) : State :=
  { s with power := { s.power with inputs := putBits s.power.inputs i i on.toNat } }

/-- R621: the effect of an input that changes, but for SYS_RESET_N, which is with the resets, and THROTTLE_IN_N, which the Heliostat
looks at. -/
def State.inputEffect (s : State) (i : Nat) (on : Bool) : State :=
  if s.stopped then s
  else if i = 1 ∨ i = 2 then (if on then s.fundamental (i - 1) else s)
  else if 8 ≤ i ∧ i ≤ 31 then s.presence (i - 8) on
  else if 32 ≤ i ∧ i ≤ 55 ∧ on ∧ !s.inputStuck i then s.event 0x4002C001
  else s

/-- R621: an input has stayed asserted beyond its stuck limit. -/
def State.inputSticks (s : State) (i : Nat) : State :=
  if inputCanStick i ∧ s.inputOn i ∧ !s.inputStuck i ∧ s.power.good then
    let s := s.setFld F.CHR_INPUT_STUCK_STUCK chrCell (s.fld F.CHR_INPUT_STUCK_STUCK chrCell ||| 2 ^ i)
    (s.count chrCell (evOf 0x30 3) (some i)).event 0x4002C001
  else s

/-- R621: software clears STUCK bits; those whose input is still asserted stay. -/
def State.stuckClear (s : State) (v : Nat) : State :=
  let old := s.fld F.CHR_INPUT_STUCK_STUCK chrCell
  let clear := (List.range 64).foldl (fun m i => if bitsOf v i i = 1 ∧ !s.inputOn i then m + 2 ^ i else m) 0
  s.setFld F.CHR_INPUT_STUCK_STUCK chrCell (old &&& (2 ^ 64 - 1 - clear))

/-- R627: PERST_N of downstream port k is deasserted, not before 100 ms have passed since the reference was judged stable. -/
def State.perstRelease (s : State) (k : Nat) : State :=
  if k < 24 ∧ s.enabled (downCell k) ∧ !s.flag F.CHR_STATUS_SAFE chrCell ∧ s.srcStable .pcieRef ∧ s.chr.pcieAt + 100000000 ≤ s.now then
    s.setChr { s.chr with released := k :: s.chr.released.filter (· != k) }
  else s

/-- R694: FAULT_N is asserted. -/
def State.faultN (s : State) : Bool :=
  !s.power.good || s.power.latch || s.flag F.CHR_STATUS_SAFE chrCell || !s.chr.started || s.fld F.ROT_STATUS_BOOT rotCell == bootFailed
    || s.hel.trip || s.flag F.CHR_SAFE_CTRL_FW_FAULT chrCell

/-- R709: a reset of the Chronograph cell: its interface to software. -/
def State.chrReset (s : State) : State :=
  let s := s.setFlag F.CHR_SAFE_CTRL_FW_FAULT chrCell false
  (List.range 8).foldl (fun (s : State) p =>
    (s.setEthPort p { s.ethPort p with stamps := [] }).setFlag F.CHR_TXTSp_INFO_OVERFLOW chrCell false p) s

end Sys2Proof.Machine
end

