-- ==== Sys2Proof/Machine/Dome.lean ====
section
/-! DEFINITION. The Dome complex (chapter 22) but for the resets of its cores: watchdogs, the host heartbeat and attach, the
request slots, the management sideband. The services themselves are firmware, which acts through commands of its own. -/

namespace Sys2Proof.Machine

open Sys2Proof

/-- R655: the count of a watchdog reloads. -/
def State.wdtReload (s : State) (n : Nat) : State :=
  s.setWdt n (max 10 (s.fld F.DOM_COREn_WDT_CFG_TIMEOUT_MS domeSub n) * 1000000)

/-- `DOM_COREn_WDT_STATUS` as it reads: REMAINING_MS in whole ms, a begun one counted. -/
def State.wdtStatus (s : State) (n : Nat) : Nat :=
  putBits (s.reg .DOM_COREn_WDT_STATUS domeSub n).toNat 15 0 ((s.wdtLeft n + 999999) / 1000000)

/-- R655: a write of KICK with KICK 1: only Dome core n itself kicks its watchdog. -/
def State.wdtKick (s : State) (a : Agent) (n : Nat) : State :=
  let own := match a with
    | .firmware c => c.val == n
    | .host _ => false
  if own then (s.wdtReload n).count (domeCell n) (evOf 0x2F 1)
  else s.recordError domeSub clsAccess (regAddr .DOM_COREn_WDT_KICK domeSub n) 0

/-- `DOM_FW_STATUS` as it reads: FENCED of every core. -/
def State.fwStatus (s : State) (p : Nat) : Nat :=
  let fenced := (List.range 8).foldl (fun m n => if s.flag F.DOM_COREn_WDT_STATUS_FENCED domeSub n then m + 2 ^ n else m) 0
  putBits (s.reg .DOM_FW_STATUS domeSub p).toNat 23 16 fenced

/-- R656 but for the reset: what an expiry captures, records and counts. The reset, and the enable that follows it, are with the
resets. -/
def State.wdtCapture (s : State) (n : Fin 8) (pc : Word) : State :=
  let k := n.val
  let s := s.setReg .DOM_COREn_WDT_PC domeSub pc k
  let s := s.setReg .DOM_COREn_WDT_LAST domeSub (BitVec.ofNat 64 s.now) k
  let x := s.fld F.DOM_COREn_WDT_STATUS_EXPIRIES domeSub k
  let s := s.setFld F.DOM_COREn_WDT_STATUS_EXPIRIES domeSub (min 255 (x + 1)) k
  let times := s.now :: (smapGet (fun _ => []) s.dom.expiries k)
  let s := { s with dom := { s.dom with expiries := smapSet (fun _ => []) s.dom.expiries k (times.take 3) } }
  let s := { s with eph := { s.eph with wdtTimes := s.now :: s.within 60000000000 s.eph.wdtTimes } }
  s.count domeSub (evOf 0x2E 0) (some k)

/-- R656: this expiry and the two before it fall within 60 s. -/
def State.wdtFences (s : State) (n : Nat) : Bool :=
  match smapGet (fun _ => []) s.dom.expiries n with
  | t :: _ :: u :: _ => decide (t ≤ u + 60000000000)
  | _ => false

/-- R656: steps 3 and 4: the record and the fence. -/
def State.wdtRecord (s : State) (n : Fin 8) (pc : Word) : State :=
  let k := n.val
  let s := (s.recordError domeSub clsTimeout (pc.toNat % 2 ^ 48) k).event (0x4002B000 + k)
  if s.wdtFences k then
    ((s.setFlag F.DOM_COREn_WDT_STATUS_FENCED domeSub true k).count domeSub (evOf 0x2E 1)).routeFire (13312 + 15)
  else s

/-! ## The host -/

/-- R663: a host write of `DOM_HOST_HEARTBEAT`. -/
def State.heartbeat (s : State) (p count : Nat) : State :=
  let s := (s.setFld F.DOM_HOST_HEARTBEAT_COUNT domeSub count p).count domeSub (evOf 0x2E 5) (some p)
  if s.flag F.DOM_HOST_STATE_ABSENT domeSub p then s
  else (s.setFlag F.DOM_HOST_STATE_ARMED domeSub true p).setBeat p
    (clampNat 100 60000 (s.fld F.DOM_HOST_HB_CFG_TIMEOUT_MS domeSub p) * 1000000)

/-- R663: the heartbeat timer expires, once it has run down. -/
def State.heartbeatExpires (s : State) (p : Nat) : State :=
  if s.beatRuns p ∧ s.beatLeft p = 0 then
    ((s.setFlag F.DOM_HOST_STATE_ABSENT domeSub true p).count domeSub (evOf 0x2E 6) (some p)).event (0x4002B008 + p)
  else s

/-- R663, R664: the Catalogue queues of PF0 of a port. -/
def State.pf0Queues (s : State) (p : Nat) : List Nat :=
  (List.range 4096).filter fun q =>
    s.catOwner q == 1 && s.fld F.CAT_Qq_OWNER_FN catCell q == 0 && s.fld F.CAT_Qq_OWNER_PORT catCell q == p

/-- R664: a write of ATTACH. -/
def State.attach (s : State) (p : Nat) : State :=
  let s := (s.setFlag F.DOM_HOST_STATE_ABSENT domeSub false p).setFlag F.DOM_HOST_STATE_ARMED domeSub false p
  let s := s.setFld F.DOM_HOST_STATE_HGEN domeSub (s.fld F.DOM_HOST_STATE_HGEN domeSub p + 1) p
  let s := (s.count domeSub (evOf 0x2E 7) (some p)).event (0x4002B008 + p)
  ((s.pf0Queues p).foldl (fun (s : State) q => s.catQueueReset q false) s).settle

/-! ## Request slots -/

/-- R665: whether an offset in the Dome cores block lies in the request slots of a port. -/
def inSlots (off : Nat) : Bool := decide (0x110000 ≤ off ∧ off < 0x150000) || decide (0x210000 ≤ off ∧ off < 0x250000)

def State.slotsRead (s : State) (off n : Nat) : Nat := leNat ((List.range n).map fun i => smapGet (fun _ => 0) s.dom.slots (off + i))

def State.slotsWrite (s : State) (off n v : Nat) : State :=
  let m := (List.range n).foldl (fun m i => smapSet (fun _ => 0) m (off + i) (BitVec.ofNat 8 (v / 256 ^ i))) s.dom.slots
  { s with dom := { s.dom with slots := m } }

/-! ## The sideband -/

/-- R693: the SMBus address and I3C static address of the module. -/
def mctpAddress : Nat := 0x4C + Config.modId % 4

/-- R668: the value of a sensor. What the firmware keeps of PTP, and every other answer, is a free value (log 44). -/
def State.sensorValue (s : State) (k : Nat) : Nat × State :=
  match k with
  | 1 => (s.fld F.HEL_MEAS_P_MEAS_W helCell, s)
  | 2 => (s.fld F.HEL_MEAS_VIN_MV helCell, s)
  | 3 => (s.fld F.HEL_THERM_HOT_C helCell, s)
  | 4 => (s.fld F.HEL_THERM_MARGIN_C helCell, s)
  | 5 => (s.primClkStatus % 2 ^ 11, s)
  | 6 => (s.fld F.HEL_REASON_ARRAY helCell, s)
  | 7 => (s.fld F.DOM_FW_STATUS_STATE domeSub, s)
  | 8 => let (b, s) := s.free 1; (b.toNat, s)
  | _ => let (b, s) := s.free 64; (b.toNat, s)

/-- R653, R693: the MGMT service runs: Dome core 0 has started, and MGMT is not FAILED. -/
def State.mgmtRuns (s : State) : Bool :=
  !s.stopped && s.chr.started && ([0, 1] : List Nat).all fun p =>
    bitsOf (s.fld F.DOM_FW_STATUS_FAILED_SVC domeSub p) 6 6 == 0

/-- R668, R693: a request on a sideband (true: SMBus) to an address, for a sensor or another endpoint function; it is answered where
the address is the module's and the MGMT service runs. -/
def State.mctpRequest (s : State) (smbus : Bool) (addr sensor : Nat) : State :=
  if addr ≠ mctpAddress ∨ !s.mgmtRuns then s
  else
    let (v, s) := s.sensorValue sensor
    let s := s.count domeSub (evOf 0x2E 10)
    { s with dom := { s.dom with mctp := s.dom.mctp ++ [(smbus, sensor, v)] } }

end Sys2Proof.Machine
end

