-- ==== Sys2Proof/Machine/Exposures.lean ====
section
/-! DEFINITION. The exposure engine of the device cell (R677 to R681): the selection list, the ticks and their records. -/

namespace Sys2Proof.Machine

open Sys2Proof

def State.setExp (s : State) (e : ExpState) : State := { s with exp := e }

/-- R677: the counters a list entry selects; none where the entry names no cell or has a reserved bit. -/
def expEntry (w : Word32) : Option (List (Nat × Nat)) :=
  let cell := bitsOf w.toNat 15 0
  if (cellKind cell).isNone ∨ bitsOf w.toNat 31 24 ≠ 0 then none
  else some (((List.range 8).filter fun c => bitsOf w.toNat (16 + c) (16 + c) == 1).map fun c => (cell, c))

/-- R677: the counters a list selects. -/
def expList : List Word32 → Option (List (Nat × Nat))
  | [] => some []
  | w :: ws => match expEntry w, expList ws with
    | some a, some b => some (a ++ b)
    | _, _ => none

/-- R677, R681: EN goes from 0 to 1: the list is read, and exposures start or are refused. -/
def State.expEnable (s : State) : State :=
  let n := s.fld F.PHOT_EXP_LIST_ENTRIES 0
  let base := 4096 * s.fld F.PHOT_EXP_LIST_BASE 0
  let refuse := fun (s : State) => (s.setFlag F.PHOT_EXP_CTRL_EN 0 false).recordError 0 clsProtocol base 0
  let size := s.fld F.PHOT_EXP_RING_SIZE_LOG2 0
  if n = 0 ∨ 1024 < n ∨ size = 0 ∨ 16 < size then refuse s
  else match s.devRead base (4 * n) with
    | (some (bs, false), s) =>
      match expList (wordsOf n bs) with
      | some (c :: cs) =>
        let s := s.setExp { list := c :: cs, seq := 0, lost := 0, last := s.now }
        ((s.setFlag F.PHOT_EXP_CTRL_EN 0 true).setFld F.PHOT_EXP_PTR_HEAD 0 0).setFld F.PHOT_EXP_PTR_TAIL 0 0
      | _ => refuse s
    | (_, s) => refuse s

/-- PERIOD_US in ns, within its range. -/
def State.expPeriod (s : State) : Nat := clampNat 1 1000000 (s.fld F.PHOT_EXP_CTRL_PERIOD_US 0) * 1000

/-- R679: the 8-byte entry of a counter. -/
def State.expValue (s : State) (p : Nat × Nat) : List Byte :=
  let (cell, c) := p
  let resetting := s.resetting cell
  let count := if resetting then 0 else s.fld F.PHOT_CNTc_COUNT cell c
  natLe 8 (count + c * 2 ^ 48 + bitsOf (s.fld F.PHOT_OVF_OVF cell) c c * 2 ^ 51 + resetting.toNat * 2 ^ 52
    + (1 - bitsOf (s.fld F.PHOT_CTRL_EN cell) c c) * 2 ^ 53)

/-- R679: a record, rounded up to a multiple of 64 bytes. -/
def State.expRecord (s : State) (seq t lost : Nat) : List Byte :=
  let l := s.exp.list
  let n := l.length
  let head := natLe 4 0x50584F50 ++ natLe 4 (n % 2 ^ 14) ++ natLe 8 seq ++ natLe 8 t ++ natLe 4 (min lost 0xFFFFFFFF) ++ List.replicate 36 0
  padBytes ((64 + 8 * n + 63) / 64 * 64) (head ++ l.flatMap s.expValue)

/-- R678, R680: the tick at the last instant that has been passed; none where no instant has been passed since the last tick. -/
def State.expTick (s : State) : State :=
  let t := s.now / s.expPeriod * s.expPeriod
  if !s.flag F.PHOT_EXP_CTRL_EN 0 ∨ t ≤ s.exp.last ∨ t = 0 ∨ s.stopped then s
  else
    let seq := s.exp.seq + 1
    let s := (s.setExp { s.exp with seq := seq, last := t }).event 0x40010300
    let lost := fun (s : State) => s.setExp { s.exp with lost := min 0xFFFFFFFF (s.exp.lost + 1) }
    let head := s.fld F.PHOT_EXP_PTR_HEAD 0
    let tail := s.fld F.PHOT_EXP_PTR_TAIL 0
    let log2 := s.fld F.PHOT_EXP_RING_SIZE_LOG2 0
    if 2 ^ log2 ≤ ringDist head tail then lost s
    else
      let bs := s.expRecord seq t s.exp.lost
      let a := ringAt (4096 * s.fld F.PHOT_EXP_RING_BASE 0) log2 bs.length tail
      match s.devWrite a bs with
      | (true, s) =>
        let s := s.setFld F.PHOT_EXP_PTR_TAIL 0 (tail + 1)
        (s.setExp { s.exp with lost := 0 }).notifyBit (s.fld F.PHOT_EXP_PTR_NOTIFY_BIT 0)
      | (false, s) => lost (s.recordError 0 clsAccess a 0)

def execExposureTick (s : State) : Out := .next s.expTick

end Sys2Proof.Machine
end

