-- ==== Sys2Proof/Machine/Cells.lean ====
section
/-! DEFINITION. What a change of state does in each unit: cells that become ENABLED or leave it (R55, R56), when a unit has no work of
its own left (R57), the completion of a quiesce (R58), FAULT (R63), resets of cells (R61, R62) and the warm reset (R622 to R625),
power gating (R64), and the loss of power (R688). -/

namespace Sys2Proof.Machine

open Sys2Proof

/-! ## Which unit a cell is -/

/-- The core of a core cell. -/
def coreOf (cell : Nat) : Option CoreRef :=
  match kindOf cell with
  | 0x18 => some (.guider (Fin.ofNat 128 ((cellDie cell - 2) * 32 + (cellSlot cell - 5) * 8 + (cellMember cell - 1))))
  | 0x2F => some (.dome (Fin.ofNat 8 (cellMember cell - 1)))
  | 0x2B => some (.filter (Fin.ofNat 40 (cellMember cell - 1)))
  | _ => none

/-- The number of a quadrant by a cell of its die. -/
def quadOf (cell : Nat) : Nat := cellDie cell - 2

/-- The state of a core cell's XQ core. -/
def State.coreAt (s : State) (cell : Nat) : CoreState := smapGet (fun _ => {}) s.cores cell

/-- R306, R315: the core stops. -/
def State.coreStop (s : State) (c : CoreRef) : State := s.mapCore c fun k => { k with running := false, asleep := none, stepping := false }

/-- R222: a core's state, private bits and local memory return to their reset values. -/
def State.coreClear (s : State) (c : CoreRef) : State :=
  ((s.clearPrivate c.cell).setCore c {}).clearMem (localBase c.cell) (localBase c.cell + localSize c.cell)

/-! ## Becoming ENABLED and leaving it -/

/-- What a unit does when its cell becomes ENABLED. -/
def State.unitUp (s : State) (cell : Nat) : State :=
  match kindOf cell with
  | 0x29 => s.catCellUp.settle
  | 0x27 => s.trnCellUp.settle
  | 0x25 => s.classifyAll.shtUpdate
  | 0x21 => s.upCellUp (cellMember cell - 1)
  | 0x2D => s.ephUp
  | 0x18 | 0x2F =>
    let n := cellMember cell - 1
    match coreOf cell with
    | some (.dome c) => (s.coreUp (.dome c) (BitVec.ofNat 64 (s.fld F.DOM_COREn_BOOT_PC_PC domeSub n * 4))).wdtReload n
    | some c => s.coreUp c (BitVec.ofNat 64 (s.fld F.GDR_BOOT_PC_PC cell * 4))
    | none => s
  | _ => s

/-- What a unit does when its cell leaves ENABLED in a quiesce. -/
def State.unitDown (s : State) (cell : Nat) : State :=
  match kindOf cell with
  | 0x29 => s.catCellDown.settle
  | 0x27 => s.trnCellDown.settle
  | 0x21 => (s.upCellDown (cellMember cell - 1)).linkDisable (cellMember cell - 1)
  | 0x22 => (s.perstAssert (cellMember cell - 3)).linkDisable (cellMember cell - 1)
  | _ => s

/-- R55, R56: a change `f` of a cell and its descendants: those that were ENABLED and no longer are begin a quiesce; those that have
become ENABLED act on it. -/
def State.cellChange (s : State) (cell : Nat) (f : State → State) : State :=
  let sub := cellSubtree cell
  let was := sub.filter s.enabled
  let t := f s
  let t := (was.filter fun c => !t.enabled c && !t.faulted c).foldl (fun (t : State) c =>
    ((t.setFlag F.CELL_STATE_QUIESCE_BUSY c true).count c 0x006).unitDown c) t
  ((sub.filter fun c => t.enabled c && !was.contains c).foldl (fun (t : State) c => t.unitUp c) t).noteLevels

/-- R656: a fenced Dome core stays OFF until FENCED is cleared. -/
def State.fencedCell (s : State) (cell : Nat) : Bool :=
  kindOf cell == 0x2F && s.flag F.DOM_COREn_WDT_STATUS_FENCED domeSub (cellMember cell - 1)

/-- R399: a cell of an Ethernet port that leaves OFF takes BREAKOUT into force. -/
def State.leaveOff (s : State) (cell : Nat) : State :=
  if kindOf cell = 0x24 ∧ s.cellState cell = 0 then s.setFlag F.ETH_STATUS_BREAKOUT_IN_FORCE cell (s.flag F.ETH_CFG_BREAKOUT cell) else s

/-- R52, R53, R55: EN of a cell is written. -/
def State.setEn (s : State) (cell : Nat) (en : Bool) : State :=
  if noEnable cell ∨ (en ∧ s.fencedCell cell) then s
  else (if en then s.leaveOff cell else s).cellChange cell fun s => s.setFlag F.CELL_CTRL_EN cell en

/-! ## Quiesces -/

/-- R140, R208, R315, R358, R375, R429, R430, R449, R483, R521, R589: the unit has no work of its own left. A Dome core is idle as a
guider core is, asleep in WAITB or stopped (log 45). -/
def State.unitIdle (s : State) (cell : Nat) : Bool :=
  let asleep := !(s.coreAt cell).running || (s.coreAt cell).asleep.isSome
  match kindOf cell with
  | 0x10 => s.prim.op.isNone
  | 0x16 => !s.movBusy (moverOf cell)
  | 0x18 => asleep && (List.range 16).all fun k => !s.bitAt (fullBit (clusterOf cell * 8 + cellMember cell - 1) k)
  | 0x2F => asleep
  | 0x21 | 0x22 => s.portIdle (cellMember cell - 1)
  | 0x24 => (s.ethPort (cellMember cell - 1)).ingress.isEmpty
  | 0x26 => s.shtEmpty
  | 0x27 => s.liveConns.isEmpty
  | 0x28 => s.col.intake.isEmpty && s.col.egress.isEmpty
  | 0x29 => s.catIdle
  | 0x2B => (s.fltUnit (cellMember cell - 1)).run.isNone
  | 0x2D => s.ephIdle
  | _ => true

/-- What a unit does when its quiesce completes. -/
def State.unitQuiesced (s : State) (cell : Nat) : State :=
  match kindOf cell with
  | 0x18 | 0x2F => match coreOf cell with
    | some c => s.coreStop c
    | none => s
  | 0x24 => s.ethDown (cellMember cell - 1) false
  | 0x2D => s.ephDown
  | _ => s

/-- R57, R58: the quiesce of a cell completes, where nothing keeps it from that. -/
def State.quiesceDone (s : State) (cell : Nat) : State :=
  if !s.flag F.CELL_STATE_QUIESCE_BUSY cell ∨ !s.unitIdle cell
      ∨ ((cellSubtree cell).drop 1).any (fun c => s.flag F.CELL_STATE_QUIESCE_BUSY c) then s
  else
    s.cellChange cell fun s =>
      let s := s.unitQuiesced cell
      (s.setFlag F.CELL_STATE_QUIESCE_BUSY cell false).setFld F.CELL_STATE_GEN cell (s.fld F.CELL_STATE_GEN cell + 1)

def execQuiesceComplete (cell : Nat) (s : State) : Out :=
  .next (if (cellKind cell).isNone ∨ s.stopped then s else s.quiesceDone cell)

/-! ## FAULT -/

/-- R107: a segment that the map in force of its quadrant does not map out. -/
def State.isMapped (s : State) (cell : Nat) : Bool := (List.range 4).any fun q => (s.mappedSegments q).contains cell

/-- What a unit does when its own cell enters FAULT: R141 for a mapped segment, and for a quarter cell, which the check of its map
alone puts in FAULT (log 71); R177 for a cell of memory; R208 for a mover. -/
def State.unitFault (s : State) (cell : Nat) : State :=
  match kindOf cell with
  | 0x10 => s.primEnd primArrayFault
  | 0x11 => if s.isMapped cell then s.primEnd primArrayFault else s
  | 0x12 | 0x14 => s.primMemoryFail cell
  | 0x16 => s.movFaulted (moverOf cell)
  | 0x21 | 0x22 =>
    let j := cellMember cell - 1
    let s := (s.aerUncor j 0 22 false).linkDisable j
    if j < 2 then s else (s.perstAssert (j - 2)).event (0x40021060 + (j - 2))
  | _ => s

/-- R63: a cell enters FAULT: what its unit does, and the quiesces of its descendants. -/
def State.faultCell (s : State) (cell : Nat) : State :=
  let sub := ((cellSubtree cell).drop 1).filter s.enabled
  let s := s.enterFault cell
  ((sub.foldl (fun (s : State) c => s.unitDown c) s).unitFault cell).noteLevels

/-! ## Resets of cells -/

/-- R60, R317, R657: a reset core's private bits take no DONE_BIT of what it issued: the set is discarded, and counted, when the
completion is posted. -/
def State.dropDone (s : State) (c : CoreRef) : State :=
  let pd := fun (d : PrimDesc) => if d.issuer = c then { d with cut := true } else d
  let md := fun (d : MovDesc) => if d.issuer = c then { d with cut := true } else d
  let p := s.prim
  let s := s.setPrim { p with
    queue := p.queue.map pd
    op := p.op.map fun o => { o with desc := pd o.desc }
    done := p.done.map fun d => { d with desc := pd d.desc } }
  { s with movers := s.movers.map fun m => (m.1, { m.2 with
      queue := m.2.queue.map md, flushed := m.2.flushed.map md, run := m.2.run.map fun r => { r with desc := md r.desc } }) }

/-- R245: the bits from lo up to hi return to 0. -/
def State.clearBits (s : State) (lo hi : Nat) : State :=
  ((s.bits.map Prod.fst).filter fun k => decide (lo ≤ k ∧ k < hi)).foldl (fun (s : State) k => s.putBit k false) s

/-- What a reset does in the unit of a cell, before the cell's registers return to their reset values. A reset of a mapped segment, of
feeders, loaders or south accumulators ends the operation whose work in flight it discards as R142 does (log 71). -/
def State.unitReset (s : State) (cell : Nat) : State :=
  let m := cellMember cell
  match kindOf cell with
  | 0x10 => if cell = qnwCell then s.primReset else s.primEnd primArrayReset
  | 0x11 => if s.isMapped cell then s.primEnd primArrayReset else s
  | 0x19 | 0x1A | 0x1B => s.primEnd primArrayReset
  | 0x12 => s.clearMem (0x010000000000 + 0x10000000 * quadOf cell) (0x010010000000 + 0x10000000 * quadOf cell)
  | 0x16 => s.movReset (moverOf cell)
  | 0x17 => (s.flushCluster (clusterOf cell)).clearBits (0x20000000 + 0x100000 * clusterOf cell) (0x20100000 + 0x100000 * clusterOf cell)
  | 0x18 => match coreOf cell with
    | some c => ((s.dropInbox (clusterOf cell * 8 + m - 1)).dropDone c).coreClear c
    | none => s
  | 0x21 => (s.fundamental (m - 1)).linkDisable (m - 1)
  | 0x22 => s.dpReset (m - 3)
  | 0x24 => s.ethDown (m - 1) true
  | 0x25 => s.spgReset
  | 0x26 => s.shtReset
  | 0x27 => s.trnReset
  | 0x28 => s.colCellReset
  | 0x29 => s.catReset
  | 0x2A => { s with flt := { s.flt with fenced := [], next := 0 } }
  | 0x2B => let s := s.fltUnitReset (Fin.ofNat 40 (m - 1)); s.clearMem (localBase cell) (localBase cell + localSize cell)
  | 0x2C => s.keyReset
  | 0x2D => s.ephReset
  | 0x2F => match coreOf cell with
    | some c => (s.dropDone c).coreClear c
    | none => s
  | 0x30 => s.chrReset
  | 0x31 => s.accordEnd.setHel { gain := s.hel.gain, offset := s.hel.offset, bucket := s.hel.bucket, therm := s.hel.therm, trip := s.hel.trip }
  | _ => s

/-- The registers of a cell's unit that a reset of the cell keeps: everything of the Chronograph (R709), the generations of
connections, queues and functions, the calibration and TRIP of the Heliostat (R632, R645). -/
def unitKeeps (cell a : Nat) : Bool :=
  let within := fun (r : RegId) => decide (regAddr r cell 0 ≤ a ∧ a < regAddr r cell (r.map.count - 1) + 8)
    && (match r.map.strides with
      | [(st, _)] => (a - regAddr r cell 0) % st == 0
      | _ => a == regAddr r cell 0)
  match kindOf cell with
  | 0x21 => within .PCI_FNf_STATUS || within .PCI_VFv_STATE
  | 0x27 => within .TRN_CONNc_STATE
  | 0x29 => within .CAT_Qq_STATE
  | 0x30 => true
  | 0x31 => within .HEL_CAL
  | _ => false

/-- R61: the registers of a cell return to their reset values, but those of `unitKeeps` and `CELL_CLOCK`, which holds a derate
(R639). -/
def State.clearRegs (s : State) (cell : Nat) : State :=
  let ccb := ccbBase cell
  let ub := unitBase cell
  let inCell := fun (a : Nat) => decide (ccb ≤ a ∧ a < ccb + 0x1000) && a != regAddr .CELL_CLOCK cell 0 && kindOf cell != 0x30
  let inUnit := fun (a : Nat) => decide (0 < ub ∧ ub ≤ a ∧ a < ub + unitSize cell) && !unitKeeps cell a
  { s with
    regs := s.regs.filter fun p => !(inCell p.1 || inUnit p.1)
    phot := s.phot.filter fun p => !inCell p.1 }

/-- What a unit does once its registers hold their reset values. POWER_REQ of the Chronograph, whose other registers stay (R709),
returns to its reset value under R61 (log 70). -/
def State.unitFresh (s : State) (cell : Nat) : State :=
  match kindOf cell with
  | 0x30 => s.setFld F.CELL_POWER_POWER_REQ cell 0
  | 0x2D => s.ephFresh
  | 0x31 => s.setFlag F.HEL_STATUS_TRIP cell s.hel.trip
  | 0x32 => s.rotReset
  | _ => s

/-- R61: one cell is reset: GEN increments once, RESETTING reads 1. -/
def State.resetCell (s : State) (cell : Nat) : State :=
  let s := s.count cell 0x007
  let gen := s.fld F.CELL_STATE_GEN cell + 1
  let s := (s.unitReset cell).clearRegs cell
  let s := s.setReg .CELL_STATE cell (BitVec.ofNat 64 (gen % 65536 * 2 ^ 16 + 2 ^ 4))
  s.unitFresh cell

/-- `CELL_RESET` of this cell is ignored. -/
def resetIgnored (cell : Nat) : Bool := [0x01, 0x02, 0x03, 0x2E].contains (kindOf cell)

/-- R61: a cell and all its descendants are reset, the descendants first. -/
def State.resetTree (s : State) (cell : Nat) : State :=
  ((cellSubtree cell).reverse.foldl (fun (s : State) c => s.resetCell c) s).settle.noteLevels

/-- R61: a write of 1 to `CELL_RESET.RESET`. -/
def State.cellReset (s : State) (cell : Nat) : State := if resetIgnored cell then s else s.resetTree cell

/-- R656: a Dome core whose watchdog has expired is enabled when its reset completes. -/
def State.restartCores (s : State) (cells : List Nat) : State :=
  let l := s.dom.restart.filter fun n => cells.contains (domeCell n)
  let s := { s with dom := { s.dom with restart := s.dom.restart.filter fun n => !cells.contains (domeCell n) } }
  l.foldl (fun (s : State) n => s.setFlag F.CELL_CTRL_EN (domeCell n) true) s

/-- R62: the reset of a cell and its descendants completes. A descendant's own reset completes with or after its parent's; a warm
reset completes at step 3 of bring-up. -/
def State.resetDone (s : State) (cell : Nat) : State :=
  if !s.resetting cell ∨ s.chr.warm ∨ (cell ≠ 0 ∧ s.resetting (cellParent cell)) then s
  else
    s.cellChange cell fun s =>
      let sub := cellSubtree cell
      (sub.foldl (fun (s : State) c => s.setFlag F.CELL_STATE_RESETTING c false) s).restartCores sub

def execCellResetComplete (cell : Nat) (s : State) : Out :=
  .next (if (cellKind cell).isNone ∨ s.stopped then s else s.resetDone cell)

/-! ## Gating -/

/-- R64, R640: the gating that POWER_REQ asks for of a cell that is OFF; with none asked for, the clock gating of the Heliostat. -/
def State.gateApply (s : State) (cell : Nat) : State :=
  if s.cellState cell ≠ 0 ∨ s.resetting cell then s
  else
    let req := min 2 (s.fld F.CELL_POWER_POWER_REQ cell)
    s.setFld F.CELL_POWER_PSTATE cell (if req = 0 then 1 else req)

def execPowerGateApply (cell : Nat) (s : State) : Out :=
  .next (if (cellKind cell).isNone ∨ noEnable cell ∨ s.stopped then s else s.gateApply cell)

/-- R64: clock and power are restored to a cell whose EN is 1. -/
def execPowerRestoreComplete (cell : Nat) (s : State) : Out :=
  .next (if (cellKind cell).isNone ∨ !s.flag F.CELL_CTRL_EN cell ∨ s.stopped then s
    else s.cellChange cell fun s => s.setFld F.CELL_POWER_PSTATE cell 0)

/-- R708: the training of a stack completes, or fails. -/
def execSmcTrainingComplete (stack : Fin 8) (ok : Bool) (s : State) : Out :=
  let c := smcCell stack.val
  .next (if !s.flag F.CELL_CTRL_EN c ∨ s.resetting c ∨ s.flag F.SMC_STATUS_TRAINED c ∨ s.faulted c ∨ s.fld F.CELL_POWER_PSTATE c ≠ 0
      ∨ !s.enabled (cellParent c) then s
    else if ok then s.cellChange c fun s => s.setFlag F.SMC_STATUS_TRAINED c true
    else ((s.setFlag F.SMC_STATUS_TRAIN_FAIL c true).recordError c clsLink 0 0).faultCell c)

/-- R183, R708: the stack reports its temperature; above 95 °C the refresh rate is doubled. -/
def execSmcTempUpdate (stack : Fin 8) (tempC : BitVec 8) (s : State) : Out :=
  let c := smcCell stack.val
  .next (if !s.flag F.SMC_STATUS_TRAINED c ∨ s.stopped then s
    else (s.setFld F.SMC_STATUS_TEMP_C c tempC.toNat).setFld F.SMC_STATUS_REFRESH c (if 95 < tempC.toNat then 1 else 0))

/-! ## The warm reset and bring-up -/

/-- R600, R622, R709: what outlives a warm reset beside the memories: the registers of the Chronograph. `CHR_SAFE_CTRL`.FW_FAULT and
the stamps go with the reset of its cell. -/
def State.warmBegin (s : State) (cause : Nat) : State :=
  if !s.power.good ∨ s.chr.warm then s
  else
    let s := s.resetTree 0
    let s := s.setFld F.CHR_STATUS_RESET_CAUSE chrCell cause
    let s := { s with
      bits := s.bits.filter fun p => decide (0x40000000 ≤ p.1 ∧ p.1 < 0x40030000)
      rot := { s.rot with running := false, unlocked := false }
      dom := {}
      exp := {}
      pci := { s.pci with routes := [] } }
    (s.setChr { s.chr with warm := true, up := false, started := false, released := [] }).noteLevels

/-- R623, R624, R625: step 3 of bring-up: the resets complete, the boot cells are enabled, the root of trust leaves reset. -/
def State.bringUp (s : State) : State :=
  if !s.srcStable .crystal ∨ s.inputOn 0 ∨ s.chr.up ∨ s.stopped then s
  else
    let s := s.setChr { s.chr with warm := false, up := true, everUp := true }
    let s := { s with rot := { s.rot with running := true } }
    s.cellChange 0 fun s =>
      let s := allCells.foldl (fun (s : State) c => if s.resetting c then s.setFlag F.CELL_STATE_RESETTING c false else s) s
      [0x2200, 0x2201, 0x2202, 0x4400].foldl (fun (s : State) c => s.setFlag F.CELL_CTRL_EN c true) s

def execBootCellsEnable (s : State) : Out := .next s.bringUp

/-- R622: SYS_RESET_N asserted once bring-up has reached step 3, or the return of the crystal; a cause that arrives during a warm reset
extends it. -/
def execWarmReset (c : WarmCause) (s : State) : Out :=
  .next (match c with
    | .sysReset => if s.inputOn 0 ∧ s.chr.everUp then s.warmBegin 1 else s
    | .clockLoss => if s.chr.xtalLost ∧ s.srcStable .crystal then (s.setChr { s.chr with xtalLost := false }).warmBegin 3 else s)

/-- R609, R612: a source is judged stable; the crystal's return begins a warm reset, and the safe states give way to bring-up. -/
def execSourceStable (c : ClockSource) (s : State) : Out :=
  .next (if !s.power.good ∨ s.srcStable c then s
    else
      let s := s.sourceStable c
      if c = .crystal ∧ s.chr.xtalLost then
        ((s.setChr { s.chr with xtalLost := false }).setFlag F.CHR_STATUS_SAFE chrCell false).warmBegin 3
      else s)

def execSourceFail (c : ClockSource) (s : State) : Out := .next (if s.power.good then s.sourceFail c else s)

/-- R621, R622: an input takes a new level. -/
def execInputChange (i : Nat) (on : Bool) (s : State) : Out :=
  .next (if !inputDefined i ∨ s.inputOn i = on ∨ !s.power.standby then s
    else
      let s := s.setInput i on
      if i = 0 ∧ on ∧ s.chr.everUp then s.warmBegin 1 else (s.inputEffect i on).noteLevels)

def execInputStuck (i : Nat) (s : State) : Out := .next (s.inputSticks i)

def execDpPerstRelease (k : Fin 24) (s : State) : Out := .next (s.perstRelease k.val)

/-! ## Dome cores -/

/-- R651: a Dome core whose cell has become ENABLED starts, with the state and pc it took in that cycle (`coreUp`). -/
def execDomeCoreStart (n : Fin 8) (s : State) : Out :=
  let c := CoreRef.dome n
  .next (if s.enabled c.cell ∧ !(s.core c).running then
    let s := s.startCore c
    if n = 0 then s.setChr { s.chr with started := true } else s
  else s)

/-- R656: the watchdog of Dome core n expires, once it has counted down. -/
def execWatchdogExpiry (n : Fin 8) (s : State) : Out :=
  .next (if !s.wdtRuns n ∨ s.wdtLeft n.val ≠ 0 then s
    else
      let pc := (s.core (.dome n)).pc
      let s := (s.wdtCapture n pc).resetTree (domeCell n.val)
      let s := s.setWdt n.val 0
      let s := s.wdtRecord n pc
      if s.wdtFences n.val then s
      else if s.flag F.DOM_COREn_WDT_CFG_RESTART domeSub n.val then
        { s with dom := { s.dom with restart := n.val :: s.dom.restart.filter (· != n.val) } }
      else s)

def execHeartbeatExpiry (p : Fin 2) (s : State) : Out := .next (s.heartbeatExpires p.val)

def execMctpRequest (smbus : Bool) (addr sensor : Nat) (s : State) : Out := .next (s.mctpRequest smbus addr sensor)

/-! ## Power -/

/-- R688: everything of the part is lost but the fuses and the flash; what the module and the pins hold stays, and what the part has
sent has been sent. -/
def State.powerLost (s : State) (p : PowerState) : State :=
  let s := s.svnBroken.flashBroken
  { State.reset with
    pending := s.pending
    freeCount := s.freeCount
    rot := { svn := s.rot.svn, revoked := s.rot.revoked, flash := s.rot.flash }
    eth := { sent := s.eth.sent }
    pci := { sent := s.pci.sent }
    dom := { mctp := s.dom.mctp }
    power := { p with good := false } }

/-- R689, R704: the rails are in regulation and power-on reset ends, where the module may start. -/
def State.powerStart (s : State) : State :=
  let p := s.power
  if p.input ∧ p.standby ∧ p.pwrEn ∧ !p.latch ∧ !p.good then
    (List.range 24).foldl (fun (s : State) k => s.presentNow k) { s with power := { p with good := true } }
  else s

def execPowerOnResetEnd (s : State) : Out := .next s.powerStart

/-- R689: the input rises through the undervoltage lockout, and the standby rail runs. -/
def execInputPowerUp (s : State) : Out := .next { s with power := { s.power with input := true, standby := true } }

/-- R689, R690: PWR_EN is asserted. -/
def execPwrEnAssert (s : State) : Out := .next { s with power := { s.power with pwrEn := true } }.powerStart

/-- R690, R704: PWR_EN is deasserted: the power-loss sequence, and the latch of the thermal shutdown ends. -/
def execPwrEnDeassert (s : State) : Out := .next (s.powerLost { s.power with pwrEn := false, latch := false })

/-- R687, R688: the undervoltage lockout or the overvoltage stop acts, or the converter has held its limit for 100 µs. -/
def execPowerLoss (s : State) : Out := .next (s.powerLost { s.power with input := false })

/-- R704: the thermal shutdown acts, and holds. -/
def execThermalShutdown (s : State) : Out := .next (if s.power.standby then s.powerLost { s.power with latch := true } else s)

/-- R688: the standby rail stops. -/
def execStandbyRailLoss (s : State) : Out :=
  .next (s.powerLost { s.power with input := false, standby := false, latch := false, inputs := 0 })

end Sys2Proof.Machine
end

