-- ==== Sys2Proof/Machine/Access.lean ====
section
/-! DEFINITION. Reads and writes of registers: where an address leads (R22, R23, R48, R68, R69, R304, R513, R517, R665), who may
(R52, and the writer limits of the unit chapters), what a read returns, what a write does (R14 to R20), the check of RWP pairs (R605),
and PF BAR0 and VF BAR0 (R493, R494, R527). -/

namespace Sys2Proof.Machine

open Sys2Proof

/-! ## Where an address leads -/

/-- What an access to CCB space or unit register space meets. -/
inductive RegHit where
  /-- R68: a CCB slot of no cell. -/
  | noCell
  /-- R69: nothing that a map defines. -/
  | unmapped
  /-- R49: an offset of a CCB that is RSV. -/
  | reserved
  /-- R23: a register, or an aperture, of this cell at another width or alignment. -/
  | misused (cell : Nat)
  | register (cell : Nat) (r : RegId) (i : Nat)
  /-- R304: a byte offset in the local memory aperture of a core cell. -/
  | aperture (cell off : Nat)
  /-- R665: a byte offset in the Dome cores block that lies in a request slot. -/
  | slot (off : Nat)
  /-- R513: a dword of the configuration space of downstream port k. -/
  | config (k off : Nat)
  /-- R517: a byte of the outbound aperture of downstream port k. -/
  | outbound (k off : Nat)
  deriving DecidableEq, Repr

/-- The first register that a byte of [a, a + n) belongs to. -/
def regIn (a : Nat) : (n : Nat) → Option (Nat × RegId × Nat × Nat)
  | 0 => none
  | n + 1 => match regIn a n with
    | some h => some h
    | none => regAt (a + n)

/-- R305, R494: 4 or 8 bytes, naturally aligned. -/
def wordAccess (a n : Nat) : Bool := (n == 4 || n == 8) && a % n == 0

/-- The ranges of a unit register block that are no registers of a map table. -/
def unitHit (cell off n : Nat) : RegHit :=
  match kindOf cell with
  | 0x18 | 0x2F => if off < 0x40000 then (if wordAccess off n then .aperture cell off else .misused cell) else .unmapped
  | 0x2E => if inSlots off then (if wordAccess off n then .slot off else .misused cell) else .unmapped
  | 0x22 =>
    let k := cellMember cell - 3
    if off < 0x1000 then (if n = 4 ∧ off % 4 = 0 then .config k off else .misused cell)
    else if 0x100000000 ≤ off then .outbound k (off - 0x100000000)
    else .unmapped
  | _ => .unmapped

/-- R22, R23, R68, R69: what an access of n bytes at a device address of the register ranges meets. -/
def regHit (a n : Nat) : RegHit :=
  match regIn a n with
  | some (cell, r, i, b) => if regAt a = some (cell, r, i, 0) ∧ b = 0 ∧ 8 * n = r.map.width then .register cell r i else .misused cell
  | none =>
    if inCcb a then (if (cellKind ((a - 0x020000000000) / 0x1000)).isSome then .reserved else .noCell)
    else match unitAt a with
      | some (cell, off) => unitHit cell off n
      | none => .unmapped

/-- Whether anything but R69 answers an access. -/
def regSpaceMapped (a n : Nat) : Bool := regHit a n != .unmapped

/-! ## Fields -/

/-- R14: the value a read returns of the current value of a register: WO and RSV fields read 0. -/
def readMask (r : RegId) (v : Nat) : Nat :=
  r.map.fields.foldl (fun x f => if f.ty = .wo ∨ f.ty = .rsv then x else putBits x f.hi f.lo (bitsOf v f.hi f.lo)) 0

/-- R14, R16: the value a write leaves: RW and RWP fields take it, a 1 clears an RW1C bit, the others stay. -/
def writeFields (r : RegId) (old v : Nat) : Nat :=
  r.map.fields.foldl (fun x f =>
    match f.ty with
    | .rw | .rwp => putBits x f.hi f.lo (bitsOf v f.hi f.lo)
    | .rw1c => putBits x f.hi f.lo (bitsOf x f.hi f.lo &&& (2 ^ (f.hi - f.lo + 1) - 1 - bitsOf v f.hi f.lo))
    | _ => x) old

/-- R14: write the fields of a register under their types. -/
def State.putFields (s : State) (r : RegId) (cell i v : Nat) : State :=
  s.setReg r cell (BitVec.ofNat 64 (writeFields r (s.reg r cell i).toNat v)) i

/-! ## Debug access -/

/-- R321: the register of a halted core that `GDR_DBG_REG_SEL` selects. -/
def State.debugRead (s : State) (c : CoreRef) (sel : Nat) : Nat :=
  let k := s.core c
  if sel < 0x20 then (k.get (Fin.ofNat 32 sel)).toNat
  else if sel = 0x20 then k.pc.toNat
  else if sel = 0x21 then k.fl.toNat
  else if 0x100 ≤ sel ∧ crExists c (sel - 0x100) then (k.crGet c (sel - 0x100)).toNat
  else 0

/-- n return stack entries that a debug write of `rsdepth` brings onto the chip: the spec gives them no value (log 1). -/
def State.freeEntries (s : State) : (n : Nat) → List Word × State
  | 0 => ([], s)
  | n + 1 => let f := s.free 64; let r := f.2.freeEntries n; (f.1 :: r.1, r.2)

/-- R321: a debug write of `rsdepth`: partitions that hold more entries lose the oldest; those that hold fewer gain open ones. -/
def State.debugDepth (s : State) (c : CoreRef) (v : Nat) : State :=
  let k := s.core c
  let low := min 256 (bitsOf v 8 0)
  let g := if c.isDome then 0 else min 256 (bitsOf v 24 16)
  let a := s.freeEntries (low - k.rsLow.length)
  let b := a.2.freeEntries (g - k.rsG.length)
  b.2.mapCore c fun k => { k with rsLow := (k.rsLow ++ a.1).take low, rsG := (k.rsG ++ b.1).take g }

/-- R321: a debug write of the selected register. `rsplit` takes the nearer bound of R244 and spills nothing: R321 writes the register
as written (log 70). A watch so enabled that names no bit records ACCESS as under a CRW (R252). -/
def State.debugWrite (s : State) (c : CoreRef) (sel : Nat) (v : Word) : State :=
  if sel < 0x20 then s.mapCore c fun k => k.set (Fin.ofNat 32 sel) v
  else if sel = 0x20 then s.mapCore c fun k => { k with pc := v &&& ~~~3#64 }
  else if sel = 0x21 then s.mapCore c fun k => k.setFl v
  else if sel = 0x103 then s.debugDepth c v.toNat
  else if 0x100 ≤ sel ∧ crExists c (sel - 0x100) then
    let n := sel - 0x100
    let v := if n = 2 then BitVec.ofNat 64 (max 16 (min 240 (v.toNat % 512))) else v &&& BitVec.ofNat 64 (crDefined n)
    let s := s.mapCore c fun k => k.crPut c n v
    if s.badWatch c n v then s.recordError c.cell clsAccess 0 0 else s
  else s

/-- R320, R321: a write of `GDR_DBG_CTRL`: HALT halts a running core at once, which stands at an instruction boundary, or resumes it;
STEP lets a halted core execute one instruction. -/
def State.debugCtrl (s : State) (c : CoreRef) (v : Nat) : State :=
  let halt := bitsOf v 0 0 == 1
  let s := s.setFlag F.GDR_DBG_CTRL_HALT c.cell halt
  if halt then
    if s.halted c then (if bitsOf v 1 1 = 1 then s.mapCore c fun k => { k with stepping := true } else s)
    else if (s.core c).running then s.haltCore c 1 0 else s
  else if s.halted c then (s.setReg .GDR_DBG_STATUS c.cell 0).mapCore c fun k => { k with stepping := false }
  else s

/-! ## What a register reads -/

/-- The current value of a register, where it is not simply what is stored. -/
def State.regNow (s : State) (r : RegId) (cell i : Nat) : Nat :=
  let raw := (s.reg r cell i).toNat
  let m := cellMember cell
  match r with
  | .CELL_STATE => putBits raw 2 0 (s.cellState cell)
  | .CELL_POWER => putBits raw 31 16 (s.cellMhz cell)
  | .HEL_PEAK => putBits raw 43 32 s.helPeak
  | .PRIM_CLK_STATUS => s.primClkStatus
  | .PRIM_QUEUE_STATUS => s.primStatus
  | .PRIM_RUN_TICKET => s.primRun
  | .FEED_STATUS => s.feedStatus
  | .MOV_QUEUE_STATUS => s.movStatus (moverOf cell)
  | .GDR_INBOX => putBits raw 8 4 (s.slotsUsed (guiderOf cell))
  | .GCL_QUEUE_STATUS => s.gclStatus (clusterOf cell)
  | .GDR_DBG_REG_DATA =>
    match coreOf cell with
    | some c => if s.debugOpen ∧ s.halted c then s.debugRead c (s.fld F.GDR_DBG_REG_SEL_REG cell) else 0
    | none => 0
  | .COL_STATUS => s.colOpen + s.creditHeld.toNat * 2 ^ 11 + min 16384 s.intakeUsed * 2 ^ 16
  | .COL_QUOTA_FREE => s.colQuotaFree
  | .TRN_STATUS => s.trnStatus
  | .TRN_CONNc_STATE => putBits raw 3 0 (s.connState i)
  | .SPG_FLOW_STATUS => s.flowStatus
  | .SHT_STATUS => s.shtStatus
  | .SHT_SUBQq_STATUS => s.subqStatus i
  | .CAT_STATUS => s.catStatus
  | .CAT_Qq_STATE => s.catStateReg i
  | .PCI_UP_STATUS => putBits raw 10 10 (s.inputOn m).toNat
  | .PCI_TAG_STATUS => s.outstanding (m - 1) + s.quarantined (m - 1) * 2 ^ 16
  | .PCI_VFv_STATE => s.vfStateReg (m - 1) i
  | .ROT_STATUS => s.rotStatus
  | .EPH_STATUS => s.ephStatus
  | .EPH_EPOCH_STEP => s.epochStep
  | .CHR_TIME => s.now
  | .CHR_INPUT_LEVEL => s.power.inputs
  | .CHR_TXTSp_INFO => s.txtsInfo i
  | .DOM_COREn_WDT_STATUS => s.wdtStatus i
  | .DOM_FW_STATUS => s.fwStatus i
  | _ => raw

/-- R14: a read of a register: what it returns. A read of `CHR_TXTSp_TIME` takes the oldest stamp (R619), one of `PCI_DP_CFG_DATA`
issues a configuration read, whose outcome the device below gives (R517), and `HEL_MON_DATA` is a measurement (R639). -/
def State.regValue (s : State) (r : RegId) (cell i : Nat) : Nat × State :=
  match r with
  | .CHR_TXTSp_TIME => s.txtsTime i
  | .HEL_MON_DATA => s.helMonData
  | .PCI_DP_CFG_DATA =>
    let st := s.free 3
    let d := st.2.free 32
    d.2.dpCfgAccess (cellMember cell - 3) false 0 st.1.toNat d.1.toNat
  | _ => (readMask r (s.regNow r cell i), s)

/-- R305: the aperture may be used. -/
def State.apertureOpen (s : State) (cell : Nat) : Bool :=
  let st := s.cellState cell
  st == 0 || st == 4 || s.flag F.GDR_DBG_STATUS_HALTED cell

/-- R305: a read of the local memory aperture: the bytes, and whether a line was poisoned. -/
def State.apertureRead (s : State) (cell off n : Nat) : List Byte × Bool × State :=
  if s.apertureOpen cell then s.readMem (localBase cell + off) n 2
  else (List.replicate n 0, false, s.recordError cell clsAccess (unitBase cell + off) 0)

/-- R305: a write of the aperture. -/
def State.apertureWrite (s : State) (cell off n v : Nat) : State :=
  if s.apertureOpen cell then s.writeMem (localBase cell + off) (natLe n v) false 2
  else s.recordError cell clsAccess (unitBase cell + off) 0

/-- R517: a read of the outbound aperture: what the device below gives (log 1), or all ones and LINK. -/
def State.outboundRead (s : State) (k off n : Nat) : Nat × State :=
  let port := 2 + k
  let a := 2 ^ 32 * s.fld F.PCI_DP_OUT_BASE (downCell k) + off
  if s.dpUp port then
    let f := (s.sendTlp { port := port, fn := 0, kind := .memRead, addr := a, len := n }).free (8 * n)
    (f.1.toNat, f.2)
  else (2 ^ (8 * n) - 1, s.recordError (downCell k) clsLink 0 0)

/-- R517: a write of the outbound aperture. A port without its link sends nothing. R475: one that clears EN of the Controller
Configuration of a drive resets its controller (log 36). -/
def State.outboundWrite (s : State) (k off n v : Nat) : State :=
  let port := 2 + k
  let a := 2 ^ 32 * s.fld F.PCI_DP_OUT_BASE (downCell k) + off
  if s.dpUp port then
    let s := s.sendTlp { port := port, fn := 0, kind := .memWrite, addr := a, len := n, bytes := natLe n v }
    if off ≤ 0x14 ∧ 0x14 < off + n ∧ v / 2 ^ (8 * (0x14 - off)) % 2 = 0 then s.nvmeReset port else s
  else s

/-- A read of n bytes of register space by an agent of cell `init`: the value, and whether it carries a mark (R305). -/
def State.regRead (s : State) (init a n : Nat) : Nat × Bool × State :=
  let zero := fun (s : State) => (0, false, s)
  match regHit a n with
  | .noCell => zero (s.recordError 0 clsAccess a 0)
  | .unmapped => zero (s.recordError init clsAccess a 0)
  | .reserved => zero s
  | .misused cell => zero (s.recordError cell clsAccess a 0)
  | .register cell r i => let x := s.regValue r cell i; (x.1, false, x.2)
  | .aperture cell off => let x := s.apertureRead cell off n; (leNat x.1, x.2.1, x.2.2)
  | .slot off => (s.slotsRead off n, false, s)
  | .config k off => (s.cfgRead (2 + k) 0 off, false, s)
  | .outbound k off => let x := s.outboundRead k off n; (x.1, false, x.2)

/-! ## Who may write what -/

/-- The cell that an agent's accesses come from. -/
def Agent.cell : Agent → Nat
  | .host p => upCell p.val
  | .firmware c => domeCell c.val

/-- The limits the unit chapters set on who writes a register and when: the cell that records ACCESS where they refuse it. -/
def State.writeLimit (s : State) (g : Agent) (r : RegId) (cell i v : Nat) : Option Nat :=
  let when_ := fun (b : Bool) => if b then some cell else none
  match r with
  -- R485
  | .CAT_WBS | .CAT_VOL_TABLE | .CAT_BE_TABLE | .CAT_XCQ => when_ (s.cellState cell != 0)
  | .CAT_Qq_CFG | .CAT_Qq_CQ | .CAT_Qq_OWNER | .CAT_Qq_ELOG | .CAT_Qq_DB | .CAT_Qq_RESP => when_ (s.catQState i != 0)
  -- R434, R591
  | .SPG_FLOW_CFG | .EPH_JOB | .EPH_CMDQ_CFG => when_ (s.cellState cell != 0)
  -- R360
  | .COL_BINDb_CTRL | .COL_BINDb_RANGE | .COL_BINDb_WIN | .COL_BINDb_STEP => when_ (!s.bindWritable r i (writeFields r (s.reg r cell i).toNat v))
  -- R319, R321
  | .GDR_DBG_CTRL | .GDR_DBG_BPb => when_ (!s.debugOpen)
  | .GDR_DBG_REG_DATA => when_ (!s.debugOpen || !s.flag F.GDR_DBG_STATUS_HALTED cell)
  -- R539, R538
  | .PCI_VFv_PROV | .PCI_VFv_KEYS => when_ (s.vfState (cellMember cell - 1) i != 0)
  | .PCI_VFv_PAGEp => when_ (s.vfState (cellMember cell - 1) (i / 256) != 0)
  | .PCI_VFv_DIRTY_RANGE | .PCI_VFv_DIRTY_PAGES | .PCI_VFv_DIRTY_MAPA | .PCI_VFv_DIRTY_MAPB => when_ (s.flag F.PCI_VFv_DIRTY_CTRL_LOG_EN cell i)
  -- R554
  | .KEY_CMD => when_ (g.isHost && bitsOf v 1 0 == 1)
  -- R622
  | .CHR_RESET_REQ => when_ g.isHost
  -- R655, and the host interface of R663
  | .DOM_COREn_WDT_CFG | .DOM_COREn_BOOT_PC | .DOM_FW_STATUS => when_ g.isHost
  -- R681
  | .PHOT_EXP_LIST | .PHOT_EXP_RING => when_ (s.flag F.PHOT_EXP_CTRL_EN 0)
  | _ => none

/-! ## RWP pairs -/

/-- An RWP field: its value, its complement, its value in force (R17, R20), the bounds the value in force is brought into, and the
fail-safe value of R605. -/
structure RwpField where
  value : Fld
  comp : Fld
  force : Fld
  lo : Nat
  hi : Nat
  safe : Nat
  deriving DecidableEq, Repr

/-- The RWP fields but for `PRIM_MAP`, which R109 rules. -/
def rwpFields : List RwpField :=
  [⟨F.PRIM_CLK_CAP_CAP_MHZ, F.PRIM_CLK_CAP_C_CAP_MHZ_C, F.PRIM_CLK_CAP_CAP_IN_FORCE, 500, 1800, 500⟩,
   ⟨F.HEL_CAP_W_CAP_W, F.HEL_CAP_W_C_CAP_W_C, F.HEL_CAP_W_CAP_IN_FORCE, 500, 2800, 500⟩,
   ⟨F.HEL_PEAK_PEAK_W, F.HEL_PEAK_C_PEAK_W_C, F.HEL_PEAK_PEAK_W_IN_FORCE, 500, 3300, 500⟩,
   ⟨F.HEL_PEAK_PEAK_US, F.HEL_PEAK_C_PEAK_US_C, F.HEL_PEAK_PEAK_US_IN_FORCE, 0, 1000, 0⟩,
   ⟨F.CHR_TB_RATE_RATE, F.CHR_TB_RATE_C_RATE_C, F.CHR_TB_RATE_RATE_IN_FORCE, 0, 0xFFFFFFFF, 0⟩]

/-- R18: the value is the bitwise inverse of the complement over the field's width. -/
def State.agrees (s : State) (v c : Fld) (cell : Nat) : Bool :=
  s.fld v cell + s.fld c cell == 2 ^ (v.hi - v.lo + 1) - 1

/-- R18: a field whose pair agrees takes its value in force. -/
def State.rwpTake (s : State) (f : RwpField) (cell : Nat) : State :=
  if s.agrees f.value f.comp cell then s.setFld f.force cell (max f.lo (min f.hi (s.fld f.value cell))) else s

/-- R109: a write that leaves both fields of `PRIM_MAP` agreeing. -/
def State.mapTake (s : State) (cell : Nat) : State :=
  if s.agrees F.PRIM_MAP_SPARE_ROW F.PRIM_MAP_C_SPARE_ROW_C cell ∧ s.agrees F.PRIM_MAP_SPARE_COL F.PRIM_MAP_C_SPARE_COL_C cell then
    let row := s.fld F.PRIM_MAP_SPARE_ROW cell
    let col := s.fld F.PRIM_MAP_SPARE_COL cell
    if s.cellState cell = 0 ∧ row ≤ 16 ∧ col ≤ 16 then (s.setFld F.PRIM_MAP_ROW_IN_FORCE cell row).setFld F.PRIM_MAP_COL_IN_FORCE cell col
    else s.recordError cell clsAccess (regAddr .PRIM_MAP cell 0) 0
  else s

/-- R18, R109: what a write of a register of an RWP pair brings into force. -/
def State.rwpCommit (s : State) (r : RegId) (cell : Nat) : State :=
  if r = .PRIM_MAP ∨ r = .PRIM_MAP_C then s.mapTake cell
  else (rwpFields.filter fun f => f.value.reg = r ∨ f.comp.reg = r).foldl (fun (s : State) f => s.rwpTake f cell) s

/-- R605, R607: the check of the value in force of a pair finds it and its held complement apart. `r` is the value register. R566: the
root of trust holds its status and its measurement the same way. -/
def State.rwpDisagree (s : State) (r : RegId) (cell : Nat) : State :=
  if r = .PRIM_MAP ∨ r = .ROT_STATUS ∨ r = .ROT_MEASUREm then (s.recordError cell clsInternal (regAddr r cell 0) 0).faultCell cell
  else
    let fs := rwpFields.filter fun f => f.value.reg = r
    if fs.isEmpty then s
    else
      let s := fs.foldl (fun (s : State) f =>
        s.setFld f.force cell (if f.value = F.HEL_PEAK_PEAK_W then s.fld F.HEL_CAP_W_CAP_IN_FORCE cell else f.safe)) s
      s.recordError cell clsEccUncorr (regAddr r cell 0) (r.map.offset % 2 ^ 12 + 2 ^ 31)

/-! ## What a write does -/

/-- R65: a write of `CELL_ERR_STATUS`: VALID cleared releases the record and clears COUNT. -/
def State.errClear (s : State) (cell : Nat) (valid overflow : Bool) : State :=
  let s := if valid then (s.setFlag F.CELL_ERR_STATUS_VALID cell false).setFld F.CELL_ERR_STATUS_COUNT cell 0 else s
  if overflow then s.setFlag F.CELL_ERR_STATUS_OVERFLOW cell false else s

/-- R681: a write of `PHOT_EXP_CTRL`. PERIOD_US stays while EN is 1. -/
def State.expCtrl (s : State) (v : Nat) : State :=
  let en := bitsOf v 0 0 == 1
  if s.flag F.PHOT_EXP_CTRL_EN 0 then
    let s := if bitsOf v 31 12 = s.fld F.PHOT_EXP_CTRL_PERIOD_US 0 then s
      else s.recordError 0 clsAccess (regAddr .PHOT_EXP_CTRL 0 0) 0
    s.setFlag F.PHOT_EXP_CTRL_EN 0 en
  else
    let s := s.setFld F.PHOT_EXP_CTRL_PERIOD_US 0 (bitsOf v 31 12)
    if en then s.expEnable else s

/-- A write of a ring's configuration, with what EN set from 0 to 1 does. -/
def State.ringCfg (s : State) (r : RegId) (cell i v : Nat) (start : State → State) : State :=
  let was := bitsOf (s.reg r cell i).toNat 0 0
  let s := s.putFields r cell i v
  if was = 0 ∧ bitsOf v 0 0 = 1 then start s else s

/-- R437, R445, R448: a write of a node of Shutter. -/
def State.nodeCfg (s : State) (r : RegId) (i v key : Nat) : State :=
  let (v, bad) := s.shtCfgWrite r i v
  let s := if bad then s.recordError shtCell clsAccess (regAddr r shtCell i) 0 else s
  (s.ringCfg r shtCell i v fun s => s.fillNode key).shtUpdate

/-- R477, R478: a write of `CAT_Qq_CTRL`. -/
def State.catCtrl (s : State) (q v : Nat) : State :=
  let s := if bitsOf v 1 1 = 1 then s.catQueueReset q true else s
  (s.catWriteEn q (bitsOf v 0 0 == 1)).settle

/-- R537, R538: a write of `PCI_VFv_DIRTY_CTRL`. -/
def State.dirtyCtrl (s : State) (port v x : Nat) : State :=
  let s := if bitsOf x 2 2 = 1 then s.dirtySwap port v else s
  (s.dirtyLogEn port v (bitsOf x 0 0 == 1)).settle

/-- R14 and the unit chapters: what a write of value v does to a register that the agent may write. -/
def State.regEffect (s : State) (g : Agent) (r : RegId) (cell i v : Nat) : State :=
  let put := s.putFields r cell i v
  let m := cellMember cell
  let dome := !g.isHost
  let bit := fun k => bitsOf v k k == 1
  match r with
  | .CELL_CTRL => s.setEn cell (bit 0)
  | .CELL_RESET => if bit 0 then s.cellReset cell else s
  | .CELL_ERR_STATUS => s.errClear cell (bit 0) (bit 1)
  | .PRIM_MAP | .PRIM_MAP_C | .PRIM_CLK_CAP | .PRIM_CLK_CAP_C | .HEL_CAP_W | .HEL_CAP_W_C | .HEL_PEAK | .HEL_PEAK_C
  | .CHR_TB_RATE | .CHR_TB_RATE_C => put.rwpCommit r cell
  | .PRIM_QUEUE_CTRL => if bit 1 then put.primFlush else put
  | .MOV_QUEUE_CTRL => if bit 1 then put.movFlush (moverOf cell) else put
  | .GDR_ATTN => if bit 0 then put.setFlag F.GDR_ATTN_PENDING cell true else put
  | .GCL_QUEUE_CTRL => if bit 1 then put.flushCluster (clusterOf cell) else put
  | .GCL_POST => s.gclPostImage (clusterOf cell) (bitsOf v 47 6 * 64)
  | .GDR_DBG_CTRL => match coreOf cell with
    | some c => s.debugCtrl c v
    | none => s
  | .GDR_DBG_REG_DATA => match coreOf cell with
    | some c => s.debugWrite c (s.fld F.GDR_DBG_REG_SEL_REG cell) (BitVec.ofNat 64 v)
    | none => s
  | .COL_CMD => (s.colCommand dome (bitsOf v 3 0) (bitsOf v 25 16)).settle
  | .COL_BINDb_STEP => put.setFld F.COL_BINDb_STEP_COVERED cell 0 i
  | .TRN_REGION_CMD => s.regionCommand (bitsOf v 1 0) (bitsOf v 31 12)
  | .TRN_SQq_PTR => put.sqTailWritten i
  | .TRN_CQq_CFG => s.ringCfg r cell i v fun s => s.cqEnable i
  | .TRN_CONNc_CTRL => (s.connWriteEn i (bit 0)).settle
  | .SPG_CMD => s.spgCommand dome v
  | .SPG_RXQq_CFG => s.ringCfg r cell i v fun s => s.rxqEnable i
  | .SHT_SUBQq_CFG => s.nodeCfg r i v i
  | .SHT_SVCs_CFG => s.nodeCfg r i v (svcKey i)
  | .SHT_PORTp_CFG => put.shtUpdate
  | .SHT_TXRr_CFG => (if bit 0 then s else s.txrWithdraw i).ringCfg r cell i v fun s => s.txrEnable i
  | .SHT_TXRr_PTR =>
    (put.postEntries (txrKey i) dome (s.fld F.SHT_TXRr_PTR_TAIL cell i) (put.fld F.SHT_TXRr_PTR_TAIL cell i)).txrPoll i
  | .CAT_Qq_CTRL => s.catCtrl i v
  | .CAT_Qq_PTR => put.catPoll i
  | .PCI_IRQ_RAISE => s.routeFire (13312 + bitsOf v 3 0)
  | .PCI_DP_CFG_DATA =>
    let st := s.free 3
    (put.dpCfgAccess (m - 3) true v st.1.toNat 0).2
  | .PCI_VFv_CTRL => (s.vfWriteEn (m - 1) i (bit 0)).settle
  | .PCI_VFv_DIRTY_CTRL => s.dirtyCtrl (m - 1) i v
  | .FLT_Qq_CFG => s.ringCfg r cell i v fun s => s.fltEnable i
  | .FLT_Qq_PTR =>
    (put.postEntries (filterKey i) dome (s.fld F.FLT_Qq_PTR_TAIL cell i) (put.fld F.FLT_Qq_PTR_TAIL cell i)).fltPoll i
  | .KEY_CMD => s.keyCommand v
  | .ROT_CMD => s.rotCmdWrite g.isHost v
  | .ROT_FLASH_CMD => s.flashCmdWrite g.isHost v
  | .EPH_JOB => put.postEntries jobKey dome 0 1
  | .EPH_CMDQ_CFG => s.ringCfg r cell i v fun s => s.ephEnable
  | .EPH_CMDQ_PTR => put.ephPoll
  | .CHR_TB_STEP => s.tbStep v
  | .CHR_SAFE_CTRL => if bit 0 then put.safeRelease else put
  | .CHR_RESET_REQ => if bit 0 then s.warmBegin 2 else s
  | .CHR_INPUT_STUCK => s.stuckClear v
  | .HEL_DERATE => s.helDerate v
  | .HEL_ACCORD_CFG => if s.flag F.HEL_ACCORD_CFG_EN cell ∧ !bit 0 then put.accordEnd else put
  | .DOM_COREn_WDT_CFG => put.wdtReload i
  | .DOM_COREn_WDT_KICK => if bit 0 then s.wdtKick g i else s
  | .DOM_HOST_HEARTBEAT => if g.isHost then s.heartbeat i (bitsOf v 31 0) else put
  | .DOM_HOST_ATTACH => if bit 0 then s.attach i else s
  | .PHOT_EXP_CTRL => s.expCtrl v
  | _ => put

/-- R53: writes to the CCB of a cell whose reset is in progress are ignored. -/
def State.ccbHeld (s : State) (a cell : Nat) : Bool := inCcb a && s.resetting cell

/-- R14, R53: a write of value v to a register of a cell: ignored while the cell's reset is in progress, refused with ACCESS where the
unit chapters limit who writes, else with its effect. -/
def State.regStore (s : State) (g : Agent) (r : RegId) (cell i v : Nat) : State :=
  if s.ccbHeld (regAddr r cell i) cell then s
  else match s.writeLimit g r cell i v with
    | some c => s.recordError c clsAccess (regAddr r cell i) 0
    | none => (s.regEffect g r cell i v).noteLevels

/-- A write of n bytes of register space by an agent that R52 lets write. -/
def State.regWrite (s : State) (g : Agent) (a n v : Nat) : State :=
  if s.stopped then s
  else match regHit a n with
    | .noCell => s.recordError 0 clsAccess a 0
    | .unmapped => s.recordError g.cell clsAccess a 0
    | .reserved => s
    | .misused cell => if s.ccbHeld a cell then s else s.recordError cell clsAccess a 0
    | .register cell r i => s.regStore g r cell i v
    | .aperture cell off => s.apertureWrite cell off n v
    | .slot off => s.slotsWrite off n v
    | .config k off => (s.cfgWriteDown k off v 0xF).noteLevels
    | .outbound k off => s.outboundWrite k off n v

/-- R52: a read of register space by an XQ core: the value, and the mark of a local memory line read through the aperture. -/
def State.coreRegRead (s : State) (c : CoreRef) (a n : Nat) : Nat × Bool × State := s.regRead c.cell a n

/-- R52: a write of register space by an XQ core; only a Dome core comes so far. -/
def State.coreRegWrite (s : State) (c : CoreRef) (a n v : Nat) : State :=
  match c with
  | .dome k => s.regWrite (.firmware k) a n v
  | _ => s

/-! ## PF BAR0 and VF BAR0 -/

/-- R493: what an offset of PF BAR0 leads to. -/
inductive Bar0Hit where
  | device (a : Nat)
  | msix (off : Nat)
  | pba (off : Nat)
  | logbook (a : Nat)
  | nothing
  deriving DecidableEq, Repr

/-- R493, R494: the ranges of PF BAR0 of a port. -/
def State.bar0Hit (s : State) (p off : Nat) : Bar0Hit :=
  let c := upCell p
  if off < 0x100000 then .device (unitBase c + off)
  else if off < 0x200000 then .device (unitBase domeSub + 0x100000 * p + off)
  else if off < 0x208000 then .msix (off - 0x200000)
  else if 0x280000 ≤ off ∧ off < 0x280100 then .pba (off - 0x280000)
  else if 0x300000 ≤ off ∧ off < 0x320000 then .device (unitBase pciCell + 0x10000 + (off - 0x300000))
  else if 0x1000000 ≤ off ∧ off < 0x2000000 then .device (0x020000000000 + 0x1000000 * s.fld F.PCI_WIN_CCB_SEL c + (off - 0x1000000))
  else if 0x2000000 ≤ off ∧ off < 0x3000000 then
    let a := 0x1000000 * s.fld F.PCI_WIN_UNIT_BASE c + (off - 0x2000000)
    if 0x021000000000 ≤ a ∧ a < 0x030000000000 then .device a else .nothing
  else if 0x3000000 ≤ off ∧ off < 0x4000000 then .logbook (0x00BFF0000000 + 0x1000000 * s.fld F.PCI_WIN_LOG_SEL c + (off - 0x3000000))
  else .nothing

/-- R499: a write to the MSI-X table of a function, by dwords; what it unmasks is sent. -/
def State.msixWrite (s : State) (p fn off n v : Nat) : State :=
  let put := fun (s : State) (d x : Nat) =>
    let f := s.pciFn p fn
    s.setPciFn p fn { f with msix := smapSet msixReset f.msix d (BitVec.ofNat 32 (if d % 4 = 3 then x % 2 else if d % 4 = 0 then x / 4 * 4 else x)) }
  let s := put s (off / 4) (v % 2 ^ 32)
  let s := if n = 8 then put s (off / 4 + 1) (v / 2 ^ 32) else s
  s.msixFlush p fn

/-- R23, R494: a write by a host of another length or alignment than R494 allows: it is recorded in the cell that holds a register it
covers, but during that cell's reset (R53); in the device cell at a CCB slot of no cell (R68); else in the upstream port cell (R69). -/
def State.regMisused (s : State) (up a n : Nat) : State :=
  match regIn a n with
  | some (cell, _) => if s.ccbHeld a cell then s else s.recordError cell clsAccess a 0
  | none => match regHit a n with
    | .noCell => s.recordError 0 clsAccess a 0
    | .reserved => s
    | _ => s.recordError up clsAccess a 0

/-- A host's request to a register range: R489, R509 and R494 come first. -/
def State.hostWriteBar0 (s : State) (p off n v : Nat) : State :=
  if s.stopped ∨ s.fnFlr p 0 then s
  else if !s.fnAwake p 0 then s.unsupported p 0
  else match s.bar0Hit p off with
    | .device a =>
      if wordAccess off n then s.regWrite (.host (Fin.ofNat 2 p)) a n v else s.regMisused (upCell p) a n
    | .msix o => if wordAccess off n then s.msixWrite p 0 o n v else s.recordError (upCell p) clsAccess 0 0
    | .pba _ => if wordAccess off n then s else s.recordError (upCell p) clsAccess 0 0
    | .logbook _ => s
    | .nothing => s.recordError (upCell p) clsAccess 0 0

/-- R527: a write of VF BAR0: only the MSI-X table takes one. -/
def State.vfBar0Write (s : State) (p v off n x : Nat) : State :=
  if s.stopped then s
  else if !s.fnAwake p (v + 1) then s.vfUnsupported p v
  else if 0x8000 ≤ off ∧ off < 0x8400 ∧ wordAccess off n then s.msixWrite p (v + 1) (off - 0x8000) n x
  else s

/-- R489, R509: an agent reaches register space now. A host does so through PF0 of its port, which answers nothing during an FLR, and in
D3hot makes the request unsupported. -/
def State.agentActs (s : State) (g : Agent) (f : State → State) : State :=
  if s.stopped then s
  else match g with
    | .firmware _ => f s
    | .host p => if s.fnFlr p.val 0 then s else if !s.fnAwake p.val 0 then s.unsupported p.val 0 else f s

/-- Where an agent's access goes: a device address (a Dome core's own access, or a host's through the window that shows it), an offset
of PF BAR0, of VF BAR0, or a dword of a function's configuration space with its byte enables. -/
def State.agentWrite (s : State) (g : Agent) (t : RegTarget) (n v : Nat) : State :=
  match t, g with
  | .device a, .firmware _ => s.regWrite g a n v
  | .device a, .host _ => s.agentActs g fun s => s.regWrite g a n v
  | .bar0 off, .host p => s.hostWriteBar0 p.val off n v
  | .vfBar0 fn off, .host p => s.vfBar0Write p.val fn off n v
  | .config fn off en, .host p => if s.stopped then s else s.cfgWriteUp p.val fn off v en
  | _, .firmware _ => s

/-- A write of one register of a cell by an agent. -/
def State.nameWrite (s : State) (g : Agent) (r : RegId) (cell i v : Nat) : State :=
  s.agentActs g fun s => s.regStore g r cell i v

/-- A read of one register of a cell by an agent: what it returns is the reply. -/
def State.nameRead (s : State) (g : Agent) (r : RegId) (cell i : Nat) : State :=
  s.agentActs g fun s =>
    let x := s.regValue r cell i
    { x.2 with reply := BitVec.ofNat 64 x.1, replyPoison := false }

end Sys2Proof.Machine
end

