-- ==== Sys2Proof/Machine/Flags.lean ====
section
/-! DEFINITION. The results and flags of the XQ arithmetic, logic, shift and count instructions (R220, R271, R275 to R279),
over any width, and the 32-bit form of R271. -/

namespace Sys2Proof.Machine

/-- The flags an instruction writes; none leaves a flag unchanged (R274). -/
structure FlagUpd where
  z : Option Bool := none
  n : Option Bool := none
  c : Option Bool := none
  v : Option Bool := none
  deriving DecidableEq, Repr

/-- Write the flags an instruction names. -/
def CoreState.setFlags (k : CoreState) (f : FlagUpd) : CoreState :=
  { k with z := f.z.getD k.z, n := f.n.getD k.n, c := f.c.getD k.c, ov := f.v.getD k.ov }

/-- R220: Z and N of a result. -/
def znFlags {w : Nat} (r : BitVec w) : FlagUpd := { z := some (r == 0), n := some r.msb }

/-- R220, R275: a + b + carry. -/
def addAlu {w : Nat} (a b : BitVec w) (cin : Bool) : BitVec w × FlagUpd :=
  let r := a + b + (if cin then 1 else 0)
  (r, { znFlags r with
    c := some (decide (2 ^ w ≤ a.toNat + b.toNat + cin.toNat))
    v := some (decide (r.toInt ≠ a.toInt + b.toInt + cin.toNat)) })

/-- R220, R275: a − b − borrow; C is 1 when no borrow occurs. -/
def subAlu {w : Nat} (a b : BitVec w) (borrow : Bool) : BitVec w × FlagUpd :=
  let r := a - b - (if borrow then 1 else 0)
  (r, { znFlags r with
    c := some (decide (b.toNat + borrow.toNat ≤ a.toNat))
    v := some (decide (r.toInt ≠ a.toInt - b.toInt - borrow.toNat)) })

/-- R275, R278: a result with Z and N. -/
def znAlu {w : Nat} (r : BitVec w) : BitVec w × FlagUpd := (r, znFlags r)

/-- R275: the low half of a product. -/
def mulAlu {w : Nat} (a b : BitVec w) : BitVec w × FlagUpd := znAlu (a * b)

/-- R275: the high half of the unsigned product. -/
def mulhuAlu {w : Nat} (a b : BitVec w) : BitVec w × FlagUpd := znAlu (BitVec.ofNat w (a.toNat * b.toNat / 2 ^ w))

/-- R275: the high half of the signed product. -/
def mulhsAlu {w : Nat} (a b : BitVec w) : BitVec w × FlagUpd := znAlu (BitVec.ofInt w (a.toInt * b.toInt / 2 ^ w))

/-- R276: the flags of a division. -/
def divFlags {w : Nat} (r : BitVec w) (v : Bool) : BitVec w × FlagUpd := (r, { znFlags r with v := some v })

/-- R276: the overflow of a signed division: the most negative value by −1. -/
def divOverflow {w : Nat} (a b : BitVec w) : Bool := a == BitVec.intMin w && b == BitVec.allOnes w

/-- R276: unsigned division; all ones by zero. -/
def divuAlu {w : Nat} (a b : BitVec w) : BitVec w × FlagUpd :=
  if b = 0 then divFlags (BitVec.allOnes w) true else divFlags (BitVec.ofNat w (a.toNat / b.toNat)) false

/-- R276: signed division toward zero. -/
def divsAlu {w : Nat} (a b : BitVec w) : BitVec w × FlagUpd :=
  if b = 0 then divFlags (BitVec.allOnes w) true
  else if divOverflow a b then divFlags a true
  else divFlags (BitVec.ofInt w (a.toInt.tdiv b.toInt)) false

/-- R276: unsigned remainder; the dividend by zero. -/
def remuAlu {w : Nat} (a b : BitVec w) : BitVec w × FlagUpd :=
  if b = 0 then divFlags a true else divFlags (BitVec.ofNat w (a.toNat % b.toNat)) false

/-- R276: signed remainder, with the sign of the dividend. -/
def remsAlu {w : Nat} (a b : BitVec w) : BitVec w × FlagUpd :=
  if b = 0 then divFlags a true
  else if divOverflow a b then divFlags 0 true
  else divFlags (BitVec.ofInt w (a.toInt.tmod b.toInt)) false

/-- R278: the flags of a shift; a shift by 0 leaves C. -/
def shiftFlags {w : Nat} (r : BitVec w) (n : Nat) (last : Bool) : BitVec w × FlagUpd :=
  (r, { znFlags r with c := if n = 0 then none else some last })

/-- R278: shift left by n, C the last bit out. -/
def shlAlu {w : Nat} (a : BitVec w) (n : Nat) : BitVec w × FlagUpd := shiftFlags (a <<< n) n (a.getLsbD (w - n))

/-- R278: shift right with zeros. -/
def shrAlu {w : Nat} (a : BitVec w) (n : Nat) : BitVec w × FlagUpd := shiftFlags (a >>> n) n (a.getLsbD (n - 1))

/-- R278: shift right with the sign. -/
def sarAlu {w : Nat} (a : BitVec w) (n : Nat) : BitVec w × FlagUpd := shiftFlags (a.sshiftRight n) n (a.getLsbD (n - 1))

/-- R278: rotate right; C is the top bit of the result. -/
def rorAlu {w : Nat} (a : BitVec w) (n : Nat) : BitVec w × FlagUpd :=
  let r := a.rotateRight n
  shiftFlags r n r.msb

/-- The leading zeros of a list of bits, the first bit first. -/
def leadingFalse : List Bool → Nat
  | [] => 0
  | b :: bs => if b then 0 else leadingFalse bs + 1

/-- The bits of a word, least significant first. -/
def bitList {w : Nat} (a : BitVec w) : List Bool := (List.range w).map a.getLsbD

/-- R278: leading zeros, trailing zeros and ones. -/
def clzAlu {w : Nat} (a : BitVec w) : BitVec w × FlagUpd := znAlu (BitVec.ofNat w (leadingFalse (bitList a).reverse))
def ctzAlu {w : Nat} (a : BitVec w) : BitVec w × FlagUpd := znAlu (BitVec.ofNat w (leadingFalse (bitList a)))
def popcAlu {w : Nat} (a : BitVec w) : BitVec w × FlagUpd := znAlu (BitVec.ofNat w ((bitList a).filter id).length)

/-- R278: the byte order reversed over the width. -/
def bswapAlu {w : Nat} (a : BitVec w) : BitVec w × FlagUpd :=
  znAlu (BitVec.ofNat w (leNat (natLe (w / 8) a.toNat).reverse))

/-- R271: an operation of two sources at 64 bits, or at 32 bits with the result sign-extended. -/
def atWidth (wide32 : Bool) (f64 : BitVec 64 → BitVec 64 → BitVec 64 × FlagUpd)
    (f32 : BitVec 32 → BitVec 32 → BitVec 32 × FlagUpd) (a b : Word) : Word × FlagUpd :=
  if wide32 then
    let r := f32 (a.setWidth 32) (b.setWidth 32)
    (r.1.signExtend 64, r.2)
  else f64 a b

/-- R271, R278: a shift amount, from the low 6 bits, or 5 under W. -/
def shiftAmount {w : Nat} (b : BitVec w) : Nat := b.toNat % w

/-- R273: whether a condition holds. -/
def Cond.holds (q : Cond) (z n c v : Bool) : Bool :=
  match q with
  | .eq => z
  | .ne => !z
  | .cs => c
  | .cc => !c
  | .mi => n
  | .pl => !n
  | .vs => v
  | .vc => !v
  | .hi => c && !z
  | .ls => !c || z
  | .ge => n == v
  | .lt => n != v
  | .gt => !z && n == v
  | .le => z || n != v
  | .al => true

end Sys2Proof.Machine
end

