-- ==== Sys2Proof/Machine/XqCore.lean ====
section
/-! DEFINITION. What every XQ instruction is built of (chapter 07): exceptions and interrupts, the
accesses of R226 to R229, the two stacks, the bit space, and the order of events at an instruction boundary. -/

namespace Sys2Proof.Machine

open Sys2Proof

/-! ## Exceptions -/

/-- R254: a synchronous cause with what it records; `after` says that `xpc` is the next instruction. -/
structure Exc where
  cause : Nat
  xaddr : Word := 0
  xinfo : Word := 0
  after : Bool := false
  deriving DecidableEq, Repr

def causeIllegal : Nat := 0x01
def causePriv : Nat := 0x02
def causeAlign : Nat := 0x03
def causeAddr : Nat := 0x04
def causeAccess : Nat := 0x05
def causePoison : Nat := 0x06
def causeMemfault : Nat := 0x07
def causeDsOver : Nat := 0x08
def causeDsUnder : Nat := 0x09
def causeRsOver : Nat := 0x0A
def causeRsUnder : Nat := 0x0B
def causeBitAddr : Nat := 0x0C
def causeDevice : Nat := 0x0D
def causeSys : Nat := 0x0E
def causeBreak : Nat := 0x0F
def causeTimer : Nat := 0x20
def causeAttn : Nat := 0x25

/-- R256: exception entry: `xpc`, `xfl`, `xmst`, `xcause`, `xaddr`, `xinfo`, the mode, XE and IE, and the pc. -/
def CoreState.enter (k : CoreState) (c : CoreRef) (e : Exc) (xpc : Word) : CoreState :=
  let m := k.crGet c 0
  let k := k.crPut c 0x10 xpc
  let k := k.crPut c 0x11 k.fl
  let k := k.crPut c 0x12 m
  let k := k.crPut c 0x13 (BitVec.ofNat 64 e.cause)
  let k := k.crPut c 0x14 e.xaddr
  let k := k.crPut c 0x15 e.xinfo
  let k := k.crPut c 0 (if c.isDome then 2 else 1)
  { k with pc := k.crGet c 8 + BitVec.ofNat 64 (64 * e.cause), asleep := none }

/-- R255, R256, R258, R266: an exception is taken: on a Filter sequencer it stops the sequencer; while XE is 0 it is a double
fault; else it enters the handler. `CELL_ERR_ADDR`.ADDR keeps the low 48 bits of a 64-bit `xaddr` (log 70). -/
def State.takeException (s : State) (c : CoreRef) (e : Exc) (xpc : Word) : State :=
  match c with
  | .filter u => s.seqStop u false
  | _ =>
    let s := if c.isGuider then s.count c.cell (evOf 0x18 2) (some e.cause) else s
    let k := s.core c
    if !k.xe c then
      let s := s.setCore c { k with running := false, asleep := none }
      s.recordInternal c.cell e.xaddr.toNat (e.cause % 256 + (k.crGet c 0x13).toNat % 256 * 2 ^ 8)
    else s.setCore c (k.enter c e xpc)

/-! ## The bit space -/

/-- R223: the addresses of the program half of the private bits and of the own cluster's shared bits, these by local and by global
address: R223 denies U the global addresses of other clusters' bits and of the Dome shared bits. -/
def programHalf (c : CoreRef) (b : Nat) : Bool :=
  decide (b ≤ 0x7FFF) || decide (0x100000 ≤ b ∧ b ≤ 0x17FFFF) || decide (c.sharedBase ≤ b ∧ b < c.sharedBase + 0x80000)

/-- R223: whether a mode may read a bit address, and whether it may write it. -/
def bitRight (k : CoreState) (c : CoreRef) (b : Nat) (write : Bool) : Bool :=
  if k.mode c ≠ modeU then true
  else if 0x40000000 ≤ b then !write && (k.crGet c 1).getLsbD 3
  else programHalf c b

/-- The value a bit reads. -/
def State.bitValue (s : State) (p : BitPlace) : Bool :=
  match p with
  | .level b => (s.levelBit b).getD false
  | p => s.bitAt p.key

/-- R223, R245: a read of a bit by a core, or the refusal. -/
def State.bitRead (s : State) (c : CoreRef) (b : Nat) : Option Bool :=
  if bitRight (s.core c) c b false then (s.bitPlace c b).map s.bitValue else none

/-- R223, R245, R248: a write of a bit by a core, or the refusal. A device bit takes only a 0, and only an EVENT bit. -/
def State.bitWrite (s : State) (c : CoreRef) (b : Nat) (v : Bool) : Option State :=
  if !bitRight (s.core c) c b true then none
  else match s.bitPlace c b with
    | some (.stored key) =>
      let s := s.putBit key v
      some (match c with
        | .filter u => s.filterBit u b v
        | _ => s)
    | some (.event b) => if v then none else some (s.putBit b false)
    | _ => none

/-- R254: the exception of a refused bit access. -/
def bitExc (b : Nat) (write : Bool) : Exc := { cause := causeBitAddr, xaddr := BitVec.ofNat 64 b, xinfo := if write then 1 else 0 }

/-! ## Interrupts -/

/-- R261: TIMER is pending. -/
def State.timerPending (s : State) (c : CoreRef) : Bool :=
  let k := s.core c
  (k.crGet c 0x41).getLsbD 0 && decide ((k.crGet c 0x40).toNat ≤ s.now)

/-- R252: BITWATCH w is pending. -/
def State.watchPending (s : State) (c : CoreRef) (w : Nat) : Bool :=
  let v := (s.core c).crGet c (0x48 + w)
  v.getLsbD 33 && (match s.bitPlace c (v.toNat % 2 ^ 32) with
    | some p => s.bitValue p == v.getLsbD 32
    | none => false)

/-- R307: ATTN is pending. -/
def State.attnPending (s : State) (c : CoreRef) : Bool := c.isGuider && s.flag F.GDR_ATTN_PENDING c.cell

/-- R260: the interrupt that is taken at the next instruction boundary. -/
def State.takeable (s : State) (c : CoreRef) : Option Nat :=
  let k := s.core c
  if c.isFilter then none
  else if s.attnPending c ∧ k.xe c then some causeAttn
  else if !k.ie c then none
  else if s.timerPending c then some causeTimer
  else ((List.range 4).find? fun w => s.watchPending c w).map (0x21 + ·)

/-- R260, R307: take an interrupt; taking ATTN clears PENDING. -/
def State.takeInterrupt (s : State) (c : CoreRef) (cause : Nat) : State :=
  let s := if cause = causeAttn then s.setFlag F.GDR_ATTN_PENDING c.cell false else s
  s.takeException c { cause := cause } (s.core c).pc

/-! ## Memory -/

/-- R254: access flags. -/
def accFlags (write fetch stack image : Bool) (size : Nat) : Nat :=
  write.toNat + 2 * fetch.toNat + 4 * stack.toNat + 8 * image.toNat + 16 * (if size = 64 then 6 else size.log2)

/-- R226: what a program address reaches. -/
inductive Place where
  | dev (a : Nat)
  | reg (a : Nat)
  | loc (a : Nat)
  deriving DecidableEq, Repr

/-- The start of the local window (R226). -/
def localWindow : Nat := 0xFFFFFFFFFFFC0000

/-- R226, R266: decode a program address; none where it reaches nothing. -/
def placeOf (c : CoreRef) (a : Nat) : Option Place :=
  if localWindow ≤ a ∧ a < localWindow + localSize c.cell then some (.loc (localBase c.cell + (a - localWindow)))
  else if c.isFilter ∨ 0xFFFFFFFFFFFF < a then none
  else if 0x020000000000 ≤ a ∧ a ≤ 0x02FFFFFFFFFF then some (.reg a)
  else some (.dev a)

/-- R228: whether an enabled window holds every byte of an access and grants a right (1 R, 2 W, 3 X). -/
def CoreState.windowGrants (k : CoreState) (c : CoreRef) (a n right : Nat) : Bool :=
  !(decide (0x020000000000 ≤ a) && decide (a ≤ 0xFFFFFFFFFFFF)) &&
  (List.range 8).any fun w =>
    let lo := k.crGet c (0x50 + 2 * w)
    let base := 4096 * (lo.toNat / 4096)
    let limit := 4095 + 4096 * ((k.crGet c (0x51 + 2 * w)).toNat / 4096)
    lo.getLsbD 0 && lo.getLsbD right && decide (base ≤ a) && decide (a + n - 1 ≤ limit)

/-- An exception of an access. -/
def accExc (cause a fl : Nat) : Exc := { cause := cause, xaddr := BitVec.ofNat 64 a, xinfo := BitVec.ofNat 64 fl }

/-- R229: ADDR with class ACCESS recorded in the core's cell. -/
def State.addrFault (s : State) (c : CoreRef) (a fl : Nat) : Exc × State :=
  (accExc causeAddr a fl, s.recordError c.cell clsAccess (if a ≤ 0xFFFFFFFFFFFF then a else 0) 0)

/-- R52, R229: the cell whose CCB slot or unit register block holds an address, or the device cell. -/
def regOwner (a : Nat) : Nat :=
  if inCcb a then (let id := (a - 0x020000000000) / 0x1000; if (cellKind id).isSome then id else 0)
  else match unitAt a with
    | some (id, _) => id
    | none => 0

/-- R23, R52, R53, R68, R69: what a refused access of n bytes of register space by a core leaves in an error record. An agent without
the right is recorded in the target cell (log 70 for U mode), but for a write of the CCB of a cell that is resetting; an agent with it,
whose instruction does not reach that space, as R23, R68 and R69 record the access. -/
def State.regRefused (s : State) (c : CoreRef) (a n : Nat) (write : Bool) : State :=
  let m := (s.core c).mode c
  let owner := regOwner a
  if m = modeU ∨ (m = modeG ∧ write) then (if write && s.ccbHeld a owner then s else s.recordError owner clsAccess a 0)
  else match regHit a n with
    | .noCell => s.recordError 0 clsAccess a 0
    | .unmapped => s.recordError c.cell clsAccess a 0
    | .misused cell => if write && s.ccbHeld a cell then s else s.recordError cell clsAccess a 0
    | _ => s

/-- R227 to R229: the checks of an access of n bytes, in the order of R255 and R229, short of what the memory itself
reports. `rights` are the rights the windows must grant. -/
def State.accessCheck (s : State) (c : CoreRef) (a n fl : Nat) (write : Bool) (rights : List Nat) : Except Exc Place × State :=
  if a % n ≠ 0 then (.error (accExc causeAlign a fl), s)
  else
    let k := s.core c
    let u := k.mode c == modeU
    match placeOf c a with
    | none => let r := s.addrFault c a fl; (.error r.1, r.2)
    | some p =>
      let unmapped := match p with
        | .dev d => !extentMapped d n
        | _ => false
      if unmapped then let r := s.addrFault c a fl; (.error r.1, r.2)
      else if u ∧ !(rights.all fun r => k.windowGrants c a n r) then
        (.error (accExc causeAccess a fl), match p with
          | .reg d => s.regRefused c d n write
          | _ => s)
      else match p with
        | .reg d =>
          if write ∧ k.mode c = modeG then (.error (accExc causeAccess a fl), s.regRefused c d n write)
          else if !regSpaceMapped d n then let r := s.addrFault c a fl; (.error r.1, r.2)
          else (.ok p, s)
        | _ => (.ok p, s)

/-- What a memory answers, as the core reports it (R229). -/
def memExc (r : MemRes) (a fl : Nat) : Option Exc :=
  match r with
  | .ok _ false => none
  | .ok _ true => some (accExc causePoison (a - a % 64) fl)
  | .unmapped => some (accExc causeAddr a fl)
  | .ring => some (accExc causeAccess a fl)
  | .down => some (accExc causeMemfault a fl)

/-- R226 to R229: a read of n bytes. -/
def State.coreLoad (s : State) (c : CoreRef) (a n fl : Nat) (rights : List Nat) : Except Exc (List Byte) × State :=
  match s.accessCheck c a n fl false rights with
  | (.error e, s) => (.error e, s)
  | (.ok (.reg d), s) =>
    let r := s.coreRegRead c d n
    if r.2.1 then (.error (accExc causePoison (a - a % 64) fl), r.2.2) else (.ok (natLe n r.1), r.2.2)
  | (.ok (.loc d), s) =>
    let r := s.readMem d n (n / 64 + 2)
    if r.2.1 then (.error (accExc causePoison (a - a % 64) fl), r.2.2) else (.ok r.1, r.2.2)
  | (.ok (.dev d), s) =>
    let r := s.load d n c.isGuider
    match r.1, memExc r.1 a fl with
    | .ok bs _, none => (.ok bs, r.2)
    | _, some e => (.error e, r.2)
    | _, none => (.ok [], r.2)

/-- R226 to R229: the checks of a write: whether it is accepted, without performing it. -/
def State.storeCheck (s : State) (c : CoreRef) (a n fl : Nat) : Except Exc Place × State :=
  match s.accessCheck c a n fl true [2] with
  | (.ok (.dev d), s) =>
    match s.refusedRange c.isGuider d n with
    | some s => (.error (accExc causeAccess a fl), s)
    | none => if s.memUp d n then (.ok (.dev d), s) else (.error (accExc causeMemfault a fl), s)
  | r => r

/-- Perform an accepted write. -/
def State.storeAt (s : State) (c : CoreRef) (p : Place) (bs : List Byte) : State :=
  match p with
  | .reg d => s.coreRegWrite c d bs.length (leNat bs)
  | .loc d => s.writeMem d bs false (bs.length / 64 + 2)
  | .dev d => s.writeMem d bs false (bs.length / 64 + 2)

/-- R226 to R229: a write of bytes. -/
def State.coreStore (s : State) (c : CoreRef) (a fl : Nat) (bs : List Byte) : Except Exc Unit × State :=
  match s.storeCheck c a bs.length fl with
  | (.error e, s) => (.error e, s)
  | (.ok p, s) => (.ok (), s.storeAt c p bs)

/-! ## The return stack -/

/-- R240, R266: the partition a mode uses is the G partition. -/
def usesG (c : CoreRef) (mode : Nat) : Bool := c.isGuider && mode == modeG

/-- The on-chip entries of a mode, newest first. -/
def CoreState.rsOf (k : CoreState) (c : CoreRef) (mode : Nat) : List Word := if usesG c mode then k.rsG else k.rsLow

def CoreState.setRs (k : CoreState) (c : CoreRef) (mode : Nat) (l : List Word) : CoreState :=
  if usesG c mode then { k with rsG := l } else { k with rsLow := l }

/-- R240: the entries of a partition. -/
def CoreState.rsCap (k : CoreState) (c : CoreRef) (mode : Nat) : Nat :=
  match c with
  | .guider _ => let g := max 16 (min 240 ((k.crGet c 2).toNat % 512)); if mode = modeG then g else 256 - g
  | .dome _ => 256
  | .filter _ => 32

def stackStore : Nat := accFlags true false true false 8
def stackLoad : Nat := accFlags false false true false 8

/-- R241 steps 1 and 2: spill the oldest entry of a mode's partition. The store is checked as an access of the running mode: an RSFL of
the U part by G is no U-mode access of R228 (log 70). -/
def State.spillOne (s : State) (c : CoreRef) (mode : Nat) : Except Exc Unit × State :=
  let k := s.core c
  match (k.rsOf c mode).getLast? with
  | none => (.ok (), s)
  | some v =>
    let rs := k.crGet c (crBank mode + 3) - 8
    if rs < k.crGet c (crBank mode + 4) then
      (.error { cause := causeRsOver, xaddr := rs, xinfo := BitVec.ofNat 64 mode }, s)
    else
      match s.coreStore c rs.toNat stackStore (natLe 8 v.toNat) with
      | (.error e, s) => (.error e, s)
      | (.ok _, s) =>
        (.ok (), s.mapCore c fun k => (k.setRs c mode (k.rsOf c mode).dropLast).crPut c (crBank mode + 3) rs)

/-- R243: spill every on-chip entry of a mode, oldest first. -/
def State.spillAll (s : State) (c : CoreRef) (mode : Nat) : (fuel : Nat) → Except Exc Unit × State
  | 0 => (.ok (), s)
  | fuel + 1 =>
    if ((s.core c).rsOf c mode).isEmpty then (.ok (), s)
    else match s.spillOne c mode with
      | (.error e, s) => (.error e, s)
      | (.ok _, s) => s.spillAll c mode fuel

/-- R241, R266: push a return address. -/
def State.pushReturn (s : State) (c : CoreRef) (v : Word) : Except Exc Unit × State :=
  let k := s.core c
  let mode := k.mode c
  let r : Except Exc Unit × State :=
    if (k.rsOf c mode).length < k.rsCap c mode then (.ok (), s)
    else if c.isFilter then (.error { cause := causeRsOver }, s)
    else s.spillOne c mode
  match r with
  | (.error e, s) => (.error e, s)
  | (.ok _, s) => (.ok (), s.mapCore c fun k => k.setRs c mode (v :: k.rsOf c mode))

/-- R242, R266: pop a return address. -/
def State.popReturn (s : State) (c : CoreRef) : Except Exc Word × State :=
  let k := s.core c
  let mode := k.mode c
  match k.rsOf c mode with
  | v :: l => (.ok v, s.setCore c (k.setRs c mode l))
  | [] =>
    let rs := k.crGet c (crBank mode + 3)
    if !c.isFilter ∧ rs < k.crGet c (crBank mode + 5) then
      match s.coreLoad c rs.toNat 8 stackLoad [1] with
      | (.error e, s) => (.error e, s)
      | (.ok bs, s) => (.ok (BitVec.ofNat 64 (leNat bs)), s.mapCore c fun k => k.crPut c (crBank mode + 3) (rs + 8))
    else (.error { cause := causeRsUnder, xaddr := rs, xinfo := BitVec.ofNat 64 mode }, s)

/-! ## The data stack -/

/-- R238, R239: the addresses of n pushes, each checked: the first cause of the order of R255. -/
def State.pushCheck (s : State) (c : CoreRef) (n : Nat) : Except Exc (List Place) × State :=
  let k := s.core c
  let ds := k.ds c
  let addrs := (List.range n).map fun i => ds - BitVec.ofNat 64 (8 * (i + 1))
  if ds.toNat % 8 ≠ 0 then (.error (accExc causeAlign (ds - 8).toNat stackStore), s)
  else match addrs.find? fun a => a < k.dslo c with
    | some a => (.error { cause := causeDsOver, xaddr := a }, s)
    | none => addrs.foldl (fun r a =>
        match r with
        | (.error e, s) => (.error e, s)
        | (.ok ps, s) => match s.storeCheck c a.toNat 8 stackStore with
          | (.error e, s) => (.error e, s)
          | (.ok p, s) => (.ok (ps ++ [p]), s)) (.ok [], s)

/-- R238: push values, the first first. -/
def State.pushAll (s : State) (c : CoreRef) (vs : List Word) : Except Exc Unit × State :=
  match s.pushCheck c vs.length with
  | (.error e, s) => (.error e, s)
  | (.ok ps, s) =>
    let s := (ps.zip vs).foldl (fun s p => s.storeAt c p.1 (natLe 8 p.2.toNat)) s
    (.ok (), s.mapCore c fun k => k.crPut c (crBank (k.mode c)) (k.ds c - BitVec.ofNat 64 (8 * vs.length)))

/-- R238, R239: pop n values, the first popped first. `xaddr` of DS_UNDER is ds as it stands at the failing pop (log 70). -/
def State.popAll (s : State) (c : CoreRef) (n : Nat) : Except Exc (List Word) × State :=
  let k := s.core c
  let ds := k.ds c
  if ds.toNat % 8 ≠ 0 then (.error (accExc causeAlign ds.toNat stackLoad), s)
  else match (List.range n).find? fun i => k.dshi c < ds + BitVec.ofNat 64 (8 * (i + 1)) with
    | some i => (.error { cause := causeDsUnder, xaddr := ds + BitVec.ofNat 64 (8 * i) }, s)
    | none =>
      let r := (List.range n).foldl (fun (r : Except Exc (List Word) × State) i =>
        match r with
        | (.error e, s) => (.error e, s)
        | (.ok vs, s) => match s.coreLoad c (ds + BitVec.ofNat 64 (8 * i)).toNat 8 stackLoad [1] with
          | (.error e, s) => (.error e, s)
          | (.ok bs, s) => (.ok (vs ++ [BitVec.ofNat 64 (leNat bs)]), s)) (.ok [], s)
      match r with
      | (.error e, s) => (.error e, s)
      | (.ok vs, s) => (.ok vs, s.mapCore c fun k => k.crPut c (crBank (k.mode c)) (ds + BitVec.ofNat 64 (8 * n)))

/-! ## Instruction words, for `xinfo` of ILLEGAL (R254) -/

/-- R267: word 0 of formats R, I, C. -/
def encR (op fn : Nat) (rd ra rb : Fin 32) : Nat := op + rd.val * 2 ^ 8 + ra.val * 2 ^ 13 + rb.val * 2 ^ 18 + fn * 2 ^ 23
def encI (op : Nat) (rd ra : Fin 32) (imm : BitVec 14) : Nat := op + rd.val * 2 ^ 8 + ra.val * 2 ^ 13 + imm.toNat * 2 ^ 18
def encC (fn : Nat) (reg : Fin 32) (cr : BitVec 12) : Nat := 0x30 + reg.val * 2 ^ 8 + cr.toNat * 2 ^ 13 + fn * 2 ^ 25

/-- The ILLEGAL exception of an instruction whose first word is given. -/
def illegal (w0 : Nat) : Exc := { cause := causeIllegal, xinfo := BitVec.ofNat 64 w0 }

/-- The PRIV exception of an instruction. -/
def privInstr : Exc := { cause := causePriv, xinfo := 0xFFF }

/-! ## The instruction boundary -/

/-- What the body of an instruction comes to: the next instruction, a branch, or an exception. The state of an exception holds
no effect of the instruction (R253). -/
inductive Fate where
  | next (s : State)
  | jump (pc : Word) (s : State)
  | fault (e : Exc) (s : State)
  /-- The core went to sleep in the instruction, which has not completed. -/
  | stay (s : State)
  deriving DecidableEq, Repr

/-- R320: the breakpoint that matches the pc. -/
def State.breakpoint (s : State) (c : CoreRef) : Option Nat :=
  let k := s.core c
  let fromBp := k.stepping && s.fld F.GDR_DBG_STATUS_REASON c.cell == 3
  if c.isFilter || fromBp then none
  else (List.range 4).find? fun b =>
    s.flag F.GDR_DBG_BPb_EN c.cell b && s.fld F.GDR_DBG_BPb_ADDR c.cell b == k.pc.toNat / 4

/-- R320: after the one instruction of a STEP the core halts again. -/
def State.afterInstr (s : State) (c : CoreRef) : State := if (s.core c).stepping then s.haltCore c 2 0 else s

/-- Conclude an instruction of the given length. Of the access flags of a misaligned target, [0] and [3] are 0 (R254: it is neither a
write nor the read of an image); the others are free (log 12). -/
def State.conclude (s0 : State) (c : CoreRef) (len : Nat) (f : Fate) : State :=
  let here := (s0.core c).pc
  let ev := if c.isGuider then some (evOf 0x18 0) else if c.isDome then some (evOf 0x2F 0) else none
  let done := fun (s : State) (pc : Word) =>
    let s := s.mapCore c fun k => { k with pc := pc }
    ((match ev with
      | some e => s.count c.cell e
      | none => s)).afterInstr c
  match f with
  | .stay s => s
  | .next s => done s (here + BitVec.ofNat 64 len)
  | .jump pc s =>
    if pc.toNat % 4 = 0 then done s pc
    else
      let (fl, s) := s0.free 7
      (s.takeException c { cause := causeAlign, xaddr := pc, xinfo := fl.setWidth 64 &&& 0x76#64 } here).afterInstr c
  | .fault e s => (s.takeException c e (if e.after then here + BitVec.ofNat 64 len else here)).afterInstr c

/-- A core executes its next instruction, of the given length: nothing while it does not run, is halted or asleep, or its island
stands (R612); a takeable
interrupt comes first (R260), then a breakpoint (R320); on a Filter sequencer a register field above 15 is undefined (R270),
and an instruction the opcode map marks absent is ILLEGAL (R272). -/
def State.instr (s : State) (c : CoreRef) (len : Nat) (regs : List (Fin 32)) (onFilter : Bool) (body : State → Fate) : State :=
  let k := s.core c
  if !k.running ∨ s.stopped ∨ k.asleep.isSome ∨ (s.halted c ∧ !k.stepping) then s
  else match (if k.stepping then none else s.takeable c) with
    | some i => s.takeInterrupt c i
    | none => match s.breakpoint c with
      | some b =>
        if s.flag F.GDR_DBG_BPb_ACTION c.cell b then s.haltCore c 3 b
        else (s.takeException c { cause := causeBreak } k.pc).afterInstr c
      | none =>
        if c.isFilter ∧ (!onFilter ∨ regs.any fun r => decide (16 ≤ r.val)) then s.conclude c len (.fault (illegal 0) s)
        else s.conclude c len (body s)

end Sys2Proof.Machine
end

