-- ==== Sys2Proof/Machine/XqMemory.lean ====
section
/-! DEFINITION. The meanings of the XQ loads, stores and atomics (R280 to R282), the data stack (R284), and the branches and
calls (R283). -/

namespace Sys2Proof.Machine

open Sys2Proof

/-- R280: a load of n bytes at ra + imm, with the value extended by f. -/
def State.loadInstr (s : State) (c : CoreRef) (rd ra : Fin 32) (imm : Imm) (n : Nat) (f : Nat → Word) : State :=
  s.instr c imm.len [rd, ra] true fun s =>
    let a := ((s.core c).get ra + imm.signed).toNat
    match s.coreLoad c a n (accFlags false false false false n) [1] with
    | (.error e, s) => .fault e s
    | (.ok bs, s) => .next (s.mapCore c fun k => k.set rd (f (leNat bs)))

/-- R280: a store of the low n bytes of rs at ra + imm. -/
def State.storeInstr (s : State) (c : CoreRef) (rs ra : Fin 32) (imm : Imm) (n : Nat) : State :=
  s.instr c imm.len [rs, ra] true fun s =>
    let k := s.core c
    let a := (k.get ra + imm.signed).toNat
    match s.coreStore c a (accFlags true false false false n) (natLe n (k.get rs).toNat) with
    | (.error e, s) => .fault e s
    | (.ok _, s) => .next s

def zeroExt (v : Nat) : Word := BitVec.ofNat 64 v

def execLdb (core : CoreRef) (rd ra : Fin 32) (imm : Imm) (s : State) : Out := .next (s.loadInstr core rd ra imm 1 zeroExt)

def execLdbs (core : CoreRef) (rd ra : Fin 32) (imm : Imm) (s : State) : Out :=
  .next (s.loadInstr core rd ra imm 1 fun v => (BitVec.ofNat 8 v).signExtend 64)

def execLdh (core : CoreRef) (rd ra : Fin 32) (imm : Imm) (s : State) : Out := .next (s.loadInstr core rd ra imm 2 zeroExt)

def execLdhs (core : CoreRef) (rd ra : Fin 32) (imm : Imm) (s : State) : Out :=
  .next (s.loadInstr core rd ra imm 2 fun v => (BitVec.ofNat 16 v).signExtend 64)

def execLdw (core : CoreRef) (rd ra : Fin 32) (imm : Imm) (s : State) : Out := .next (s.loadInstr core rd ra imm 4 zeroExt)

def execLdws (core : CoreRef) (rd ra : Fin 32) (imm : Imm) (s : State) : Out :=
  .next (s.loadInstr core rd ra imm 4 fun v => (BitVec.ofNat 32 v).signExtend 64)

def execLdd (core : CoreRef) (rd ra : Fin 32) (imm : Imm) (s : State) : Out := .next (s.loadInstr core rd ra imm 8 zeroExt)

def execStb (core : CoreRef) (rs ra : Fin 32) (imm : Imm) (s : State) : Out := .next (s.storeInstr core rs ra imm 1)

def execSth (core : CoreRef) (rs ra : Fin 32) (imm : Imm) (s : State) : Out := .next (s.storeInstr core rs ra imm 2)

def execStw (core : CoreRef) (rs ra : Fin 32) (imm : Imm) (s : State) : Out := .next (s.storeInstr core rs ra imm 4)

def execStd (core : CoreRef) (rs ra : Fin 32) (imm : Imm) (s : State) : Out := .next (s.storeInstr core rs ra imm 8)

/-- R227, R282, R293: an access that register space does not take in any mode: an instruction fetch, an atomic, an image. None where
the program address lies elsewhere. -/
def State.spaceRefusal (s : State) (c : CoreRef) (a n : Nat) (write : Bool) : Option State :=
  match placeOf c a with
  | some (.reg d) => some (s.regRefused c d n write)
  | _ => none

/-- R281, R282: an atomic: one read of the operand, the new value by f (none: no write), and rd the old value. `setZ` says that
the instruction writes Z (CAS). -/
def State.atomic (s : State) (c : CoreRef) (half : Bool) (rd ra rb : Fin 32) (setZ : Bool)
    (f : (n : Nat) → BitVec (8 * n) → BitVec (8 * n) → BitVec (8 * n) → Option (BitVec (8 * n))) : State :=
  s.instr c 4 [rd, ra, rb] false fun s =>
    let k := s.core c
    let n := if half then 4 else 8
    let a := (k.get ra).toNat
    let fl := accFlags false false false false n
    if a % n ≠ 0 then .fault (accExc causeAlign a fl) s
    else match s.spaceRefusal c a n true with
      | some s => .fault (accExc causeAccess a fl) s
      | none => match s.coreLoad c a n fl [1, 2] with
        | (.error e, s) => .fault e s
        | (.ok bs, s) =>
          let old := BitVec.ofNat (8 * n) (leNat bs)
          let new := f n old ((k.get rd).setWidth (8 * n)) ((k.get rb).setWidth (8 * n))
          let r : Except Exc Unit × State := match new with
            | some v => s.coreStore c a (accFlags true false false false n) (natLe n v.toNat)
            | none => (.ok (), s)
          match r with
          | (.error e, s) => .fault e s
          | (.ok _, s) =>
            let s := s.mapCore c fun k => k.set rd (old.setWidth 64)
            .next (if setZ then s.mapCore c fun k => { k with z := new.isSome } else s)

def execSwap (core : CoreRef) (half : Bool) (rd ra rb : Fin 32) (s : State) : Out :=
  .next (s.atomic core half rd ra rb false fun _ _ _ b => some b)

/-- R281: CAS compares with rd as it stood, and sets Z when it writes. -/
def execCas (core : CoreRef) (half : Bool) (rd ra rb : Fin 32) (s : State) : Out :=
  .next (s.atomic core half rd ra rb true fun _ old d b => if old = d then some b else none)

def execFadd (core : CoreRef) (half : Bool) (rd ra rb : Fin 32) (s : State) : Out :=
  .next (s.atomic core half rd ra rb false fun _ old _ b => some (old + b))

def execFand (core : CoreRef) (half : Bool) (rd ra rb : Fin 32) (s : State) : Out :=
  .next (s.atomic core half rd ra rb false fun _ old _ b => some (old &&& b))

def execFor (core : CoreRef) (half : Bool) (rd ra rb : Fin 32) (s : State) : Out :=
  .next (s.atomic core half rd ra rb false fun _ old _ b => some (old ||| b))

def execFxor (core : CoreRef) (half : Bool) (rd ra rb : Fin 32) (s : State) : Out :=
  .next (s.atomic core half rd ra rb false fun _ old _ b => some (old ^^^ b))

def execFmaxu (core : CoreRef) (half : Bool) (rd ra rb : Fin 32) (s : State) : Out :=
  .next (s.atomic core half rd ra rb false fun _ old _ b => some (if old.ult b then b else old))

def execFminu (core : CoreRef) (half : Bool) (rd ra rb : Fin 32) (s : State) : Out :=
  .next (s.atomic core half rd ra rb false fun _ old _ b => some (if b.ult old then b else old))

def execFmaxs (core : CoreRef) (half : Bool) (rd ra rb : Fin 32) (s : State) : Out :=
  .next (s.atomic core half rd ra rb false fun _ old _ b => some (if old.slt b then b else old))

def execFmins (core : CoreRef) (half : Bool) (rd ra rb : Fin 32) (s : State) : Out :=
  .next (s.atomic core half rd ra rb false fun _ old _ b => some (if b.slt old then b else old))

/-! ## Branches and calls -/

/-- R283: a call to a target: ALIGN of the target comes before the spill (R255). -/
def State.callTo (s : State) (c : CoreRef) (len : Nat) (target : Word) : Fate :=
  if target.toNat % 4 ≠ 0 then .jump target s
  else match s.pushReturn c ((s.core c).pc + BitVec.ofNat 64 len) with
    | (.error e, s) => .fault e s
    | (.ok _, s) => .jump target s

def execBcc (core : CoreRef) (cond : Cond) (off : BrOff) (s : State) : Out :=
  .next (s.instr core off.len [] true fun s =>
    let k := s.core core
    if cond.holds k.z k.n k.c k.ov then .jump (k.pc + off.disp) s else .next s)

def execCall (core : CoreRef) (off : CallOff) (s : State) : Out :=
  .next (s.instr core off.len [] true fun s => s.callTo core off.len ((s.core core).pc + off.disp))

def execBr (core : CoreRef) (ra : Fin 32) (s : State) : Out :=
  .next (s.instr core 4 [ra] true fun s => .jump ((s.core core).get ra) s)

def execCallr (core : CoreRef) (ra : Fin 32) (s : State) : Out :=
  .next (s.instr core 4 [ra] true fun s => s.callTo core 4 ((s.core core).get ra))

/-- R283: a RET whose target is misaligned takes ALIGN with the entry restored. -/
def execRet (core : CoreRef) (s : State) : Out :=
  .next (s.instr core 4 [] true fun s =>
    match s.popReturn core with
    | (.error e, s) => .fault e s
    | (.ok a, s) => .jump a s)

/-! ## The data stack -/

def execPush (core : CoreRef) (ra : Fin 32) (s : State) : Out :=
  .next (s.instr core 4 [ra] false fun s =>
    match s.pushAll core [(s.core core).get ra] with
    | (.error e, s) => .fault e s
    | (.ok _, s) => .next s)

def execPop (core : CoreRef) (rd : Fin 32) (s : State) : Out :=
  .next (s.instr core 4 [rd] false fun s =>
    match s.popAll core 1 with
    | (.error e, s) => .fault e s
    | (.ok vs, s) => .next (s.mapCore core fun k => k.set rd (vs.headD 0)))

/-- The registers ra to rb, ascending. -/
def regRange (ra rb : Fin 32) : List (Fin 32) := (List.finRange 32).filter fun r => decide (ra ≤ r ∧ r ≤ rb)

/-- R284: RB below RA is undefined. -/
def execPushm (core : CoreRef) (ra rb : Fin 32) (s : State) : Out :=
  .next (s.instr core 4 [ra, rb] false fun s =>
    if rb < ra then .fault (illegal (encR 0x2C 2 0 ra rb)) s
    else match s.pushAll core ((regRange ra rb).map (s.core core).get) with
      | (.error e, s) => .fault e s
      | (.ok _, s) => .next s)

def execPopm (core : CoreRef) (ra rb : Fin 32) (s : State) : Out :=
  .next (s.instr core 4 [ra, rb] false fun s =>
    if rb < ra then .fault (illegal (encR 0x2C 3 0 ra rb)) s
    else
      let regs := (regRange ra rb).reverse
      match s.popAll core regs.length with
      | (.error e, s) => .fault e s
      | (.ok vs, s) => .next (s.mapCore core fun k => (regs.zip vs).foldl (fun k p => k.set p.1 p.2) k))

/-- R284: ADDDS checks the bounds of the running mode; IMM14[2:0] must be 0. -/
def execAddds (core : CoreRef) (imm : BitVec 14) (s : State) : Out :=
  .next (s.instr core 4 [] false fun s =>
    let k := s.core core
    let ds := k.ds core + imm.signExtend 64
    if imm.toNat % 8 ≠ 0 then .fault (illegal (encI 0x2D 0 0 imm)) s
    else if ds < k.dslo core then .fault { cause := causeDsOver, xaddr := ds } s
    else if k.dshi core < ds then .fault { cause := causeDsUnder, xaddr := k.ds core } s
    else .next (s.setCore core (k.crPut core (crBank (k.mode core)) ds)))

def execGetds (core : CoreRef) (rd : Fin 32) (imm : BitVec 14) (s : State) : Out :=
  .next (s.instr core 4 [rd] false fun s =>
    .next (s.mapCore core fun k => k.set rd (k.ds core + imm.signExtend 64)))

end Sys2Proof.Machine
end

