-- ==== Sys2Proof/Machine/XqSystem.lean ====
section
/-! DEFINITION. The meanings of the XQ control-register, system, bit and device instructions (R285 to R297), of a word that is
no instruction (R268) and of a fetch that faults (R269). -/

namespace Sys2Proof.Machine

open Sys2Proof

/-! ## Control registers -/

/-- R223, R262: the exception of an access to a control register, if any: ILLEGAL where it is absent, PRIV in U mode. A U-mode write of
`coreid` or of a feature register is ignored as a write of an RO register is (log 70). -/
def crExc (k : CoreState) (c : CoreRef) (n w0 : Nat) : Option Exc :=
  if !crExists c n then some (illegal w0)
  else if k.mode c = modeU ∧ n ≠ 4 ∧ !(decide (0xC0 ≤ n) && decide (n ≤ 0xC7)) then
    some { cause := causePriv, xinfo := BitVec.ofNat 64 n }
  else none

/-- R286: a write of `rsplit`: spill U, then G, then the new split, 16 to 240. -/
def State.writeRsplit (s : State) (c : CoreRef) (v : Nat) : Except Exc Unit × State :=
  match s.spillAll c modeU 256 with
  | (.error e, s) => (.error e, s)
  | (.ok _, s) => match s.spillAll c modeG 256 with
    | (.error e, s) => (.error e, s)
    | (.ok _, s) => (.ok (), s.mapCore c fun k => k.crPut c 2 (BitVec.ofNat 64 (max 16 (min 240 (v % 512)))))

/-- R262, R285: a program's write of a control register: RO and RSV bits keep their value. A watch that names no bit records
ACCESS when it is enabled (R252). -/
def State.crWrite (s : State) (c : CoreRef) (n : Nat) (v : Word) : Except Exc Unit × State :=
  if n = 2 then s.writeRsplit c v.toNat
  else
    let k := s.core c
    let mask := if c.isFilter then 0 else BitVec.ofNat 64 (crWritable n)
    let new := (v &&& mask) ||| (k.crGet c n &&& ~~~BitVec.ofNat 64 (crWritable n)) ||| (if c.isFilter then k.crGet c n else 0)
    let s := if n = 3 then s else s.setCore c (k.crPut c n new)
    (.ok (), if s.badWatch c n new then s.recordError c.cell clsAccess 0 0 else s)

/-- R285, R286: CRW, CRS and CRC: write f of the old value and the register, as one act. -/
def State.crInstr (s : State) (c : CoreRef) (fn : Nat) (reg : Fin 32) (cr : BitVec 12) (f : Word → Word → Word) : State :=
  s.instr c 4 [reg] true fun s =>
    let k := s.core c
    match crExc k c cr.toNat (encC fn reg cr) with
    | some e => .fault e s
    | none => match s.crWrite c cr.toNat (f (k.crGet c cr.toNat) (k.get reg)) with
      | (.error e, s) => .fault e s
      | (.ok _, s) => .next s

def execCrr (core : CoreRef) (reg : Fin 32) (cr : BitVec 12) (s : State) : Out :=
  .next (s.instr core 4 [reg] true fun s =>
    let k := s.core core
    match crExc k core cr.toNat (encC 0 reg cr) with
    | some e => .fault e s
    | none => .next (s.setCore core (k.set reg (k.crGet core cr.toNat))))

def execCrw (core : CoreRef) (reg : Fin 32) (cr : BitVec 12) (s : State) : Out :=
  .next (s.crInstr core 1 reg cr fun _ r => r)

def execCrs (core : CoreRef) (reg : Fin 32) (cr : BitVec 12) (s : State) : Out :=
  .next (s.crInstr core 2 reg cr fun old r => old ||| r)

def execCrc (core : CoreRef) (reg : Fin 32) (cr : BitVec 12) (s : State) : Out :=
  .next (s.crInstr core 3 reg cr fun old r => old &&& ~~~r)

/-! ## System instructions -/

def execNop (core : CoreRef) (s : State) : Out := .next (s.instr core 4 [] true .next)

/-- R233: every access of this model is performed and visible when its command ends, so FENCE has nothing to wait for (log 10). -/
def execFence (core : CoreRef) (s : State) : Out := .next (s.instr core 4 [] true .next)

/-- R287: IFENCE; the model keeps no instruction cache (log 11). -/
def execIfence (core : CoreRef) (s : State) : Out :=
  .next (s.instr core 4 [] true fun s =>
    if (s.core core).mode core = modeU then .fault privInstr s else .next s)

/-- R224, R257: XRET. -/
def execXret (core : CoreRef) (s : State) : Out :=
  .next (s.instr core 4 [] false fun s =>
    let k := s.core core
    let m := k.crGet core 0x12
    let legal := match core with
      | .dome _ => m.toNat % 4 = 2
      | _ => m.toNat % 4 ≤ 1
    if k.mode core = modeU ∨ !legal then .fault privInstr s
    else
      let pc := k.crGet core 0x10
      if pc.toNat % 4 ≠ 0 then .jump pc s
      else .jump pc (s.setCore core ((k.setFl (k.crGet core 0x11)).crPut core 0 m)))

def execBrk (core : CoreRef) (s : State) : Out :=
  .next (s.instr core 4 [] true fun s => .fault { cause := causeBreak } s)

/-- R243, R288: RSFL of the mode RA names. -/
def execRsfl (core : CoreRef) (ra : Fin 32) (s : State) : Out :=
  .next (s.instr core 4 [] false fun s =>
    let legal := match core with
      | .dome _ => ra.val = 2
      | _ => ra.val ≤ 1
    if !legal then .fault (illegal (encR 0x34 5 0 ra 0)) s
    else if (s.core core).mode core = modeU then .fault privInstr s
    else match s.spillAll core ra.val 256 with
      | (.error e, s) => .fault e s
      | (.ok _, s) => .next s)

def execSys (core : CoreRef) (imm : BitVec 16) (s : State) : Out :=
  .next (s.instr core 4 [] true fun s => .fault { cause := causeSys, xinfo := imm.setWidth 64, after := true } s)

/-! ## Bits -/

/-- R289: the bit address of an operand. -/
def BitOpnd.addr (b : BitOpnd) (k : CoreState) : Nat :=
  match b with
  | .reg ra => (k.get ra).toNat % 2 ^ 32
  | .imm v => v.toNat

def BitOpnd.regs : BitOpnd → List (Fin 32)
  | .reg ra => [ra]
  | .imm _ => []

/-- R289: Z from a bit that was read. -/
def State.zFromBit (s : State) (c : CoreRef) (v : Bool) : State := s.mapCore c fun k => { k with z := !v }

/-- R289: a bit instruction that reads a bit and writes f of it. -/
def State.bitChange (s : State) (c : CoreRef) (b : BitOpnd) (f : Bool → Bool) : State :=
  s.instr c b.len b.regs true fun s =>
    let a := b.addr (s.core c)
    match s.bitRead c a with
    | none => .fault (bitExc a true) s
    | some old => match s.bitWrite c a (f old) with
      | none => .fault (bitExc a true) s
      | some s => .next (s.zFromBit c old)

/-- R248: SETB and CPLB of a device bit are refused whatever it holds; CPLB writes a complement. -/
def execSetb (core : CoreRef) (b : BitOpnd) (s : State) : Out := .next (s.bitChange core b fun _ => true)

def execClrb (core : CoreRef) (b : BitOpnd) (s : State) : Out := .next (s.bitChange core b fun _ => false)

def execCplb (core : CoreRef) (b : BitOpnd) (s : State) : Out :=
  .next (s.instr core b.len b.regs true fun s =>
    let a := b.addr (s.core core)
    match s.bitRead core a, s.deviceBit a with
    | some old, none => match s.bitWrite core a (!old) with
      | some s => .next (s.zFromBit core old)
      | none => .fault (bitExc a true) s
    | _, _ => .fault (bitExc a true) s)

def execTstb (core : CoreRef) (b : BitOpnd) (s : State) : Out :=
  .next (s.instr core b.len b.regs true fun s =>
    let a := b.addr (s.core core)
    match s.bitRead core a with
    | none => .fault (bitExc a false) s
    | some v => .next (s.zFromBit core v))

def execGetb (core : CoreRef) (rd : Fin 32) (b : BitOpnd) (s : State) : Out :=
  .next (s.instr core b.len (rd :: b.regs) true fun s =>
    let a := b.addr (s.core core)
    match s.bitRead core a with
    | none => .fault (bitExc a false) s
    | some v => .next ((s.zFromBit core v).mapCore core fun k => k.set rd (if v then 1 else 0)))

def execPutb (core : CoreRef) (src : Fin 32) (b : BitOpnd) (s : State) : Out :=
  .next (s.instr core b.len (src :: b.regs) true fun s =>
    let k := s.core core
    let a := b.addr k
    match s.bitWrite core a ((k.get src).getLsbD 0) with
    | none => .fault (bitExc a true) s
    | some s => .next s)

def execMovb (core : CoreRef) (ra rb : Fin 32) (s : State) : Out :=
  .next (s.instr core 4 [ra, rb] true fun s =>
    let k := s.core core
    let src := (BitOpnd.reg rb).addr k
    let dst := (BitOpnd.reg ra).addr k
    match s.bitRead core src with
    | none => .fault (bitExc src false) s
    | some v => match s.bitWrite core dst v with
      | none => .fault (bitExc dst true) s
      | some s => .next (s.zFromBit core v))

def execBopb (core : CoreRef) (ra rb rc : Fin 32) (tt : BitVec 4) (s : State) : Out :=
  .next (s.instr core 4 [ra, rb, rc] true fun s =>
    let k := s.core core
    let a1 := (BitOpnd.reg rb).addr k
    let a2 := (BitOpnd.reg rc).addr k
    let dst := (BitOpnd.reg ra).addr k
    match s.bitRead core a1, s.bitRead core a2 with
    | none, _ => .fault (bitExc a1 false) s
    | _, none => .fault (bitExc a2 false) s
    | some a, some b =>
      let v := tt.getLsbD (2 * a.toNat + b.toNat)
      match s.bitWrite core dst v with
      | none => .fault (bitExc dst true) s
      | some s => .next (s.zFromBit core v))

/-- R251: WAITB completes at once where the bit does not hold the value; else the core sleeps. -/
def execWaitb (core : CoreRef) (b : BitOpnd) (value : Bool) (s : State) : Out :=
  .next (s.instr core b.len b.regs false fun s =>
    let k := s.core core
    let a := b.addr k
    match s.bitRead core a, s.bitPlace core a with
    | some v, some p =>
      if v = value then
        .stay (s.mapCore core fun k =>
          { k with asleep := some { bit := p.key, value := value, left := false, len := b.len } })
      else .next (s.zFromBit core v)
    | _, _ => .fault (bitExc a false) s)

/-- The value of a bit by its key. -/
def State.keyValue (s : State) (key : Nat) : Bool := (s.levelBit key).getD (s.bitAt key)

/-- R251: a sleeping core resumes: the WAITB completes once the bit has left the value, with Z from its value then; else a
takeable interrupt is taken, with `xpc` at the WAITB, but in the sleep of a STEP, in which the core is halted (R320). -/
def execWaitbWake (core : CoreRef) (s : State) : Out :=
  let k := s.core core
  .next (match k.asleep with
  | none => s
  | some w =>
    let v := s.keyValue w.bit
    if !k.running ∨ s.stopped ∨ (s.halted core ∧ !k.stepping) then s
    else if w.left ∨ v ≠ w.value then
      s.conclude core w.len (.next ((s.mapCore core fun k => { k with asleep := none }).zFromBit core v))
    else match (if s.halted core then none else s.takeable core) with
      | some i => s.takeInterrupt core i
      | none => s)

def execBb (core : CoreRef) (form : BbForm) (sense : Bool) (s : State) : Out :=
  .next (s.instr core form.len form.opnd.regs true fun s =>
    let k := s.core core
    let a := form.opnd.addr k
    match s.bitRead core a with
    | none => .fault (bitExc a false) s
    | some v =>
      let s := s.zFromBit core v
      if v = sense then .jump (k.pc + form.disp) s else .next s)

/-! ## Device instructions -/

/-- R223: a device instruction in U mode needs its `uperm` bit. -/
def CoreState.granted (k : CoreState) (c : CoreRef) (bit : Nat) : Bool :=
  k.mode c != modeU || (k.crGet c 1).getLsbD bit

/-- R293: the read of a PRIM or MOVE image of `lines` 64-byte lines. -/
def State.readImage (s : State) (c : CoreRef) (a lines : Nat) : Except Exc (List Word32) × State :=
  let fl := accFlags false false false true 64
  if a % 64 ≠ 0 then (.error (accExc causeAlign a fl), s)
  else match s.spaceRefusal c a 64 false with
  | some s => (.error (accExc causeAccess a fl), s)
  | none =>
    let r := (List.range lines).foldl (fun (r : Except Exc (List Byte) × State) i =>
      match r with
      | (.error e, s) => (.error e, s)
      | (.ok bs, s) => match s.coreLoad c ((a + 64 * i) % 2 ^ 64) 64 fl [1] with
        | (.error e, s) => (.error e, s)
        | (.ok b, s) => (.ok (bs ++ b), s)) (.ok [], s)
    match r with
    | (.error e, s) => (.error e, s)
    | (.ok bs, s) => (.ok (wordsOf (16 * lines) bs), s)

/-- R292, R295: rd := the ticket, or 0; Z says that it is 0. -/
def State.ticketResult (s : State) (c : CoreRef) (rd : Fin 32) (t : Nat) : Fate :=
  .next (s.mapCore c fun k => { (k.set rd (BitVec.ofNat 64 t)) with z := t == 0 })

def execPrim (core : CoreRef) (rd ra : Fin 32) (s : State) : Out :=
  .next (s.instr core 4 [rd, ra] false fun s =>
    let k := s.core core
    if !k.granted core 0 then .fault privInstr s
    else match s.readImage core (k.get ra).toNat 3 with
      | (.error e, s) => .fault e s
      | (.ok ws, s) =>
        let r := s.primPush core ws
        r.2.ticketResult core rd r.1)

def execMove (core : CoreRef) (rd ra rb : Fin 32) (s : State) : Out :=
  .next (s.instr core 4 [rd, ra, rb] false fun s =>
    let k := s.core core
    if !k.granted core 1 then .fault privInstr s
    else if h : (k.get rb).toNat < 64 then
      match s.readImage core (k.get ra).toNat 1 with
      | (.error e, s) => .fault e s
      | (.ok ws, s) =>
        let r := s.movPush core ⟨(k.get rb).toNat, h⟩ ws
        r.2.ticketResult core rd r.1
    else .fault { cause := causeDevice, xinfo := (k.get rb).setWidth 32 |>.setWidth 64 } s)

/-- R296: set the phase tag. -/
def State.setPhase (s : State) (c : CoreRef) (v : Word) : Fate :=
  let k := s.core c
  if !k.granted c 2 then .fault privInstr s
  else if 63 < v.toNat then .fault { cause := causeDevice, xinfo := v.setWidth 32 |>.setWidth 64 } s
  else .next (s.setCore c { k with phase := v.toNat })

def execPhaser (core : CoreRef) (ra : Fin 32) (s : State) : Out :=
  .next (s.instr core 4 [ra] false fun s => s.setPhase core ((s.core core).get ra))

def execPhase (core : CoreRef) (imm : BitVec 14) (s : State) : Out :=
  .next (s.instr core 4 [] false fun s => s.setPhase core (imm.setWidth 64))

def execTime (core : CoreRef) (rd : Fin 32) (s : State) : Out :=
  .next (s.instr core 4 [rd] false fun s => .next (s.mapCore core fun k => k.set rd (BitVec.ofNat 64 s.now)))

/-! ## Undefined words and fetch faults -/

/-- R272: the OP values of a core kind. -/
def opPresent (filter : Bool) (op : Nat) : Bool :=
  let both := [0x01, 0x02, 0x05, 0x08, 0x09, 0x0A, 0x0B, 0x0C, 0x0D, 0x0E, 0x0F, 0x10, 0x18, 0x19, 0x1A, 0x1B, 0x1C, 0x1D, 0x1E,
    0x20, 0x21, 0x22, 0x23, 0x28, 0x29, 0x2A, 0x30, 0x34, 0x35, 0x38, 0x39, 0x88, 0x89, 0x8A, 0x8B, 0x8C, 0x90, 0x91, 0x98, 0x99,
    0x9A, 0x9B, 0x9C, 0x9D, 0x9E, 0xA0, 0xA1, 0xA2, 0xA3, 0xA8, 0xA9, 0xB8, 0xB9]
  both.contains op || (if filter then [0x40, 0x41, 0x42].contains op else [0x04, 0x2C, 0x2D, 0x2E, 0x3C, 0x3D].contains op)

/-- R268, R270, R288: whether word 0 is a defined encoding that a core kind has: OP and FN named, reserved fields 0, values in
range, and on a Filter sequencer no register above g15. -/
def definedWord (c : CoreRef) (w : Nat) : Bool :=
  let filter := c.isFilter
  let op := bitsOf w 7 0
  let rd := bitsOf w 12 8
  let ra := bitsOf w 17 13
  let rb := bitsOf w 22 18
  let fn := bitsOf w 31 23
  let f7 := fn % 256
  let imm := bitsOf w 31 18
  let g := fun (l : List Nat) => !filter || l.all fun r => decide (r < 16)
  let v := fun (l : List Nat) => l.all fun r => decide (r < 8)
  let bitFn := bitsOf w 31 28
  opPresent filter op && (
    if op = 0x01 then
      g [rd, ra, rb] && [0, 1, 2, 3, 4, 5, 8, 9, 10, 12, 13, 14, 15].contains f7 && (f7 != 4 || rd == 0) && (f7 != 5 || rb == 0)
    else if op = 0x02 then
      g [rd, ra, rb] && (decide (f7 ≤ 4) || decide (8 ≤ f7 ∧ f7 ≤ 11) || decide (0x10 ≤ f7 ∧ f7 ≤ 0x17))
        && (f7 != 4 || rd == 0) && (decide (f7 < 0x10) || rb == 0) && (decide (f7 < 0x14) || decide (fn < 256))
    else if op = 0x04 then decide (f7 < 10)
    else if op = 0x05 then g [rd, ra, rb] && decide (fn < 15)
    else if op = 0x09 then g [ra] && rd == 0
    else if 0x08 ≤ op ∧ op ≤ 0x0F then g [rd, ra] && (decide (op < 0x0D) || decide (imm < 128))
    else if op = 0x10 then g [rd] && ra == 0
    else if 0x18 ≤ op ∧ op ≤ 0x23 then g [rd, ra]
    else if op = 0x28 then decide (bitsOf w 11 8 < 15)
    else if op = 0x29 then true
    else if op = 0x2A then
      decide (fn ≤ 2) && rd == 0 && rb == 0 && g [ra] && (fn != 2 || ra == 0)
    else if op = 0x2C then
      (fn == 0 && rd == 0 && rb == 0) || (fn == 1 && ra == 0 && rb == 0) || ((fn == 2 || fn == 3) && rd == 0 && decide (ra ≤ rb))
    else if op = 0x2D then rd == 0 && ra == 0 && imm % 8 == 0
    else if op = 0x2E then ra == 0
    else if op = 0x30 then g [rd] && decide (bitsOf w 27 25 ≤ 3) && bitFn == 0 && crExists c (bitsOf w 24 13)
    else if op = 0x34 then
      rd == 0 && rb == 0 && (
        if fn = 5 then !filter && (if c.isDome then ra == 2 else decide (ra ≤ 1))
        else ra == 0 && decide (fn ≤ 4) && !(filter && fn == 3))
    else if op = 0x35 then bitsOf w 31 24 == 0
    else if op = 0x38 then
      let rc := bitsOf w 27 23
      g [ra] && (
        if bitFn ≤ 3 then rd == 0 && rb == 0 && rc == 0
        else if bitFn = 4 then rb == 0 && rc == 0 && g [rd]
        else if bitFn = 5 ∨ bitFn = 6 then rd == 0 && rc == 0 && g [rb]
        else if bitFn = 7 then decide (rd < 16) && g [rb, rc]
        else if bitFn = 8 then !filter && decide (rd ≤ 1) && rb == 0 && rc == 0
        else false)
    else if op = 0x39 then g [ra] && rd == 0
    else if op = 0x3C then
      (fn == 0 && rb == 0) || fn == 1 || (fn == 2 && rd == 0 && rb == 0) || (fn == 3 && ra == 0 && rb == 0)
    else if op = 0x3D then rd == 0 && ra == 0
    else if op = 0x40 then
      if fn ≤ 1 then v [rd, ra, rb]
      else if 4 ≤ fn ∧ fn ≤ 7 then v [rd, ra] && rb == 0
      else if fn = 8 ∨ fn = 9 then v [rd] && g [ra] && rb == 0
      else if fn = 10 ∨ fn = 11 then v [ra] && g [rd] && rb == 0
      else if fn = 0x10 ∨ fn = 0x11 then v [rd, ra] && rb == 0
      else (fn == 0x18 || fn == 0x19) && v [rd, ra, rb]
    else if op = 0x41 ∨ op = 0x42 then v [rd] && g [ra]
    else if op = 0x89 then g [ra] && rd == 0 && imm == 0
    else if op = 0x90 ∨ op = 0x91 then g [rd] && ra == 0 && imm == 0
    else if 0x88 ≤ op ∧ op ≤ 0xA3 then g [rd, ra] && imm == 0
    else if op = 0xA8 then decide (bitsOf w 11 8 < 15) && bitsOf w 31 12 == 0
    else if op = 0xA9 then bitsOf w 31 8 == 0
    else if op = 0xB8 then
      bitsOf w 27 14 == 0 && g [rd] && (
        if bitFn ≤ 3 then rd == 0 && bitsOf w 13 13 == 0
        else if bitFn ≤ 5 then bitsOf w 13 13 == 0
        else bitFn == 8 && !filter && rd == 0)
    else bitsOf w 11 9 == 0)

/-- R268: a core executes a word that is no instruction of its kind: ILLEGAL. A defined word is no such event. -/
def execUndefinedEncoding (core : CoreRef) (word : BitVec 32) (s : State) : Out :=
  .next (if definedWord core word.toNat then s
    else s.instr core 4 [] true fun s => .fault (illegal word.toNat) s)

/-- R227 to R229, R254: the fetch of one word: the exception it takes, or the word. Bits [6:4] of `xinfo` are a free value: the
spec gives no size for a fetch. -/
def State.fetchWord (s : State) (c : CoreRef) (a : Nat) : Except Exc Nat × State :=
  let (sz, s) := s.free 3
  let fl := 2 + 16 * sz.toNat
  match s.spaceRefusal c a 4 false with
  | some s => (.error (accExc causeAccess a fl), s)
  | none => match s.coreLoad c a 4 fl [3] with
    | (.error e, s) => (.error e, s)
    | (.ok bs, s) => (.ok (leNat bs), s)

/-- R255, R269: a core's fetch of its next instruction faults, in word 0 or in word 1 of a long form. A fetch that does not fault
is no such event. Where the code of the instruction cache finds an error instead, the line is corrected, or discarded and fetched again,
and only the record shows it (R604). -/
def execInstructionFetchFault (core : FetchIn) (s : State) : Out :=
  let cache := core.cache
  let core := core.core
  let k := s.core core
  .next (if !k.running ∨ s.stopped ∨ k.asleep.isSome ∨ (s.halted core ∧ !k.stepping) then s
  else if cache ≠ .clean then s.bufErr core.cell cache
  else match (if k.stepping then none else s.takeable core) with
    | some i => s.takeInterrupt core i
    | none => match (s.breakpoint core).filter fun b => s.flag F.GDR_DBG_BPb_ACTION core.cell b with
    | some b => s.haltCore core 3 b
    | none =>
      let pc := (s.core core).pc.toNat
      match s.fetchWord core pc with
      | (.error e, s1) => s.conclude core 4 (.fault e s1)
      | (.ok w, s1) =>
        if bitsOf w 7 7 = 0 then s
        else match s1.fetchWord core ((pc + 4) % 2 ^ 64) with
          | (.error e, s2) => s.conclude core 4 (.fault e s2)
          | (.ok _, _) => s)

end Sys2Proof.Machine
end

