-- ==== Sys2Proof/Decode.lean ====
section
/-! DEFINITION. Words: the decoding of XQ instruction words (R267 to R272), and the words of the table, which spell no command: no row of
spec/opcode_table.json gives bits. -/

namespace Sys2Proof

open Sys2Proof.Machine

/-- R273: the condition of a code. -/
def Machine.Cond.ofCode (n : Nat) : Option Cond :=
  [Cond.eq, .ne, .cs, .cc, .mi, .pl, .vs, .vc, .hi, .ls, .ge, .lt, .gt, .le, .al][n]?

/-- R267: the fields of an instruction: its core, its words, and whether it has the long form (R269). -/
structure Machine.XqWord where
  core : CoreRef
  w0 : Nat
  w1 : Nat

def Machine.XqWord.op (x : XqWord) : Nat := bitsOf x.w0 7 0
def Machine.XqWord.long (x : XqWord) : Bool := decide (0x80 ≤ x.op)
def Machine.XqWord.rd (x : XqWord) : Fin 32 := Fin.ofNat 32 (bitsOf x.w0 12 8)
def Machine.XqWord.ra (x : XqWord) : Fin 32 := Fin.ofNat 32 (bitsOf x.w0 17 13)
def Machine.XqWord.rb (x : XqWord) : Fin 32 := Fin.ofNat 32 (bitsOf x.w0 22 18)
def Machine.XqWord.rc (x : XqWord) : Fin 32 := Fin.ofNat 32 (bitsOf x.w0 27 23)
def Machine.XqWord.vd (x : XqWord) : Fin 8 := Fin.ofNat 8 (bitsOf x.w0 12 8)
def Machine.XqWord.va (x : XqWord) : Fin 8 := Fin.ofNat 8 (bitsOf x.w0 17 13)
def Machine.XqWord.vb (x : XqWord) : Fin 8 := Fin.ofNat 8 (bitsOf x.w0 22 18)
/-- FN of format R, and FN[7:0], which leaves W out. -/
def Machine.XqWord.fn (x : XqWord) : Nat := bitsOf x.w0 31 23
def Machine.XqWord.fnW (x : XqWord) : Nat := x.fn % 256
def Machine.XqWord.w (x : XqWord) : Bool := bitsOf x.w0 31 31 == 1
def Machine.XqWord.imm14 (x : XqWord) : BitVec 14 := BitVec.ofNat 14 (bitsOf x.w0 31 18)
def Machine.XqWord.word1 (x : XqWord) : BitVec 32 := BitVec.ofNat 32 x.w1
/-- The immediate of formats I and LI. -/
def Machine.XqWord.imm (x : XqWord) : Imm := if x.long then .long x.word1 else .short x.imm14
def Machine.XqWord.cond (x : XqWord) : Option Cond := Cond.ofCode (bitsOf x.w0 11 8)
/-- The bit address of formats X and LX. -/
def Machine.XqWord.bit (x : XqWord) : BitOpnd := if x.long then .imm x.word1 else .reg x.ra
/-- R279: IMM14 of a shift: the amount and W. -/
def Machine.XqWord.amount (x : XqWord) : BitVec 6 := BitVec.ofNat 6 (bitsOf x.w0 23 18)
def Machine.XqWord.shiftW (x : XqWord) : Bool := bitsOf x.w0 24 24 == 1

/-- R275: group 0x01. -/
def Machine.XqWord.arith (x : XqWord) : Option Instr :=
  match x.fnW with
  | 0x00 => some (.add x.core x.w x.rd x.ra x.rb)
  | 0x01 => some (.sub x.core x.w x.rd x.ra x.rb)
  | 0x02 => some (.adc x.core x.w x.rd x.ra x.rb)
  | 0x03 => some (.sbc x.core x.w x.rd x.ra x.rb)
  | 0x04 => some (.cmp x.core x.w x.ra x.rb)
  | 0x05 => some (.neg x.core x.w x.rd x.ra)
  | 0x08 => some (.mul x.core x.w x.rd x.ra x.rb)
  | 0x09 => some (.mulhu x.core x.w x.rd x.ra x.rb)
  | 0x0A => some (.mulhs x.core x.w x.rd x.ra x.rb)
  | 0x0C => some (.divu x.core x.w x.rd x.ra x.rb)
  | 0x0D => some (.divs x.core x.w x.rd x.ra x.rb)
  | 0x0E => some (.remu x.core x.w x.rd x.ra x.rb)
  | 0x0F => some (.rems x.core x.w x.rd x.ra x.rb)
  | _ => none

/-- R278: group 0x02. -/
def Machine.XqWord.logic (x : XqWord) : Option Instr :=
  match x.fnW with
  | 0x00 => some (.and x.core x.w x.rd x.ra x.rb)
  | 0x01 => some (.or x.core x.w x.rd x.ra x.rb)
  | 0x02 => some (.xor x.core x.w x.rd x.ra x.rb)
  | 0x03 => some (.andn x.core x.w x.rd x.ra x.rb)
  | 0x04 => some (.tst x.core x.w x.ra x.rb)
  | 0x08 => some (.shl x.core x.w x.rd x.ra x.rb)
  | 0x09 => some (.shr x.core x.w x.rd x.ra x.rb)
  | 0x0A => some (.sar x.core x.w x.rd x.ra x.rb)
  | 0x0B => some (.ror x.core x.w x.rd x.ra x.rb)
  | 0x10 => some (.clz x.core x.w x.rd x.ra)
  | 0x11 => some (.ctz x.core x.w x.rd x.ra)
  | 0x12 => some (.popc x.core x.w x.rd x.ra)
  | 0x13 => some (.bswap x.core x.w x.rd x.ra)
  | 0x14 => some (.sextb x.core x.rd x.ra)
  | 0x15 => some (.sexth x.core x.rd x.ra)
  | 0x16 => some (.sextw x.core x.rd x.ra)
  | 0x17 => some (.zextw x.core x.rd x.ra)
  | _ => none

/-- R281: group 0x04; W is the size of 4 bytes. -/
def Machine.XqWord.atomic (x : XqWord) : Option Instr :=
  match x.fnW with
  | 0x0 => some (.swap x.core x.w x.rd x.ra x.rb)
  | 0x1 => some (.cas x.core x.w x.rd x.ra x.rb)
  | 0x2 => some (.fadd x.core x.w x.rd x.ra x.rb)
  | 0x3 => some (.fand x.core x.w x.rd x.ra x.rb)
  | 0x4 => some (.for_ x.core x.w x.rd x.ra x.rb)
  | 0x5 => some (.fxor x.core x.w x.rd x.ra x.rb)
  | 0x6 => some (.fmaxu x.core x.w x.rd x.ra x.rb)
  | 0x7 => some (.fminu x.core x.w x.rd x.ra x.rb)
  | 0x8 => some (.fmaxs x.core x.w x.rd x.ra x.rb)
  | 0x9 => some (.fmins x.core x.w x.rd x.ra x.rb)
  | _ => none

/-- R279, R280: the instructions of formats I and LI, by the OP of their short form. -/
def Machine.XqWord.immediate (x : XqWord) (short : Nat) : Option Instr :=
  match short with
  | 0x08 => some (.addi x.core x.rd x.ra x.imm)
  | 0x09 => some (.cmpi x.core x.ra x.imm)
  | 0x0A => some (.andi x.core x.rd x.ra x.imm)
  | 0x0B => some (.ori x.core x.rd x.ra x.imm)
  | 0x0C => some (.xori x.core x.rd x.ra x.imm)
  | 0x0D => some (.shli x.core x.shiftW x.rd x.ra x.amount)
  | 0x0E => some (.shri x.core x.shiftW x.rd x.ra x.amount)
  | 0x0F => some (.sari x.core x.shiftW x.rd x.ra x.amount)
  | 0x10 => some (.movi x.core x.rd x.imm)
  | 0x11 => some (.lmovhi x.core x.rd x.word1)
  | 0x18 => some (.ldb x.core x.rd x.ra x.imm)
  | 0x19 => some (.ldbs x.core x.rd x.ra x.imm)
  | 0x1A => some (.ldh x.core x.rd x.ra x.imm)
  | 0x1B => some (.ldhs x.core x.rd x.ra x.imm)
  | 0x1C => some (.ldw x.core x.rd x.ra x.imm)
  | 0x1D => some (.ldws x.core x.rd x.ra x.imm)
  | 0x1E => some (.ldd x.core x.rd x.ra x.imm)
  | 0x20 => some (.stb x.core x.rd x.ra x.imm)
  | 0x21 => some (.sth x.core x.rd x.ra x.imm)
  | 0x22 => some (.stw x.core x.rd x.ra x.imm)
  | 0x23 => some (.std x.core x.rd x.ra x.imm)
  | _ => none

/-- R283 to R287, R292: branches, calls, the data stack, the system and the device instructions. -/
def Machine.XqWord.control (x : XqWord) : Option Instr :=
  match x.op, x.fn with
  | 0x2A, 0 => some (.br x.core x.ra)
  | 0x2A, 1 => some (.callr x.core x.ra)
  | 0x2A, 2 => some (.ret x.core)
  | 0x2C, 0 => some (.push x.core x.ra)
  | 0x2C, 1 => some (.pop x.core x.rd)
  | 0x2C, 2 => some (.pushm x.core x.ra x.rb)
  | 0x2C, 3 => some (.popm x.core x.ra x.rb)
  | 0x34, 0 => some (.nop x.core)
  | 0x34, 1 => some (.fence x.core)
  | 0x34, 2 => some (.ifence x.core)
  | 0x34, 3 => some (.xret x.core)
  | 0x34, 4 => some (.brk x.core)
  | 0x34, 5 => some (.rsfl x.core x.ra)
  | 0x3C, 0 => some (.prim x.core x.rd x.ra)
  | 0x3C, 1 => some (.move x.core x.rd x.ra x.rb)
  | 0x3C, 2 => some (.phaser x.core x.ra)
  | 0x3C, 3 => some (.time x.core x.rd)
  | _, _ => none

/-- R285: control registers; format C. -/
def Machine.XqWord.control30 (x : XqWord) : Option Instr :=
  let cr := BitVec.ofNat 12 (bitsOf x.w0 24 13)
  match bitsOf x.w0 27 25 with
  | 0 => some (.crr x.core x.rd cr)
  | 1 => some (.crw x.core x.rd cr)
  | 2 => some (.crs x.core x.rd cr)
  | 3 => some (.crc x.core x.rd cr)
  | _ => none

/-- R289: the bit instructions; formats X and LX. -/
def Machine.XqWord.bits (x : XqWord) : Option Instr :=
  match bitsOf x.w0 31 28 with
  | 0 => some (.setb x.core x.bit)
  | 1 => some (.clrb x.core x.bit)
  | 2 => some (.cplb x.core x.bit)
  | 3 => some (.tstb x.core x.bit)
  | 4 => some (.getb x.core x.rd x.bit)
  | 5 => some (.putb x.core (if x.long then x.rd else x.rb) x.bit)
  | 6 => some (.movb x.core x.ra x.rb)
  | 7 => some (.bopb x.core x.ra x.rb x.rc (BitVec.ofNat 4 (bitsOf x.w0 11 8)))
  | 8 => some (.waitb x.core x.bit (bitsOf x.w0 (if x.long then 13 else 8) (if x.long then 13 else 8) == 1))
  | _ => none

/-- R298, R301: the vector and block instructions of a Filter sequencer. What the key store finds of its copies is no field of FBLK. -/
def Machine.XqWord.vector (x : XqWord) : Option Instr :=
  match x.fn with
  | 0x00 => some (.vxor x.core x.vd x.va x.vb)
  | 0x01 => some (.vshuf x.core x.vd x.va x.vb)
  | 0x04 => some (.vinc32 x.core x.vd x.va)
  | 0x05 => some (.vinc64 x.core x.vd x.va)
  | 0x06 => some (.vinc128 x.core x.vd x.va)
  | 0x07 => some (.vinc128l x.core x.vd x.va)
  | 0x08 => some (.vmovg x.core x.vd x.ra false)
  | 0x09 => some (.vmovg x.core x.vd x.ra true)
  | 0x0A => some (.vgetg x.core x.rd x.va false)
  | 0x0B => some (.vgetg x.core x.rd x.va true)
  | 0x10 => some (.fblk x.core x.vd x.va true)
  | 0x11 => some (.fblkInv x.core x.vd x.va true)
  | 0x18 => some (.fgmul x.core x.vd x.va x.vb)
  | 0x19 => some (.fgmulX x.core x.vd x.va x.vb)
  | _ => none

/-- R272: the instruction that OP and the fields select. -/
def Machine.XqWord.select (x : XqWord) : Option Instr :=
  match x.op with
  | 0x01 => x.arith
  | 0x02 => x.logic
  | 0x04 => x.atomic
  | 0x05 => (Cond.ofCode (x.fn % 16)).map fun c => .sel x.core c x.rd x.ra x.rb
  | 0x28 => x.cond.map fun c => .bcc x.core c (.short (BitVec.ofNat 20 (bitsOf x.w0 31 12)))
  | 0xA8 => x.cond.map fun c => .bcc x.core c (.long x.word1)
  | 0x29 => some (.call x.core (.short (BitVec.ofNat 24 (bitsOf x.w0 31 8))))
  | 0xA9 => some (.call x.core (.long x.word1))
  | 0x2D => some (.addds x.core x.imm14)
  | 0x2E => some (.getds x.core x.rd x.imm14)
  | 0x30 => x.control30
  | 0x35 => some (.sys x.core (BitVec.ofNat 16 (bitsOf x.w0 23 8)))
  | 0x38 | 0xB8 => x.bits
  | 0x39 => some (.bb x.core (.short x.ra (BitVec.ofNat 13 (bitsOf x.w0 31 19))) (bitsOf x.w0 18 18 == 1))
  | 0xB9 => some (.bb x.core (.long x.word1 (BitVec.ofNat 20 (bitsOf x.w0 31 12))) (bitsOf x.w0 8 8 == 1))
  | 0x3D => some (.phase x.core x.imm14)
  | 0x40 => x.vector
  | 0x41 => some (.vld x.core x.vd x.ra x.imm14)
  | 0x42 => some (.vst x.core x.vd x.ra x.imm14)
  | op => if 0x08 ≤ op % 0x80 ∧ op % 0x80 ≤ 0x23 then x.immediate (op % 0x80) else x.control

/-- R267 to R272: the instruction that word 0, and word 1 of a long form, are on a core; none for an undefined encoding (R268). It is
the command whose sender stands for that core's fetch (log 8). -/
def decodeXq (core : CoreRef) (w0 w1 : BitVec 32) : Option Instr :=
  if definedWord core w0.toNat then (XqWord.mk core w0.toNat w1.toNat).select else none

/-- The command that a word of the table spells: none, since the table gives no row any bits. -/
def decodeTableWord (_nbits _w : Nat) : Option Instr := none

end Sys2Proof
end

