-- ==== Sys2Proof/Machine/Commands.lean ====
section
/-! DEFINITION. The commands that write or read a register: each row of the table that R14 or a unit chapter gives to an agent. A row
writes its register as `nameWrite` does, so the limits on who may write, and everything the write sets off, are those of Access.lean. -/

namespace Sys2Proof.Machine

open Sys2Proof

/-- R52: a read of register space by an agent: what it returns, with its mark, is the reply. -/
def State.agentRead (s : State) (g : Agent) (a n : Nat) : State :=
  s.agentActs g fun s =>
    let x := s.regRead g.cell a n
    { x.2.2 with reply := BitVec.ofNat 64 x.1, replyPoison := x.2.1 }

/-- A write of one field of a register, its other fields as they stand. -/
def State.fieldWrite (s : State) (g : Agent) (f : Fld) (cell i v : Nat) : State :=
  s.nameWrite g f.reg cell i (putBits (s.reg f.reg cell i).toNat f.hi f.lo v)

/-- A write of a register that only some cells have. -/
def State.cellWrite (s : State) (g : Agent) (r : RegId) (cell v : Nat) : State :=
  if (cellKind cell).isSome ∧ hasReg r cell then s.nameWrite g r cell 0 v else s

/-! ## Cells and registers -/

/-- R14. -/
def execRegisterWrite (a : Agent) (t : RegTarget) (size value : Nat) (s : State) : Out := .next (s.agentWrite a t size value)

/-- R18: a write of either register of an RWP pair. -/
def execRwpPairWrite (a : Agent) (r : RegId) (cell value : Nat) (s : State) : Out :=
  .next (if (rwpFields.any fun f => f.value.reg = r ∨ f.comp.reg = r) ∨ r = .PRIM_MAP ∨ r = .PRIM_MAP_C then s.cellWrite a r cell value else s)

/-- R605: the check of the RWP value register `r`: `agree` says that the value in force and its held complement agree. -/
def execRwpComplementCheck (r : RegId) (cell : Nat) (agree : Bool) (s : State) : Out :=
  .next (if agree ∨ s.stopped ∨ !((cellKind cell).isSome && hasReg r cell) then s else s.rwpDisagree r cell)

/-- R55. -/
def execCellCtrlEnWrite (a : Agent) (cell : Nat) (en : Bool) (s : State) : Out := .next (s.cellWrite a .CELL_CTRL cell en.toNat)

/-- R61. -/
def execCellResetWrite (a : Agent) (cell : Nat) (s : State) : Out := .next (s.cellWrite a .CELL_RESET cell 1)

/-- R65. -/
def execErrStatusClear (a : Agent) (cell : Nat) (valid overflow : Bool) (s : State) : Out :=
  .next (s.cellWrite a .CELL_ERR_STATUS cell (valid.toNat + overflow.toNat * 2))

/-! ## The Primary, rings and movers -/

/-- R109. -/
def execPrimMapWrite (a : Agent) (quad : Fin 4) (complement : Bool) (value : Nat) (s : State) : Out :=
  .next (s.nameWrite a (if complement then .PRIM_MAP_C else .PRIM_MAP) (quarterCell quad.val) 0 value)

/-- R138. -/
def execPrimPause (a : Agent) (pause : Bool) (s : State) : Out := .next (s.nameWrite a .PRIM_QUEUE_CTRL qnwPrim 0 pause.toNat)

/-- R137: FLUSH, with PAUSE as it stands. -/
def execPrimQueueFlush (a : Agent) (s : State) : Out :=
  .next (s.nameWrite a .PRIM_QUEUE_CTRL qnwPrim 0 ((s.flag F.PRIM_QUEUE_CTRL_PAUSE qnwPrim).toNat + 2))

/-- R188. -/
def execRingEnWrite (a : Agent) (quad : Fin 4) (en : Bool) (s : State) : Out :=
  .next (s.nameWrite a .PLT_RING_CTRL (platesCell quad.val) 0 en.toNat)

/-- R203. -/
def execMovNoticeCountWrite (a : Agent) (m : Fin 64) (value : BitVec 32) (s : State) : Out :=
  .next (s.nameWrite a .MOV_NOTICE_COUNT (moverCell m.val) 0 value.toNat)

/-- R198. -/
def execMovQueuePause (a : Agent) (m : Fin 64) (pause : Bool) (s : State) : Out :=
  .next (s.nameWrite a .MOV_QUEUE_CTRL (moverCell m.val) 0 pause.toNat)

/-- R198: FLUSH, with PAUSE as it stands. -/
def execMovQueueFlush (a : Agent) (m : Fin 64) (s : State) : Out :=
  .next (s.nameWrite a .MOV_QUEUE_CTRL (moverCell m.val) 0 ((s.flag F.MOV_QUEUE_CTRL_PAUSE (moverCell m.val)).toNat + 2))

/-! ## Guider cores and clusters -/

/-- R307: RAISE with a code. -/
def execAttnRaise (a : Agent) (n : Fin 128) (code : BitVec 16) (s : State) : Out :=
  .next (s.nameWrite a .GDR_ATTN (guiderCell n.val) 0 (code.toNat * 2 ^ 16 + 1))

/-- R304, R305: an access of the local memory aperture of a core. -/
def execLocalApertureAccess (a : Agent) (core : CoreRef) (write : Bool) (off size value : Nat) (s : State) : Out :=
  .next (if 0x40000 ≤ off ∨ core.isFilter then s
    else if write then s.agentWrite a (.device (unitBase core.cell + off)) size value
    else s.agentRead a (unitBase core.cell + off) size)

/-- R314: a post of the item image at 64 × image. -/
def execGclPost (a : Agent) (cluster : Fin 16) (image : BitVec 42) (s : State) : Out :=
  .next (s.nameWrite a .GCL_POST (clusterCell cluster.val) 0 (image.toNat * 64))

/-- R310. -/
def execClusterPause (a : Agent) (cluster : Fin 16) (pause : Bool) (s : State) : Out :=
  .next (s.nameWrite a .GCL_QUEUE_CTRL (clusterCell cluster.val) 0 pause.toNat)

/-- R309: FLUSH, with PAUSE as it stands. -/
def execClusterFlush (a : Agent) (cluster : Fin 16) (s : State) : Out :=
  .next (s.nameWrite a .GCL_QUEUE_CTRL (clusterCell cluster.val) 0
    ((s.flag F.GCL_QUEUE_CTRL_PAUSE (clusterCell cluster.val)).toNat + 2))

/-- R320. -/
def execDbgHalt (a : Agent) (core : CoreRef) (halt : Bool) (s : State) : Out :=
  .next (s.cellWrite a .GDR_DBG_CTRL core.cell halt.toNat)

/-- R320: STEP of a core with HALT 1. -/
def execDbgStep (a : Agent) (core : CoreRef) (s : State) : Out := .next (s.cellWrite a .GDR_DBG_CTRL core.cell 3)

/-- R321. -/
def execDbgRegDataAccess (a : Agent) (core : CoreRef) (write : Bool) (value : Word) (s : State) : Out :=
  .next (if !hasReg .GDR_DBG_REG_DATA core.cell then s
    else if write then s.nameWrite a .GDR_DBG_REG_DATA core.cell 0 value.toNat
    else s.nameRead a .GDR_DBG_REG_DATA core.cell 0)

/-! ## The Collector -/

/-- R359: a command on a slot. -/
def State.colCmdWrite (s : State) (a : Agent) (cmd slot : Nat) : State := s.nameWrite a .COL_CMD colCell 0 (cmd + slot * 2 ^ 16)

/-- R330. -/
def execColOpen (a : Agent) (s : State) : Out := .next (s.colCmdWrite a 1 0)
/-- R357. -/
def execColClose (a : Agent) (slot : Fin 1024) (s : State) : Out := .next (s.colCmdWrite a 2 slot.val)
/-- R356. -/
def execColAbort (a : Agent) (slot : Fin 1024) (s : State) : Out := .next (s.colCmdWrite a 3 slot.val)
/-- R357. -/
def execColReset (a : Agent) (slot : Fin 1024) (s : State) : Out := .next (s.colCmdWrite a 4 slot.val)
/-- R355. -/
def execColMemberFail (a : Agent) (slot : Fin 1024) (s : State) : Out := .next (s.colCmdWrite a 5 slot.val)

/-- The register of a binding. -/
def BindReg.id : BindReg → RegId
  | .ctrl => .COL_BINDb_CTRL
  | .range => .COL_BINDb_RANGE
  | .win => .COL_BINDb_WIN
  | .step => .COL_BINDb_STEP

/-- R360. -/
def execBindingRegWrite (a : Agent) (reg : BindReg) (b : Fin 64) (value : Word) (s : State) : Out :=
  .next (s.nameWrite a reg.id colCell b.val value.toNat)

/-! ## Transit -/

/-- R370. -/
def execConnEnWrite (a : Agent) (c : Fin 65536) (en : Bool) (s : State) : Out := .next (s.nameWrite a .TRN_CONNc_CTRL trnCell c.val en.toNat)

/-- R390. -/
def execTrnSqTailWrite (a : Agent) (q : Fin 4096) (tail : BitVec 16) (s : State) : Out :=
  .next (s.fieldWrite a F.TRN_SQq_PTR_TAIL trnCell q.val tail.toNat)

/-- R392. -/
def execTrnCqEnable (a : Agent) (q : Fin 4096) (s : State) : Out := .next (s.fieldWrite a F.TRN_CQq_CFG_EN trnCell q.val 1)

/-- R386, R397. -/
def execRegionValidate (a : Agent) (index : BitVec 20) (s : State) : Out :=
  .next (s.nameWrite a .TRN_REGION_CMD trnCell 0 (1 + index.toNat * 2 ^ 12))

/-- R388. -/
def execRegionRevoke (a : Agent) (index : BitVec 20) (s : State) : Out :=
  .next (s.nameWrite a .TRN_REGION_CMD trnCell 0 (2 + index.toNat * 2 ^ 12))

/-! ## The Spectrograph and Shutter -/

/-- R419, R421: a command of the Spectrograph. -/
def State.spgCmdWrite (s : State) (a : Agent) (cmd port count : Nat) : State :=
  s.nameWrite a .SPG_CMD spgCell 0 (cmd + port * 2 ^ 4 + count * 2 ^ 16)

/-- R419. -/
def execLoadBank (a : Agent) (p : Fin 8) (count : BitVec 15) (s : State) : Out := .next (s.spgCmdWrite a 1 p.val count.toNat)
/-- R419. -/
def execSwapBank (a : Agent) (p : Fin 8) (s : State) : Out := .next (s.spgCmdWrite a 2 p.val 0)
/-- R419. -/
def execLoadPatterns (a : Agent) (count : BitVec 15) (s : State) : Out := .next (s.spgCmdWrite a 3 0 count.toNat)
/-- R419. -/
def execSwapPatterns (a : Agent) (s : State) : Out := .next (s.spgCmdWrite a 4 0 0)
/-- R421. -/
def execLoadSanctum (a : Agent) (count : BitVec 15) (s : State) : Out := .next (s.spgCmdWrite a 5 0 count.toNat)

/-- R426. -/
def execRxqEnable (a : Agent) (q : Fin 4096) (s : State) : Out := .next (s.fieldWrite a F.SPG_RXQq_CFG_EN spgCell q.val 1)

/-- R425. -/
def execRxqTailWrite (a : Agent) (q : Fin 4096) (tail : BitVec 16) (s : State) : Out :=
  .next (s.fieldWrite a F.SPG_RXQq_PTR_TAIL spgCell q.val tail.toNat)

/-- R451. -/
def execTxrEnable (a : Agent) (r : Fin 1024) (s : State) : Out := .next (s.fieldWrite a F.SHT_TXRr_CFG_EN shtCell r.val 1)

/-- R451. -/
def execTxrTailWrite (a : Agent) (r : Fin 1024) (tail : BitVec 16) (s : State) : Out :=
  .next (s.fieldWrite a F.SHT_TXRr_PTR_TAIL shtCell r.val tail.toNat)

/-! ## The Catalogue -/

/-- R462. -/
def execCatSqTailWrite (a : Agent) (q : Fin 4096) (tail : BitVec 16) (s : State) : Out :=
  .next (s.fieldWrite a F.CAT_Qq_PTR_SQ_TAIL catCell q.val tail.toNat)

/-- R476. -/
def execCatQueueEnWrite (a : Agent) (q : Fin 4096) (en : Bool) (s : State) : Out :=
  .next (s.nameWrite a .CAT_Qq_CTRL catCell q.val en.toNat)

/-- R477. -/
def execCatQueueReset (a : Agent) (q : Fin 4096) (s : State) : Out := .next (s.nameWrite a .CAT_Qq_CTRL catCell q.val 2)

/-! ## PCI Express ports and virtual functions -/

/-- R500. -/
def execIrqRaise (a : Agent) (source : BitVec 4) (s : State) : Out := .next (s.nameWrite a .PCI_IRQ_RAISE pciCell 0 source.toNat)

/-- R517: an access of `PCI_DP_CFG_DATA`; `status` and `data` are the outcome that the device below gives. -/
def execDpCfgDataAccess (a : Agent) (k : Fin 24) (write : Bool) (value : BitVec 32) (status : BitVec 3) (data : BitVec 32)
    (s : State) : Out :=
  .next (s.agentActs a fun s =>
    let x := s.dpCfgAccess k.val write value.toNat status.toNat data.toNat
    if write then x.2 else { x.2 with reply := BitVec.ofNat 64 x.1, replyPoison := false })

/-- R519: DPC Trigger Status of a downstream port, written in its configuration space, is cleared. -/
def execDpcRelease (a : Agent) (k : Fin 24) (s : State) : Out :=
  .next (s.agentWrite a (.device (unitBase (downCell k.val) + 0x158)) 4 1)

/-- R531: EN of a VF goes to 0. -/
def execVfShutdown (a : Agent) (p : Fin 2) (v : Fin 256) (s : State) : Out := .next (s.nameWrite a .PCI_VFv_CTRL (upCell p.val) v.val 0)

/-- R534: EN of a VF goes to 1. -/
def execVfEnable (a : Agent) (p : Fin 2) (v : Fin 256) (s : State) : Out := .next (s.nameWrite a .PCI_VFv_CTRL (upCell p.val) v.val 1)

/-- R537: SWAP, with LOG_EN as it stands. -/
def execDirtySwap (a : Agent) (p : Fin 2) (v : Fin 256) (s : State) : Out :=
  .next (s.nameWrite a .PCI_VFv_DIRTY_CTRL (upCell p.val) v.val
    ((s.flag F.PCI_VFv_DIRTY_CTRL_LOG_EN (upCell p.val) v.val).toNat + 4))

/-- R538. -/
def execDirtyLogEnWrite (a : Agent) (p : Fin 2) (v : Fin 256) (en : Bool) (s : State) : Out :=
  .next (s.nameWrite a .PCI_VFv_DIRTY_CTRL (upCell p.val) v.val en.toNat)

/-! ## Filter, the key store and the root of trust -/

/-- R541. -/
def execFltTailWrite (a : Agent) (q : Fin 256) (tail : BitVec 16) (s : State) : Out :=
  .next (s.fieldWrite a F.FLT_Qq_PTR_TAIL fltCell q.val tail.toNat)

/-- R541. -/
def execFltQueueEnable (a : Agent) (q : Fin 256) (s : State) : Out := .next (s.fieldWrite a F.FLT_Qq_CFG_EN fltCell q.val 1)

/-- R554: the word of a load command. -/
def keyLoadWord (cmd : Nat) (index : BitVec 14) (size check enc dec wrap : Bool) : Nat :=
  cmd + size.toNat * 4 + check.toNat * 8 + enc.toNat * 16 + dec.toNat * 32 + wrap.toNat * 64 + index.toNat * 2 ^ 16

/-- R554. -/
def execLoadPlain (a : Agent) (index : BitVec 14) (size check enc dec wrap : Bool) (s : State) : Out :=
  .next (s.nameWrite a .KEY_CMD keyCell 0 (keyLoadWord 1 index size check enc dec wrap))

/-- R554. -/
def execLoadWrapped (a : Agent) (index : BitVec 14) (size check enc dec wrap : Bool) (s : State) : Out :=
  .next (s.nameWrite a .KEY_CMD keyCell 0 (keyLoadWord 2 index size check enc dec wrap))

/-- R555. -/
def execErase (a : Agent) (index : BitVec 14) (s : State) : Out := .next (s.nameWrite a .KEY_CMD keyCell 0 (3 + index.toNat * 2 ^ 16))

/-- R562. -/
def execVerify (a : Agent) (s : State) : Out := .next (s.nameWrite a .ROT_CMD rotCell 0 1)
/-- R561. -/
def execRecoveryBoot (a : Agent) (s : State) : Out := .next (s.nameWrite a .ROT_CMD rotCell 0 2)
/-- R563. -/
def execSvnCommit (a : Agent) (s : State) : Out := .next (s.nameWrite a .ROT_CMD rotCell 0 3)
/-- R564. -/
def execRevokeKey (a : Agent) (s : State) : Out := .next (s.nameWrite a .ROT_CMD rotCell 0 4)
/-- R565. -/
def execDebugUnlock (a : Agent) (s : State) : Out := .next (s.nameWrite a .ROT_CMD rotCell 0 5)

/-- R698: a flash command over 256-byte pages from a byte offset. -/
def State.flashWrite (s : State) (a : Agent) (cmd off pages : Nat) : State :=
  s.nameWrite a .ROT_FLASH_CMD rotCell 0 (cmd + off * 2 ^ 8 + pages * 2 ^ 48)

/-- R699. -/
def execFlashRead (a : Agent) (offset : BitVec 26) (pages : BitVec 9) (s : State) : Out := .next (s.flashWrite a 1 offset.toNat pages.toNat)
/-- R699. -/
def execFlashErase (a : Agent) (offset : BitVec 26) (s : State) : Out := .next (s.flashWrite a 2 offset.toNat 0)
/-- R699. -/
def execFlashProgram (a : Agent) (offset : BitVec 26) (pages : BitVec 9) (s : State) : Out :=
  .next (s.flashWrite a 3 offset.toNat pages.toNat)

/-! ## Ephemeris, memory integrity, clocks and resets -/

/-- R576. -/
def execEphCmdqTailWrite (a : Agent) (tail : BitVec 16) (s : State) : Out :=
  .next (s.fieldWrite a F.EPH_CMDQ_PTR_TAIL ephCell 0 tail.toNat)

/-- R602: a write of a flip control register with ARM 1. -/
def execFlipArm (a : Agent) (t : FlipTarget) (value : BitVec 32) (s : State) : Out :=
  let v := putBits value.toNat 0 0 1
  .next (match t with
    | .stack n => s.nameWrite a .SMC_FLIP_CTRL (smcCell n.val) 0 v
    | .plates q => s.nameWrite a .PLT_FLIP_CTRL (platesCell q.val) 0 v)

/-- R613: RELEASE, with FW_FAULT as it stands. -/
def execSafeRelease (a : Agent) (s : State) : Out := .next (s.fieldWrite a F.CHR_SAFE_CTRL_RELEASE chrCell 0 1)

/-- R618. -/
def execTbStep (a : Agent) (offset : Word) (s : State) : Out := .next (s.nameWrite a .CHR_TB_STEP chrCell 0 offset.toNat)

/-- R619. -/
def execTxtsTimeRead (a : Agent) (p : Fin 8) (s : State) : Out := .next (s.nameRead a .CHR_TXTSp_TIME chrCell p.val)

/-- R623. -/
def execWarmResetReq (a : Agent) (s : State) : Out := .next (s.nameWrite a .CHR_RESET_REQ chrCell 0 1)

/-! ## Heliostat, Dome cores and the host -/

/-- R639. -/
def execHelDerate (a : Agent) (cell : BitVec 16) (steps : BitVec 8) (s : State) : Out :=
  .next (s.nameWrite a .HEL_DERATE helCell 0 (cell.toNat + steps.toNat * 2 ^ 16))

/-- R655. -/
def execWdtKick (a : Agent) (n : Fin 8) (s : State) : Out := .next (s.nameWrite a .DOM_COREn_WDT_KICK domeSub n.val 1)

/-- R663: the host of a port writes its heartbeat. -/
def execHostHeartbeat (p : Fin 2) (count : BitVec 32) (s : State) : Out :=
  .next (s.nameWrite (.host p) .DOM_HOST_HEARTBEAT domeSub p.val count.toNat)

/-- R664. -/
def execAttach (a : Agent) (p : Fin 2) (s : State) : Out := .next (s.nameWrite a .DOM_HOST_ATTACH domeSub p.val 1)

/-- R677: EN set, with a period. -/
def execExposureEnable (a : Agent) (periodUs : BitVec 20) (s : State) : Out :=
  .next (s.nameWrite a .PHOT_EXP_CTRL 0 0 (1 + periodUs.toNat * 2 ^ 12))

end Sys2Proof.Machine
end

