-- ==== Sys2Proof/Machine/CoreEvents.lean ====
section
/-! DEFINITION. The events of the XQ cores: an interrupt taken, the time base at tcmp, and the start of a core (R222, R260, R261,
R306, R651). -/

namespace Sys2Proof.Machine

open Sys2Proof

/-- R260: a pending interrupt is taken at an instruction boundary, or in the sleep of a WAITB. -/
def execInterruptTake (core : CoreRef) (s : State) : Out :=
  let k := s.core core
  .next (if !k.running ∨ s.stopped ∨ s.halted core then s
  else match s.takeable core with
    | some i => s.takeInterrupt core i
    | none => s)

/-- R617, R618: let the time base run until it has come to a time; a slew holds back at most half of each stretch. -/
def State.runTo (s : State) (t : Nat) : (fuel : Nat) → State
  | 0 => s
  | n + 1 => if t ≤ s.now then s else (s.advanceNs ((((t - s.now) * 2 ^ 32 - s.timeFrac) + s.tbRate - 1) / s.tbRate)).runTo t n

/-- R261: the time base comes to `tcmp` of a core whose timer is enabled, and TIMER becomes pending. -/
def execTcmpTimer (core : CoreRef) (s : State) : Out :=
  let k := s.core core
  .next (if s.stopped ∨ core.isFilter ∨ !(k.crGet core 0x41).getLsbD 0 then s else s.runTo (k.crGet core 0x40).toNat 128)

/-- R306: a guider core whose cell has become ENABLED starts, with the state and pc it took in that cycle (`coreUp`). -/
def execGuiderCoreStart (n : Fin 128) (s : State) : Out :=
  let c := CoreRef.guider n
  .next (if s.enabled c.cell ∧ !(s.core c).running then s.startCore c else s)

end Sys2Proof.Machine
end

