-- ==== Sys2Proof/Machine/Events.lean ====
section
/-! DEFINITION. The events of the units that no register write makes: what arrives from outside the part, the timers, and the work that
the engines take up on their own. A command of a timer or a deadline says that its interval has run out. An event whose condition does
not hold has no effect. -/

namespace Sys2Proof.Machine

open Sys2Proof

/-- What waited on another unit goes on: held writes from below the downstream ports (R335), what host accesses, Transit and the internal
queues have brought, and the LEVEL bits (R248). -/
def State.tidy (s : State) : State :=
  ((List.range 24).foldl (fun (s : State) k => s.heldRetry k) s).settle.noteLevels

/-- R612, R688: while no island runs nothing happens; else an event takes place, and what waited for it goes on. -/
def State.happen (s : State) (f : State → State) : State := if s.stopped then s else (f s).tidy

/-! ## The Collector -/

/-- R344, R604: element j of a run is marked by an error: by one in its line of the intake, or in its own accumulator. -/
def RunUpset.strikes (w j : Nat) : RunUpset → Bool
  | .intake k bad => bad && k * w / 64 == j * w / 64
  | .accumulator k bad => bad && k == j

/-- R344, R604: the elements of a run, with the marks that the errors it meets give them. -/
def RunIn.struck (r : RunIn) : List (Nat × Bool) :=
  let w := ((Fmt.ofCode r.fmt).getD .fp32).width / 8
  r.elems.zipIdx.map fun e => (e.1.1, e.1.2 || r.upsets.any (RunUpset.strikes w e.2))

/-- R604: the errors that a run meets are recorded in the Collector cell. -/
def State.runUpsets (s : State) (us : List RunUpset) : State :=
  us.foldl (fun s u => s.bufErr colCell (match u with
    | .intake _ bad => if bad then .bad else .corrected
    | .accumulator _ bad => if bad then .bad else .corrected)) s

/-- R332, R335: a run arrives now. One from a local source that must be held stays at its source. -/
def State.runArrive (s : State) (r : RunIn) : State :=
  let run : ColRun := ⟨r.conn, r.result, r.fmt, r.rank, r.collId, r.step, r.offset, r.struck, s.now, 0⟩
  match r.conn with
  | some _ => ((s.runUpsets r.upsets).colTransitRun run).colSettle
  | none => if s.colHolds run false then s else ((s.runUpsets r.upsets).colArrive run).colSettle

/-- R334. -/
def execCollectiveRunArrive (run : RunIn) (s : State) : Out := .next (s.happen fun s => s.runArrive run)

/-- R515: a bus address below port k lies in its Collector window. -/
def State.inColWindow (s : State) (k a n : Nat) : Bool := (s.inWindow k a n).any fun w => s.flag F.PCI_DP_INWw_BUS_COLL (downCell k) w

/-- R337. -/
def execBindingWrite (k : Fin 24) (addr : Nat) (bytes : List (BitVec 8)) (ep : Bool) (s : State) : Out :=
  .next (s.happen fun s => if s.inColWindow k.val addr bytes.length then s.inbound k.val (.write addr bytes ep) else s)

/-- R336: run i of the egress goes to Transit. R326, R350: a RESULT waits until its round is the current one. -/
def execEgressRunSend (i : Nat) (s : State) : Out :=
  .next (s.happen fun s => match s.col.egress[i]? with
    | some g => if g.result ∧ g.step ≠ s.colStep g.slot then s else s.sendRun g
    | none => s)

/-- R348. -/
def execChunkComplete (slot : Fin 1024) (chunk : Nat) (next : Bool) (s : State) : Out :=
  .next (s.happen fun s => (s.chunkComplete slot.val chunk next).colSettle)

/-- R349. -/
def execProgramItemRepost (slot : Fin 1024) (s : State) : Out :=
  .next (s.happen fun s => if s.colState slot.val = 0 then s else s.repostItems slot.val (s.colSlot slot.val).items)

/-- R355. -/
def execRoundTimeout (slot : Fin 1024) (s : State) : Out := .next (s.happen fun s => s.roundTimeout slot.val)

/-! ## Transit: connections -/

/-- R371. -/
def execConnectRetry (c : Fin 65536) (s : State) : Out :=
  .next (s.happen fun s => if s.connPstate c.val = psConnecting then s.sendConnect c.val else s)

/-- R371, CAUSE CONNECT_TIMEOUT. -/
def execConnectTimeout (c : Fin 65536) (s : State) : Out :=
  .next (s.happen fun s => if s.connPstate c.val = psConnecting then s.connFail c.val 3 else s)

/-- R374. -/
def execDisconnectRetry (c : Fin 65536) (s : State) : Out :=
  .next (s.happen fun s =>
    if s.connPstate c.val = psDraining ∧ (s.conn c.val).closing then s.trnSend c.val 0 { type := tDisconnect } else s)

/-- R374. -/
def execDrainTimeout (c : Fin 65536) (s : State) : Out :=
  .next (s.happen fun s => if s.connPstate c.val = psDraining then s.connIdle c.val else s)

/-! ## Transit: packets -/

/-- R376, R430: a packet of one type reaches Transit while classification runs. -/
def State.packet (s : State) (type : Nat) (k : TrnPkt) : State :=
  s.happen fun s => if k.type = type ∧ s.classifying ∧ s.trnShape k then s.trnReceive k else s

/-- R372. -/
def execTransitConnect (k : TrnPkt) (s : State) : Out := .next (s.packet tConnect k)
/-- R372. -/
def execTransitConnectReply (k : TrnPkt) (s : State) : Out := .next (s.packet tConnectReply k)
/-- R373. -/
def execTransitDisconnect (k : TrnPkt) (s : State) : Out := .next (s.packet tDisconnect k)
/-- R374. -/
def execTransitDisconnectReply (k : TrnPkt) (s : State) : Out := .next (s.packet tDisconnectReply k)
/-- R385. -/
def execTransitWrite (k : TrnPkt) (s : State) : Out := .next (s.packet tWrite k)
/-- R385. -/
def execTransitReadReq (k : TrnPkt) (s : State) : Out := .next (s.packet tReadReq k)
/-- R385. -/
def execTransitReadResp (k : TrnPkt) (s : State) : Out := .next (s.packet tReadResp k)
/-- R367. -/
def execTransitAtomic (k : TrnPkt) (s : State) : Out := .next (s.packet tAtomic k)
/-- R385. -/
def execTransitAtomicResp (k : TrnPkt) (s : State) : Out := .next (s.packet tAtomicResp k)
/-- R377. -/
def execTransitCollective (k : TrnPkt) (s : State) : Out := .next (s.packet tCollective k)
/-- R382. -/
def execTransitAck (k : TrnPkt) (s : State) : Out := .next (s.packet tAck k)
/-- R380. -/
def execTransitNak (k : TrnPkt) (s : State) : Out := .next (s.packet tNak k)

/-! ## Transit: timers, queues, regions -/

/-- R383. -/
def execLossyRetransmitTimer (c : Fin 65536) (path : Fin 16) (psn : Nat) (s : State) : Out :=
  .next (s.happen fun s => s.lossyTimer c.val path.val psn)

/-- R380. -/
def execPathTimer (c : Fin 65536) (path : Fin 16) (s : State) : Out := .next (s.happen fun s => s.pathTimer c.val path.val)

/-- R384. -/
def execAckTimer (c : Fin 65536) (path : Fin 16) (s : State) : Out := .next (s.happen fun s => s.ackTimer c.val path.val)

/-- R379. -/
def execCreditReturnTimer (c : Fin 65536) (coll : Bool) (s : State) : Out := .next (s.happen fun s => s.creditReturn c.val coll)

/-- R379. -/
def execCreditAckTimer (c : Fin 65536) (s : State) : Out := .next (s.happen fun s => s.creditTimer c.val)

/-- R398. -/
def execDoorbellPoll (t : PollTarget) (s : State) : Out :=
  .next (s.happen fun s => match t with
    | .sendQueue q => s.sqPoll q.val
    | .catalogue q => s.catPoll q.val
    | .txRing r => s.txrPoll r.val
    | .filter q => s.fltPoll q.val
    | .ephemeris => s.ephPoll)

/-- R391. An entry whose OPC is none of R391 is taken here too. -/
def execSqWrite (q : Fin 4096) (s : State) : Out := .next (s.happen fun s => s.sqStart q.val 1)
/-- R391. -/
def execSqRead (q : Fin 4096) (s : State) : Out := .next (s.happen fun s => s.sqStart q.val 2)
/-- R391. -/
def execSqAtomic (q : Fin 4096) (s : State) : Out := .next (s.happen fun s => s.sqStart q.val 3)

/-- R392, R481: an entry is posted; the queue of `CAT_XCQ` is consumed by the Catalogue. -/
def execCqEntryPost (q : Fin 4096) (s : State) : Out :=
  .next (s.happen fun s => match s.cqPost q.val with
    | (some e, s) => (s.grantAll.creditAckAll).catNotify q.val e
    | (none, s) => s)

/-- R388. -/
def execRevokeComplete (index : BitVec 20) (s : State) : Out := .next (s.happen fun s => s.revokeDone index.toNat)

/-! ## Ethernet, the Spectrograph and Shutter -/

/-- R408: `bytes` ends before the FCS; `fcsOk` is what the port finds of it. -/
def execFrameReceive (p : Fin 8) (half : Fin 2) (bytes : List (BitVec 8)) (fcsOk : RxCheck) (s : State) : Out :=
  .next (s.happen fun s => (s.frameReceive p.val half.val bytes fcsOk.ok fcsOk.err).shtUpdate)

/-- R423. -/
def execFlowAgeOut (flow : Nat) (s : State) : Out :=
  .next (s.happen fun s => if (s.flowAt flow).isSome then s.flowAge flow else s)

/-- R402: no half gains link while the reference fails or the safe states hold (R611). -/
def execEthLinkChange (p : Fin 8) (half : Fin 2) (up : Bool) (s : State) : Out :=
  .next (s.happen fun s =>
    if up ∧ (s.flag F.CHR_STATUS_SAFE chrCell ∨ !s.srcStable .ethRef) then s else (s.ethLinkChange p.val half.val up).shtUpdate)

/-- R407. -/
def execPfcReceive (p : Fin 8) (half : Fin 2) (prio : Fin 8) (quanta : BitVec 16) (s : State) : Out :=
  .next (s.happen fun s =>
    if s.ethLink p.val half.val then (s.pfcReceive p.val half.val prio.val quanta.toNat).shtUpdate else s)

/-- R405. -/
def execPfcRefresh (p : Fin 8) (half : Fin 2) (prio : Fin 8) (s : State) : Out := .next (s.happen fun s => s.pfcRefresh p.val half.val prio.val)

/-- R405. -/
def execPfcXonSend (p : Fin 8) (half : Fin 2) (prio : Fin 8) (s : State) : Out := .next (s.happen fun s => s.pfcXon p.val half.val prio.val)

/-- R407. -/
def execPfcPauseExpiry (p : Fin 8) (half : Fin 2) (prio : Fin 8) (s : State) : Out :=
  .next (s.happen fun s => (s.pfcExpire p.val half.val prio.val).shtUpdate)

/-- R432. -/
def execSpgCmdComplete (s : State) : Out := .next (s.happen State.spgComplete)

/-- R424. -/
def execFlowMeterRefill (flow bytes : Nat) (s : State) : Out := .next (s.happen fun s => s.meterRefill flow bytes)

/-- R439. -/
def execHeldFrameAdmit (s : State) : Out := .next (s.happen fun s => s.heldAdmit.shtUpdate)

/-- R442: port node 11 is the loop of R436. A quiesce sends what has been admitted (R449). -/
def execShutterSelect (p : ShtSelect) (s : State) : Out :=
  .next (s.happen fun s => if !s.shtSends then s else if p.port.val = 11 then s.selectLoop p.err else s.selectPort p.port.val p.err)

/-- R445. -/
def execBucketRefill (level : Fin 3) (s : State) : Out := .next (s.happen fun s => s.refillLevel level.val)

/-- R451. -/
def execTxRingEntry (r : Fin 1024) (s : State) : Out := .next (s.happen fun s => (s.txrTake r.val).shtUpdate)

/-! ## The Catalogue -/

/-- R462. -/
def execCatEntryTake (q : Fin 4096) (s : State) : Out := .next (s.happen fun s => s.catEntryTake q.val)

/-- R465. Queue 4,096 + m is the internal queue of mover m, and 4,160 that of Ephemeris. -/
def execCatRead (q slot : Nat) (s : State) : Out := .next (s.happen fun s => s.catAdvance q slot opRead)
/-- R464. -/
def execCatWrite (q slot : Nat) (s : State) : Out := .next (s.happen fun s => s.catAdvance q slot opWrite)
/-- R467. -/
def execCatFlush (q slot : Nat) (s : State) : Out := .next (s.happen fun s => s.catAdvance q slot opFlush)
/-- R468. -/
def execCatDeallocate (q slot : Nat) (s : State) : Out := .next (s.happen fun s => s.catAdvance q slot opDealloc)

/-- R464. -/
def execBackendWriteback (seg : Nat) (s : State) : Out := .next (s.happen fun s => s.writeBack seg)

/-- R470: the last attempt at an issued segment has failed, with a cause of R472. -/
def State.writeFail (s : State) (seg cause status : Nat) : State :=
  match s.cat.becmds.find? fun b => b.owner == .seg seg && !b.late with
  | none => s
  | some b =>
    if cause ≠ stMedia ∧ cause ≠ stUnavailable ∧ cause ≠ stTimeout then s
    else
      let s := s.setCat { s.cat with becmds := s.cat.becmds.filter fun d => !(d.be == b.be && d.id == b.id) }
      if b.stale then s.beDiscard b else s.segFail seg cause status true

/-- R470. -/
def execBackendWriteFail (seg : Nat) (cause : BitVec 8) (status : BitVec 15) (s : State) : Out :=
  .next (s.happen fun s => s.writeFail seg cause.toNat status.toNat)

/-- R475. -/
def execBackendTimeout (be : Fin 1024) (id : Nat) (s : State) : Out := .next (s.happen fun s => s.beTimeout be.val id)

/-- R457. -/
def execNvmeCqPoll (be : Fin 1024) (s : State) : Out := .next (s.happen fun s => s.catNvmePoll be.val)

/-- R482. -/
def execProgramBackendResponse (be : Fin 1024) (s : State) : Out := .next (s.happen fun s => s.programPoll be.val)

/-- R481. -/
def execRemoteBackendCompletion (be : Fin 1024) (entry : List (BitVec 32)) (s : State) : Out :=
  .next (s.happen fun s => s.remoteDone be.val entry)

/-- R477. -/
def execCatQueueResetComplete (q : Fin 4096) (s : State) : Out := .next (s.happen fun s => s.catResetDone q.val)

/-! ## PCI Express ports -/

/-- R486, R611, R627: a link comes up only while the reference is good, no safe state holds, and no reset of the port is asserted. -/
def State.mayLink (s : State) (j : Nat) : Bool :=
  !s.flag F.CHR_STATUS_SAFE chrCell && s.srcStable .pcieRef
    && (if j < 2 then s.chr.up && !s.inputOn (1 + j) else s.chr.released.contains (j - 2))

/-- R486. -/
def execPcieLinkChange (j : Fin 26) (up : Bool) (speed : BitVec 4) (width : BitVec 6) (flit : Bool) (s : State) : Out :=
  .next (s.happen fun s => if up ∧ !s.mayLink j.val then s else s.linkChange j.val up speed.toNat width.toNat flit)

/-- R511. -/
def execUpstreamFundamentalReset (p : Fin 2) (s : State) : Out := .next (s.happen fun s => s.fundamental p.val)

/-- R498. -/
def execPfDoorbellWrite (p : Fin 2) (off : Nat) (value : BitVec 32) (s : State) : Out :=
  .next (s.happen fun s => s.pfDoorbell p.val off value.toNat)

/-- R495. -/
def execBar4Write (p : Fin 2) (off : Nat) (bytes : List (BitVec 8)) (ep : Bool) (s : State) : Out :=
  .next (s.happen fun s => s.bar4Write p.val off bytes ep)

/-- R501. -/
def execMsixSend (source : Fin 13328) (s : State) : Out := .next (s.happen fun s => s.routeSend source.val)

/-- R506. -/
def execCompletionTimeout (j : Fin 26) (tag : Nat) (s : State) : Out := .next (s.happen fun s => s.requestTimeout j.val tag)

/-- R506. -/
def execTagQuarantineEnd (p : Fin 2) (tag : Nat) (s : State) : Out := .next (s.happen fun s => (s.quarantineEnd p.val tag).pciePump)

/-- R507. -/
def execPcieCompletionReceive (p : Fin 2) (tag status : Nat) (body : CplBody) (ep : Bool) (s : State) : Out :=
  .next (s.happen fun s => s.hostCompletion p.val tag status body ep)

/-- R504. -/
def execAtsInvalidation (p : Fin 2) (fn : Fin 257) (addr size : Nat) (s : State) : Out :=
  .next (s.happen fun s => if s.fnExists p.val fn.val then s.invalidate p.val fn.val addr size else s)

/-- R508. -/
def execBmeClear (p : Fin 2) (fn : Fin 257) (s : State) : Out := .next (s.happen fun s => s.bmeClear p.val fn.val)

/-- R508. -/
def execBmeSet (p : Fin 2) (fn : Fin 257) (s : State) : Out := .next (s.happen fun s => s.bmeOn p.val fn.val)

/-- R509. -/
def execFlrStart (p : Fin 2) (fn : Fin 257) (s : State) : Out := .next (s.happen fun s => s.flrStart p.val fn.val)

/-- R510. -/
def execFlrComplete (p : Fin 2) (fn : Fin 257) (s : State) : Out := .next (s.happen fun s => s.flrComplete p.val fn.val)

/-- R516. -/
def execInboundRequest (k : Fin 24) (r : InRequest) (s : State) : Out := .next (s.happen fun s => s.inbound k.val r)

/-- R518. A port without its link has nothing to contain. -/
def execDpcTrigger (k : Fin 24) (cause : DpcCause) (s : State) : Out :=
  .next (s.happen fun s => if s.dpUp (2 + k.val) then s.dpcTrigger k.val cause else s)

/-- R520. -/
def execPresenceChange (k : Fin 24) (on : Bool) (s : State) : Out := .next (s.happen fun s => s.presence k.val on)

/-- R512. -/
def execPcieLinkError (j : Fin 26) (e : LinkError) (header : List (BitVec 32)) (s : State) : Out :=
  .next (s.happen fun s => s.linkError j.val e header)

/-! ## Virtual functions -/

/-- R532. -/
def execVfShutdownComplete (p : Fin 2) (v : Fin 256) (s : State) : Out := .next (s.happen fun s => s.vfShutdownDone p.val v.val)

/-- R525. -/
def execVfDoorbellWrite (p : Fin 2) (v page : Fin 256) (off : BitVec 12) (bytes : List (BitVec 8)) (ep : Bool) (s : State) : Out :=
  .next (s.happen fun s => s.vfBar2Write p.val v.val page.val off.toNat bytes ep)

/-- R537. -/
def execDirtySwapComplete (p : Fin 2) (v : Fin 256) (s : State) : Out := .next (s.happen fun s => s.dirtySwapped p.val v.val)

/-! ## Filter and the root of trust -/

/-- R543. -/
def execFilterDescStart (s : State) : Out := .next (s.happen State.fltStart)

/-- R549. -/
def execFilterDescComplete (u : Fin 40) (s : State) : Out := .next (s.happen fun s => s.fltComplete u)

/-- R549. -/
def execFilterStallTimeout (u : Fin 40) (s : State) : Out := .next (s.happen fun s => s.fltStall u)

/-- R555. -/
def execKeyEraseComplete (index : BitVec 14) (s : State) : Out := .next (s.happen fun s => s.keyEraseComplete index.toNat)

/-- R560: `agree` says that the fuses read equal to their complement row. -/
def execSecureBoot (agree : Bool) (s : State) : Out := .next (s.happen fun s => s.secureBoot agree)

/-- R568. -/
def execRotCmdDone (s : State) : Out := .next (s.happen State.rotCmdDone)

/-- R700. -/
def execFlashCmdDone (error : Bool) (s : State) : Out := .next (s.happen fun s => s.flashCmdDone error)

/-! ## Ephemeris -/

/-- R578. -/
def execBoundary (s : State) : Out := .next (s.happen State.ephBoundary)
/-- R586. -/
def execRollback (s : State) : Out := .next (s.happen State.ephRollback)
/-- R587. -/
def execRestore (s : State) : Out := .next (s.happen State.ephRestore)
/-- R574. -/
def execEndEpoch (s : State) : Out := .next (s.happen State.ephEndEpoch)
/-- R579. -/
def execEphDrain (s : State) : Out := .next (s.happen State.drainStep)
/-- R583. -/
def execEphDestCommit (d : Fin 2) (s : State) : Out := .next (s.happen fun s => s.destCommit d.val)
/-- R583. -/
def execEphDrainEnd (s : State) : Out := .next (s.happen State.drainEnd)
/-- R585. -/
def execEphWarnSample (s : State) : Out := .next (s.happen State.warnSample)

end Sys2Proof.Machine
end

