-- ==== Sys2Proof/Machine/Feeding.lean ====
section
/-! DEFINITION. Whether a Primary operation is staged (R194): its extents and rings, its output and write-behinds, and the budget of stack
memory, hub links and Plates. -/

namespace Sys2Proof.Machine

open Sys2Proof

/-- A stream of the feed paths: the quadrant of its unit, its extent, its largest rate and its rate averaged over a chunk, in bytes per
array cycle. -/
structure FeedStream where
  quad : Nat
  ext : Extent
  peak : Rat
  mean : Rat
  deriving DecidableEq, Repr

/-- The streams of units on two quadrants that share an extent evenly. -/
def pairStreams (q r : Nat) (e : Extent) (peak mean : Rat) : List FeedStream := [⟨q, e, peak, mean⟩, ⟨r, e, peak, mean⟩]

/-- R131, R150: the elements of an array cycle of the A stream. -/
def PrimDesc.elemsPerCycle (d : PrimDesc) : Nat := if d.kind = 3 then 2048 else d.kTile

/-- R126: the slots of a full chunk, or of the only one. -/
def PrimDesc.budgetSlots (d : PrimDesc) : Nat :=
  if d.kind = 3 then max 1 ((min 4096 d.m * d.n + 2047) / 2048)
  else ((d.k + d.kTile - 1) / d.kTile - 1) * 4096 + min 4096 d.m

/-- R131, R194: the reads of an operation: the A stream halved between QNW and QSW, the weights at 1,024 bytes on QNW and QNE, shared
between the elements and their scales as they load, and the epilogue's on QSW and QSE: D at an element of each column a cycle, the
vectors once for each chunk. -/
def PrimDesc.readStreams (d : PrimDesc) : List FeedStream :=
  let n := d.elemsPerCycle
  let aRates : List Rat := [(n * d.aFmt.width : Nat) / (16 : Rat), (n : Nat) / (64 : Rat)]
  let w := d.kTile * d.bFmt.width * 4
  let sc := if d.bMx then d.kTile else 0
  let bRates : List Rat := [1024 * (w : Nat) / (w + sc : Nat), 1024 * (sc : Nat) / (w + sc : Nat)]
  let dRate : Rat := (1024 * d.addFmt.width : Nat) / (8 : Rat)
  let vRate : Rat := 4096 / (d.budgetSlots : Rat)
  ((d.aMem.zip aRates).flatMap fun p => pairStreams 0 2 p.1 p.2 p.2)
    ++ ((d.bExtents.zip bRates).flatMap fun p => pairStreams 0 1 p.1 p.2 p.2)
    ++ (d.vectors.flatMap fun e => pairStreams 2 3 e vRate vRate)
    ++ (d.addend.flatMap fun e => pairStreams 2 3 e dRate dRate)

/-- The bytes of a chunk's output that the columns of a south quadrant take in an extent of w-bit elements, `cols` columns to each. -/
def PrimDesc.chunkBytes (d : PrimDesc) (q w cols : Nat) : Nat :=
  let n := min 2048 d.n
  let own := if q = 2 then min 1024 n else n - min 1024 n
  min 4096 d.m * ((own + cols - 1) / cols * w) / 8

/-- R194: the writes of an operation by its epilogue units on QSW and QSE. -/
def PrimDesc.writeStreams (d : PrimDesc) : List FeedStream :=
  (d.writes.zip [(d.outFmt.width, 1), (8, 32)]).flatMap fun p => [2, 3].map fun q =>
    let w := p.2.1
    let cols := p.2.2
    ⟨q, p.1, (1024 * w : Nat) / (8 * cols : Nat), (d.chunkBytes q w cols : Nat) / (d.budgetSlots : Rat)⟩

/-- R67: the part of an extent's bytes that lies in the Plates of a quadrant. -/
def Extent.plateShare (e : Extent) (q : Nat) : Rat :=
  let lo := 0x010000000000 + 0x10000000 * q
  let hi := lo + 0x10000000
  let own := ((List.range e.rows).map fun i =>
    let a := e.base + i * e.stride
    min hi (a + e.bytes) - max lo a).sum
  (own : Rat) / ((e.rows * e.bytes : Nat) : Rat)

/-- The sum of a rate over the streams that pass a test. -/
def sumRate (l : List FeedStream) (sel : FeedStream → Bool) (f : FeedStream → Rat) : Rat := ((l.filter sel).map f).sum

def FeedStream.inStack (s : FeedStream) : Bool := Machine.inStack s.ext.base

/-- R194: `budget_holds`, at an array clock in MHz. -/
def PrimDesc.budgetHolds (d : PrimDesc) (mhz : Nat) : Bool :=
  let f : Rat := (mhz : Rat)
  let rd := d.readStreams
  let wr := d.writeStreams
  let reads := fun q => sumRate rd (fun s => s.inStack && s.quad == q) FeedStream.peak
  let writes := fun q => sumRate wr (fun s => s.inStack && s.quad == q) FeedStream.mean
  let r := sumRate rd FeedStream.inStack FeedStream.peak
  let w := sumRate wr FeedStream.inStack FeedStream.mean
  let away := fun (l : List FeedStream) (q : Nat) =>
    sumRate l (fun s => s.quad == q) fun s => (((List.range 4).filter (· != q)).map s.ext.plateShare).sum * s.peak
  let served := fun (l : List FeedStream) (q : Nat) => sumRate l (fun s => s.quad != q) fun s => s.ext.plateShare q * s.peak
  let own := fun (l : List FeedStream) (q : Nat) => sumRate l (fun s => s.quad == q) fun s => s.ext.plateShare q * s.peak
  let behind := fun q => sumRate wr (fun s => s.inStack && s.quad == q) fun s => s.peak + s.mean
  decide ((r + w) * f ≤ 16000000) && (List.range 4).all fun q =>
    let in_ := 3 / 4 * reads q + 1 / 4 * (w - writes q) + away rd q + served wr q
    let out := 3 / 4 * writes q + 1 / 4 * (r - reads q) + away wr q + served rd q
    let plate := own rd q + own wr q + served rd q + served wr q + 2 * reads q + behind q
    decide (in_ * f ≤ 3600000) && decide (out * f ≤ 3600000) && decide (plate * f ≤ 16000000)

/-- R194: conditions 1 to 3: every extent read has its rings, stack-bound output has its write-behinds, with a chunk's output of one
quadrant within 8 MiB, and the budget holds. -/
def State.feedsHold (s : State) (d : PrimDesc) (mhz : Nat) : Bool :=
  let out := d.writes.any (fun e => inStack e.base)
  s.ringsForAll d && (!out || (s.ringUp 2 && s.ringUp 3)) && d.budgetHolds mhz
    && (d.kind == 3 || !out || [2, 3].all fun q => decide ((d.writeStreams.filter fun s => s.inStack && s.quad == q).foldl
      (fun (t : Rat) s => t + s.mean * (d.budgetSlots : Rat)) 0 ≤ 8388608))

/-- R196: the holds of R168 that a staged operation can meet may arise: at the Collector, at a loopback source, at a copy on write. -/
def State.mayHold (s : State) (op : PrimOp) : Bool :=
  op.held || op.desc.aSrc != 0 || op.desc.dest == 2 || s.epoch.retained

/-- R128, R195 to R197: the slots an operation loses to stalls: none where it is staged and nothing may hold it; at most 3 µs where only
its first tile and rows were not staged; else a free value (log 1). The clock is the higher of that at its first multiply and now. -/
def State.primStalls (s : State) (op : PrimOp) : Nat × State :=
  let mhz := max op.clock s.arrayClock
  let feeds := s.feedsHold op.desc mhz && !s.mayHold op
  if op.desc.kind = 4 ∨ (feeds ∧ op.staged) then (0, s)
  else
    let f := s.free 64
    (if feeds then f.1.toNat % (3 * mhz + 1) else f.1.toNat, f.2)

end Sys2Proof.Machine
end

