-- ==== Sys2Proof/Machine/Primary.lean ====
section
/-! DEFINITION. The events of the Primary: acceptance with its checks (R127, R173), the first multiply (R128, R165), the end in
the array (R124, R149, R162, R166, R192) and the ready notices (R167). -/

namespace Sys2Proof.Machine

open Sys2Proof

/-! ## The checks of R173 -/

/-- R73: a format code with a scaling mode that its format allows. -/
def fmtOk (code : Nat) (mx : Bool) : Bool :=
  match Fmt.ofCode code with
  | some f => if mx then f.allowsMx else f.allowsNone
  | none => false

/-- R82: the group of a format under a scaling mode. -/
def fmtGroup (f : Fmt) (mx : Bool) : Nat :=
  match f with
  | .fp32 => 0
  | .bf16 | .fp16 => 1
  | .int8 => if mx then 4 else 3
  | _ => 2

/-- R173, check 0x02. -/
def PrimDesc.formatsOk (d : PrimDesc) : Bool :=
  fmtOk (d.field 9 3 0) d.aMx && (!d.isMatmul || fmtOk (d.field 9 11 8) d.bMx) && fmtOk (d.field 9 19 16) d.outMx
    && (!(d.epiUsed && d.epi 3) || decide (d.field 28 11 8 ≤ 2))

/-- R173, check 0x06. -/
def PrimDesc.placesOk (d : PrimDesc) : Bool :=
  decide (d.aSrc ≤ 2) && decide (d.dest ≤ 4)
    && (if d.kind = 3 then d.field 0 8 8 == 0 && d.dest != 4 else d.dest != 4 || d.retain)

/-- The extents with a stride, and the vectors and tables without one, that a descriptor uses. -/
def PrimDesc.strided (d : PrimDesc) : List Extent :=
  (if d.aSrc = 0 then d.reads.take (if d.aMx then 2 else 1) else [])
    ++ (if d.isMatmul then (Extent.mk (d.addr 16) (d.field 18 31 0) d.n (rowBytes d.bFmt d.bMx d.k))
        :: (if d.bMx then [⟨d.addr 19, d.field 21 31 0, d.n, scaleBytes d.k⟩] else []) else [])
    ++ (if d.epiUsed && d.epi 3 then [⟨d.addr 37, d.field 39 31 0, d.m, rowBytes d.addFmt false d.n⟩] else [])
    ++ d.writes

/-- The completion record as an extent, where CMPL_EN is 1. -/
def PrimDesc.cmplExtent (d : PrimDesc) : List Extent := if d.cmplEn then [⟨d.cmplAddr, 0, 1, 64⟩] else []

/-- Every extent that checks 0x07 and 0x08 cover. -/
def PrimDesc.checked (d : PrimDesc) : List Extent :=
  (if d.kind = 4 then [] else d.reads ++ d.writes) ++ d.cmplExtent

/-- R173, check 0x07: the bases of the extents that fail it. -/
def PrimDesc.misaligned (d : PrimDesc) : List Nat :=
  ((d.checked.filter fun e => e.base % 64 != 0)
    ++ (if d.kind = 4 then [] else d.strided.filter fun e => e.stride % 64 != 0 || decide (e.stride < e.bytes))).map Extent.base

/-- R173, check 0x08, with R187 and R652: the bases of the extents that fail it. -/
def State.misplaced (s : State) (d : PrimDesc) : List Nat :=
  (d.checked.filter fun e => !(extentMapped e.base e.span && s.extentFree d.issuer.isDome e.base e.span)).map Extent.base

/-- R125: the accumulators are RETAINED with the descriptor's M and N. -/
def State.accMatches (s : State) (d : PrimDesc) : Bool :=
  s.flag F.PRIM_ACC_STATUS_RETAINED qnwPrim && s.fld F.PRIM_ACC_STATUS_ACC_M qnwPrim == d.m && s.fld F.PRIM_ACC_STATUS_ACC_N qnwPrim == d.n

/-- R164: the loopback state fits the descriptor's A stream. -/
def State.loopMatches (s : State) (d : PrimDesc) : Bool :=
  match s.prim.loop with
  | some l => l.m == d.m && l.n == d.inner && l.fmt == d.field 9 3 0 && l.mx == d.field 9 4 4
  | none => false

/-- The slot of a collective whose STATE is OPEN. -/
def State.colOpenSlot (s : State) (id : Nat) : Option Nat := (s.colFind id).filter fun n => s.colState n == 1

/-- R173, check 0x0C. -/
def State.sourceOk (s : State) (d : PrimDesc) : Bool :=
  (d.aSrc != 2 || (match s.colOpenSlot (d.field 10 15 0) with
    | some n =>
      let c := s.colSlot n
      c.steer == 2 && c.outFmt == d.aFmt && !d.aMx && decide (d.field 11 31 0 + d.m * d.inner ≤ c.elems)
        && (d.kind == 3 || decide (d.n ≤ 2048))
    | none => false))
  && (d.dest != 2 || (match s.colOpenSlot (d.field 42 15 0) with
    | some n => d.outFmt.collectable && !d.outMx && decide (d.field 43 31 0 + d.m * d.n ≤ (s.colSlot n).elems)
        && !(d.aSrc == 2 && d.field 10 15 0 == d.field 42 15 0)
    | none => false))
  && (d.dest != 3 || s.enabled (moverCell (d.field 42 5 0)))

/-- R158: the breakpoints of a table. -/
def tableOk (t : List Word32) : Bool :=
  let bp := (List.range 63).map fun q => fromFp32 (t.getD (q + 1) 0).toNat
  bp.all (fun x => !x.isNan) && (List.range 62).all fun i => !((bp.getD (i + 1) .nan).lt (bp.getD i .nan))

/-- R159: the clamp bounds. -/
def clampOk (lo hi : Nat) : Bool :=
  !(fromFp32 lo).isNan && !(fromFp32 hi).isNan && !ltZero (fromFp32 hi) (fromFp32 lo)

/-- R173: the checks before the table: the refuse code, 0 where they hold, and the bases of the failing extents. -/
def State.primChecks (s : State) (d : PrimDesc) : Nat × List Nat :=
  let mis := d.misaligned
  let out := s.misplaced d
  if !(decide (1 ≤ d.kind) && decide (d.kind ≤ 4) && d.field 0 7 4 == 1) then (1, [])
  else if d.kind = 4 then
    if d.field 6 31 0 = 0 ∨ 128 < d.field 7 7 0 then (5, [])
    else if !mis.isEmpty then (7, mis)
    else if !out.isEmpty then (8, out)
    else (0, [])
  else if !d.formatsOk then (2, [])
  else if d.isMatmul ∧ fmtGroup d.aFmt d.aMx ≠ fmtGroup d.bFmt d.bMx then (3, [])
  else if 4 < d.field 0 11 9 then (4, [])
  else if d.m = 0 ∨ d.n = 0 ∨ 0x1000000 < d.n ∨ (d.isMatmul ∧ (d.k = 0 ∨ 0x1000000 < d.k)) then (5, [])
  else if !d.placesOk then (6, [])
  else if !mis.isEmpty then (7, mis)
  else if !out.isEmpty then (8, out)
  else if d.retain ∧ (4096 < d.m ∨ 2048 < d.n) then (9, [])
  else if d.kind = 2 ∧ !s.accMatches d then (0x0A, [])
  else if d.aSrc = 1 ∧ !s.loopMatches d then (0x0B, [])
  else
    let outside := d.writes.filter fun e => !inPlates e.base
    if d.dest = 1 ∧ !outside.isEmpty then (0x0B, outside.map Extent.base)
    else if !s.sourceOk d then (0x0C, [])
    else (0, [])

/-- The activation stage runs. -/
def PrimDesc.actUsed (d : PrimDesc) : Bool := d.kind != 4 && d.epiUsed && d.epi 4

/-- R173: the checks from the table on. The table is the extent of check 0x0D (log 23). -/
def PrimDesc.lateChecks (d : PrimDesc) (table : List Word32) : Nat × List Nat :=
  if d.actUsed ∧ !tableOk table then (0x0D, [d.addr 40])
  else if d.kind ≠ 4 ∧ d.epiUsed ∧ d.epi 5 ∧ !clampOk (d.field 31 31 0) (d.field 32 31 0) then (0x0E, [])
  else if !doneOk d.issuer d.doneBit then (0x0F, [])
  else (0, [])

/-- R174: refuse a descriptor. Where several extents fail one check, which base is recorded is a free value (log 23). -/
def State.primRefuse (s : State) (d : PrimDesc) (code : Nat) (bases : List Nat) (accepted : Nat) : State :=
  let (k, s) := s.free 8
  let addr := bases.getD (k.toNat % bases.length) 0
  let s := s.recordError qnwPrim clsProtocol addr (code + d.ticket % 2 ^ 24 * 2 ^ 8)
  s.setPrim { s.prim with done := s.prim.done ++ [{ desc := d, acceptTime := accepted, status := primProtocol, refuse := code }] }

/-- R163, R164: the layout a loopback consumer reads. -/
def Loopback.layout (l : Loopback) : List Nat := [l.base, l.stride, l.scaleBase, l.scaleStride]

/-- R163: the loopback state that the acceptance of a descriptor leaves. -/
def PrimDesc.loopSet (d : PrimDesc) : Option Loopback :=
  if d.dest = 1 then
    some ⟨d.ticket, d.m, d.n, d.field 9 19 16, d.field 9 20 20, d.addr 22, d.field 24 31 0, d.addr 25, d.field 27 31 0⟩
  else none

/-- R127: an operation at its acceptance: what its checks and its A stream find then. -/
def State.primOp (s : State) (d : PrimDesc) (staged : Bool) : PrimOp :=
  let src := if d.kind ≠ 4 ∧ d.aSrc = 1 then s.prim.loop else none
  let rank := match s.colFind (d.field 42 15 0) with
    | some n => (s.colSlot n).ownRank
    | none => 0
  { desc := d, acceptTime := s.now, staged := staged, loopSrc := src.map Loopback.ticket,
    loopLayout := (src.map Loopback.layout).getD [], collRank := rank, held := s.behind d.ticket d.streams }

/-- R124, R163: an operation that has passed its checks enters its start latency. -/
def State.primStart (s : State) (op : PrimOp) : State :=
  let d := op.desc
  let s := if d.isMatmul then s.setReg .PRIM_ACC_STATUS qnwPrim 0 else s
  let acc := if d.kind = 1 then [] else s.prim.acc
  s.setPrim { s.prim with op := some op, acc := acc, loop := (if d.kind = 4 then s.prim.loop else d.loopSet) }

/-- R127: a descriptor can be accepted. -/
def State.canAccept (s : State) : Bool :=
  !s.flag F.PRIM_QUEUE_CTRL_PAUSE qnwPrim && !s.primBlocked && s.prim.op.isNone

/-- R129, R174: a descriptor is refused; a preloaded tile of it is discarded. -/
def State.primTurnAway (s : State) (op : PrimOp) (code : Nat) (bases : List Nat) : State :=
  let t := op.desc.ticket
  let s := s.setPrim { s.prim with op := none, preload := if s.prim.preload = some t then none else s.prim.preload }
  s.primRefuse op.desc code bases op.acceptTime

/-- R151, R158, R173, R177: the checks from the table on. They wait while an earlier operation's output lies in the table, and the
operation ends where the table's memory cell is not ENABLED. -/
def State.primCheckOn (s : State) (op : PrimOp) : State :=
  let d := op.desc
  if s.behind d.ticket d.tableExtent ∧ d.actUsed then s.setPrim { s.prim with op := some { op with checking := true } }
  else if d.actUsed ∧ !s.memUp (d.addr 40) 2048 then (s.primStart { op with checking := false }).primEnd primMemoryFault
  else
    let r := if d.actUsed then s.readMem (d.addr 40) 2048 40 else ([], false, s)
    let table := wordsOf 512 r.1
    let c := d.lateChecks table
    if c.1 ≠ 0 then r.2.2.primTurnAway op c.1 c.2
    else r.2.2.primStart { op with checking := false, table := table, tablePoison := r.2.1 }

/-- R127, R173: the op sequencer takes the head descriptor. -/
def State.primTake (s : State) (d : PrimDesc) (rest : List PrimDesc) : State :=
  let staged := s.feedStatus % 2 == 1
  let drop := fun (o : Option Nat) => if o = some d.ticket then none else o
  let s := s.setPrim { s.prim with queue := rest, darkFrame := false, prefetch := drop s.prim.prefetch, staged := drop s.prim.staged }
  let op := s.primOp d staged
  let c := s.primChecks d
  if c.1 ≠ 0 then s.primTurnAway op c.1 c.2 else s.primCheckOn op

/-- R127; for an operation whose checks wait at its table, they go on (R151). -/
def execPrimAccept (s : State) : Out :=
  .next (match s.prim.op with
    | some op => if op.checking ∧ !s.stopped then (s.primCheckOn op).noteLevels else s
    | none => match s.prim.queue with
      | [] => s
      | d :: rest => if s.canAccept then (s.primTake d rest).noteLevels else s)

/-! ## In the array -/

/-- R177: every memory cell on the operation's path is ENABLED. -/
def State.primPathUp (s : State) (op : PrimOp) : Bool := op.extents.all s.extentUp

/-- R128, R165, R636: the operation begins to occupy the array. -/
def execPrimFirstMultiply (s : State) : Out :=
  .next (if s.stopped then s else match s.prim.op with
    | none => s
    | some op =>
      if op.occupies ∨ op.checking then s
      else if !s.primPathUp op then s.primEnd primMemoryFault
      else
        let drop := fun (o : Option Nat) => if o = some op.desc.ticket then none else o
        let op' := { op with occupies := true, clock := s.arrayClock }
        let s := s.setPrim { s.prim with op := some op', darkFrame := false, preload := drop s.prim.preload }
        let s := s.setFld F.HEL_PHASE_ARRAY_PHASE helCell op.desc.phase
        s.colSettle.noteLevels)

/-- R164, R165: every row of the A stream can be read. -/
def State.sourceHere (s : State) (op : PrimOp) : Bool := (List.range op.desc.m).all (s.aRowHere op)

/-- R166: the contributions of an operation, all of its output as one run: the spec leaves the stretch of a local run open (log 73). -/
def PrimOp.run (op : PrimOp) (es : List Elem) (now : Nat) : ColRun :=
  let d := op.desc
  ⟨none, false, d.field 9 19 16, op.collRank, d.field 42 15 0, d.field 44 31 0, d.field 43 31 0, es, now, 0⟩

/-- R192: whether a line of output passes through a write-behind: it is bound for stack memory and the ring of the south quadrant
that produces it is in force. -/
def State.viaWriteBehind (s : State) (d : PrimDesc) (l : OutLine) : Bool :=
  (d.dest == 0 || d.dest == 3) && inStack l.addr && s.ringUp l.quad

/-- R149, R192: one line of output leaves the epilogue. -/
def State.primOutput (s : State) (d : PrimDesc) (l : OutLine) : State :=
  if s.viaWriteBehind d l then s.setPrim { s.prim with wb := s.prim.wb ++ [⟨d.ticket, l⟩] }
  else s.writeMem l.addr l.bytes l.mark 2

/-- R186, R192: the write-behind of a south quadrant, 8 MiB of lines, has room. -/
def State.wbRoom (s : State) (q : Nat) : Bool := decide ((s.prim.wb.filter fun l => l.line.quad == q).length < 131072)

/-- R168, R192: lines of output leave the epilogue in order, up to the first that meets a full write-behind: the lines that stay. -/
def State.primOutputs (s : State) (d : PrimDesc) : List OutLine → List OutLine × State
  | [] => ([], s)
  | l :: ls => if s.viaWriteBehind d l && !s.wbRoom l.quad then (l :: ls, s) else (s.primOutput d l).primOutputs d ls

/-- R124, R162: the accumulators that an operation leaves. -/
def State.primRetain (s : State) (d : PrimDesc) (sums : List (Nat × (BitVec 32 × Bool))) : State :=
  if !d.isMatmul then s
  else if d.retain then
    let s := s.setFlag F.PRIM_ACC_STATUS_RETAINED qnwPrim true
    let s := (s.setFld F.PRIM_ACC_STATUS_ACC_M qnwPrim d.m).setFld F.PRIM_ACC_STATUS_ACC_N qnwPrim d.n
    s.setPrim { s.prim with acc := sums.foldl (fun m p => smapSet (fun _ => (0, false)) m p.1 p.2) [], accTicket := d.ticket }
  else s.setPrim { s.prim with acc := [] }

/-- R130, R133: the cycles an operation occupied the array: its slots, its stalls, and F, a free value of 4,094 to 4,176, or of at most 256
for a CONVERT (log 1). -/
def State.primCycles (s : State) (d : PrimDesc) (stall : Nat) : Nat × State :=
  let f := s.free 16
  (d.slots + stall + (if d.kind = 4 then 0 else if d.kind = 3 then f.1.toNat % 257 else 4094 + f.1.toNat % 83), f.2)

/-- R169, R676: an operation leaves the array: its counts, and its completion to post. -/
def State.primLeave (s : State) (op : PrimOp) (flags : ArithFlags) : State :=
  let d := op.desc
  let st := s.primStalls op
  let cy := st.2.primCycles d st.1
  let s := cy.2.primCount cy.1 d.multSlots st.1 d.bubbles
  let done : PrimDone :=
    { desc := d, acceptTime := op.acceptTime, status := primOk, flags := flags, poisonLines := op.poisonLines,
      arrayCycles := cy.1, stallSlots := st.1, posted := op.posted, notices := (if d.kind = 4 then 0 else d.noticeCount) }
  (s.setPrim { s.prim with op := none, done := s.prim.done ++ [done] }).setHel
    { s.hel with darkLevel := if d.kind = 4 then some (d.field 7 7 0) else none }

/-! ## Its own output among its inputs -/

/-- R152: a byte of [a, a + n) is one that the operation writes. -/
def PrimDesc.overwrites (d : PrimDesc) (a n : Nat) : Bool := d.writes.any fun w => w.meets ⟨a, 0, 1, n⟩

/-- R152: the output coincides with the addend: the same base and stride, OUT_FMT = ADD_FMT under NONE. -/
def PrimDesc.inPlace (d : PrimDesc) : Bool :=
  d.addr 37 == d.addr 22 && d.field 39 31 0 == d.field 24 31 0 && d.outFmt == d.addFmt && !d.outMx

/-- R152: row i of an extent is one that the operation writes a byte of. -/
def PrimDesc.rowOverwritten (d : PrimDesc) (i : Nat) (e : Extent) : Bool := d.overwrites (e.base + i * e.stride) e.bytes

/-- R152: the running sum, or CONVERT element, of output element (i, n) depends on a byte that the operation writes. -/
def PrimOp.sumMixed (op : PrimOp) (i n : Nat) : Bool :=
  let d := op.desc
  if d.isMatmul then op.aExtents.any (d.rowOverwritten i) || d.bExtents.any (d.rowOverwritten n)
  else match op.aExtents with
    | [] => false
    | a :: sc =>
      let w := d.aFmt.width
      d.overwrites (a.base + i * a.stride + n * w / 8) ((n * w + w - 1) / 8 + 1 - n * w / 8)
        || sc.any fun e => d.overwrites (e.base + i * e.stride + n / 32) 1

/-- R152: output element (i, n) depends on a byte that the operation writes, but for the element of D that it replaces. -/
def PrimOp.elemMixed (op : PrimOp) (i n : Nat) : Bool :=
  let d := op.desc
  let w := d.addFmt.width
  op.sumMixed i n || d.vectors.any (fun e => d.overwrites (e.base + 4 * n) 4)
    || (!d.inPlace && d.addend.any fun e => d.overwrites (e.base + i * e.stride + n * w / 8) (w / 8))

/-- R95, R152: an output element is affected: itself, or under OUT_MX a column of its block. -/
def PrimOp.outMixed (op : PrimOp) (i n : Nat) : Bool :=
  if op.desc.outMx then (List.range 32).any fun j => decide (n / 32 * 32 + j < op.desc.n) && op.elemMixed i (n / 32 * 32 + j)
  else op.elemMixed i n

/-- R152: an operation computes some element from bytes that it writes itself. -/
def PrimOp.selfOverlap (op : PrimOp) : Bool :=
  let d := op.desc
  let inputs := op.aExtents ++ d.bExtents ++ d.vectors ++ (if d.inPlace then [] else d.addend)
  d.writes.any fun w => inputs.any w.meets

/-- R152: the affected elements of a list, from column j on, take free values of w bits and a free mark (log 1). -/
def State.freeElems (s : State) (w : Nat) (hit : Nat → Bool) : Nat → List Elem → List Elem × State
  | _, [] => ([], s)
  | j, e :: es =>
    if hit j then
      let f := s.free w
      let m := f.2.free 1
      let r := m.2.freeElems w hit (j + 1) es
      ((f.1.toNat, m.1 == 1) :: r.1, r.2)
    else
      let r := s.freeElems w hit (j + 1) es
      (e :: r.1, r.2)

/-- R152: the affected running sums of row i, from column n on, take free words. -/
def State.freeSums (s : State) (hit : Nat → Bool) : Nat → List Sum → List Sum × State
  | _, [] => ([], s)
  | n, x :: xs =>
    if hit n then
      let f := s.free 32
      let m := f.2.free 1
      let r := m.2.freeSums hit (n + 1) xs
      ({ x with word := f.1.toNat, poison := m.1 == 1 } :: r.1, r.2)
    else
      let r := s.freeSums hit (n + 1) xs
      (x :: r.1, r.2)

/-- R152: a computed row with its affected elements free. -/
def State.mixRow (s : State) (op : PrimOp) (i : Nat) (row : PrimRow) : PrimRow × State :=
  let d := op.desc
  let x := s.freeSums (op.sumMixed i) 0 row.1
  let e := x.2.freeElems d.outFmt.width (op.outMixed i) 0 row.2.elems
  let c := e.2.freeElems 8 (fun b => op.outMixed i (32 * b)) 0 row.2.scales
  ((x.1, { row.2 with elems := e.1, scales := c.1 }), c.2)

/-- R152: each affected element is computed from old bytes, new bytes or a mixture: it is a free value, and so are the flags (log 1). -/
def State.primMixed (s : State) (op : PrimOp) : PrimResult × State :=
  let rows := s.primRows op
  let x := (List.range rows.length).foldl (fun (x : List PrimRow × State) i =>
    let r := x.2.mixRow op i (rows.getD i ([], ⟨[], [], {}⟩))
    (x.1 ++ [r.1], r.2)) ([], s)
  let g := x.2.free 4
  ({ op.desc.deliver x.1 with flags := ⟨g.1.getLsbD 0, g.1.getLsbD 1, g.1.getLsbD 2, g.1.getLsbD 3⟩ }, g.2)

/-! ## What leaves the array -/

/-- R148 to R176: what an operation delivers, computed when its first output leaves. It reads every byte then: of a write by another
agent during the operation it sees the new bytes, where R153 allows either (log 73). -/
def State.primCompute (s : State) (op : PrimOp) : PrimResult × State :=
  match op.out with
  | some r => (r, s)
  | none =>
    let s := op.readLines.foldl (fun (s : State) la => s.noteRead la (s.readLine la false)) s
    if op.selfOverlap then s.primMixed op else (s.primResult op, s)

/-- R121, R168, R192: the lines of an operation's output before pair `upto` leave the epilogue, as far as the write-behinds have room:
the operation with what is left of its output. -/
def State.primEmit (s : State) (op : PrimOp) (upto : Nat) : PrimOp × State :=
  let x := s.primCompute op
  let now := x.1.lines.takeWhile fun l => decide (l.pair < upto)
  let later := x.1.lines.drop now.length
  let o := x.2.primOutputs op.desc now
  let gone := now.take (now.length - o.1.length)
  ({ op with
      out := some { x.1 with lines := o.1 ++ later }
      poisonLines := op.poisonLines + (gone.filter OutLine.mark).length
      held := op.held || !o.1.isEmpty }, o.2)

/-- R149 to R176: the last running sum or element leaves the array, once all of the output has left. -/
def State.primFinish (s : State) (op : PrimOp) : State :=
  let d := op.desc
  if d.kind = 4 then s.primLeave op {}
  else
    let x := s.primEmit op d.pairs
    let r := x.1.out.getD ⟨[], [], [], {}⟩
    if !r.lines.isEmpty then x.2.setPrim { x.2.prim with op := some x.1 }
    else
      let s := (x.2.primRetain d r.sums).primLeave x.1 r.flags
      (if d.dest = 2 then s.colArrive (op.run r.elems s.now) else s).colSettle

/-- R151, R164, R165: the operation's inputs can be read; a consumer of a loopback operation that ended early waits for its end (R164). -/
def State.inputsHere (s : State) (op : PrimOp) : Bool :=
  !s.behind op.desc.ticket op.desc.streams && s.sourceHere op && !s.loopFailed op

/-- R130: the last output leaves. -/
def execPrimArrayEnd (s : State) : Out :=
  .next (if s.stopped then s else match s.prim.op with
    | none => s
    | some op =>
      let d := op.desc
      if !op.occupies then s
      else if !s.primPathUp op then s.primEnd primMemoryFault
      else if d.kind ≠ 4 ∧ (!s.inputsHere op ∨ (d.dest = 2 ∧ s.colHolds (op.run [] s.now) false)) then s
      else (s.primFinish op).noteLevels)

/-! ## Ready notices -/

/-- R167, R193: no line of an operation's output before pair `upto` waits in a write-behind. -/
def State.drained (s : State) (ticket upto : Nat) : Bool := s.prim.wb.all fun l => l.ticket != ticket || decide (upto ≤ l.line.pair)

/-- R167: an operation in the array posts its next notice when the output of the next pair, whose last pass has left the south edge, is
visible. -/
def State.noticeFromArray (s : State) (op : PrimOp) : State :=
  let d := op.desc
  if !op.occupies ∨ d.kind = 4 ∨ d.noticeCount ≤ op.posted ∨ !s.primPathUp op ∨ !s.inputsHere op then s
  else
    let x := s.primEmit op (op.posted + 1)
    let left := (x.1.out.getD ⟨[], [], [], {}⟩).lines
    let seen := (left.all fun l => decide (op.posted < l.pair)) && x.2.drained d.ticket (op.posted + 1)
    let op' := { x.1 with posted := if seen then op.posted + 1 else op.posted }
    let s := x.2.setPrim { x.2.prim with op := some op' }
    if seen then s.moverNotice (d.field 42 5 0) else s

/-- R167: the next ready notice of the earliest operation that has one to post and whose next pair is visible: of those that have left
the array, then of the one in it. -/
def execPrimReadyNotice (s : State) : Out :=
  .next (if s.stopped then s
    else match s.prim.done.find? fun p => decide (p.posted < p.notices) && s.drained p.desc.ticket (p.posted + 1) with
    | some p =>
      let done := s.prim.done.map fun q => if q.desc.ticket = p.desc.ticket then { q with posted := q.posted + 1 } else q
      (s.setPrim { s.prim with done := done }).moverNotice (p.desc.field 42 5 0)
    | none => match s.prim.op with
      | some op => s.noticeFromArray op
      | none => s)

end Sys2Proof.Machine
end

