-- ==== Sys2Proof/Machine/XqAlu.lean ====
section
/-! DEFINITION. The meanings of the XQ integer arithmetic, logic, shift, count and immediate instructions (R275 to R279). -/

namespace Sys2Proof.Machine

open Sys2Proof

/-- Write a result and its flags. -/
def State.result (s : State) (c : CoreRef) (rd : Fin 32) (r : Word × FlagUpd) : Fate :=
  .next (s.mapCore c fun k => (k.set rd r.1).setFlags r.2)

/-- An instruction `rd := ra op rb` with its flags, at 64 bits or under W (R271). -/
def State.alu3 (s : State) (c : CoreRef) (w : Bool) (rd ra rb : Fin 32)
    (f64 : BitVec 64 → BitVec 64 → BitVec 64 × FlagUpd) (f32 : BitVec 32 → BitVec 32 → BitVec 32 × FlagUpd) : State :=
  s.instr c 4 [rd, ra, rb] true fun s =>
    let k := s.core c
    s.result c rd (atWidth w f64 f32 (k.get ra) (k.get rb))

/-- An instruction `rd := op ra`. -/
def State.alu2 (s : State) (c : CoreRef) (w : Bool) (rd ra : Fin 32)
    (f64 : BitVec 64 → BitVec 64 × FlagUpd) (f32 : BitVec 32 → BitVec 32 × FlagUpd) : State :=
  s.instr c 4 [rd, ra] true fun s =>
    s.result c rd (atWidth w (fun a _ => f64 a) (fun a _ => f32 a) ((s.core c).get ra) 0)

/-- An instruction that writes only the flags of `ra op rb`. -/
def State.alu0 (s : State) (c : CoreRef) (w : Bool) (ra rb : Fin 32)
    (f64 : BitVec 64 → BitVec 64 → BitVec 64 × FlagUpd) (f32 : BitVec 32 → BitVec 32 → BitVec 32 × FlagUpd) : State :=
  s.instr c 4 [ra, rb] true fun s =>
    let k := s.core c
    .next (s.mapCore c fun k' => k'.setFlags (atWidth w f64 f32 (k.get ra) (k.get rb)).2)

/-- An instruction `rd := ra op imm`; `len` is 8 in the long form. -/
def State.aluImm (s : State) (c : CoreRef) (len : Nat) (rd ra : Fin 32) (imm : Word)
    (f : BitVec 64 → BitVec 64 → BitVec 64 × FlagUpd) : State :=
  s.instr c len [rd, ra] true fun s => s.result c rd (f ((s.core c).get ra) imm)

/-- R279: a shift by an immediate amount, taken from its low 5 bits under W. -/
def State.shiftImm (s : State) (c : CoreRef) (w : Bool) (rd ra : Fin 32) (amount : BitVec 6)
    (f64 : BitVec 64 → Nat → BitVec 64 × FlagUpd) (f32 : BitVec 32 → Nat → BitVec 32 × FlagUpd) : State :=
  s.alu2 c w rd ra (fun a => f64 a amount.toNat) (fun a => f32 a (amount.toNat % 32))

def execAdd (core : CoreRef) (w : Bool) (rd ra rb : Fin 32) (s : State) : Out :=
  .next (s.alu3 core w rd ra rb (fun a b => addAlu a b false) (fun a b => addAlu a b false))

def execSub (core : CoreRef) (w : Bool) (rd ra rb : Fin 32) (s : State) : Out :=
  .next (s.alu3 core w rd ra rb (fun a b => subAlu a b false) (fun a b => subAlu a b false))

/-- R275: ADC adds C. -/
def execAdc (core : CoreRef) (w : Bool) (rd ra rb : Fin 32) (s : State) : Out :=
  let c := (s.core core).c
  .next (s.alu3 core w rd ra rb (fun a b => addAlu a b c) (fun a b => addAlu a b c))

/-- R275: SBC subtracts 1 − C. -/
def execSbc (core : CoreRef) (w : Bool) (rd ra rb : Fin 32) (s : State) : Out :=
  let c := (s.core core).c
  .next (s.alu3 core w rd ra rb (fun a b => subAlu a b !c) (fun a b => subAlu a b !c))

def execCmp (core : CoreRef) (w : Bool) (ra rb : Fin 32) (s : State) : Out :=
  .next (s.alu0 core w ra rb (fun a b => subAlu a b false) (fun a b => subAlu a b false))

def execNeg (core : CoreRef) (w : Bool) (rd ra : Fin 32) (s : State) : Out :=
  .next (s.alu2 core w rd ra (fun a => subAlu 0 a false) (fun a => subAlu 0 a false))

def execMul (core : CoreRef) (w : Bool) (rd ra rb : Fin 32) (s : State) : Out :=
  .next (s.alu3 core w rd ra rb mulAlu mulAlu)

def execMulhu (core : CoreRef) (w : Bool) (rd ra rb : Fin 32) (s : State) : Out :=
  .next (s.alu3 core w rd ra rb mulhuAlu mulhuAlu)

def execMulhs (core : CoreRef) (w : Bool) (rd ra rb : Fin 32) (s : State) : Out :=
  .next (s.alu3 core w rd ra rb mulhsAlu mulhsAlu)

def execDivu (core : CoreRef) (w : Bool) (rd ra rb : Fin 32) (s : State) : Out :=
  .next (s.alu3 core w rd ra rb divuAlu divuAlu)

def execDivs (core : CoreRef) (w : Bool) (rd ra rb : Fin 32) (s : State) : Out :=
  .next (s.alu3 core w rd ra rb divsAlu divsAlu)

def execRemu (core : CoreRef) (w : Bool) (rd ra rb : Fin 32) (s : State) : Out :=
  .next (s.alu3 core w rd ra rb remuAlu remuAlu)

def execRems (core : CoreRef) (w : Bool) (rd ra rb : Fin 32) (s : State) : Out :=
  .next (s.alu3 core w rd ra rb remsAlu remsAlu)

/-- R277: SEL.cc. -/
def execSel (core : CoreRef) (cond : Cond) (rd ra rb : Fin 32) (s : State) : Out :=
  .next (s.instr core 4 [rd, ra, rb] true fun s =>
    let k := s.core core
    .next (s.setCore core (k.set rd (if cond.holds k.z k.n k.c k.ov then k.get ra else k.get rb))))

def execAnd (core : CoreRef) (w : Bool) (rd ra rb : Fin 32) (s : State) : Out :=
  .next (s.alu3 core w rd ra rb (fun a b => znAlu (a &&& b)) (fun a b => znAlu (a &&& b)))

def execOr (core : CoreRef) (w : Bool) (rd ra rb : Fin 32) (s : State) : Out :=
  .next (s.alu3 core w rd ra rb (fun a b => znAlu (a ||| b)) (fun a b => znAlu (a ||| b)))

def execXor (core : CoreRef) (w : Bool) (rd ra rb : Fin 32) (s : State) : Out :=
  .next (s.alu3 core w rd ra rb (fun a b => znAlu (a ^^^ b)) (fun a b => znAlu (a ^^^ b)))

def execAndn (core : CoreRef) (w : Bool) (rd ra rb : Fin 32) (s : State) : Out :=
  .next (s.alu3 core w rd ra rb (fun a b => znAlu (a &&& ~~~b)) (fun a b => znAlu (a &&& ~~~b)))

def execTst (core : CoreRef) (w : Bool) (ra rb : Fin 32) (s : State) : Out :=
  .next (s.alu0 core w ra rb (fun a b => znAlu (a &&& b)) (fun a b => znAlu (a &&& b)))

def execShl (core : CoreRef) (w : Bool) (rd ra rb : Fin 32) (s : State) : Out :=
  .next (s.alu3 core w rd ra rb (fun a b => shlAlu a (shiftAmount b)) (fun a b => shlAlu a (shiftAmount b)))

def execShr (core : CoreRef) (w : Bool) (rd ra rb : Fin 32) (s : State) : Out :=
  .next (s.alu3 core w rd ra rb (fun a b => shrAlu a (shiftAmount b)) (fun a b => shrAlu a (shiftAmount b)))

def execSar (core : CoreRef) (w : Bool) (rd ra rb : Fin 32) (s : State) : Out :=
  .next (s.alu3 core w rd ra rb (fun a b => sarAlu a (shiftAmount b)) (fun a b => sarAlu a (shiftAmount b)))

def execRor (core : CoreRef) (w : Bool) (rd ra rb : Fin 32) (s : State) : Out :=
  .next (s.alu3 core w rd ra rb (fun a b => rorAlu a (shiftAmount b)) (fun a b => rorAlu a (shiftAmount b)))

def execClz (core : CoreRef) (w : Bool) (rd ra : Fin 32) (s : State) : Out := .next (s.alu2 core w rd ra clzAlu clzAlu)

def execCtz (core : CoreRef) (w : Bool) (rd ra : Fin 32) (s : State) : Out := .next (s.alu2 core w rd ra ctzAlu ctzAlu)

def execPopc (core : CoreRef) (w : Bool) (rd ra : Fin 32) (s : State) : Out := .next (s.alu2 core w rd ra popcAlu popcAlu)

def execBswap (core : CoreRef) (w : Bool) (rd ra : Fin 32) (s : State) : Out := .next (s.alu2 core w rd ra bswapAlu bswapAlu)

/-- R278: the extensions, at 64 bits. -/
def execSextb (core : CoreRef) (rd ra : Fin 32) (s : State) : Out :=
  .next (s.aluImm core 4 rd ra 0 fun a _ => znAlu ((a.setWidth 8).signExtend 64))

def execSexth (core : CoreRef) (rd ra : Fin 32) (s : State) : Out :=
  .next (s.aluImm core 4 rd ra 0 fun a _ => znAlu ((a.setWidth 16).signExtend 64))

def execSextw (core : CoreRef) (rd ra : Fin 32) (s : State) : Out :=
  .next (s.aluImm core 4 rd ra 0 fun a _ => znAlu ((a.setWidth 32).signExtend 64))

def execZextw (core : CoreRef) (rd ra : Fin 32) (s : State) : Out :=
  .next (s.aluImm core 4 rd ra 0 fun a _ => znAlu ((a.setWidth 32).setWidth 64))

def execAddi (core : CoreRef) (rd ra : Fin 32) (imm : Imm) (s : State) : Out :=
  .next (s.aluImm core imm.len rd ra imm.signed fun a b => addAlu a b false)

def execCmpi (core : CoreRef) (ra : Fin 32) (imm : Imm) (s : State) : Out :=
  .next (s.instr core imm.len [ra] true fun s =>
    .next (s.mapCore core fun k => k.setFlags (subAlu (k.get ra) imm.signed false).2))

def execAndi (core : CoreRef) (rd ra : Fin 32) (imm : Imm) (s : State) : Out :=
  .next (s.aluImm core imm.len rd ra imm.unsigned fun a b => znAlu (a &&& b))

def execOri (core : CoreRef) (rd ra : Fin 32) (imm : Imm) (s : State) : Out :=
  .next (s.aluImm core imm.len rd ra imm.unsigned fun a b => znAlu (a ||| b))

def execXori (core : CoreRef) (rd ra : Fin 32) (imm : Imm) (s : State) : Out :=
  .next (s.aluImm core imm.len rd ra imm.unsigned fun a b => znAlu (a ^^^ b))

def execShli (core : CoreRef) (w : Bool) (rd ra : Fin 32) (amount : BitVec 6) (s : State) : Out :=
  .next (s.shiftImm core w rd ra amount shlAlu shlAlu)

def execShri (core : CoreRef) (w : Bool) (rd ra : Fin 32) (amount : BitVec 6) (s : State) : Out :=
  .next (s.shiftImm core w rd ra amount shrAlu shrAlu)

def execSari (core : CoreRef) (w : Bool) (rd ra : Fin 32) (amount : BitVec 6) (s : State) : Out :=
  .next (s.shiftImm core w rd ra amount sarAlu sarAlu)

def execMovi (core : CoreRef) (rd : Fin 32) (imm : Imm) (s : State) : Out :=
  .next (s.instr core imm.len [rd] true fun s => .next (s.mapCore core fun k => k.set rd imm.signed))

/-- R279: LMOVHI keeps the low half of rd. -/
def execLmovhi (core : CoreRef) (rd : Fin 32) (imm : BitVec 32) (s : State) : Out :=
  .next (s.instr core 8 [rd] true fun s =>
    .next (s.mapCore core fun k => k.set rd (imm ++ (k.get rd).setWidth 32)))

end Sys2Proof.Machine
end

