-- ==== Sys2Proof/Machine/XqVector.lean ====
section
/-! DEFINITION. The meanings of the Filter sequencer extension (R298 to R301). -/

namespace Sys2Proof.Machine

open Sys2Proof

/-- A vector register (R266). -/
def CoreState.vget (k : CoreState) (r : Fin 8) : BitVec 128 := smapGet (fun _ => 0) k.v r.val

def CoreState.vset (k : CoreState) (r : Fin 8) (x : BitVec 128) : CoreState := { k with v := smapSet (fun _ => 0) k.v r.val x }

/-- R298: the bytes of a vector register, byte 0 first. -/
def vBytes (x : BitVec 128) : List Byte := natLe 16 x.toNat

def vOfBytes (bs : List Byte) : BitVec 128 := BitVec.ofNat 128 (leNat bs)

def vr (r : Fin 8) : Fin 32 := ⟨r.val, by omega⟩

/-- R268, R272: an instruction of the extension, ILLEGAL on a guider or Dome core with its word. -/
def State.vecInstr (s : State) (c : CoreRef) (word : Nat) (regs : List (Fin 32)) (body : State → Fate) : State :=
  s.instr c 4 regs true fun s => if c.isFilter then body s else .fault (illegal word) s

/-- vd := f of two vector registers. -/
def State.vec2 (s : State) (c : CoreRef) (fn : Nat) (vd va vb : Fin 8) (f : BitVec 128 → BitVec 128 → BitVec 128) : State :=
  s.vecInstr c (encR 0x40 fn (vr vd) (vr va) (vr vb)) [] fun s =>
    .next (s.mapCore c fun k => k.vset vd (f (k.vget va) (k.vget vb)))

/-- R298: increment bytes [from, 16) read as a big-endian integer. -/
def incBytesBe (start : Nat) (x : BitVec 128) : BitVec 128 :=
  let bs := vBytes x
  let n := 16 - start
  vOfBytes (bs.take start ++ (natLe n (leNat (bs.drop start).reverse + 1)).reverse)

def execVxor (core : CoreRef) (vd va vb : Fin 8) (s : State) : Out := .next (s.vec2 core 0 vd va vb (· ^^^ ·))

def execVshuf (core : CoreRef) (vd va vb : Fin 8) (s : State) : Out :=
  .next (s.vec2 core 1 vd va vb fun a b =>
    let src := vBytes a
    vOfBytes ((vBytes b).map fun i => if i.getLsbD 7 then 0 else src.getD (i.toNat % 16) 0))

def execVinc32 (core : CoreRef) (vd va : Fin 8) (s : State) : Out := .next (s.vec2 core 4 vd va 0 fun a _ => incBytesBe 12 a)

def execVinc64 (core : CoreRef) (vd va : Fin 8) (s : State) : Out := .next (s.vec2 core 5 vd va 0 fun a _ => incBytesBe 8 a)

def execVinc128 (core : CoreRef) (vd va : Fin 8) (s : State) : Out := .next (s.vec2 core 6 vd va 0 fun a _ => incBytesBe 0 a)

def execVinc128l (core : CoreRef) (vd va : Fin 8) (s : State) : Out := .next (s.vec2 core 7 vd va 0 fun a _ => a + 1)

def execVmovg (core : CoreRef) (vd : Fin 8) (ra : Fin 32) (h : Bool) (s : State) : Out :=
  .next (s.vecInstr core (encR 0x40 (8 + h.toNat) (vr vd) ra 0) [ra] fun s =>
    .next (s.mapCore core fun k =>
      let old := k.vget vd
      let g := k.get ra
      k.vset vd (if h then g ++ old.setWidth 64 else (old.extractLsb' 64 64) ++ g)))

def execVgetg (core : CoreRef) (rd : Fin 32) (va : Fin 8) (h : Bool) (s : State) : Out :=
  .next (s.vecInstr core (encR 0x40 (10 + h.toNat) rd (vr va) 0) [rd] fun s =>
    .next (s.mapCore core fun k => k.set rd ((k.vget va).extractLsb' (if h then 64 else 0) 64)))

/-- R300: the product in GF(2^128) in GCM bit order. -/
def execFgmul (core : CoreRef) (vd va vb : Fin 8) (s : State) : Out :=
  .next (s.vec2 core 0x18 vd va vb fun a b =>
    BitVec.ofNat 128 (gcmOrder (gf128Mul 128 (gcmOrder a.toNat) (gcmOrder b.toNat))))

/-- R300: the product in XTS bit order. -/
def execFgmulX (core : CoreRef) (vd va vb : Fin 8) (s : State) : Out :=
  .next (s.vec2 core 0x19 vd va vb fun a b => BitVec.ofNat 128 (gf128Mul 128 a.toNat b.toNat))

/-- R301: the cipher of a block, computed twice; `agree` says that the two computations agree. -/
def State.blockInstr (s : State) (c : CoreRef) (inv : Bool) (vd va : Fin 8) (agree : Bool) : State :=
  s.vecInstr c (encR 0x40 (0x10 + inv.toNat) (vr vd) (vr va) 0) [] fun s =>
    match c with
    | .filter u =>
      if !agree then .stay (s.seqStop u true)
      else let r := s.fblk u inv ((s.core c).vget va)
        .next ((r.2.mapCore c fun k => k.vset vd r.1).count c.cell (evOf 0x2B 0))
    | _ => .stay s

def execFblk (core : CoreRef) (vd va : Fin 8) (agree : Bool) (s : State) : Out := .next (s.blockInstr core false vd va agree)

def execFblkInv (core : CoreRef) (vd va : Fin 8) (agree : Bool) (s : State) : Out := .next (s.blockInstr core true vd va agree)

/-- R298, R299: VLD. -/
def execVld (core : CoreRef) (vd : Fin 8) (ra : Fin 32) (imm : BitVec 14) (s : State) : Out :=
  .next (s.vecInstr core (encI 0x41 (vr vd) ra imm) [ra] fun s =>
    match s.coreLoad core ((s.core core).get ra + imm.signExtend 64).toNat 16 (accFlags false false false false 16) [1] with
    | (.error e, s) => .fault e s
    | (.ok bs, s) => .next (s.mapCore core fun k => k.vset vd (vOfBytes bs)))

def execVst (core : CoreRef) (vd : Fin 8) (ra : Fin 32) (imm : BitVec 14) (s : State) : Out :=
  .next (s.vecInstr core (encI 0x42 (vr vd) ra imm) [ra] fun s =>
    let k := s.core core
    match s.coreStore core (k.get ra + imm.signExtend 64).toNat (accFlags true false false false 16) (vBytes (k.vget vd)) with
    | (.error e, s) => .fault e s
    | (.ok _, s) => .next s)

end Sys2Proof.Machine
end

