-- ==== Sys2Proof/Machine/Dispatch.lean ====
section
/-! DEFINITION. Which meaning each command has: one arm for each constructor. -/

namespace Sys2Proof.Machine

open Sys2Proof

def exec (i : Instr) (s : State) : Host.Outcome State Fault Refusal :=
  match i with
  -- Cells and registers
  | .registerWrite a t size value => Sys2Proof.Machine.execRegisterWrite a t size value s
  | .rwpPairWrite a r cell value => Sys2Proof.Machine.execRwpPairWrite a r cell value s
  | .rwpComplementCheck r cell agree => Sys2Proof.Machine.execRwpComplementCheck r cell agree s
  | .cellCtrlEnWrite a cell en => Sys2Proof.Machine.execCellCtrlEnWrite a cell en s
  | .quiesceComplete cell => Sys2Proof.Machine.execQuiesceComplete cell s
  | .cellResetWrite a cell => Sys2Proof.Machine.execCellResetWrite a cell s
  | .cellResetComplete cell => Sys2Proof.Machine.execCellResetComplete cell s
  | .powerGateApply cell => Sys2Proof.Machine.execPowerGateApply cell s
  | .powerRestoreComplete cell => Sys2Proof.Machine.execPowerRestoreComplete cell s
  | .errStatusClear a cell valid overflow => Sys2Proof.Machine.execErrStatusClear a cell valid overflow s
  -- The Primary
  | .primMapWrite a quad complement value => Sys2Proof.Machine.execPrimMapWrite a quad complement value s
  | .prim core rd ra => Sys2Proof.Machine.execPrim core rd ra s
  | .primAccept => Sys2Proof.Machine.execPrimAccept s
  | .primPreload => Sys2Proof.Machine.execPrimPreload s
  | .primFirstMultiply => Sys2Proof.Machine.execPrimFirstMultiply s
  | .primArrayEnd => Sys2Proof.Machine.execPrimArrayEnd s
  | .primReadyNotice => Sys2Proof.Machine.execPrimReadyNotice s
  | .primComplete => Sys2Proof.Machine.execPrimComplete s
  | .primPause a pause => Sys2Proof.Machine.execPrimPause a pause s
  | .primQueueFlush a => Sys2Proof.Machine.execPrimQueueFlush a s
  -- Stack memory, rings and staging
  | .smcTrainingComplete stack ok => Sys2Proof.Machine.execSmcTrainingComplete stack ok s
  | .smcTempUpdate stack tempC => Sys2Proof.Machine.execSmcTempUpdate stack tempC s
  | .ringEnWrite a quad en => Sys2Proof.Machine.execRingEnWrite a quad en s
  | .ringChangeTakeEffect quad => Sys2Proof.Machine.execRingChangeTakeEffect quad s
  | .prefetch => Sys2Proof.Machine.execPrefetch s
  | .headStaged => Sys2Proof.Machine.execHeadStaged s
  | .writeBehindDrain lines => Sys2Proof.Machine.execWriteBehindDrain lines s
  -- Movers
  | .move core rd ra rb => Sys2Proof.Machine.execMove core rd ra rb s
  | .moverCopy m => Sys2Proof.Machine.execMoverCopy m s
  | .moverSweep m => Sys2Proof.Machine.execMoverSweep m s
  | .moverFeed m => Sys2Proof.Machine.execMoverFeed m s
  | .moverComplete m => Sys2Proof.Machine.execMoverComplete m s
  | .feedPush m entry => Sys2Proof.Machine.execFeedPush m entry s
  | .feedVolume m entry => Sys2Proof.Machine.execFeedVolume m entry s
  | .feedFlush m entry => Sys2Proof.Machine.execFeedFlush m entry s
  | .feedFlushCompletion m entry ok => Sys2Proof.Machine.execFeedFlushCompletion m entry ok s
  | .feedWait m entry => Sys2Proof.Machine.execFeedWait m entry s
  | .movNoticeCountWrite a m value => Sys2Proof.Machine.execMovNoticeCountWrite a m value s
  | .movQueuePause a m pause => Sys2Proof.Machine.execMovQueuePause a m pause s
  | .movQueueFlush a m => Sys2Proof.Machine.execMovQueueFlush a m s
  -- XQ integer arithmetic
  | .add core w rd ra rb => Sys2Proof.Machine.execAdd core w rd ra rb s
  | .sub core w rd ra rb => Sys2Proof.Machine.execSub core w rd ra rb s
  | .adc core w rd ra rb => Sys2Proof.Machine.execAdc core w rd ra rb s
  | .sbc core w rd ra rb => Sys2Proof.Machine.execSbc core w rd ra rb s
  | .cmp core w ra rb => Sys2Proof.Machine.execCmp core w ra rb s
  | .neg core w rd ra => Sys2Proof.Machine.execNeg core w rd ra s
  | .mul core w rd ra rb => Sys2Proof.Machine.execMul core w rd ra rb s
  | .mulhu core w rd ra rb => Sys2Proof.Machine.execMulhu core w rd ra rb s
  | .mulhs core w rd ra rb => Sys2Proof.Machine.execMulhs core w rd ra rb s
  | .divu core w rd ra rb => Sys2Proof.Machine.execDivu core w rd ra rb s
  | .divs core w rd ra rb => Sys2Proof.Machine.execDivs core w rd ra rb s
  | .remu core w rd ra rb => Sys2Proof.Machine.execRemu core w rd ra rb s
  | .rems core w rd ra rb => Sys2Proof.Machine.execRems core w rd ra rb s
  | .sel core cond rd ra rb => Sys2Proof.Machine.execSel core cond rd ra rb s
  -- XQ logic, shift and count
  | .and core w rd ra rb => Sys2Proof.Machine.execAnd core w rd ra rb s
  | .or core w rd ra rb => Sys2Proof.Machine.execOr core w rd ra rb s
  | .xor core w rd ra rb => Sys2Proof.Machine.execXor core w rd ra rb s
  | .andn core w rd ra rb => Sys2Proof.Machine.execAndn core w rd ra rb s
  | .tst core w ra rb => Sys2Proof.Machine.execTst core w ra rb s
  | .shl core w rd ra rb => Sys2Proof.Machine.execShl core w rd ra rb s
  | .shr core w rd ra rb => Sys2Proof.Machine.execShr core w rd ra rb s
  | .sar core w rd ra rb => Sys2Proof.Machine.execSar core w rd ra rb s
  | .ror core w rd ra rb => Sys2Proof.Machine.execRor core w rd ra rb s
  | .clz core w rd ra => Sys2Proof.Machine.execClz core w rd ra s
  | .ctz core w rd ra => Sys2Proof.Machine.execCtz core w rd ra s
  | .popc core w rd ra => Sys2Proof.Machine.execPopc core w rd ra s
  | .bswap core w rd ra => Sys2Proof.Machine.execBswap core w rd ra s
  | .sextb core rd ra => Sys2Proof.Machine.execSextb core rd ra s
  | .sexth core rd ra => Sys2Proof.Machine.execSexth core rd ra s
  | .sextw core rd ra => Sys2Proof.Machine.execSextw core rd ra s
  | .zextw core rd ra => Sys2Proof.Machine.execZextw core rd ra s
  -- XQ immediates
  | .addi core rd ra imm => Sys2Proof.Machine.execAddi core rd ra imm s
  | .cmpi core ra imm => Sys2Proof.Machine.execCmpi core ra imm s
  | .andi core rd ra imm => Sys2Proof.Machine.execAndi core rd ra imm s
  | .ori core rd ra imm => Sys2Proof.Machine.execOri core rd ra imm s
  | .xori core rd ra imm => Sys2Proof.Machine.execXori core rd ra imm s
  | .shli core w rd ra amount => Sys2Proof.Machine.execShli core w rd ra amount s
  | .shri core w rd ra amount => Sys2Proof.Machine.execShri core w rd ra amount s
  | .sari core w rd ra amount => Sys2Proof.Machine.execSari core w rd ra amount s
  | .movi core rd imm => Sys2Proof.Machine.execMovi core rd imm s
  | .lmovhi core rd imm => Sys2Proof.Machine.execLmovhi core rd imm s
  -- XQ loads and stores
  | .ldb core rd ra imm => Sys2Proof.Machine.execLdb core rd ra imm s
  | .ldbs core rd ra imm => Sys2Proof.Machine.execLdbs core rd ra imm s
  | .ldh core rd ra imm => Sys2Proof.Machine.execLdh core rd ra imm s
  | .ldhs core rd ra imm => Sys2Proof.Machine.execLdhs core rd ra imm s
  | .ldw core rd ra imm => Sys2Proof.Machine.execLdw core rd ra imm s
  | .ldws core rd ra imm => Sys2Proof.Machine.execLdws core rd ra imm s
  | .ldd core rd ra imm => Sys2Proof.Machine.execLdd core rd ra imm s
  | .stb core rs ra imm => Sys2Proof.Machine.execStb core rs ra imm s
  | .sth core rs ra imm => Sys2Proof.Machine.execSth core rs ra imm s
  | .stw core rs ra imm => Sys2Proof.Machine.execStw core rs ra imm s
  | .std core rs ra imm => Sys2Proof.Machine.execStd core rs ra imm s
  -- XQ atomics; `half` says the operand is 4 bytes
  | .swap core half rd ra rb => Sys2Proof.Machine.execSwap core half rd ra rb s
  | .cas core half rd ra rb => Sys2Proof.Machine.execCas core half rd ra rb s
  | .fadd core half rd ra rb => Sys2Proof.Machine.execFadd core half rd ra rb s
  | .fand core half rd ra rb => Sys2Proof.Machine.execFand core half rd ra rb s
  | .for_ core half rd ra rb => Sys2Proof.Machine.execFor core half rd ra rb s
  | .fxor core half rd ra rb => Sys2Proof.Machine.execFxor core half rd ra rb s
  | .fmaxu core half rd ra rb => Sys2Proof.Machine.execFmaxu core half rd ra rb s
  | .fminu core half rd ra rb => Sys2Proof.Machine.execFminu core half rd ra rb s
  | .fmaxs core half rd ra rb => Sys2Proof.Machine.execFmaxs core half rd ra rb s
  | .fmins core half rd ra rb => Sys2Proof.Machine.execFmins core half rd ra rb s
  -- XQ branches and calls
  | .bcc core cond off => Sys2Proof.Machine.execBcc core cond off s
  | .call core off => Sys2Proof.Machine.execCall core off s
  | .br core ra => Sys2Proof.Machine.execBr core ra s
  | .callr core ra => Sys2Proof.Machine.execCallr core ra s
  | .ret core => Sys2Proof.Machine.execRet core s
  -- XQ data stack
  | .push core ra => Sys2Proof.Machine.execPush core ra s
  | .pop core rd => Sys2Proof.Machine.execPop core rd s
  | .pushm core ra rb => Sys2Proof.Machine.execPushm core ra rb s
  | .popm core ra rb => Sys2Proof.Machine.execPopm core ra rb s
  | .addds core imm => Sys2Proof.Machine.execAddds core imm s
  | .getds core rd imm => Sys2Proof.Machine.execGetds core rd imm s
  -- XQ control registers and system
  | .crr core reg cr => Sys2Proof.Machine.execCrr core reg cr s
  | .crw core reg cr => Sys2Proof.Machine.execCrw core reg cr s
  | .crs core reg cr => Sys2Proof.Machine.execCrs core reg cr s
  | .crc core reg cr => Sys2Proof.Machine.execCrc core reg cr s
  | .nop core => Sys2Proof.Machine.execNop core s
  | .fence core => Sys2Proof.Machine.execFence core s
  | .ifence core => Sys2Proof.Machine.execIfence core s
  | .xret core => Sys2Proof.Machine.execXret core s
  | .brk core => Sys2Proof.Machine.execBrk core s
  | .rsfl core ra => Sys2Proof.Machine.execRsfl core ra s
  | .sys core imm => Sys2Proof.Machine.execSys core imm s
  -- XQ bits
  | .setb core b => Sys2Proof.Machine.execSetb core b s
  | .clrb core b => Sys2Proof.Machine.execClrb core b s
  | .cplb core b => Sys2Proof.Machine.execCplb core b s
  | .tstb core b => Sys2Proof.Machine.execTstb core b s
  | .getb core rd b => Sys2Proof.Machine.execGetb core rd b s
  | .putb core src b => Sys2Proof.Machine.execPutb core src b s
  | .movb core ra rb => Sys2Proof.Machine.execMovb core ra rb s
  | .bopb core ra rb rc tt => Sys2Proof.Machine.execBopb core ra rb rc tt s
  | .waitb core b value => Sys2Proof.Machine.execWaitb core b value s
  | .waitbWake core => Sys2Proof.Machine.execWaitbWake core s
  | .bb core form sense => Sys2Proof.Machine.execBb core form sense s
  -- XQ device
  | .phaser core ra => Sys2Proof.Machine.execPhaser core ra s
  | .phase core imm => Sys2Proof.Machine.execPhase core imm s
  | .time core rd => Sys2Proof.Machine.execTime core rd s
  -- Filter sequencer extension
  | .vxor core vd va vb => Sys2Proof.Machine.execVxor core vd va vb s
  | .vshuf core vd va vb => Sys2Proof.Machine.execVshuf core vd va vb s
  | .vinc32 core vd va => Sys2Proof.Machine.execVinc32 core vd va s
  | .vinc64 core vd va => Sys2Proof.Machine.execVinc64 core vd va s
  | .vinc128 core vd va => Sys2Proof.Machine.execVinc128 core vd va s
  | .vinc128l core vd va => Sys2Proof.Machine.execVinc128l core vd va s
  | .vmovg core vd ra h => Sys2Proof.Machine.execVmovg core vd ra h s
  | .vgetg core rd va h => Sys2Proof.Machine.execVgetg core rd va h s
  | .fblk core vd va agree => Sys2Proof.Machine.execFblk core vd va agree s
  | .fblkInv core vd va agree => Sys2Proof.Machine.execFblkInv core vd va agree s
  | .fgmul core vd va vb => Sys2Proof.Machine.execFgmul core vd va vb s
  | .fgmulX core vd va vb => Sys2Proof.Machine.execFgmulX core vd va vb s
  | .vld core vd ra imm => Sys2Proof.Machine.execVld core vd ra imm s
  | .vst core vd ra imm => Sys2Proof.Machine.execVst core vd ra imm s
  -- Core events and guider clusters
  | .interruptTake core => Sys2Proof.Machine.execInterruptTake core s
  | .tcmpTimer core => Sys2Proof.Machine.execTcmpTimer core s
  | .guiderCoreStart n => Sys2Proof.Machine.execGuiderCoreStart n s
  | .attnRaise a n code => Sys2Proof.Machine.execAttnRaise a n code s
  | .localApertureAccess a core write off size value => Sys2Proof.Machine.execLocalApertureAccess a core write off size value s
  | .dispatchDeliver cluster => Sys2Proof.Machine.execDispatchDeliver cluster s
  | .gclPost a cluster image => Sys2Proof.Machine.execGclPost a cluster image s
  | .clusterPause a cluster pause => Sys2Proof.Machine.execClusterPause a cluster pause s
  | .clusterFlush a cluster => Sys2Proof.Machine.execClusterFlush a cluster s
  | .dbgHalt a core halt => Sys2Proof.Machine.execDbgHalt a core halt s
  | .dbgStep a core => Sys2Proof.Machine.execDbgStep a core s
  | .dbgRegDataAccess a core write value => Sys2Proof.Machine.execDbgRegDataAccess a core write value s
  -- The Collector
  | .colOpen a => Sys2Proof.Machine.execColOpen a s
  | .colClose a slot => Sys2Proof.Machine.execColClose a slot s
  | .colAbort a slot => Sys2Proof.Machine.execColAbort a slot s
  | .colReset a slot => Sys2Proof.Machine.execColReset a slot s
  | .colMemberFail a slot => Sys2Proof.Machine.execColMemberFail a slot s
  | .collectiveRunArrive run => Sys2Proof.Machine.execCollectiveRunArrive run s
  | .bindingWrite k addr bytes ep => Sys2Proof.Machine.execBindingWrite k addr bytes ep s
  | .bindingRegWrite a reg b value => Sys2Proof.Machine.execBindingRegWrite a reg b value s
  | .egressRunSend idx => Sys2Proof.Machine.execEgressRunSend idx s
  | .chunkComplete slot chunk next => Sys2Proof.Machine.execChunkComplete slot chunk next s
  | .programItemRepost slot => Sys2Proof.Machine.execProgramItemRepost slot s
  | .roundTimeout slot => Sys2Proof.Machine.execRoundTimeout slot s
  -- Transit: connections
  | .connEnWrite a c en => Sys2Proof.Machine.execConnEnWrite a c en s
  | .connectRetry c => Sys2Proof.Machine.execConnectRetry c s
  | .connectTimeout c => Sys2Proof.Machine.execConnectTimeout c s
  | .disconnectRetry c => Sys2Proof.Machine.execDisconnectRetry c s
  | .drainTimeout c => Sys2Proof.Machine.execDrainTimeout c s
  -- Transit: packets received
  | .transitConnect k => Sys2Proof.Machine.execTransitConnect k s
  | .transitConnectReply k => Sys2Proof.Machine.execTransitConnectReply k s
  | .transitDisconnect k => Sys2Proof.Machine.execTransitDisconnect k s
  | .transitDisconnectReply k => Sys2Proof.Machine.execTransitDisconnectReply k s
  | .transitWrite k => Sys2Proof.Machine.execTransitWrite k s
  | .transitReadReq k => Sys2Proof.Machine.execTransitReadReq k s
  | .transitReadResp k => Sys2Proof.Machine.execTransitReadResp k s
  | .transitAtomic k => Sys2Proof.Machine.execTransitAtomic k s
  | .transitAtomicResp k => Sys2Proof.Machine.execTransitAtomicResp k s
  | .transitCollective k => Sys2Proof.Machine.execTransitCollective k s
  | .transitAck k => Sys2Proof.Machine.execTransitAck k s
  | .transitNak k => Sys2Proof.Machine.execTransitNak k s
  -- Transit: timers, queues, regions
  | .lossyRetransmitTimer c path psn => Sys2Proof.Machine.execLossyRetransmitTimer c path psn s
  | .pathTimer c path => Sys2Proof.Machine.execPathTimer c path s
  | .ackTimer c path => Sys2Proof.Machine.execAckTimer c path s
  | .creditReturnTimer c coll => Sys2Proof.Machine.execCreditReturnTimer c coll s
  | .creditAckTimer c => Sys2Proof.Machine.execCreditAckTimer c s
  | .trnSqTailWrite a q tail => Sys2Proof.Machine.execTrnSqTailWrite a q tail s
  | .doorbellPoll t => Sys2Proof.Machine.execDoorbellPoll t s
  | .sqWrite q => Sys2Proof.Machine.execSqWrite q s
  | .sqRead q => Sys2Proof.Machine.execSqRead q s
  | .sqAtomic q => Sys2Proof.Machine.execSqAtomic q s
  | .cqEntryPost q => Sys2Proof.Machine.execCqEntryPost q s
  | .trnCqEnable a q => Sys2Proof.Machine.execTrnCqEnable a q s
  | .regionValidate a index => Sys2Proof.Machine.execRegionValidate a index s
  | .regionRevoke a index => Sys2Proof.Machine.execRegionRevoke a index s
  | .revokeComplete index => Sys2Proof.Machine.execRevokeComplete index s
  -- Ethernet and the Spectrograph
  | .frameReceive p half bytes fcsOk => Sys2Proof.Machine.execFrameReceive p half bytes fcsOk s
  | .flowAgeOut flow => Sys2Proof.Machine.execFlowAgeOut flow s
  | .ethLinkChange p half up => Sys2Proof.Machine.execEthLinkChange p half up s
  | .pfcReceive p half prio quanta => Sys2Proof.Machine.execPfcReceive p half prio quanta s
  | .pfcRefresh p half prio => Sys2Proof.Machine.execPfcRefresh p half prio s
  | .pfcXonSend p half prio => Sys2Proof.Machine.execPfcXonSend p half prio s
  | .loadBank a p count => Sys2Proof.Machine.execLoadBank a p count s
  | .swapBank a p => Sys2Proof.Machine.execSwapBank a p s
  | .loadPatterns a count => Sys2Proof.Machine.execLoadPatterns a count s
  | .swapPatterns a => Sys2Proof.Machine.execSwapPatterns a s
  | .loadSanctum a count => Sys2Proof.Machine.execLoadSanctum a count s
  | .spgCmdComplete => Sys2Proof.Machine.execSpgCmdComplete s
  | .rxqEnable a q => Sys2Proof.Machine.execRxqEnable a q s
  | .rxqTailWrite a q tail => Sys2Proof.Machine.execRxqTailWrite a q tail s
  -- Shutter
  | .heldFrameAdmit => Sys2Proof.Machine.execHeldFrameAdmit s
  | .shutterSelect p => Sys2Proof.Machine.execShutterSelect p s
  | .bucketRefill level => Sys2Proof.Machine.execBucketRefill level s
  | .txRingEntry r => Sys2Proof.Machine.execTxRingEntry r s
  | .txrEnable a r => Sys2Proof.Machine.execTxrEnable a r s
  | .txrTailWrite a r tail => Sys2Proof.Machine.execTxrTailWrite a r tail s
  -- The Catalogue
  | .catSqTailWrite a q tail => Sys2Proof.Machine.execCatSqTailWrite a q tail s
  | .catEntryTake q => Sys2Proof.Machine.execCatEntryTake q s
  | .catRead q slot => Sys2Proof.Machine.execCatRead q slot s
  | .catWrite q slot => Sys2Proof.Machine.execCatWrite q slot s
  | .catFlush q slot => Sys2Proof.Machine.execCatFlush q slot s
  | .catDeallocate q slot => Sys2Proof.Machine.execCatDeallocate q slot s
  | .backendWriteback seg => Sys2Proof.Machine.execBackendWriteback seg s
  | .backendWriteFail seg cause status => Sys2Proof.Machine.execBackendWriteFail seg cause status s
  | .backendTimeout be id => Sys2Proof.Machine.execBackendTimeout be id s
  | .nvmeCqPoll be => Sys2Proof.Machine.execNvmeCqPoll be s
  | .programBackendResponse be => Sys2Proof.Machine.execProgramBackendResponse be s
  | .remoteBackendCompletion be entry => Sys2Proof.Machine.execRemoteBackendCompletion be entry s
  | .catQueueEnWrite a q en => Sys2Proof.Machine.execCatQueueEnWrite a q en s
  | .catQueueReset a q => Sys2Proof.Machine.execCatQueueReset a q s
  | .catQueueResetComplete q => Sys2Proof.Machine.execCatQueueResetComplete q s
  -- PCI Express ports
  | .pcieLinkChange j up speed width flit => Sys2Proof.Machine.execPcieLinkChange j up speed width flit s
  | .upstreamFundamentalReset p => Sys2Proof.Machine.execUpstreamFundamentalReset p s
  | .pfDoorbellWrite p off value => Sys2Proof.Machine.execPfDoorbellWrite p off value s
  | .bar4Write p off bytes ep => Sys2Proof.Machine.execBar4Write p off bytes ep s
  | .irqRaise a source => Sys2Proof.Machine.execIrqRaise a source s
  | .msixSend source => Sys2Proof.Machine.execMsixSend source s
  | .completionTimeout j tag => Sys2Proof.Machine.execCompletionTimeout j tag s
  | .tagQuarantineEnd p tag => Sys2Proof.Machine.execTagQuarantineEnd p tag s
  | .pcieCompletionReceive p tag status body ep => Sys2Proof.Machine.execPcieCompletionReceive p tag status body ep s
  | .atsInvalidation p fn addr size => Sys2Proof.Machine.execAtsInvalidation p fn addr size s
  | .bmeClear p fn => Sys2Proof.Machine.execBmeClear p fn s
  | .bmeSet p fn => Sys2Proof.Machine.execBmeSet p fn s
  | .flrStart p fn => Sys2Proof.Machine.execFlrStart p fn s
  | .flrComplete p fn => Sys2Proof.Machine.execFlrComplete p fn s
  | .inboundRequest k r => Sys2Proof.Machine.execInboundRequest k r s
  | .dpCfgDataAccess a k write value status data => Sys2Proof.Machine.execDpCfgDataAccess a k write value status data s
  | .dpcTrigger k cause => Sys2Proof.Machine.execDpcTrigger k cause s
  | .dpcRelease a k => Sys2Proof.Machine.execDpcRelease a k s
  | .presenceChange k on => Sys2Proof.Machine.execPresenceChange k on s
  -- Virtual functions
  | .vfShutdown a p v => Sys2Proof.Machine.execVfShutdown a p v s
  | .vfShutdownComplete p v => Sys2Proof.Machine.execVfShutdownComplete p v s
  | .vfEnable a p v => Sys2Proof.Machine.execVfEnable a p v s
  | .vfDoorbellWrite p v page off bytes ep => Sys2Proof.Machine.execVfDoorbellWrite p v page off bytes ep s
  | .dirtySwap a p v => Sys2Proof.Machine.execDirtySwap a p v s
  | .dirtySwapComplete p v => Sys2Proof.Machine.execDirtySwapComplete p v s
  | .dirtyLogEnWrite a p v en => Sys2Proof.Machine.execDirtyLogEnWrite a p v en s
  -- Filter and the root of trust
  | .fltTailWrite a q tail => Sys2Proof.Machine.execFltTailWrite a q tail s
  | .fltQueueEnable a q => Sys2Proof.Machine.execFltQueueEnable a q s
  | .filterDescStart => Sys2Proof.Machine.execFilterDescStart s
  | .filterDescComplete u => Sys2Proof.Machine.execFilterDescComplete u s
  | .filterStallTimeout u => Sys2Proof.Machine.execFilterStallTimeout u s
  | .loadPlain a index size check enc dec wrap => Sys2Proof.Machine.execLoadPlain a index size check enc dec wrap s
  | .loadWrapped a index size check enc dec wrap => Sys2Proof.Machine.execLoadWrapped a index size check enc dec wrap s
  | .erase a index => Sys2Proof.Machine.execErase a index s
  | .keyEraseComplete index => Sys2Proof.Machine.execKeyEraseComplete index s
  | .secureBoot agree => Sys2Proof.Machine.execSecureBoot agree s
  | .verify a => Sys2Proof.Machine.execVerify a s
  | .recoveryBoot a => Sys2Proof.Machine.execRecoveryBoot a s
  | .svnCommit a => Sys2Proof.Machine.execSvnCommit a s
  | .revokeKey a => Sys2Proof.Machine.execRevokeKey a s
  | .debugUnlock a => Sys2Proof.Machine.execDebugUnlock a s
  | .rotCmdDone => Sys2Proof.Machine.execRotCmdDone s
  | .flashRead a offset pages => Sys2Proof.Machine.execFlashRead a offset pages s
  | .flashErase a offset => Sys2Proof.Machine.execFlashErase a offset s
  | .flashProgram a offset pages => Sys2Proof.Machine.execFlashProgram a offset pages s
  | .flashCmdDone error => Sys2Proof.Machine.execFlashCmdDone error s
  -- Ephemeris
  | .ephCmdqTailWrite a tail => Sys2Proof.Machine.execEphCmdqTailWrite a tail s
  | .boundary => Sys2Proof.Machine.execBoundary s
  | .rollback => Sys2Proof.Machine.execRollback s
  | .restore => Sys2Proof.Machine.execRestore s
  | .endEpoch => Sys2Proof.Machine.execEndEpoch s
  | .ephDrain => Sys2Proof.Machine.execEphDrain s
  | .ephDestCommit d => Sys2Proof.Machine.execEphDestCommit d s
  | .ephDrainEnd => Sys2Proof.Machine.execEphDrainEnd s
  | .ephWarnSample => Sys2Proof.Machine.execEphWarnSample s
  -- Memory integrity, clocks, resets
  | .flipArm a t value => Sys2Proof.Machine.execFlipArm a t value s
  | .sourceStable c => Sys2Proof.Machine.execSourceStable c s
  | .sourceFail c => Sys2Proof.Machine.execSourceFail c s
  | .safeRelease a => Sys2Proof.Machine.execSafeRelease a s
  | .tbStep a offset => Sys2Proof.Machine.execTbStep a offset s
  | .txtsTimeRead a p => Sys2Proof.Machine.execTxtsTimeRead a p s
  | .inputChange idx on => Sys2Proof.Machine.execInputChange idx on s
  | .inputStuck idx => Sys2Proof.Machine.execInputStuck idx s
  | .warmReset c => Sys2Proof.Machine.execWarmReset c s
  | .warmResetReq a => Sys2Proof.Machine.execWarmResetReq a s
  | .powerOnResetEnd => Sys2Proof.Machine.execPowerOnResetEnd s
  | .bootCellsEnable => Sys2Proof.Machine.execBootCellsEnable s
  | .dpPerstRelease k => Sys2Proof.Machine.execDpPerstRelease k s
  -- Heliostat
  | .helTick t => Sys2Proof.Machine.execHelTick t s
  | .helWindow => Sys2Proof.Machine.execHelWindow s
  | .thermalSample dies => Sys2Proof.Machine.execThermalSample dies s
  | .helDerate a cell steps => Sys2Proof.Machine.execHelDerate a cell steps s
  -- Dome cores and the host
  | .watchdogExpiry n => Sys2Proof.Machine.execWatchdogExpiry n s
  | .wdtKick a n => Sys2Proof.Machine.execWdtKick a n s
  | .domeCoreStart n => Sys2Proof.Machine.execDomeCoreStart n s
  | .hostHeartbeat p count => Sys2Proof.Machine.execHostHeartbeat p count s
  | .heartbeatExpiry p => Sys2Proof.Machine.execHeartbeatExpiry p s
  | .attach a p => Sys2Proof.Machine.execAttach a p s
  -- Exposures and the module
  | .exposureEnable a periodUs => Sys2Proof.Machine.execExposureEnable a periodUs s
  | .exposureTick => Sys2Proof.Machine.execExposureTick s
  | .inputPowerUp => Sys2Proof.Machine.execInputPowerUp s
  | .pwrEnAssert => Sys2Proof.Machine.execPwrEnAssert s
  | .pwrEnDeassert => Sys2Proof.Machine.execPwrEnDeassert s
  | .powerLoss => Sys2Proof.Machine.execPowerLoss s
  | .thermalShutdown => Sys2Proof.Machine.execThermalShutdown s
  | .pfcPauseExpiry p half prio => Sys2Proof.Machine.execPfcPauseExpiry p half prio s
  | .flowMeterRefill flow bytes => Sys2Proof.Machine.execFlowMeterRefill flow bytes s
  | .mctpRequest smbus addr sensor => Sys2Proof.Machine.execMctpRequest smbus addr sensor s
  | .standbyRailLoss => Sys2Proof.Machine.execStandbyRailLoss s
  | .pcieLinkError j e header => Sys2Proof.Machine.execPcieLinkError j e header s
  -- Exceptions of an XQ core before an instruction
  | .undefinedEncoding core word => Sys2Proof.Machine.execUndefinedEncoding core word s
  | .instructionFetchFault core => Sys2Proof.Machine.execInstructionFetchFault core s

end Sys2Proof.Machine
end

