-- ==== Sys2Proof/Safety.lean ====
section
/-! DEFINITION. What holds of every state that is well kept, and what no step may undo. -/

namespace Sys2Proof.Machine

open Sys2Proof

/-- The stored memories are kept in canonical form, and hold nothing where no write has been: a line whose valid bit is 0 has no stored
byte but 0 and no error (R599, R600). -/
structure State.Inv (s : State) : Prop where
  mem : Memory.wf s.mem = true
  lineErr : smapWf (fun _ => LineErr.clean) s.lineErr = true
  valid : smapWf (fun _ => false) s.valid = true
  bits : smapWf (fun _ => false) s.bits = true
  blank : ∀ p ∈ s.mem, s.lineValid (lineOf p.1) = true
  clean : ∀ p ∈ s.lineErr, s.lineValid p.1 = true

/-- R563: the security version the fuses surely hold, whatever becomes of the commit in progress. -/
def State.svnFloor (s : State) : Nat := min s.fuseSvn (s.rot.svnFrom.getD s.fuseSvn)

/-- What no step undoes: the memories stay well kept, the queue of commands keeps what waits in it, a fuse once blown stays blown (R563,
R564), and a free value once used is not used again. -/
structure State.Keeps (s t : State) : Prop where
  inv : s.Inv → t.Inv
  queue : t.pending = s.pending
  svn : s.svnFloor ≤ t.svnFloor
  revoked : ∀ k, s.revokedSlots.testBit k = true → t.revokedSlots.testBit k = true
  free : s.freeCount ≤ t.freeCount

/-- A step is safe: it answers a next state. -/
def Safe (o : Host.Outcome State Fault Refusal) : Prop := ∃ t, o = .next t

end Sys2Proof.Machine
end

