-- ==== Sys2Proof/Certificates/Slice0/Obligations.lean ====
section
/-! DEFINITION. The statements for the provers, and the words they are stated in. -/

namespace Sys2Proof.Machine

open Sys2Proof

/-! ## Words of the statements about XQ -/

/-- A core is at an instruction boundary at which its next instruction executes: its island runs (R612), it runs, is not asleep in WAITB, is halted only in
a STEP, no interrupt is takeable (R260) and no breakpoint matches (R320). -/
structure State.Ready (s : State) (c : CoreRef) : Prop where
  live : s.stopped = false
  running : (s.core c).running = true
  awake : (s.core c).asleep = none
  going : s.halted c = true → (s.core c).stepping = true
  quiet : (s.core c).stepping = false → s.takeable c = none
  clear : s.breakpoint c = none

/-- R270: the register fields name registers that the core has. -/
def Named (c : CoreRef) (regs : List (Fin 32)) : Prop := c.isFilter = true → ∀ r ∈ regs, r.val < 16

/-- R671: the photometers once the core has completed an instruction: event 0 of its cell kind counted. -/
def State.counted (s : State) (c : CoreRef) : SMap (BitVec 64) :=
  match c with
  | .guider _ => (s.count c.cell (evOf 0x18 0)).phot
  | .dome _ => (s.count c.cell (evOf 0x2F 0)).phot
  | .filter _ => s.phot

/-- The instruction of core c ends and nothing else happens: the core holds k with the pc given, halted again if a STEP was in
progress (R320); its completion is counted (R671); every other core, all of memory, every bit and every other register are those
of s. -/
structure State.Retires (s t : State) (c : CoreRef) (pc : Word) (k : CoreState) : Prop where
  core : t.core c = { k with pc := pc, stepping := false }
  others : ∀ d, d ≠ c → t.core d = s.core d
  halt : t.regs = if (s.core c).stepping then (s.haltCore c 2 0).regs else s.regs
  counts : t.phot = s.counted c
  rest : t = { s with cores := t.cores, regs := t.regs, phot := t.phot }

/-- Executing i on core c ends in the next instruction, `len` bytes on, with the core holding `out r f` for a result r and flags f that
are as `ok` says. -/
def State.Yields (s : State) (i : Instr) (c : CoreRef) (len : Nat) (out : Word → FlagUpd → CoreState)
    (ok : Word → FlagUpd → Prop) : Prop :=
  ∃ t r f, exec i s = .next t ∧ ok r f ∧ s.Retires t c ((s.core c).pc + BitVec.ofNat 64 len) (out r f)

/-- R271: an operation of two sources, at 64 bits, or under W at 32 bits with the result sign-extended. -/
def InWidth (w : Bool) (a b : Word) (P : {n : Nat} → BitVec n → BitVec n → BitVec n → FlagUpd → Prop) (r : Word) (f : FlagUpd) : Prop :=
  if w then ∃ r32 : BitVec 32, r = r32.signExtend 64 ∧ P (a.setWidth 32) (b.setWidth 32) r32 f else P a b r f

/-- R220: Z is 1 when the result is zero, N is its top bit. -/
def ZNof {n : Nat} (r : BitVec n) (f : FlagUpd) : Prop :=
  f.z = some (decide (r.toNat = 0)) ∧ f.n = some (decide (2 ^ n ≤ 2 * r.toNat))

/-- A signed number has n bits. -/
def FitsSigned (n : Nat) (x : Int) : Prop := -(2 : Int) ^ n ≤ 2 * x ∧ 2 * x < (2 : Int) ^ n

/-- R220: r is a + b + carry, C the carry out, V the signed overflow. -/
def AddsTo (cin : Bool) {n : Nat} (a b r : BitVec n) (f : FlagUpd) : Prop :=
  r.toNat = (a.toNat + b.toNat + cin.toNat) % 2 ^ n ∧ ZNof r f ∧
  (∃ c v, f.c = some c ∧ f.v = some v ∧ (c = true ↔ 2 ^ n ≤ a.toNat + b.toNat + cin.toNat) ∧
    (v = true ↔ ¬ FitsSigned n (a.toInt + b.toInt + cin.toNat)))

/-- R220: r is a − b − borrow, C that no borrow occurs, V the signed overflow. -/
def SubtractsTo (borrow : Bool) {n : Nat} (a b r : BitVec n) (f : FlagUpd) : Prop :=
  (r.toNat : Int) = ((a.toNat : Int) - b.toNat - borrow.toNat) % 2 ^ n ∧ ZNof r f ∧
  (∃ c v, f.c = some c ∧ f.v = some v ∧ (c = true ↔ b.toNat + borrow.toNat ≤ a.toNat) ∧
    (v = true ↔ ¬ FitsSigned n (a.toInt - b.toInt - borrow.toNat)))

/-- The instruction writes Z and N only. -/
def OnlyZN {n : Nat} (r : BitVec n) (f : FlagUpd) : Prop := ZNof r f ∧ f.c = none ∧ f.v = none

/-- R275: the halves of a product. -/
def LowHalf {n : Nat} (a b r : BitVec n) (f : FlagUpd) : Prop := r.toNat = a.toNat * b.toNat % 2 ^ n ∧ OnlyZN r f
def HighHalf {n : Nat} (a b r : BitVec n) (f : FlagUpd) : Prop := r.toNat = a.toNat * b.toNat / 2 ^ n ∧ OnlyZN r f
def HighHalfSigned {n : Nat} (a b r : BitVec n) (f : FlagUpd) : Prop := r.toInt = a.toInt * b.toInt / 2 ^ n ∧ OnlyZN r f

/-- R276: the most negative number divided by −1. -/
def DivOverflows {n : Nat} (a b : BitVec n) : Prop := 2 * a.toNat = 2 ^ n ∧ b.toInt = -1

/-- R276: the flags of a division: Z, N, and V where it says so. -/
def DivFlagsAre {n : Nat} (r : BitVec n) (f : FlagUpd) (ovf : Prop) : Prop :=
  ZNof r f ∧ f.c = none ∧ ∃ v, f.v = some v ∧ (v = true ↔ ovf)

/-- R276: the quotients and remainders. -/
def DividesTo {n : Nat} (a b r : BitVec n) (f : FlagUpd) : Prop :=
  (b.toNat = 0 → r.toNat = 2 ^ n - 1) ∧ (b.toNat ≠ 0 → r.toNat = a.toNat / b.toNat) ∧ DivFlagsAre r f (b.toNat = 0)
def RemainsTo {n : Nat} (a b r : BitVec n) (f : FlagUpd) : Prop :=
  (b.toNat = 0 → r = a) ∧ (b.toNat ≠ 0 → r.toNat = a.toNat % b.toNat) ∧ DivFlagsAre r f (b.toNat = 0)
def DividesSigned {n : Nat} (a b r : BitVec n) (f : FlagUpd) : Prop :=
  (b.toNat = 0 → r.toNat = 2 ^ n - 1) ∧ (DivOverflows a b → r = a) ∧
  (b.toNat ≠ 0 → ¬ DivOverflows a b → r.toInt = a.toInt.tdiv b.toInt) ∧ DivFlagsAre r f (b.toNat = 0 ∨ DivOverflows a b)
def RemainsSigned {n : Nat} (a b r : BitVec n) (f : FlagUpd) : Prop :=
  (b.toNat = 0 → r = a) ∧ (DivOverflows a b → r.toNat = 0) ∧
  (b.toNat ≠ 0 → ¬ DivOverflows a b → r.toInt = a.toInt.tmod b.toInt) ∧ DivFlagsAre r f (b.toNat = 0 ∨ DivOverflows a b)

/-- R278: a result whose bit i is `bit i`, with Z and N. -/
def BitsAre {n : Nat} (bit : Nat → Bool) (r : BitVec n) (f : FlagUpd) : Prop := (∀ i < n, r.getLsbD i = bit i) ∧ OnlyZN r f

/-- R278: a shift: bit i of the result, and C the bit `last` unless the amount is 0, which leaves C unchanged. -/
def ShiftsTo {n : Nat} (amount : Nat) (bit : Nat → Bool) (last : Bool) (r : BitVec n) (f : FlagUpd) : Prop :=
  (∀ i < n, r.getLsbD i = bit i) ∧ ZNof r f ∧ f.v = none ∧ f.c = if amount = 0 then none else some last

/-- R278: the shifts of a by k places: left, right with zeros, right with the sign, and the rotation right. -/
def ShlOf (k : Nat) {n : Nat} (a r : BitVec n) (f : FlagUpd) : Prop :=
  ShiftsTo k (fun i => decide (k ≤ i) && a.getLsbD (i - k)) (a.getLsbD (n - k)) r f
def ShrOf (k : Nat) {n : Nat} (a r : BitVec n) (f : FlagUpd) : Prop := ShiftsTo k (fun i => a.getLsbD (i + k)) (a.getLsbD (k - 1)) r f
def SarOf (k : Nat) {n : Nat} (a r : BitVec n) (f : FlagUpd) : Prop :=
  ShiftsTo k (fun i => if i + k < n then a.getLsbD (i + k) else a.msb) (a.getLsbD (k - 1)) r f
def RorOf (k : Nat) {n : Nat} (a r : BitVec n) (f : FlagUpd) : Prop := ShiftsTo k (fun i => a.getLsbD ((i + k) % n)) r.msb r f

/-- R278: the counts. -/
def LeadingZeros {n : Nat} (a r : BitVec n) (f : FlagUpd) : Prop :=
  (a.toNat = 0 → r.toNat = n) ∧ (a.toNat ≠ 0 → 2 ^ n ≤ a.toNat * 2 ^ (r.toNat + 1) ∧ a.toNat * 2 ^ r.toNat < 2 ^ n) ∧ OnlyZN r f
def TrailingZeros {n : Nat} (a r : BitVec n) (f : FlagUpd) : Prop :=
  (a.toNat = 0 → r.toNat = n) ∧ (a.toNat ≠ 0 → 2 ^ r.toNat ∣ a.toNat ∧ ¬ 2 ^ (r.toNat + 1) ∣ a.toNat) ∧ OnlyZN r f
def OnesOf {n : Nat} (a r : BitVec n) (f : FlagUpd) : Prop := r.toNat = (List.range n).countP (fun i => a.getLsbD i) ∧ OnlyZN r f

end Sys2Proof.Machine

open Sys2Proof Sys2Proof.Machine in
/-- R220, R271, R275, R276: the integer arithmetic group, at 64 bits and under W, on every core kind: the result, the flags, the next
instruction 4 bytes on, and nothing else changed. ADC and SBC take C as it stood; CMP writes no register. -/
def Obligations.IntegerArithmeticGivesResultAndFlags : Prop :=
  ∀ (s : State) (c : CoreRef) (w : Bool) (rd ra rb : Fin 32), s.Ready c → Named c [rd, ra, rb] →
    let k := s.core c
    let a := k.get ra
    let b := k.get rb
    let both := fun (r : Word) (f : FlagUpd) => (k.set rd r).setFlags f
    s.Yields (.add c w rd ra rb) c 4 both (InWidth w a b (AddsTo false)) ∧
    s.Yields (.sub c w rd ra rb) c 4 both (InWidth w a b (SubtractsTo false)) ∧
    s.Yields (.adc c w rd ra rb) c 4 both (InWidth w a b (AddsTo k.c)) ∧
    s.Yields (.sbc c w rd ra rb) c 4 both (InWidth w a b (SubtractsTo !k.c)) ∧
    s.Yields (.cmp c w ra rb) c 4 (fun _ f => k.setFlags f) (InWidth w a b (SubtractsTo false)) ∧
    s.Yields (.neg c w rd ra) c 4 both (InWidth w 0 a (SubtractsTo false)) ∧
    s.Yields (.mul c w rd ra rb) c 4 both (InWidth w a b LowHalf) ∧
    s.Yields (.mulhu c w rd ra rb) c 4 both (InWidth w a b HighHalf) ∧
    s.Yields (.mulhs c w rd ra rb) c 4 both (InWidth w a b HighHalfSigned) ∧
    s.Yields (.divu c w rd ra rb) c 4 both (InWidth w a b DividesTo) ∧
    s.Yields (.divs c w rd ra rb) c 4 both (InWidth w a b DividesSigned) ∧
    s.Yields (.remu c w rd ra rb) c 4 both (InWidth w a b RemainsTo) ∧
    s.Yields (.rems c w rd ra rb) c 4 both (InWidth w a b RemainsSigned)


open Sys2Proof Sys2Proof.Machine in
/-- R220, R271, R273, R277, R278, R279: The logic, shift and count group, at 64 bits and under W where the group allows it. A shift takes
its amount from rb[5:0], or rb[4:0] under W. The immediate instructions in their short (14-bit, 4 bytes) and long (32-bit, 8 bytes) forms,
signed immediates sign-extended and unsigned ones zero-extended, and SEL.cc. MOVI, LMOVHI and SEL write no flags. -/
def Obligations.LogicShiftsAndImmediatesGiveResult : Prop :=
  (∀ (s : State) (c : CoreRef) (w : Bool) (rd ra rb : Fin 32), s.Ready c → Named c [rd, ra, rb] →
    let k := s.core c
    let a := k.get ra
    let b := k.get rb
    let n := b.toNat % (if w then 32 else 64)
    let both := fun (r : Word) (f : FlagUpd) => (k.set rd r).setFlags f
    s.Yields (.and c w rd ra rb) c 4 both (InWidth w a b fun a b => BitsAre fun i => a.getLsbD i && b.getLsbD i) ∧
    s.Yields (.or c w rd ra rb) c 4 both (InWidth w a b fun a b => BitsAre fun i => a.getLsbD i || b.getLsbD i) ∧
    s.Yields (.xor c w rd ra rb) c 4 both (InWidth w a b fun a b => BitsAre fun i => a.getLsbD i != b.getLsbD i) ∧
    s.Yields (.andn c w rd ra rb) c 4 both (InWidth w a b fun a b => BitsAre fun i => a.getLsbD i && !b.getLsbD i) ∧
    s.Yields (.tst c w ra rb) c 4 (fun _ f => k.setFlags f) (InWidth w a b fun a b => BitsAre fun i => a.getLsbD i && b.getLsbD i) ∧
    s.Yields (.shl c w rd ra rb) c 4 both (InWidth w a b fun a _ => ShlOf n a) ∧
    s.Yields (.shr c w rd ra rb) c 4 both (InWidth w a b fun a _ => ShrOf n a) ∧
    s.Yields (.sar c w rd ra rb) c 4 both (InWidth w a b fun a _ => SarOf n a) ∧
    s.Yields (.ror c w rd ra rb) c 4 both (InWidth w a b fun a _ => RorOf n a) ∧
    s.Yields (.clz c w rd ra) c 4 both (InWidth w a a fun a _ => LeadingZeros a) ∧
    s.Yields (.ctz c w rd ra) c 4 both (InWidth w a a fun a _ => TrailingZeros a) ∧
    s.Yields (.popc c w rd ra) c 4 both (InWidth w a a fun a _ => OnesOf a) ∧
    s.Yields (.bswap c w rd ra) c 4 both
      (InWidth w a a fun {m} a _ => BitsAre fun i => a.getLsbD (8 * (m / 8 - 1 - i / 8) + i % 8)) ∧
    s.Yields (.sextb c rd ra) c 4 both (BitsAre fun i => a.getLsbD (min i 7)) ∧
    s.Yields (.sexth c rd ra) c 4 both (BitsAre fun i => a.getLsbD (min i 15)) ∧
    s.Yields (.sextw c rd ra) c 4 both (BitsAre fun i => a.getLsbD (min i 31)) ∧
    s.Yields (.zextw c rd ra) c 4 both (BitsAre fun i => decide (i < 32) && a.getLsbD i)) ∧
  (∀ (s : State) (c : CoreRef) (w : Bool) (rd ra rb : Fin 32) (imm : Imm) (amount : BitVec 6) (hi : BitVec 32) (q : Cond),
    s.Ready c → Named c [rd, ra, rb] →
    let k := s.core c
    let a := k.get ra
    let sx : Word := match imm with
      | .short v => BitVec.ofInt 64 v.toInt
      | .long v => BitVec.ofInt 64 v.toInt
    let zx : Word := match imm with
      | .short v => BitVec.ofNat 64 v.toNat
      | .long v => BitVec.ofNat 64 v.toNat
    let len := match imm with
      | .short _ => 4
      | .long _ => 8
    let n := amount.toNat % (if w then 32 else 64)
    let both := fun (r : Word) (f : FlagUpd) => (k.set rd r).setFlags f
    let plain := fun (r : Word) (_ : FlagUpd) => k.set rd r
    s.Yields (.addi c rd ra imm) c len both (AddsTo false a sx) ∧
    s.Yields (.cmpi c ra imm) c len (fun _ f => k.setFlags f) (SubtractsTo false a sx) ∧
    s.Yields (.andi c rd ra imm) c len both (BitsAre fun i => a.getLsbD i && zx.getLsbD i) ∧
    s.Yields (.ori c rd ra imm) c len both (BitsAre fun i => a.getLsbD i || zx.getLsbD i) ∧
    s.Yields (.xori c rd ra imm) c len both (BitsAre fun i => a.getLsbD i != zx.getLsbD i) ∧
    s.Yields (.shli c w rd ra amount) c 4 both (InWidth w a a fun a _ => ShlOf n a) ∧
    s.Yields (.shri c w rd ra amount) c 4 both (InWidth w a a fun a _ => ShrOf n a) ∧
    s.Yields (.sari c w rd ra amount) c 4 both (InWidth w a a fun a _ => SarOf n a) ∧
    s.Yields (.movi c rd imm) c len plain (fun r _ => r = sx) ∧
    s.Yields (.lmovhi c rd hi) c 8 plain (fun r _ => ∀ i < 64, r.getLsbD i = if i < 32 then (k.get rd).getLsbD i else hi.getLsbD (i - 32)) ∧
    s.Yields (.sel c q rd ra rb) c 4 plain (fun r _ =>
      let holds : Prop := match q with
        | .eq => k.z = true | .ne => k.z = false | .cs => k.c = true | .cc => k.c = false | .mi => k.n = true | .pl => k.n = false
        | .vs => k.ov = true | .vc => k.ov = false | .hi => k.c = true ∧ k.z = false | .ls => k.c = false ∨ k.z = true
        | .ge => k.n = k.ov | .lt => k.n ≠ k.ov | .gt => k.z = false ∧ k.n = k.ov | .le => k.z = true ∨ k.n ≠ k.ov | .al => True
      (holds → r = a) ∧ (¬ holds → r = k.get rb)))

namespace Sys2Proof.Machine

/-! ## Words of the statements about memory -/

/-- R226 to R229: the n bytes at program address a are reached by core c, at m in its local memory or in the memories of the part, and
no check refuses the access: aligned (R227), inside an enabled window with the right in U mode (R228), mapped, touching no ring in
force and not the Dome reserve (R187, R652), every cell ENABLED. -/
def State.Reaches (s : State) (c : CoreRef) (a n : Nat) (write : Bool) (m : Nat) : Prop :=
  a % n = 0 ∧
  ((s.core c).mode c = modeU → (s.core c).windowGrants c a n (if write then 2 else 1) = true) ∧
  ((localWindow ≤ a ∧ a < localWindow + localSize c.cell ∧ m = localBase c.cell + (a - localWindow)) ∨
    (c.isFilter = false ∧ m = a ∧ extentMapped a n = true ∧ s.refusedRange c.isGuider a n = none ∧ s.memUp a n = true))

/-- R594: the n bytes at m as a read of their line delivers them, the first byte the least significant. -/
def State.lineValue (s : State) (m n : Nat) : Nat := leNat (((s.readLine (lineOf m) false).bytes.drop (m % 64)).take n)

/-- R594, R595: the state after a read of the line that holds m: counted, and its record made. -/
def State.lineRead (s : State) (m : Nat) : State := s.noteRead (lineOf m) (s.readLine (lineOf m) false)

/-- R597: the state after a write of n bytes at m. -/
def State.stored (s : State) (m n v : Nat) : State := s.writeMem m (natLe n v) false 2

/-- A line with no error, no flip mask armed for it, and not in a protected granule that a write would copy first. -/
def State.PlainLine (s : State) (m : Nat) : Prop :=
  s.lineErrOf (lineOf m) = LineErr.clean ∧ s.flipFor (lineOf m) = none ∧ s.copyOnWrite m = s

/-- Core c executes i, which retires with the core as k, in the state u that its accesses leave. -/
def State.Runs (s : State) (i : Instr) (c : CoreRef) (len : Nat) (u : State) (k : CoreState) : Prop :=
  ∃ t, exec i s = .next t ∧ u.Retires t c ((s.core c).pc + BitVec.ofNat 64 len) k

/-- Core c executes i and takes the exception e (R256), with `xpc` the instruction, in the state u that its accesses leave. -/
def State.Traps (s : State) (i : Instr) (c : CoreRef) (e : Exc) (u : State) : Prop :=
  exec i s = .next ((u.takeException c e (s.core c).pc).afterInstr c)

/-- R280: a load instruction: its size, its command, and what it makes of the bytes read. -/
def loadForms (c : CoreRef) (rd ra : Fin 32) (imm : Imm) : List (Nat × Instr × (Nat → Word)) :=
  [(1, .ldb c rd ra imm, fun v => BitVec.ofNat 64 v), (2, .ldh c rd ra imm, fun v => BitVec.ofNat 64 v),
   (4, .ldw c rd ra imm, fun v => BitVec.ofNat 64 v), (8, .ldd c rd ra imm, fun v => BitVec.ofNat 64 v),
   (1, .ldbs c rd ra imm, fun v => BitVec.ofInt 64 (BitVec.ofNat 8 v).toInt),
   (2, .ldhs c rd ra imm, fun v => BitVec.ofInt 64 (BitVec.ofNat 16 v).toInt),
   (4, .ldws c rd ra imm, fun v => BitVec.ofInt 64 (BitVec.ofNat 32 v).toInt)]

/-- R280: a store instruction: its size and its command. -/
def storeForms (c : CoreRef) (rs ra : Fin 32) (imm : Imm) : List (Nat × Instr) :=
  [(1, .stb c rs ra imm), (2, .sth c rs ra imm), (4, .stw c rs ra imm), (8, .std c rs ra imm)]

/-- R281: the new memory value of an atomic of w bits, from the old one, rd and rb; none writes nothing (CAS). -/
def atomicForms (c : CoreRef) (half : Bool) (rd ra rb : Fin 32) :
    List (Instr × ((w : Nat) → BitVec w → BitVec w → BitVec w → Option (BitVec w))) :=
  [(.swap c half rd ra rb, fun _ _ _ b => some b), (.cas c half rd ra rb, fun _ o d b => if o = d then some b else none),
   (.fadd c half rd ra rb, fun w o _ b => some (BitVec.ofNat w (o.toNat + b.toNat))), (.fand c half rd ra rb, fun _ o _ b => some (o &&& b)),
   (.for_ c half rd ra rb, fun _ o _ b => some (o ||| b)), (.fxor c half rd ra rb, fun _ o _ b => some (o ^^^ b)),
   (.fmaxu c half rd ra rb, fun w o _ b => some (BitVec.ofNat w (max o.toNat b.toNat))),
   (.fminu c half rd ra rb, fun w o _ b => some (BitVec.ofNat w (min o.toNat b.toNat))),
   (.fmaxs c half rd ra rb, fun w o _ b => some (BitVec.ofInt w (max o.toInt b.toInt))),
   (.fmins c half rd ra rb, fun w o _ b => some (BitVec.ofInt w (min o.toInt b.toInt)))]

def Imm.ext : Imm → Word
  | .short v => BitVec.ofInt 64 v.toInt
  | .long v => BitVec.ofInt 64 v.toInt

end Sys2Proof.Machine

open Sys2Proof Sys2Proof.Machine in
/-- R227, R229, R280: a load of n bytes at ra + imm that nothing refuses writes rd with the bytes read, zero- or sign-extended, and
changes no other register and no memory; a line with no error gives its stored bytes. A line that reads with a poison mark takes
POISON with the line's address, and a misaligned address takes ALIGN: rd is not written. -/
def Obligations.LoadsReadMemory : Prop :=
  ∀ (s : State) (c : CoreRef) (rd ra : Fin 32) (imm : Imm) (m : Nat), s.Ready c → Named c [rd, ra] →
    let k := s.core c
    let a := (k.get ra + imm.ext).toNat
    ∀ f ∈ loadForms c rd ra imm,
      let fl := 16 * f.1.log2
      (s.Reaches c a f.1 false m → (s.readLine (lineOf m) false).poison = false →
        s.Runs f.2.1 c imm.len (s.lineRead m) (k.set rd (f.2.2 (s.lineValue m f.1)))) ∧
      (s.Reaches c a f.1 false m → (s.readLine (lineOf m) false).poison = true →
        s.Traps f.2.1 c (accExc causePoison (a - a % 64) fl) (s.lineRead m)) ∧
      (a % f.1 ≠ 0 → s.Traps f.2.1 c (accExc causeAlign a fl) s) ∧
      (s.Reaches c a f.1 false m → s.lineErrOf (lineOf m) = LineErr.clean →
        (s.readLine (lineOf m) false).poison = false ∧ s.lineValue m f.1 = leNat (s.bytes m f.1) ∧
        (s.lineRead m).regs = s.regs ∧ (s.lineRead m).bits = s.bits)

open Sys2Proof Sys2Proof.Machine in
/-- R227, R280: a store at ra + imm that nothing refuses writes the low n bytes of its source register and changes no core register
but pc. In a line with no error, no armed flip mask and no copy-on-write due, each of the n bytes from the address reads as the
register's, and every other byte of memory reads as before. A misaligned address takes ALIGN and writes nothing. -/
def Obligations.StoresWriteMemory : Prop :=
  ∀ (s : State) (c : CoreRef) (rs ra : Fin 32) (imm : Imm) (m : Nat), s.Ready c → Named c [rs, ra] →
    let k := s.core c
    let a := (k.get ra + imm.ext).toNat
    ∀ f ∈ storeForms c rs ra imm,
      (s.Reaches c a f.1 true m → s.Runs f.2 c imm.len (s.stored m f.1 (k.get rs).toNat) k ∧
        (s.PlainLine m → ∀ t, exec f.2 s = .next t →
          (∀ x, t.byte x = if m ≤ x ∧ x < m + f.1 then BitVec.ofNat 8 ((k.get rs).toNat / 2 ^ (8 * (x - m))) else s.byte x) ∧
          (∀ la, t.lineErrOf la = s.lineErrOf la) ∧ t.regs = (if k.stepping then (s.haltCore c 2 0).regs else s.regs))) ∧
      (a % f.1 ≠ 0 → s.Traps f.2 c (accExc causeAlign a (1 + 16 * f.1.log2)) s)

open Sys2Proof Sys2Proof.Machine in
/-- R281, R282: an atomic of 4 or 8 bytes at ra reads the old value, writes the new one (CAS only where the old value is rd's), and gives
rd the old value zero-extended; CAS sets Z exactly when it writes, the others leave the flags. A read that returns poison takes
POISON and writes nothing; an address in register space takes ACCESS in every mode, and leaves the error record of R52, R68 or R69. -/
def Obligations.AtomicsReadModifyWrite : Prop :=
  ∀ (s : State) (c : CoreRef) (half : Bool) (rd ra rb : Fin 32) (m : Nat), s.Ready c → c.isFilter = false →
    let k := s.core c
    let a := (k.get ra).toNat
    let n := if half then 4 else 8
    ∀ f ∈ atomicForms c half rd ra rb,
      let old := BitVec.ofNat (8 * n) (s.lineValue m n)
      let new := f.2 (8 * n) old ((k.get rd).setWidth (8 * n)) ((k.get rb).setWidth (8 * n))
      let k' := k.set rd (BitVec.ofNat 64 (s.lineValue m n))
      (s.Reaches c a n false m → s.Reaches c a n true m → (s.readLine (lineOf m) false).poison = false →
        s.Runs f.1 c 4 (match new with
            | some v => (s.lineRead m).stored m n v.toNat
            | none => s.lineRead m)
          (match f.1 with
            | .cas _ _ _ _ _ => { k' with z := new.isSome }
            | _ => k')) ∧
      (s.Reaches c a n false m → s.Reaches c a n true m → (s.readLine (lineOf m) false).poison = true →
        s.Traps f.1 c (accExc causePoison (a - a % 64) (16 * n.log2)) (s.lineRead m)) ∧
      (a % n = 0 → 0x020000000000 ≤ a → a ≤ 0x02FFFFFFFFFF → s.Traps f.1 c (accExc causeAccess a (16 * n.log2)) (s.regRefused c a n true))

open Sys2Proof Sys2Proof.Machine in
/-- R238, R239, R284: the data stack. A push of registers leaves ds 8 lower for each and the values at their slots, the last on top; a pop
takes them back in the other order and raises ds; ADDDS moves ds within its bounds and GETDS reads it. None writes flags. A ds out
of alignment takes ALIGN, a push below `dslo` DS_OVER, a pop above `dshi` DS_UNDER. -/
def Obligations.DataStackPushesAndPops : Prop :=
  ∀ (s : State) (c : CoreRef) (ra rb : Fin 32) (imm : BitVec 14) (at_ : Nat → Nat), s.Ready c → c.isFilter = false →
    let k := s.core c
    let ds := k.ds c
    let bank := crBank (k.mode c)
    let pushed := fun (n : Nat) (v : Nat → Word) =>
      (List.range n).foldl (fun u i => u.stored (at_ i) 8 (v i).toNat) s
    let popped := fun (n : Nat) => (List.range n).foldl (fun u i => u.lineRead (at_ i)) s
    let canPush := fun (n : Nat) => ds.toNat % 8 = 0 ∧
      ∀ i < n, k.dslo c ≤ ds - BitVec.ofNat 64 (8 * (i + 1)) ∧ s.Reaches c (ds - BitVec.ofNat 64 (8 * (i + 1))).toNat 8 true (at_ i)
    let canPop := fun (n : Nat) => ds.toNat % 8 = 0 ∧
      ∀ i < n, ds + BitVec.ofNat 64 (8 * (i + 1)) ≤ k.dshi c ∧ s.Reaches c (ds + BitVec.ofNat 64 (8 * i)).toNat 8 false (at_ i) ∧
        (s.readLine (lineOf (at_ i)) false).poison = false
    let count := rb.val + 1 - ra.val
    let reg := fun (i : Nat) => k.get (Fin.ofNat 32 (ra.val + i))
    let taken := fun (i : Nat) => BitVec.ofNat 64 (s.lineValue (at_ i) 8)
    (canPush 1 → s.Runs (.push c ra) c 4 (pushed 1 fun _ => k.get ra) (k.crPut c bank (ds - 8))) ∧
    (ra ≤ rb → canPush count →
      s.Runs (.pushm c ra rb) c 4 (pushed count reg) (k.crPut c bank (ds - BitVec.ofNat 64 (8 * count)))) ∧
    (canPop 1 → s.Runs (.pop c ra) c 4 (popped 1) ((k.crPut c bank (ds + 8)).set ra (taken 0))) ∧
    (ra ≤ rb → canPop count →
      ∃ k', s.Runs (.popm c ra rb) c 4 (popped count) k' ∧
        { k' with g := k.g } = k.crPut c bank (ds + BitVec.ofNat 64 (8 * count)) ∧
        ∀ r : Fin 32, k'.get r = if ra ≤ r ∧ r ≤ rb then taken (rb.val - r.val) else k.get r) ∧
    (imm.toNat % 8 = 0 → k.dslo c ≤ ds + imm.signExtend 64 → ds + imm.signExtend 64 ≤ k.dshi c →
      s.Runs (.addds c imm) c 4 s (k.crPut c bank (ds + imm.signExtend 64))) ∧
    s.Runs (.getds c ra imm) c 4 s (k.set ra (ds + imm.signExtend 64)) ∧
    (ds.toNat % 8 ≠ 0 → s.Traps (.push c ra) c (accExc causeAlign (ds - 8).toNat (1 + 4 + 16 * 3)) s ∧
      s.Traps (.pop c ra) c (accExc causeAlign ds.toNat (4 + 16 * 3)) s) ∧
    (ds.toNat % 8 = 0 → ds - 8 < k.dslo c → s.Traps (.push c ra) c { cause := causeDsOver, xaddr := ds - 8 } s) ∧
    (ds.toNat % 8 = 0 → k.dshi c < ds + 8 → s.Traps (.pop c ra) c { cause := causeDsUnder, xaddr := ds } s)


namespace Sys2Proof.Machine

/-- Core c executes i, which retires with the pc given and the core as k, in the state u that its accesses leave. -/
def State.RunsTo (s : State) (i : Instr) (c : CoreRef) (pc : Word) (u : State) (k : CoreState) : Prop :=
  ∃ t, exec i s = .next t ∧ u.Retires t c pc k

/-- R283: the displacement of a branch in bytes: words times 4 in the short forms, bytes in the long ones. -/
def BrOff.bytes : BrOff → Word
  | .short v => BitVec.ofInt 64 (4 * v.toInt)
  | .long v => BitVec.ofInt 64 v.toInt
def CallOff.bytes : CallOff → Word
  | .short v => BitVec.ofInt 64 (4 * v.toInt)
  | .long v => BitVec.ofInt 64 v.toInt

/-- R273: a condition holds on the flags of a core. -/
def CoreState.Meets (k : CoreState) (q : Cond) : Prop :=
  match q with
  | .eq => k.z = true | .ne => k.z = false | .cs => k.c = true | .cc => k.c = false | .mi => k.n = true | .pl => k.n = false
  | .vs => k.ov = true | .vc => k.ov = false | .hi => k.c = true ∧ k.z = false | .ls => k.c = false ∨ k.z = true
  | .ge => k.n = k.ov | .lt => k.n ≠ k.ov | .gt => k.z = false ∧ k.n = k.ov | .le => k.z = true ∨ k.n ≠ k.ov | .al => True

/-- R256: from s with core c as k, the core has entered the handler of e: `xpc`, `xfl`, `xmst`, `xcause`, `xaddr` and `xinfo` written,
the mode G or D with XE and IE 0, the pc at vbase + 64 × cause; its general registers, flags and other control registers stand. -/
def Entered (c : CoreRef) (k k' : CoreState) (e : Exc) (xpc : Word) : Prop :=
  k'.crGet c 0x10 = xpc ∧
  k'.crGet c 0x11 = BitVec.ofNat 64 (k.z.toNat + 2 * k.n.toNat + 4 * k.c.toNat + 8 * k.ov.toNat) ∧
  k'.crGet c 0x12 = k.crGet c 0 ∧ k'.crGet c 0x13 = BitVec.ofNat 64 e.cause ∧ k'.crGet c 0x14 = e.xaddr ∧ k'.crGet c 0x15 = e.xinfo ∧
  k'.crGet c 0 = (if c.isDome then 2 else 1) ∧ k'.pc = k.crGet c 8 + BitVec.ofNat 64 (64 * e.cause) ∧
  (∀ n, n ≠ 0 → ¬ (0x10 ≤ n ∧ n ≤ 0x15) → k'.crGet c n = k.crGet c n) ∧
  { k' with cr := k.cr, pc := k.pc, asleep := k.asleep } = k

end Sys2Proof.Machine


open Sys2Proof Sys2Proof.Machine in
/-- R243, R283, R287, R288: The branches and calls in their short and long forms. A branch not taken goes on; one taken to a target with
bits [1:0] 0 sets pc; a call pushes the address of the next instruction on the return stack first; RET pops it. None writes flags or a
register. RSFL stores every on-chip entry of the mode that RA names, oldest first, each 8 bytes below the one before, and leaves the
partition empty; no general register and no flag changes. RSFL naming a mode the core lacks takes ILLEGAL in every mode, and PRIV in U
mode where it names one the core has. NOP, FENCE and IFENCE (not in U mode) change nothing but pc. -/
def Obligations.BranchesCallsAndReturnStack : Prop :=
  (∀ (s : State) (c : CoreRef) (q : Cond) (b : BrOff) (f : CallOff) (ra : Fin 32) (m : Nat), s.Ready c → Named c [ra] →
    let k := s.core c
    let mode := k.mode c
    let rs := crBank mode + 3
    let here := k.pc
    let target := k.get ra
    let room := (k.rsOf c mode).length < k.rsCap c mode
    let pushed := fun v => k.setRs c mode (v :: k.rsOf c mode)
    let spilt := fun v => (k.setRs c mode (v :: (k.rsOf c mode).dropLast)).crPut c rs (k.crGet c rs - 8)
    let spills := fun (u : State) => ∃ w, (k.rsOf c mode).getLast? = some w ∧ ¬ room ∧ c.isFilter = false ∧
      k.crGet c (rs + 1) ≤ k.crGet c rs - 8 ∧ s.Reaches c (k.crGet c rs - 8).toNat 8 true m ∧ u = s.stored m 8 w.toNat
    (k.Meets q → (here + b.bytes).toNat % 4 = 0 → s.RunsTo (.bcc c q b) c (here + b.bytes) s k) ∧
    (¬ k.Meets q → s.Runs (.bcc c q b) c b.len s k) ∧
    (target.toNat % 4 = 0 → s.RunsTo (.br c ra) c target s k) ∧
    ((here + f.bytes).toNat % 4 = 0 → room → s.RunsTo (.call c f) c (here + f.bytes) s (pushed (here + BitVec.ofNat 64 f.len))) ∧
    (target.toNat % 4 = 0 → room → s.RunsTo (.callr c ra) c target s (pushed (here + 4))) ∧
    (∀ u, (here + f.bytes).toNat % 4 = 0 → spills u →
      s.RunsTo (.call c f) c (here + f.bytes) u (spilt (here + BitVec.ofNat 64 f.len))) ∧
    (∀ u, target.toNat % 4 = 0 → spills u → s.RunsTo (.callr c ra) c target u (spilt (here + 4))) ∧
    (∀ v l, k.rsOf c mode = v :: l → v.toNat % 4 = 0 → s.RunsTo (.ret c) c v s (k.setRs c mode l)) ∧
    (k.rsOf c mode = [] → c.isFilter = false → k.crGet c rs < k.crGet c (rs + 2) → s.Reaches c (k.crGet c rs).toNat 8 false m →
      (s.readLine (lineOf m) false).poison = false → s.lineValue m 8 % 4 = 0 →
      s.RunsTo (.ret c) c (BitVec.ofNat 64 (s.lineValue m 8)) (s.lineRead m) (k.crPut c rs (k.crGet c rs + 8))) ∧
    (k.rsOf c mode = [] → c.isFilter = false → ¬ k.crGet c rs < k.crGet c (rs + 2) →
      s.Traps (.ret c) c { cause := causeRsUnder, xaddr := k.crGet c rs, xinfo := BitVec.ofNat 64 mode } s)) ∧
  (∀ (s : State) (c : CoreRef) (ra : Fin 32) (at_ : Nat → Nat), s.Ready c →
    let k := s.core c
    let l := k.rsOf c ra.val
    let rs := crBank ra.val + 3
    let slot := fun i => k.crGet c rs - BitVec.ofNat 64 (8 * (i + 1))
    let u := (List.range l.length).foldl (fun u i => u.stored (at_ i) 8 (l.reverse.getD i 0).toNat) s
    (c.isFilter = false → ra.val ≤ 2 → (c.isDome = true ↔ ra.val = 2) → k.mode c ≠ modeU → l.length ≤ 256 →
      (∀ i < l.length, k.crGet c (rs + 1) ≤ slot i ∧ s.Reaches c (slot i).toNat 8 true (at_ i)) →
      ∃ k', s.Runs (.rsfl c ra) c 4 u k' ∧ k'.rsOf c ra.val = [] ∧
        (∀ n, n ≠ 3 → k'.crGet c n = if n = rs then k.crGet c rs - BitVec.ofNat 64 (8 * l.length) else k.crGet c n) ∧
        k'.g = k.g ∧ k'.fl = k.fl) ∧
    (c.isFilter = false → ¬ (if c.isDome then ra.val = 2 else ra.val ≤ 1) →
      ∃ w0 : Nat, s.Traps (.rsfl c ra) c { cause := causeIllegal, xinfo := BitVec.ofNat 64 w0 } s) ∧
    (c.isFilter = false → (if c.isDome then ra.val = 2 else ra.val ≤ 1) → k.mode c = modeU →
      s.Traps (.rsfl c ra) c { cause := causePriv, xinfo := 0xFFF } s) ∧
    s.Runs (.nop c) c 4 s k ∧ s.Runs (.fence c) c 4 s k ∧ (k.mode c ≠ modeU → s.Runs (.ifence c) c 4 s k) ∧
    (k.mode c = modeU → s.Traps (.ifence c) c { cause := causePriv, xinfo := 0xFFF } s))


open Sys2Proof Sys2Proof.Machine in
/-- R224, R257: XRET in G or D mode with a mode the core has in `xmst` and an aligned `xpc` restores pc, fl and mst from them and changes
nothing else; in U mode, or with a mode the core lacks, it takes PRIV and has no effect. -/
def Obligations.XretRestoresPcFlagsAndMode : Prop :=
  ∀ (s : State) (c : CoreRef), s.Ready c → c.isFilter = false →
    let k := s.core c
    let m := (k.crGet c 0x12).toNat % 4
    let legal := if c.isDome then m = 2 else m ≤ 1
    (k.mode c ≠ modeU → legal → (k.crGet c 0x10).toNat % 4 = 0 →
      ∃ k', s.RunsTo (.xret c) c (k.crGet c 0x10) s k' ∧ k'.crGet c 0 = k.crGet c 0x12 ∧
        k'.z = (k.crGet c 0x11).getLsbD 0 ∧ k'.n = (k.crGet c 0x11).getLsbD 1 ∧ k'.c = (k.crGet c 0x11).getLsbD 2 ∧
        k'.ov = (k.crGet c 0x11).getLsbD 3 ∧ (∀ n, n ≠ 0 → k'.crGet c n = k.crGet c n) ∧
        { k' with cr := k.cr, z := k.z, n := k.n, c := k.c, ov := k.ov } = k) ∧
    (k.mode c = modeU ∨ ¬ legal → s.Traps (.xret c) c { cause := causePriv, xinfo := 0xFFF } s)

open Sys2Proof Sys2Proof.Machine in
/-- R260, R307: at an instruction boundary a takeable interrupt is taken: ATTN when XE is 1, before TIMER and BITWATCH0 to BITWATCH3,
which need IE 1; taking ATTN clears PENDING. The core enters the handler with `xpc` the instruction not executed; with none
takeable nothing happens. A core asleep in WAITB leaves its sleep so. -/
def Obligations.InterruptsAreTakenInOrder : Prop :=
  ∀ (s : State) (c : CoreRef), c.isFilter = false → s.stopped = false → (s.core c).running = true → s.halted c = false →
    let k := s.core c
    let enters := fun (cause : Nat) => ∃ t, exec (.interruptTake c) s = .next t ∧
      (k.xe c = true → Entered c k (t.core c) { cause := cause } k.pc ∧ (t.core c).asleep = none ∧ t.mem = s.mem ∧ t.bits = s.bits ∧
        t.flag F.GDR_ATTN_PENDING c.cell = (if cause = 0x25 then false else s.flag F.GDR_ATTN_PENDING c.cell))
    let quiet := ∃ t, exec (.interruptTake c) s = .next t ∧ t = s
    let attn := c.isGuider = true ∧ s.flag F.GDR_ATTN_PENDING c.cell = true ∧ k.xe c = true
    (attn → enters 0x25) ∧
    (¬ attn → k.ie c = true → s.timerPending c = true → enters 0x20) ∧
    (∀ w < 4, ¬ attn → k.ie c = true → s.timerPending c = false → (∀ v < w, s.watchPending c v = false) → s.watchPending c w = true →
      enters (0x21 + w)) ∧
    (¬ attn → (k.ie c = false ∨ (s.timerPending c = false ∧ ∀ w < 4, s.watchPending c w = false)) → quiet)

open Sys2Proof Sys2Proof.Machine in
/-- R223, R262, R285, R286: CRR reads a control register; CRW, CRS and CRC write f of it and the register to the bits a program may
write, in one act, and every other bit, register and flag stands. A register the core kind lacks takes ILLEGAL; one the mode may
not reach takes PRIV with its number. The write of `rsplit` with no entry on chip is clamped to 16 to 240. -/
def Obligations.ControlRegisterAccess : Prop :=
  ∀ (s : State) (c : CoreRef) (reg : Fin 32) (cr : BitVec 12), s.Ready c → Named c [reg] →
    let k := s.core c
    let n := cr.toNat
    let allowed := crExists c n = true ∧ (k.mode c ≠ modeU ∨ n = 4 ∨ (0xC0 ≤ n ∧ n ≤ 0xC7))
    let watch := fun (v : Word) => 0x48 ≤ n ∧ n ≤ 0x4B ∧ v.getLsbD 33 = true ∧ s.bitPlace c (v.toNat % 2 ^ 32) = none
    let writes := fun (i : Instr) (f : Word → Word → Word) => ∃ k' new,
      (∀ b < 64, new.getLsbD b = if c.isFilter = false ∧ (crWritable n).testBit b then (f (k.crGet c n) (k.get reg)).getLsbD b
        else (k.crGet c n).getLsbD b) ∧
      (¬ watch new → s.Runs i c 4 s k') ∧ (watch new → s.Runs i c 4 (s.recordError c.cell clsAccess 0 0) k') ∧
      k'.crGet c n = new ∧ (∀ j, j ≠ n → k'.crGet c j = k.crGet c j) ∧ { k' with cr := k.cr } = k
    (allowed → s.Runs (.crr c reg cr) c 4 s (k.set reg (k.crGet c n))) ∧
    (allowed → n ≠ 2 → writes (.crw c reg cr) (fun _ r => r) ∧ writes (.crs c reg cr) (fun o r => o ||| r) ∧
      writes (.crc c reg cr) (fun o r => o &&& ~~~r)) ∧
    (allowed → n = 2 → k.rsLow = [] → k.rsG = [] → ∃ k', s.Runs (.crw c reg cr) c 4 s k' ∧
      (k'.crGet c 2).toNat = max 16 (min 240 ((k.get reg).toNat % 512)) ∧ { k' with cr := k.cr } = k) ∧
    (crExists c n = true → k.mode c = modeU → n ≠ 4 → ¬ (0xC0 ≤ n ∧ n ≤ 0xC7) → c.isFilter = false →
      ∀ i ∈ [Instr.crr c reg cr, .crw c reg cr, .crs c reg cr, .crc c reg cr],
        s.Traps i c { cause := causePriv, xinfo := BitVec.ofNat 64 n } s) ∧
    (crExists c n = false → c.isFilter = false → ∃ w0 : Nat, s.Traps (.crr c reg cr) c { cause := causeIllegal, xinfo := BitVec.ofNat 64 w0 } s)


open Sys2Proof Sys2Proof.Machine in
/-- R220, R223, R245, R248, R289, R290: The bit instructions that change a bit. Where the access is accepted, SETB, CLRB and CPLB write 1,
0 and the complement and set Z from the old value, PUTB writes the source's bit 0 and leaves Z, MOVB copies a bit and BOPB writes the
truth table's bit, with Z from the bit copied or written. A refused access takes BIT_ADDR with the bit address. Where bits lie and who may
write them. On a guider core a private, own-cluster or global shared bit that its mode may write takes the value, and every other bit
keeps its own; the own-cluster range and the global range of its cluster are the same bits; the upper half of each is closed to U mode. An
EVENT bit takes only a 0, a LEVEL bit nothing, and no other address is a bit. -/
def Obligations.BitsLieAndChangeAsTheMapSays : Prop :=
  (∀ (s : State) (c : CoreRef) (b : BitOpnd) (rs ra rb rc : Fin 32) (tt : BitVec 4), s.Ready c → Named c ([rs, ra, rb, rc] ++ b.regs) →
    let k := s.core c
    let a := match b with
      | .reg r => (k.get r).toNat % 2 ^ 32
      | .imm v => v.toNat
    let bitOf := fun (r : Fin 32) => (k.get r).toNat % 2 ^ 32
    (∀ old u, s.bitRead c a = some old → s.bitWrite c a true = some u → s.Runs (.setb c b) c b.len u { u.core c with z := !old }) ∧
    (∀ old u, s.bitRead c a = some old → s.bitWrite c a false = some u → s.Runs (.clrb c b) c b.len u { u.core c with z := !old }) ∧
    (∀ old u, s.bitRead c a = some old → s.deviceBit a = none → s.bitWrite c a (!old) = some u →
      s.Runs (.cplb c b) c b.len u { u.core c with z := !old }) ∧
    (∀ u, s.bitWrite c a ((k.get rs).getLsbD 0) = some u → s.Runs (.putb c rs b) c b.len u (u.core c)) ∧
    (∀ v u, s.bitRead c (bitOf rb) = some v → s.bitWrite c (bitOf ra) v = some u →
      s.Runs (.movb c ra rb) c 4 u { u.core c with z := !v }) ∧
    (∀ x y u, s.bitRead c (bitOf rb) = some x → s.bitRead c (bitOf rc) = some y →
      s.bitWrite c (bitOf ra) (tt.getLsbD (2 * x.toNat + y.toNat)) = some u →
      s.Runs (.bopb c ra rb rc tt) c 4 u { u.core c with z := !tt.getLsbD (2 * x.toNat + y.toNat) }) ∧
    (s.bitRead c a = none → s.Traps (.setb c b) c (bitExc a true) s ∧ s.Traps (.clrb c b) c (bitExc a true) s ∧
      s.Traps (.cplb c b) c (bitExc a true) s ∧ s.Traps (.tstb c b) c (bitExc a false) s) ∧
    (s.bitRead c (bitOf rb) ≠ none → s.bitRead c (bitOf rc) ≠ none → (∀ v, s.bitWrite c (bitOf ra) v = none) →
      s.Traps (.movb c ra rb) c (bitExc (bitOf ra) true) s ∧ s.Traps (.bopb c ra rb rc tt) c (bitExc (bitOf ra) true) s)) ∧
  (∀ (s : State) (n : Fin 128) (b : Nat) (v : Bool),
    let c := CoreRef.guider n
    let k := s.core c
    let globalOf := 0x20000000 + 0x100000 * (n.val / 8)
    let plain := b ≤ 0xFFFF ∨ (0x100000 ≤ b ∧ b ≤ 0x1FFFFF) ∨ (0x20000000 ≤ b ∧ b ≤ 0x210FFFFF)
    let lower := b ≤ 0x7FFF ∨ (0x100000 ≤ b ∧ b ≤ 0x17FFFF) ∨ (globalOf ≤ b ∧ b < globalOf + 0x80000)
    (plain → (k.mode c ≠ modeU ∨ lower) → ∃ u key, s.bitWrite c b v = some u ∧ s.bitPlace c b = some (.stored key) ∧
      u.bitRead c b = some v ∧ (∀ q, q ≠ key → u.bitAt q = s.bitAt q) ∧ u.mem = s.mem ∧ u.regs = s.regs ∧
      ∀ r, (u.core c).get r = k.get r) ∧
    (k.mode c = modeU → ¬ lower → s.bitWrite c b v = none) ∧
    (b < 0x100000 → s.bitPlace c (0x100000 + b) = s.bitPlace c (globalOf + b)) ∧
    (0x40000000 ≤ b → (s.levelBit b).isSome → s.bitWrite c b v = none) ∧
    (0x40000000 ≤ b → s.bitWrite c b true = none) ∧
    (¬ plain → b < 0x40000000 ∨ 0x40030000 ≤ b → s.bitRead c b = none ∧ s.bitWrite c b v = none))


open Sys2Proof Sys2Proof.Machine in
/-- R251, R260, R289, R291: The bit instructions that only read. TSTB and GETB set Z from the bit, GETB also writes rd; BB branches where
the bit equals SENSE. WAITB completes at once where the bit does not hold the value; otherwise the core sleeps on it, its pc and registers
as they were, and resumes with Z from the bit once the bit has held another value. A core asleep in WAITB whose bit has held another value
since resumes after the WAITB, with Z from the bit; one whose bit has not, with no interrupt takeable, sleeps on. -/
def Obligations.BitTestsAndWaits : Prop :=
  (∀ (s : State) (c : CoreRef) (b : BitOpnd) (rd : Fin 32) (form : BbForm) (sense value x : Bool), s.Ready c → Named c (rd :: b.regs) →
    Named c form.opnd.regs →
    let k := s.core c
    let a := match b with
      | .reg r => (k.get r).toNat % 2 ^ 32
      | .imm v => v.toNat
    let ba := match form with
      | .short r _ => (k.get r).toNat % 2 ^ 32
      | .long v _ => v.toNat
    let target := k.pc + (match form with
      | .short _ o => BitVec.ofInt 64 (4 * o.toInt)
      | .long _ o => BitVec.ofInt 64 (4 * o.toInt))
    (s.bitRead c a = some x → s.Runs (.tstb c b) c b.len s { k with z := !x }) ∧
    (s.bitRead c a = some x → s.Runs (.getb c rd b) c b.len s ({ k with z := !x }.set rd (if x then 1 else 0))) ∧
    (s.bitRead c ba = some x → x ≠ sense → s.Runs (.bb c form sense) c form.len s { k with z := !x }) ∧
    (s.bitRead c ba = some x → x = sense → target.toNat % 4 = 0 → s.RunsTo (.bb c form sense) c target s { k with z := !x }) ∧
    (c.isFilter = false → s.bitRead c a = some x → x ≠ value → s.Runs (.waitb c b value) c b.len s { k with z := !x }) ∧
    (∀ p, c.isFilter = false → s.bitRead c a = some value → s.bitPlace c a = some p →
      exec (.waitb c b value) s =
        .next (s.setCore c { k with asleep := some { bit := p.key, value := value, left := false, len := b.len } }))) ∧
  (∀ (s : State) (c : CoreRef) (w : Sleep), s.stopped = false → (s.core c).running = true → (s.core c).asleep = some w →
    (s.halted c = true → (s.core c).stepping = true) →
    let k := s.core c
    let v := s.keyValue w.bit
    (w.left = true ∨ v ≠ w.value →
      ∃ t, exec (.waitbWake c) s = .next t ∧
        s.Retires t c (k.pc + BitVec.ofNat 64 w.len) { k with asleep := none, z := !v }) ∧
    (w.left = false → v = w.value → s.takeable c = none → exec (.waitbWake c) s = .next s) ∧
    (∀ key x, (s.core c).asleep = some w → key = w.bit → x ≠ w.value →
      ∃ w', ((s.putBit key x).core c).asleep = some w' ∧ w'.left = true))

open Sys2Proof Sys2Proof.Machine in
/-- R292, R296, R297: TIME writes the device time base to rd; PHASE and PHASER set the phase tag, 0 to 63, where the mode grants it; a value
above 63 takes DEVICE with the operand and leaves the tag. None writes flags. -/
def Obligations.TimeAndPhase : Prop :=
  ∀ (s : State) (c : CoreRef) (rd ra : Fin 32) (imm : BitVec 14), s.Ready c → c.isFilter = false →
    let k := s.core c
    let may := k.mode c ≠ modeU ∨ (k.crGet c 1).getLsbD 2 = true
    let v := k.get ra
    s.Runs (.time c rd) c 4 s (k.set rd (BitVec.ofNat 64 s.now)) ∧
    (may → v.toNat ≤ 63 → s.Runs (.phaser c ra) c 4 s { k with phase := v.toNat }) ∧
    (may → imm.toNat ≤ 63 → s.Runs (.phase c imm) c 4 s { k with phase := imm.toNat }) ∧
    (may → 63 < v.toNat → s.Traps (.phaser c ra) c { cause := causeDevice, xinfo := BitVec.ofNat 64 (v.toNat % 2 ^ 32) } s) ∧
    (may → 63 < imm.toNat → s.Traps (.phase c imm) c { cause := causeDevice, xinfo := BitVec.ofNat 64 imm.toNat } s) ∧
    (¬ may → s.Traps (.phase c imm) c { cause := causePriv, xinfo := 0xFFF } s)

namespace Sys2Proof.Machine

/-- R300: the product of x and a polynomial over GF(2), modulo x^128 + x^7 + x^2 + x + 1; bit i is the coefficient of x^i. -/
def xTimes (p : BitVec 128) : BitVec 128 := (p <<< 1) ^^^ (if p.getLsbD 127 then 0x87#128 else 0#128)

/-- R300: the product of two polynomials: the sum of x^i × p over the coefficients i of q. -/
def polyProduct (p q : BitVec 128) : BitVec 128 :=
  ((List.range 128).foldl (fun (r : BitVec 128 × BitVec 128) i => (if q.getLsbD i then r.1 ^^^ r.2 else r.1, xTimes r.2)) (0#128, p)).1

/-- R300: q is p with the bits of every byte mirrored. -/
def Mirrored (p q : BitVec 128) : Prop := ∀ i < 128, q.getLsbD i = p.getLsbD (8 * (i / 8) + 7 - i % 8)

end Sys2Proof.Machine

open Sys2Proof Sys2Proof.Machine in
/-- R226, R266, R268, R272, R298, R299, R300: VLD and VST move 16 bytes between a vector register and the local memory of the Filter unit,
byte i of the register at address + i; outside the first 16 KiB of the local window they take ADDR, and out of alignment ALIGN, either of
which stops the sequencer (R266). The vector instructions of a Filter sequencer, by bytes (byte i is what VST writes at address + i): XOR,
the shuffle, the big-endian increments of bytes 12, 8 or 0 to 15 and the little-endian one, and the moves of halves. FGMUL.X multiplies
polynomials over GF(2) modulo x^128 + x^7 + x^2 + x + 1 with bit i the coefficient of x^i, and FGMUL does so under the mirror of every
byte. On a guider or Dome core each instruction of the extension takes ILLEGAL. -/
def Obligations.VectorInstructionsAndMemory : Prop :=
  (∀ (s : State) (u : Fin 40) (vd : Fin 8) (ra : Fin 32) (imm : BitVec 14) (m : Nat), s.Ready (.filter u) → ra.val < 16 →
    let c := CoreRef.filter u
    let k := s.core c
    let a := (k.get ra + imm.signExtend 64).toNat
    (s.Reaches c a 16 false m → (s.readLine (lineOf m) false).poison = false →
      s.Runs (.vld c vd ra imm) c 4 (s.lineRead m) (k.vset vd (BitVec.ofNat 128 (s.lineValue m 16)))) ∧
    (s.Reaches c a 16 true m → s.Runs (.vst c vd ra imm) c 4 (s.stored m 16 (k.vget vd).toNat) k) ∧
    (a % 16 ≠ 0 ∨ a < localWindow ∨ localWindow + 0x4000 ≤ a →
      ∃ s1 s2 : State, exec (.vld c vd ra imm) s = .next ((s1.seqStop u false).afterInstr c) ∧
        exec (.vst c vd ra imm) s = .next ((s2.seqStop u false).afterInstr c) ∧ s1.mem = s.mem ∧ s2.mem = s.mem ∧
        s1.core c = k ∧ s2.core c = k)) ∧
  (∀ (s : State) (vd va vb : Fin 8) (r : Fin 32) (h agree : Bool) (imm : BitVec 14),
    (∀ c : CoreRef, c.isFilter = false → s.Ready c →
      ∀ i ∈ [Instr.vxor c vd va vb, .vshuf c vd va vb, .vinc32 c vd va, .vinc64 c vd va, .vinc128 c vd va, .vinc128l c vd va,
          .vmovg c vd r h, .vgetg c r va h, .fgmul c vd va vb, .fgmulX c vd va vb, .fblk c vd va agree, .fblkInv c vd va agree,
          .vld c vd r imm, .vst c vd r imm],
        ∃ w0 : Nat, s.Traps i c { cause := causeIllegal, xinfo := BitVec.ofNat 64 w0 } s) ∧
    ∀ u : Fin 40, s.Ready (.filter u) → r.val < 16 →
    let c := CoreRef.filter u
    let k := s.core c
    let byte := fun (x : BitVec 128) (i : Nat) => x.extractLsb' (8 * i) 8
    let be := fun (x : BitVec 128) (n : Nat) => (List.range n).foldl (fun acc i => 256 * acc + (byte x (16 - n + i)).toNat) 0
    let gives := fun (i : Instr) (ok : BitVec 128 → Prop) => ∃ x, s.Runs i c 4 s (k.vset vd x) ∧ ok x
    let a := k.vget va
    let b := k.vget vb
    gives (.vxor c vd va vb) (fun x => ∀ i < 128, x.getLsbD i = (a.getLsbD i != b.getLsbD i)) ∧
    gives (.vshuf c vd va vb) (fun x => ∀ i < 16, byte x i = if (byte b i).getLsbD 7 then 0 else byte a ((byte b i).toNat % 16)) ∧
    gives (.vinc32 c vd va) (fun x => be x 4 = (be a 4 + 1) % 2 ^ 32 ∧ ∀ i < 12, byte x i = byte a i) ∧
    gives (.vinc64 c vd va) (fun x => be x 8 = (be a 8 + 1) % 2 ^ 64 ∧ ∀ i < 8, byte x i = byte a i) ∧
    gives (.vinc128 c vd va) (fun x => be x 16 = (be a 16 + 1) % 2 ^ 128) ∧
    gives (.vinc128l c vd va) (fun x => x.toNat = (a.toNat + 1) % 2 ^ 128) ∧
    gives (.vmovg c vd r h) (fun x => ∀ i < 16, byte x i = if i / 8 = h.toNat then (k.get r).extractLsb' (8 * (i % 8)) 8
      else byte (k.vget vd) i) ∧
    s.Runs (.vgetg c r va h) c 4 s (k.set r (a.extractLsb' (64 * h.toNat) 64)) ∧
    gives (.fgmul c vd va vb) (fun x => ∀ p q, Mirrored a p → Mirrored b q → Mirrored (polyProduct p q) x) ∧
    gives (.fgmulX c vd va vb) (fun x => x = polyProduct a b))

namespace Sys2Proof.Machine

/-! ## Words of the statements about registers and cells -/

/-- R52, R53, R489, R509: agent g can write register r of a cell now with value v: islands run, PF0 of a host's port answers, the cell's
reset does not hold its CCB, and no chapter refuses this write. -/
def State.Writable (s : State) (g : Agent) (r : RegId) (cell i v : Nat) : Prop :=
  s.stopped = false ∧ (∀ p, g = .host p → s.fnFlr p.val 0 = false ∧ s.fnAwake p.val 0 = true) ∧
  s.ccbHeld (regAddr r cell i) cell = false ∧ s.writeLimit g r cell i v = none

/-- A register other than instance i of r in a cell. -/
def Elsewhere (r : RegId) (cell i : Nat) (r' : RegId) (cell' i' : Nat) : Prop := regAddr r' cell' i' ≠ regAddr r cell i

/-- Every register but those at the addresses listed holds in t what it holds in s. -/
def RegsKept (s t : State) (l : List Nat) : Prop := ∀ r cell i, regAddr r cell i ∉ l → t.reg r cell i = s.reg r cell i

/-- Memory, its marks, and every bit read in t as in s. -/
def MemKept (s t : State) : Prop := t.mem = s.mem ∧ t.lineErr = s.lineErr ∧ t.valid = s.valid ∧ t.bits = s.bits

/-- The registers whose write does more than its fields' types say. -/
def actingRegs : List RegId :=
  [.CELL_CTRL, .CELL_RESET, .CELL_ERR_STATUS, .PRIM_MAP, .PRIM_MAP_C, .PRIM_CLK_CAP, .PRIM_CLK_CAP_C, .HEL_CAP_W, .HEL_CAP_W_C,
   .HEL_PEAK, .HEL_PEAK_C, .CHR_TB_RATE, .CHR_TB_RATE_C, .PRIM_QUEUE_CTRL, .MOV_QUEUE_CTRL, .GDR_ATTN, .GCL_QUEUE_CTRL, .GCL_POST,
   .GDR_DBG_CTRL, .GDR_DBG_REG_DATA, .COL_CMD, .COL_BINDb_STEP, .TRN_REGION_CMD, .TRN_SQq_PTR, .TRN_CQq_CFG, .TRN_CONNc_CTRL,
   .SPG_CMD, .SPG_RXQq_CFG, .SHT_SUBQq_CFG, .SHT_SVCs_CFG, .SHT_PORTp_CFG, .SHT_TXRr_CFG, .SHT_TXRr_PTR, .CAT_Qq_CTRL, .CAT_Qq_PTR,
   .PCI_IRQ_RAISE, .PCI_DP_CFG_DATA, .PCI_VFv_CTRL, .PCI_VFv_DIRTY_CTRL, .FLT_Qq_CFG, .FLT_Qq_PTR, .KEY_CMD, .ROT_CMD,
   .ROT_FLASH_CMD, .EPH_CMDQ_CFG, .EPH_CMDQ_PTR, .CHR_TB_STEP, .CHR_SAFE_CTRL, .CHR_RESET_REQ, .CHR_INPUT_STUCK, .HEL_DERATE,
   .HEL_ACCORD_CFG, .DOM_COREn_WDT_CFG, .DOM_COREn_WDT_KICK, .DOM_HOST_HEARTBEAT, .DOM_HOST_ATTACH, .PHOT_EXP_CTRL]

/-- What remains of bits [hi:lo] of a 64-bit value. -/
def bitField (v : BitVec 64) (f : FieldMap) : Nat := v.toNat / 2 ^ f.lo % 2 ^ (f.hi - f.lo + 1)

end Sys2Proof.Machine


open Sys2Proof Sys2Proof.Machine in
/-- R14, R16, R22, R23, R52, R68, R69: A write of its own width to a register, by a Dome core or by a host through its window, sets its RW
and RWP fields, clears the RW1C bits written 1, and leaves its RO, WO and RSV fields; no other register, no memory and no bit changes and
no error is recorded. (Registers whose write sets something off have statements of their own.) A register access that meets no register. A
write at another width or alignment is ignored and records ACCESS in the register's cell, one to a CCB slot of no cell in the device cell,
one to an unmapped address in the sender's cell; one to a reserved offset of a CCB does nothing. Nothing but the error record, its event
bit and its counter changes. -/
def Obligations.RegisterWriteFollowsFieldTypes : Prop :=
  (∀ (s : State) (g : Agent) (a n v : Nat) (r : RegId) (cell i : Nat),
    regHit a n = .register cell r i → r ∉ actingRegs → s.Writable g r cell i v →
    ∃ t, exec (.registerWrite g (.device a) n v) s = .next t ∧
      (∀ f ∈ r.map.fields, bitField (t.reg r cell i) f =
        match f.ty with
        | .rw | .rwp => v / 2 ^ f.lo % 2 ^ (f.hi - f.lo + 1)
        | .rw1c => bitField (s.reg r cell i) f - (bitField (s.reg r cell i) f &&& v / 2 ^ f.lo % 2 ^ (f.hi - f.lo + 1))
        | _ => bitField (s.reg r cell i) f) ∧
      RegsKept s t [regAddr r cell i] ∧ MemKept s t) ∧
  (∀ (s : State) (k : Fin 8) (a n v : Nat), s.stopped = false →
    let refuses := fun (cell : Nat) => exec (.registerWrite (.firmware k) (.device a) n v) s = .next (s.recordError cell 0x01 a 0)
    (∀ cell, regHit a n = .misused cell → s.ccbHeld a cell = false → refuses cell) ∧
    (regHit a n = .noCell → refuses 0) ∧ (regHit a n = .unmapped → refuses (domeCell k.val)) ∧
    (regHit a n = .reserved → exec (.registerWrite (.firmware k) (.device a) n v) s = .next s))


open Sys2Proof Sys2Proof.Machine in
/-- R18, R19, R20, R605, R606, R607: A write of either register of an RWP pair. The written register holds the value. The value in force
becomes the value field, brought into the range its map gives, exactly when the write leaves value and complement inverse over the field's
width, and else stays; no error is recorded and no memory or bit changes. Either register may come first. A write that leaves a field of
the pair of `PRIM_MAP` disagreeing changes neither field in force and records no error. A check that finds the value in force of an RWP
pair and its held complement apart brings the value in force to its fail-safe value and records ECC_UNCORR in the holding cell, with PAIR
(INFO bit 31) set; for `PRIM_MAP` it records INTERNAL and the quarter cell enters FAULT. A check that finds them equal does nothing. -/
def Obligations.RwpPairsAgreeOrFailSafe : Prop :=
  ((∀ (s : State) (g : Agent) (q : Fin 4) (compl : Bool) (v : Nat),
    let cell := quarterCell q.val
    let r := if compl then RegId.PRIM_MAP_C else .PRIM_MAP
    s.Writable g r cell 0 v →
    ∃ t, exec (.rwpPairWrite g r cell v) s = .next t ∧
      (compl = false → t.fld F.PRIM_MAP_SPARE_ROW cell = v % 32 ∧ t.fld F.PRIM_MAP_SPARE_COL cell = v / 256 % 32) ∧
      (compl = true → t.fld F.PRIM_MAP_C_SPARE_ROW_C cell = v % 32 ∧ t.fld F.PRIM_MAP_C_SPARE_COL_C cell = v / 256 % 32) ∧
      (t.fld F.PRIM_MAP_SPARE_ROW cell + t.fld F.PRIM_MAP_C_SPARE_ROW_C cell ≠ 31 ∨
          t.fld F.PRIM_MAP_SPARE_COL cell + t.fld F.PRIM_MAP_C_SPARE_COL_C cell ≠ 31 →
        t.fld F.PRIM_MAP_ROW_IN_FORCE cell = s.fld F.PRIM_MAP_ROW_IN_FORCE cell ∧
        t.fld F.PRIM_MAP_COL_IN_FORCE cell = s.fld F.PRIM_MAP_COL_IN_FORCE cell ∧
        t.fld F.CELL_ERR_STATUS_COUNT cell = s.fld F.CELL_ERR_STATUS_COUNT cell)) ∧
  ∀ (s : State) (g : Agent) (f : RwpField) (cell v : Nat) (compl : Bool), f ∈ rwpFields → (cellKind cell).isSome = true →
    let side := if compl then f.comp else f.value
    hasReg side.reg cell = true → s.Writable g side.reg cell 0 v →
    let w := f.value.hi - f.value.lo + 1
    let x := v / 2 ^ side.lo % 2 ^ w
    let value := if compl then s.fld f.value cell else x
    let comp := if compl then x else s.fld f.comp cell
    ∃ t, exec (.rwpPairWrite g side.reg cell v) s = .next t ∧
      t.fld side cell = x ∧
      t.fld f.force cell = (if value + comp = 2 ^ w - 1 then max f.lo (min f.hi value) else s.fld f.force cell) ∧
      (f.value = F.HEL_PEAK_PEAK_W → t.regNow .HEL_PEAK cell 0 / 2 ^ 32 % 2 ^ 12 = max (t.fld F.HEL_CAP_W_CAP_IN_FORCE cell) (t.fld f.force cell)) ∧
      t.fld F.CELL_ERR_STATUS_COUNT cell = s.fld F.CELL_ERR_STATUS_COUNT cell ∧ MemKept s t) ∧
  (∀ (s : State) (f : RwpField) (cell : Nat), s.stopped = false → (cellKind cell).isSome = true →
    (∀ r, exec (.rwpComplementCheck r cell true) s = .next s) ∧
    (f ∈ rwpFields → hasReg f.value.reg cell = true → s.flag F.CELL_ERR_STATUS_VALID cell = false →
      ∃ t, exec (.rwpComplementCheck f.value.reg cell false) s = .next t ∧
        t.fld f.force cell = (if f.value = F.HEL_PEAK_PEAK_W then s.fld F.HEL_CAP_W_CAP_IN_FORCE cell else f.safe) ∧
        t.flag F.CELL_ERR_STATUS_VALID cell = true ∧ t.fld F.CELL_ERR_STATUS_CLASS cell = 0x03 ∧
        t.fld F.CELL_ERR_INFO_INFO cell = f.value.reg.map.offset % 2 ^ 12 + 2 ^ 31 ∧ t.mem = s.mem) ∧
    (∀ q < 4, s.resetting (quarterCell q) = false →
      ∃ t, exec (.rwpComplementCheck .PRIM_MAP (quarterCell q) false) s = .next t ∧ t.cellState (quarterCell q) = 4 ∧
      (s.flag F.CELL_ERR_STATUS_VALID (quarterCell q) = false → t.fld F.CELL_ERR_STATUS_CLASS (quarterCell q) = 0x08)))



open Sys2Proof Sys2Proof.Machine in
/-- R53, R55, R56, R57, R58, R61, R62: The state a cell reads, decided by the conditions of R55 in their order, for every cell of the
tree; a cell of R54 whose reset is in progress reads ENABLE_PENDING and any other OFF. A write of `CELL_CTRL`.EN is recorded, and a cell
that stops meeting the ENABLED condition by it, or a descendant that does, begins a quiesce with its GEN as it was. A quiesce in progress
completes when the unit is idle and no descendant quiesces: QUIESCE_BUSY reads 0 and GEN is one more, modulo 65,536; until then the
completion does nothing. A write of 1 to `CELL_RESET` of a cell that does not ignore it: in the cell and in every descendant GEN is one
more, RESETTING reads 1, no quiesce is in progress, POWER_REQ holds its reset value and, but in the Chronograph (R709), EN does; ignored
in the device cell, the die cells and the Dome cores subsystem. When the reset completes RESETTING reads 0 in all of them. -/
def Obligations.CellsEnableQuiesceAndReset : Prop :=
  (∀ (s : State) (id : Nat), (cellKind id).isSome = true →
    let en := s.flag F.CELL_CTRL_EN id
    let quiesce := s.flag F.CELL_STATE_QUIESCE_BUSY id
    let reset := s.flag F.CELL_STATE_RESETTING id
    let parentUp := id = 0 ∨ s.cellState (cellParent id) = 3
    s.cellState id =
      if reset then (if noEnable id then 2 else 0)
      else if s.faulted id then 4
      else if en = false ∧ quiesce = true then 1
      else if en = false then 0
      else if quiesce = false ∧ parentUp ∧ s.fld F.CELL_POWER_PSTATE id = 0 ∧ s.cellReady id = true then 3
      else 2) ∧
  (∀ (s : State) (g : Agent) (cell : Nat) (en : Bool), (cellKind cell).isSome = true → s.stopped = false →
    (noEnable cell = false → (en = true → s.fencedCell cell = false) → s.Writable g .CELL_CTRL cell 0 en.toNat →
      ∃ t, exec (.cellCtrlEnWrite g cell en) s = .next t ∧ t.flag F.CELL_CTRL_EN cell = en ∧
        (en = false → s.cellState cell = 3 → ∀ d ∈ cellSubtree cell, s.cellState d = 3 →
          t.flag F.CELL_STATE_QUIESCE_BUSY d = true ∧ t.fld F.CELL_STATE_GEN d = s.fld F.CELL_STATE_GEN d) ∧
        (en = false → s.faulted cell = false → s.resetting cell = false →
          t.cellState cell = if s.cellState cell = 3 ∨ s.flag F.CELL_STATE_QUIESCE_BUSY cell then 1 else 0)) ∧
    (s.flag F.CELL_STATE_QUIESCE_BUSY cell = true → s.unitIdle cell = true →
      (∀ d ∈ (cellSubtree cell).drop 1, s.flag F.CELL_STATE_QUIESCE_BUSY d = false) →
      ∃ t, exec (.quiesceComplete cell) s = .next t ∧ t.flag F.CELL_STATE_QUIESCE_BUSY cell = false ∧
        t.fld F.CELL_STATE_GEN cell = (s.fld F.CELL_STATE_GEN cell + 1) % 65536) ∧
    (s.flag F.CELL_STATE_QUIESCE_BUSY cell = false ∨ s.unitIdle cell = false ∨
      (∃ d ∈ (cellSubtree cell).drop 1, s.flag F.CELL_STATE_QUIESCE_BUSY d = true) → exec (.quiesceComplete cell) s = .next s)) ∧
  (∀ (s : State) (g : Agent) (cell : Nat), (cellKind cell).isSome = true →
    (resetIgnored cell = false → s.Writable g .CELL_RESET cell 0 1 →
      ∃ t, exec (.cellResetWrite g cell) s = .next t ∧ ∀ d ∈ cellSubtree cell,
        t.fld F.CELL_STATE_GEN d = (s.fld F.CELL_STATE_GEN d + 1) % 65536 ∧ t.flag F.CELL_STATE_RESETTING d = true ∧
        t.flag F.CELL_STATE_QUIESCE_BUSY d = false ∧ t.fld F.CELL_POWER_POWER_REQ d = 0 ∧
        (d ≠ chrCell → t.flag F.CELL_CTRL_EN d = noEnable d)) ∧
    (resetIgnored cell = true → s.Writable g .CELL_RESET cell 0 1 →
      ∃ t, exec (.cellResetWrite g cell) s = .next t ∧ t.regs = s.regs ∧ MemKept s t) ∧
    (s.stopped = false → s.resetting cell = true → s.chr.warm = false → (cell ≠ 0 → s.resetting (cellParent cell) = false) →
      ∃ t, exec (.cellResetComplete cell) s = .next t ∧ ∀ d ∈ cellSubtree cell, t.flag F.CELL_STATE_RESETTING d = false))


open Sys2Proof Sys2Proof.Machine in
/-- R65: a cell holds one error record. The first error while VALID is 0 fills CLASS, ADDR, TIME and INFO, sets COUNT to 1 and VALID, and
sets the cell's error event bit; a later one adds to COUNT (held at 0xFFFF), sets OVERFLOW and leaves the record. A write that
clears VALID clears COUNT; one that clears OVERFLOW clears it alone; the error after one that clears VALID is the first of a fresh
record and does not set OVERFLOW. -/
def Obligations.ErrorRecordKeepsTheFirst : Prop :=
  ∀ (s : State) (g : Agent) (cell cls addr info : Nat) (valid overflow : Bool), (cellKind cell).isSome = true →
    cls < 2 ^ 8 → addr < 2 ^ 48 → info < 2 ^ 32 →
    let t := s.recordError cell cls addr info
    (s.flag F.CELL_ERR_STATUS_VALID cell = false →
      t.fld F.CELL_ERR_STATUS_CLASS cell = cls ∧ t.fld F.CELL_ERR_ADDR_ADDR cell = addr ∧ t.fld F.CELL_ERR_INFO_INFO cell = info ∧
      t.fld F.CELL_ERR_TIME_TIME cell = s.now % 2 ^ 64 ∧ t.fld F.CELL_ERR_STATUS_COUNT cell = 1 ∧
      t.flag F.CELL_ERR_STATUS_VALID cell = true ∧ t.bitAt (0x40000000 + cell) = true ∧
      t.flag F.CELL_ERR_STATUS_OVERFLOW cell = s.flag F.CELL_ERR_STATUS_OVERFLOW cell) ∧
    (s.flag F.CELL_ERR_STATUS_VALID cell = true →
      t.fld F.CELL_ERR_STATUS_CLASS cell = s.fld F.CELL_ERR_STATUS_CLASS cell ∧
      t.fld F.CELL_ERR_ADDR_ADDR cell = s.fld F.CELL_ERR_ADDR_ADDR cell ∧ t.fld F.CELL_ERR_INFO_INFO cell = s.fld F.CELL_ERR_INFO_INFO cell ∧
      t.fld F.CELL_ERR_STATUS_COUNT cell = min 0xFFFF (s.fld F.CELL_ERR_STATUS_COUNT cell + 1) ∧
      t.flag F.CELL_ERR_STATUS_VALID cell = true ∧ t.flag F.CELL_ERR_STATUS_OVERFLOW cell = true ∧ t.bits = s.bits) ∧
    (s.Writable g .CELL_ERR_STATUS cell 0 (valid.toNat + overflow.toNat * 2) →
      ∃ u, exec (.errStatusClear g cell valid overflow) s = .next u ∧
        u.flag F.CELL_ERR_STATUS_VALID cell = (s.flag F.CELL_ERR_STATUS_VALID cell && !valid) ∧
        u.flag F.CELL_ERR_STATUS_OVERFLOW cell = (s.flag F.CELL_ERR_STATUS_OVERFLOW cell && !overflow) ∧
        u.fld F.CELL_ERR_STATUS_COUNT cell = (if valid then 0 else s.fld F.CELL_ERR_STATUS_COUNT cell) ∧
        (valid = true →
          let w := u.recordError cell cls addr info
          w.flag F.CELL_ERR_STATUS_VALID cell = true ∧ w.fld F.CELL_ERR_STATUS_CLASS cell = cls ∧
          w.fld F.CELL_ERR_ADDR_ADDR cell = addr ∧ w.fld F.CELL_ERR_INFO_INFO cell = info ∧
          w.fld F.CELL_ERR_TIME_TIME cell = s.now % 2 ^ 64 ∧ w.fld F.CELL_ERR_STATUS_COUNT cell = 1 ∧
          w.flag F.CELL_ERR_STATUS_OVERFLOW cell = u.flag F.CELL_ERR_STATUS_OVERFLOW cell) ∧
        RegsKept s u [regAddr .CELL_ERR_STATUS cell 0] ∧ MemKept s u)

open Sys2Proof Sys2Proof.Machine in
/-- R64, R183, R708: The gating of a cell that is OFF is the one POWER_REQ asks for, 3 as 2 (clock gating where it asks for none: the
Heliostat's own, R640, log 46); a cell that is not OFF is not gated. With EN 1 the restore brings PSTATE back to ON. A stack memory
controller whose cell is enabled trains: TRAINED reads 1 and the cell can be ENABLED, or TRAIN_FAIL reads 1 and the cell enters FAULT with
class LINK. While TRAINED the reported temperature is what `SMC_STATUS` shows, with the refresh rate doubled above 95 °C; before it the
report changes nothing. -/
def Obligations.GatingAndStackTraining : Prop :=
  (∀ (s : State) (cell : Nat), (cellKind cell).isSome = true → noEnable cell = false → s.stopped = false →
    (s.cellState cell = 0 → s.resetting cell = false →
      ∃ t, exec (.powerGateApply cell) s = .next t ∧ RegsKept s t [regAddr .CELL_POWER cell 0] ∧ MemKept s t ∧
        t.fld F.CELL_POWER_PSTATE cell = (match s.fld F.CELL_POWER_POWER_REQ cell with
          | 0 => 1
          | 1 => 1
          | _ => 2)) ∧
    (s.cellState cell ≠ 0 → exec (.powerGateApply cell) s = .next s) ∧
    (s.flag F.CELL_CTRL_EN cell = true →
      ∃ t, exec (.powerRestoreComplete cell) s = .next t ∧ t.fld F.CELL_POWER_PSTATE cell = 0)) ∧
  (∀ (s : State) (n : Fin 8) (temp : BitVec 8),
    let c := smcCell n.val
    let due := s.flag F.CELL_CTRL_EN c = true ∧ s.resetting c = false ∧ s.flag F.SMC_STATUS_TRAINED c = false ∧ s.faulted c = false ∧
      s.fld F.CELL_POWER_PSTATE c = 0 ∧ s.enabled (cellParent c) = true
    (due → s.flag F.CELL_STATE_QUIESCE_BUSY c = false →
      s.cellState c = 2 ∧ ∃ t, exec (.smcTrainingComplete n true) s = .next t ∧ t.flag F.SMC_STATUS_TRAINED c = true ∧ t.cellState c = 3) ∧
    (due → ∃ t, exec (.smcTrainingComplete n false) s = .next t ∧ t.flag F.SMC_STATUS_TRAIN_FAIL c = true ∧ t.cellState c = 4 ∧
      (s.flag F.CELL_ERR_STATUS_VALID c = false → t.fld F.CELL_ERR_STATUS_CLASS c = 0x09)) ∧
    (s.flag F.SMC_STATUS_TRAINED c = true → s.stopped = false →
      ∃ t, exec (.smcTempUpdate n temp) s = .next t ∧ t.fld F.SMC_STATUS_TEMP_C c = temp.toNat ∧
        t.fld F.SMC_STATUS_REFRESH c = (if 95 < temp.toNat then 1 else 0) ∧ RegsKept s t [regAddr .SMC_STATUS c 0]) ∧
    (s.flag F.SMC_STATUS_TRAINED c = false → exec (.smcTempUpdate n temp) s = .next s))

namespace Sys2Proof.Machine

/-- R310: core n of cluster c is the target of the item w: the choice of its program's STEER, ENABLED, with a free slot, and the next slot
of its ring is free. -/
def State.Targets (s : State) (c : Nat) (w : WorkItem) (n : Nat) : Prop :=
  let l := (List.range 8).filter fun n => bitsOf (s.fld F.GCL_DISPATCH_EN_CORE_EN (clusterCell c)) n n == 1
  let free := fun n => s.enabled (guiderCell (8 * c + n)) = true ∧ s.slotsUsed (8 * c + n) < 16
  let p := wfield w 0 15 8
  let chosen := match s.fld F.GCL_PROGp_STEER (clusterCell c) p with
    | 0 => n ∈ l ∧ ∀ m ∈ l, free m → s.slotsUsed (8 * c + n) ≤ s.slotsUsed (8 * c + m) ∧
        (s.slotsUsed (8 * c + m) = s.slotsUsed (8 * c + n) → n ≤ m)
    | 1 => l[wfield w 1 31 0 % l.length]? = some n
    | 2 => l ≠ [] ∧ n = s.fld F.GCL_PROGp_CORE (clusterCell c) p
    | _ => False
  chosen ∧ free n ∧ s.bitAt (fullBit (8 * c + n) (s.fld F.GDR_INBOX_NEXT_SLOT (guiderCell (8 * c + n)))) = false

end Sys2Proof.Machine

open Sys2Proof Sys2Proof.Machine in
/-- R309 to R312, R314: a cluster delivers its head item to the target that its program's STEER names: the item's bytes in the next slot of the
inbox, its FULL bit set, NEXT_SLOT one on; with no target, with PAUSE or the cluster not ENABLED, nothing moves. A post of an image
enters the queue as an item of source 5 where there is room and its program is valid, and is refused else; an unreadable or
poisoned image is not queued. RESULT says which. -/
def Obligations.ClustersDispatchWorkItems : Prop :=
  ∀ (s : State) (g : Agent) (k : Fin 16) (image : BitVec 42),
    let c := k.val
    let cc := clusterCell c
    let q := s.clusterQueue c
    (∀ w rest n, q = w :: rest → s.enabled cc = true → s.flag F.GCL_QUEUE_CTRL_PAUSE cc = false → s.Targets c w n →
      let core := guiderCell (8 * c + n)
      let slot := s.fld F.GDR_INBOX_NEXT_SLOT core
      ∃ t, exec (.dispatchDeliver k) s = .next t ∧ t.clusterQueue c = rest ∧
        t.mem = (s.writeMem (localBase core + 0x3FC00 + 64 * slot) (bytesOf w) false 2).mem ∧
        t.bitAt (fullBit (8 * c + n) slot) = true ∧ t.fld F.GDR_INBOX_NEXT_SLOT core = (slot + 1) % 16 ∧
        (w.length = 16 → s.epoch.retained = false → s.epoch.broken = [] →
          let a := localBase core + 0x3FC00 + 64 * slot
          (∀ i < 64, t.byte (a + i) = (bytesOf w).getD i 0) ∧ (∀ x, x < a ∨ a + 64 ≤ x → t.byte x = s.byte x) ∧
          (∀ b, b ≠ fullBit (8 * c + n) slot → t.bitAt b = s.bitAt b) ∧
          (∀ r cell i, r.isPhot = false → regAddr r cell i ≠ regAddr .GDR_INBOX core 0 → t.reg r cell i = s.reg r cell i))) ∧
    (q = [] ∨ s.enabled cc = false ∨ s.flag F.GCL_QUEUE_CTRL_PAUSE cc = true ∨ (∀ w, q.head? = some w → ∀ n, ¬ s.Targets c w n) →
      exec (.dispatchDeliver k) s = .next s) ∧
    (s.Writable g .GCL_POST cc 0 (image.toNat * 64) →
      let r := (s.load (image.toNat * 64) 64).1
      (∀ bs, r = .ok bs false →
        let img := wordsOf 16 bs
        let p := wfield img 0 15 8
        let taken := q.length < 1024 ∧ s.flag F.GCL_PROGp_VALID cc p = true ∧ s.fld F.GCL_PROGp_STEER cc p ≠ 3 ∧ s.enabled cc = true
        (taken → ∃ t w, exec (.gclPost g k image) s = .next t ∧ t.fld F.GCL_POST_RESULT_RESULT cc = 1 ∧ t.clusterQueue c = q ++ [w] ∧
          wfield w 0 3 0 = 5 ∧ wfield w 0 7 4 = 1 ∧ wfield w 0 15 8 = p ∧ wfield w 1 31 0 = wfield img 1 31 0 ∧
          wfield w 2 31 0 = s.now % 2 ^ 32 ∧ wfield w 3 31 0 = s.now / 2 ^ 32 % 2 ^ 32 ∧ w.drop 4 = img.drop 4 ∧ t.mem = s.mem) ∧
        (¬ taken → ∃ t, exec (.gclPost g k image) s = .next t ∧ t.fld F.GCL_POST_RESULT_RESULT cc = 2 ∧ t.clusters = s.clusters ∧
          t.mem = s.mem)) ∧
      ((∀ bs, r ≠ .ok bs false) → ∃ t, exec (.gclPost g k image) s = .next t ∧ t.fld F.GCL_POST_RESULT_RESULT cc = 3 ∧
        t.clusters = s.clusters ∧ t.mem = s.mem ∧ t.flag F.CELL_ERR_STATUS_VALID cc = true))


open Sys2Proof Sys2Proof.Machine in
/-- R222, R261, R305, R306, R307, R319, R320, R321, R616, R617, R651: Debug access. HALT halts a running core at once, with its sleep
broken off, or at its start; HALT 0 resumes it; STEP lets a halted core execute. The selected register is read and written while the core
is halted, and reads 0 else; with debug forbidden the writes are ignored and recorded. The local memory aperture reaches the memory of a
core that is OFF, in FAULT or halted, reads 0 and is recorded else. A core takes the state of R222, with the pc of its boot address and
its private bits 0, in the act in which its cell becomes ENABLED by EN. It then starts from the state it holds, halted where HALT is 1; a
core that runs or is not ENABLED does not. A write of RAISE makes ATTN pending with its CODE. The time base, not slewing, comes to `tcmp`
and TIMER is pending; an earlier `tcmp` changes nothing. -/
def Obligations.DebugAndCoreStart : Prop :=
  (∀ (s : State) (g : Agent) (c : CoreRef) (halt : Bool) (v : Word) (off size value : Nat), c.isFilter = false →
    let cell := c.cell
    let k := s.core c
    let awake := fun (x : CoreState) => { x with asleep := none }
    let others := fun (t : State) => (∀ d, d ≠ c → awake (t.core d) = awake (s.core d)) ∧ MemKept s t
    (s.Writable g .GDR_DBG_CTRL cell 0 1 → k.running = true → s.halted c = false →
      ∃ t, exec (.dbgHalt g c true) s = .next t ∧ t.halted c = true ∧ t.fld F.GDR_DBG_STATUS_REASON cell = 1 ∧
        t.core c = { k with asleep := none, stepping := false } ∧ others t) ∧
    (s.Writable g .GDR_DBG_CTRL cell 0 1 → k.running = false → s.halted c = false →
      ∃ t, exec (.dbgHalt g c true) s = .next t ∧ t.halted c = false ∧ t.flag F.GDR_DBG_CTRL_HALT cell = true ∧ awake (t.core c) = awake k ∧ others t) ∧
    (s.Writable g .GDR_DBG_CTRL cell 0 0 → s.halted c = true →
      ∃ t, exec (.dbgHalt g c false) s = .next t ∧ t.halted c = false ∧ t.flag F.GDR_DBG_CTRL_HALT cell = false ∧
        awake (t.core c) = awake { k with stepping := false } ∧ others t) ∧
    (s.Writable g .GDR_DBG_CTRL cell 0 3 → s.halted c = true →
      ∃ t, exec (.dbgStep g c) s = .next t ∧ t.halted c = true ∧ awake (t.core c) = awake { k with stepping := true } ∧ others t) ∧
    (∀ f : Fin 8, s.stopped = false → s.debugOpen = false →
      exec (.dbgHalt (.firmware f) c halt) s = .next (s.recordError cell 0x01 (regAddr .GDR_DBG_CTRL cell 0) 0) ∧
      exec (.dbgRegDataAccess (.firmware f) c true v) s = .next (s.recordError cell 0x01 (regAddr .GDR_DBG_REG_DATA cell 0) 0)) ∧
    (∀ f : Fin 8, s.stopped = false → ∃ t, exec (.dbgRegDataAccess (.firmware f) c false v) s = .next t ∧ t.regs = s.regs ∧ t.cores = s.cores ∧
      (s.debugOpen = false ∨ s.halted c = false → t.reply = 0) ∧
      (s.debugOpen = true → s.halted c = true →
        (∀ r : Fin 32, s.fld F.GDR_DBG_REG_SEL_REG cell = r.val → t.reply = k.get r) ∧
        (s.fld F.GDR_DBG_REG_SEL_REG cell = 0x20 → t.reply = k.pc) ∧
        (s.fld F.GDR_DBG_REG_SEL_REG cell = 0x22 → t.reply = 0) ∧
        (∀ n, crExists c n = true → n < 256 → s.fld F.GDR_DBG_REG_SEL_REG cell = 0x100 + n → t.reply = k.crGet c n))) ∧
    (s.Writable g .GDR_DBG_REG_DATA cell 0 v.toNat →
      (∀ r : Fin 32, s.fld F.GDR_DBG_REG_SEL_REG cell = r.val → ∃ t, exec (.dbgRegDataAccess g c true v) s = .next t ∧
        awake (t.core c) = awake (k.set r v) ∧ others t) ∧
      (s.fld F.GDR_DBG_REG_SEL_REG cell = 0x20 → ∃ t, exec (.dbgRegDataAccess g c true v) s = .next t ∧
        awake (t.core c) = awake { k with pc := v &&& ~~~3#64 } ∧ others t)) ∧
    (∀ f : Fin 8, s.stopped = false → size = 4 ∨ size = 8 → off % size = 0 → off < 0x40000 →
      let a := localBase cell + off
      let open_ := s.cellState cell = 0 ∨ s.cellState cell = 4 ∨ s.halted c = true
      (open_ → ∃ t, exec (.localApertureAccess (.firmware f) c true off size value) s = .next t ∧
        t.mem = (s.writeMem a (natLe size value) false 2).mem) ∧
      (open_ → s.lineErrOf (lineOf a) = LineErr.clean →
        ∃ t, exec (.localApertureAccess (.firmware f) c false off size value) s = .next t ∧ t.mem = s.mem ∧ t.replyPoison = false ∧
          t.reply = BitVec.ofNat 64 (leNat (s.bytes a size))) ∧
      (¬ open_ → ∃ t, exec (.localApertureAccess (.firmware f) c false off size value) s = .next t ∧ t.reply = 0 ∧
        t.mem = s.mem ∧ (s.flag F.CELL_ERR_STATUS_VALID cell = false → t.fld F.CELL_ERR_STATUS_CLASS cell = 0x01)) ∧
      (¬ open_ → exec (.localApertureAccess (.firmware f) c true off size value) s =
        .next (s.recordError cell 0x01 (unitBase cell + off) 0)))) ∧
  (∀ (s : State) (g : Agent) (n : Fin 128) (m : Fin 8) (code : BitVec 16),
    let takes := fun (c : CoreRef) (pc : Nat) => s.Writable g .CELL_CTRL c.cell 0 1 → s.cellState c.cell ≠ 3 →
      s.resetting c.cell = false → s.faulted c.cell = false → s.flag F.CELL_STATE_QUIESCE_BUSY c.cell = false →
      s.cellState (cellParent c.cell) = 3 → s.fld F.CELL_POWER_PSTATE c.cell = 0 → s.fencedCell c.cell = false →
      ∃ t, exec (.cellCtrlEnWrite g c.cell true) s = .next t ∧ t.enabled c.cell = true ∧ t.core c = { pc := BitVec.ofNat 64 (4 * pc) } ∧
        (∀ b < 65536, t.bitAt (privateKey c.cell b) = false) ∧ (∀ b < 2 ^ 32, t.bitAt b = s.bitAt b) ∧ t.mem = s.mem
    let starts := fun (i : Instr) (c : CoreRef) => s.enabled c.cell = true → (s.core c).running = false →
      ∃ t, exec i s = .next t ∧ (∀ d, d ≠ c → t.core d = s.core d) ∧ MemKept s t ∧
        t.core c = (if s.flag F.GDR_DBG_CTRL_HALT c.cell then { s.core c with running := true, asleep := none, stepping := false }
          else { s.core c with running := true }) ∧
        t.flag F.GDR_DBG_STATUS_HALTED c.cell = (s.flag F.GDR_DBG_CTRL_HALT c.cell || s.flag F.GDR_DBG_STATUS_HALTED c.cell)
    let gc := guiderCell n.val
    takes (.guider n) (s.fld F.GDR_BOOT_PC_PC gc) ∧ takes (.dome m) (s.fld F.DOM_COREn_BOOT_PC_PC domeSub m.val) ∧
    starts (.guiderCoreStart n) (.guider n) ∧ starts (.domeCoreStart m) (.dome m) ∧
    (s.enabled gc = false ∨ (s.core (.guider n)).running = true → exec (.guiderCoreStart n) s = .next s) ∧
    (s.enabled (domeCell m.val) = false ∨ (s.core (.dome m)).running = true → exec (.domeCoreStart m) s = .next s) ∧
    (s.Writable g .GDR_ATTN gc 0 (code.toNat * 2 ^ 16 + 1) →
      ∃ t, exec (.attnRaise g n code) s = .next t ∧ t.flag F.GDR_ATTN_PENDING gc = true ∧ t.fld F.GDR_ATTN_CODE gc = code.toNat ∧
        RegsKept s t [regAddr .GDR_ATTN gc 0] ∧ MemKept s t) ∧
    (∀ c : CoreRef, s.stopped = false → c.isFilter = false → ((s.core c).crGet c 0x41).getLsbD 0 = true →
      let tcmp := ((s.core c).crGet c 0x40).toNat
      (tcmp ≤ s.now → exec (.tcmpTimer c) s = .next s ∧ s.timerPending c = true) ∧
      (s.now < tcmp → tcmp + 2 < 2 ^ 64 → 0 ≤ s.tbPending → s.timeFrac < 2 ^ 32 →
        ∃ t, exec (.tcmpTimer c) s = .next t ∧ tcmp ≤ t.now ∧ t.now ≤ tcmp + 1 ∧ t.timerPending c = true ∧ t.cores = s.cores ∧ MemKept s t)))

open Sys2Proof Sys2Proof.Machine in
/-- R226, R229, R253, R254, R255, R256, R258, R268, R269, R272, R604: BRK and SYS take their exceptions. With XE 1 a guider or Dome core
enters the handler at vbase + 64 × cause, `xpc` the BRK or the instruction after the SYS, and nothing but the core, its counters and its
debug halt changes. With XE 0 it is a double fault: the core stops and its cell enters FAULT with class INTERNAL. Before an instruction
executes. A word that is no instruction of the core's kind takes ILLEGAL with that word; the word 0, and any word whose OP the map does
not name or marks absent, is such. A fetch from an address that reaches nothing takes ADDR, recorded with class ACCESS; one from register
space takes ACCESS; bit 1 of `xinfo` is 1. A fetch that does not fault, and a defined word, change nothing. An error of an instruction
cache line is recorded as ECC_CORR or ECC_UNCORR, with no exception (ADDR and INFO 0 are the model's, log 76). -/
def Obligations.ExceptionsAreTaken : Prop :=
  (∀ (s : State) (c : CoreRef) (imm : BitVec 16), s.Ready c → c.isFilter = false → (s.core c).stepping = false →
    let k := s.core c
    let brk : Exc := { cause := 0x0F }
    let sys : Exc := { cause := 0x0E, xinfo := imm.setWidth 64 }
    (k.xe c = true →
      (∃ t, exec (.brk c) s = .next t ∧ Entered c k (t.core c) brk k.pc ∧ (∀ d, d ≠ c → t.core d = s.core d) ∧
        t = { s with cores := t.cores, phot := t.phot }) ∧
      (∃ t, exec (.sys c imm) s = .next t ∧ Entered c k (t.core c) sys (k.pc + 4) ∧ (∀ d, d ≠ c → t.core d = s.core d) ∧
        t = { s with cores := t.cores, phot := t.phot })) ∧
    (k.xe c = false → s.flag F.CELL_ERR_STATUS_VALID c.cell = false → s.faulted c.cell = false → s.resetting c.cell = false →
      ∃ t, exec (.brk c) s = .next t ∧ (t.core c).running = false ∧ t.cellState c.cell = 4 ∧
        t.flag F.CELL_ERR_STATUS_VALID c.cell = true ∧ t.fld F.CELL_ERR_STATUS_CLASS c.cell = 0x08 ∧
        t.fld F.CELL_ERR_INFO_INFO c.cell = 0x0F + 256 * ((k.crGet c 0x13).toNat % 256) ∧ t.fld F.CELL_ERR_ADDR_ADDR c.cell = 0)) ∧
  (∀ (s : State) (c : CoreRef) (word : BitVec 32), s.Ready c →
    let pc := (s.core c).pc.toNat
    let op := word.toNat % 256
    let named := op = 1 ∨ op = 2 ∨ op = 4 ∨ op = 5 ∨ (0x08 ≤ op ∧ op ≤ 0x10) ∨ (0x18 ≤ op ∧ op ≤ 0x1E) ∨ (0x20 ≤ op ∧ op ≤ 0x23) ∨
      (0x28 ≤ op ∧ op ≤ 0x2A) ∨ (0x2C ≤ op ∧ op ≤ 0x2E) ∨ op = 0x30 ∨ op = 0x34 ∨ op = 0x35 ∨ op = 0x38 ∨ op = 0x39 ∨ op = 0x3C ∨
      op = 0x3D ∨ (0x40 ≤ op ∧ op ≤ 0x42) ∨ (0x88 ≤ op ∧ op ≤ 0x8C) ∨ op = 0x90 ∨ op = 0x91 ∨ (0x98 ≤ op ∧ op ≤ 0x9E) ∨
      (0xA0 ≤ op ∧ op ≤ 0xA3) ∨ op = 0xA8 ∨ op = 0xA9 ∨ op = 0xB8 ∨ op = 0xB9
    let absent := if c.isFilter then op = 4 ∨ (0x2C ≤ op ∧ op ≤ 0x2E) ∨ op = 0x3C ∨ op = 0x3D else 0x40 ≤ op ∧ op ≤ 0x42
    let fetched := fun (cause : Nat) (u : State) => ∃ e : Exc, e.cause = cause ∧ e.xaddr.toNat = pc ∧ e.xinfo.toNat % 16 = 2 ∧ e.after = false ∧
      exec (.instructionFetchFault ⟨c, .clean⟩) s = .next ((u.takeException c e (s.core c).pc).afterInstr c)
    (definedWord c word.toNat = false →
      s.Traps (.undefinedEncoding c word) c { cause := 0x01, xinfo := word.setWidth 64 } s) ∧
    (definedWord c word.toNat = true → exec (.undefinedEncoding c word) s = .next s) ∧
    (¬ named ∨ absent → definedWord c word.toNat = false) ∧
    (pc % 4 = 0 → placeOf c pc = none →
      fetched 0x04 ((s.free 3).2.recordError c.cell 0x01 (if pc ≤ 0xFFFFFFFFFFFF then pc else 0) 0)) ∧
    (∀ a, pc % 4 = 0 → placeOf c pc = some (.reg a) → fetched 0x05 ((s.free 3).2.regRefused c a 4 false)) ∧
    exec (.instructionFetchFault ⟨c, .corrected⟩) s = .next (s.recordError c.cell 0x02 0 0) ∧
    exec (.instructionFetchFault ⟨c, .bad⟩) s = .next (s.recordError c.cell 0x03 0 0) ∧
    (∀ a, pc % 4 = 0 → (s.core c).mode c ≠ modeU → placeOf c pc = some (.loc a) → s.lineErrOf (lineOf a) = LineErr.clean →
      (s.byte a).getLsbD 7 = false → exec (.instructionFetchFault ⟨c, .clean⟩) s = .next s))

namespace Sys2Proof.Machine

/-! ## Words of the statements about queued descriptors -/

/-- R223: the mode of core c may execute a device instruction that bit b of `uperm` grants. -/
def State.May (s : State) (c : CoreRef) (b : Nat) : Prop := (s.core c).mode c ≠ modeU ∨ ((s.core c).crGet c 1).getLsbD b = true

/-- R292: core c executes i, which writes the ticket t to rd and sets Z where it is 0, in the state u that it leaves. -/
def State.Tickets (s : State) (i : Instr) (c : CoreRef) (rd : Fin 32) (t : Nat) (u : State) : Prop :=
  s.Runs i c 4 u { (u.core c).set rd (BitVec.ofNat 64 t) with z := decide (t = 0) }

end Sys2Proof.Machine

open Sys2Proof Sys2Proof.Machine in
/-- R134, R135, R198, R223, R292, R293, R295: PRIM and MOVE copy the descriptor at ra, three lines or one, to the end of the Primary queue or
of mover rb's queue, write its ticket to rd and leave NEXT one higher, with Z 0; a full queue, or one whose cell is resetting, takes
nothing: rd is 0 and Z is 1. Without the right they take PRIV, with rb above 63 DEVICE, and queue nothing. -/
def Obligations.PrimAndMoveQueueDescriptors : Prop :=
  ∀ (s : State) (c : CoreRef) (rd ra rb : Fin 32) (ws : List Word32) (u : State), s.Ready c → c.isFilter = false →
    let k := s.core c
    let image := fun n => s.readImage c (k.get ra).toNat n = (.ok ws, u)
    let q := moverCell (k.get rb).toNat
    let t := (u.reg .PRIM_ISSUE_TICKET qnwPrim).toNat
    let tm := (u.reg .MOV_ISSUE_TICKET q).toNat
    (s.May c 0 → image 3 → u.resetting qnwPrim = false → u.prim.queue.length < 64 → ∃ v, s.Tickets (.prim c rd ra) c rd t v ∧
      v.prim.queue = u.prim.queue ++ [⟨t, ws, c, k.phase, false⟩] ∧ v.reg .PRIM_ISSUE_TICKET qnwPrim = BitVec.ofNat 64 (t + 1) ∧
      RegsKept u v [regAddr .PRIM_ISSUE_TICKET qnwPrim 0] ∧ MemKept u v) ∧
    (s.May c 0 → image 3 → u.resetting qnwPrim = true ∨ u.prim.queue.length = 64 → s.Tickets (.prim c rd ra) c rd 0 u) ∧
    (∀ (_ : (k.get rb).toNat < 64), s.May c 1 → image 1 → u.resetting q = false → (u.mover (k.get rb).toNat).queue.length < 32 →
      ∃ v, s.Tickets (.move c rd ra rb) c rd tm v ∧
        (v.mover (k.get rb).toNat).queue = (u.mover (k.get rb).toNat).queue ++ [⟨tm, ws, c, k.phase, false⟩] ∧
        v.reg .MOV_ISSUE_TICKET q = BitVec.ofNat 64 (tm + 1) ∧ RegsKept u v [regAddr .MOV_ISSUE_TICKET q 0] ∧ MemKept u v) ∧
    ((k.get rb).toNat < 64 → s.May c 1 → image 1 → u.resetting q = true ∨ (u.mover (k.get rb).toNat).queue.length = 32 →
      s.Tickets (.move c rd ra rb) c rd 0 u) ∧
    (¬ s.May c 0 → s.Traps (.prim c rd ra) c { cause := causePriv, xinfo := 0xFFF } s) ∧
    (¬ s.May c 1 → s.Traps (.move c rd ra rb) c { cause := causePriv, xinfo := 0xFFF } s) ∧
    (s.May c 1 → 64 ≤ (k.get rb).toNat →
      s.Traps (.move c rd ra rb) c { cause := causeDevice, xinfo := BitVec.ofNat 64 ((k.get rb).toNat % 2 ^ 32) } s)



open Sys2Proof Sys2Proof.Machine in
/-- R109, R127, R129, R173, R174, R188, R189, R192, R195: A write of a register of the `PRIM_MAP` pair. The map in force becomes the one
written exactly when both fields then agree with their complements, the quarter cell is OFF, and both values are at most 16; otherwise it
stays, with class ACCESS recorded where the pair agrees and nothing recorded where it does not. The head of the Primary queue. With no
PAUSE, no BLOCKED and no earlier operation it is taken: refused with the code of the first check it fails, its completion waiting with
status PROTOCOL, or accepted, with RETAINED cleared by a MATMUL. Otherwise the acceptance does nothing, but that checks which wait at an
activation table go on. Preload, prefetch and staging mark the head's ticket; a prefetch needs the rings of what it reads in force and
waits for earlier output. -/
def Obligations.PrimaryTakesItsHeadDescriptor : Prop :=
  (∀ (s : State) (g : Agent) (q : Fin 4) (compl : Bool) (v : Nat),
    let cell := quarterCell q.val
    let r := if compl then RegId.PRIM_MAP_C else .PRIM_MAP
    s.Writable g r cell 0 v →
    let row := if compl then s.fld F.PRIM_MAP_SPARE_ROW cell else v % 32
    let col := if compl then s.fld F.PRIM_MAP_SPARE_COL cell else v / 256 % 32
    let rowC := if compl then v % 32 else s.fld F.PRIM_MAP_C_SPARE_ROW_C cell
    let colC := if compl then v / 256 % 32 else s.fld F.PRIM_MAP_C_SPARE_COL_C cell
    let agree := row + rowC = 31 ∧ col + colC = 31
    let open_ := s.cellState cell = 0 ∧ row ≤ 16 ∧ col ≤ 16
    ∃ t, exec (.primMapWrite g q compl v) s = .next t ∧ t.mem = s.mem ∧
      (agree → open_ → t.fld F.PRIM_MAP_ROW_IN_FORCE cell = row ∧ t.fld F.PRIM_MAP_COL_IN_FORCE cell = col) ∧
      (¬ (agree ∧ open_) → t.fld F.PRIM_MAP_ROW_IN_FORCE cell = s.fld F.PRIM_MAP_ROW_IN_FORCE cell ∧
        t.fld F.PRIM_MAP_COL_IN_FORCE cell = s.fld F.PRIM_MAP_COL_IN_FORCE cell) ∧
      (agree → ¬ open_ → s.flag F.CELL_ERR_STATUS_VALID cell = false →
        t.flag F.CELL_ERR_STATUS_VALID cell = true ∧ t.fld F.CELL_ERR_STATUS_CLASS cell = 0x01) ∧
      (¬ agree ∨ open_ → t.fld F.CELL_ERR_STATUS_COUNT cell = s.fld F.CELL_ERR_STATUS_COUNT cell)) ∧
  (∀ (s : State) (d : PrimDesc) (rest : List PrimDesc), s.stopped = false → s.prim.queue = d :: rest →
    let code := (s.primChecks d).1
    (s.canAccept = false → (∀ op, s.prim.op = some op → op.checking = false) → exec .primAccept s = .next s) ∧
    (s.canAccept = true → d.actUsed = false → code ≠ 0 → ∃ t p, exec .primAccept s = .next t ∧ t.prim.queue = rest ∧ t.prim.op = none ∧
      t.prim.done = s.prim.done ++ [p] ∧ p.desc = d ∧ p.status = 1 ∧ p.refuse = code ∧ t.mem = s.mem ∧
      (s.flag F.CELL_ERR_STATUS_VALID qnwPrim = false → t.fld F.CELL_ERR_STATUS_CLASS qnwPrim = 0x06 ∧
        t.fld F.CELL_ERR_INFO_INFO qnwPrim = code + d.ticket % 2 ^ 24 * 2 ^ 8)) ∧
    (s.canAccept = true → d.actUsed = false → code = 0 → (∀ table, (d.lateChecks table).1 = 0) →
      ∃ t op, exec .primAccept s = .next t ∧ t.prim.queue = rest ∧ t.prim.op = some op ∧ op.desc = d ∧ op.acceptTime = s.now ∧
        op.occupies = false ∧ t.prim.done = s.prim.done ∧ MemKept s t ∧
        (d.isMatmul = true → t.flag F.PRIM_ACC_STATUS_RETAINED qnwPrim = false)) ∧
    (s.primBusy = true → d.isMatmul = true → exec .primPreload s = .next (s.setPrim { s.prim with preload := some d.ticket })) ∧
    (d.noPrefetch = false → s.ringsFor d = true → s.behind d.ticket (d.aMem ++ d.bExtents) = false → exec .prefetch s = .next (s.setPrim { s.prim with prefetch := some d.ticket })) ∧
    (s.prim.prefetch = some d.ticket → s.canPrefetch d = true →
      ∃ t, exec .headStaged s = .next t ∧ t = s.setPrim { s.prim with staged := some d.ticket } ∧ t.feedStatus % 2 = 1))

open Sys2Proof Sys2Proof.Machine in
/-- R137, R138, R188, R192, R198, R203, R309, R310, R600: The control registers of the Primary queue, of a mover's queue, of a cluster's
queue and of a ring. PAUSE takes the value written and moves nothing. FLUSH empties the queue, keeps PAUSE, and leaves what occupies the
unit: the flushed descriptors wait for their completion with status FLUSHED, a cluster's items are gone. RING_EN takes the value; the ring
in force stays as it is. COUNT takes its value. A change of RING_EN takes effect once the queue is empty, the array is not occupied and no
write-behind holds a line: the lines of the ring become invalid and every other line stays; before that it does nothing. A drained line of
a write-behind goes to memory, the oldest first. -/
def Obligations.QueueAndRingControls : Prop :=
  (∀ (s : State) (g : Agent) (p : Bool) (m : Fin 64) (k : Fin 16) (q : Fin 4) (n : BitVec 32),
    let mc := moverCell m.val
    let cc := clusterCell k.val
    let pc := platesCell q.val
    let may := fun (r : RegId) (cell v : Nat) => s.Writable g r cell 0 v
    (may .PRIM_QUEUE_CTRL qnwPrim p.toNat → ∃ t, exec (.primPause g p) s = .next t ∧ t.flag F.PRIM_QUEUE_CTRL_PAUSE qnwPrim = p ∧
      t.prim = s.prim ∧ RegsKept s t [regAddr .PRIM_QUEUE_CTRL qnwPrim 0] ∧ MemKept s t) ∧
    (may .MOV_QUEUE_CTRL mc p.toNat → ∃ t, exec (.movQueuePause g m p) s = .next t ∧ t.flag F.MOV_QUEUE_CTRL_PAUSE mc = p ∧
      t.movers = s.movers ∧ RegsKept s t [regAddr .MOV_QUEUE_CTRL mc 0] ∧ MemKept s t) ∧
    (may .GCL_QUEUE_CTRL cc p.toNat → ∃ t, exec (.clusterPause g k p) s = .next t ∧ t.flag F.GCL_QUEUE_CTRL_PAUSE cc = p ∧
      t.clusters = s.clusters ∧ RegsKept s t [regAddr .GCL_QUEUE_CTRL cc 0] ∧ MemKept s t) ∧
    (may .PRIM_QUEUE_CTRL qnwPrim ((s.flag F.PRIM_QUEUE_CTRL_PAUSE qnwPrim).toNat + 2) →
      ∃ t, exec (.primQueueFlush g) s = .next t ∧ t.prim.queue = [] ∧ t.prim.op = s.prim.op ∧
        (∃ l, t.prim.done = s.prim.done ++ l ∧ l.map PrimDone.desc = s.prim.queue ∧ ∀ d ∈ l, d.status = 2) ∧
        t.flag F.PRIM_QUEUE_CTRL_PAUSE qnwPrim = s.flag F.PRIM_QUEUE_CTRL_PAUSE qnwPrim ∧ MemKept s t) ∧
    (may .MOV_QUEUE_CTRL mc ((s.flag F.MOV_QUEUE_CTRL_PAUSE mc).toNat + 2) →
      ∃ t, exec (.movQueueFlush g m) s = .next t ∧ (t.mover m.val).queue = [] ∧ (t.mover m.val).run = (s.mover m.val).run ∧
        (t.mover m.val).flushed = (s.mover m.val).flushed ++ (s.mover m.val).queue ∧
        t.flag F.MOV_QUEUE_CTRL_PAUSE mc = s.flag F.MOV_QUEUE_CTRL_PAUSE mc ∧ MemKept s t) ∧
    (may .GCL_QUEUE_CTRL cc ((s.flag F.GCL_QUEUE_CTRL_PAUSE cc).toNat + 2) →
      ∃ t, exec (.clusterFlush g k) s = .next t ∧ t.clusterQueue k.val = [] ∧
        t.flag F.GCL_QUEUE_CTRL_PAUSE cc = s.flag F.GCL_QUEUE_CTRL_PAUSE cc ∧ MemKept s t) ∧
    (may .PLT_RING_CTRL pc p.toNat → ∃ t, exec (.ringEnWrite g q p) s = .next t ∧ t.flag F.PLT_RING_CTRL_RING_EN pc = p ∧
      t.flag F.PLT_RING_CTRL_EN_IN_FORCE pc = s.flag F.PLT_RING_CTRL_EN_IN_FORCE pc ∧ MemKept s t) ∧
    (may .MOV_NOTICE_COUNT mc n.toNat → ∃ t, exec (.movNoticeCountWrite g m n) s = .next t ∧
      t.fld F.MOV_NOTICE_COUNT_COUNT mc = n.toNat ∧ RegsKept s t [regAddr .MOV_NOTICE_COUNT mc 0] ∧ MemKept s t)) ∧
  (∀ (s : State) (q : Fin 4), s.stopped = false →
    let c := platesCell q.val
    let inRing := fun a => (ringRange q.val).1 ≤ a ∧ a < (ringRange q.val).2
    (s.prim.queue = [] → s.primBusy = false → s.prim.wb = [] →
      s.flag F.PLT_RING_CTRL_RING_EN c ≠ s.flag F.PLT_RING_CTRL_EN_IN_FORCE c →
      ∃ t, exec (.ringChangeTakeEffect q) s = .next t ∧ t.flag F.PLT_RING_CTRL_EN_IN_FORCE c = s.flag F.PLT_RING_CTRL_RING_EN c ∧
        (∀ a, inRing a → t.byte a = 0 ∧ t.lineValid (lineOf a) = false) ∧
        (∀ a, ¬ inRing a → t.byte a = s.byte a ∧ t.lineValid (lineOf a) = s.lineValid (lineOf a)) ∧ t.bits = s.bits) ∧
    (s.prim.queue ≠ [] ∨ s.primBusy = true ∨ s.prim.wb ≠ [] → exec (.ringChangeTakeEffect q) s = .next s) ∧
    (∀ l ls, s.prim.wb = l :: ls → s.memUp l.line.addr l.line.bytes.length = true →
      exec (.writeBehindDrain 1) s = .next ((s.setPrim { s.prim with wb := ls }).writeMem l.line.addr l.line.bytes l.line.mark 2)))

open Sys2Proof Sys2Proof.Machine in
/-- R124, R128, R131 to R133, R149, R162, R166, R167, R169 to R171, R177: an accepted operation. At its first multiply it occupies the
array under its phase tag; with a memory cell of its path down it ends at once with MEMORY_FAULT. At its end, with its inputs
visible and room for what goes by the write-behinds, its output lines leave in order, the accumulators are RETAINED where it asks for
that, and its completion waits with status OK and its flags; an issued DARK occupies the cycles of its descriptor without a stall. A
completion is posted when its lines are out and its notices posted: the record, DONE_BIT, and the ticket. -/
def Obligations.PrimaryOperationsEndAndComplete : Prop :=
  ∀ (s : State), s.stopped = false →
    (∀ op, s.prim.op = some op → op.occupies = false → op.checking = false → s.primPathUp op = true → op.desc.phase < 64 →
      ∃ u : State, exec .primFirstMultiply s = .next u.colSettle.noteLevels ∧
        u.prim.op = some { op with occupies := true, clock := s.arrayClock } ∧ u.prim.preload ≠ some op.desc.ticket ∧ u.prim.queue = s.prim.queue ∧ u.prim.darkFrame = false ∧ u.fld F.HEL_PHASE_ARRAY_PHASE helCell = op.desc.phase ∧
        MemKept s u) ∧
    (∀ op, s.prim.op = some op → op.occupies = false → op.checking = false → s.primPathUp op = false →
      ∃ t p, exec .primFirstMultiply s = .next t ∧ t.prim.op = none ∧ t.prim.done = s.prim.done ++ [p] ∧ p.desc = op.desc ∧
        p.status = 6 ∧ p.arrayCycles = 0 ∧ t.mem = s.mem ∧ t.flag F.PRIM_ACC_STATUS_RETAINED qnwPrim = false) ∧
    (∀ op, s.prim.op = some op → op.occupies = true → op.desc.kind = 4 →
      ∃ t p, exec .primArrayEnd s = .next t ∧ t.prim.op = none ∧ t.prim.done = s.prim.done ++ [p] ∧ p.desc = op.desc ∧
        p.status = 0 ∧ p.arrayCycles = op.desc.field 6 31 0 ∧ p.stallSlots = 0 ∧ MemKept s t) ∧
    (∀ op, s.prim.op = some op → op.occupies = true → 1 ≤ op.desc.kind → op.desc.kind ≤ 3 → op.desc.dest ≠ 2 →
      s.primPathUp op = true → s.inputsHere op = true → op.out = none → op.selfOverlap = false →
      let read : State := op.readLines.foldl (fun u la => u.noteRead la (u.readLine la false)) s
      let r := read.primResult op
      s.prim.wb.length + (r.lines.filter fun l => s.viaWriteBehind op.desc l).length ≤ 131072 →
      ∃ (u : State) (p : PrimDone), exec .primArrayEnd s = .next u.colSettle.noteLevels ∧ u.prim.op = none ∧ u.prim.done = s.prim.done ++ [p] ∧
        p.desc = op.desc ∧ p.status = 0 ∧ p.flags = r.flags ∧ p.poisonLines = op.poisonLines + (r.lines.filter OutLine.mark).length ∧
        u.mem = (r.lines.foldl (fun (w : State) l => w.primOutput op.desc l) read).mem ∧
        (op.desc.retain = true → u.flag F.PRIM_ACC_STATUS_RETAINED qnwPrim = true ∧ u.prim.accTicket = op.desc.ticket)) ∧
    (∀ d l, s.viaWriteBehind d l = false → s.primOutput d l = s.writeMem l.addr l.bytes l.mark 2) ∧
    (∀ d l, s.viaWriteBehind d l = true → (s.primOutput d l).prim.wb = s.prim.wb ++ [⟨d.ticket, l⟩] ∧
      MemKept s (s.primOutput d l)) ∧
    (∀ p, s.prim.done.find? (fun p => decide (p.posted < p.notices) && s.drained p.desc.ticket (p.posted + 1)) = some p →
      ∃ t, exec .primReadyNotice s = .next t ∧ MemKept s t ∧
        t.fld F.MOV_NOTICE_COUNT_COUNT (moverCell (p.desc.field 42 5 0)) =
          (s.fld F.MOV_NOTICE_COUNT_COUNT (moverCell (p.desc.field 42 5 0)) + 1) % 2 ^ 32) ∧
    (∀ p, s.nextDone = some p → s.doneReady p = true → p.status = 0 → p.desc.ticket < 2 ^ 64 →
      ∃ t, exec .primComplete s = .next t ∧ (t.reg .PRIM_DONE_TICKET qnwPrim).toNat = p.desc.ticket ∧
        t.prim.done = s.prim.done.filter (fun q => q.desc.ticket ≠ p.desc.ticket) ∧
        (∀ k, doneKey p.desc.issuer p.desc.doneBit = some k → k < 2 ^ 32 → p.desc.doneBit ≠ 0xFFFFFFFF → t.bitAt k = true) ∧
        (p.desc.cmplEn = false → t.mem = s.mem) ∧
        (p.desc.cmplEn = true → s.cmplOk p.desc.issuer.isDome p.desc.cmplAddr = true → s.memUp p.desc.cmplAddr 64 = true →
          t.mem = (s.writeMem p.desc.cmplAddr (bytesOf (p.record s.now)) false 2).mem))

open Sys2Proof Sys2Proof.Machine in
/-- R77, R78, R85, R86, R89, R91, R98, R100, R101: the arithmetic. An EXACT sum does not depend on the order of its contributions. An INT32
running sum saturates at the nearer bound and raises SATURATED. A NaN in a block makes the running sum the canonical NaN and raises
NAN_IN. A finite FP32 value rounds to itself, subnormals and signed zeros included, and every zero converts to the zero of
its sign. A stochastic draw has 16 bits. -/
def Obligations.ArithmeticIsExactWhereTheSpecSaysSo : Prop :=
  (∀ l l' : List (Machine.Num × Bool), l.Perm l' →
    (l.foldl (fun w v => ExactWord.add w v.1 v.2) {} : ExactWord) = l'.foldl (fun w v => w.add v.1 v.2) {}) ∧
  (∀ (acc : BitVec 32) (x : Int), (intBlockStep acc x).1.toInt = max (-2147483648) (min 2147483647 (acc.toInt + x)) ∧
    ((intBlockStep acc x).2.saturated = true ↔ (intBlockStep acc x).1.toInt ≠ acc.toInt + x)) ∧
  (∀ (acc : Nat) (ps : List Product), (∃ p ∈ ps, p.nanIn = true) → (blockStep acc ps).1 = 0x7FC00000 ∧ (blockStep acc ps).2.nanIn = true) ∧
  (∀ b < 2 ^ 32, b / 2 ^ 23 % 256 ≠ 255 → toFp32 (fromFp32 b) = (b, {})) ∧
  (∀ (f : Fmt) (sat neg : Bool) (rnd : Rnd) (draw : Nat), f ≠ .int8 →
    (convertOut f false sat rnd draw (.fin neg 0 0)).1 = if neg then 2 ^ (f.width - 1) else 0) ∧
  (∀ (seed : BitVec 64) (row col : Nat), srDraw seed row col < 2 ^ 16) ∧
  (∀ a < 2 ^ 32, ∀ b < 2 ^ 32, fp32Max a b = fp32Max b a ∧ fp32Min a b = fp32Min b a)

namespace Sys2Proof.Machine

/-! ## Words of the statements about movers -/

/-- R198, R203: the head descriptor of mover m can start: its cell is ENABLED, no descriptor occupies it, no flushed one waits for its
completion, PAUSE is 0 and its notice condition holds. -/
def State.MoverReady (s : State) (m : Nat) (d : MovDesc) (rest : List MovDesc) : Prop :=
  s.stopped = false ∧ s.enabled (moverCell m) = true ∧ s.flag F.MOV_QUEUE_CTRL_PAUSE (moverCell m) = false ∧
  (s.mover m).queue = d :: rest ∧ (s.mover m).run = none ∧ (s.mover m).flushed = [] ∧ s.movWaiting m = false

/-- Memory in which a copy meets nothing: every cell on the two spans is ENABLED, no source line has an error, no flip is armed, and no
epoch is retained or broken. -/
def State.PlainCopy (s : State) (src n dst k : Nat) : Prop :=
  s.memUp src n = true ∧ s.memUp dst k = true ∧ (∀ la, s.lineErrOf la = LineErr.clean) ∧ (∀ la, s.flipFor la = none) ∧
  s.epoch.retained = false ∧ s.epoch.broken = []

/-- R210: a FEED occupies mover m as r, goes on, and entry i is the next it reaches: its 8 words are ws, it passes its checks and can
start. -/
def State.Reaching (s : State) (m i : Nat) (r : MovRun) (ws : List Word32) (u : State) : Prop :=
  s.stopped = false ∧ (s.mover m).run = some r ∧ s.readEntry m i = (some (ws, false), u) ∧ i = r.entries.length ∧ i < r.desc.rows ∧
  s.entryCheck r.desc.issuer.isDome { words := ws, status := .running } = 0 ∧ r.mayStart i { words := ws, status := .running } = true

/-- The entries of mover m's running list are r's and one more. -/
def State.Entered (t : State) (m : Nat) (r : MovRun) (e : FeedEntry) : Prop :=
  ∃ q, (t.mover m).run = some q ∧ q.entries = r.entries ++ [e] ∧ q.desc = r.desc

end Sys2Proof.Machine


open Sys2Proof Sys2Proof.Machine in
/-- R198, R200, R201, R204, R205, R206, R207, R209, R210, R211, R212, R214, R215: A mover takes its head descriptor. One that fails a
check is refused with that check's code and class PROTOCOL in the mover cell. A COPY of rows that do not overlap leaves every destination
byte holding its source byte and every other byte as it was, and has ended with every byte counted; a SWEEP has ended, and of a memory
without errors changes nothing. A FEED occupies the mover with no entry reached. The entries of a feed list, and completion. A PUSH sends
its bytes as Memory Writes in order, none above the Max_Payload_Size or across 4 KiB of PEER; with its port lost it fails with PORT_ERROR.
A FLUSH sends one zero-length read and completes, or fails, with its answer. A WAIT completes where its notice condition holds. A VOLUME
is running or has ended. An ended descriptor frees the mover, and its record, DONE_BIT and ticket are posted. -/
def Obligations.MoversCopySweepAndFeed : Prop :=
  (∀ (s : State) (m : Fin 64) (d : MovDesc) (rest : List MovDesc), s.MoverReady m.val d rest →
    let code := s.movCheck d
    let ss := wfield d.words 10 31 0
    let ds := wfield d.words 11 31 0
    let cell := moverCell m.val
    (∀ i, (i = .moverCopy m ∧ d.op = 1) ∨ (i = .moverSweep m ∧ d.op = 2) ∨ (i = .moverFeed m ∧ d.op = 3) → code ≠ 0 →
      ∃ t r, exec i s = .next t ∧ (t.mover m.val).run = some r ∧ (t.mover m.val).queue = rest ∧ r.desc = d ∧ r.ended = true ∧ r.status = 1 ∧
        r.refuse = code ∧ t.mem = s.mem ∧
        (s.flag F.CELL_ERR_STATUS_VALID cell = false → t.fld F.CELL_ERR_STATUS_CLASS cell = 0x06 ∧
          t.fld F.CELL_ERR_INFO_INFO cell = code + d.ticket % 2 ^ 24 * 2 ^ 8)) ∧
    (d.op = 1 → code = 0 → ∃ t r, exec (.moverCopy m) s = .next t ∧ (t.mover m.val).run = some r ∧ (t.mover m.val).queue = rest ∧
      r.desc = d ∧ r.ended = true ∧ (r.status = 0 ∨ r.status = 6) ∧
      (s.PlainCopy d.src (d.span ss) d.dst (d.span ds) → d.src + d.span ss ≤ d.dst ∨ d.dst + d.span ds ≤ d.src →
        r.status = 0 ∧ r.bytes = d.rows * d.rowBytes ∧ r.poisonLines = 0 ∧
        (∀ i < d.rows, ∀ j < d.rowBytes, t.byte (d.dst + i * ds + j) = s.byte (d.src + i * ss + j)) ∧
        (∀ a, (∀ i < d.rows, ∀ j < d.rowBytes, a ≠ d.dst + i * ds + j) → t.byte a = s.byte a))) ∧
    (d.op = 2 → code = 0 → ∃ t r, exec (.moverSweep m) s = .next t ∧ (t.mover m.val).run = some r ∧ (t.mover m.val).queue = rest ∧
      r.desc = d ∧ r.ended = true ∧ (r.status = 0 ∨ r.status = 6) ∧ r.bytes = 0 ∧
      ((∀ la, s.lineErrOf la = LineErr.clean) → t.mem = s.mem ∧ r.corrected = 0 ∧ r.poisonLines = 0)) ∧
    (d.op = 3 → code = 0 → ∃ t r, exec (.moverFeed m) s = .next t ∧ (t.mover m.val).run = some r ∧ (t.mover m.val).queue = rest ∧
      r.desc = d ∧ r.ended = false ∧ r.entries = [] ∧ r.startTime = s.now ∧ MemKept s t)) ∧
  (∀ (s u : State) (m : Fin 64) (i : Nat) (r : MovRun) (ws : List Word32), s.cat.moverDone = [] →
    let e : FeedEntry := { words := ws, status := .running }
    let mps := 128 * 2 ^ min 5 (bitsOf (u.cfg e.pcie 0 0x68) 7 5)
    (s.Reaching m.val i r ws u → e.kind = 1 → u.dpUp e.pcie = true → u.memUp e.local e.length = true →
      (∀ la, s.lineErrOf la = LineErr.clean) →
      ∃ t l q, exec (.feedPush m i) s = .next t ∧ t.pci.sent = s.pci.sent ++ l ∧ (t.mover m.val).run = some q ∧
        q.entries = r.entries ++ [{ e with status := .done }] ∧ q.bytes = r.bytes + e.length ∧ t.mem = s.mem ∧
        (l.map Tlp.len).sum = e.length ∧
        ∀ p ∈ l, p.kind = .memWrite ∧ p.port = e.pcie ∧ p.len ≤ mps ∧ p.addr % 4096 + p.len ≤ 4096 ∧ p.bytes.length = p.len) ∧
    (s.Reaching m.val i r ws u → e.kind = 1 → u.dpUp e.pcie = false →
      ∃ t, exec (.feedPush m i) s = .next t ∧ t.Entered m.val r { e with status := .failed 7 portLostInfo } ∧ t.pci.sent = s.pci.sent) ∧
    (s.Reaching m.val i r ws u → e.kind = 3 → u.dpUp e.pcie = true →
      ∃ t, exec (.feedFlush m i) s = .next t ∧ t.Entered m.val r e ∧
        t.pci.sent = s.pci.sent ++ [{ port := e.pcie, fn := 0, kind := .memRead, addr := e.peer, tag := m.val }]) ∧
    (s.Reaching m.val i r ws u → e.kind = 4 → u.noticeOk m.val e.length = true →
      ∃ t, exec (.feedWait m i) s = .next t ∧ t.Entered m.val r { e with status := .done }) ∧
    (s.Reaching m.val i r ws u → e.kind = 4 → u.noticeOk m.val e.length = false →
      ∃ t, exec (.feedWait m i) s = .next t ∧ t.Entered m.val r e) ∧
    (s.Reaching m.val i r ws u → e.kind = 2 → ∃ t q x, exec (.feedVolume m i) s = .next t ∧ (t.mover m.val).run = some q ∧
      q.entries.length = i + 1 ∧ q.entries[i]? = some x ∧ x.words = ws ∧ x.pos ≤ e.length) ∧
    (∀ (q : MovRun) (x : FeedEntry) (ok : Bool), s.stopped = false → (s.mover m.val).run = some q → q.entries[i]? = some x → x.kind = 3 →
      x.status = .running → ∃ t z, exec (.feedFlushCompletion m i ok) s = .next t ∧ (t.mover m.val).run = some z ∧
        z.entries = q.entries.set i { x with status := if ok then .done else .failed 7 0x06 } ∧ t.mem = s.mem) ∧
    (∀ q : MovRun, s.stopped = false → (s.mover m.val).run = some q → q.ended = true → q.desc.ticket < 2 ^ 64 →
      ∃ t, exec (.moverComplete m) s = .next t ∧ (t.mover m.val).run = none ∧ (t.mover m.val).queue = (s.mover m.val).queue ∧
        (t.reg .MOV_DONE_TICKET (moverCell m.val)).toNat = q.desc.ticket ∧
        (∀ k, doneKey q.desc.issuer q.desc.doneBit = some k → k < 2 ^ 32 → q.desc.doneBit ≠ 0xFFFFFFFF → t.bitAt k = true) ∧
        (q.desc.cmplEn = false → t.mem = s.mem) ∧
        (q.desc.cmplEn = true → s.cmplOk q.desc.issuer.isDome q.desc.cmplAddr = true → s.memUp q.desc.cmplAddr 64 = true →
          t.mem = (s.writeMem q.desc.cmplAddr (bytesOf (q.record s.now)) false 2).mem)) ∧
    (∀ (d : MovDesc) (rest : List MovDesc), s.stopped = false → (s.mover m.val).run = none → (s.mover m.val).flushed = d :: rest →
      ∃ t, exec (.moverComplete m) s = .next t ∧ (t.mover m.val).flushed = rest ∧
        t.reg .MOV_DONE_TICKET (moverCell m.val) = BitVec.ofNat 64 d.ticket))

namespace Sys2Proof.Machine

/-! ## Words of the statements about the Collector -/

/-- R329: the checks of an open descriptor, by code. `dome` says that a Dome core writes the command (R652). -/
def State.OpenPasses (s : State) (dome : Bool) (c : ColSlot) : Nat → Prop
  | 1 => 1 ≤ c.kind ∧ c.kind ≤ 4 ∧ c.field 0 7 4 = 1
  | 2 => (c.field 0 9 8 = 0 ∧ c.field 0 11 10 = 0 ∧ c.field 0 15 12 ≤ 4) ∨ (c.field 0 9 8 = 1 ∧ c.field 0 11 10 ≤ 2 ∧ c.field 0 15 12 = 0)
  | 3 => (1 ≤ c.size ∧ c.size ≤ 4096 ∧ c.ownRank < c.size) ∧ (1 ≤ c.elems ∧ c.elems ≤ 0x80000000) ∧
      (6 ≤ c.field 5 4 0 ∧ c.field 5 4 0 ≤ 20) ∧ (1 ≤ c.field 7 16 0 ∧ c.field 7 16 0 ≤ 65536) ∧ c.field 16 4 0 ≤ 16 ∧
      (c.kind ≠ 1 → c.shard % 2 ^ c.field 5 4 0 = 0 ∧ c.elems ≤ c.size * c.shard)
  | 4 => ∀ n < 1024, s.colState n ≠ 0 → s.fld F.COL_SLOTn_STATE_COLL_ID colCell n ≠ c.collId
  | 5 => ∃ n < 1024, s.colState n = 0
  | 6 => s.colQuota + c.field 7 16 0 ≤ 65536 ∧ (c.spill = 0 ∨ c.steer = 2 → 2 * c.sizeO * c.slotBytes ≤ 1024 * c.field 7 16 0)
  | 7 => ∀ p ∈ c.extents, p.1 % 64 = 0 ∧ (p.2 ≠ 0 → extentOneQuad p.1 p.2 = true ∧ s.extentFree dome p.1 p.2 = true)
  | 8 => c.steer = 0 ∨ c.steer = 2 ∨
      (c.steer = 1 ∧ s.flag F.GCL_PROGp_VALID (clusterCell (c.field 17 19 16)) (c.field 17 7 0) = true ∧
        s.fld F.GCL_PROGp_STEER (clusterCell (c.field 17 19 16)) (c.field 17 7 0) ≠ 3) ∨
      (c.steer = 3 ∧ s.enabled (moverCell (c.field 17 5 0)) = true) ∨
      (c.steer = 4 ∧ ∃ t, s.colFind (c.field 17 15 0) = some t ∧ s.colState t = 1 ∧ c.field 18 31 0 + c.elems ≤ (s.colSlot t).elems ∧
        (c.field 17 27 16 = (s.colSlot t).ownRank ∨
          (c.field 17 27 16 < (s.colSlot t).size ∧ (s.colSlot t).isLocal (c.field 17 27 16) = true)))
  | _ => True

/-- R359: a `COL_CMD` command has been answered in u, and what waited goes on from there: RESULT, CODE and SLOT. -/
def State.ColAnswers (s : State) (i : Instr) (u : State) (result code slot : Nat) : Prop :=
  exec i s = .next u.colSettle.settle.noteLevels ∧ u.fld F.COL_CMD_RESULT_RESULT colCell = result ∧
    u.fld F.COL_CMD_RESULT_CODE colCell = code ∧ u.fld F.COL_CMD_RESULT_SLOT colCell = slot

/-- Nothing of the Collector but `COL_CMD_RESULT` differs. -/
def ColKept (s u : State) : Prop := u.col = s.col ∧ RegsKept s u [regAddr .COL_CMD_RESULT colCell 0] ∧ u.mem = s.mem

end Sys2Proof.Machine


open Sys2Proof Sys2Proof.Machine in
/-- R322, R323, R327, R329, R330, R337, R338, R355, R356, R357, R359, R360, R361: The commands of the Collector. OPEN of a descriptor that
passes the checks takes a free slot, OPEN at START_STEP with its id and every other register of the slot at reset; else it is refused with
the code of the first check that fails and no slot changes. CLOSE frees the slot; ABORT and MEMBER_FAIL make an OPEN one ABORTED with
their cause and rank and leave an ABORTED one; RESET opens it at the step named. Each discards both rounds. A FREE slot is refused with
0x0A. A binding's registers are written while EN is 0, a write of STEP clearing COVERED; a write that would leave EN 1 with another format
than 0 to 4 is ignored whole. While EN is 1 only EN may change; any other write is ignored. What is ignored is recorded with class ACCESS.
A write into an enabled binding that covers part of an element, or runs past its end, is discarded with PROTOCOL subcode 0x05 and counts
nothing. -/
def Obligations.CollectorCommandsAndBindings : Prop :=
  (∀ (s : State) (g : Agent) (n : Fin 1024) (bs ms : List Byte),
    let arg := s.fld F.COL_CMD_ARG_ARG colCell
    let may := fun (cmd slot : Nat) => s.Writable g .COL_CMD colCell 0 (cmd + slot * 2 ^ 16)
    let c : ColSlot := { words := wordsOf 32 bs }
    let read := s.colRead arg 2
    let table := read.2.colReadTable c ((4 * c.size + 63) / 64) ((4 * c.size + 63) / 64)
    let sharedLocal := c.kind ≠ 1 ∧ ∃ r < c.size, r ≠ c.ownRank ∧ wfield (wordsOf c.size ms) r 16 16 = 1
    let st := s.colState n.val
    let cleared := fun (u : State) => (u.colSlot n.val).cur = {} ∧ (u.colSlot n.val).nxt = {} ∧ (u.colSlot n.val).items = []
    (may 1 0 → arg % 64 = 0 → read.1 = .ok bs →
      (∀ k, 1 ≤ k → k ≤ 8 → (∀ j < k, s.OpenPasses (!g.isHost) c j) → ¬ s.OpenPasses (!g.isHost) c k →
        ∃ u x, s.ColAnswers (.colOpen g) u 2 k x ∧ u.col = s.col) ∧
      ((∀ j ≤ 8, s.OpenPasses (!g.isHost) c j) → (∀ b, table.1 ≠ .ok b) → ∃ u x, s.ColAnswers (.colOpen g) u 2 9 x ∧ u.col = s.col) ∧
      ((∀ j ≤ 8, s.OpenPasses (!g.isHost) c j) → table.1 = .ok ms → sharedLocal → ∃ u x, s.ColAnswers (.colOpen g) u 2 9 x ∧ u.col = s.col) ∧
      ((∀ j ≤ 8, s.OpenPasses (!g.isHost) c j) → table.1 = .ok ms → ¬ sharedLocal →
        ∃ u x, x < 1024 ∧ s.colState x = 0 ∧ s.ColAnswers (.colOpen g) u 1 0 x ∧ u.colState x = 1 ∧ u.colStep x = c.field 6 31 0 ∧
          u.fld F.COL_SLOTn_STATE_COLL_ID colCell x = c.collId ∧ (u.colSlot x).words = c.words ∧ (u.colSlot x).members = wordsOf c.size ms ∧
          (u.colSlot x).cur = {} ∧ (u.colSlot x).nxt = {} ∧
          (∀ r ∈ ([.COL_SLOTn_ROUND_FIRST, .COL_SLOTn_ROUND_LAST, .COL_SLOTn_INFO, .COL_SLOTn_DISCARDS, .COL_SLOTn_SKEW_COUNT] : List RegId),
            u.reg r colCell x = 0) ∧
          ∀ m, m ≠ x → u.colSlot m = s.colSlot m ∧ u.colState m = s.colState m)) ∧
    (may 1 0 → arg % 64 = 0 → (∀ b, read.1 ≠ .ok b) → ∃ u x, s.ColAnswers (.colOpen g) u 2 7 x ∧ u.col = s.col ∧
      u.flag F.CELL_ERR_STATUS_VALID colCell = true) ∧
    (st = 0 → ∀ p ∈ [(2, Instr.colClose g n), (3, .colAbort g n), (4, .colReset g n), (5, .colMemberFail g n)], may p.1 n.val →
      ∃ u, s.ColAnswers p.2 u 2 0x0A n.val ∧ ColKept s u) ∧
    (st ≠ 0 → may 2 n.val → ∃ u, s.ColAnswers (.colClose g n) u 1 0 n.val ∧ u.reg .COL_SLOTn_STATE colCell n.val = 0 ∧
      u.reg .COL_SLOTn_DISCARDS colCell n.val = 0 ∧ u.bitAt (0x40026000 + n.val) = false ∧ (u.colSlot n.val).words = [] ∧ cleared u) ∧
    (st = 1 → ∀ p ∈ [(3, Instr.colAbort g n, 1, 0), (5, .colMemberFail g n, 2, arg % 4096)], may p.1 n.val →
      ∃ u, s.ColAnswers p.2.1 u 1 0 n.val ∧ u.colState n.val = 2 ∧ u.colStep n.val = s.colStep n.val ∧
        u.fld F.COL_SLOTn_INFO_ABORT_CAUSE colCell n.val = p.2.2.1 ∧ u.fld F.COL_SLOTn_INFO_ABORT_RANK colCell n.val = p.2.2.2 ∧ cleared u) ∧
    (st = 2 → ∀ p ∈ [(3, Instr.colAbort g n), (5, .colMemberFail g n)], may p.1 n.val →
      ∃ u, s.ColAnswers p.2 u 1 0 n.val ∧ ColKept s u) ∧
    (st ≠ 0 → may 4 n.val → ∃ u, s.ColAnswers (.colReset g n) u 1 0 n.val ∧ u.colState n.val = 1 ∧ u.colStep n.val = arg % 2 ^ 32 ∧
      u.reg .COL_SLOTn_DISCARDS colCell n.val = s.reg .COL_SLOTn_DISCARDS colCell n.val ∧ cleared u)) ∧
  (∀ (s : State) (f : Fin 8) (reg : BindReg) (b : Fin 64) (v : Word) (w : Nat) (bs : List Byte) (ep : Bool), s.stopped = false →
    let g := Agent.firmware f
    let en := s.flag F.COL_BINDb_CTRL_EN colCell b.val
    let refused := exec (.bindingRegWrite g reg b v) s = .next (s.recordError colCell 0x01 (regAddr reg.id colCell b.val) 0)
    let badFmt := reg = .ctrl ∧ v.getLsbD 0 = true ∧ 4 < bitsOf v.toNat 7 4
    let onlyEn := reg = .ctrl ∧ writeFields .COL_BINDb_CTRL (s.reg .COL_BINDb_CTRL colCell b.val).toNat v.toNat / 2 =
      (s.reg .COL_BINDb_CTRL colCell b.val).toNat / 2
    (badFmt ∨ (en = true ∧ ¬ onlyEn) → refused) ∧
    (¬ badFmt → en = false ∨ onlyEn → ∃ t, exec (.bindingRegWrite g reg b v) s = .next t ∧
      (∀ x ∈ reg.id.map.fields, x.ty = .rw → bitField (t.reg reg.id colCell b.val) x = v.toNat / 2 ^ x.lo % 2 ^ (x.hi - x.lo + 1)) ∧
      (reg = .step → t.fld F.COL_BINDb_STEP_COVERED colCell b.val = 0) ∧ RegsKept s t [regAddr reg.id colCell b.val] ∧ MemKept s t) ∧
    (let eb := s.bindBytes b.val
     let base := 64 * s.fld F.COL_BINDb_WIN_WIN_OFFSET colCell b.val
     let whole := base + s.fld F.COL_BINDb_RANGE_LENGTH colCell b.val * eb
     let got := s.bindWrite b.val w bs ep
     (base ≤ w → (w - base) % eb ≠ 0 ∨ bs.length % eb ≠ 0 ∨ whole < w + bs.length →
       got.1 = [] ∧ got.2.col = s.col ∧
       got.2.reg .COL_BINDb_STEP colCell b.val = s.reg .COL_BINDb_STEP colCell b.val ∧
       (s.flag F.CELL_ERR_STATUS_VALID colCell = false → got.2.fld F.CELL_ERR_STATUS_CLASS colCell = 0x06 ∧
         got.2.fld F.CELL_ERR_INFO_INFO colCell / 2 ^ 24 = 5))))

open Sys2Proof Sys2Proof.Machine in
/-- R325, R332 to R336, R339, R340, R348, R349, R354 to R356: the Collector's events. A run meets the fate of the first check of R334 that fails, with
its counter and its record, and changes no element; a local run too far ahead is held. A contribution that passes adds one to the
count of its element and, unpoisoned and EXACT, its value to the word; one beyond the expected count is EXCESS and changes no
output. A RESULT waits until its round is current. A chunk not delivered does not complete. A timeout aborts with cause 4. The errors a
run meets in the Collector's buffers mark its elements and are recorded first. -/
def Obligations.CollectorTakesRuns : Prop :=
  ∀ (s : State) (r : RunIn) (n : Fin 1024) (v : Nat × Bool) (k : Fin 24) (a : Nat) (bs : List Byte) (ep next : Bool) (i chunk : Nat),
    s.stopped = false →
    let c := s.colSlot n.val
    let st := s.colState n.val
    let d := (BitVec.ofNat 32 r.step - BitVec.ofNat 32 (s.colStep n.val)).toInt
    let arrives := fun (u : State) => exec (.collectiveRunArrive r) s = .next u.colSettle.tidy
    let records := fun (u : State) (slot sub : Nat) => s.flag F.CELL_ERR_STATUS_VALID colCell = false →
      u.fld F.CELL_ERR_STATUS_CLASS colCell = 0x06 ∧ u.fld F.CELL_ERR_INFO_INFO colCell = slot + r.rank % 4096 * 2 ^ 10 + sub * 2 ^ 24
    let counts := fun (u : State) (f : Fld) => u.fld f colCell n.val = min 0xFFFF (s.fld f colCell n.val + 1)
    let up := s.colDown = false ∧ r.conn.isSome = true ∧ r.upsets = []
    let found := s.colFind r.collId = some n.val
    let rankOk := r.rank < c.size ∧ r.rank ≠ c.ownRank ∧ c.isLocal r.rank = false ∧ r.conn = some (c.conn r.rank)
    let fmtOk := r.fmt ≤ 4 ∧ (r.result = true → r.fmt = c.field 0 15 12)
    (s.colDown = true → r.conn.isSome = true → r.upsets = [] → ∃ u : State, arrives u ∧ u.col = s.col ∧ u.regs = s.regs) ∧
    (up → s.colFind r.collId = none → ∃ u : State, arrives u ∧ u.col = s.col ∧ records u 0x3FF 6) ∧
    (up → found → st = 2 → ∃ u : State, arrives u ∧ u.col = s.col ∧ counts u F.COL_SLOTn_DISCARDS_ABORT_DISCARDS) ∧
    (up → found → st = 1 → ¬ rankOk → ∃ u : State, arrives u ∧ u.col = s.col ∧ records u n.val 1) ∧
    (up → found → st = 1 → rankOk → ¬ fmtOk → ∃ u : State, arrives u ∧ u.col = s.col ∧ records u n.val 7) ∧
    (up → found → st = 1 → rankOk → fmtOk → d < 0 → ∃ u : State, arrives u ∧ u.col = s.col ∧ counts u F.COL_SLOTn_DISCARDS_STALE) ∧
    (up → found → st = 1 → rankOk → fmtOk → 1 < d → ∃ u : State, arrives u ∧ u.col = s.col ∧ counts u F.COL_SLOTn_DISCARDS_EARLY ∧ records u n.val 2) ∧
    (up → found → st = 1 → rankOk → fmtOk → 0 ≤ d → d ≤ 1 → c.elems < r.offset + r.elems.length →
      ∃ u : State, arrives u ∧ u.col = s.col ∧ records u n.val 8) ∧
    (r.conn = none → found → st = 1 → r.rank = c.ownRank → fmtOk → 1 < d → exec (.collectiveRunArrive r) s = .next s.tidy) ∧
    (∀ x w, up → s.col.intake = [] → found → st = 1 → rankOk → fmtOk → d = 0 → r.result = false → c.kind ≠ 3 → c.inL r.offset = true → r.elems = [v] →
      c.elem false r.offset = some x → x.word = .exact w → s.roundDone n.val = false →
      (x.place = .open → x.count + 1 ≠ c.expected → ∃ (u : State) (y : ColElem), arrives u ∧ (u.colSlot n.val).elem false r.offset = some y ∧ y.place = .open ∧
        y.count = x.count + 1 ∧ y.poison = (x.poison || v.2) ∧
        (v.2 = false → y.word = .exact (w.add (decodeElem ((Fmt.ofCode r.fmt).getD .fp32) false v.1) false)) ∧
        (v.2 = true → ∃ z : ExactWord, y.word = .exact z ∧ z.sum = w.sum ∧ z.nan = w.nan ∧ z.pinf = w.pinf ∧ z.ninf = w.ninf) ∧
        ∀ e, e ≠ r.offset → (u.colSlot n.val).elem false e = c.elem false e) ∧
      (x.place = .delivered → ∃ u : State, arrives u ∧ counts u F.COL_SLOTn_DISCARDS_EXCESS ∧ records u n.val 4 ∧
        ∀ e, (u.colSlot n.val).elem false e = c.elem false e)) ∧
    (r.conn.isSome = true → exec (.collectiveRunArrive r) s =
      exec (.collectiveRunArrive { r with elems := r.struck, upsets := [] }) (s.runUpsets r.upsets)) ∧
    (∀ j bad, (r.upsets = [.accumulator j bad] ∨ r.upsets = [.intake j bad]) → s.flag F.CELL_ERR_STATUS_VALID colCell = false →
      (s.runUpsets r.upsets).fld F.CELL_ERR_STATUS_CLASS colCell = if bad then 0x03 else 0x02) ∧
    (∀ e, s.col.egress[i]? = some e → e.result = true → e.step ≠ s.colStep e.slot → exec (.egressRunSend i) s = .next s.tidy) ∧
    (∀ e, s.col.egress[i]? = some e → (e.result = true → e.step = s.colStep e.slot) → s.connPstate e.conn = psConnected →
      ∃ u : State, exec (.egressRunSend i) s = .next (u.roundCheck e.slot 2).tidy ∧ u.col.egress = s.col.egress.erase e) ∧
    (s.colState n.val ≠ 1 ∨ s.chunkReady n.val chunk next = false → exec (.chunkComplete n chunk next) s = .next s.colSettle.tidy) ∧
    (st = 1 → s.chunkReady n.val chunk next = true → c.steer ≠ 1 → c.skew = 0 →
      ∃ u : State, exec (.chunkComplete n chunk next) s = .next (u.roundCheck n.val 2).colSettle.tidy ∧
        (((u.colSlot n.val).round next).chunk chunk).done = true ∧
        (c.steer = 3 → u.fld F.MOV_NOTICE_COUNT_COUNT (moverCell (c.field 17 5 0)) =
          (s.fld F.MOV_NOTICE_COUNT_COUNT (moverCell (c.field 17 5 0)) + 1) % 2 ^ 32)) ∧
    (st ≠ 0 → c.items = [] → ∃ u : State, exec (.programItemRepost n) s = .next u.tidy ∧ u.clusters = s.clusters ∧ u.mem = s.mem) ∧
    (∀ x, st = 1 → c.items = [x] → (s.clusterQueue x.cluster).length < 1024 → s.enabled (clusterCell x.cluster) = true →
      s.flag F.GCL_PROGp_VALID (clusterCell x.cluster) x.program = true → s.fld F.GCL_PROGp_STEER (clusterCell x.cluster) x.program ≠ 3 →
      ∃ u : State, exec (.programItemRepost n) s = .next u.tidy ∧ (u.colSlot n.val).items = [] ∧
        u.clusterQueue x.cluster = s.clusterQueue x.cluster ++ [mkItem 4 x.program x.key s.now x.args]) ∧
    (st = 1 → c.timeoutMs ≠ 0 → c.cur.arrived.isSome = true →
      ∃ u : State, exec (.roundTimeout n) s = .next u.colSettle.tidy ∧ u.colState n.val = 2 ∧
        u.fld F.COL_SLOTn_INFO_ABORT_CAUSE colCell n.val = 4 ∧ u.fld F.COL_SLOTn_INFO_ABORT_RANK colCell n.val = 0 ∧
        (s.flag F.CELL_ERR_STATUS_VALID colCell = false → u.fld F.CELL_ERR_STATUS_CLASS colCell = 0x07 ∧
          u.fld F.CELL_ERR_INFO_INFO colCell = n.val)) ∧
    (s.inColWindow k.val a bs.length = false → exec (.bindingWrite k a bs ep) s = .next s.tidy) ∧
    (∀ w b, s.dpUp (2 + k.val) = true → (∀ h ∈ s.pci.held, h.1 ≠ k.val) → s.inWindow k.val a bs.length = some w →
      s.flag F.PCI_DP_INWw_BUS_COLL (downCell k.val) w = true →
      let off := a - 4096 * s.fld F.PCI_DP_INWw_BUS_BUS_BASE (downCell k.val) w
      let base := 64 * s.fld F.COL_BINDb_WIN_WIN_OFFSET colCell b
      let eb := s.bindBytes b
      let whole := s.fld F.COL_BINDb_RANGE_LENGTH colCell b * eb
      let cov := s.fld F.COL_BINDb_STEP_COVERED colCell b + bs.length
      s.bindAt k.val off = some b → (off - base) % eb = 0 → bs.length % eb = 0 → off + bs.length ≤ base + whole → cov ≤ whole →
      whole < 2 ^ 32 → s.colHolds (s.bindRun b off bs ep) false = false →
      ∃ u : State, exec (.bindingWrite k a bs ep) s = .next u.colSettle.tidy ∧
        (cov < whole → u.fld F.COL_BINDb_STEP_COVERED colCell b = cov ∧
          u.fld F.COL_BINDb_STEP_STEP colCell b = s.fld F.COL_BINDb_STEP_STEP colCell b) ∧
        (cov = whole → u.fld F.COL_BINDb_STEP_COVERED colCell b = 0 ∧
          u.fld F.COL_BINDb_STEP_STEP colCell b = (s.fld F.COL_BINDb_STEP_STEP colCell b + 1) % 2 ^ 32))

namespace Sys2Proof.Machine

/-! ## Words of the statements about Transit -/

/-- R371: what the entry of a connection must meet. -/
structure State.EntryMeets (s : State) (x : TrnConn) : Prop where
  mode : x.field 0 1 0 ≤ 1
  pmtu : x.field 0 7 6 ≠ 3
  ports : x.field 2 7 0 ≠ 0
  data : 16 ≤ x.field 14 10 0 ∧ x.field 14 10 0 ≤ 1024
  coll : x.field 14 24 16 ≤ 256
  rcq : s.flag F.TRN_CQq_CFG_EN trnCell (x.field 15 11 0) = true
  pfc : x.field 0 1 0 = 0 → ∀ p < 8, bitsOf (x.field 2 7 0) p p = 1 → s.pfcOn p (x.field 0 10 8) = true

/-- R392, R533: a completion entry for tag t of queue q waits in u for its completion queue, unless a VF of an earlier generation started
the operation. -/
def State.Ended (s u : State) (c : Nat) (o : TrnOrigin) (msn status old : Nat) : Prop :=
  ∀ q t opc vf, o = .sq q t opc vf → s.vfPast vf = false →
    (⟨cqEntry t status opc c q 0 old msn, true, vf⟩ : TrnEntry) ∈ smapGet (fun _ => []) u.trn.cqs (s.fld F.TRN_SQq_PTR_CQ trnCell q)

/-- R375: in u connection c of s has entered FAILED with a cause: its operations have ended with a status, CONN_EVENT is set, and
nothing is reserved or in flight. -/
structure State.ConnLostTo (s u : State) (c cause status : Nat) : Prop where
  pstate : u.connPstate c = psFailed
  reason : u.fld F.TRN_CONNc_STATE_CAUSE trnCell c = cause
  ended : ∀ o ∈ (s.conn c).ops, s.Ended u c o.origin o.msn status 0
  none : (u.conn c).ops = [] ∧ (u.conn c).out = [] ∧ (u.conn c).paths = []
  event : u.bitAt 0x40025001 = true

/-- R374: in u the quiesce of connection c of s is complete. -/
structure State.ConnEndedTo (s u : State) (c : Nat) : Prop where
  pstate : u.connPstate c = psIdle
  gen : u.connGen c = (s.connGen c + 1) % 65536
  ended : ∀ o ∈ (s.conn c).ops, s.Ended u c o.origin o.msn 9 0
  none : u.conn c = { lastDisc := (s.conn c).lastDisc, lastItem := (s.conn c).lastItem }
  event : u.bitAt 0x40025001 = true

/-- R362, R365, R376: a packet has the shape of the connection it names, which is not IDLE, and passes checks 1 to 4 and 6 for it. -/
structure State.PktFor (s : State) (k : TrnPkt) : Prop where
  live : s.stopped = false
  classified : s.classifying = true
  version : k.version = 1
  node : k.dstNode = s.fld F.TRN_NODE_ADDR_ADDR trnCell
  named : s.connPstate k.dstConn ≠ psIdle
  shape : k.tagged = ((s.conn k.dstConn).field 0 12 12 == 1)
  source : k.srcNode = (s.conn k.dstConn).field 1 15 0 ∧ k.srcConn = (s.conn k.dstConn).field 1 31 16
  addresses : k.v6 = (s.conn k.dstConn).v6 ∧ k.dst = (s.conn k.dstConn).ip 4 ∧ k.src = (s.conn k.dstConn).ip 8
  path : k.path < (s.conn k.dstConn).pathCount

/-- R373, R376: it passes check 5 too. -/
structure State.PktOpen (s : State) (k : TrnPkt) : Prop extends s.PktFor k where
  up : s.connPstate k.dstConn = psConnected ∨ s.connPstate k.dstConn = psDraining
  gen : k.dstGen = s.connGen k.dstConn

/-- The packet types with the command that brings a packet of each. -/
def TrnPkt.rows (k : TrnPkt) : List (Nat × Instr) :=
  [(1, .transitWrite k), (2, .transitReadReq k), (3, .transitReadResp k), (4, .transitAtomic k), (5, .transitAtomicResp k),
   (6, .transitCollective k), (8, .transitAck k), (9, .transitNak k), (0xA, .transitConnect k), (0xB, .transitConnectReply k),
   (0xC, .transitDisconnect k), (0xD, .transitDisconnectReply k)]

end Sys2Proof.Machine

open Sys2Proof Sys2Proof.Machine in
/-- R368, R370, R371, R372, R373, R374, R375: a connection. EN written 1 in IDLE reads its entry: one that meets the checks is CONNECTING with
CAUSE 0, any other FAILED with CONFIG. EN written 0 ends CONNECTING and FAILED at once, with GEN one more, and starts DRAINING in
CONNECTED. CONNECT is sent again while CONNECTING and DISCONNECT while a drained connection waits; the timeouts fail the one with
CONNECT_TIMEOUT and end the other. The handshake: parameters that differ give MISMATCH, a CONNECT of a restarted peer PEER_CLOSED, one
that echoes this side's GEN CONNECTED with the peer's grants; any other is answered with its generation. DISCONNECT fails a CONNECTED
connection with PEER_CLOSED, and DISCONNECT_REPLY ends one that has sent DISCONNECT. -/
def Obligations.ConnectionsOpenAndClose : Prop :=
  ∀ (s : State) (g : Agent) (c : Fin 65536) (k : TrnPkt),
    let n := c.val
    let p := s.connPstate n
    let x := s.conn n
    let may := fun (v : Nat) => s.Writable g .TRN_CONNc_CTRL trnCell n v
    let en := s.connEn n
    let sends := fun (v : State) (i : Instr) (r : TrnPkt) => exec i s = .next (v.trnSend n 0 r).tidy
    let quiet := fun (i : Instr) => ∃ u : State, exec i s = .next u.tidy ∧ u.trn = s.trn ∧ u.regs = s.regs ∧ MemKept s u
    (may 1 → p = psIdle → s.enabled trnCell = true →
      let s0 := (s.setFlag F.TRN_CONNc_CTRL_EN trnCell true n).setFld F.TRN_CONNc_STATE_CAUSE trnCell 0 n
      let r := s0.load (4096 * s.fld F.TRN_CONN_TABLE_BASE trnCell + 128 * n) 128 true
      (∀ bs, r.1 = .ok bs false → r.2.EntryMeets { entry := wordsOf 32 bs } →
        ∃ u : State, exec (.connEnWrite g c true) s = .next u.settle.noteLevels ∧ u.connPstate n = psConnecting ∧ u.connEn n = true ∧
          u.fld F.TRN_CONNc_STATE_CAUSE trnCell n = 0 ∧ u.connPeerGen n = 0 ∧ u.connGen n = s.connGen n ∧
          (u.conn n).entry = wordsOf 32 bs ∧ (u.conn n).msn = 0 ∧ (u.conn n).ops = [] ∧ (u.conn n).data.consumed = 0) ∧
      ((∀ bs, r.1 = .ok bs false → ¬ r.2.EntryMeets { entry := wordsOf 32 bs }) →
        ∃ u : State, exec (.connEnWrite g c true) s = .next u.settle.noteLevels ∧ u.connPstate n = psFailed ∧ u.connEn n = true ∧
          u.fld F.TRN_CONNc_STATE_CAUSE trnCell n = 5 ∧ u.bitAt 0x40025001 = true)) ∧
    (may 0 → p = psConnecting ∨ p = psFailed →
      ∃ u : State, exec (.connEnWrite g c false) s = .next u.settle.noteLevels ∧ u.connEn n = false ∧ s.ConnEndedTo u n) ∧
    (may 0 → p = psConnected →
      ∃ u : State, exec (.connEnWrite g c false) s = .next u.settle.noteLevels ∧ u.connEn n = false ∧ u.connPstate n = psDraining ∧
        u.connGen n = s.connGen n ∧ (u.conn n).ops = x.ops ∧ (u.conn n).closing = x.ops.isEmpty) ∧
    (s.stopped = false → p = psConnecting → ∃ r, sends s (.connectRetry c) r ∧ r.type = 0xA ∧ r.word 0 % 256 = x.field 0 7 0 ∧
      bitsOf (r.word 0) 8 8 = x.heard.toNat ∧ bitsOf (r.word 0) 31 16 = s.connGen n ∧
      (x.heard = true → r.word 1 % 65536 = s.connPeerGen n) ∧ r.word 2 = x.data.rxLimit % 2 ^ 32 ∧ r.word 3 = x.coll.rxLimit % 2 ^ 32) ∧
    (s.stopped = false → p = psConnecting → ∃ u : State, exec (.connectTimeout c) s = .next u.tidy ∧ s.ConnLostTo u n 3 9) ∧
    (s.stopped = false → p = psDraining → x.closing = true → sends s (.disconnectRetry c) { type := 0xC }) ∧
    (s.stopped = false → p = psDraining → en = false → ∃ u : State, exec (.drainTimeout c) s = .next u.tidy ∧ s.ConnEndedTo u n) ∧
    (s.stopped = false → p ≠ psConnecting → exec (.connectRetry c) s = .next s.tidy ∧ exec (.connectTimeout c) s = .next s.tidy) ∧
    (s.stopped = false → p ≠ psDraining → exec (.disconnectRetry c) s = .next s.tidy ∧ exec (.drainTimeout c) s = .next s.tidy) ∧
    (s.PktFor k → k.dstConn = n → k.type = 0xA →
      let gen := bitsOf (k.word 0) 31 16
      let same := k.word 0 % 256 = x.field 0 7 0
      let restarted := p = psConnected ∧ gen ≠ s.connPeerGen n
      let agreed := bitsOf (k.word 0) 8 8 = 1 ∧ k.word 1 % 65536 = s.connGen n ∧ k.word 4 % 256 = 0
      let ends := fun (cause : Nat) => ∃ u : State, exec (.transitConnect k) s = .next u.tidy ∧ s.ConnLostTo u n cause 9 ∧ u.connPeerGen n = gen
      (restarted → ends 2) ∧
      (p = psConnecting ∨ p = psConnected → ¬ restarted → ¬ same → ends 4) ∧
      (p = psConnecting → same → agreed → ∃ u : State, exec (.transitConnect k) s = .next u.tidy ∧ u.connPstate n = psConnected ∧
        u.connPeerGen n = gen ∧ (u.conn n).data.limit = k.word 2 ∧ (u.conn n).coll.limit = k.word 3 ∧ (u.conn n).paths = [] ∧
        u.bitAt 0x40025001 = true) ∧
      (same → (p = psConnecting ∧ ¬ agreed) ∨ (p = psConnected ∧ gen = s.connPeerGen n) →
        ∃ (v : State) (r : TrnPkt), sends v (.transitConnect k) r ∧ v.connPstate n = p ∧ v.connPeerGen n = gen ∧ r.type = 0xB ∧
          bitsOf (r.word 0) 8 8 = 1 ∧ r.word 1 % 65536 = gen ∧ bitsOf (r.word 0) 31 16 = s.connGen n ∧ r.word 4 % 256 = 0) ∧
      (p = psDraining ∨ p = psFailed → quiet (.transitConnect k))) ∧
    (s.PktFor k → k.dstConn = n → k.type = 0xB →
      let gen := bitsOf (k.word 0) 31 16
      let agreed := bitsOf (k.word 0) 8 8 = 1 ∧ k.word 1 % 65536 = s.connGen n ∧ k.word 4 % 256 = 0 ∧ k.word 0 % 256 = x.field 0 7 0
      (p = psConnecting → k.word 4 % 256 = 1 → ∃ u : State, exec (.transitConnectReply k) s = .next u.tidy ∧ s.ConnLostTo u n 4 9) ∧
      (p = psConnecting → agreed → ∃ u : State, exec (.transitConnectReply k) s = .next u.tidy ∧ u.connPstate n = psConnected ∧
        u.connPeerGen n = gen ∧ (u.conn n).data.limit = k.word 2 ∧ (u.conn n).coll.limit = k.word 3 ∧ (u.conn n).paths = [] ∧
        u.bitAt 0x40025001 = true) ∧
      (p = psConnected → k.word 4 % 256 = 1 → ∃ u : State, exec (.transitConnectReply k) s = .next u.tidy ∧ s.ConnLostTo u n 4 9) ∧
      (p ≠ psConnecting → p ≠ psConnected ∨ k.word 4 % 256 ≠ 1 → quiet (.transitConnectReply k))) ∧
    (s.PktFor k → k.dstConn = n → k.type = 0xC →
      (p = psConnected → ∃ u : State, exec (.transitDisconnect k) s = .next u.tidy ∧ s.ConnLostTo u n 2 9) ∧
      (p = psDraining → ∃ v : State, sends v (.transitDisconnect k) { type := 0xD } ∧ v.trn = s.trn ∧ v.regs = s.regs) ∧
      (p = psConnecting ∨ p = psFailed → quiet (.transitDisconnect k))) ∧
    (s.PktFor k → k.dstConn = n → k.type = 0xD →
      (p = psDraining → x.closing = true → en = false →
        ∃ u : State, exec (.transitDisconnectReply k) s = .next u.tidy ∧ s.ConnEndedTo u n) ∧
      (p ≠ psDraining ∨ x.closing = false → quiet (.transitDisconnectReply k)))

namespace Sys2Proof.Machine

/-- R378, R380, R382: an open packet of types 1 to 6 is accepted: its PSN is new and in reach, and its cells fit the grant. -/
structure State.PktTaken (s : State) (k : TrnPkt) : Prop extends s.PktOpen k where
  fresh : 0 ≤ diff32 k.psn ((s.conn k.dstConn).path k.path).base ∧ k.psn ∉ ((s.conn k.dstConn).path k.path).marks
  near : diff32 k.psn ((s.conn k.dstConn).path k.path).base ≤ if (s.conn k.dstConn).lossy then 63 else 0
  fits : trnCost k.type k.payload.length ≤ ((s.conn k.dstConn).pool (k.type == 6)).reserved

end Sys2Proof.Machine

open Sys2Proof Sys2Proof.Machine in
/-- R362, R365, R373, R376, R378, R380, R382, R394: the checks of a received packet, in their order, for every type. PROTOCOL failures are recorded
with the connection, the order number and the type; every other discard leaves Transit as it was. A packet for a connection that is not
CONNECTED or DRAINING is answered with DISCONNECT, not within 100 µs of the last and not while FAILED. A duplicate is acknowledged at
once. A PSN beyond reach is discarded, under LOSSLESS with a NAK SEQ once in 8 µs for each expected PSN. A command that names a packet of
another type, that has not the tag of its connection, or that comes while classification does not run, does nothing (log 7). -/
def Obligations.PacketsMeetTheirChecks : Prop :=
  ∀ (s : State) (k : TrnPkt) (t : Nat) (i : Instr), (t, i) ∈ k.rows → s.stopped = false → k.dstConn < 65536 →
    let c := k.dstConn
    let x := s.conn c
    let p := s.connPstate c
    let dropped := ∃ u : State, exec i s = .next u.tidy ∧ u.trn = s.trn ∧ u.regs = s.regs ∧ MemKept s u
    let protocol := fun (order : Nat) => ∃ u : State, exec i s = .next u.tidy ∧ u.trn = s.trn ∧ u.mem = s.mem ∧
      (s.flag F.CELL_ERR_STATUS_VALID trnCell = false → u.fld F.CELL_ERR_STATUS_CLASS trnCell = 0x06 ∧
        u.fld F.CELL_ERR_INFO_INFO trnCell = c + order * 2 ^ 16 + k.type * 2 ^ 24)
    let defined_ := k.version = 1
    let here := defined_ ∧ k.dstNode = s.fld F.TRN_NODE_ADDR_ADDR trnCell
    let ours := k.srcNode = x.field 1 15 0 ∧ k.srcConn = x.field 1 31 16 ∧ k.v6 = x.v6 ∧ k.dst = x.ip 4 ∧ k.src = x.ip 8
    let known := here ∧ p ≠ psIdle ∧ ours
    let up := p = psConnected ∨ p = psDraining
    let q := x.path k.path
    let d := diff32 k.psn q.base
    let old := d < 0 ∨ k.psn ∈ q.marks
    let far := ¬ old ∧ d > if x.lossy then 63 else 0
    let soon := ∃ w ∈ q.nakAt, w.1 = q.base ∧ s.now < w.2 + 8000
    let shaped := p = psIdle ∨ k.tagged = (x.field 0 12 12 == 1)
    (k.type ≠ t ∨ s.classifying = false ∨ ¬ shaped → exec i s = .next s.tidy) ∧
    (k.type = t → s.classifying = true → shaped →
      (¬ defined_ → protocol 1) ∧
      (defined_ → ¬ here → dropped) ∧
      (here → p = psIdle → t ≠ 0xA ∨ s.connEn c = true → dropped) ∧
      (here → p = psIdle → t = 0xA → s.connEn c = false →
        let cl := s.fld F.TRN_SLOW_CLUSTER trnCell
        let pr := s.fld F.TRN_SLOW_PROGRAM trnCell
        (s.flag F.TRN_SLOW_EN trnCell = false → dropped) ∧
        (s.flag F.TRN_SLOW_EN trnCell = true → s.enabled (clusterCell cl) = true → s.flag F.GCL_PROGp_VALID (clusterCell cl) pr = true →
          s.fld F.GCL_PROGp_STEER (clusterCell cl) pr ≠ 3 → (s.clusterQueue cl).length < 1024 →
          ∃ u : State, exec i s = .next u.tidy ∧ u.trn = s.trn ∧ u.regs = s.regs ∧ u.clusterQueue cl = s.clusterQueue cl ++
            [mkItem 3 pr c s.now [BitVec.ofNat 32 (1 + c * 2 ^ 16), BitVec.ofNat 32 (k.srcNode % 65536 + k.srcConn % 65536 * 2 ^ 16),
              BitVec.ofNat 32 (s.connGen c), 0, 0, 0]])) ∧
      (here → p ≠ psIdle → ¬ ours → protocol 4) ∧
      (known → t ≤ 9 → ¬ up → p = psFailed ∨ (∃ w ∈ x.lastDisc, s.now < w + 100000) → dropped) ∧
      (known → t ≤ 9 → ¬ up → p ≠ psFailed → (∀ w ∈ x.lastDisc, w + 100000 ≤ s.now) →
        ∃ v : State, exec i s = .next (v.trnSend c 0 { type := 0xC }).tidy ∧ (v.conn c).lastDisc = some s.now ∧ v.regs = s.regs) ∧
      (known → t ≤ 9 → up → k.dstGen ≠ s.connGen c → dropped) ∧
      (known → (t ≤ 9 → up ∧ k.dstGen = s.connGen c) → x.pathCount ≤ k.path → protocol 6) ∧
      (s.PktOpen k → t ≤ 6 →
        (old → ∃ v : State, exec i s = .next (v.sendAck c k.path).tidy ∧ v.trn = s.trn ∧ v.regs = s.regs ∧ v.mem = s.mem) ∧
        (far → x.lossy = true ∨ soon → dropped) ∧
        (far → x.lossy = false → ¬ soon → ∃ v : State, exec i s = .next (v.sendNak c k.path 1 q.base 0).tidy ∧
          ((v.conn c).path k.path).nakAt = some (q.base, s.now) ∧ ((v.conn c).path k.path).base = q.base ∧ v.regs = s.regs ∧ v.mem = s.mem) ∧
        (¬ old → ¬ far → (x.pool (t == 6)).reserved < trnCost t k.payload.length → protocol 8)))

open Sys2Proof Sys2Proof.Machine in
/-- R367, R377, R378, R385, R386, R387, R393, R604: accepted packets. Each counts its PSN and its cells once, so a later copy is a duplicate. A WRITE that
passes the region's checks is placed at its address plus index × PMTU and no further than the message's end; one refused moves no byte.
A one-packet NOTIFY message is reported to RCQ. A READ_REQ queues the bytes read as its responses. A READ_RESP of a send queue's READ is
placed where LKEY allows, else the operation ends LOCAL_ACCESS. An ATOMIC writes its new value once and answers the old; on a poisoned
line, or a CAS that does not match, it writes nothing. ATOMIC_RESP ends its operation. A COLLECTIVE that COLL_KEY admits is handed to the
Collector as the run it carries. An uncorrectable word of the buffer a packet waited in marks its data and is recorded. -/
def Obligations.AcceptedPacketsTakeEffectOnce : Prop :=
  ∀ (s : State) (k : TrnPkt) (o : TrnOp) (a : Nat), s.PktTaken k → s.stopped = false →
    let c := k.dstConn
    let x := s.conn c
    let len := k.word 3 + 1
    let off := k.idx * x.pmtu
    let check := fun (right : TrnRight) (n : Nat) (nat : Bool) => (s.regionCheck (k.word 0) x.pd right (k.long 1) n nat).1
    let clean := ∀ j, s.lineErrOf (lineOf (s.regionAddr j)) = LineErr.clean
    let mark := k.p || k.err == .bad
    let held := fun (u : State) (m : TrnOut → Prop) =>
      ∃ y, m y ∧ (y ∈ (u.conn c).out ∨ ∃ p, y ∈ ((u.conn c).path p).unacked)
    (∀ t i, (t, i) ∈ k.rows → t ≤ 6 → k.type = t → ∃ u : State, exec i s = .next u.tidy ∧
      (let q := (u.conn c).path k.path
       diff32 k.psn q.base < 0 ∨ k.psn ∈ q.marks) ∧
      ((u.conn c).pool (t == 6)).arrived = ((x.pool (t == 6)).arrived + trnCost t k.payload.length) % 2 ^ 32 ∧
      (let cell := if t = 6 then colCell else trnCell
       k.err = .bad → s.flag F.CELL_ERR_STATUS_VALID cell = false → u.fld F.CELL_ERR_STATUS_CLASS cell = 0x03)) ∧
    (k.type = 1 → ∃ u : State, exec (.transitWrite k) s = .next u.tidy ∧
      (check .w len false = .ok a → clean →
        u.mem = (s.writeMem (a + off) (k.payload.take (len - off)) mark (x.pmtu / 64 + 2)).mem ∧
        (k.notify = true → x.notifies = [] → len ≤ x.pmtu →
          (⟨cqEntry 0 0x10 0 c 0 (k.word 4) 0 k.msn, false, none⟩ : TrnEntry) ∈ smapGet (fun _ => []) u.trn.cqs (x.field 15 11 0)) ∧
        (k.notify = true → x.notifies = [] → x.pmtu < len →
          u.trn.cqs = s.trn.cqs ∧ ∃ n ∈ (u.conn c).notifies, n.msn = k.msn ∧ n.imm = k.word 4 ∧ n.got = [(k.idx, true)])) ∧
      (∀ code, check .w len false = .error code → u.mem = s.mem ∧ u.trn.cqs = s.trn.cqs)) ∧
    (k.type = 2 → ∃ u : State, exec (.transitReadReq k) s = .next u.tidy ∧ u.mem = s.mem ∧
      (check .r len false = .ok a → clean → (∀ z, a ≤ z → z < a + len → s.lineErrOf (lineOf z) = LineErr.clean) →
        let part := fun (j : Nat) => (s.load (a + j * x.pmtu) (min x.pmtu (len - j * x.pmtu)) true).1
        (∀ j, j * x.pmtu < len → ∃ b, part j = .ok b false) →
        ∀ j, j * x.pmtu < len → held u fun y => y.type = 3 ∧ y.msn = k.msn ∧ y.idx = j ∧ part j = .ok y.payload y.p)) ∧
    (k.type = 3 → s.findOp c 2 k.msn = some o → ∀ q t opc vf, o.origin = .sq q t opc vf → s.vfPast vf = false →
      let there := (s.regionCheck o.lkey o.pd .w o.localAddr o.len false).1
      ∃ u : State, exec (.transitReadResp k) s = .next u.tidy ∧
        (there = .ok a → clean → u.mem = (s.writeMem (a + off) (k.payload.take (o.len - off)) mark ((k.payload.take (o.len - off)).length / 64 + 2)).mem) ∧
        (∀ code, there = .error code → u.mem = s.mem) ∧
        (o.total = 1 → o.nak = none → o.localFail = false →
          (there = .ok a → s.Ended u c o.origin k.msn 0 0) ∧ (∀ code, there = .error code → s.Ended u c o.origin k.msn 2 0))) ∧
    (k.type = 4 →
      let n := if k.word 3 / 16 % 2 = 1 then 4 else 8
      let operand := k.long 4 % 2 ^ (8 * n)
      ∃ u : State, exec (.transitAtomic k) s = .next u.tidy ∧
        (∀ code, check .a n true = .error code → u.mem = s.mem) ∧
        (∀ bs e, check .a n true = .ok a → clean → (s.load a n true).1 = .ok bs e →
          (held u fun y => y.type = 5 ∧ y.msn = k.msn ∧ y.p = e ∧ y.ext = [BitVec.ofNat 32 (leNat bs / 2 ^ 32), BitVec.ofNat 32 (leNat bs)]) ∧
          (e = true → u.mem = s.mem) ∧
          (e = false → k.word 3 % 16 = 0 → u.mem = (s.writeMem a (natLe n operand) false 2).mem) ∧
          (e = false → k.word 3 % 16 = 1 → u.mem =
            if leNat bs = k.long 6 % 2 ^ (8 * n) then (s.writeMem a (natLe n operand) false 2).mem else s.mem) ∧
          (e = false → k.word 3 % 16 = 2 → u.mem = (s.writeMem a (natLe n ((leNat bs + operand) % 2 ^ (8 * n))) false 2).mem))) ∧
    (k.type = 5 → s.findOp c 4 k.msn = some o → o.nak = none → o.total = 1 → o.localFail = false →
      ∃ u : State, exec (.transitAtomicResp k) s = .next u.tidy ∧ s.Ended u c o.origin k.msn (if mark then 0xA else 0) (k.long 0) ∧
        (∀ y ∈ (u.conn c).ops, ¬ (y.type = 4 ∧ y.msn = k.msn))) ∧
    (k.type = 6 →
      let h := fun j => beAt k.payload (4 * j) 4
      let fmt := bitsOf (h 0) 27 24
      let w := ((Fmt.ofCode fmt).getD .fp32).width / 8
      let n := min (h 1 % 65536) ((k.payload.length - 16) / w)
      let run : ColRun := ⟨some c, bitsOf (h 0) 31 28 == 2, fmt, h 0 % 4096, bitsOf (h 1) 31 16, h 2, h 3,
        elemsOf w mark ((k.payload.drop 16).take (n * w)) n, s.now, 0⟩
      let there := (s.regionCheck (x.field 16 31 0) x.pd .red 0 0 false).1
      ∃ u : State, exec (.transitCollective k) s = .next u.tidy ∧
        (∀ code, there = .error code → u.mem = s.mem ∧ ∀ m, u.colSlot m = s.colSlot m) ∧
        (there = .ok 0 → ∃ v : State, (∀ m, v.colSlot m = s.colSlot m ∧ v.colState m = s.colState m) ∧ v.mem = s.mem ∧
          ∀ m, u.colSlot m = ((v.colTransitRun run).colSettle).colSlot m))

open Sys2Proof Sys2Proof.Machine in
/-- R379, R380, R382, R383, R384, R385, R393: acknowledgement and the timers. An ACK takes out of the window what it covers, by its PSN and under
LOSSY by SACK, moves the peer's grants on, and ends a WRITE whose last packet it covers. A NAK SEQ under LOSSLESS, and the path's
timer, retransmit from a PSN on with one retry counted; the packet's own timer retransmits it under LOSSY; past RETRY_LIMIT the
connection fails with RETRY_EXCEEDED. A NAK with a refusal ends its operation with that status. The ACK timers send an ACK for what
has not been told, and an idle pool returns its unused grant. -/
def Obligations.AcknowledgementAndTimers : Prop :=
  ∀ (s : State) (k : TrnPkt) (c : Fin 65536) (p : Fin 16) (psn : Nat) (coll : Bool) (o : TrnOp) (y : TrnOut), s.stopped = false →
    let n := c.val
    let x := s.conn n
    let ps := s.connPstate n
    let limit := s.fld F.TRN_TIMER_RETRY_LIMIT trnCell
    let later := fun (a b : Nat) => if diff32 a b < 0 then b else a
    let win := fun (u : State) (q : Nat) => ((u.conn n).path q).unacked
    let fails := fun (i : Instr) => ∃ u : State, exec i s = .next u.tidy ∧ (ps = psConnected → s.ConnLostTo u n 1 8) ∧
      (ps = psDraining → s.connEn n = false → u.connPstate n = psIdle ∧ u.connGen n = (s.connGen n + 1) % 65536)
    let again := fun (i : Instr) (q : Nat) (sel : TrnOut → Bool) => ∃ u : State, exec i s = .next u.tidy ∧
      win u q = (win s q).map (fun z => if sel z then { z with tries := z.tries + 1 } else z) ∧ u.connPstate n = ps ∧ u.mem = s.mem
    let live := ps = psConnected ∨ ps = psDraining
    (s.PktOpen k → k.dstConn = n → k.type = 8 →
      let base := k.word 0
      let covered := fun (z : TrnOut) =>
        let d := diff32 z.psn base
        d < 0 ∨ (x.lossy = true ∧ 1 ≤ d ∧ d ≤ 63 ∧ (k.long 1).testBit (d.toNat - 1) = true)
      ∃ u : State, exec (.transitAck k) s = .next u.tidy ∧ u.mem = s.mem ∧
        (∃ old new, win u k.path = old ++ new ∧ old.Sublist (win s k.path) ∧ ∀ z, z ∈ old ↔ z ∈ win s k.path ∧ ¬ covered z) ∧
        (∀ z rest, win s k.path = z :: rest → ((u.conn n).path k.path).retries =
          if diff32 z.psn base < 0 then 0 else (x.path k.path).retries) ∧
        (u.conn n).data.limit = later (k.word 3) x.data.limit ∧ (u.conn n).coll.limit = later (k.word 4) x.coll.limit ∧
        (u.conn n).data.rxRet = later (k.word 5) x.data.rxRet ∧ (u.conn n).coll.rxRet = later (k.word 6) x.coll.rxRet ∧
        (y ∈ win s k.path → covered y → y.type = 1 → s.findOp n 1 y.msn = some o → o.total = 1 → o.nak = none → o.localFail = false →
          s.Ended u n o.origin y.msn 0 0)) ∧
    (s.PktOpen k → k.dstConn = n → k.type = 9 →
      let code := k.word 0 % 256
      (code = 1 → x.lossy = false → (x.path k.path).retries < limit →
        again (.transitNak k) k.path (fun z => decide (0 ≤ diff32 z.psn (k.word 1)))) ∧
      (code = 1 → x.lossy = false → limit ≤ (x.path k.path).retries → fails (.transitNak k)) ∧
      (code = 1 → x.lossy = true → ∃ u : State, exec (.transitNak k) s = .next u.tidy ∧ u.trn = s.trn) ∧
      (3 ≤ code → code ≤ 7 → x.ops = [o] → o.msn = k.word 2 → o.sent = [(k.path, k.word 1, 0)] → o.total ≤ 1 → o.nak = none → o.type ∈ [1, 2, 4] →
        ∃ u : State, exec (.transitNak k) s = .next u.tidy ∧ s.Ended u n o.origin o.msn code 0 ∧ (u.conn n).ops = [])) ∧
    (x.lossy = true → live → (x.path p.val).unacked.find? (fun z => z.psn == psn) = some y →
      (y.tries < limit → again (.lossyRetransmitTimer c p psn) p.val (fun z => z.psn == psn)) ∧
      (limit ≤ y.tries → fails (.lossyRetransmitTimer c p psn))) ∧
    (x.lossy = false → live → ∀ z rest, win s p.val = z :: rest →
      ((x.path p.val).retries < limit → again (.pathTimer c p) p.val (fun v => decide (0 ≤ diff32 v.psn z.psn))) ∧
      (limit ≤ (x.path p.val).retries → fails (.pathTimer c p))) ∧
    ((∀ z ∈ (x.path p.val).unacked, z.psn ≠ psn) → exec (.lossyRetransmitTimer c p psn) s = .next s.tidy) ∧
    (win s p.val = [] → exec (.pathTimer c p) s = .next s.tidy) ∧
    (live → 0 < (x.path p.val).sinceAck → ∃ u : State, exec (.ackTimer c p) s = .next u.tidy ∧ ((u.conn n).path p.val).sinceAck = 0 ∧
      (u.conn n).data.changed = false ∧ (u.conn n).coll.changed = false ∧ win u p.val = win s p.val ∧ u.mem = s.mem) ∧
    ((x.path p.val).sinceAck = 0 → exec (.ackTimer c p) s = .next s.tidy) ∧
    (live → (∀ z ∈ x.out, (z.type == 6) ≠ coll) →
      ∃ u : State, exec (.creditReturnTimer c coll) s = .next u.tidy ∧
        let l := x.pool coll
        ((u.conn n).pool coll).ret = (l.ret + (diff32 l.limit l.consumed).toNat) % 2 ^ 32 ∧ ((u.conn n).pool coll).consumed = l.limit ∧
        ((u.conn n).pool coll).limit = l.limit ∧ ((u.conn n).pool (!coll)).ret = (x.pool (!coll)).ret) ∧
    (live → x.data.changed = true ∨ x.coll.changed = true →
      ∃ u : State, exec (.creditAckTimer c) s = .next u.tidy ∧ (u.conn n).data.changed = false ∧ (u.conn n).coll.changed = false ∧
        (u.conn n).data.rxLimit = x.data.rxLimit ∧ (u.conn n).ops = x.ops) ∧
    (x.data.changed = false → x.coll.changed = false → exec (.creditAckTimer c) s = .next s.tidy)

namespace Sys2Proof.Machine

/-- R386: word 0 of a region entry in device memory. -/
def State.region0 (s : State) (i : Nat) : Nat := leNat (s.bytes (s.regionAddr i) 4)

/-- R386: a region entry can be read and written now, and its line holds no error. -/
structure State.RegionOpen (s : State) (i : Nat) : Prop where
  mapped : extentMapped (s.regionAddr i) 32 = true
  free : s.ringTouched (s.regionAddr i) 32 = none
  up : s.memUp (s.regionAddr i) 32 = true
  clean : s.lineErrOf (lineOf (s.regionAddr i)) = LineErr.clean
  whole : s.epoch.retained = false ∧ s.epoch.broken = []
  noFlip : s.flipFor (lineOf (s.regionAddr i)) = none

/-- R309: a work item is taken by cluster c: its program is valid, can be steered, and its queue has room. -/
def State.Posts (s : State) (c p : Nat) : Prop :=
  s.enabled (clusterCell c) = true ∧ s.flag F.GCL_PROGp_VALID (clusterCell c) p = true ∧ s.fld F.GCL_PROGp_STEER (clusterCell c) p ≠ 3 ∧
    (s.clusterQueue c).length < 1024

end Sys2Proof.Machine


open Sys2Proof Sys2Proof.Machine in
/-- R386, R387, R388, R389, R396, R397: Region commands. A command is refused with the code of the first check that fails and changes no
entry. VALIDATE of an INVALID entry that meets the checks makes it VALID and keeps the rest of its word. REVOKE makes a VALID one REVOKING
and pending; from then on an access with its key is refused with KEY. When the revoke completes the entry is INVALID with TAG one more,
modulo 4,096, and REVOKE_DONE is set. The checks of an access, in order: INDEX within the table, the entry VALID with the TAG of the key
and no revoke pending (KEY); its PD; the right asked for; the bounds, and for an ATOMIC the alignment; memory reached through ENABLED
cells outside any ring. The first that fails gives the code. An access that passes them all is at PA + (x − VA); a COLLECTIVE is not
bounded. -/
def Obligations.RegionsAreValidatedRevokedAndChecked : Prop :=
  (∀ (s : State) (g : Agent) (index : BitVec 20) (key pd x n : Nat) (right : TrnRight) (natural : Bool),
    let i := index.toNat
    let may := fun (cmd : Nat) => s.Writable g .TRN_REGION_CMD trnCell 0 (cmd + i * 2 ^ 12)
    let e := wordsOf 8 (s.bytes (s.regionAddr i) 32)
    let w0 := s.region0 i
    let st := w0 % 4
    let count := 2 ^ min 20 (s.fld F.TRN_REGION_TABLE_COUNT_LOG2 trnCell)
    let fits := wlong e 6 % 2 ^ 48 ≠ 0 ∧ extentOneQuad (wlong e 2 % 2 ^ 48) (wlong e 6 % 2 ^ 48) = true ∧ wlong e 4 + wlong e 6 % 2 ^ 48 ≤ 2 ^ 64
    let answers := fun (c : Instr) (code : Nat) (t : State) => exec c s = .next t ∧
      t.fld F.TRN_REGION_RESULT_RESULT trnCell = (if code = 0 then 1 else 2) ∧ t.fld F.TRN_REGION_RESULT_CODE trnCell = code
    let keeps := fun (t : State) => t.mem = s.mem ∧ t.trn = s.trn
    (∀ p ∈ [(1, Instr.regionValidate g index), (2, .regionRevoke g index)], may p.1 → count ≤ i → ∃ t, answers p.2 2 t ∧ keeps t) ∧
    (i < count → s.RegionOpen i →
      (may 1 → st ≠ 0 → ∃ t, answers (.regionValidate g index) 3 t ∧ keeps t) ∧
      (may 1 → st = 0 → ¬ fits → ∃ t, answers (.regionValidate g index) 5 t ∧ keeps t) ∧
      (may 1 → st = 0 → fits → ∃ t, answers (.regionValidate g index) 0 t ∧ t.region0 i = w0 + 1 ∧
        (∀ a, a < s.regionAddr i ∨ s.regionAddr i + 4 ≤ a → t.byte a = s.byte a)) ∧
      (may 2 → st ≠ 1 ∨ i ∈ s.trn.revokes → ∃ t, answers (.regionRevoke g index) 3 t ∧ keeps t) ∧
      (may 2 → st = 1 → i ∉ s.trn.revokes → 256 ≤ s.trn.revokes.length → ∃ t, answers (.regionRevoke g index) 6 t ∧ keeps t) ∧
      (may 2 → st = 1 → i ∉ s.trn.revokes → s.trn.revokes.length < 256 → ∃ t, answers (.regionRevoke g index) 0 t ∧ t.region0 i = w0 + 1 ∧
        t.trn.revokes = s.trn.revokes ++ [i] ∧
        (key / 4096 = i → (t.regionCheck key pd right x n natural).1 = .error 3))) ∧
    (s.stopped = false → i ∈ s.trn.revokes → s.RegionOpen i → w0 < 2 ^ 32 →
      ∃ u : State, exec (.revokeComplete index) s = .next u.tidy ∧ u.region0 i % 4 = 0 ∧
        bitsOf (u.region0 i) 19 8 = (bitsOf w0 19 8 + 1) % 4096 ∧ bitsOf (u.region0 i) 7 2 = bitsOf w0 7 2 ∧
        u.trn.revokes = s.trn.revokes.erase i ∧ u.bitAt 0x40025000 = true ∧
        (∀ a, a < s.regionAddr i ∨ s.regionAddr i + 4 ≤ a → u.byte a = s.byte a)) ∧
    (s.stopped = false → i ∉ s.trn.revokes → exec (.revokeComplete index) s = .next s.tidy)) ∧
  (∀ (s : State) (key pd x n : Nat) (right : TrnRight) (natural : Bool),
    let i := key / 4096
    let e := wordsOf 8 (s.bytes (s.regionAddr i) 32)
    let a := wlong e 2 % 2 ^ 48 + (x - wlong e 4)
    let r := (s.regionCheck key pd right x n natural).1
    let known := i < 2 ^ min 20 (s.fld F.TRN_REGION_TABLE_COUNT_LOG2 trnCell) ∧ wfield e 0 1 0 = 1 ∧ wfield e 0 19 8 = key % 4096 ∧ i ∉ s.trn.revokes
    let right_ := wfield e 0 (match right with | .r => 2 | .w => 3 | .a => 4 | .red => 5) (match right with | .r => 2 | .w => 3 | .a => 4 | .red => 5) = 1
    let inside := wlong e 4 ≤ x ∧ x + n ≤ wlong e 4 + wlong e 6 % 2 ^ 48 ∧ (natural = true → n ∣ x)
    let reached := extentMapped a n = true ∧ s.memUp a n = true ∧ s.ringTouched a n = none ∧ touchesReserve a n = false
    s.RegionOpen i → touchesReserve (s.regionAddr i) 32 = false →
    (¬ known → r = .error 3) ∧
    (known → wfield e 1 11 0 ≠ pd → r = .error 4) ∧
    (known → wfield e 1 11 0 = pd → ¬ right_ → r = .error 5) ∧
    (known → wfield e 1 11 0 = pd → right_ → right = .red → r = .ok 0) ∧
    (known → wfield e 1 11 0 = pd → right_ → right ≠ .red → ¬ inside → r = .error 6) ∧
    (known → wfield e 1 11 0 = pd → right_ → right ≠ .red → inside → ¬ reached → r = .error 7) ∧
    (known → wfield e 1 11 0 = pd → right_ → right ≠ .red → inside → reached → r = .ok a))

open Sys2Proof Sys2Proof.Machine in
/-- R390, R391, R392, R393, R398: queues. A write of TAIL takes the value, or what the doorbell line holds where POLL is 1; a poll takes
the line's value and leaves TAIL on poison, which is recorded. A queue takes its head entry: one of a wrong form or of another
protection domain ends PROTOCOL, one whose connection is not CONNECTED ends CONN_CLOSED, a WRITE whose source LKEY refuses ends
LOCAL_ACCESS; else the operation starts with the connection's next MSN. A completion queue writes the entry that has waited longest
while its ring has room, with PHASE, sets NOTIFY_BIT and moves TAIL; enabled, it starts at HEAD with PHASE 1. -/
def Obligations.TransitQueuesRunAndComplete : Prop :=
  ∀ (s : State) (g : Agent) (q : Fin 4096) (tail : BitVec 16) (bs : List Byte) (e : List Word32) (tag : Bool) (vf : Option VfGen) (rest : List TrnEntry) (a : Nat),
    let n := q.val
    let en := s.flag F.TRN_SQq_CFG_EN trnCell n
    let poll := s.flag F.TRN_SQq_CFG_POLL trnCell n
    let line := 64 * s.fld F.TRN_SQq_DB_LINE trnCell n
    let log2 := s.fld F.TRN_SQq_CFG_SIZE_LOG2 trnCell n
    let head := s.fld F.TRN_SQq_PTR_HEAD trnCell n
    let moved := fun (u : State) => u.fld F.TRN_SQq_PTR_HEAD trnCell n = (head + 1) % 65536
    let ws := wordsOf 16 bs
    let c := wfield ws 1 15 0
    let x := s.conn c
    let opc := wfield ws 0 3 0
    let pd := s.fld F.TRN_SQq_CFG_PD trnCell n
    let len := wfield ws 8 31 0 + 1
    let origin := TrnOrigin.sq n (wfield ws 15 31 0) opc (s.sqVf n)
    let width := if wfield ws 9 4 4 = 1 then 4 else 8
    let good := 1 ≤ opc ∧ opc ≤ 3 ∧ wfield ws 0 7 4 = 1 ∧ wfield ws 0 31 10 = 0 ∧ wfield ws 1 31 16 = 0 ∧ wfield ws 3 31 16 = 0 ∧
      wfield ws 9 31 5 = 0 ∧ (opc = 3 → wfield ws 9 3 0 ≤ 9 ∧ wlong ws 6 % width = 0)
    let ready := s.stopped = false ∧ en = true ∧ 6 ≤ log2 ∧ log2 ≤ 16 ∧ head ≠ s.fld F.TRN_SQq_PTR_TAIL trnCell n ∧ s.enabled trnCell = true ∧
      s.tagFree = true ∧ wfield ws 0 9 9 = 0 ∧ (s.load (4096 * s.fld F.TRN_SQq_CFG_BASE trnCell n + 64 * (head % 2 ^ log2)) 64 true).1 = .ok bs false ∧
      (∀ z, s.lineErrOf z = LineErr.clean)
    let row := if opc = 2 then Instr.sqRead q else if opc = 3 then .sqAtomic q else .sqWrite q
    let started := fun (u : State) (t total : Nat) => moved u ∧ (u.conn c).msn = (x.msn + 1) % 2 ^ 32 ∧ u.mem = s.mem ∧
      ∃ o ∈ (u.conn c).ops, o.origin = origin ∧ o.type = t ∧ o.msn = x.msn ∧ o.total = total ∧ o.got = [] ∧ o.nak = none
    let roomy := (opc = 1 → wfield ws 0 8 8 = 1 → ((s.conn c).ops.filter fun o => o.notify).length < 64)
    (s.Writable g .TRN_SQq_PTR trnCell n (putBits (s.reg .TRN_SQq_PTR trnCell n).toNat 15 0 tail.toNat) → poll = false →
      ∃ t, exec (.trnSqTailWrite g q tail) s = .next t ∧ t.fld F.TRN_SQq_PTR_TAIL trnCell n = tail.toNat ∧
        RegsKept s t [regAddr .TRN_SQq_PTR trnCell n] ∧ MemKept s t) ∧
    (s.stopped = false → poll = true →
      (∀ b, (s.load line 64).1 = .ok b false → ∃ u : State, exec (.doorbellPoll (.sendQueue q)) s = .next u.tidy ∧
        u.fld F.TRN_SQq_PTR_TAIL trnCell n = leNat (b.take 2) % 65536 ∧ u.mem = s.mem ∧ u.trn = s.trn) ∧
      (∀ b, (s.load line 64).1 = .ok b true → ∃ u : State, exec (.doorbellPoll (.sendQueue q)) s = .next u.tidy ∧
        u.fld F.TRN_SQq_PTR_TAIL trnCell n = s.fld F.TRN_SQq_PTR_TAIL trnCell n ∧ u.mem = s.mem ∧
        (s.flag F.CELL_ERR_STATUS_VALID trnCell = false → (s.load line 64).2.flag F.CELL_ERR_STATUS_VALID trnCell = false →
          u.fld F.CELL_ERR_STATUS_CLASS trnCell = 0x05))) ∧
    (s.stopped = false → poll = false → exec (.doorbellPoll (.sendQueue q)) s = .next s.tidy) ∧
    (ready → roomy → ¬ good ∨ (s.connPstate c ≠ psIdle ∧ x.pd ≠ pd) →
      ∃ u : State, exec row s = .next u.tidy ∧ moved u ∧ s.Ended u c origin 0 1 0 ∧ u.mem = s.mem) ∧
    (ready → roomy → good → s.connPstate c = psIdle ∨ (s.connPstate c ≠ psConnected ∧ x.pd = pd) →
      ∃ u : State, exec row s = .next u.tidy ∧ moved u ∧ s.Ended u c origin 0 9 0 ∧ u.mem = s.mem) ∧
    (ready → roomy → good → s.connPstate c = psConnected → x.pd = pd →
      let lkey := wfield ws 4 31 0
      let loc := wlong ws 2 % 2 ^ 48
      (opc = 1 → ∀ code, (s.regionCheck lkey pd .r loc len false).1 = .error code →
        ∃ u : State, exec (.sqWrite q) s = .next u.tidy ∧ moved u ∧ s.Ended u c origin 0 2 0 ∧ u.mem = s.mem) ∧
      (opc = 1 → (s.regionCheck lkey pd .r loc len false).1 = .ok a →
        (∀ j, j * x.pmtu < len → ∃ b, (s.load (a + j * x.pmtu) (min x.pmtu (len - j * x.pmtu)) true).1 = .ok b false) →
        ∃ u : State, exec (.sqWrite q) s = .next u.tidy ∧ started u 1 ((len + x.pmtu - 1) / x.pmtu)) ∧
      (opc = 2 → ∃ u : State, exec (.sqRead q) s = .next u.tidy ∧ started u 2 ((len + x.pmtu - 1) / x.pmtu)) ∧
      (opc = 3 → ∃ u : State, exec (.sqAtomic q) s = .next u.tidy ∧ started u 4 1)) ∧
    (s.stopped = false → en = false → ∀ i ∈ [Instr.sqWrite q, .sqRead q, .sqAtomic q], ∃ u : State, exec i s = .next u.tidy ∧ u.trn = s.trn ∧ u.regs = s.regs) ∧
    (let clog := s.fld F.TRN_CQq_CFG_SIZE_LOG2 trnCell n
     let ctail := s.fld F.TRN_CQq_PTR_TAIL trnCell n
     let chead := s.fld F.TRN_CQq_PTR_HEAD trnCell n
     let ca := 4096 * s.fld F.TRN_CQq_CFG_BASE trnCell n + 32 * (ctail % 2 ^ clog)
     let phase := !(smapGet (fun _ => false) s.trn.flip n)
     let waits := smapGet (fun _ => []) s.trn.cqs n
     let room := (ctail + 65536 - chead) % 65536 < 2 ^ clog
     let bit := s.fld F.TRN_CQq_PTR_NOTIFY_BIT trnCell n
     let open_ := s.stopped = false ∧ s.flag F.TRN_CQq_CFG_EN trnCell n = true ∧ 6 ≤ clog ∧ clog ≤ 16
     (open_ → waits = ⟨e, tag, vf⟩ :: rest → e.length = 8 → room → extentMapped ca 32 = true → s.memUp ca 32 = true → s.ringTouched ca 32 = none →
       touchesReserve ca 32 = false → s.epoch.retained = false → s.epoch.broken = [] → s.flipFor (lineOf ca) = none →
       s.lineErrOf (lineOf ca) = LineErr.clean → s.flag F.CAT_XCQ_EN catCell = false →
       ∃ u : State, exec (.cqEntryPost q) s = .next u.tidy ∧ u.fld F.TRN_CQq_PTR_TAIL trnCell n = (ctail + 1) % 65536 ∧
         smapGet (fun _ => []) u.trn.cqs n = rest ∧
         (∀ j < 32, u.byte (ca + j) = (bytesOf (e.set 1 (BitVec.ofNat 32 ((e.getD 1 0).toNat + phase.toNat * 2 ^ 12)))).getD j 0) ∧
         (∀ z, z < ca ∨ ca + 32 ≤ z → u.byte z = s.byte z) ∧
         (0x20000000 ≤ bit → bit ≤ 0x20FFFFFF → u.bitAt bit = true) ∧
         smapGet (fun _ => false) u.trn.flip n = (if (ctail + 1) % 2 ^ clog = 0 then phase else !phase)) ∧
     (s.stopped = false → waits = [] ∨ ¬ open_ ∨ ¬ room → exec (.cqEntryPost q) s = .next s.tidy) ∧
     (s.Writable g .TRN_CQq_CFG trnCell n (putBits (s.reg .TRN_CQq_CFG trnCell n).toNat 0 0 1) → s.flag F.TRN_CQq_CFG_EN trnCell n = false →
       ∃ t, exec (.trnCqEnable g q) s = .next t ∧ t.flag F.TRN_CQq_CFG_EN trnCell n = true ∧ t.fld F.TRN_CQq_PTR_TAIL trnCell n = chead ∧
         smapGet (fun _ => false) t.trn.flip n = false ∧ MemKept s t))

open Sys2Proof Sys2Proof.Machine in
/-- R366, R367: a Transit packet read back from the bytes it is sent as is the packet, whatever its fields within their widths, for every type, but
for the frame's tag and the buffer's error, which the bytes do not hold: no bit of the header or of the extension is dropped. -/
def Obligations.TransitHeadersReadBack : Prop :=
  ∀ (k : TrnPkt) (n : Nat), trnExtWords k.type = some n → k.ext.length = n → k.version < 16 → k.type < 16 → k.path < 16 → k.dstConn < 65536 →
    k.srcNode < 65536 → k.dstNode < 65536 → k.srcConn < 65536 → k.dstGen < 65536 → k.psn < 2 ^ 32 → k.msn < 2 ^ 32 → k.idx < 2 ^ 22 →
    TrnPkt.ofBytes k.v6 k.src k.dst k.bytes = { k with tagged := false, err := .clean }

namespace Sys2Proof.Machine

/-! ## Words of the statements about frames -/

/-- Memory takes plain writes: no line holds an error, no flip is armed for any, and no epoch is retained. -/
structure State.PlainMemory (s : State) : Prop where
  clean : ∀ z, s.lineErrOf z = LineErr.clean
  noFlip : ∀ z, s.flipFor z = none
  whole : s.epoch.retained = false ∧ s.epoch.broken = []

/-- The part reaches the n bytes at a: mapped, in ENABLED cells, outside any ring in force and the Dome reserve. -/
structure State.AtHand (s : State) (a n : Nat) : Prop where
  mapped : extentMapped a n = true
  up : s.memUp a n = true
  free : s.ringTouched a n = none ∧ touchesReserve a n = false

/-- R417: a rule matches a key. -/
def SpgRule.Matches (r : SpgRule) (key : List Nat) : Prop :=
  wfield r.action 0 0 0 = 1 ∧ ∀ i < 16, (key.getD i 0 ^^^ (r.value.getD i 0).toNat) &&& (r.mask.getD i 0).toNat = 0

/-- R408, R417, R420: what decides a parsed frame of port p, in the order of R408: the lowest-numbered matching sanctum rule of the port,
else the lowest-numbered matching rule of the port's active bank, else the port's default action; with the action. -/
def State.Decides (s : State) (p : Nat) (f : IngressFrame) (x : Parse) (action : List Word32) (rule : Nat) (sanctum dflt : Bool) : Prop :=
  let w15 := s.patternOf p f.bytes x
  let t := s.spg.sanctum
  let b := s.spgBank (2 * p + s.fld F.SPG_PORTp_CTRL_ACTIVE spgCell p)
  let inT := fun (r : SpgRule) => bitsOf r.ports p p = 1 ∧ r.Matches (frameKey t.profiles f.bytes x f.half f.prio w15)
  let inB := fun (r : SpgRule) => r.Matches (frameKey b.profiles f.bytes x f.half f.prio w15)
  let first := fun (l : List SpgRule) (m : SpgRule → Prop) (n : Nat) (r : SpgRule) =>
    l[n]? = some r ∧ m r ∧ ∀ k < n, ∀ q, l[k]? = some q → ¬ m q
  (∃ r, sanctum = true ∧ dflt = false ∧ first t.rules inT rule r ∧ action = r.action) ∨
  (∃ r, sanctum = false ∧ dflt = false ∧ (∀ q ∈ t.rules, ¬ inT q) ∧ first b.rules inB rule r ∧ action = r.action) ∨
  (sanctum = false ∧ dflt = true ∧ rule = 0xFFFF ∧ (∀ q ∈ t.rules, ¬ inT q) ∧ (∀ q ∈ b.rules, ¬ inB q) ∧ action = b.dflt)

end Sys2Proof.Machine

open Sys2Proof Sys2Proof.Machine in
/-- R400, R402, R404, R405, R406, R407: the Ethernet ports. A half gains or loses link with LINK_EVENT. A frame with a wrong FCS, a wrong length,
or at a port that is not ENABLED or has no link, is discarded. A frame is admitted, with its priority, behind those that wait: with PFC while
its priority stays within XOFF + HEADROOM, sending a pause when XOFF is reached; without while the whole buffer keeps the headrooms. The pause
is repeated while occupancy is at or above XON and ended with pause time 0 below it, while PFC_EN holds the priority. PAUSED follows the PFC frames received. (The form of a
PFC frame is PRESUMED, log 35.) -/
def Obligations.EthernetPortsAdmitAndPause : Prop :=
  ∀ (s : State) (p : Fin 8) (half : Fin 2) (prio : Fin 8) (quanta : BitVec 16) (bs : List Byte) (fcs : RxCheck), s.stopped = false →
    let e := p.val
    let c := ethCell e
    let link := if half.val = 0 then F.ETH_STATUS_LINK0 else F.ETH_STATUS_LINK1
    let x := s.ethPort e
    let two := s.flag F.ETH_STATUS_BREAKOUT_IN_FORCE c
    let h := if two then half.val else 0
    let pause := fun (f : SentFrame) (v : Nat) => f.port = e ∧ f.half = half.val ∧ beAt f.bytes 12 2 = 0x8808 ∧ beAt f.bytes 16 2 = 2 ^ prio.val ∧
      beAt f.bytes (18 + 2 * prio.val) 2 = v
    let me := fun (n : Nat) => (half.val, n)
    let follows := fun (u : State) => ∀ n < 8, bitsOf (u.fld F.ETH_PFC_PAUSED c) n n = 1 ↔ ∃ k, (k, n) ∈ (u.ethPort e).paused
    (s.flag F.CHR_STATUS_SAFE chrCell = false → s.srcStable .ethRef = true → s.cellState c ≠ 0 → half.val = 0 ∨ two = true → s.flag link c = false →
      ∃ u : State, exec (.ethLinkChange p half true) s = .next u.tidy ∧ u.flag link c = true ∧ u.bitAt (0x40022000 + e) = true) ∧
    (half.val = 0 ∨ two = true → s.flag link c = true →
      ∃ u : State, exec (.ethLinkChange p half false) s = .next u.tidy ∧ u.flag link c = false ∧ u.bitAt (0x40022000 + e) = true) ∧
    (s.flag F.CHR_STATUS_SAFE chrCell = true ∨ s.srcStable .ethRef = false → exec (.ethLinkChange p half true) s = .next s.tidy) ∧
    (s.flag link c = true → ∃ u : State, exec (.pfcReceive p half prio quanta) s = .next u.tidy ∧ follows u ∧
      ∀ k, k ∈ (u.ethPort e).paused ↔ (k = me prio.val ∧ quanta ≠ 0) ∨ (k ≠ me prio.val ∧ k ∈ x.paused)) ∧
    (∃ u : State, exec (.pfcPauseExpiry p half prio) s = .next u.tidy ∧ follows u ∧
      ∀ k, k ∈ (u.ethPort e).paused ↔ k ≠ me prio.val ∧ k ∈ x.paused) ∧
    (let xon := 1024 * s.fld F.ETH_PFC_XON_KIB c
     let occ := s.occupancy e half.val (some prio.val)
     let on := s.pfcOn e prio.val = true
     (me prio.val ∈ x.pausing → on → xon ≤ occ → s.flag link c = true → ∃ (u : State) (f : SentFrame), exec (.pfcRefresh p half prio) s = .next u.tidy ∧
       u.eth.sent = s.eth.sent ++ [f] ∧ pause f 0xFFFF ∧ u.ethPort e = x) ∧
     (me prio.val ∈ x.pausing → ¬ on → occ < xon → ∃ u : State, exec (.pfcXonSend p half prio) s = .next u.tidy ∧
       u.eth.sent = s.eth.sent ∧ me prio.val ∉ (u.ethPort e).pausing ∧ (u.ethPort e).ingress = x.ingress) ∧
     (me prio.val ∈ x.pausing → on → occ < xon → s.flag link c = true → ∃ (u : State) (f : SentFrame), exec (.pfcXonSend p half prio) s = .next u.tidy ∧
       u.eth.sent = s.eth.sent ++ [f] ∧ pause f 0 ∧ me prio.val ∉ (u.ethPort e).pausing ∧ (u.ethPort e).ingress = x.ingress) ∧
     (me prio.val ∉ x.pausing ∨ ¬ on ∨ occ < xon → exec (.pfcRefresh p half prio) s = .next s.tidy) ∧
     (me prio.val ∉ x.pausing ∨ xon ≤ occ → exec (.pfcXonSend p half prio) s = .next s.tidy)) ∧
    (let hlink := s.flag (if h = 0 then F.ETH_STATUS_LINK0 else F.ETH_STATUS_LINK1) c
     let taken := s.cellState c = 3 ∧ hlink = true ∧ fcs.ok = true ∧ 64 ≤ bs.length + 4 ∧
       bs.length + 4 ≤ max 1518 (min 9216 (s.fld F.ETH_CFG_MAX_FRAME c))
     let n := s.ingressPrio e bs
     let occ := s.occupancy e h (some n)
     let xoff := 1024 * s.fld F.ETH_PFC_XOFF_KIB c
     let room := 1024 * s.fld F.ETH_PFC_HEADROOM_KIB c
     let pfc := bitsOf (s.fld F.ETH_PFC_PFC_EN c) n n = 1
     let buffer := if two then 4194304 else 8388608
     let fits := if pfc then occ + (bs.length + 4) ≤ xoff + room else s.occupancy e h none + (bs.length + 4) + s.pfcCount e * room ≤ buffer
     (¬ taken → ∃ u : State, exec (.frameReceive p half bs fcs) s = .next u.tidy ∧ u.eth = s.eth ∧ u.spg = s.spg ∧ u.mem = s.mem ∧ u.trn = s.trn) ∧
     (taken → beAt bs 12 2 ≠ 0x8808 → s.classifying = false →
       (¬ fits → ∃ u : State, exec (.frameReceive p half bs fcs) s = .next u.tidy ∧ u.eth = s.eth ∧ u.spg = s.spg ∧ u.mem = s.mem) ∧
       (fits → ∃ u : State, exec (.frameReceive p half bs fcs) s = .next u.tidy ∧ u.spg = s.spg ∧ u.mem = s.mem ∧
         (u.ethPort e).ingress = x.ingress ++ [⟨bs, h, n, s.now, fcs.err, false⟩] ∧
         (pfc → xoff ≤ occ + (bs.length + 4) → (h, n) ∈ (u.ethPort e).pausing) ∧
         (pfc → xoff ≤ occ + (bs.length + 4) → (h, n) ∉ x.pausing → ∃ f, u.eth.sent = s.eth.sent ++ [f] ∧ f.port = e ∧ f.half = h ∧
           beAt f.bytes 12 2 = 0x8808 ∧ beAt f.bytes 16 2 = 2 ^ n ∧ beAt f.bytes (18 + 2 * n) 2 = 0xFFFF))))

open Sys2Proof Sys2Proof.Machine in
/-- R408, R417, R418, R420, R423, R425, R426, R427, R604: a frame that reaches idle ports while classification runs takes the action of the rule that
decides it; an uncorrectable word of the ingress buffer marks it. DROP delivers it nowhere. FORWARD places it in its subscriber queue where it is admitted. STEER and PROGRAM fill the posted entry of
their receive queue: the buffer, then words 3 to 7, HEAD one on, and for PROGRAM a work item; a queue with no entry posted takes nothing. A
flow keeps its context; a new one takes a free one, on chip while one is free. COUNT adds to the counter's words. (Frames whose action mirrors
are left to the model's definition.) -/
def Obligations.FramesAreClassified : Prop :=
  ∀ (s : State) (p : Fin 8) (half : Fin 2) (bs : List Byte) (action : List Word32) (rule : Nat) (sanctum dflt : Bool) (eb key : List Byte) (err : BufErr),
    s.stopped = false →
    let e := p.val
    let h := if s.flag F.ETH_STATUS_BREAKOUT_IN_FORCE (ethCell e) then half.val else 0
    let n := s.ingressPrio e bs
    let fr : IngressFrame := ⟨bs, h, n, s.now, err, false⟩
    let mark := err == .bad
    let x := parseFrame s.parseCfg bs
    let arrives := s.macDiscard e h bs true = none ∧ beAt bs 12 2 ≠ 0x8808 ∧ s.classifying = true ∧ (∀ j < 8, (s.ethPort j).ingress = []) ∧
      s.pfcOn e n = false ∧ bs.length + 4 + s.pfcCount e * (1024 * s.fld F.ETH_PFC_HEADROOM_KIB (ethCell e)) ≤ s.bufferBytes e
    let decided := x.fail = false ∧ s.transitFrame bs = none ∧ s.Decides e fr x action rule sanctum dflt ∧
      wfield action 0 3 3 = 0 ∧ wfield action 0 5 5 = 0
    let runs := fun (u : State) => exec (.frameReceive p half bs (.good err)) s = .next u.tidy ∧ (u.ethPort e).ingress = []
    let plain := wfield action 0 4 4 = 0
    (arrives → decided → plain → wfield action 0 2 1 = 0 → ∃ u : State, runs u ∧ u.mem = s.mem ∧ (err = .clean → u.regs = s.regs) ∧ u.clusters = s.clusters ∧
      u.trn = s.trn ∧ ∀ q, u.subqFrames q = s.subqFrames q) ∧
    (arrives → decided → plain → wfield action 0 2 1 = 1 →
      let q := wfield action 1 15 0
      (s.enabled shtCell = true → s.admitCheck q ⟨bs, 15, mark⟩ true = .admitted →
        ∃ u : State, runs u ∧ u.subqFrames q = s.subqFrames q ++ [⟨bs, 15, mark⟩] ∧ u.mem = s.mem) ∧
      (s.enabled shtCell = false → ∃ u : State, runs u ∧ (∀ m, u.subqFrames m = s.subqFrames m) ∧ u.mem = s.mem)) ∧
    (arrives → decided → plain → wfield action 0 2 1 = 2 ∨ wfield action 0 2 1 = 3 →
      let q := wfield action 1 27 16
      let log2 := s.fld F.SPG_RXQq_CFG_SIZE_LOG2 spgCell q
      let head := s.fld F.SPG_RXQq_PTR_HEAD spgCell q
      let a := 4096 * s.fld F.SPG_RXQq_CFG_BASE spgCell q + 32 * (head % 2 ^ log2)
      let ready := s.flag F.SPG_RXQq_CFG_EN spgCell q = true ∧ 6 ≤ log2 ∧ log2 ≤ 16 ∧ head ≠ s.fld F.SPG_RXQq_PTR_TAIL spgCell q
      let buf := wlong (wordsOf 3 eb) 0 % 2 ^ 48
      let room := wfield (wordsOf 3 eb) 2 15 0
      let out := bs.take room
      let phase := !(smapGet (fun _ => false) s.spg.flip q)
      let cl := wfield action 0 19 16
      let pr := wfield action 0 15 8
      let posted := wfield action 0 2 1 = 3 ∧ s.Posts cl pr
      let flags := fun (t : Nat) => bs.length + (decide (room < bs.length)).toNat * 2 ^ 16 + t * 2 ^ 17 + dflt.toNat * 2 ^ 21 + sanctum.toNat * 2 ^ 22 +
        e * 2 ^ 23 + h * 2 ^ 26 + phase.toNat * 2 ^ 31
      (¬ ready → ∃ u : State, runs u ∧ u.mem = s.mem ∧ u.clusters = s.clusters ∧ u.fld F.SPG_RXQq_PTR_HEAD spgCell q = head) ∧
      (ready → s.PlainMemory → s.AtHand a 32 → (s.load a 12).1 = .ok eb false → s.AtHand buf out.length → buf + out.length ≤ a ∨ a + 32 ≤ buf →
        bs.length < 2 ^ 16 → wfield action 0 2 1 = 2 ∨ posted →
        ∃ u : State, runs u ∧ u.fld F.SPG_RXQq_PTR_HEAD spgCell q = (head + 1) % 65536 ∧
          (∀ i < out.length, u.byte (buf + i) = out.getD i 0) ∧
          (∀ i < 20, u.byte (a + 12 + i) = (bytesOf ([flags (if wfield action 0 2 1 = 3 then 1 else 0), rule, 0xFFFFFFFF, s.now, s.now / 2 ^ 32].map
            (BitVec.ofNat 32))).getD i 0) ∧
          (∀ z, (z < buf ∨ buf + out.length ≤ z) → (z < a + 12 ∨ a + 32 ≤ z) → u.byte z = s.byte z) ∧
          (posted → ∃ w, u.clusterQueue cl = s.clusterQueue cl ++ [w] ∧ wfield w 0 3 0 = 1 ∧ wfield w 0 15 8 = pr ∧ wfield w 4 2 0 = e ∧
            wfield w 4 31 16 = rule % 65536 ∧ wfield w 5 11 0 = q ∧ wfield w 5 31 16 = head ∧ wfield w 8 15 0 = bs.length ∧
            wlong w 6 = buf ∧ (flowKey bs x = none → wfield w 1 31 0 = 0x80000000)))) ∧
    (arrives → decided → wfield action 0 4 4 = 1 → wfield action 0 2 1 = 0 → s.PlainMemory →
      let log2 := min 20 (s.fld F.SPG_COUNT_BASE_COUNT_LOG2 spgCell)
      let k := wfield action 4 19 0
      let a := 64 * s.fld F.SPG_COUNT_BASE_BASE spgCell + 16 * k
      (log2 ≠ 0 → k < 2 ^ log2 → s.AtHand a 16 → ∃ u : State, runs u ∧ leNat (u.bytes a 8) = (leNat (s.bytes a 8) + 1) % 2 ^ 64 ∧
        leNat (u.bytes (a + 8) 8) = (leNat (s.bytes (a + 8) 8) + bs.length) % 2 ^ 64 ∧ ∀ z, z < a ∨ a + 16 ≤ z → u.byte z = s.byte z) ∧
      (log2 = 0 ∨ 2 ^ log2 ≤ k → ∃ u : State, runs u ∧ u.mem = s.mem)) ∧
    (let r := s.flowOf key
     (∀ k f, s.spg.flows.find? (fun p => p.2.any fun f => f.key == key) = some (k, some f) → r.1 = some k ∧ r.2 = s) ∧
     ((∀ k f, (k, some f) ∈ s.spg.flows → f.key ≠ key) → smapWf (fun _ => none) s.spg.flows = true →
       (s.onchipUsed < 131072 → ∃ k < 131072, r.1 = some k ∧ s.flowAt k = none ∧ r.2.flowAt k = some ⟨key, 16384⟩ ∧
         ∀ m, m ≠ k → r.2.flowAt m = s.flowAt m) ∧
       (131072 ≤ s.onchipUsed → s.spillUsed < s.spillFlows →
         ∃ k, 131072 ≤ k ∧ k < 131072 + s.spillFlows ∧ r.1 = some k ∧ s.flowAt k = none ∧ r.2.flowAt k = some ⟨key, 16384⟩) ∧
       (131072 ≤ s.onchipUsed → s.spillFlows ≤ s.spillUsed → r.1 = none ∧ r.2 = s)))

open Sys2Proof Sys2Proof.Machine in
/-- R416, R419, R420, R421, R423, R424, R426, R432, R433: the Spectrograph's commands. While RESULT reads BUSY a write of `SPG_CMD` is ignored and
recorded, as is LOAD_SANCTUM by a host. Else RESULT reads BUSY: a load that passes the checks fills the inactive bank, the inactive pattern
bank, or the sanctum table while classification stands; a swap makes the inactive bank active; a refused command changes no table and is
recorded. When the command ends RESULT is done, or refused with its code, CMD_DONE is set and classification resumes. Enabling a
receive queue starts it at 0; its TAIL takes the value written. A flow's context is freed, or its meter filled to no more than 16 KiB. -/
def Obligations.SpectrographCommands : Prop :=
  ∀ (s : State) (g : Agent) (p : Fin 8) (n : BitVec 15) (bs : List Byte) (q : Fin 4096) (tail : BitVec 16) (k m : Nat),
    let e := p.val
    let arg := s.fld F.SPG_CMD_ARG_ARG spgCell
    let act := s.fld F.SPG_PORTp_CTRL_ACTIVE spgCell e
    let pat := s.fld F.SPG_STATUS_PATTERN_BANK spgCell
    let may := fun (v : Nat) => s.Writable g .SPG_CMD spgCell 0 v
    let busy := s.fld F.SPG_CMD_RESULT_RESULT spgCell = 3
    let image := fun (len : Nat) => arg % 64 = 0 ∧ extentOneQuad arg len = true ∧ s.extentFree (!g.isHost) arg len = true
    let taken := fun (i : Instr) (t : State) => exec i s = .next t ∧ t.fld F.SPG_CMD_RESULT_RESULT spgCell = 3 ∧ t.fld F.SPG_CMD_RESULT_CODE spgCell = 0
    let refused := fun (i : Instr) (cmd code : Nat) => ∃ t, taken i t ∧ t.spg.cmd = some ⟨cmd, if cmd ≤ 2 then e else 0, code⟩ ∧ t.spg.banks = s.spg.banks ∧
      t.spg.patterns = s.spg.patterns ∧ t.spg.sanctum = s.spg.sanctum ∧ t.mem = s.mem ∧
      (s.flag F.CELL_ERR_STATUS_VALID spgCell = false → t.flag F.CELL_ERR_STATUS_VALID spgCell = true)
    let rows : List (Nat × Nat × Instr) := [(1 + e * 2 ^ 4 + n.toNat * 2 ^ 16, 1, .loadBank g p n), (3 + 0 * 2 ^ 4 + n.toNat * 2 ^ 16, 3, .loadPatterns g n),
      (5 + 0 * 2 ^ 4 + n.toNat * 2 ^ 16, 5, .loadSanctum g n)]
    let most := fun (cmd : Nat) => if cmd = 1 then 16384 else if cmd = 3 then 4096 else 512
    let size := fun (cmd : Nat) => if cmd = 3 then 128 * n.toNat else 256 + 192 * n.toNat
    let good := fun (cmd : Nat) => if cmd = 3 then patternsOk n.toNat bs = true else bankOk (cmd == 5) n.toNat bs = true
    (∀ r ∈ rows ++ [(2 + e * 2 ^ 4 + 0 * 2 ^ 16, 2, .swapBank g p), (4 + 0 * 2 ^ 4 + 0 * 2 ^ 16, 4, .swapPatterns g)],
      may r.1 → busy ∨ (r.2.1 = 5 ∧ g.isHost = true) → ∃ t, exec r.2.2 s = .next t ∧ t.spg = s.spg ∧ t.mem = s.mem ∧
        t.reg .SPG_CMD_RESULT spgCell = s.reg .SPG_CMD_RESULT spgCell ∧
        (s.flag F.CELL_ERR_STATUS_VALID spgCell = false → t.fld F.CELL_ERR_STATUS_CLASS spgCell = 0x01)) ∧
    (¬ busy → ∀ r ∈ rows, may r.1 → (r.2.1 = 5 → g.isHost = false) →
      (most r.2.1 < n.toNat → refused r.2.2 r.2.1 2) ∧
      (n.toNat ≤ most r.2.1 → ¬ image (size r.2.1) → refused r.2.2 r.2.1 3) ∧
      (n.toNat ≤ most r.2.1 → image (size r.2.1) → (∀ b, (s.load arg (size r.2.1)).1 ≠ .ok b false) → refused r.2.2 r.2.1 4) ∧
      (n.toNat ≤ most r.2.1 → image (size r.2.1) → (s.load arg (size r.2.1)).1 = .ok bs false → ¬ good r.2.1 → refused r.2.2 r.2.1 5) ∧
      (n.toNat ≤ most r.2.1 → image (size r.2.1) → (s.load arg (size r.2.1)).1 = .ok bs false → good r.2.1 →
        ∃ t, taken r.2.2 t ∧ t.fld F.SPG_PORTp_CTRL_ACTIVE spgCell e = act ∧ t.fld F.SPG_STATUS_PATTERN_BANK spgCell = pat ∧ t.mem = s.mem ∧
          (r.2.1 = 1 → act < 2 → t.spgBank (2 * e + (1 - act)) = bankOf n.toNat bs ∧ t.spgBank (2 * e + act) = s.spgBank (2 * e + act) ∧
            t.spg.sanctum = s.spg.sanctum) ∧
          (r.2.1 = 3 → pat < 2 → (smapGet (fun _ => []) t.spg.patterns (1 - pat)).length = n.toNat ∧
            smapGet (fun _ => []) t.spg.patterns pat = smapGet (fun _ => []) s.spg.patterns pat ∧ t.spg.banks = s.spg.banks) ∧
          (r.2.1 = 5 → t.spg.sanctum = bankOf n.toNat bs ∧ t.spg.banks = s.spg.banks ∧ t.flag F.SPG_STATUS_INGRESS_PAUSED spgCell = true ∧
            t.fld F.SPG_STATUS_SANCTUM_RULES spgCell = n.toNat))) ∧
    (¬ busy → may (2 + e * 2 ^ 4 + 0 * 2 ^ 16) → act < 2 → ∃ t, taken (.swapBank g p) t ∧ t.fld F.SPG_PORTp_CTRL_ACTIVE spgCell e = 1 - act ∧
      t.spg.banks = s.spg.banks ∧ t.mem = s.mem) ∧
    (¬ busy → may (4 + 0 * 2 ^ 4 + 0 * 2 ^ 16) → pat < 2 → ∃ t, taken (.swapPatterns g) t ∧ t.fld F.SPG_STATUS_PATTERN_BANK spgCell = 1 - pat ∧
      t.spg.patterns = s.spg.patterns ∧ t.mem = s.mem) ∧
    (∀ c, s.stopped = false → s.spg.cmd = some c → (∀ j < 8, (s.ethPort j).ingress = []) → c.code < 256 →
      ∃ u : State, exec .spgCmdComplete s = .next u.tidy ∧ u.spg.cmd = none ∧ u.bitAt 0x40023000 = true ∧
        u.fld F.SPG_CMD_RESULT_RESULT spgCell = (if c.code = 0 then 1 else 2) ∧ u.fld F.SPG_CMD_RESULT_CODE spgCell = c.code ∧
        (c.cmd = 5 → c.code = 0 → u.flag F.SPG_STATUS_INGRESS_PAUSED spgCell = false) ∧ u.mem = s.mem) ∧
    (s.stopped = false → s.spg.cmd = none → exec .spgCmdComplete s = .next s.tidy) ∧
    (s.Writable g .SPG_RXQq_CFG spgCell q.val (putBits (s.reg .SPG_RXQq_CFG spgCell q.val).toNat 0 0 1) → s.flag F.SPG_RXQq_CFG_EN spgCell q.val = false →
      ∃ t, exec (.rxqEnable g q) s = .next t ∧ t.flag F.SPG_RXQq_CFG_EN spgCell q.val = true ∧ t.fld F.SPG_RXQq_PTR_HEAD spgCell q.val = 0 ∧
        t.fld F.SPG_RXQq_PTR_TAIL spgCell q.val = 0 ∧ smapGet (fun _ => false) t.spg.flip q.val = false ∧ MemKept s t) ∧
    (s.Writable g .SPG_RXQq_PTR spgCell q.val (putBits (s.reg .SPG_RXQq_PTR spgCell q.val).toNat 15 0 tail.toNat) →
      ∃ t, exec (.rxqTailWrite g q tail) s = .next t ∧ t.fld F.SPG_RXQq_PTR_TAIL spgCell q.val = tail.toNat ∧
        RegsKept s t [regAddr .SPG_RXQq_PTR spgCell q.val] ∧ MemKept s t) ∧
    (∀ w, s.stopped = false → s.flowAt k = some w →
      (∃ u : State, exec (.flowAgeOut k) s = .next u.tidy ∧ u.flowAt k = none ∧ (∀ j, j ≠ k → u.flowAt j = s.flowAt j)) ∧
      (131072 ≤ k → (∀ j < 8, (s.ethPort j).ingress = []) → ∃ u : State, exec (.flowMeterRefill k m) s = .next u.tidy ∧
        u.flowAt k = some ⟨w.key, min 16384 (w.meter + m)⟩ ∧ ∀ j, j ≠ k → u.flowAt j = s.flowAt j)) ∧
    (s.stopped = false → s.flowAt k = none → exec (.flowAgeOut k) s = .next s.tidy ∧ exec (.flowMeterRefill k m) s = .next s.tidy)

namespace Sys2Proof.Machine

/-- R441 to R443: of two eligible children, a is chosen before b: green before yellow, then the lesser start tag, then the lower number. -/
def State.Ahead (s : State) (a b : Nat) : Prop :=
  (s.nodeGreen a = true ∧ s.nodeGreen b = false) ∨
  (s.nodeGreen a = s.nodeGreen b ∧ (tagLess (s.startTag a) (s.startTag b) = true ∨ (s.startTag a = s.startTag b ∧ a < b)))

/-- R442: key is the child chosen among those of a list. -/
def State.Chosen (s : State) (key : Nat) (l : List Nat) : Prop := key ∈ l ∧ ∀ k ∈ l, k ≠ key → s.Ahead key k

end Sys2Proof.Machine


open Sys2Proof Sys2Proof.Machine in
/-- R436, R438, R439, R441, R442, R443, R444, R445, R446, R448, R449, R450, R451, R604: Shutter's choice. Port p takes the head frame of
the chosen queue of its chosen service: the frame leaves the queue; V of each parent becomes the start tag of its child; each tag advances
by floor(L × 65536 / weight), modulo 2^48; L × 160 leaves the buckets of queue, service and port, a peak bucket without limit none; and an
Ethernet port with link sends the frame. A relay service's FIFO is served the same way; port nodes 8 to 10 move the frame into the relay
FIFO of its egress. A port with no eligible child, or whose cell quiesces, selects nothing. A frame with a mark, or whose code finds an
uncorrectable word as it leaves, goes on marked. At a refill every node of the level takes its registers into force and gains its rates
times k, up to its depths. Frames enter Shutter. A transmit ring takes its head entry: a wrong one is refused with STATUS 2; one for a
disabled queue is discarded with STATUS 1; an admitted one joins its queue with STATUS 0; PHASE stands beside the status and HEAD moves
on. Where the queue lacks room the entry waits, held, and HEAD stays. Held frames are admitted in the order of holding. A ring enabled
starts at 0; its TAIL takes the value written, or what the doorbell line holds. -/
def Obligations.ShutterAdmitsSelectsAndRefills : Prop :=
  (∀ (s : State) (p : Fin 12) (n q : Nat) (f : ShtFrame) (rest : List ShtFrame) (level : Fin 3) (err : BufErr), s.stopped = false →
    let sk := svcKey n
    let pk := portKey p.val
    let e := s.frameEgress q f
    let ovh := fun (k : Nat) => (s.nodeRate k).ovh
    let len := fun (k : Nat) => max 1 (f.bytes.length + 4 + ovh k - 32)
    let weight := max 1 (s.fld F.SHT_SUBQq_CFG_WEIGHT shtCell q)
    let sweight := max 1 (s.fld F.SHT_SVCs_CFG_WEIGHT shtCell n)
    let charged := fun (u : State) (k l : Nat) =>
      u.committed k = (if k < 0x20000 then s.committed k - (l : Int) * 160 else s.committed k) ∧
      u.peak k = (if (s.nodeRate k).pir = 0 then s.peak k else s.peak k - (l : Int) * 160)
    let mark := f.mark || err == .bad
    let sent := fun (u : State) (port : Nat) => ∃ x, u.eth.sent = s.eth.sent ++ [x] ∧ x.port = port ∧ x.bytes = f.bytes ∧ x.badFcs = mark
    let carried := fun (port : Nat) => f.bytes.length + 4 ≤ s.maxFrame port ∧ s.ethLink port 0 = true ∧ s.ethLink port 1 = true
    let current := s.shtUpdate = s ∧ s.portEligible p.val = true ∧ s.Chosen sk ((s.childServices p.val).map svcKey)
    let svcMoved := fun (u : State) => u.vtimeOf pk = s.startTag sk ∧ u.startTag sk = (s.startTag sk + len sk * 65536 / sweight) % 2 ^ 48 ∧
      charged u sk (len sk) ∧ charged u pk (len pk)
    let queueMoved := fun (u : State) => u.subqFrames q = rest ∧ u.vtimeOf sk = s.startTag q ∧
      u.startTag q = (s.startTag q + len sk * 65536 / weight) % 2 ^ 48 ∧ charged u q (len sk) ∧
      ∀ m, m ≠ q → u.subqFrames m = s.subqFrames m
    (current → s.svcRelay n = 0 → n < 512 → q < 65536 → s.Chosen q ((s.childQueues n).filter fun q => s.subqEligible q) → s.subqFrames q = f :: rest →
      (p.val < 8 → ∃ u : State, exec (.shutterSelect ⟨p, err⟩) s = .next u.tidy ∧ queueMoved u ∧ svcMoved u ∧ u.mem = s.mem ∧ (carried p.val → sent u p.val) ∧
        (s.ethLink p.val 0 = false → s.ethLink p.val 1 = false → u.eth.sent = s.eth.sent)) ∧
      (8 ≤ p.val → p.val < 11 → ∀ r, s.relayOf p.val e = some r → ∃ u : State, exec (.shutterSelect ⟨p, err⟩) s = .next u.tidy ∧ queueMoved u ∧ svcMoved u ∧
        u.eth.sent = s.eth.sent ∧ u.relayFrames r = s.relayFrames r ++ [{ f with mark := mark }])) ∧
    (current → s.svcRelay n ≠ 0 → n < 512 → p.val < 8 → s.relayFrames n = f :: rest →
      ∃ u : State, exec (.shutterSelect ⟨p, err⟩) s = .next u.tidy ∧ u.relayFrames n = rest ∧ svcMoved u ∧ (carried p.val → sent u p.val) ∧
        ∀ m, u.subqFrames m = s.subqFrames m) ∧
    (s.childServices p.val = [] ∨ s.peakOk pk = false → p.val < 11 → s.shtUpdate = s → exec (.shutterSelect ⟨p, err⟩) s = .next s.tidy) ∧
    (p.val < 8 → s.flag F.CELL_STATE_QUIESCE_BUSY (ethCell p.val) = true → s.shtUpdate = s → exec (.shutterSelect ⟨p, err⟩) s = .next s.tidy) ∧
    (s.enabled shtCell = false → s.flag F.CELL_STATE_QUIESCE_BUSY shtCell = false → exec (.shutterSelect ⟨p, err⟩) s = .next s.tidy) ∧
    (∃ u : State, exec (.bucketRefill level) s = .next u.tidy ∧
      let inLevel := fun (k : Nat) => match level.val with | 0 => k < 0x10000 | 1 => 0x10000 ≤ k ∧ k < 0x10200 | _ => 0x20000 ≤ k ∧ k < 0x2000C
      let gain : Int := match level.val with | 0 => 20 | 1 => 5 | _ => 2
      let depth := fun (d : Nat) => ((max 64 d : Nat) : Int) * 160
      (∀ k, inLevel k → let r := s.nodeRegs k
        u.nodeRate k = r ∧ u.peak k = min (s.peak k + r.pir * gain) (depth r.pbs) ∧
        (k < 0x20000 → u.committed k = min (s.committed k + r.cir * gain) (depth r.cbs))) ∧
      (∀ k, ¬ inLevel k → u.nodeRate k = s.nodeRate k ∧ u.peak k = s.peak k ∧ u.committed k = s.committed k) ∧ u.sht.queues = s.sht.queues)) ∧
  (∀ (s : State) (g : Agent) (r : Fin 1024) (tail : BitVec 16) (bs fr b : List Byte) (h : HeldFrame) (rest : List HeldFrame),
    let n := r.val
    let log2 := s.fld F.SHT_TXRr_CFG_SIZE_LOG2 shtCell n
    let head := s.fld F.SHT_TXRr_PTR_HEAD shtCell n
    let a := 4096 * s.fld F.SHT_TXRr_CFG_BASE shtCell n + 32 * (head % 2 ^ log2)
    let ready := s.stopped = false ∧ s.flag F.SHT_TXRr_CFG_EN shtCell n = true ∧ 6 ≤ log2 ∧ log2 ≤ 16 ∧ head ≠ s.fld F.SHT_TXRr_PTR_TAIL shtCell n ∧
      s.enabled shtCell = true ∧ (∀ x ∈ s.sht.held, x.src ≠ .ring n) ∧ s.PlainMemory ∧ s.AtHand a 32 ∧ (s.load a 32).1 = .ok bs false
    let ws := wordsOf 8 bs
    let buf := wlong ws 0
    let len := wfield ws 2 13 0
    let eg := wfield ws 2 19 16
    let q := wfield ws 3 15 0
    let phase := !(smapGet (fun _ => false) s.sht.flip n)
    let good := wlong ws 0 % 64 = 0 ∧ wlong ws 0 < 2 ^ 48 ∧ 60 ≤ len ∧ len ≤ 16320 ∧ wfield ws 2 15 14 = 0 ∧ wfield ws 2 31 20 = 0 ∧ wfield ws 3 31 16 = 0 ∧
      (eg < 8 ∨ eg = 15) ∧ wfield ws 5 31 0 = 0 ∧ wfield ws 6 31 0 = 0 ∧ wfield ws 7 31 0 = 0 ∧ extentOneQuad buf len = true ∧
      s.extentFree (s.domePosted (txrKey n) head) buf len = true ∧ s.subqAllowed n q = true
    let ends := fun (u : State) (status : Nat) => u.fld F.SHT_TXRr_PTR_HEAD shtCell n = (head + 1) % 65536 ∧
      leNat (u.bytes (a + 16) 4) = status + phase.toNat * 2 ^ 31 ∧ ∀ z, z < a + 16 ∨ a + 20 ≤ z → u.byte z = s.byte z
    let kept := fun (u : State) => ∀ m, u.subqFrames m = s.subqFrames m
    let row := fun (u : State) => exec (.txRingEntry r) s = .next u.tidy
    (ready → ¬ good → ∃ u, row u ∧ ends u 2 ∧ kept u) ∧
    (ready → good → (∀ x, (s.load buf len).1 ≠ .ok x false) → ∃ u, row u ∧ ends u 2 ∧ kept u) ∧
    (ready → good → (s.load buf len).1 = .ok fr false →
      (s.flag F.SHT_SUBQq_CFG_EN shtCell q = false → ∃ u, row u ∧ ends u 1 ∧ kept u) ∧
      (s.admitCheck q ⟨fr, eg, false⟩ false = .admitted → ∃ u, row u ∧ ends u 0 ∧ u.subqFrames q = s.subqFrames q ++ [⟨fr, eg, false⟩]) ∧
      (∀ w, s.admitCheck q ⟨fr, eg, false⟩ false = .noRoom w → ∃ u, row u ∧ kept u ∧ u.fld F.SHT_TXRr_PTR_HEAD shtCell n = head ∧
        u.sht.held = s.sht.held ++ [⟨.ring n, q, eg, fr⟩] ∧ u.mem = s.mem)) ∧
    (s.stopped = false → s.flag F.SHT_TXRr_CFG_EN shtCell n = false → ∃ u, row u ∧ kept u ∧ u.regs = s.regs ∧ u.mem = s.mem) ∧
    (s.stopped = false → s.enabled shtCell = true → s.sht.held = h :: rest → (∀ k, h.src ≠ .ring k) →
      (s.admitCheck h.subq ⟨h.bytes, h.egress, false⟩ false = .admitted → ∃ u : State, exec .heldFrameAdmit s = .next u.tidy ∧ u.sht.held = rest ∧
        u.subqFrames h.subq = s.subqFrames h.subq ++ [⟨h.bytes, h.egress, false⟩]) ∧
      (s.flag F.SHT_SUBQq_CFG_EN shtCell h.subq = false → ∃ u : State, exec .heldFrameAdmit s = .next u.tidy ∧ u.sht.held = rest ∧ kept u)) ∧
    (s.stopped = false → (∀ x ∈ s.sht.held, ∃ w, s.admitCheck x.subq ⟨x.bytes, x.egress, false⟩ false = .noRoom w) →
      ∃ u : State, exec .heldFrameAdmit s = .next u.tidy ∧ u.sht.held = s.sht.held ∧ kept u ∧ u.mem = s.mem) ∧
    (s.Writable g .SHT_TXRr_CFG shtCell n (putBits (s.reg .SHT_TXRr_CFG shtCell n).toNat 0 0 1) → s.flag F.SHT_TXRr_CFG_EN shtCell n = false →
      ∃ t, exec (.txrEnable g r) s = .next t ∧ t.flag F.SHT_TXRr_CFG_EN shtCell n = true ∧ t.fld F.SHT_TXRr_PTR_HEAD shtCell n = 0 ∧
        t.fld F.SHT_TXRr_PTR_TAIL shtCell n = 0 ∧ smapGet (fun _ => false) t.sht.flip n = false ∧ MemKept s t) ∧
    (s.Writable g .SHT_TXRr_PTR shtCell n (putBits (s.reg .SHT_TXRr_PTR shtCell n).toNat 15 0 tail.toNat) → s.flag F.SHT_TXRr_CFG_POLL shtCell n = false →
      ∃ t, exec (.txrTailWrite g r tail) s = .next t ∧ t.fld F.SHT_TXRr_PTR_TAIL shtCell n = tail.toNat ∧
        RegsKept s t [regAddr .SHT_TXRr_PTR shtCell n] ∧ MemKept s t) ∧
    (s.stopped = false → s.flag F.SHT_TXRr_CFG_POLL shtCell n = true →
      (s.load (64 * s.fld F.SHT_TXRr_DB_LINE shtCell n) 64).1 = .ok b false →
      ∃ u : State, exec (.doorbellPoll (.txRing r)) s = .next u.tidy ∧ u.fld F.SHT_TXRr_PTR_TAIL shtCell n = leNat (b.take 2) % 65536 ∧ u.mem = s.mem))

namespace Sys2Proof.Machine

/-- R461: where queue q writes its next completion entry. -/
def State.catCqAt (s : State) (q : Nat) : Nat :=
  4096 * s.fld F.CAT_Qq_CQ_CQ_BASE catCell q + 16 * (s.fld F.CAT_Qq_PTR_CQ_TAIL catCell q % 2 ^ s.fld F.CAT_Qq_CFG_SIZE_LOG2 catCell q)

/-- R459, R476: a DEVICE queue that neither quiesces nor resets, with its next completion entry in memory the part reaches. -/
structure State.CatOpen (s : State) (q : Nat) : Prop where
  owned : q < 4096 ∧ s.fld F.CAT_Qq_CFG_OWNER catCell q = 0
  steady : s.catBusy q = false ∧ (s.catQueue q).noRecords = false
  room : s.AtHand (s.catCqAt q) 16
  plain : s.PlainMemory

/-- R461, R471: in u the queue has written the completion of a command: its CID, SQ_HEAD, STATUS, the failed parts not reported before and
PHASE; a status that would be OK is DEFERRED_ERROR where failed parts are reported, with the lowest one's backend status; all are reported. -/
def State.CatAnswers (s u : State) (q cid head status info : Nat) : Prop :=
  let x := s.catQueue q
  let un := x.failed.filter fun f => !f.reported
  let a := s.catCqAt q
  let late := status = 0 ∧ un ≠ []
  u.fld F.CAT_Qq_PTR_CQ_TAIL catCell q = (s.fld F.CAT_Qq_PTR_CQ_TAIL catCell q + 1) % 65536 ∧
  leNat (u.bytes a 4) = cid + 2 ^ 16 * head ∧
  (late → leNat (u.bytes (a + 4) 4) = 7 + 2 ^ 8 * min 255 un.length + 2 ^ 31 * (!x.flip).toNat ∧
    ∃ f ∈ un, (∀ g ∈ un, f.lba ≤ g.lba) ∧ leNat (u.bytes (a + 8) 4) = f.be % 1024 + 2 ^ 16 * (f.status % 32768)) ∧
  (¬ late → leNat (u.bytes (a + 4) 4) = status + 2 ^ 8 * min 255 un.length + 2 ^ 31 * (!x.flip).toNat ∧ leNat (u.bytes (a + 8) 4) = info) ∧
  leNat (u.bytes (a + 12) 4) = 0 ∧ ∀ f ∈ (u.catQueue q).failed, f.reported = true

/-- Command c of queue q is the one the rows name by its slot and opcode. -/
def State.CatHolds (s : State) (q : Nat) (c : CatCmd) : Prop :=
  (s.catQueue q).cmds.find? (fun d => d.slot == c.slot && d.opc == c.opc) = some c ∧ s.findCmd q c.seq = some c ∧ c.moves = 0 ∧
    c.fail = none ∧ c.poison = false ∧ c.lost = false ∧ c.inline = []

/-- R466: a command waits for another taken before it on its queue. -/
def State.CatWaits (s : State) (q : Nat) (c : CatCmd) : Prop :=
  ∃ d ∈ (s.catQueue q).cmds, d.seq < c.seq ∧ (c.ordered = true ∨ d.ordered = true)

/-- R455: volume block b of a command lies on stripe index i, at this block of the backend. -/
def CatCmd.stripe (c : CatCmd) (b : Nat) : Nat × Nat :=
  let su := 2 ^ wfield c.vol 0 11 8
  let w := wfield c.vol 0 15 12 + 1
  ((c.bes.getD (b / su % w) (0, [])).1, wlong c.vol 4 + b / su / w * su + b % su)

/-- R464, R468: the segments l hold every block of a command, each with its backend, backend block and place in the store. -/
def CatCmd.HeldBy (c : CatCmd) (q base : Nat) (l : List StoreSeg) : Prop :=
  (∀ g ∈ l, g.q = q ∧ g.seq = c.seq ∧ g.cid = c.cid ∧ g.volNo = c.volNo ∧ (g.dealloc = true ↔ c.opc = 4) ∧ g.issued = false ∧ g.attempts = 0 ∧
    c.lba ≤ g.lba ∧ g.lba + g.nb ≤ c.lba + c.nb ∧ ∀ b, g.lba ≤ b → b < g.lba + g.nb → c.stripe b = (g.be, g.block + (b - g.lba)) ∧
      (c.opc = 2 → g.addr + (b - g.lba) * 2 ^ c.log2 = base + (b - c.lba) * 2 ^ c.log2)) ∧
  ∀ b, c.lba ≤ b → b < c.lba + c.nb → ∃ g ∈ l, g.lba ≤ b ∧ b < g.lba + g.nb

/-- R460: the buffer of a READ or WRITE entry: contiguous, or the segments of its list. -/
def State.CatBuffer (s : State) (ws : List Word32) (l : List (Nat × Nat)) : Prop :=
  let n := wfield ws 9 8 0
  let buf := wlong ws 6
  if wfield ws 0 9 9 = 0 then buf % 64 = 0 ∧ l.map Prod.fst = [buf]
  else 1 ≤ n ∧ n ≤ 256 ∧ l.length = n ∧ ∃ b, (s.load buf (16 * n)).1 = .ok b false ∧ ∀ i < n,
    let e := wordsOf 4 ((b.drop (16 * i)).take 16)
    l[i]? = some (wlong e 0, wfield e 2 31 0) ∧ wlong e 0 % 64 = 0 ∧ wfield e 2 31 0 ≠ 0 ∧ wfield e 2 31 0 % 64 = 0 ∧ wfield e 3 31 0 = 0

end Sys2Proof.Machine

open Sys2Proof Sys2Proof.Machine in
/-- R460, R462, R463, R473: a DEVICE queue takes the entry at SQ_HEAD while it is ENABLED, its rings have a size, it has entries and room for
their completions, a tag is free, and the turn is its; else nothing changes. The entry is checked in order: form, buffer, volume, range, backends; the first
check that fails completes it at once with its status, and nothing else changes. An entry that passes is held with the volume and backends its
queue holds. A write of SQ_TAIL stores it. -/
def Obligations.CatalogueTakesEntries : Prop :=
  ∀ (s : State) (g : Agent) (q : Fin 4096) (tail : BitVec 16) (bs : List Byte) (l : List (Nat × Nat)),
    let n := q.val
    let x := s.catQueue n
    let log2 := s.fld F.CAT_Qq_CFG_SIZE_LOG2 catCell n
    let head := s.fld F.CAT_Qq_PTR_SQ_HEAD catCell n
    let next := (head + 1) % 65536
    let ws := wordsOf 16 bs
    let opc := wfield ws 0 3 0
    let nb := wfield ws 4 15 0 + 1
    let len := nb * 2 ^ wfield x.vol 0 7 4
    let data := opc = 1 ∨ opc = 2
    let wants := s.catQState n = 3 ∧ 6 ≤ log2 ∧ log2 ≤ 16 ∧ head ≠ s.fld F.CAT_Qq_PTR_SQ_TAIL catCell n ∧ x.reading = false ∧
      x.cmds.length + (s.fld F.CAT_Qq_PTR_CQ_TAIL catCell n + 65536 - s.fld F.CAT_Qq_PTR_CQ_HEAD catCell n) % 65536 < 2 ^ log2
    let takes := s.stopped = false ∧ s.CatOpen n ∧ wants ∧ s.tagFree = true ∧ s.catTurn n = true ∧ (∀ d ∈ x.cmds, d.seq < x.nextSeq) ∧
      (s.load (4096 * s.fld F.CAT_Qq_CFG_SQ_BASE catCell n + 64 * (head % 2 ^ log2)) 64).1 = .ok bs false
    let good1 := 1 ≤ opc ∧ opc ≤ 4 ∧ wfield ws 0 7 4 = 1 ∧ wfield ws 0 31 10 = 0 ∧ wfield ws 1 31 16 = 0 ∧ wfield ws 4 31 16 = 0 ∧
      wfield ws 5 31 0 = 0 ∧ wfield ws 9 31 9 = 0 ∧ ∀ i < 6, wfield ws (10 + i) 31 0 = 0
    let usable := wfield x.vol 0 0 0 = 1 ∧ (wfield x.vol 0 7 4 = 9 ∨ wfield x.vol 0 7 4 = 12) ∧ wfield x.vol 0 11 8 ≤ 8
    let good2 := data → s.CatBuffer ws l ∧ (wfield ws 0 9 9 = 1 → usable → (l.map Prod.snd).sum = len)
    let bad2 := data ∧ (if wfield ws 0 9 9 = 0 then wlong ws 6 % 64 ≠ 0 else wfield ws 9 8 0 = 0 ∨ 256 < wfield ws 9 8 0 ∨
      (s.CatBuffer ws l ∧ usable ∧ (l.map Prod.snd).sum ≠ len) ∨
      (∃ b i, (s.load (wlong ws 6) (16 * wfield ws 9 8 0)).1 = .ok b false ∧ i < wfield ws 9 8 0 ∧
        (let e := wordsOf 4 ((b.drop (16 * i)).take 16)
         wlong e 0 % 64 ≠ 0 ∨ wfield e 2 31 0 % 64 ≠ 0 ∨ wfield e 2 31 0 = 0 ∨ wfield e 3 31 0 ≠ 0)))
    let good3 := usable ∧ ((opc = 2 ∨ opc = 4) → wfield x.vol 0 1 1 = 0)
    let good4 := opc ≠ 3 → wlong ws 2 + nb ≤ wlong x.vol 2
    let good5 := ∀ b ∈ x.bes, wfield b.2 0 2 2 = 1 ∧ wfield b.2 0 1 0 ≠ 3
    let moved := fun (u : State) => exec (.catEntryTake q) s = .next u.tidy ∧ u.fld F.CAT_Qq_PTR_SQ_HEAD catCell n = next
    let ends := fun (status info : Nat) => ∃ u : State, moved u ∧ s.CatAnswers u n (wfield ws 1 15 0) next status info ∧
      (u.catQueue n).cmds = x.cmds ∧ u.cat.segs = s.cat.segs ∧ ∀ z, z < s.catCqAt n ∨ s.catCqAt n + 16 ≤ z → u.byte z = s.byte z
    (takes → ¬ good1 → ends 1 1) ∧
    (takes → good1 → bad2 → ends 1 2) ∧
    (takes → good1 → good2 → ¬ good3 → ends 2 0) ∧
    (takes → good1 → good2 → good3 → ¬ good4 → ends 3 0) ∧
    (takes → good1 → good2 → good3 → good4 → ¬ good5 → ends 2 0) ∧
    (takes → good1 → good2 → good3 → good4 → good5 → ∃ (u : State) (c : CatCmd), moved u ∧ (u.catQueue n).cmds = x.cmds ++ [c] ∧ c.words = ws ∧
      c.slot = head ∧ c.volNo = s.fld F.CAT_Qq_CFG_VOLUME catCell n ∧ c.vol = x.vol ∧ c.bes = x.bes ∧ c.phase = .ready ∧
      (data → wfield ws 0 9 9 = 1 → c.segs = l) ∧ (data → wfield ws 0 9 9 = 0 → c.segs = [(wlong ws 6, len)]) ∧ u.mem = s.mem) ∧
    (s.stopped = false → s.CatOpen n → ¬ wants ∨ s.tagFree = false ∨ s.catTurn n = false → exec (.catEntryTake q) s = .next s.tidy) ∧
    (s.Writable g .CAT_Qq_PTR catCell n (putBits (s.reg .CAT_Qq_PTR catCell n).toNat 15 0 tail.toNat) → s.flag F.CAT_Qq_CFG_POLL catCell n = false →
      ∃ t, exec (.catSqTailWrite g q tail) s = .next t ∧ t.fld F.CAT_Qq_PTR_SQ_TAIL catCell n = tail.toNat ∧
        RegsKept s t [regAddr .CAT_Qq_PTR catCell n] ∧ MemKept s t)

open Sys2Proof Sys2Proof.Machine in
/-- R464, R465, R466, R467, R468, R471, R474: what a command of a DEVICE queue does. A command ordered behind another waits. A WRITE waits for
room in the store, or copies its buffer there and completes; a DEALLOCATE completes without data; the store then holds every block for its
backend. A READ whose parts have ended places the store's or the backend's bytes in its buffer, poison for a part that failed, and completes with
the failure of the lowest block. A FLUSH waits for what it covers, then completes, DEFERRED_ERROR where a covered command has failed. (The place
in the store is the model's choice, log 36; commands with one contiguous buffer.) -/
def Obligations.CatalogueCommandsRun : Prop :=
  ∀ (s : State) (q : Nat) (c : CatCmd) (a len base : Nat), s.stopped = false → s.CatOpen q → s.CatHolds q c → c.len = len → len % 64 = 0 →
    let x := s.catQueue q
    let head := s.fld F.CAT_Qq_PTR_SQ_HEAD catCell q
    let ca := s.catCqAt q
    let ends := fun (u : State) (status info : Nat) => s.CatAnswers u q c.cid head status info ∧ (∀ d ∈ (u.catQueue q).cmds, d.seq ≠ c.seq) ∧
      ∀ d ∈ x.cmds, d.seq ≠ c.seq → d ∈ (u.catQueue q).cmds
    let row := if c.opc = 1 then Instr.catRead q c.slot else if c.opc = 2 then .catWrite q c.slot else if c.opc = 3 then .catFlush q c.slot
      else .catDeallocate q c.slot
    let pieces := fun (b : Nat) => ∀ j, 64 * j < len → s.AtHand (b + 64 * j) 64
    (c.phase = .ready → s.CatWaits q c → 1 ≤ c.opc → c.opc ≤ 4 → exec row s = .next s.tidy) ∧
    (c.phase = .ready → ¬ s.CatWaits q c → c.opc = 2 → s.storeAlloc len = none →
      ∃ u : State, exec row s = .next u.tidy ∧ u.mem = s.mem ∧ u.cat.segs = s.cat.segs ∧ u.bitAt 0x40027000 = true ∧
        u.findCmd q c.seq = some { c with waitRoom := some (c.waitRoom.getD s.now) }) ∧
    (c.phase = .ready → ¬ s.CatWaits q c → c.opc = 2 → s.storeAlloc len = some base → base % 64 = 0 → c.segs = [(a, len)] → pieces a → pieces base →
      a + len ≤ base ∨ base + len ≤ a → ca + 16 ≤ base ∨ base + len ≤ ca →
      ∃ (u : State) (l : List StoreSeg), exec row s = .next u.tidy ∧ ends u 0 0 ∧ (∀ i < len, u.byte (base + i) = s.byte (a + i)) ∧
        u.cat.segs = s.cat.segs ++ l ∧ c.HeldBy q base l ∧
        ∀ z, z < base ∨ base + len ≤ z → z < ca ∨ ca + 16 ≤ z → u.byte z = s.byte z) ∧
    (c.phase = .ready → ¬ s.CatWaits q c → c.opc = 4 →
      ∃ (u : State) (l : List StoreSeg), exec row s = .next u.tidy ∧ ends u 0 0 ∧ u.cat.segs = s.cat.segs ++ l ∧ c.HeldBy q 0 l ∧
        ∀ z, z < ca ∨ ca + 16 ≤ z → u.byte z = s.byte z) ∧
    (c.phase = .running → c.opc = 1 → c.segs = [(a, len)] → a % 64 = 0 → pieces a → ca + 16 ≤ a ∨ a + len ≤ ca →
      (c.parts.map fun p => p.nb * 2 ^ c.log2).sum = len → (∀ p ∈ c.parts, p.nb * 2 ^ c.log2 % 64 = 0 ∧ p.addr % 64 = 0) →
      (∀ p ∈ c.parts, p.state = .done ∨ ∃ st info, st ∈ [4, 5, 6] ∧ info < 2 ^ 32 ∧ p.state = .failed st info) →
      (∀ p ∈ c.parts, ∀ k y, smapGet (fun _ => none) p.overlay k = some y → y.1.length = 64 ∧ y.2 = false) →
      ∃ u : State, exec row s = .next u.tidy ∧
        ((∀ p ∈ c.parts, p.state = .done) → ends u 0 0) ∧
        ((∃ p ∈ c.parts, p.state ≠ .done) → ∃ p ∈ c.parts, ∃ st info, p.state = .failed st info ∧
          (∀ r ∈ c.parts, r.state ≠ .done → p.lba ≤ r.lba) ∧ ends u st info) ∧
        (∀ k p, c.parts[k]? = some p → ∀ m, 64 * m < p.nb * 2 ^ c.log2 →
          let o := a + ((c.parts.take k).map fun r => r.nb * 2 ^ c.log2).sum + 64 * m
          (p.state = .done → ∀ i < 64, u.byte (o + i) = match smapGet (fun _ => none) p.overlay m with
            | some y => y.1.getD i 0
            | none => s.byte (p.addr + 64 * m + i)) ∧
          (p.state ≠ .done → (u.readLine o false).poison = true)) ∧
        ∀ z, z < a ∨ a + len ≤ z → z < ca ∨ ca + 16 ≤ z → u.byte z = s.byte z) ∧
    (c.phase = .ready ∨ c.phase = .running → ¬ s.CatWaits q c → c.opc = 3 →
      let waits := (∃ d ∈ x.cmds, d.seq < c.seq ∧ (d.opc = 2 ∨ d.opc = 4)) ∨ ∃ g ∈ s.cat.segs, g.q = q ∧ g.seq < c.seq
      let vol := s.cat.nondur.filter fun v => v.q == q && decide (v.seq < c.seq)
      let failed := x.failed.filter fun f => decide (f.seq < c.seq)
      let held := fun (u : State) => (u.findCmd q c.seq).map CatCmd.phase = some CatPhase.running ∧
        u.fld F.CAT_Qq_PTR_CQ_TAIL catCell q = s.fld F.CAT_Qq_PTR_CQ_TAIL catCell q
      (waits → ∃ u : State, exec row s = .next u.tidy ∧ held u ∧ u.mem = s.mem) ∧
      (¬ waits → vol ≠ [] → (∀ v ∈ vol, wfield (s.catBackend v.be).words 0 1 0 = 0 ∧ s.beReachable (s.catBackend v.be).words = true) →
        ∃ u : State, exec row s = .next u.tidy ∧ held u) ∧
      (¬ waits → vol = [] → failed = [] → ∃ u : State, exec row s = .next u.tidy ∧ ends u 0 0 ∧
        ∀ z, z < ca ∨ ca + 16 ≤ z → u.byte z = s.byte z) ∧
      (¬ waits → vol = [] → failed ≠ [] → ∃ (u : State) (f : CatFailure), exec row s = .next u.tidy ∧ f ∈ failed ∧
        (∀ r ∈ failed, f.lba ≤ r.lba) ∧ ends u 7 (f.be % 1024 + 2 ^ 16 * (f.status % 32768)) ∧ ∀ z, z < ca ∨ ca + 16 ≤ z → u.byte z = s.byte z))

namespace Sys2Proof.Machine

/-- The backend command with this identifier is in flight, in time, and of its queue's generation. -/
def State.BeHas (s : State) (be id : Nat) (b : BeCmd) : Prop :=
  b.be = be ∧ b.id = id ∧ b.late = false ∧ b.stale = false ∧ s.cat.becmds.find? (fun d => d.be == be && d.id == id) = some b

/-- The store holds segment g under its number. -/
def State.SegIs (s : State) (g : StoreSeg) : Prop := s.cat.segs.find? (fun h => h.id == g.id) = some g

/-- R470: in u an attempt at segment g has failed: it may be tried again, or after the last attempt the data is released and the failed
part stands against the queue. -/
def State.SegFails (s u : State) (g : StoreSeg) (status : Nat) (last : Bool) : Prop :=
  if g.attempts + 1 < max 1 (s.fld F.CAT_TIMER_RETRIES catCell) ∧ last = false then
    u.SegIs { g with attempts := g.attempts + 1, issued := false } ∧ (u.catQueue g.q).failed = (s.catQueue g.q).failed
  else
    (∀ h, h ∈ u.cat.segs ↔ h ∈ s.cat.segs ∧ h.id ≠ g.id) ∧
      (u.catQueue g.q).failed = (s.catQueue g.q).failed ++ [{ seq := g.seq, lba := g.lba, be := g.be, status := status, reported := false }]

end Sys2Proof.Machine

open Sys2Proof Sys2Proof.Machine in
/-- R457, R464, R470, R472, R473, R475, R481, R482: backends. The store sends a segment after the earlier ones that overlap it: to a drive as
an NVMe Write in the slot at the tail of its queue. A failed attempt may be tried again up to RETRIES; then the data is released, the failed part
stands against the queue, and a queue with a log writes an entry. A backend command that times out fails so, TIMEOUT recorded, its identifier
kept unless its controller was reset. The failure of a command of an earlier generation fails nothing; the store sends its segment again. An NVMe completion, a program's response or a peer's entry ends the command it names. (Identifiers and the doorbell stride are the model's,
log 36.) -/
def Obligations.BackendCommandsRunAndFail : Prop :=
  ∀ (s : State) (g : StoreSeg) (be : Fin 1024) (id : Nat) (b : BeCmd) (cause : BitVec 8) (status : BitVec 15) (bs more : List Byte)
      (entry : List Word32), s.stopped = false →
    let n := be.val
    let x := s.catBackend n
    let w := x.words
    let kind := wfield w 0 1 0
    let gone := fun (u : State) => ∀ d, d ∈ u.cat.becmds ↔ d ∈ s.cat.becmds ∧ ¬ (d.be = n ∧ d.id = id)
    let overlaps := fun (h : StoreSeg) => h.volNo = g.volNo ∧ h.lba < g.lba + g.nb ∧ g.lba < h.lba + h.nb
    (s.SegIs g → g.issued = true ∨ (∃ h ∈ s.cat.segs.takeWhile (fun h => h.id != g.id), overlaps h) →
      exec (.backendWriteback g.id) s = .next s.tidy) ∧
    (s.SegIs g → g.issued = false → (∀ h ∈ s.cat.segs, h ≠ g → ¬ overlaps h) →
      let v := g.beWords
      let y := s.catBackend g.be
      let depth := wfield v 3 11 0 + 1
      let slot := wlong v 4 % 2 ^ 48 + 64 * y.tail
      let at_ := fun (u : State) (o k : Nat) => leNat (u.bytes (slot + o) k)
      (s.beReachable v = false → ∃ u : State, exec (.backendWriteback g.id) s = .next u.tidy ∧ s.SegFails u g 0 false) ∧
      (s.beReachable v = true → wfield v 0 1 0 = 0 → g.dealloc = false → (y.tail + 1) % depth = y.head →
        ∃ u : State, exec (.backendWriteback g.id) s = .next u.tidy ∧ u.cat = s.cat ∧ u.mem = s.mem) ∧
      (s.beReachable v = true → wfield v 0 1 0 = 0 → g.dealloc = false → (y.tail + 1) % depth ≠ y.head → g.addr % 4096 = 0 → g.nb * 2 ^ g.log2 ≤ 8192 →
        1 ≤ g.nb → g.nb ≤ 65536 → g.block < 2 ^ 64 → g.addr < 2 ^ 48 → slot % 64 = 0 → s.PlainMemory → s.AtHand slot 64 →
        ∃ (u : State) (d : BeCmd), exec (.backendWriteback g.id) s = .next u.tidy ∧ u.SegIs { g with issued := true } ∧
          u.cat.becmds = s.cat.becmds ++ [d] ∧ d.be = g.be ∧ d.owner = .seg g.id ∧ d.opc = 2 ∧ d.q = g.q ∧ d.late = false ∧
          (∀ r ∈ s.cat.becmds, r.be = g.be → r.id ≠ d.id ∨ 65537 ≤ d.id) ∧
          at_ u 0 1 = 1 ∧ at_ u 2 2 = d.id % 65536 ∧ at_ u 4 4 = wfield v 2 31 0 ∧ at_ u 24 8 = g.addr ∧
          (4096 < g.nb * 2 ^ g.log2 → at_ u 32 8 = g.addr + 4096) ∧ at_ u 40 8 = g.block ∧ at_ u 48 4 = g.nb - 1 ∧
          (u.catBackend g.be).tail = (y.tail + 1) % depth ∧ (∀ z, z < slot ∨ slot + 64 ≤ z → u.byte z = s.byte z) ∧
          ∃ t, u.pci.sent = s.pci.sent ++ [t] ∧ t.port = 10 + wfield v 1 3 0 ∧ leNat t.bytes = (y.tail + 1) % depth)) ∧
    (s.SegIs g → s.cat.becmds.find? (fun d => d.owner == .seg g.id && !d.late) = some b → cause.toNat ∈ [4, 5, 6] → b.stale = true →
      ∃ u : State, exec (.backendWriteFail g.id cause status) s = .next u.tidy ∧ u.SegIs { g with issued := false } ∧ u.cat.queues = s.cat.queues) ∧
    (s.SegIs g → s.cat.becmds.find? (fun d => d.owner == .seg g.id && !d.late) = some b → cause.toNat ∈ [4, 5, 6] → b.stale = false →
      ∃ u : State, exec (.backendWriteFail g.id cause status) s = .next u.tidy ∧ s.SegFails u g status.toNat true ∧
        (∀ d, d ∈ u.cat.becmds ↔ d ∈ s.cat.becmds ∧ ¬ (d.be = b.be ∧ d.id = b.id)) ∧
        (let log2 := s.fld F.CAT_Qq_ELOG_LOG_LOG2 catCell g.q
         let seq := (s.catQueue g.q).logSeq
         let a := 64 * s.fld F.CAT_Qq_ELOG_BASE catCell g.q + 32 * (seq % 2 ^ log2)
         let at_ := fun (o k : Nat) => leNat (u.bytes (a + o) k)
         (log2 < 4 ∨ 12 < log2 → u.mem = s.mem) ∧
         (s.CatOpen g.q → 4 ≤ log2 → log2 ≤ 12 → s.AtHand a 32 → g.cid < 65536 → g.lba < 2 ^ 64 → seq < 65536 → 1 ≤ g.nb → g.nb ≤ 65536 →
           at_ 0 2 = g.cid ∧ at_ 2 2 = g.q ∧ at_ 4 4 = cause.toNat + 2 ^ 8 * (g.be % 1024) ∧ at_ 8 8 = g.lba ∧ at_ 16 2 = g.nb - 1 ∧
           at_ 18 2 = seq ∧ at_ 20 4 = g.be % 1024 + 2 ^ 16 * status.toNat ∧ at_ 24 8 = s.now % 2 ^ 64 ∧
           (u.catQueue g.q).logSeq = (seq + 1) % 65536 ∧ ∀ z, z < a ∨ a + 32 ≤ z → u.byte z = s.byte z))) ∧
    (cause.toNat ∉ [4, 5, 6] ∨ (∀ d ∈ s.cat.becmds, d.owner = .seg g.id → d.late = true) → exec (.backendWriteFail g.id cause status) s = .next s.tidy) ∧
    (s.cat.becmds.find? (fun d => d.be == n && d.id == id && !d.late) = some b →
      ∃ u : State, exec (.backendTimeout be id) s = .next u.tidy ∧ (∀ d ∈ u.cat.becmds, d.be = n → d.id = id → d.late = true) ∧
        (b.gone = false → u.cat.becmds.length = s.cat.becmds.length) ∧ (b.gone = true → gone u) ∧
        (s.flag F.CELL_ERR_STATUS_VALID catCell = false → u.fld F.CELL_ERR_STATUS_CLASS catCell = 0x07) ∧
        (b.stale = false → s.SegIs g → b.owner = .seg g.id → s.SegFails u g 0 false) ∧
        (b.stale = true → s.SegIs g → b.owner = .seg g.id → u.SegIs { g with issued := false } ∧ u.cat.queues = s.cat.queues) ∧
        (∀ q seq i c, b.stale = false → b.owner = .part q seq i → s.findCmd q seq = some c → ∀ p, c.parts[i]? = some p →
          ∃ c', u.findCmd q seq = some c' ∧ c'.parts[i]? = some { p with state := .failed 6 (b.be % 1024) })) ∧
    ((∀ d ∈ s.cat.becmds, d.be = n → d.id = id → d.late = true) → exec (.backendTimeout be id) s = .next s.tidy) ∧
    (let depth := wfield w 3 11 0 + 1
     let at_ := fun (i : Nat) => wlong w 6 % 2 ^ 48 + 16 * i
     let e := wordsOf 4 bs
     let next := (x.cqHead + 1) % depth
     let phase := fun (f : Bool) => if f then 0 else 1
     let flip' := if next = 0 then !x.flip else x.flip
     w ≠ [] → kind = 0 → s.PlainMemory → (s.load (at_ x.cqHead) 16).1 = .ok bs false →
     (wfield e 3 16 16 ≠ phase x.flip → ∃ u : State, exec (.nvmeCqPoll be) s = .next u.tidy ∧ u.cat = s.cat ∧ u.mem = s.mem) ∧
     (wfield e 3 16 16 = phase x.flip → (s.load (at_ next) 16).1 = .ok more false → wfield (wordsOf 4 more) 3 16 16 ≠ phase flip' → 1 < depth →
       wfield e 3 31 17 = 0 → s.BeHas n (wfield e 3 15 0) b → id = wfield e 3 15 0 → b.opc ≠ 3 →
       ∃ u : State, exec (.nvmeCqPoll be) s = .next u.tidy ∧ gone u ∧ (u.catBackend n).cqHead = next ∧ (u.catBackend n).flip = flip' ∧
         (u.catBackend n).head = wfield e 2 15 0 ∧ u.mem = s.mem ∧
         (s.SegIs g → b.owner = .seg g.id → ∀ h, h ∈ u.cat.segs ↔ h ∈ s.cat.segs ∧ h.id ≠ g.id) ∧
         ∃ t, u.pci.sent = s.pci.sent ++ [t] ∧ t.port = 10 + wfield w 1 3 0 ∧ leNat t.bytes = next)) ∧
    (let line := wlong w 6 / 64 % 2 ^ 42 * 64
     let a := wlong w 4 % 2 ^ 48 + 16 * (x.head % 2 ^ wfield w 2 4 0)
     let e := wordsOf 4 bs
     w ≠ [] → kind = 2 → s.PlainMemory → (s.load line 64).1 = .ok more false →
     (leNat (more.take 2) = x.head → ∃ u : State, exec (.programBackendResponse be) s = .next u.tidy ∧ u.cat = s.cat ∧ u.mem = s.mem) ∧
     (leNat (more.take 2) = (x.head + 1) % 65536 → x.head < 65536 → (s.load a 16).1 = .ok bs false → wfield e 1 7 0 = 0 →
       s.BeHas n (wfield e 0 31 0) b → id = wfield e 0 31 0 →
       ∃ u : State, exec (.programBackendResponse be) s = .next u.tidy ∧ gone u ∧ (u.catBackend n).head = (x.head + 1) % 65536 ∧ u.mem = s.mem ∧
         (s.SegIs g → b.owner = .seg g.id → ∀ h, h ∈ u.cat.segs ↔ h ∈ s.cat.segs ∧ h.id ≠ g.id) ∧
         (wfield e 1 8 8 = 1 → ∀ v ∈ u.cat.nondur, v.be = n → b.serial < v.serial))) ∧
    (w ≠ [] → kind = 1 → s.BeHas n (wfield entry 0 15 0) b → id = wfield entry 0 15 0 →
      (wfield entry 1 7 0 = 0 → ∃ u : State, exec (.remoteBackendCompletion be entry) s = .next u.tidy ∧ gone u ∧ u.mem = s.mem ∧
        (s.SegIs g → b.owner = .seg g.id → (∀ h, h ∈ u.cat.segs ↔ h ∈ s.cat.segs ∧ h.id ≠ g.id) ∧
          (b.opc ≠ 3 → wfield g.beWords 0 1 0 = 1 → ∃ v ∈ u.cat.nondur, v.q = g.q ∧ v.seq = g.seq ∧ v.be = g.be))) ∧
      (wfield entry 1 7 0 ≠ 0 → wfield entry 1 7 0 ≠ 7 → ∃ u : State, exec (.remoteBackendCompletion be entry) s = .next u.tidy ∧ gone u ∧
        (s.SegIs g → b.owner = .seg g.id → s.SegFails u g (wfield entry 1 7 0) false))) ∧
    (w = [] → ∀ i ∈ [Instr.nvmeCqPoll be, .programBackendResponse be, .remoteBackendCompletion be entry], exec i s = .next s.tidy)

open Sys2Proof Sys2Proof.Machine in
/-- R476, R477, R478, R484: EN and RESET of a queue. EN written 1 makes an OFF queue of the ENABLED cell ENABLED, with the entry of its volume
read; EN written 0 begins a quiesce, which ends at once without commands (GEN one more, the pointers 0) and keeps those taken; of a queue in FAULT it begins none. RESET sets EN to 0
and RESETTING and completes every taken command with QUEUE_RESET, ending FAULT; again it changes nothing. The reset completes when no backend command remains
and no data moves: GEN is one more, the pointers 0, RESETTING 0, RESET_DONE set. -/
def Obligations.CatalogueQueuesEnableAndReset : Prop :=
  ∀ (s : State) (g : Agent) (q : Fin 4096) (c : CatCmd) (bs : List Byte),
    let n := q.val
    let x := s.catQueue n
    let gen := s.fld F.CAT_Qq_STATE_GEN catCell n
    let may := fun (v : Nat) => s.Writable g .CAT_Qq_CTRL catCell n v
    let vol := s.fld F.CAT_Qq_CFG_VOLUME catCell n
    let off := fun (u : State) => u.fld F.CAT_Qq_STATE_GEN catCell n = (gen + 1) % 65536 ∧ u.catResetting n = false ∧ u.catBusy n = false ∧
      (∀ f ∈ [F.CAT_Qq_PTR_SQ_TAIL, F.CAT_Qq_PTR_SQ_HEAD, F.CAT_Qq_PTR_CQ_HEAD, F.CAT_Qq_PTR_CQ_TAIL], u.fld f catCell n = 0) ∧
      (u.catQueue n).flip = false
    (may 1 → s.catQState n = 0 → s.catBusy n = false → s.enabled catCell = true → s.PlainMemory → vol < 2 ^ min 16 (s.fld F.CAT_VOL_TABLE_COUNT_LOG2 catCell) →
      (s.load (4096 * s.fld F.CAT_VOL_TABLE_BASE catCell + 64 * vol) 64).1 = .ok bs false →
      ∃ u : State, exec (.catQueueEnWrite g q true) s = .next u.settle.noteLevels ∧ u.catQState n = 3 ∧ (u.catQueue n).vol = wordsOf 16 bs ∧
        u.fld F.CAT_Qq_STATE_GEN catCell n = gen ∧ u.mem = s.mem) ∧
    (may 0 → s.catQState n = 3 → s.catResetting n = false → x.cmds = [] → x.records = 0 → x.reading = false →
      ∃ u : State, exec (.catQueueEnWrite g q false) s = .next u.settle.noteLevels ∧ u.catQState n = 0 ∧ off u ∧ u.mem = s.mem) ∧
    (may 0 → s.catQState n = 3 → x.cmds ≠ [] →
      ∃ u : State, exec (.catQueueEnWrite g q false) s = .next u.settle.noteLevels ∧ u.catQState n = 1 ∧ u.catQueue n = x ∧
        u.fld F.CAT_Qq_STATE_GEN catCell n = gen ∧ u.mem = s.mem) ∧
    (may 0 → s.catQState n = 4 →
      ∃ u : State, exec (.catQueueEnWrite g q false) s = .next u.settle.noteLevels ∧ u.catQState n = 4 ∧ u.catQueue n = x ∧
        u.fld F.CAT_Qq_STATE_GEN catCell n = gen ∧ u.mem = s.mem) ∧
    (may 2 → s.catResetting n = false → x.noRecords = false →
      ∃ u : State, exec (.catQueueReset g q) s = .next u.settle.noteLevels ∧ u.catEn n = false ∧ u.catBusy n = true ∧ u.catResetting n = true ∧
        (u.catQueue n).cmds = [] ∧ (u.catQueue n).fault = false ∧
        u.fld F.CAT_Qq_PTR_CQ_TAIL catCell n = (s.fld F.CAT_Qq_PTR_CQ_TAIL catCell n + x.cmds.length) % 65536 ∧
        (x.cmds = [c] → s.CatOpen n → s.CatAnswers u n c.cid (s.fld F.CAT_Qq_PTR_SQ_HEAD catCell n) 8 0)) ∧
    (may 2 → s.catResetting n = true → s.catEn n = false →
      ∃ u : State, exec (.catQueueReset g q) s = .next u.settle.noteLevels ∧ u.catQueue n = x ∧ u.cat.segs = s.cat.segs ∧
        u.cat.becmds = s.cat.becmds ∧ u.mem = s.mem ∧ u.catResetting n = true ∧ u.catEn n = false) ∧
    (s.stopped = false → s.catResetting n = true → (∀ b ∈ s.cat.becmds, b.q ≠ n) → s.catMoves n = false → s.catEn n = false → x.fault = false →
      ∃ u : State, exec (.catQueueResetComplete q) s = .next u.tidy ∧ u.catQState n = 0 ∧ off u ∧ u.bitAt 0x40027001 = true ∧ u.mem = s.mem) ∧
    (s.stopped = false → s.catResetting n = false ∨ (∃ b ∈ s.cat.becmds, b.q = n) ∨ s.catMoves n = true →
      exec (.catQueueResetComplete q) s = .next s.tidy)

namespace Sys2Proof.Machine

/-- R512: in u the AER structure of a function holds an uncorrectable error, and the port's cell, where it held no record, its class. -/
def State.AerLogs (s u : State) (port fn bit cls : Nat) : Prop :=
  bitsOf (u.cfg port fn 0x104) bit bit = 1 ∧
    (s.flag F.CELL_ERR_STATUS_VALID (portCell port) = false → u.fld F.CELL_ERR_STATUS_CLASS (portCell port) = cls)

/-- R506: request r is the one outstanding under its tag of a port. -/
def State.ReqIs (s : State) (p tag : Nat) (r : HostReq) : Prop :=
  r.port = p ∧ r.tag = tag ∧ s.pci.reqs.find? (fun q => q.port == p && q.tag == tag) = some r

/-- R515: window w of downstream port k is enabled and holds the n bytes at bus address a; only the lowest enabled COLLECTOR window matches. -/
def State.WindowHolds (s : State) (k w a n : Nat) : Prop :=
  let c := downCell k
  let on := fun (v : Nat) => s.flag F.PCI_DP_INWw_BUS_EN c v = true
  let coll := fun (v : Nat) => s.flag F.PCI_DP_INWw_BUS_COLL c v = true
  let sz := s.fld F.PCI_DP_INWw_MAP_SIZE_LOG2 c w
  let base := 4096 * s.fld F.PCI_DP_INWw_BUS_BUS_BASE c w
  w < 8 ∧ on w ∧ 12 ≤ sz ∧ sz ≤ 40 ∧ base % 2 ^ sz = 0 ∧ base ≤ a ∧ a + n ≤ base + 2 ^ sz ∧ (coll w → ∀ v < w, ¬ (on v ∧ coll v))

/-- R515: the first window that holds a request decides it. -/
def State.WindowFor (s : State) (k w a n : Nat) : Prop := s.WindowHolds k w a n ∧ ∀ v < w, ¬ s.WindowHolds k v a n

end Sys2Proof.Machine

open Sys2Proof Sys2Proof.Machine in
/-- R499, R500, R501, R504, R506, R507, R508, R509, R510, R511: the part as requester of an upstream port. A source that fires makes its enabled
route pending; the route sends its vector's message once its entries are written and its gap has passed, or sets the pending bit. A request that times
out, not before its time, is quarantined for as long and ends its operation; completions deliver, fail or are unexpected, by the state of their request. An invalidation removes the
translations it matches. BME, FLR and a fundamental reset stop a function, an FLR leaving what is sticky (log 30). (Which tag is taken is the model's choice, log 31.) -/
def Obligations.UpstreamPortsRequestAndReset : Prop :=
  ∀ (s : State) (g : Agent) (p : Fin 2) (fn : Fin 257) (source : BitVec 4) (src : Fin 13328) (tag status addr size a : Nat) (bs : List Byte)
      (ep rd w : Bool) (r : HostReq) (o : HostOp),
    let n := p.val
    let f := fn.val
    let c := upCell n
    let x := s.route src.val
    let port := s.fld F.PCI_IRQ_ROUTEs_PORT pciCell src.val
    let rf := s.fld F.PCI_IRQ_ROUTEs_FN pciCell src.val
    let vec := s.fld F.PCI_IRQ_ROUTEs_VECTOR pciCell src.val
    let on := s.flag F.PCI_IRQ_ROUTEs_EN pciCell src.val
    let held := (∃ o ∈ s.pci.ops, o.id ∈ x.waits) ∨ ∃ t, x.last = some t ∧ s.now < t + 1000 * s.fld F.PCI_IRQ_ROUTEs_COAL_US pciCell src.val
    let known := s.fnExists port rf = true ∧ vec < (if rf = 0 then 2048 else 64)
    let table := fun (d : Nat) => (smapGet msixReset (s.pciFn port rf).msix (4 * vec + d)).toNat
    let sends := s.msixOn port rf = true ∧ table 3 % 2 = 0 ∧ s.fnBme port rf = true ∧ s.fnFlr port rf = false
    let byUnit := (∀ port v map line, o.purpose ≠ .dirtyRead port v map line) ∧ ∀ port v map line, o.purpose ≠ .dirtyWrite port v map line
    let mine := s.pci.ops.find? (fun q => q.id == o.id) = some o
    let fnStopped := fun (u : State) (m : Nat) => u.fnFlr n m = true ∧ u.fnBme n m = false ∧ (u.pciFn n m).msix = [] ∧ (u.pciFn n m).pba = [] ∧
      (∀ off, stickyBits m off = 0 → u.cfg n m off = (cfgDword n m off).reset % 2 ^ 32) ∧ u.reg .PCI_FNf_DMA c m = 0 ∧
      u.bitAt (0x40021080 + n) = true ∧ (∀ k, u.reg .PCI_BAR4_SEGn c k = s.reg .PCI_BAR4_SEGn c k) ∧ u.reg .PCI_WIN c = s.reg .PCI_WIN c ∧
      (∀ q < 4096, s.catOwnedBy q n m = true → s.catResetting q = false → u.catResetting q = true ∧ u.catEn q = false ∧
        (u.catQueue q).cmds = [] ∧ u.fld F.CAT_Qq_PTR_CQ_TAIL catCell q = s.fld F.CAT_Qq_PTR_CQ_TAIL catCell q) ∧
      ∀ q ∈ u.pci.ops, ¬ (q.port = n ∧ q.fn = m)
    (s.Writable g .PCI_IRQ_RAISE pciCell 0 source.toNat → ∃ t, exec (.irqRaise g source) s = .next t ∧ t.regs = s.regs ∧ MemKept s t ∧
      ((t.route (13312 + source.toNat)).pending = true ↔ (s.route (13312 + source.toNat)).pending = true ∨
        s.flag F.PCI_IRQ_ROUTEs_EN pciCell (13312 + source.toNat) = true)) ∧
    (s.stopped = false →
      (x.pending = false ∨ on = false → exec (.msixSend src) s = .next s.tidy) ∧
      (x.pending = true → on = true → ¬ known → ∃ u : State, exec (.msixSend src) s = .next u.tidy ∧ (u.route src.val).pending = false ∧
        u.pci.sent = s.pci.sent ∧ u.regs = s.regs) ∧
      (x.pending = true → on = true → known → held → exec (.msixSend src) s = .next s.tidy) ∧
      (x.pending = true → on = true → known → ¬ held → ∃ u : State, exec (.msixSend src) s = .next u.tidy ∧
        (u.route src.val).pending = false ∧ (u.route src.val).last = some s.now ∧ u.regs = s.regs ∧
        (sends → ∃ t, u.pci.sent = s.pci.sent ++ [t] ∧ t.port = port ∧ t.fn = rf ∧ t.kind = .interrupt ∧ t.addr = table 0 + 2 ^ 32 * table 1 ∧
          leNat t.bytes = table 2) ∧
        (¬ sends → u.pci.sent = s.pci.sent ∧ smapGet (fun _ => false) (u.pciFn port rf).pba vec = true)) ∧
      (s.ReqIs n tag r → r.state = .live ∨ r.state = .discard → r.since + s.timeoutOf n ≤ s.now →
        ∃ u : State, exec (.completionTimeout ⟨n, by omega⟩ tag) s = .next u.pciePump.settle.tidy ∧
        u.ReqIs n tag { r with state := .quarantine, since := s.now } ∧ s.AerLogs u n r.fn 14 7 ∧
        (r.state = .live → r.translate = false → mine → o.id = r.op → byUnit →
          (∀ q ∈ u.pci.ops, q.id ≠ r.op) ∧ { purpose := o.purpose, ok := false, timeout := true } ∈ u.pci.finished)) ∧
      ((∀ r, s.ReqIs n tag r → r.state = .quarantine ∨ r.state = .oldGen ∨ s.now < r.since + s.timeoutOf n) → exec (.completionTimeout ⟨n, by omega⟩ tag) s = .next s.settle.tidy) ∧
      (s.ReqIs n tag r → (r.state = .quarantine ∧ r.since + s.timeoutOf n ≤ s.now) ∨ (r.state = .oldGen ∧ r.stopped.getD r.since + s.timeoutOf n ≤ s.now) →
        ∃ u : State, exec (.tagQuarantineEnd p tag) s = .next u.pciePump.pciePump.tidy ∧ u.regs = s.regs ∧ ∀ q, q ∈ u.pci.reqs ↔ q ∈ s.pci.reqs ∧ ¬ (q.port = n ∧ q.tag = tag)) ∧
      ((∀ r, s.ReqIs n tag r → (r.state = .quarantine → s.now < r.since + s.timeoutOf n) ∧ (r.state = .oldGen → s.now < r.stopped.getD r.since + s.timeoutOf n)) →
        exec (.tagQuarantineEnd p tag) s = .next s.pciePump.tidy) ∧
      (let cpl := exec (.pcieCompletionReceive p tag status (.data bs) ep) s
       let dropped := fun (u : State) => ∀ q, q ∈ u.pci.reqs ↔ q ∈ s.pci.reqs ∧ ¬ (q.port = n ∧ q.tag = tag)
       ((∀ r, ¬ s.ReqIs n tag r) → ∃ u : State, cpl = .next u.tidy ∧ s.AerLogs u n 0 16 6 ∧ u.pci.reqs = s.pci.reqs ∧ u.pci.ops = s.pci.ops) ∧
       (s.ReqIs n tag r → r.state = .quarantine → ∃ u : State, cpl = .next u.tidy ∧ s.AerLogs u n r.fn 16 6 ∧ u.pci.reqs = s.pci.reqs ∧
         u.pci.ops = s.pci.ops) ∧
       (s.ReqIs n tag r → r.state = .oldGen ∨ r.state = .discard → ∃ u : State, cpl = .next u.pciePump.tidy ∧ dropped u ∧ u.pci.ops = s.pci.ops ∧
         u.regs = s.regs) ∧
       (s.ReqIs n tag r → r.state = .live → r.translate = false → status ≠ 0 → mine → o.id = r.op → byUnit →
         ∃ u : State, cpl = .next u.pciePump.tidy ∧ { purpose := o.purpose, ok := false } ∈ u.pci.finished ∧ ∀ q ∈ u.pci.ops, q.id ≠ r.op) ∧
       (s.ReqIs n tag r → r.state = .live → r.translate = false → status = 0 → mine → o.id = r.op → byUnit → r.off = 0 → r.len = bs.length →
         o.len = bs.length → o.pos = bs.length → (∀ q ∈ s.pci.reqs, q.op = o.id → q.state = .live → q.translate = true ∨ (q.port = n ∧ q.tag = tag)) →
         ∃ u : State, cpl = .next u.pciePump.tidy ∧ { purpose := o.purpose, ok := true, bytes := bs, poison := o.poison || ep } ∈ u.pci.finished ∧
           (∀ q ∈ u.pci.ops, q.id ≠ r.op) ∧ (ep = true → bitsOf (u.cfg n r.fn 0x104) 12 12 = 1)) ∧
       (s.ReqIs n tag r → r.state = .live → r.translate = true → r.stale = false →
         (s.pci.cache.filter fun q => q.1 == n).length < 4096 → 12 ≤ size → size ≤ 30 →
         ∃ u : State, exec (.pcieCompletionReceive p tag 0 (.translation a size rd w) ep) s = .next u.pciePump.tidy ∧ dropped u ∧
           u.pci.cache = s.pci.cache ++ [(n, ⟨r.fn, r.addr, size, a, rd, w⟩)])) ∧
      (s.fnExists n f = true → ∃ u : State, exec (.atsInvalidation p fn addr size) s = .next u.tidy ∧
        (∀ q, q ∈ u.pci.cache ↔ q ∈ s.pci.cache ∧ ¬ (q.1 = n ∧ q.2.fn = f ∧ addr / 2 ^ max size q.2.size = q.2.bus / 2 ^ max size q.2.size)) ∧
        (∀ q ∈ u.pci.reqs, q.translate = true → q.port = n → q.fn = f → addr / 2 ^ max size 12 = q.addr / 2 ^ max size 12 → q.stale = true) ∧
        ∃ t, u.pci.sent = s.pci.sent ++ [t] ∧ t.kind = .invalidated ∧ t.fn = f) ∧
      (s.fnExists n f = false → exec (.atsInvalidation p fn addr size) s = .next s.tidy ∧ exec (.flrStart p fn) s = .next s.tidy) ∧
      (s.fnBme n f = true → ∃ u : State, exec (.bmeClear p fn) s = .next ((u.catFnLost n f).settle).tidy ∧ u.fnBme n f = false ∧ u.bitAt (0x40021082 + n) = true ∧
        bitsOf (u.cfg n f 0x04) 2 2 = 0 ∧ ∀ q ∈ u.pci.ops, q.port = n → q.fn = f → q.purpose.waits = true) ∧
      (s.fnBme n f = false → exec (.bmeClear p fn) s = .next s.tidy) ∧
      (s.fnBme n f = false → s.fnExists n f = true → s.fnFlr n f = false → ∃ u : State,
        exec (.bmeSet p fn) s = .next (u.pciePump.msixFlush n f).tidy ∧ u.fnBme n f = true ∧ u.bitAt (0x40021082 + n) = true ∧
        bitsOf (u.cfg n f 0x04) 2 2 = 1 ∧ u.pci.ops = s.pci.ops) ∧
      (s.fnBme n f = true ∨ s.fnExists n f = false ∨ s.fnFlr n f = true → exec (.bmeSet p fn) s = .next s.tidy) ∧
      (s.fnExists n f = true → s.fnFlr n f = false → ∃ u : State, fnStopped u f ∧
        exec (.flrStart p fn) s = .next ((if f = 0 then u.vfsFollow n else u.vfShutdown n (f - 1)).settle).tidy) ∧
      (s.fnFlr n f = true → exec (.flrStart p fn) s = .next s.tidy) ∧
      (s.fnFlr n 0 = true → ∃ u : State, exec (.flrComplete p 0) s = .next u.tidy ∧ u.fnFlr n 0 = false ∧
        u.fld F.PCI_FNf_STATUS_FGEN c 0 = (s.fld F.PCI_FNf_STATUS_FGEN c 0 + 1) % 65536 ∧
        ∀ q ∈ u.pci.reqs, q.port = n → q.fn = 0 → q.state ≠ .live ∧ q.state ≠ .discard) ∧
      (s.fnFlr n f = true → f ≠ 0 → ∃ u : State, u.regs = (s.setFlag F.PCI_FNf_STATUS_FLR_BUSY c false f).regs ∧ u.pci = s.pci ∧
        exec (.flrComplete p fn) s = .next (u.vfShutdownDone n (f - 1)).tidy) ∧
      (s.fnFlr n f = false → exec (.flrComplete p fn) s = .next s.tidy) ∧
      (s.fnExists n 0 = true → s.fnFlr n 0 = false → (∀ v < 256, s.fnExists n (v + 1) = false) → ∃ u y : State, fnStopped u 0 ∧
        y = ((u.vfsFollow n).settle).setLink n false 0 0 false ∧ y.flag F.PCI_UP_STATUS_LINK_UP c = false ∧
        exec (.upstreamFundamentalReset p) s = .next (y.setPci { y.pci with retrain := if y.pci.retrain.contains n then y.pci.retrain else n :: y.pci.retrain }).tidy))

open Sys2Proof Sys2Proof.Machine in
/-- R486, R494, R495, R497, R498, R512, R515, R516, R517, R518, R519, R520: windows, links and the ports below. A doorbell writes the RW fields of
the 32 bits it names, for a Catalogue queue only where the function owns it. A BAR4 write reaches the memory its segment maps. A function that
does not decode its BARs answers Unsupported Request. A link follows its partner, at a rate and width the port has, while the port may link. The first enabled window that holds a request from below decides it: memory is written or read, or the request is
refused with the outcome of R516. Containment holds the link down until released, and takes nothing. -/
def Obligations.WindowsLinksAndDownstreamPorts : Prop :=
  ∀ (s : State) (p : Fin 2) (k : Fin 24) (j : Fin 26) (q : Fin 4096) (value data : BitVec 32) (status : BitVec 3) (bs : List Byte)
      (ep flit on : Bool) (w a off : Nat) (speed : BitVec 4) (width : BitVec 6) (words : List Word32),
    let n := p.val
    let m := k.val
    let dp := 2 + m
    let c := downCell m
    let v := value.toNat
    let contained := fun (u : State) => bitsOf (u.cfg dp 0 0x158) 0 0 = 1
    let linked := fun (u : State) => bitsOf (u.cfg dp 0 0x70) 29 29 = 1
    let trips := fun (u : State) => contained u ∧ ¬ linked u ∧ u.bitAt (0x40021020 + m) = true
    (s.stopped = false →
      (s.fnAwake n 0 = true →
        let rings := fun (i : Instr) (u : State) (r : RegId) (cell : Nat) => exec i s = .next u.tidy ∧ RegsKept s u [regAddr r cell q.val] ∧ u.mem = s.mem
        (s.catOwnedBy q.val n 0 = true →
          (∃ u, rings (.pfDoorbellWrite p (4096 * q.val) value) u .CAT_Qq_PTR catCell ∧ u.fld F.CAT_Qq_PTR_SQ_TAIL catCell q.val = v % 65536 ∧
            ∀ x ∈ [F.CAT_Qq_PTR_SQ_HEAD, F.CAT_Qq_PTR_CQ_HEAD, F.CAT_Qq_PTR_CQ_TAIL], u.fld x catCell q.val = s.fld x catCell q.val) ∧
          (∃ u, rings (.pfDoorbellWrite p (4096 * q.val + 4) value) u .CAT_Qq_PTR catCell ∧ u.fld F.CAT_Qq_PTR_CQ_HEAD catCell q.val = v % 65536 ∧
            ∀ x ∈ [F.CAT_Qq_PTR_SQ_HEAD, F.CAT_Qq_PTR_SQ_TAIL, F.CAT_Qq_PTR_CQ_TAIL], u.fld x catCell q.val = s.fld x catCell q.val)) ∧
        (s.catOwnedBy q.val n 0 = false → ∀ d ∈ [0, 4], ∃ u : State, exec (.pfDoorbellWrite p (4096 * q.val + d) value) s = .next u.tidy ∧
          u.regs = s.regs ∧ u.mem = s.mem) ∧
        (s.flag F.TRN_SQq_CFG_POLL trnCell q.val = false → ∃ u, rings (.pfDoorbellWrite p (0x1000000 + 4096 * q.val) value) u .TRN_SQq_PTR trnCell ∧
          u.fld F.TRN_SQq_PTR_TAIL trnCell q.val = v % 65536) ∧
        (∃ u, rings (.pfDoorbellWrite p (0x2000000 + 4096 * q.val) value) u .TRN_CQq_PTR trnCell ∧ u.fld F.TRN_CQq_PTR_HEAD trnCell q.val = v % 65536) ∧
        (∃ u, rings (.pfDoorbellWrite p (0x3000000 + 4096 * q.val) value) u .SPG_RXQq_PTR spgCell ∧ u.fld F.SPG_RXQq_PTR_TAIL spgCell q.val = v % 65536) ∧
        (q.val < 1024 → s.flag F.SHT_TXRr_CFG_POLL shtCell q.val = false → ∃ u, rings (.pfDoorbellWrite p (0x4000000 + 4096 * q.val) value) u .SHT_TXRr_PTR shtCell ∧
          u.fld F.SHT_TXRr_PTR_TAIL shtCell q.val = v % 65536) ∧
        (off / 4096 < 0x5000 → off % 4096 ≠ 0 → off % 4096 ≠ 4 → exec (.pfDoorbellWrite p off value) s = .next s.tidy) ∧
        (let seg := off / 2 ^ 32
         let d := 2 ^ 32 * s.fld F.PCI_BAR4_SEGn_BASE (upCell n) seg + off % 2 ^ 32
         let mapped := seg < 16 ∧ s.flag F.PCI_BAR4_SEGn_EN (upCell n) seg = true
         (mapped → bs ≠ [] → s.PlainMemory → s.AtHand d bs.length → ∃ u : State, exec (.bar4Write p off bs ep) s = .next u.tidy ∧
           (∀ z, u.byte z = if d ≤ z ∧ z < d + bs.length then bs.getD (z - d) 0 else s.byte z) ∧
           (ep = true → ∀ z, d ≤ z → z < d + bs.length → (u.readLine (lineOf z) false).poison = true)) ∧
         (¬ mapped → ep = false → ∃ u : State, exec (.bar4Write p off bs ep) s = .next u.tidy ∧ u.mem = s.mem ∧
           (s.flag F.CELL_ERR_STATUS_VALID (upCell n) = false → u.fld F.CELL_ERR_STATUS_CLASS (upCell n) = 1)))) ∧
      (s.fnFlr n 0 = true → exec (.pfDoorbellWrite p off value) s = .next s.tidy ∧ exec (.bar4Write p off bs ep) s = .next s.tidy) ∧
      (s.fnFlr n 0 = false → s.fnAwake n 0 = false → ∀ i ∈ [Instr.pfDoorbellWrite p off value, .bar4Write p off bs ep], ∃ u : State,
        exec i s = .next u.tidy ∧ s.AerLogs u n 0 20 6 ∧ u.mem = s.mem) ∧
      (trains j.val speed.toNat width.toNat = false → exec (.pcieLinkChange j true speed width flit) s = .next s.tidy) ∧
      (s.mayLink n = true → s.cellState (upCell n) = 3 → trains n speed.toNat width.toNat = true → ∃ u : State, exec (.pcieLinkChange ⟨n, by omega⟩ true speed width flit) s = .next u.tidy ∧
        u.flag F.PCI_UP_STATUS_LINK_UP (upCell n) = true ∧ u.flag F.PCI_UP_STATUS_FLIT (upCell n) = (flit || decide (speed.toNat = 6)) ∧
        u.fld F.PCI_UP_STATUS_SPEED (upCell n) = speed.toNat % 8 ∧ u.fld F.PCI_UP_STATUS_WIDTH (upCell n) = width.toNat % 32 ∧
        (s.flag F.PCI_UP_STATUS_LINK_UP (upCell n) = false → u.bitAt (0x40021000 + n) = true)) ∧
      (∃ u : State, exec (.pcieLinkChange ⟨n, by omega⟩ false speed width flit) s = .next u.tidy ∧
        u.flag F.PCI_UP_STATUS_LINK_UP (upCell n) = false ∧ u.fld F.PCI_UP_STATUS_SPEED (upCell n) = 0) ∧
      (s.mayLink j.val = false → exec (.pcieLinkChange j true speed width flit) s = .next s.tidy) ∧
      (s.mayLink dp = true → s.cellState c = 3 → ¬ contained s → trains dp speed.toNat width.toNat = true → bitsOf (s.cfg dp 0 0x70) 4 4 = 0 →
        bitsOf (s.cfg dp 0 0x3C) 22 22 = 0 → ∃ u : State,
        exec (.pcieLinkChange ⟨dp, by omega⟩ true speed width flit) s = .next u.tidy ∧ linked u ∧
        bitsOf (u.cfg dp 0 0x70) 19 16 = speed.toNat ∧ bitsOf (u.cfg dp 0 0x70) 25 20 = width.toNat ∧
        (¬ linked s → u.bitAt (0x40021000 + dp) = true)) ∧
      (linked s → ¬ contained s → ∃ u : State, trips u ∧
        exec (.pcieLinkChange ⟨dp, by omega⟩ false speed width flit) s = .next (((u.movPortLost dp).catPortLost dp).settle).tidy) ∧
      (¬ linked s ∨ contained s → exec (.pcieLinkChange ⟨dp, by omega⟩ false speed width flit) s = .next s.tidy) ∧
      (let en := bitsOf (s.cfg dp 0 0x154) 17 16
       ∀ cause : DpcCause, let takes := cause = .surpriseDown ∨ en = 2 ∨ (en = 1 ∧ cause ≠ .errNonfatal)
        (s.dpUp dp = true → takes → ∃ u : State, trips u ∧ exec (.dpcTrigger k cause) s = .next (((u.movPortLost dp).catPortLost dp).settle).tidy) ∧
        (s.dpUp dp = true → ¬ takes → ∃ u : State, exec (.dpcTrigger k cause) s = .next u.tidy ∧ u.dpUp dp = true) ∧
        (s.dpUp dp = false → exec (.dpcTrigger k cause) s = .next s.tidy)) ∧
      (let was := bitsOf (s.cfg dp 0 0x78) 22 22 = 1
       ((was ↔ on = true) → exec (.presenceChange k on) s =
         .next { s with power := { s.power with inputs := putBits s.power.inputs (8 + m) (8 + m) on.toNat } }.tidy) ∧
       (¬ (was ↔ on = true) → on = true ∨ ¬ linked s → ∃ u : State, exec (.presenceChange k on) s = .next u.tidy ∧
         (bitsOf (u.cfg dp 0 0x78) 22 22 = 1 ↔ on = true) ∧ u.bitAt (0x40021040 + m) = true) ∧
       (was → on = false → linked s → ¬ contained s → ∃ u : State, trips u ∧ u.bitAt (0x40021040 + m) = true ∧
         exec (.presenceChange k on) s = .next (((u.movPortLost dp).catPortLost dp).settle).tidy)) ∧
      (let bit := fun (e : LinkError) => match e with
         | .malformed => 18 | .flowControl => 13 | .dataLink => 4 | _ => 19
       (∀ e ∈ [LinkError.ecrc, .malformed, .flowControl, .dataLink], ∃ u : State, exec (.pcieLinkError ⟨n, by omega⟩ e words) s = .next u.tidy ∧
         s.AerLogs u n 0 (bit e) 9 ∧ u.mem = s.mem) ∧
       (∀ e ∈ [(LinkError.receiver, 0), (.badTlp, 6), (.badDllp, 7), (.replayRollover, 8), (.replayTimeout, 12)], ∃ u : State,
         exec (.pcieLinkError ⟨n, by omega⟩ e.1 words) s = .next u.tidy ∧ bitsOf (u.cfg n 0 0x110) e.2 e.2 = 1 ∧ u.regs = s.regs ∧ u.mem = s.mem)) ∧
      (s.dpUp dp = false → (∀ h ∈ s.pci.held, h.1 ≠ m) → ∀ r, exec (.inboundRequest k r) s = .next s.tidy) ∧
      (s.dpUp dp = true → (∀ h ∈ s.pci.held, h.1 ≠ m) →
        let win := fun (len : Nat) => s.WindowFor m w a len ∧ s.flag F.PCI_DP_INWw_BUS_COLL c w = false
        let may := fun (r : Bool) => s.flag (if r then F.PCI_DP_INWw_BUS_R else F.PCI_DP_INWw_BUS_W) c w = true
        let d := 4096 * s.fld F.PCI_DP_INWw_MAP_DEV_BASE c w + (a - 4096 * s.fld F.PCI_DP_INWw_BUS_BUS_BASE c w)
        let up := fun (len : Nat) => s.PlainMemory ∧ s.AtHand d len ∧ len ≠ 0
        let out := fun (u : State) (st : Nat) => ∃ t, t.port = dp ∧ t.kind = .completion st ∧ u.pci.sent.getLast? = some t ∧
          u.pci.sent.length = s.pci.sent.length + 1
        let len := data.toNat
        (win bs.length → may false → up bs.length → ∃ u : State, exec (.inboundRequest k (.write a bs ep)) s = .next u.tidy ∧
          (∀ z, u.byte z = if d ≤ z ∧ z < d + bs.length then bs.getD (z - d) 0 else s.byte z) ∧
          (ep = true → ∀ z, d ≤ z → z < d + bs.length → (u.readLine (lineOf z) false).poison = true)) ∧
        (win len → may true → up len → ∃ (u : State) (t : Tlp), exec (.inboundRequest k (.read a len)) s = .next u.tidy ∧ u.mem = s.mem ∧
          u.pci.sent = s.pci.sent ++ [t] ∧ t.port = dp ∧ t.kind = .completion 0 ∧ t.bytes = s.bytes d len ∧ t.ep = false) ∧
        (win bs.length → ¬ may false ∨ (may false ∧ extentMapped d bs.length = false) → ∃ u : State,
          exec (.inboundRequest k (.write a bs ep)) s = .next u.tidy ∧ s.AerLogs u dp 0 20 6 ∧ u.mem = s.mem ∧ u.bitAt (0x40021060 + m) = true) ∧
        (win len → ¬ may true ∨ (may true ∧ extentMapped d len = false) → ∃ u : State, exec (.inboundRequest k (.read a len)) s = .next u.tidy ∧
          s.AerLogs u dp 0 20 6 ∧ u.mem = s.mem ∧ out u 1) ∧
        ((∀ w, ¬ s.WindowFor m w a len) → ∃ u : State, exec (.inboundRequest k (.read a len)) s = .next u.tidy ∧ s.AerLogs u dp 0 20 6 ∧
          u.mem = s.mem ∧ out u 1) ∧
        (∃ u : State, exec (.inboundRequest k (.atomic a)) s = .next u.tidy ∧ s.AerLogs u dp 0 20 6 ∧ u.mem = s.mem ∧ out u 1) ∧
        (win len → may true → extentMapped d len = true → s.ringTouched d len = none → touchesReserve d len = false → s.memUp d len = false →
          ∃ u : State, exec (.inboundRequest k (.read a len)) s = .next u.tidy ∧ u.mem = s.mem ∧ out u 4 ∧
            (s.flag F.CELL_ERR_STATUS_VALID c = false → u.fld F.CELL_ERR_STATUS_CLASS c = 6)) ∧
        (s.WindowFor m w a len → s.flag F.PCI_DP_INWw_BUS_COLL c w = true → ∃ u : State, exec (.inboundRequest k (.read a len)) s = .next u.tidy ∧
          bitsOf (u.cfg dp 0 0x104) 20 20 = 1 ∧ u.mem = s.mem ∧ out u 1 ∧
          u.flag F.CELL_ERR_STATUS_VALID c = s.flag F.CELL_ERR_STATUS_VALID c) ∧
        (s.WindowFor m w a bs.length → s.flag F.PCI_DP_INWw_BUS_COLL c w = true →
          s.bindAt m (a - 4096 * s.fld F.PCI_DP_INWw_BUS_BUS_BASE c w) = none →
          ∃ u : State, exec (.inboundRequest k (.write a bs ep)) s = .next u.tidy ∧ s.AerLogs u dp 0 20 6 ∧ u.mem = s.mem ∧ u.col = s.col))) ∧
    (∀ y : Fin 8, s.stopped = false →
      (let code := if contained s then 4 else if s.dpUp dp = false then 1 else min 5 status.toNat
       ∃ t, exec (.dpCfgDataAccess (.firmware y) k false value status data) s = .next t ∧ t.fld F.PCI_DP_CFG_ADDR_STATUS c = code ∧
         t.reply = (if code = 0 then BitVec.ofNat 64 data.toNat else 0xFFFFFFFF) ∧ t.mem = s.mem) ∧
      (s.dpUp dp = true → ∃ t x, exec (.dpCfgDataAccess (.firmware y) k true value status data) s = .next t ∧
        t.fld F.PCI_DP_CFG_ADDR_STATUS c = min 5 status.toNat ∧ x ∈ t.pci.sent ∧ x.port = dp ∧ x.kind = .configWrite ∧ leNat x.bytes = v ∧
        x.addr = (s.reg .PCI_DP_CFG_ADDR c).toNat % 2 ^ 28) ∧
      (∃ t, exec (.dpcRelease (.firmware y) k) s = .next t ∧ ¬ contained t ∧ (linked t ↔ linked s) ∧ t.mem = s.mem))

open Sys2Proof Sys2Proof.Machine in
/-- R525, R526, R529, R530, R531, R532, R534, R535, R537, R538: virtual functions. EN written 0 to an ENABLED VF begins its shutdown: its requests
end, its Catalogue queues reset without records, and the queues of its page map that were enabled are recorded and cleared. At completion GEN and
FGEN are one more and the MSI-X table is reset. ENABLED again, the recorded queues are enabled. A doorbell page acts by its KIND and checks while the
VF is ENABLED; a MEMORY page writes device memory where W is 1. SWAP makes the other bitmap active; LOG_EN starts with bitmap A and stops once the
bitmap lines are written. -/
def Obligations.VirtualFunctionsRunAndMigrate : Prop :=
  ∀ (s : State) (g : Agent) (p : Fin 2) (v page : Fin 256) (off : BitVec 12) (bs : List Byte) (ep : Bool),
    let n := p.val
    let c := upCell n
    let f := v.val + 1
    let x := s.vf n v.val
    let gen := s.fld F.PCI_FNf_STATUS_FGEN c f
    let may := fun (m : Nat) => s.Writable g .PCI_VFv_CTRL c v.val m
    let w := fun (k : Fin 256) => (s.reg .PCI_VFv_PAGEp c (256 * v.val + k.val)).toNat
    let enabled := fun (t : State) (q : Nat × Nat) => if q.1 = 1 then t.catEn q.2 = true
      else if q.1 = 2 then t.flag F.TRN_SQq_CFG_EN trnCell q.2 = true
      else if q.1 = 4 then t.flag F.SPG_RXQq_CFG_EN spgCell q.2 = true else t.flag F.SHT_TXRr_CFG_EN shtCell q.2 = true
    let written := fun (k : Nat) (u : State) => exec (if k = 1 then .vfEnable g p v else .vfShutdown g p v) s = .next u.settle.noteLevels
    (may 0 → s.vfState n v.val = 3 → ∃ u : State, exec (.vfShutdown g p v) s = .next u.settle.settle.noteLevels ∧ u.vfEn n v.val = false ∧
      u.vfBusy n v.val = true ∧ u.vfState n v.val = 1 ∧ (∀ o ∈ u.pci.ops, ¬ (o.port = n ∧ o.fn = f)) ∧
      (∀ q, q ∈ (u.vf n v.val).recorded ↔ enabled s q ∧ ((q.1 = 1 ∧ q.2 ∈ s.catEnQueues ∧ s.catOwnedBy q.2 n f = true) ∨
        (q.1 ∈ [2, 4, 5] ∧ (q.1 = 5 → q.2 < 1024) ∧ ∃ k, bitsOf (w k) 3 0 = q.1 ∧ bitsOf (w k) 27 16 = q.2))) ∧
      (∀ q ∈ (u.vf n v.val).recorded, q.1 ≠ 1 → ¬ enabled u q) ∧
      (∀ q < 4096, s.catOwnedBy q n f = true → s.catResetting q = false → u.catResetting q = true ∧ (u.catQueue q).cmds = [] ∧
        u.fld F.CAT_Qq_PTR_CQ_TAIL catCell q = s.fld F.CAT_Qq_PTR_CQ_TAIL catCell q)) ∧
    (may 0 → s.vfState n v.val ≠ 3 → ∃ u : State, written 0 u ∧ u.vfEn n v.val = false ∧ RegsKept s u [regAddr .PCI_VFv_CTRL c v.val] ∧ u.pci = s.pci) ∧
    (may 1 → s.vfState n v.val = 0 → s.enabled c = true → s.fnExists n f = true → (∀ q ∈ x.recorded, q.1 ∈ [1, 2, 4, 5] ∧ q.2 < (if q.1 = 5 then 1024 else 4096)) →
      ∃ u : State, written 1 u ∧ u.vfState n v.val = 3 ∧ (u.vf n v.val).recorded = [] ∧ ∀ q ∈ x.recorded, enabled u q) ∧
    (may 1 → s.vfState n v.val = 1 → ∃ u : State, written 1 u ∧ u.vfState n v.val = 2 ∧ u.pci = s.pci) ∧
    (s.stopped = false →
      (s.vfBusy n v.val = true → s.vfEn n v.val = false → ∃ u : State, exec (.vfShutdownComplete p v) s = .next u.tidy ∧ u.vfState n v.val = 0 ∧
        u.fld F.PCI_FNf_STATUS_FGEN c f = (gen + 1) % 65536 ∧ u.fld F.PCI_VFv_STATE_GEN c v.val = (gen + 1) % 65536 ∧ (u.pciFn n f).msix = [] ∧
        u.vf n v.val = x ∧ ∀ r ∈ u.pci.reqs, r.port = n → r.fn = f → r.state ≠ .live ∧ r.state ≠ .discard) ∧
      (s.vfBusy n v.val = true → s.vfEn n v.val = true → s.enabled c = true → s.fnExists n f = true → x.recorded = [] →
        ∃ u : State, exec (.vfShutdownComplete p v) s = .next u.tidy ∧ u.vfState n v.val = 3 ∧ u.fld F.PCI_FNf_STATUS_FGEN c f = (gen + 1) % 65536) ∧
      (s.vfBusy n v.val = false → exec (.vfShutdownComplete p v) s = .next s.tidy) ∧
      (let kind := bitsOf (w page) 3 0
       let i := bitsOf (w page) 27 16
       let d := bitsOf (w page) 63 28 * 4096 + off.toNat
       let run := exec (.vfDoorbellWrite p v page off bs ep) s
       let val := leNat bs % 65536
       let rings := fun (u : State) (r : RegId) (cell : Nat) => run = .next u.tidy ∧ RegsKept s u [regAddr r cell i] ∧ u.mem = s.mem
       (s.fnExists n f = false ∨ s.fnFlr n f = true → run = .next s.tidy) ∧
       (s.fnExists n f = true → s.fnFlr n f = false → s.fnAwake n f = false → ∃ u : State, run = .next u.tidy ∧ s.AerLogs u n f 20 6 ∧ u.mem = s.mem) ∧
       (s.fnAwake n f = true → kind = 0 ∨ 7 ≤ kind ∨ (kind ≠ 6 ∧ s.vfState n v.val ≠ 3) → run = .next s.tidy) ∧
       (s.fnAwake n f = true → kind = 6 → bitsOf (w page) 4 4 = 0 → ∃ u : State, run = .next u.tidy ∧ u.mem = s.mem ∧ u.regs = s.regs) ∧
       (s.fnAwake n f = true → kind = 6 → bitsOf (w page) 4 4 = 1 → bs ≠ [] → s.PlainMemory → s.AtHand d bs.length → ∃ u : State, run = .next u.tidy ∧
         ∀ z, u.byte z = if d ≤ z ∧ z < d + bs.length then bs.getD (z - d) 0 else s.byte z) ∧
       (s.fnAwake n f = true → s.vfState n v.val = 3 → bs.length = 4 →
         (kind = 1 → off = 0 ∨ off = 4 → s.catOwnedBy i n f = false → ∃ u : State, run = .next u.tidy ∧ u.regs = s.regs ∧ u.mem = s.mem) ∧
         (kind = 1 → off = 0 → s.catOwnedBy i n f = true → ∃ u : State, rings u .CAT_Qq_PTR catCell ∧ u.fld F.CAT_Qq_PTR_SQ_TAIL catCell i = val) ∧
         (kind = 1 → off = 4 → s.catOwnedBy i n f = true → ∃ u : State, rings u .CAT_Qq_PTR catCell ∧ u.fld F.CAT_Qq_PTR_CQ_HEAD catCell i = val) ∧
         (kind = 2 → off = 0 → s.fld F.TRN_SQq_CFG_PD trnCell i ≠ s.fld F.PCI_VFv_PROV_PD c v.val →
           ∃ u : State, run = .next u.tidy ∧ u.regs = s.regs ∧ u.mem = s.mem) ∧
         (kind = 2 → off = 0 → s.fld F.TRN_SQq_CFG_PD trnCell i = s.fld F.PCI_VFv_PROV_PD c v.val → s.flag F.TRN_SQq_CFG_POLL trnCell i = false →
           ∃ u : State, rings u .TRN_SQq_PTR trnCell ∧ u.fld F.TRN_SQq_PTR_TAIL trnCell i = val) ∧
         (kind = 3 → off = 0 → ∃ u : State, rings u .TRN_CQq_PTR trnCell ∧ u.fld F.TRN_CQq_PTR_HEAD trnCell i = val) ∧
         (kind = 4 → off = 0 → ∃ u : State, rings u .SPG_RXQq_PTR spgCell ∧ u.fld F.SPG_RXQq_PTR_TAIL spgCell i = val) ∧
         (kind = 5 → off = 0 → i < 1024 → s.flag F.SHT_TXRr_CFG_POLL shtCell i = false →
           ∃ u : State, rings u .SHT_TXRr_PTR shtCell ∧ u.fld F.SHT_TXRr_PTR_TAIL shtCell i = val))) ∧
      (let busy := s.flag F.PCI_VFv_DIRTY_CTRL_SWAP_BUSY c v.val = true
       let left := s.dirtyLeft n v.val (1 - s.fld F.PCI_VFv_DIRTY_CTRL_ACTIVE c v.val) = true
       (busy → ¬ left → ∃ u : State, exec (.dirtySwapComplete p v) s = .next u.tidy ∧ u.flag F.PCI_VFv_DIRTY_CTRL_SWAP_BUSY c v.val = false ∧
         RegsKept s u [regAddr .PCI_VFv_DIRTY_CTRL c v.val] ∧ u.pci = s.pci) ∧
       (¬ busy ∨ left → exec (.dirtySwapComplete p v) s = .next s.tidy))) ∧
    (let log := s.flag F.PCI_VFv_DIRTY_CTRL_LOG_EN c v.val
     let busy := s.flag F.PCI_VFv_DIRTY_CTRL_SWAP_BUSY c v.val
     let active := s.fld F.PCI_VFv_DIRTY_CTRL_ACTIVE c v.val
     let mayd := fun (m : Nat) => s.Writable g .PCI_VFv_DIRTY_CTRL c v.val m
     let left := s.dirtyLeft n v.val 0 = true ∨ s.dirtyLeft n v.val 1 = true
     (mayd 5 → log = true → busy = false → ∃ u : State, exec (.dirtySwap g p v) s = .next u.settle.noteLevels ∧
       u.fld F.PCI_VFv_DIRTY_CTRL_ACTIVE c v.val = 1 - active ∧ u.flag F.PCI_VFv_DIRTY_CTRL_SWAP_BUSY c v.val = true ∧
       RegsKept s u [regAddr .PCI_VFv_DIRTY_CTRL c v.val]) ∧
     (mayd (log.toNat + 4) → log = false ∨ busy = true → ∃ u : State, exec (.dirtySwap g p v) s = .next u.settle.noteLevels ∧
       u.fld F.PCI_VFv_DIRTY_CTRL_ACTIVE c v.val = active ∧
       (s.flag F.CELL_ERR_STATUS_VALID c = false → u.fld F.CELL_ERR_STATUS_CLASS c = 1)) ∧
     (mayd 1 → log = false → ∃ u : State, exec (.dirtyLogEnWrite g p v true) s = .next u.settle.noteLevels ∧
       u.flag F.PCI_VFv_DIRTY_CTRL_LOG_EN c v.val = true ∧ u.fld F.PCI_VFv_DIRTY_CTRL_ACTIVE c v.val = 0 ∧
       u.fld F.PCI_VFv_DIRTY_MISS_COUNT c v.val = 0 ∧ u.mem = s.mem) ∧
     (mayd 0 → log = true → ¬ left → ∃ u : State, exec (.dirtyLogEnWrite g p v false) s = .next u.settle.noteLevels ∧
       u.flag F.PCI_VFv_DIRTY_CTRL_LOG_EN c v.val = false ∧ u.mem = s.mem) ∧
     (mayd 0 → log = true → left → ∃ u : State, exec (.dirtyLogEnWrite g p v false) s = .next u.settle.noteLevels ∧
       u.flag F.PCI_VFv_DIRTY_CTRL_LOG_EN c v.val = true ∧ (u.vf n v.val).stopping = true ∧ u.mem = s.mem))

namespace Sys2Proof.Machine

/-- R541: queue q is the next in turn with a descriptor that may start, and unit u the lowest-numbered that is ENABLED and idle. -/
def State.FltNext (s : State) (q : Nat) (u : Fin 40) : Prop :=
  let ready := fun (k : Nat) =>
    let log := s.fld F.FLT_Qq_CFG_SIZE_LOG2 fltCell k
    s.flag F.FLT_Qq_CFG_EN fltCell k = true ∧ 6 ≤ log ∧ log ≤ 16 ∧ s.fld F.FLT_Qq_PTR_HEAD fltCell k ≠ s.fld F.FLT_Qq_PTR_TAIL fltCell k ∧
      (smapGet (fun _ => none) s.flt.fenced k = none ∨ s.fltRunning k = false)
  let idle := fun (v : Fin 40) => s.enabled (filterCell v.val) = true ∧ (s.fltUnit v.val).run = none
  s.enabled fltCell = true ∧ idle u ∧ (∀ v < u, ¬ idle v) ∧
    ∃ i < 256, q = (s.flt.next + i) % 256 ∧ ready q ∧ ∀ j < i, ¬ ready ((s.flt.next + j) % 256)

/-- R545: unit u holds a descriptor that has ended with a status and a code. -/
def State.FltEnds (s : State) (u : Fin 40) (status code : Nat) : Prop :=
  ∃ r, (s.fltUnit u.val).run = some r ∧ r.ended = some (status, code) ∧ (s.core (.filter u)).running = false

end Sys2Proof.Machine

open Sys2Proof Sys2Proof.Machine in
/-- R301, R541, R543, R544, R545, R547, R549, R551, R552, R554, R555: the Filter units and the key store. FBLK is the cipher of a block under the
descriptor's key; a disagreement stops the unit with FILTER_FAULT. The next descriptor starts on the first idle unit, HEAD moves, and it is checked in
order; one that passes starts its sequencer with the stream's first block placed. An ended descriptor writes its record; a stall ends one. A key command
loads an EMPTY entry from memory or refuses with its code; ERASE empties an entry once nothing runs with it. -/
def Obligations.FilterUnitsAndKeyStore : Prop :=
  ∀ (s : State) (g : Agent) (u : Fin 40) (q : Fin 256) (tail : BitVec 16) (vd va : Fin 8) (inv : Bool) (key bs prog code param : List Byte)
      (index : BitVec 14) (size check enc dec wrap : Bool) (r : FltRun),
    let c := CoreRef.filter u
    let kc := s.core c
    let blk := if inv then Instr.fblkInv c vd va else .fblk c vd va
    let cipher := fun (x : BitVec 128) => BitVec.ofNat 128 (leNat (((if inv then aesDecrypt else aesEncrypt) (key.map BitVec.toNat)
      ((natLe 16 x.toNat).map BitVec.toNat)).map (BitVec.ofNat 8)))
    (s.Ready c → (s.fltUnit u.val).run = some r → r.keys = [key] → key ≠ [] →
      s.Runs (blk true) c 4 (s.count c.cell (evOf 0x2B 0)) (kc.vset vd (cipher (kc.vget va)))) ∧
    (s.Ready c → (s.fltUnit u.val).run = some r → r.ended = none → ∃ t, exec (blk false) s = .next t ∧ t.FltEnds u 0x0B 0 ∧ t.bitAt 0x40028000 = true ∧
      t.mem = s.mem ∧ (s.flag F.CELL_ERR_STATUS_VALID (filterCell u.val) = false → t.fld F.CELL_ERR_STATUS_CLASS (filterCell u.val) = 8)) ∧
    (s.Writable g .FLT_Qq_PTR fltCell q.val (putBits (s.reg .FLT_Qq_PTR fltCell q.val).toNat 15 0 tail.toNat) → s.flag F.FLT_Qq_CFG_POLL fltCell q.val = false →
      ∃ t, exec (.fltTailWrite g q tail) s = .next t ∧ t.fld F.FLT_Qq_PTR_TAIL fltCell q.val = tail.toNat ∧
        RegsKept s t [regAddr .FLT_Qq_PTR fltCell q.val] ∧ MemKept s t) ∧
    (s.Writable g .FLT_Qq_CFG fltCell q.val (putBits (s.reg .FLT_Qq_CFG fltCell q.val).toNat 0 0 1) → s.flag F.FLT_Qq_CFG_EN fltCell q.val = false →
      ∃ t, exec (.fltQueueEnable g q) s = .next t ∧ t.flag F.FLT_Qq_CFG_EN fltCell q.val = true ∧ t.fld F.FLT_Qq_PTR_TAIL fltCell q.val = 0 ∧
        t.fld F.FLT_Qq_PTR_HEAD fltCell q.val = 0 ∧ RegsKept s t [regAddr .FLT_Qq_PTR fltCell q.val, regAddr .FLT_Qq_CFG fltCell q.val] ∧ MemKept s t) ∧
    (let n := q.val
     let head := s.fld F.FLT_Qq_PTR_HEAD fltCell n
     let log2 := s.fld F.FLT_Qq_CFG_SIZE_LOG2 fltCell n
     let w := wordsOf 16 bs
     let start := exec .filterDescStart s
     let a := fun (i : Nat) => wlong w i % 2 ^ 48
     let len := wfield w 8 31 0
     let hdr := wfield w 3 31 0
     let fits := fun (x m align : Nat) => x % align = 0 ∧ extentOneQuad x m = true ∧ s.extentFree (s.domePosted (filterKey n) head) x m = true
     let good1 := wfield w 0 11 8 = 1 ∧ wfield w 0 13 12 ≠ 3 ∧ wfield w 0 31 17 = 0 ∧ wfield w 1 15 14 = 0 ∧ wfield w 1 31 26 = 0 ∧
       wfield w 2 31 15 = 0 ∧ ∀ i ∈ [5, 7, 10, 12, 14], wfield w i 31 16 = 0
     let number := wfield w 0 7 0
     let listed := number < 2 ^ min 8 (s.fld F.FLT_CFG_PROG_LOG2 fltCell)
     let e := (wordsOf 4 prog).take 3
     let plen := wfield e 2 31 0
     let good2 := listed ∧ (s.load (4096 * s.fld F.FLT_CFG_BASE fltCell + 16 * number) 16).1 = .ok prog false ∧ 4 ≤ plen ∧ plen ≤ 8192 ∧ plen % 4 = 0 ∧
       ((s.fltUnit u.val).program = e ∨ (s.load (wlong e 0) plen).1 = .ok code false)
     let good3 := wfield w 0 13 12 = 0 → hdr % 16 = 0 ∧ len % 16 = 0
     let good4 := fits (a 4) (hdr + len) 16 ∧ fits (a 6) len 16 ∧ fits (a 9) 64 64 ∧ fits (a 11) 64 64 ∧ (wfield w 0 16 16 = 1 → fits (a 13) 32 64)
     let dir := wfield w 0 14 14
     let origin := wfield w 1 25 16
     let vf := (origin - 1) % 256
     let port := (origin - 1) / 256
     let base := s.fld F.PCI_VFv_KEYS_KEY_BASE (upCell port) vf
     let grants := fun (x : Nat) => s.keyState x = 1 ∧ bitsOf (s.fld F.KEY_ATTRn_USAGE keyCell x) dir dir = 1 ∧
       (origin ≠ 0 → port < 2 ∧ s.vfState port vf = 3 ∧ base ≤ x ∧ x < base + s.fld F.PCI_VFv_KEYS_KEY_COUNT (upCell port) vf)
     let keys := wfield w 1 13 0 :: if wfield w 2 14 14 = 1 then [wfield w 2 13 0] else []
     let agree := ∀ x ∈ keys, (s.keyEntry x).comp = ~~~(s.keyEntry x).key
     let taken := s.stopped = false ∧ s.FltNext n u ∧ s.PlainMemory ∧ wfield w 0 15 15 = 0 ∧
       (s.fltHeld n = some w ∨ (s.fltHeld n = none ∧
         (s.load (4096 * s.fld F.FLT_Qq_CFG_BASE fltCell n + 64 * (head % 2 ^ log2)) 64).1 = .ok bs false))
     let moved := fun (t : State) => start = .next t.tidy ∧ t.fld F.FLT_Qq_PTR_HEAD fltCell n = (head + 1) % 65536 ∧ t.flt.next = (n + 1) % 256
     let mem := fun (t : State) (o : Nat) (l : List Byte) => ∀ i < l.length, t.byte (localBase (filterCell u.val) + o + i) = l.getD i 0
     let bit := fun (t : State) (o : Nat) => t.bitAt (privateKey (filterCell u.val) o)
     (s.stopped = false → (∀ m v, ¬ s.FltNext m v) → start = .next s.tidy) ∧
     (taken → ¬ good1 → ∃ t, moved t ∧ t.FltEnds u 1 1 ∧ t.mem = s.mem) ∧
     (taken → good1 → ¬ listed → ∃ t, moved t ∧ t.FltEnds u 1 2 ∧ t.mem = s.mem) ∧
     (taken → good1 → good2 → ¬ good3 → ∃ t, moved t ∧ t.FltEnds u 1 3) ∧
     (taken → good1 → good2 → good3 → ¬ good4 → ∃ t, moved t ∧ t.FltEnds u 1 4) ∧
     (taken → good1 → good2 → good3 → good4 → ¬ (∀ x ∈ keys, grants x) → ∃ t, moved t ∧ t.FltEnds u 2 0) ∧
     (taken → good1 → good2 → good3 → good4 → (∀ x ∈ keys, grants x) → ¬ agree → ∃ t, moved t ∧ t.FltEnds u 0x0C 0 ∧ ∃ x ∈ keys, t.keyState x = 3) ∧
     (taken → good1 → good2 → good3 → good4 → (∀ x ∈ keys, grants x) → agree → (s.load (a 9) 64).1 = .ok param false → hdr = 0 → len ≤ 16 →
       wfield w 0 13 12 = 0 → s.AtHand (a 4) 16 →
       ∃ (t : State) (run : FltRun), moved t ∧ (t.fltUnit u.val).run = some run ∧ run.ended = none ∧ run.words = w ∧ run.idx = head ∧ run.q = n ∧
         t.core c = { pc := BitVec.ofNat 64 (2 ^ 64 - 0x40000), running := true } ∧ mem t 0x2400 (bytesOf w) ∧ mem t 0x2440 param ∧
         mem t 0x2480 (List.replicate 64 0) ∧ (len = 16 → mem t 0x3000 (s.bytes (a 4) 16)) ∧ (bit t 0xE00 = true ↔ len = 16) ∧ bit t 0xF00 = true ∧
         (∀ o < 0x1000, o ≠ 0xE00 → o ≠ 0xF00 → bit t o = false) ∧ (∀ x ∈ keys, t.fld F.KEY_ATTRn_RUNNING keyCell x = (s.fld F.KEY_ATTRn_RUNNING keyCell x + 1) % 256) ∧
         ∀ z, z < localBase (filterCell u.val) ∨ localBase (filterCell u.val) + 0x4000 ≤ z → t.byte z = s.byte z)) ∧
    (s.stopped = false → ∀ status cd,
      (s.fltUnit u.val).run = some r → r.ended = some (status, cd) →
      let w := r.words
      let a := wlong w 13 % 2 ^ 48
      let out := wlong w 11 % 2 ^ 48
      let area := localBase (filterCell u.val) + 0x2480
      let at_ := fun (t : State) (o m : Nat) => leNat (t.bytes (a + o) m)
      let record := fun (t : State) (st : Nat) => at_ t 0 2 = r.idx % 65536 ∧ at_ t 2 2 = r.q ∧ at_ t 4 1 = st ∧ at_ t 5 1 = cd ∧ at_ t 6 2 = u.val ∧
        at_ t 8 4 = wfield w 15 31 0 ∧ at_ t 12 4 = r.progStatus % 2 ^ 32 ∧ at_ t 16 8 = r.bytes % 2 ^ 64 ∧ at_ t 24 8 = s.now % 2 ^ 64
      (status ≠ 0 → status < 256 → cd < 256 → wfield w 0 16 16 = 0 → ∃ t : State, exec (.filterDescComplete u) s = .next t.tidy ∧
        (t.fltUnit u.val).run = none ∧ t.mem = s.mem) ∧
      (status ≠ 0 → status ≠ 1 → status < 256 → cd < 256 → wfield w 0 16 16 = 1 → a % 64 = 0 → s.PlainMemory → s.AtHand a 32 → r.q < 256 →
        ∃ t : State, exec (.filterDescComplete u) s = .next t.tidy ∧ (t.fltUnit u.val).run = none ∧ record t status ∧
          ∀ z, z < a ∨ a + 32 ≤ z → t.byte z = s.byte z) ∧
      (status = 0 → cd = 0 → wfield w 0 16 16 = 1 → a % 64 = 0 → out % 64 = 0 → s.PlainMemory → s.AtHand a 32 → s.AtHand out 64 → out + 64 ≤ a ∨ a + 32 ≤ out →
        r.q < 256 → r.poison = false → s.bitAt (privateKey (filterCell u.val) (0xE80 + r.taken % 128)) = false →
        ∃ t : State, exec (.filterDescComplete u) s = .next t.tidy ∧ (t.fltUnit u.val).run = none ∧ record t 0 ∧
          (∀ i < 64, t.byte (out + i) = s.byte (area + i)) ∧ ∀ z, z < a ∨ a + 32 ≤ z → z < out ∨ out + 64 ≤ z → t.byte z = s.byte z)) ∧
    (s.stopped = false → (∀ r, (s.fltUnit u.val).run = some r → r.ended = none) → exec (.filterDescComplete u) s = .next s.tidy) ∧
    (s.stopped = false → (s.fltUnit u.val).run = some r → r.ended = none → s.fld F.FLT_CFG_STALL_US fltCell ≠ 0 → r.progress + 1000 * s.fld F.FLT_CFG_STALL_US fltCell ≤ s.now →
      ∃ t : State, exec (.filterStallTimeout u) s = .next t.tidy ∧ t.FltEnds u 0x0D 0 ∧ t.mem = s.mem) ∧
    (s.stopped = false → s.fld F.FLT_CFG_STALL_US fltCell = 0 ∨
      (∀ r, (s.fltUnit u.val).run = some r → r.ended = none → s.now < r.progress + 1000 * s.fld F.FLT_CFG_STALL_US fltCell) → exec (.filterStallTimeout u) s = .next s.tidy) ∧
    (let i := index.toNat
     let src := s.fld F.KEY_CMD_ARG_ADDR keyCell
     let kek := s.fld F.KEY_CMD_ARG_KEK keyCell
     let plain := Instr.loadPlain g index size check enc dec wrap
     let wrapped := Instr.loadWrapped g index size check enc dec wrap
     let may := fun (cmd : Nat) => s.Writable g .KEY_CMD keyCell 0 (keyLoadWord cmd index size check enc dec wrap) ∧ s.faulted rotCell = false
     let answers := fun (x : Instr) (t : State) (code : Nat) => exec x s = .next t ∧ t.fld F.KEY_CMD_RESULT_RESULT keyCell = (if code = 0 then 1 else 2) ∧
       t.fld F.KEY_CMD_RESULT_CODE keyCell = code ∧ t.fld F.KEY_CMD_RESULT_INDEX keyCell = i ∧ t.mem = s.mem
     let refused := fun (x : Instr) (code : Nat) => ∃ t, answers x t code ∧ t.keys = s.keys
     let loaded := fun (t : State) (m : List Byte) => t.keyState i = 1 ∧ t.fld F.KEY_ATTRn_SIZE keyCell i = size.toNat ∧
       t.fld F.KEY_ATTRn_CHECK keyCell i = check.toNat ∧ t.fld F.KEY_ATTRn_USAGE keyCell i = enc.toNat + 2 * dec.toNat + 4 * wrap.toNat ∧
       t.keyEntry i = ⟨BitVec.ofNat 256 (leNat m), ~~~(BitVec.ofNat 256 (leNat m))⟩ ∧ ∀ j, j ≠ i → t.keyEntry j = s.keyEntry j
     let wn := if size then 40 else 24
     let kekOk := s.keyState kek = 1 ∧ bitsOf (s.fld F.KEY_ATTRn_USAGE keyCell kek) 2 2 = 1 ∧ (s.keyEntry kek).comp = ~~~(s.keyEntry kek).key
     let kbytes := natLe (if s.flag F.KEY_ATTRn_SIZE keyCell kek then 32 else 16) (s.keyEntry kek).key.toNat
     (may 1 → s.keyState i ≠ 0 → refused plain 2) ∧ (may 2 → s.keyState i ≠ 0 → refused wrapped 2) ∧
     (may 1 → s.keyState i = 0 → src % 64 ≠ 0 → refused plain 3) ∧ (may 2 → s.keyState i = 0 → src % 64 ≠ 0 → refused wrapped 3) ∧
     (may 1 → s.keyState i = 0 → src % 64 = 0 → s.PlainMemory → (s.load src 64).1 = .ok bs false →
       let m := bs.take 32
       let good := bs.drop 32 = m.map (fun b => ~~~b) ∧ (size = false → m.drop 16 = List.replicate 16 0)
       (good → ∃ t, answers plain t 0 ∧ loaded t m) ∧ (¬ good → refused plain 4)) ∧
     (may 2 → s.keyState i = 0 → src % 64 = 0 → s.PlainMemory → (s.load src wn).1 = .ok bs false →
       (s.keyState kek ≠ 1 ∨ bitsOf (s.fld F.KEY_ATTRn_USAGE keyCell kek) 2 2 = 0 → refused wrapped 5) ∧
       (kekOk → ∀ m, keyUnwrap kbytes bs = some m → ∃ t, answers wrapped t 0 ∧ loaded t m) ∧
       (kekOk → keyUnwrap kbytes bs = none → refused wrapped 4)) ∧
     (s.Writable g .KEY_CMD keyCell 0 (3 + i * 2 ^ 16) → s.faulted rotCell = false →
       (s.keyState i = 1 ∨ s.keyState i = 2 → ∃ t, answers (.erase g index) t 0 ∧ t.keyState i = 2 ∧ t.keys = s.keys ∧
         t.fld F.KEY_ATTRn_RUNNING keyCell i = s.fld F.KEY_ATTRn_RUNNING keyCell i) ∧
       (s.keyState i = 0 ∨ s.keyState i = 3 → ∃ t, answers (.erase g index) t 0 ∧ t.keyState i = 0 ∧ t.keyEntry i = {} ∧ t.bitAt 0x40029000 = true)) ∧
     (s.stopped = false → s.keyState i = 2 → s.fld F.KEY_ATTRn_RUNNING keyCell i = 0 → ∃ t : State, exec (.keyEraseComplete index) s = .next t.tidy ∧
       t.keyState i = 0 ∧ t.keyEntry i = {} ∧ t.bitAt 0x40029000 = true ∧ ∀ j, j ≠ i → t.keyEntry j = s.keyEntry j) ∧
     (s.stopped = false → s.keyState i ≠ 2 ∨ s.fld F.KEY_ATTRn_RUNNING keyCell i ≠ 0 → exec (.keyEraseComplete index) s = .next s.tidy))

namespace Sys2Proof.Machine

/-- R559: the checks of an image that read its header, in the order of the rule's codes but for 0x03 and 0x04, which need the body (log 62). -/
def State.HeaderCode (s : State) (hdr : List Byte) : Nat → Prop
  | 1 => wfield (wordsOf 64 hdr) 0 31 0 = 0x46425953 ∧ wfield (wordsOf 64 hdr) 1 15 0 = 1 ∧ wfield (wordsOf 64 hdr) 3 31 0 = 0 ∧
      (∀ i < 8, wfield (wordsOf 64 hdr) (8 + i) 31 0 = 0) ∧ wfield (wordsOf 64 hdr) 5 31 16 = 0 ∧ wfield (wordsOf 64 hdr) 7 31 16 = 0
  | 2 => wfield (wordsOf 64 hdr) 1 23 16 ≤ 3 ∧ sha384 ((hdr.drop 64).take 96) = keyHashBytes (wfield (wordsOf 64 hdr) 1 23 16) ∧
      bitsOf s.revokedSlots (wfield (wordsOf 64 hdr) 1 23 16) (wfield (wordsOf 64 hdr) 1 23 16) = 0
  | 5 =>
    let n := wfield (wordsOf 64 hdr) 2 31 0
    let load := wlong (wordsOf 64 hdr) 4 % 2 ^ 48
    let entry := wlong (wordsOf 64 hdr) 6 % 2 ^ 48
    n % 64 = 0 ∧ 64 ≤ n ∧ n ≤ 0x800000 ∧ load % 64 = 0 ∧ 0x010000000000 ≤ load ∧ load + n ≤ 0x010010000000 ∧ load ≤ entry ∧ entry < load + n
  | _ => True

/-- R559: an image of a header and a body ends in this code; 0 is a valid one. -/
def State.ImageCode (s : State) (hdr body : List Byte) (code : Nat) : Prop :=
  let w := wordsOf 64 hdr
  let pub := (hdr.drop 64).take 96
  let sig := (hdr.drop 160).take 96
  let signed := ecdsaVerify (beNat (pub.take 48)) (beNat (pub.drop 48)) (beNat (sig.take 48)) (beNat (sig.drop 48)) (sha384 (hdr.take 160 ++ body)) = true
  (¬ s.HeaderCode hdr 1 → code = 1) ∧
  (s.HeaderCode hdr 1 → ¬ s.HeaderCode hdr 2 → code = 2) ∧
  (s.HeaderCode hdr 1 → s.HeaderCode hdr 2 → ¬ s.HeaderCode hdr 5 → code = 5) ∧
  (s.HeaderCode hdr 1 → s.HeaderCode hdr 2 → s.HeaderCode hdr 5 →
    (¬ signed → code = 3) ∧ (signed → wfield w 1 31 24 < s.fuseSvn → code = 4) ∧ (signed → s.fuseSvn ≤ wfield w 1 31 24 → code = 0))

/-- R560, R561: t has booted the image: BOOT, the measurement, the key slot and SVN, the body at LOAD_ADDR, Dome core 0 at ENTRY. -/
def State.Booted (s t : State) (boot : Nat) (hdr body : List Byte) : Prop :=
  let w := wordsOf 64 hdr
  let load := wlong w 4 % 2 ^ 48
  t.boot = boot ∧ t.fld F.ROT_STATUS_KEY_SLOT rotCell = wfield w 1 23 16 % 4 ∧ t.fld F.ROT_STATUS_BOOT_SVN rotCell = wfield w 1 31 24 % 128 ∧
    (∀ m < 6, t.reg .ROT_MEASUREm rotCell m = BitVec.ofNat 64 (leNat (((sha384 (hdr.take 160 ++ body)).drop (8 * m)).take 8))) ∧
    t.flag F.CELL_CTRL_EN (domeCell 0) = true ∧ t.fld F.DOM_COREn_BOOT_PC_PC domeSub 0 * 4 = wlong w 6 % 2 ^ 48 / 4 * 4 ∧
    ∀ z, t.byte z = if load ≤ z ∧ z < load + body.length then body.getD (z - load) 0 else s.byte z

end Sys2Proof.Machine

open Sys2Proof Sys2Proof.Machine in
/-- R558, R559, R560, R561, R562, R563, R564, R565, R568, R697, R699, R700: the root of trust. Boot takes the flash slot with the higher SVN first,
A on a tie; a valid image is copied, measured and started, else the other is tried, and BOOT reads FAILED with the last code. A command of ROT_CMD makes
RESULT BUSY and ends with its code: VERIFY judges an image, RECOVERY_BOOT boots one while BOOT is FAILED, SVN_COMMIT and REVOKE_KEY blow fuses,
DEBUG_UNLOCK checks a token. While BUSY a write is ignored with ACCESS. A flash command is checked in order, then reads, erases or programs the flash. -/
def Obligations.RootOfTrustBootsAndObeys : Prop :=
  ∀ (s : State) (y : Fin 8) (g : Agent) (agree error : Bool) (hdr body token : List Byte) (offset : BitVec 26) (pages : BitVec 9) (code : Nat),
    let f := Agent.firmware y
    let may := fun (g : Agent) (cmd : Nat) => s.Writable g .ROT_CMD rotCell 0 cmd ∧ s.rot.cmd = none
    let a := s.fld F.ROT_CMD_ARG_ADDR rotCell
    let v := s.fld F.ROT_CMD_ARG_VALUE rotCell
    let began := fun (x : Instr) (t : State) (c : Nat) => exec x s = .next t ∧ t.rot.cmd = some c ∧ t.fld F.ROT_CMD_RESULT_RESULT rotCell = 3 ∧
      t.rot.flash = s.rot.flash
    let w := wordsOf 64 hdr
    let n := wfield w 2 31 0
    let load := wlong w 4 % 2 ^ 48
    let present := s.PlainMemory ∧ (s.load a 256).1 = .ok hdr false ∧ (s.load (a + 256) n).1 = .ok body false
    (s.rot.cmd ≠ none → s.Writable g .ROT_CMD rotCell 0 1 → ∃ t, exec (.verify g) s = .next t ∧ t.rot = s.rot ∧ t.mem = s.mem ∧
      (s.flag F.CELL_ERR_STATUS_VALID rotCell = false → t.fld F.CELL_ERR_STATUS_CLASS rotCell = 1)) ∧
    (may g 1 → present → ∃ t c, began (.verify g) t c ∧ s.ImageCode hdr body c ∧ t.mem = s.mem ∧ t.rot.svn = s.rot.svn ∧ t.boot = s.boot) ∧
    (may g 2 → s.boot ≠ 4 → ∃ t, began (.recoveryBoot g) t 0x0A ∧ t.mem = s.mem ∧ t.boot = s.boot) ∧
    (may g 2 → s.boot = 4 → present → s.ImageCode hdr body 0 →
      (load < a + 256 + n → a < load + n → ∃ t, began (.recoveryBoot g) t 5 ∧ t.boot = 4 ∧ t.mem = s.mem) ∧
      (a + 256 + n ≤ load ∨ load + n ≤ a → s.AtHand load n → ∃ t, began (.recoveryBoot g) t 0 ∧ s.Booted t 3 hdr body)) ∧
    (may f 3 → v ≤ 64 → v ≤ s.fld F.ROT_STATUS_BOOT_SVN rotCell → ∃ t, began (.svnCommit f) t 0 ∧ t.fuseSvn = max s.fuseSvn v) ∧
    (may f 3 → 64 < v ∨ s.fld F.ROT_STATUS_BOOT_SVN rotCell < v → ∃ t, began (.svnCommit f) t 8 ∧ t.fuseSvn = s.fuseSvn) ∧
    (may f 4 → v ≤ 3 → v ≠ s.fld F.ROT_STATUS_KEY_SLOT rotCell → ∃ t, began (.revokeKey f) t 0 ∧ t.revokedSlots = s.revokedSlots ||| 2 ^ v) ∧
    (may f 4 → 3 < v ∨ v = s.fld F.ROT_STATUS_KEY_SLOT rotCell → ∃ t, began (.revokeKey f) t 9 ∧ t.revokedSlots = s.revokedSlots) ∧
    (may g 5 → (s.load a 232).1 = .ok token false →
      let pub := (token.drop 40).take 96
      let sig := token.drop 136
      let good := token.take 8 = natLe 8 (Config.fuse rotCell 100) ∧
        (token.drop 8).take 32 = (List.range 4).flatMap (fun m => natLe 8 (s.reg .ROT_NONCEm rotCell m).toNat) ∧
        sha384 pub = keyHashBytes (s.fld F.ROT_STATUS_KEY_SLOT rotCell) ∧
        ecdsaVerify (beNat (pub.take 48)) (beNat (pub.drop 48)) (beNat (sig.take 48)) (beNat (sig.drop 48)) (sha384 (token.take 40)) = true
      (good → ∃ t, began (.debugUnlock g) t 0 ∧ t.rot.unlocked = true) ∧
      (¬ good → ∃ t, began (.debugUnlock g) t 3 ∧ t.rot.unlocked = s.rot.unlocked)) ∧
    (s.stopped = false → s.rot.cmd = some code → code < 256 → ∃ u : State, exec .rotCmdDone s = .next u.tidy ∧ u.rot = { s.rot with cmd := none, svnFrom := none } ∧
      u.fld F.ROT_CMD_RESULT_RESULT rotCell = (if code = 0 then 1 else 2) ∧ u.fld F.ROT_CMD_RESULT_CODE rotCell = code ∧ u.bitAt 0x4002E000 = true) ∧
    (s.stopped = false → s.rot.cmd = none → exec .rotCmdDone s = .next s.tidy) ∧
    (let head := fun (slot : Nat) => s.flashBytes (slot * 0x1000000) 256
     let data := fun (slot : Nat) => s.flashBytes (slot * 0x1000000 + 256) (wfield (wordsOf 64 (head slot)) 2 31 0)
     let svn := fun (slot : Nat) => wfield (wordsOf 64 (head slot)) 1 31 24
     let first := if svn 0 < svn 1 then 1 else 0
     let boots := s.stopped = false ∧ s.rot.running = true ∧ s.resetting rotCell = false ∧ s.boot = 0
     let early := fun (slot : Nat) => ¬ s.HeaderCode (head slot) 1 ∨ ¬ s.HeaderCode (head slot) 2 ∨ ¬ s.HeaderCode (head slot) 5
     let room := fun (slot : Nat) => s.PlainMemory ∧ s.AtHand (wlong (wordsOf 64 (head slot)) 4 % 2 ^ 48) (wfield (wordsOf 64 (head slot)) 2 31 0)
     (boots → agree = false → ∃ u : State, exec (.secureBoot agree) s = .next u.tidy ∧ u.boot = 4 ∧ u.fld F.ROT_STATUS_FAIL_CODE rotCell = 7 ∧ u.mem = s.mem) ∧
     (boots → agree = true → room first → s.ImageCode (head first) (data first) 0 → ∃ u : State, exec (.secureBoot agree) s = .next u.tidy ∧
       s.Booted u (first + 1) (head first) (data first)) ∧
     (boots → agree = true → early first → room (1 - first) → s.ImageCode (head (1 - first)) (data (1 - first)) 0 → ∃ u : State,
       exec (.secureBoot agree) s = .next u.tidy ∧ s.Booted u (2 - first) (head (1 - first)) (data (1 - first))) ∧
     (boots → agree = true → early first → early (1 - first) → ∃ (u : State) (c : Nat), exec (.secureBoot agree) s = .next u.tidy ∧ u.boot = 4 ∧
       s.ImageCode (head (1 - first)) (data (1 - first)) c ∧ u.fld F.ROT_STATUS_FAIL_CODE rotCell = c ∧ u.mem = s.mem) ∧
     (s.stopped = false → s.boot ≠ 0 → exec (.secureBoot agree) s = .next s.tidy)) ∧
    (let off := offset.toNat
     let mayf := fun (cmd p : Nat) => s.Writable f .ROT_FLASH_CMD rotCell 0 (cmd + off * 2 ^ 8 + p * 2 ^ 48) ∧ s.rot.flashCmd = none
     let buf := s.fld F.ROT_FLASH_ARG_ADDR rotCell
     let m := 256 * pages.toNat
     let began := fun (x : Instr) (t : State) (c : Nat) (r : Option (Nat × Nat)) => exec x s = .next t ∧ t.rot.flashCmd = some (c, r) ∧
       t.fld F.ROT_FLASH_RESULT_RESULT rotCell = 3 ∧ t.rot.cmd = s.rot.cmd
     let refused := fun (x : Instr) (c : Nat) => ∃ t, began x t c none ∧ t.rot.flash = s.rot.flash ∧ t.mem = s.mem
     let booted := fun (len : Nat) => (s.boot = 1 ∧ off < 0x1000000) ∨ (s.boot = 2 ∧ off < 0x2000000 ∧ 0x1000000 < off + len)
     let paged := off + m ≤ 0x4000000 ∧ off % 256 = 0 ∧ 1 ≤ pages.toNat ∧ pages.toNat ≤ 256
     let sector := off + 0x10000 ≤ 0x4000000 ∧ off % 0x10000 = 0
     let extent := buf % 64 = 0 ∧ extentOneQuad buf m = true ∧ s.ringTouched buf m = none
     (mayf 1 pages.toNat → ¬ paged → refused (.flashRead f offset pages) 2) ∧ (mayf 3 pages.toNat → ¬ paged → refused (.flashProgram f offset pages) 2) ∧
     (mayf 2 0 → ¬ sector → refused (.flashErase f offset) 2) ∧
     (mayf 3 pages.toNat → paged → booted m → refused (.flashProgram f offset pages) 3) ∧ (mayf 2 0 → sector → booted 0x10000 → refused (.flashErase f offset) 3) ∧
     (mayf 1 pages.toNat → paged → ¬ extent → refused (.flashRead f offset pages) 4) ∧
     (mayf 3 pages.toNat → paged → ¬ booted m → ¬ extent → refused (.flashProgram f offset pages) 4) ∧
     (mayf 1 pages.toNat → paged → extent → s.PlainMemory → (∀ k < pages.toNat, s.AtHand (buf + 256 * k) 256) →
       ∃ t, began (.flashRead f offset pages) t 0 none ∧ t.rot.flash = s.rot.flash ∧
         ∀ z, t.byte z = if buf ≤ z ∧ z < buf + m then s.flashByte (off + (z - buf)) else s.byte z) ∧
     (mayf 2 0 → sector → ¬ booted 0x10000 → ∃ t, began (.flashErase f offset) t 0 (some (off, 0x10000)) ∧ t.mem = s.mem ∧
       ∀ z, t.flashByte z = if off ≤ z ∧ z < off + 0x10000 then 0xFF else s.flashByte z) ∧
     (mayf 3 pages.toNat → paged → ¬ booted m → extent → s.PlainMemory → (∀ k < pages.toNat, s.AtHand (buf + 256 * k) 256) →
       ∃ t, began (.flashProgram f offset pages) t 0 (some (off, m)) ∧ t.mem = s.mem ∧
         ∀ z, t.flashByte z = if off ≤ z ∧ z < off + m then s.flashByte z &&& s.byte (buf + (z - off)) else s.flashByte z) ∧
     (s.stopped = false → ∀ r, s.rot.flashCmd = some (code, r) → code < 256 → ∃ u : State, exec (.flashCmdDone error) s = .next u.tidy ∧
       u.rot.flashCmd = none ∧ u.bitAt 0x4002E000 = true ∧ u.mem = s.mem ∧
       (error = false ∨ r = none → u.rot.flash = s.rot.flash ∧ u.fld F.ROT_FLASH_RESULT_RESULT rotCell = (if code = 0 then 1 else 2) ∧
         u.fld F.ROT_FLASH_RESULT_CODE rotCell = code) ∧
       (∀ o len, error = true → r = some (o, len) → u.fld F.ROT_FLASH_RESULT_RESULT rotCell = 2 ∧ u.fld F.ROT_FLASH_RESULT_CODE rotCell = 5 ∧
         (s.flag F.CELL_ERR_STATUS_VALID rotCell = false → u.fld F.CELL_ERR_STATUS_CLASS rotCell = 9) ∧
         ∀ z, z < o ∨ o + len ≤ z → u.flashByte z = s.flashByte z)) ∧
     (s.stopped = false → s.rot.flashCmd = none → exec (.flashCmdDone error) s = .next s.tidy))

namespace Sys2Proof.Machine

/-- R575: where the Ephemeris ring holds the entry at HEAD. -/
def State.EphAt (s : State) : Nat :=
  4096 * s.fld F.EPH_CMDQ_CFG_BASE ephCell +
    64 * (s.fld F.EPH_CMDQ_PTR_HEAD ephCell % 2 ^ s.fld F.EPH_CMDQ_CFG_SIZE_LOG2 ephCell)

/-- R575, R576: the part may take an entry, whose words are w, outside the protected set, in memory without errors. -/
structure State.EphAsks (s : State) (w : List Word32) : Prop where
  up : s.enabled ephCell = true ∧ s.eph.job ≠ [] ∧ s.flag F.EPH_CMDQ_CFG_EN ephCell = true
  size : 6 ≤ s.fld F.EPH_CMDQ_CFG_SIZE_LOG2 ephCell ∧ s.fld F.EPH_CMDQ_CFG_SIZE_LOG2 ephCell ≤ 12
  posted : s.fld F.EPH_CMDQ_PTR_HEAD ephCell ≠ s.fld F.EPH_CMDQ_PTR_TAIL ephCell
  idle : s.eph.restore = none ∧ s.eph.scan = none ∧ s.eph.read = none
  entry : ∃ bs, (s.load s.EphAt 64).1 = .ok bs false ∧ w = wordsOf 16 bs
  room : s.AtHand s.EphAt 64
  clean : ∀ z, s.lineErrOf z = LineErr.clean ∧ s.flipFor z = none
  apart : ∀ r, r ∈ s.epoch.regions ∨ r ∈ jobRegions s.eph.job → s.EphAt + 64 ≤ r.1 ∨ r.1 + r.2 ≤ s.EphAt

/-- R575, R576: in u the entry has completed: words 8 to 15 hold ws, HEAD is one more, and NOTIFY_BIT is set. -/
def State.EphAnswers (s u : State) (ws : List Nat) : Prop :=
  u.fld F.EPH_CMDQ_PTR_HEAD ephCell = (s.fld F.EPH_CMDQ_PTR_HEAD ephCell + 1) % 65536 ∧
  (∀ i < 8, leNat (u.bytes (s.EphAt + 32 + 4 * i) 4) = ws.getD i 0) ∧
  (s.fld F.EPH_CMDQ_PTR_NOTIFY_BIT ephCell ≠ 0xFFFFFFFF → sharedNotifiable (s.fld F.EPH_CMDQ_PTR_NOTIFY_BIT ephCell) = true →
    u.bitAt (s.fld F.EPH_CMDQ_PTR_NOTIFY_BIT ephCell) = true)

/-- Memory outside words 8 to 15 of the entry reads in u as in s. -/
def State.EphOnly (s u : State) : Prop := ∀ z, z < s.EphAt + 32 ∨ s.EphAt + 64 ≤ z → u.byte z = s.byte z

/-- R575: VERSION is 1 and no reserved field is set. -/
def EphPlain (w : List Word32) : Prop :=
  wfield w 0 7 4 = 1 ∧ wfield w 0 31 11 = 0 ∧ ∀ i ∈ [1, 4, 5, 6, 7], wfield w i 31 0 = 0

end Sys2Proof.Machine


open Sys2Proof Sys2Proof.Machine in
/-- R571, R573, R574, R575, R576, R578, R579, R581, R582, R583, R584, R585, R586, R587: The Ephemeris commands. An entry with a wrong OPC,
VERSION or reserved field, or a BOUNDARY not above the retained step, answers PROTOCOL. A BOUNDARY that is due and meets no drain, the map
being readable, marks its step, and clears the armed warnings; other ones change nothing. ROLLBACK copies a COPIED granule back, or
answers NO_EPOCH. RESTORE answers BUSY in a drain; else the epoch ends, and with no valid record it answers NO_CONSISTENT_STEP. END_EPOCH
ends the epoch (the model abandons a drain in progress, log 42). An answer is words 8 to 15, HEAD one more and NOTIFY_BIT. Nothing posted:
nothing happens. The drain reads each granule from its frozen image, hashes it and goes on; a mark in it ends it POISONED, a cell that is
not ENABLED with MEMORY_FAULT and the epoch's end. A destination whose commit record is written (and flushed) is committed with its step
and slot; the drain ends with CKPT_EVENT when none runs. The manifest and the commit record hold their fields. A RESTORE writes a shard
whose digest agrees, and completes after the last; a copy that does not agree is counted. A warning is armed when its measure crosses its
threshold. -/
def Obligations.EphemerisCheckpointsAndRestores : Prop :=
  (∀ (s : State) (a : Agent) (tail : BitVec 16) (w : List Word32) (g : Nat) (dr : EphDrain),
    let opc := wfield w 0 3 0
    let step := wlong w 2
    let cur := s.fld F.EPH_EPOCH_STEP_STEP ephCell
    let live := s.epoch.retained = true
    let job := s.eph.job
    let row := if opc = 2 then Instr.rollback else if opc = 3 then .restore else if opc = 4 then .endEpoch else .boundary
    let asks := s.stopped = false ∧ s.EphAsks w
    let fits := EphPlain w ∧ 1 ≤ opc ∧ opc ≤ 4 ∧ (opc = 1 → live → cur < step)
    let runs := fun (u : State) => exec row s = .next u.tidy
    let same := fun (u : State) => u.epoch = s.epoch ∧ u.eph = s.eph ∧ (∀ f ∈ [F.EPH_EPOCH_STEP_STEP, F.EPH_WARN_STATUS_ARMED], u.fld f ephCell = s.fld f ephCell)
    let ended := fun (u : State) => u.epoch.retained = false ∧ u.fld F.EPH_EPOCH_STEP_STEP ephCell = 0
    let due := wfield w 0 8 8 = 1 ∨ ¬ live ∨ max 1 (s.fld F.EPH_CFG_CADENCE ephCell) ≤ step - cur ∨ s.fld F.EPH_WARN_STATUS_ARMED ephCell ≠ 0
    (s.Writable a .EPH_CMDQ_PTR ephCell 0 (putBits (s.reg .EPH_CMDQ_PTR ephCell).toNat 15 0 tail.toNat) → s.flag F.EPH_CMDQ_CFG_POLL ephCell = false →
      ∃ t, exec (.ephCmdqTailWrite a tail) s = .next t ∧ t.fld F.EPH_CMDQ_PTR_TAIL ephCell = tail.toNat ∧
        RegsKept s t [regAddr .EPH_CMDQ_PTR ephCell 0] ∧ MemKept s t) ∧
    (s.stopped = false → s.fld F.EPH_CMDQ_PTR_HEAD ephCell = s.fld F.EPH_CMDQ_PTR_TAIL ephCell → s.eph.restore = none →
      ∀ i ∈ [Instr.boundary, .rollback, .restore, .endEpoch], exec i s = .next s.tidy) ∧
    (asks → ¬ fits → ∃ u : State, runs u ∧ s.EphAnswers u [1] ∧ s.EphOnly u ∧ same u) ∧
    (asks → fits → opc = 1 → s.epoch.broken = [] →
      (¬ due → ∃ u : State, runs u ∧ s.EphAnswers u [0] ∧ s.EphOnly u ∧ same u) ∧
      (due → s.eph.drain = some dr → ∃ u : State, runs u ∧ s.EphAnswers u [2 ^ 9] ∧ s.EphOnly u ∧ same u) ∧
      (due → s.eph.drain = none → (∃ l p, (s.load (wlong job 6 % 2 ^ 48) (4 * wfield job 2 24 12)).1 = .ok l p) →
        ∃ u : State, runs u ∧ s.EphAnswers u [2 ^ 9 + 2 ^ 8] ∧ u.epoch.retained = true ∧
        u.epoch.regions = jobRegions job ∧ u.epoch.snapBase = wlong job 4 % 2 ^ 48 ∧ u.fld F.EPH_EPOCH_STEP_STEP ephCell = step ∧
        u.fld F.EPH_WARN_STATUS_ARMED ephCell = 0 ∧
        (wfield job 0 15 15 = 0 → wfield job 0 16 16 = 1 → s.connPstate (wfield job 8 31 16) ≠ psConnected →
          (s.load (wlong job 6 % 2 ^ 48) (4 * wfield job 2 24 12)).1 = .ok dr.map false →
          u.epoch.copied = [] ∧ u.fld F.EPH_DESTd_STATE_LAST_STATUS ephCell 1 = 5 ∧
          ∃ d, u.eph.drain = some d ∧ d.step = step ∧ d.map = dr.map ∧ d.granule = 0))) ∧
    (asks → fits → opc = 2 → ¬ live → ∃ u : State, runs u ∧ s.EphAnswers u [3] ∧ s.EphOnly u ∧ same u) ∧
    (let src := s.epoch.snapBase + 65536 * g
     let dst := granuleAddr s.epoch.regions g
     asks → fits → opc = 2 → live → s.epoch.copied = [(g, true)] → src % 64 = 0 → dst % 64 = 0 → s.AtHand src 65536 → s.AtHand dst 65536 →
     src + 65536 ≤ dst ∨ dst + 65536 ≤ src → dst + 65536 ≤ s.EphAt ∨ s.EphAt + 64 ≤ dst →
     ∃ u : State, runs u ∧ s.EphAnswers u [0, 0, cur % 2 ^ 32, cur / 2 ^ 32] ∧ same u ∧ (∀ i < 65536, u.byte (dst + i) = s.byte (src + i)) ∧
       ∀ z, z < dst ∨ dst + 65536 ≤ z → z < s.EphAt + 32 ∨ s.EphAt + 64 ≤ z → u.byte z = s.byte z) ∧
    (asks → fits → opc = 3 → s.eph.drain = some dr → ∃ u : State, runs u ∧ s.EphAnswers u [2] ∧ s.EphOnly u ∧ same u) ∧
    (asks → fits → opc = 3 → s.eph.drain = none → s.epoch.copyFailed = false →
      (wfield w 0 10 9 = 0 → ∃ u : State, runs u ∧ s.EphAnswers u [4] ∧ s.EphOnly u ∧ ended u ∧ u.eph.restore = none) ∧
      (wfield w 0 10 9 = 2 → s.connPstate (wfield job 8 31 16) ≠ psConnected →
        ∃ u : State, runs u ∧ s.EphAnswers u [4, 2] ∧ s.EphOnly u ∧ ended u ∧ u.eph.restore = none)) ∧
    (asks → fits → opc = 4 → ∃ u : State, runs u ∧ s.EphAnswers u [0] ∧ s.EphOnly u ∧ ended u ∧
      (∀ d < 2, s.eph.drain = some dr → dr.live d ≠ none → u.fld F.EPH_DESTd_STATE_LAST_STATUS ephCell d = 8))) ∧
  (∀ (s : State) (dr : EphDrain) (x : EphDest) (d : Fin 2) (bs : List Byte) (rs : EphRestore) (r : EphRead) (c : EphCand) (more : List EphCand),
    let w := s.eph.job
    let total := jobBytes w / 65536
    let at_ := fun (l : List Byte) (i n : Nat) => leNat ((l.drop i).take n)
    let g := dr.granule
    let src := if s.epoch.copied.any (fun p => p == (g, true)) then s.epoch.snapBase + 65536 * g else granuleAddr s.epoch.regions g
    let last := fun (u : State) (e : Nat) => u.fld F.EPH_DESTd_STATE_LAST_STATUS ephCell e
    let draining := s.stopped = false ∧ s.eph.drain = some dr
    let runs := fun (i : Instr) (u : State) => exec i s = .next u.tidy
    let valid := fun (u : State) => u.fld F.EPH_DESTd_COMMIT_STEP ephCell d.val = dr.step ∧ u.flag F.EPH_DESTd_STATE_VALID ephCell d.val = true ∧
      u.fld F.EPH_DESTd_STATE_SLOT ephCell d.val = x.slot ∧ last u d.val = 0 ∧ ∃ dr', u.eph.drain = some dr' ∧ dr'.live d.val = none ∧
        dr'.dests[1 - d.val]? = dr.dests[1 - d.val]?
    (draining → s.drainReady dr = true → g < total → smapWf (fun _ => false) s.epoch.copied = true →
      ((s.load src 65536).1 = .ok bs false → bs.length = 65536 → wfield w 0 14 11 = 0 → dr.hash = sha384Init → 65536 ∣ jobBytes w →
        ∃ u dr', runs .ephDrain u ∧ u.eph.drain = some dr' ∧ dr'.granule = g + 1 ∧ dr'.digests = dr.digests ++ [sha384 bs] ∧ dr'.step = dr.step ∧
          u.fld F.EPH_STATUS_SHARDS_DRAINED ephCell = (g + 1) % 2 ^ 32 ∧ u.epoch.retained = s.epoch.retained) ∧
      ((s.load src 65536).1 = .ok bs true → ∃ u : State, runs .ephDrain u ∧ (∀ e < 2, dr.live e ≠ none → last u e = 7) ∧
        u.epoch.retained = s.epoch.retained ∧ ∀ dr', u.eph.drain = some dr' → dr'.live 0 = none ∧ dr'.live 1 = none) ∧
      ((s.load src 65536).1 = .down → ∃ u : State, runs .ephDrain u ∧ (∀ e < 2, dr.live e ≠ none → last u e = 6) ∧ u.epoch.retained = false)) ∧
    (s.stopped = false → s.eph.drain = none → ∀ i ∈ [Instr.ephDrain, .ephDestCommit d, .ephDrainEnd], exec i s = .next s.tidy) ∧
    (draining → dr.live d.val = some x → x.out ≠ [] → exec (.ephDestCommit d) s = .next s.tidy) ∧
    (draining → dr.live d.val = some x → x.out = [] → x.phase = .recordFlush ∨ (x.phase = .record ∧ d = 1) → dr.step < 2 ^ 64 → x.slot < 2 →
      ∃ u : State, runs (.ephDestCommit d) u ∧ valid u ∧ u.mem = s.mem) ∧
    (draining → dr.live d.val = some x → x.out = [] → x.phase = .manifest → d = 1 → s.connPstate (wfield w 8 31 16) ≠ psConnected →
      ∃ u : State, runs (.ephDestCommit d) u ∧ last u 1 = 5 ∧ u.fld F.EPH_DESTd_COMMIT_STEP ephCell 1 = s.fld F.EPH_DESTd_COMMIT_STEP ephCell 1) ∧
    (draining → dr.live 0 = none → dr.live 1 = none → ∃ u : State, runs .ephDrainEnd u ∧ u.eph = { s.eph with drain := none } ∧
      u.bitAt 0x4002A000 = true ∧ u.epoch = s.epoch ∧ u.mem = s.mem) ∧
    (draining → dr.live d.val = some x → exec .ephDrainEnd s = .next s.tidy) ∧
    (dr.map.length = 4 * jobMembers w → dr.digests.length = jobShards w → (∀ h ∈ dr.digests, h.length = 48) →
      let m := dr.manifest w
      let rec' := dr.record w
      let table := (128 + 4 * jobMembers w + 63) / 64 * 64
      m.length = table + 64 * jobShards w ∧ at_ m 0 4 = 0x4D485045 ∧ at_ m 4 4 = 1 ∧ at_ m 8 4 = wfield w 1 31 0 ∧ at_ m 12 2 = wfield w 2 11 0 ∧
      at_ m 14 2 = jobMembers w ∧ at_ m 16 8 = dr.step % 2 ^ 64 ∧ at_ m 24 8 = jobBytes w % 2 ^ 64 ∧ at_ m 32 4 = jobShards w % 2 ^ 32 ∧
      at_ m 36 4 = wfield w 0 14 11 ∧ at_ m 40 88 = 0 ∧ (m.drop 128).take (4 * jobMembers w) = dr.map ∧
      (∀ i < jobShards w, let e := table + 64 * i
        at_ m e 4 = i % 2 ^ 32 ∧ at_ m (e + 4) 4 = shardLen w i % 2 ^ 32 ∧ at_ m (e + 8) 8 = i * jobShardSize w % 2 ^ 64 ∧
        some ((m.drop (e + 16)).take 48) = dr.digests[i]?) ∧
      rec'.length = 128 ∧ at_ rec' 0 4 = 0x54435045 ∧ at_ rec' 4 4 = m.length % 2 ^ 32 ∧ at_ rec' 8 8 = dr.step % 2 ^ 64 ∧
      (dr.step < 2 ^ 64 → at_ rec' 16 8 = 2 ^ 64 - 1 - dr.step) ∧ (rec'.drop 24).take 48 = sha384 m ∧ at_ rec' 72 56 = 0) ∧
    (s.stopped = false → s.eph.restore = some rs → s.eph.scan = none → s.eph.drain = none → s.eph.read = some r → r.id = none → r.failed = false →
     r.data.length = 65536 → r.len = 65536 → s.epoch.copyFailed = false → s.PlainMemory → s.AtHand s.EphAt 64 →
     (∀ e ∈ s.cat.moverDone, e.1 ≠ ephMover) → (∀ e ∈ s.trn.finished, e.unit ≠ 1) → rs.tries = some (c :: more) →
      let shard := rs.shard * jobShardSize w / 65536
      let dst := granuleAddr (jobRegions w) shard
      let digest := (c.manifest.drop (tableOff (at_ c.manifest 14 2 % 8192) + 64 * rs.shard + 16)).take 48
      (∀ t rest, rs.steps = t :: rest → rs.shard + 1 = jobShards w → r.poison = false → sha384 r.data = digest → dst % 64 = 0 → s.AtHand dst 65536 →
        dst + 65536 ≤ s.EphAt ∨ s.EphAt + 64 ≤ dst → t < 2 ^ 64 →
        ∃ u : State, runs .restore u ∧ u.eph.restore = none ∧ (∀ i < 65536, u.byte (dst + i) = r.data.getD i 0) ∧
          s.EphAnswers u [0, rs.invalid % 65536, t % 2 ^ 32, t / 2 ^ 32, (rs.used + 1) % 2 ^ 32,
            (rs.cands.filter (fun e => e.step != t)).length * jobShards w % 2 ^ 32, rs.failed % 2 ^ 32] ∧
          ∀ z, z < dst ∨ dst + 65536 ≤ z → z < s.EphAt + 32 ∨ s.EphAt + 64 ≤ z → u.byte z = s.byte z) ∧
      (∀ t, rs.steps = [t] → more = [] → rs.shard < jobShards w → r.poison = true ∨ sha384 r.data ≠ digest →
        ∃ u : State, runs .restore u ∧ u.eph.restore = none ∧ s.EphOnly u ∧ u.epoch.broken = jobRegions w ∧
          s.EphAnswers u [4, rs.invalid % 65536, 0, 0, rs.used % 2 ^ 32, 0, (rs.failed + 1) % 2 ^ 32])) ∧
    (let recent := fun (l : List Nat) (n : Nat) => (l.filter (fun t => decide (s.now < t + n * 10 ^ 9))).length
     let most := fun (n : Nat) (f : Fld) => s.fld f ephCell ≠ 0 ∧ s.fld f ephCell ≤ n
     let tc := s.fld F.EPH_WARN_CFG_THERM_C ephCell
     let crosses := fun (i : Nat) => if i = 0 then most (recent s.eph.eccTimes 1) F.EPH_WARN_CFG_ECC_PER_S
       else if i = 1 then most (recent s.eph.linkTimes 1) F.EPH_WARN_CFG_LINK_PER_S
       else if i = 2 then tc ≠ 0 ∧ (BitVec.ofNat 8 (s.fld F.HEL_THERM_MARGIN_C helCell)).toInt < tc
       else most (recent s.eph.wdtTimes 60) F.EPH_WARN_CFG_DOME_COUNT
     let was := fun (i : Nat) => s.eph.beyond.testBit i = true
     let armed := fun (u : State) (i : Nat) => (u.fld F.EPH_WARN_STATUS_ARMED ephCell).testBit i = true
     s.stopped = false →
     (s.enabled ephCell = false → exec .ephWarnSample s = .next s.tidy) ∧
     (s.enabled ephCell = true → ∃ u : State, runs .ephWarnSample u ∧
       (∀ i < 4, (armed u i ↔ armed s i ∨ (crosses i ∧ ¬ was i)) ∧ (u.eph.beyond.testBit i = true ↔ crosses i) ∧
         (crosses i → ¬ was i → u.bitAt 0x4002A001 = true)) ∧ u.epoch = s.epoch ∧ u.mem = s.mem)))

open Sys2Proof Sys2Proof.Machine in
/-- R593, R594, R595, R596, R597, R602: stored words and lines. One flipped bit is CORRECTED, two are BAD, a wrong address is BAD, a poisoned write
MARKED; a line is judged by its words in the order of R594 and memory stays as it is. A whole-line write leaves new data, marked or clean; a partial
one merges and marks where the old line did not read whole. An armed flip mask corrupts the next line write it matches, and ARM clears. -/
def Obligations.LinesAreJudgedWrittenAndFlipped : Prop :=
  ∀ (s : State) (a : Agent) (t : FlipTarget) (value : BitVec 32) (la off : Nat) (bs : List Byte) (mark : Bool),
    let errs := s.lineErrOf la
    let st := fun (w : Nat) => (errs.getD w {}).judge
    let raw := s.bytes la 64
    let word := fun (l : List Byte) (w : Nat) => leNat ((l.drop (8 * w)).take 8)
    let r := s.readLine la false
    let ok := fun (x : WordState) => x = .clean ∨ ∃ c b, x = .corrected c b
    let local_ := inStack la = false ∧ inPlates la = false
    let plain := s.epoch.retained = false ∧ s.epoch.broken = []
    let put := fun (u : State) => u = (s.store (la + off) bs mark).2 ∧ (s.store (la + off) bs mark).1 = .ok [] false
    let c := match t with
      | .stack n => smcCell n.val
      | .plates q => platesCell q.val
    let smc := match t with
      | .stack _ => true
      | .plates _ => false
    let f := fun (x y : Fld) (u : State) => u.fld (if smc then x else y) c
    let ctrl := if smc then RegId.SMC_FLIP_CTRL else .PLT_FLIP_CTRL
    (∀ i < 64, (WordErr.mk false (BitVec.ofNat 64 (2 ^ i)) 0 0).judge = .corrected false i) ∧
    (∀ i < 8, (WordErr.mk false 0 (BitVec.ofNat 8 (2 ^ i)) 0).judge = .corrected true i) ∧
    (∀ i j, i < j → j < 64 → (WordErr.mk false (BitVec.ofNat 64 (2 ^ i + 2 ^ j)) 0 0).judge = .bad) ∧
    (∀ i < 64, ∀ j < 8, (WordErr.mk false (BitVec.ofNat 64 (2 ^ i)) (BitVec.ofNat 8 (2 ^ j)) 0).judge = .bad) ∧
    (∀ b, 3 ≤ b → b ≤ 47 → (WordErr.mk false 0 0 b).judge = .bad) ∧ (WordErr.mk true 0 0 0).judge = .marked ∧
    (errs.length = 8 →
      ((∀ w < 8, st w = .clean) → r.bytes = raw ∧ r.poison = false ∧ r.cls = 0) ∧
      ((∀ w < 8, ok (st w)) → r.poison = false ∧ r.bytes.length = 64 ∧ (r.cls = 2 ↔ ∃ w < 8, st w ≠ .clean) ∧
        ∀ w < 8, word r.bytes w = match st w with
          | .corrected false b => word raw w ^^^ 2 ^ b
          | _ => word raw w) ∧
      ((∀ w < 8, st w = .marked) → r.bytes = raw ∧ r.poison = true ∧ r.cls = 0) ∧
      ((∀ w < 8, st w = .bad ∧ (errs.getD w {}).syndrome = (errs.getD 0 {}).syndrome) → r.bytes = raw ∧ r.poison = true ∧ r.cls = 4) ∧
      ((∃ w < 8, ¬ ok (st w)) → (∃ w < 8, st w ≠ .marked) →
        (∃ w < 8, st w ≠ .bad ∨ (errs.getD w {}).syndrome ≠ (errs.getD 0 {}).syndrome) → r.bytes = raw ∧ r.poison = true ∧ r.cls = 3) ∧
      (∀ w < 8, st w ≠ .clean → (∀ v < w, st v = .clean) → r.cls ≠ 0 → r.info % 8 = w ∧ r.info / 8 % 256 = (errs.getD w {}).syndrome % 256 ∧
        (r.info.testBit 19 = true ↔ local_) ∧ r.info.testBit 18 = false ∧
        (∀ chk b, r.cls = 2 → st w = .corrected chk b → r.info.testBit 11 = chk ∧ r.info / 2 ^ 12 % 64 = b % 64))) ∧
    (plain → la % 64 = 0 → off + bs.length ≤ 64 → bs ≠ [] → s.AtHand (la + off) bs.length → s.flipFor la = none → ∃ u, put u ∧
      (∀ i < bs.length, u.byte (la + off + i) = bs.getD i 0) ∧
      (∀ i < 64, i < off ∨ off + bs.length ≤ i → u.byte (la + i) = r.bytes.getD i 0) ∧
      (∀ z, z < la ∨ la + 64 ≤ z → u.byte z = s.byte z ∧ u.lineErrOf z = s.lineErrOf z) ∧ u.lineValid la = true ∧
      u.lineErrOf la = List.replicate 8 { marked := mark || (decide (bs.length < 64) && r.poison) }) ∧
    (s.Writable a ctrl c 0 (putBits value.toNat 0 0 1) → ∃ u, exec (.flipArm a t value) s = .next u ∧
      f F.SMC_FLIP_CTRL_ARM F.PLT_FLIP_CTRL_ARM u = 1 ∧ f F.SMC_FLIP_CTRL_MATCH_EN F.PLT_FLIP_CTRL_MATCH_EN u = bitsOf value.toNat 1 1 ∧
      f F.SMC_FLIP_CTRL_WORDS F.PLT_FLIP_CTRL_WORDS u = bitsOf value.toNat 15 8 ∧
      f F.SMC_FLIP_CTRL_CHECK F.PLT_FLIP_CTRL_CHECK u = bitsOf value.toNat 23 16 ∧
      f F.SMC_FLIP_CTRL_ADDR_BIT F.PLT_FLIP_CTRL_ADDR_BIT u = bitsOf value.toNat 29 24 ∧ RegsKept s u [regAddr ctrl c 0] ∧ MemKept s u) ∧
    (plain → memCell la = some c → la % 64 = 0 → off = 0 → bs.length = 64 → s.AtHand la 64 → f F.SMC_FLIP_CTRL_ARM F.PLT_FLIP_CTRL_ARM s = 1 →
      f F.SMC_FLIP_CTRL_MATCH_EN F.PLT_FLIP_CTRL_MATCH_EN s = 0 ∨ 64 * f F.SMC_FLIP_ADDR_LINE F.PLT_FLIP_ADDR_LINE s = la → ∃ u, put u ∧
      f F.SMC_FLIP_CTRL_ARM F.PLT_FLIP_CTRL_ARM u = 0 ∧
      ∀ w < 8, let hit := (f F.SMC_FLIP_CTRL_WORDS F.PLT_FLIP_CTRL_WORDS s).testBit w
        let m := f F.SMC_FLIP_DATA_MASK F.PLT_FLIP_DATA_MASK s
        let ab := f F.SMC_FLIP_CTRL_ADDR_BIT F.PLT_FLIP_CTRL_ADDR_BIT s
        word (u.bytes la 64) w = (if hit then word bs w ^^^ m else word bs w) ∧
        (u.lineErrOf la).getD w {} = if hit then ⟨mark, BitVec.ofNat 64 m, BitVec.ofNat 8 (f F.SMC_FLIP_CTRL_CHECK F.PLT_FLIP_CTRL_CHECK s),
          if 3 ≤ ab ∧ ab ≤ 47 then ab else 0⟩ else ⟨mark, 0, 0, 0⟩)

open Sys2Proof Sys2Proof.Machine in
/-- R609, R610, R611, R612, R613, R617, R618, R619, R621, R627, R694: sources, time and inputs. A stable source that fails brings the safe states and
CLOCK_LOSS; RELEASE ends them once every source is stable. The time base advances by 1 + RATE × 2⁻³², an OFFSET is added to PENDING, taken at once
forward and by a slew backward. A stamp is read once. An input takes its level; a stuck one sets STUCK until it is deasserted and cleared. PERST_N of a
port is deasserted under R627. FAULT_N is asserted while a cause holds. -/
def Obligations.ClocksInputsAndTheTimeBase : Prop :=
  ∀ (s : State) (a : Agent) (c : ClockSource) (v : Word) (n d i : Nat) (p : Fin 8) (on : Bool) (k : Fin 24) (h : TxStamp) (more : List TxStamp),
    let stable := fun (u : State) (x : ClockSource) => u.flag (match x with
      | .crystal => F.CHR_STATUS_XTAL_STABLE
      | .pcieRef => F.CHR_STATUS_PCIE_REF_OK
      | .ethRef => F.CHR_STATUS_ETH_REF_OK) chrCell
    let idx := match c with
      | .crystal => 0
      | .pcieRef => 1
      | .ethRef => 2
    let fl := fun (u : State) (f : Fld) => u.flag f chrCell = true
    let good := s.power.good = true
    let num := fun (x : Nat) => (BitVec.ofNat 64 x).toInt
    let pend := num (s.fld F.CHR_TB_PENDING_PENDING chrCell)
    let rate := (BitVec.ofNat 32 (s.fld F.CHR_TB_RATE_RATE_IN_FORCE chrCell)).toInt
    let total := n * (2 ^ 32 + max (-4194304) (min 4194304 rate)).toNat
    let input := fun (u : State) (j : Nat) => u.power.inputs.testBit j = true
    let stuck := fun (u : State) (j : Nat) => (u.fld F.CHR_INPUT_STUCK_STUCK chrCell).testBit j = true
    let limited := i = 3 ∨ (32 ≤ i ∧ i ≤ 55)
    (good → stable s c = true → s.chr.xtalLost = false → ∃ u, exec (.sourceFail c) s = .next u ∧ stable u c = false ∧ fl u F.CHR_STATUS_SAFE ∧
      fl u F.CHR_STATUS_CLOCK_LOSS ∧ u.bitAt 0x4002C000 = true ∧ u.chr.released = [] ∧ u.now = s.now ∧ (u.stopped = true ↔ c = .crystal) ∧
      (c = .crystal → ¬ fl u F.CHR_STATUS_TB_XTAL) ∧ u.faultN = true) ∧
    (c ≠ .crystal → stable s c = false → exec (.sourceFail c) s = .next s) ∧
    (good → stable s c = false → (c = .crystal → s.chr.xtalLost = false) → ∃ u, exec (.sourceStable c) s = .next u ∧ stable u c = true ∧
      (idx ∈ s.chr.failed → u.bitAt 0x4002C000 = true) ∧ (c = .crystal → fl u F.CHR_STATUS_TB_XTAL) ∧
      (fl u F.CHR_STATUS_SAFE ↔ fl s F.CHR_STATUS_SAFE) ∧ u.now = s.now ∧ u.mem = s.mem) ∧
    (stable s c = true → exec (.sourceStable c) s = .next s) ∧
    (s.Writable a .CHR_SAFE_CTRL chrCell 0 (putBits (s.reg .CHR_SAFE_CTRL chrCell).toNat 0 0 1) → ∃ u, exec (.safeRelease a) s = .next u ∧ u.mem = s.mem ∧
      u.flag F.CHR_SAFE_CTRL_FW_FAULT chrCell = s.flag F.CHR_SAFE_CTRL_FW_FAULT chrCell ∧
      ((∀ x, stable s x = true) → ¬ fl u F.CHR_STATUS_SAFE ∧ MemKept s u) ∧
      ((∃ x, stable s x = false) → (fl u F.CHR_STATUS_SAFE ↔ fl s F.CHR_STATUS_SAFE) ∧
        (s.flag F.CELL_ERR_STATUS_VALID chrCell = false → u.fld F.CELL_ERR_STATUS_CLASS chrCell = 1))) ∧
    (s.Writable a .CHR_TB_STEP chrCell 0 v.toNat → -2 ^ 63 ≤ pend + v.toInt → ∃ u, exec (.tbStep a v) s = .next u ∧ MemKept s u ∧
      (0 < pend + v.toInt → u.now = (s.now + (pend + v.toInt).toNat) % 2 ^ 64 ∧ u.fld F.CHR_TB_PENDING_PENDING chrCell = 0 ∧ ¬ fl u F.CHR_STATUS_SLEWING) ∧
      (pend + v.toInt ≤ 0 → u.now = s.now ∧ num (u.fld F.CHR_TB_PENDING_PENDING chrCell) = pend + v.toInt ∧
        (fl u F.CHR_STATUS_SLEWING ↔ pend + v.toInt ≠ 0))) ∧
    (good → s.timeFrac < 2 ^ 32 →
      (0 ≤ pend → (s.advanceNs n).now = (s.now + (s.timeFrac + total) / 2 ^ 32) % 2 ^ 64 ∧ (s.advanceNs n).timeFrac = (s.timeFrac + total) % 2 ^ 32) ∧
      (pend = -(d : Int) → 0 < d → d < 2 ^ 63 → s.chr.withheld = 0 → rate = 0 → n ≤ 2 * d →
        (s.advanceNs n).now = (s.now + (s.timeFrac + n * 2 ^ 31) / 2 ^ 32) % 2 ^ 64 ∧
        num ((s.advanceNs n).fld F.CHR_TB_PENDING_PENDING chrCell) = -(d : Int) + (n / 2 : Nat) ∧
        (n = 2 * d → ¬ fl (s.advanceNs n) F.CHR_STATUS_SLEWING))) ∧
    (s.stopped = false → (∀ q, a = .host q → s.fnFlr q.val 0 = false ∧ s.fnAwake q.val 0 = true) →
      ((s.ethPort p.val).stamps = h :: more → ∃ u, exec (.txtsTimeRead a p) s = .next u ∧ u.reply = BitVec.ofNat 64 h.time ∧
        (u.ethPort p.val).stamps = more ∧ RegsKept s u [] ∧ MemKept s u) ∧
      ((s.ethPort p.val).stamps = [] → ∃ u, exec (.txtsTimeRead a p) s = .next u ∧ u.reply = 0 ∧ (u.ethPort p.val).stamps = [] ∧ MemKept s u)) ∧
    (¬ (i ≤ 3 ∨ (8 ≤ i ∧ i ≤ 31) ∨ (32 ≤ i ∧ i ≤ 55)) ∨ (input s i ↔ on = true) ∨ s.power.standby = false →
      exec (.inputChange i on) s = .next s) ∧
    (i ≤ 3 ∨ (8 ≤ i ∧ i ≤ 31) ∨ (32 ≤ i ∧ i ≤ 55) → ¬ (input s i ↔ on = true) → s.power.standby = true → ∃ u, exec (.inputChange i on) s = .next u ∧
      (input u i ↔ on = true) ∧ (∀ j, j ≠ i → (input u j ↔ input s j)) ∧ u.now = s.now ∧
      (32 ≤ i → on = true → ¬ stuck s i → s.stopped = false → u.bitAt 0x4002C001 = true) ∧ (i = 3 → u.mem = s.mem ∧ u.regs = s.regs)) ∧
    (good → limited → input s i → ¬ stuck s i → ∃ u, exec (.inputStuck i) s = .next u ∧ stuck u i ∧ (∀ j, j ≠ i → (stuck u j ↔ stuck s j)) ∧
      u.bitAt 0x4002C001 = true ∧ RegsKept s u [regAddr .CHR_INPUT_STUCK chrCell 0] ∧ u.mem = s.mem) ∧
    (¬ limited ∨ ¬ input s i ∨ stuck s i → exec (.inputStuck i) s = .next s) ∧
    (∀ j < 64, stuck (s.stuckClear v.toNat) j ↔ stuck s j ∧ ¬ (v.toNat.testBit j = true ∧ ¬ input s j)) ∧
    (s.enabled (downCell k.val) = true → ¬ fl s F.CHR_STATUS_SAFE → stable s .pcieRef = true → s.chr.pcieAt + 100000000 ≤ s.now → ∃ u, exec (.dpPerstRelease k) s = .next u ∧
      (∀ j, j ∈ u.chr.released ↔ j = k.val ∨ j ∈ s.chr.released) ∧ u.regs = s.regs ∧ MemKept s u) ∧
    (s.enabled (downCell k.val) = false ∨ fl s F.CHR_STATUS_SAFE ∨ stable s .pcieRef = false ∨ s.now < s.chr.pcieAt + 100000000 → exec (.dpPerstRelease k) s = .next s) ∧
    (s.faultN = true ↔ s.power.good = false ∨ s.power.latch = true ∨ fl s F.CHR_STATUS_SAFE ∨ s.chr.started = false ∨
      s.fld F.ROT_STATUS_BOOT rotCell = 4 ∨ s.hel.trip = true ∨ fl s F.CHR_SAFE_CTRL_FW_FAULT)

open Sys2Proof Sys2Proof.Machine in
/-- R612, R622, R623, R624, R625, R687, R688, R689, R690, R704: resets and power. A warm reset, from SYS_RESET_N after step 3 of bring-up, from
`CHR_RESET_REQ`, or from the crystal's return, resets every cell, keeps the stacks where no unit was at work, the time base, RATE and CLOCK_LOSS, and notes its first cause; one in
progress begins no other. Step 3 ends the resets and enables the boot cells. The power-loss sequence loses all but the fuses and the flash (a command cut short leaves its range
or a counter between, log 41); the part starts again at its reset state once the input, the standby rail and PWR_EN allow and no thermal latch holds. -/
def Obligations.ResetsAndPowerAreSequenced : Prop :=
  ∀ (s : State) (a : Agent),
    let boot := [0x2200, 0x2201, 0x2202, 0x4400]
    let quiet := s.prim.op = none ∧ s.pci.ops = [] ∧ s.pci.finished = [] ∧ s.trn.finished = [] ∧ s.cat.moverDone = [] ∧ s.cat.becmds = [] ∧
      s.eph.restore = none ∧ s.eph.scan = none ∧ s.eph.read = none ∧ s.eph.drain = none ∧ s.epoch.copyFailed = false
    let warm := fun (u : State) (cause : Nat) => u.chr.warm = true ∧ u.chr.up = false ∧ u.chr.started = false ∧ u.faultN = true ∧
      (∀ d ∈ cellSubtree 0, u.flag F.CELL_STATE_RESETTING d = true ∧ (d ≠ chrCell → u.flag F.CELL_CTRL_EN d = noEnable d)) ∧
      u.fld F.CHR_STATUS_RESET_CAUSE chrCell = cause ∧ u.now = s.now ∧
      (∀ f ∈ [F.CHR_TB_RATE_RATE_IN_FORCE, F.CHR_TB_PENDING_PENDING, F.CHR_STATUS_XTAL_STABLE, F.CHR_STATUS_CLOCK_LOSS],
        (cause = 3 ∧ f = F.CHR_STATUS_XTAL_STABLE) ∨ u.fld f chrCell = s.fld f chrCell) ∧
      (quiet → (∀ z, inStack z = true → u.byte z = s.byte z ∧ (z % 64 = 0 → u.lineValid z = s.lineValid z)) ∧ ∀ z, inPlates z = true → u.byte z = 0)
    let good := s.power.good = true
    let sysRst := s.power.inputs.testBit 0 = true
    let p := s.power
    let lost := fun (u : State) (q : PowerState) => u.power = { q with good := false } ∧ u.stopped = true ∧ u.faultN = true ∧ u.regs = State.reset.regs ∧
      u.mem = State.reset.mem ∧ u.bits = State.reset.bits ∧ u.cores = State.reset.cores ∧ u.now = State.reset.now ∧ u.pending = s.pending ∧
      u.rot.revoked = s.rot.revoked ∧ (s.rot.flashCmd = none → u.rot.flash = s.rot.flash) ∧ (s.rot.svnFrom = none → u.rot.svn = s.rot.svn) ∧
      (∀ c o n, s.rot.flashCmd = some (c, some (o, n)) → ∀ z, z < o ∨ o + n ≤ z → u.flashByte z = s.flashByte z) ∧
      ∀ old, s.rot.svnFrom = some old → u.fuseSvn ≤ s.fuseSvn ∧ (old ≤ s.fuseSvn → old ≤ u.fuseSvn)
    let starts := fun (q : PowerState) => q.input = true ∧ q.standby = true ∧ q.pwrEn = true ∧ q.latch = false ∧ q.good = false
    let on := fun (u : State) (q : PowerState) => u.power = q ∧ u.regs = s.regs ∧ u.mem = s.mem ∧ u.chr = s.chr ∧
      ∀ k < 24, (bitsOf (u.cfg (2 + k) 0 0x78) 22 22 = 1 ↔ q.inputs.testBit (8 + k) = true)
    (good → sysRst → s.chr.everUp = true → s.chr.warm = false → ∃ u, exec (.warmReset .sysReset) s = .next u ∧ warm u 1) ∧
    (¬ sysRst ∨ s.chr.everUp = false ∨ s.chr.warm = true → exec (.warmReset .sysReset) s = .next s) ∧
    (good → ¬ sysRst → s.chr.everUp = true → s.chr.warm = false → p.standby = true → ∃ u, exec (.inputChange 0 true) s = .next u ∧ warm u 1) ∧
    (good → s.chr.everUp = false → ¬ sysRst → p.standby = true → ∃ u, exec (.inputChange 0 true) s = .next u ∧ u.chr = s.chr ∧ u.regs = s.regs ∧ u.mem = s.mem) ∧
    ((∀ q, a ≠ .host q) → s.Writable a .CHR_RESET_REQ chrCell 0 1 →
      (s.chr.warm = false → ∃ u, exec (.warmResetReq a) s = .next u ∧ warm u 2) ∧
      (s.chr.warm = true → ∃ u, exec (.warmResetReq a) s = .next u ∧ u.regs = s.regs ∧ MemKept s u ∧ u.chr = s.chr)) ∧
    (good → s.chr.xtalLost = true → s.flag F.CHR_STATUS_XTAL_STABLE chrCell = false → s.chr.warm = false → ∃ u, exec (.sourceStable .crystal) s = .next u ∧
      warm u 3 ∧ u.chr.xtalLost = false ∧ u.flag F.CHR_STATUS_XTAL_STABLE chrCell = true ∧ u.flag F.CHR_STATUS_TB_XTAL chrCell = true ∧
      u.flag F.CHR_STATUS_SAFE chrCell = false) ∧
    (s.flag F.CHR_STATUS_XTAL_STABLE chrCell = true → ¬ sysRst → s.chr.up = false → s.stopped = false → ∃ u, exec .bootCellsEnable s = .next u ∧
      u.chr.warm = false ∧ u.chr.up = true ∧ u.chr.everUp = true ∧ u.rot.running = true ∧
      ∀ d ∈ cellSubtree 0, u.flag F.CELL_STATE_RESETTING d = false ∧ (d ∈ boot → u.flag F.CELL_CTRL_EN d = true)) ∧
    (s.flag F.CHR_STATUS_XTAL_STABLE chrCell = false ∨ sysRst ∨ s.chr.up = true ∨ s.stopped = true → exec .bootCellsEnable s = .next s) ∧
    exec .inputPowerUp s = .next { s with power := { p with input := true, standby := true } } ∧
    (starts { p with pwrEn := true } → ∃ u, exec .pwrEnAssert s = .next u ∧ on u { p with pwrEn := true, good := true }) ∧
    (¬ starts { p with pwrEn := true } → exec .pwrEnAssert s = .next { s with power := { p with pwrEn := true } }) ∧
    (starts p → ∃ u, exec .powerOnResetEnd s = .next u ∧ on u { p with good := true }) ∧
    (¬ starts p → exec .powerOnResetEnd s = .next s) ∧
    (∃ u, exec .pwrEnDeassert s = .next u ∧ lost u { p with pwrEn := false, latch := false }) ∧
    (∃ u, exec .powerLoss s = .next u ∧ lost u { p with input := false }) ∧
    (p.standby = true → ∃ u, exec .thermalShutdown s = .next u ∧ lost u { p with latch := true }) ∧
    (p.standby = false → exec .thermalShutdown s = .next s) ∧
    (∃ u, exec .standbyRailLoss s = .next u ∧ lost u { p with input := false, standby := false, latch := false, inputs := 0 })

open Sys2Proof Sys2Proof.Machine in
/-- R632, R633, R635, R636, R638, R639, R640, R641, R643, R644, R645: the Heliostat. A tick moves the bucket and the excursion timer by the
controlled power, sets the array limit to the least of its limits and every guider clock, bounds the rise of the current, and begins or lowers a
dark frame. A window agrees or not, counts its run, and moves the calibration when it agrees. A thermal sample sets MARGIN_C, steps THERMAL and begins
or ends TRIP. A derate lowers FMAX_MHZ or is refused with its code. -/
def Obligations.HeliostatControlsPowerAndClocks : Prop :=
  ∀ (s : State) (t : HelTickIn) (a : Agent) (cell : BitVec 16) (steps : BitVec 8) (dies : Vector (BitVec 8) 5),
    let x := s.hel
    let fl := fun (u : State) (f : Fld) => u.flag f helCell = true
    let w := fun (f : Fld) => s.fld f helCell
    let run := s.stopped = false
    (s.stopped = true → exec (.helTick t) s = .next s ∧ exec .helWindow s = .next s ∧ exec (.thermalSample dies) s = .next s) ∧
    (run → exec (.helTick t) s = exec (.helTick { t with upsets := [] }) (s.primUpsets t.upsets)) ∧
    (run → t.upsets = [] →
      let cap := w F.HEL_CAP_W_CAP_IN_FORCE
      let peak := max cap (w F.HEL_PEAK_PEAK_W_IN_FORCE)
      let us := w F.HEL_PEAK_PEAK_US_IN_FORCE
      let d : Rat := (peak - cap : Nat) * (us : Rat)
      let r : Rat := (cap : Rat) - d / 10000
      let vin := w F.HEL_MEAS_VIN_MV
      let est := x.gain * t.rawW + x.offset
      let m : Rat := if fl s F.HEL_STATUS_SENSOR_FAIL then est * 112 / 100 else (vin * w F.HEL_MEAS_IIN_CA : Nat) / (100000 : Rat)
      let p := if fl s F.HEL_STATUS_SENSOR_DISAGREE then max est m else est
      let high := ((peak : Rat) - r) * 10 < min d (x.bucket + (r - p)) ∧ (if (cap : Rat) < p then x.timer + 1 else 0) + 10 < us
      let allowed : Rat := if high then peak else r
      let k := s.helShare t (if vin ≠ 0 then min allowed ((vin : Rat) * 98 * 60 / 100000) else allowed)
      let throttle := s.power.inputs.testBit 3 = true ∨ (s.fld F.CHR_INPUT_STUCK_STUCK chrCell).testBit 3 = true
      let slew := max 18 (min 180 (w F.HEL_SLEW_SLEW_A))
      let floor : Rat := (min 128 (w F.HEL_SLEW_FLOOR) : Nat) * 1800 / 128
      let idle := s.prim.op = none ∧ s.prim.queue = [] ∧ s.enabled qnwCell = true
      ∃ u, exec (.helTick t) s = .next u ∧ u.mem = s.mem ∧ (t.sample = none →
        u.hel.bucket = min d (x.bucket + (r - p)) ∧ u.hel.timer = (if (cap : Rat) < p then x.timer + 1 else 0) ∧
        (fl u F.HEL_STATUS_BUCKET_LOW ↔ ¬ high) ∧ (fl u F.HEL_STATUS_THROTTLE ↔ throttle) ∧
        (throttle → ¬ fl s F.HEL_STATUS_THROTTLE → fl u F.HEL_EVENTS_THROTTLE_IN ∧ u.bitAt 0x4002D000 = true) ∧
        (let f := u.fld F.PRIM_CLK_LIMIT_HEL_LIMIT_MHZ qnwCell
         f ≤ 1800 ∧ f ≤ s.fusedMin ∧ (f ≤ 500 ∨ (f : Rat) ≤ 1800 * k) ∧ (∀ l, x.accord = some l → f ≤ l) ∧ (x.trip = true → f ≤ 500) ∧
         (throttle → f ≤ max 500 (min 1800 (w F.HEL_THROTTLE_ARRAY_MHZ))) ∧ (f ≤ 500 ∨ t.predicted * f ≤ (t.current + slew) * 1800) ∧
         (∀ n, s.thermSteps 0 = n → n ≠ 0 → f ≤ max 500 (1800 - 25 * n)) ∧
         ((u.fld F.HEL_REASON_ARRAY helCell).testBit 9 = true ↔ f = s.fusedMin)) ∧
        (∀ n < 128, s.cellState (guiderCell n) ≠ 0 →
          let c := u.fld F.CELL_POWER_CUR_MHZ (guiderCell n)
          let top := s.fld F.CELL_CLOCK_FMAX_MHZ (guiderCell n)
          1200 ≤ c ∧ c % 25 = 0 ∧ (c ≤ 1200 ∨ (c ≤ top ∧ (c : Rat) ≤ top * k)) ∧ (x.trip = true → c = 1200) ∧
          (throttle → c ≤ max 1200 (min 3000 (w F.HEL_THROTTLE_CORE_MHZ)))) ∧
        (idle → x.frame = none → x.darkLevel = none → 0 < t.current → u.hel.frame = some ((t.current : Rat), w F.HEL_SLEW_HOLD_US) ∧
          u.prim.darkFrame = true ∧ u.fld F.HEL_STATUS_DARK_LEVEL helCell = min 128 ((2 * t.current * 128 + 1800) / 3600)) ∧
        (idle → s.prim.darkFrame = true → ∀ l h, x.frame = some (l, h) →
          (0 < h → u.hel.frame = some (l, h - 1)) ∧
          (h = 0 → let l' := if floor < l then max floor (l - slew) else l
            u.hel.frame = if l' ≤ 0 then none else some (l', 0))) ∧
        (¬ idle → u.hel.frame = none ∧ u.prim.darkFrame = false))) ∧
    (x.pairs = [] → exec .helWindow s = .next s) ∧
    (run → x.pairs ≠ [] →
      let n : Rat := x.pairs.length
      let m := (x.pairs.map Prod.fst).sum / n
      let e := (x.pairs.map Prod.snd).sum / n
      let c := x.gain * e + x.offset
      let agree := x.badVolt = false ∧ |m - c| ≤ max m c * 12 / 100
      let frozen := fl s F.HEL_STATUS_SENSOR_DISAGREE
      let next := fun (f : Fld) => min 255 (w f + 1)
      let bound := fun (lo hi v : Rat) => max lo (min hi v)
      ∃ u, exec .helWindow s = .next u ∧ u.mem = s.mem ∧ u.hel.pairs = [] ∧ (fl u F.HEL_STATUS_SENSOR_FAIL ↔ x.badVolt = true) ∧
        (agree → u.fld F.HEL_CAL_DISAGREE_RUN helCell = 0 ∧ u.fld F.HEL_CAL_AGREE_RUN helCell = next F.HEL_CAL_AGREE_RUN ∧
          (fl u F.HEL_STATUS_SENSOR_DISAGREE ↔ frozen ∧ next F.HEL_CAL_AGREE_RUN < 16)) ∧
        (¬ agree → u.fld F.HEL_CAL_AGREE_RUN helCell = 0 ∧ u.fld F.HEL_CAL_DISAGREE_RUN helCell = next F.HEL_CAL_DISAGREE_RUN ∧
          (fl u F.HEL_STATUS_SENSOR_DISAGREE ↔ frozen ∨ 16 ≤ next F.HEL_CAL_DISAGREE_RUN)) ∧
        (¬ agree ∨ frozen → u.hel.gain = x.gain ∧ u.hel.offset = x.offset) ∧
        (agree → ¬ frozen → (∀ p ∈ x.pairs, ∀ q ∈ x.pairs, p.2 - q.2 < e * 2 / 100) →
          u.hel.gain = x.gain + (bound (90 / 100) (130 / 100) x.gain - x.gain) / 8 ∧
          u.hel.offset = x.offset + (bound (-200) 200 (m - x.gain * e) - x.offset) / 8)) ∧
    (run →
      let hot := (dies.toList.map BitVec.toNat).foldl max 0
      let limit := w F.HEL_THERM_LIMIT_C
      let trips := max limit (w F.HEL_THERM_TRIP_C) ≤ hot
      let trained := fun (k : Nat) => s.flag F.SMC_STATUS_TRAINED (smcCell k) = true
      let stack := fun (k : Nat) => (w F.HEL_THERM_STACK_LIMIT_C : Int) - s.fld F.SMC_STATUS_TEMP_C (smcCell k)
      let die := (limit : Int) - hot
      ∃ u m, exec (.thermalSample dies) s = .next u ∧ u.mem = s.mem ∧ u.fld F.HEL_THERM_HOT_C helCell = hot ∧
        (m = die ∨ ∃ k < 8, trained k ∧ m = stack k) ∧ m ≤ die ∧ (∀ k < 8, trained k → m ≤ stack k) ∧
        (BitVec.ofNat 8 (u.fld F.HEL_THERM_MARGIN_C helCell)).toInt = max (-128) (min 127 m) ∧
        (u.hel.trip = true ↔ trips ∨ (x.trip = true ∧ ¬ hot + 10 < limit)) ∧
        (trips → x.trip = false → fl u F.HEL_STATUS_TRIP ∧ fl u F.HEL_EVENTS_TRIP ∧ u.bitAt 0x4002D000 = true) ∧
        (m < 0 → x.thermCold = 9 → u.thermSteps 0 = max (s.thermSteps 0) (min 52 (s.thermSteps 0 + 1)) ∧ u.hel.thermCold = 0) ∧
        (m < 0 → x.thermCold < 9 → u.thermSteps 0 = s.thermSteps 0 ∧ u.hel.thermCold = x.thermCold + 1 ∧ u.hel.thermHot = 0) ∧
        (3 ≤ m → x.thermHot = 99 → ∀ n < 129, u.thermSteps n = s.thermSteps n - 1) ∧
        (0 ≤ m → m < 3 → u.hel.thermCold = 0 ∧ u.hel.thermHot = 0 ∧ ∀ n, u.thermSteps n = s.thermSteps n)) ∧
    (s.Writable a .HEL_DERATE helCell 0 (cell.toNat + steps.toNat * 2 ^ 16) →
      let n := cell.toNat
      let fused := fusedFmax n
      let now := s.fld F.CELL_CLOCK_FMAX_MHZ n
      let mine := kindOf n = 0x11 ∨ kindOf n = 0x18
      let low := if kindOf n = 0x11 then 1000 else 2400
      let code := if ¬ mine then 1 else if steps.toNat < (fused - now) / 25 then 2 else if fused < low + 25 * steps.toNat then 3 else 0
      ∃ u, exec (.helDerate a cell steps) s = .next u ∧ MemKept s u ∧ u.fld F.HEL_DERATE_RESULT_CODE helCell = code ∧
        u.fld F.HEL_DERATE_RESULT_RESULT helCell = (if code = 0 then 1 else 2) ∧
        (code = 0 → u.fld F.CELL_CLOCK_FMAX_MHZ n = fused - 25 * steps.toNat) ∧
        RegsKept s u (regAddr .HEL_DERATE_RESULT helCell 0 :: (if code = 0 then [regAddr .CELL_CLOCK n 0] else [])))

open Sys2Proof Sys2Proof.Machine in
/-- R655, R656, R663, R664, R668, R677, R678, R679, R680, R681: watchdogs, the host, the sideband and exposures. An expiry, once the watchdog has run down, captures the
pc and resets the core's cell alone, records TIMEOUT, and fences the core at the third within 60 s, else restarts it; only the core kicks its watchdog.
A heartbeat arms and restarts its timer, whose expiry, once it has run down, sets ABSENT, and ATTACH ends absence and resets the port's PF0 queues without entries. A sensor answers its register. Setting EN reads
the selection list or is refused with PROTOCOL; a tick writes one record, or is lost and counted. -/
def Obligations.DomeCoresHostAndExposures : Prop :=
  ∀ (s : State) (a : Agent) (n : Fin 8) (p : Fin 2) (count : BitVec 32) (period : BitVec 20) (q addr sensor : Nat) (smbus : Bool) (bs : List Byte)
      (l : List (Nat × Nat)) (times : List Nat),
    let fl := fun (u : State) (f : Fld) (i : Nat) => u.flag f domeSub i = true
    let core := domeCell n.val
    let left := fun (u : State) => smapGet (fun _ => 500000000) u.dom.wdt n.val
    let beat := fun (u : State) => smapGet (fun _ => 0) u.dom.beat p.val
    let counts := s.stopped = false ∧ fl s F.DOM_COREn_WDT_CFG_EN n.val ∧ s.enabled core = true ∧ s.flag F.GDR_DBG_STATUS_HALTED core = false ∧ left s = 0
    let pc := (s.core (.dome n)).pc
    let third := ∃ x y rest, times = x :: y :: rest ∧ s.now ≤ y + 60000000000
    (¬ counts → exec (.watchdogExpiry n) s = .next s) ∧
    (counts → smapGet (fun _ => []) s.dom.expiries n.val = times → ∃ u, exec (.watchdogExpiry n) s = .next u ∧
      u.fld F.DOM_COREn_WDT_PC_PC domeSub n.val = pc.toNat ∧ u.fld F.DOM_COREn_WDT_LAST_TIME domeSub n.val = s.now % 2 ^ 64 ∧
      u.fld F.DOM_COREn_WDT_STATUS_EXPIRIES domeSub n.val = min 255 (s.fld F.DOM_COREn_WDT_STATUS_EXPIRIES domeSub n.val + 1) ∧
      u.flag F.CELL_STATE_RESETTING core = true ∧ u.fld F.CELL_STATE_GEN core = (s.fld F.CELL_STATE_GEN core + 1) % 65536 ∧
      u.flag F.CELL_CTRL_EN core = false ∧ u.bitAt (0x4002B000 + n.val) = true ∧
      (s.flag F.CELL_ERR_STATUS_VALID domeSub = false → u.fld F.CELL_ERR_STATUS_CLASS domeSub = 7 ∧ u.fld F.CELL_ERR_INFO_INFO domeSub = n.val ∧
        u.fld F.CELL_ERR_ADDR_ADDR domeSub = pc.toNat % 2 ^ 48) ∧
      (fl u F.DOM_COREn_WDT_STATUS_FENCED n.val ↔ fl s F.DOM_COREn_WDT_STATUS_FENCED n.val ∨ third) ∧
      (¬ third → fl s F.DOM_COREn_WDT_CFG_RESTART n.val → n.val ∈ u.dom.restart) ∧ (third → u.dom.restart = s.dom.restart) ∧
      (∀ m : Fin 8, m ≠ n → ((s.core (.dome m)).asleep = none → u.core (.dome m) = s.core (.dome m)) ∧ u.cellState (domeCell m.val) = s.cellState (domeCell m.val))) ∧
    (s.Writable a .DOM_COREn_WDT_KICK domeSub n.val 1 → ∃ u, exec (.wdtKick a n) s = .next u ∧ u.mem = s.mem ∧
      (a = .firmware n → left u = max 10 (s.fld F.DOM_COREn_WDT_CFG_TIMEOUT_MS domeSub n.val) * 1000000 ∧ u.regs = s.regs ∧ u.bits = s.bits) ∧
      (a ≠ .firmware n → left u = left s ∧ (s.flag F.CELL_ERR_STATUS_VALID domeSub = false → u.fld F.CELL_ERR_STATUS_CLASS domeSub = 1))) ∧
    (s.Writable (.host p) .DOM_HOST_HEARTBEAT domeSub p.val count.toNat → ∃ u, exec (.hostHeartbeat p count) s = .next u ∧
      u.fld F.DOM_HOST_HEARTBEAT_COUNT domeSub p.val = count.toNat ∧
      (fl u F.DOM_HOST_STATE_ARMED p.val ↔ fl s F.DOM_HOST_STATE_ARMED p.val ∨ ¬ fl s F.DOM_HOST_STATE_ABSENT p.val) ∧
      (¬ fl s F.DOM_HOST_STATE_ABSENT p.val → beat u = max 100 (min 60000 (s.fld F.DOM_HOST_HB_CFG_TIMEOUT_MS domeSub p.val)) * 1000000) ∧
      (fl u F.DOM_HOST_STATE_ABSENT p.val ↔ fl s F.DOM_HOST_STATE_ABSENT p.val) ∧ MemKept s u ∧
      RegsKept s u [regAddr .DOM_HOST_HEARTBEAT domeSub p.val, regAddr .DOM_HOST_STATE domeSub p.val]) ∧
    (s.stopped = false → fl s F.DOM_HOST_STATE_ARMED p.val → ¬ fl s F.DOM_HOST_STATE_ABSENT p.val → beat s = 0 → ∃ u, exec (.heartbeatExpiry p) s = .next u ∧
      fl u F.DOM_HOST_STATE_ABSENT p.val ∧ u.bitAt (0x4002B008 + p.val) = true ∧ RegsKept s u [regAddr .DOM_HOST_STATE domeSub p.val] ∧
      u.mem = s.mem ∧ u.cat = s.cat) ∧
    (¬ fl s F.DOM_HOST_STATE_ARMED p.val ∨ fl s F.DOM_HOST_STATE_ABSENT p.val ∨ beat s ≠ 0 → exec (.heartbeatExpiry p) s = .next s) ∧
    (s.Writable a .DOM_HOST_ATTACH domeSub p.val 1 → ∃ u : State, exec (.attach a p) s = .next u.settle.noteLevels ∧
      ¬ fl u F.DOM_HOST_STATE_ABSENT p.val ∧ ¬ fl u F.DOM_HOST_STATE_ARMED p.val ∧
      u.fld F.DOM_HOST_STATE_HGEN domeSub p.val = (s.fld F.DOM_HOST_STATE_HGEN domeSub p.val + 1) % 65536 ∧ u.bitAt (0x4002B008 + p.val) = true ∧
      (q < 4096 → s.catOwner q = 1 → s.fld F.CAT_Qq_OWNER_FN catCell q = 0 → s.fld F.CAT_Qq_OWNER_PORT catCell q = p.val → s.catResetting q = false →
        u.catEn q = false ∧ u.catResetting q = true ∧ (u.catQueue q).noRecords = true ∧
        (u.catQueue q).cmds = [] ∧ u.fld F.CAT_Qq_PTR_CQ_TAIL catCell q = s.fld F.CAT_Qq_PTR_CQ_TAIL catCell q)) ∧
    (addr ≠ 0x4C + Config.modId % 4 ∨ s.mgmtRuns = false → exec (.mctpRequest smbus addr sensor) s = .next s) ∧
    (addr = 0x4C + Config.modId % 4 → s.mgmtRuns = true → ∃ u v, exec (.mctpRequest smbus addr sensor) s = .next u ∧
      u.dom = { s.dom with mctp := s.dom.mctp ++ [(smbus, sensor, v)] } ∧ u.regs = s.regs ∧ MemKept s u ∧
      (sensor = 1 → v = s.fld F.HEL_MEAS_P_MEAS_W helCell) ∧ (sensor = 2 → v = s.fld F.HEL_MEAS_VIN_MV helCell) ∧
      (sensor = 3 → v = s.fld F.HEL_THERM_HOT_C helCell) ∧ (sensor = 4 → v = s.fld F.HEL_THERM_MARGIN_C helCell) ∧
      (sensor = 6 → v = s.fld F.HEL_REASON_ARRAY helCell) ∧ (sensor = 7 → v = s.fld F.DOM_FW_STATUS_STATE domeSub)) ∧
    (let entries := s.fld F.PHOT_EXP_LIST_ENTRIES 0
     let base := 4096 * s.fld F.PHOT_EXP_LIST_BASE 0
     let size := s.fld F.PHOT_EXP_RING_SIZE_LOG2 0
     let w := wordsOf entries bs
     let word := fun (i : Nat) => (w.getD i 0).toNat
     let named := ∀ i < entries, (cellKind (word i % 2 ^ 16)).isSome = true ∧ word i / 2 ^ 24 = 0
     let counters := (List.range entries).flatMap fun i => ((List.range 8).filter fun c => (word i).testBit (16 + c)).map fun c => (word i % 2 ^ 16, c)
     let sized := 1 ≤ entries ∧ entries ≤ 1024 ∧ 1 ≤ size ∧ size ≤ 16
     s.Writable a .PHOT_EXP_CTRL 0 0 (1 + period.toNat * 2 ^ 12) → s.flag F.PHOT_EXP_CTRL_EN 0 = false →
     ∃ u, exec (.exposureEnable a period) s = .next u ∧ u.fld F.PHOT_EXP_CTRL_PERIOD_US 0 = period.toNat ∧
       (sized → s.PlainMemory → (s.load base (4 * entries)).1 = .ok bs false → named → counters ≠ [] → u.flag F.PHOT_EXP_CTRL_EN 0 = true ∧
         u.exp = { list := counters, seq := 0, lost := 0, last := s.now } ∧ u.fld F.PHOT_EXP_PTR_HEAD 0 = 0 ∧ u.fld F.PHOT_EXP_PTR_TAIL 0 = 0 ∧
         u.fld F.PHOT_EXP_PTR_NOTIFY_BIT 0 = s.fld F.PHOT_EXP_PTR_NOTIFY_BIT 0) ∧
       (¬ sized ∨ (s.PlainMemory ∧ (s.load base (4 * entries)).1 = .ok bs false ∧ (¬ named ∨ counters = [])) → u.flag F.PHOT_EXP_CTRL_EN 0 = false ∧
         u.exp = s.exp ∧ (s.flag F.CELL_ERR_STATUS_VALID 0 = false → u.fld F.CELL_ERR_STATUS_CLASS 0 = 6))) ∧
    (let us := max 1 (min 1000000 (s.fld F.PHOT_EXP_CTRL_PERIOD_US 0)) * 1000
     let t := s.now / us * us
     let head := s.fld F.PHOT_EXP_PTR_HEAD 0
     let tail := s.fld F.PHOT_EXP_PTR_TAIL 0
     let log := s.fld F.PHOT_EXP_RING_SIZE_LOG2 0
     let size := (64 + 8 * l.length + 63) / 64 * 64
     let r := 4096 * s.fld F.PHOT_EXP_RING_BASE 0 + size * (tail % 2 ^ log)
     let due := s.stopped = false ∧ s.flag F.PHOT_EXP_CTRL_EN 0 = true ∧ s.exp.last < t ∧ t ≠ 0
     let room := (tail + 65536 - head) % 65536 < 2 ^ log
     (¬ due → exec .exposureTick s = .next s) ∧
     (due → ∃ u, exec .exposureTick s = .next u ∧ u.exp.seq = s.exp.seq + 1 ∧ u.exp.last = t ∧ u.bitAt 0x40010300 = true ∧
       (¬ room → u.mem = s.mem ∧ u.regs = s.regs ∧ u.exp.lost = min 0xFFFFFFFF (s.exp.lost + 1)) ∧
       (room → s.exp.list = l → s.PlainMemory → s.AtHand r size → l.length ≤ 8192 → t < 2 ^ 64 → s.exp.seq + 1 < 2 ^ 64 →
         s.fld F.PHOT_EXP_PTR_NOTIFY_BIT 0 = 0xFFFFFFFF →
         let at_ := fun (o k : Nat) => leNat (u.bytes (r + o) k)
         u.exp.lost = 0 ∧ u.fld F.PHOT_EXP_PTR_TAIL 0 = (tail + 1) % 65536 ∧ at_ 0 4 = 0x50584F50 ∧ at_ 4 4 = l.length ∧ at_ 8 8 = s.exp.seq + 1 ∧
         at_ 16 8 = t ∧ at_ 24 4 = min s.exp.lost 0xFFFFFFFF ∧ at_ 28 36 = 0 ∧
         (∀ i c g, l[i]? = some (g, c) → c < 8 → at_ (64 + 8 * i) 6 = (if s.resetting g then 0 else s.fld F.PHOT_CNTc_COUNT g c) ∧
           at_ (64 + 8 * i + 6) 2 = c + 8 * (s.fld F.PHOT_OVF_OVF g / 2 ^ c % 2) + 16 * (s.resetting g).toNat +
             32 * (1 - s.fld F.PHOT_CTRL_EN g / 2 ^ c % 2)) ∧
         ∀ z, z < r ∨ r + size ≤ z → u.byte z = s.byte z)))

namespace Sys2Proof.Machine

/-- R611, R612, R622, R688, R689, R690: what reaches the part while its islands stand: the sources, the inputs, the reset pin and the power. -/
def Reaches612 : Instr → Prop
  | .sourceStable _ | .sourceFail _ | .inputChange _ _ | .inputStuck _ | .warmReset _ | .powerOnResetEnd | .inputPowerUp | .pwrEnAssert
  | .pwrEnDeassert | .powerLoss | .thermalShutdown | .standbyRailLoss => True
  | _ => False

end Sys2Proof.Machine

open Sys2Proof Sys2Proof.Machine in
/-- R616: a step takes the command at the front of the queue and answers what exec answers on the rest of the state; on an empty queue the
block is left to itself for one nanosecond of its time source (the model's choice, log 5), in which the time base runs at RATE 0 by 1 ns and
memory, bits and cores stand. No word spells a command, so placing a word changes nothing. -/
def Obligations.StepRunsTheFrontCommand : Prop :=
  ∀ (s : State) (c : Instr) (rest : List Instr) (nbits w : Nat),
    (s.pending = c :: rest → step s = exec c { s with pending := rest }) ∧
    (s.pending = [] → ∃ t, step s = .next t ∧ t.pending = [] ∧ t.mem = s.mem ∧ t.bits = s.bits ∧ t.cores = s.cores ∧
      (s.power.good = true → s.fld F.CHR_TB_RATE_RATE_IN_FORCE chrCell = 0 → s.fld F.CHR_TB_PENDING_PENDING chrCell = 0 → s.timeFrac < 2 ^ 32 →
        t.now = (s.now + 1) % 2 ^ 64) ∧
      (s.power.good = false → t = s)) ∧
    s.withFetchWord nbits w = s

open Sys2Proof Sys2Proof.Machine in
/-- R612, R688: while the crystal has failed, or the rails are down, every island stands with its state held: no command but those of the
sources, the inputs, the reset pin and the power changes anything. -/
def Obligations.NothingHappensWhileTheIslandsStand : Prop :=
  ∀ (s : State) (c : Instr), s.stopped = true → ¬ Reaches612 c → exec c s = .next s

open Sys2Proof Sys2Proof.Machine in
/-- R1, R599, R616, R622, R694: what power-on reset leaves: every register at its reset value, memory that reads 0 without error, no bit set, the time
base at 0, nothing waiting, FAULT_N asserted, and no cell ENABLED but those that have no enable. (The values the spec does not give are the
model's, logs 2 and 3.) -/
def Obligations.ResetLeavesThePartWellKept : Prop :=
  let s := State.reset
  s.Inv ∧ s.pending = [] ∧ s.now = 0 ∧ s.stopped = false ∧ s.faultN = true ∧ s.chr.up = false ∧
  (∀ r cell i, s.reg r cell i = resetValue r cell i) ∧
  (∀ a, s.byte a = 0 ∧ s.lineErrOf a = LineErr.clean ∧ s.lineValid a = false ∧ s.bitAt a = false) ∧
  (∀ d ∈ cellSubtree 0, noEnable d = false → s.enabled d = false) ∧
  s.fld F.HEL_CAP_W_CAP_IN_FORCE helCell = 2800 ∧ s.fld F.HEL_PEAK_PEAK_W_IN_FORCE helCell = 3300 ∧
  s.fld F.EPH_CFG_RATE_GBPS ephCell = 100 ∧ s.fld F.DOM_COREn_WDT_CFG_TIMEOUT_MS domeSub 7 = 500

open Sys2Proof Sys2Proof.Machine in
/-- R563, R564, R599: an invariant of every step. Every step answers a next state. From a state whose memories are in canonical form, with no
stored byte and no error in a line that no write has reached, it leaves one; the queue loses its front and nothing else; the revoked slots and
the security version, once blown in the fuses, stay (of one a command is still blowing, the version it began from); a free value once used is not used again (log 1). -/
def Obligations.EveryStepKeepsThePartWell : Prop :=
  ∀ s : State, ∃ t, step s = .next t ∧
    (s.Inv → t.Inv) ∧ t.pending = s.pending.drop 1 ∧ (s.rot.svnFrom = none → s.fuseSvn ≤ t.fuseSvn) ∧
    (∀ old, s.rot.svnFrom = some old → old ≤ s.fuseSvn → old ≤ t.fuseSvn) ∧
    (∀ k, s.revokedSlots.testBit k = true → t.revokedSlots.testBit k = true) ∧ s.freeCount ≤ t.freeCount
end

