-- ==== Sys2Proof/Laws/Memory.lean ====
section
/-! SUPPORT. The laws of the sparse maps and of stored memory: what a read gives after a write, and that every operation keeps the
canonical form. -/

namespace Sys2Proof

variable {α : Type} [DecidableEq α] {d : Nat → α}

/-- Canonical form, said once for a lower bound: the keys lie above it and rise, and no value is the default. -/
theorem smapWfAbove_cons {lo : Option Nat} {a : Nat} {v : α} {m : SMap α} :
    smapWfAbove d lo ((a, v) :: m) = true ↔ (∀ b ∈ lo, b < a) ∧ v ≠ d a ∧ smapWfAbove d (some a) m = true := by
  cases lo <;> simp [smapWfAbove, and_assoc]

theorem smapWfAbove_mono {lo lo' : Option Nat} {m : SMap α} (h : smapWfAbove d lo m = true)
    (hl : ∀ b ∈ lo', ∀ p ∈ m, b < p.1) : smapWfAbove d lo' m = true := by
  cases m with
  | nil => rfl
  | cons p m =>
    obtain ⟨a, v⟩ := p
    rw [smapWfAbove_cons] at h ⊢
    exact ⟨fun b hb => hl b hb (a, v) (by simp), h.2⟩

theorem smapWfAbove_lt {lo : Nat} {m : SMap α} (h : smapWfAbove d (some lo) m = true) : ∀ p ∈ m, lo < p.1 := by
  induction m generalizing lo with
  | nil => simp
  | cons p m ih =>
    obtain ⟨a, v⟩ := p
    rw [smapWfAbove_cons] at h
    have ha : lo < a := h.1 lo rfl
    rintro p hp
    rcases List.mem_cons.mp hp with rfl | hp
    · exact ha
    · exact ha.trans (ih h.2.2 p hp)

theorem smapWfAbove_cons_mono {lo lo' : Option Nat} {a : Nat} {v : α} {m : SMap α} (h : smapWfAbove d lo ((a, v) :: m) = true)
    (hl : ∀ b ∈ lo', b < a) : smapWfAbove d lo' ((a, v) :: m) = true := by
  rw [smapWfAbove_cons] at h ⊢
  exact ⟨hl, h.2⟩

theorem smapPut_wfAbove {lo : Option Nat} {m : SMap α} {k : Nat} {v : α} (h : smapWfAbove d lo m = true) (hk : ∀ b ∈ lo, b < k)
    (hv : v ≠ d k) : smapWfAbove d lo (smapPut k v m) = true := by
  induction m generalizing lo with
  | nil => exact smapWfAbove_cons.mpr ⟨hk, hv, rfl⟩
  | cons p m ih =>
    obtain ⟨a, w⟩ := p
    have h' := smapWfAbove_cons.mp h
    simp only [smapPut]
    split
    · next hka => exact smapWfAbove_cons.mpr ⟨hk, hv, smapWfAbove_cons_mono h (by simpa using hka)⟩
    · split
      · next e => subst e; exact smapWfAbove_cons.mpr ⟨hk, hv, h'.2.2⟩
      · exact smapWfAbove_cons.mpr ⟨h'.1, h'.2.1, ih h'.2.2 (by simp; omega)⟩

theorem smapDel_wfAbove {lo : Option Nat} {m : SMap α} {k : Nat} (h : smapWfAbove d lo m = true) :
    smapWfAbove d lo (smapDel k m) = true := by
  induction m generalizing lo with
  | nil => rfl
  | cons p m ih =>
    obtain ⟨a, w⟩ := p
    have h' := smapWfAbove_cons.mp h
    simp only [smapDel]
    split
    · exact ih (smapWfAbove_mono h'.2.2 fun b hb p hp => (h'.1 b hb).trans (smapWfAbove_lt h'.2.2 p hp))
    · exact smapWfAbove_cons.mpr ⟨h'.1, h'.2.1, ih h'.2.2⟩

/-- A write keeps the canonical form. -/
theorem smapSet_wf {m : SMap α} {k : Nat} {v : α} (h : smapWf d m = true) : smapWf d (smapSet d m k v) = true := by
  unfold smapSet
  split
  · exact smapDel_wfAbove h
  · next hv => exact smapPut_wfAbove h (by simp) hv

theorem filter_wfAbove {lo : Option Nat} {m : SMap α} (p : Nat × α → Bool) (h : smapWfAbove d lo m = true) :
    smapWfAbove d lo (m.filter p) = true := by
  induction m generalizing lo with
  | nil => rfl
  | cons q m ih =>
    obtain ⟨a, w⟩ := q
    have h' := smapWfAbove_cons.mp h
    by_cases hq : p (a, w) = true
    · rw [List.filter_cons_of_pos hq]
      exact smapWfAbove_cons.mpr ⟨h'.1, h'.2.1, ih h'.2.2⟩
    · rw [List.filter_cons_of_neg hq]
      exact ih (smapWfAbove_mono h'.2.2 fun b hb p hp => (h'.1 b hb).trans (smapWfAbove_lt h'.2.2 p hp))

/-- Dropping entries keeps the canonical form. -/
theorem filter_wf {m : SMap α} (p : Nat × α → Bool) (h : smapWf d m = true) : smapWf d (m.filter p) = true := filter_wfAbove p h

omit [DecidableEq α] in
theorem smapGet_put {m : SMap α} {k j : Nat} {v : α} : smapGet d (smapPut k v m) j = if j = k then v else smapGet d m j := by
  induction m with
  | nil => simp only [smapPut, smapGet]; split_ifs <;> first | rfl | omega
  | cons p m ih =>
    obtain ⟨a, w⟩ := p
    simp only [smapPut]
    split_ifs with h1 h2 h3 <;> simp only [smapGet, ih] <;> split_ifs <;> first | rfl | omega

omit [DecidableEq α] in
theorem smapGet_del {m : SMap α} {k j : Nat} : smapGet d (smapDel k m) j = if j = k then d k else smapGet d m j := by
  induction m with
  | nil => simp only [smapDel, smapGet]; split_ifs with e <;> simp [*]
  | cons p m ih =>
    obtain ⟨a, w⟩ := p
    simp only [smapDel]
    split_ifs with h1 h2 <;> simp only [smapGet, ih] <;> split_ifs <;> first | rfl | omega

/-- A read after a write: the value written at its key, the old value at every other. -/
theorem smapGet_set {m : SMap α} {k j : Nat} {v : α} : smapGet d (smapSet d m k v) j = if j = k then v else smapGet d m j := by
  unfold smapSet
  split
  · next e => rw [smapGet_del, e]
  · exact smapGet_put

/-- A write leaves the value at every other key, whatever the defaults. -/
theorem smapGet_set_of_ne {d' : Nat → α} {m : SMap α} {k j : Nat} {v : α} (h : j ≠ k) :
    smapGet d (smapSet d' m k v) j = smapGet d m j := by
  unfold smapSet
  split
  · rw [smapGet_del, if_neg h]
  · rw [smapGet_put, if_neg h]

/-- A listed entry is read back, and is not the default. -/
theorem smapGet_mem {lo : Option Nat} {m : SMap α} {p : Nat × α} (h : smapWfAbove d lo m = true) (hp : p ∈ m) :
    smapGet d m p.1 = p.2 ∧ p.2 ≠ d p.1 := by
  induction m generalizing lo with
  | nil => simp at hp
  | cons q m ih =>
    obtain ⟨a, w⟩ := q
    have h' := smapWfAbove_cons.mp h
    rcases List.mem_cons.mp hp with rfl | hm
    · exact ⟨by simp [smapGet], h'.2.1⟩
    · have hlt := smapWfAbove_lt h'.2.2 p hm
      obtain ⟨e, ne⟩ := ih h'.2.2 hm
      refine ⟨?_, ne⟩
      simp only [smapGet]
      rw [if_neg (by omega), e]

omit [DecidableEq α] in
/-- A key read as something else than the default is listed. -/
theorem smapGet_listed {m : SMap α} {k : Nat} (h : smapGet d m k ≠ d k) : (k, smapGet d m k) ∈ m := by
  induction m with
  | nil => exact absurd rfl h
  | cons p m ih =>
    obtain ⟨a, w⟩ := p
    simp only [smapGet] at h ⊢
    split_ifs at h ⊢ with h1
    · subst h1; simp
    · exact List.mem_cons_of_mem _ (ih h)

omit [DecidableEq α] in
theorem mem_smapPut {m : SMap α} {k : Nat} {v : α} {p : Nat × α} (h : p ∈ smapPut k v m) : p = (k, v) ∨ p ∈ m := by
  induction m with
  | nil => simpa [smapPut] using h
  | cons q m ih =>
    obtain ⟨a, w⟩ := q
    simp only [smapPut] at h
    split_ifs at h
    · simpa using h
    · rcases List.mem_cons.mp h with h | h
      · exact .inl h
      · exact .inr (List.mem_cons_of_mem _ h)
    · rcases List.mem_cons.mp h with h | h
      · exact .inr (by simp [h])
      · exact (ih h).imp id (List.mem_cons_of_mem _)

omit [DecidableEq α] in
theorem mem_smapDel {m : SMap α} {k : Nat} {p : Nat × α} (h : p ∈ smapDel k m) : p ∈ m := by
  induction m with
  | nil => simp [smapDel] at h
  | cons q m ih =>
    obtain ⟨a, w⟩ := q
    simp only [smapDel] at h
    split_ifs at h
    · exact List.mem_cons_of_mem _ (ih h)
    · rcases List.mem_cons.mp h with h | h
      · simp [h]
      · exact List.mem_cons_of_mem _ (ih h)

/-- An entry after a write stood there before, or is at the key written. -/
theorem mem_smapSet {m : SMap α} {k : Nat} {v : α} {p : Nat × α} (h : p ∈ smapSet d m k v) : p.1 = k ∨ p ∈ m := by
  unfold smapSet at h
  split at h
  · exact .inr (mem_smapDel h)
  · exact (mem_smapPut h).imp (by rintro rfl; rfl) id

omit [DecidableEq α] in
/-- A read after entries are dropped by key. -/
theorem smapGet_filter {m : SMap α} (q : Nat → Bool) {k : Nat} (hk : q k = true) :
    smapGet d (m.filter fun p => q p.1) k = smapGet d m k := by
  induction m with
  | nil => rfl
  | cons p m ih =>
    obtain ⟨a, w⟩ := p
    by_cases hq : q a = true
    · rw [List.filter_cons_of_pos (by simpa using hq)]
      simp only [smapGet, ih]
    · rw [List.filter_cons_of_neg (by simpa using hq), ih]
      have hak : a ≠ k := fun e => hq (e ▸ hk)
      simp only [smapGet, if_neg hak]

namespace Machine

open Sys2Proof

/-- A number with a field replaced, cut at the field: what lies below, the field, what lies above. -/
theorem putBits_split {v hi lo x : Nat} (hl : lo ≤ hi) :
    putBits v hi lo x = v % 2 ^ lo + 2 ^ lo * (x % 2 ^ (hi - lo + 1) + 2 ^ (hi - lo + 1) * (v / 2 ^ (hi + 1))) := by
  have e : 2 ^ (hi + 1) = 2 ^ lo * 2 ^ (hi - lo + 1) := by rw [← Nat.pow_add]; congr 1; omega
  unfold putBits
  rw [e]
  ring

/-- A number with a field replaced is no wider than it was. -/
theorem putBits_lt {v hi lo x n : Nat} (hv : v < 2 ^ n) (h : hi < n) (hl : lo ≤ hi) : putBits v hi lo x < 2 ^ n := by
  have e : 2 ^ n = 2 ^ (hi + 1) * 2 ^ (n - (hi + 1)) := by rw [← Nat.pow_add]; congr 1; omega
  have e2 : 2 ^ (hi + 1) = 2 ^ lo * 2 ^ (hi - lo + 1) := by rw [← Nat.pow_add]; congr 1; omega
  have hz : v / 2 ^ (hi + 1) < 2 ^ (n - (hi + 1)) := Nat.div_lt_of_lt_mul (e ▸ hv)
  have ha : v % 2 ^ lo < 2 ^ lo := Nat.mod_lt _ (by positivity)
  have hy : x % 2 ^ (hi - lo + 1) < 2 ^ (hi - lo + 1) := Nat.mod_lt _ (by positivity)
  rw [putBits_split hl, e]
  generalize 2 ^ (n - (hi + 1)) = N at *
  generalize v / 2 ^ (hi + 1) = z at *
  rw [e2]
  generalize 2 ^ (hi - lo + 1) = W at *
  generalize 2 ^ lo = P at *
  generalize x % W = y at *
  generalize v % P = a at *
  have h1 : W * (z + 1) ≤ W * N := Nat.mul_le_mul_left _ hz
  have h2 : P * (W * (z + 1)) ≤ P * (W * N) := Nat.mul_le_mul_left _ h1
  have h3 : P * (y + 1) ≤ P * W := Nat.mul_le_mul_left _ hy
  calc a + P * (y + W * z) < P + P * (y + W * z) := by omega
    _ = P * (y + 1) + P * (W * z) := by ring
    _ ≤ P * W + P * (W * z) := by omega
    _ = P * (W * (z + 1)) := by ring
    _ ≤ P * (W * N) := h2
    _ = P * W * N := by ring

/-- A field reads what was put there, cut to its width. -/
theorem bitsOf_putBits {v hi lo x : Nat} (hl : lo ≤ hi) : bitsOf (putBits v hi lo x) hi lo = x % 2 ^ (hi - lo + 1) := by
  have ha : v % 2 ^ lo < 2 ^ lo := Nat.mod_lt _ (by positivity)
  unfold bitsOf
  rw [putBits_split hl, Nat.add_mul_div_left _ _ (by positivity), Nat.div_eq_of_lt ha, Nat.zero_add, Nat.add_mul_mod_self_left,
    Nat.mod_mod]

/-- A field of a 64-bit word reads what was put there, cut to its width. -/
theorem bitsOf_ofNat_putBits {v hi lo x : Nat} (hv : v < 2 ^ 64) (h : hi < 64) (hl : lo ≤ hi) :
    bitsOf (BitVec.ofNat 64 (putBits v hi lo x)).toNat hi lo = x % 2 ^ (hi - lo + 1) := by
  rw [BitVec.toNat_ofNat, Nat.mod_eq_of_lt (putBits_lt hv h hl), bitsOf_putBits hl]

theorem lineOf_mul (a : Nat) : lineOf a = 64 * (a / 64) := by unfold lineOf; omega

theorem lineOf_lineOf (a : Nat) : lineOf (lineOf a) = lineOf a := by simp only [lineOf_mul]; omega

theorem lineOf_add (a k : Nat) (h : k < 64) : lineOf (lineOf a + k) = lineOf a := by simp only [lineOf_mul]; omega

/-- Writing a byte keeps the canonical form of memory. -/
theorem Memory.setByte_wf {m : List Host.Cell} {a : Nat} {b : Byte} (h : Memory.wf m = true) : Memory.wf (Memory.setByte m a b) = true :=
  smapSet_wf h

/-- Writing bytes keeps the canonical form of memory. -/
theorem Memory.setBytes_wf {m : List Host.Cell} {a : Nat} {bs : List Byte} (h : Memory.wf m = true) :
    Memory.wf (Memory.setBytes m a bs) = true := by
  induction bs generalizing m a with
  | nil => exact h
  | cons b bs ih => exact ih (Memory.setByte_wf h)

/-- Read after write: the byte written inside the extent, the old byte outside. -/
theorem Memory.get_setBytes {m : List Host.Cell} {a : Nat} {bs : List Byte} {j : Nat} :
    smapGet (fun _ => (0 : Byte)) (Memory.setBytes m a bs) j =
      if a ≤ j ∧ j < a + bs.length then bs.getD (j - a) 0 else smapGet (fun _ => (0 : Byte)) m j := by
  induction bs generalizing m a with
  | nil => simp [Memory.setBytes]
  | cons b bs ih =>
    have e : smapGet (fun _ => (0 : Byte)) (Memory.setByte m a b) j = if j = a then b else smapGet (fun _ => 0) m j := smapGet_set
    rw [Memory.setBytes, ih, e, List.length_cons]
    by_cases hj : j = a
    · subst hj; simp
    · by_cases hin : a + 1 ≤ j ∧ j < a + 1 + bs.length
      · rw [if_pos hin, if_pos (by omega)]
        obtain ⟨i, rfl⟩ : ∃ i, j = a + 1 + i := ⟨j - (a + 1), by omega⟩
        rw [show a + 1 + i - a = i + 1 by omega, show a + 1 + i - (a + 1) = i by omega]; rfl
      · rw [if_neg hin, if_neg hj, if_neg (by omega)]

theorem Memory.mem_setBytes {m : List Host.Cell} {a : Nat} {bs : List Byte} {p : Host.Cell} (h : p ∈ Memory.setBytes m a bs) :
    (a ≤ p.1 ∧ p.1 < a + bs.length) ∨ p ∈ m := by
  induction bs generalizing m a with
  | nil => exact .inr h
  | cons b bs ih =>
    rcases ih h with h | h
    · left; simp only [List.length_cons]; omega
    · rcases mem_smapSet h with h | h
      · left; simp only [List.length_cons]; omega
      · exact .inr h

end Machine

end Sys2Proof
end

