-- ==== Sys2Proof/Laws/Keeps.lean ====
section
/-! SUPPORT. How a proof that an operation keeps a state well (`State.Keeps`) is put together: the leaves, and the laws of the few
operations that write memory, bits, fuses and the counter of free values. The files beside this one say it of every other operation. -/

namespace Sys2Proof.Machine

open Sys2Proof

/-- A state that agrees in what `State.Keeps` speaks of is as well kept. -/
theorem State.Keeps.frame {s0 s t : State} (h : s0.Keeps s) (hm : t.mem = s.mem) (hl : t.lineErr = s.lineErr)
    (hv : t.valid = s.valid) (hb : t.bits = s.bits) (hp : t.pending = s.pending) (hs : t.rot.svn = s.rot.svn) (hg : t.rot.svnFrom = s.rot.svnFrom)
    (hr : t.rot.revoked = s.rot.revoked) (hf : t.freeCount = s.freeCount) : s0.Keeps t := by
  obtain ⟨h1, h2, h3, h4, h5⟩ := h
  refine ⟨fun i => ?_, hp.trans h2, ?_, ?_, hf ▸ h5⟩
  · obtain ⟨a, b, c, d, e, f⟩ := h1 i
    refine ⟨hm ▸ a, hl ▸ b, hv ▸ c, hb ▸ d, ?_, ?_⟩
    · simpa [State.lineValid, hm, hv] using e
    · simpa [State.lineValid, hl, hv] using f
  · simpa [State.svnFloor, State.fuseSvn, hs, hg] using h3
  · simpa [State.revokedSlots, hr] using h4

theorem State.Keeps.refl (s : State) : s.Keeps s := ⟨id, rfl, le_rfl, fun _ => id, le_rfl⟩

theorem State.Keeps.trans {s t u : State} (h : s.Keeps t) (k : t.Keeps u) : s.Keeps u :=
  ⟨fun i => k.inv (h.inv i), k.queue.trans h.queue, h.svn.trans k.svn, fun i e => k.revoked i (h.revoked i e), h.free.trans k.free⟩

/-- The state bound by a pattern over a pair. -/
theorem State.Keeps.of_eq {α : Type} {s0 t : State} {p : α × State} {x : α} (h : s0.Keeps p.2) (e : p = (x, t)) : s0.Keeps t := by
  subst e; exact h

/-- The state bound by a pattern over a triple. -/
theorem State.Keeps.of_eq3 {α β : Type} {s0 t : State} {p : α × β × State} {x : α} {y : β} (h : s0.Keeps p.2.2)
    (e : p = (x, y, t)) : s0.Keeps t := by
  subst e; exact h

theorem State.Keeps.foldl {α : Type} {s0 s : State} {l : List α} {f : State → α → State} (h : s0.Keeps s)
    (hf : ∀ t a, s0.Keeps t → s0.Keeps (f t a)) : s0.Keeps (l.foldl f s) := by
  induction l generalizing s with
  | nil => exact h
  | cons a l ih => exact ih (hf _ _ h)

/-- A fold that carries a value beside the state. -/
theorem State.Keeps.foldl_pair {α β : Type} {s0 : State} {l : List α} {p : β × State} {f : β × State → α → β × State} (h : s0.Keeps p.2)
    (hf : ∀ q a, s0.Keeps q.2 → s0.Keeps (f q a).2) : s0.Keeps (l.foldl f p).2 := by
  induction l generalizing p with
  | nil => exact h
  | cons a l ih => exact ih (hf _ _ h)

/-- A fold that carries two values beside the state. -/
theorem State.Keeps.foldl_triple {α β γ : Type} {s0 : State} {l : List α} {p : β × γ × State} {f : β × γ × State → α → β × γ × State}
    (h : s0.Keeps p.2.2) (hf : ∀ q a, s0.Keeps q.2.2 → s0.Keeps (f q a).2.2) : s0.Keeps (l.foldl f p).2.2 := by
  induction l generalizing p with
  | nil => exact h
  | cons a l ih => exact ih (hf _ _ h)

/-- An update of fields that `State.Keeps` does not speak of. -/
theorem State.Keeps.upd {s0 s : State} (h : s0.Keeps s)
    (now timeFrac regs phot cores clusters prim movers col pci eth sht spg trn cat eph hel chr power dom exp flt keys busyNs
    epoch reply replyPoison) :
    s0.Keeps ⟨s.pending, s.freeCount, now, timeFrac, regs, phot, s.mem, s.lineErr, s.valid, s.bits, cores, clusters, prim,
      movers, col, pci, eth, sht, spg, trn, cat, eph, hel, chr, power, dom, exp, flt, keys, s.rot, busyNs, epoch, reply,
      replyPoison⟩ :=
  h.frame rfl rfl rfl rfl rfl rfl rfl rfl rfl

/-- An update that leaves the fuses. -/
theorem State.Keeps.upd_rot {s0 s : State} (h : s0.Keeps s)
    (now timeFrac regs phot cores clusters prim movers col pci eth sht spg trn cat eph hel chr power dom exp flt keys busyNs
    epoch reply replyPoison r_running r_cmd r_flashCmd r_unlocked r_flash) :
    s0.Keeps ⟨s.pending, s.freeCount, now, timeFrac, regs, phot, s.mem, s.lineErr, s.valid, s.bits, cores, clusters, prim,
      movers, col, pci, eth, sht, spg, trn, cat, eph, hel, chr, power, dom, exp, flt, keys, ⟨r_running, r_cmd, r_flashCmd,
      r_unlocked, s.rot.svn, s.rot.svnFrom, s.rot.revoked, r_flash⟩, busyNs, epoch, reply, replyPoison⟩ :=
  h.frame rfl rfl rfl rfl rfl rfl rfl rfl rfl

theorem State.Keeps.bits_filter {s0 s : State} (h : s0.Keeps s) (q) : s0.Keeps { s with bits := s.bits.filter q } :=
  ⟨fun i => let j := h.inv i; ⟨j.mem, j.lineErr, j.valid, filter_wf q j.bits, j.blank, j.clean⟩, h.queue, h.svn, h.revoked, h.free⟩

/-- An update that drops bits and leaves the fuses. -/
theorem State.Keeps.upd_bits {s0 s : State} (h : s0.Keeps s)
    (now timeFrac regs phot cores clusters prim movers col pci eth sht spg trn cat eph hel chr power dom exp flt keys busyNs
    epoch reply replyPoison r_running r_cmd r_flashCmd r_unlocked r_flash q) :
    s0.Keeps ⟨s.pending, s.freeCount, now, timeFrac, regs, phot, s.mem, s.lineErr, s.valid, (s.bits.filter q), cores,
      clusters, prim, movers, col, pci, eth, sht, spg, trn, cat, eph, hel, chr, power, dom, exp, flt, keys, ⟨r_running,
      r_cmd, r_flashCmd, r_unlocked, s.rot.svn, s.rot.svnFrom, s.rot.revoked, r_flash⟩, busyNs, epoch, reply, replyPoison⟩ :=
  (h.bits_filter q).frame rfl rfl rfl rfl rfl rfl rfl rfl rfl

theorem State.setRot_keeps {s0 s : State} (h : s0.Keeps s) (r_running r_cmd r_flashCmd r_unlocked r_flash) :
    s0.Keeps (s.setRot ⟨r_running, r_cmd, r_flashCmd, r_unlocked, s.rot.svn, s.rot.svnFrom, s.rot.revoked, r_flash⟩) := h.frame rfl rfl rfl rfl rfl rfl rfl rfl rfl

/-- A fate that leaves a well kept state. -/
def Fate.Keeps (s0 : State) : Fate → Prop
  | .next s => s0.Keeps s
  | .jump _ s => s0.Keeps s
  | .fault _ s => s0.Keeps s
  | .stay s => s0.Keeps s

theorem Fate.Keeps.next {s0 s : State} (h : s0.Keeps s) : Fate.Keeps s0 (.next s) := h
theorem Fate.Keeps.jump {s0 s : State} {pc : Word} (h : s0.Keeps s) : Fate.Keeps s0 (.jump pc s) := h
theorem Fate.Keeps.fault {s0 s : State} {e : Exc} (h : s0.Keeps s) : Fate.Keeps s0 (.fault e s) := h
theorem Fate.Keeps.stay {s0 s : State} (h : s0.Keeps s) : Fate.Keeps s0 (.stay s) := h

/-! ## Bits, fuses, free values -/

theorem State.free_keeps {s0 s : State} (h : s0.Keeps s) (w : Nat) : s0.Keeps (s.free w).2 :=
  ⟨fun i => let j := h.inv i; ⟨j.mem, j.lineErr, j.valid, j.bits, j.blank, j.clean⟩, h.queue, h.svn, h.revoked,
    h.free.trans (Nat.le_succ _)⟩

theorem State.noteBit_keeps {s0 s : State} (h : s0.Keeps s) (k v) : s0.Keeps (s.noteBit k v) := h.frame rfl rfl rfl rfl rfl rfl rfl rfl rfl

theorem State.putBit_keeps {s0 s : State} (h : s0.Keeps s) (k v) : s0.Keeps (s.putBit k v) :=
  State.noteBit_keeps (s := { s with bits := smapSet (fun _ => false) s.bits k v })
    ⟨fun i => let j := h.inv i; ⟨j.mem, j.lineErr, j.valid, smapSet_wf j.bits, j.blank, j.clean⟩, h.queue, h.svn, h.revoked, h.free⟩ k v

/-- R563: a commit of a security version, and what ends or cuts it, leaves at least the version the fuses surely hold. -/
theorem State.Keeps.svnSet {s0 s t : State} (h : s0.Keeps s) (hm : t.mem = s.mem) (hl : t.lineErr = s.lineErr)
    (hv : t.valid = s.valid) (hb : t.bits = s.bits) (hp : t.pending = s.pending) (hs : s.svnFloor ≤ t.svnFloor)
    (hr : t.rot.revoked = s.rot.revoked) (hf : s.freeCount ≤ t.freeCount) : s0.Keeps t := by
  have k : s.Keeps { t with rot := s.rot, freeCount := s.freeCount } := (State.Keeps.refl s).frame hm hl hv hb hp rfl rfl rfl rfl
  have i := h.trans k
  exact ⟨fun e => let j := i.inv e; ⟨j.mem, j.lineErr, j.valid, j.bits, j.blank, j.clean⟩, i.queue, h.svn.trans hs,
    fun b e => by have := h.revoked b e; simpa [State.revokedSlots, hr] using this, h.free.trans hf⟩

/-- R564: a revocation takes none back. -/
theorem State.setRevoked_keeps {s0 s : State} (h : s0.Keeps s) (m : Nat) :
    s0.Keeps (s.setRot { s.rot with revoked := s.rot.revoked ||| m }) := by
  refine ⟨fun i => let j := h.inv i; ⟨j.mem, j.lineErr, j.valid, j.bits, j.blank, j.clean⟩, h.queue, h.svn, fun k e => ?_, h.free⟩
  have := h.revoked k e
  simp only [State.revokedSlots, State.setRot, Nat.testBit_or, Bool.or_eq_true] at this ⊢
  tauto

/-! ## Memory -/

theorem State.lineValid_set (s : State) (a la : Nat) :
    smapGet (fun _ => false) (smapSet (fun _ => false) s.valid la true) a = if a = la then true else s.lineValid a :=
  smapGet_set

/-- A whole line stored: its bytes, its word errors and its valid bit. -/
theorem State.Keeps.store {s0 s : State} (h : s0.Keeps s) (la : Nat) (bs : List Byte) (e : LineErr) :
    s0.Keeps { s with
      mem := Memory.setBytes s.mem (lineOf la) (bs.take 64)
      lineErr := smapSet (fun _ => LineErr.clean) s.lineErr (lineOf la) e
      valid := smapSet (fun _ => false) s.valid (lineOf la) true } := by
  refine ⟨fun i => ?_, h.queue, h.svn, h.revoked, h.free⟩
  have j := h.inv i
  have jv : smapWf (fun _ => false) (smapSet (fun _ => false) s.valid (lineOf la) true) = true := smapSet_wf j.valid
  refine ⟨Memory.setBytes_wf j.mem, smapSet_wf j.lineErr, jv, j.bits, fun p hp => ?_, fun p hp => ?_⟩
  · refine (State.lineValid_set s _ _).trans ?_
    rcases Memory.mem_setBytes hp with hp | hp
    · rw [if_pos]
      have : (bs.take 64).length ≤ 64 := by simp
      obtain ⟨k, hk⟩ : ∃ k, p.1 = lineOf la + k := ⟨p.1 - lineOf la, by omega⟩
      rw [hk]; exact lineOf_add _ _ (by omega)
    · rw [j.blank p hp]; simp
  · refine (State.lineValid_set s _ _).trans ?_
    have hp : p ∈ smapSet (fun _ => LineErr.clean) s.lineErr (lineOf la) e := hp
    rcases mem_smapSet hp with hp | hp
    · simp [hp]
    · rw [j.clean p hp]; simp

/-- R600: clearing valid bits. -/
theorem State.clearMem_keeps {s0 s : State} (h : s0.Keeps s) (a b : Nat) : s0.Keeps (s.clearMem a b) := by
  refine ⟨fun i => ?_, h.queue, h.svn, h.revoked, h.free⟩
  have j := h.inv i
  have hv : ∀ k, (k < a ∨ b ≤ k) → (s.clearMem a b).lineValid k = s.lineValid k := fun k hk =>
    smapGet_filter (fun k => decide (k < a ∨ b ≤ k)) (by simpa using hk)
  refine ⟨filter_wf _ j.mem, filter_wf _ j.lineErr, filter_wf _ j.valid, j.bits, fun p hp => ?_, fun p hp => ?_⟩
  · obtain ⟨hp, hq⟩ := List.mem_filter.mp hp
    rw [hv _ (by simpa using hq)]; exact j.blank p hp
  · obtain ⟨hp, hq⟩ := List.mem_filter.mp hp
    rw [hv _ (by simpa using hq)]; exact j.clean p hp

/-- The state after a loss of power: empty memories, the queue, the fuses and the counter of free values. -/
theorem State.Keeps.blank {s0 s t : State} (h : s0.Keeps s) (hm : t.mem = []) (hl : t.lineErr = [])
    (hv : t.valid = []) (hb : t.bits = []) (hp : t.pending = s.pending) (hs : t.rot.svn = s.rot.svn) (hg : t.rot.svnFrom = none)
    (hr : t.rot.revoked = s.rot.revoked) (hf : t.freeCount = s.freeCount) : s0.Keeps t := by
  refine ⟨fun _ => ⟨?_, ?_, ?_, ?_, ?_, ?_⟩, hp.trans h.queue, ?_, ?_, hf ▸ h.free⟩
  · rw [hm]; rfl
  · rw [hl]; rfl
  · rw [hv]; rfl
  · rw [hb]; rfl
  · simp [hm]
  · simp [hl]
  · refine h.svn.trans ?_
    simp only [State.svnFloor, State.fuseSvn, hs, hg, Option.getD_none, min_self]
    omega
  · have := h.revoked; simpa [State.revokedSlots, hr] using this

end Sys2Proof.Machine
end

