-- ==== Sys2Proof/Laws/KeepsOps.lean ====
section
/-! SUPPORT. The operations of Machine/Ops.lean keep a state well. -/

namespace Sys2Proof.Machine

open Sys2Proof

theorem State.setReg_keeps {s0 s : State} (h : s0.Keeps s) (r cell v i) :
    s0.Keeps (s.setReg r cell v i) := by
  delta State.setReg
  repeat' first
    | with_reducible assumption
    | split
    | fail_if_no_progress (with_reducible apply State.Keeps.upd)

theorem State.setFld_keeps {s0 s : State} (h : s0.Keeps s) (f cell v i) :
    s0.Keeps (s.setFld f cell v i) := by
  delta State.setFld
  repeat' first
    | with_reducible assumption
    | with_reducible apply State.setReg_keeps

theorem State.setFlag_keeps {s0 s : State} (h : s0.Keeps s) (f cell b i) :
    s0.Keeps (s.setFlag f cell b i) := by
  delta State.setFlag
  repeat' first
    | with_reducible assumption
    | with_reducible apply State.setFld_keeps

theorem State.bumpCounter_keeps {s0 s : State} (h : s0.Keeps s) (cell c inc) :
    s0.Keeps (s.bumpCounter cell c inc) := by
  delta State.bumpCounter
  repeat' first
    | with_reducible assumption
    | ((fail_if_no_progress (extract_lets +onlyGivenNames x)); first
        | (refine (fun (hk : s0.Keeps x) => ?_) ?_; clear_value x; rotate_left; dsimp -zeta only [x])
        | clear_value x)
    | with_reducible apply State.setFld_keeps
    | split

theorem State.countIn_keeps {s0 s : State} (h : s0.Keeps s) (cell ev inc qual) :
    s0.Keeps (s.countIn cell ev inc qual) := by
  delta State.countIn
  repeat' first
    | with_reducible assumption
    | ((fail_if_no_progress (extract_lets +onlyGivenNames x)); clear_value x)
    | with_reducible apply State.bumpCounter_keeps
    | split
    | (with_reducible refine State.Keeps.foldl ?_ ?_)
    | intro _ _ _

theorem State.count_keeps {s0 s : State} (h : s0.Keeps s) (cell ev qual inc) :
    s0.Keeps (s.count cell ev qual inc) := by
  delta State.count
  repeat' first
    | with_reducible assumption
    | with_reducible apply State.countIn_keeps
    | split
    | (with_reducible refine State.Keeps.foldl ?_ ?_)
    | intro _ _ _

theorem State.event_keeps {s0 s : State} (h : s0.Keeps s) (b) :
    s0.Keeps (s.event b) := by
  delta State.event
  repeat' first
    | with_reducible assumption
    | with_reducible apply State.putBit_keeps

theorem State.noteEcc_keeps {s0 s : State} (h : s0.Keeps s) :
    s0.Keeps (s.noteEcc) := by
  delta State.noteEcc
  repeat' first
    | with_reducible assumption
    | ((fail_if_no_progress (extract_lets +onlyGivenNames x)); clear_value x)
    | fail_if_no_progress (with_reducible apply State.Keeps.upd)

theorem State.noteLinkErr_keeps {s0 s : State} (h : s0.Keeps s) :
    s0.Keeps (s.noteLinkErr) := by
  delta State.noteLinkErr
  repeat' first
    | with_reducible assumption
    | ((fail_if_no_progress (extract_lets +onlyGivenNames x)); clear_value x)
    | fail_if_no_progress (with_reducible apply State.Keeps.upd)

theorem State.recordError_keeps {s0 s : State} (h : s0.Keeps s) (cell cls addr info) :
    s0.Keeps (s.recordError cell cls addr info) := by
  delta State.recordError
  repeat' first
    | with_reducible assumption
    | ((fail_if_no_progress (extract_lets +onlyGivenNames x)); first
        | (refine (fun (hk : s0.Keeps x) => ?_) ?_; clear_value x; rotate_left; dsimp -zeta only [x])
        | clear_value x)
    | with_reducible apply State.count_keeps
    | with_reducible apply State.noteEcc_keeps
    | with_reducible apply State.setFlag_keeps
    | with_reducible apply State.setFld_keeps
    | with_reducible apply State.event_keeps
    | split

theorem State.bufErr_keeps {s0 s : State} (h : s0.Keeps s) (cell e) :
    s0.Keeps (s.bufErr cell e) := by
  cases e
  all_goals dsimp only [State.bufErr]
  repeat' first
    | with_reducible assumption
    | with_reducible apply State.recordError_keeps

theorem State.noteRead_keeps {s0 s : State} (h : s0.Keeps s) (la r) :
    s0.Keeps (s.noteRead la r) := by
  delta State.noteRead
  repeat' first
    | with_reducible assumption
    | ((fail_if_no_progress (extract_lets +onlyGivenNames x)); refine (fun (hk : s0.Keeps x) => ?_) ?_; clear_value x; rotate_left; dsimp -zeta only [x])
    | with_reducible apply State.count_keeps
    | with_reducible apply State.recordError_keeps
    | split

theorem State.disarmFlip_keeps {s0 s : State} (h : s0.Keeps s) (c) :
    s0.Keeps (s.disarmFlip c) := by
  delta State.disarmFlip
  repeat' first
    | with_reducible assumption
    | with_reducible apply State.setFlag_keeps
    | split

theorem State.writeLine_keeps {s0 s : State} (h : s0.Keeps s) (la bs mark) :
    s0.Keeps (s.writeLine la bs mark) := by
  delta State.writeLine
  extract_lets +onlyGivenNames x
  have hk : s0.Keeps x := by
    dsimp -zeta only [x]
    repeat' first
      | with_reducible assumption
      | with_reducible apply State.count_keeps
      | split
  clear_value x
  split
  next heq =>
  refine State.Keeps.store ?_ _ _ _
  split at heq <;> cases heq
  · exact hk
  · exact State.disarmFlip_keeps hk ..

theorem State.writeInLine_keeps {s0 s : State} (h : s0.Keeps s) (a bs mark) :
    s0.Keeps (s.writeInLine a bs mark) := by
  delta State.writeInLine
  repeat' first
    | with_reducible assumption
    | ((fail_if_no_progress (extract_lets +onlyGivenNames x)); first
        | (refine (fun (hk : s0.Keeps x) => ?_) ?_; clear_value x; rotate_left; dsimp -zeta only [x])
        | clear_value x)
    | with_reducible apply State.writeLine_keeps
    | with_reducible apply State.noteRead_keeps
    | split

theorem State.copyLines_keeps {s0 s : State} (h : s0.Keeps s) (src dst a) :
    s0.Keeps (s.copyLines src dst a) := by
  induction a generalizing s src dst with
  | zero =>
    rw [State.copyLines.eq_def]
    try dsimp -zeta only
    repeat' first
      | with_reducible assumption
  | succ a ih =>
    rw [State.copyLines.eq_def]
    try dsimp -zeta only
    repeat' first
      | with_reducible assumption
      | ((fail_if_no_progress (extract_lets +onlyGivenNames x)); clear_value x)
      | with_reducible apply ih
      | with_reducible apply State.writeLine_keeps
      | with_reducible apply State.noteRead_keeps

theorem State.copyOnWrite_keeps {s0 s : State} (h : s0.Keeps s) (a) :
    s0.Keeps (s.copyOnWrite a) := by
  delta State.copyOnWrite
  repeat' first
    | with_reducible assumption
    | ((fail_if_no_progress (extract_lets +onlyGivenNames x)); first
        | (refine (fun (hk : s0.Keeps x) => ?_) ?_; clear_value x; rotate_left; dsimp -zeta only [x])
        | clear_value x)
    | with_reducible apply State.copyLines_keeps
    | with_reducible apply State.count_keeps
    | split
    | fail_if_no_progress (with_reducible apply State.Keeps.upd)

theorem State.writeMem_keeps {s0 s : State} (h : s0.Keeps s) (a bs mark fuel) :
    s0.Keeps (s.writeMem a bs mark fuel) := by
  induction fuel generalizing s a bs mark with
  | zero =>
    rw [State.writeMem.eq_def]
    try dsimp -zeta only
    repeat' first
      | with_reducible assumption
  | succ fuel ih =>
    rw [State.writeMem.eq_def]
    try dsimp -zeta only
    repeat' first
      | with_reducible assumption
      | ((fail_if_no_progress (extract_lets +onlyGivenNames x)); first
          | (refine (fun (hk : s0.Keeps x) => ?_) ?_; clear_value x; rotate_left; dsimp -zeta only [x])
          | clear_value x)
      | with_reducible apply ih
      | with_reducible apply State.writeInLine_keeps
      | with_reducible apply State.copyOnWrite_keeps
      | split

theorem State.readMem_keeps {s0 s : State} (h : s0.Keeps s) (a n fuel) :
    s0.Keeps (s.readMem a n fuel).2.2 := by
  induction fuel generalizing s a n with
  | zero =>
    rw [State.readMem.eq_def]
    try dsimp -zeta only
    repeat' first
      | with_reducible assumption
  | succ fuel ih =>
    rw [State.readMem.eq_def]
    try dsimp -zeta only
    repeat' first
      | with_reducible assumption
      | ((fail_if_no_progress (extract_lets +onlyGivenNames x)); first
          | (refine (fun (hk : s0.Keeps x) => ?_) ?_; clear_value x; rotate_left; dsimp -zeta only [x])
          | clear_value x)
      | with_reducible apply ih
      | with_reducible apply State.noteRead_keeps
      | split

theorem State.refusedRange_keeps {s0 s : State} (h : s0.Keeps s) (reserved a n) {t : State} (he : s.refusedRange reserved a n = some t) :
    s0.Keeps t := by
  have key : ∀ q ∈ s.refusedRange reserved a n, s0.Keeps q := by
    delta State.refusedRange
    repeat' first
      | with_reducible assumption
      | with_reducible apply State.recordError_keeps
      | with_reducible apply State.count_keeps
      | split
      | (rintro q hq; cases hq)
  exact key _ he

theorem State.load_keeps {s0 s : State} (h : s0.Keeps s) (a n reserved) :
    s0.Keeps (s.load a n reserved).2 := by
  delta State.load
  repeat' first
    | with_reducible assumption
    | with_reducible apply State.readMem_keeps
    | with_reducible refine State.refusedRange_keeps ?_ _ _ _ (by assumption)
    | split

theorem State.store_keeps {s0 s : State} (h : s0.Keeps s) (a bs mark reserved) :
    s0.Keeps (s.store a bs mark reserved).2 := by
  delta State.store
  repeat' first
    | with_reducible assumption
    | with_reducible apply State.writeMem_keeps
    | with_reducible refine State.refusedRange_keeps ?_ _ _ _ (by assumption)
    | split

theorem State.setCore_keeps {s0 s : State} (h : s0.Keeps s) (c k) :
    s0.Keeps (s.setCore c k) := by
  delta State.setCore
  repeat' first
    | with_reducible assumption
    | fail_if_no_progress (with_reducible apply State.Keeps.upd)

theorem State.mapCore_keeps {s0 s : State} (h : s0.Keeps s) (c f) :
    s0.Keeps (s.mapCore c f) := by
  delta State.mapCore
  repeat' first
    | with_reducible assumption
    | with_reducible apply State.setCore_keeps

end Sys2Proof.Machine
end

