-- ==== Sys2Proof/Laws/KeepsRings.lean ====
section
/-! SUPPORT. The operations of Machine/Rings.lean keep a state well. -/

namespace Sys2Proof.Machine

open Sys2Proof

theorem State.setPosted_keeps {s0 s : State} (h : s0.Keeps s) (key l) :
    s0.Keeps (s.setPosted key l) := by
  delta State.setPosted
  repeat' first
    | with_reducible assumption
    | intro _ _ _
    | intro _ _
    | fail_if_no_progress (with_reducible apply State.Keeps.upd)

theorem State.postEntries_keeps {s0 s : State} (h : s0.Keeps s) (key dome old new) :
    s0.Keeps (s.postEntries key dome old new) := by
  delta State.postEntries
  repeat' first
    | with_reducible assumption
    | ((fail_if_no_progress (extract_lets +onlyGivenNames x)); first
        | clear_value x)
    | with_reducible apply State.setPosted_keeps

theorem State.notifyBit_keeps {s0 s : State} (h : s0.Keeps s) (b) :
    s0.Keeps (s.notifyBit b) := by
  delta State.notifyBit
  repeat' first
    | with_reducible assumption
    | with_reducible apply State.putBit_keeps
    | split

theorem State.devRead_keeps {s0 s : State} (h : s0.Keeps s) (a n) :
    s0.Keeps (s.devRead a n).2 := by
  delta State.devRead
  repeat' first
    | with_reducible assumption
    | ((fail_if_no_progress (extract_lets +onlyGivenNames x)); refine (fun (hk : s0.Keeps x.2) => ?_) ?_; clear_value x; rotate_left; dsimp -zeta only [x])
    | with_reducible apply State.load_keeps
    | split

theorem State.devWrite_keeps {s0 s : State} (h : s0.Keeps s) (a bs mark) :
    s0.Keeps (s.devWrite a bs mark).2 := by
  delta State.devWrite
  repeat' first
    | with_reducible assumption
    | ((fail_if_no_progress (extract_lets +onlyGivenNames x)); refine (fun (hk : s0.Keeps x.2) => ?_) ?_; clear_value x; rotate_left; dsimp -zeta only [x])
    | with_reducible apply State.store_keeps
    | split

end Sys2Proof.Machine
end

