-- ==== Sys2Proof/Laws/KeepsDeviceBits.lean ====
section
/-! SUPPORT. The operations of Machine/DeviceBits.lean keep a state well. -/

namespace Sys2Proof.Machine

open Sys2Proof

theorem State.noteLevels_keeps {s0 s : State} (h : s0.Keeps s) :
    s0.Keeps (s.noteLevels) := by
  delta State.noteLevels
  repeat' first
    | with_reducible assumption
    | fail_if_no_progress (with_reducible apply State.Keeps.upd)

end Sys2Proof.Machine
end

