-- ==== Sys2Proof/Laws/KeepsClusters.lean ====
section
/-! SUPPORT. The operations of Machine/Clusters.lean keep a state well. -/

namespace Sys2Proof.Machine

open Sys2Proof

theorem State.setClusterQueue_keeps {s0 s : State} (h : s0.Keeps s) (c q) :
    s0.Keeps (s.setClusterQueue c q) := by
  delta State.setClusterQueue
  repeat' first
    | with_reducible assumption
    | fail_if_no_progress (with_reducible apply State.Keeps.upd)

theorem State.postItem_keeps {s0 s : State} (h : s0.Keeps s) (c source program key args) :
    s0.Keeps (s.postItem c source program key args).2 := by
  delta State.postItem
  repeat' first
    | with_reducible assumption
    | ((fail_if_no_progress (extract_lets +onlyGivenNames x)); clear_value x)
    | with_reducible apply State.count_keeps
    | with_reducible apply State.setClusterQueue_keeps
    | split

theorem State.deliver_keeps {s0 s : State} (h : s0.Keeps s) (c) :
    s0.Keeps (s.deliver c) := by
  delta State.deliver
  repeat' first
    | with_reducible assumption
    | ((fail_if_no_progress (extract_lets +onlyGivenNames x)); first
        | (refine (fun (hk : s0.Keeps x) => ?_) ?_; clear_value x; rotate_left; dsimp -zeta only [x])
        | clear_value x)
    | with_reducible apply State.writeMem_keeps
    | with_reducible apply State.setFld_keeps
    | with_reducible apply State.count_keeps
    | with_reducible apply State.setClusterQueue_keeps
    | with_reducible apply State.putBit_keeps
    | split

theorem State.flushCluster_keeps {s0 s : State} (h : s0.Keeps s) (c) :
    s0.Keeps (s.flushCluster c) := by
  delta State.flushCluster
  repeat' first
    | with_reducible assumption
    | ((fail_if_no_progress (extract_lets +onlyGivenNames x)); refine (fun (hk : s0.Keeps x) => ?_) ?_; clear_value x; rotate_left; dsimp -zeta only [x])
    | with_reducible apply State.count_keeps
    | with_reducible apply State.setClusterQueue_keeps
    | (with_reducible refine State.Keeps.foldl ?_ ?_)
    | intro _ _ _

theorem State.dropInbox_keeps {s0 s : State} (h : s0.Keeps s) (n) :
    s0.Keeps (s.dropInbox n) := by
  delta State.dropInbox
  repeat' first
    | with_reducible assumption
    | ((fail_if_no_progress (extract_lets +onlyGivenNames x)); first
        | (refine (fun (hk : s0.Keeps x) => ?_) ?_; clear_value x; rotate_left; dsimp -zeta only [x])
        | clear_value x)
    | with_reducible apply State.count_keeps
    | with_reducible apply State.setFld_keeps
    | split
    | (with_reducible refine State.Keeps.foldl ?_ ?_)
    | intro _ _ _

theorem State.gclPostImage_keeps {s0 s : State} (h : s0.Keeps s) (c image) :
    s0.Keeps (s.gclPostImage c image) := by
  delta State.gclPostImage
  repeat' first
    | with_reducible assumption
    | ((fail_if_no_progress (extract_lets +onlyGivenNames x)); first
        | (refine (fun (hk : s0.Keeps x.2) => ?_) ?_; clear_value x; rotate_left; dsimp -zeta only [x])
        | clear_value x)
    | with_reducible apply State.load_keeps
    | with_reducible apply State.postItem_keeps
    | with_reducible apply State.setFld_keeps
    | with_reducible apply State.recordError_keeps
    | split

theorem execDispatchDeliver_keeps {s0 s : State} (h : s0.Keeps s) (cluster) :
    ∃ s', execDispatchDeliver cluster s = .next s' ∧ s0.Keeps s' := by
  refine ⟨_, rfl, ?_⟩
  repeat' first
    | with_reducible assumption
    | with_reducible apply State.deliver_keeps

end Sys2Proof.Machine
end

