-- ==== Sys2Proof/Laws/KeepsCoreRegs.lean ====
section
/-! SUPPORT. The operations of Machine/CoreRegs.lean keep a state well. -/

namespace Sys2Proof.Machine

open Sys2Proof

theorem State.haltCore_keeps {s0 s : State} (h : s0.Keeps s) (c reason bp) :
    s0.Keeps (s.haltCore c reason bp) := by
  delta State.haltCore
  repeat' first
    | with_reducible assumption
    | ((fail_if_no_progress (extract_lets +onlyGivenNames x)); refine (fun (hk : s0.Keeps x) => ?_) ?_; clear_value x; rotate_left; dsimp -zeta only [x])
    | with_reducible apply State.setFlag_keeps
    | with_reducible apply State.setFld_keeps
    | with_reducible apply State.mapCore_keeps

theorem State.clearPrivate_keeps {s0 s : State} (h : s0.Keeps s) (cell) :
    s0.Keeps (s.clearPrivate cell) := by
  delta State.clearPrivate
  repeat' first
    | with_reducible assumption
    | fail_if_no_progress (with_reducible apply State.Keeps.upd_bits)

theorem State.coreUp_keeps {s0 s : State} (h : s0.Keeps s) (c pc) :
    s0.Keeps (s.coreUp c pc) := by
  delta State.coreUp
  repeat' first
    | with_reducible assumption
    | with_reducible apply State.clearPrivate_keeps
    | with_reducible apply State.setCore_keeps

theorem State.startCore_keeps {s0 s : State} (h : s0.Keeps s) (c) :
    s0.Keeps (s.startCore c) := by
  delta State.startCore
  repeat' first
    | with_reducible assumption
    | ((fail_if_no_progress (extract_lets +onlyGivenNames x)); first
        | (refine (fun (hk : s0.Keeps x) => ?_) ?_; clear_value x; rotate_left; dsimp -zeta only [x]))
    | with_reducible apply State.mapCore_keeps
    | with_reducible apply State.haltCore_keeps
    | split

end Sys2Proof.Machine
end

