-- ==== Sys2Proof/Laws/KeepsFaults.lean ====
section
/-! SUPPORT. The operations of Machine/Faults.lean keep a state well. -/

namespace Sys2Proof.Machine

open Sys2Proof

theorem State.beginQuiesces_keeps {s0 s : State} (h : s0.Keeps s) (cells) :
    s0.Keeps (s.beginQuiesces cells) := by
  delta State.beginQuiesces
  repeat' first
    | with_reducible assumption
    | with_reducible apply State.count_keeps
    | with_reducible apply State.setFlag_keeps
    | (with_reducible refine State.Keeps.foldl ?_ ?_)
    | intro _ _ _

theorem State.enterFault_keeps {s0 s : State} (h : s0.Keeps s) (cell) :
    s0.Keeps (s.enterFault cell) := by
  delta State.enterFault
  repeat' first
    | with_reducible assumption
    | with_reducible apply State.setFld_keeps
    | with_reducible apply State.beginQuiesces_keeps
    | split

theorem State.recordInternal_keeps {s0 s : State} (h : s0.Keeps s) (cell addr info) :
    s0.Keeps (s.recordInternal cell addr info) := by
  delta State.recordInternal
  repeat' first
    | with_reducible assumption
    | with_reducible apply State.enterFault_keeps
    | with_reducible apply State.recordError_keeps

end Sys2Proof.Machine
end

