-- ==== Sys2Proof/Laws/KeepsPrimCompute.lean ====
section
/-! SUPPORT. The operations of Machine/PrimCompute.lean keep a state well. -/

namespace Sys2Proof.Machine

open Sys2Proof

theorem State.primUpset_keeps {s0 s : State} (h : s0.Keeps s) (op u) :
    s0.Keeps (s.primUpset op u).2 := by
  cases u
  all_goals dsimp only [State.primUpset]
  repeat' first
    | with_reducible assumption
    | with_reducible apply State.bufErr_keeps
    | split

theorem State.primUpsets_keeps {s0 s : State} (h : s0.Keeps s) (us) :
    s0.Keeps (s.primUpsets us) := by
  delta State.primUpsets
  repeat' first
    | with_reducible assumption
    | ((fail_if_no_progress (extract_lets +onlyGivenNames x)); first
        | (refine (fun (hk : s0.Keeps x) => ?_) ?_; clear_value x; rotate_left; dsimp -zeta only [x])
        | (refine (fun (hk : s0.Keeps x.2) => ?_) ?_; clear_value x; rotate_left; dsimp -zeta only [x])
        | clear_value x)
    | with_reducible apply State.primUpset_keeps
    | (with_reducible refine State.Keeps.of_eq ?_ (by assumption))
    | (with_reducible refine State.Keeps.of_eq3 ?_ (by assumption))
    | split
    | (with_reducible refine State.Keeps.foldl ?_ ?_)
    | (with_reducible refine State.Keeps.foldl_pair ?_ ?_)
    | (with_reducible refine State.Keeps.foldl_triple ?_ ?_)
    | intro _ _ _
    | intro _ _
    | fail_if_no_progress (with_reducible apply State.Keeps.upd)

end Sys2Proof.Machine
end

