-- ==== Sys2Proof/Laws/KeepsPrimQueue.lean ====
section
/-! SUPPORT. The operations of Machine/PrimQueue.lean keep a state well. -/

namespace Sys2Proof.Machine

open Sys2Proof

theorem State.setPrim_keeps {s0 s : State} (h : s0.Keeps s) (p) :
    s0.Keeps (s.setPrim p) := by
  delta State.setPrim
  repeat' first
    | with_reducible assumption
    | fail_if_no_progress (with_reducible apply State.Keeps.upd)

theorem State.primPush_keeps {s0 s : State} (h : s0.Keeps s) (c ws) :
    s0.Keeps (s.primPush c ws).2 := by
  delta State.primPush
  repeat' first
    | with_reducible assumption
    | ((fail_if_no_progress (extract_lets +onlyGivenNames x)); first
        | (refine (fun (hk : s0.Keeps x) => ?_) ?_; clear_value x; rotate_left; dsimp -zeta only [x])
        | clear_value x)
    | with_reducible apply State.setPrim_keeps
    | with_reducible apply State.noteLevels_keeps
    | with_reducible apply State.setReg_keeps
    | split

theorem State.setDone_keeps {s0 s : State} (h : s0.Keeps s) (c b cut) :
    s0.Keeps (s.setDone c b cut) := by
  delta State.setDone
  repeat' first
    | with_reducible assumption
    | with_reducible apply State.putBit_keeps
    | with_reducible apply State.count_keeps
    | (with_reducible refine State.Keeps.of_eq ?_ (by assumption))
    | (with_reducible refine State.Keeps.of_eq3 ?_ (by assumption))
    | split

theorem State.writeRecord_keeps {s0 s : State} (h : s0.Keeps s) (dome en a ws cell) :
    s0.Keeps (s.writeRecord dome en a ws cell) := by
  delta State.writeRecord
  repeat' first
    | with_reducible assumption
    | with_reducible apply State.writeMem_keeps
    | with_reducible apply State.recordError_keeps
    | split

theorem State.clearRetained_keeps {s0 s : State} (h : s0.Keeps s) :
    s0.Keeps (s.clearRetained) := by
  delta State.clearRetained
  repeat' first
    | with_reducible assumption
    | ((fail_if_no_progress (extract_lets +onlyGivenNames x)); clear_value x)
    | with_reducible apply State.setPrim_keeps
    | with_reducible apply State.setReg_keeps

theorem State.primCount_keeps {s0 s : State} (h : s0.Keeps s) (cyc mult stall bubbles) :
    s0.Keeps (s.primCount cyc mult stall bubbles) := by
  delta State.primCount
  repeat' first
    | with_reducible assumption
    | ((fail_if_no_progress (extract_lets +onlyGivenNames x)); first
        | (refine (fun (hk : s0.Keeps x) => ?_) ?_; clear_value x; rotate_left; dsimp -zeta only [x]))
    | with_reducible apply State.count_keeps

theorem State.freeCounts_keeps {s0 s : State} (h : s0.Keeps s) (op) :
    s0.Keeps (s.freeCounts op).2 := by
  delta State.freeCounts
  repeat' first
    | with_reducible assumption
    | ((fail_if_no_progress (extract_lets +onlyGivenNames x)); first
        | (refine (fun (hk : s0.Keeps x.2) => ?_) ?_; clear_value x; rotate_left; dsimp -zeta only [x])
        | clear_value x)
    | with_reducible apply State.free_keeps
    | split

theorem State.primEnd_keeps {s0 s : State} (h : s0.Keeps s) (status) :
    s0.Keeps (s.primEnd status) := by
  delta State.primEnd
  repeat' first
    | with_reducible assumption
    | ((fail_if_no_progress (extract_lets +onlyGivenNames x)); first
        | (refine (fun (hk : s0.Keeps x) => ?_) ?_; clear_value x; rotate_left; dsimp -zeta only [x])
        | (refine (fun (hk : s0.Keeps x.2) => ?_) ?_; clear_value x; rotate_left; dsimp -zeta only [x])
        | clear_value x)
    | with_reducible apply State.free_keeps
    | with_reducible apply State.freeCounts_keeps
    | with_reducible apply State.writeMem_keeps
    | with_reducible apply State.primCount_keeps
    | with_reducible apply State.setPrim_keeps
    | with_reducible apply State.clearRetained_keeps
    | with_reducible apply State.noteLevels_keeps
    | (with_reducible refine State.Keeps.of_eq ?_ (by assumption))
    | (with_reducible refine State.Keeps.of_eq3 ?_ (by assumption))
    | split
    | (with_reducible refine State.Keeps.foldl ?_ ?_)
    | (with_reducible refine State.Keeps.foldl_pair ?_ ?_)
    | (with_reducible refine State.Keeps.foldl_triple ?_ ?_)
    | intro _ _ _

theorem State.postDone_keeps {s0 s : State} (h : s0.Keeps s) (p) :
    s0.Keeps (s.postDone p) := by
  delta State.postDone
  repeat' first
    | with_reducible assumption
    | ((fail_if_no_progress (extract_lets +onlyGivenNames x)); first
        | (refine (fun (hk : s0.Keeps x) => ?_) ?_; clear_value x; rotate_left; dsimp -zeta only [x])
        | clear_value x)
    | with_reducible apply State.noteLevels_keeps
    | with_reducible apply State.writeRecord_keeps
    | with_reducible apply State.setDone_keeps
    | with_reducible apply State.setReg_keeps
    | with_reducible apply State.setPrim_keeps
    | with_reducible apply State.count_keeps
    | with_reducible apply State.clearRetained_keeps
    | with_reducible apply State.primEnd_keeps
    | split

theorem execPrimComplete_keeps {s0 s : State} (h : s0.Keeps s) :
    ∃ s', execPrimComplete s = .next s' ∧ s0.Keeps s' := by
  refine ⟨_, rfl, ?_⟩
  repeat' first
    | with_reducible assumption
    | with_reducible apply State.postDone_keeps
    | split

theorem State.primFlush_keeps {s0 s : State} (h : s0.Keeps s) :
    s0.Keeps (s.primFlush) := by
  delta State.primFlush
  repeat' first
    | with_reducible assumption
    | ((fail_if_no_progress (extract_lets +onlyGivenNames x)); clear_value x)
    | with_reducible apply State.noteLevels_keeps
    | with_reducible apply State.setPrim_keeps

theorem State.failWriteBehind_keeps {s0 s : State} (h : s0.Keeps s) (bad) :
    s0.Keeps (s.failWriteBehind bad) := by
  delta State.failWriteBehind
  repeat' first
    | with_reducible assumption
    | ((fail_if_no_progress (extract_lets +onlyGivenNames x)); first
        | (refine (fun (hk : s0.Keeps x) => ?_) ?_; clear_value x; rotate_left; dsimp -zeta only [x])
        | clear_value x)
    | with_reducible apply State.primEnd_keeps
    | with_reducible apply State.noteLevels_keeps
    | with_reducible apply State.setPrim_keeps
    | with_reducible apply State.clearRetained_keeps
    | split

theorem State.primMemoryFail_keeps {s0 s : State} (h : s0.Keeps s) (cell) :
    s0.Keeps (s.primMemoryFail cell) := by
  delta State.primMemoryFail
  repeat' first
    | with_reducible assumption
    | ((fail_if_no_progress (extract_lets +onlyGivenNames x)); refine (fun (hk : s0.Keeps x) => ?_) ?_; clear_value x; rotate_left; dsimp -zeta only [x])
    | with_reducible apply State.failWriteBehind_keeps
    | with_reducible apply State.primEnd_keeps
    | split

theorem State.primReset_keeps {s0 s : State} (h : s0.Keeps s) :
    s0.Keeps (s.primReset) := by
  delta State.primReset
  repeat' first
    | with_reducible assumption
    | with_reducible apply State.setReg_keeps
    | with_reducible apply State.setPrim_keeps

theorem State.ringChange_keeps {s0 s : State} (h : s0.Keeps s) (q) :
    s0.Keeps (s.ringChange q) := by
  delta State.ringChange
  repeat' first
    | with_reducible assumption
    | ((fail_if_no_progress (extract_lets +onlyGivenNames x)); first
        | (refine (fun (hk : s0.Keeps x) => ?_) ?_; clear_value x; rotate_left; dsimp -zeta only [x])
        | clear_value x)
    | with_reducible apply State.setFlag_keeps
    | with_reducible apply State.clearMem_keeps
    | split

theorem State.drainOne_keeps {s0 s : State} (h : s0.Keeps s) :
    s0.Keeps (s.drainOne) := by
  delta State.drainOne
  repeat' first
    | with_reducible assumption
    | ((fail_if_no_progress (extract_lets +onlyGivenNames x)); clear_value x)
    | with_reducible apply State.writeMem_keeps
    | with_reducible apply State.setPrim_keeps
    | with_reducible apply State.failWriteBehind_keeps
    | split

theorem State.drain_keeps {s0 s : State} (h : s0.Keeps s) (a) :
    s0.Keeps (s.drain a) := by
  induction a generalizing s with
  | zero =>
    rw [State.drain.eq_def]
    try dsimp -zeta only
    repeat' first
      | with_reducible assumption
  | succ a ih =>
    rw [State.drain.eq_def]
    try dsimp -zeta only
    repeat' first
      | with_reducible assumption
      | with_reducible apply ih
      | with_reducible apply State.drainOne_keeps

theorem execRingChangeTakeEffect_keeps {s0 s : State} (h : s0.Keeps s) (quad) :
    ∃ s', execRingChangeTakeEffect quad s = .next s' ∧ s0.Keeps s' := by
  refine ⟨_, rfl, ?_⟩
  repeat' first
    | with_reducible assumption
    | with_reducible apply State.ringChange_keeps
    | split

theorem execWriteBehindDrain_keeps {s0 s : State} (h : s0.Keeps s) (lines) :
    ∃ s', execWriteBehindDrain lines s = .next s' ∧ s0.Keeps s' := by
  refine ⟨_, rfl, ?_⟩
  repeat' first
    | with_reducible assumption
    | with_reducible apply State.drain_keeps
    | split

theorem execPrefetch_keeps {s0 s : State} (h : s0.Keeps s) :
    ∃ s', execPrefetch s = .next s' ∧ s0.Keeps s' := by
  refine ⟨_, rfl, ?_⟩
  repeat' first
    | with_reducible assumption
    | ((fail_if_no_progress (extract_lets +onlyGivenNames x)); clear_value x)
    | with_reducible apply State.setPrim_keeps
    | split

theorem execHeadStaged_keeps {s0 s : State} (h : s0.Keeps s) :
    ∃ s', execHeadStaged s = .next s' ∧ s0.Keeps s' := by
  refine ⟨_, rfl, ?_⟩
  repeat' first
    | with_reducible assumption
    | ((fail_if_no_progress (extract_lets +onlyGivenNames x)); clear_value x)
    | with_reducible apply State.setPrim_keeps
    | split

theorem execPrimPreload_keeps {s0 s : State} (h : s0.Keeps s) :
    ∃ s', execPrimPreload s = .next s' ∧ s0.Keeps s' := by
  refine ⟨_, rfl, ?_⟩
  repeat' first
    | with_reducible assumption
    | ((fail_if_no_progress (extract_lets +onlyGivenNames x)); clear_value x)
    | with_reducible apply State.setPrim_keeps
    | split

end Sys2Proof.Machine
end

