-- ==== Sys2Proof/Laws/KeepsAccord.lean ====
section
/-! SUPPORT. The operations of Machine/Accord.lean keep a state well. -/

namespace Sys2Proof.Machine

open Sys2Proof

theorem State.setHel_keeps {s0 s : State} (h : s0.Keeps s) (h_) :
    s0.Keeps (s.setHel h_) := by
  delta State.setHel
  repeat' first
    | with_reducible assumption
    | fail_if_no_progress (with_reducible apply State.Keeps.upd)

theorem State.helEvent_keeps {s0 s : State} (h : s0.Keeps s) (b) :
    s0.Keeps (s.helEvent b) := by
  delta State.helEvent
  repeat' first
    | with_reducible assumption
    | with_reducible apply State.event_keeps
    | with_reducible apply State.setReg_keeps

theorem State.accordEnd_keeps {s0 s : State} (h : s0.Keeps s) :
    s0.Keeps (s.accordEnd) := by
  delta State.accordEnd
  repeat' first
    | with_reducible assumption
    | ((fail_if_no_progress (extract_lets +onlyGivenNames x)); first
        | (refine (fun (hk : s0.Keeps x) => ?_) ?_; clear_value x; rotate_left; dsimp -zeta only [x])
        | clear_value x)
    | with_reducible apply State.setHel_keeps
    | with_reducible apply State.noteLevels_keeps
    | with_reducible apply State.setFlag_keeps
    | with_reducible apply State.setFld_keeps

theorem State.accordPace_keeps {s0 s : State} (h : s0.Keeps s) (i w) :
    s0.Keeps (s.accordPace i w) := by
  delta State.accordPace
  repeat' first
    | with_reducible assumption
    | ((fail_if_no_progress (extract_lets +onlyGivenNames x)); first
        | (refine (fun (hk : s0.Keeps x) => ?_) ?_; clear_value x; rotate_left; dsimp -zeta only [x])
        | clear_value x)
    | with_reducible apply State.accordEnd_keeps
    | with_reducible apply State.setHel_keeps
    | with_reducible apply State.setFlag_keeps
    | with_reducible apply State.setFld_keeps
    | with_reducible apply State.noteLevels_keeps
    | with_reducible apply State.helEvent_keeps
    | split

theorem State.accordRound_keeps {s0 s : State} (h : s0.Keeps s) (n own busy first) :
    s0.Keeps (s.accordRound n own busy first) := by
  delta State.accordRound
  repeat' first
    | with_reducible assumption
    | ((fail_if_no_progress (extract_lets +onlyGivenNames x)); first
        | (refine (fun (hk : s0.Keeps x) => ?_) ?_; clear_value x; rotate_left; dsimp -zeta only [x])
        | clear_value x)
    | with_reducible apply State.count_keeps
    | with_reducible apply State.setFld_keeps
    | with_reducible apply State.accordEnd_keeps
    | with_reducible apply State.accordPace_keeps
    | split

theorem State.accordSlotLeft_keeps {s0 s : State} (h : s0.Keeps s) (n) :
    s0.Keeps (s.accordSlotLeft n) := by
  delta State.accordSlotLeft
  repeat' first
    | with_reducible assumption
    | with_reducible apply State.accordEnd_keeps
    | split

end Sys2Proof.Machine
end

