-- ==== Sys2Proof/Laws/KeepsCollector.lean ====
section
/-! SUPPORT. The operations of Machine/Collector.lean keep a state well. -/

namespace Sys2Proof.Machine

open Sys2Proof

theorem State.setColSlot_keeps {s0 s : State} (h : s0.Keeps s) (n c) :
    s0.Keeps (s.setColSlot n c) := by
  delta State.setColSlot
  repeat' first
    | with_reducible assumption
    | ((fail_if_no_progress (extract_lets +onlyGivenNames x)); clear_value x)
    | fail_if_no_progress (with_reducible apply State.Keeps.upd)

theorem State.colProtocol_keeps {s0 s : State} (h : s0.Keeps s) (slot rank sub) :
    s0.Keeps (s.colProtocol slot rank sub) := by
  delta State.colProtocol
  repeat' first
    | with_reducible assumption
    | with_reducible apply State.recordError_keeps

theorem State.colDiscard_keeps {s0 s : State} (h : s0.Keeps s) (qual) :
    s0.Keeps (s.colDiscard qual) := by
  delta State.colDiscard
  repeat' first
    | with_reducible assumption
    | with_reducible apply State.count_keeps

theorem State.colBump_keeps {s0 s : State} (h : s0.Keeps s) (f n) :
    s0.Keeps (s.colBump f n) := by
  delta State.colBump
  repeat' first
    | with_reducible assumption
    | ((fail_if_no_progress (extract_lets +onlyGivenNames x)); clear_value x)
    | with_reducible apply State.setFld_keeps
    | split

theorem State.colDrop_keeps {s0 s : State} (h : s0.Keeps s) (n) :
    s0.Keeps (s.colDrop n) := by
  delta State.colDrop
  repeat' first
    | with_reducible assumption
    | ((fail_if_no_progress (extract_lets +onlyGivenNames x)); first
        | (refine (fun (hk : s0.Keeps x) => ?_) ?_; clear_value x; rotate_left; dsimp -zeta only [x])
        | clear_value x)
    | with_reducible apply State.setColSlot_keeps
    | with_reducible apply State.primEnd_keeps
    | split
    | fail_if_no_progress (with_reducible apply State.Keeps.upd)

theorem State.colAbort_keeps {s0 s : State} (h : s0.Keeps s) (n cause rank) :
    s0.Keeps (s.colAbort n cause rank) := by
  delta State.colAbort
  repeat' first
    | with_reducible assumption
    | ((fail_if_no_progress (extract_lets +onlyGivenNames x)); refine (fun (hk : s0.Keeps x) => ?_) ?_; clear_value x; rotate_left; dsimp -zeta only [x])
    | with_reducible apply State.setFld_keeps
    | with_reducible apply State.noteLevels_keeps
    | with_reducible apply State.accordSlotLeft_keeps
    | with_reducible apply State.colDrop_keeps
    | split

theorem State.colMemoryFault_keeps {s0 s : State} (h : s0.Keeps s) (n a) :
    s0.Keeps (s.colMemoryFault n a) := by
  delta State.colMemoryFault
  repeat' first
    | with_reducible assumption
    | with_reducible apply State.colAbort_keeps
    | with_reducible apply State.recordError_keeps

theorem State.colConnLost_keeps {s0 s : State} (h : s0.Keeps s) (conn) :
    s0.Keeps (s.colConnLost conn) := by
  delta State.colConnLost
  repeat' first
    | with_reducible assumption
    | ((fail_if_no_progress (extract_lets +onlyGivenNames x)); clear_value x)
    | with_reducible apply State.colAbort_keeps
    | split
    | (with_reducible refine State.Keeps.foldl ?_ ?_)
    | intro _ _ _

theorem State.colMakeRoom_keeps {s0 s : State} (h : s0.Keeps s) (n) :
    s0.Keeps (s.colMakeRoom n).2 := by
  delta State.colMakeRoom
  repeat' first
    | with_reducible assumption
    | ((fail_if_no_progress (extract_lets +onlyGivenNames x)); clear_value x)
    | with_reducible apply State.free_keeps
    | with_reducible apply State.writeMem_keeps
    | with_reducible apply State.setColSlot_keeps
    | with_reducible apply State.count_keeps
    | with_reducible apply State.colMemoryFault_keeps
    | split

theorem State.colRefill_keeps {s0 s : State} (h : s0.Keeps s) (n next e x) :
    s0.Keeps (s.colRefill n next e x) := by
  delta State.colRefill
  repeat' first
    | with_reducible assumption
    | ((fail_if_no_progress (extract_lets +onlyGivenNames x)); first
        | (refine (fun (hk : s0.Keeps x.2) => ?_) ?_; clear_value x; rotate_left; dsimp -zeta only [x])
        | clear_value x)
    | with_reducible apply State.readMem_keeps
    | with_reducible apply State.free_keeps
    | with_reducible apply State.setColSlot_keeps
    | with_reducible apply State.count_keeps
    | with_reducible apply State.colMemoryFault_keeps
    | (with_reducible refine State.Keeps.of_eq ?_ (by assumption))
    | (with_reducible refine State.Keeps.of_eq3 ?_ (by assumption))
    | split

theorem State.colAdded_keeps {s0 s : State} (h : s0.Keeps s) :
    s0.Keeps (s.colAdded) := by
  delta State.colAdded
  repeat' first
    | with_reducible assumption
    | with_reducible apply State.count_keeps

theorem State.colAdd_keeps {s0 s : State} (h : s0.Keeps s) (n next run e v) :
    s0.Keeps (s.colAdd n next run e v).2 := by
  delta State.colAdd
  repeat' first
    | with_reducible assumption
    | ((fail_if_no_progress (extract_lets +onlyGivenNames x)); first
        | (refine (fun (hk : s0.Keeps x) => ?_) ?_; clear_value x; rotate_left; dsimp -zeta only [x])
        | clear_value x)
    | with_reducible apply State.count_keeps
    | with_reducible apply State.colMakeRoom_keeps
    | with_reducible apply State.colRefill_keeps
    | with_reducible apply State.colAdded_keeps
    | with_reducible apply State.setColSlot_keeps
    | (with_reducible refine State.Keeps.of_eq ?_ (by assumption))
    | split

theorem State.colResult_keeps {s0 s : State} (h : s0.Keeps s) (n next run e v) :
    s0.Keeps (s.colResult n next run e v).2 := by
  delta State.colResult
  repeat' first
    | with_reducible assumption
    | ((fail_if_no_progress (extract_lets +onlyGivenNames x)); clear_value x)
    | with_reducible apply State.count_keeps
    | with_reducible apply State.setColSlot_keeps
    | split

theorem State.colEgress_keeps {s0 s : State} (h : s0.Keeps s) (g v) :
    s0.Keeps (s.colEgress g v) := by
  delta State.colEgress
  repeat' first
    | with_reducible assumption
    | ((fail_if_no_progress (extract_lets +onlyGivenNames x)); clear_value x)
    | fail_if_no_progress (with_reducible apply State.Keeps.upd)

theorem State.colRoute_keeps {s0 s : State} (h : s0.Keeps s) (n next run e v) :
    s0.Keeps (s.colRoute n next run e v) := by
  delta State.colRoute
  repeat' first
    | with_reducible assumption
    | ((fail_if_no_progress (extract_lets +onlyGivenNames x)); first
        | (refine (fun (hk : s0.Keeps x) => ?_) ?_; clear_value x; rotate_left; dsimp -zeta only [x])
        | clear_value x)
    | with_reducible apply State.setColSlot_keeps
    | with_reducible apply State.colEgress_keeps

theorem State.colSendResult_keeps {s0 s : State} (h : s0.Keeps s) (n next e v) :
    s0.Keeps (s.colSendResult n next e v) := by
  delta State.colSendResult
  repeat' first
    | with_reducible assumption
    | ((fail_if_no_progress (extract_lets +onlyGivenNames x)); clear_value x)
    | with_reducible apply State.colEgress_keeps
    | split
    | (with_reducible refine State.Keeps.foldl ?_ ?_)
    | intro _ _ _

theorem State.colDelivered_keeps {s0 s : State} (h : s0.Keeps s) (n next e) :
    s0.Keeps (s.colDelivered n next e) := by
  delta State.colDelivered
  repeat' first
    | with_reducible assumption
    | ((fail_if_no_progress (extract_lets +onlyGivenNames x)); clear_value x)
    | with_reducible apply State.setColSlot_keeps
    | split

theorem State.colWrite_keeps {s0 s : State} (h : s0.Keeps s) (n next es) :
    s0.Keeps (s.colWrite n next es) := by
  delta State.colWrite
  repeat' first
    | with_reducible assumption
    | ((fail_if_no_progress (extract_lets +onlyGivenNames x)); clear_value x)
    | with_reducible apply State.colDelivered_keeps
    | with_reducible apply State.writeMem_keeps
    | with_reducible apply State.colMemoryFault_keeps
    | split
    | (with_reducible refine State.Keeps.foldl ?_ ?_)
    | intro _ _ _

theorem State.colDeliver_keeps {s0 s : State} (h : s0.Keeps s) (n next es) :
    s0.Keeps (s.colDeliver n next es) := by
  delta State.colDeliver
  repeat' first
    | with_reducible assumption
    | ((fail_if_no_progress (extract_lets +onlyGivenNames x)); first
        | (refine (fun (hk : s0.Keeps x) => ?_) ?_; clear_value x; rotate_left; dsimp -zeta only [x])
        | clear_value x)
    | with_reducible apply State.colSendResult_keeps
    | with_reducible apply State.colWrite_keeps
    | (with_reducible refine State.Keeps.of_eq ?_ (by assumption))
    | (with_reducible refine State.Keeps.of_eq3 ?_ (by assumption))
    | split
    | (with_reducible refine State.Keeps.foldl ?_ ?_)
    | (with_reducible refine State.Keeps.foldl_pair ?_ ?_)
    | (with_reducible refine State.Keeps.foldl_triple ?_ ?_)
    | intro _ _ _
    | intro _ _
    | fail_if_no_progress (with_reducible apply State.Keeps.upd)

theorem State.roundComplete_keeps {s0 s : State} (h : s0.Keeps s) (n) :
    s0.Keeps (s.roundComplete n) := by
  delta State.roundComplete
  repeat' first
    | with_reducible assumption
    | ((fail_if_no_progress (extract_lets +onlyGivenNames x)); first
        | (refine (fun (hk : s0.Keeps x.2) => ?_) ?_; clear_value x; rotate_left; dsimp -zeta only [x])
        | clear_value x)
    | with_reducible apply State.free_keeps
    | with_reducible apply State.setFld_keeps
    | with_reducible apply State.setColSlot_keeps
    | with_reducible apply State.count_keeps
    | with_reducible apply State.event_keeps
    | with_reducible apply State.accordRound_keeps
    | split

theorem State.roundCheck_keeps {s0 s : State} (h : s0.Keeps s) (n a) :
    s0.Keeps (s.roundCheck n a) := by
  induction a generalizing s n with
  | zero =>
    rw [State.roundCheck.eq_def]
    try dsimp -zeta only
    repeat' first
      | with_reducible assumption
  | succ a ih =>
    rw [State.roundCheck.eq_def]
    try dsimp -zeta only
    repeat' first
      | with_reducible assumption
      | with_reducible apply ih
      | with_reducible apply State.roundComplete_keeps
      | split

theorem State.colElems_keeps {s0 s : State} (h : s0.Keeps s) (n next run a a' a'') :
    s0.Keeps (s.colElems n next run a a' a'').2 := by
  induction a' generalizing s n next run a a'' with
  | nil =>
    rw [State.colElems.eq_def]
    try dsimp -zeta only
    repeat' first
      | with_reducible assumption
  | cons a'_hd a'_tl ih =>
    rw [State.colElems.eq_def]
    try dsimp -zeta only
    repeat' first
      | with_reducible assumption
      | ((fail_if_no_progress (extract_lets +onlyGivenNames x)); first
          | (refine (fun (hk : s0.Keeps x) => ?_) ?_; clear_value x; rotate_left; dsimp -zeta only [x])
          | clear_value x)
      | with_reducible apply ih
      | with_reducible apply State.colRoute_keeps
      | with_reducible apply State.colResult_keeps
      | with_reducible apply State.colAdd_keeps
      | with_reducible apply State.colProtocol_keeps
      | with_reducible apply State.colDiscard_keeps
      | with_reducible apply State.colBump_keeps
      | split
      | fail_if_no_progress (with_reducible apply State.Keeps.upd)

theorem State.noteRound_keeps {s0 s : State} (h : s0.Keeps s) (n next time own) :
    s0.Keeps (s.noteRound n next time own) := by
  delta State.noteRound
  repeat' first
    | with_reducible assumption
    | ((fail_if_no_progress (extract_lets +onlyGivenNames x)); clear_value x)
    | with_reducible apply State.setColSlot_keeps

theorem State.colTakeRun_keeps {s0 s : State} (h : s0.Keeps s) (r) :
    s0.Keeps (s.colTakeRun r) := by
  delta State.colTakeRun
  repeat' first
    | with_reducible assumption
    | ((fail_if_no_progress (extract_lets +onlyGivenNames x)); refine (fun (hk : s0.Keeps x) => ?_) ?_; clear_value x; rotate_left; dsimp -zeta only [x])
    | with_reducible apply State.colDiscard_keeps
    | with_reducible apply State.colProtocol_keeps
    | with_reducible apply State.colBump_keeps
    | with_reducible apply State.noteRound_keeps
    | with_reducible apply State.colElems_keeps
    | with_reducible apply State.roundCheck_keeps
    | with_reducible apply State.colDeliver_keeps
    | split

theorem State.colArrive_keeps {s0 s : State} (h : s0.Keeps s) (r) :
    s0.Keeps (s.colArrive r) := by
  delta State.colArrive
  repeat' first
    | with_reducible assumption
    | with_reducible apply State.colTakeRun_keeps
    | split
    | fail_if_no_progress (with_reducible apply State.Keeps.upd)

theorem State.colTransitRun_keeps {s0 s : State} (h : s0.Keeps s) (r) :
    s0.Keeps (s.colTransitRun r) := by
  delta State.colTransitRun
  repeat' first
    | with_reducible assumption
    | with_reducible apply State.colArrive_keeps
    | with_reducible apply State.colDiscard_keeps
    | with_reducible apply State.colTakeRun_keeps
    | split

theorem State.colFeedPrimary_keeps {s0 s : State} (h : s0.Keeps s) :
    s0.Keeps (s.colFeedPrimary) := by
  delta State.colFeedPrimary
  repeat' first
    | with_reducible assumption
    | ((fail_if_no_progress (extract_lets +onlyGivenNames x)); first
        | (refine (fun (hk : s0.Keeps x) => ?_) ?_; clear_value x; rotate_left; dsimp -zeta only [x])
        | clear_value x)
    | with_reducible apply State.setPrim_keeps
    | with_reducible apply State.colDelivered_keeps
    | split
    | (with_reducible refine State.Keeps.foldl ?_ ?_)
    | intro _ _ _

theorem State.colForward_keeps {s0 s : State} (h : s0.Keeps s) (f) :
    s0.Keeps (s.colForward f) := by
  delta State.colForward
  repeat' first
    | with_reducible assumption
    | ((fail_if_no_progress (extract_lets +onlyGivenNames x)); first
        | (refine (fun (hk : s0.Keeps x) => ?_) ?_; clear_value x; rotate_left; dsimp -zeta only [x])
        | clear_value x)
    | with_reducible apply State.colArrive_keeps
    | with_reducible apply State.colTakeRun_keeps
    | with_reducible apply State.colDelivered_keeps
    | fail_if_no_progress (with_reducible apply State.Keeps.upd)

theorem State.colPump_keeps {s0 s : State} (h : s0.Keeps s) (fuel) :
    s0.Keeps (s.colPump fuel) := by
  induction fuel generalizing s with
  | zero =>
    rw [State.colPump.eq_def]
    try dsimp -zeta only
    repeat' first
      | with_reducible assumption
  | succ fuel ih =>
    rw [State.colPump.eq_def]
    try dsimp -zeta only
    repeat' first
      | with_reducible assumption
      | ((fail_if_no_progress (extract_lets +onlyGivenNames x)); clear_value x)
      | with_reducible apply ih
      | with_reducible apply State.colForward_keeps
      | with_reducible apply State.colTakeRun_keeps
      | with_reducible apply State.colFeedPrimary_keeps
      | split
      | fail_if_no_progress (with_reducible apply State.Keeps.upd)

theorem State.colSettle_keeps {s0 s : State} (h : s0.Keeps s) :
    s0.Keeps (s.colSettle) := by
  delta State.colSettle
  repeat' first
    | with_reducible assumption
    | with_reducible apply State.colPump_keeps

theorem State.colSkew_keeps {s0 s : State} (h : s0.Keeps s) (n k next) :
    s0.Keeps (s.colSkew n k next) := by
  delta State.colSkew
  repeat' first
    | with_reducible assumption
    | ((fail_if_no_progress (extract_lets +onlyGivenNames x)); first
        | (refine (fun (hk : s0.Keeps x) => ?_) ?_; clear_value x; rotate_left; dsimp -zeta only [x])
        | clear_value x)
    | with_reducible apply State.writeMem_keeps
    | with_reducible apply State.recordError_keeps
    | with_reducible apply State.setFld_keeps
    | split

theorem State.moverNotice_keeps {s0 s : State} (h : s0.Keeps s) (m) :
    s0.Keeps (s.moverNotice m) := by
  delta State.moverNotice
  repeat' first
    | with_reducible assumption
    | ((fail_if_no_progress (extract_lets +onlyGivenNames x)); clear_value x)
    | with_reducible apply State.count_keeps
    | with_reducible apply State.setFld_keeps

theorem State.postColItem_keeps {s0 s : State} (h : s0.Keeps s) (n i) :
    s0.Keeps (s.postColItem n i) := by
  delta State.postColItem
  repeat' first
    | with_reducible assumption
    | ((fail_if_no_progress (extract_lets +onlyGivenNames x)); first
        | (refine (fun (hk : s0.Keeps x.2) => ?_) ?_; clear_value x; rotate_left; dsimp -zeta only [x])
        | clear_value x)
    | with_reducible apply State.postItem_keeps
    | with_reducible apply State.setColSlot_keeps
    | split

theorem State.chunkComplete_keeps {s0 s : State} (h : s0.Keeps s) (n k next) :
    s0.Keeps (s.chunkComplete n k next) := by
  delta State.chunkComplete
  repeat' first
    | with_reducible assumption
    | ((fail_if_no_progress (extract_lets +onlyGivenNames x)); first
        | (refine (fun (hk : s0.Keeps x) => ?_) ?_; clear_value x; rotate_left; dsimp -zeta only [x])
        | clear_value x)
    | with_reducible apply State.colSkew_keeps
    | with_reducible apply State.postColItem_keeps
    | with_reducible apply State.moverNotice_keeps
    | with_reducible apply State.roundCheck_keeps
    | with_reducible apply State.setColSlot_keeps
    | split

theorem State.repostItems_keeps {s0 s : State} (h : s0.Keeps s) (n a) :
    s0.Keeps (s.repostItems n a) := by
  induction a generalizing s n with
  | nil =>
    rw [State.repostItems.eq_def]
    try dsimp -zeta only
    repeat' first
      | with_reducible assumption
      | ((fail_if_no_progress (extract_lets +onlyGivenNames x)); clear_value x)
      | with_reducible apply State.setColSlot_keeps
  | cons a_hd a_tl ih =>
    rw [State.repostItems.eq_def]
    try dsimp -zeta only
    repeat' first
      | with_reducible assumption
      | ((fail_if_no_progress (extract_lets +onlyGivenNames x)); first
          | (refine (fun (hk : s0.Keeps x.2) => ?_) ?_; clear_value x; rotate_left; dsimp -zeta only [x])
          | clear_value x)
      | with_reducible apply ih
      | with_reducible apply State.setColSlot_keeps
      | with_reducible apply State.postItem_keeps
      | with_reducible apply State.count_keeps
      | split

theorem State.colRead_keeps {s0 s : State} (h : s0.Keeps s) (a a') :
    s0.Keeps (s.colRead a a').2 := by
  induction a' generalizing s a with
  | zero =>
    rw [State.colRead.eq_def]
    try dsimp -zeta only
    repeat' first
      | with_reducible assumption
  | succ a' ih =>
    rw [State.colRead.eq_def]
    try dsimp -zeta only
    repeat' first
      | with_reducible assumption
      | ((fail_if_no_progress (extract_lets +onlyGivenNames x)); refine (fun (hk : s0.Keeps x.2) => ?_) ?_; clear_value x; rotate_left; dsimp -zeta only [x])
      | with_reducible apply ih
      | with_reducible apply State.load_keeps
      | split

theorem State.colReadTable_keeps {s0 s : State} (h : s0.Keeps s) (c of n) :
    s0.Keeps (s.colReadTable c of n).2 := by
  induction n generalizing s with
  | zero =>
    rw [State.colReadTable.eq_def]
    try dsimp -zeta only
    repeat' first
      | with_reducible assumption
      | ((fail_if_no_progress (extract_lets +onlyGivenNames x)); first
          | (refine (fun (hk : s0.Keeps x) => ?_) ?_; clear_value x; rotate_left; dsimp -zeta only [x])
          | (refine (fun (hk : s0.Keeps x.2) => ?_) ?_; clear_value x; rotate_left; dsimp -zeta only [x])
          | (refine (fun (hk : s0.Keeps x.2.2) => ?_) ?_; clear_value x; rotate_left; dsimp -zeta only [x])
          | clear_value x
          | skip)
  | succ n ih =>
    rw [State.colReadTable.eq_def]
    try dsimp -zeta only
    repeat' first
      | with_reducible assumption
      | with_reducible apply ih
      | ((fail_if_no_progress (extract_lets +onlyGivenNames x)); first
          | (refine (fun (hk : s0.Keeps x.2) => ?_) ?_; clear_value x; rotate_left; dsimp -zeta only [x])
          | clear_value x)
      | with_reducible apply State.colRead_keeps
      | (with_reducible refine State.Keeps.of_eq ?_ (by assumption))
      | (with_reducible refine State.Keeps.of_eq3 ?_ (by assumption))
      | split

theorem State.colReply_keeps {s0 s : State} (h : s0.Keeps s) (code slot) :
    s0.Keeps (s.colReply code slot) := by
  delta State.colReply
  repeat' first
    | with_reducible assumption
    | ((fail_if_no_progress (extract_lets +onlyGivenNames x)); refine (fun (hk : s0.Keeps x) => ?_) ?_; clear_value x; rotate_left; dsimp -zeta only [x])
    | with_reducible apply State.setFld_keeps

theorem State.colRefuse_keeps {s0 s : State} (h : s0.Keeps s) (code) :
    s0.Keeps (s.colRefuse code) := by
  delta State.colRefuse
  repeat' first
    | with_reducible assumption
    | ((fail_if_no_progress (extract_lets +onlyGivenNames x)); refine (fun (hk : s0.Keeps x.2) => ?_) ?_; clear_value x; rotate_left; dsimp -zeta only [x])
    | with_reducible apply State.free_keeps
    | with_reducible apply State.colReply_keeps

theorem State.colClearSlot_keeps {s0 s : State} (h : s0.Keeps s) (n) :
    s0.Keeps (s.colClearSlot n) := by
  delta State.colClearSlot
  repeat' first
    | with_reducible assumption
    | with_reducible apply State.setReg_keeps
    | (with_reducible refine State.Keeps.foldl ?_ ?_)
    | intro _ _ _

theorem State.colAllocate_keeps {s0 s : State} (h : s0.Keeps s) (c) :
    s0.Keeps (s.colAllocate c) := by
  delta State.colAllocate
  repeat' first
    | with_reducible assumption
    | ((fail_if_no_progress (extract_lets +onlyGivenNames x)); first
        | (refine (fun (hk : s0.Keeps x) => ?_) ?_; clear_value x; rotate_left; dsimp -zeta only [x])
        | (refine (fun (hk : s0.Keeps x.2) => ?_) ?_; clear_value x; rotate_left; dsimp -zeta only [x])
        | clear_value x)
    | with_reducible apply State.free_keeps
    | with_reducible apply State.setColSlot_keeps
    | with_reducible apply State.colClearSlot_keeps
    | with_reducible apply State.setFld_keeps
    | with_reducible apply State.colReply_keeps

theorem State.colOpenCmd_keeps {s0 s : State} (h : s0.Keeps s) (dome) :
    s0.Keeps (s.colOpenCmd dome) := by
  delta State.colOpenCmd
  repeat' first
    | with_reducible assumption
    | ((fail_if_no_progress (extract_lets +onlyGivenNames x)); first
        | clear_value x
        | skip)
    | with_reducible apply State.colRefuse_keeps
    | with_reducible apply State.colRead_keeps
    | with_reducible apply State.recordError_keeps
    | with_reducible apply State.colReadTable_keeps
    | with_reducible apply State.colAllocate_keeps
    | (with_reducible refine State.Keeps.of_eq ?_ (by assumption))
    | (with_reducible refine State.Keeps.of_eq3 ?_ (by assumption))
    | split

theorem State.colClose_keeps {s0 s : State} (h : s0.Keeps s) (n) :
    s0.Keeps (s.colClose n) := by
  delta State.colClose
  repeat' first
    | with_reducible assumption
    | ((fail_if_no_progress (extract_lets +onlyGivenNames x)); refine (fun (hk : s0.Keeps x) => ?_) ?_; clear_value x; rotate_left; dsimp -zeta only [x])
    | with_reducible apply State.colClearSlot_keeps
    | with_reducible apply State.colDrop_keeps
    | with_reducible apply State.noteLevels_keeps
    | with_reducible apply State.putBit_keeps
    | with_reducible apply State.accordSlotLeft_keeps
    | with_reducible apply State.setColSlot_keeps

theorem State.colReset_keeps {s0 s : State} (h : s0.Keeps s) (n t) :
    s0.Keeps (s.colReset n t) := by
  delta State.colReset
  repeat' first
    | with_reducible assumption
    | ((fail_if_no_progress (extract_lets +onlyGivenNames x)); first
        | (refine (fun (hk : s0.Keeps x) => ?_) ?_; clear_value x; rotate_left; dsimp -zeta only [x])
        | clear_value x)
    | with_reducible apply State.colDrop_keeps
    | with_reducible apply State.setColSlot_keeps
    | with_reducible apply State.noteLevels_keeps
    | with_reducible apply State.setFld_keeps

theorem State.colCommand_keeps {s0 s : State} (h : s0.Keeps s) (dome cmd n) :
    s0.Keeps (s.colCommand dome cmd n) := by
  delta State.colCommand
  repeat' first
    | with_reducible assumption
    | ((fail_if_no_progress (extract_lets +onlyGivenNames x)); first
        | (refine (fun (hk : s0.Keeps x) => ?_) ?_; clear_value x; rotate_left; dsimp -zeta only [x])
        | (refine (fun (hc9 : ∀ f : State → State, (∀ t, s0.Keeps t → s0.Keeps (f t)) → s0.Keeps (x f)) => ?_) ?_; clear_value x; rotate_left; intro f hf; dsimp -zeta only [x])
        | clear_value x)
    | with_reducible apply State.colReply_keeps
    | with_reducible apply State.colOpenCmd_keeps
    | with_reducible apply State.colClose_keeps
    | with_reducible apply State.colAbort_keeps
    | with_reducible apply State.colReset_keeps
    | with_reducible apply State.colRefuse_keeps
    | with_reducible apply State.colSettle_keeps
    | with_reducible apply hc9
    | with_reducible apply hf
    | split
    | intro _ _

theorem State.roundTimeout_keeps {s0 s : State} (h : s0.Keeps s) (n) :
    s0.Keeps (s.roundTimeout n) := by
  delta State.roundTimeout
  repeat' first
    | with_reducible assumption
    | ((fail_if_no_progress (extract_lets +onlyGivenNames x)); clear_value x)
    | with_reducible apply State.colSettle_keeps
    | with_reducible apply State.colAbort_keeps
    | with_reducible apply State.recordError_keeps
    | split

theorem State.colCellReset_keeps {s0 s : State} (h : s0.Keeps s) :
    s0.Keeps (s.colCellReset) := by
  delta State.colCellReset
  repeat' first
    | with_reducible assumption
    | ((fail_if_no_progress (extract_lets +onlyGivenNames x)); refine (fun (hk : s0.Keeps x) => ?_) ?_; clear_value x; rotate_left; dsimp -zeta only [x])
    | with_reducible apply State.colClose_keeps
    | split
    | (with_reducible refine State.Keeps.foldl ?_ ?_)
    | intro _ _ _
    | fail_if_no_progress (with_reducible apply State.Keeps.upd)

theorem State.bindPart_keeps {s0 s : State} (h : s0.Keeps s) (b w bs ep) :
    s0.Keeps (s.bindPart b w bs ep).2 := by
  delta State.bindPart
  repeat' first
    | with_reducible assumption
    | ((fail_if_no_progress (extract_lets +onlyGivenNames x)); first
        | clear_value x)
    | with_reducible apply State.setFld_keeps
    | split

theorem State.bindWrite_keeps {s0 s : State} (h : s0.Keeps s) (b w bs ep) :
    s0.Keeps (s.bindWrite b w bs ep).2 := by
  delta State.bindWrite
  repeat' first
    | with_reducible assumption
    | ((fail_if_no_progress (extract_lets +onlyGivenNames x)); first
        | (refine (fun (hk : s0.Keeps x.2) => ?_) ?_; clear_value x; rotate_left; dsimp -zeta only [x])
        | clear_value x)
    | with_reducible apply State.colProtocol_keeps
    | with_reducible apply State.colDiscard_keeps
    | with_reducible apply State.bindPart_keeps
    | split

end Sys2Proof.Machine
end

