-- ==== Sys2Proof/Laws/KeepsEthernet.lean ====
section
/-! SUPPORT. The operations of Machine/Ethernet.lean keep a state well. -/

namespace Sys2Proof.Machine

open Sys2Proof

theorem State.setEthPort_keeps {s0 s : State} (h : s0.Keeps s) (p x) :
    s0.Keeps (s.setEthPort p x) := by
  delta State.setEthPort
  repeat' first
    | with_reducible assumption
    | ((fail_if_no_progress (extract_lets +onlyGivenNames x)); clear_value x)
    | fail_if_no_progress (with_reducible apply State.Keeps.upd)

theorem State.stampFrame_keeps {s0 s : State} (h : s0.Keeps s) (p half bs) :
    s0.Keeps (s.stampFrame p half bs) := by
  delta State.stampFrame
  repeat' first
    | with_reducible assumption
    | ((fail_if_no_progress (extract_lets +onlyGivenNames x)); clear_value x)
    | with_reducible apply State.count_keeps
    | with_reducible apply State.setFlag_keeps
    | with_reducible apply State.setEthPort_keeps
    | split

theorem State.emitFrame_keeps {s0 s : State} (h : s0.Keeps s) (p half bs mark) :
    s0.Keeps (s.emitFrame p half bs mark) := by
  delta State.emitFrame
  repeat' first
    | with_reducible assumption
    | fail_if_no_progress (with_reducible apply State.Keeps.upd)

theorem State.transmit_keeps {s0 s : State} (h : s0.Keeps s) (p bs mark) :
    s0.Keeps (s.transmit p bs mark) := by
  delta State.transmit
  repeat' first
    | with_reducible assumption
    | ((fail_if_no_progress (extract_lets +onlyGivenNames x)); first
        | (refine (fun (hk : s0.Keeps x) => ?_) ?_; clear_value x; rotate_left; dsimp -zeta only [x])
        | clear_value x)
    | with_reducible apply State.count_keeps
    | with_reducible apply State.emitFrame_keeps
    | with_reducible apply State.stampFrame_keeps
    | split

theorem State.sendPfc_keeps {s0 s : State} (h : s0.Keeps s) (p half prio quanta) :
    s0.Keeps (s.sendPfc p half prio quanta) := by
  delta State.sendPfc
  repeat' first
    | with_reducible assumption
    | ((fail_if_no_progress (extract_lets +onlyGivenNames x)); clear_value x)
    | with_reducible apply State.count_keeps
    | with_reducible apply State.emitFrame_keeps
    | split

theorem State.admitIngress_keeps {s0 s : State} (h : s0.Keeps s) (p f) :
    s0.Keeps (s.admitIngress p f) := by
  delta State.admitIngress
  repeat' first
    | with_reducible assumption
    | ((fail_if_no_progress (extract_lets +onlyGivenNames x)); first
        | (refine (fun (hk : s0.Keeps x) => ?_) ?_; clear_value x; rotate_left; dsimp -zeta only [x])
        | clear_value x)
    | with_reducible apply State.count_keeps
    | with_reducible apply State.setEthPort_keeps
    | with_reducible apply State.sendPfc_keeps
    | split

theorem State.notePaused_keeps {s0 s : State} (h : s0.Keeps s) (p) :
    s0.Keeps (s.notePaused p) := by
  delta State.notePaused
  repeat' first
    | with_reducible assumption
    | ((fail_if_no_progress (extract_lets +onlyGivenNames x)); clear_value x)
    | with_reducible apply State.setFld_keeps

theorem State.pfcReceive_keeps {s0 s : State} (h : s0.Keeps s) (p half prio quanta) :
    s0.Keeps (s.pfcReceive p half prio quanta) := by
  delta State.pfcReceive
  repeat' first
    | with_reducible assumption
    | ((fail_if_no_progress (extract_lets +onlyGivenNames x)); first
        | (refine (fun (hk : s0.Keeps x) => ?_) ?_; clear_value x; rotate_left; dsimp -zeta only [x])
        | clear_value x)
    | with_reducible apply State.count_keeps
    | with_reducible apply State.notePaused_keeps
    | with_reducible apply State.setEthPort_keeps

theorem State.pfcExpire_keeps {s0 s : State} (h : s0.Keeps s) (p half prio) :
    s0.Keeps (s.pfcExpire p half prio) := by
  delta State.pfcExpire
  repeat' first
    | with_reducible assumption
    | ((fail_if_no_progress (extract_lets +onlyGivenNames x)); clear_value x)
    | with_reducible apply State.notePaused_keeps
    | with_reducible apply State.setEthPort_keeps

theorem State.pfcRefresh_keeps {s0 s : State} (h : s0.Keeps s) (p half prio) :
    s0.Keeps (s.pfcRefresh p half prio) := by
  delta State.pfcRefresh
  repeat' first
    | with_reducible assumption
    | ((fail_if_no_progress (extract_lets +onlyGivenNames x)); clear_value x)
    | with_reducible apply State.sendPfc_keeps
    | split

theorem State.pfcXon_keeps {s0 s : State} (h : s0.Keeps s) (p half prio) :
    s0.Keeps (s.pfcXon p half prio) := by
  delta State.pfcXon
  repeat' first
    | with_reducible assumption
    | ((fail_if_no_progress (extract_lets +onlyGivenNames x)); first
        | (refine (fun (hk : s0.Keeps x) => ?_) ?_; clear_value x; rotate_left; dsimp -zeta only [x])
        | clear_value x)
    | with_reducible apply State.setEthPort_keeps
    | with_reducible apply State.sendPfc_keeps
    | split

theorem State.ethLinkChange_keeps {s0 s : State} (h : s0.Keeps s) (p half up) :
    s0.Keeps (s.ethLinkChange p half up) := by
  delta State.ethLinkChange
  repeat' first
    | with_reducible assumption
    | ((fail_if_no_progress (extract_lets +onlyGivenNames x)); clear_value x)
    | with_reducible apply State.event_keeps
    | with_reducible apply State.setFlag_keeps
    | split

theorem State.ethDown_keeps {s0 s : State} (h : s0.Keeps s) (p reset) :
    s0.Keeps (s.ethDown p reset) := by
  delta State.ethDown
  repeat' first
    | with_reducible assumption
    | ((fail_if_no_progress (extract_lets +onlyGivenNames x)); first
        | (refine (fun (hk : s0.Keeps x) => ?_) ?_; clear_value x; rotate_left; dsimp -zeta only [x])
        | clear_value x)
    | with_reducible apply State.ethLinkChange_keeps
    | with_reducible apply State.notePaused_keeps
    | with_reducible apply State.setEthPort_keeps
    | split

theorem State.txtsTime_keeps {s0 s : State} (h : s0.Keeps s) (p) :
    s0.Keeps (s.txtsTime p).2 := by
  delta State.txtsTime
  repeat' first
    | with_reducible assumption
    | ((fail_if_no_progress (extract_lets +onlyGivenNames x)); clear_value x)
    | with_reducible apply State.setEthPort_keeps
    | split

end Sys2Proof.Machine
end

