-- ==== Sys2Proof/Laws/KeepsPcie.lean ====
section
/-! SUPPORT. The operations of Machine/Pcie.lean keep a state well. -/

namespace Sys2Proof.Machine

open Sys2Proof

theorem State.setPciFn_keeps {s0 s : State} (h : s0.Keeps s) (port fn f) :
    s0.Keeps (s.setPciFn port fn f) := by
  delta State.setPciFn
  repeat' first
    | with_reducible assumption
    | ((fail_if_no_progress (extract_lets +onlyGivenNames x)); clear_value x)
    | fail_if_no_progress (with_reducible apply State.Keeps.upd)

theorem State.setPci_keeps {s0 s : State} (h : s0.Keeps s) (p) :
    s0.Keeps (s.setPci p) := by
  delta State.setPci
  repeat' first
    | with_reducible assumption
    | fail_if_no_progress (with_reducible apply State.Keeps.upd)

theorem State.setCfg_keeps {s0 s : State} (h : s0.Keeps s) (port fn off v) :
    s0.Keeps (s.setCfg port fn off v) := by
  delta State.setCfg
  repeat' first
    | with_reducible assumption
    | ((fail_if_no_progress (extract_lets +onlyGivenNames x)); clear_value x)
    | with_reducible apply State.setPciFn_keeps

theorem State.cfgSet_keeps {s0 s : State} (h : s0.Keeps s) (port fn off mask) :
    s0.Keeps (s.cfgSet port fn off mask) := by
  delta State.cfgSet
  repeat' first
    | with_reducible assumption
    | with_reducible apply State.setCfg_keeps

theorem State.sendTlp_keeps {s0 s : State} (h : s0.Keeps s) (t) :
    s0.Keeps (s.sendTlp t) := by
  delta State.sendTlp
  repeat' first
    | with_reducible assumption
    | ((fail_if_no_progress (extract_lets +onlyGivenNames x)); first
        | (refine (fun (hk : s0.Keeps x) => ?_) ?_; clear_value x; rotate_left; dsimp -zeta only [x])
        | clear_value x)
    | with_reducible apply State.count_keeps
    | with_reducible apply State.setPci_keeps

theorem State.noteTlp_keeps {s0 s : State} (h : s0.Keeps s) (port bytes) :
    s0.Keeps (s.noteTlp port bytes) := by
  delta State.noteTlp
  repeat' first
    | with_reducible assumption
    | ((fail_if_no_progress (extract_lets +onlyGivenNames x)); clear_value x)
    | with_reducible apply State.count_keeps

theorem State.aerCor_keeps {s0 s : State} (h : s0.Keeps s) (port fn bit) :
    s0.Keeps (s.aerCor port fn bit) := by
  delta State.aerCor
  repeat' first
    | with_reducible assumption
    | ((fail_if_no_progress (extract_lets +onlyGivenNames x)); refine (fun (hk : s0.Keeps x) => ?_) ?_; clear_value x; rotate_left; dsimp -zeta only [x])
    | with_reducible apply State.cfgSet_keeps
    | with_reducible apply State.count_keeps
    | with_reducible apply State.sendTlp_keeps
    | split

theorem State.aerHeader_keeps {s0 s : State} (h : s0.Keeps s) (port fn bit hdr) :
    s0.Keeps (s.aerHeader port fn bit hdr) := by
  delta State.aerHeader
  repeat' first
    | with_reducible assumption
    | ((fail_if_no_progress (extract_lets +onlyGivenNames x)); first
        | (refine (fun (hk : s0.Keeps x) => ?_) ?_; clear_value x; rotate_left; dsimp -zeta only [x])
        | skip)
    | with_reducible apply State.cfgSet_keeps
    | with_reducible apply State.setCfg_keeps
    | with_reducible apply State.aerCor_keeps
    | split
    | (with_reducible refine State.Keeps.foldl ?_ ?_)
    | intro _ _ _

theorem State.aerUncor_keeps {s0 s : State} (h : s0.Keeps s) (port fn bit advisory hdr) :
    s0.Keeps (s.aerUncor port fn bit advisory hdr) := by
  delta State.aerUncor
  repeat' first
    | with_reducible assumption
    | ((fail_if_no_progress (extract_lets +onlyGivenNames x)); first
        | (refine (fun (hk : s0.Keeps x) => ?_) ?_; clear_value x; rotate_left; dsimp -zeta only [x])
        | clear_value x)
    | with_reducible apply State.cfgSet_keeps
    | with_reducible apply State.aerHeader_keeps
    | with_reducible apply State.aerCor_keeps
    | with_reducible apply State.sendTlp_keeps
    | split

theorem State.msixFire_keeps {s0 s : State} (h : s0.Keeps s) (port fn vec) :
    s0.Keeps (s.msixFire port fn vec) := by
  delta State.msixFire
  repeat' first
    | with_reducible assumption
    | ((fail_if_no_progress (extract_lets +onlyGivenNames x)); first
        | (refine (fun (hk : s0.Keeps x) => ?_) ?_; clear_value x; rotate_left; dsimp -zeta only [x])
        | clear_value x)
    | with_reducible apply State.count_keeps
    | with_reducible apply State.setPciFn_keeps
    | with_reducible apply State.sendTlp_keeps
    | split

theorem State.msixFlush_keeps {s0 s : State} (h : s0.Keeps s) (port fn) :
    s0.Keeps (s.msixFlush port fn) := by
  delta State.msixFlush
  repeat' first
    | with_reducible assumption
    | with_reducible apply State.msixFire_keeps
    | (with_reducible refine State.Keeps.foldl ?_ ?_)
    | intro _ _ _

theorem State.setRoute_keeps {s0 s : State} (h : s0.Keeps s) (src r) :
    s0.Keeps (s.setRoute src r) := by
  delta State.setRoute
  repeat' first
    | with_reducible assumption
    | ((fail_if_no_progress (extract_lets +onlyGivenNames x)); clear_value x)
    | with_reducible apply State.setPci_keeps

theorem State.routeFire_keeps {s0 s : State} (h : s0.Keeps s) (src wait) :
    s0.Keeps (s.routeFire src wait) := by
  delta State.routeFire
  repeat' first
    | with_reducible assumption
    | ((fail_if_no_progress (extract_lets +onlyGivenNames x)); clear_value x)
    | with_reducible apply State.setRoute_keeps
    | split

theorem State.routeSend_keeps {s0 s : State} (h : s0.Keeps s) (src) :
    s0.Keeps (s.routeSend src) := by
  delta State.routeSend
  repeat' first
    | with_reducible assumption
    | ((fail_if_no_progress (extract_lets +onlyGivenNames x)); clear_value x)
    | with_reducible apply State.count_keeps
    | with_reducible apply State.setRoute_keeps
    | with_reducible apply State.msixFire_keeps
    | split

theorem State.askTranslation_keeps {s0 s : State} (h : s0.Keeps s) (port fn a w) :
    s0.Keeps (s.askTranslation port fn a w) := by
  delta State.askTranslation
  repeat' first
    | with_reducible assumption
    | ((fail_if_no_progress (extract_lets +onlyGivenNames x)); first
        | (refine (fun (hk : s0.Keeps x) => ?_) ?_; clear_value x; rotate_left; dsimp -zeta only [x])
        | clear_value x)
    | with_reducible apply State.count_keeps
    | with_reducible apply State.sendTlp_keeps
    | with_reducible apply State.setPci_keeps
    | split

theorem State.setVf_keeps {s0 s : State} (h : s0.Keeps s) (port v x) :
    s0.Keeps (s.setVf port v x) := by
  delta State.setVf
  repeat' first
    | with_reducible assumption
    | ((fail_if_no_progress (extract_lets +onlyGivenNames x)); clear_value x)
    | with_reducible apply State.setPci_keeps

theorem State.logDirty_keeps {s0 s : State} (h : s0.Keeps s) (port fn a) :
    s0.Keeps (s.logDirty port fn a) := by
  delta State.logDirty
  repeat' first
    | with_reducible assumption
    | ((fail_if_no_progress (extract_lets +onlyGivenNames x)); clear_value x)
    | with_reducible apply State.setPci_keeps
    | with_reducible apply State.setFld_keeps
    | split

theorem State.issueOp_keeps {s0 s : State} (h : s0.Keeps s) (o fuel) :
    s0.Keeps (s.issueOp o fuel).2.2 := by
  induction fuel generalizing s o with
  | zero =>
    rw [State.issueOp.eq_def]
    try dsimp -zeta only
    repeat' first
      | with_reducible assumption
  | succ fuel ih =>
    rw [State.issueOp.eq_def]
    try dsimp -zeta only
    repeat' first
      | with_reducible assumption
      | ((fail_if_no_progress (extract_lets +onlyGivenNames x)); first
          | (refine (fun (hk : s0.Keeps x) => ?_) ?_; clear_value x; rotate_left; dsimp -zeta only [x])
          | clear_value x)
      | with_reducible apply ih
      | with_reducible apply State.askTranslation_keeps
      | with_reducible apply State.count_keeps
      | with_reducible apply State.sendTlp_keeps
      | with_reducible apply State.logDirty_keeps
      | with_reducible apply State.setPci_keeps
      | split

theorem State.dirtyStopped_keeps {s0 s : State} (h : s0.Keeps s) (port v) :
    s0.Keeps (s.dirtyStopped port v) := by
  delta State.dirtyStopped
  repeat' first
    | with_reducible assumption
    | ((fail_if_no_progress (extract_lets +onlyGivenNames x)); clear_value x)
    | with_reducible apply State.setFlag_keeps
    | with_reducible apply State.setVf_keeps
    | split

theorem State.addHostOp_keeps {s0 s : State} (h : s0.Keeps s) (o) :
    s0.Keeps (s.addHostOp o) := by
  delta State.addHostOp
  repeat' first
    | with_reducible assumption
    | ((fail_if_no_progress (extract_lets +onlyGivenNames x)); clear_value x)
    | with_reducible apply State.setPci_keeps

theorem State.hostFinish_keeps {s0 s : State} (h : s0.Keeps s) (d) :
    s0.Keeps (s.hostFinish d) := by
  delta State.hostFinish
  repeat' first
    | with_reducible assumption
    | ((fail_if_no_progress (extract_lets +onlyGivenNames x)); first
        | (refine (fun (hk : s0.Keeps x) => ?_) ?_; clear_value x; rotate_left; dsimp -zeta only [x])
        | clear_value x)
    | with_reducible apply State.setPci_keeps
    | with_reducible apply State.addHostOp_keeps
    | with_reducible apply State.dirtyStopped_keeps
    | split

theorem State.dropOp_keeps {s0 s : State} (h : s0.Keeps s) (id) :
    s0.Keeps (s.dropOp id) := by
  delta State.dropOp
  repeat' first
    | with_reducible assumption
    | ((fail_if_no_progress (extract_lets +onlyGivenNames x)); clear_value x)
    | with_reducible apply State.setPci_keeps

theorem State.putOp_keeps {s0 s : State} (h : s0.Keeps s) (o) :
    s0.Keeps (s.putOp o) := by
  delta State.putOp
  repeat' first
    | with_reducible assumption
    | ((fail_if_no_progress (extract_lets +onlyGivenNames x)); clear_value x)
    | with_reducible apply State.setPci_keeps

theorem State.issueOps_keeps {s0 s : State} (h : s0.Keeps s) (a blocked) :
    s0.Keeps (s.issueOps a blocked) := by
  induction a generalizing s blocked with
  | nil =>
    rw [State.issueOps.eq_def]
    try dsimp -zeta only
    repeat' first
      | with_reducible assumption
  | cons a_hd a_tl ih =>
    rw [State.issueOps.eq_def]
    try dsimp -zeta only
    repeat' first
      | with_reducible assumption
      | ((fail_if_no_progress (extract_lets +onlyGivenNames x)); refine (fun (hk : s0.Keeps x.2.2) => ?_) ?_; clear_value x; rotate_left; dsimp -zeta only [x])
      | with_reducible apply ih
      | with_reducible apply State.issueOp_keeps
      | with_reducible apply State.putOp_keeps
      | with_reducible apply State.hostFinish_keeps
      | with_reducible apply State.dropOp_keeps
      | split

theorem State.dirtyStart_keeps {s0 s : State} (h : s0.Keeps s) (a) :
    s0.Keeps (s.dirtyStart a) := by
  induction a generalizing s with
  | nil =>
    rw [State.dirtyStart.eq_def]
    try dsimp -zeta only
    repeat' first
      | with_reducible assumption
  | cons a_hd a_tl ih =>
    rw [State.dirtyStart.eq_def]
    try dsimp -zeta only
    repeat' first
      | with_reducible assumption
      | ((fail_if_no_progress (extract_lets +onlyGivenNames x)); clear_value x)
      | with_reducible apply ih
      | with_reducible apply State.addHostOp_keeps
      | split

theorem State.pciePump_keeps {s0 s : State} (h : s0.Keeps s) :
    s0.Keeps (s.pciePump) := by
  delta State.pciePump
  repeat' first
    | with_reducible assumption
    | ((fail_if_no_progress (extract_lets +onlyGivenNames x)); refine (fun (hk : s0.Keeps x) => ?_) ?_; clear_value x; rotate_left; dsimp -zeta only [x])
    | with_reducible apply State.issueOps_keeps
    | with_reducible apply State.dirtyStart_keeps

theorem State.hostRead_keeps {s0 s : State} (h : s0.Keeps s) (port fn a n p) :
    s0.Keeps (s.hostRead port fn a n p) := by
  delta State.hostRead
  repeat' first
    | with_reducible assumption
    | with_reducible apply State.hostFinish_keeps
    | with_reducible apply State.addHostOp_keeps
    | with_reducible apply State.pciePump_keeps
    | split

theorem State.hostWrite_keeps {s0 s : State} (h : s0.Keeps s) (port fn a bs ep p) :
    s0.Keeps (s.hostWrite port fn a bs ep p).2 := by
  delta State.hostWrite
  repeat' first
    | with_reducible assumption
    | with_reducible apply State.hostFinish_keeps
    | with_reducible apply State.addHostOp_keeps
    | with_reducible apply State.pciePump_keeps
    | split

theorem State.dropReq_keeps {s0 s : State} (h : s0.Keeps s) (port tag) :
    s0.Keeps (s.dropReq port tag) := by
  delta State.dropReq
  repeat' first
    | with_reducible assumption
    | ((fail_if_no_progress (extract_lets +onlyGivenNames x)); clear_value x)
    | with_reducible apply State.setPci_keeps

theorem State.putReq_keeps {s0 s : State} (h : s0.Keeps s) (q) :
    s0.Keeps (s.putReq q) := by
  delta State.putReq
  repeat' first
    | with_reducible assumption
    | ((fail_if_no_progress (extract_lets +onlyGivenNames x)); clear_value x)
    | with_reducible apply State.setPci_keeps

theorem State.failOp_keeps {s0 s : State} (h : s0.Keeps s) (id timeout) :
    s0.Keeps (s.failOp id timeout) := by
  delta State.failOp
  repeat' first
    | with_reducible assumption
    | with_reducible apply State.hostFinish_keeps
    | with_reducible apply State.dropOp_keeps
    | split

theorem State.unexpected_keeps {s0 s : State} (h : s0.Keeps s) (port fn) :
    s0.Keeps (s.unexpected port fn) := by
  delta State.unexpected
  repeat' first
    | with_reducible assumption
    | with_reducible apply State.recordError_keeps
    | with_reducible apply State.aerUncor_keeps
    | with_reducible apply State.count_keeps

theorem State.deliverData_keeps {s0 s : State} (h : s0.Keeps s) (r bs ep) :
    s0.Keeps (s.deliverData r bs ep) := by
  delta State.deliverData
  repeat' first
    | with_reducible assumption
    | ((fail_if_no_progress (extract_lets +onlyGivenNames x)); first
        | (refine (fun (hk : s0.Keeps x) => ?_) ?_; clear_value x; rotate_left; dsimp -zeta only [x])
        | clear_value x
        | skip)
    | with_reducible apply State.putReq_keeps
    | with_reducible apply State.dropReq_keeps
    | with_reducible apply State.hostFinish_keeps
    | with_reducible apply State.dropOp_keeps
    | with_reducible apply State.putOp_keeps
    | split

theorem State.failWaiting_keeps {s0 s : State} (h : s0.Keeps s) (port fn page) :
    s0.Keeps (s.failWaiting port fn page) := by
  delta State.failWaiting
  repeat' first
    | with_reducible assumption
    | with_reducible apply State.failOp_keeps
    | (with_reducible refine State.Keeps.foldl ?_ ?_)
    | intro _ _ _

theorem State.cacheAdd_keeps {s0 s : State} (h : s0.Keeps s) (port t) :
    s0.Keeps (s.cacheAdd port t) := by
  delta State.cacheAdd
  repeat' first
    | with_reducible assumption
    | ((fail_if_no_progress (extract_lets +onlyGivenNames x)); clear_value x)
    | with_reducible apply State.setPci_keeps

theorem State.hostCompletion_keeps {s0 s : State} (h : s0.Keeps s) (port tag status body ep) :
    s0.Keeps (s.hostCompletion port tag status body ep) := by
  delta State.hostCompletion
  repeat' first
    | with_reducible assumption
    | ((fail_if_no_progress (extract_lets +onlyGivenNames x)); refine (fun (hk : s0.Keeps x) => ?_) ?_; clear_value x; rotate_left; dsimp -zeta only [x])
    | with_reducible apply State.noteTlp_keeps
    | with_reducible apply State.unexpected_keeps
    | with_reducible apply State.count_keeps
    | with_reducible apply State.dropReq_keeps
    | with_reducible apply State.pciePump_keeps
    | with_reducible apply State.failWaiting_keeps
    | with_reducible apply State.failOp_keeps
    | with_reducible apply State.cacheAdd_keeps
    | with_reducible apply State.aerUncor_keeps
    | with_reducible apply State.deliverData_keeps
    | split

theorem State.hostTimeout_keeps {s0 s : State} (h : s0.Keeps s) (port tag) :
    s0.Keeps (s.hostTimeout port tag) := by
  delta State.hostTimeout
  repeat' first
    | with_reducible assumption
    | ((fail_if_no_progress (extract_lets +onlyGivenNames x)); refine (fun (hk : s0.Keeps x) => ?_) ?_; clear_value x; rotate_left; dsimp -zeta only [x])
    | with_reducible apply State.putReq_keeps
    | with_reducible apply State.count_keeps
    | with_reducible apply State.recordError_keeps
    | with_reducible apply State.aerUncor_keeps
    | with_reducible apply State.failWaiting_keeps
    | with_reducible apply State.failOp_keeps
    | with_reducible apply State.pciePump_keeps
    | split

theorem State.quarantineEnd_keeps {s0 s : State} (h : s0.Keeps s) (port tag) :
    s0.Keeps (s.quarantineEnd port tag) := by
  delta State.quarantineEnd
  repeat' first
    | with_reducible assumption
    | ((fail_if_no_progress (extract_lets +onlyGivenNames x)); first
        | clear_value x)
    | with_reducible apply State.dropReq_keeps
    | with_reducible apply State.pciePump_keeps
    | (with_reducible refine State.Keeps.of_eq ?_ (by assumption))
    | (with_reducible refine State.Keeps.of_eq3 ?_ (by assumption))
    | split

theorem State.invalidate_keeps {s0 s : State} (h : s0.Keeps s) (port fn a size) :
    s0.Keeps (s.invalidate port fn a size) := by
  delta State.invalidate
  repeat' first
    | with_reducible assumption
    | ((fail_if_no_progress (extract_lets +onlyGivenNames x)); first
        | (refine (fun (hk : s0.Keeps x) => ?_) ?_; clear_value x; rotate_left; dsimp -zeta only [x])
        | clear_value x)
    | with_reducible apply State.count_keeps
    | with_reducible apply State.noteTlp_keeps
    | with_reducible apply State.setPci_keeps
    | with_reducible apply State.sendTlp_keeps

theorem State.stopFn_keeps {s0 s : State} (h : s0.Keeps s) (port fn all) :
    s0.Keeps (s.stopFn port fn all) := by
  delta State.stopFn
  repeat' first
    | with_reducible assumption
    | ((fail_if_no_progress (extract_lets +onlyGivenNames x)); first
        | (refine (fun (hk : s0.Keeps x) => ?_) ?_; clear_value x; rotate_left; dsimp -zeta only [x])
        | clear_value x)
    | with_reducible apply State.failOp_keeps
    | with_reducible apply State.setPci_keeps
    | split
    | (with_reducible refine State.Keeps.foldl ?_ ?_)
    | (with_reducible refine State.Keeps.foldl_pair ?_ ?_)
    | (with_reducible refine State.Keeps.foldl_triple ?_ ?_)
    | intro _ _ _

theorem State.bmeOff_keeps {s0 s : State} (h : s0.Keeps s) (port fn) :
    s0.Keeps (s.bmeOff port fn) := by
  delta State.bmeOff
  repeat' first
    | with_reducible assumption
    | ((fail_if_no_progress (extract_lets +onlyGivenNames x)); refine (fun (hk : s0.Keeps x) => ?_) ?_; clear_value x; rotate_left; dsimp -zeta only [x])
    | with_reducible apply State.setFlag_keeps
    | with_reducible apply State.setCfg_keeps
    | with_reducible apply State.stopFn_keeps
    | with_reducible apply State.event_keeps
    | split

theorem State.bmeOn_keeps {s0 s : State} (h : s0.Keeps s) (port fn) :
    s0.Keeps (s.bmeOn port fn) := by
  delta State.bmeOn
  repeat' first
    | with_reducible assumption
    | ((fail_if_no_progress (extract_lets +onlyGivenNames x)); refine (fun (hk : s0.Keeps x) => ?_) ?_; clear_value x; rotate_left; dsimp -zeta only [x])
    | with_reducible apply State.setFlag_keeps
    | with_reducible apply State.cfgSet_keeps
    | with_reducible apply State.msixFlush_keeps
    | with_reducible apply State.pciePump_keeps
    | with_reducible apply State.event_keeps
    | split

theorem State.clearFn_keeps {s0 s : State} (h : s0.Keeps s) (port fn table config) :
    s0.Keeps (s.clearFn port fn table config) := by
  delta State.clearFn
  repeat' first
    | with_reducible assumption
    | ((fail_if_no_progress (extract_lets +onlyGivenNames x)); first
        | (refine (fun (hk : s0.Keeps x) => ?_) ?_; clear_value x; rotate_left; dsimp -zeta only [x])
        | clear_value x)
    | with_reducible apply State.setPciFn_keeps
    | with_reducible apply State.setPci_keeps

theorem State.nextGen_keeps {s0 s : State} (h : s0.Keeps s) (port fn) :
    s0.Keeps (s.nextGen port fn) := by
  delta State.nextGen
  repeat' first
    | with_reducible assumption
    | ((fail_if_no_progress (extract_lets +onlyGivenNames x)); first
        | (refine (fun (hk : s0.Keeps x) => ?_) ?_; clear_value x; rotate_left; dsimp -zeta only [x])
        | clear_value x)
    | with_reducible apply State.setFld_keeps
    | with_reducible apply State.setPci_keeps
    | with_reducible apply State.count_keeps
    | split

theorem State.dirtySwap_keeps {s0 s : State} (h : s0.Keeps s) (port v) :
    s0.Keeps (s.dirtySwap port v) := by
  delta State.dirtySwap
  repeat' first
    | with_reducible assumption
    | ((fail_if_no_progress (extract_lets +onlyGivenNames x)); first
        | (refine (fun (hk : s0.Keeps x) => ?_) ?_; clear_value x; rotate_left; dsimp -zeta only [x])
        | clear_value x)
    | with_reducible apply State.recordError_keeps
    | with_reducible apply State.setFld_keeps
    | with_reducible apply State.setFlag_keeps
    | split

theorem State.dirtySwapped_keeps {s0 s : State} (h : s0.Keeps s) (port v) :
    s0.Keeps (s.dirtySwapped port v) := by
  delta State.dirtySwapped
  repeat' first
    | with_reducible assumption
    | ((fail_if_no_progress (extract_lets +onlyGivenNames x)); clear_value x)
    | with_reducible apply State.setFlag_keeps
    | split

theorem State.dirtyLogEn_keeps {s0 s : State} (h : s0.Keeps s) (port v en) :
    s0.Keeps (s.dirtyLogEn port v en) := by
  delta State.dirtyLogEn
  repeat' first
    | with_reducible assumption
    | ((fail_if_no_progress (extract_lets +onlyGivenNames x)); first
        | (refine (fun (hk : s0.Keeps x) => ?_) ?_; clear_value x; rotate_left; dsimp -zeta only [x])
        | clear_value x)
    | with_reducible apply State.setVf_keeps
    | with_reducible apply State.setFlag_keeps
    | with_reducible apply State.setFld_keeps
    | with_reducible apply State.dirtyStopped_keeps
    | split

end Sys2Proof.Machine
end

