-- ==== Sys2Proof/Laws/KeepsShutter.lean ====
section
/-! SUPPORT. The operations of Machine/Shutter.lean keep a state well. -/

namespace Sys2Proof.Machine

open Sys2Proof

theorem State.setSht_keeps {s0 s : State} (h : s0.Keeps s) (x) :
    s0.Keeps (s.setSht x) := by
  delta State.setSht
  repeat' first
    | with_reducible assumption
    | fail_if_no_progress (with_reducible apply State.Keeps.upd)

theorem State.setSubq_keeps {s0 s : State} (h : s0.Keeps s) (q l) :
    s0.Keeps (s.setSubq q l) := by
  delta State.setSubq
  repeat' first
    | with_reducible assumption
    | ((fail_if_no_progress (extract_lets +onlyGivenNames x)); clear_value x)
    | with_reducible apply State.setSht_keeps

theorem State.setRelay_keeps {s0 s : State} (h : s0.Keeps s) (n l) :
    s0.Keeps (s.setRelay n l) := by
  delta State.setRelay
  repeat' first
    | with_reducible assumption
    | ((fail_if_no_progress (extract_lets +onlyGivenNames x)); clear_value x)
    | with_reducible apply State.setSht_keeps

theorem State.setBuckets_keeps {s0 s : State} (h : s0.Keeps s) (key c p) :
    s0.Keeps (s.setBuckets key c p) := by
  delta State.setBuckets
  repeat' first
    | with_reducible assumption
    | ((fail_if_no_progress (extract_lets +onlyGivenNames x)); clear_value x)
    | with_reducible apply State.setSht_keeps

theorem State.setTag_keeps {s0 s : State} (h : s0.Keeps s) (key v) :
    s0.Keeps (s.setTag key v) := by
  delta State.setTag
  repeat' first
    | with_reducible assumption
    | ((fail_if_no_progress (extract_lets +onlyGivenNames x)); clear_value x)
    | with_reducible apply State.setSht_keeps

theorem State.setVtime_keeps {s0 s : State} (h : s0.Keeps s) (key v) :
    s0.Keeps (s.setVtime key v) := by
  delta State.setVtime
  repeat' first
    | with_reducible assumption
    | ((fail_if_no_progress (extract_lets +onlyGivenNames x)); clear_value x)
    | with_reducible apply State.setSht_keeps

theorem State.noteEligible_keeps {s0 s : State} (h : s0.Keeps s) (key parent el) :
    s0.Keeps (s.noteEligible key parent el) := by
  delta State.noteEligible
  repeat' first
    | with_reducible assumption
    | ((fail_if_no_progress (extract_lets +onlyGivenNames x)); first
        | (refine (fun (hk : s0.Keeps x) => ?_) ?_; clear_value x; rotate_left; dsimp -zeta only [x])
        | clear_value x)
    | with_reducible apply State.setSht_keeps
    | with_reducible apply State.setTag_keeps
    | split

theorem State.shtUpdate_keeps {s0 s : State} (h : s0.Keeps s) :
    s0.Keeps (s.shtUpdate) := by
  delta State.shtUpdate
  repeat' first
    | with_reducible assumption
    | ((fail_if_no_progress (extract_lets +onlyGivenNames x)); first
        | (refine (fun (hk : s0.Keeps x) => ?_) ?_; clear_value x; rotate_left; dsimp -zeta only [x])
        | clear_value x)
    | with_reducible apply State.noteEligible_keeps
    | (with_reducible refine State.Keeps.foldl ?_ ?_)
    | intro _ _ _

theorem State.admitDrop_keeps {s0 s : State} (h : s0.Keeps s) (q f why) :
    s0.Keeps (s.admitDrop q f why) := by
  delta State.admitDrop
  repeat' first
    | with_reducible assumption
    | ((fail_if_no_progress (extract_lets +onlyGivenNames x)); refine (fun (hk : s0.Keeps x) => ?_) ?_; clear_value x; rotate_left; dsimp -zeta only [x])
    | with_reducible apply State.count_keeps
    | with_reducible apply State.recordError_keeps
    | split

theorem State.enqueue_keeps {s0 s : State} (h : s0.Keeps s) (q f) :
    s0.Keeps (s.enqueue q f) := by
  delta State.enqueue
  repeat' first
    | with_reducible assumption
    | with_reducible apply State.noteLevels_keeps
    | with_reducible apply State.shtUpdate_keeps
    | with_reducible apply State.setSubq_keeps

theorem State.admitSpg_keeps {s0 s : State} (h : s0.Keeps s) (q bs mark) :
    s0.Keeps (s.admitSpg q bs mark).2 := by
  delta State.admitSpg
  repeat' first
    | with_reducible assumption
    | ((fail_if_no_progress (extract_lets +onlyGivenNames x)); first
        | clear_value x)
    | with_reducible apply State.admitDrop_keeps
    | with_reducible apply State.enqueue_keeps
    | (with_reducible refine State.Keeps.of_eq ?_ (by assumption))
    | (with_reducible refine State.Keeps.of_eq3 ?_ (by assumption))
    | split

theorem State.admitHeld_keeps {s0 s : State} (h : s0.Keeps s) (src q egress bs) :
    s0.Keeps (s.admitHeld src q egress bs).2 := by
  delta State.admitHeld
  repeat' first
    | with_reducible assumption
    | ((fail_if_no_progress (extract_lets +onlyGivenNames x)); first
        | (refine (fun (hc1 : ∀ t, s0.Keeps t → s0.Keeps (x t)) => ?_) ?_; clear_value x; rotate_left; intro t ht; dsimp -zeta only [x])
        | clear_value x)
    | with_reducible apply State.count_keeps
    | with_reducible apply State.setSht_keeps
    | with_reducible apply State.enqueue_keeps
    | with_reducible apply State.admitDrop_keeps
    | with_reducible apply hc1
    | split

theorem State.txrDone_keeps {s0 s : State} (h : s0.Keeps s) (r status) :
    s0.Keeps (s.txrDone r status) := by
  delta State.txrDone
  repeat' first
    | with_reducible assumption
    | ((fail_if_no_progress (extract_lets +onlyGivenNames x)); first
        | (refine (fun (hk : s0.Keeps x) => ?_) ?_; clear_value x; rotate_left; dsimp -zeta only [x])
        | (refine (fun (hk : s0.Keeps x.2) => ?_) ?_; clear_value x; rotate_left; dsimp -zeta only [x])
        | clear_value x)
    | with_reducible apply State.devWrite_keeps
    | with_reducible apply State.recordError_keeps
    | with_reducible apply State.setFld_keeps
    | with_reducible apply State.setSht_keeps
    | with_reducible apply State.count_keeps
    | with_reducible apply State.routeFire_keeps
    | with_reducible apply State.notifyBit_keeps
    | split

theorem State.txrTake_keeps {s0 s : State} (h : s0.Keeps s) (r) :
    s0.Keeps (s.txrTake r) := by
  delta State.txrTake
  repeat' first
    | with_reducible assumption
    | ((fail_if_no_progress (extract_lets +onlyGivenNames x)); first
        | (refine (fun (hk : s0.Keeps x.2) => ?_) ?_; clear_value x; rotate_left; dsimp -zeta only [x])
        | clear_value x)
    | with_reducible apply State.devRead_keeps
    | with_reducible apply State.recordError_keeps
    | with_reducible apply State.txrDone_keeps
    | with_reducible apply State.admitHeld_keeps
    | (with_reducible refine State.Keeps.of_eq ?_ (by assumption))
    | split

theorem State.txrWithdraw_keeps {s0 s : State} (h : s0.Keeps s) (r) :
    s0.Keeps (s.txrWithdraw r) := by
  delta State.txrWithdraw
  repeat' first
    | with_reducible assumption
    | with_reducible apply State.setSht_keeps

theorem State.txrEnable_keeps {s0 s : State} (h : s0.Keeps s) (r) :
    s0.Keeps (s.txrEnable r) := by
  delta State.txrEnable
  repeat' first
    | with_reducible assumption
    | ((fail_if_no_progress (extract_lets +onlyGivenNames x)); first
        | (refine (fun (hk : s0.Keeps x) => ?_) ?_; clear_value x; rotate_left; dsimp -zeta only [x])
        | clear_value x)
    | with_reducible apply State.txrWithdraw_keeps
    | with_reducible apply State.setPosted_keeps
    | with_reducible apply State.setFld_keeps
    | with_reducible apply State.setSht_keeps

theorem State.admitFirst_keeps {s0 s : State} (h : s0.Keeps s) (a seen) :
    s0.Keeps (s.admitFirst a seen) := by
  induction a generalizing s seen with
  | nil =>
    rw [State.admitFirst.eq_def]
    try dsimp -zeta only
    repeat' first
      | with_reducible assumption
  | cons a_hd a_tl ih =>
    rw [State.admitFirst.eq_def]
    try dsimp -zeta only
    repeat' first
      | with_reducible assumption
      | ((fail_if_no_progress (extract_lets +onlyGivenNames x)); first
          | (refine (fun (hc1 : ∀ t, s0.Keeps t → s0.Keeps (x t)) => ?_) ?_; clear_value x; rotate_left; intro t ht; dsimp -zeta only [x])
          | (refine (fun (hc2 : ∀ t a, s0.Keeps t → s0.Keeps (x t a)) => ?_) ?_; clear_value x; rotate_left; intro t a ht; dsimp -zeta only [x])
          | clear_value x)
      | with_reducible apply ih
      | with_reducible apply State.setSht_keeps
      | with_reducible apply State.txrDone_keeps
      | with_reducible apply State.enqueue_keeps
      | with_reducible apply State.admitDrop_keeps
      | with_reducible apply hc1
      | with_reducible apply hc2
      | split

theorem State.heldAdmit_keeps {s0 s : State} (h : s0.Keeps s) :
    s0.Keeps (s.heldAdmit) := by
  delta State.heldAdmit
  repeat' first
    | with_reducible assumption
    | with_reducible apply State.admitFirst_keeps
    | split

theorem State.charge_keeps {s0 s : State} (h : s0.Keeps s) (key l) :
    s0.Keeps (s.charge key l) := by
  delta State.charge
  repeat' first
    | with_reducible assumption
    | ((fail_if_no_progress (extract_lets +onlyGivenNames x)); clear_value x)
    | with_reducible apply State.setBuckets_keeps

theorem State.advance_keeps {s0 s : State} (h : s0.Keeps s) (key parent l weight) :
    s0.Keeps (s.advance key parent l weight) := by
  delta State.advance
  repeat' first
    | with_reducible assumption
    | with_reducible apply State.setTag_keeps
    | with_reducible apply State.setVtime_keeps

theorem State.select_keeps {s0 s : State} (h : s0.Keeps s) (p) {f e t} (he : s.select p = some (f, e, t)) :
    s0.Keeps t := by
  have key : ∀ q ∈ s.select p, s0.Keeps q.2.2 := by
    delta State.select
    repeat' first
      | with_reducible assumption
      | ((fail_if_no_progress (extract_lets +onlyGivenNames x)); first
          | (refine (fun (hk : s0.Keeps x) => ?_) ?_; clear_value x; rotate_left; dsimp -zeta only [x])
          | (refine (fun (hc10 : ∀ t f e, s0.Keeps t → ∀ q ∈ x t f e, s0.Keeps q.2.2) => ?_) ?_; clear_value x; rotate_left; intro t f e ht; dsimp -zeta only [x])
          | clear_value x)
      | with_reducible apply State.advance_keeps
      | with_reducible apply State.charge_keeps
      | with_reducible apply State.count_keeps
      | with_reducible apply State.setRelay_keeps
      | with_reducible apply State.setSubq_keeps
      | with_reducible apply hc10
      | split
      | (rintro q hq; cases hq)
  exact key _ he

theorem State.selectPort_keeps {s0 s : State} (h : s0.Keeps s) (p err) :
    s0.Keeps (s.selectPort p err) := by
  delta State.selectPort
  repeat' first
    | with_reducible assumption
    | ((fail_if_no_progress (extract_lets +onlyGivenNames x)); first
        | (refine (fun (hk : s0.Keeps x) => ?_) ?_; clear_value x; rotate_left; dsimp -zeta only [x])
        | clear_value x)
    | with_reducible apply State.shtUpdate_keeps
    | with_reducible refine State.select_keeps ?_ _ (by assumption)
    | with_reducible apply State.bufErr_keeps
    | with_reducible apply State.transmit_keeps
    | with_reducible apply State.setRelay_keeps
    | with_reducible apply State.noteLevels_keeps
    | (with_reducible refine State.Keeps.of_eq ?_ (by assumption))
    | (with_reducible refine State.Keeps.of_eq3 ?_ (by assumption))
    | split

theorem State.refillNode_keeps {s0 s : State} (h : s0.Keeps s) (key k) :
    s0.Keeps (s.refillNode key k) := by
  delta State.refillNode
  repeat' first
    | with_reducible assumption
    | ((fail_if_no_progress (extract_lets +onlyGivenNames x)); first
        | (refine (fun (hk : s0.Keeps x) => ?_) ?_; clear_value x; rotate_left; dsimp -zeta only [x])
        | clear_value x)
    | with_reducible apply State.setSht_keeps
    | with_reducible apply State.setBuckets_keeps

theorem State.refillLevel_keeps {s0 s : State} (h : s0.Keeps s) (level) :
    s0.Keeps (s.refillLevel level) := by
  delta State.refillLevel
  repeat' first
    | with_reducible assumption
    | ((fail_if_no_progress (extract_lets +onlyGivenNames x)); refine (fun (hk : s0.Keeps x) => ?_) ?_; clear_value x; rotate_left; dsimp -zeta only [x])
    | with_reducible apply State.refillNode_keeps
    | with_reducible apply State.shtUpdate_keeps
    | split
    | (with_reducible refine State.Keeps.foldl ?_ ?_)
    | intro _ _ _

theorem State.fillNode_keeps {s0 s : State} (h : s0.Keeps s) (key) :
    s0.Keeps (s.fillNode key) := by
  delta State.fillNode
  repeat' first
    | with_reducible assumption
    | ((fail_if_no_progress (extract_lets +onlyGivenNames x)); clear_value x)
    | with_reducible apply State.setBuckets_keeps

theorem State.shtReset_keeps {s0 s : State} (h : s0.Keeps s) :
    s0.Keeps (s.shtReset) := by
  delta State.shtReset
  repeat' first
    | with_reducible assumption
    | with_reducible apply State.setSht_keeps

end Sys2Proof.Machine
end

