-- ==== Sys2Proof/Laws/KeepsTransit.lean ====
section
/-! SUPPORT. The operations of Machine/Transit.lean keep a state well. -/

namespace Sys2Proof.Machine

open Sys2Proof

theorem State.setTrn_keeps {s0 s : State} (h : s0.Keeps s) (t) :
    s0.Keeps (s.setTrn t) := by
  delta State.setTrn
  repeat' first
    | with_reducible assumption
    | fail_if_no_progress (with_reducible apply State.Keeps.upd)

theorem State.setConn_keeps {s0 s : State} (h : s0.Keeps s) (c x) :
    s0.Keeps (s.setConn c x) := by
  delta State.setConn
  repeat' first
    | with_reducible assumption
    | ((fail_if_no_progress (extract_lets +onlyGivenNames x)); clear_value x)
    | with_reducible apply State.setTrn_keeps

theorem State.setPstate_keeps {s0 s : State} (h : s0.Keeps s) (c p) :
    s0.Keeps (s.setPstate c p) := by
  delta State.setPstate
  repeat' first
    | with_reducible assumption
    | with_reducible apply State.setFld_keeps

theorem State.trnSend_keeps {s0 s : State} (h : s0.Keeps s) (c path k) :
    s0.Keeps (s.trnSend c path k) := by
  delta State.trnSend
  repeat' first
    | with_reducible assumption
    | ((fail_if_no_progress (extract_lets +onlyGivenNames x)); first
        | (refine (fun (hk : s0.Keeps x) => ?_) ?_; clear_value x; rotate_left; dsimp -zeta only [x])
        | clear_value x)
    | with_reducible apply State.count_keeps
    | with_reducible apply State.admitHeld_keeps
    | split

theorem State.noteGranted_keeps {s0 s : State} (h : s0.Keeps s) (c) :
    s0.Keeps (s.noteGranted c) := by
  delta State.noteGranted
  repeat' first
    | with_reducible assumption
    | ((fail_if_no_progress (extract_lets +onlyGivenNames x)); clear_value x)
    | fail_if_no_progress (with_reducible apply State.Keeps.upd)

theorem State.grantPool_keeps {s0 s : State} (h : s0.Keeps s) (c coll) :
    s0.Keeps (s.grantPool c coll) := by
  delta State.grantPool
  repeat' first
    | with_reducible assumption
    | ((fail_if_no_progress (extract_lets +onlyGivenNames x)); first
        | (refine (fun (hk : s0.Keeps x) => ?_) ?_; clear_value x; rotate_left; dsimp -zeta only [x])
        | clear_value x)
    | with_reducible apply State.setConn_keeps
    | with_reducible apply State.setTrn_keeps
    | with_reducible apply State.noteGranted_keeps
    | split

theorem State.grantAll_keeps {s0 s : State} (h : s0.Keeps s) :
    s0.Keeps (s.grantAll) := by
  delta State.grantAll
  repeat' first
    | with_reducible assumption
    | ((fail_if_no_progress (extract_lets +onlyGivenNames x)); clear_value x)
    | with_reducible apply State.grantPool_keeps
    | (with_reducible refine State.Keeps.foldl ?_ ?_)
    | intro _ _ _

theorem State.sendAck_keeps {s0 s : State} (h : s0.Keeps s) (c p) :
    s0.Keeps (s.sendAck c p) := by
  delta State.sendAck
  repeat' first
    | with_reducible assumption
    | ((fail_if_no_progress (extract_lets +onlyGivenNames x)); first
        | (refine (fun (hk : s0.Keeps x) => ?_) ?_; clear_value x; rotate_left; dsimp -zeta only [x])
        | clear_value x)
    | with_reducible apply State.setConn_keeps
    | with_reducible apply State.trnSend_keeps

theorem State.creditAck_keeps {s0 s : State} (h : s0.Keeps s) (c) :
    s0.Keeps (s.creditAck c) := by
  delta State.creditAck
  repeat' first
    | with_reducible assumption
    | ((fail_if_no_progress (extract_lets +onlyGivenNames x)); clear_value x)
    | with_reducible apply State.sendAck_keeps
    | split

theorem State.creditAckAll_keeps {s0 s : State} (h : s0.Keeps s) :
    s0.Keeps (s.creditAckAll) := by
  delta State.creditAckAll
  repeat' first
    | with_reducible assumption
    | with_reducible apply State.creditAck_keeps
    | (with_reducible refine State.Keeps.foldl ?_ ?_)
    | intro _ _ _

theorem State.sendNak_keeps {s0 s : State} (h : s0.Keeps s) (c p code psn msn) :
    s0.Keeps (s.sendNak c p code psn msn) := by
  delta State.sendNak
  repeat' first
    | with_reducible assumption
    | with_reducible apply State.trnSend_keeps
    | with_reducible apply State.count_keeps

theorem State.cqWait_keeps {s0 s : State} (h : s0.Keeps s) (cq e) :
    s0.Keeps (s.cqWait cq e) := by
  delta State.cqWait
  repeat' first
    | with_reducible assumption
    | ((fail_if_no_progress (extract_lets +onlyGivenNames x)); first
        | clear_value x)
    | with_reducible apply State.setTrn_keeps

theorem State.trnVfPast_keeps {s0 s : State} (h : s0.Keeps s) :
    s0.Keeps (s.trnVfPast) := by
  delta State.trnVfPast
  repeat' first
    | with_reducible assumption
    | ((fail_if_no_progress (extract_lets +onlyGivenNames x)); first
        | clear_value x)
    | with_reducible apply State.setTrn_keeps
    | with_reducible apply State.count_keeps

theorem State.opDone_keeps {s0 s : State} (h : s0.Keeps s) (c origin msn status old tag) :
    s0.Keeps (s.opDone c origin msn status old tag) := by
  delta State.opDone
  repeat' first
    | with_reducible assumption
    | ((fail_if_no_progress (extract_lets +onlyGivenNames x)); clear_value x)
    | with_reducible apply State.count_keeps
    | with_reducible apply State.cqWait_keeps
    | with_reducible apply State.setTrn_keeps
    | split

theorem State.cqPost_keeps {s0 s : State} (h : s0.Keeps s) (cq) :
    s0.Keeps (s.cqPost cq).2 := by
  delta State.cqPost
  repeat' first
    | with_reducible assumption
    | ((fail_if_no_progress (extract_lets +onlyGivenNames x)); first
        | (refine (fun (hk : s0.Keeps x) => ?_) ?_; clear_value x; rotate_left; dsimp -zeta only [x])
        | clear_value x)
    | with_reducible apply State.store_keeps
    | with_reducible apply State.setFld_keeps
    | with_reducible apply State.setTrn_keeps
    | with_reducible apply State.noteLevels_keeps
    | with_reducible apply State.routeFire_keeps
    | with_reducible apply State.notifyBit_keeps
    | (with_reducible refine State.Keeps.of_eq ?_ (by assumption))
    | split

theorem State.cqEnable_keeps {s0 s : State} (h : s0.Keeps s) (cq) :
    s0.Keeps (s.cqEnable cq) := by
  delta State.cqEnable
  repeat' first
    | with_reducible assumption
    | ((fail_if_no_progress (extract_lets +onlyGivenNames x)); first
        | (refine (fun (hk : s0.Keeps x) => ?_) ?_; clear_value x; rotate_left; dsimp -zeta only [x])
        | clear_value x)
    | with_reducible apply State.setFld_keeps
    | with_reducible apply State.setTrn_keeps

theorem State.slowItem_keeps {s0 s : State} (h : s0.Keeps s) (c event cause node conn rkey addr) :
    s0.Keeps (s.slowItem c event cause node conn rkey addr) := by
  delta State.slowItem
  repeat' first
    | with_reducible assumption
    | with_reducible apply State.event_keeps
    | with_reducible apply State.postItem_keeps
    | split

theorem State.closeOps_keeps {s0 s : State} (h : s0.Keeps s) (c status) :
    s0.Keeps (s.closeOps c status) := by
  delta State.closeOps
  repeat' first
    | with_reducible assumption
    | ((fail_if_no_progress (extract_lets +onlyGivenNames x)); clear_value x)
    | with_reducible apply State.opDone_keeps
    | with_reducible apply State.setConn_keeps
    | (with_reducible refine State.Keeps.foldl ?_ ?_)
    | intro _ _ _

theorem State.freeConn_keeps {s0 s : State} (h : s0.Keeps s) (c) :
    s0.Keeps (s.freeConn c) := by
  delta State.freeConn
  repeat' first
    | with_reducible assumption
    | ((fail_if_no_progress (extract_lets +onlyGivenNames x)); first
        | (refine (fun (hk : s0.Keeps x) => ?_) ?_; clear_value x; rotate_left; dsimp -zeta only [x])
        | clear_value x)
    | with_reducible apply State.setTrn_keeps
    | with_reducible apply State.setConn_keeps
    | with_reducible apply State.noteGranted_keeps

theorem State.connFail_keeps {s0 s : State} (h : s0.Keeps s) (c cause) :
    s0.Keeps (s.connFail c cause) := by
  delta State.connFail
  repeat' first
    | with_reducible assumption
    | ((fail_if_no_progress (extract_lets +onlyGivenNames x)); first
        | (refine (fun (hk : s0.Keeps x) => ?_) ?_; clear_value x; rotate_left; dsimp -zeta only [x])
        | clear_value x)
    | with_reducible apply State.setFld_keeps
    | with_reducible apply State.setPstate_keeps
    | with_reducible apply State.closeOps_keeps
    | with_reducible apply State.freeConn_keeps
    | with_reducible apply State.slowItem_keeps
    | with_reducible apply State.event_keeps
    | with_reducible apply State.grantAll_keeps
    | with_reducible apply State.colConnLost_keeps
    | split

theorem State.sendConnect_keeps {s0 s : State} (h : s0.Keeps s) (c) :
    s0.Keeps (s.sendConnect c) := by
  delta State.sendConnect
  repeat' first
    | with_reducible assumption
    | ((fail_if_no_progress (extract_lets +onlyGivenNames x)); clear_value x)
    | with_reducible apply State.trnSend_keeps

theorem State.connStart_keeps {s0 s : State} (h : s0.Keeps s) (c) :
    s0.Keeps (s.connStart c) := by
  delta State.connStart
  repeat' first
    | with_reducible assumption
    | ((fail_if_no_progress (extract_lets +onlyGivenNames x)); first
        | (refine (fun (hk : s0.Keeps x) => ?_) ?_; clear_value x; rotate_left; dsimp -zeta only [x])
        | clear_value x)
    | with_reducible apply State.setFld_keeps
    | with_reducible apply State.load_keeps
    | with_reducible apply State.setConn_keeps
    | with_reducible apply State.connFail_keeps
    | with_reducible apply State.setPstate_keeps
    | with_reducible apply State.sendConnect_keeps
    | with_reducible apply State.grantAll_keeps
    | (with_reducible refine State.Keeps.of_eq ?_ (by assumption))
    | split

theorem State.connIdle_keeps {s0 s : State} (h : s0.Keeps s) (c) :
    s0.Keeps (s.connIdle c) := by
  delta State.connIdle
  repeat' first
    | with_reducible assumption
    | ((fail_if_no_progress (extract_lets +onlyGivenNames x)); refine (fun (hk : s0.Keeps x) => ?_) ?_; clear_value x; rotate_left; dsimp -zeta only [x])
    | with_reducible apply State.freeConn_keeps
    | with_reducible apply State.closeOps_keeps
    | with_reducible apply State.setConn_keeps
    | with_reducible apply State.setFld_keeps
    | with_reducible apply State.grantAll_keeps
    | with_reducible apply State.event_keeps
    | with_reducible apply State.setPstate_keeps
    | with_reducible apply State.connStart_keeps
    | split

theorem State.connLost_keeps {s0 s : State} (h : s0.Keeps s) (c) :
    s0.Keeps (s.connLost c) := by
  delta State.connLost
  repeat' first
    | with_reducible assumption
    | with_reducible apply State.connFail_keeps
    | with_reducible apply State.connIdle_keeps
    | split

theorem State.connDrained_keeps {s0 s : State} (h : s0.Keeps s) (c) :
    s0.Keeps (s.connDrained c) := by
  delta State.connDrained
  repeat' first
    | with_reducible assumption
    | ((fail_if_no_progress (extract_lets +onlyGivenNames x)); clear_value x)
    | with_reducible apply State.trnSend_keeps
    | with_reducible apply State.setConn_keeps
    | split

theorem State.connQuiesce_keeps {s0 s : State} (h : s0.Keeps s) (c) :
    s0.Keeps (s.connQuiesce c) := by
  delta State.connQuiesce
  repeat' first
    | with_reducible assumption
    | ((fail_if_no_progress (extract_lets +onlyGivenNames x)); clear_value x)
    | with_reducible apply State.connDrained_keeps
    | with_reducible apply State.colConnLost_keeps
    | with_reducible apply State.setConn_keeps
    | with_reducible apply State.setPstate_keeps
    | with_reducible apply State.connIdle_keeps
    | split

theorem State.connWriteEn_keeps {s0 s : State} (h : s0.Keeps s) (c en) :
    s0.Keeps (s.connWriteEn c en) := by
  delta State.connWriteEn
  repeat' first
    | with_reducible assumption
    | ((fail_if_no_progress (extract_lets +onlyGivenNames x)); refine (fun (hk : s0.Keeps x) => ?_) ?_; clear_value x; rotate_left; dsimp -zeta only [x])
    | with_reducible apply State.setFlag_keeps
    | with_reducible apply State.connStart_keeps
    | with_reducible apply State.connQuiesce_keeps
    | split

theorem State.sendOut_keeps {s0 s : State} (h : s0.Keeps s) (c a stuck) :
    s0.Keeps (s.sendOut c a stuck) := by
  induction a generalizing s c stuck with
  | nil =>
    rw [State.sendOut.eq_def]
    try dsimp -zeta only
    repeat' first
      | with_reducible assumption
  | cons a_hd a_tl ih =>
    rw [State.sendOut.eq_def]
    try dsimp -zeta only
    repeat' first
      | with_reducible assumption
      | ((fail_if_no_progress (extract_lets +onlyGivenNames x)); clear_value x)
      | with_reducible apply ih
      | with_reducible apply State.count_keeps
      | with_reducible apply State.trnSend_keeps
      | with_reducible apply State.setConn_keeps
      | split

theorem State.connPump_keeps {s0 s : State} (h : s0.Keeps s) (c) :
    s0.Keeps (s.connPump c) := by
  delta State.connPump
  repeat' first
    | with_reducible assumption
    | with_reducible apply State.sendOut_keeps
    | split

theorem State.queueOut_keeps {s0 s : State} (h : s0.Keeps s) (c ks) :
    s0.Keeps (s.queueOut c ks) := by
  delta State.queueOut
  repeat' first
    | with_reducible assumption
    | ((fail_if_no_progress (extract_lets +onlyGivenNames x)); clear_value x)
    | with_reducible apply State.connPump_keeps
    | with_reducible apply State.setConn_keeps

theorem State.resend_keeps {s0 s : State} (h : s0.Keeps s) (c p sel) :
    s0.Keeps (s.resend c p sel) := by
  delta State.resend
  repeat' first
    | with_reducible assumption
    | ((fail_if_no_progress (extract_lets +onlyGivenNames x)); clear_value x)
    | with_reducible apply State.trnSend_keeps
    | with_reducible apply State.count_keeps
    | with_reducible apply State.setConn_keeps
    | (with_reducible refine State.Keeps.foldl ?_ ?_)
    | intro _ _ _

theorem State.goBack_keeps {s0 s : State} (h : s0.Keeps s) (c p psn) :
    s0.Keeps (s.goBack c p psn) := by
  delta State.goBack
  repeat' first
    | with_reducible assumption
    | ((fail_if_no_progress (extract_lets +onlyGivenNames x)); clear_value x)
    | with_reducible apply State.connLost_keeps
    | with_reducible apply State.resend_keeps
    | with_reducible apply State.setConn_keeps
    | split

theorem State.regionCheck_keeps {s0 s : State} (h : s0.Keeps s) (key pd right x n natural) :
    s0.Keeps (s.regionCheck key pd right x n natural).2 := by
  delta State.regionCheck
  repeat' first
    | with_reducible assumption
    | ((fail_if_no_progress (extract_lets +onlyGivenNames x)); clear_value x)
    | with_reducible apply State.load_keeps
    | (with_reducible refine State.Keeps.of_eq ?_ (by assumption))
    | split

theorem State.regionReply_keeps {s0 s : State} (h : s0.Keeps s) (code) :
    s0.Keeps (s.regionReply code) := by
  delta State.regionReply
  repeat' first
    | with_reducible assumption
    | with_reducible apply State.setFld_keeps

theorem State.setRegion0_keeps {s0 s : State} (h : s0.Keeps s) (i w) :
    s0.Keeps (s.setRegion0 i w) := by
  delta State.setRegion0
  repeat' first
    | with_reducible assumption
    | ((fail_if_no_progress (extract_lets +onlyGivenNames x)); refine (fun (hk : s0.Keeps x.2) => ?_) ?_; clear_value x; rotate_left; dsimp -zeta only [x])
    | with_reducible apply State.devWrite_keeps
    | with_reducible apply State.recordError_keeps
    | split

theorem State.regionCommand_keeps {s0 s : State} (h : s0.Keeps s) (cmd i) :
    s0.Keeps (s.regionCommand cmd i) := by
  delta State.regionCommand
  repeat' first
    | with_reducible assumption
    | ((fail_if_no_progress (extract_lets +onlyGivenNames x)); first
        | (refine (fun (hk : s0.Keeps x) => ?_) ?_; clear_value x; rotate_left; dsimp -zeta only [x])
        | clear_value x)
    | with_reducible apply State.regionReply_keeps
    | with_reducible apply State.devRead_keeps
    | with_reducible apply State.setRegion0_keeps
    | with_reducible apply State.count_keeps
    | with_reducible apply State.setTrn_keeps
    | (with_reducible refine State.Keeps.of_eq ?_ (by assumption))
    | split

theorem State.revokeDone_keeps {s0 s : State} (h : s0.Keeps s) (i) :
    s0.Keeps (s.revokeDone i) := by
  delta State.revokeDone
  repeat' first
    | with_reducible assumption
    | ((fail_if_no_progress (extract_lets +onlyGivenNames x)); first
        | (refine (fun (hk : s0.Keeps x) => ?_) ?_; clear_value x; rotate_left; dsimp -zeta only [x])
        | (refine (fun (hk : s0.Keeps x.2) => ?_) ?_; clear_value x; rotate_left; dsimp -zeta only [x])
        | clear_value x)
    | with_reducible apply State.devRead_keeps
    | with_reducible apply State.setRegion0_keeps
    | with_reducible apply State.event_keeps
    | with_reducible apply State.setTrn_keeps
    | split

theorem State.readMessage_keeps {s0 s : State} (h : s0.Keeps s) (pmtu a n fuel) :
    s0.Keeps (s.readMessage pmtu a n fuel).2 := by
  induction fuel generalizing s pmtu a n with
  | zero =>
    rw [State.readMessage.eq_def]
    try dsimp -zeta only
    repeat' first
      | with_reducible assumption
  | succ fuel ih =>
    rw [State.readMessage.eq_def]
    try dsimp -zeta only
    repeat' first
      | with_reducible assumption
      | ((fail_if_no_progress (extract_lets +onlyGivenNames x)); refine (fun (hk : s0.Keeps x.2) => ?_) ?_; clear_value x; rotate_left; dsimp -zeta only [x])
      | with_reducible apply ih
      | with_reducible apply State.load_keeps
      | (with_reducible refine State.Keeps.of_eq ?_ (by assumption))
      | split

theorem State.takeMsn_keeps {s0 s : State} (h : s0.Keeps s) (c) :
    s0.Keeps (s.takeMsn c).2 := by
  delta State.takeMsn
  repeat' first
    | with_reducible assumption
    | ((fail_if_no_progress (extract_lets +onlyGivenNames x)); clear_value x)
    | with_reducible apply State.setConn_keeps

theorem State.addOp_keeps {s0 s : State} (h : s0.Keeps s) (c o) :
    s0.Keeps (s.addOp c o) := by
  delta State.addOp
  repeat' first
    | with_reducible assumption
    | ((fail_if_no_progress (extract_lets +onlyGivenNames x)); clear_value x)
    | with_reducible apply State.setConn_keeps

theorem State.startWrite_keeps {s0 s : State} (h : s0.Keeps s) (c origin rkey addr imm notify packets) :
    s0.Keeps (s.startWrite c origin rkey addr imm notify packets) := by
  delta State.startWrite
  repeat' first
    | with_reducible assumption
    | ((fail_if_no_progress (extract_lets +onlyGivenNames x)); first
        | (refine (fun (hk : s0.Keeps x) => ?_) ?_; clear_value x; rotate_left; dsimp -zeta only [x])
        | clear_value x)
    | with_reducible apply State.takeMsn_keeps
    | with_reducible apply State.addOp_keeps
    | with_reducible apply State.setConn_keeps
    | with_reducible apply State.queueOut_keeps
    | (with_reducible refine State.Keeps.of_eq ?_ (by assumption))
    | (with_reducible refine State.Keeps.of_eq3 ?_ (by assumption))
    | split

theorem State.nextNotify_keeps {s0 s : State} (h : s0.Keeps s) (c) :
    s0.Keeps (s.nextNotify c) := by
  delta State.nextNotify
  repeat' first
    | with_reducible assumption
    | with_reducible apply State.setConn_keeps
    | with_reducible apply State.queueOut_keeps
    | (with_reducible refine State.Keeps.of_eq ?_ (by assumption))
    | (with_reducible refine State.Keeps.of_eq3 ?_ (by assumption))
    | split

theorem State.startRead_keeps {s0 s : State} (h : s0.Keeps s) (c origin rkey addr len dst lkey pd) :
    s0.Keeps (s.startRead c origin rkey addr len dst lkey pd) := by
  delta State.startRead
  repeat' first
    | with_reducible assumption
    | with_reducible apply State.takeMsn_keeps
    | with_reducible apply State.addOp_keeps
    | with_reducible apply State.queueOut_keeps

theorem State.startAtomic_keeps {s0 s : State} (h : s0.Keeps s) (c origin ext) :
    s0.Keeps (s.startAtomic c origin ext) := by
  delta State.startAtomic
  repeat' first
    | with_reducible assumption
    | with_reducible apply State.takeMsn_keeps
    | with_reducible apply State.addOp_keeps
    | with_reducible apply State.queueOut_keeps

theorem State.opCheck_keeps {s0 s : State} (h : s0.Keeps s) (c o old) :
    s0.Keeps (s.opCheck c o old) := by
  delta State.opCheck
  repeat' first
    | with_reducible assumption
    | ((fail_if_no_progress (extract_lets +onlyGivenNames x)); first
        | (refine (fun (hk : s0.Keeps x) => ?_) ?_; clear_value x; rotate_left; dsimp -zeta only [x])
        | clear_value x)
    | with_reducible apply State.nextNotify_keeps
    | with_reducible apply State.setConn_keeps
    | with_reducible apply State.connDrained_keeps
    | with_reducible apply State.opDone_keeps
    | split

theorem State.ackOne_keeps {s0 s : State} (h : s0.Keeps s) (c k nak) :
    s0.Keeps (s.ackOne c k nak) := by
  delta State.ackOne
  repeat' first
    | with_reducible assumption
    | ((fail_if_no_progress (extract_lets +onlyGivenNames x)); clear_value x)
    | with_reducible apply State.opCheck_keeps
    | split

theorem State.trnProtocol_keeps {s0 s : State} (h : s0.Keeps s) (k order) :
    s0.Keeps (s.trnProtocol k order) := by
  delta State.trnProtocol
  repeat' first
    | with_reducible assumption
    | with_reducible apply State.count_keeps
    | with_reducible apply State.recordError_keeps

theorem State.trnDiscard_keeps {s0 s : State} (h : s0.Keeps s) (order) :
    s0.Keeps (s.trnDiscard order) := by
  delta State.trnDiscard
  repeat' first
    | with_reducible assumption
    | with_reducible apply State.count_keeps

theorem State.answerDisconnect_keeps {s0 s : State} (h : s0.Keeps s) (c) :
    s0.Keeps (s.answerDisconnect c) := by
  delta State.answerDisconnect
  repeat' first
    | with_reducible assumption
    | ((fail_if_no_progress (extract_lets +onlyGivenNames x)); clear_value x)
    | with_reducible apply State.trnSend_keeps
    | with_reducible apply State.setConn_keeps
    | split

theorem State.acceptPkt_keeps {s0 s : State} (h : s0.Keeps s) (c k) :
    s0.Keeps (s.acceptPkt c k) := by
  delta State.acceptPkt
  repeat' first
    | with_reducible assumption
    | ((fail_if_no_progress (extract_lets +onlyGivenNames x)); first
        | (refine (fun (hk : s0.Keeps x) => ?_) ?_; clear_value x; rotate_left; dsimp -zeta only [x])
        | clear_value x)
    | with_reducible apply State.setConn_keeps
    | with_reducible apply State.noteGranted_keeps
    | split

theorem State.refuse_keeps {s0 s : State} (h : s0.Keeps s) (c k code rkey addr) :
    s0.Keeps (s.refuse c k code rkey addr) := by
  delta State.refuse
  repeat' first
    | with_reducible assumption
    | ((fail_if_no_progress (extract_lets +onlyGivenNames x)); first
        | (refine (fun (hk : s0.Keeps x) => ?_) ?_; clear_value x; rotate_left; dsimp -zeta only [x])
        | clear_value x)
    | with_reducible apply State.sendNak_keeps
    | with_reducible apply State.slowItem_keeps
    | with_reducible apply State.setConn_keeps
    | split

theorem State.noteNotify_keeps {s0 s : State} (h : s0.Keeps s) (c k total refused) :
    s0.Keeps (s.noteNotify c k total refused) := by
  delta State.noteNotify
  repeat' first
    | with_reducible assumption
    | ((fail_if_no_progress (extract_lets +onlyGivenNames x)); first
        | (refine (fun (hk : s0.Keeps x) => ?_) ?_; clear_value x; rotate_left; dsimp -zeta only [x])
        | clear_value x)
    | with_reducible apply State.setTrn_keeps
    | with_reducible apply State.setConn_keeps
    | with_reducible apply State.cqWait_keeps
    | split

theorem State.takeWrite_keeps {s0 s : State} (h : s0.Keeps s) (c k) :
    s0.Keeps (s.takeWrite c k) := by
  delta State.takeWrite
  repeat' first
    | with_reducible assumption
    | ((fail_if_no_progress (extract_lets +onlyGivenNames x)); first
        | (refine (fun (hk : s0.Keeps x) => ?_) ?_; clear_value x; rotate_left; dsimp -zeta only [x])
        | clear_value x)
    | with_reducible apply State.regionCheck_keeps
    | with_reducible apply State.noteNotify_keeps
    | with_reducible apply State.refuse_keeps
    | with_reducible apply State.writeMem_keeps
    | (with_reducible refine State.Keeps.of_eq ?_ (by assumption))
    | split

theorem State.takeReadReq_keeps {s0 s : State} (h : s0.Keeps s) (c k) :
    s0.Keeps (s.takeReadReq c k) := by
  delta State.takeReadReq
  repeat' first
    | with_reducible assumption
    | ((fail_if_no_progress (extract_lets +onlyGivenNames x)); first
        | (refine (fun (hk : s0.Keeps x.2) => ?_) ?_; clear_value x; rotate_left; dsimp -zeta only [x])
        | clear_value x)
    | with_reducible apply State.regionCheck_keeps
    | with_reducible apply State.refuse_keeps
    | with_reducible apply State.readMessage_keeps
    | with_reducible apply State.queueOut_keeps
    | (with_reducible refine State.Keeps.of_eq ?_ (by assumption))
    | split

theorem State.ephPlace_keeps {s0 s : State} (h : s0.Keeps s) (off bs p) :
    s0.Keeps (s.ephPlace off bs p) := by
  delta State.ephPlace
  repeat' first
    | with_reducible assumption
    | ((fail_if_no_progress (extract_lets +onlyGivenNames x)); clear_value x)
    | fail_if_no_progress (with_reducible apply State.Keeps.upd)

theorem State.placeLocal_keeps {s0 s : State} (h : s0.Keeps s) (o off bs p) :
    s0.Keeps (s.placeLocal o off bs p).2 := by
  delta State.placeLocal
  repeat' first
    | with_reducible assumption
    | with_reducible apply State.regionCheck_keeps
    | with_reducible apply State.writeMem_keeps
    | with_reducible apply State.ephPlace_keeps
    | with_reducible apply State.devWrite_keeps
    | (with_reducible refine State.Keeps.of_eq ?_ (by assumption))
    | split

theorem State.takeReadResp_keeps {s0 s : State} (h : s0.Keeps s) (c k) :
    s0.Keeps (s.takeReadResp c k) := by
  delta State.takeReadResp
  repeat' first
    | with_reducible assumption
    | ((fail_if_no_progress (extract_lets +onlyGivenNames x)); first
        | (refine (fun (hk : s0.Keeps x.2) => ?_) ?_; clear_value x; rotate_left; dsimp -zeta only [x])
        | clear_value x)
    | with_reducible apply State.placeLocal_keeps
    | with_reducible apply State.opCheck_keeps
    | split

theorem State.takeAtomic_keeps {s0 s : State} (h : s0.Keeps s) (c k) :
    s0.Keeps (s.takeAtomic c k) := by
  delta State.takeAtomic
  repeat' first
    | with_reducible assumption
    | ((fail_if_no_progress (extract_lets +onlyGivenNames x)); first
        | (refine (fun (hk : s0.Keeps x) => ?_) ?_; clear_value x; rotate_left; dsimp -zeta only [x])
        | clear_value x)
    | with_reducible apply State.regionCheck_keeps
    | with_reducible apply State.refuse_keeps
    | with_reducible apply State.load_keeps
    | with_reducible apply State.writeMem_keeps
    | with_reducible apply State.queueOut_keeps
    | (with_reducible refine State.Keeps.of_eq ?_ (by assumption))
    | split

theorem State.takeAtomicResp_keeps {s0 s : State} (h : s0.Keeps s) (c k) :
    s0.Keeps (s.takeAtomicResp c k) := by
  delta State.takeAtomicResp
  repeat' first
    | with_reducible assumption
    | with_reducible apply State.opCheck_keeps
    | split

theorem State.takeCollective_keeps {s0 s : State} (h : s0.Keeps s) (c k) :
    s0.Keeps (s.takeCollective c k) := by
  delta State.takeCollective
  repeat' first
    | with_reducible assumption
    | ((fail_if_no_progress (extract_lets +onlyGivenNames x)); clear_value x)
    | with_reducible apply State.regionCheck_keeps
    | with_reducible apply State.refuse_keeps
    | with_reducible apply State.colSettle_keeps
    | with_reducible apply State.colTransitRun_keeps
    | (with_reducible refine State.Keeps.of_eq ?_ (by assumption))
    | split

theorem State.ackDue_keeps {s0 s : State} (h : s0.Keeps s) (c k) :
    s0.Keeps (s.ackDue c k) := by
  delta State.ackDue
  repeat' first
    | with_reducible assumption
    | with_reducible apply State.sendAck_keeps
    | split

theorem State.takeData_keeps {s0 s : State} (h : s0.Keeps s) (c k) :
    s0.Keeps (s.takeData c k) := by
  delta State.takeData
  repeat' first
    | with_reducible assumption
    | ((fail_if_no_progress (extract_lets +onlyGivenNames x)); first
        | (refine (fun (hk : s0.Keeps x) => ?_) ?_; clear_value x; rotate_left; dsimp -zeta only [x])
        | clear_value x)
    | with_reducible apply State.bufErr_keeps
    | with_reducible apply State.sendAck_keeps
    | with_reducible apply State.count_keeps
    | with_reducible apply State.trnDiscard_keeps
    | with_reducible apply State.sendNak_keeps
    | with_reducible apply State.setConn_keeps
    | with_reducible apply State.trnProtocol_keeps
    | with_reducible apply State.acceptPkt_keeps
    | with_reducible apply State.takeWrite_keeps
    | with_reducible apply State.takeReadReq_keeps
    | with_reducible apply State.takeReadResp_keeps
    | with_reducible apply State.takeAtomic_keeps
    | with_reducible apply State.takeAtomicResp_keeps
    | with_reducible apply State.takeCollective_keeps
    | with_reducible apply State.creditAckAll_keeps
    | with_reducible apply State.ackDue_keeps
    | with_reducible apply State.grantAll_keeps
    | split

theorem State.takeAck_keeps {s0 s : State} (h : s0.Keeps s) (c k) :
    s0.Keeps (s.takeAck c k) := by
  delta State.takeAck
  repeat' first
    | with_reducible assumption
    | ((fail_if_no_progress (extract_lets +onlyGivenNames x)); first
        | (refine (fun (hk : s0.Keeps x) => ?_) ?_; clear_value x; rotate_left; dsimp -zeta only [x])
        | clear_value x)
    | with_reducible apply State.noteGranted_keeps
    | with_reducible apply State.setConn_keeps
    | with_reducible apply State.ackOne_keeps
    | with_reducible apply State.creditAckAll_keeps
    | with_reducible apply State.grantAll_keeps
    | with_reducible apply State.connPump_keeps
    | (with_reducible refine State.Keeps.foldl ?_ ?_)
    | intro _ _ _

theorem State.takeNak_keeps {s0 s : State} (h : s0.Keeps s) (c k) :
    s0.Keeps (s.takeNak c k) := by
  delta State.takeNak
  repeat' first
    | with_reducible assumption
    | ((fail_if_no_progress (extract_lets +onlyGivenNames x)); first
        | (refine (fun (hk : s0.Keeps x) => ?_) ?_; clear_value x; rotate_left; dsimp -zeta only [x])
        | clear_value x)
    | with_reducible apply State.count_keeps
    | with_reducible apply State.goBack_keeps
    | with_reducible apply State.setConn_keeps
    | with_reducible apply State.connPump_keeps
    | with_reducible apply State.ackOne_keeps
    | split

theorem State.enterConnected_keeps {s0 s : State} (h : s0.Keeps s) (c k) :
    s0.Keeps (s.enterConnected c k) := by
  delta State.enterConnected
  repeat' first
    | with_reducible assumption
    | ((fail_if_no_progress (extract_lets +onlyGivenNames x)); clear_value x)
    | with_reducible apply State.event_keeps
    | with_reducible apply State.setPstate_keeps
    | with_reducible apply State.setConn_keeps
    | split

theorem State.takeConnect_keeps {s0 s : State} (h : s0.Keeps s) (c k) :
    s0.Keeps (s.takeConnect c k) := by
  delta State.takeConnect
  repeat' first
    | with_reducible assumption
    | ((fail_if_no_progress (extract_lets +onlyGivenNames x)); first
        | (refine (fun (hk : s0.Keeps x) => ?_) ?_; clear_value x; rotate_left; dsimp -zeta only [x])
        | clear_value x)
    | with_reducible apply State.connFail_keeps
    | with_reducible apply State.setFld_keeps
    | with_reducible apply State.setConn_keeps
    | with_reducible apply State.trnSend_keeps
    | with_reducible apply State.enterConnected_keeps
    | split

theorem State.takeConnectReply_keeps {s0 s : State} (h : s0.Keeps s) (c k) :
    s0.Keeps (s.takeConnectReply c k) := by
  delta State.takeConnectReply
  repeat' first
    | with_reducible assumption
    | ((fail_if_no_progress (extract_lets +onlyGivenNames x)); first
        | (refine (fun (hk : s0.Keeps x) => ?_) ?_; clear_value x; rotate_left; dsimp -zeta only [x])
        | clear_value x)
    | with_reducible apply State.setFld_keeps
    | with_reducible apply State.setConn_keeps
    | with_reducible apply State.connFail_keeps
    | with_reducible apply State.enterConnected_keeps
    | split

theorem State.takeDisconnect_keeps {s0 s : State} (h : s0.Keeps s) (c) :
    s0.Keeps (s.takeDisconnect c) := by
  delta State.takeDisconnect
  repeat' first
    | with_reducible assumption
    | ((fail_if_no_progress (extract_lets +onlyGivenNames x)); clear_value x)
    | with_reducible apply State.connFail_keeps
    | with_reducible apply State.trnSend_keeps
    | split

theorem State.takeDisconnectReply_keeps {s0 s : State} (h : s0.Keeps s) (c) :
    s0.Keeps (s.takeDisconnectReply c) := by
  delta State.takeDisconnectReply
  repeat' first
    | with_reducible assumption
    | with_reducible apply State.connIdle_keeps
    | split

theorem State.trnReceive_keeps {s0 s : State} (h : s0.Keeps s) (k) :
    s0.Keeps (s.trnReceive k) := by
  delta State.trnReceive
  repeat' first
    | with_reducible assumption
    | ((fail_if_no_progress (extract_lets +onlyGivenNames x)); first
        | (refine (fun (hk : s0.Keeps x) => ?_) ?_; clear_value x; rotate_left; dsimp -zeta only [x])
        | clear_value x)
    | with_reducible apply State.count_keeps
    | with_reducible apply State.trnProtocol_keeps
    | with_reducible apply State.trnDiscard_keeps
    | with_reducible apply State.slowItem_keeps
    | with_reducible apply State.answerDisconnect_keeps
    | with_reducible apply State.takeAck_keeps
    | with_reducible apply State.takeNak_keeps
    | with_reducible apply State.takeConnect_keeps
    | with_reducible apply State.takeConnectReply_keeps
    | with_reducible apply State.takeDisconnect_keeps
    | with_reducible apply State.takeDisconnectReply_keeps
    | with_reducible apply State.takeData_keeps
    | split

theorem State.sqTake_keeps {s0 s : State} (h : s0.Keeps s) (q want) :
    s0.Keeps (s.sqTake q want).2 := by
  delta State.sqTake
  repeat' first
    | with_reducible assumption
    | ((fail_if_no_progress (extract_lets +onlyGivenNames x)); first
        | (refine (fun (hk : s0.Keeps x) => ?_) ?_; clear_value x; rotate_left; dsimp -zeta only [x])
        | clear_value x)
    | with_reducible apply State.load_keeps
    | with_reducible apply State.setFld_keeps
    | with_reducible apply State.recordError_keeps
    | (with_reducible refine State.Keeps.of_eq ?_ (by assumption))
    | split

theorem State.sqStart_keeps {s0 s : State} (h : s0.Keeps s) (q want) :
    s0.Keeps (s.sqStart q want) := by
  delta State.sqStart
  repeat' first
    | with_reducible assumption
    | ((fail_if_no_progress (extract_lets +onlyGivenNames x)); first
        | (refine (fun (hk : s0.Keeps x) => ?_) ?_; clear_value x; rotate_left; dsimp -zeta only [x])
        | clear_value x)
    | with_reducible apply State.sqTake_keeps
    | with_reducible apply State.noteLevels_keeps
    | with_reducible apply State.opDone_keeps
    | with_reducible apply State.regionCheck_keeps
    | with_reducible apply State.readMessage_keeps
    | with_reducible apply State.startWrite_keeps
    | with_reducible apply State.startRead_keeps
    | with_reducible apply State.startAtomic_keeps
    | (with_reducible refine State.Keeps.of_eq ?_ (by assumption))
    | split

theorem State.readDoorbell_keeps {s0 s : State} (h : s0.Keeps s) (line cell) :
    s0.Keeps (s.readDoorbell line cell).2 := by
  delta State.readDoorbell
  repeat' first
    | with_reducible assumption
    | with_reducible apply State.devRead_keeps
    | with_reducible apply State.recordError_keeps
    | (with_reducible refine State.Keeps.of_eq ?_ (by assumption))
    | split

theorem State.sqPoll_keeps {s0 s : State} (h : s0.Keeps s) (q) :
    s0.Keeps (s.sqPoll q) := by
  delta State.sqPoll
  repeat' first
    | with_reducible assumption
    | with_reducible apply State.readDoorbell_keeps
    | with_reducible apply State.setFld_keeps
    | (with_reducible refine State.Keeps.of_eq ?_ (by assumption))
    | split

theorem State.txrPoll_keeps {s0 s : State} (h : s0.Keeps s) (r) :
    s0.Keeps (s.txrPoll r) := by
  delta State.txrPoll
  repeat' first
    | with_reducible assumption
    | with_reducible apply State.postEntries_keeps
    | with_reducible apply State.readDoorbell_keeps
    | with_reducible apply State.setFld_keeps
    | (with_reducible refine State.Keeps.of_eq ?_ (by assumption))
    | split

theorem State.lossyTimer_keeps {s0 s : State} (h : s0.Keeps s) (c p psn) :
    s0.Keeps (s.lossyTimer c p psn) := by
  delta State.lossyTimer
  repeat' first
    | with_reducible assumption
    | ((fail_if_no_progress (extract_lets +onlyGivenNames x)); clear_value x)
    | with_reducible apply State.connLost_keeps
    | with_reducible apply State.resend_keeps
    | split

theorem State.pathTimer_keeps {s0 s : State} (h : s0.Keeps s) (c p) :
    s0.Keeps (s.pathTimer c p) := by
  delta State.pathTimer
  repeat' first
    | with_reducible assumption
    | ((fail_if_no_progress (extract_lets +onlyGivenNames x)); clear_value x)
    | with_reducible apply State.goBack_keeps
    | split

theorem State.ackTimer_keeps {s0 s : State} (h : s0.Keeps s) (c p) :
    s0.Keeps (s.ackTimer c p) := by
  delta State.ackTimer
  repeat' first
    | with_reducible assumption
    | with_reducible apply State.sendAck_keeps
    | split

theorem State.creditReturn_keeps {s0 s : State} (h : s0.Keeps s) (c coll) :
    s0.Keeps (s.creditReturn c coll) := by
  delta State.creditReturn
  repeat' first
    | with_reducible assumption
    | ((fail_if_no_progress (extract_lets +onlyGivenNames x)); clear_value x)
    | with_reducible apply State.creditAck_keeps
    | with_reducible apply State.setConn_keeps
    | split

theorem State.creditTimer_keeps {s0 s : State} (h : s0.Keeps s) (c) :
    s0.Keeps (s.creditTimer c) := by
  delta State.creditTimer
  repeat' first
    | with_reducible assumption
    | ((fail_if_no_progress (extract_lets +onlyGivenNames x)); clear_value x)
    | with_reducible apply State.sendAck_keeps
    | split

theorem State.sendRun_keeps {s0 s : State} (h : s0.Keeps s) (g) :
    s0.Keeps (s.sendRun g) := by
  delta State.sendRun
  repeat' first
    | with_reducible assumption
    | ((fail_if_no_progress (extract_lets +onlyGivenNames x)); first
        | (refine (fun (hk : s0.Keeps x) => ?_) ?_; clear_value x; rotate_left; dsimp -zeta only [x])
        | clear_value x)
    | with_reducible apply State.takeMsn_keeps
    | with_reducible apply State.queueOut_keeps
    | with_reducible apply State.roundCheck_keeps
    | split
    | fail_if_no_progress (with_reducible apply State.Keeps.upd)

theorem State.trnCellUp_keeps {s0 s : State} (h : s0.Keeps s) :
    s0.Keeps (s.trnCellUp) := by
  delta State.trnCellUp
  repeat' first
    | with_reducible assumption
    | with_reducible apply State.connStart_keeps
    | split
    | (with_reducible refine State.Keeps.foldl ?_ ?_)
    | intro _ _ _

theorem State.trnCellDown_keeps {s0 s : State} (h : s0.Keeps s) :
    s0.Keeps (s.trnCellDown) := by
  delta State.trnCellDown
  repeat' first
    | with_reducible assumption
    | with_reducible apply State.connQuiesce_keeps
    | (with_reducible refine State.Keeps.foldl ?_ ?_)
    | intro _ _ _

theorem State.trnReset_keeps {s0 s : State} (h : s0.Keeps s) :
    s0.Keeps (s.trnReset) := by
  delta State.trnReset
  repeat' first
    | with_reducible assumption
    | ((fail_if_no_progress (extract_lets +onlyGivenNames x)); first
        | (refine (fun (hk : s0.Keeps x) => ?_) ?_; clear_value x; rotate_left; dsimp -zeta only [x])
        | clear_value x)
    | with_reducible apply State.setConn_keeps
    | with_reducible apply State.revokeDone_keeps
    | with_reducible apply State.setTrn_keeps
    | with_reducible apply State.colConnLost_keeps
    | with_reducible apply State.setFlag_keeps
    | with_reducible apply State.setReg_keeps
    | (with_reducible refine State.Keeps.foldl ?_ ?_)
    | intro _ _ _
    | fail_if_no_progress (with_reducible apply State.Keeps.upd)

end Sys2Proof.Machine
end

