-- ==== Sys2Proof/Laws/KeepsCatalogue.lean ====
section
/-! SUPPORT. The operations of Machine/Catalogue.lean keep a state well. -/

namespace Sys2Proof.Machine

open Sys2Proof

theorem State.setCat_keeps {s0 s : State} (h : s0.Keeps s) (x) :
    s0.Keeps (s.setCat x) := by
  delta State.setCat
  repeat' first
    | with_reducible assumption
    | fail_if_no_progress (with_reducible apply State.Keeps.upd)

theorem State.setCatQueue_keeps {s0 s : State} (h : s0.Keeps s) (q x) :
    s0.Keeps (s.setCatQueue q x) := by
  delta State.setCatQueue
  repeat' first
    | with_reducible assumption
    | ((fail_if_no_progress (extract_lets +onlyGivenNames x)); clear_value x)
    | with_reducible apply State.setCat_keeps

theorem State.setCatBackend_keeps {s0 s : State} (h : s0.Keeps s) (b x) :
    s0.Keeps (s.setCatBackend b x) := by
  delta State.setCatBackend
  repeat' first
    | with_reducible assumption
    | ((fail_if_no_progress (extract_lets +onlyGivenNames x)); clear_value x)
    | with_reducible apply State.setCat_keeps

theorem State.catTables_keeps {s0 s : State} (h : s0.Keeps s) (v) :
    s0.Keeps (s.catTables v).2.2 := by
  delta State.catTables
  repeat' first
    | with_reducible assumption
    | ((fail_if_no_progress (extract_lets +onlyGivenNames x)); first
        | (refine (fun (hk : s0.Keeps x.2) => ?_) ?_; clear_value x; rotate_left; dsimp -zeta only [x])
        | (refine (fun (hc4 : ∀ t a, s0.Keeps t → s0.Keeps (x t a).2) => ?_) ?_; clear_value x; rotate_left; intro t a ht; dsimp -zeta only [x])
        | clear_value x)
    | with_reducible apply State.devRead_keeps
    | with_reducible apply hc4
    | (with_reducible refine State.Keeps.of_eq ?_ (by assumption))
    | split
    | (with_reducible refine State.Keeps.foldl_pair ?_ ?_)
    | intro _ _ _

theorem State.putCmd_keeps {s0 s : State} (h : s0.Keeps s) (q c) :
    s0.Keeps (s.putCmd q c) := by
  delta State.putCmd
  repeat' first
    | with_reducible assumption
    | ((fail_if_no_progress (extract_lets +onlyGivenNames x)); clear_value x)
    | with_reducible apply State.setCatQueue_keeps

theorem State.nvmeDoorbell_keeps {s0 s : State} (h : s0.Keeps s) (w cq v) :
    s0.Keeps (s.nvmeDoorbell w cq v) := by
  delta State.nvmeDoorbell
  repeat' first
    | with_reducible assumption
    | ((fail_if_no_progress (extract_lets +onlyGivenNames x)); clear_value x)
    | with_reducible apply State.sendTlp_keeps

theorem State.addBeCmd_keeps {s0 s : State} (h : s0.Keeps s) (be id opc q owner page area) :
    s0.Keeps (s.addBeCmd be id opc q owner page area) := by
  delta State.addBeCmd
  repeat' first
    | with_reducible assumption
    | with_reducible apply State.setCat_keeps
    | with_reducible apply State.count_keeps

theorem State.nvmeIssue_keeps {s0 s : State} (h : s0.Keeps s) (be w opc blk nb addr len q owner) :
    s0.Keeps (s.nvmeIssue be w opc blk nb addr len q owner).2 := by
  delta State.nvmeIssue
  repeat' first
    | with_reducible assumption
    | ((fail_if_no_progress (extract_lets +onlyGivenNames x)); first
        | (refine (fun (hk : s0.Keeps x) => ?_) ?_; clear_value x; rotate_left; dsimp -zeta only [x])
        | (refine (fun (hk : s0.Keeps x.2) => ?_) ?_; clear_value x; rotate_left; dsimp -zeta only [x])
        | clear_value x)
    | with_reducible apply State.devWrite_keeps
    | with_reducible apply State.setCatBackend_keeps
    | with_reducible apply State.addBeCmd_keeps
    | with_reducible apply State.nvmeDoorbell_keeps
    | split

theorem State.remoteIssue_keeps {s0 s : State} (h : s0.Keeps s) (be w opc blk nb addr len q owner) :
    s0.Keeps (s.remoteIssue be w opc blk nb addr len q owner).2 := by
  delta State.remoteIssue
  repeat' first
    | with_reducible assumption
    | ((fail_if_no_progress (extract_lets +onlyGivenNames x)); first
        | (refine (fun (hk : s0.Keeps x) => ?_) ?_; clear_value x; rotate_left; dsimp -zeta only [x])
        | clear_value x)
    | with_reducible apply State.addBeCmd_keeps
    | with_reducible apply State.setCatBackend_keeps
    | with_reducible apply State.startWrite_keeps
    | split

theorem State.programIssue_keeps {s0 s : State} (h : s0.Keeps s) (be w opc volNo blk nb addr len q owner) :
    s0.Keeps (s.programIssue be w opc volNo blk nb addr len q owner).2 := by
  delta State.programIssue
  repeat' first
    | with_reducible assumption
    | ((fail_if_no_progress (extract_lets +onlyGivenNames x)); first
        | (refine (fun (hk : s0.Keeps x.2) => ?_) ?_; clear_value x; rotate_left; dsimp -zeta only [x])
        | clear_value x)
    | with_reducible apply State.postItem_keeps
    | with_reducible apply State.addBeCmd_keeps
    | with_reducible apply State.setCatBackend_keeps
    | with_reducible apply State.count_keeps
    | split

theorem State.beIssue_keeps {s0 s : State} (h : s0.Keeps s) (be w opc volNo blk nb addr len q owner) :
    s0.Keeps (s.beIssue be w opc volNo blk nb addr len q owner).2 := by
  delta State.beIssue
  repeat' first
    | with_reducible assumption
    | with_reducible apply State.nvmeIssue_keeps
    | with_reducible apply State.remoteIssue_keeps
    | with_reducible apply State.programIssue_keeps
    | split

theorem State.catLog_keeps {s0 s : State} (h : s0.Keeps s) (q ws) :
    s0.Keeps (s.catLog q ws) := by
  delta State.catLog
  repeat' first
    | with_reducible assumption
    | ((fail_if_no_progress (extract_lets +onlyGivenNames x)); first
        | (refine (fun (hk : s0.Keeps x) => ?_) ?_; clear_value x; rotate_left; dsimp -zeta only [x])
        | (refine (fun (hk : s0.Keeps x.2) => ?_) ?_; clear_value x; rotate_left; dsimp -zeta only [x])
        | clear_value x)
    | with_reducible apply State.setCatQueue_keeps
    | with_reducible apply State.hostWrite_keeps
    | with_reducible apply State.devWrite_keeps
    | with_reducible apply State.recordError_keeps
    | split

theorem State.catRecord_keeps {s0 s : State} (h : s0.Keeps s) (q ws) :
    s0.Keeps (s.catRecord q ws) := by
  delta State.catRecord
  extract_lets x log2 tail ws a s1 s2 _ s3 r1 to64 v r2 s4
  have h2 : s0.Keeps s2 := State.setCatQueue_keeps (State.setFld_keeps h _ _ _ _) _ _
  clear_value s2 to64 a
  split
  · exact State.routeFire_keeps (State.hostWrite_keeps (State.setCatQueue_keeps h2 _ _) _ _ _ _ _ _) _ _
  · split
    · exact State.startWrite_keeps (State.free_keeps h2 _) _ _ _ _ _ _ _
    · exact State.setFld_keeps h2 _ _ _ _
  · have h3 : s0.Keeps s4 := by
      have := State.devWrite_keeps h2 a (bytesOf ws) false
      dsimp only [s4]
      split
      · exact this
      · exact State.recordError_keeps this _ _ _ _
    exact State.routeFire_keeps (State.notifyBit_keeps h3 _) _ _

theorem State.catComplete_keeps {s0 s : State} (h : s0.Keeps s) (q c status info) :
    s0.Keeps (s.catComplete q c status info) := by
  delta State.catComplete
  repeat' first
    | with_reducible assumption
    | ((fail_if_no_progress (extract_lets +onlyGivenNames x)); first
        | (refine (fun (hk : s0.Keeps x) => ?_) ?_; clear_value x; rotate_left; dsimp -zeta only [x])
        | clear_value x)
    | with_reducible apply State.setCatQueue_keeps
    | with_reducible apply State.count_keeps
    | with_reducible apply State.setCat_keeps
    | with_reducible apply State.catRecord_keeps
    | split

theorem State.segFail_keeps {s0 s : State} (h : s0.Keeps s) (id cause status last) :
    s0.Keeps (s.segFail id cause status last) := by
  delta State.segFail
  repeat' first
    | with_reducible assumption
    | ((fail_if_no_progress (extract_lets +onlyGivenNames x)); first
        | (refine (fun (hk : s0.Keeps x) => ?_) ?_; clear_value x; rotate_left; dsimp -zeta only [x])
        | clear_value x)
    | with_reducible apply State.count_keeps
    | with_reducible apply State.setCat_keeps
    | with_reducible apply State.setCatQueue_keeps
    | with_reducible apply State.catLog_keeps
    | split

theorem State.segDone_keeps {s0 s : State} (h : s0.Keeps s) (id serial durable) :
    s0.Keeps (s.segDone id serial durable) := by
  delta State.segDone
  repeat' first
    | with_reducible assumption
    | ((fail_if_no_progress (extract_lets +onlyGivenNames x)); clear_value x)
    | with_reducible apply State.count_keeps
    | with_reducible apply State.setCat_keeps
    | split

theorem State.partEnd_keeps {s0 s : State} (h : s0.Keeps s) (q seq i st) :
    s0.Keeps (s.partEnd q seq i st) := by
  delta State.partEnd
  repeat' first
    | with_reducible assumption
    | with_reducible apply State.count_keeps
    | with_reducible apply State.putCmd_keeps
    | split

theorem State.flushFail_keeps {s0 s : State} (h : s0.Keeps s) (q seq cause be status) :
    s0.Keeps (s.flushFail q seq cause be status) := by
  delta State.flushFail
  repeat' first
    | with_reducible assumption
    | with_reducible apply State.count_keeps
    | with_reducible apply State.putCmd_keeps
    | split

theorem State.ownerFail_keeps {s0 s : State} (h : s0.Keeps s) (b cause status) :
    s0.Keeps (s.ownerFail b cause status) := by
  delta State.ownerFail
  repeat' first
    | with_reducible assumption
    | with_reducible apply State.segFail_keeps
    | with_reducible apply State.partEnd_keeps
    | with_reducible apply State.flushFail_keeps
    | split

theorem State.beDiscard_keeps {s0 s : State} (h : s0.Keeps s) (b) :
    s0.Keeps (s.beDiscard b) := by
  delta State.beDiscard
  repeat' first
    | with_reducible assumption
    | ((fail_if_no_progress (extract_lets +onlyGivenNames x)); first
        | (refine (fun (hk : s0.Keeps x) => ?_) ?_; clear_value x; rotate_left; dsimp -zeta only [x])
        | clear_value x)
    | with_reducible apply State.count_keeps
    | with_reducible apply State.setCat_keeps
    | (with_reducible refine State.Keeps.of_eq ?_ (by assumption))
    | (with_reducible refine State.Keeps.of_eq3 ?_ (by assumption))
    | split

theorem State.beStale_keeps {s0 s : State} (h : s0.Keeps s) (q) :
    s0.Keeps (s.beStale q) := by
  delta State.beStale
  repeat' first
    | with_reducible assumption
    | with_reducible apply State.setCat_keeps

theorem State.beEnd_keeps {s0 s : State} (h : s0.Keeps s) (be id fail durable) :
    s0.Keeps (s.beEnd be id fail durable) := by
  delta State.beEnd
  repeat' first
    | with_reducible assumption
    | ((fail_if_no_progress (extract_lets +onlyGivenNames x)); first
        | (refine (fun (hk : s0.Keeps x) => ?_) ?_; clear_value x; rotate_left; dsimp -zeta only [x])
        | clear_value x)
    | with_reducible apply State.beDiscard_keeps
    | with_reducible apply State.setCat_keeps
    | with_reducible apply State.count_keeps
    | with_reducible apply State.ownerFail_keeps
    | with_reducible apply State.segDone_keeps
    | with_reducible apply State.partEnd_keeps
    | split

theorem State.beTimeout_keeps {s0 s : State} (h : s0.Keeps s) (be id) :
    s0.Keeps (s.beTimeout be id) := by
  delta State.beTimeout
  repeat' first
    | with_reducible assumption
    | ((fail_if_no_progress (extract_lets +onlyGivenNames x)); first
        | (refine (fun (hk : s0.Keeps x) => ?_) ?_; clear_value x; rotate_left; dsimp -zeta only [x])
        | clear_value x)
    | with_reducible apply State.beDiscard_keeps
    | with_reducible apply State.setCat_keeps
    | with_reducible apply State.ownerFail_keeps
    | with_reducible apply State.count_keeps
    | with_reducible apply State.recordError_keeps
    | split

theorem State.beLost_keeps {s0 s : State} (h : s0.Keeps s) (be) :
    s0.Keeps (s.beLost be) := by
  delta State.beLost
  repeat' first
    | with_reducible assumption
    | with_reducible apply State.beEnd_keeps
    | (with_reducible refine State.Keeps.foldl ?_ ?_)
    | intro _ _ _

theorem State.beNewRings_keeps {s0 s : State} (h : s0.Keeps s) (be) :
    s0.Keeps (s.beNewRings be) := by
  delta State.beNewRings
  repeat' first
    | with_reducible assumption
    | with_reducible apply State.setCatBackend_keeps

theorem State.catPortLost_keeps {s0 s : State} (h : s0.Keeps s) (port) :
    s0.Keeps (s.catPortLost port) := by
  delta State.catPortLost
  repeat' first
    | with_reducible assumption
    | ((fail_if_no_progress (extract_lets +onlyGivenNames x)); clear_value x)
    | with_reducible apply State.beNewRings_keeps
    | with_reducible apply State.setCatBackend_keeps
    | with_reducible apply State.beLost_keeps
    | (with_reducible refine State.Keeps.foldl ?_ ?_)
    | intro _ _ _

theorem State.nvmeReset_keeps {s0 s : State} (h : s0.Keeps s) (port) :
    s0.Keeps (s.nvmeReset port) := by
  delta State.nvmeReset
  repeat' first
    | with_reducible assumption
    | ((fail_if_no_progress (extract_lets +onlyGivenNames x)); first
        | (refine (fun (hk : s0.Keeps x) => ?_) ?_; clear_value x; rotate_left; dsimp -zeta only [x])
        | clear_value x)
    | with_reducible apply State.setCat_keeps
    | with_reducible apply State.beNewRings_keeps
    | split
    | (with_reducible refine State.Keeps.foldl ?_ ?_)
    | (with_reducible refine State.Keeps.foldl_pair ?_ ?_)
    | (with_reducible refine State.Keeps.foldl_triple ?_ ?_)
    | intro _ _ _

theorem State.catConnsLost_keeps {s0 s : State} (h : s0.Keeps s) :
    s0.Keeps (s.catConnsLost) := by
  delta State.catConnsLost
  repeat' first
    | with_reducible assumption
    | ((fail_if_no_progress (extract_lets +onlyGivenNames x)); clear_value x)
    | with_reducible apply State.beLost_keeps
    | (with_reducible refine State.Keeps.foldl ?_ ?_)
    | intro _ _ _

theorem State.nvmeEntry_keeps {s0 s : State} (h : s0.Keeps s) (be) :
    s0.Keeps (s.nvmeEntry be).2 := by
  delta State.nvmeEntry
  repeat' first
    | with_reducible assumption
    | ((fail_if_no_progress (extract_lets +onlyGivenNames x)); first
        | (refine (fun (hk : s0.Keeps x) => ?_) ?_; clear_value x; rotate_left; dsimp -zeta only [x])
        | clear_value x)
    | with_reducible apply State.devRead_keeps
    | with_reducible apply State.setCatBackend_keeps
    | with_reducible apply State.nvmeDoorbell_keeps
    | with_reducible apply State.beEnd_keeps
    | (with_reducible refine State.Keeps.of_eq ?_ (by assumption))
    | split

theorem State.nvmePoll_keeps {s0 s : State} (h : s0.Keeps s) (be fuel) :
    s0.Keeps (s.nvmePoll be fuel) := by
  induction fuel generalizing s be with
  | zero =>
    rw [State.nvmePoll.eq_def]
    try dsimp -zeta only
    repeat' first
      | with_reducible assumption
  | succ fuel ih =>
    rw [State.nvmePoll.eq_def]
    try dsimp -zeta only
    repeat' first
      | with_reducible assumption
      | ((fail_if_no_progress (extract_lets +onlyGivenNames x)); refine (fun (hk : s0.Keeps x.2) => ?_) ?_; clear_value x; rotate_left; dsimp -zeta only [x])
      | with_reducible apply ih
      | with_reducible apply State.nvmeEntry_keeps
      | split

theorem State.catNvmePoll_keeps {s0 s : State} (h : s0.Keeps s) (be) :
    s0.Keeps (s.catNvmePoll be) := by
  delta State.catNvmePoll
  repeat' first
    | with_reducible assumption
    | ((fail_if_no_progress (extract_lets +onlyGivenNames x)); clear_value x)
    | with_reducible apply State.nvmePoll_keeps
    | split

theorem State.programEntry_keeps {s0 s : State} (h : s0.Keeps s) (be) :
    s0.Keeps (s.programEntry be).2 := by
  delta State.programEntry
  repeat' first
    | with_reducible assumption
    | ((fail_if_no_progress (extract_lets +onlyGivenNames x)); first
        | (refine (fun (hk : s0.Keeps x) => ?_) ?_; clear_value x; rotate_left; dsimp -zeta only [x])
        | clear_value x)
    | with_reducible apply State.devRead_keeps
    | with_reducible apply State.setCatBackend_keeps
    | with_reducible apply State.beEnd_keeps
    | (with_reducible refine State.Keeps.of_eq ?_ (by assumption))
    | split

theorem State.programEntries_keeps {s0 s : State} (h : s0.Keeps s) (be tail fuel) :
    s0.Keeps (s.programEntries be tail fuel) := by
  induction fuel generalizing s be tail with
  | zero =>
    rw [State.programEntries.eq_def]
    try dsimp -zeta only
    repeat' first
      | with_reducible assumption
  | succ fuel ih =>
    rw [State.programEntries.eq_def]
    try dsimp -zeta only
    repeat' first
      | with_reducible assumption
      | ((fail_if_no_progress (extract_lets +onlyGivenNames x)); refine (fun (hk : s0.Keeps x.2) => ?_) ?_; clear_value x; rotate_left; dsimp -zeta only [x])
      | with_reducible apply ih
      | with_reducible apply State.programEntry_keeps
      | split

theorem State.programPoll_keeps {s0 s : State} (h : s0.Keeps s) (be) :
    s0.Keeps (s.programPoll be) := by
  delta State.programPoll
  repeat' first
    | with_reducible assumption
    | ((fail_if_no_progress (extract_lets +onlyGivenNames x)); clear_value x)
    | with_reducible apply State.readDoorbell_keeps
    | with_reducible apply State.programEntries_keeps
    | (with_reducible refine State.Keeps.of_eq ?_ (by assumption))
    | split

theorem State.remoteDone_keeps {s0 s : State} (h : s0.Keeps s) (be e) :
    s0.Keeps (s.remoteDone be e) := by
  delta State.remoteDone
  repeat' first
    | with_reducible assumption
    | ((fail_if_no_progress (extract_lets +onlyGivenNames x)); clear_value x)
    | with_reducible apply State.beEnd_keeps
    | split

theorem State.writeBack_keeps {s0 s : State} (h : s0.Keeps s) (id) :
    s0.Keeps (s.writeBack id) := by
  delta State.writeBack
  repeat' first
    | with_reducible assumption
    | ((fail_if_no_progress (extract_lets +onlyGivenNames x)); first
        | (refine (fun (hk : s0.Keeps x.2) => ?_) ?_; clear_value x; rotate_left; dsimp -zeta only [x])
        | clear_value x)
    | with_reducible apply State.beIssue_keeps
    | with_reducible apply State.setCat_keeps
    | with_reducible apply State.segFail_keeps
    | split

theorem State.copyPieces_keeps {s0 s : State} (h : s0.Keeps s) (c src dst off n) :
    s0.Keeps (s.copyPieces c src dst off n).2 := by
  induction n generalizing s c src dst off with
  | zero =>
    rw [State.copyPieces.eq_def]
    try dsimp -zeta only
    repeat' first
      | with_reducible assumption
  | succ n ih =>
    rw [State.copyPieces.eq_def]
    try dsimp -zeta only
    repeat' first
      | with_reducible assumption
      | with_reducible apply ih
      | with_reducible apply State.devRead_keeps
      | with_reducible apply State.devWrite_keeps
      | (with_reducible refine State.Keeps.of_eq ?_ (by assumption))
      | (with_reducible refine State.Keeps.of_eq3 ?_ (by assumption))
      | split

theorem State.catFetch_keeps {s0 s : State} (h : s0.Keeps s) (q c dst off l) :
    s0.Keeps (s.catFetch q c dst off l).2 := by
  induction l generalizing s c dst off with
  | nil =>
    rw [State.catFetch.eq_def]
    try dsimp -zeta only
    repeat' first
      | with_reducible assumption
      | ((fail_if_no_progress (extract_lets +onlyGivenNames x)); first
          | (refine (fun (hk : s0.Keeps x) => ?_) ?_; clear_value x; rotate_left; dsimp -zeta only [x])
          | (refine (fun (hk : s0.Keeps x.2) => ?_) ?_; clear_value x; rotate_left; dsimp -zeta only [x])
          | (refine (fun (hk : s0.Keeps x.2.2) => ?_) ?_; clear_value x; rotate_left; dsimp -zeta only [x])
          | clear_value x
          | skip)
  | cons hd tl ih =>
    rw [State.catFetch.eq_def]
    try dsimp -zeta only
    repeat' first
      | with_reducible assumption
      | with_reducible apply ih
      | ((fail_if_no_progress (extract_lets +onlyGivenNames x)); first
          | (refine (fun (hk : s0.Keeps x) => ?_) ?_; clear_value x; rotate_left; dsimp -zeta only [x])
          | (refine (fun (hk : s0.Keeps x.2) => ?_) ?_; clear_value x; rotate_left; dsimp -zeta only [x]))
      | with_reducible apply State.hostRead_keeps
      | with_reducible apply State.startRead_keeps
      | with_reducible apply State.copyPieces_keeps
      | (with_reducible refine State.Keeps.of_eq ?_ (by assumption))
      | (with_reducible refine State.Keeps.of_eq3 ?_ (by assumption))
      | split

theorem State.partPieces_keeps {s0 s : State} (h : s0.Keeps s) (p log2 a) :
    s0.Keeps (s.partPieces p log2 a).2 := by
  induction a generalizing s p log2 with
  | nil =>
    rw [State.partPieces.eq_def]
    try dsimp -zeta only
    repeat' first
      | with_reducible assumption
  | cons a_hd a_tl ih =>
    rw [State.partPieces.eq_def]
    try dsimp -zeta only
    repeat' first
      | with_reducible assumption
      | ((fail_if_no_progress (extract_lets +onlyGivenNames x)); first
          | (refine (fun (hk : s0.Keeps x.2) => ?_) ?_; clear_value x; rotate_left; dsimp -zeta only [x])
          | clear_value x)
      | with_reducible apply ih
      | with_reducible apply State.free_keeps
      | with_reducible apply State.noteRead_keeps
      | split

theorem State.cmdPieces_keeps {s0 s : State} (h : s0.Keeps s) (log2 a) :
    s0.Keeps (s.cmdPieces log2 a).2 := by
  induction a generalizing s log2 with
  | nil =>
    rw [State.cmdPieces.eq_def]
    try dsimp -zeta only
    repeat' first
      | with_reducible assumption
  | cons a_hd a_tl ih =>
    rw [State.cmdPieces.eq_def]
    try dsimp -zeta only
    repeat' first
      | with_reducible assumption
      | ((fail_if_no_progress (extract_lets +onlyGivenNames x)); refine (fun (hk : s0.Keeps x.2) => ?_) ?_; clear_value x; rotate_left; dsimp -zeta only [x])
      | with_reducible apply ih
      | with_reducible apply State.partPieces_keeps

theorem State.putPieces_keeps {s0 s : State} (h : s0.Keeps s) (c a off l) :
    s0.Keeps (s.putPieces c a off l).2 := by
  induction l generalizing s c a off with
  | nil =>
    rw [State.putPieces.eq_def]
    try dsimp -zeta only
    repeat' first
      | with_reducible assumption
      | ((fail_if_no_progress (extract_lets +onlyGivenNames x)); first
          | (refine (fun (hk : s0.Keeps x) => ?_) ?_; clear_value x; rotate_left; dsimp -zeta only [x])
          | (refine (fun (hk : s0.Keeps x.2) => ?_) ?_; clear_value x; rotate_left; dsimp -zeta only [x])
          | (refine (fun (hk : s0.Keeps x.2.2) => ?_) ?_; clear_value x; rotate_left; dsimp -zeta only [x])
          | clear_value x
          | skip)
  | cons hd tl ih =>
    rw [State.putPieces.eq_def]
    try dsimp -zeta only
    repeat' first
      | with_reducible assumption
      | with_reducible apply ih
      | ((fail_if_no_progress (extract_lets +onlyGivenNames x)); first
          | (refine (fun (hk : s0.Keeps x) => ?_) ?_; clear_value x; rotate_left; dsimp -zeta only [x])
          | (refine (fun (hk : s0.Keeps x.2) => ?_) ?_; clear_value x; rotate_left; dsimp -zeta only [x])
          | (refine (fun (hk : s0.Keeps x.2.2) => ?_) ?_; clear_value x; rotate_left; dsimp -zeta only [x])
          | clear_value x
          | skip)
      | with_reducible apply State.devWrite_keeps

theorem State.hostOut_keeps {s0 s : State} (h : s0.Keeps s) (q c a off g) :
    s0.Keeps (s.hostOut q c a off g).2 := by
  delta State.hostOut
  repeat' first
    | with_reducible assumption
    | with_reducible apply State.hostWrite_keeps

theorem State.peerOut_keeps {s0 s : State} (h : s0.Keeps s) (q c a off g) :
    s0.Keeps (s.peerOut q c a off g).2 := by
  delta State.peerOut
  repeat' first
    | with_reducible assumption
    | ((fail_if_no_progress (extract_lets +onlyGivenNames x)); first
        | (refine (fun (hk : s0.Keeps x.2) => ?_) ?_; clear_value x; rotate_left; dsimp -zeta only [x])
        | clear_value x)
    | with_reducible apply State.free_keeps
    | with_reducible apply State.startWrite_keeps
    | split

theorem State.groupsOut_keeps {s0 s : State} (h : s0.Keeps s) (q c peer a off l) :
    s0.Keeps (s.groupsOut q c peer a off l).2 := by
  induction l generalizing s c a off with
  | nil =>
    rw [State.groupsOut.eq_def]
    try dsimp -zeta only
    repeat' first
      | with_reducible assumption
      | ((fail_if_no_progress (extract_lets +onlyGivenNames x)); first
          | (refine (fun (hk : s0.Keeps x) => ?_) ?_; clear_value x; rotate_left; dsimp -zeta only [x])
          | (refine (fun (hk : s0.Keeps x.2) => ?_) ?_; clear_value x; rotate_left; dsimp -zeta only [x])
          | (refine (fun (hk : s0.Keeps x.2.2) => ?_) ?_; clear_value x; rotate_left; dsimp -zeta only [x])
          | clear_value x
          | skip)
  | cons hd tl ih =>
    rw [State.groupsOut.eq_def]
    try dsimp -zeta only
    repeat' first
      | with_reducible assumption
      | with_reducible apply ih
      | ((fail_if_no_progress (extract_lets +onlyGivenNames x)); first
          | (refine (fun (hk : s0.Keeps x) => ?_) ?_; clear_value x; rotate_left; dsimp -zeta only [x])
          | (refine (fun (hk : s0.Keeps x.2) => ?_) ?_; clear_value x; rotate_left; dsimp -zeta only [x])
          | (refine (fun (hk : s0.Keeps x.2.2) => ?_) ?_; clear_value x; rotate_left; dsimp -zeta only [x])
          | clear_value x
          | skip)
      | with_reducible apply State.peerOut_keeps
      | with_reducible apply State.hostOut_keeps
      | split

theorem State.catDeliver_keeps {s0 s : State} (h : s0.Keeps s) (q c ps off l) :
    s0.Keeps (s.catDeliver q c ps off l).2 := by
  induction l generalizing s c ps off with
  | nil =>
    rw [State.catDeliver.eq_def]
    try dsimp -zeta only
    repeat' first
      | with_reducible assumption
      | ((fail_if_no_progress (extract_lets +onlyGivenNames x)); first
          | (refine (fun (hk : s0.Keeps x) => ?_) ?_; clear_value x; rotate_left; dsimp -zeta only [x])
          | (refine (fun (hk : s0.Keeps x.2) => ?_) ?_; clear_value x; rotate_left; dsimp -zeta only [x])
          | (refine (fun (hk : s0.Keeps x.2.2) => ?_) ?_; clear_value x; rotate_left; dsimp -zeta only [x])
          | clear_value x
          | skip)
  | cons hd tl ih =>
    rw [State.catDeliver.eq_def]
    try dsimp -zeta only
    repeat' first
      | with_reducible assumption
      | with_reducible apply ih
      | ((fail_if_no_progress (extract_lets +onlyGivenNames x)); first
          | (refine (fun (hk : s0.Keeps x) => ?_) ?_; clear_value x; rotate_left; dsimp -zeta only [x])
          | (refine (fun (hk : s0.Keeps x.2) => ?_) ?_; clear_value x; rotate_left; dsimp -zeta only [x])
          | clear_value x)
      | with_reducible apply State.ephPlace_keeps
      | with_reducible apply State.putPieces_keeps
      | with_reducible apply State.recordError_keeps
      | with_reducible apply State.groupsOut_keeps
      | (with_reducible refine State.Keeps.of_eq ?_ (by assumption))
      | (with_reducible refine State.Keeps.of_eq3 ?_ (by assumption))
      | split

theorem State.catAccept_keeps {s0 s : State} (h : s0.Keeps s) (q c segs) :
    s0.Keeps (s.catAccept q c segs) := by
  delta State.catAccept
  repeat' first
    | with_reducible assumption
    | with_reducible apply State.catComplete_keeps
    | with_reducible apply State.putCmd_keeps
    | split

theorem State.catList_keeps {s0 s : State} (h : s0.Keeps s) (q c) :
    s0.Keeps (s.catList q c) := by
  delta State.catList
  repeat' first
    | with_reducible assumption
    | ((fail_if_no_progress (extract_lets +onlyGivenNames x)); first
        | clear_value x)
    | with_reducible apply State.putCmd_keeps
    | with_reducible apply State.hostRead_keeps
    | with_reducible apply State.catComplete_keeps
    | with_reducible apply State.startRead_keeps
    | with_reducible apply State.devRead_keeps
    | with_reducible apply State.catAccept_keeps
    | with_reducible apply State.recordError_keeps
    | (with_reducible refine State.Keeps.of_eq ?_ (by assumption))
    | (with_reducible refine State.Keeps.of_eq3 ?_ (by assumption))
    | split

theorem State.catTake_keeps {s0 s : State} (h : s0.Keeps s) (q slot ws volNo vol bes entry) :
    s0.Keeps (s.catTake q slot ws volNo vol bes entry) := by
  delta State.catTake
  repeat' first
    | with_reducible assumption
    | ((fail_if_no_progress (extract_lets +onlyGivenNames x)); first
        | (refine (fun (hk : s0.Keeps x) => ?_) ?_; clear_value x; rotate_left; dsimp -zeta only [x])
        | clear_value x)
    | with_reducible apply State.catList_keeps
    | with_reducible apply State.setCatQueue_keeps
    | with_reducible apply State.count_keeps
    | with_reducible apply State.catComplete_keeps
    | with_reducible apply State.catAccept_keeps
    | with_reducible apply State.hostRead_keeps
    | with_reducible apply State.putCmd_keeps
    | with_reducible apply State.startRead_keeps
    | with_reducible apply State.devRead_keeps
    | with_reducible apply State.recordError_keeps
    | (with_reducible refine State.Keeps.of_eq ?_ (by assumption))
    | split

theorem State.catEntry_keeps {s0 s : State} (h : s0.Keeps s) (q bs) :
    s0.Keeps (s.catEntry q bs) := by
  delta State.catEntry
  repeat' first
    | with_reducible assumption
    | ((fail_if_no_progress (extract_lets +onlyGivenNames x)); first
        | (refine (fun (hk : s0.Keeps x) => ?_) ?_; clear_value x; rotate_left; dsimp -zeta only [x])
        | clear_value x)
    | with_reducible apply State.setFld_keeps
    | with_reducible apply State.catTake_keeps

theorem State.catEntryTake_keeps {s0 s : State} (h : s0.Keeps s) (q) :
    s0.Keeps (s.catEntryTake q) := by
  delta State.catEntryTake
  repeat' first
    | with_reducible assumption
    | ((fail_if_no_progress (extract_lets +onlyGivenNames x)); first
        | (refine (fun (hk : s0.Keeps x) => ?_) ?_; clear_value x; rotate_left; dsimp -zeta only [x])
        | clear_value x)
    | with_reducible apply State.setCat_keeps
    | with_reducible apply State.setCatQueue_keeps
    | with_reducible apply State.hostRead_keeps
    | with_reducible apply State.catEntry_keeps
    | with_reducible apply State.devRead_keeps
    | with_reducible apply State.recordError_keeps
    | (with_reducible refine State.Keeps.of_eq ?_ (by assumption))
    | (with_reducible refine State.Keeps.of_eq3 ?_ (by assumption))
    | split

theorem State.catPoll_keeps {s0 s : State} (h : s0.Keeps s) (q) :
    s0.Keeps (s.catPoll q) := by
  delta State.catPoll
  repeat' first
    | with_reducible assumption
    | with_reducible apply State.readDoorbell_keeps
    | with_reducible apply State.setFld_keeps
    | (with_reducible refine State.Keeps.of_eq ?_ (by assumption))
    | split

theorem State.issueParts_keeps {s0 s : State} (h : s0.Keeps s) (q c a) :
    s0.Keeps (s.issueParts q c a).2 := by
  induction a generalizing s q c with
  | nil =>
    rw [State.issueParts.eq_def]
    try dsimp -zeta only
    repeat' first
      | with_reducible assumption
  | cons a_hd a_tl ih =>
    rw [State.issueParts.eq_def]
    try dsimp -zeta only
    repeat' first
      | with_reducible assumption
      | ((fail_if_no_progress (extract_lets +onlyGivenNames x)); refine (fun (hk : s0.Keeps x.2) => ?_) ?_; clear_value x; rotate_left; dsimp -zeta only [x])
      | with_reducible apply ih
      | with_reducible apply State.beIssue_keeps
      | split

theorem State.addSegs_keeps {s0 s : State} (h : s0.Keeps s) (q c) :
    s0.Keeps (s.addSegs q c) := by
  delta State.addSegs
  repeat' first
    | with_reducible assumption
    | ((fail_if_no_progress (extract_lets +onlyGivenNames x)); clear_value x)
    | with_reducible apply State.setCat_keeps
    | (with_reducible refine State.Keeps.foldl ?_ ?_)
    | intro _ _ _

theorem State.catWait_keeps {s0 s : State} (h : s0.Keeps s) (q c) :
    s0.Keeps (s.catWait q c) := by
  delta State.catWait
  repeat' first
    | with_reducible assumption
    | with_reducible apply State.noteLevels_keeps
    | with_reducible apply State.putCmd_keeps

theorem State.catStart_keeps {s0 s : State} (h : s0.Keeps s) (q c) :
    s0.Keeps (s.catStart q c) := by
  delta State.catStart
  repeat' first
    | with_reducible assumption
    | ((fail_if_no_progress (extract_lets +onlyGivenNames x)); first
        | (refine (fun (hk : s0.Keeps x) => ?_) ?_; clear_value x; rotate_left; dsimp -zeta only [x])
        | (refine (fun (hk : s0.Keeps x.2) => ?_) ?_; clear_value x; rotate_left; dsimp -zeta only [x])
        | clear_value x)
    | with_reducible apply State.putCmd_keeps
    | with_reducible apply State.addSegs_keeps
    | with_reducible apply State.catComplete_keeps
    | with_reducible apply State.catWait_keeps
    | with_reducible apply State.count_keeps
    | with_reducible apply State.issueParts_keeps
    | with_reducible apply State.noteLevels_keeps
    | with_reducible apply State.devWrite_keeps
    | with_reducible apply State.catFetch_keeps
    | (with_reducible refine State.Keeps.of_eq ?_ (by assumption))
    | (with_reducible refine State.Keeps.of_eq3 ?_ (by assumption))
    | split

theorem State.finishWrite_keeps {s0 s : State} (h : s0.Keeps s) (q c) :
    s0.Keeps (s.finishWrite q c) := by
  delta State.finishWrite
  repeat' first
    | with_reducible assumption
    | ((fail_if_no_progress (extract_lets +onlyGivenNames x)); first
        | (refine (fun (hk : s0.Keeps x) => ?_) ?_; clear_value x; rotate_left; dsimp -zeta only [x])
        | (refine (fun (hk : s0.Keeps x.2) => ?_) ?_; clear_value x; rotate_left; dsimp -zeta only [x]))
    | with_reducible apply State.count_keeps
    | with_reducible apply State.catComplete_keeps
    | with_reducible apply State.free_keeps
    | with_reducible apply State.addSegs_keeps
    | split

theorem State.finishRead_keeps {s0 s : State} (h : s0.Keeps s) (q c) :
    s0.Keeps (s.finishRead q c) := by
  delta State.finishRead
  repeat' first
    | with_reducible assumption
    | ((fail_if_no_progress (extract_lets +onlyGivenNames x)); first
        | (refine (fun (hk : s0.Keeps x.2) => ?_) ?_; clear_value x; rotate_left; dsimp -zeta only [x])
        | clear_value x)
    | with_reducible apply State.putCmd_keeps
    | with_reducible apply State.cmdPieces_keeps
    | with_reducible apply State.catDeliver_keeps
    | (with_reducible refine State.Keeps.of_eq ?_ (by assumption))
    | (with_reducible refine State.Keeps.of_eq3 ?_ (by assumption))
    | split

theorem State.advanceFlush_keeps {s0 s : State} (h : s0.Keeps s) (q c) :
    s0.Keeps (s.advanceFlush q c) := by
  delta State.advanceFlush
  repeat' first
    | with_reducible assumption
    | ((fail_if_no_progress (extract_lets +onlyGivenNames x)); first
        | (refine (fun (hk : s0.Keeps x.2) => ?_) ?_; clear_value x; rotate_left; dsimp -zeta only [x])
        | clear_value x)
    | with_reducible apply State.catComplete_keeps
    | with_reducible apply State.beIssue_keeps
    | with_reducible apply State.flushFail_keeps
    | split
    | (with_reducible refine State.Keeps.foldl ?_ ?_)
    | intro _ _ _

theorem State.catStep_keeps {s0 s : State} (h : s0.Keeps s) (q seq) :
    s0.Keeps (s.catStep q seq) := by
  delta State.catStep
  repeat' first
    | with_reducible assumption
    | ((fail_if_no_progress (extract_lets +onlyGivenNames x)); first
        | (refine (fun (hk : s0.Keeps x) => ?_) ?_; clear_value x; rotate_left; dsimp -zeta only [x])
        | (refine (fun (hk : s0.Keeps x.2) => ?_) ?_; clear_value x; rotate_left; dsimp -zeta only [x])
        | clear_value x)
    | with_reducible apply State.catList_keeps
    | with_reducible apply State.catStart_keeps
    | with_reducible apply State.advanceFlush_keeps
    | with_reducible apply State.finishWrite_keeps
    | with_reducible apply State.issueParts_keeps
    | with_reducible apply State.putCmd_keeps
    | with_reducible apply State.finishRead_keeps
    | with_reducible apply State.count_keeps
    | with_reducible apply State.catComplete_keeps
    | split

theorem State.catQueueStart_keeps {s0 s : State} (h : s0.Keeps s) (q) :
    s0.Keeps (s.catQueueStart q) := by
  delta State.catQueueStart
  repeat' first
    | with_reducible assumption
    | ((fail_if_no_progress (extract_lets +onlyGivenNames x)); first
        | (refine (fun (hk : s0.Keeps x) => ?_) ?_; clear_value x; rotate_left; dsimp -zeta only [x])
        | (refine (fun (hk : s0.Keeps x.2.2) => ?_) ?_; clear_value x; rotate_left; dsimp -zeta only [x])
        | clear_value x)
    | with_reducible apply State.catTables_keeps
    | with_reducible apply State.setCatQueue_keeps

theorem State.catQueueOff_keeps {s0 s : State} (h : s0.Keeps s) (q) :
    s0.Keeps (s.catQueueOff q) := by
  delta State.catQueueOff
  repeat' first
    | with_reducible assumption
    | ((fail_if_no_progress (extract_lets +onlyGivenNames x)); first
        | (refine (fun (hk : s0.Keeps x) => ?_) ?_; clear_value x; rotate_left; dsimp -zeta only [x])
        | clear_value x)
    | with_reducible apply State.beStale_keeps
    | with_reducible apply State.setFld_keeps
    | with_reducible apply State.setFlag_keeps
    | with_reducible apply State.setReg_keeps
    | with_reducible apply State.setCatQueue_keeps
    | with_reducible apply State.catQueueStart_keeps
    | split

theorem State.catSettleQueue_keeps {s0 s : State} (h : s0.Keeps s) (q) :
    s0.Keeps (s.catSettleQueue q) := by
  delta State.catSettleQueue
  repeat' first
    | with_reducible assumption
    | ((fail_if_no_progress (extract_lets +onlyGivenNames x)); clear_value x)
    | with_reducible apply State.catQueueOff_keeps
    | split

theorem State.catQuiesce_keeps {s0 s : State} (h : s0.Keeps s) (q) :
    s0.Keeps (s.catQuiesce q) := by
  delta State.catQuiesce
  repeat' first
    | with_reducible assumption
    | with_reducible apply State.catSettleQueue_keeps
    | with_reducible apply State.setFlag_keeps
    | split

theorem State.catWriteEn_keeps {s0 s : State} (h : s0.Keeps s) (q en) :
    s0.Keeps (s.catWriteEn q en) := by
  delta State.catWriteEn
  repeat' first
    | with_reducible assumption
    | ((fail_if_no_progress (extract_lets +onlyGivenNames x)); first
        | (refine (fun (hk : s0.Keeps x) => ?_) ?_; clear_value x; rotate_left; dsimp -zeta only [x])
        | clear_value x)
    | with_reducible apply State.setFlag_keeps
    | with_reducible apply State.catQueueStart_keeps
    | with_reducible apply State.catQuiesce_keeps
    | split

theorem State.catQueueReset_keeps {s0 s : State} (h : s0.Keeps s) (q records) :
    s0.Keeps (s.catQueueReset q records) := by
  delta State.catQueueReset
  repeat' first
    | with_reducible assumption
    | ((fail_if_no_progress (extract_lets +onlyGivenNames x)); first
        | (refine (fun (hk : s0.Keeps x) => ?_) ?_; clear_value x; rotate_left; dsimp -zeta only [x])
        | clear_value x)
    | with_reducible apply State.beStale_keeps
    | with_reducible apply State.setFlag_keeps
    | with_reducible apply State.count_keeps
    | with_reducible apply State.setCatQueue_keeps
    | with_reducible apply State.catComplete_keeps
    | split
    | (with_reducible refine State.Keeps.foldl ?_ ?_)
    | intro _ _ _

theorem State.catResetDone_keeps {s0 s : State} (h : s0.Keeps s) (q) :
    s0.Keeps (s.catResetDone q) := by
  delta State.catResetDone
  repeat' first
    | with_reducible assumption
    | with_reducible apply State.event_keeps
    | with_reducible apply State.catQueueOff_keeps
    | split

theorem State.catAdvance_keeps {s0 s : State} (h : s0.Keeps s) (q slot opc) :
    s0.Keeps (s.catAdvance q slot opc) := by
  delta State.catAdvance
  repeat' first
    | with_reducible assumption
    | with_reducible apply State.catSettleQueue_keeps
    | with_reducible apply State.catStep_keeps
    | split

theorem State.catMoved_keeps {s0 s : State} (h : s0.Keeps s) (q seq ok lba poison) :
    s0.Keeps (s.catMoved q seq ok lba poison) := by
  delta State.catMoved
  repeat' first
    | with_reducible assumption
    | ((fail_if_no_progress (extract_lets +onlyGivenNames x)); clear_value x)
    | with_reducible apply State.count_keeps
    | with_reducible apply State.putCmd_keeps
    | split

theorem State.catListed_keeps {s0 s : State} (h : s0.Keeps s) (q seq bytes) :
    s0.Keeps (s.catListed q seq bytes) := by
  delta State.catListed
  repeat' first
    | with_reducible assumption
    | ((fail_if_no_progress (extract_lets +onlyGivenNames x)); clear_value x)
    | with_reducible apply State.count_keeps
    | with_reducible apply State.catComplete_keeps
    | with_reducible apply State.catAccept_keeps
    | split

theorem State.storeBytes_keeps {s0 s : State} (h : s0.Keeps s) (a bs mark) :
    s0.Keeps (s.storeBytes a bs mark) := by
  delta State.storeBytes
  repeat' first
    | with_reducible assumption
    | with_reducible apply State.devWrite_keeps

theorem State.catHost_keeps {s0 s : State} (h : s0.Keeps s) (d) :
    s0.Keeps (s.catHost d) := by
  delta State.catHost
  repeat' first
    | with_reducible assumption
    | ((fail_if_no_progress (extract_lets +onlyGivenNames x)); first
        | (refine (fun (hk : s0.Keeps x) => ?_) ?_; clear_value x; rotate_left; dsimp -zeta only [x])
        | clear_value x)
    | with_reducible apply State.catList_keeps
    | with_reducible apply State.catRecord_keeps
    | with_reducible apply State.setCatQueue_keeps
    | with_reducible apply State.catEntry_keeps
    | with_reducible apply State.recordError_keeps
    | with_reducible apply State.catListed_keeps
    | with_reducible apply State.storeBytes_keeps
    | with_reducible apply State.catMoved_keeps
    | split

theorem State.catTransit_keeps {s0 s : State} (h : s0.Keeps s) (d) :
    s0.Keeps (s.catTransit d) := by
  delta State.catTransit
  repeat' first
    | with_reducible assumption
    | ((fail_if_no_progress (extract_lets +onlyGivenNames x)); first
        | (refine (fun (hk : s0.Keeps x.2) => ?_) ?_; clear_value x; rotate_left; dsimp -zeta only [x])
        | clear_value x)
    | with_reducible apply State.count_keeps
    | with_reducible apply State.beEnd_keeps
    | with_reducible apply State.devRead_keeps
    | with_reducible apply State.catListed_keeps
    | with_reducible apply State.setFld_keeps
    | with_reducible apply State.catMoved_keeps
    | split

theorem State.catNotify_keeps {s0 s : State} (h : s0.Keeps s) (cq e) :
    s0.Keeps (s.catNotify cq e) := by
  delta State.catNotify
  repeat' first
    | with_reducible assumption
    | ((fail_if_no_progress (extract_lets +onlyGivenNames x)); first
        | (refine (fun (hk : s0.Keeps x) => ?_) ?_; clear_value x; rotate_left; dsimp -zeta only [x])
        | clear_value x)
    | with_reducible apply State.setFld_keeps
    | with_reducible apply State.recordError_keeps
    | split

theorem State.catConsume_keeps {s0 s : State} (h : s0.Keeps s) :
    s0.Keeps (s.catConsume) := by
  delta State.catConsume
  repeat' first
    | with_reducible assumption
    | ((fail_if_no_progress (extract_lets +onlyGivenNames x)); first
        | (refine (fun (hk : s0.Keeps x) => ?_) ?_; clear_value x; rotate_left; dsimp -zeta only [x])
        | clear_value x)
    | with_reducible apply State.catHost_keeps
    | with_reducible apply State.setPci_keeps
    | with_reducible apply State.catTransit_keeps
    | with_reducible apply State.setTrn_keeps
    | with_reducible apply State.catConnsLost_keeps
    | with_reducible apply State.noteLevels_keeps
    | with_reducible apply State.catSettleQueue_keeps
    | (with_reducible refine State.Keeps.foldl ?_ ?_)
    | intro _ _ _

theorem State.catCellUp_keeps {s0 s : State} (h : s0.Keeps s) :
    s0.Keeps (s.catCellUp) := by
  delta State.catCellUp
  repeat' first
    | with_reducible assumption
    | with_reducible apply State.catQueueStart_keeps
    | split
    | (with_reducible refine State.Keeps.foldl ?_ ?_)
    | intro _ _ _

theorem State.catCellDown_keeps {s0 s : State} (h : s0.Keeps s) :
    s0.Keeps (s.catCellDown) := by
  delta State.catCellDown
  repeat' first
    | with_reducible assumption
    | with_reducible apply State.catQuiesce_keeps
    | (with_reducible refine State.Keeps.foldl ?_ ?_)
    | intro _ _ _

theorem State.catReset_keeps {s0 s : State} (h : s0.Keeps s) :
    s0.Keeps (s.catReset) := by
  delta State.catReset
  repeat' first
    | with_reducible assumption
    | ((fail_if_no_progress (extract_lets +onlyGivenNames x)); first
        | (refine (fun (hk : s0.Keeps x) => ?_) ?_; clear_value x; rotate_left; dsimp -zeta only [x])
        | clear_value x)
    | with_reducible apply State.event_keeps
    | with_reducible apply State.setCat_keeps
    | with_reducible apply State.setReg_keeps
    | (with_reducible refine State.Keeps.foldl ?_ ?_)
    | intro _ _ _

theorem State.catInternalCmd_keeps {s0 s : State} (h : s0.Keeps s) (m entry opc volNo lba nb vol bes buf n inline) :
    s0.Keeps (s.catInternalCmd m entry opc volNo lba nb vol bes buf n inline).2 := by
  delta State.catInternalCmd
  repeat' first
    | with_reducible assumption
    | ((fail_if_no_progress (extract_lets +onlyGivenNames x)); first
        | (refine (fun (hk : s0.Keeps x) => ?_) ?_; clear_value x; rotate_left; dsimp -zeta only [x])
        | clear_value x)
    | with_reducible apply State.count_keeps
    | with_reducible apply State.setCatQueue_keeps
    | with_reducible apply State.catComplete_keeps
    | split

theorem State.catMoverRead_keeps {s0 s : State} (h : s0.Keeps s) (m entry volNo lba nb vol bes buf n) :
    s0.Keeps (s.catMoverRead m entry volNo lba nb vol bes buf n).2 := by
  delta State.catMoverRead
  repeat' first
    | with_reducible assumption
    | with_reducible apply State.catInternalCmd_keeps

end Sys2Proof.Machine
end

