-- ==== Sys2Proof/Laws/KeepsMovers.lean ====
section
/-! SUPPORT. The operations of Machine/Movers.lean keep a state well. -/

namespace Sys2Proof.Machine

open Sys2Proof

theorem State.setMover_keeps {s0 s : State} (h : s0.Keeps s) (m x) :
    s0.Keeps (s.setMover m x) := by
  delta State.setMover
  repeat' first
    | with_reducible assumption
    | fail_if_no_progress (with_reducible apply State.Keeps.upd)

theorem State.movPush_keeps {s0 s : State} (h : s0.Keeps s) (c m ws) :
    s0.Keeps (s.movPush c m ws).2 := by
  delta State.movPush
  repeat' first
    | with_reducible assumption
    | ((fail_if_no_progress (extract_lets +onlyGivenNames x)); first
        | (refine (fun (hk : s0.Keeps x) => ?_) ?_; clear_value x; rotate_left; dsimp -zeta only [x])
        | clear_value x)
    | with_reducible apply State.setMover_keeps
    | with_reducible apply State.noteLevels_keeps
    | with_reducible apply State.setReg_keeps
    | split

theorem State.movPost_keeps {s0 s : State} (h : s0.Keeps s) (m r) :
    s0.Keeps (s.movPost m r) := by
  delta State.movPost
  repeat' first
    | with_reducible assumption
    | ((fail_if_no_progress (extract_lets +onlyGivenNames x)); first
        | (refine (fun (hk : s0.Keeps x) => ?_) ?_; clear_value x; rotate_left; dsimp -zeta only [x])
        | clear_value x)
    | with_reducible apply State.writeRecord_keeps
    | with_reducible apply State.setDone_keeps
    | with_reducible apply State.count_keeps
    | with_reducible apply State.setReg_keeps

theorem State.setRun_keeps {s0 s : State} (h : s0.Keeps s) (m r) :
    s0.Keeps (s.setRun m r) := by
  delta State.setRun
  repeat' first
    | with_reducible assumption
    | ((fail_if_no_progress (extract_lets +onlyGivenNames x)); clear_value x)
    | with_reducible apply State.setMover_keeps

theorem State.movRefuse_keeps {s0 s : State} (h : s0.Keeps s) (m r code) :
    s0.Keeps (s.movRefuse m r code) := by
  delta State.movRefuse
  repeat' first
    | with_reducible assumption
    | with_reducible apply State.refuse_keeps
    | with_reducible apply State.recordError_keeps
    | with_reducible apply State.setRun_keeps

theorem State.movStart_keeps {s0 s : State} (h : s0.Keeps s) (m op go) (hgo : ∀ a t, s0.Keeps t → s0.Keeps (go a t)) :
    s0.Keeps (s.movStart m op go) := by
  delta State.movStart
  repeat' first
    | with_reducible assumption
    | ((fail_if_no_progress (extract_lets +onlyGivenNames x)); first
        | (refine (fun (hk : s0.Keeps x) => ?_) ?_; clear_value x; rotate_left; dsimp -zeta only [x])
        | clear_value x)
    | with_reducible apply State.noteLevels_keeps
    | with_reducible apply State.setMover_keeps
    | with_reducible apply State.movRefuse_keeps
    | with_reducible apply hgo
    | split

theorem State.movComplete_keeps {s0 s : State} (h : s0.Keeps s) (m) :
    s0.Keeps (s.movComplete m) := by
  delta State.movComplete
  repeat' first
    | with_reducible assumption
    | ((fail_if_no_progress (extract_lets +onlyGivenNames x)); clear_value x)
    | with_reducible apply State.noteLevels_keeps
    | with_reducible apply State.movPost_keeps
    | with_reducible apply State.setMover_keeps
    | split

theorem State.movFlush_keeps {s0 s : State} (h : s0.Keeps s) (m) :
    s0.Keeps (s.movFlush m) := by
  delta State.movFlush
  repeat' first
    | with_reducible assumption
    | ((fail_if_no_progress (extract_lets +onlyGivenNames x)); clear_value x)
    | with_reducible apply State.noteLevels_keeps
    | with_reducible apply State.setMover_keeps

theorem State.copyLine_keeps {s0 s : State} (h : s0.Keeps s) (old src dst) :
    s0.Keeps (s.copyLine old src dst).2 := by
  delta State.copyLine
  repeat' first
    | with_reducible assumption
    | ((fail_if_no_progress (extract_lets +onlyGivenNames x)); first
        | (refine (fun (hk : s0.Keeps x) => ?_) ?_; clear_value x; rotate_left; dsimp -zeta only [x])
        | (refine (fun (hk : s0.Keeps x.2) => ?_) ?_; clear_value x; rotate_left; dsimp -zeta only [x])
        | clear_value x)
    | with_reducible apply State.noteRead_keeps
    | with_reducible apply State.free_keeps
    | with_reducible apply State.writeMem_keeps
    | split

theorem State.copyRow_keeps {s0 s : State} (h : s0.Keeps s) (old m r src dst n) :
    s0.Keeps (s.copyRow old m r src dst n).2.2 := by
  induction n generalizing s old m r src dst with
  | zero =>
    rw [State.copyRow.eq_def]
    try dsimp -zeta only
    repeat' first
      | with_reducible assumption
  | succ n ih =>
    rw [State.copyRow.eq_def]
    try dsimp -zeta only
    repeat' first
      | with_reducible assumption
      | ((fail_if_no_progress (extract_lets +onlyGivenNames x)); first
          | (refine (fun (hk : s0.Keeps x) => ?_) ?_; clear_value x; rotate_left; dsimp -zeta only [x])
          | (refine (fun (hk : s0.Keeps x.2) => ?_) ?_; clear_value x; rotate_left; dsimp -zeta only [x])
          | clear_value x)
      | with_reducible apply ih
      | with_reducible apply State.copyLine_keeps
      | with_reducible apply State.count_keeps
      | split

theorem State.copyRows_keeps {s0 s : State} (h : s0.Keeps s) (old m r a) :
    s0.Keeps (s.copyRows old m r a) := by
  induction a generalizing s old m r with
  | nil =>
    rw [State.copyRows.eq_def]
    try dsimp -zeta only
    repeat' first
      | with_reducible assumption
      | with_reducible apply State.setRun_keeps
  | cons a_hd a_tl ih =>
    rw [State.copyRows.eq_def]
    try dsimp -zeta only
    repeat' first
      | with_reducible assumption
      | ((fail_if_no_progress (extract_lets +onlyGivenNames x)); first
          | (refine (fun (hk : s0.Keeps x.2.2) => ?_) ?_; clear_value x; rotate_left; dsimp -zeta only [x])
          | clear_value x)
      | with_reducible apply ih
      | with_reducible apply State.setRun_keeps
      | with_reducible apply State.copyRow_keeps
      | split

theorem State.movCopy_keeps {s0 s : State} (h : s0.Keeps s) (m) :
    s0.Keeps (s.movCopy m) := by
  delta State.movCopy
  repeat' first
    | with_reducible assumption
    | ((fail_if_no_progress (extract_lets +onlyGivenNames x)); clear_value x)
    | with_reducible apply State.movStart_keeps
    | with_reducible apply State.copyRows_keeps
    | intro _ _ _

theorem State.sweepLine_keeps {s0 s : State} (h : s0.Keeps s) (a) :
    s0.Keeps (s.sweepLine a).2.2 := by
  delta State.sweepLine
  repeat' first
    | with_reducible assumption
    | ((fail_if_no_progress (extract_lets +onlyGivenNames x)); first
        | (refine (fun (hk : s0.Keeps x) => ?_) ?_; clear_value x; rotate_left; dsimp -zeta only [x])
        | clear_value x)
    | with_reducible apply State.copyOnWrite_keeps
    | with_reducible apply State.noteRead_keeps
    | with_reducible apply State.writeLine_keeps
    | split

theorem State.sweepRow_keeps {s0 s : State} (h : s0.Keeps s) (m r a n) :
    s0.Keeps (s.sweepRow m r a n).2.2 := by
  induction n generalizing s m r a with
  | zero =>
    rw [State.sweepRow.eq_def]
    try dsimp -zeta only
    repeat' first
      | with_reducible assumption
  | succ n ih =>
    rw [State.sweepRow.eq_def]
    try dsimp -zeta only
    repeat' first
      | with_reducible assumption
      | ((fail_if_no_progress (extract_lets +onlyGivenNames x)); first
          | (refine (fun (hk : s0.Keeps x) => ?_) ?_; clear_value x; rotate_left; dsimp -zeta only [x])
          | (refine (fun (hk : s0.Keeps x.2.2) => ?_) ?_; clear_value x; rotate_left; dsimp -zeta only [x])
          | clear_value x)
      | with_reducible apply ih
      | with_reducible apply State.sweepLine_keeps
      | with_reducible apply State.count_keeps
      | split

theorem State.sweepRows_keeps {s0 s : State} (h : s0.Keeps s) (m r a) :
    s0.Keeps (s.sweepRows m r a) := by
  induction a generalizing s m r with
  | nil =>
    rw [State.sweepRows.eq_def]
    try dsimp -zeta only
    repeat' first
      | with_reducible assumption
      | with_reducible apply State.setRun_keeps
  | cons a_hd a_tl ih =>
    rw [State.sweepRows.eq_def]
    try dsimp -zeta only
    repeat' first
      | with_reducible assumption
      | ((fail_if_no_progress (extract_lets +onlyGivenNames x)); first
          | (refine (fun (hk : s0.Keeps x.2.2) => ?_) ?_; clear_value x; rotate_left; dsimp -zeta only [x])
          | clear_value x)
      | with_reducible apply ih
      | with_reducible apply State.setRun_keeps
      | with_reducible apply State.sweepRow_keeps
      | split

theorem State.movSweep_keeps {s0 s : State} (h : s0.Keeps s) (m) :
    s0.Keeps (s.movSweep m) := by
  delta State.movSweep
  repeat' first
    | with_reducible assumption
    | with_reducible apply State.movStart_keeps
    | with_reducible apply State.sweepRows_keeps
    | intro _ _ _

theorem State.feedSettle_keeps {s0 s : State} (h : s0.Keeps s) (m) :
    s0.Keeps (s.feedSettle m) := by
  delta State.feedSettle
  repeat' first
    | with_reducible assumption
    | ((fail_if_no_progress (extract_lets +onlyGivenNames x)); clear_value x)
    | with_reducible apply State.setRun_keeps
    | with_reducible apply State.movRefuse_keeps
    | split

theorem State.putEntry_keeps {s0 s : State} (h : s0.Keeps s) (m i e) :
    s0.Keeps (s.putEntry m i e) := by
  delta State.putEntry
  repeat' first
    | with_reducible assumption
    | ((fail_if_no_progress (extract_lets +onlyGivenNames x)); clear_value x)
    | with_reducible apply State.feedSettle_keeps
    | with_reducible apply State.setRun_keeps
    | split

theorem State.readEntry_keeps {s0 s : State} (h : s0.Keeps s) (m i) :
    s0.Keeps (s.readEntry m i).2 := by
  delta State.readEntry
  repeat' first
    | with_reducible assumption
    | ((fail_if_no_progress (extract_lets +onlyGivenNames x)); first
        | (refine (fun (hk : s0.Keeps x.2) => ?_) ?_; clear_value x; rotate_left; dsimp -zeta only [x])
        | clear_value x)
    | with_reducible apply State.load_keeps
    | (with_reducible refine State.Keeps.of_eq ?_ (by assumption))
    | (with_reducible refine State.Keeps.of_eq3 ?_ (by assumption))
    | split

theorem State.feedReach_keeps {s0 s : State} (h : s0.Keeps s) (m i kind go) (hgo : ∀ a t, s0.Keeps t → s0.Keeps (go a t)) :
    s0.Keeps (s.feedReach m i kind go) := by
  delta State.feedReach
  repeat' first
    | with_reducible assumption
    | ((fail_if_no_progress (extract_lets +onlyGivenNames x)); first
        | (refine (fun (hk : s0.Keeps x) => ?_) ?_; clear_value x; rotate_left; dsimp -zeta only [x])
        | (refine (fun (hk : s0.Keeps x.2) => ?_) ?_; clear_value x; rotate_left; dsimp -zeta only [x])
        | (refine (fun (hc8 : ∀ t a b, s0.Keeps t → s0.Keeps (x t a b)) => ?_) ?_; clear_value x; rotate_left; intro t a b ht; dsimp -zeta only [x])
        | clear_value x)
    | with_reducible apply State.readEntry_keeps
    | with_reducible apply State.setRun_keeps
    | with_reducible apply State.putEntry_keeps
    | with_reducible apply hgo
    | with_reducible apply hc8
    | split

theorem State.pushBytes_keeps {s0 s : State} (h : s0.Keeps s) (m port mps a peer n poison fuel) :
    s0.Keeps (s.pushBytes m port mps a peer n poison fuel).2.2 := by
  induction fuel generalizing s a peer n poison with
  | zero =>
    rw [State.pushBytes.eq_def]
    try dsimp -zeta only
    repeat' first
      | with_reducible assumption
      | ((fail_if_no_progress (extract_lets +onlyGivenNames x)); first
          | (refine (fun (hk : s0.Keeps x) => ?_) ?_; clear_value x; rotate_left; dsimp -zeta only [x])
          | (refine (fun (hk : s0.Keeps x.2) => ?_) ?_; clear_value x; rotate_left; dsimp -zeta only [x])
          | (refine (fun (hk : s0.Keeps x.2.2) => ?_) ?_; clear_value x; rotate_left; dsimp -zeta only [x])
          | clear_value x
          | skip)
  | succ fuel ih =>
    rw [State.pushBytes.eq_def]
    try dsimp -zeta only
    repeat' first
      | with_reducible assumption
      | with_reducible apply ih
      | ((fail_if_no_progress (extract_lets +onlyGivenNames x)); first
          | (refine (fun (hk : s0.Keeps x) => ?_) ?_; clear_value x; rotate_left; dsimp -zeta only [x])
          | (refine (fun (hk : s0.Keeps x.2.2) => ?_) ?_; clear_value x; rotate_left; dsimp -zeta only [x])
          | clear_value x)
      | with_reducible apply State.readMem_keeps
      | with_reducible apply State.sendTlp_keeps
      | split

theorem State.feedPush_keeps {s0 s : State} (h : s0.Keeps s) (m i) :
    s0.Keeps (s.feedPush m i) := by
  delta State.feedPush
  repeat' first
    | with_reducible assumption
    | ((fail_if_no_progress (extract_lets +onlyGivenNames x)); first
        | (refine (fun (hk : s0.Keeps x) => ?_) ?_; clear_value x; rotate_left; dsimp -zeta only [x])
        | (refine (fun (hk : s0.Keeps x.2.2) => ?_) ?_; clear_value x; rotate_left; dsimp -zeta only [x])
        | clear_value x)
    | with_reducible apply State.feedReach_keeps
    | with_reducible apply State.putEntry_keeps
    | with_reducible apply State.pushBytes_keeps
    | with_reducible apply State.setRun_keeps
    | with_reducible apply State.count_keeps
    | (with_reducible refine State.Keeps.of_eq ?_ (by assumption))
    | (with_reducible refine State.Keeps.of_eq3 ?_ (by assumption))
    | split
    | intro _ _ _

theorem State.volumePump_keeps {s0 s : State} (h : s0.Keeps s) (m i e vol bes fuel) :
    s0.Keeps (s.volumePump m i e vol bes fuel) := by
  induction fuel generalizing s m i e vol bes with
  | zero =>
    rw [State.volumePump.eq_def]
    try dsimp -zeta only
    repeat' first
      | with_reducible assumption
  | succ fuel ih =>
    rw [State.volumePump.eq_def]
    try dsimp -zeta only
    repeat' first
      | with_reducible assumption
      | ((fail_if_no_progress (extract_lets +onlyGivenNames x)); first
          | (refine (fun (hk : s0.Keeps x.2) => ?_) ?_; clear_value x; rotate_left; dsimp -zeta only [x])
          | clear_value x)
      | with_reducible apply ih
      | with_reducible apply State.catMoverRead_keeps
      | with_reducible apply State.putEntry_keeps
      | split

theorem State.movTakeOne_keeps {s0 s : State} (h : s0.Keeps s) (d) :
    s0.Keeps (s.movTakeOne d) := by
  delta State.movTakeOne
  repeat' first
    | with_reducible assumption
    | ((fail_if_no_progress (extract_lets +onlyGivenNames x)); first
        | (refine (fun (hk : s0.Keeps x) => ?_) ?_; clear_value x; rotate_left; dsimp -zeta only [x])
        | clear_value x)
    | with_reducible apply State.putEntry_keeps
    | with_reducible apply State.count_keeps
    | with_reducible apply State.setRun_keeps
    | split

theorem State.movTake_keeps {s0 s : State} (h : s0.Keeps s) :
    s0.Keeps (s.movTake) := by
  delta State.movTake
  repeat' first
    | with_reducible assumption
    | ((fail_if_no_progress (extract_lets +onlyGivenNames x)); clear_value x)
    | with_reducible apply State.movTakeOne_keeps
    | with_reducible apply State.setCat_keeps
    | (with_reducible refine State.Keeps.foldl ?_ ?_)
    | intro _ _ _

theorem State.feedVolume_keeps {s0 s : State} (h : s0.Keeps s) (m i) :
    s0.Keeps (s.feedVolume m i) := by
  delta State.feedVolume
  repeat' first
    | with_reducible assumption
    | ((fail_if_no_progress (extract_lets +onlyGivenNames x)); first
        | (refine (fun (hk : s0.Keeps x.2.2) => ?_) ?_; clear_value x; rotate_left; dsimp -zeta only [x])
        | (refine (fun (hc5 : ∀ a t, s0.Keeps t → s0.Keeps (x a t)) => ?_) ?_; clear_value x; rotate_left; intro a t ht; dsimp -zeta only [x]))
    | with_reducible apply State.catTables_keeps
    | with_reducible apply State.movTake_keeps
    | with_reducible apply State.volumePump_keeps
    | with_reducible apply State.feedReach_keeps
    | with_reducible apply hc5
    | split

theorem State.feedFlush_keeps {s0 s : State} (h : s0.Keeps s) (m i) :
    s0.Keeps (s.feedFlush m i) := by
  delta State.feedFlush
  repeat' first
    | with_reducible assumption
    | with_reducible apply State.feedReach_keeps
    | with_reducible apply State.putEntry_keeps
    | with_reducible apply State.sendTlp_keeps
    | with_reducible apply State.noteTlp_keeps
    | split
    | intro _ _ _

theorem State.flushEnd_keeps {s0 s : State} (h : s0.Keeps s) (m i info) :
    s0.Keeps (s.flushEnd m i info) := by
  delta State.flushEnd
  repeat' first
    | with_reducible assumption
    | with_reducible apply State.putEntry_keeps
    | split

theorem State.feedWait_keeps {s0 s : State} (h : s0.Keeps s) (m i) :
    s0.Keeps (s.feedWait m i) := by
  delta State.feedWait
  repeat' first
    | with_reducible assumption
    | ((fail_if_no_progress (extract_lets +onlyGivenNames x)); refine (fun (hc5 : ∀ a t, s0.Keeps t → s0.Keeps (x a t)) => ?_) ?_; clear_value x; rotate_left; intro a t ht; dsimp -zeta only [x])
    | with_reducible apply State.putEntry_keeps
    | with_reducible apply State.feedReach_keeps
    | with_reducible apply hc5
    | split

theorem State.movPortLost_keeps {s0 s : State} (h : s0.Keeps s) (port) :
    s0.Keeps (s.movPortLost port) := by
  delta State.movPortLost
  repeat' first
    | with_reducible assumption
    | ((fail_if_no_progress (extract_lets +onlyGivenNames x)); clear_value x)
    | with_reducible apply State.flushEnd_keeps
    | (with_reducible refine State.Keeps.foldl ?_ ?_)
    | intro _ _ _

theorem State.movDropReads_keeps {s0 s : State} (h : s0.Keeps s) (m) :
    s0.Keeps (s.movDropReads m) := by
  delta State.movDropReads
  repeat' first
    | with_reducible assumption
    | ((fail_if_no_progress (extract_lets +onlyGivenNames x)); first
        | (refine (fun (hk : s0.Keeps x) => ?_) ?_; clear_value x; rotate_left; dsimp -zeta only [x])
        | clear_value x)
    | with_reducible apply State.beStale_keeps
    | with_reducible apply State.setCatQueue_keeps
    | with_reducible apply State.setCat_keeps

theorem State.movFaulted_keeps {s0 s : State} (h : s0.Keeps s) (m) :
    s0.Keeps (s.movFaulted m) := by
  delta State.movFaulted
  repeat' first
    | with_reducible assumption
    | with_reducible apply State.movDropReads_keeps
    | with_reducible apply State.setRun_keeps
    | split

theorem State.movReset_keeps {s0 s : State} (h : s0.Keeps s) (m) :
    s0.Keeps (s.movReset m) := by
  delta State.movReset
  repeat' first
    | with_reducible assumption
    | ((fail_if_no_progress (extract_lets +onlyGivenNames x)); first
        | (refine (fun (hk : s0.Keeps x) => ?_) ?_; clear_value x; rotate_left; dsimp -zeta only [x]))
    | with_reducible apply State.movDropReads_keeps
    | with_reducible apply State.setMover_keeps
    | with_reducible apply State.setCatQueue_keeps
    | with_reducible apply State.noteLevels_keeps
    | with_reducible apply State.setReg_keeps

theorem execMoverCopy_keeps {s0 s : State} (h : s0.Keeps s) (m) :
    ∃ s', execMoverCopy m s = .next s' ∧ s0.Keeps s' := by
  refine ⟨_, rfl, ?_⟩
  repeat' first
    | with_reducible assumption
    | with_reducible apply State.movCopy_keeps

theorem execMoverSweep_keeps {s0 s : State} (h : s0.Keeps s) (m) :
    ∃ s', execMoverSweep m s = .next s' ∧ s0.Keeps s' := by
  refine ⟨_, rfl, ?_⟩
  repeat' first
    | with_reducible assumption
    | with_reducible apply State.movSweep_keeps

theorem execMoverFeed_keeps {s0 s : State} (h : s0.Keeps s) (m) :
    ∃ s', execMoverFeed m s = .next s' ∧ s0.Keeps s' := by
  refine ⟨_, rfl, ?_⟩
  repeat' first
    | with_reducible assumption
    | with_reducible apply State.movStart_keeps
    | intro _ _ _

theorem execMoverComplete_keeps {s0 s : State} (h : s0.Keeps s) (m) :
    ∃ s', execMoverComplete m s = .next s' ∧ s0.Keeps s' := by
  refine ⟨_, rfl, ?_⟩
  repeat' first
    | with_reducible assumption
    | with_reducible apply State.movComplete_keeps
    | with_reducible apply State.movTake_keeps
    | split

theorem execFeedPush_keeps {s0 s : State} (h : s0.Keeps s) (m entry) :
    ∃ s', execFeedPush m entry s = .next s' ∧ s0.Keeps s' := by
  refine ⟨_, rfl, ?_⟩
  repeat' first
    | with_reducible assumption
    | with_reducible apply State.feedPush_keeps
    | split

theorem execFeedVolume_keeps {s0 s : State} (h : s0.Keeps s) (m entry) :
    ∃ s', execFeedVolume m entry s = .next s' ∧ s0.Keeps s' := by
  refine ⟨_, rfl, ?_⟩
  repeat' first
    | with_reducible assumption
    | with_reducible apply State.feedVolume_keeps
    | with_reducible apply State.movTake_keeps
    | split

theorem execFeedFlush_keeps {s0 s : State} (h : s0.Keeps s) (m entry) :
    ∃ s', execFeedFlush m entry s = .next s' ∧ s0.Keeps s' := by
  refine ⟨_, rfl, ?_⟩
  repeat' first
    | with_reducible assumption
    | with_reducible apply State.feedFlush_keeps
    | split

theorem State.flushAnswer_keeps {s0 s : State} (h : s0.Keeps s) (m i ok) : s0.Keeps (s.flushAnswer m i ok) := by
  delta State.flushAnswer
  repeat' first
    | with_reducible assumption
    | with_reducible apply State.flushEnd_keeps
    | with_reducible apply State.noteTlp_keeps
    | split

theorem execFeedFlushCompletion_keeps {s0 s : State} (h : s0.Keeps s) (m entry ok) :
    ∃ s', execFeedFlushCompletion m entry ok s = .next s' ∧ s0.Keeps s' := by
  refine ⟨_, rfl, ?_⟩
  repeat' first
    | with_reducible assumption
    | with_reducible apply State.flushAnswer_keeps
    | split

theorem execFeedWait_keeps {s0 s : State} (h : s0.Keeps s) (m entry) :
    ∃ s', execFeedWait m entry s = .next s' ∧ s0.Keeps s' := by
  refine ⟨_, rfl, ?_⟩
  repeat' first
    | with_reducible assumption
    | with_reducible apply State.feedWait_keeps
    | split

end Sys2Proof.Machine
end

