-- ==== Sys2Proof/Laws/KeepsEphemeris.lean ====
section
/-! SUPPORT. The operations of Machine/Ephemeris.lean keep a state well. -/

namespace Sys2Proof.Machine

open Sys2Proof

theorem State.setEph_keeps {s0 s : State} (h : s0.Keeps s) (x) :
    s0.Keeps (s.setEph x) := by
  delta State.setEph
  repeat' first
    | with_reducible assumption
    | fail_if_no_progress (with_reducible apply State.Keeps.upd)

theorem State.ephBytes_keeps {s0 s : State} (h : s0.Keeps s) (a n) :
    s0.Keeps (s.ephBytes a n).2 := by
  delta State.ephBytes
  repeat' first
    | with_reducible assumption
    | with_reducible apply State.devRead_keeps
    | (with_reducible refine State.Keeps.of_eq ?_ (by assumption))
    | split

theorem State.jobRead_keeps {s0 s : State} (h : s0.Keeps s) :
    s0.Keeps (s.jobRead).2 := by
  delta State.jobRead
  repeat' first
    | with_reducible assumption
    | ((fail_if_no_progress (extract_lets +onlyGivenNames x)); clear_value x)
    | with_reducible apply State.ephBytes_keeps
    | (with_reducible refine State.Keeps.of_eq ?_ (by assumption))
    | split

theorem State.epochEnd_keeps {s0 s : State} (h : s0.Keeps s) :
    s0.Keeps (s.epochEnd) := by
  delta State.epochEnd
  repeat' first
    | with_reducible assumption
    | with_reducible apply State.noteLevels_keeps
    | with_reducible apply State.setReg_keeps
    | fail_if_no_progress (with_reducible apply State.Keeps.upd)

theorem State.ephId_keeps {s0 s : State} (h : s0.Keeps s) :
    s0.Keeps (s.ephId).2 := by
  delta State.ephId
  repeat' first
    | with_reducible assumption
    | ((fail_if_no_progress (extract_lets +onlyGivenNames x)); clear_value x)
    | with_reducible apply State.setEph_keeps

theorem State.ephCat_keeps {s0 s : State} (h : s0.Keeps s) (opc off len bs) :
    s0.Keeps (s.ephCat opc off len bs).2 := by
  delta State.ephCat
  repeat' first
    | with_reducible assumption
    | ((fail_if_no_progress (extract_lets +onlyGivenNames x)); first
        | (refine (fun (hk : s0.Keeps x) => ?_) ?_; clear_value x; rotate_left; dsimp -zeta only [x])
        | (refine (fun (hk : s0.Keeps x.2.2) => ?_) ?_; clear_value x; rotate_left; dsimp -zeta only [x])
        | clear_value x)
    | with_reducible apply State.catTables_keeps
    | with_reducible apply State.ephId_keeps
    | with_reducible apply State.catInternalCmd_keeps
    | split

theorem State.ephBuddy_keeps {s0 s : State} (h : s0.Keeps s) (off len bs) :
    s0.Keeps (s.ephBuddy off len bs).2 := by
  delta State.ephBuddy
  repeat' first
    | with_reducible assumption
    | ((fail_if_no_progress (extract_lets +onlyGivenNames x)); clear_value x)
    | with_reducible apply State.ephId_keeps
    | with_reducible apply State.startWrite_keeps
    | with_reducible apply State.startRead_keeps
    | (with_reducible refine State.Keeps.of_eq ?_ (by assumption))
    | split

theorem State.ephWrite_keeps {s0 s : State} (h : s0.Keeps s) (d slot off bs) :
    s0.Keeps (s.ephWrite d slot off bs).2 := by
  delta State.ephWrite
  repeat' first
    | with_reducible assumption
    | ((fail_if_no_progress (extract_lets +onlyGivenNames x)); clear_value x)
    | with_reducible apply State.ephCat_keeps
    | with_reducible apply State.ephBuddy_keeps
    | split

theorem State.ephReadFrom_keeps {s0 s : State} (h : s0.Keeps s) (src slot off len) :
    s0.Keeps (s.ephReadFrom src slot off len) := by
  delta State.ephReadFrom
  repeat' first
    | with_reducible assumption
    | ((fail_if_no_progress (extract_lets +onlyGivenNames x)); clear_value x)
    | with_reducible apply State.setEph_keeps

theorem State.ephReadStep_keeps {s0 s : State} (h : s0.Keeps s) (r) :
    s0.Keeps (s.ephReadStep r) := by
  delta State.ephReadStep
  repeat' first
    | with_reducible assumption
    | ((fail_if_no_progress (extract_lets +onlyGivenNames x)); first
        | (refine (fun (hk : s0.Keeps x) => ?_) ?_; clear_value x; rotate_left; dsimp -zeta only [x])
        | (refine (fun (hk : s0.Keeps x.2) => ?_) ?_; clear_value x; rotate_left; dsimp -zeta only [x])
        | clear_value x)
    | with_reducible apply State.setEph_keeps
    | with_reducible apply State.ephCat_keeps
    | with_reducible apply State.ephBuddy_keeps
    | split

theorem State.ephPiece_keeps {s0 s : State} (h : s0.Keeps s) (r ok) :
    s0.Keeps (s.ephPiece r ok) := by
  delta State.ephPiece
  repeat' first
    | with_reducible assumption
    | ((fail_if_no_progress (extract_lets +onlyGivenNames x)); clear_value x)
    | with_reducible apply State.setEph_keeps

theorem State.scanFeed_keeps {s0 s : State} (h : s0.Keeps s) (sc r) :
    s0.Keeps (s.scanFeed sc r) := by
  delta State.scanFeed
  repeat' first
    | with_reducible assumption
    | ((fail_if_no_progress (extract_lets +onlyGivenNames x)); clear_value x)
    | with_reducible apply State.setEph_keeps

theorem State.noteCommits_keeps {s0 s : State} (h : s0.Keeps s) (cands) :
    s0.Keeps (s.noteCommits cands) := by
  delta State.noteCommits
  repeat' first
    | with_reducible assumption
    | ((fail_if_no_progress (extract_lets +onlyGivenNames x)); refine (fun (hk : s0.Keeps x) => ?_) ?_; clear_value x; rotate_left; dsimp -zeta only [x])
    | with_reducible apply State.setFld_keeps
    | with_reducible apply State.setFlag_keeps
    | split
    | (with_reducible refine State.Keeps.foldl ?_ ?_)
    | intro _ _ _

theorem State.ephAnswer_keeps {s0 s : State} (h : s0.Keeps s) (fs) :
    s0.Keeps (s.ephAnswer fs) := by
  delta State.ephAnswer
  repeat' first
    | with_reducible assumption
    | ((fail_if_no_progress (extract_lets +onlyGivenNames x)); refine (fun (hk : s0.Keeps x) => ?_) ?_; clear_value x; rotate_left; dsimp -zeta only [x])
    | with_reducible apply State.devWrite_keeps
    | with_reducible apply State.setFld_keeps
    | with_reducible apply State.notifyBit_keeps

theorem State.restoreEnd_keeps {s0 s : State} (h : s0.Keeps s) (r status step) :
    s0.Keeps (s.restoreEnd r status step) := by
  delta State.restoreEnd
  repeat' first
    | with_reducible assumption
    | ((fail_if_no_progress (extract_lets +onlyGivenNames x)); first
        | (refine (fun (hk : s0.Keeps x) => ?_) ?_; clear_value x; rotate_left; dsimp -zeta only [x])
        | clear_value x)
    | with_reducible apply State.count_keeps
    | with_reducible apply State.setEph_keeps
    | with_reducible apply State.ephAnswer_keeps

theorem State.shardWrite_keeps {s0 s : State} (h : s0.Keeps s) (rs g n a) :
    s0.Keeps (s.shardWrite rs g n a).2 := by
  induction n generalizing s rs g a with
  | zero =>
    rw [State.shardWrite.eq_def]
    try dsimp -zeta only
    repeat' first
      | with_reducible assumption
  | succ n ih =>
    rw [State.shardWrite.eq_def]
    try dsimp -zeta only
    repeat' first
      | with_reducible assumption
      | ((fail_if_no_progress (extract_lets +onlyGivenNames x)); refine (fun (hk : s0.Keeps x.2) => ?_) ?_; clear_value x; rotate_left; dsimp -zeta only [x])
      | with_reducible apply ih
      | with_reducible apply State.devWrite_keeps
      | split

theorem State.restoreFeed_keeps {s0 s : State} (h : s0.Keeps s) (x r) :
    s0.Keeps (s.restoreFeed x r) := by
  delta State.restoreFeed
  repeat' first
    | with_reducible assumption
    | ((fail_if_no_progress (extract_lets +onlyGivenNames x)); first
        | (refine (fun (hk : s0.Keeps x) => ?_) ?_; clear_value x; rotate_left; dsimp -zeta only [x])
        | (refine (fun (hk : s0.Keeps x.2) => ?_) ?_; clear_value x; rotate_left; dsimp -zeta only [x])
        | clear_value x)
    | with_reducible apply State.shardWrite_keeps
    | with_reducible apply State.setEph_keeps
    | with_reducible apply State.restoreEnd_keeps
    | split

theorem State.restoreNext_keeps {s0 s : State} (h : s0.Keeps s) (x) :
    s0.Keeps (s.restoreNext x) := by
  delta State.restoreNext
  repeat' first
    | with_reducible assumption
    | ((fail_if_no_progress (extract_lets +onlyGivenNames x)); first
        | (refine (fun (hk : s0.Keeps x) => ?_) ?_; clear_value x; rotate_left; dsimp -zeta only [x])
        | clear_value x)
    | with_reducible apply State.restoreEnd_keeps
    | with_reducible apply State.setEph_keeps
    | with_reducible apply State.ephReadFrom_keeps
    | split
    | fail_if_no_progress (with_reducible apply State.Keeps.upd)

theorem State.scanNext_keeps {s0 s : State} (h : s0.Keeps s) (sc) :
    s0.Keeps (s.scanNext sc) := by
  delta State.scanNext
  repeat' first
    | with_reducible assumption
    | ((fail_if_no_progress (extract_lets +onlyGivenNames x)); first
        | (refine (fun (hk : s0.Keeps x) => ?_) ?_; clear_value x; rotate_left; dsimp -zeta only [x])
        | clear_value x)
    | with_reducible apply State.ephReadFrom_keeps
    | with_reducible apply State.setEph_keeps
    | with_reducible apply State.noteCommits_keeps
    | split

theorem State.ephGo_keeps {s0 s : State} (h : s0.Keeps s) (fuel) :
    s0.Keeps (s.ephGo fuel) := by
  induction fuel generalizing s with
  | zero =>
    rw [State.ephGo.eq_def]
    try dsimp -zeta only
    repeat' first
      | with_reducible assumption
  | succ fuel ih =>
    rw [State.ephGo.eq_def]
    try dsimp -zeta only
    repeat' first
      | with_reducible assumption
      | ((fail_if_no_progress (extract_lets +onlyGivenNames x)); first
          | (refine (fun (hk : s0.Keeps x) => ?_) ?_; clear_value x; rotate_left; dsimp -zeta only [x])
          | clear_value x)
      | with_reducible apply ih
      | with_reducible apply State.scanFeed_keeps
      | with_reducible apply State.restoreFeed_keeps
      | with_reducible apply State.setEph_keeps
      | with_reducible apply State.ephReadStep_keeps
      | with_reducible apply State.scanNext_keeps
      | with_reducible apply State.restoreNext_keeps
      | split

theorem State.setDrain_keeps {s0 s : State} (h : s0.Keeps s) (d) :
    s0.Keeps (s.setDrain d) := by
  delta State.setDrain
  repeat' first
    | with_reducible assumption
    | ((fail_if_no_progress (extract_lets +onlyGivenNames x)); clear_value x)
    | with_reducible apply State.drain_keeps
    | with_reducible apply State.setEph_keeps

theorem State.destEnd_keeps {s0 s : State} (h : s0.Keeps s) (d status) :
    s0.Keeps (s.destEnd d status) := by
  delta State.destEnd
  repeat' first
    | with_reducible assumption
    | ((fail_if_no_progress (extract_lets +onlyGivenNames x)); refine (fun (hk : s0.Keeps x) => ?_) ?_; clear_value x; rotate_left; dsimp -zeta only [x])
    | with_reducible apply State.drain_keeps
    | with_reducible apply State.setDrain_keeps
    | with_reducible apply State.count_keeps
    | with_reducible apply State.setFld_keeps
    | with_reducible apply State.setFlag_keeps
    | split

theorem State.drainFail_keeps {s0 s : State} (h : s0.Keeps s) (status) :
    s0.Keeps (s.drainFail status) := by
  delta State.drainFail
  repeat' first
    | with_reducible assumption
    | with_reducible apply State.destEnd_keeps

theorem State.destOp_keeps {s0 s : State} (h : s0.Keeps s) (d x next op) (hop : s0.Keeps op.2) :
    s0.Keeps (s.destOp d x next op) := by
  delta State.destOp
  repeat' first
    | with_reducible assumption
    | with_reducible apply State.drain_keeps
    | with_reducible apply State.destEnd_keeps
    | with_reducible apply State.setDrain_keeps
    | split

theorem State.mark_keeps {s0 s : State} (h : s0.Keeps s) (st) :
    s0.Keeps (s.mark st) := by
  delta State.mark
  repeat' first
    | with_reducible assumption
    | ((fail_if_no_progress (extract_lets +onlyGivenNames x)); first
        | (refine (fun (hk : s0.Keeps x) => ?_) ?_; clear_value x; rotate_left; dsimp -zeta only [x])
        | (refine (fun (hk : s0.Keeps x.2) => ?_) ?_; clear_value x; rotate_left; dsimp -zeta only [x])
        | clear_value x)
    | with_reducible apply State.devRead_keeps
    | with_reducible apply State.epochEnd_keeps
    | with_reducible apply State.setReg_keeps
    | with_reducible apply State.setFld_keeps
    | with_reducible apply State.ephBytes_keeps
    | with_reducible apply State.noteLevels_keeps
    | with_reducible apply State.setDrain_keeps
    | with_reducible apply State.drainFail_keeps
    | split
    | fail_if_no_progress (with_reducible apply State.Keeps.upd)

theorem State.destBegin_keeps {s0 s : State} (h : s0.Keeps s) (d) :
    s0.Keeps (s.destBegin d) := by
  delta State.destBegin
  repeat' first
    | with_reducible assumption
    | with_reducible apply State.drain_keeps
    | with_reducible apply State.destEnd_keeps
    | with_reducible apply State.destOp_keeps
    | with_reducible apply State.ephWrite_keeps
    | with_reducible apply State.ephCat_keeps
    | with_reducible apply State.setDrain_keeps
    | split

theorem State.drainRead_keeps {s0 s : State} (h : s0.Keeps s) (g) :
    s0.Keeps (s.drainRead g).2 := by
  delta State.drainRead
  repeat' first
    | with_reducible assumption
    | ((fail_if_no_progress (extract_lets +onlyGivenNames x)); clear_value x)
    | with_reducible apply State.load_keeps
    | (with_reducible refine State.Keeps.of_eq ?_ (by assumption))
    | split

theorem State.drainWrite_keeps {s0 s : State} (h : s0.Keeps s) (off bs next) :
    s0.Keeps (s.drainWrite off bs next) := by
  delta State.drainWrite
  repeat' first
    | with_reducible assumption
    | ((fail_if_no_progress (extract_lets +onlyGivenNames x)); refine (fun (hk : s0.Keeps x) => ?_) ?_; clear_value x; rotate_left; dsimp -zeta only [x])
    | with_reducible apply State.drain_keeps
    | with_reducible apply State.count_keeps
    | with_reducible apply State.destOp_keeps
    | with_reducible apply State.ephWrite_keeps
    | split
    | (with_reducible refine State.Keeps.foldl ?_ ?_)
    | intro _ _ _

theorem State.drainStep_keeps {s0 s : State} (h : s0.Keeps s) :
    s0.Keeps (s.drainStep) := by
  delta State.drainStep
  repeat' first
    | with_reducible assumption
    | ((fail_if_no_progress (extract_lets +onlyGivenNames x)); first
        | (refine (fun (hk : s0.Keeps x) => ?_) ?_; clear_value x; rotate_left; dsimp -zeta only [x])
        | clear_value x
        | skip)
    | with_reducible apply State.drain_keeps
    | with_reducible apply State.drainWrite_keeps
    | with_reducible apply State.setDrain_keeps
    | with_reducible apply State.drainRead_keeps
    | with_reducible apply State.epochEnd_keeps
    | with_reducible apply State.drainFail_keeps
    | with_reducible apply State.count_keeps
    | with_reducible apply State.setFld_keeps
    | (with_reducible refine State.Keeps.of_eq ?_ (by assumption))
    | split

theorem State.destCommit_keeps {s0 s : State} (h : s0.Keeps s) (d) :
    s0.Keeps (s.destCommit d) := by
  delta State.destCommit
  repeat' first
    | with_reducible assumption
    | ((fail_if_no_progress (extract_lets +onlyGivenNames x)); refine (fun (hc7 : ∀ u : Unit, s0.Keeps (x u)) => ?_) ?_; clear_value x; rotate_left; intro u; dsimp -zeta only [x])
    | with_reducible apply State.drain_keeps
    | with_reducible apply State.destOp_keeps
    | with_reducible apply State.ephWrite_keeps
    | with_reducible apply State.ephCat_keeps
    | with_reducible apply State.destEnd_keeps
    | with_reducible apply hc7
    | split

theorem State.drainEnd_keeps {s0 s : State} (h : s0.Keeps s) :
    s0.Keeps (s.drainEnd) := by
  delta State.drainEnd
  repeat' first
    | with_reducible assumption
    | ((fail_if_no_progress (extract_lets +onlyGivenNames x)); clear_value x)
    | with_reducible apply State.drain_keeps
    | with_reducible apply State.noteLevels_keeps
    | with_reducible apply State.event_keeps
    | with_reducible apply State.setEph_keeps
    | split

theorem State.ephOpDrain_keeps {s0 s : State} (h : s0.Keeps s) (id ok) :
    s0.Keeps (s.ephOpDrain id ok) := by
  delta State.ephOpDrain
  repeat' first
    | with_reducible assumption
    | with_reducible apply State.drain_keeps
    | with_reducible apply State.count_keeps
    | with_reducible apply State.setDrain_keeps
    | with_reducible apply State.destEnd_keeps
    | split

theorem State.ephOpDone_keeps {s0 s : State} (h : s0.Keeps s) (id ok) :
    s0.Keeps (s.ephOpDone id ok) := by
  delta State.ephOpDone
  repeat' first
    | with_reducible assumption
    | with_reducible apply State.ephPiece_keeps
    | with_reducible apply State.ephOpDrain_keeps
    | split

theorem State.ephCopyFailed_keeps {s0 s : State} (h : s0.Keeps s) :
    s0.Keeps (s.ephCopyFailed) := by
  delta State.ephCopyFailed
  repeat' first
    | with_reducible assumption
    | ((fail_if_no_progress (extract_lets +onlyGivenNames x)); clear_value x)
    | with_reducible apply State.epochEnd_keeps
    | with_reducible apply State.drainFail_keeps
    | split
    | fail_if_no_progress (with_reducible apply State.Keeps.upd)

theorem State.ephTake_keeps {s0 s : State} (h : s0.Keeps s) :
    s0.Keeps (s.ephTake) := by
  delta State.ephTake
  repeat' first
    | with_reducible assumption
    | ((fail_if_no_progress (extract_lets +onlyGivenNames x)); first
        | (refine (fun (hk : s0.Keeps x) => ?_) ?_; clear_value x; rotate_left; dsimp -zeta only [x])
        | clear_value x)
    | with_reducible apply State.setCat_keeps
    | with_reducible apply State.ephOpDone_keeps
    | with_reducible apply State.setTrn_keeps
    | with_reducible apply State.ephGo_keeps
    | with_reducible apply State.destBegin_keeps
    | with_reducible apply State.ephCopyFailed_keeps
    | (with_reducible refine State.Keeps.foldl ?_ ?_)
    | intro _ _ _

theorem State.ephEntry_keeps {s0 s : State} (h : s0.Keeps s) (mine) :
    s0.Keeps (s.ephEntry mine).2 := by
  delta State.ephEntry
  repeat' first
    | with_reducible assumption
    | ((fail_if_no_progress (extract_lets +onlyGivenNames x)); clear_value x)
    | with_reducible apply State.devRead_keeps
    | with_reducible apply State.recordError_keeps
    | (with_reducible refine State.Keeps.of_eq ?_ (by assumption))
    | split

theorem State.ephBoundary_keeps {s0 s : State} (h : s0.Keeps s) :
    s0.Keeps (s.ephBoundary) := by
  delta State.ephBoundary
  repeat' first
    | with_reducible assumption
    | ((fail_if_no_progress (extract_lets +onlyGivenNames x)); first
        | (refine (fun (hk : s0.Keeps x) => ?_) ?_; clear_value x; rotate_left; dsimp -zeta only [x])
        | clear_value x)
    | with_reducible apply State.drain_keeps
    | with_reducible apply State.ephEntry_keeps
    | with_reducible apply State.ephAnswer_keeps
    | with_reducible apply State.count_keeps
    | with_reducible apply State.ephTake_keeps
    | with_reducible apply State.mark_keeps
    | (with_reducible refine State.Keeps.of_eq ?_ (by assumption))
    | split

theorem State.rollGranule_keeps {s0 s : State} (h : s0.Keeps s) (g) :
    s0.Keeps (s.rollGranule g).2 := by
  delta State.rollGranule
  repeat' first
    | with_reducible assumption
    | ((fail_if_no_progress (extract_lets +onlyGivenNames x)); clear_value x)
    | with_reducible apply State.count_keeps
    | with_reducible apply State.copyLines_keeps
    | split

theorem State.ephRollback_keeps {s0 s : State} (h : s0.Keeps s) :
    s0.Keeps (s.ephRollback) := by
  delta State.ephRollback
  repeat' first
    | with_reducible assumption
    | ((fail_if_no_progress (extract_lets +onlyGivenNames x)); first
        | (refine (fun (hk : s0.Keeps x) => ?_) ?_; clear_value x; rotate_left; dsimp -zeta only [x])
        | (refine (fun (hk : s0.Keeps x.2) => ?_) ?_; clear_value x; rotate_left; dsimp -zeta only [x])
        | (refine (fun (hk : s0.Keeps x.2.2) => ?_) ?_; clear_value x; rotate_left; dsimp -zeta only [x])
        | clear_value x)
    | with_reducible apply State.ephEntry_keeps
    | with_reducible apply State.ephAnswer_keeps
    | with_reducible apply State.rollGranule_keeps
    | (with_reducible refine State.Keeps.of_eq ?_ (by assumption))
    | split
    | (with_reducible refine State.Keeps.foldl_triple ?_ ?_)
    | intro _ _ _

theorem State.ephRestore_keeps {s0 s : State} (h : s0.Keeps s) :
    s0.Keeps (s.ephRestore) := by
  delta State.ephRestore
  repeat' first
    | with_reducible assumption
    | ((fail_if_no_progress (extract_lets +onlyGivenNames x)); first
        | (refine (fun (hk : s0.Keeps x) => ?_) ?_; clear_value x; rotate_left; dsimp -zeta only [x])
        | clear_value x)
    | with_reducible apply State.drain_keeps
    | with_reducible apply State.ephTake_keeps
    | with_reducible apply State.ephEntry_keeps
    | with_reducible apply State.ephAnswer_keeps
    | with_reducible apply State.count_keeps
    | with_reducible apply State.epochEnd_keeps
    | with_reducible apply State.setEph_keeps
    | (with_reducible refine State.Keeps.of_eq ?_ (by assumption))
    | split

theorem State.ephEndEpoch_keeps {s0 s : State} (h : s0.Keeps s) :
    s0.Keeps (s.ephEndEpoch) := by
  delta State.ephEndEpoch
  repeat' first
    | with_reducible assumption
    | with_reducible apply State.ephEntry_keeps
    | with_reducible apply State.ephAnswer_keeps
    | with_reducible apply State.epochEnd_keeps
    | with_reducible apply State.drainFail_keeps
    | (with_reducible refine State.Keeps.of_eq ?_ (by assumption))
    | split

theorem State.ephPoll_keeps {s0 s : State} (h : s0.Keeps s) :
    s0.Keeps (s.ephPoll) := by
  delta State.ephPoll
  repeat' first
    | with_reducible assumption
    | with_reducible apply State.readDoorbell_keeps
    | with_reducible apply State.setFld_keeps
    | (with_reducible refine State.Keeps.of_eq ?_ (by assumption))
    | split

theorem State.ephEnable_keeps {s0 s : State} (h : s0.Keeps s) :
    s0.Keeps (s.ephEnable) := by
  delta State.ephEnable
  repeat' first
    | with_reducible assumption
    | with_reducible apply State.setFld_keeps

theorem State.warnSample_keeps {s0 s : State} (h : s0.Keeps s) :
    s0.Keeps (s.warnSample) := by
  delta State.warnSample
  repeat' first
    | with_reducible assumption
    | ((fail_if_no_progress (extract_lets +onlyGivenNames x)); first
        | (refine (fun (hk : s0.Keeps x) => ?_) ?_; clear_value x; rotate_left; dsimp -zeta only [x])
        | clear_value x
        | skip)
    | with_reducible apply State.setEph_keeps
    | with_reducible apply State.event_keeps
    | with_reducible apply State.count_keeps
    | with_reducible apply State.setFld_keeps
    | split
    | (with_reducible refine State.Keeps.foldl ?_ ?_)
    | intro _ _ _

theorem State.ephUp_keeps {s0 s : State} (h : s0.Keeps s) :
    s0.Keeps (s.ephUp) := by
  delta State.ephUp
  repeat' first
    | with_reducible assumption
    | ((fail_if_no_progress (extract_lets +onlyGivenNames x)); first
        | (refine (fun (hk : s0.Keeps x) => ?_) ?_; clear_value x; rotate_left; dsimp -zeta only [x])
        | clear_value x)
    | with_reducible apply State.jobRead_keeps
    | with_reducible apply State.recordError_keeps
    | with_reducible apply State.enterFault_keeps
    | with_reducible apply State.setReg_keeps
    | with_reducible apply State.setFlag_keeps
    | with_reducible apply State.setFld_keeps
    | with_reducible apply State.setEph_keeps
    | with_reducible apply State.ephTake_keeps
    | (with_reducible refine State.Keeps.of_eq ?_ (by assumption))
    | (with_reducible refine State.Keeps.of_eq3 ?_ (by assumption))
    | split
    | (with_reducible refine State.Keeps.foldl ?_ ?_)
    | (with_reducible refine State.Keeps.foldl_pair ?_ ?_)
    | (with_reducible refine State.Keeps.foldl_triple ?_ ?_)
    | intro _ _ _

theorem State.ephDown_keeps {s0 s : State} (h : s0.Keeps s) :
    s0.Keeps (s.ephDown) := by
  delta State.ephDown
  repeat' first
    | with_reducible assumption
    | ((fail_if_no_progress (extract_lets +onlyGivenNames x)); clear_value x)
    | with_reducible apply State.epochEnd_keeps
    | with_reducible apply State.setEph_keeps

theorem State.ephReset_keeps {s0 s : State} (h : s0.Keeps s) :
    s0.Keeps (s.ephReset) := by
  delta State.ephReset
  repeat' first
    | with_reducible assumption
    | ((fail_if_no_progress (extract_lets +onlyGivenNames x)); refine (fun (hk : s0.Keeps x) => ?_) ?_; clear_value x; rotate_left; dsimp -zeta only [x])
    | with_reducible apply State.drain_keeps
    | with_reducible apply State.setPosted_keeps
    | with_reducible apply State.epochEnd_keeps
    | with_reducible apply State.drainFail_keeps
    | with_reducible apply State.noteLevels_keeps
    | with_reducible apply State.setEph_keeps

theorem State.ephFresh_keeps {s0 s : State} (h : s0.Keeps s) :
    s0.Keeps (s.ephFresh) := by
  delta State.ephFresh
  repeat' first
    | with_reducible assumption
    | with_reducible apply State.setFld_keeps
    | with_reducible apply State.setEph_keeps
    | (with_reducible refine State.Keeps.foldl ?_ ?_)
    | (with_reducible refine State.Keeps.foldl_pair ?_ ?_)
    | (with_reducible refine State.Keeps.foldl_triple ?_ ?_)
    | intro _ _ _

end Sys2Proof.Machine
end

