-- ==== Sys2Proof/Laws/KeepsSpectrograph.lean ====
section
/-! SUPPORT. The operations of Machine/Spectrograph.lean keep a state well. -/

namespace Sys2Proof.Machine

open Sys2Proof

theorem State.setSpg_keeps {s0 s : State} (h : s0.Keeps s) (x) :
    s0.Keeps (s.setSpg x) := by
  delta State.setSpg
  repeat' first
    | with_reducible assumption
    | fail_if_no_progress (with_reducible apply State.Keeps.upd)

theorem State.takeContext_keeps {s0 s : State} (h : s0.Keeps s) (lo size key) :
    s0.Keeps (s.takeContext lo size key).2 := by
  delta State.takeContext
  repeat' first
    | with_reducible assumption
    | ((fail_if_no_progress (extract_lets +onlyGivenNames x)); first
        | (refine (fun (hk : s0.Keeps x.2) => ?_) ?_; clear_value x; rotate_left; dsimp -zeta only [x])
        | clear_value x)
    | with_reducible apply State.free_keeps
    | with_reducible apply State.setSpg_keeps

theorem State.flowOf_keeps {s0 s : State} (h : s0.Keeps s) (key) :
    s0.Keeps (s.flowOf key).2 := by
  delta State.flowOf
  repeat' first
    | with_reducible assumption
    | ((fail_if_no_progress (extract_lets +onlyGivenNames x)); refine (fun (hk : s0.Keeps x.2) => ?_) ?_; clear_value x; rotate_left; dsimp -zeta only [x])
    | with_reducible apply State.takeContext_keeps
    | split

theorem State.setFlow_keeps {s0 s : State} (h : s0.Keeps s) (k f) :
    s0.Keeps (s.setFlow k f) := by
  delta State.setFlow
  repeat' first
    | with_reducible assumption
    | ((fail_if_no_progress (extract_lets +onlyGivenNames x)); clear_value x)
    | with_reducible apply State.setSpg_keeps

theorem State.rxItem_keeps {s0 s : State} (h : s0.Keeps s) (v i q idx buf trunc) :
    s0.Keeps (s.rxItem v i q idx buf trunc).2 := by
  delta State.rxItem
  repeat' first
    | with_reducible assumption
    | ((fail_if_no_progress (extract_lets +onlyGivenNames x)); clear_value x)
    | with_reducible apply State.postItem_keeps

theorem State.rxDeliver_keeps {s0 s : State} (h : s0.Keeps s) (v i q program) :
    s0.Keeps (s.rxDeliver v i q program).2 := by
  delta State.rxDeliver
  repeat' first
    | with_reducible assumption
    | ((fail_if_no_progress (extract_lets +onlyGivenNames x)); first
        | (refine (fun (hk : s0.Keeps x) => ?_) ?_; clear_value x; rotate_left; dsimp -zeta only [x])
        | (refine (fun (hk : s0.Keeps x.2) => ?_) ?_; clear_value x; rotate_left; dsimp -zeta only [x])
        | clear_value x)
    | with_reducible apply State.mark_keeps
    | with_reducible apply State.devRead_keeps
    | with_reducible apply State.recordError_keeps
    | with_reducible apply State.devWrite_keeps
    | with_reducible apply State.rxItem_keeps
    | with_reducible apply State.count_keeps
    | with_reducible apply State.setFld_keeps
    | with_reducible apply State.setSpg_keeps
    | with_reducible apply State.routeFire_keeps
    | with_reducible apply State.notifyBit_keeps
    | (with_reducible refine State.Keeps.of_eq ?_ (by assumption))
    | split

theorem State.rxqEnable_keeps {s0 s : State} (h : s0.Keeps s) (q) :
    s0.Keeps (s.rxqEnable q) := by
  delta State.rxqEnable
  repeat' first
    | with_reducible assumption
    | ((fail_if_no_progress (extract_lets +onlyGivenNames x)); first
        | (refine (fun (hk : s0.Keeps x) => ?_) ?_; clear_value x; rotate_left; dsimp -zeta only [x])
        | clear_value x)
    | with_reducible apply State.setFld_keeps
    | with_reducible apply State.setSpg_keeps

theorem State.counterAdd_keeps {s0 s : State} (h : s0.Keeps s) (a inc) :
    s0.Keeps (s.counterAdd a inc) := by
  delta State.counterAdd
  repeat' first
    | with_reducible assumption
    | with_reducible apply State.devRead_keeps
    | with_reducible apply State.devWrite_keeps
    | with_reducible apply State.recordError_keeps
    | (with_reducible refine State.Keeps.of_eq ?_ (by assumption))
    | split

theorem State.countFrame_keeps {s0 s : State} (h : s0.Keeps s) (v bs) :
    s0.Keeps (s.countFrame v bs) := by
  delta State.countFrame
  repeat' first
    | with_reducible assumption
    | ((fail_if_no_progress (extract_lets +onlyGivenNames x)); clear_value x)
    | with_reducible apply State.count_keeps
    | with_reducible apply State.counterAdd_keeps
    | split

theorem State.mirrorFrame_keeps {s0 s : State} (h : s0.Keeps s) (v i) :
    s0.Keeps (s.mirrorFrame v i) := by
  delta State.mirrorFrame
  repeat' first
    | with_reducible assumption
    | ((fail_if_no_progress (extract_lets +onlyGivenNames x)); first
        | (refine (fun (hk : s0.Keeps x.2) => ?_) ?_; clear_value x; rotate_left; dsimp -zeta only [x])
        | clear_value x)
    | with_reducible apply State.mark_keeps
    | with_reducible apply State.rxDeliver_keeps
    | with_reducible apply State.admitSpg_keeps
    | with_reducible apply State.count_keeps
    | split

theorem State.primaryAction_keeps {s0 s : State} (h : s0.Keeps s) (v i) :
    s0.Keeps (s.primaryAction v i) := by
  delta State.primaryAction
  repeat' first
    | with_reducible assumption
    | ((fail_if_no_progress (extract_lets +onlyGivenNames x)); first
        | (refine (fun (hc6 : ∀ p : Bool × State, s0.Keeps p.2 → s0.Keeps (x p)) => ?_) ?_; clear_value x; rotate_left; intro p hp; dsimp -zeta only [x])
        | clear_value x)
    | with_reducible apply State.mark_keeps
    | with_reducible apply State.count_keeps
    | with_reducible apply State.admitSpg_keeps
    | with_reducible apply State.rxDeliver_keeps
    | with_reducible apply hc6
    | split

theorem State.actOn_keeps {s0 s : State} (h : s0.Keeps s) (p f v flow) :
    s0.Keeps (s.actOn p f v flow) := by
  delta State.actOn
  repeat' first
    | with_reducible assumption
    | ((fail_if_no_progress (extract_lets +onlyGivenNames x)); first
        | (refine (fun (hk : s0.Keeps x) => ?_) ?_; clear_value x; rotate_left; dsimp -zeta only [x])
        | clear_value x)
    | with_reducible apply State.mark_keeps
    | with_reducible apply State.count_keeps
    | with_reducible apply State.primaryAction_keeps
    | with_reducible apply State.mirrorFrame_keeps
    | with_reducible apply State.countFrame_keeps
    | split

theorem State.classify_keeps {s0 s : State} (h : s0.Keeps s) (p f) :
    s0.Keeps (s.classify p f).2 := by
  delta State.classify
  repeat' first
    | with_reducible assumption
    | ((fail_if_no_progress (extract_lets +onlyGivenNames x)); first
        | (refine (fun (hk : s0.Keeps x) => ?_) ?_; clear_value x; rotate_left; dsimp -zeta only [x])
        | (refine (fun (hc1 : ∀ t, s0.Keeps t → s0.Keeps (x t)) => ?_) ?_; clear_value x; rotate_left; intro t ht; dsimp -zeta only [x])
        | clear_value x)
    | with_reducible apply State.bufErr_keeps
    | with_reducible apply State.actOn_keeps
    | with_reducible apply State.count_keeps
    | with_reducible apply State.trnReceive_keeps
    | with_reducible apply State.flowOf_keeps
    | with_reducible apply State.setFlow_keeps
    | with_reducible apply State.noteLevels_keeps
    | with_reducible apply hc1
    | (with_reducible refine State.Keeps.of_eq ?_ (by assumption))
    | split

theorem State.classifyWaiting_keeps {s0 s : State} (h : s0.Keeps s) (l kept) :
    s0.Keeps (s.classifyWaiting l kept) := by
  induction l generalizing s kept with
  | nil =>
    rw [State.classifyWaiting.eq_def]
    try dsimp -zeta only
    repeat' first
      | with_reducible assumption
      | ((fail_if_no_progress (extract_lets +onlyGivenNames x)); first
          | clear_value x)
      | with_reducible apply State.setEthPort_keeps
      | with_reducible apply State.classify_keeps
      | split
      | (with_reducible refine State.Keeps.foldl ?_ ?_)
      | (with_reducible refine State.Keeps.foldl_pair ?_ ?_)
      | (with_reducible refine State.Keeps.foldl_triple ?_ ?_)
      | intro _ _ _
  | cons hd tl ih =>
    rw [State.classifyWaiting.eq_def]
    try dsimp -zeta only
    repeat' first
      | with_reducible assumption
      | with_reducible apply ih
      | ((fail_if_no_progress (extract_lets +onlyGivenNames x)); first
          | (refine (fun (hk : s0.Keeps x.2) => ?_) ?_; clear_value x; rotate_left; dsimp -zeta only [x]))
      | with_reducible apply State.setEthPort_keeps
      | with_reducible apply State.classify_keeps
      | split

theorem State.classifyAll_keeps {s0 s : State} (h : s0.Keeps s) :
    s0.Keeps (s.classifyAll) := by
  delta State.classifyAll
  repeat' first
    | with_reducible assumption
    | with_reducible apply State.classifyWaiting_keeps
    | split

theorem State.frameReceive_keeps {s0 s : State} (h : s0.Keeps s) (p half bs fcsOk err) :
    s0.Keeps (s.frameReceive p half bs fcsOk err) := by
  delta State.frameReceive
  repeat' first
    | with_reducible assumption
    | ((fail_if_no_progress (extract_lets +onlyGivenNames x)); first
        | (refine (fun (hk : s0.Keeps x) => ?_) ?_; clear_value x; rotate_left; dsimp -zeta only [x])
        | clear_value x)
    | with_reducible apply State.count_keeps
    | with_reducible apply State.pfcReceive_keeps
    | with_reducible apply State.admitIngress_keeps
    | with_reducible apply State.classifyAll_keeps
    | (with_reducible refine State.Keeps.of_eq ?_ (by assumption))
    | (with_reducible refine State.Keeps.of_eq3 ?_ (by assumption))
    | split
    | (with_reducible refine State.Keeps.foldl ?_ ?_)
    | (with_reducible refine State.Keeps.foldl_pair ?_ ?_)
    | (with_reducible refine State.Keeps.foldl_triple ?_ ?_)
    | intro _ _ _

theorem State.flowAge_keeps {s0 s : State} (h : s0.Keeps s) (k) :
    s0.Keeps (s.flowAge k) := by
  delta State.flowAge
  repeat' first
    | with_reducible assumption
    | with_reducible apply State.noteLevels_keeps
    | with_reducible apply State.setFlow_keeps

theorem State.meterRefill_keeps {s0 s : State} (h : s0.Keeps s) (k n) :
    s0.Keeps (s.meterRefill k n) := by
  delta State.meterRefill
  repeat' first
    | with_reducible assumption
    | with_reducible apply State.classifyAll_keeps
    | with_reducible apply State.setFlow_keeps
    | split

theorem State.selectLoop_keeps {s0 s : State} (h : s0.Keeps s) (err) :
    s0.Keeps (s.selectLoop err) := by
  delta State.selectLoop
  repeat' first
    | with_reducible assumption
    | ((fail_if_no_progress (extract_lets +onlyGivenNames x)); first
        | (refine (fun (hk : s0.Keeps x) => ?_) ?_; clear_value x; rotate_left; dsimp -zeta only [x])
        | (refine (fun (hk : s0.Keeps x.2) => ?_) ?_; clear_value x; rotate_left; dsimp -zeta only [x])
        | clear_value x)
    | with_reducible apply State.shtUpdate_keeps
    | with_reducible refine State.select_keeps ?_ _ (by assumption)
    | with_reducible apply State.mark_keeps
    | with_reducible apply State.bufErr_keeps
    | with_reducible apply State.classify_keeps
    | with_reducible apply State.noteLevels_keeps
    | (with_reducible refine State.Keeps.of_eq ?_ (by assumption))
    | (with_reducible refine State.Keeps.of_eq3 ?_ (by assumption))
    | split

theorem State.spgCheck_keeps {s0 s : State} (h : s0.Keeps s) (dome cmd n arg) :
    s0.Keeps (s.spgCheck dome cmd n arg).2.2 := by
  delta State.spgCheck
  repeat' first
    | with_reducible assumption
    | ((fail_if_no_progress (extract_lets +onlyGivenNames x)); clear_value x)
    | with_reducible apply State.load_keeps
    | (with_reducible refine State.Keeps.of_eq ?_ (by assumption))
    | split

theorem State.spgStart_keeps {s0 s : State} (h : s0.Keeps s) (cmd port n bs) :
    s0.Keeps (s.spgStart cmd port n bs) := by
  delta State.spgStart
  repeat' first
    | with_reducible assumption
    | ((fail_if_no_progress (extract_lets +onlyGivenNames x)); clear_value x)
    | with_reducible apply State.setSpg_keeps
    | with_reducible apply State.setFld_keeps
    | with_reducible apply State.setFlag_keeps
    | split

theorem State.spgCommand_keeps {s0 s : State} (h : s0.Keeps s) (dome v) :
    s0.Keeps (s.spgCommand dome v) := by
  delta State.spgCommand
  repeat' first
    | with_reducible assumption
    | ((fail_if_no_progress (extract_lets +onlyGivenNames x)); first
        | (refine (fun (hk : s0.Keeps x) => ?_) ?_; clear_value x; rotate_left; dsimp -zeta only [x])
        | clear_value x)
    | with_reducible apply State.recordError_keeps
    | with_reducible apply State.spgCheck_keeps
    | with_reducible apply State.setFld_keeps
    | with_reducible apply State.setSpg_keeps
    | with_reducible apply State.spgStart_keeps
    | (with_reducible refine State.Keeps.of_eq3 ?_ (by assumption))
    | split

theorem State.spgComplete_keeps {s0 s : State} (h : s0.Keeps s) :
    s0.Keeps (s.spgComplete) := by
  delta State.spgComplete
  repeat' first
    | with_reducible assumption
    | ((fail_if_no_progress (extract_lets +onlyGivenNames x)); first
        | (refine (fun (hk : s0.Keeps x) => ?_) ?_; clear_value x; rotate_left; dsimp -zeta only [x])
        | clear_value x)
    | with_reducible apply State.setSpg_keeps
    | with_reducible apply State.setFld_keeps
    | with_reducible apply State.event_keeps
    | with_reducible apply State.classifyAll_keeps
    | with_reducible apply State.setFlag_keeps
    | split

theorem State.spgReset_keeps {s0 s : State} (h : s0.Keeps s) :
    s0.Keeps (s.spgReset) := by
  delta State.spgReset
  repeat' first
    | with_reducible assumption
    | with_reducible apply State.noteLevels_keeps
    | with_reducible apply State.setSpg_keeps

end Sys2Proof.Machine
end

