-- ==== Sys2Proof/Laws/KeepsPcieEvents.lean ====
section
/-! SUPPORT. The operations of Machine/PcieEvents.lean keep a state well. -/

namespace Sys2Proof.Machine

open Sys2Proof

theorem State.settle_keeps {s0 s : State} (h : s0.Keeps s) :
    s0.Keeps (s.settle) := by
  delta State.settle
  repeat' first
    | with_reducible assumption
    | with_reducible apply State.ephTake_keeps
    | with_reducible apply State.movTake_keeps
    | with_reducible apply State.catConsume_keeps

theorem State.writeRw_keeps {s0 s : State} (h : s0.Keeps s) (r cell i v mask) :
    s0.Keeps (s.writeRw r cell i v mask) := by
  delta State.writeRw
  repeat' first
    | with_reducible assumption
    | ((fail_if_no_progress (extract_lets +onlyGivenNames x)); clear_value x)
    | with_reducible apply State.setReg_keeps

theorem State.ignoreDoorbell_keeps {s0 s : State} (h : s0.Keeps s) (port) :
    s0.Keeps (s.ignoreDoorbell port) := by
  delta State.ignoreDoorbell
  repeat' first
    | with_reducible assumption
    | with_reducible apply State.count_keeps

theorem State.sqTailWritten_keeps {s0 s : State} (h : s0.Keeps s) (q) :
    s0.Keeps (s.sqTailWritten q) := by
  delta State.sqTailWritten
  repeat' first
    | with_reducible assumption
    | with_reducible apply State.sqPoll_keeps

theorem State.doorbell_keeps {s0 s : State} (h : s0.Keeps s) (kind index off v) :
    s0.Keeps (s.doorbell kind index off v) := by
  delta State.doorbell
  repeat' first
    | with_reducible assumption
    | with_reducible apply State.postEntries_keeps
    | with_reducible apply State.writeRw_keeps
    | with_reducible apply State.sqTailWritten_keeps
    | with_reducible apply State.txrPoll_keeps
    | split

theorem State.unsupported_keeps {s0 s : State} (h : s0.Keeps s) (port fn) :
    s0.Keeps (s.unsupported port fn) := by
  delta State.unsupported
  repeat' first
    | with_reducible assumption
    | with_reducible apply State.recordError_keeps
    | with_reducible apply State.aerUncor_keeps

theorem State.pfDoorbell_keeps {s0 s : State} (h : s0.Keeps s) (port off v) :
    s0.Keeps (s.pfDoorbell port off v) := by
  delta State.pfDoorbell
  repeat' first
    | with_reducible assumption
    | ((fail_if_no_progress (extract_lets +onlyGivenNames x)); clear_value x)
    | with_reducible apply State.unsupported_keeps
    | with_reducible apply State.doorbell_keeps
    | with_reducible apply State.ignoreDoorbell_keeps
    | split

theorem State.hostStore_keeps {s0 s : State} (h : s0.Keeps s) (port a bs ep) :
    s0.Keeps (s.hostStore port a bs ep) := by
  delta State.hostStore
  repeat' first
    | with_reducible assumption
    | ((fail_if_no_progress (extract_lets +onlyGivenNames x)); refine (fun (hk : s0.Keeps x.2) => ?_) ?_; clear_value x; rotate_left; dsimp -zeta only [x])
    | with_reducible apply State.store_keeps
    | with_reducible apply State.recordError_keeps
    | split

theorem State.hostLoad_keeps {s0 s : State} (h : s0.Keeps s) (port a n) :
    s0.Keeps (s.hostLoad port a n).2.2 := by
  delta State.hostLoad
  repeat' first
    | with_reducible assumption
    | ((fail_if_no_progress (extract_lets +onlyGivenNames x)); refine (fun (hk : s0.Keeps x.2) => ?_) ?_; clear_value x; rotate_left; dsimp -zeta only [x])
    | with_reducible apply State.load_keeps
    | with_reducible apply State.recordError_keeps
    | split

theorem State.bar4Write_keeps {s0 s : State} (h : s0.Keeps s) (port off bs ep) :
    s0.Keeps (s.bar4Write port off bs ep) := by
  delta State.bar4Write
  repeat' first
    | with_reducible assumption
    | ((fail_if_no_progress (extract_lets +onlyGivenNames x)); refine (fun (hk : s0.Keeps x) => ?_) ?_; clear_value x; rotate_left; dsimp -zeta only [x])
    | with_reducible apply State.unsupported_keeps
    | with_reducible apply State.aerUncor_keeps
    | with_reducible apply State.hostStore_keeps
    | with_reducible apply State.recordError_keeps
    | split

theorem State.bar4Read_keeps {s0 s : State} (h : s0.Keeps s) (port off n) :
    s0.Keeps (s.bar4Read port off n).2.2 := by
  delta State.bar4Read
  repeat' first
    | with_reducible assumption
    | with_reducible apply State.unsupported_keeps
    | with_reducible apply State.hostLoad_keeps
    | with_reducible apply State.recordError_keeps
    | split

theorem State.vfStopQueue_keeps {s0 s : State} (h : s0.Keeps s) (x) :
    s0.Keeps (s.vfStopQueue x) := by
  delta State.vfStopQueue
  repeat' first
    | with_reducible assumption
    | with_reducible apply State.txrWithdraw_keeps
    | with_reducible apply State.setFlag_keeps
    | split

theorem State.vfStartQueue_keeps {s0 s : State} (h : s0.Keeps s) (x) :
    s0.Keeps (s.vfStartQueue x) := by
  delta State.vfStartQueue
  repeat' first
    | with_reducible assumption
    | with_reducible apply State.catWriteEn_keeps
    | with_reducible apply State.setFlag_keeps
    | with_reducible apply State.rxqEnable_keeps
    | with_reducible apply State.txrEnable_keeps
    | split

theorem State.resetFnQueues_keeps {s0 s : State} (h : s0.Keeps s) (port fn) :
    s0.Keeps (s.resetFnQueues port fn) := by
  delta State.resetFnQueues
  repeat' first
    | with_reducible assumption
    | with_reducible apply State.catQueueReset_keeps
    | split
    | (with_reducible refine State.Keeps.foldl ?_ ?_)
    | intro _ _ _

theorem State.vfShutdown_keeps {s0 s : State} (h : s0.Keeps s) (port v) :
    s0.Keeps (s.vfShutdown port v) := by
  delta State.vfShutdown
  repeat' first
    | with_reducible assumption
    | ((fail_if_no_progress (extract_lets +onlyGivenNames x)); first
        | (refine (fun (hk : s0.Keeps x) => ?_) ?_; clear_value x; rotate_left; dsimp -zeta only [x])
        | clear_value x)
    | with_reducible apply State.setFlag_keeps
    | with_reducible apply State.setVf_keeps
    | with_reducible apply State.stopFn_keeps
    | with_reducible apply State.resetFnQueues_keeps
    | with_reducible apply State.settle_keeps
    | with_reducible apply State.vfStopQueue_keeps
    | split
    | (with_reducible refine State.Keeps.foldl ?_ ?_)
    | intro _ _ _

theorem State.vfStarted_keeps {s0 s : State} (h : s0.Keeps s) (port v) :
    s0.Keeps (s.vfStarted port v) := by
  delta State.vfStarted
  repeat' first
    | with_reducible assumption
    | ((fail_if_no_progress (extract_lets +onlyGivenNames x)); clear_value x)
    | with_reducible apply State.vfStartQueue_keeps
    | with_reducible apply State.setVf_keeps
    | split
    | (with_reducible refine State.Keeps.foldl ?_ ?_)
    | intro _ _ _

theorem State.vfShutdownDone_keeps {s0 s : State} (h : s0.Keeps s) (port v) :
    s0.Keeps (s.vfShutdownDone port v) := by
  delta State.vfShutdownDone
  repeat' first
    | with_reducible assumption
    | ((fail_if_no_progress (extract_lets +onlyGivenNames x)); refine (fun (hk : s0.Keeps x) => ?_) ?_; clear_value x; rotate_left; dsimp -zeta only [x])
    | with_reducible apply State.trnVfPast_keeps
    | with_reducible apply State.clearFn_keeps
    | with_reducible apply State.nextGen_keeps
    | with_reducible apply State.vfStarted_keeps
    | with_reducible apply State.setFlag_keeps
    | split

theorem State.vfWriteEn_keeps {s0 s : State} (h : s0.Keeps s) (port v en) :
    s0.Keeps (s.vfWriteEn port v en) := by
  delta State.vfWriteEn
  repeat' first
    | with_reducible assumption
    | ((fail_if_no_progress (extract_lets +onlyGivenNames x)); first
        | (refine (fun (hk : s0.Keeps x) => ?_) ?_; clear_value x; rotate_left; dsimp -zeta only [x])
        | clear_value x)
    | with_reducible apply State.setFlag_keeps
    | with_reducible apply State.vfStarted_keeps
    | with_reducible apply State.vfShutdown_keeps
    | split

theorem State.wipeFn_keeps {s0 s : State} (h : s0.Keeps s) (port fn) :
    s0.Keeps (s.wipeFn port fn) := by
  delta State.wipeFn
  repeat' first
    | with_reducible assumption
    | with_reducible apply State.clearFn_keeps
    | with_reducible apply State.setPciFn_keeps

theorem State.setExists_keeps {s0 s : State} (h : s0.Keeps s) (port v on) :
    s0.Keeps (s.setExists port v on) := by
  delta State.setExists
  repeat' first
    | with_reducible assumption
    | ((fail_if_no_progress (extract_lets +onlyGivenNames x)); first
        | (refine (fun (hk : s0.Keeps x) => ?_) ?_; clear_value x; rotate_left; dsimp -zeta only [x])
        | clear_value x)
    | with_reducible apply State.wipeFn_keeps
    | with_reducible apply State.vfStarted_keeps
    | with_reducible apply State.setFlag_keeps
    | with_reducible apply State.vfShutdown_keeps
    | with_reducible apply State.stopFn_keeps
    | with_reducible apply State.clearFn_keeps
    | split

theorem State.vfsFollow_keeps {s0 s : State} (h : s0.Keeps s) (port) :
    s0.Keeps (s.vfsFollow port) := by
  delta State.vfsFollow
  repeat' first
    | with_reducible assumption
    | ((fail_if_no_progress (extract_lets +onlyGivenNames x)); clear_value x)
    | with_reducible apply State.setExists_keeps
    | (with_reducible refine State.Keeps.foldl ?_ ?_)
    | intro _ _ _

theorem State.upCellDown_keeps {s0 s : State} (h : s0.Keeps s) (port) :
    s0.Keeps (s.upCellDown port) := by
  delta State.upCellDown
  repeat' first
    | with_reducible assumption
    | with_reducible apply State.vfShutdown_keeps
    | split
    | (with_reducible refine State.Keeps.foldl ?_ ?_)
    | intro _ _ _

theorem State.upCellUp_keeps {s0 s : State} (h : s0.Keeps s) (port) :
    s0.Keeps (s.upCellUp port) := by
  delta State.upCellUp
  repeat' first
    | with_reducible assumption
    | with_reducible apply State.vfStarted_keeps
    | (with_reducible refine State.Keeps.foldl ?_ ?_)
    | intro _ _ _

theorem State.vfUnsupported_keeps {s0 s : State} (h : s0.Keeps s) (port v) :
    s0.Keeps (s.vfUnsupported port v) := by
  delta State.vfUnsupported
  repeat' first
    | with_reducible assumption
    | with_reducible apply State.unsupported_keeps
    | split

theorem State.vfBar2Write_keeps {s0 s : State} (h : s0.Keeps s) (port v p off bs ep) :
    s0.Keeps (s.vfBar2Write port v p off bs ep) := by
  delta State.vfBar2Write
  repeat' first
    | with_reducible assumption
    | ((fail_if_no_progress (extract_lets +onlyGivenNames x)); first
        | (refine (fun (hk : s0.Keeps x) => ?_) ?_; clear_value x; rotate_left; dsimp -zeta only [x])
        | clear_value x)
    | with_reducible apply State.vfUnsupported_keeps
    | with_reducible apply State.ignoreDoorbell_keeps
    | with_reducible apply State.aerUncor_keeps
    | with_reducible apply State.hostStore_keeps
    | with_reducible apply State.doorbell_keeps
    | split

theorem State.vfBar2Read_keeps {s0 s : State} (h : s0.Keeps s) (port v p off n) :
    s0.Keeps (s.vfBar2Read port v p off n).2.2 := by
  delta State.vfBar2Read
  repeat' first
    | with_reducible assumption
    | ((fail_if_no_progress (extract_lets +onlyGivenNames x)); first
        | (refine (fun (hk : s0.Keeps x.2.2) => ?_) ?_; clear_value x; rotate_left; dsimp -zeta only [x])
        | clear_value x)
    | with_reducible apply State.vfUnsupported_keeps
    | with_reducible apply State.hostLoad_keeps
    | split

theorem State.flrStart_keeps {s0 s : State} (h : s0.Keeps s) (port fn) :
    s0.Keeps (s.flrStart port fn) := by
  delta State.flrStart
  repeat' first
    | with_reducible assumption
    | ((fail_if_no_progress (extract_lets +onlyGivenNames x)); refine (fun (hk : s0.Keeps x) => ?_) ?_; clear_value x; rotate_left; dsimp -zeta only [x])
    | with_reducible apply State.bmeOff_keeps
    | with_reducible apply State.event_keeps
    | with_reducible apply State.setFlag_keeps
    | with_reducible apply State.resetFnQueues_keeps
    | with_reducible apply State.stopFn_keeps
    | with_reducible apply State.setReg_keeps
    | with_reducible apply State.clearFn_keeps
    | with_reducible apply State.settle_keeps
    | with_reducible apply State.vfsFollow_keeps
    | with_reducible apply State.vfShutdown_keeps
    | split

theorem State.flrComplete_keeps {s0 s : State} (h : s0.Keeps s) (port fn) :
    s0.Keeps (s.flrComplete port fn) := by
  delta State.flrComplete
  repeat' first
    | with_reducible assumption
    | ((fail_if_no_progress (extract_lets +onlyGivenNames x)); refine (fun (hk : s0.Keeps x) => ?_) ?_; clear_value x; rotate_left; dsimp -zeta only [x])
    | with_reducible apply State.setFlag_keeps
    | with_reducible apply State.nextGen_keeps
    | with_reducible apply State.vfShutdownDone_keeps
    | split

theorem State.setLink_keeps {s0 s : State} (h : s0.Keeps s) (j up speed width flit) :
    s0.Keeps (s.setLink j up speed width flit) := by
  delta State.setLink
  repeat' first
    | with_reducible assumption
    | ((fail_if_no_progress (extract_lets +onlyGivenNames x)); first
        | (refine (fun (hk : s0.Keeps x) => ?_) ?_; clear_value x; rotate_left; dsimp -zeta only [x])
        | clear_value x)
    | with_reducible apply State.setPci_keeps
    | with_reducible apply State.cfgSet_keeps
    | with_reducible apply State.setFlag_keeps
    | with_reducible apply State.setFld_keeps
    | with_reducible apply State.setCfg_keeps
    | with_reducible apply State.event_keeps
    | split

theorem State.fundamental_keeps {s0 s : State} (h : s0.Keeps s) (port) :
    s0.Keeps (s.fundamental port) := by
  delta State.fundamental
  repeat' first
    | with_reducible assumption
    | ((fail_if_no_progress (extract_lets +onlyGivenNames x)); first
        | (refine (fun (hk : s0.Keeps x) => ?_) ?_; clear_value x; rotate_left; dsimp -zeta only [x])
        | clear_value x)
    | with_reducible apply State.setLink_keeps
    | with_reducible apply State.setPci_keeps
    | with_reducible apply State.flrStart_keeps
    | with_reducible apply State.vfShutdown_keeps
    | (with_reducible refine State.Keeps.foldl ?_ ?_)
    | intro _ _ _

theorem State.linkDisable_keeps {s0 s : State} (h : s0.Keeps s) (j) :
    s0.Keeps (s.linkDisable j) := by
  delta State.linkDisable
  repeat' first
    | with_reducible assumption
    | ((fail_if_no_progress (extract_lets +onlyGivenNames x)); first
        | (refine (fun (hk : s0.Keeps x) => ?_) ?_; clear_value x; rotate_left; dsimp -zeta only [x]))
    | with_reducible apply State.setLink_keeps
    | with_reducible apply State.movPortLost_keeps
    | with_reducible apply State.catPortLost_keeps
    | with_reducible apply State.settle_keeps
    | split

theorem State.dpcTrigger_keeps {s0 s : State} (h : s0.Keeps s) (k cause) :
    s0.Keeps (s.dpcTrigger k cause) := by
  delta State.dpcTrigger
  repeat' first
    | with_reducible assumption
    | ((fail_if_no_progress (extract_lets +onlyGivenNames x)); first
        | (refine (fun (hk : s0.Keeps x) => ?_) ?_; clear_value x; rotate_left; dsimp -zeta only [x])
        | clear_value x)
    | with_reducible apply State.event_keeps
    | with_reducible apply State.cfgSet_keeps
    | with_reducible apply State.setCfg_keeps
    | with_reducible apply State.setLink_keeps
    | with_reducible apply State.count_keeps
    | with_reducible apply State.settle_keeps
    | with_reducible apply State.catPortLost_keeps
    | with_reducible apply State.movPortLost_keeps
    | split

theorem State.dpcRelease_keeps {s0 s : State} (h : s0.Keeps s) (k) :
    s0.Keeps (s.dpcRelease k) := by
  delta State.dpcRelease
  repeat' first
    | with_reducible assumption
    | with_reducible apply State.setCfg_keeps

theorem State.linkChange_keeps {s0 s : State} (h : s0.Keeps s) (j up speed width flit) :
    s0.Keeps (s.linkChange j up speed width flit) := by
  delta State.linkChange
  repeat' first
    | with_reducible assumption
    | ((fail_if_no_progress (extract_lets +onlyGivenNames x)); clear_value x)
    | with_reducible apply State.setLink_keeps
    | with_reducible apply State.dpcTrigger_keeps
    | split

theorem State.presentNow_keeps {s0 s : State} (h : s0.Keeps s) (k) :
    s0.Keeps (s.presentNow k) := by
  delta State.presentNow
  repeat' first
    | with_reducible assumption
    | with_reducible apply State.setCfg_keeps

theorem State.presence_keeps {s0 s : State} (h : s0.Keeps s) (k on) :
    s0.Keeps (s.presence k on) := by
  delta State.presence
  repeat' first
    | with_reducible assumption
    | ((fail_if_no_progress (extract_lets +onlyGivenNames x)); first
        | (refine (fun (hk : s0.Keeps x) => ?_) ?_; clear_value x; rotate_left; dsimp -zeta only [x])
        | clear_value x)
    | with_reducible apply State.setCfg_keeps
    | with_reducible apply State.event_keeps
    | with_reducible apply State.dpcTrigger_keeps
    | split
    | fail_if_no_progress (with_reducible apply State.Keeps.upd)

theorem State.linkError_keeps {s0 s : State} (h : s0.Keeps s) (j e hdr) :
    s0.Keeps (s.linkError j e hdr) := by
  delta State.linkError
  repeat' first
    | with_reducible assumption
    | ((fail_if_no_progress (extract_lets +onlyGivenNames x)); first
        | (refine (fun (hk : s0.Keeps x) => ?_) ?_; clear_value x; rotate_left; dsimp -zeta only [x])
        | (refine (fun (hc1 : ∀ t, s0.Keeps t → s0.Keeps (x t)) => ?_) ?_; clear_value x; rotate_left; intro t ht; dsimp -zeta only [x]))
    | with_reducible apply State.event_keeps
    | with_reducible apply State.noteLinkErr_keeps
    | with_reducible apply State.count_keeps
    | with_reducible apply State.aerCor_keeps
    | with_reducible apply State.recordError_keeps
    | with_reducible apply State.aerUncor_keeps
    | with_reducible apply State.dpcTrigger_keeps
    | with_reducible apply hc1
    | split

theorem State.inRefuse_keeps {s0 s : State} (h : s0.Keeps s) (k row read abort protocol) :
    s0.Keeps (s.inRefuse k row read abort protocol) := by
  delta State.inRefuse
  repeat' first
    | with_reducible assumption
    | ((fail_if_no_progress (extract_lets +onlyGivenNames x)); first
        | (refine (fun (hk : s0.Keeps x) => ?_) ?_; clear_value x; rotate_left; dsimp -zeta only [x])
        | clear_value x)
    | with_reducible apply State.count_keeps
    | with_reducible apply State.event_keeps
    | with_reducible apply State.aerUncor_keeps
    | with_reducible apply State.recordError_keeps
    | with_reducible apply State.sendTlp_keeps
    | split

theorem State.heldTake_keeps {s0 s : State} (h : s0.Keeps s) (k n) :
    s0.Keeps (s.heldTake k n) := by
  induction n generalizing s with
  | zero =>
    rw [State.heldTake.eq_def]
    try dsimp -zeta only
    repeat' first
      | with_reducible assumption
  | succ n ih =>
    rw [State.heldTake.eq_def]
    try dsimp -zeta only
    repeat' first
      | with_reducible assumption
      | with_reducible apply ih
      | with_reducible apply State.setPci_keeps
      | with_reducible apply State.colArrive_keeps
      | with_reducible apply State.colSettle_keeps
      | (with_reducible refine State.Keeps.of_eq ?_ (by assumption))
      | (with_reducible refine State.Keeps.of_eq3 ?_ (by assumption))
      | split

theorem State.heldRetry_keeps {s0 s : State} (h : s0.Keeps s) (k) :
    s0.Keeps (s.heldRetry k) := by
  delta State.heldRetry
  repeat' first
    | with_reducible assumption
    | with_reducible apply State.heldTake_keeps

theorem State.inCollector_keeps {s0 s : State} (h : s0.Keeps s) (k w bs ep) :
    s0.Keeps (s.inCollector k w bs ep) := by
  delta State.inCollector
  repeat' first
    | with_reducible assumption
    | ((fail_if_no_progress (extract_lets +onlyGivenNames x)); first
        | (refine (fun (hk : s0.Keeps x.2) => ?_) ?_; clear_value x; rotate_left; dsimp -zeta only [x])
        | clear_value x)
    | with_reducible apply State.heldRetry_keeps
    | with_reducible apply State.inRefuse_keeps
    | with_reducible apply State.bindWrite_keeps
    | with_reducible apply State.setPci_keeps
    | with_reducible apply State.colSettle_keeps
    | split

theorem State.inRequest_keeps {s0 s : State} (h : s0.Keeps s) (k r) :
    s0.Keeps (s.inRequest k r) := by
  delta State.inRequest
  repeat' first
    | with_reducible assumption
    | ((fail_if_no_progress (extract_lets +onlyGivenNames x)); first
        | (refine (fun (hk : s0.Keeps x) => ?_) ?_; clear_value x; rotate_left; dsimp -zeta only [x])
        | (refine (fun (hk : s0.Keeps x.2) => ?_) ?_; clear_value x; rotate_left; dsimp -zeta only [x])
        | clear_value x)
    | with_reducible apply State.noteTlp_keeps
    | with_reducible apply State.inRefuse_keeps
    | with_reducible apply State.inCollector_keeps
    | with_reducible apply State.store_keeps
    | with_reducible apply State.load_keeps
    | with_reducible apply State.sendTlp_keeps
    | split

theorem State.inbound_keeps {s0 s : State} (h : s0.Keeps s) (k r) :
    s0.Keeps (s.inbound k r) := by
  delta State.inbound
  repeat' first
    | with_reducible assumption
    | ((fail_if_no_progress (extract_lets +onlyGivenNames x)); first
        | (refine (fun (hk : s0.Keeps x) => ?_) ?_; clear_value x; rotate_left; dsimp -zeta only [x])
        | clear_value x)
    | with_reducible apply State.heldRetry_keeps
    | with_reducible apply State.inRequest_keeps
    | split

theorem State.retryCpl_keeps {s0 s : State} (h : s0.Keeps s) (port fn off) :
    s0.Keeps (s.retryCpl port fn off) := by
  delta State.retryCpl
  repeat' first
    | with_reducible assumption
    | with_reducible apply State.sendTlp_keeps

theorem State.catFnLost_keeps {s0 s : State} (h : s0.Keeps s) (port fn) :
    s0.Keeps (s.catFnLost port fn) := by
  delta State.catFnLost
  repeat' first
    | with_reducible assumption
    | with_reducible apply State.catComplete_keeps
    | with_reducible apply State.putCmd_keeps
    | (with_reducible refine State.Keeps.of_eq ?_ (by assumption))
    | (with_reducible refine State.Keeps.of_eq3 ?_ (by assumption))
    | split
    | (with_reducible refine State.Keeps.foldl ?_ ?_)
    | (with_reducible refine State.Keeps.foldl_pair ?_ ?_)
    | (with_reducible refine State.Keeps.foldl_triple ?_ ?_)
    | intro _ _ _

theorem State.bmeClear_keeps {s0 s : State} (h : s0.Keeps s) (port fn) :
    s0.Keeps (s.bmeClear port fn) := by
  delta State.bmeClear
  repeat' first
    | with_reducible assumption
    | with_reducible apply State.bmeOff_keeps
    | with_reducible apply State.catFnLost_keeps
    | with_reducible apply State.settle_keeps
    | split

theorem State.cfgWriteUp_keeps {s0 s : State} (h : s0.Keeps s) (port fn off v en) :
    s0.Keeps (s.cfgWriteUp port fn off v en) := by
  delta State.cfgWriteUp
  repeat' first
    | with_reducible assumption
    | ((fail_if_no_progress (extract_lets +onlyGivenNames x)); first
        | (refine (fun (hk : s0.Keeps x) => ?_) ?_; clear_value x; rotate_left; dsimp -zeta only [x])
        | clear_value x)
    | with_reducible apply State.retryCpl_keeps
    | with_reducible apply State.bmeClear_keeps
    | with_reducible apply State.msixFlush_keeps
    | with_reducible apply State.flrStart_keeps
    | with_reducible apply State.setCfg_keeps
    | with_reducible apply State.bmeOn_keeps
    | with_reducible apply State.bmeOff_keeps
    | with_reducible apply State.setPci_keeps
    | with_reducible apply State.settle_keeps
    | with_reducible apply State.vfsFollow_keeps
    | split

theorem State.cfgWriteDown_keeps {s0 s : State} (h : s0.Keeps s) (k off v en) :
    s0.Keeps (s.cfgWriteDown k off v en) := by
  delta State.cfgWriteDown
  repeat' first
    | with_reducible assumption
    | ((fail_if_no_progress (extract_lets +onlyGivenNames x)); first
        | (refine (fun (hk : s0.Keeps x) => ?_) ?_; clear_value x; rotate_left; dsimp -zeta only [x])
        | clear_value x)
    | with_reducible apply State.setCfg_keeps
    | with_reducible apply State.linkDisable_keeps
    | split

theorem State.dpCfgAccess_keeps {s0 s : State} (h : s0.Keeps s) (k write v status data) :
    s0.Keeps (s.dpCfgAccess k write v status data).2 := by
  delta State.dpCfgAccess
  repeat' first
    | with_reducible assumption
    | ((fail_if_no_progress (extract_lets +onlyGivenNames x)); first
        | (refine (fun (hk : s0.Keeps x) => ?_) ?_; clear_value x; rotate_left; dsimp -zeta only [x])
        | clear_value x)
    | with_reducible apply State.sendTlp_keeps
    | with_reducible apply State.setFld_keeps
    | with_reducible apply State.event_keeps
    | with_reducible apply State.aerUncor_keeps
    | with_reducible apply State.count_keeps
    | split

theorem State.requestTimeout_keeps {s0 s : State} (h : s0.Keeps s) (j tag) :
    s0.Keeps (s.requestTimeout j tag) := by
  delta State.requestTimeout
  repeat' first
    | with_reducible assumption
    | ((fail_if_no_progress (extract_lets +onlyGivenNames x)); first
        | (refine (fun (hk : s0.Keeps x) => ?_) ?_; clear_value x; rotate_left; dsimp -zeta only [x])
        | clear_value x)
    | with_reducible apply State.settle_keeps
    | with_reducible apply State.hostTimeout_keeps
    | with_reducible apply State.event_keeps
    | with_reducible apply State.aerUncor_keeps
    | with_reducible apply State.count_keeps
    | with_reducible apply State.flushEnd_keeps
    | split

theorem State.perstAssert_keeps {s0 s : State} (h : s0.Keeps s) (k) :
    s0.Keeps (s.perstAssert k) := by
  delta State.perstAssert
  repeat' first
    | with_reducible assumption
    | fail_if_no_progress (with_reducible apply State.Keeps.upd)

theorem State.dpReset_keeps {s0 s : State} (h : s0.Keeps s) (k) :
    s0.Keeps (s.dpReset k) := by
  delta State.dpReset
  repeat' first
    | with_reducible assumption
    | ((fail_if_no_progress (extract_lets +onlyGivenNames x)); first
        | (refine (fun (hk : s0.Keeps x) => ?_) ?_; clear_value x; rotate_left; dsimp -zeta only [x])
        | clear_value x)
    | with_reducible apply State.perstAssert_keeps
    | with_reducible apply State.linkDisable_keeps
    | with_reducible apply State.presentNow_keeps
    | with_reducible apply State.setLink_keeps
    | with_reducible apply State.settle_keeps
    | with_reducible apply State.catPortLost_keeps
    | with_reducible apply State.movPortLost_keeps
    | with_reducible apply State.setPciFn_keeps
    | with_reducible apply State.setPci_keeps

end Sys2Proof.Machine
end

