-- ==== Sys2Proof/Laws/KeepsFilter.lean ====
section
/-! SUPPORT. The operations of Machine/Filter.lean keep a state well. -/

namespace Sys2Proof.Machine

open Sys2Proof

theorem State.setKeyEntry_keeps {s0 s : State} (h : s0.Keeps s) (k e) :
    s0.Keeps (s.setKeyEntry k e) := by
  delta State.setKeyEntry
  repeat' first
    | with_reducible assumption
    | fail_if_no_progress (with_reducible apply State.Keeps.upd)

theorem State.keyEnters_keeps {s0 s : State} (h : s0.Keeps s) (k) :
    s0.Keeps (s.keyEnters k).2 := by
  delta State.keyEnters
  repeat' first
    | with_reducible assumption
    | ((fail_if_no_progress (extract_lets +onlyGivenNames x)); clear_value x)
    | with_reducible apply State.recordError_keeps
    | with_reducible apply State.setFld_keeps
    | split

theorem State.keyErased_keeps {s0 s : State} (h : s0.Keeps s) (k) :
    s0.Keeps (s.keyErased k) := by
  delta State.keyErased
  repeat' first
    | with_reducible assumption
    | with_reducible apply State.event_keeps
    | with_reducible apply State.setReg_keeps
    | with_reducible apply State.setKeyEntry_keeps

theorem State.keyEraseComplete_keeps {s0 s : State} (h : s0.Keeps s) (k) :
    s0.Keeps (s.keyEraseComplete k) := by
  delta State.keyEraseComplete
  repeat' first
    | with_reducible assumption
    | with_reducible apply State.keyErased_keeps
    | split

theorem State.keyResult_keeps {s0 s : State} (h : s0.Keeps s) (code idx) :
    s0.Keeps (s.keyResult code idx) := by
  delta State.keyResult
  repeat' first
    | with_reducible assumption
    | ((fail_if_no_progress (extract_lets +onlyGivenNames x)); refine (fun (hk : s0.Keeps x) => ?_) ?_; clear_value x; rotate_left; dsimp -zeta only [x])
    | with_reducible apply State.setFld_keeps

theorem State.keyLoaded_keeps {s0 s : State} (h : s0.Keeps s) (idx v key) :
    s0.Keeps (s.keyLoaded idx v key) := by
  delta State.keyLoaded
  repeat' first
    | with_reducible assumption
    | ((fail_if_no_progress (extract_lets +onlyGivenNames x)); first
        | (refine (fun (hk : s0.Keeps x) => ?_) ?_; clear_value x; rotate_left; dsimp -zeta only [x])
        | clear_value x)
    | with_reducible apply State.setKeyEntry_keeps
    | with_reducible apply State.setReg_keeps
    | with_reducible apply State.setFld_keeps
    | with_reducible apply State.keyResult_keeps

theorem State.keySource_keeps {s0 s : State} (h : s0.Keeps s) (n) :
    s0.Keeps (s.keySource n).2 := by
  delta State.keySource
  repeat' first
    | with_reducible assumption
    | ((fail_if_no_progress (extract_lets +onlyGivenNames x)); clear_value x)
    | with_reducible apply State.devRead_keeps
    | (with_reducible refine State.Keeps.of_eq ?_ (by assumption))
    | split

theorem State.keyLoadPlain_keeps {s0 s : State} (h : s0.Keeps s) (v idx) :
    s0.Keeps (s.keyLoadPlain v idx) := by
  delta State.keyLoadPlain
  repeat' first
    | with_reducible assumption
    | ((fail_if_no_progress (extract_lets +onlyGivenNames x)); clear_value x)
    | with_reducible apply State.keySource_keeps
    | with_reducible apply State.keyResult_keeps
    | with_reducible apply State.keyLoaded_keeps
    | (with_reducible refine State.Keeps.of_eq ?_ (by assumption))
    | split

theorem State.keyLoadWrapped_keeps {s0 s : State} (h : s0.Keeps s) (v idx) :
    s0.Keeps (s.keyLoadWrapped v idx) := by
  delta State.keyLoadWrapped
  repeat' first
    | with_reducible assumption
    | ((fail_if_no_progress (extract_lets +onlyGivenNames x)); clear_value x)
    | with_reducible apply State.keySource_keeps
    | with_reducible apply State.keyResult_keeps
    | with_reducible apply State.keyEnters_keeps
    | with_reducible apply State.keyLoaded_keeps
    | (with_reducible refine State.Keeps.of_eq ?_ (by assumption))
    | split

theorem State.keyErase_keeps {s0 s : State} (h : s0.Keeps s) (idx) :
    s0.Keeps (s.keyErase idx) := by
  delta State.keyErase
  repeat' first
    | with_reducible assumption
    | ((fail_if_no_progress (extract_lets +onlyGivenNames x)); clear_value x)
    | with_reducible apply State.keyResult_keeps
    | with_reducible apply State.keyErased_keeps
    | with_reducible apply State.setFld_keeps
    | split

theorem State.keyCommand_keeps {s0 s : State} (h : s0.Keeps s) (v) :
    s0.Keeps (s.keyCommand v) := by
  delta State.keyCommand
  repeat' first
    | with_reducible assumption
    | ((fail_if_no_progress (extract_lets +onlyGivenNames x)); clear_value x)
    | with_reducible apply State.keyResult_keeps
    | with_reducible apply State.keyErase_keeps
    | with_reducible apply State.keyLoadPlain_keeps
    | with_reducible apply State.keyLoadWrapped_keeps
    | split

theorem State.keyReset_keeps {s0 s : State} (h : s0.Keeps s) :
    s0.Keeps (s.keyReset) := by
  delta State.keyReset
  repeat' first
    | with_reducible assumption
    | fail_if_no_progress (with_reducible apply State.Keeps.upd)

theorem State.setFltUnit_keeps {s0 s : State} (h : s0.Keeps s) (u x) :
    s0.Keeps (s.setFltUnit u x) := by
  delta State.setFltUnit
  repeat' first
    | with_reducible assumption
    | ((fail_if_no_progress (extract_lets +onlyGivenNames x)); clear_value x)
    | fail_if_no_progress (with_reducible apply State.Keeps.upd)

theorem State.setFltRun_keeps {s0 s : State} (h : s0.Keeps s) (u r) :
    s0.Keeps (s.setFltRun u r) := by
  delta State.setFltRun
  repeat' first
    | with_reducible assumption
    | ((fail_if_no_progress (extract_lets +onlyGivenNames x)); clear_value x)
    | with_reducible apply State.setFltUnit_keeps

theorem State.setFltHeld_keeps {s0 s : State} (h : s0.Keeps s) (q w) :
    s0.Keeps (s.setFltHeld q w) := by
  delta State.setFltHeld
  repeat' first
    | with_reducible assumption
    | ((fail_if_no_progress (extract_lets +onlyGivenNames x)); clear_value x)
    | fail_if_no_progress (with_reducible apply State.Keeps.upd)

theorem State.setFltNext_keeps {s0 s : State} (h : s0.Keeps s) (q) :
    s0.Keeps (s.setFltNext q) := by
  delta State.setFltNext
  repeat' first
    | with_reducible assumption
    | ((fail_if_no_progress (extract_lets +onlyGivenNames x)); clear_value x)
    | fail_if_no_progress (with_reducible apply State.Keeps.upd)

theorem State.fltEnable_keeps {s0 s : State} (h : s0.Keeps s) (q) :
    s0.Keeps (s.fltEnable q) := by
  delta State.fltEnable
  repeat' first
    | with_reducible assumption
    | with_reducible apply State.setPosted_keeps
    | with_reducible apply State.setFltHeld_keeps
    | with_reducible apply State.setFld_keeps

theorem State.fltPoll_keeps {s0 s : State} (h : s0.Keeps s) (q) :
    s0.Keeps (s.fltPoll q) := by
  delta State.fltPoll
  repeat' first
    | with_reducible assumption
    | with_reducible apply State.postEntries_keeps
    | with_reducible apply State.readDoorbell_keeps
    | with_reducible apply State.setFld_keeps
    | (with_reducible refine State.Keeps.of_eq ?_ (by assumption))
    | split

theorem State.fltPut_keeps {s0 s : State} (h : s0.Keeps s) (u off bs) :
    s0.Keeps (s.fltPut u off bs) := by
  delta State.fltPut
  repeat' first
    | with_reducible assumption
    | with_reducible apply State.writeMem_keeps

theorem State.fltEnd_keeps {s0 s : State} (h : s0.Keeps s) (u status code) :
    s0.Keeps (s.fltEnd u status code) := by
  delta State.fltEnd
  repeat' first
    | with_reducible assumption
    | ((fail_if_no_progress (extract_lets +onlyGivenNames x)); refine (fun (hk : s0.Keeps x) => ?_) ?_; clear_value x; rotate_left; dsimp -zeta only [x])
    | with_reducible apply State.mapCore_keeps
    | with_reducible apply State.setFltRun_keeps
    | split

theorem State.fltPlace_keeps {s0 s : State} (h : s0.Keeps s) (u fuel) :
    s0.Keeps (s.fltPlace u fuel) := by
  induction fuel generalizing s u with
  | zero =>
    rw [State.fltPlace.eq_def]
    try dsimp -zeta only
    repeat' first
      | with_reducible assumption
  | succ fuel ih =>
    rw [State.fltPlace.eq_def]
    try dsimp -zeta only
    repeat' first
      | with_reducible assumption
      | ((fail_if_no_progress (extract_lets +onlyGivenNames x)); first
          | (refine (fun (hk : s0.Keeps x) => ?_) ?_; clear_value x; rotate_left; dsimp -zeta only [x])
          | (refine (fun (hk : s0.Keeps x.2) => ?_) ?_; clear_value x; rotate_left; dsimp -zeta only [x])
          | clear_value x)
      | with_reducible apply ih
      | with_reducible apply State.load_keeps
      | with_reducible apply State.fltEnd_keeps
      | with_reducible apply State.fltPut_keeps
      | with_reducible apply State.putBit_keeps
      | with_reducible apply State.setFltRun_keeps
      | split

theorem State.fltDrain_keeps {s0 s : State} (h : s0.Keeps s) (u fuel) :
    s0.Keeps (s.fltDrain u fuel).2 := by
  induction fuel generalizing s u with
  | zero =>
    rw [State.fltDrain.eq_def]
    try dsimp -zeta only
    repeat' first
      | with_reducible assumption
  | succ fuel ih =>
    rw [State.fltDrain.eq_def]
    try dsimp -zeta only
    repeat' first
      | with_reducible assumption
      | ((fail_if_no_progress (extract_lets +onlyGivenNames x)); first
          | (refine (fun (hk : s0.Keeps x.2) => ?_) ?_; clear_value x; rotate_left; dsimp -zeta only [x])
          | clear_value x)
      | with_reducible apply ih
      | with_reducible apply State.readMem_keeps
      | with_reducible apply State.store_keeps
      | with_reducible apply State.setFltRun_keeps
      | with_reducible apply State.putBit_keeps
      | split

theorem State.fltPump_keeps {s0 s : State} (h : s0.Keeps s) (u) :
    s0.Keeps (s.fltPump u) := by
  delta State.fltPump
  repeat' first
    | with_reducible assumption
    | ((fail_if_no_progress (extract_lets +onlyGivenNames x)); first
        | (refine (fun (hk : s0.Keeps x) => ?_) ?_; clear_value x; rotate_left; dsimp -zeta only [x])
        | (refine (fun (hk : s0.Keeps x.2) => ?_) ?_; clear_value x; rotate_left; dsimp -zeta only [x]))
    | with_reducible apply State.fltPlace_keeps
    | with_reducible apply State.fltDrain_keeps
    | with_reducible apply State.fltEnd_keeps
    | split

theorem State.filterBit_keeps {s0 s : State} (h : s0.Keeps s) (u b v) :
    s0.Keeps (s.filterBit u b v) := by
  delta State.filterBit
  repeat' first
    | with_reducible assumption
    | ((fail_if_no_progress (extract_lets +onlyGivenNames x)); clear_value x)
    | with_reducible apply State.fltEnd_keeps
    | with_reducible apply State.setFltRun_keeps
    | with_reducible apply State.fltPump_keeps
    | split

theorem State.seqStop_keeps {s0 s : State} (h : s0.Keeps s) (u disagree) :
    s0.Keeps (s.seqStop u disagree) := by
  delta State.seqStop
  repeat' first
    | with_reducible assumption
    | with_reducible apply State.event_keeps
    | with_reducible apply State.recordInternal_keeps
    | with_reducible apply State.fltEnd_keeps
    | split

theorem State.fblk_keeps {s0 s : State} (h : s0.Keeps s) (u inv x) :
    s0.Keeps (s.fblk u inv x).2 := by
  delta State.fblk
  repeat' first
    | with_reducible assumption
    | ((fail_if_no_progress (extract_lets +onlyGivenNames x)); first
        | (refine (fun (hk : s0.Keeps x.2) => ?_) ?_; clear_value x; rotate_left; dsimp -zeta only [x])
        | clear_value x)
    | with_reducible apply State.free_keeps
    | (with_reducible refine State.Keeps.of_eq ?_ (by assumption))
    | split

theorem State.fltProgram_keeps {s0 s : State} (h : s0.Keeps s) (u prog) :
    s0.Keeps (s.fltProgram u prog).2 := by
  delta State.fltProgram
  repeat' first
    | with_reducible assumption
    | ((fail_if_no_progress (extract_lets +onlyGivenNames x)); first
        | (refine (fun (hk : s0.Keeps x) => ?_) ?_; clear_value x; rotate_left; dsimp -zeta only [x])
        | clear_value x)
    | with_reducible apply State.devRead_keeps
    | with_reducible apply State.fltPut_keeps
    | with_reducible apply State.count_keeps
    | with_reducible apply State.setFltUnit_keeps
    | (with_reducible refine State.Keeps.of_eq ?_ (by assumption))
    | split

theorem State.keyCount_keeps {s0 s : State} (h : s0.Keeps s) (ks up) :
    s0.Keeps (s.keyCount ks up) := by
  delta State.keyCount
  repeat' first
    | with_reducible assumption
    | ((fail_if_no_progress (extract_lets +onlyGivenNames x)); clear_value x)
    | with_reducible apply State.setFld_keeps
    | split
    | (with_reducible refine State.Keeps.foldl ?_ ?_)
    | intro _ _ _

theorem State.keysEnter_keeps {s0 s : State} (h : s0.Keeps s) (a) :
    s0.Keeps (s.keysEnter a).2 := by
  induction a generalizing s with
  | nil =>
    rw [State.keysEnter.eq_def]
    try dsimp -zeta only
    repeat' first
      | with_reducible assumption
  | cons a_hd a_tl ih =>
    rw [State.keysEnter.eq_def]
    try dsimp -zeta only
    repeat' first
      | with_reducible assumption
      | with_reducible apply ih
      | with_reducible apply State.keyEnters_keeps
      | (with_reducible refine State.Keeps.of_eq ?_ (by assumption))
      | split

theorem State.fltLaunch_keeps {s0 s : State} (h : s0.Keeps s) (u r param) :
    s0.Keeps (s.fltLaunch u r param) := by
  delta State.fltLaunch
  repeat' first
    | with_reducible assumption
    | ((fail_if_no_progress (extract_lets +onlyGivenNames x)); first
        | (refine (fun (hk : s0.Keeps x) => ?_) ?_; clear_value x; rotate_left; dsimp -zeta only [x])
        | clear_value x)
    | with_reducible apply State.fltPut_keeps
    | with_reducible apply State.setCore_keeps
    | with_reducible apply State.setFltRun_keeps
    | with_reducible apply State.putBit_keeps
    | with_reducible apply State.fltPump_keeps
    | split
    | fail_if_no_progress (with_reducible apply State.Keeps.upd_bits)

theorem State.fltBegin_keeps {s0 s : State} (h : s0.Keeps s) (u r) :
    s0.Keeps (s.fltBegin u r) := by
  delta State.fltBegin
  repeat' first
    | with_reducible assumption
    | ((fail_if_no_progress (extract_lets +onlyGivenNames x)); first
        | (refine (fun (hk : s0.Keeps x) => ?_) ?_; clear_value x; rotate_left; dsimp -zeta only [x])
        | (refine (fun (hk : s0.Keeps x.2) => ?_) ?_; clear_value x; rotate_left; dsimp -zeta only [x])
        | (refine (fun (hc2 : ∀ t a, s0.Keeps t → s0.Keeps (x t a)) => ?_) ?_; clear_value x; rotate_left; intro t a ht; dsimp -zeta only [x])
        | clear_value x)
    | with_reducible apply State.refuse_keeps
    | with_reducible apply State.setFltRun_keeps
    | with_reducible apply State.fltEnd_keeps
    | with_reducible apply State.fltProgram_keeps
    | with_reducible apply State.keysEnter_keeps
    | with_reducible apply State.keyCount_keeps
    | with_reducible apply State.load_keeps
    | with_reducible apply State.fltLaunch_keeps
    | with_reducible apply hc2
    | (with_reducible refine State.Keeps.of_eq ?_ (by assumption))
    | split

theorem State.fltStart_keeps {s0 s : State} (h : s0.Keeps s) :
    s0.Keeps (s.fltStart) := by
  delta State.fltStart
  repeat' first
    | with_reducible assumption
    | ((fail_if_no_progress (extract_lets +onlyGivenNames x)); first
        | (refine (fun (hk : s0.Keeps x) => ?_) ?_; clear_value x; rotate_left; dsimp -zeta only [x])
        | (refine (fun (hk : s0.Keeps x.2) => ?_) ?_; clear_value x; rotate_left; dsimp -zeta only [x])
        | clear_value x)
    | with_reducible apply State.setFltNext_keeps
    | with_reducible apply State.devRead_keeps
    | with_reducible apply State.recordError_keeps
    | with_reducible apply State.setFltHeld_keeps
    | with_reducible apply State.setFld_keeps
    | with_reducible apply State.fltBegin_keeps
    | (with_reducible refine State.Keeps.of_eq ?_ (by assumption))
    | split

theorem State.fltStall_keeps {s0 s : State} (h : s0.Keeps s) (u) :
    s0.Keeps (s.fltStall u) := by
  delta State.fltStall
  repeat' first
    | with_reducible assumption
    | ((fail_if_no_progress (extract_lets +onlyGivenNames x)); first
        | clear_value x)
    | with_reducible apply State.fltEnd_keeps
    | (with_reducible refine State.Keeps.of_eq ?_ (by assumption))
    | (with_reducible refine State.Keeps.of_eq3 ?_ (by assumption))
    | split

theorem State.fltComplete_keeps {s0 s : State} (h : s0.Keeps s) (u) :
    s0.Keeps (s.fltComplete u) := by
  delta State.fltComplete
  repeat' first
    | with_reducible assumption
    | ((fail_if_no_progress (extract_lets +onlyGivenNames x)); first
        | (refine (fun (hk : s0.Keeps x) => ?_) ?_; clear_value x; rotate_left; dsimp -zeta only [x])
        | (refine (fun (hk : s0.Keeps x.2) => ?_) ?_; clear_value x; rotate_left; dsimp -zeta only [x])
        | clear_value x)
    | with_reducible apply State.fltDrain_keeps
    | with_reducible apply State.readMem_keeps
    | with_reducible apply State.store_keeps
    | with_reducible apply State.devWrite_keeps
    | with_reducible apply State.keyCount_keeps
    | with_reducible apply State.setFltUnit_keeps
    | with_reducible apply State.notifyBit_keeps
    | with_reducible apply State.count_keeps
    | (with_reducible refine State.Keeps.of_eq ?_ (by assumption))
    | split

theorem State.fltUnitReset_keeps {s0 s : State} (h : s0.Keeps s) (u) :
    s0.Keeps (s.fltUnitReset u) := by
  delta State.fltUnitReset
  repeat' first
    | with_reducible assumption
    | ((fail_if_no_progress (extract_lets +onlyGivenNames x)); first
        | (refine (fun (hk : s0.Keeps x) => ?_) ?_; clear_value x; rotate_left; dsimp -zeta only [x])
        | clear_value x)
    | with_reducible apply State.fltEnd_keeps
    | with_reducible apply State.setFltUnit_keeps
    | with_reducible apply State.setCore_keeps
    | with_reducible apply State.clearPrivate_keeps

end Sys2Proof.Machine
end

