-- ==== Sys2Proof/Laws/KeepsRootOfTrust.lean ====
section
/-! SUPPORT. The operations of Machine/RootOfTrust.lean keep a state well. -/

namespace Sys2Proof.Machine

open Sys2Proof

theorem State.rotRead_keeps {s0 s : State} (h : s0.Keeps s) (a n) :
    s0.Keeps (s.rotRead a n).2 := by
  delta State.rotRead
  repeat' first
    | with_reducible assumption
    | with_reducible apply State.devRead_keeps
    | (with_reducible refine State.Keeps.of_eq ?_ (by assumption))
    | split

theorem State.imgVerify_keeps {s0 s : State} (h : s0.Keeps s) (a) :
    s0.Keeps (s.imgVerify a).2 := by
  delta State.imgVerify
  repeat' first
    | with_reducible assumption
    | ((fail_if_no_progress (extract_lets +onlyGivenNames x)); clear_value x)
    | with_reducible apply State.rotRead_keeps
    | (with_reducible refine State.Keeps.of_eq ?_ (by assumption))
    | split

theorem State.bootCopy_keeps {s0 s : State} (h : s0.Keeps s) (hdr body) :
    s0.Keeps (s.bootCopy hdr body).2.2 := by
  delta State.bootCopy
  repeat' first
    | with_reducible assumption
    | ((fail_if_no_progress (extract_lets +onlyGivenNames x)); first
        | (refine (fun (hk : s0.Keeps x.2) => ?_) ?_; clear_value x; rotate_left; dsimp -zeta only [x])
        | clear_value x)
    | with_reducible apply State.devWrite_keeps
    | with_reducible apply State.rotRead_keeps
    | (with_reducible refine State.Keeps.of_eq ?_ (by assumption))
    | split

theorem State.bootFrom_keeps {s0 s : State} (h : s0.Keeps s) (boot hdr digest) :
    s0.Keeps (s.bootFrom boot hdr digest) := by
  delta State.bootFrom
  repeat' first
    | with_reducible assumption
    | ((fail_if_no_progress (extract_lets +onlyGivenNames x)); first
        | (refine (fun (hk : s0.Keeps x) => ?_) ?_; clear_value x; rotate_left; dsimp -zeta only [x])
        | clear_value x)
    | with_reducible apply State.setFld_keeps
    | with_reducible apply State.setReg_keeps
    | with_reducible apply State.setFlag_keeps
    | (with_reducible refine State.Keeps.foldl ?_ ?_)
    | intro _ _ _

theorem State.bootFail_keeps {s0 s : State} (h : s0.Keeps s) (code) :
    s0.Keeps (s.bootFail code) := by
  delta State.bootFail
  repeat' first
    | with_reducible assumption
    | with_reducible apply State.setFld_keeps

theorem State.bootSlot_keeps {s0 s : State} (h : s0.Keeps s) (slot) :
    s0.Keeps (s.bootSlot slot).2 := by
  delta State.bootSlot
  repeat' first
    | with_reducible assumption
    | ((fail_if_no_progress (extract_lets +onlyGivenNames x)); first
        | (refine (fun (hk : s0.Keeps x.2.2) => ?_) ?_; clear_value x; rotate_left; dsimp -zeta only [x])
        | clear_value x)
    | with_reducible apply State.bootCopy_keeps
    | with_reducible apply State.bootFrom_keeps
    | split

theorem State.secureBoot_keeps {s0 s : State} (h : s0.Keeps s) (agree) :
    s0.Keeps (s.secureBoot agree) := by
  delta State.secureBoot
  repeat' first
    | with_reducible assumption
    | ((fail_if_no_progress (extract_lets +onlyGivenNames x)); first
        | (refine (fun (hk : s0.Keeps x.2) => ?_) ?_; clear_value x; rotate_left; dsimp -zeta only [x])
        | clear_value x)
    | with_reducible apply State.bootFail_keeps
    | with_reducible apply State.bootSlot_keeps
    | split

theorem State.newNonce_keeps {s0 s : State} (h : s0.Keeps s) :
    s0.Keeps (s.newNonce) := by
  delta State.newNonce
  repeat' first
    | with_reducible assumption
    | ((fail_if_no_progress (extract_lets +onlyGivenNames x)); refine (fun (hk : s0.Keeps x.2) => ?_) ?_; clear_value x; rotate_left; dsimp -zeta only [x])
    | with_reducible apply State.free_keeps
    | with_reducible apply State.setReg_keeps
    | (with_reducible refine State.Keeps.foldl ?_ ?_)
    | intro _ _ _

theorem State.rotRecovery_keeps {s0 s : State} (h : s0.Keeps s) (a) :
    s0.Keeps (s.rotRecovery a).2 := by
  delta State.rotRecovery
  repeat' first
    | with_reducible assumption
    | ((fail_if_no_progress (extract_lets +onlyGivenNames x)); first
        | (refine (fun (hk : s0.Keeps x.2.2) => ?_) ?_; clear_value x; rotate_left; dsimp -zeta only [x])
        | (refine (fun (hc4 : ∀ t a, s0.Keeps t → s0.Keeps (x t a).2) => ?_) ?_; clear_value x; rotate_left; intro t a ht; dsimp -zeta only [x])
        | clear_value x)
    | with_reducible apply State.setFld_keeps
    | with_reducible apply State.rotRead_keeps
    | with_reducible apply State.bootCopy_keeps
    | with_reducible apply State.bootFrom_keeps
    | with_reducible apply hc4
    | (with_reducible refine State.Keeps.of_eq ?_ (by assumption))
    | split

theorem State.svnBroken_keeps {s0 s : State} (h : s0.Keeps s) :
    s0.Keeps (s.svnBroken) := by
  unfold State.svnBroken
  split
  · exact h
  · rename_i old he
    refine h.svnSet rfl rfl rfl rfl rfl ?_ rfl (Nat.le_succ _)
    simp only [State.svnFloor, State.fuseSvn, State.setRot, State.free, he, Option.getD_some, Option.getD_none, min_self]
    omega

theorem State.rotSvnCommit_keeps {s0 s : State} (h : s0.Keeps s) (v) :
    s0.Keeps (s.rotSvnCommit v).2 := by
  unfold State.rotSvnCommit
  split
  · exact h
  · split
    · exact h
    · refine h.svnSet rfl rfl rfl rfl rfl ?_ rfl le_rfl
      rename_i hv
      have : s.fuseSvn ≤ v := by omega
      simp only [State.svnFloor, State.fuseSvn, State.setRot, Option.getD_some] at this ⊢
      omega

theorem State.rotRevoke_keeps {s0 s : State} (h : s0.Keeps s) (v) :
    s0.Keeps (s.rotRevoke v).2 := by
  unfold State.rotRevoke
  split
  · exact h
  · exact State.setRevoked_keeps h _

theorem State.rotUnlock_keeps {s0 s : State} (h : s0.Keeps s) (a) :
    s0.Keeps (s.rotUnlock a).2 := by
  delta State.rotUnlock
  repeat' first
    | with_reducible assumption
    | ((fail_if_no_progress (extract_lets +onlyGivenNames x)); first
        | (have _ : RotState := x; dsimp -zeta only [x]; clear x)
        | (refine (fun (hk : s0.Keeps x) => ?_) ?_; clear_value x; rotate_left; dsimp -zeta only [x])
        | (refine (fun (hk : s0.Keeps x.2) => ?_) ?_; clear_value x; rotate_left; dsimp -zeta only [x])
        | clear_value x)
    | with_reducible apply State.rotRead_keeps
    | with_reducible apply State.newNonce_keeps
    | with_reducible apply State.setRot_keeps
    | split

theorem State.rotCommand_keeps {s0 s : State} (h : s0.Keeps s) (cmd) :
    s0.Keeps (s.rotCommand cmd) := by
  delta State.rotCommand
  repeat' first
    | with_reducible assumption
    | ((fail_if_no_progress (extract_lets +onlyGivenNames x)); first
        | (have _ : RotState := x; dsimp -zeta only [x]; clear x)
        | (refine (fun (hk : s0.Keeps x) => ?_) ?_; clear_value x; rotate_left; dsimp -zeta only [x])
        | (refine (fun (hk : s0.Keeps x.2) => ?_) ?_; clear_value x; rotate_left; dsimp -zeta only [x])
        | clear_value x)
    | with_reducible apply State.imgVerify_keeps
    | with_reducible apply State.rotRecovery_keeps
    | with_reducible apply State.rotSvnCommit_keeps
    | with_reducible apply State.rotRevoke_keeps
    | with_reducible apply State.rotUnlock_keeps
    | with_reducible apply State.setRot_keeps
    | with_reducible apply State.setFld_keeps
    | split

theorem State.rotCmdWrite_keeps {s0 s : State} (h : s0.Keeps s) (host v) :
    s0.Keeps (s.rotCmdWrite host v) := by
  delta State.rotCmdWrite
  repeat' first
    | with_reducible assumption
    | ((fail_if_no_progress (extract_lets +onlyGivenNames x)); clear_value x)
    | with_reducible apply State.recordError_keeps
    | with_reducible apply State.rotCommand_keeps
    | split

theorem State.rotCmdDone_keeps {s0 s : State} (h : s0.Keeps s) :
    s0.Keeps (s.rotCmdDone) := by
  unfold State.rotCmdDone
  split
  · exact h
  · have k : s0.Keeps (s.setRot { s.rot with cmd := none, svnFrom := none }) := by
      refine h.svnSet rfl rfl rfl rfl rfl ?_ rfl le_rfl
      simp only [State.svnFloor, State.fuseSvn, State.setRot, Option.getD_none, min_self]
      omega
    exact State.event_keeps (State.setFld_keeps (State.setFld_keeps k _ _ _ _) _ _ _ _) _

theorem State.flashProgram_keeps {s0 s : State} (h : s0.Keeps s) (off a pages) :
    s0.Keeps (s.flashProgram off a pages).2 := by
  induction pages generalizing s off a with
  | zero =>
    rw [State.flashProgram.eq_def]
    try dsimp -zeta only
    repeat' first
      | with_reducible assumption
  | succ pages ih =>
    rw [State.flashProgram.eq_def]
    try dsimp -zeta only
    repeat' first
      | with_reducible assumption
      | ((fail_if_no_progress (extract_lets +onlyGivenNames x)); first
          | (have _ : RotState := x; dsimp -zeta only [x]; clear x)
          | (refine (fun (hk : s0.Keeps x) => ?_) ?_; clear_value x; rotate_left; dsimp -zeta only [x])
          | clear_value x)
      | with_reducible apply ih
      | with_reducible apply State.rotRead_keeps
      | with_reducible apply State.setRot_keeps
      | (with_reducible refine State.Keeps.of_eq ?_ (by assumption))
      | split

theorem State.flashRead_keeps {s0 s : State} (h : s0.Keeps s) (off a pages) :
    s0.Keeps (s.flashRead off a pages) := by
  induction pages generalizing s off a with
  | zero =>
    rw [State.flashRead.eq_def]
    try dsimp -zeta only
    repeat' first
      | with_reducible assumption
  | succ pages ih =>
    rw [State.flashRead.eq_def]
    try dsimp -zeta only
    repeat' first
      | with_reducible assumption
      | with_reducible apply ih
      | with_reducible apply State.devWrite_keeps

theorem State.flashCommand_keeps {s0 s : State} (h : s0.Keeps s) (v) :
    s0.Keeps (s.flashCommand v) := by
  delta State.flashCommand
  repeat' first
    | with_reducible assumption
    | ((fail_if_no_progress (extract_lets +onlyGivenNames x)); first
        | (have _ : RotState := x; dsimp -zeta only [x]; clear x)
        | (refine (fun (hk : s0.Keeps x.2) => ?_) ?_; clear_value x; rotate_left; dsimp -zeta only [x])
        | (refine (fun (hc8 : ∀ t a b, s0.Keeps t → s0.Keeps (x t a b)) => ?_) ?_; clear_value x; rotate_left; intro t a b ht; dsimp -zeta only [x])
        | clear_value x
        | skip)
    | with_reducible apply State.setFld_keeps
    | with_reducible apply State.setRot_keeps
    | with_reducible apply State.flashRead_keeps
    | with_reducible apply State.flashProgram_keeps
    | with_reducible apply hc8
    | split

theorem State.flashCmdWrite_keeps {s0 s : State} (h : s0.Keeps s) (host v) :
    s0.Keeps (s.flashCmdWrite host v) := by
  delta State.flashCmdWrite
  repeat' first
    | with_reducible assumption
    | with_reducible apply State.recordError_keeps
    | with_reducible apply State.flashCommand_keeps
    | split

theorem State.flashUnknown_keeps {s0 s : State} (h : s0.Keeps s) (off n) :
    s0.Keeps (s.flashUnknown off n) := by
  induction n generalizing s off with
  | zero =>
    rw [State.flashUnknown.eq_def]
    try dsimp -zeta only
    repeat' first
      | with_reducible assumption
  | succ n ih =>
    rw [State.flashUnknown.eq_def]
    try dsimp -zeta only
    repeat' first
      | with_reducible assumption
      | ((fail_if_no_progress (extract_lets +onlyGivenNames x)); first
          | (have _ : RotState := x; dsimp -zeta only [x]; clear x)
          | (refine (fun (hk : s0.Keeps x.2) => ?_) ?_; clear_value x; rotate_left; dsimp -zeta only [x]))
      | with_reducible apply ih
      | with_reducible apply State.free_keeps
      | with_reducible apply State.setRot_keeps

theorem State.flashCmdDone_keeps {s0 s : State} (h : s0.Keeps s) (error) :
    s0.Keeps (s.flashCmdDone error) := by
  delta State.flashCmdDone
  repeat' first
    | with_reducible assumption
    | ((fail_if_no_progress (extract_lets +onlyGivenNames x)); first
        | (have _ : RotState := x; dsimp -zeta only [x]; clear x)
        | (refine (fun (hk : s0.Keeps x) => ?_) ?_; clear_value x; rotate_left; dsimp -zeta only [x])
        | (refine (fun (hk : s0.Keeps x.2) => ?_) ?_; clear_value x; rotate_left; dsimp -zeta only [x]))
    | with_reducible apply State.setRot_keeps
    | with_reducible apply State.recordError_keeps
    | with_reducible apply State.flashUnknown_keeps
    | with_reducible apply State.setFld_keeps
    | with_reducible apply State.event_keeps
    | split

theorem State.flashBroken_keeps {s0 s : State} (h : s0.Keeps s) :
    s0.Keeps (s.flashBroken) := by
  delta State.flashBroken
  repeat' first
    | with_reducible assumption
    | with_reducible apply State.flashUnknown_keeps
    | (with_reducible refine State.Keeps.of_eq ?_ (by assumption))
    | (with_reducible refine State.Keeps.of_eq3 ?_ (by assumption))
    | split

theorem State.rotReset_keeps {s0 s : State} (h : s0.Keeps s) :
    s0.Keeps (s.rotReset) := by
  delta State.rotReset
  repeat' first
    | with_reducible assumption
    | ((fail_if_no_progress (extract_lets +onlyGivenNames x)); have _ : RotState := x; dsimp -zeta only [x]; clear x)
    | with_reducible apply State.svnBroken_keeps
    | with_reducible apply State.flashBroken_keeps
    | with_reducible apply State.newNonce_keeps
    | with_reducible apply State.setRot_keeps

end Sys2Proof.Machine
end

