-- ==== Sys2Proof/Laws/KeepsHeliostat.lean ====
section
/-! SUPPORT. The operations of Machine/Heliostat.lean keep a state well. -/

namespace Sys2Proof.Machine

open Sys2Proof

theorem State.roundOpen_keeps {s0 s : State} (h : s0.Keeps s) (x) :
    s0.Keeps (s.roundOpen x).2 := by
  delta State.roundOpen
  repeat' first
    | with_reducible assumption
    | with_reducible apply State.free_keeps
    | split

theorem State.helSample_keeps {s0 s : State} (h : s0.Keeps s) (mv ca) :
    s0.Keeps (s.helSample mv ca) := by
  delta State.helSample
  repeat' first
    | with_reducible assumption
    | ((fail_if_no_progress (extract_lets +onlyGivenNames x)); clear_value x)
    | with_reducible apply State.roundOpen_keeps
    | with_reducible apply State.setFld_keeps
    | with_reducible apply State.setHel_keeps

theorem State.helBucket_keeps {s0 s : State} (h : s0.Keeps s) (p) :
    s0.Keeps (s.helBucket p).2 := by
  delta State.helBucket
  repeat' first
    | with_reducible assumption
    | ((fail_if_no_progress (extract_lets +onlyGivenNames x)); first
        | (refine (fun (hk : s0.Keeps x) => ?_) ?_; clear_value x; rotate_left; dsimp -zeta only [x])
        | clear_value x)
    | with_reducible apply State.count_keeps
    | with_reducible apply State.setHel_keeps
    | with_reducible apply State.helEvent_keeps
    | with_reducible apply State.setFlag_keeps
    | split

theorem State.helCores_keeps {s0 s : State} (h : s0.Keeps s) (k capBits throttle) :
    s0.Keeps (s.helCores k capBits throttle).2 := by
  delta State.helCores
  repeat' first
    | with_reducible assumption
    | ((fail_if_no_progress (extract_lets +onlyGivenNames x)); first
        | (refine (fun (hk : s0.Keeps x) => ?_) ?_; clear_value x; rotate_left; dsimp -zeta only [x])
        | clear_value x)
    | with_reducible apply State.count_keeps
    | with_reducible apply State.setFld_keeps
    | split
    | (with_reducible refine State.Keeps.foldl_pair ?_ ?_)
    | intro _ _ _

theorem State.helGather_keeps {s0 s : State} (h : s0.Keeps s) (t) :
    s0.Keeps (s.helGather t) := by
  delta State.helGather
  repeat' first
    | with_reducible assumption
    | ((fail_if_no_progress (extract_lets +onlyGivenNames x)); clear_value x)
    | with_reducible apply State.setHel_keeps

theorem State.helArray_keeps {s0 s : State} (h : s0.Keeps s) (t limits cores) :
    s0.Keeps (s.helArray t limits cores) := by
  delta State.helArray
  repeat' first
    | with_reducible assumption
    | ((fail_if_no_progress (extract_lets +onlyGivenNames x)); first
        | (refine (fun (hk : s0.Keeps x) => ?_) ?_; clear_value x; rotate_left; dsimp -zeta only [x])
        | clear_value x)
    | with_reducible apply State.count_keeps
    | with_reducible apply State.setFld_keeps
    | with_reducible apply State.setPrim_keeps
    | with_reducible apply State.setHel_keeps
    | split
    | (with_reducible refine State.Keeps.foldl ?_ ?_)
    | intro _ _ _

theorem State.helTick_keeps {s0 s : State} (h : s0.Keeps s) (t) :
    s0.Keeps (s.helTick t) := by
  delta State.helTick
  extract_lets +onlyGivenNames s1 est s2 e s3 p a
  have h1 : s0.Keeps s1 := State.helGather_keeps h _
  clear_value s1 est
  have h2 : s0.Keeps s2 := by
    unfold s2
    split
    · exact State.helSample_keeps h1 ..
    · exact h1
  clear_value s2
  have h3 : s0.Keeps s3 := State.setFld_keeps (State.roundOpen_keeps h2 _) ..
  clear_value s3 p
  have h4 : s0.Keeps a.2 := State.helBucket_keeps h3 _
  clear_value a
  extract_lets +onlyGivenNames s4 k capBits th s5 s6 s7 c
  have h5 : s0.Keeps s5 := by
    unfold s5
    split
    · exact State.helEvent_keeps h4 _
    · exact h4
  clear_value s5
  have h7 : s0.Keeps s7 := by
    unfold s7
    split
    · exact State.count_keeps (State.setFlag_keeps h5 ..) ..
    · exact State.setFlag_keeps h5 ..
  clear_value s7
  have h8 : s0.Keeps c.2 := State.helCores_keeps h7 ..
  clear_value c
  exact State.noteLevels_keeps (State.helArray_keeps h8 ..)

theorem execHelTick_keeps {s0 s : State} (h : s0.Keeps s) (t) :
    ∃ s', execHelTick t s = .next s' ∧ s0.Keeps s' := by
  refine ⟨_, rfl, ?_⟩
  repeat' first
    | with_reducible assumption
    | with_reducible apply State.primUpsets_keeps
    | with_reducible apply State.helTick_keeps
    | split

theorem State.showCal_keeps {s0 s : State} (h : s0.Keeps s) :
    s0.Keeps (s.showCal) := by
  delta State.showCal
  repeat' first
    | with_reducible assumption
    | with_reducible apply State.roundOpen_keeps
    | with_reducible apply State.setFld_keeps

theorem State.seeMove_keeps {s0 s : State} (h : s0.Keeps s) (f n first sample) :
    s0.Keeps (s.seeMove f n first sample) := by
  delta State.seeMove
  repeat' first
    | with_reducible assumption
    | ((fail_if_no_progress (extract_lets +onlyGivenNames x)); clear_value x)
    | with_reducible apply State.roundOpen_keeps
    | with_reducible apply State.setFld_keeps

theorem State.seeLearn_keeps {s0 s : State} (h : s0.Keeps s) (n a) :
    s0.Keeps (s.seeLearn n a) := by
  delta State.seeLearn
  repeat' first
    | with_reducible assumption
    | ((fail_if_no_progress (extract_lets +onlyGivenNames x)); first
        | (refine (fun (hk : s0.Keeps x) => ?_) ?_; clear_value x; rotate_left; dsimp -zeta only [x])
        | clear_value x)
    | with_reducible apply State.seeMove_keeps
    | with_reducible apply State.setFld_keeps
    | split

theorem State.setDisagree_keeps {s0 s : State} (h : s0.Keeps s) (v) :
    s0.Keeps (s.setDisagree v) := by
  delta State.setDisagree
  repeat' first
    | with_reducible assumption
    | with_reducible apply State.helEvent_keeps
    | with_reducible apply State.setFlag_keeps
    | split

theorem State.helWindow_keeps {s0 s : State} (h : s0.Keeps s) :
    s0.Keeps (s.helWindow) := by
  delta State.helWindow
  repeat' first
    | with_reducible assumption
    | ((fail_if_no_progress (extract_lets +onlyGivenNames x)); first
        | (refine (fun (hk : s0.Keeps x) => ?_) ?_; clear_value x; rotate_left; dsimp -zeta only [x])
        | clear_value x)
    | with_reducible apply State.setFlag_keeps
    | with_reducible apply State.helEvent_keeps
    | with_reducible apply State.count_keeps
    | with_reducible apply State.setFld_keeps
    | with_reducible apply State.setDisagree_keeps
    | with_reducible apply State.showCal_keeps
    | with_reducible apply State.setHel_keeps
    | with_reducible apply State.seeLearn_keeps
    | with_reducible apply State.noteLevels_keeps
    | split
    | (with_reducible refine State.Keeps.foldl ?_ ?_)
    | intro _ _ _

theorem execHelWindow_keeps {s0 s : State} (h : s0.Keeps s) :
    ∃ s', execHelWindow s = .next s' ∧ s0.Keeps s' := by
  refine ⟨_, rfl, ?_⟩
  repeat' first
    | with_reducible assumption
    | with_reducible apply State.helWindow_keeps
    | split

theorem State.thermMove_keeps {s0 s : State} (h : s0.Keeps s) (up) :
    s0.Keeps (s.thermMove up) := by
  delta State.thermMove
  repeat' first
    | with_reducible assumption
    | ((fail_if_no_progress (extract_lets +onlyGivenNames x)); clear_value x)
    | with_reducible apply State.setHel_keeps

theorem State.thermal_keeps {s0 s : State} (h : s0.Keeps s) (margin) :
    s0.Keeps (s.thermal margin) := by
  delta State.thermal
  repeat' first
    | with_reducible assumption
    | ((fail_if_no_progress (extract_lets +onlyGivenNames x)); first
        | (refine (fun (hk : s0.Keeps x) => ?_) ?_; clear_value x; rotate_left; dsimp -zeta only [x])
        | clear_value x)
    | with_reducible apply State.thermMove_keeps
    | with_reducible apply State.setHel_keeps
    | split

theorem State.tripCheck_keeps {s0 s : State} (h : s0.Keeps s) (hottest) :
    s0.Keeps (s.tripCheck hottest) := by
  delta State.tripCheck
  repeat' first
    | with_reducible assumption
    | ((fail_if_no_progress (extract_lets +onlyGivenNames x)); clear_value x)
    | with_reducible apply State.helEvent_keeps
    | with_reducible apply State.setFlag_keeps
    | with_reducible apply State.setHel_keeps
    | split

theorem State.thermalSample_keeps {s0 s : State} (h : s0.Keeps s) (dies) :
    s0.Keeps (s.thermalSample dies) := by
  delta State.thermalSample
  repeat' first
    | with_reducible assumption
    | ((fail_if_no_progress (extract_lets +onlyGivenNames x)); first
        | (refine (fun (hk : s0.Keeps x.2) => ?_) ?_; clear_value x; rotate_left; dsimp -zeta only [x])
        | clear_value x)
    | with_reducible apply State.free_keeps
    | with_reducible apply State.setFld_keeps
    | with_reducible apply State.noteLevels_keeps
    | with_reducible apply State.tripCheck_keeps
    | with_reducible apply State.thermal_keeps
    | split

theorem execThermalSample_keeps {s0 s : State} (h : s0.Keeps s) (dies) :
    ∃ s', execThermalSample dies s = .next s' ∧ s0.Keeps s' := by
  refine ⟨_, rfl, ?_⟩
  repeat' first
    | with_reducible assumption
    | with_reducible apply State.thermalSample_keeps
    | split

theorem State.helDerate_keeps {s0 s : State} (h : s0.Keeps s) (v) :
    s0.Keeps (s.helDerate v) := by
  delta State.helDerate
  repeat' first
    | with_reducible assumption
    | ((fail_if_no_progress (extract_lets +onlyGivenNames x)); first
        | (refine (fun (hk : s0.Keeps x) => ?_) ?_; clear_value x; rotate_left; dsimp -zeta only [x])
        | skip)
    | with_reducible apply State.setFld_keeps
    | with_reducible apply State.noteLevels_keeps
    | split

theorem State.helMonData_keeps {s0 s : State} (h : s0.Keeps s) :
    s0.Keeps (s.helMonData).2 := by
  delta State.helMonData
  repeat' first
    | with_reducible assumption
    | ((fail_if_no_progress (extract_lets +onlyGivenNames x)); clear_value x)
    | with_reducible apply State.free_keeps
    | split

end Sys2Proof.Machine
end

