-- ==== Sys2Proof/Laws/KeepsChrono.lean ====
section
/-! SUPPORT. The operations of Machine/Chrono.lean keep a state well. -/

namespace Sys2Proof.Machine

open Sys2Proof

theorem State.setChr_keeps {s0 s : State} (h : s0.Keeps s) (c) :
    s0.Keeps (s.setChr c) := by
  delta State.setChr
  repeat' first
    | with_reducible assumption
    | fail_if_no_progress (with_reducible apply State.Keeps.upd)

theorem State.setPendingNs_keeps {s0 s : State} (h : s0.Keeps s) (p) :
    s0.Keeps (s.setPendingNs p) := by
  delta State.setPendingNs
  repeat' first
    | with_reducible assumption
    | with_reducible apply State.setFlag_keeps
    | with_reducible apply State.setReg_keeps

theorem State.tbAdvance_keeps {s0 s : State} (h : s0.Keeps s) (n) :
    s0.Keeps (s.tbAdvance n) := by
  delta State.tbAdvance
  repeat' first
    | with_reducible assumption
    | ((fail_if_no_progress (extract_lets +onlyGivenNames x)); first
        | (refine (fun (hk : s0.Keeps x) => ?_) ?_; clear_value x; rotate_left; dsimp -zeta only [x])
        | clear_value x)
    | with_reducible apply State.count_keeps
    | with_reducible apply State.setChr_keeps
    | with_reducible apply State.setPendingNs_keeps
    | split
    | fail_if_no_progress (with_reducible apply State.Keeps.upd)

theorem State.tbStep_keeps {s0 s : State} (h : s0.Keeps s) (v) :
    s0.Keeps (s.tbStep v) := by
  delta State.tbStep
  repeat' first
    | with_reducible assumption
    | ((fail_if_no_progress (extract_lets +onlyGivenNames x)); clear_value x)
    | with_reducible apply State.setChr_keeps
    | with_reducible apply State.setPendingNs_keeps
    | split
    | fail_if_no_progress (with_reducible apply State.Keeps.upd)

theorem State.countTime_keeps {s0 s : State} (h : s0.Keeps s) (t n) :
    s0.Keeps (s.countTime t n) := by
  delta State.countTime
  repeat' first
    | with_reducible assumption
    | ((fail_if_no_progress (extract_lets +onlyGivenNames x)); first
        | (refine (fun (hk : s0.Keeps x) => ?_) ?_; clear_value x; rotate_left; dsimp -zeta only [x])
        | clear_value x)
    | with_reducible apply State.countIn_keeps
    | (with_reducible refine State.Keeps.foldl ?_ ?_)
    | intro _ _ _

theorem State.countIntake_keeps {s0 s : State} (h : s0.Keeps s) (t n) :
    s0.Keeps (s.countIntake t n) := by
  delta State.countIntake
  repeat' first
    | with_reducible assumption
    | with_reducible apply State.count_keeps
    | split

theorem State.setWdt_keeps {s0 s : State} (h : s0.Keeps s) (n v) :
    s0.Keeps (s.setWdt n v) := by
  delta State.setWdt
  repeat' first
    | with_reducible assumption
    | ((fail_if_no_progress (extract_lets +onlyGivenNames x)); clear_value x)
    | fail_if_no_progress (with_reducible apply State.Keeps.upd)

theorem State.setBeat_keeps {s0 s : State} (h : s0.Keeps s) (p v) :
    s0.Keeps (s.setBeat p v) := by
  delta State.setBeat
  repeat' first
    | with_reducible assumption
    | intro _ _ _
    | intro _ _
    | fail_if_no_progress (with_reducible apply State.Keeps.upd)

theorem State.advanceNs_keeps {s0 s : State} (h : s0.Keeps s) (n) :
    s0.Keeps (s.advanceNs n) := by
  delta State.advanceNs
  repeat' first
    | with_reducible assumption
    | ((fail_if_no_progress (extract_lets +onlyGivenNames x)); first
        | (refine (fun (hk : s0.Keeps x) => ?_) ?_; clear_value x; rotate_left; dsimp -zeta only [x])
        | clear_value x)
    | with_reducible apply State.countIntake_keeps
    | with_reducible apply State.setBeat_keeps
    | with_reducible apply State.tbAdvance_keeps
    | with_reducible apply State.countTime_keeps
    | with_reducible apply State.setWdt_keeps
    | with_reducible apply State.count_keeps
    | split
    | (with_reducible refine State.Keeps.foldl ?_ ?_)
    | intro _ _ _
    | fail_if_no_progress (with_reducible apply State.Keeps.upd)

theorem State.squelch_keeps {s0 s : State} (h : s0.Keeps s) :
    s0.Keeps (s.squelch) := by
  delta State.squelch
  repeat' first
    | with_reducible assumption
    | with_reducible apply State.ethLinkChange_keeps
    | (with_reducible refine State.Keeps.foldl ?_ ?_)
    | intro _ _ _

theorem State.perstAll_keeps {s0 s : State} (h : s0.Keeps s) :
    s0.Keeps (s.perstAll) := by
  delta State.perstAll
  repeat' first
    | with_reducible assumption
    | ((fail_if_no_progress (extract_lets +onlyGivenNames x)); first
        | (refine (fun (hk : s0.Keeps x) => ?_) ?_; clear_value x; rotate_left; dsimp -zeta only [x])
        | clear_value x)
    | with_reducible apply State.setChr_keeps
    | with_reducible apply State.linkChange_keeps
    | (with_reducible refine State.Keeps.foldl ?_ ?_)
    | intro _ _ _

theorem State.safeStates_keeps {s0 s : State} (h : s0.Keeps s) :
    s0.Keeps (s.safeStates) := by
  delta State.safeStates
  repeat' first
    | with_reducible assumption
    | with_reducible apply State.squelch_keeps
    | with_reducible apply State.perstAll_keeps
    | with_reducible apply State.setFlag_keeps

theorem State.sourceFail_keeps {s0 s : State} (h : s0.Keeps s) (c) :
    s0.Keeps (s.sourceFail c) := by
  delta State.sourceFail
  repeat' first
    | with_reducible assumption
    | ((fail_if_no_progress (extract_lets +onlyGivenNames x)); first
        | (refine (fun (hk : s0.Keeps x) => ?_) ?_; clear_value x; rotate_left; dsimp -zeta only [x])
        | clear_value x)
    | with_reducible apply State.fundamental_keeps
    | with_reducible apply State.setFlag_keeps
    | with_reducible apply State.setChr_keeps
    | with_reducible apply State.safeStates_keeps
    | with_reducible apply State.count_keeps
    | with_reducible apply State.linkChange_keeps
    | with_reducible apply State.noteLevels_keeps
    | with_reducible apply State.event_keeps
    | split

theorem State.sourceStable_keeps {s0 s : State} (h : s0.Keeps s) (c) :
    s0.Keeps (s.sourceStable c) := by
  delta State.sourceStable
  repeat' first
    | with_reducible assumption
    | ((fail_if_no_progress (extract_lets +onlyGivenNames x)); first
        | (refine (fun (hk : s0.Keeps x) => ?_) ?_; clear_value x; rotate_left; dsimp -zeta only [x])
        | clear_value x)
    | with_reducible apply State.setFlag_keeps
    | with_reducible apply State.setChr_keeps
    | with_reducible apply State.noteLevels_keeps
    | with_reducible apply State.event_keeps
    | split

theorem State.safeRelease_keeps {s0 s : State} (h : s0.Keeps s) :
    s0.Keeps (s.safeRelease) := by
  delta State.safeRelease
  repeat' first
    | with_reducible assumption
    | with_reducible apply State.noteLevels_keeps
    | with_reducible apply State.setFlag_keeps
    | with_reducible apply State.recordError_keeps
    | split

theorem State.setInput_keeps {s0 s : State} (h : s0.Keeps s) (i on) :
    s0.Keeps (s.setInput i on) := by
  delta State.setInput
  repeat' first
    | with_reducible assumption
    | ((fail_if_no_progress (extract_lets +onlyGivenNames x)); clear_value x)
    | fail_if_no_progress (with_reducible apply State.Keeps.upd)

theorem State.inputEffect_keeps {s0 s : State} (h : s0.Keeps s) (i on) :
    s0.Keeps (s.inputEffect i on) := by
  delta State.inputEffect
  repeat' first
    | with_reducible assumption
    | with_reducible apply State.fundamental_keeps
    | with_reducible apply State.linkChange_keeps
    | with_reducible apply State.presence_keeps
    | with_reducible apply State.event_keeps
    | split

theorem State.inputSticks_keeps {s0 s : State} (h : s0.Keeps s) (i) :
    s0.Keeps (s.inputSticks i) := by
  delta State.inputSticks
  repeat' first
    | with_reducible assumption
    | ((fail_if_no_progress (extract_lets +onlyGivenNames x)); refine (fun (hk : s0.Keeps x) => ?_) ?_; clear_value x; rotate_left; dsimp -zeta only [x])
    | with_reducible apply State.setFld_keeps
    | with_reducible apply State.event_keeps
    | with_reducible apply State.count_keeps
    | split

theorem State.stuckClear_keeps {s0 s : State} (h : s0.Keeps s) (v) :
    s0.Keeps (s.stuckClear v) := by
  delta State.stuckClear
  repeat' first
    | with_reducible assumption
    | ((fail_if_no_progress (extract_lets +onlyGivenNames x)); clear_value x)
    | with_reducible apply State.setFld_keeps

theorem State.perstRelease_keeps {s0 s : State} (h : s0.Keeps s) (k) :
    s0.Keeps (s.perstRelease k) := by
  delta State.perstRelease
  repeat' first
    | with_reducible assumption
    | ((fail_if_no_progress (extract_lets +onlyGivenNames x)); clear_value x)
    | with_reducible apply State.setChr_keeps
    | split

theorem State.chrReset_keeps {s0 s : State} (h : s0.Keeps s) :
    s0.Keeps (s.chrReset) := by
  delta State.chrReset
  repeat' first
    | with_reducible assumption
    | ((fail_if_no_progress (extract_lets +onlyGivenNames x)); first
        | (refine (fun (hk : s0.Keeps x) => ?_) ?_; clear_value x; rotate_left; dsimp -zeta only [x])
        | clear_value x)
    | with_reducible apply State.setFlag_keeps
    | with_reducible apply State.setEthPort_keeps
    | (with_reducible refine State.Keeps.foldl ?_ ?_)
    | intro _ _ _

end Sys2Proof.Machine
end

