-- ==== Sys2Proof/Laws/KeepsDome.lean ====
section
/-! SUPPORT. The operations of Machine/Dome.lean keep a state well. -/

namespace Sys2Proof.Machine

open Sys2Proof

theorem State.wdtReload_keeps {s0 s : State} (h : s0.Keeps s) (n) :
    s0.Keeps (s.wdtReload n) := by
  delta State.wdtReload
  repeat' first
    | with_reducible assumption
    | with_reducible apply State.setWdt_keeps

theorem State.wdtKick_keeps {s0 s : State} (h : s0.Keeps s) (a n) :
    s0.Keeps (s.wdtKick a n) := by
  delta State.wdtKick
  repeat' first
    | with_reducible assumption
    | ((fail_if_no_progress (extract_lets +onlyGivenNames x)); clear_value x)
    | with_reducible apply State.count_keeps
    | with_reducible apply State.wdtReload_keeps
    | with_reducible apply State.recordError_keeps
    | split

theorem State.wdtCapture_keeps {s0 s : State} (h : s0.Keeps s) (n pc) :
    s0.Keeps (s.wdtCapture n pc) := by
  delta State.wdtCapture
  repeat' first
    | with_reducible assumption
    | ((fail_if_no_progress (extract_lets +onlyGivenNames x)); first
        | (refine (fun (hk : s0.Keeps x) => ?_) ?_; clear_value x; rotate_left; dsimp -zeta only [x])
        | clear_value x)
    | with_reducible apply State.setReg_keeps
    | with_reducible apply State.setFld_keeps
    | with_reducible apply State.count_keeps
    | fail_if_no_progress (with_reducible apply State.Keeps.upd)

theorem State.wdtRecord_keeps {s0 s : State} (h : s0.Keeps s) (n pc) :
    s0.Keeps (s.wdtRecord n pc) := by
  delta State.wdtRecord
  repeat' first
    | with_reducible assumption
    | ((fail_if_no_progress (extract_lets +onlyGivenNames x)); first
        | (refine (fun (hk : s0.Keeps x) => ?_) ?_; clear_value x; rotate_left; dsimp -zeta only [x])
        | clear_value x)
    | with_reducible apply State.event_keeps
    | with_reducible apply State.recordError_keeps
    | with_reducible apply State.routeFire_keeps
    | with_reducible apply State.count_keeps
    | with_reducible apply State.setFlag_keeps
    | split

theorem State.heartbeat_keeps {s0 s : State} (h : s0.Keeps s) (p count) :
    s0.Keeps (s.heartbeat p count) := by
  delta State.heartbeat
  repeat' first
    | with_reducible assumption
    | ((fail_if_no_progress (extract_lets +onlyGivenNames x)); refine (fun (hk : s0.Keeps x) => ?_) ?_; clear_value x; rotate_left; dsimp -zeta only [x])
    | with_reducible apply State.setBeat_keeps
    | with_reducible apply State.count_keeps
    | with_reducible apply State.setFld_keeps
    | with_reducible apply State.setFlag_keeps
    | split

theorem State.heartbeatExpires_keeps {s0 s : State} (h : s0.Keeps s) (p) :
    s0.Keeps (s.heartbeatExpires p) := by
  delta State.heartbeatExpires
  repeat' first
    | with_reducible assumption
    | with_reducible apply State.event_keeps
    | with_reducible apply State.count_keeps
    | with_reducible apply State.setFlag_keeps
    | split

theorem State.attach_keeps {s0 s : State} (h : s0.Keeps s) (p) :
    s0.Keeps (s.attach p) := by
  delta State.attach
  repeat' first
    | with_reducible assumption
    | ((fail_if_no_progress (extract_lets +onlyGivenNames x)); refine (fun (hk : s0.Keeps x) => ?_) ?_; clear_value x; rotate_left; dsimp -zeta only [x])
    | with_reducible apply State.setFlag_keeps
    | with_reducible apply State.setFld_keeps
    | with_reducible apply State.event_keeps
    | with_reducible apply State.count_keeps
    | with_reducible apply State.settle_keeps
    | with_reducible apply State.catQueueReset_keeps
    | (with_reducible refine State.Keeps.foldl ?_ ?_)
    | intro _ _ _

theorem State.slotsWrite_keeps {s0 s : State} (h : s0.Keeps s) (off n v) :
    s0.Keeps (s.slotsWrite off n v) := by
  delta State.slotsWrite
  repeat' first
    | with_reducible assumption
    | ((fail_if_no_progress (extract_lets +onlyGivenNames x)); clear_value x)
    | fail_if_no_progress (with_reducible apply State.Keeps.upd)

theorem State.sensorValue_keeps {s0 s : State} (h : s0.Keeps s) (k) :
    s0.Keeps (s.sensorValue k).2 := by
  delta State.sensorValue
  repeat' first
    | with_reducible assumption
    | with_reducible apply State.free_keeps
    | split

theorem State.mctpRequest_keeps {s0 s : State} (h : s0.Keeps s) (smbus addr sensor) :
    s0.Keeps (s.mctpRequest smbus addr sensor) := by
  delta State.mctpRequest
  repeat' first
    | with_reducible assumption
    | ((fail_if_no_progress (extract_lets +onlyGivenNames x)); first
        | (refine (fun (hk : s0.Keeps x) => ?_) ?_; clear_value x; rotate_left; dsimp -zeta only [x])
        | clear_value x)
    | with_reducible apply State.sensorValue_keeps
    | with_reducible apply State.count_keeps
    | (with_reducible refine State.Keeps.of_eq ?_ (by assumption))
    | split
    | fail_if_no_progress (with_reducible apply State.Keeps.upd)

end Sys2Proof.Machine
end

