-- ==== Sys2Proof/Laws/KeepsExposures.lean ====
section
/-! SUPPORT. The operations of Machine/Exposures.lean keep a state well. -/

namespace Sys2Proof.Machine

open Sys2Proof

theorem State.setExp_keeps {s0 s : State} (h : s0.Keeps s) (e) :
    s0.Keeps (s.setExp e) := by
  delta State.setExp
  repeat' first
    | with_reducible assumption
    | fail_if_no_progress (with_reducible apply State.Keeps.upd)

theorem State.expEnable_keeps {s0 s : State} (h : s0.Keeps s) :
    s0.Keeps (s.expEnable) := by
  delta State.expEnable
  repeat' first
    | with_reducible assumption
    | ((fail_if_no_progress (extract_lets +onlyGivenNames x)); first
        | (refine (fun (hk : s0.Keeps x) => ?_) ?_; clear_value x; rotate_left; dsimp -zeta only [x])
        | (refine (fun (hc1 : ∀ t, s0.Keeps t → s0.Keeps (x t)) => ?_) ?_; clear_value x; rotate_left; intro t ht; dsimp -zeta only [x])
        | clear_value x)
    | with_reducible apply State.refuse_keeps
    | with_reducible apply State.recordError_keeps
    | with_reducible apply State.setFlag_keeps
    | with_reducible apply State.devRead_keeps
    | with_reducible apply State.setExp_keeps
    | with_reducible apply State.setFld_keeps
    | with_reducible apply hc1
    | (with_reducible refine State.Keeps.of_eq ?_ (by assumption))
    | split

theorem State.expTick_keeps {s0 s : State} (h : s0.Keeps s) :
    s0.Keeps (s.expTick) := by
  delta State.expTick
  repeat' first
    | with_reducible assumption
    | ((fail_if_no_progress (extract_lets +onlyGivenNames x)); first
        | (refine (fun (hk : s0.Keeps x) => ?_) ?_; clear_value x; rotate_left; dsimp -zeta only [x])
        | (refine (fun (hc1 : ∀ t, s0.Keeps t → s0.Keeps (x t)) => ?_) ?_; clear_value x; rotate_left; intro t ht; dsimp -zeta only [x])
        | clear_value x)
    | with_reducible apply State.event_keeps
    | with_reducible apply State.setExp_keeps
    | with_reducible apply State.devWrite_keeps
    | with_reducible apply State.setFld_keeps
    | with_reducible apply State.notifyBit_keeps
    | with_reducible apply State.recordError_keeps
    | with_reducible apply hc1
    | (with_reducible refine State.Keeps.of_eq ?_ (by assumption))
    | split

theorem execExposureTick_keeps {s0 s : State} (h : s0.Keeps s) :
    ∃ s', execExposureTick s = .next s' ∧ s0.Keeps s' := by
  refine ⟨_, rfl, ?_⟩
  repeat' first
    | with_reducible assumption
    | with_reducible apply State.expTick_keeps

end Sys2Proof.Machine
end

