-- ==== Sys2Proof/Laws/KeepsCells.lean ====
section
/-! SUPPORT. The operations of Machine/Cells.lean keep a state well. -/

namespace Sys2Proof.Machine

open Sys2Proof

theorem State.coreStop_keeps {s0 s : State} (h : s0.Keeps s) (c) :
    s0.Keeps (s.coreStop c) := by
  delta State.coreStop
  repeat' first
    | with_reducible assumption
    | with_reducible apply State.mapCore_keeps

theorem State.coreClear_keeps {s0 s : State} (h : s0.Keeps s) (c) :
    s0.Keeps (s.coreClear c) := by
  delta State.coreClear
  repeat' first
    | with_reducible assumption
    | with_reducible apply State.clearMem_keeps
    | with_reducible apply State.setCore_keeps
    | with_reducible apply State.clearPrivate_keeps

theorem State.unitUp_keeps {s0 s : State} (h : s0.Keeps s) (cell) :
    s0.Keeps (s.unitUp cell) := by
  delta State.unitUp
  repeat' first
    | with_reducible assumption
    | with_reducible apply State.classifyAll_keeps
    | with_reducible apply State.shtUpdate_keeps
    | with_reducible apply State.coreUp_keeps
    | with_reducible apply State.settle_keeps
    | with_reducible apply State.catCellUp_keeps
    | with_reducible apply State.trnCellUp_keeps
    | with_reducible apply State.upCellUp_keeps
    | with_reducible apply State.ephUp_keeps
    | with_reducible apply State.wdtReload_keeps
    | split

theorem State.unitDown_keeps {s0 s : State} (h : s0.Keeps s) (cell) :
    s0.Keeps (s.unitDown cell) := by
  delta State.unitDown
  repeat' first
    | with_reducible assumption
    | ((fail_if_no_progress (extract_lets +onlyGivenNames x)); clear_value x)
    | with_reducible apply State.linkDisable_keeps
    | with_reducible apply State.perstAssert_keeps
    | with_reducible apply State.settle_keeps
    | with_reducible apply State.catCellDown_keeps
    | with_reducible apply State.trnCellDown_keeps
    | with_reducible apply State.upCellDown_keeps
    | with_reducible apply State.setChr_keeps
    | split

theorem State.cellChange_keeps {s0 s : State} (h : s0.Keeps s) (cell f) (hf : ∀ t, s0.Keeps t → s0.Keeps (f t)) :
    s0.Keeps (s.cellChange cell f) := by
  delta State.cellChange
  repeat' first
    | with_reducible assumption
    | ((fail_if_no_progress (extract_lets +onlyGivenNames x)); first
        | (refine (fun (hk : s0.Keeps x) => ?_) ?_; clear_value x; rotate_left; dsimp -zeta only [x])
        | clear_value x)
    | with_reducible apply State.unitDown_keeps
    | with_reducible apply State.count_keeps
    | with_reducible apply State.setFlag_keeps
    | with_reducible apply State.noteLevels_keeps
    | with_reducible apply State.unitUp_keeps
    | with_reducible apply hf
    | (with_reducible refine State.Keeps.foldl ?_ ?_)
    | intro _ _ _

theorem State.leaveOff_keeps {s0 s : State} (h : s0.Keeps s) (cell) :
    s0.Keeps (s.leaveOff cell) := by
  delta State.leaveOff
  repeat' first
    | with_reducible assumption
    | with_reducible apply State.setFlag_keeps
    | split

theorem State.setEn_keeps {s0 s : State} (h : s0.Keeps s) (cell en) :
    s0.Keeps (s.setEn cell en) := by
  delta State.setEn
  repeat' first
    | with_reducible assumption
    | with_reducible apply State.cellChange_keeps
    | with_reducible apply State.leaveOff_keeps
    | with_reducible apply State.setFlag_keeps
    | split
    | intro _ _

theorem State.unitQuiesced_keeps {s0 s : State} (h : s0.Keeps s) (cell) :
    s0.Keeps (s.unitQuiesced cell) := by
  delta State.unitQuiesced
  repeat' first
    | with_reducible assumption
    | with_reducible apply State.coreStop_keeps
    | with_reducible apply State.ethDown_keeps
    | with_reducible apply State.ephDown_keeps
    | split

theorem State.quiesceDone_keeps {s0 s : State} (h : s0.Keeps s) (cell) :
    s0.Keeps (s.quiesceDone cell) := by
  delta State.quiesceDone
  repeat' first
    | with_reducible assumption
    | ((fail_if_no_progress (extract_lets +onlyGivenNames x)); refine (fun (hk : s0.Keeps x) => ?_) ?_; clear_value x; rotate_left; dsimp -zeta only [x])
    | with_reducible apply State.cellChange_keeps
    | with_reducible apply State.unitQuiesced_keeps
    | with_reducible apply State.setFld_keeps
    | with_reducible apply State.setFlag_keeps
    | split
    | intro _ _

theorem execQuiesceComplete_keeps {s0 s : State} (h : s0.Keeps s) (cell) :
    ∃ s', execQuiesceComplete cell s = .next s' ∧ s0.Keeps s' := by
  refine ⟨_, rfl, ?_⟩
  repeat' first
    | with_reducible assumption
    | with_reducible apply State.quiesceDone_keeps
    | split

theorem State.unitFault_keeps {s0 s : State} (h : s0.Keeps s) (cell) :
    s0.Keeps (s.unitFault cell) := by
  delta State.unitFault
  repeat' first
    | with_reducible assumption
    | ((fail_if_no_progress (extract_lets +onlyGivenNames x)); first
        | (refine (fun (hk : s0.Keeps x) => ?_) ?_; clear_value x; rotate_left; dsimp -zeta only [x])
        | clear_value x)
    | with_reducible apply State.primEnd_keeps
    | with_reducible apply State.primMemoryFail_keeps
    | with_reducible apply State.movFaulted_keeps
    | with_reducible apply State.aerUncor_keeps
    | with_reducible apply State.linkDisable_keeps
    | with_reducible apply State.perstAssert_keeps
    | with_reducible apply State.event_keeps
    | (with_reducible refine State.Keeps.of_eq ?_ (by assumption))
    | (with_reducible refine State.Keeps.of_eq3 ?_ (by assumption))
    | split

theorem State.faultCell_keeps {s0 s : State} (h : s0.Keeps s) (cell) :
    s0.Keeps (s.faultCell cell) := by
  delta State.faultCell
  repeat' first
    | with_reducible assumption
    | ((fail_if_no_progress (extract_lets +onlyGivenNames x)); first
        | (refine (fun (hk : s0.Keeps x) => ?_) ?_; clear_value x; rotate_left; dsimp -zeta only [x])
        | clear_value x)
    | with_reducible apply State.unitFault_keeps
    | with_reducible apply State.enterFault_keeps
    | with_reducible apply State.unitDown_keeps
    | with_reducible apply State.primEnd_keeps
    | with_reducible apply State.noteLevels_keeps
    | with_reducible apply State.movFaulted_keeps
    | split
    | (with_reducible refine State.Keeps.foldl ?_ ?_)
    | intro _ _ _

theorem State.dropDone_keeps {s0 s : State} (h : s0.Keeps s) (c) :
    s0.Keeps (s.dropDone c) := by
  delta State.dropDone
  repeat' first
    | with_reducible assumption
    | ((fail_if_no_progress (extract_lets +onlyGivenNames x)); first
        | (refine (fun (hk : s0.Keeps x) => ?_) ?_; clear_value x; rotate_left; dsimp -zeta only [x])
        | clear_value x)
    | with_reducible apply State.setPrim_keeps
    | fail_if_no_progress (with_reducible apply State.Keeps.upd)

theorem State.clearBits_keeps {s0 s : State} (h : s0.Keeps s) (lo hi) :
    s0.Keeps (s.clearBits lo hi) := by
  delta State.clearBits
  repeat' first
    | with_reducible assumption
    | with_reducible apply State.putBit_keeps
    | (with_reducible refine State.Keeps.foldl ?_ ?_)
    | intro _ _ _

theorem State.unitReset_keeps {s0 s : State} (h : s0.Keeps s) (cell) :
    s0.Keeps (s.unitReset cell) := by
  delta State.unitReset
  repeat' first
    | with_reducible assumption
    | ((fail_if_no_progress (extract_lets +onlyGivenNames x)); first
        | (refine (fun (hk : s0.Keeps x) => ?_) ?_; clear_value x; rotate_left; dsimp -zeta only [x])
        | clear_value x)
    | with_reducible apply State.linkDisable_keeps
    | with_reducible apply State.primReset_keeps
    | with_reducible apply State.primEnd_keeps
    | with_reducible apply State.clearMem_keeps
    | with_reducible apply State.movReset_keeps
    | with_reducible apply State.clearBits_keeps
    | with_reducible apply State.flushCluster_keeps
    | with_reducible apply State.coreClear_keeps
    | with_reducible apply State.dropDone_keeps
    | with_reducible apply State.dropInbox_keeps
    | with_reducible apply State.fundamental_keeps
    | with_reducible apply State.dpReset_keeps
    | with_reducible apply State.ethDown_keeps
    | with_reducible apply State.spgReset_keeps
    | with_reducible apply State.shtReset_keeps
    | with_reducible apply State.trnReset_keeps
    | with_reducible apply State.colCellReset_keeps
    | with_reducible apply State.catReset_keeps
    | with_reducible apply State.fltUnitReset_keeps
    | with_reducible apply State.keyReset_keeps
    | with_reducible apply State.ephReset_keeps
    | with_reducible apply State.chrReset_keeps
    | with_reducible apply State.setHel_keeps
    | with_reducible apply State.accordEnd_keeps
    | split
    | fail_if_no_progress (with_reducible apply State.Keeps.upd)

theorem State.clearRegs_keeps {s0 s : State} (h : s0.Keeps s) (cell) :
    s0.Keeps (s.clearRegs cell) := by
  delta State.clearRegs
  repeat' first
    | with_reducible assumption
    | ((fail_if_no_progress (extract_lets +onlyGivenNames x)); clear_value x)
    | fail_if_no_progress (with_reducible apply State.Keeps.upd)

theorem State.unitFresh_keeps {s0 s : State} (h : s0.Keeps s) (cell) :
    s0.Keeps (s.unitFresh cell) := by
  delta State.unitFresh
  repeat' first
    | with_reducible assumption
    | with_reducible apply State.setFld_keeps
    | with_reducible apply State.ephFresh_keeps
    | with_reducible apply State.setFlag_keeps
    | with_reducible apply State.rotReset_keeps
    | split

theorem State.resetCell_keeps {s0 s : State} (h : s0.Keeps s) (cell) :
    s0.Keeps (s.resetCell cell) := by
  delta State.resetCell
  repeat' first
    | with_reducible assumption
    | ((fail_if_no_progress (extract_lets +onlyGivenNames x)); first
        | (refine (fun (hk : s0.Keeps x) => ?_) ?_; clear_value x; rotate_left; dsimp -zeta only [x])
        | clear_value x)
    | with_reducible apply State.count_keeps
    | with_reducible apply State.clearRegs_keeps
    | with_reducible apply State.unitReset_keeps
    | with_reducible apply State.setReg_keeps
    | with_reducible apply State.unitFresh_keeps

theorem State.resetTree_keeps {s0 s : State} (h : s0.Keeps s) (cell) :
    s0.Keeps (s.resetTree cell) := by
  delta State.resetTree
  repeat' first
    | with_reducible assumption
    | with_reducible apply State.noteLevels_keeps
    | with_reducible apply State.settle_keeps
    | with_reducible apply State.resetCell_keeps
    | (with_reducible refine State.Keeps.foldl ?_ ?_)
    | intro _ _ _

theorem State.cellReset_keeps {s0 s : State} (h : s0.Keeps s) (cell) :
    s0.Keeps (s.cellReset cell) := by
  delta State.cellReset
  repeat' first
    | with_reducible assumption
    | with_reducible apply State.resetTree_keeps
    | split

theorem State.restartCores_keeps {s0 s : State} (h : s0.Keeps s) (cells) :
    s0.Keeps (s.restartCores cells) := by
  delta State.restartCores
  repeat' first
    | with_reducible assumption
    | ((fail_if_no_progress (extract_lets +onlyGivenNames x)); first
        | (refine (fun (hk : s0.Keeps x) => ?_) ?_; clear_value x; rotate_left; dsimp -zeta only [x])
        | clear_value x)
    | with_reducible apply State.setFlag_keeps
    | (with_reducible refine State.Keeps.foldl ?_ ?_)
    | intro _ _ _
    | fail_if_no_progress (with_reducible apply State.Keeps.upd)

theorem State.resetDone_keeps {s0 s : State} (h : s0.Keeps s) (cell) :
    s0.Keeps (s.resetDone cell) := by
  delta State.resetDone
  repeat' first
    | with_reducible assumption
    | ((fail_if_no_progress (extract_lets +onlyGivenNames x)); clear_value x)
    | with_reducible apply State.cellChange_keeps
    | with_reducible apply State.restartCores_keeps
    | with_reducible apply State.setFlag_keeps
    | split
    | (with_reducible refine State.Keeps.foldl ?_ ?_)
    | intro _ _ _
    | intro _ _

theorem execCellResetComplete_keeps {s0 s : State} (h : s0.Keeps s) (cell) :
    ∃ s', execCellResetComplete cell s = .next s' ∧ s0.Keeps s' := by
  refine ⟨_, rfl, ?_⟩
  repeat' first
    | with_reducible assumption
    | with_reducible apply State.resetDone_keeps
    | split

theorem State.gateApply_keeps {s0 s : State} (h : s0.Keeps s) (cell) :
    s0.Keeps (s.gateApply cell) := by
  delta State.gateApply
  repeat' first
    | with_reducible assumption
    | ((fail_if_no_progress (extract_lets +onlyGivenNames x)); clear_value x)
    | with_reducible apply State.setFld_keeps
    | split

theorem execPowerGateApply_keeps {s0 s : State} (h : s0.Keeps s) (cell) :
    ∃ s', execPowerGateApply cell s = .next s' ∧ s0.Keeps s' := by
  refine ⟨_, rfl, ?_⟩
  repeat' first
    | with_reducible assumption
    | with_reducible apply State.gateApply_keeps
    | split

theorem execPowerRestoreComplete_keeps {s0 s : State} (h : s0.Keeps s) (cell) :
    ∃ s', execPowerRestoreComplete cell s = .next s' ∧ s0.Keeps s' := by
  refine ⟨_, rfl, ?_⟩
  repeat' first
    | with_reducible assumption
    | with_reducible apply State.cellChange_keeps
    | with_reducible apply State.setFld_keeps
    | split
    | intro _ _

theorem execSmcTrainingComplete_keeps {s0 s : State} (h : s0.Keeps s) (stack ok) :
    ∃ s', execSmcTrainingComplete stack ok s = .next s' ∧ s0.Keeps s' := by
  refine ⟨_, rfl, ?_⟩
  repeat' first
    | with_reducible assumption
    | with_reducible apply State.cellChange_keeps
    | with_reducible apply State.setFlag_keeps
    | with_reducible apply State.faultCell_keeps
    | with_reducible apply State.recordError_keeps
    | split
    | intro _ _

theorem execSmcTempUpdate_keeps {s0 s : State} (h : s0.Keeps s) (stack tempC) :
    ∃ s', execSmcTempUpdate stack tempC s = .next s' ∧ s0.Keeps s' := by
  refine ⟨_, rfl, ?_⟩
  repeat' first
    | with_reducible assumption
    | with_reducible apply State.setFld_keeps
    | split

theorem State.warmBegin_keeps {s0 s : State} (h : s0.Keeps s) (cause) :
    s0.Keeps (s.warmBegin cause) := by
  delta State.warmBegin
  repeat' first
    | with_reducible assumption
    | ((fail_if_no_progress (extract_lets +onlyGivenNames x)); first
        | (have _ : RotState := x; dsimp -zeta only [x]; clear x)
        | (refine (fun (hk : s0.Keeps x) => ?_) ?_; clear_value x; rotate_left; dsimp -zeta only [x])
        | clear_value x)
    | with_reducible apply State.resetTree_keeps
    | with_reducible apply State.setFld_keeps
    | with_reducible apply State.noteLevels_keeps
    | with_reducible apply State.setChr_keeps
    | split
    | fail_if_no_progress (with_reducible apply State.Keeps.upd_bits)

theorem State.bringUp_keeps {s0 s : State} (h : s0.Keeps s) :
    s0.Keeps (s.bringUp) := by
  delta State.bringUp
  repeat' first
    | with_reducible assumption
    | ((fail_if_no_progress (extract_lets +onlyGivenNames x)); first
        | (have _ : RotState := x; dsimp -zeta only [x]; clear x)
        | (refine (fun (hk : s0.Keeps x) => ?_) ?_; clear_value x; rotate_left; dsimp -zeta only [x])
        | clear_value x)
    | with_reducible apply State.setChr_keeps
    | with_reducible apply State.cellChange_keeps
    | with_reducible apply State.setFlag_keeps
    | split
    | (with_reducible refine State.Keeps.foldl ?_ ?_)
    | intro _ _ _
    | intro _ _
    | fail_if_no_progress (with_reducible apply State.Keeps.upd_rot)

theorem execBootCellsEnable_keeps {s0 s : State} (h : s0.Keeps s) :
    ∃ s', execBootCellsEnable s = .next s' ∧ s0.Keeps s' := by
  refine ⟨_, rfl, ?_⟩
  repeat' first
    | with_reducible assumption
    | with_reducible apply State.bringUp_keeps

theorem execWarmReset_keeps {s0 s : State} (h : s0.Keeps s) (c) :
    ∃ s', execWarmReset c s = .next s' ∧ s0.Keeps s' := by
  refine ⟨_, rfl, ?_⟩
  repeat' first
    | with_reducible assumption
    | ((fail_if_no_progress (extract_lets +onlyGivenNames x)); clear_value x)
    | with_reducible apply State.warmBegin_keeps
    | with_reducible apply State.setChr_keeps
    | split

theorem execSourceStable_keeps {s0 s : State} (h : s0.Keeps s) (c) :
    ∃ s', execSourceStable c s = .next s' ∧ s0.Keeps s' := by
  refine ⟨_, rfl, ?_⟩
  repeat' first
    | with_reducible assumption
    | ((fail_if_no_progress (extract_lets +onlyGivenNames x)); first
        | (refine (fun (hk : s0.Keeps x) => ?_) ?_; clear_value x; rotate_left; dsimp -zeta only [x])
        | clear_value x)
    | with_reducible apply State.sourceStable_keeps
    | with_reducible apply State.warmBegin_keeps
    | with_reducible apply State.setFlag_keeps
    | with_reducible apply State.setChr_keeps
    | split

theorem execSourceFail_keeps {s0 s : State} (h : s0.Keeps s) (c) :
    ∃ s', execSourceFail c s = .next s' ∧ s0.Keeps s' := by
  refine ⟨_, rfl, ?_⟩
  repeat' first
    | with_reducible assumption
    | with_reducible apply State.sourceFail_keeps
    | split

theorem execInputChange_keeps {s0 s : State} (h : s0.Keeps s) (i on) :
    ∃ s', execInputChange i on s = .next s' ∧ s0.Keeps s' := by
  refine ⟨_, rfl, ?_⟩
  repeat' first
    | with_reducible assumption
    | ((fail_if_no_progress (extract_lets +onlyGivenNames x)); refine (fun (hk : s0.Keeps x) => ?_) ?_; clear_value x; rotate_left; dsimp -zeta only [x])
    | with_reducible apply State.setInput_keeps
    | with_reducible apply State.warmBegin_keeps
    | with_reducible apply State.noteLevels_keeps
    | with_reducible apply State.inputEffect_keeps
    | split

theorem execInputStuck_keeps {s0 s : State} (h : s0.Keeps s) (i) :
    ∃ s', execInputStuck i s = .next s' ∧ s0.Keeps s' := by
  refine ⟨_, rfl, ?_⟩
  repeat' first
    | with_reducible assumption
    | with_reducible apply State.inputSticks_keeps

theorem execDpPerstRelease_keeps {s0 s : State} (h : s0.Keeps s) (k) :
    ∃ s', execDpPerstRelease k s = .next s' ∧ s0.Keeps s' := by
  refine ⟨_, rfl, ?_⟩
  repeat' first
    | with_reducible assumption
    | with_reducible apply State.perstRelease_keeps

theorem execDomeCoreStart_keeps {s0 s : State} (h : s0.Keeps s) (n) :
    ∃ s', execDomeCoreStart n s = .next s' ∧ s0.Keeps s' := by
  refine ⟨_, rfl, ?_⟩
  repeat' first
    | with_reducible assumption
    | ((fail_if_no_progress (extract_lets +onlyGivenNames x)); first
        | (refine (fun (hk : s0.Keeps x) => ?_) ?_; clear_value x; rotate_left; dsimp -zeta only [x])
        | clear_value x)
    | with_reducible apply State.startCore_keeps
    | with_reducible apply State.setChr_keeps
    | split

theorem execWatchdogExpiry_keeps {s0 s : State} (h : s0.Keeps s) (n) :
    ∃ s', execWatchdogExpiry n s = .next s' ∧ s0.Keeps s' := by
  refine ⟨_, rfl, ?_⟩
  repeat' first
    | with_reducible assumption
    | ((fail_if_no_progress (extract_lets +onlyGivenNames x)); first
        | (refine (fun (hk : s0.Keeps x) => ?_) ?_; clear_value x; rotate_left; dsimp -zeta only [x])
        | clear_value x)
    | with_reducible apply State.resetTree_keeps
    | with_reducible apply State.wdtCapture_keeps
    | with_reducible apply State.setWdt_keeps
    | with_reducible apply State.wdtRecord_keeps
    | split
    | fail_if_no_progress (with_reducible apply State.Keeps.upd)

theorem execHeartbeatExpiry_keeps {s0 s : State} (h : s0.Keeps s) (p) :
    ∃ s', execHeartbeatExpiry p s = .next s' ∧ s0.Keeps s' := by
  refine ⟨_, rfl, ?_⟩
  repeat' first
    | with_reducible assumption
    | with_reducible apply State.heartbeatExpires_keeps

theorem execMctpRequest_keeps {s0 s : State} (h : s0.Keeps s) (smbus addr sensor) :
    ∃ s', execMctpRequest smbus addr sensor s = .next s' ∧ s0.Keeps s' := by
  refine ⟨_, rfl, ?_⟩
  repeat' first
    | with_reducible assumption
    | with_reducible apply State.mctpRequest_keeps

theorem State.powerLost_keeps {s0 s : State} (h : s0.Keeps s) (p) :
    s0.Keeps (s.powerLost p) :=
  (State.flashBroken_keeps (State.svnBroken_keeps h)).blank rfl rfl rfl rfl rfl rfl rfl rfl rfl

theorem State.powerStart_keeps {s0 s : State} (h : s0.Keeps s) :
    s0.Keeps (s.powerStart) := by
  delta State.powerStart
  repeat' first
    | with_reducible assumption
    | ((fail_if_no_progress (extract_lets +onlyGivenNames x)); first
        | clear_value x)
    | with_reducible apply State.presentNow_keeps
    | split
    | (with_reducible refine State.Keeps.foldl ?_ ?_)
    | (with_reducible refine State.Keeps.foldl_pair ?_ ?_)
    | (with_reducible refine State.Keeps.foldl_triple ?_ ?_)
    | intro _ _ _
    | intro _ _
    | fail_if_no_progress (with_reducible apply State.Keeps.upd)

theorem execPowerOnResetEnd_keeps {s0 s : State} (h : s0.Keeps s) :
    ∃ s', execPowerOnResetEnd s = .next s' ∧ s0.Keeps s' := by
  refine ⟨_, rfl, ?_⟩
  repeat' first
    | with_reducible assumption
    | with_reducible apply State.powerStart_keeps

theorem execInputPowerUp_keeps {s0 s : State} (h : s0.Keeps s) :
    ∃ s', execInputPowerUp s = .next s' ∧ s0.Keeps s' := by
  refine ⟨_, rfl, ?_⟩
  repeat' first
    | with_reducible assumption
    | ((fail_if_no_progress (extract_lets +onlyGivenNames x)); clear_value x)
    | fail_if_no_progress (with_reducible apply State.Keeps.upd)

theorem execPwrEnAssert_keeps {s0 s : State} (h : s0.Keeps s) :
    ∃ s', execPwrEnAssert s = .next s' ∧ s0.Keeps s' := by
  refine ⟨_, rfl, ?_⟩
  repeat' first
    | with_reducible assumption
    | ((fail_if_no_progress (extract_lets +onlyGivenNames x)); clear_value x)
    | with_reducible apply State.powerStart_keeps
    | fail_if_no_progress (with_reducible apply State.Keeps.upd)

theorem execPwrEnDeassert_keeps {s0 s : State} (h : s0.Keeps s) :
    ∃ s', execPwrEnDeassert s = .next s' ∧ s0.Keeps s' := by
  refine ⟨_, rfl, ?_⟩
  repeat' first
    | with_reducible assumption
    | ((fail_if_no_progress (extract_lets +onlyGivenNames x)); clear_value x)
    | with_reducible apply State.powerLost_keeps

theorem execPowerLoss_keeps {s0 s : State} (h : s0.Keeps s) :
    ∃ s', execPowerLoss s = .next s' ∧ s0.Keeps s' := by
  refine ⟨_, rfl, ?_⟩
  repeat' first
    | with_reducible assumption
    | ((fail_if_no_progress (extract_lets +onlyGivenNames x)); clear_value x)
    | with_reducible apply State.powerLost_keeps

theorem execThermalShutdown_keeps {s0 s : State} (h : s0.Keeps s) :
    ∃ s', execThermalShutdown s = .next s' ∧ s0.Keeps s' := by
  refine ⟨_, rfl, ?_⟩
  repeat' first
    | with_reducible assumption
    | ((fail_if_no_progress (extract_lets +onlyGivenNames x)); clear_value x)
    | with_reducible apply State.powerLost_keeps
    | split

theorem execStandbyRailLoss_keeps {s0 s : State} (h : s0.Keeps s) :
    ∃ s', execStandbyRailLoss s = .next s' ∧ s0.Keeps s' := by
  refine ⟨_, rfl, ?_⟩
  repeat' first
    | with_reducible assumption
    | ((fail_if_no_progress (extract_lets +onlyGivenNames x)); clear_value x)
    | with_reducible apply State.powerLost_keeps

end Sys2Proof.Machine
end

