-- ==== Sys2Proof/Laws/KeepsAccess.lean ====
section
/-! SUPPORT. The operations of Machine/Access.lean keep a state well. -/

namespace Sys2Proof.Machine

open Sys2Proof

theorem State.putFields_keeps {s0 s : State} (h : s0.Keeps s) (r cell i v) :
    s0.Keeps (s.putFields r cell i v) := by
  delta State.putFields
  repeat' first
    | with_reducible assumption
    | with_reducible apply State.setReg_keeps

theorem State.freeEntries_keeps {s0 s : State} (h : s0.Keeps s) (n) :
    s0.Keeps (s.freeEntries n).2 := by
  induction n generalizing s with
  | zero =>
    rw [State.freeEntries.eq_def]
    try dsimp -zeta only
    repeat' first
      | with_reducible assumption
  | succ n ih =>
    rw [State.freeEntries.eq_def]
    try dsimp -zeta only
    repeat' first
      | with_reducible assumption
      | ((fail_if_no_progress (extract_lets +onlyGivenNames x)); refine (fun (hk : s0.Keeps x.2) => ?_) ?_; clear_value x; rotate_left; dsimp -zeta only [x])
      | with_reducible apply ih
      | with_reducible apply State.free_keeps

theorem State.debugDepth_keeps {s0 s : State} (h : s0.Keeps s) (c v) :
    s0.Keeps (s.debugDepth c v) := by
  delta State.debugDepth
  repeat' first
    | with_reducible assumption
    | ((fail_if_no_progress (extract_lets +onlyGivenNames x)); first
        | (refine (fun (hk : s0.Keeps x.2) => ?_) ?_; clear_value x; rotate_left; dsimp -zeta only [x])
        | clear_value x)
    | with_reducible apply State.freeEntries_keeps
    | with_reducible apply State.mapCore_keeps

theorem State.debugWrite_keeps {s0 s : State} (h : s0.Keeps s) (c sel v) :
    s0.Keeps (s.debugWrite c sel v) := by
  delta State.debugWrite
  repeat' first
    | with_reducible assumption
    | ((fail_if_no_progress (extract_lets +onlyGivenNames x)); first
        | (refine (fun (hk : s0.Keeps x) => ?_) ?_; clear_value x; rotate_left; dsimp -zeta only [x])
        | clear_value x)
    | with_reducible apply State.mapCore_keeps
    | with_reducible apply State.debugDepth_keeps
    | with_reducible apply State.recordError_keeps
    | split

theorem State.debugCtrl_keeps {s0 s : State} (h : s0.Keeps s) (c v) :
    s0.Keeps (s.debugCtrl c v) := by
  delta State.debugCtrl
  repeat' first
    | with_reducible assumption
    | ((fail_if_no_progress (extract_lets +onlyGivenNames x)); first
        | (refine (fun (hk : s0.Keeps x) => ?_) ?_; clear_value x; rotate_left; dsimp -zeta only [x])
        | clear_value x)
    | with_reducible apply State.setFlag_keeps
    | with_reducible apply State.mapCore_keeps
    | with_reducible apply State.haltCore_keeps
    | with_reducible apply State.setReg_keeps
    | split

theorem State.regValue_keeps {s0 s : State} (h : s0.Keeps s) (r cell i) :
    s0.Keeps (s.regValue r cell i).2 := by
  delta State.regValue
  repeat' first
    | with_reducible assumption
    | ((fail_if_no_progress (extract_lets +onlyGivenNames x)); refine (fun (hk : s0.Keeps x.2) => ?_) ?_; clear_value x; rotate_left; dsimp -zeta only [x])
    | with_reducible apply State.txtsTime_keeps
    | with_reducible apply State.helMonData_keeps
    | with_reducible apply State.free_keeps
    | with_reducible apply State.dpCfgAccess_keeps
    | split

theorem State.apertureRead_keeps {s0 s : State} (h : s0.Keeps s) (cell off n) :
    s0.Keeps (s.apertureRead cell off n).2.2 := by
  delta State.apertureRead
  repeat' first
    | with_reducible assumption
    | with_reducible apply State.readMem_keeps
    | with_reducible apply State.recordError_keeps
    | split

theorem State.apertureWrite_keeps {s0 s : State} (h : s0.Keeps s) (cell off n v) :
    s0.Keeps (s.apertureWrite cell off n v) := by
  delta State.apertureWrite
  repeat' first
    | with_reducible assumption
    | with_reducible apply State.writeMem_keeps
    | with_reducible apply State.recordError_keeps
    | split

theorem State.outboundRead_keeps {s0 s : State} (h : s0.Keeps s) (k off n) :
    s0.Keeps (s.outboundRead k off n).2 := by
  delta State.outboundRead
  repeat' first
    | with_reducible assumption
    | ((fail_if_no_progress (extract_lets +onlyGivenNames x)); first
        | (refine (fun (hk : s0.Keeps x.2) => ?_) ?_; clear_value x; rotate_left; dsimp -zeta only [x])
        | clear_value x)
    | with_reducible apply State.free_keeps
    | with_reducible apply State.sendTlp_keeps
    | with_reducible apply State.recordError_keeps
    | split

theorem State.outboundWrite_keeps {s0 s : State} (h : s0.Keeps s) (k off n v) :
    s0.Keeps (s.outboundWrite k off n v) := by
  delta State.outboundWrite
  repeat' first
    | with_reducible assumption
    | ((fail_if_no_progress (extract_lets +onlyGivenNames x)); first
        | (refine (fun (hk : s0.Keeps x) => ?_) ?_; clear_value x; rotate_left; dsimp -zeta only [x])
        | clear_value x)
    | with_reducible apply State.sendTlp_keeps
    | with_reducible apply State.nvmeReset_keeps
    | split

theorem State.regRead_keeps {s0 s : State} (h : s0.Keeps s) (init a n) :
    s0.Keeps (s.regRead init a n).2.2 := by
  delta State.regRead
  repeat' first
    | with_reducible assumption
    | ((fail_if_no_progress (extract_lets +onlyGivenNames x)); first
        | (refine (fun (hk : s0.Keeps x.2) => ?_) ?_; clear_value x; rotate_left; dsimp -zeta only [x])
        | (refine (fun (hk : s0.Keeps x.2.2) => ?_) ?_; clear_value x; rotate_left; dsimp -zeta only [x])
        | (refine (fun (hc10 : ∀ t, s0.Keeps t → s0.Keeps (x t).2.2) => ?_) ?_; clear_value x; rotate_left; intro t ht; dsimp -zeta only [x]))
    | with_reducible apply State.recordError_keeps
    | with_reducible apply State.regValue_keeps
    | with_reducible apply State.apertureRead_keeps
    | with_reducible apply State.outboundRead_keeps
    | with_reducible apply hc10
    | split

theorem State.rwpTake_keeps {s0 s : State} (h : s0.Keeps s) (f cell) :
    s0.Keeps (s.rwpTake f cell) := by
  delta State.rwpTake
  repeat' first
    | with_reducible assumption
    | with_reducible apply State.setFld_keeps
    | split

theorem State.mapTake_keeps {s0 s : State} (h : s0.Keeps s) (cell) :
    s0.Keeps (s.mapTake cell) := by
  delta State.mapTake
  repeat' first
    | with_reducible assumption
    | ((fail_if_no_progress (extract_lets +onlyGivenNames x)); clear_value x)
    | with_reducible apply State.setFld_keeps
    | with_reducible apply State.recordError_keeps
    | split

theorem State.rwpCommit_keeps {s0 s : State} (h : s0.Keeps s) (r cell) :
    s0.Keeps (s.rwpCommit r cell) := by
  delta State.rwpCommit
  repeat' first
    | with_reducible assumption
    | with_reducible apply State.mapTake_keeps
    | with_reducible apply State.rwpTake_keeps
    | split
    | (with_reducible refine State.Keeps.foldl ?_ ?_)
    | intro _ _ _

theorem State.rwpDisagree_keeps {s0 s : State} (h : s0.Keeps s) (r cell) :
    s0.Keeps (s.rwpDisagree r cell) := by
  delta State.rwpDisagree
  repeat' first
    | with_reducible assumption
    | ((fail_if_no_progress (extract_lets +onlyGivenNames x)); first
        | (refine (fun (hk : s0.Keeps x) => ?_) ?_; clear_value x; rotate_left; dsimp -zeta only [x])
        | clear_value x)
    | with_reducible apply State.faultCell_keeps
    | with_reducible apply State.recordError_keeps
    | with_reducible apply State.setFld_keeps
    | split
    | (with_reducible refine State.Keeps.foldl ?_ ?_)
    | intro _ _ _

theorem State.errClear_keeps {s0 s : State} (h : s0.Keeps s) (cell valid overflow) :
    s0.Keeps (s.errClear cell valid overflow) := by
  delta State.errClear
  repeat' first
    | with_reducible assumption
    | ((fail_if_no_progress (extract_lets +onlyGivenNames x)); refine (fun (hk : s0.Keeps x) => ?_) ?_; clear_value x; rotate_left; dsimp -zeta only [x])
    | with_reducible apply State.setFld_keeps
    | with_reducible apply State.setFlag_keeps
    | split

theorem State.expCtrl_keeps {s0 s : State} (h : s0.Keeps s) (v) :
    s0.Keeps (s.expCtrl v) := by
  delta State.expCtrl
  repeat' first
    | with_reducible assumption
    | ((fail_if_no_progress (extract_lets +onlyGivenNames x)); first
        | (refine (fun (hk : s0.Keeps x) => ?_) ?_; clear_value x; rotate_left; dsimp -zeta only [x])
        | clear_value x)
    | with_reducible apply State.recordError_keeps
    | with_reducible apply State.setFlag_keeps
    | with_reducible apply State.setFld_keeps
    | with_reducible apply State.expEnable_keeps
    | split

theorem State.ringCfg_keeps {s0 s : State} (h : s0.Keeps s) (r cell i v start) (hstart : ∀ t, s0.Keeps t → s0.Keeps (start t)) :
    s0.Keeps (s.ringCfg r cell i v start) := by
  delta State.ringCfg
  repeat' first
    | with_reducible assumption
    | ((fail_if_no_progress (extract_lets +onlyGivenNames x)); first
        | (refine (fun (hk : s0.Keeps x) => ?_) ?_; clear_value x; rotate_left; dsimp -zeta only [x])
        | clear_value x)
    | with_reducible apply State.putFields_keeps
    | with_reducible apply hstart
    | split

theorem State.nodeCfg_keeps {s0 s : State} (h : s0.Keeps s) (r i v key) :
    s0.Keeps (s.nodeCfg r i v key) := by
  delta State.nodeCfg
  repeat' first
    | with_reducible assumption
    | with_reducible apply State.recordError_keeps
    | with_reducible apply State.shtUpdate_keeps
    | with_reducible apply State.ringCfg_keeps
    | with_reducible apply State.fillNode_keeps
    | split
    | intro _ _

theorem State.catCtrl_keeps {s0 s : State} (h : s0.Keeps s) (q v) :
    s0.Keeps (s.catCtrl q v) := by
  delta State.catCtrl
  repeat' first
    | with_reducible assumption
    | ((fail_if_no_progress (extract_lets +onlyGivenNames x)); refine (fun (hk : s0.Keeps x) => ?_) ?_; clear_value x; rotate_left; dsimp -zeta only [x])
    | with_reducible apply State.catQueueReset_keeps
    | with_reducible apply State.settle_keeps
    | with_reducible apply State.catWriteEn_keeps
    | split

theorem State.dirtyCtrl_keeps {s0 s : State} (h : s0.Keeps s) (port v x) :
    s0.Keeps (s.dirtyCtrl port v x) := by
  delta State.dirtyCtrl
  repeat' first
    | with_reducible assumption
    | ((fail_if_no_progress (extract_lets +onlyGivenNames x)); refine (fun (hk : s0.Keeps x) => ?_) ?_; clear_value x; rotate_left; dsimp -zeta only [x])
    | with_reducible apply State.dirtySwap_keeps
    | with_reducible apply State.settle_keeps
    | with_reducible apply State.dirtyLogEn_keeps
    | split

theorem State.regEffect_keeps {s0 s : State} (h : s0.Keeps s) (g r cell i v) :
    s0.Keeps (s.regEffect g r cell i v) := by
  delta State.regEffect
  repeat' first
    | with_reducible assumption
    | ((fail_if_no_progress (extract_lets +onlyGivenNames x)); first
        | (refine (fun (hk : s0.Keeps x) => ?_) ?_; clear_value x; rotate_left; dsimp -zeta only [x])
        | (refine (fun (hk : s0.Keeps x.2) => ?_) ?_; clear_value x; rotate_left; dsimp -zeta only [x])
        | clear_value x)
    | with_reducible apply State.txrWithdraw_keeps
    | with_reducible apply State.postEntries_keeps
    | with_reducible apply State.putFields_keeps
    | with_reducible apply State.setEn_keeps
    | with_reducible apply State.cellReset_keeps
    | with_reducible apply State.errClear_keeps
    | with_reducible apply State.rwpCommit_keeps
    | with_reducible apply State.primFlush_keeps
    | with_reducible apply State.movFlush_keeps
    | with_reducible apply State.setFlag_keeps
    | with_reducible apply State.flushCluster_keeps
    | with_reducible apply State.gclPostImage_keeps
    | with_reducible apply State.debugCtrl_keeps
    | with_reducible apply State.debugWrite_keeps
    | with_reducible apply State.settle_keeps
    | with_reducible apply State.colCommand_keeps
    | with_reducible apply State.setFld_keeps
    | with_reducible apply State.regionCommand_keeps
    | with_reducible apply State.sqTailWritten_keeps
    | with_reducible apply State.ringCfg_keeps
    | with_reducible apply State.cqEnable_keeps
    | with_reducible apply State.connWriteEn_keeps
    | with_reducible apply State.spgCommand_keeps
    | with_reducible apply State.rxqEnable_keeps
    | with_reducible apply State.nodeCfg_keeps
    | with_reducible apply State.shtUpdate_keeps
    | with_reducible apply State.txrEnable_keeps
    | with_reducible apply State.txrPoll_keeps
    | with_reducible apply State.catCtrl_keeps
    | with_reducible apply State.catPoll_keeps
    | with_reducible apply State.routeFire_keeps
    | with_reducible apply State.free_keeps
    | with_reducible apply State.dpCfgAccess_keeps
    | with_reducible apply State.vfWriteEn_keeps
    | with_reducible apply State.dirtyCtrl_keeps
    | with_reducible apply State.fltEnable_keeps
    | with_reducible apply State.fltPoll_keeps
    | with_reducible apply State.keyCommand_keeps
    | with_reducible apply State.rotCmdWrite_keeps
    | with_reducible apply State.flashCmdWrite_keeps
    | with_reducible apply State.ephEnable_keeps
    | with_reducible apply State.ephPoll_keeps
    | with_reducible apply State.tbStep_keeps
    | with_reducible apply State.safeRelease_keeps
    | with_reducible apply State.warmBegin_keeps
    | with_reducible apply State.stuckClear_keeps
    | with_reducible apply State.helDerate_keeps
    | with_reducible apply State.accordEnd_keeps
    | with_reducible apply State.wdtReload_keeps
    | with_reducible apply State.wdtKick_keeps
    | with_reducible apply State.heartbeat_keeps
    | with_reducible apply State.attach_keeps
    | with_reducible apply State.expCtrl_keeps
    | split
    | intro _ _

theorem State.regStore_keeps {s0 s : State} (h : s0.Keeps s) (g r cell i v) :
    s0.Keeps (s.regStore g r cell i v) := by
  delta State.regStore
  repeat' first
    | with_reducible assumption
    | with_reducible apply State.recordError_keeps
    | with_reducible apply State.noteLevels_keeps
    | with_reducible apply State.regEffect_keeps
    | split

theorem State.regWrite_keeps {s0 s : State} (h : s0.Keeps s) (g a n v) :
    s0.Keeps (s.regWrite g a n v) := by
  delta State.regWrite
  repeat' first
    | with_reducible assumption
    | with_reducible apply State.recordError_keeps
    | with_reducible apply State.regStore_keeps
    | with_reducible apply State.apertureWrite_keeps
    | with_reducible apply State.slotsWrite_keeps
    | with_reducible apply State.noteLevels_keeps
    | with_reducible apply State.cfgWriteDown_keeps
    | with_reducible apply State.outboundWrite_keeps
    | split

theorem State.coreRegRead_keeps {s0 s : State} (h : s0.Keeps s) (c a n) :
    s0.Keeps (s.coreRegRead c a n).2.2 := by
  delta State.coreRegRead
  repeat' first
    | with_reducible assumption
    | with_reducible apply State.regRead_keeps

theorem State.coreRegWrite_keeps {s0 s : State} (h : s0.Keeps s) (c a n v) :
    s0.Keeps (s.coreRegWrite c a n v) := by
  delta State.coreRegWrite
  repeat' first
    | with_reducible assumption
    | with_reducible apply State.regWrite_keeps
    | split

theorem State.msixWrite_keeps {s0 s : State} (h : s0.Keeps s) (p fn off n v) :
    s0.Keeps (s.msixWrite p fn off n v) := by
  delta State.msixWrite
  repeat' first
    | with_reducible assumption
    | ((fail_if_no_progress (extract_lets +onlyGivenNames x)); first
        | (refine (fun (hk : s0.Keeps x) => ?_) ?_; clear_value x; rotate_left; dsimp -zeta only [x])
        | (refine (fun (hc8 : ∀ t a b, s0.Keeps t → s0.Keeps (x t a b)) => ?_) ?_; clear_value x; rotate_left; intro t a b ht; dsimp -zeta only [x])
        | clear_value x)
    | with_reducible apply State.setPciFn_keeps
    | with_reducible apply State.msixFlush_keeps
    | with_reducible apply hc8
    | split

theorem State.regMisused_keeps {s0 s : State} (h : s0.Keeps s) (up a n) :
    s0.Keeps (s.regMisused up a n) := by
  delta State.regMisused
  repeat' first
    | with_reducible assumption
    | with_reducible apply State.recordError_keeps
    | (with_reducible refine State.Keeps.of_eq ?_ (by assumption))
    | (with_reducible refine State.Keeps.of_eq3 ?_ (by assumption))
    | split

theorem State.hostWriteBar0_keeps {s0 s : State} (h : s0.Keeps s) (p off n v) :
    s0.Keeps (s.hostWriteBar0 p off n v) := by
  delta State.hostWriteBar0
  repeat' first
    | with_reducible assumption
    | with_reducible apply State.regMisused_keeps
    | with_reducible apply State.unsupported_keeps
    | with_reducible apply State.regWrite_keeps
    | with_reducible apply State.recordError_keeps
    | with_reducible apply State.msixWrite_keeps
    | split

theorem State.vfBar0Write_keeps {s0 s : State} (h : s0.Keeps s) (p v off n x) :
    s0.Keeps (s.vfBar0Write p v off n x) := by
  delta State.vfBar0Write
  repeat' first
    | with_reducible assumption
    | with_reducible apply State.vfUnsupported_keeps
    | with_reducible apply State.msixWrite_keeps
    | split

theorem State.agentActs_keeps {s0 s : State} (h : s0.Keeps s) (g f) (hf : ∀ t, s0.Keeps t → s0.Keeps (f t)) :
    s0.Keeps (s.agentActs g f) := by
  delta State.agentActs
  repeat' first
    | with_reducible assumption
    | with_reducible apply State.unsupported_keeps
    | with_reducible apply hf
    | split

theorem State.agentWrite_keeps {s0 s : State} (h : s0.Keeps s) (g t n v) :
    s0.Keeps (s.agentWrite g t n v) := by
  delta State.agentWrite
  repeat' first
    | with_reducible assumption
    | with_reducible apply State.regWrite_keeps
    | with_reducible apply State.agentActs_keeps
    | with_reducible apply State.hostWriteBar0_keeps
    | with_reducible apply State.vfBar0Write_keeps
    | with_reducible apply State.cfgWriteUp_keeps
    | split
    | intro _ _

theorem State.nameWrite_keeps {s0 s : State} (h : s0.Keeps s) (g r cell i v) :
    s0.Keeps (s.nameWrite g r cell i v) := by
  delta State.nameWrite
  repeat' first
    | with_reducible assumption
    | with_reducible apply State.agentActs_keeps
    | with_reducible apply State.regStore_keeps
    | intro _ _

theorem State.nameRead_keeps {s0 s : State} (h : s0.Keeps s) (g r cell i) :
    s0.Keeps (s.nameRead g r cell i) := by
  delta State.nameRead
  repeat' first
    | with_reducible assumption
    | ((fail_if_no_progress (extract_lets +onlyGivenNames x)); first
        | (refine (fun (hk : s0.Keeps x) => ?_) ?_; clear_value x; rotate_left; dsimp -zeta only [x])
        | (refine (fun (hk : s0.Keeps x.2) => ?_) ?_; clear_value x; rotate_left; dsimp -zeta only [x]))
    | with_reducible apply State.agentActs_keeps
    | with_reducible apply State.regValue_keeps
    | intro _ _
    | fail_if_no_progress (with_reducible apply State.Keeps.upd)

end Sys2Proof.Machine
end

