-- ==== Sys2Proof/Laws/KeepsCommands.lean ====
section
/-! SUPPORT. The operations of Machine/Commands.lean keep a state well. -/

namespace Sys2Proof.Machine

open Sys2Proof

theorem State.agentRead_keeps {s0 s : State} (h : s0.Keeps s) (g a n) :
    s0.Keeps (s.agentRead g a n) := by
  delta State.agentRead
  repeat' first
    | with_reducible assumption
    | ((fail_if_no_progress (extract_lets +onlyGivenNames x)); first
        | (refine (fun (hk : s0.Keeps x) => ?_) ?_; clear_value x; rotate_left; dsimp -zeta only [x])
        | (refine (fun (hk : s0.Keeps x.2.2) => ?_) ?_; clear_value x; rotate_left; dsimp -zeta only [x]))
    | with_reducible apply State.agentActs_keeps
    | with_reducible apply State.regRead_keeps
    | intro _ _
    | fail_if_no_progress (with_reducible apply State.Keeps.upd)

theorem State.fieldWrite_keeps {s0 s : State} (h : s0.Keeps s) (g f cell i v) :
    s0.Keeps (s.fieldWrite g f cell i v) := by
  delta State.fieldWrite
  repeat' first
    | with_reducible assumption
    | with_reducible apply State.nameWrite_keeps

theorem State.cellWrite_keeps {s0 s : State} (h : s0.Keeps s) (g r cell v) :
    s0.Keeps (s.cellWrite g r cell v) := by
  delta State.cellWrite
  repeat' first
    | with_reducible assumption
    | with_reducible apply State.nameWrite_keeps
    | split

theorem execRegisterWrite_keeps {s0 s : State} (h : s0.Keeps s) (a t size value) :
    ∃ s', execRegisterWrite a t size value s = .next s' ∧ s0.Keeps s' := by
  refine ⟨_, rfl, ?_⟩
  repeat' first
    | with_reducible assumption
    | with_reducible apply State.agentWrite_keeps

theorem execRwpPairWrite_keeps {s0 s : State} (h : s0.Keeps s) (a r cell value) :
    ∃ s', execRwpPairWrite a r cell value s = .next s' ∧ s0.Keeps s' := by
  refine ⟨_, rfl, ?_⟩
  repeat' first
    | with_reducible assumption
    | with_reducible apply State.cellWrite_keeps
    | split

theorem execRwpComplementCheck_keeps {s0 s : State} (h : s0.Keeps s) (r cell agree) :
    ∃ s', execRwpComplementCheck r cell agree s = .next s' ∧ s0.Keeps s' := by
  refine ⟨_, rfl, ?_⟩
  repeat' first
    | with_reducible assumption
    | with_reducible apply State.rwpDisagree_keeps
    | split

theorem execCellCtrlEnWrite_keeps {s0 s : State} (h : s0.Keeps s) (a cell en) :
    ∃ s', execCellCtrlEnWrite a cell en s = .next s' ∧ s0.Keeps s' := by
  refine ⟨_, rfl, ?_⟩
  repeat' first
    | with_reducible assumption
    | with_reducible apply State.cellWrite_keeps

theorem execCellResetWrite_keeps {s0 s : State} (h : s0.Keeps s) (a cell) :
    ∃ s', execCellResetWrite a cell s = .next s' ∧ s0.Keeps s' := by
  refine ⟨_, rfl, ?_⟩
  repeat' first
    | with_reducible assumption
    | with_reducible apply State.cellWrite_keeps

theorem execErrStatusClear_keeps {s0 s : State} (h : s0.Keeps s) (a cell valid overflow) :
    ∃ s', execErrStatusClear a cell valid overflow s = .next s' ∧ s0.Keeps s' := by
  refine ⟨_, rfl, ?_⟩
  repeat' first
    | with_reducible assumption
    | with_reducible apply State.cellWrite_keeps

theorem execPrimMapWrite_keeps {s0 s : State} (h : s0.Keeps s) (a quad complement value) :
    ∃ s', execPrimMapWrite a quad complement value s = .next s' ∧ s0.Keeps s' := by
  refine ⟨_, rfl, ?_⟩
  repeat' first
    | with_reducible assumption
    | with_reducible apply State.nameWrite_keeps

theorem execPrimPause_keeps {s0 s : State} (h : s0.Keeps s) (a pause) :
    ∃ s', execPrimPause a pause s = .next s' ∧ s0.Keeps s' := by
  refine ⟨_, rfl, ?_⟩
  repeat' first
    | with_reducible assumption
    | with_reducible apply State.nameWrite_keeps

theorem execPrimQueueFlush_keeps {s0 s : State} (h : s0.Keeps s) (a) :
    ∃ s', execPrimQueueFlush a s = .next s' ∧ s0.Keeps s' := by
  refine ⟨_, rfl, ?_⟩
  repeat' first
    | with_reducible assumption
    | with_reducible apply State.nameWrite_keeps

theorem execRingEnWrite_keeps {s0 s : State} (h : s0.Keeps s) (a quad en) :
    ∃ s', execRingEnWrite a quad en s = .next s' ∧ s0.Keeps s' := by
  refine ⟨_, rfl, ?_⟩
  repeat' first
    | with_reducible assumption
    | with_reducible apply State.nameWrite_keeps

theorem execMovNoticeCountWrite_keeps {s0 s : State} (h : s0.Keeps s) (a m value) :
    ∃ s', execMovNoticeCountWrite a m value s = .next s' ∧ s0.Keeps s' := by
  refine ⟨_, rfl, ?_⟩
  repeat' first
    | with_reducible assumption
    | with_reducible apply State.nameWrite_keeps

theorem execMovQueuePause_keeps {s0 s : State} (h : s0.Keeps s) (a m pause) :
    ∃ s', execMovQueuePause a m pause s = .next s' ∧ s0.Keeps s' := by
  refine ⟨_, rfl, ?_⟩
  repeat' first
    | with_reducible assumption
    | with_reducible apply State.nameWrite_keeps

theorem execMovQueueFlush_keeps {s0 s : State} (h : s0.Keeps s) (a m) :
    ∃ s', execMovQueueFlush a m s = .next s' ∧ s0.Keeps s' := by
  refine ⟨_, rfl, ?_⟩
  repeat' first
    | with_reducible assumption
    | with_reducible apply State.nameWrite_keeps

theorem execAttnRaise_keeps {s0 s : State} (h : s0.Keeps s) (a n code) :
    ∃ s', execAttnRaise a n code s = .next s' ∧ s0.Keeps s' := by
  refine ⟨_, rfl, ?_⟩
  repeat' first
    | with_reducible assumption
    | with_reducible apply State.nameWrite_keeps

theorem execLocalApertureAccess_keeps {s0 s : State} (h : s0.Keeps s) (a core write off size value) :
    ∃ s', execLocalApertureAccess a core write off size value s = .next s' ∧ s0.Keeps s' := by
  refine ⟨_, rfl, ?_⟩
  repeat' first
    | with_reducible assumption
    | with_reducible apply State.agentWrite_keeps
    | with_reducible apply State.agentRead_keeps
    | split

theorem execGclPost_keeps {s0 s : State} (h : s0.Keeps s) (a cluster image) :
    ∃ s', execGclPost a cluster image s = .next s' ∧ s0.Keeps s' := by
  refine ⟨_, rfl, ?_⟩
  repeat' first
    | with_reducible assumption
    | with_reducible apply State.nameWrite_keeps

theorem execClusterPause_keeps {s0 s : State} (h : s0.Keeps s) (a cluster pause) :
    ∃ s', execClusterPause a cluster pause s = .next s' ∧ s0.Keeps s' := by
  refine ⟨_, rfl, ?_⟩
  repeat' first
    | with_reducible assumption
    | with_reducible apply State.nameWrite_keeps

theorem execClusterFlush_keeps {s0 s : State} (h : s0.Keeps s) (a cluster) :
    ∃ s', execClusterFlush a cluster s = .next s' ∧ s0.Keeps s' := by
  refine ⟨_, rfl, ?_⟩
  repeat' first
    | with_reducible assumption
    | with_reducible apply State.nameWrite_keeps

theorem execDbgHalt_keeps {s0 s : State} (h : s0.Keeps s) (a core halt) :
    ∃ s', execDbgHalt a core halt s = .next s' ∧ s0.Keeps s' := by
  refine ⟨_, rfl, ?_⟩
  repeat' first
    | with_reducible assumption
    | with_reducible apply State.cellWrite_keeps

theorem execDbgStep_keeps {s0 s : State} (h : s0.Keeps s) (a core) :
    ∃ s', execDbgStep a core s = .next s' ∧ s0.Keeps s' := by
  refine ⟨_, rfl, ?_⟩
  repeat' first
    | with_reducible assumption
    | with_reducible apply State.cellWrite_keeps

theorem execDbgRegDataAccess_keeps {s0 s : State} (h : s0.Keeps s) (a core write value) :
    ∃ s', execDbgRegDataAccess a core write value s = .next s' ∧ s0.Keeps s' := by
  refine ⟨_, rfl, ?_⟩
  repeat' first
    | with_reducible assumption
    | with_reducible apply State.nameWrite_keeps
    | with_reducible apply State.nameRead_keeps
    | split

theorem State.colCmdWrite_keeps {s0 s : State} (h : s0.Keeps s) (a cmd slot) :
    s0.Keeps (s.colCmdWrite a cmd slot) := by
  delta State.colCmdWrite
  repeat' first
    | with_reducible assumption
    | with_reducible apply State.nameWrite_keeps

theorem execColOpen_keeps {s0 s : State} (h : s0.Keeps s) (a) :
    ∃ s', execColOpen a s = .next s' ∧ s0.Keeps s' := by
  refine ⟨_, rfl, ?_⟩
  repeat' first
    | with_reducible assumption
    | with_reducible apply State.colCmdWrite_keeps

theorem execColClose_keeps {s0 s : State} (h : s0.Keeps s) (a slot) :
    ∃ s', execColClose a slot s = .next s' ∧ s0.Keeps s' := by
  refine ⟨_, rfl, ?_⟩
  repeat' first
    | with_reducible assumption
    | with_reducible apply State.colCmdWrite_keeps

theorem execColAbort_keeps {s0 s : State} (h : s0.Keeps s) (a slot) :
    ∃ s', execColAbort a slot s = .next s' ∧ s0.Keeps s' := by
  refine ⟨_, rfl, ?_⟩
  repeat' first
    | with_reducible assumption
    | with_reducible apply State.colCmdWrite_keeps

theorem execColReset_keeps {s0 s : State} (h : s0.Keeps s) (a slot) :
    ∃ s', execColReset a slot s = .next s' ∧ s0.Keeps s' := by
  refine ⟨_, rfl, ?_⟩
  repeat' first
    | with_reducible assumption
    | with_reducible apply State.colCmdWrite_keeps

theorem execColMemberFail_keeps {s0 s : State} (h : s0.Keeps s) (a slot) :
    ∃ s', execColMemberFail a slot s = .next s' ∧ s0.Keeps s' := by
  refine ⟨_, rfl, ?_⟩
  repeat' first
    | with_reducible assumption
    | with_reducible apply State.colCmdWrite_keeps

theorem execBindingRegWrite_keeps {s0 s : State} (h : s0.Keeps s) (a reg b value) :
    ∃ s', execBindingRegWrite a reg b value s = .next s' ∧ s0.Keeps s' := by
  refine ⟨_, rfl, ?_⟩
  repeat' first
    | with_reducible assumption
    | with_reducible apply State.nameWrite_keeps

theorem execConnEnWrite_keeps {s0 s : State} (h : s0.Keeps s) (a c en) :
    ∃ s', execConnEnWrite a c en s = .next s' ∧ s0.Keeps s' := by
  refine ⟨_, rfl, ?_⟩
  repeat' first
    | with_reducible assumption
    | with_reducible apply State.nameWrite_keeps

theorem execTrnSqTailWrite_keeps {s0 s : State} (h : s0.Keeps s) (a q tail) :
    ∃ s', execTrnSqTailWrite a q tail s = .next s' ∧ s0.Keeps s' := by
  refine ⟨_, rfl, ?_⟩
  repeat' first
    | with_reducible assumption
    | with_reducible apply State.fieldWrite_keeps

theorem execTrnCqEnable_keeps {s0 s : State} (h : s0.Keeps s) (a q) :
    ∃ s', execTrnCqEnable a q s = .next s' ∧ s0.Keeps s' := by
  refine ⟨_, rfl, ?_⟩
  repeat' first
    | with_reducible assumption
    | with_reducible apply State.fieldWrite_keeps

theorem execRegionValidate_keeps {s0 s : State} (h : s0.Keeps s) (a index) :
    ∃ s', execRegionValidate a index s = .next s' ∧ s0.Keeps s' := by
  refine ⟨_, rfl, ?_⟩
  repeat' first
    | with_reducible assumption
    | with_reducible apply State.nameWrite_keeps

theorem execRegionRevoke_keeps {s0 s : State} (h : s0.Keeps s) (a index) :
    ∃ s', execRegionRevoke a index s = .next s' ∧ s0.Keeps s' := by
  refine ⟨_, rfl, ?_⟩
  repeat' first
    | with_reducible assumption
    | with_reducible apply State.nameWrite_keeps

theorem State.spgCmdWrite_keeps {s0 s : State} (h : s0.Keeps s) (a cmd port count) :
    s0.Keeps (s.spgCmdWrite a cmd port count) := by
  delta State.spgCmdWrite
  repeat' first
    | with_reducible assumption
    | with_reducible apply State.count_keeps
    | with_reducible apply State.nameWrite_keeps

theorem execLoadBank_keeps {s0 s : State} (h : s0.Keeps s) (a p count) :
    ∃ s', execLoadBank a p count s = .next s' ∧ s0.Keeps s' := by
  refine ⟨_, rfl, ?_⟩
  repeat' first
    | with_reducible assumption
    | with_reducible apply State.count_keeps
    | with_reducible apply State.spgCmdWrite_keeps

theorem execSwapBank_keeps {s0 s : State} (h : s0.Keeps s) (a p) :
    ∃ s', execSwapBank a p s = .next s' ∧ s0.Keeps s' := by
  refine ⟨_, rfl, ?_⟩
  repeat' first
    | with_reducible assumption
    | with_reducible apply State.spgCmdWrite_keeps

theorem execLoadPatterns_keeps {s0 s : State} (h : s0.Keeps s) (a count) :
    ∃ s', execLoadPatterns a count s = .next s' ∧ s0.Keeps s' := by
  refine ⟨_, rfl, ?_⟩
  repeat' first
    | with_reducible assumption
    | with_reducible apply State.count_keeps
    | with_reducible apply State.spgCmdWrite_keeps

theorem execSwapPatterns_keeps {s0 s : State} (h : s0.Keeps s) (a) :
    ∃ s', execSwapPatterns a s = .next s' ∧ s0.Keeps s' := by
  refine ⟨_, rfl, ?_⟩
  repeat' first
    | with_reducible assumption
    | with_reducible apply State.spgCmdWrite_keeps

theorem execLoadSanctum_keeps {s0 s : State} (h : s0.Keeps s) (a count) :
    ∃ s', execLoadSanctum a count s = .next s' ∧ s0.Keeps s' := by
  refine ⟨_, rfl, ?_⟩
  repeat' first
    | with_reducible assumption
    | with_reducible apply State.count_keeps
    | with_reducible apply State.spgCmdWrite_keeps

theorem execRxqEnable_keeps {s0 s : State} (h : s0.Keeps s) (a q) :
    ∃ s', execRxqEnable a q s = .next s' ∧ s0.Keeps s' := by
  refine ⟨_, rfl, ?_⟩
  repeat' first
    | with_reducible assumption
    | with_reducible apply State.fieldWrite_keeps

theorem execRxqTailWrite_keeps {s0 s : State} (h : s0.Keeps s) (a q tail) :
    ∃ s', execRxqTailWrite a q tail s = .next s' ∧ s0.Keeps s' := by
  refine ⟨_, rfl, ?_⟩
  repeat' first
    | with_reducible assumption
    | with_reducible apply State.fieldWrite_keeps

theorem execTxrEnable_keeps {s0 s : State} (h : s0.Keeps s) (a r) :
    ∃ s', execTxrEnable a r s = .next s' ∧ s0.Keeps s' := by
  refine ⟨_, rfl, ?_⟩
  repeat' first
    | with_reducible assumption
    | with_reducible apply State.fieldWrite_keeps

theorem execTxrTailWrite_keeps {s0 s : State} (h : s0.Keeps s) (a r tail) :
    ∃ s', execTxrTailWrite a r tail s = .next s' ∧ s0.Keeps s' := by
  refine ⟨_, rfl, ?_⟩
  repeat' first
    | with_reducible assumption
    | with_reducible apply State.fieldWrite_keeps

theorem execCatSqTailWrite_keeps {s0 s : State} (h : s0.Keeps s) (a q tail) :
    ∃ s', execCatSqTailWrite a q tail s = .next s' ∧ s0.Keeps s' := by
  refine ⟨_, rfl, ?_⟩
  repeat' first
    | with_reducible assumption
    | with_reducible apply State.fieldWrite_keeps

theorem execCatQueueEnWrite_keeps {s0 s : State} (h : s0.Keeps s) (a q en) :
    ∃ s', execCatQueueEnWrite a q en s = .next s' ∧ s0.Keeps s' := by
  refine ⟨_, rfl, ?_⟩
  repeat' first
    | with_reducible assumption
    | with_reducible apply State.nameWrite_keeps

theorem execCatQueueReset_keeps {s0 s : State} (h : s0.Keeps s) (a q) :
    ∃ s', execCatQueueReset a q s = .next s' ∧ s0.Keeps s' := by
  refine ⟨_, rfl, ?_⟩
  repeat' first
    | with_reducible assumption
    | with_reducible apply State.nameWrite_keeps

theorem execIrqRaise_keeps {s0 s : State} (h : s0.Keeps s) (a source) :
    ∃ s', execIrqRaise a source s = .next s' ∧ s0.Keeps s' := by
  refine ⟨_, rfl, ?_⟩
  repeat' first
    | with_reducible assumption
    | with_reducible apply State.nameWrite_keeps

theorem execDpCfgDataAccess_keeps {s0 s : State} (h : s0.Keeps s) (a k write value status data) :
    ∃ s', execDpCfgDataAccess a k write value status data s = .next s' ∧ s0.Keeps s' := by
  refine ⟨_, rfl, ?_⟩
  repeat' first
    | with_reducible assumption
    | ((fail_if_no_progress (extract_lets +onlyGivenNames x)); first
        | (refine (fun (hk : s0.Keeps x) => ?_) ?_; clear_value x; rotate_left; dsimp -zeta only [x])
        | (refine (fun (hk : s0.Keeps x.2) => ?_) ?_; clear_value x; rotate_left; dsimp -zeta only [x]))
    | with_reducible apply State.agentActs_keeps
    | with_reducible apply State.dpCfgAccess_keeps
    | split
    | intro _ _
    | fail_if_no_progress (with_reducible apply State.Keeps.upd)

theorem execDpcRelease_keeps {s0 s : State} (h : s0.Keeps s) (a k) :
    ∃ s', execDpcRelease a k s = .next s' ∧ s0.Keeps s' := by
  refine ⟨_, rfl, ?_⟩
  repeat' first
    | with_reducible assumption
    | with_reducible apply State.agentWrite_keeps

theorem execVfShutdown_keeps {s0 s : State} (h : s0.Keeps s) (a p v) :
    ∃ s', execVfShutdown a p v s = .next s' ∧ s0.Keeps s' := by
  refine ⟨_, rfl, ?_⟩
  repeat' first
    | with_reducible assumption
    | with_reducible apply State.nameWrite_keeps

theorem execVfEnable_keeps {s0 s : State} (h : s0.Keeps s) (a p v) :
    ∃ s', execVfEnable a p v s = .next s' ∧ s0.Keeps s' := by
  refine ⟨_, rfl, ?_⟩
  repeat' first
    | with_reducible assumption
    | with_reducible apply State.nameWrite_keeps

theorem execDirtySwap_keeps {s0 s : State} (h : s0.Keeps s) (a p v) :
    ∃ s', execDirtySwap a p v s = .next s' ∧ s0.Keeps s' := by
  refine ⟨_, rfl, ?_⟩
  repeat' first
    | with_reducible assumption
    | with_reducible apply State.nameWrite_keeps

theorem execDirtyLogEnWrite_keeps {s0 s : State} (h : s0.Keeps s) (a p v en) :
    ∃ s', execDirtyLogEnWrite a p v en s = .next s' ∧ s0.Keeps s' := by
  refine ⟨_, rfl, ?_⟩
  repeat' first
    | with_reducible assumption
    | with_reducible apply State.nameWrite_keeps

theorem execFltTailWrite_keeps {s0 s : State} (h : s0.Keeps s) (a q tail) :
    ∃ s', execFltTailWrite a q tail s = .next s' ∧ s0.Keeps s' := by
  refine ⟨_, rfl, ?_⟩
  repeat' first
    | with_reducible assumption
    | with_reducible apply State.fieldWrite_keeps

theorem execFltQueueEnable_keeps {s0 s : State} (h : s0.Keeps s) (a q) :
    ∃ s', execFltQueueEnable a q s = .next s' ∧ s0.Keeps s' := by
  refine ⟨_, rfl, ?_⟩
  repeat' first
    | with_reducible assumption
    | with_reducible apply State.fieldWrite_keeps

theorem execLoadPlain_keeps {s0 s : State} (h : s0.Keeps s) (a index size check enc dec wrap) :
    ∃ s', execLoadPlain a index size check enc dec wrap s = .next s' ∧ s0.Keeps s' := by
  refine ⟨_, rfl, ?_⟩
  repeat' first
    | with_reducible assumption
    | with_reducible apply State.nameWrite_keeps

theorem execLoadWrapped_keeps {s0 s : State} (h : s0.Keeps s) (a index size check enc dec wrap) :
    ∃ s', execLoadWrapped a index size check enc dec wrap s = .next s' ∧ s0.Keeps s' := by
  refine ⟨_, rfl, ?_⟩
  repeat' first
    | with_reducible assumption
    | with_reducible apply State.nameWrite_keeps

theorem execErase_keeps {s0 s : State} (h : s0.Keeps s) (a index) :
    ∃ s', execErase a index s = .next s' ∧ s0.Keeps s' := by
  refine ⟨_, rfl, ?_⟩
  repeat' first
    | with_reducible assumption
    | with_reducible apply State.nameWrite_keeps

theorem execVerify_keeps {s0 s : State} (h : s0.Keeps s) (a) :
    ∃ s', execVerify a s = .next s' ∧ s0.Keeps s' := by
  refine ⟨_, rfl, ?_⟩
  repeat' first
    | with_reducible assumption
    | with_reducible apply State.nameWrite_keeps

theorem execRecoveryBoot_keeps {s0 s : State} (h : s0.Keeps s) (a) :
    ∃ s', execRecoveryBoot a s = .next s' ∧ s0.Keeps s' := by
  refine ⟨_, rfl, ?_⟩
  repeat' first
    | with_reducible assumption
    | with_reducible apply State.nameWrite_keeps

theorem execSvnCommit_keeps {s0 s : State} (h : s0.Keeps s) (a) :
    ∃ s', execSvnCommit a s = .next s' ∧ s0.Keeps s' := by
  refine ⟨_, rfl, ?_⟩
  repeat' first
    | with_reducible assumption
    | with_reducible apply State.nameWrite_keeps

theorem execRevokeKey_keeps {s0 s : State} (h : s0.Keeps s) (a) :
    ∃ s', execRevokeKey a s = .next s' ∧ s0.Keeps s' := by
  refine ⟨_, rfl, ?_⟩
  repeat' first
    | with_reducible assumption
    | with_reducible apply State.nameWrite_keeps

theorem execDebugUnlock_keeps {s0 s : State} (h : s0.Keeps s) (a) :
    ∃ s', execDebugUnlock a s = .next s' ∧ s0.Keeps s' := by
  refine ⟨_, rfl, ?_⟩
  repeat' first
    | with_reducible assumption
    | with_reducible apply State.nameWrite_keeps

theorem State.flashWrite_keeps {s0 s : State} (h : s0.Keeps s) (a cmd off pages) :
    s0.Keeps (s.flashWrite a cmd off pages) := by
  delta State.flashWrite
  repeat' first
    | with_reducible assumption
    | with_reducible apply State.nameWrite_keeps

theorem execFlashRead_keeps {s0 s : State} (h : s0.Keeps s) (a offset pages) :
    ∃ s', execFlashRead a offset pages s = .next s' ∧ s0.Keeps s' := by
  refine ⟨_, rfl, ?_⟩
  repeat' first
    | with_reducible assumption
    | with_reducible apply State.flashWrite_keeps

theorem execFlashErase_keeps {s0 s : State} (h : s0.Keeps s) (a offset) :
    ∃ s', execFlashErase a offset s = .next s' ∧ s0.Keeps s' := by
  refine ⟨_, rfl, ?_⟩
  repeat' first
    | with_reducible assumption
    | with_reducible apply State.flashWrite_keeps

theorem execFlashProgram_keeps {s0 s : State} (h : s0.Keeps s) (a offset pages) :
    ∃ s', execFlashProgram a offset pages s = .next s' ∧ s0.Keeps s' := by
  refine ⟨_, rfl, ?_⟩
  repeat' first
    | with_reducible assumption
    | with_reducible apply State.flashWrite_keeps

theorem execEphCmdqTailWrite_keeps {s0 s : State} (h : s0.Keeps s) (a tail) :
    ∃ s', execEphCmdqTailWrite a tail s = .next s' ∧ s0.Keeps s' := by
  refine ⟨_, rfl, ?_⟩
  repeat' first
    | with_reducible assumption
    | with_reducible apply State.fieldWrite_keeps

theorem execFlipArm_keeps {s0 s : State} (h : s0.Keeps s) (a t value) :
    ∃ s', execFlipArm a t value s = .next s' ∧ s0.Keeps s' := by
  refine ⟨_, rfl, ?_⟩
  repeat' first
    | with_reducible assumption
    | with_reducible apply State.nameWrite_keeps
    | split

theorem execSafeRelease_keeps {s0 s : State} (h : s0.Keeps s) (a) :
    ∃ s', execSafeRelease a s = .next s' ∧ s0.Keeps s' := by
  refine ⟨_, rfl, ?_⟩
  repeat' first
    | with_reducible assumption
    | with_reducible apply State.fieldWrite_keeps

theorem execTbStep_keeps {s0 s : State} (h : s0.Keeps s) (a offset) :
    ∃ s', execTbStep a offset s = .next s' ∧ s0.Keeps s' := by
  refine ⟨_, rfl, ?_⟩
  repeat' first
    | with_reducible assumption
    | with_reducible apply State.nameWrite_keeps

theorem execTxtsTimeRead_keeps {s0 s : State} (h : s0.Keeps s) (a p) :
    ∃ s', execTxtsTimeRead a p s = .next s' ∧ s0.Keeps s' := by
  refine ⟨_, rfl, ?_⟩
  repeat' first
    | with_reducible assumption
    | with_reducible apply State.nameRead_keeps

theorem execWarmResetReq_keeps {s0 s : State} (h : s0.Keeps s) (a) :
    ∃ s', execWarmResetReq a s = .next s' ∧ s0.Keeps s' := by
  refine ⟨_, rfl, ?_⟩
  repeat' first
    | with_reducible assumption
    | with_reducible apply State.nameWrite_keeps

theorem execHelDerate_keeps {s0 s : State} (h : s0.Keeps s) (a cell steps) :
    ∃ s', execHelDerate a cell steps s = .next s' ∧ s0.Keeps s' := by
  refine ⟨_, rfl, ?_⟩
  repeat' first
    | with_reducible assumption
    | with_reducible apply State.nameWrite_keeps

theorem execWdtKick_keeps {s0 s : State} (h : s0.Keeps s) (a n) :
    ∃ s', execWdtKick a n s = .next s' ∧ s0.Keeps s' := by
  refine ⟨_, rfl, ?_⟩
  repeat' first
    | with_reducible assumption
    | with_reducible apply State.nameWrite_keeps

theorem execHostHeartbeat_keeps {s0 s : State} (h : s0.Keeps s) (p count) :
    ∃ s', execHostHeartbeat p count s = .next s' ∧ s0.Keeps s' := by
  refine ⟨_, rfl, ?_⟩
  repeat' first
    | with_reducible assumption
    | with_reducible apply State.count_keeps
    | with_reducible apply State.nameWrite_keeps

theorem execAttach_keeps {s0 s : State} (h : s0.Keeps s) (a p) :
    ∃ s', execAttach a p s = .next s' ∧ s0.Keeps s' := by
  refine ⟨_, rfl, ?_⟩
  repeat' first
    | with_reducible assumption
    | with_reducible apply State.nameWrite_keeps

theorem execExposureEnable_keeps {s0 s : State} (h : s0.Keeps s) (a periodUs) :
    ∃ s', execExposureEnable a periodUs s = .next s' ∧ s0.Keeps s' := by
  refine ⟨_, rfl, ?_⟩
  repeat' first
    | with_reducible assumption
    | with_reducible apply State.nameWrite_keeps

end Sys2Proof.Machine
end

