-- ==== Sys2Proof/Laws/KeepsXqCore.lean ====
section
/-! SUPPORT. The operations of Machine/XqCore.lean keep a state well. -/

namespace Sys2Proof.Machine

open Sys2Proof

theorem State.takeException_keeps {s0 s : State} (h : s0.Keeps s) (c e xpc) :
    s0.Keeps (s.takeException c e xpc) := by
  delta State.takeException
  repeat' first
    | with_reducible assumption
    | ((fail_if_no_progress (extract_lets +onlyGivenNames x)); first
        | (refine (fun (hk : s0.Keeps x) => ?_) ?_; clear_value x; rotate_left; dsimp -zeta only [x])
        | clear_value x)
    | with_reducible apply State.seqStop_keeps
    | with_reducible apply State.count_keeps
    | with_reducible apply State.setCore_keeps
    | with_reducible apply State.recordInternal_keeps
    | split

theorem State.bitWrite_keeps {s0 s : State} (h : s0.Keeps s) (c b v) {t : State} (he : s.bitWrite c b v = some t) :
    s0.Keeps t := by
  have key : ∀ q ∈ s.bitWrite c b v, s0.Keeps q := by
    delta State.bitWrite
    repeat' first
      | with_reducible assumption
      | ((fail_if_no_progress (extract_lets +onlyGivenNames x)); refine (fun (hk : s0.Keeps x) => ?_) ?_; clear_value x; rotate_left; dsimp -zeta only [x])
      | with_reducible apply State.event_keeps
      | with_reducible apply State.putBit_keeps
      | with_reducible apply State.filterBit_keeps
      | split
      | (rintro q hq; cases hq)
  exact key _ he

theorem State.takeInterrupt_keeps {s0 s : State} (h : s0.Keeps s) (c cause) :
    s0.Keeps (s.takeInterrupt c cause) := by
  delta State.takeInterrupt
  repeat' first
    | with_reducible assumption
    | ((fail_if_no_progress (extract_lets +onlyGivenNames x)); refine (fun (hk : s0.Keeps x) => ?_) ?_; clear_value x; rotate_left; dsimp -zeta only [x])
    | with_reducible apply State.setFlag_keeps
    | with_reducible apply State.takeException_keeps
    | split

theorem State.addrFault_keeps {s0 s : State} (h : s0.Keeps s) (c a fl) :
    s0.Keeps (s.addrFault c a fl).2 := by
  delta State.addrFault
  repeat' first
    | with_reducible assumption
    | with_reducible apply State.recordError_keeps

theorem State.regRefused_keeps {s0 s : State} (h : s0.Keeps s) (c a n write) :
    s0.Keeps (s.regRefused c a n write) := by
  delta State.regRefused
  repeat' first
    | with_reducible assumption
    | ((fail_if_no_progress (extract_lets +onlyGivenNames x)); first
        | clear_value x)
    | with_reducible apply State.recordError_keeps
    | (with_reducible refine State.Keeps.of_eq ?_ (by assumption))
    | (with_reducible refine State.Keeps.of_eq3 ?_ (by assumption))
    | split

theorem State.accessCheck_keeps {s0 s : State} (h : s0.Keeps s) (c a n fl write rights) :
    s0.Keeps (s.accessCheck c a n fl write rights).2 := by
  delta State.accessCheck
  repeat' first
    | with_reducible assumption
    | ((fail_if_no_progress (extract_lets +onlyGivenNames x)); first
        | (refine (fun (hk : s0.Keeps x.2) => ?_) ?_; clear_value x; rotate_left; dsimp -zeta only [x])
        | clear_value x)
    | with_reducible apply State.regRefused_keeps
    | with_reducible apply State.addrFault_keeps
    | with_reducible apply State.recordError_keeps
    | split

theorem State.coreLoad_keeps {s0 s : State} (h : s0.Keeps s) (c a n fl rights) :
    s0.Keeps (s.coreLoad c a n fl rights).2 := by
  delta State.coreLoad
  repeat' first
    | with_reducible assumption
    | ((fail_if_no_progress (extract_lets +onlyGivenNames x)); first
        | (refine (fun (hk : s0.Keeps x.2) => ?_) ?_; clear_value x; rotate_left; dsimp -zeta only [x])
        | (refine (fun (hk : s0.Keeps x.2.2) => ?_) ?_; clear_value x; rotate_left; dsimp -zeta only [x]))
    | with_reducible apply State.accessCheck_keeps
    | with_reducible apply State.coreRegRead_keeps
    | with_reducible apply State.readMem_keeps
    | with_reducible apply State.load_keeps
    | (with_reducible refine State.Keeps.of_eq ?_ (by assumption))
    | split

theorem State.storeCheck_keeps {s0 s : State} (h : s0.Keeps s) (c a n fl) :
    s0.Keeps (s.storeCheck c a n fl).2 := by
  delta State.storeCheck
  repeat' first
    | with_reducible assumption
    | with_reducible apply State.accessCheck_keeps
    | with_reducible refine State.refusedRange_keeps ?_ _ _ _ (by assumption)
    | (with_reducible refine State.Keeps.of_eq ?_ (by assumption))
    | split

theorem State.storeAt_keeps {s0 s : State} (h : s0.Keeps s) (c p bs) :
    s0.Keeps (s.storeAt c p bs) := by
  delta State.storeAt
  repeat' first
    | with_reducible assumption
    | with_reducible apply State.coreRegWrite_keeps
    | with_reducible apply State.writeMem_keeps
    | split

theorem State.coreStore_keeps {s0 s : State} (h : s0.Keeps s) (c a fl bs) :
    s0.Keeps (s.coreStore c a fl bs).2 := by
  delta State.coreStore
  repeat' first
    | with_reducible assumption
    | with_reducible apply State.storeCheck_keeps
    | with_reducible apply State.storeAt_keeps
    | (with_reducible refine State.Keeps.of_eq ?_ (by assumption))
    | split

theorem State.spillOne_keeps {s0 s : State} (h : s0.Keeps s) (c mode) :
    s0.Keeps (s.spillOne c mode).2 := by
  delta State.spillOne
  repeat' first
    | with_reducible assumption
    | ((fail_if_no_progress (extract_lets +onlyGivenNames x)); clear_value x)
    | with_reducible apply State.coreStore_keeps
    | with_reducible apply State.mapCore_keeps
    | (with_reducible refine State.Keeps.of_eq ?_ (by assumption))
    | split

theorem State.spillAll_keeps {s0 s : State} (h : s0.Keeps s) (c mode fuel) :
    s0.Keeps (s.spillAll c mode fuel).2 := by
  induction fuel generalizing s c mode with
  | zero =>
    rw [State.spillAll.eq_def]
    try dsimp -zeta only
    repeat' first
      | with_reducible assumption
  | succ fuel ih =>
    rw [State.spillAll.eq_def]
    try dsimp -zeta only
    repeat' first
      | with_reducible assumption
      | with_reducible apply ih
      | with_reducible apply State.spillOne_keeps
      | (with_reducible refine State.Keeps.of_eq ?_ (by assumption))
      | split

theorem State.pushReturn_keeps {s0 s : State} (h : s0.Keeps s) (c v) :
    s0.Keeps (s.pushReturn c v).2 := by
  delta State.pushReturn
  repeat' first
    | with_reducible assumption
    | ((fail_if_no_progress (extract_lets +onlyGivenNames x)); first
        | (refine (fun (hk : s0.Keeps x.2) => ?_) ?_; clear_value x; rotate_left; dsimp -zeta only [x])
        | clear_value x)
    | with_reducible apply State.spillOne_keeps
    | with_reducible apply State.mapCore_keeps
    | split

theorem State.popReturn_keeps {s0 s : State} (h : s0.Keeps s) (c) :
    s0.Keeps (s.popReturn c).2 := by
  delta State.popReturn
  repeat' first
    | with_reducible assumption
    | ((fail_if_no_progress (extract_lets +onlyGivenNames x)); clear_value x)
    | with_reducible apply State.setCore_keeps
    | with_reducible apply State.coreLoad_keeps
    | with_reducible apply State.mapCore_keeps
    | (with_reducible refine State.Keeps.of_eq ?_ (by assumption))
    | split

theorem State.pushCheck_keeps {s0 s : State} (h : s0.Keeps s) (c n) :
    s0.Keeps (s.pushCheck c n).2 := by
  delta State.pushCheck
  repeat' first
    | with_reducible assumption
    | ((fail_if_no_progress (extract_lets +onlyGivenNames x)); clear_value x)
    | with_reducible apply State.storeCheck_keeps
    | (with_reducible refine State.Keeps.of_eq ?_ (by assumption))
    | split
    | (with_reducible refine State.Keeps.foldl_pair ?_ ?_)
    | intro _ _ _

theorem State.pushAll_keeps {s0 s : State} (h : s0.Keeps s) (c vs) :
    s0.Keeps (s.pushAll c vs).2 := by
  delta State.pushAll
  repeat' first
    | with_reducible assumption
    | ((fail_if_no_progress (extract_lets +onlyGivenNames x)); refine (fun (hk : s0.Keeps x) => ?_) ?_; clear_value x; rotate_left; dsimp -zeta only [x])
    | with_reducible apply State.pushCheck_keeps
    | with_reducible apply State.storeAt_keeps
    | with_reducible apply State.mapCore_keeps
    | (with_reducible refine State.Keeps.of_eq ?_ (by assumption))
    | split
    | (with_reducible refine State.Keeps.foldl ?_ ?_)
    | intro _ _ _

theorem State.popAll_keeps {s0 s : State} (h : s0.Keeps s) (c n) :
    s0.Keeps (s.popAll c n).2 := by
  delta State.popAll
  repeat' first
    | with_reducible assumption
    | ((fail_if_no_progress (extract_lets +onlyGivenNames x)); first
        | (refine (fun (hk : s0.Keeps x.2) => ?_) ?_; clear_value x; rotate_left; dsimp -zeta only [x])
        | clear_value x)
    | with_reducible apply State.coreLoad_keeps
    | with_reducible apply State.mapCore_keeps
    | (with_reducible refine State.Keeps.of_eq ?_ (by assumption))
    | split
    | (with_reducible refine State.Keeps.foldl_pair ?_ ?_)
    | intro _ _ _

theorem State.afterInstr_keeps {s0 s : State} (h : s0.Keeps s) (c) :
    s0.Keeps (s.afterInstr c) := by
  delta State.afterInstr
  repeat' first
    | with_reducible assumption
    | with_reducible apply State.haltCore_keeps
    | split

theorem State.conclude_keeps {s0 s : State} (h : s0.Keeps s) (c len f) (hf : Fate.Keeps s0 f) :
    s0.Keeps (s.conclude c len f) := by
  delta State.conclude
  extract_lets +onlyGivenNames here ev fin
  have hd : ∀ t pc, s0.Keeps t → s0.Keeps (fin t pc) := by
    intro t pc ht
    dsimp -zeta only [fin]
    clear_value ev
    extract_lets u
    have hu : s0.Keeps u := State.mapCore_keeps ht ..
    clear_value u
    apply State.afterInstr_keeps
    split
    · exact State.count_keeps hu ..
    · exact hu
  clear_value here ev fin
  split
  · exact hf
  · exact hd _ _ hf
  · split
    · exact hd _ _ hf
    · split
      next heq => exact State.afterInstr_keeps (State.takeException_keeps (.of_eq (State.free_keeps h _) heq) ..) ..
  · exact State.afterInstr_keeps (State.takeException_keeps hf ..) ..

theorem State.instr_keeps {s0 s : State} (h : s0.Keeps s) (c len regs onFilter body) (hbody : ∀ t, s0.Keeps t → Fate.Keeps s0 (body t)) :
    s0.Keeps (s.instr c len regs onFilter body) := by
  delta State.instr
  repeat' first
    | with_reducible assumption
    | ((fail_if_no_progress (extract_lets +onlyGivenNames x)); clear_value x)
    | with_reducible apply State.takeInterrupt_keeps
    | with_reducible apply State.haltCore_keeps
    | with_reducible apply State.afterInstr_keeps
    | with_reducible apply State.takeException_keeps
    | with_reducible apply State.conclude_keeps
    | with_reducible apply hbody
    | with_reducible apply Fate.Keeps.fault
    | split

end Sys2Proof.Machine
end

