-- ==== Sys2Proof/Laws/KeepsCoreEvents.lean ====
section
/-! SUPPORT. The operations of Machine/CoreEvents.lean keep a state well. -/

namespace Sys2Proof.Machine

open Sys2Proof

theorem execInterruptTake_keeps {s0 s : State} (h : s0.Keeps s) (core) :
    ∃ s', execInterruptTake core s = .next s' ∧ s0.Keeps s' := by
  refine ⟨_, rfl, ?_⟩
  repeat' first
    | with_reducible assumption
    | with_reducible apply State.takeInterrupt_keeps
    | split

theorem State.runTo_keeps {s0 s : State} (h : s0.Keeps s) (t fuel) :
    s0.Keeps (s.runTo t fuel) := by
  induction fuel generalizing s t with
  | zero =>
    rw [State.runTo.eq_def]
    try dsimp -zeta only
    repeat' first
      | with_reducible assumption
  | succ fuel ih =>
    rw [State.runTo.eq_def]
    try dsimp -zeta only
    repeat' first
      | with_reducible assumption
      | with_reducible apply ih
      | with_reducible apply State.advanceNs_keeps
      | split

theorem execTcmpTimer_keeps {s0 s : State} (h : s0.Keeps s) (core) :
    ∃ s', execTcmpTimer core s = .next s' ∧ s0.Keeps s' := by
  refine ⟨_, rfl, ?_⟩
  repeat' first
    | with_reducible assumption
    | with_reducible apply State.runTo_keeps
    | split

theorem execGuiderCoreStart_keeps {s0 s : State} (h : s0.Keeps s) (n) :
    ∃ s', execGuiderCoreStart n s = .next s' ∧ s0.Keeps s' := by
  refine ⟨_, rfl, ?_⟩
  repeat' first
    | with_reducible assumption
    | with_reducible apply State.startCore_keeps
    | split

end Sys2Proof.Machine
end

