-- ==== Sys2Proof/Laws/KeepsEvents.lean ====
section
/-! SUPPORT. The operations of Machine/Events.lean keep a state well. -/

namespace Sys2Proof.Machine

open Sys2Proof

theorem State.tidy_keeps {s0 s : State} (h : s0.Keeps s) :
    s0.Keeps (s.tidy) := by
  delta State.tidy
  repeat' first
    | with_reducible assumption
    | with_reducible apply State.noteLevels_keeps
    | with_reducible apply State.settle_keeps
    | with_reducible apply State.heldRetry_keeps
    | (with_reducible refine State.Keeps.foldl ?_ ?_)
    | intro _ _ _

theorem State.happen_keeps {s0 s : State} (h : s0.Keeps s) (f) (hf : ∀ t, s0.Keeps t → s0.Keeps (f t)) :
    s0.Keeps (s.happen f) := by
  delta State.happen
  repeat' first
    | with_reducible assumption
    | with_reducible apply State.tidy_keeps
    | with_reducible apply hf
    | split

theorem State.runUpsets_keeps {s0 s : State} (h : s0.Keeps s) (us) :
    s0.Keeps (s.runUpsets us) := by
  delta State.runUpsets
  repeat' first
    | with_reducible assumption
    | with_reducible apply State.bufErr_keeps
    | (with_reducible refine State.Keeps.of_eq ?_ (by assumption))
    | (with_reducible refine State.Keeps.of_eq3 ?_ (by assumption))
    | split
    | (with_reducible refine State.Keeps.foldl ?_ ?_)
    | (with_reducible refine State.Keeps.foldl_pair ?_ ?_)
    | (with_reducible refine State.Keeps.foldl_triple ?_ ?_)
    | intro _ _ _

theorem State.runArrive_keeps {s0 s : State} (h : s0.Keeps s) (r) :
    s0.Keeps (s.runArrive r) := by
  delta State.runArrive
  repeat' first
    | with_reducible assumption
    | ((fail_if_no_progress (extract_lets +onlyGivenNames x)); clear_value x)
    | with_reducible apply State.runUpsets_keeps
    | with_reducible apply State.colArrive_keeps
    | with_reducible apply State.colSettle_keeps
    | with_reducible apply State.colTransitRun_keeps
    | with_reducible apply State.colTakeRun_keeps
    | split

theorem execCollectiveRunArrive_keeps {s0 s : State} (h : s0.Keeps s) (run) :
    ∃ s', execCollectiveRunArrive run s = .next s' ∧ s0.Keeps s' := by
  refine ⟨_, rfl, ?_⟩
  repeat' first
    | with_reducible assumption
    | with_reducible apply State.happen_keeps
    | with_reducible apply State.runArrive_keeps
    | intro _ _

theorem execBindingWrite_keeps {s0 s : State} (h : s0.Keeps s) (k addr bytes ep) :
    ∃ s', execBindingWrite k addr bytes ep s = .next s' ∧ s0.Keeps s' := by
  refine ⟨_, rfl, ?_⟩
  repeat' first
    | with_reducible assumption
    | with_reducible apply State.happen_keeps
    | with_reducible apply State.inbound_keeps
    | split
    | intro _ _

theorem execEgressRunSend_keeps {s0 s : State} (h : s0.Keeps s) (i) :
    ∃ s', execEgressRunSend i s = .next s' ∧ s0.Keeps s' := by
  refine ⟨_, rfl, ?_⟩
  repeat' first
    | with_reducible assumption
    | with_reducible apply State.happen_keeps
    | with_reducible apply State.sendRun_keeps
    | split
    | intro _ _

theorem execChunkComplete_keeps {s0 s : State} (h : s0.Keeps s) (slot chunk next) :
    ∃ s', execChunkComplete slot chunk next s = .next s' ∧ s0.Keeps s' := by
  refine ⟨_, rfl, ?_⟩
  repeat' first
    | with_reducible assumption
    | with_reducible apply State.happen_keeps
    | with_reducible apply State.colSettle_keeps
    | with_reducible apply State.chunkComplete_keeps
    | intro _ _

theorem execProgramItemRepost_keeps {s0 s : State} (h : s0.Keeps s) (slot) :
    ∃ s', execProgramItemRepost slot s = .next s' ∧ s0.Keeps s' := by
  refine ⟨_, rfl, ?_⟩
  repeat' first
    | with_reducible assumption
    | with_reducible apply State.happen_keeps
    | with_reducible apply State.repostItems_keeps
    | split
    | intro _ _

theorem execRoundTimeout_keeps {s0 s : State} (h : s0.Keeps s) (slot) :
    ∃ s', execRoundTimeout slot s = .next s' ∧ s0.Keeps s' := by
  refine ⟨_, rfl, ?_⟩
  repeat' first
    | with_reducible assumption
    | with_reducible apply State.happen_keeps
    | with_reducible apply State.roundTimeout_keeps
    | intro _ _

theorem execConnectRetry_keeps {s0 s : State} (h : s0.Keeps s) (c) :
    ∃ s', execConnectRetry c s = .next s' ∧ s0.Keeps s' := by
  refine ⟨_, rfl, ?_⟩
  repeat' first
    | with_reducible assumption
    | with_reducible apply State.happen_keeps
    | with_reducible apply State.sendConnect_keeps
    | split
    | intro _ _

theorem execConnectTimeout_keeps {s0 s : State} (h : s0.Keeps s) (c) :
    ∃ s', execConnectTimeout c s = .next s' ∧ s0.Keeps s' := by
  refine ⟨_, rfl, ?_⟩
  repeat' first
    | with_reducible assumption
    | with_reducible apply State.happen_keeps
    | with_reducible apply State.connFail_keeps
    | split
    | intro _ _

theorem execDisconnectRetry_keeps {s0 s : State} (h : s0.Keeps s) (c) :
    ∃ s', execDisconnectRetry c s = .next s' ∧ s0.Keeps s' := by
  refine ⟨_, rfl, ?_⟩
  repeat' first
    | with_reducible assumption
    | with_reducible apply State.happen_keeps
    | with_reducible apply State.trnSend_keeps
    | split
    | intro _ _

theorem execDrainTimeout_keeps {s0 s : State} (h : s0.Keeps s) (c) :
    ∃ s', execDrainTimeout c s = .next s' ∧ s0.Keeps s' := by
  refine ⟨_, rfl, ?_⟩
  repeat' first
    | with_reducible assumption
    | with_reducible apply State.happen_keeps
    | with_reducible apply State.connIdle_keeps
    | split
    | intro _ _

theorem State.packet_keeps {s0 s : State} (h : s0.Keeps s) (type k) :
    s0.Keeps (s.packet type k) := by
  delta State.packet
  repeat' first
    | with_reducible assumption
    | with_reducible apply State.happen_keeps
    | with_reducible apply State.trnReceive_keeps
    | split
    | intro _ _

theorem execTransitConnect_keeps {s0 s : State} (h : s0.Keeps s) (k) :
    ∃ s', execTransitConnect k s = .next s' ∧ s0.Keeps s' := by
  refine ⟨_, rfl, ?_⟩
  repeat' first
    | with_reducible assumption
    | with_reducible apply State.packet_keeps

theorem execTransitConnectReply_keeps {s0 s : State} (h : s0.Keeps s) (k) :
    ∃ s', execTransitConnectReply k s = .next s' ∧ s0.Keeps s' := by
  refine ⟨_, rfl, ?_⟩
  repeat' first
    | with_reducible assumption
    | with_reducible apply State.packet_keeps

theorem execTransitDisconnect_keeps {s0 s : State} (h : s0.Keeps s) (k) :
    ∃ s', execTransitDisconnect k s = .next s' ∧ s0.Keeps s' := by
  refine ⟨_, rfl, ?_⟩
  repeat' first
    | with_reducible assumption
    | with_reducible apply State.packet_keeps

theorem execTransitDisconnectReply_keeps {s0 s : State} (h : s0.Keeps s) (k) :
    ∃ s', execTransitDisconnectReply k s = .next s' ∧ s0.Keeps s' := by
  refine ⟨_, rfl, ?_⟩
  repeat' first
    | with_reducible assumption
    | with_reducible apply State.packet_keeps

theorem execTransitWrite_keeps {s0 s : State} (h : s0.Keeps s) (k) :
    ∃ s', execTransitWrite k s = .next s' ∧ s0.Keeps s' := by
  refine ⟨_, rfl, ?_⟩
  repeat' first
    | with_reducible assumption
    | with_reducible apply State.packet_keeps

theorem execTransitReadReq_keeps {s0 s : State} (h : s0.Keeps s) (k) :
    ∃ s', execTransitReadReq k s = .next s' ∧ s0.Keeps s' := by
  refine ⟨_, rfl, ?_⟩
  repeat' first
    | with_reducible assumption
    | with_reducible apply State.packet_keeps

theorem execTransitReadResp_keeps {s0 s : State} (h : s0.Keeps s) (k) :
    ∃ s', execTransitReadResp k s = .next s' ∧ s0.Keeps s' := by
  refine ⟨_, rfl, ?_⟩
  repeat' first
    | with_reducible assumption
    | with_reducible apply State.packet_keeps

theorem execTransitAtomic_keeps {s0 s : State} (h : s0.Keeps s) (k) :
    ∃ s', execTransitAtomic k s = .next s' ∧ s0.Keeps s' := by
  refine ⟨_, rfl, ?_⟩
  repeat' first
    | with_reducible assumption
    | with_reducible apply State.packet_keeps

theorem execTransitAtomicResp_keeps {s0 s : State} (h : s0.Keeps s) (k) :
    ∃ s', execTransitAtomicResp k s = .next s' ∧ s0.Keeps s' := by
  refine ⟨_, rfl, ?_⟩
  repeat' first
    | with_reducible assumption
    | with_reducible apply State.packet_keeps

theorem execTransitCollective_keeps {s0 s : State} (h : s0.Keeps s) (k) :
    ∃ s', execTransitCollective k s = .next s' ∧ s0.Keeps s' := by
  refine ⟨_, rfl, ?_⟩
  repeat' first
    | with_reducible assumption
    | with_reducible apply State.packet_keeps

theorem execTransitAck_keeps {s0 s : State} (h : s0.Keeps s) (k) :
    ∃ s', execTransitAck k s = .next s' ∧ s0.Keeps s' := by
  refine ⟨_, rfl, ?_⟩
  repeat' first
    | with_reducible assumption
    | with_reducible apply State.packet_keeps

theorem execTransitNak_keeps {s0 s : State} (h : s0.Keeps s) (k) :
    ∃ s', execTransitNak k s = .next s' ∧ s0.Keeps s' := by
  refine ⟨_, rfl, ?_⟩
  repeat' first
    | with_reducible assumption
    | with_reducible apply State.packet_keeps

theorem execLossyRetransmitTimer_keeps {s0 s : State} (h : s0.Keeps s) (c path psn) :
    ∃ s', execLossyRetransmitTimer c path psn s = .next s' ∧ s0.Keeps s' := by
  refine ⟨_, rfl, ?_⟩
  repeat' first
    | with_reducible assumption
    | with_reducible apply State.happen_keeps
    | with_reducible apply State.lossyTimer_keeps
    | intro _ _

theorem execPathTimer_keeps {s0 s : State} (h : s0.Keeps s) (c path) :
    ∃ s', execPathTimer c path s = .next s' ∧ s0.Keeps s' := by
  refine ⟨_, rfl, ?_⟩
  repeat' first
    | with_reducible assumption
    | with_reducible apply State.happen_keeps
    | with_reducible apply State.pathTimer_keeps
    | intro _ _

theorem execAckTimer_keeps {s0 s : State} (h : s0.Keeps s) (c path) :
    ∃ s', execAckTimer c path s = .next s' ∧ s0.Keeps s' := by
  refine ⟨_, rfl, ?_⟩
  repeat' first
    | with_reducible assumption
    | with_reducible apply State.happen_keeps
    | with_reducible apply State.ackTimer_keeps
    | intro _ _

theorem execCreditReturnTimer_keeps {s0 s : State} (h : s0.Keeps s) (c coll) :
    ∃ s', execCreditReturnTimer c coll s = .next s' ∧ s0.Keeps s' := by
  refine ⟨_, rfl, ?_⟩
  repeat' first
    | with_reducible assumption
    | with_reducible apply State.happen_keeps
    | with_reducible apply State.creditReturn_keeps
    | intro _ _

theorem execCreditAckTimer_keeps {s0 s : State} (h : s0.Keeps s) (c) :
    ∃ s', execCreditAckTimer c s = .next s' ∧ s0.Keeps s' := by
  refine ⟨_, rfl, ?_⟩
  repeat' first
    | with_reducible assumption
    | with_reducible apply State.happen_keeps
    | with_reducible apply State.creditTimer_keeps
    | intro _ _

theorem execDoorbellPoll_keeps {s0 s : State} (h : s0.Keeps s) (t) :
    ∃ s', execDoorbellPoll t s = .next s' ∧ s0.Keeps s' := by
  refine ⟨_, rfl, ?_⟩
  repeat' first
    | with_reducible assumption
    | with_reducible apply State.happen_keeps
    | with_reducible apply State.sqPoll_keeps
    | with_reducible apply State.catPoll_keeps
    | with_reducible apply State.txrPoll_keeps
    | with_reducible apply State.fltPoll_keeps
    | with_reducible apply State.ephPoll_keeps
    | split
    | intro _ _

theorem execSqWrite_keeps {s0 s : State} (h : s0.Keeps s) (q) :
    ∃ s', execSqWrite q s = .next s' ∧ s0.Keeps s' := by
  refine ⟨_, rfl, ?_⟩
  repeat' first
    | with_reducible assumption
    | with_reducible apply State.happen_keeps
    | with_reducible apply State.sqStart_keeps
    | intro _ _

theorem execSqRead_keeps {s0 s : State} (h : s0.Keeps s) (q) :
    ∃ s', execSqRead q s = .next s' ∧ s0.Keeps s' := by
  refine ⟨_, rfl, ?_⟩
  repeat' first
    | with_reducible assumption
    | with_reducible apply State.happen_keeps
    | with_reducible apply State.sqStart_keeps
    | intro _ _

theorem execSqAtomic_keeps {s0 s : State} (h : s0.Keeps s) (q) :
    ∃ s', execSqAtomic q s = .next s' ∧ s0.Keeps s' := by
  refine ⟨_, rfl, ?_⟩
  repeat' first
    | with_reducible assumption
    | with_reducible apply State.happen_keeps
    | with_reducible apply State.sqStart_keeps
    | intro _ _

theorem execCqEntryPost_keeps {s0 s : State} (h : s0.Keeps s) (q) :
    ∃ s', execCqEntryPost q s = .next s' ∧ s0.Keeps s' := by
  refine ⟨_, rfl, ?_⟩
  repeat' first
    | with_reducible assumption
    | with_reducible apply State.grantAll_keeps
    | with_reducible apply State.creditAckAll_keeps
    | with_reducible apply State.happen_keeps
    | with_reducible apply State.cqPost_keeps
    | with_reducible apply State.catNotify_keeps
    | (with_reducible refine State.Keeps.of_eq ?_ (by assumption))
    | split
    | intro _ _

theorem execRevokeComplete_keeps {s0 s : State} (h : s0.Keeps s) (index) :
    ∃ s', execRevokeComplete index s = .next s' ∧ s0.Keeps s' := by
  refine ⟨_, rfl, ?_⟩
  repeat' first
    | with_reducible assumption
    | with_reducible apply State.happen_keeps
    | with_reducible apply State.revokeDone_keeps
    | intro _ _

theorem execFrameReceive_keeps {s0 s : State} (h : s0.Keeps s) (p half bytes fcsOk) :
    ∃ s', execFrameReceive p half bytes fcsOk s = .next s' ∧ s0.Keeps s' := by
  refine ⟨_, rfl, ?_⟩
  repeat' first
    | with_reducible assumption
    | with_reducible apply State.happen_keeps
    | with_reducible apply State.shtUpdate_keeps
    | with_reducible apply State.frameReceive_keeps
    | intro _ _

theorem execFlowAgeOut_keeps {s0 s : State} (h : s0.Keeps s) (flow) :
    ∃ s', execFlowAgeOut flow s = .next s' ∧ s0.Keeps s' := by
  refine ⟨_, rfl, ?_⟩
  repeat' first
    | with_reducible assumption
    | with_reducible apply State.happen_keeps
    | with_reducible apply State.flowAge_keeps
    | split
    | intro _ _

theorem execEthLinkChange_keeps {s0 s : State} (h : s0.Keeps s) (p half up) :
    ∃ s', execEthLinkChange p half up s = .next s' ∧ s0.Keeps s' := by
  refine ⟨_, rfl, ?_⟩
  repeat' first
    | with_reducible assumption
    | with_reducible apply State.happen_keeps
    | with_reducible apply State.shtUpdate_keeps
    | with_reducible apply State.ethLinkChange_keeps
    | split
    | intro _ _

theorem execPfcReceive_keeps {s0 s : State} (h : s0.Keeps s) (p half prio quanta) :
    ∃ s', execPfcReceive p half prio quanta s = .next s' ∧ s0.Keeps s' := by
  refine ⟨_, rfl, ?_⟩
  repeat' first
    | with_reducible assumption
    | with_reducible apply State.happen_keeps
    | with_reducible apply State.shtUpdate_keeps
    | with_reducible apply State.pfcReceive_keeps
    | split
    | intro _ _

theorem execPfcRefresh_keeps {s0 s : State} (h : s0.Keeps s) (p half prio) :
    ∃ s', execPfcRefresh p half prio s = .next s' ∧ s0.Keeps s' := by
  refine ⟨_, rfl, ?_⟩
  repeat' first
    | with_reducible assumption
    | with_reducible apply State.happen_keeps
    | with_reducible apply State.pfcRefresh_keeps
    | intro _ _

theorem execPfcXonSend_keeps {s0 s : State} (h : s0.Keeps s) (p half prio) :
    ∃ s', execPfcXonSend p half prio s = .next s' ∧ s0.Keeps s' := by
  refine ⟨_, rfl, ?_⟩
  repeat' first
    | with_reducible assumption
    | with_reducible apply State.happen_keeps
    | with_reducible apply State.pfcXon_keeps
    | intro _ _

theorem execPfcPauseExpiry_keeps {s0 s : State} (h : s0.Keeps s) (p half prio) :
    ∃ s', execPfcPauseExpiry p half prio s = .next s' ∧ s0.Keeps s' := by
  refine ⟨_, rfl, ?_⟩
  repeat' first
    | with_reducible assumption
    | with_reducible apply State.happen_keeps
    | with_reducible apply State.shtUpdate_keeps
    | with_reducible apply State.pfcExpire_keeps
    | intro _ _

theorem execSpgCmdComplete_keeps {s0 s : State} (h : s0.Keeps s) :
    ∃ s', execSpgCmdComplete s = .next s' ∧ s0.Keeps s' := by
  refine ⟨_, rfl, ?_⟩
  repeat' first
    | with_reducible assumption
    | with_reducible apply State.happen_keeps
    | with_reducible apply State.spgComplete_keeps

theorem execFlowMeterRefill_keeps {s0 s : State} (h : s0.Keeps s) (flow bytes) :
    ∃ s', execFlowMeterRefill flow bytes s = .next s' ∧ s0.Keeps s' := by
  refine ⟨_, rfl, ?_⟩
  repeat' first
    | with_reducible assumption
    | with_reducible apply State.happen_keeps
    | with_reducible apply State.meterRefill_keeps
    | intro _ _

theorem execHeldFrameAdmit_keeps {s0 s : State} (h : s0.Keeps s) :
    ∃ s', execHeldFrameAdmit s = .next s' ∧ s0.Keeps s' := by
  refine ⟨_, rfl, ?_⟩
  repeat' first
    | with_reducible assumption
    | with_reducible apply State.happen_keeps
    | with_reducible apply State.shtUpdate_keeps
    | with_reducible apply State.heldAdmit_keeps
    | intro _ _

theorem execShutterSelect_keeps {s0 s : State} (h : s0.Keeps s) (p) :
    ∃ s', execShutterSelect p s = .next s' ∧ s0.Keeps s' := by
  refine ⟨_, rfl, ?_⟩
  repeat' first
    | with_reducible assumption
    | with_reducible apply State.happen_keeps
    | with_reducible apply State.selectLoop_keeps
    | with_reducible apply State.selectPort_keeps
    | split
    | intro _ _

theorem execBucketRefill_keeps {s0 s : State} (h : s0.Keeps s) (level) :
    ∃ s', execBucketRefill level s = .next s' ∧ s0.Keeps s' := by
  refine ⟨_, rfl, ?_⟩
  repeat' first
    | with_reducible assumption
    | with_reducible apply State.happen_keeps
    | with_reducible apply State.refillLevel_keeps
    | intro _ _

theorem execTxRingEntry_keeps {s0 s : State} (h : s0.Keeps s) (r) :
    ∃ s', execTxRingEntry r s = .next s' ∧ s0.Keeps s' := by
  refine ⟨_, rfl, ?_⟩
  repeat' first
    | with_reducible assumption
    | with_reducible apply State.happen_keeps
    | with_reducible apply State.shtUpdate_keeps
    | with_reducible apply State.txrTake_keeps
    | intro _ _

theorem execCatEntryTake_keeps {s0 s : State} (h : s0.Keeps s) (q) :
    ∃ s', execCatEntryTake q s = .next s' ∧ s0.Keeps s' := by
  refine ⟨_, rfl, ?_⟩
  repeat' first
    | with_reducible assumption
    | with_reducible apply State.happen_keeps
    | with_reducible apply State.catEntryTake_keeps
    | intro _ _

theorem execCatRead_keeps {s0 s : State} (h : s0.Keeps s) (q slot) :
    ∃ s', execCatRead q slot s = .next s' ∧ s0.Keeps s' := by
  refine ⟨_, rfl, ?_⟩
  repeat' first
    | with_reducible assumption
    | with_reducible apply State.happen_keeps
    | with_reducible apply State.catAdvance_keeps
    | intro _ _

theorem execCatWrite_keeps {s0 s : State} (h : s0.Keeps s) (q slot) :
    ∃ s', execCatWrite q slot s = .next s' ∧ s0.Keeps s' := by
  refine ⟨_, rfl, ?_⟩
  repeat' first
    | with_reducible assumption
    | with_reducible apply State.happen_keeps
    | with_reducible apply State.catAdvance_keeps
    | intro _ _

theorem execCatFlush_keeps {s0 s : State} (h : s0.Keeps s) (q slot) :
    ∃ s', execCatFlush q slot s = .next s' ∧ s0.Keeps s' := by
  refine ⟨_, rfl, ?_⟩
  repeat' first
    | with_reducible assumption
    | with_reducible apply State.happen_keeps
    | with_reducible apply State.catAdvance_keeps
    | intro _ _

theorem execCatDeallocate_keeps {s0 s : State} (h : s0.Keeps s) (q slot) :
    ∃ s', execCatDeallocate q slot s = .next s' ∧ s0.Keeps s' := by
  refine ⟨_, rfl, ?_⟩
  repeat' first
    | with_reducible assumption
    | with_reducible apply State.happen_keeps
    | with_reducible apply State.catAdvance_keeps
    | intro _ _

theorem execBackendWriteback_keeps {s0 s : State} (h : s0.Keeps s) (seg) :
    ∃ s', execBackendWriteback seg s = .next s' ∧ s0.Keeps s' := by
  refine ⟨_, rfl, ?_⟩
  repeat' first
    | with_reducible assumption
    | with_reducible apply State.happen_keeps
    | with_reducible apply State.writeBack_keeps
    | intro _ _

theorem State.writeFail_keeps {s0 s : State} (h : s0.Keeps s) (seg cause status) :
    s0.Keeps (s.writeFail seg cause status) := by
  delta State.writeFail
  repeat' first
    | with_reducible assumption
    | ((fail_if_no_progress (extract_lets +onlyGivenNames x)); first
        | (refine (fun (hk : s0.Keeps x) => ?_) ?_; clear_value x; rotate_left; dsimp -zeta only [x])
        | clear_value x)
    | with_reducible apply State.setCat_keeps
    | with_reducible apply State.beDiscard_keeps
    | with_reducible apply State.segFail_keeps
    | (with_reducible refine State.Keeps.of_eq ?_ (by assumption))
    | (with_reducible refine State.Keeps.of_eq3 ?_ (by assumption))
    | split

theorem execBackendWriteFail_keeps {s0 s : State} (h : s0.Keeps s) (seg cause status) :
    ∃ s', execBackendWriteFail seg cause status s = .next s' ∧ s0.Keeps s' := by
  refine ⟨_, rfl, ?_⟩
  repeat' first
    | with_reducible assumption
    | with_reducible apply State.happen_keeps
    | with_reducible apply State.writeFail_keeps
    | intro _ _

theorem execBackendTimeout_keeps {s0 s : State} (h : s0.Keeps s) (be id) :
    ∃ s', execBackendTimeout be id s = .next s' ∧ s0.Keeps s' := by
  refine ⟨_, rfl, ?_⟩
  repeat' first
    | with_reducible assumption
    | with_reducible apply State.happen_keeps
    | with_reducible apply State.beTimeout_keeps
    | intro _ _

theorem execNvmeCqPoll_keeps {s0 s : State} (h : s0.Keeps s) (be) :
    ∃ s', execNvmeCqPoll be s = .next s' ∧ s0.Keeps s' := by
  refine ⟨_, rfl, ?_⟩
  repeat' first
    | with_reducible assumption
    | with_reducible apply State.happen_keeps
    | with_reducible apply State.catNvmePoll_keeps
    | intro _ _

theorem execProgramBackendResponse_keeps {s0 s : State} (h : s0.Keeps s) (be) :
    ∃ s', execProgramBackendResponse be s = .next s' ∧ s0.Keeps s' := by
  refine ⟨_, rfl, ?_⟩
  repeat' first
    | with_reducible assumption
    | with_reducible apply State.happen_keeps
    | with_reducible apply State.programPoll_keeps
    | intro _ _

theorem execRemoteBackendCompletion_keeps {s0 s : State} (h : s0.Keeps s) (be entry) :
    ∃ s', execRemoteBackendCompletion be entry s = .next s' ∧ s0.Keeps s' := by
  refine ⟨_, rfl, ?_⟩
  repeat' first
    | with_reducible assumption
    | with_reducible apply State.happen_keeps
    | with_reducible apply State.remoteDone_keeps
    | intro _ _

theorem execCatQueueResetComplete_keeps {s0 s : State} (h : s0.Keeps s) (q) :
    ∃ s', execCatQueueResetComplete q s = .next s' ∧ s0.Keeps s' := by
  refine ⟨_, rfl, ?_⟩
  repeat' first
    | with_reducible assumption
    | with_reducible apply State.happen_keeps
    | with_reducible apply State.catResetDone_keeps
    | intro _ _

theorem execPcieLinkChange_keeps {s0 s : State} (h : s0.Keeps s) (j up speed width flit) :
    ∃ s', execPcieLinkChange j up speed width flit s = .next s' ∧ s0.Keeps s' := by
  refine ⟨_, rfl, ?_⟩
  repeat' first
    | with_reducible assumption
    | with_reducible apply State.happen_keeps
    | with_reducible apply State.linkChange_keeps
    | split
    | intro _ _

theorem execUpstreamFundamentalReset_keeps {s0 s : State} (h : s0.Keeps s) (p) :
    ∃ s', execUpstreamFundamentalReset p s = .next s' ∧ s0.Keeps s' := by
  refine ⟨_, rfl, ?_⟩
  repeat' first
    | with_reducible assumption
    | with_reducible apply State.happen_keeps
    | with_reducible apply State.fundamental_keeps
    | intro _ _

theorem execPfDoorbellWrite_keeps {s0 s : State} (h : s0.Keeps s) (p off value) :
    ∃ s', execPfDoorbellWrite p off value s = .next s' ∧ s0.Keeps s' := by
  refine ⟨_, rfl, ?_⟩
  repeat' first
    | with_reducible assumption
    | with_reducible apply State.happen_keeps
    | with_reducible apply State.pfDoorbell_keeps
    | intro _ _

theorem execBar4Write_keeps {s0 s : State} (h : s0.Keeps s) (p off bytes ep) :
    ∃ s', execBar4Write p off bytes ep s = .next s' ∧ s0.Keeps s' := by
  refine ⟨_, rfl, ?_⟩
  repeat' first
    | with_reducible assumption
    | with_reducible apply State.happen_keeps
    | with_reducible apply State.bar4Write_keeps
    | intro _ _

theorem execMsixSend_keeps {s0 s : State} (h : s0.Keeps s) (source) :
    ∃ s', execMsixSend source s = .next s' ∧ s0.Keeps s' := by
  refine ⟨_, rfl, ?_⟩
  repeat' first
    | with_reducible assumption
    | with_reducible apply State.happen_keeps
    | with_reducible apply State.routeSend_keeps
    | intro _ _

theorem execCompletionTimeout_keeps {s0 s : State} (h : s0.Keeps s) (j tag) :
    ∃ s', execCompletionTimeout j tag s = .next s' ∧ s0.Keeps s' := by
  refine ⟨_, rfl, ?_⟩
  repeat' first
    | with_reducible assumption
    | with_reducible apply State.happen_keeps
    | with_reducible apply State.requestTimeout_keeps
    | intro _ _

theorem execTagQuarantineEnd_keeps {s0 s : State} (h : s0.Keeps s) (p tag) :
    ∃ s', execTagQuarantineEnd p tag s = .next s' ∧ s0.Keeps s' := by
  refine ⟨_, rfl, ?_⟩
  repeat' first
    | with_reducible assumption
    | with_reducible apply State.happen_keeps
    | with_reducible apply State.pciePump_keeps
    | with_reducible apply State.quarantineEnd_keeps
    | intro _ _

theorem execPcieCompletionReceive_keeps {s0 s : State} (h : s0.Keeps s) (p tag status body ep) :
    ∃ s', execPcieCompletionReceive p tag status body ep s = .next s' ∧ s0.Keeps s' := by
  refine ⟨_, rfl, ?_⟩
  repeat' first
    | with_reducible assumption
    | with_reducible apply State.happen_keeps
    | with_reducible apply State.hostCompletion_keeps
    | intro _ _

theorem execAtsInvalidation_keeps {s0 s : State} (h : s0.Keeps s) (p fn addr size) :
    ∃ s', execAtsInvalidation p fn addr size s = .next s' ∧ s0.Keeps s' := by
  refine ⟨_, rfl, ?_⟩
  repeat' first
    | with_reducible assumption
    | with_reducible apply State.happen_keeps
    | with_reducible apply State.invalidate_keeps
    | split
    | intro _ _

theorem execBmeClear_keeps {s0 s : State} (h : s0.Keeps s) (p fn) :
    ∃ s', execBmeClear p fn s = .next s' ∧ s0.Keeps s' := by
  refine ⟨_, rfl, ?_⟩
  repeat' first
    | with_reducible assumption
    | with_reducible apply State.bmeClear_keeps
    | with_reducible apply State.happen_keeps
    | with_reducible apply State.bmeOff_keeps
    | intro _ _

theorem execBmeSet_keeps {s0 s : State} (h : s0.Keeps s) (p fn) :
    ∃ s', execBmeSet p fn s = .next s' ∧ s0.Keeps s' := by
  refine ⟨_, rfl, ?_⟩
  repeat' first
    | with_reducible assumption
    | with_reducible apply State.happen_keeps
    | with_reducible apply State.bmeOn_keeps
    | intro _ _

theorem execFlrStart_keeps {s0 s : State} (h : s0.Keeps s) (p fn) :
    ∃ s', execFlrStart p fn s = .next s' ∧ s0.Keeps s' := by
  refine ⟨_, rfl, ?_⟩
  repeat' first
    | with_reducible assumption
    | with_reducible apply State.happen_keeps
    | with_reducible apply State.flrStart_keeps
    | intro _ _

theorem execFlrComplete_keeps {s0 s : State} (h : s0.Keeps s) (p fn) :
    ∃ s', execFlrComplete p fn s = .next s' ∧ s0.Keeps s' := by
  refine ⟨_, rfl, ?_⟩
  repeat' first
    | with_reducible assumption
    | with_reducible apply State.happen_keeps
    | with_reducible apply State.flrComplete_keeps
    | intro _ _

theorem execInboundRequest_keeps {s0 s : State} (h : s0.Keeps s) (k r) :
    ∃ s', execInboundRequest k r s = .next s' ∧ s0.Keeps s' := by
  refine ⟨_, rfl, ?_⟩
  repeat' first
    | with_reducible assumption
    | with_reducible apply State.happen_keeps
    | with_reducible apply State.inbound_keeps
    | intro _ _

theorem execDpcTrigger_keeps {s0 s : State} (h : s0.Keeps s) (k cause) :
    ∃ s', execDpcTrigger k cause s = .next s' ∧ s0.Keeps s' := by
  refine ⟨_, rfl, ?_⟩
  repeat' first
    | with_reducible assumption
    | with_reducible apply State.happen_keeps
    | with_reducible apply State.dpcTrigger_keeps
    | split
    | intro _ _

theorem execPresenceChange_keeps {s0 s : State} (h : s0.Keeps s) (k on) :
    ∃ s', execPresenceChange k on s = .next s' ∧ s0.Keeps s' := by
  refine ⟨_, rfl, ?_⟩
  repeat' first
    | with_reducible assumption
    | with_reducible apply State.happen_keeps
    | with_reducible apply State.presence_keeps
    | intro _ _

theorem execPcieLinkError_keeps {s0 s : State} (h : s0.Keeps s) (j e header) :
    ∃ s', execPcieLinkError j e header s = .next s' ∧ s0.Keeps s' := by
  refine ⟨_, rfl, ?_⟩
  repeat' first
    | with_reducible assumption
    | with_reducible apply State.happen_keeps
    | with_reducible apply State.linkError_keeps
    | intro _ _

theorem execVfShutdownComplete_keeps {s0 s : State} (h : s0.Keeps s) (p v) :
    ∃ s', execVfShutdownComplete p v s = .next s' ∧ s0.Keeps s' := by
  refine ⟨_, rfl, ?_⟩
  repeat' first
    | with_reducible assumption
    | with_reducible apply State.happen_keeps
    | with_reducible apply State.vfShutdownDone_keeps
    | intro _ _

theorem execVfDoorbellWrite_keeps {s0 s : State} (h : s0.Keeps s) (p v page off bytes ep) :
    ∃ s', execVfDoorbellWrite p v page off bytes ep s = .next s' ∧ s0.Keeps s' := by
  refine ⟨_, rfl, ?_⟩
  repeat' first
    | with_reducible assumption
    | with_reducible apply State.happen_keeps
    | with_reducible apply State.vfBar2Write_keeps
    | intro _ _

theorem execDirtySwapComplete_keeps {s0 s : State} (h : s0.Keeps s) (p v) :
    ∃ s', execDirtySwapComplete p v s = .next s' ∧ s0.Keeps s' := by
  refine ⟨_, rfl, ?_⟩
  repeat' first
    | with_reducible assumption
    | with_reducible apply State.happen_keeps
    | with_reducible apply State.dirtySwapped_keeps
    | intro _ _

theorem execFilterDescStart_keeps {s0 s : State} (h : s0.Keeps s) :
    ∃ s', execFilterDescStart s = .next s' ∧ s0.Keeps s' := by
  refine ⟨_, rfl, ?_⟩
  repeat' first
    | with_reducible assumption
    | with_reducible apply State.happen_keeps
    | with_reducible apply State.fltStart_keeps

theorem execFilterDescComplete_keeps {s0 s : State} (h : s0.Keeps s) (u) :
    ∃ s', execFilterDescComplete u s = .next s' ∧ s0.Keeps s' := by
  refine ⟨_, rfl, ?_⟩
  repeat' first
    | with_reducible assumption
    | with_reducible apply State.happen_keeps
    | with_reducible apply State.fltComplete_keeps
    | intro _ _

theorem execFilterStallTimeout_keeps {s0 s : State} (h : s0.Keeps s) (u) :
    ∃ s', execFilterStallTimeout u s = .next s' ∧ s0.Keeps s' := by
  refine ⟨_, rfl, ?_⟩
  repeat' first
    | with_reducible assumption
    | with_reducible apply State.happen_keeps
    | with_reducible apply State.fltStall_keeps
    | intro _ _

theorem execKeyEraseComplete_keeps {s0 s : State} (h : s0.Keeps s) (index) :
    ∃ s', execKeyEraseComplete index s = .next s' ∧ s0.Keeps s' := by
  refine ⟨_, rfl, ?_⟩
  repeat' first
    | with_reducible assumption
    | with_reducible apply State.happen_keeps
    | with_reducible apply State.keyEraseComplete_keeps
    | intro _ _

theorem execSecureBoot_keeps {s0 s : State} (h : s0.Keeps s) (agree) :
    ∃ s', execSecureBoot agree s = .next s' ∧ s0.Keeps s' := by
  refine ⟨_, rfl, ?_⟩
  repeat' first
    | with_reducible assumption
    | with_reducible apply State.happen_keeps
    | with_reducible apply State.secureBoot_keeps
    | intro _ _

theorem execRotCmdDone_keeps {s0 s : State} (h : s0.Keeps s) :
    ∃ s', execRotCmdDone s = .next s' ∧ s0.Keeps s' := by
  refine ⟨_, rfl, ?_⟩
  repeat' first
    | with_reducible assumption
    | with_reducible apply State.happen_keeps
    | with_reducible apply State.rotCmdDone_keeps

theorem execFlashCmdDone_keeps {s0 s : State} (h : s0.Keeps s) (error) :
    ∃ s', execFlashCmdDone error s = .next s' ∧ s0.Keeps s' := by
  refine ⟨_, rfl, ?_⟩
  repeat' first
    | with_reducible assumption
    | with_reducible apply State.happen_keeps
    | with_reducible apply State.flashCmdDone_keeps
    | intro _ _

theorem execBoundary_keeps {s0 s : State} (h : s0.Keeps s) :
    ∃ s', execBoundary s = .next s' ∧ s0.Keeps s' := by
  refine ⟨_, rfl, ?_⟩
  repeat' first
    | with_reducible assumption
    | with_reducible apply State.happen_keeps
    | with_reducible apply State.ephBoundary_keeps

theorem execRollback_keeps {s0 s : State} (h : s0.Keeps s) :
    ∃ s', execRollback s = .next s' ∧ s0.Keeps s' := by
  refine ⟨_, rfl, ?_⟩
  repeat' first
    | with_reducible assumption
    | with_reducible apply State.happen_keeps
    | with_reducible apply State.ephRollback_keeps

theorem execRestore_keeps {s0 s : State} (h : s0.Keeps s) :
    ∃ s', execRestore s = .next s' ∧ s0.Keeps s' := by
  refine ⟨_, rfl, ?_⟩
  repeat' first
    | with_reducible assumption
    | with_reducible apply State.happen_keeps
    | with_reducible apply State.ephRestore_keeps

theorem execEndEpoch_keeps {s0 s : State} (h : s0.Keeps s) :
    ∃ s', execEndEpoch s = .next s' ∧ s0.Keeps s' := by
  refine ⟨_, rfl, ?_⟩
  repeat' first
    | with_reducible assumption
    | with_reducible apply State.happen_keeps
    | with_reducible apply State.ephEndEpoch_keeps

theorem execEphDrain_keeps {s0 s : State} (h : s0.Keeps s) :
    ∃ s', execEphDrain s = .next s' ∧ s0.Keeps s' := by
  refine ⟨_, rfl, ?_⟩
  repeat' first
    | with_reducible assumption
    | with_reducible apply State.happen_keeps
    | with_reducible apply State.drainStep_keeps

theorem execEphDestCommit_keeps {s0 s : State} (h : s0.Keeps s) (d) :
    ∃ s', execEphDestCommit d s = .next s' ∧ s0.Keeps s' := by
  refine ⟨_, rfl, ?_⟩
  repeat' first
    | with_reducible assumption
    | with_reducible apply State.happen_keeps
    | with_reducible apply State.destCommit_keeps
    | intro _ _

theorem execEphDrainEnd_keeps {s0 s : State} (h : s0.Keeps s) :
    ∃ s', execEphDrainEnd s = .next s' ∧ s0.Keeps s' := by
  refine ⟨_, rfl, ?_⟩
  repeat' first
    | with_reducible assumption
    | with_reducible apply State.happen_keeps
    | with_reducible apply State.drainEnd_keeps

theorem execEphWarnSample_keeps {s0 s : State} (h : s0.Keeps s) :
    ∃ s', execEphWarnSample s = .next s' ∧ s0.Keeps s' := by
  refine ⟨_, rfl, ?_⟩
  repeat' first
    | with_reducible assumption
    | with_reducible apply State.happen_keeps
    | with_reducible apply State.warnSample_keeps

end Sys2Proof.Machine
end

