-- ==== Sys2Proof/Laws/KeepsFeeding.lean ====
section
/-! SUPPORT. The operations of Machine/Feeding.lean keep a state well. -/

namespace Sys2Proof.Machine

open Sys2Proof

theorem State.primStalls_keeps {s0 s : State} (h : s0.Keeps s) (op) :
    s0.Keeps (s.primStalls op).2 := by
  delta State.primStalls
  repeat' first
    | with_reducible assumption
    | ((fail_if_no_progress (extract_lets +onlyGivenNames x)); first
        | (refine (fun (hk : s0.Keeps x.2) => ?_) ?_; clear_value x; rotate_left; dsimp -zeta only [x])
        | clear_value x)
    | with_reducible apply State.free_keeps
    | split

end Sys2Proof.Machine
end

