-- ==== Sys2Proof/Laws/KeepsPrimary.lean ====
section
/-! SUPPORT. The operations of Machine/Primary.lean keep a state well. -/

namespace Sys2Proof.Machine

open Sys2Proof

theorem State.primRefuse_keeps {s0 s : State} (h : s0.Keeps s) (d code bases accepted) :
    s0.Keeps (s.primRefuse d code bases accepted) := by
  delta State.primRefuse
  repeat' first
    | with_reducible assumption
    | ((fail_if_no_progress (extract_lets +onlyGivenNames x)); first
        | (refine (fun (hk : s0.Keeps x) => ?_) ?_; clear_value x; rotate_left; dsimp -zeta only [x])
        | (refine (fun (hk : s0.Keeps x.2) => ?_) ?_; clear_value x; rotate_left; dsimp -zeta only [x])
        | (refine (fun (hk : s0.Keeps x.2.2) => ?_) ?_; clear_value x; rotate_left; dsimp -zeta only [x])
        | clear_value x
        | skip)
    | with_reducible apply State.free_keeps
    | with_reducible apply State.recordError_keeps
    | with_reducible apply State.setPrim_keeps

theorem State.primStart_keeps {s0 s : State} (h : s0.Keeps s) (op) :
    s0.Keeps (s.primStart op) := by
  delta State.primStart
  repeat' first
    | with_reducible assumption
    | ((fail_if_no_progress (extract_lets +onlyGivenNames x)); first
        | (refine (fun (hk : s0.Keeps x) => ?_) ?_; clear_value x; rotate_left; dsimp -zeta only [x])
        | clear_value x)
    | with_reducible apply State.setReg_keeps
    | with_reducible apply State.setPrim_keeps
    | split

theorem State.primTurnAway_keeps {s0 s : State} (h : s0.Keeps s) (op code bases) :
    s0.Keeps (s.primTurnAway op code bases) := by
  delta State.primTurnAway
  repeat' first
    | with_reducible assumption
    | ((fail_if_no_progress (extract_lets +onlyGivenNames x)); first
        | (refine (fun (hk : s0.Keeps x) => ?_) ?_; clear_value x; rotate_left; dsimp -zeta only [x])
        | clear_value x)
    | with_reducible apply State.setPrim_keeps
    | with_reducible apply State.primRefuse_keeps

theorem State.primCheckOn_keeps {s0 s : State} (h : s0.Keeps s) (op) :
    s0.Keeps (s.primCheckOn op) := by
  delta State.primCheckOn
  repeat' first
    | with_reducible assumption
    | ((fail_if_no_progress (extract_lets +onlyGivenNames x)); first
        | (refine (fun (hk : s0.Keeps x.2.2) => ?_) ?_; clear_value x; rotate_left; dsimp -zeta only [x])
        | clear_value x)
    | with_reducible apply State.setPrim_keeps
    | with_reducible apply State.primStart_keeps
    | with_reducible apply State.primEnd_keeps
    | with_reducible apply State.readMem_keeps
    | with_reducible apply State.primTurnAway_keeps
    | split

theorem State.primTake_keeps {s0 s : State} (h : s0.Keeps s) (d rest) :
    s0.Keeps (s.primTake d rest) := by
  delta State.primTake
  repeat' first
    | with_reducible assumption
    | ((fail_if_no_progress (extract_lets +onlyGivenNames x)); first
        | (refine (fun (hk : s0.Keeps x) => ?_) ?_; clear_value x; rotate_left; dsimp -zeta only [x])
        | clear_value x)
    | with_reducible apply State.primTurnAway_keeps
    | with_reducible apply State.primCheckOn_keeps
    | with_reducible apply State.setPrim_keeps
    | with_reducible apply State.primRefuse_keeps
    | with_reducible apply State.readMem_keeps
    | with_reducible apply State.primStart_keeps
    | with_reducible apply hc1
    | (with_reducible refine State.Keeps.of_eq3 ?_ (by assumption))
    | split

theorem execPrimAccept_keeps {s0 s : State} (h : s0.Keeps s) :
    ∃ s', execPrimAccept s = .next s' ∧ s0.Keeps s' := by
  refine ⟨_, rfl, ?_⟩
  repeat' first
    | with_reducible assumption
    | with_reducible apply State.primCheckOn_keeps
    | with_reducible apply State.noteLevels_keeps
    | with_reducible apply State.primTake_keeps
    | split

theorem execPrimFirstMultiply_keeps {s0 s : State} (h : s0.Keeps s) :
    ∃ s', execPrimFirstMultiply s = .next s' ∧ s0.Keeps s' := by
  refine ⟨_, rfl, ?_⟩
  repeat' first
    | with_reducible assumption
    | ((fail_if_no_progress (extract_lets +onlyGivenNames x)); first
        | (refine (fun (hk : s0.Keeps x) => ?_) ?_; clear_value x; rotate_left; dsimp -zeta only [x])
        | clear_value x)
    | with_reducible apply State.primEnd_keeps
    | with_reducible apply State.setPrim_keeps
    | with_reducible apply State.setFld_keeps
    | with_reducible apply State.noteLevels_keeps
    | with_reducible apply State.colSettle_keeps
    | split

theorem State.primOutput_keeps {s0 s : State} (h : s0.Keeps s) (d l) :
    s0.Keeps (s.primOutput d l) := by
  delta State.primOutput
  repeat' first
    | with_reducible assumption
    | ((fail_if_no_progress (extract_lets +onlyGivenNames x)); clear_value x)
    | with_reducible apply State.mark_keeps
    | with_reducible apply State.setPrim_keeps
    | with_reducible apply State.writeMem_keeps
    | split

theorem State.primOutputs_keeps {s0 s : State} (h : s0.Keeps s) (d ls) :
    s0.Keeps (s.primOutputs d ls).2 := by
  induction ls generalizing s with
  | nil =>
    rw [State.primOutputs.eq_def]
    try dsimp -zeta only
    repeat' first
      | with_reducible assumption
  | cons hd tl ih =>
    rw [State.primOutputs.eq_def]
    try dsimp -zeta only
    repeat' first
      | with_reducible assumption
      | with_reducible apply ih
      | with_reducible apply State.primOutput_keeps
      | split

theorem State.primRetain_keeps {s0 s : State} (h : s0.Keeps s) (d sums) :
    s0.Keeps (s.primRetain d sums) := by
  delta State.primRetain
  repeat' first
    | with_reducible assumption
    | ((fail_if_no_progress (extract_lets +onlyGivenNames x)); first
        | (refine (fun (hk : s0.Keeps x) => ?_) ?_; clear_value x; rotate_left; dsimp -zeta only [x])
        | clear_value x)
    | with_reducible apply State.setFlag_keeps
    | with_reducible apply State.setFld_keeps
    | with_reducible apply State.setPrim_keeps
    | split

theorem State.primCycles_keeps {s0 s : State} (h : s0.Keeps s) (d stall) :
    s0.Keeps (s.primCycles d stall).2 := by
  delta State.primCycles
  repeat' first
    | with_reducible assumption
    | ((fail_if_no_progress (extract_lets +onlyGivenNames x)); first
        | (refine (fun (hk : s0.Keeps x.2) => ?_) ?_; clear_value x; rotate_left; dsimp -zeta only [x]))
    | with_reducible apply State.free_keeps

theorem State.primLeave_keeps {s0 s : State} (h : s0.Keeps s) (op flags) :
    s0.Keeps (s.primLeave op flags) := by
  delta State.primLeave
  repeat' first
    | with_reducible assumption
    | ((fail_if_no_progress (extract_lets +onlyGivenNames x)); first
        | (refine (fun (hk : s0.Keeps x) => ?_) ?_; clear_value x; rotate_left; dsimp -zeta only [x])
        | (refine (fun (hk : s0.Keeps x.2) => ?_) ?_; clear_value x; rotate_left; dsimp -zeta only [x])
        | clear_value x)
    | with_reducible apply State.primStalls_keeps
    | with_reducible apply State.primCycles_keeps
    | with_reducible apply State.primCount_keeps
    | with_reducible apply State.setPrim_keeps
    | with_reducible apply State.setHel_keeps

theorem State.freeElems_keeps {s0 s : State} (h : s0.Keeps s) (w hit j es) :
    s0.Keeps (s.freeElems w hit j es).2 := by
  induction es generalizing s j with
  | nil =>
    rw [State.freeElems.eq_def]
    try dsimp -zeta only
    repeat' first
      | with_reducible assumption
      | ((fail_if_no_progress (extract_lets +onlyGivenNames x)); first
          | (refine (fun (hk : s0.Keeps x) => ?_) ?_; clear_value x; rotate_left; dsimp -zeta only [x])
          | (refine (fun (hk : s0.Keeps x.2) => ?_) ?_; clear_value x; rotate_left; dsimp -zeta only [x])
          | (refine (fun (hk : s0.Keeps x.2.2) => ?_) ?_; clear_value x; rotate_left; dsimp -zeta only [x])
          | clear_value x
          | skip)
  | cons hd tl ih =>
    rw [State.freeElems.eq_def]
    try dsimp -zeta only
    repeat' first
      | with_reducible assumption
      | with_reducible apply ih
      | ((fail_if_no_progress (extract_lets +onlyGivenNames x)); first
          | (refine (fun (hk : s0.Keeps x.2) => ?_) ?_; clear_value x; rotate_left; dsimp -zeta only [x]))
      | with_reducible apply State.free_keeps
      | split

theorem State.freeSums_keeps {s0 s : State} (h : s0.Keeps s) (hit n xs) :
    s0.Keeps (s.freeSums hit n xs).2 := by
  induction xs generalizing s n with
  | nil =>
    rw [State.freeSums.eq_def]
    try dsimp -zeta only
    repeat' first
      | with_reducible assumption
      | ((fail_if_no_progress (extract_lets +onlyGivenNames x)); first
          | (refine (fun (hk : s0.Keeps x) => ?_) ?_; clear_value x; rotate_left; dsimp -zeta only [x])
          | (refine (fun (hk : s0.Keeps x.2) => ?_) ?_; clear_value x; rotate_left; dsimp -zeta only [x])
          | (refine (fun (hk : s0.Keeps x.2.2) => ?_) ?_; clear_value x; rotate_left; dsimp -zeta only [x])
          | clear_value x
          | skip)
  | cons hd tl ih =>
    rw [State.freeSums.eq_def]
    try dsimp -zeta only
    repeat' first
      | with_reducible assumption
      | with_reducible apply ih
      | ((fail_if_no_progress (extract_lets +onlyGivenNames x)); first
          | (refine (fun (hk : s0.Keeps x.2) => ?_) ?_; clear_value x; rotate_left; dsimp -zeta only [x]))
      | with_reducible apply State.free_keeps
      | split

theorem State.mixRow_keeps {s0 s : State} (h : s0.Keeps s) (op i row) :
    s0.Keeps (s.mixRow op i row).2 := by
  delta State.mixRow
  repeat' first
    | with_reducible assumption
    | ((fail_if_no_progress (extract_lets +onlyGivenNames x)); first
        | (refine (fun (hk : s0.Keeps x.2) => ?_) ?_; clear_value x; rotate_left; dsimp -zeta only [x])
        | clear_value x)
    | with_reducible apply State.freeSums_keeps
    | with_reducible apply State.freeElems_keeps

theorem State.primMixed_keeps {s0 s : State} (h : s0.Keeps s) (r) : s0.Keeps (s.primMixed r).2 := by
  delta State.primMixed
  repeat' first
    | with_reducible assumption
    | ((fail_if_no_progress (extract_lets +onlyGivenNames x)); first
        | (refine (fun (hk : s0.Keeps x.2) => ?_) ?_; clear_value x; rotate_left; dsimp -zeta only [x])
        | clear_value x)
    | with_reducible apply State.mixRow_keeps
    | with_reducible apply State.deliver_keeps
    | with_reducible apply State.free_keeps
    | (with_reducible refine State.Keeps.foldl_pair ?_ ?_)
    | intro _ _ _

theorem State.primCompute_keeps {s0 s : State} (h : s0.Keeps s) (op) :
    s0.Keeps (s.primCompute op).2 := by
  delta State.primCompute
  repeat' first
    | with_reducible assumption
    | ((fail_if_no_progress (extract_lets +onlyGivenNames x)); first
        | (refine (fun (hk : s0.Keeps x) => ?_) ?_; clear_value x; rotate_left; dsimp -zeta only [x]))
    | with_reducible apply State.noteRead_keeps
    | with_reducible apply State.primMixed_keeps
    | (with_reducible refine State.Keeps.of_eq ?_ (by assumption))
    | (with_reducible refine State.Keeps.of_eq3 ?_ (by assumption))
    | split
    | (with_reducible refine State.Keeps.foldl ?_ ?_)
    | (with_reducible refine State.Keeps.foldl_pair ?_ ?_)
    | (with_reducible refine State.Keeps.foldl_triple ?_ ?_)
    | intro _ _ _

theorem State.primEmit_keeps {s0 s : State} (h : s0.Keeps s) (op upto) :
    s0.Keeps (s.primEmit op upto).2 := by
  delta State.primEmit
  repeat' first
    | with_reducible assumption
    | ((fail_if_no_progress (extract_lets +onlyGivenNames x)); first
        | (refine (fun (hk : s0.Keeps x.2) => ?_) ?_; clear_value x; rotate_left; dsimp -zeta only [x])
        | clear_value x)
    | with_reducible apply State.primCompute_keeps
    | with_reducible apply State.primOutputs_keeps

theorem State.primFinish_keeps {s0 s : State} (h : s0.Keeps s) (op) :
    s0.Keeps (s.primFinish op) := by
  delta State.primFinish
  repeat' first
    | with_reducible assumption
    | ((fail_if_no_progress (extract_lets +onlyGivenNames x)); first
        | (refine (fun (hk : s0.Keeps x) => ?_) ?_; clear_value x; rotate_left; dsimp -zeta only [x])
        | (refine (fun (hk : s0.Keeps x.2) => ?_) ?_; clear_value x; rotate_left; dsimp -zeta only [x])
        | clear_value x)
    | with_reducible apply State.primEmit_keeps
    | with_reducible apply State.setPrim_keeps
    | with_reducible apply State.colArrive_keeps
    | with_reducible apply State.primMixed_keeps
    | with_reducible apply State.primLeave_keeps
    | with_reducible apply State.noteRead_keeps
    | with_reducible apply State.primOutput_keeps
    | with_reducible apply State.primRetain_keeps
    | with_reducible apply State.colSettle_keeps
    | with_reducible apply State.colTakeRun_keeps
    | split

theorem execPrimArrayEnd_keeps {s0 s : State} (h : s0.Keeps s) :
    ∃ s', execPrimArrayEnd s = .next s' ∧ s0.Keeps s' := by
  refine ⟨_, rfl, ?_⟩
  repeat' first
    | with_reducible assumption
    | ((fail_if_no_progress (extract_lets +onlyGivenNames x)); clear_value x)
    | with_reducible apply State.primEnd_keeps
    | with_reducible apply State.noteLevels_keeps
    | with_reducible apply State.primFinish_keeps
    | split

theorem State.noticeFromArray_keeps {s0 s : State} (h : s0.Keeps s) (op) :
    s0.Keeps (s.noticeFromArray op) := by
  delta State.noticeFromArray
  repeat' first
    | with_reducible assumption
    | ((fail_if_no_progress (extract_lets +onlyGivenNames x)); first
        | (refine (fun (hk : s0.Keeps x) => ?_) ?_; clear_value x; rotate_left; dsimp -zeta only [x])
        | (refine (fun (hk : s0.Keeps x.2) => ?_) ?_; clear_value x; rotate_left; dsimp -zeta only [x])
        | clear_value x)
    | with_reducible apply State.primEmit_keeps
    | with_reducible apply State.setPrim_keeps
    | with_reducible apply State.moverNotice_keeps
    | split

theorem execPrimReadyNotice_keeps {s0 s : State} (h : s0.Keeps s) :
    ∃ s', execPrimReadyNotice s = .next s' ∧ s0.Keeps s' := by
  refine ⟨_, rfl, ?_⟩
  repeat' first
    | with_reducible assumption
    | ((fail_if_no_progress (extract_lets +onlyGivenNames x)); clear_value x)
    | with_reducible apply State.noticeFromArray_keeps
    | with_reducible apply State.moverNotice_keeps
    | with_reducible apply State.setPrim_keeps
    | split

end Sys2Proof.Machine
end

