-- ==== Sys2Proof/Laws/KeepsXqAlu.lean ====
section
/-! SUPPORT. The operations of Machine/XqAlu.lean keep a state well. -/

namespace Sys2Proof.Machine

open Sys2Proof

theorem State.result_keeps {s0 s : State} (h : s0.Keeps s) (c rd r) :
    Fate.Keeps s0 (s.result c rd r) := by
  delta State.result
  repeat' first
    | with_reducible assumption
    | with_reducible apply State.mapCore_keeps
    | with_reducible apply Fate.Keeps.next

theorem State.alu3_keeps {s0 s : State} (h : s0.Keeps s) (c w rd ra rb f64 f32) :
    s0.Keeps (s.alu3 c w rd ra rb f64 f32) := by
  delta State.alu3
  repeat' first
    | with_reducible assumption
    | ((fail_if_no_progress (extract_lets +onlyGivenNames x)); clear_value x)
    | with_reducible apply State.instr_keeps
    | with_reducible apply State.result_keeps
    | intro _ _

theorem State.alu2_keeps {s0 s : State} (h : s0.Keeps s) (c w rd ra f64 f32) :
    s0.Keeps (s.alu2 c w rd ra f64 f32) := by
  delta State.alu2
  repeat' first
    | with_reducible assumption
    | with_reducible apply State.instr_keeps
    | with_reducible apply State.result_keeps
    | intro _ _

theorem State.alu0_keeps {s0 s : State} (h : s0.Keeps s) (c w ra rb f64 f32) :
    s0.Keeps (s.alu0 c w ra rb f64 f32) := by
  delta State.alu0
  repeat' first
    | with_reducible assumption
    | ((fail_if_no_progress (extract_lets +onlyGivenNames x)); clear_value x)
    | with_reducible apply State.instr_keeps
    | with_reducible apply State.mapCore_keeps
    | with_reducible apply Fate.Keeps.next
    | intro _ _

theorem State.aluImm_keeps {s0 s : State} (h : s0.Keeps s) (c len rd ra imm f) :
    s0.Keeps (s.aluImm c len rd ra imm f) := by
  delta State.aluImm
  repeat' first
    | with_reducible assumption
    | with_reducible apply State.instr_keeps
    | with_reducible apply State.result_keeps
    | intro _ _

theorem State.shiftImm_keeps {s0 s : State} (h : s0.Keeps s) (c w rd ra amount f64 f32) :
    s0.Keeps (s.shiftImm c w rd ra amount f64 f32) := by
  delta State.shiftImm
  repeat' first
    | with_reducible assumption
    | with_reducible apply State.alu2_keeps

theorem execAdd_keeps {s0 s : State} (h : s0.Keeps s) (core w rd ra rb) :
    ∃ s', execAdd core w rd ra rb s = .next s' ∧ s0.Keeps s' := by
  refine ⟨_, rfl, ?_⟩
  repeat' first
    | with_reducible assumption
    | with_reducible apply State.alu3_keeps

theorem execSub_keeps {s0 s : State} (h : s0.Keeps s) (core w rd ra rb) :
    ∃ s', execSub core w rd ra rb s = .next s' ∧ s0.Keeps s' := by
  refine ⟨_, rfl, ?_⟩
  repeat' first
    | with_reducible assumption
    | with_reducible apply State.alu3_keeps

theorem execAdc_keeps {s0 s : State} (h : s0.Keeps s) (core w rd ra rb) :
    ∃ s', execAdc core w rd ra rb s = .next s' ∧ s0.Keeps s' := by
  refine ⟨_, rfl, ?_⟩
  repeat' first
    | with_reducible assumption
    | with_reducible apply State.alu3_keeps

theorem execSbc_keeps {s0 s : State} (h : s0.Keeps s) (core w rd ra rb) :
    ∃ s', execSbc core w rd ra rb s = .next s' ∧ s0.Keeps s' := by
  refine ⟨_, rfl, ?_⟩
  repeat' first
    | with_reducible assumption
    | with_reducible apply State.alu3_keeps

theorem execCmp_keeps {s0 s : State} (h : s0.Keeps s) (core w ra rb) :
    ∃ s', execCmp core w ra rb s = .next s' ∧ s0.Keeps s' := by
  refine ⟨_, rfl, ?_⟩
  repeat' first
    | with_reducible assumption
    | with_reducible apply State.alu0_keeps

theorem execNeg_keeps {s0 s : State} (h : s0.Keeps s) (core w rd ra) :
    ∃ s', execNeg core w rd ra s = .next s' ∧ s0.Keeps s' := by
  refine ⟨_, rfl, ?_⟩
  repeat' first
    | with_reducible assumption
    | with_reducible apply State.alu2_keeps

theorem execMul_keeps {s0 s : State} (h : s0.Keeps s) (core w rd ra rb) :
    ∃ s', execMul core w rd ra rb s = .next s' ∧ s0.Keeps s' := by
  refine ⟨_, rfl, ?_⟩
  repeat' first
    | with_reducible assumption
    | with_reducible apply State.alu3_keeps

theorem execMulhu_keeps {s0 s : State} (h : s0.Keeps s) (core w rd ra rb) :
    ∃ s', execMulhu core w rd ra rb s = .next s' ∧ s0.Keeps s' := by
  refine ⟨_, rfl, ?_⟩
  repeat' first
    | with_reducible assumption
    | with_reducible apply State.alu3_keeps

theorem execMulhs_keeps {s0 s : State} (h : s0.Keeps s) (core w rd ra rb) :
    ∃ s', execMulhs core w rd ra rb s = .next s' ∧ s0.Keeps s' := by
  refine ⟨_, rfl, ?_⟩
  repeat' first
    | with_reducible assumption
    | with_reducible apply State.alu3_keeps

theorem execDivu_keeps {s0 s : State} (h : s0.Keeps s) (core w rd ra rb) :
    ∃ s', execDivu core w rd ra rb s = .next s' ∧ s0.Keeps s' := by
  refine ⟨_, rfl, ?_⟩
  repeat' first
    | with_reducible assumption
    | with_reducible apply State.alu3_keeps

theorem execDivs_keeps {s0 s : State} (h : s0.Keeps s) (core w rd ra rb) :
    ∃ s', execDivs core w rd ra rb s = .next s' ∧ s0.Keeps s' := by
  refine ⟨_, rfl, ?_⟩
  repeat' first
    | with_reducible assumption
    | with_reducible apply State.alu3_keeps

theorem execRemu_keeps {s0 s : State} (h : s0.Keeps s) (core w rd ra rb) :
    ∃ s', execRemu core w rd ra rb s = .next s' ∧ s0.Keeps s' := by
  refine ⟨_, rfl, ?_⟩
  repeat' first
    | with_reducible assumption
    | with_reducible apply State.alu3_keeps

theorem execRems_keeps {s0 s : State} (h : s0.Keeps s) (core w rd ra rb) :
    ∃ s', execRems core w rd ra rb s = .next s' ∧ s0.Keeps s' := by
  refine ⟨_, rfl, ?_⟩
  repeat' first
    | with_reducible assumption
    | with_reducible apply State.alu3_keeps

theorem execSel_keeps {s0 s : State} (h : s0.Keeps s) (core cond rd ra rb) :
    ∃ s', execSel core cond rd ra rb s = .next s' ∧ s0.Keeps s' := by
  refine ⟨_, rfl, ?_⟩
  repeat' first
    | with_reducible assumption
    | ((fail_if_no_progress (extract_lets +onlyGivenNames x)); clear_value x)
    | with_reducible apply State.instr_keeps
    | with_reducible apply State.setCore_keeps
    | with_reducible apply Fate.Keeps.next
    | intro _ _

theorem execAnd_keeps {s0 s : State} (h : s0.Keeps s) (core w rd ra rb) :
    ∃ s', execAnd core w rd ra rb s = .next s' ∧ s0.Keeps s' := by
  refine ⟨_, rfl, ?_⟩
  repeat' first
    | with_reducible assumption
    | with_reducible apply State.alu3_keeps

theorem execOr_keeps {s0 s : State} (h : s0.Keeps s) (core w rd ra rb) :
    ∃ s', execOr core w rd ra rb s = .next s' ∧ s0.Keeps s' := by
  refine ⟨_, rfl, ?_⟩
  repeat' first
    | with_reducible assumption
    | with_reducible apply State.alu3_keeps

theorem execXor_keeps {s0 s : State} (h : s0.Keeps s) (core w rd ra rb) :
    ∃ s', execXor core w rd ra rb s = .next s' ∧ s0.Keeps s' := by
  refine ⟨_, rfl, ?_⟩
  repeat' first
    | with_reducible assumption
    | with_reducible apply State.alu3_keeps

theorem execAndn_keeps {s0 s : State} (h : s0.Keeps s) (core w rd ra rb) :
    ∃ s', execAndn core w rd ra rb s = .next s' ∧ s0.Keeps s' := by
  refine ⟨_, rfl, ?_⟩
  repeat' first
    | with_reducible assumption
    | with_reducible apply State.alu3_keeps

theorem execTst_keeps {s0 s : State} (h : s0.Keeps s) (core w ra rb) :
    ∃ s', execTst core w ra rb s = .next s' ∧ s0.Keeps s' := by
  refine ⟨_, rfl, ?_⟩
  repeat' first
    | with_reducible assumption
    | with_reducible apply State.alu0_keeps

theorem execShl_keeps {s0 s : State} (h : s0.Keeps s) (core w rd ra rb) :
    ∃ s', execShl core w rd ra rb s = .next s' ∧ s0.Keeps s' := by
  refine ⟨_, rfl, ?_⟩
  repeat' first
    | with_reducible assumption
    | with_reducible apply State.alu3_keeps

theorem execShr_keeps {s0 s : State} (h : s0.Keeps s) (core w rd ra rb) :
    ∃ s', execShr core w rd ra rb s = .next s' ∧ s0.Keeps s' := by
  refine ⟨_, rfl, ?_⟩
  repeat' first
    | with_reducible assumption
    | with_reducible apply State.alu3_keeps

theorem execSar_keeps {s0 s : State} (h : s0.Keeps s) (core w rd ra rb) :
    ∃ s', execSar core w rd ra rb s = .next s' ∧ s0.Keeps s' := by
  refine ⟨_, rfl, ?_⟩
  repeat' first
    | with_reducible assumption
    | with_reducible apply State.alu3_keeps

theorem execRor_keeps {s0 s : State} (h : s0.Keeps s) (core w rd ra rb) :
    ∃ s', execRor core w rd ra rb s = .next s' ∧ s0.Keeps s' := by
  refine ⟨_, rfl, ?_⟩
  repeat' first
    | with_reducible assumption
    | with_reducible apply State.alu3_keeps

theorem execClz_keeps {s0 s : State} (h : s0.Keeps s) (core w rd ra) :
    ∃ s', execClz core w rd ra s = .next s' ∧ s0.Keeps s' := by
  refine ⟨_, rfl, ?_⟩
  repeat' first
    | with_reducible assumption
    | with_reducible apply State.alu2_keeps

theorem execCtz_keeps {s0 s : State} (h : s0.Keeps s) (core w rd ra) :
    ∃ s', execCtz core w rd ra s = .next s' ∧ s0.Keeps s' := by
  refine ⟨_, rfl, ?_⟩
  repeat' first
    | with_reducible assumption
    | with_reducible apply State.alu2_keeps

theorem execPopc_keeps {s0 s : State} (h : s0.Keeps s) (core w rd ra) :
    ∃ s', execPopc core w rd ra s = .next s' ∧ s0.Keeps s' := by
  refine ⟨_, rfl, ?_⟩
  repeat' first
    | with_reducible assumption
    | with_reducible apply State.alu2_keeps

theorem execBswap_keeps {s0 s : State} (h : s0.Keeps s) (core w rd ra) :
    ∃ s', execBswap core w rd ra s = .next s' ∧ s0.Keeps s' := by
  refine ⟨_, rfl, ?_⟩
  repeat' first
    | with_reducible assumption
    | with_reducible apply State.alu2_keeps

theorem execSextb_keeps {s0 s : State} (h : s0.Keeps s) (core rd ra) :
    ∃ s', execSextb core rd ra s = .next s' ∧ s0.Keeps s' := by
  refine ⟨_, rfl, ?_⟩
  repeat' first
    | with_reducible assumption
    | with_reducible apply State.aluImm_keeps

theorem execSexth_keeps {s0 s : State} (h : s0.Keeps s) (core rd ra) :
    ∃ s', execSexth core rd ra s = .next s' ∧ s0.Keeps s' := by
  refine ⟨_, rfl, ?_⟩
  repeat' first
    | with_reducible assumption
    | with_reducible apply State.aluImm_keeps

theorem execSextw_keeps {s0 s : State} (h : s0.Keeps s) (core rd ra) :
    ∃ s', execSextw core rd ra s = .next s' ∧ s0.Keeps s' := by
  refine ⟨_, rfl, ?_⟩
  repeat' first
    | with_reducible assumption
    | with_reducible apply State.aluImm_keeps

theorem execZextw_keeps {s0 s : State} (h : s0.Keeps s) (core rd ra) :
    ∃ s', execZextw core rd ra s = .next s' ∧ s0.Keeps s' := by
  refine ⟨_, rfl, ?_⟩
  repeat' first
    | with_reducible assumption
    | with_reducible apply State.aluImm_keeps

theorem execAddi_keeps {s0 s : State} (h : s0.Keeps s) (core rd ra imm) :
    ∃ s', execAddi core rd ra imm s = .next s' ∧ s0.Keeps s' := by
  refine ⟨_, rfl, ?_⟩
  repeat' first
    | with_reducible assumption
    | with_reducible apply State.aluImm_keeps

theorem execCmpi_keeps {s0 s : State} (h : s0.Keeps s) (core ra imm) :
    ∃ s', execCmpi core ra imm s = .next s' ∧ s0.Keeps s' := by
  refine ⟨_, rfl, ?_⟩
  repeat' first
    | with_reducible assumption
    | with_reducible apply State.instr_keeps
    | with_reducible apply State.mapCore_keeps
    | with_reducible apply Fate.Keeps.next
    | intro _ _

theorem execAndi_keeps {s0 s : State} (h : s0.Keeps s) (core rd ra imm) :
    ∃ s', execAndi core rd ra imm s = .next s' ∧ s0.Keeps s' := by
  refine ⟨_, rfl, ?_⟩
  repeat' first
    | with_reducible assumption
    | with_reducible apply State.aluImm_keeps

theorem execOri_keeps {s0 s : State} (h : s0.Keeps s) (core rd ra imm) :
    ∃ s', execOri core rd ra imm s = .next s' ∧ s0.Keeps s' := by
  refine ⟨_, rfl, ?_⟩
  repeat' first
    | with_reducible assumption
    | with_reducible apply State.aluImm_keeps

theorem execXori_keeps {s0 s : State} (h : s0.Keeps s) (core rd ra imm) :
    ∃ s', execXori core rd ra imm s = .next s' ∧ s0.Keeps s' := by
  refine ⟨_, rfl, ?_⟩
  repeat' first
    | with_reducible assumption
    | with_reducible apply State.aluImm_keeps

theorem execShli_keeps {s0 s : State} (h : s0.Keeps s) (core w rd ra amount) :
    ∃ s', execShli core w rd ra amount s = .next s' ∧ s0.Keeps s' := by
  refine ⟨_, rfl, ?_⟩
  repeat' first
    | with_reducible assumption
    | with_reducible apply State.shiftImm_keeps

theorem execShri_keeps {s0 s : State} (h : s0.Keeps s) (core w rd ra amount) :
    ∃ s', execShri core w rd ra amount s = .next s' ∧ s0.Keeps s' := by
  refine ⟨_, rfl, ?_⟩
  repeat' first
    | with_reducible assumption
    | with_reducible apply State.shiftImm_keeps

theorem execSari_keeps {s0 s : State} (h : s0.Keeps s) (core w rd ra amount) :
    ∃ s', execSari core w rd ra amount s = .next s' ∧ s0.Keeps s' := by
  refine ⟨_, rfl, ?_⟩
  repeat' first
    | with_reducible assumption
    | with_reducible apply State.shiftImm_keeps

theorem execMovi_keeps {s0 s : State} (h : s0.Keeps s) (core rd imm) :
    ∃ s', execMovi core rd imm s = .next s' ∧ s0.Keeps s' := by
  refine ⟨_, rfl, ?_⟩
  repeat' first
    | with_reducible assumption
    | with_reducible apply State.instr_keeps
    | with_reducible apply State.mapCore_keeps
    | with_reducible apply Fate.Keeps.next
    | intro _ _

theorem execLmovhi_keeps {s0 s : State} (h : s0.Keeps s) (core rd imm) :
    ∃ s', execLmovhi core rd imm s = .next s' ∧ s0.Keeps s' := by
  refine ⟨_, rfl, ?_⟩
  repeat' first
    | with_reducible assumption
    | with_reducible apply State.instr_keeps
    | with_reducible apply State.mapCore_keeps
    | with_reducible apply Fate.Keeps.next
    | intro _ _

end Sys2Proof.Machine
end

