-- ==== Sys2Proof/Laws/KeepsXqMemory.lean ====
section
/-! SUPPORT. The operations of Machine/XqMemory.lean keep a state well. -/

namespace Sys2Proof.Machine

open Sys2Proof

theorem State.loadInstr_keeps {s0 s : State} (h : s0.Keeps s) (c rd ra imm n f) :
    s0.Keeps (s.loadInstr c rd ra imm n f) := by
  delta State.loadInstr
  repeat' first
    | with_reducible assumption
    | ((fail_if_no_progress (extract_lets +onlyGivenNames x)); clear_value x)
    | with_reducible apply State.instr_keeps
    | with_reducible apply State.coreLoad_keeps
    | with_reducible apply State.mapCore_keeps
    | with_reducible apply Fate.Keeps.next
    | with_reducible apply Fate.Keeps.fault
    | (with_reducible refine State.Keeps.of_eq ?_ (by assumption))
    | split
    | intro _ _

theorem State.storeInstr_keeps {s0 s : State} (h : s0.Keeps s) (c rs ra imm n) :
    s0.Keeps (s.storeInstr c rs ra imm n) := by
  delta State.storeInstr
  repeat' first
    | with_reducible assumption
    | ((fail_if_no_progress (extract_lets +onlyGivenNames x)); clear_value x)
    | with_reducible apply State.instr_keeps
    | with_reducible apply State.coreStore_keeps
    | with_reducible apply Fate.Keeps.next
    | with_reducible apply Fate.Keeps.fault
    | (with_reducible refine State.Keeps.of_eq ?_ (by assumption))
    | split
    | intro _ _

theorem execLdb_keeps {s0 s : State} (h : s0.Keeps s) (core rd ra imm) :
    ∃ s', execLdb core rd ra imm s = .next s' ∧ s0.Keeps s' := by
  refine ⟨_, rfl, ?_⟩
  repeat' first
    | with_reducible assumption
    | with_reducible apply State.loadInstr_keeps

theorem execLdbs_keeps {s0 s : State} (h : s0.Keeps s) (core rd ra imm) :
    ∃ s', execLdbs core rd ra imm s = .next s' ∧ s0.Keeps s' := by
  refine ⟨_, rfl, ?_⟩
  repeat' first
    | with_reducible assumption
    | with_reducible apply State.loadInstr_keeps

theorem execLdh_keeps {s0 s : State} (h : s0.Keeps s) (core rd ra imm) :
    ∃ s', execLdh core rd ra imm s = .next s' ∧ s0.Keeps s' := by
  refine ⟨_, rfl, ?_⟩
  repeat' first
    | with_reducible assumption
    | with_reducible apply State.loadInstr_keeps

theorem execLdhs_keeps {s0 s : State} (h : s0.Keeps s) (core rd ra imm) :
    ∃ s', execLdhs core rd ra imm s = .next s' ∧ s0.Keeps s' := by
  refine ⟨_, rfl, ?_⟩
  repeat' first
    | with_reducible assumption
    | with_reducible apply State.loadInstr_keeps

theorem execLdw_keeps {s0 s : State} (h : s0.Keeps s) (core rd ra imm) :
    ∃ s', execLdw core rd ra imm s = .next s' ∧ s0.Keeps s' := by
  refine ⟨_, rfl, ?_⟩
  repeat' first
    | with_reducible assumption
    | with_reducible apply State.loadInstr_keeps

theorem execLdws_keeps {s0 s : State} (h : s0.Keeps s) (core rd ra imm) :
    ∃ s', execLdws core rd ra imm s = .next s' ∧ s0.Keeps s' := by
  refine ⟨_, rfl, ?_⟩
  repeat' first
    | with_reducible assumption
    | with_reducible apply State.loadInstr_keeps

theorem execLdd_keeps {s0 s : State} (h : s0.Keeps s) (core rd ra imm) :
    ∃ s', execLdd core rd ra imm s = .next s' ∧ s0.Keeps s' := by
  refine ⟨_, rfl, ?_⟩
  repeat' first
    | with_reducible assumption
    | with_reducible apply State.loadInstr_keeps

theorem execStb_keeps {s0 s : State} (h : s0.Keeps s) (core rs ra imm) :
    ∃ s', execStb core rs ra imm s = .next s' ∧ s0.Keeps s' := by
  refine ⟨_, rfl, ?_⟩
  repeat' first
    | with_reducible assumption
    | with_reducible apply State.storeInstr_keeps

theorem execSth_keeps {s0 s : State} (h : s0.Keeps s) (core rs ra imm) :
    ∃ s', execSth core rs ra imm s = .next s' ∧ s0.Keeps s' := by
  refine ⟨_, rfl, ?_⟩
  repeat' first
    | with_reducible assumption
    | with_reducible apply State.storeInstr_keeps

theorem execStw_keeps {s0 s : State} (h : s0.Keeps s) (core rs ra imm) :
    ∃ s', execStw core rs ra imm s = .next s' ∧ s0.Keeps s' := by
  refine ⟨_, rfl, ?_⟩
  repeat' first
    | with_reducible assumption
    | with_reducible apply State.storeInstr_keeps

theorem execStd_keeps {s0 s : State} (h : s0.Keeps s) (core rs ra imm) :
    ∃ s', execStd core rs ra imm s = .next s' ∧ s0.Keeps s' := by
  refine ⟨_, rfl, ?_⟩
  repeat' first
    | with_reducible assumption
    | with_reducible apply State.storeInstr_keeps

theorem State.spaceRefusal_keeps {s0 s : State} (h : s0.Keeps s) (c a n write) {t : State}
    (he : s.spaceRefusal c a n write = some t) : s0.Keeps t := by
  have key : ∀ q ∈ s.spaceRefusal c a n write, s0.Keeps q := by
    delta State.spaceRefusal
    repeat' first
      | with_reducible assumption
      | (rintro q hq; cases hq)
      | with_reducible apply State.recordError_keeps
      | with_reducible apply State.regMisused_keeps
      | with_reducible apply State.regRefused_keeps
      | split
  exact key _ he

theorem State.atomic_keeps {s0 s : State} (h : s0.Keeps s) (c half rd ra rb setZ f) :
    s0.Keeps (s.atomic c half rd ra rb setZ f) := by
  delta State.atomic
  repeat' first
    | with_reducible assumption
    | ((fail_if_no_progress (extract_lets +onlyGivenNames x)); first
        | (refine (fun (hk : s0.Keeps x) => ?_) ?_; clear_value x; rotate_left; dsimp -zeta only [x])
        | (refine (fun (hk : s0.Keeps x.2) => ?_) ?_; clear_value x; rotate_left; dsimp -zeta only [x])
        | clear_value x)
    | with_reducible refine State.spaceRefusal_keeps ?_ _ _ _ _ (by assumption)
    | with_reducible apply State.instr_keeps
    | with_reducible apply State.coreLoad_keeps
    | with_reducible apply State.coreStore_keeps
    | with_reducible apply State.mapCore_keeps
    | with_reducible apply Fate.Keeps.next
    | with_reducible apply Fate.Keeps.fault
    | (with_reducible refine State.Keeps.of_eq ?_ (by assumption))
    | split
    | intro _ _

theorem execSwap_keeps {s0 s : State} (h : s0.Keeps s) (core half rd ra rb) :
    ∃ s', execSwap core half rd ra rb s = .next s' ∧ s0.Keeps s' := by
  refine ⟨_, rfl, ?_⟩
  repeat' first
    | with_reducible assumption
    | with_reducible apply State.atomic_keeps

theorem execCas_keeps {s0 s : State} (h : s0.Keeps s) (core half rd ra rb) :
    ∃ s', execCas core half rd ra rb s = .next s' ∧ s0.Keeps s' := by
  refine ⟨_, rfl, ?_⟩
  repeat' first
    | with_reducible assumption
    | with_reducible apply State.atomic_keeps

theorem execFadd_keeps {s0 s : State} (h : s0.Keeps s) (core half rd ra rb) :
    ∃ s', execFadd core half rd ra rb s = .next s' ∧ s0.Keeps s' := by
  refine ⟨_, rfl, ?_⟩
  repeat' first
    | with_reducible assumption
    | with_reducible apply State.atomic_keeps

theorem execFand_keeps {s0 s : State} (h : s0.Keeps s) (core half rd ra rb) :
    ∃ s', execFand core half rd ra rb s = .next s' ∧ s0.Keeps s' := by
  refine ⟨_, rfl, ?_⟩
  repeat' first
    | with_reducible assumption
    | with_reducible apply State.atomic_keeps

theorem execFor_keeps {s0 s : State} (h : s0.Keeps s) (core half rd ra rb) :
    ∃ s', execFor core half rd ra rb s = .next s' ∧ s0.Keeps s' := by
  refine ⟨_, rfl, ?_⟩
  repeat' first
    | with_reducible assumption
    | with_reducible apply State.atomic_keeps

theorem execFxor_keeps {s0 s : State} (h : s0.Keeps s) (core half rd ra rb) :
    ∃ s', execFxor core half rd ra rb s = .next s' ∧ s0.Keeps s' := by
  refine ⟨_, rfl, ?_⟩
  repeat' first
    | with_reducible assumption
    | with_reducible apply State.atomic_keeps

theorem execFmaxu_keeps {s0 s : State} (h : s0.Keeps s) (core half rd ra rb) :
    ∃ s', execFmaxu core half rd ra rb s = .next s' ∧ s0.Keeps s' := by
  refine ⟨_, rfl, ?_⟩
  repeat' first
    | with_reducible assumption
    | with_reducible apply State.atomic_keeps

theorem execFminu_keeps {s0 s : State} (h : s0.Keeps s) (core half rd ra rb) :
    ∃ s', execFminu core half rd ra rb s = .next s' ∧ s0.Keeps s' := by
  refine ⟨_, rfl, ?_⟩
  repeat' first
    | with_reducible assumption
    | with_reducible apply State.atomic_keeps

theorem execFmaxs_keeps {s0 s : State} (h : s0.Keeps s) (core half rd ra rb) :
    ∃ s', execFmaxs core half rd ra rb s = .next s' ∧ s0.Keeps s' := by
  refine ⟨_, rfl, ?_⟩
  repeat' first
    | with_reducible assumption
    | with_reducible apply State.atomic_keeps

theorem execFmins_keeps {s0 s : State} (h : s0.Keeps s) (core half rd ra rb) :
    ∃ s', execFmins core half rd ra rb s = .next s' ∧ s0.Keeps s' := by
  refine ⟨_, rfl, ?_⟩
  repeat' first
    | with_reducible assumption
    | with_reducible apply State.atomic_keeps

theorem State.callTo_keeps {s0 s : State} (h : s0.Keeps s) (c len target) :
    Fate.Keeps s0 (s.callTo c len target) := by
  delta State.callTo
  repeat' first
    | with_reducible assumption
    | with_reducible apply State.pushReturn_keeps
    | with_reducible apply Fate.Keeps.jump
    | with_reducible apply Fate.Keeps.fault
    | (with_reducible refine State.Keeps.of_eq ?_ (by assumption))
    | split

theorem execBcc_keeps {s0 s : State} (h : s0.Keeps s) (core cond off) :
    ∃ s', execBcc core cond off s = .next s' ∧ s0.Keeps s' := by
  refine ⟨_, rfl, ?_⟩
  repeat' first
    | with_reducible assumption
    | ((fail_if_no_progress (extract_lets +onlyGivenNames x)); clear_value x)
    | with_reducible apply State.instr_keeps
    | with_reducible apply Fate.Keeps.next
    | with_reducible apply Fate.Keeps.jump
    | split
    | intro _ _

theorem execCall_keeps {s0 s : State} (h : s0.Keeps s) (core off) :
    ∃ s', execCall core off s = .next s' ∧ s0.Keeps s' := by
  refine ⟨_, rfl, ?_⟩
  repeat' first
    | with_reducible assumption
    | with_reducible apply State.instr_keeps
    | with_reducible apply State.callTo_keeps
    | intro _ _

theorem execBr_keeps {s0 s : State} (h : s0.Keeps s) (core ra) :
    ∃ s', execBr core ra s = .next s' ∧ s0.Keeps s' := by
  refine ⟨_, rfl, ?_⟩
  repeat' first
    | with_reducible assumption
    | with_reducible apply State.instr_keeps
    | with_reducible apply Fate.Keeps.jump
    | intro _ _

theorem execCallr_keeps {s0 s : State} (h : s0.Keeps s) (core ra) :
    ∃ s', execCallr core ra s = .next s' ∧ s0.Keeps s' := by
  refine ⟨_, rfl, ?_⟩
  repeat' first
    | with_reducible assumption
    | with_reducible apply State.instr_keeps
    | with_reducible apply State.callTo_keeps
    | intro _ _

theorem execRet_keeps {s0 s : State} (h : s0.Keeps s) (core) :
    ∃ s', execRet core s = .next s' ∧ s0.Keeps s' := by
  refine ⟨_, rfl, ?_⟩
  repeat' first
    | with_reducible assumption
    | with_reducible apply State.instr_keeps
    | with_reducible apply State.popReturn_keeps
    | with_reducible apply Fate.Keeps.jump
    | with_reducible apply Fate.Keeps.fault
    | (with_reducible refine State.Keeps.of_eq ?_ (by assumption))
    | split
    | intro _ _

theorem execPush_keeps {s0 s : State} (h : s0.Keeps s) (core ra) :
    ∃ s', execPush core ra s = .next s' ∧ s0.Keeps s' := by
  refine ⟨_, rfl, ?_⟩
  repeat' first
    | with_reducible assumption
    | with_reducible apply State.instr_keeps
    | with_reducible apply State.pushAll_keeps
    | with_reducible apply Fate.Keeps.next
    | with_reducible apply Fate.Keeps.fault
    | (with_reducible refine State.Keeps.of_eq ?_ (by assumption))
    | split
    | intro _ _

theorem execPop_keeps {s0 s : State} (h : s0.Keeps s) (core rd) :
    ∃ s', execPop core rd s = .next s' ∧ s0.Keeps s' := by
  refine ⟨_, rfl, ?_⟩
  repeat' first
    | with_reducible assumption
    | with_reducible apply State.instr_keeps
    | with_reducible apply State.popAll_keeps
    | with_reducible apply State.mapCore_keeps
    | with_reducible apply Fate.Keeps.next
    | with_reducible apply Fate.Keeps.fault
    | (with_reducible refine State.Keeps.of_eq ?_ (by assumption))
    | split
    | intro _ _

theorem execPushm_keeps {s0 s : State} (h : s0.Keeps s) (core ra rb) :
    ∃ s', execPushm core ra rb s = .next s' ∧ s0.Keeps s' := by
  refine ⟨_, rfl, ?_⟩
  repeat' first
    | with_reducible assumption
    | with_reducible apply State.instr_keeps
    | with_reducible apply State.pushAll_keeps
    | with_reducible apply Fate.Keeps.next
    | with_reducible apply Fate.Keeps.fault
    | (with_reducible refine State.Keeps.of_eq ?_ (by assumption))
    | split
    | intro _ _

theorem execPopm_keeps {s0 s : State} (h : s0.Keeps s) (core ra rb) :
    ∃ s', execPopm core ra rb s = .next s' ∧ s0.Keeps s' := by
  refine ⟨_, rfl, ?_⟩
  repeat' first
    | with_reducible assumption
    | ((fail_if_no_progress (extract_lets +onlyGivenNames x)); clear_value x)
    | with_reducible apply State.instr_keeps
    | with_reducible apply State.popAll_keeps
    | with_reducible apply State.mapCore_keeps
    | with_reducible apply Fate.Keeps.next
    | with_reducible apply Fate.Keeps.fault
    | (with_reducible refine State.Keeps.of_eq ?_ (by assumption))
    | split
    | intro _ _

theorem execAddds_keeps {s0 s : State} (h : s0.Keeps s) (core imm) :
    ∃ s', execAddds core imm s = .next s' ∧ s0.Keeps s' := by
  refine ⟨_, rfl, ?_⟩
  repeat' first
    | with_reducible assumption
    | ((fail_if_no_progress (extract_lets +onlyGivenNames x)); clear_value x)
    | with_reducible apply State.instr_keeps
    | with_reducible apply State.setCore_keeps
    | with_reducible apply Fate.Keeps.next
    | with_reducible apply Fate.Keeps.fault
    | split
    | intro _ _

theorem execGetds_keeps {s0 s : State} (h : s0.Keeps s) (core rd imm) :
    ∃ s', execGetds core rd imm s = .next s' ∧ s0.Keeps s' := by
  refine ⟨_, rfl, ?_⟩
  repeat' first
    | with_reducible assumption
    | with_reducible apply State.instr_keeps
    | with_reducible apply State.mapCore_keeps
    | with_reducible apply Fate.Keeps.next
    | intro _ _

end Sys2Proof.Machine
end

