-- ==== Sys2Proof/Laws/KeepsXqSystem.lean ====
section
/-! SUPPORT. The operations of Machine/XqSystem.lean keep a state well. -/

namespace Sys2Proof.Machine

open Sys2Proof

theorem State.writeRsplit_keeps {s0 s : State} (h : s0.Keeps s) (c v) :
    s0.Keeps (s.writeRsplit c v).2 := by
  delta State.writeRsplit
  repeat' first
    | with_reducible assumption
    | with_reducible apply State.spillAll_keeps
    | with_reducible apply State.mapCore_keeps
    | (with_reducible refine State.Keeps.of_eq ?_ (by assumption))
    | split

theorem State.crWrite_keeps {s0 s : State} (h : s0.Keeps s) (c n v) :
    s0.Keeps (s.crWrite c n v).2 := by
  delta State.crWrite
  repeat' first
    | with_reducible assumption
    | ((fail_if_no_progress (extract_lets +onlyGivenNames x)); first
        | (refine (fun (hk : s0.Keeps x) => ?_) ?_; clear_value x; rotate_left; dsimp -zeta only [x])
        | clear_value x)
    | with_reducible apply State.writeRsplit_keeps
    | with_reducible apply State.setCore_keeps
    | with_reducible apply State.recordError_keeps
    | split

theorem State.crInstr_keeps {s0 s : State} (h : s0.Keeps s) (c fn reg cr f) :
    s0.Keeps (s.crInstr c fn reg cr f) := by
  delta State.crInstr
  repeat' first
    | with_reducible assumption
    | ((fail_if_no_progress (extract_lets +onlyGivenNames x)); clear_value x)
    | with_reducible apply State.instr_keeps
    | with_reducible apply State.crWrite_keeps
    | with_reducible apply Fate.Keeps.next
    | with_reducible apply Fate.Keeps.fault
    | (with_reducible refine State.Keeps.of_eq ?_ (by assumption))
    | split
    | intro _ _

theorem execCrr_keeps {s0 s : State} (h : s0.Keeps s) (core reg cr) :
    ∃ s', execCrr core reg cr s = .next s' ∧ s0.Keeps s' := by
  refine ⟨_, rfl, ?_⟩
  repeat' first
    | with_reducible assumption
    | ((fail_if_no_progress (extract_lets +onlyGivenNames x)); clear_value x)
    | with_reducible apply State.instr_keeps
    | with_reducible apply State.setCore_keeps
    | with_reducible apply Fate.Keeps.next
    | with_reducible apply Fate.Keeps.fault
    | split
    | intro _ _

theorem execCrw_keeps {s0 s : State} (h : s0.Keeps s) (core reg cr) :
    ∃ s', execCrw core reg cr s = .next s' ∧ s0.Keeps s' := by
  refine ⟨_, rfl, ?_⟩
  repeat' first
    | with_reducible assumption
    | with_reducible apply State.crInstr_keeps

theorem execCrs_keeps {s0 s : State} (h : s0.Keeps s) (core reg cr) :
    ∃ s', execCrs core reg cr s = .next s' ∧ s0.Keeps s' := by
  refine ⟨_, rfl, ?_⟩
  repeat' first
    | with_reducible assumption
    | with_reducible apply State.crInstr_keeps

theorem execCrc_keeps {s0 s : State} (h : s0.Keeps s) (core reg cr) :
    ∃ s', execCrc core reg cr s = .next s' ∧ s0.Keeps s' := by
  refine ⟨_, rfl, ?_⟩
  repeat' first
    | with_reducible assumption
    | with_reducible apply State.crInstr_keeps

theorem execNop_keeps {s0 s : State} (h : s0.Keeps s) (core) :
    ∃ s', execNop core s = .next s' ∧ s0.Keeps s' := by
  refine ⟨_, rfl, ?_⟩
  repeat' first
    | with_reducible assumption
    | with_reducible apply State.instr_keeps
    | with_reducible apply Fate.Keeps.next

theorem execFence_keeps {s0 s : State} (h : s0.Keeps s) (core) :
    ∃ s', execFence core s = .next s' ∧ s0.Keeps s' := by
  refine ⟨_, rfl, ?_⟩
  repeat' first
    | with_reducible assumption
    | with_reducible apply State.instr_keeps
    | with_reducible apply Fate.Keeps.next

theorem execIfence_keeps {s0 s : State} (h : s0.Keeps s) (core) :
    ∃ s', execIfence core s = .next s' ∧ s0.Keeps s' := by
  refine ⟨_, rfl, ?_⟩
  repeat' first
    | with_reducible assumption
    | with_reducible apply State.instr_keeps
    | with_reducible apply Fate.Keeps.next
    | with_reducible apply Fate.Keeps.fault
    | split
    | intro _ _

theorem execXret_keeps {s0 s : State} (h : s0.Keeps s) (core) :
    ∃ s', execXret core s = .next s' ∧ s0.Keeps s' := by
  refine ⟨_, rfl, ?_⟩
  repeat' first
    | with_reducible assumption
    | ((fail_if_no_progress (extract_lets +onlyGivenNames x)); clear_value x)
    | with_reducible apply State.instr_keeps
    | with_reducible apply State.setCore_keeps
    | with_reducible apply Fate.Keeps.jump
    | with_reducible apply Fate.Keeps.fault
    | split
    | intro _ _

theorem execBrk_keeps {s0 s : State} (h : s0.Keeps s) (core) :
    ∃ s', execBrk core s = .next s' ∧ s0.Keeps s' := by
  refine ⟨_, rfl, ?_⟩
  repeat' first
    | with_reducible assumption
    | with_reducible apply State.instr_keeps
    | with_reducible apply Fate.Keeps.fault
    | intro _ _

theorem execRsfl_keeps {s0 s : State} (h : s0.Keeps s) (core ra) :
    ∃ s', execRsfl core ra s = .next s' ∧ s0.Keeps s' := by
  refine ⟨_, rfl, ?_⟩
  repeat' first
    | with_reducible assumption
    | ((fail_if_no_progress (extract_lets +onlyGivenNames x)); clear_value x)
    | with_reducible apply State.instr_keeps
    | with_reducible apply State.spillAll_keeps
    | with_reducible apply Fate.Keeps.next
    | with_reducible apply Fate.Keeps.fault
    | (with_reducible refine State.Keeps.of_eq ?_ (by assumption))
    | split
    | intro _ _

theorem execSys_keeps {s0 s : State} (h : s0.Keeps s) (core imm) :
    ∃ s', execSys core imm s = .next s' ∧ s0.Keeps s' := by
  refine ⟨_, rfl, ?_⟩
  repeat' first
    | with_reducible assumption
    | with_reducible apply State.instr_keeps
    | with_reducible apply Fate.Keeps.fault
    | intro _ _

theorem State.zFromBit_keeps {s0 s : State} (h : s0.Keeps s) (c v) :
    s0.Keeps (s.zFromBit c v) := by
  delta State.zFromBit
  repeat' first
    | with_reducible assumption
    | with_reducible apply State.mapCore_keeps

theorem State.bitChange_keeps {s0 s : State} (h : s0.Keeps s) (c b f) :
    s0.Keeps (s.bitChange c b f) := by
  delta State.bitChange
  repeat' first
    | with_reducible assumption
    | ((fail_if_no_progress (extract_lets +onlyGivenNames x)); clear_value x)
    | with_reducible apply State.instr_keeps
    | with_reducible apply State.zFromBit_keeps
    | with_reducible refine State.bitWrite_keeps ?_ _ _ _ (by assumption)
    | with_reducible apply Fate.Keeps.next
    | with_reducible apply Fate.Keeps.fault
    | split
    | intro _ _

theorem execSetb_keeps {s0 s : State} (h : s0.Keeps s) (core b) :
    ∃ s', execSetb core b s = .next s' ∧ s0.Keeps s' := by
  refine ⟨_, rfl, ?_⟩
  repeat' first
    | with_reducible assumption
    | with_reducible apply State.bitChange_keeps

theorem execClrb_keeps {s0 s : State} (h : s0.Keeps s) (core b) :
    ∃ s', execClrb core b s = .next s' ∧ s0.Keeps s' := by
  refine ⟨_, rfl, ?_⟩
  repeat' first
    | with_reducible assumption
    | with_reducible apply State.bitChange_keeps

theorem execCplb_keeps {s0 s : State} (h : s0.Keeps s) (core b) :
    ∃ s', execCplb core b s = .next s' ∧ s0.Keeps s' := by
  refine ⟨_, rfl, ?_⟩
  repeat' first
    | with_reducible assumption
    | ((fail_if_no_progress (extract_lets +onlyGivenNames x)); clear_value x)
    | with_reducible apply State.instr_keeps
    | with_reducible apply State.zFromBit_keeps
    | with_reducible refine State.bitWrite_keeps ?_ _ _ _ (by assumption)
    | with_reducible apply Fate.Keeps.next
    | with_reducible apply Fate.Keeps.fault
    | split
    | intro _ _

theorem execTstb_keeps {s0 s : State} (h : s0.Keeps s) (core b) :
    ∃ s', execTstb core b s = .next s' ∧ s0.Keeps s' := by
  refine ⟨_, rfl, ?_⟩
  repeat' first
    | with_reducible assumption
    | ((fail_if_no_progress (extract_lets +onlyGivenNames x)); clear_value x)
    | with_reducible apply State.instr_keeps
    | with_reducible apply State.zFromBit_keeps
    | with_reducible apply Fate.Keeps.next
    | with_reducible apply Fate.Keeps.fault
    | split
    | intro _ _

theorem execGetb_keeps {s0 s : State} (h : s0.Keeps s) (core rd b) :
    ∃ s', execGetb core rd b s = .next s' ∧ s0.Keeps s' := by
  refine ⟨_, rfl, ?_⟩
  repeat' first
    | with_reducible assumption
    | ((fail_if_no_progress (extract_lets +onlyGivenNames x)); clear_value x)
    | with_reducible apply State.instr_keeps
    | with_reducible apply State.mapCore_keeps
    | with_reducible apply State.zFromBit_keeps
    | with_reducible apply Fate.Keeps.next
    | with_reducible apply Fate.Keeps.fault
    | split
    | intro _ _

theorem execPutb_keeps {s0 s : State} (h : s0.Keeps s) (core src b) :
    ∃ s', execPutb core src b s = .next s' ∧ s0.Keeps s' := by
  refine ⟨_, rfl, ?_⟩
  repeat' first
    | with_reducible assumption
    | ((fail_if_no_progress (extract_lets +onlyGivenNames x)); clear_value x)
    | with_reducible apply State.instr_keeps
    | with_reducible refine State.bitWrite_keeps ?_ _ _ _ (by assumption)
    | with_reducible apply Fate.Keeps.next
    | with_reducible apply Fate.Keeps.fault
    | split
    | intro _ _

theorem execMovb_keeps {s0 s : State} (h : s0.Keeps s) (core ra rb) :
    ∃ s', execMovb core ra rb s = .next s' ∧ s0.Keeps s' := by
  refine ⟨_, rfl, ?_⟩
  repeat' first
    | with_reducible assumption
    | ((fail_if_no_progress (extract_lets +onlyGivenNames x)); clear_value x)
    | with_reducible apply State.instr_keeps
    | with_reducible apply State.zFromBit_keeps
    | with_reducible refine State.bitWrite_keeps ?_ _ _ _ (by assumption)
    | with_reducible apply Fate.Keeps.next
    | with_reducible apply Fate.Keeps.fault
    | split
    | intro _ _

theorem execBopb_keeps {s0 s : State} (h : s0.Keeps s) (core ra rb rc tt) :
    ∃ s', execBopb core ra rb rc tt s = .next s' ∧ s0.Keeps s' := by
  refine ⟨_, rfl, ?_⟩
  repeat' first
    | with_reducible assumption
    | ((fail_if_no_progress (extract_lets +onlyGivenNames x)); clear_value x)
    | with_reducible apply State.instr_keeps
    | with_reducible apply State.zFromBit_keeps
    | with_reducible refine State.bitWrite_keeps ?_ _ _ _ (by assumption)
    | with_reducible apply Fate.Keeps.next
    | with_reducible apply Fate.Keeps.fault
    | split
    | intro _ _

theorem execWaitb_keeps {s0 s : State} (h : s0.Keeps s) (core b value) :
    ∃ s', execWaitb core b value s = .next s' ∧ s0.Keeps s' := by
  refine ⟨_, rfl, ?_⟩
  repeat' first
    | with_reducible assumption
    | ((fail_if_no_progress (extract_lets +onlyGivenNames x)); clear_value x)
    | with_reducible apply State.instr_keeps
    | with_reducible apply State.mapCore_keeps
    | with_reducible apply State.zFromBit_keeps
    | with_reducible apply Fate.Keeps.next
    | with_reducible apply Fate.Keeps.fault
    | with_reducible apply Fate.Keeps.stay
    | split
    | intro _ _

theorem execWaitbWake_keeps {s0 s : State} (h : s0.Keeps s) (core) :
    ∃ s', execWaitbWake core s = .next s' ∧ s0.Keeps s' := by
  refine ⟨_, rfl, ?_⟩
  repeat' first
    | with_reducible assumption
    | ((fail_if_no_progress (extract_lets +onlyGivenNames x)); clear_value x)
    | with_reducible apply State.conclude_keeps
    | with_reducible apply State.zFromBit_keeps
    | with_reducible apply State.mapCore_keeps
    | with_reducible apply State.takeInterrupt_keeps
    | with_reducible apply Fate.Keeps.next
    | split

theorem execBb_keeps {s0 s : State} (h : s0.Keeps s) (core form sense) :
    ∃ s', execBb core form sense s = .next s' ∧ s0.Keeps s' := by
  refine ⟨_, rfl, ?_⟩
  repeat' first
    | with_reducible assumption
    | ((fail_if_no_progress (extract_lets +onlyGivenNames x)); first
        | (refine (fun (hk : s0.Keeps x) => ?_) ?_; clear_value x; rotate_left; dsimp -zeta only [x])
        | clear_value x)
    | with_reducible apply State.instr_keeps
    | with_reducible apply State.zFromBit_keeps
    | with_reducible apply Fate.Keeps.next
    | with_reducible apply Fate.Keeps.jump
    | with_reducible apply Fate.Keeps.fault
    | split
    | intro _ _

theorem State.readImage_keeps {s0 s : State} (h : s0.Keeps s) (c a lines) :
    s0.Keeps (s.readImage c a lines).2 := by
  delta State.readImage
  repeat' first
    | with_reducible assumption
    | ((fail_if_no_progress (extract_lets +onlyGivenNames x)); first
        | (refine (fun (hk : s0.Keeps x.2) => ?_) ?_; clear_value x; rotate_left; dsimp -zeta only [x])
        | clear_value x)
    | with_reducible refine State.spaceRefusal_keeps ?_ _ _ _ _ (by assumption)
    | with_reducible apply State.coreLoad_keeps
    | (with_reducible refine State.Keeps.of_eq ?_ (by assumption))
    | split
    | (with_reducible refine State.Keeps.foldl_pair ?_ ?_)
    | intro _ _ _

theorem State.ticketResult_keeps {s0 s : State} (h : s0.Keeps s) (c rd t) :
    Fate.Keeps s0 (s.ticketResult c rd t) := by
  delta State.ticketResult
  repeat' first
    | with_reducible assumption
    | with_reducible apply State.mapCore_keeps
    | with_reducible apply Fate.Keeps.next

theorem execPrim_keeps {s0 s : State} (h : s0.Keeps s) (core rd ra) :
    ∃ s', execPrim core rd ra s = .next s' ∧ s0.Keeps s' := by
  refine ⟨_, rfl, ?_⟩
  repeat' first
    | with_reducible assumption
    | ((fail_if_no_progress (extract_lets +onlyGivenNames x)); first
        | (refine (fun (hk : s0.Keeps x.2) => ?_) ?_; clear_value x; rotate_left; dsimp -zeta only [x])
        | clear_value x)
    | with_reducible apply State.instr_keeps
    | with_reducible apply State.readImage_keeps
    | with_reducible apply State.primPush_keeps
    | with_reducible apply State.ticketResult_keeps
    | with_reducible apply Fate.Keeps.fault
    | (with_reducible refine State.Keeps.of_eq ?_ (by assumption))
    | split
    | intro _ _

theorem execMove_keeps {s0 s : State} (h : s0.Keeps s) (core rd ra rb) :
    ∃ s', execMove core rd ra rb s = .next s' ∧ s0.Keeps s' := by
  refine ⟨_, rfl, ?_⟩
  repeat' first
    | with_reducible assumption
    | ((fail_if_no_progress (extract_lets +onlyGivenNames x)); first
        | (refine (fun (hk : s0.Keeps x.2) => ?_) ?_; clear_value x; rotate_left; dsimp -zeta only [x])
        | clear_value x)
    | with_reducible apply State.instr_keeps
    | with_reducible apply State.readImage_keeps
    | with_reducible apply State.movPush_keeps
    | with_reducible apply State.ticketResult_keeps
    | with_reducible apply Fate.Keeps.fault
    | (with_reducible refine State.Keeps.of_eq ?_ (by assumption))
    | split
    | intro _ _

theorem State.setPhase_keeps {s0 s : State} (h : s0.Keeps s) (c v) :
    Fate.Keeps s0 (s.setPhase c v) := by
  delta State.setPhase
  repeat' first
    | with_reducible assumption
    | ((fail_if_no_progress (extract_lets +onlyGivenNames x)); clear_value x)
    | with_reducible apply State.setCore_keeps
    | with_reducible apply Fate.Keeps.next
    | with_reducible apply Fate.Keeps.fault
    | split

theorem execPhaser_keeps {s0 s : State} (h : s0.Keeps s) (core ra) :
    ∃ s', execPhaser core ra s = .next s' ∧ s0.Keeps s' := by
  refine ⟨_, rfl, ?_⟩
  repeat' first
    | with_reducible assumption
    | with_reducible apply State.instr_keeps
    | with_reducible apply State.setPhase_keeps
    | intro _ _

theorem execPhase_keeps {s0 s : State} (h : s0.Keeps s) (core imm) :
    ∃ s', execPhase core imm s = .next s' ∧ s0.Keeps s' := by
  refine ⟨_, rfl, ?_⟩
  repeat' first
    | with_reducible assumption
    | with_reducible apply State.instr_keeps
    | with_reducible apply State.setPhase_keeps
    | intro _ _

theorem execTime_keeps {s0 s : State} (h : s0.Keeps s) (core rd) :
    ∃ s', execTime core rd s = .next s' ∧ s0.Keeps s' := by
  refine ⟨_, rfl, ?_⟩
  repeat' first
    | with_reducible assumption
    | with_reducible apply State.instr_keeps
    | with_reducible apply State.mapCore_keeps
    | with_reducible apply Fate.Keeps.next
    | intro _ _

theorem execUndefinedEncoding_keeps {s0 s : State} (h : s0.Keeps s) (core word) :
    ∃ s', execUndefinedEncoding core word s = .next s' ∧ s0.Keeps s' := by
  refine ⟨_, rfl, ?_⟩
  repeat' first
    | with_reducible assumption
    | with_reducible apply State.instr_keeps
    | with_reducible apply Fate.Keeps.fault
    | split
    | intro _ _

theorem State.fetchWord_keeps {s0 s : State} (h : s0.Keeps s) (c a) :
    s0.Keeps (s.fetchWord c a).2 := by
  delta State.fetchWord
  repeat' first
    | with_reducible assumption
    | ((fail_if_no_progress (extract_lets +onlyGivenNames x)); clear_value x)
    | with_reducible refine State.spaceRefusal_keeps ?_ _ _ _ _ (by assumption)
    | with_reducible apply State.free_keeps
    | with_reducible apply State.coreLoad_keeps
    | (with_reducible refine State.Keeps.of_eq ?_ (by assumption))
    | split

theorem execInstructionFetchFault_keeps {s0 s : State} (h : s0.Keeps s) (core) :
    ∃ s', execInstructionFetchFault core s = .next s' ∧ s0.Keeps s' := by
  refine ⟨_, rfl, ?_⟩
  repeat' first
    | with_reducible assumption
    | ((fail_if_no_progress (extract_lets +onlyGivenNames x)); clear_value x)
    | with_reducible apply State.bufErr_keeps
    | with_reducible apply State.takeInterrupt_keeps
    | with_reducible apply State.haltCore_keeps
    | with_reducible apply State.fetchWord_keeps
    | with_reducible apply State.conclude_keeps
    | with_reducible apply Fate.Keeps.fault
    | (with_reducible refine State.Keeps.of_eq ?_ (by assumption))
    | split

end Sys2Proof.Machine
end

