-- ==== Sys2Proof/Laws/KeepsXqVector.lean ====
section
/-! SUPPORT. The operations of Machine/XqVector.lean keep a state well. -/

namespace Sys2Proof.Machine

open Sys2Proof

theorem State.vecInstr_keeps {s0 s : State} (h : s0.Keeps s) (c word regs body) (hbody : ∀ t, s0.Keeps t → Fate.Keeps s0 (body t)) :
    s0.Keeps (s.vecInstr c word regs body) := by
  delta State.vecInstr
  repeat' first
    | with_reducible assumption
    | with_reducible apply State.instr_keeps
    | with_reducible apply Fate.Keeps.fault
    | split
    | intro _ _

theorem State.vec2_keeps {s0 s : State} (h : s0.Keeps s) (c fn vd va vb f) :
    s0.Keeps (s.vec2 c fn vd va vb f) := by
  delta State.vec2
  repeat' first
    | with_reducible assumption
    | with_reducible apply State.vecInstr_keeps
    | with_reducible apply State.mapCore_keeps
    | with_reducible apply Fate.Keeps.next
    | intro _ _

theorem execVxor_keeps {s0 s : State} (h : s0.Keeps s) (core vd va vb) :
    ∃ s', execVxor core vd va vb s = .next s' ∧ s0.Keeps s' := by
  refine ⟨_, rfl, ?_⟩
  repeat' first
    | with_reducible assumption
    | with_reducible apply State.vec2_keeps

theorem execVshuf_keeps {s0 s : State} (h : s0.Keeps s) (core vd va vb) :
    ∃ s', execVshuf core vd va vb s = .next s' ∧ s0.Keeps s' := by
  refine ⟨_, rfl, ?_⟩
  repeat' first
    | with_reducible assumption
    | with_reducible apply State.vec2_keeps

theorem execVinc32_keeps {s0 s : State} (h : s0.Keeps s) (core vd va) :
    ∃ s', execVinc32 core vd va s = .next s' ∧ s0.Keeps s' := by
  refine ⟨_, rfl, ?_⟩
  repeat' first
    | with_reducible assumption
    | with_reducible apply State.vec2_keeps

theorem execVinc64_keeps {s0 s : State} (h : s0.Keeps s) (core vd va) :
    ∃ s', execVinc64 core vd va s = .next s' ∧ s0.Keeps s' := by
  refine ⟨_, rfl, ?_⟩
  repeat' first
    | with_reducible assumption
    | with_reducible apply State.vec2_keeps

theorem execVinc128_keeps {s0 s : State} (h : s0.Keeps s) (core vd va) :
    ∃ s', execVinc128 core vd va s = .next s' ∧ s0.Keeps s' := by
  refine ⟨_, rfl, ?_⟩
  repeat' first
    | with_reducible assumption
    | with_reducible apply State.vec2_keeps

theorem execVinc128l_keeps {s0 s : State} (h : s0.Keeps s) (core vd va) :
    ∃ s', execVinc128l core vd va s = .next s' ∧ s0.Keeps s' := by
  refine ⟨_, rfl, ?_⟩
  repeat' first
    | with_reducible assumption
    | with_reducible apply State.vec2_keeps

theorem execVmovg_keeps {s0 s : State} (h : s0.Keeps s) (core vd ra h_) :
    ∃ s', execVmovg core vd ra h_ s = .next s' ∧ s0.Keeps s' := by
  refine ⟨_, rfl, ?_⟩
  repeat' first
    | with_reducible assumption
    | with_reducible apply State.vecInstr_keeps
    | with_reducible apply State.mapCore_keeps
    | with_reducible apply Fate.Keeps.next
    | split
    | intro _ _

theorem execVgetg_keeps {s0 s : State} (h : s0.Keeps s) (core rd va h_) :
    ∃ s', execVgetg core rd va h_ s = .next s' ∧ s0.Keeps s' := by
  refine ⟨_, rfl, ?_⟩
  repeat' first
    | with_reducible assumption
    | with_reducible apply State.vecInstr_keeps
    | with_reducible apply State.mapCore_keeps
    | with_reducible apply Fate.Keeps.next
    | split
    | intro _ _

theorem execFgmul_keeps {s0 s : State} (h : s0.Keeps s) (core vd va vb) :
    ∃ s', execFgmul core vd va vb s = .next s' ∧ s0.Keeps s' := by
  refine ⟨_, rfl, ?_⟩
  repeat' first
    | with_reducible assumption
    | with_reducible apply State.vec2_keeps

theorem execFgmulX_keeps {s0 s : State} (h : s0.Keeps s) (core vd va vb) :
    ∃ s', execFgmulX core vd va vb s = .next s' ∧ s0.Keeps s' := by
  refine ⟨_, rfl, ?_⟩
  repeat' first
    | with_reducible assumption
    | with_reducible apply State.vec2_keeps

theorem State.blockInstr_keeps {s0 s : State} (h : s0.Keeps s) (c inv vd va agree) :
    s0.Keeps (s.blockInstr c inv vd va agree) := by
  delta State.blockInstr
  repeat' first
    | with_reducible assumption
    | ((fail_if_no_progress (extract_lets +onlyGivenNames x)); refine (fun (hk : s0.Keeps x.2) => ?_) ?_; clear_value x; rotate_left; dsimp -zeta only [x])
    | with_reducible apply State.vecInstr_keeps
    | with_reducible apply State.seqStop_keeps
    | with_reducible apply State.fblk_keeps
    | with_reducible apply State.count_keeps
    | with_reducible apply State.mapCore_keeps
    | with_reducible apply Fate.Keeps.next
    | with_reducible apply Fate.Keeps.stay
    | split
    | intro _ _

theorem execFblk_keeps {s0 s : State} (h : s0.Keeps s) (core vd va agree) :
    ∃ s', execFblk core vd va agree s = .next s' ∧ s0.Keeps s' := by
  refine ⟨_, rfl, ?_⟩
  repeat' first
    | with_reducible assumption
    | with_reducible apply State.blockInstr_keeps

theorem execFblkInv_keeps {s0 s : State} (h : s0.Keeps s) (core vd va agree) :
    ∃ s', execFblkInv core vd va agree s = .next s' ∧ s0.Keeps s' := by
  refine ⟨_, rfl, ?_⟩
  repeat' first
    | with_reducible assumption
    | with_reducible apply State.blockInstr_keeps

theorem execVld_keeps {s0 s : State} (h : s0.Keeps s) (core vd ra imm) :
    ∃ s', execVld core vd ra imm s = .next s' ∧ s0.Keeps s' := by
  refine ⟨_, rfl, ?_⟩
  repeat' first
    | with_reducible assumption
    | with_reducible apply State.vecInstr_keeps
    | with_reducible apply State.coreLoad_keeps
    | with_reducible apply State.mapCore_keeps
    | with_reducible apply Fate.Keeps.next
    | with_reducible apply Fate.Keeps.fault
    | (with_reducible refine State.Keeps.of_eq ?_ (by assumption))
    | split
    | intro _ _

theorem execVst_keeps {s0 s : State} (h : s0.Keeps s) (core vd ra imm) :
    ∃ s', execVst core vd ra imm s = .next s' ∧ s0.Keeps s' := by
  refine ⟨_, rfl, ?_⟩
  repeat' first
    | with_reducible assumption
    | ((fail_if_no_progress (extract_lets +onlyGivenNames x)); clear_value x)
    | with_reducible apply State.vecInstr_keeps
    | with_reducible apply State.coreStore_keeps
    | with_reducible apply Fate.Keeps.next
    | with_reducible apply Fate.Keeps.fault
    | (with_reducible refine State.Keeps.of_eq ?_ (by assumption))
    | split
    | intro _ _

end Sys2Proof.Machine
end

