-- ==== Sys2Proof/Laws/State.lean ====
section
/-! SUPPORT. What each named update of the state leaves and sets, field by field, so that no proof unfolds a record update; and what
a register, a field or a core reads as after a write. -/

namespace Sys2Proof.Machine

open Sys2Proof

/-! ## Registers -/

@[simp] theorem State.setReg_pending (s : State) (r c v i) : (s.setReg r c v i).pending = s.pending := by unfold State.setReg; split <;> rfl
@[simp] theorem State.setReg_freeCount (s : State) (r c v i) : (s.setReg r c v i).freeCount = s.freeCount := by unfold State.setReg; split <;> rfl
@[simp] theorem State.setReg_now (s : State) (r c v i) : (s.setReg r c v i).now = s.now := by unfold State.setReg; split <;> rfl
@[simp] theorem State.setReg_timeFrac (s : State) (r c v i) : (s.setReg r c v i).timeFrac = s.timeFrac := by unfold State.setReg; split <;> rfl
@[simp] theorem State.setReg_mem (s : State) (r c v i) : (s.setReg r c v i).mem = s.mem := by unfold State.setReg; split <;> rfl
@[simp] theorem State.setReg_lineErr (s : State) (r c v i) : (s.setReg r c v i).lineErr = s.lineErr := by unfold State.setReg; split <;> rfl
@[simp] theorem State.setReg_valid (s : State) (r c v i) : (s.setReg r c v i).valid = s.valid := by unfold State.setReg; split <;> rfl
@[simp] theorem State.setReg_bits (s : State) (r c v i) : (s.setReg r c v i).bits = s.bits := by unfold State.setReg; split <;> rfl
@[simp] theorem State.setReg_cores (s : State) (r c v i) : (s.setReg r c v i).cores = s.cores := by unfold State.setReg; split <;> rfl
@[simp] theorem State.setReg_clusters (s : State) (r c v i) : (s.setReg r c v i).clusters = s.clusters := by unfold State.setReg; split <;> rfl
@[simp] theorem State.setReg_prim (s : State) (r c v i) : (s.setReg r c v i).prim = s.prim := by unfold State.setReg; split <;> rfl
@[simp] theorem State.setReg_movers (s : State) (r c v i) : (s.setReg r c v i).movers = s.movers := by unfold State.setReg; split <;> rfl
@[simp] theorem State.setReg_col (s : State) (r c v i) : (s.setReg r c v i).col = s.col := by unfold State.setReg; split <;> rfl
@[simp] theorem State.setReg_pci (s : State) (r c v i) : (s.setReg r c v i).pci = s.pci := by unfold State.setReg; split <;> rfl
@[simp] theorem State.setReg_eth (s : State) (r c v i) : (s.setReg r c v i).eth = s.eth := by unfold State.setReg; split <;> rfl
@[simp] theorem State.setReg_sht (s : State) (r c v i) : (s.setReg r c v i).sht = s.sht := by unfold State.setReg; split <;> rfl
@[simp] theorem State.setReg_spg (s : State) (r c v i) : (s.setReg r c v i).spg = s.spg := by unfold State.setReg; split <;> rfl
@[simp] theorem State.setReg_trn (s : State) (r c v i) : (s.setReg r c v i).trn = s.trn := by unfold State.setReg; split <;> rfl
@[simp] theorem State.setReg_cat (s : State) (r c v i) : (s.setReg r c v i).cat = s.cat := by unfold State.setReg; split <;> rfl
@[simp] theorem State.setReg_eph (s : State) (r c v i) : (s.setReg r c v i).eph = s.eph := by unfold State.setReg; split <;> rfl
@[simp] theorem State.setReg_hel (s : State) (r c v i) : (s.setReg r c v i).hel = s.hel := by unfold State.setReg; split <;> rfl
@[simp] theorem State.setReg_chr (s : State) (r c v i) : (s.setReg r c v i).chr = s.chr := by unfold State.setReg; split <;> rfl
@[simp] theorem State.setReg_power (s : State) (r c v i) : (s.setReg r c v i).power = s.power := by unfold State.setReg; split <;> rfl
@[simp] theorem State.setReg_dom (s : State) (r c v i) : (s.setReg r c v i).dom = s.dom := by unfold State.setReg; split <;> rfl
@[simp] theorem State.setReg_exp (s : State) (r c v i) : (s.setReg r c v i).exp = s.exp := by unfold State.setReg; split <;> rfl
@[simp] theorem State.setReg_flt (s : State) (r c v i) : (s.setReg r c v i).flt = s.flt := by unfold State.setReg; split <;> rfl
@[simp] theorem State.setReg_keys (s : State) (r c v i) : (s.setReg r c v i).keys = s.keys := by unfold State.setReg; split <;> rfl
@[simp] theorem State.setReg_rot (s : State) (r c v i) : (s.setReg r c v i).rot = s.rot := by unfold State.setReg; split <;> rfl
@[simp] theorem State.setReg_busyNs (s : State) (r c v i) : (s.setReg r c v i).busyNs = s.busyNs := by unfold State.setReg; split <;> rfl
@[simp] theorem State.setReg_epoch (s : State) (r c v i) : (s.setReg r c v i).epoch = s.epoch := by unfold State.setReg; split <;> rfl
@[simp] theorem State.setReg_reply (s : State) (r c v i) : (s.setReg r c v i).reply = s.reply := by unfold State.setReg; split <;> rfl
@[simp] theorem State.setReg_replyPoison (s : State) (r c v i) : (s.setReg r c v i).replyPoison = s.replyPoison := by unfold State.setReg; split <;> rfl

@[simp] theorem State.setFld_pending (s : State) (f c v i) : (s.setFld f c v i).pending = s.pending := State.setReg_pending ..
@[simp] theorem State.setFld_freeCount (s : State) (f c v i) : (s.setFld f c v i).freeCount = s.freeCount := State.setReg_freeCount ..
@[simp] theorem State.setFld_now (s : State) (f c v i) : (s.setFld f c v i).now = s.now := State.setReg_now ..
@[simp] theorem State.setFld_timeFrac (s : State) (f c v i) : (s.setFld f c v i).timeFrac = s.timeFrac := State.setReg_timeFrac ..
@[simp] theorem State.setFld_mem (s : State) (f c v i) : (s.setFld f c v i).mem = s.mem := State.setReg_mem ..
@[simp] theorem State.setFld_lineErr (s : State) (f c v i) : (s.setFld f c v i).lineErr = s.lineErr := State.setReg_lineErr ..
@[simp] theorem State.setFld_valid (s : State) (f c v i) : (s.setFld f c v i).valid = s.valid := State.setReg_valid ..
@[simp] theorem State.setFld_bits (s : State) (f c v i) : (s.setFld f c v i).bits = s.bits := State.setReg_bits ..
@[simp] theorem State.setFld_cores (s : State) (f c v i) : (s.setFld f c v i).cores = s.cores := State.setReg_cores ..
@[simp] theorem State.setFld_clusters (s : State) (f c v i) : (s.setFld f c v i).clusters = s.clusters := State.setReg_clusters ..
@[simp] theorem State.setFld_prim (s : State) (f c v i) : (s.setFld f c v i).prim = s.prim := State.setReg_prim ..
@[simp] theorem State.setFld_movers (s : State) (f c v i) : (s.setFld f c v i).movers = s.movers := State.setReg_movers ..
@[simp] theorem State.setFld_col (s : State) (f c v i) : (s.setFld f c v i).col = s.col := State.setReg_col ..
@[simp] theorem State.setFld_pci (s : State) (f c v i) : (s.setFld f c v i).pci = s.pci := State.setReg_pci ..
@[simp] theorem State.setFld_eth (s : State) (f c v i) : (s.setFld f c v i).eth = s.eth := State.setReg_eth ..
@[simp] theorem State.setFld_sht (s : State) (f c v i) : (s.setFld f c v i).sht = s.sht := State.setReg_sht ..
@[simp] theorem State.setFld_spg (s : State) (f c v i) : (s.setFld f c v i).spg = s.spg := State.setReg_spg ..
@[simp] theorem State.setFld_trn (s : State) (f c v i) : (s.setFld f c v i).trn = s.trn := State.setReg_trn ..
@[simp] theorem State.setFld_cat (s : State) (f c v i) : (s.setFld f c v i).cat = s.cat := State.setReg_cat ..
@[simp] theorem State.setFld_eph (s : State) (f c v i) : (s.setFld f c v i).eph = s.eph := State.setReg_eph ..
@[simp] theorem State.setFld_hel (s : State) (f c v i) : (s.setFld f c v i).hel = s.hel := State.setReg_hel ..
@[simp] theorem State.setFld_chr (s : State) (f c v i) : (s.setFld f c v i).chr = s.chr := State.setReg_chr ..
@[simp] theorem State.setFld_power (s : State) (f c v i) : (s.setFld f c v i).power = s.power := State.setReg_power ..
@[simp] theorem State.setFld_dom (s : State) (f c v i) : (s.setFld f c v i).dom = s.dom := State.setReg_dom ..
@[simp] theorem State.setFld_exp (s : State) (f c v i) : (s.setFld f c v i).exp = s.exp := State.setReg_exp ..
@[simp] theorem State.setFld_flt (s : State) (f c v i) : (s.setFld f c v i).flt = s.flt := State.setReg_flt ..
@[simp] theorem State.setFld_keys (s : State) (f c v i) : (s.setFld f c v i).keys = s.keys := State.setReg_keys ..
@[simp] theorem State.setFld_rot (s : State) (f c v i) : (s.setFld f c v i).rot = s.rot := State.setReg_rot ..
@[simp] theorem State.setFld_busyNs (s : State) (f c v i) : (s.setFld f c v i).busyNs = s.busyNs := State.setReg_busyNs ..
@[simp] theorem State.setFld_epoch (s : State) (f c v i) : (s.setFld f c v i).epoch = s.epoch := State.setReg_epoch ..
@[simp] theorem State.setFld_reply (s : State) (f c v i) : (s.setFld f c v i).reply = s.reply := State.setReg_reply ..
@[simp] theorem State.setFld_replyPoison (s : State) (f c v i) : (s.setFld f c v i).replyPoison = s.replyPoison := State.setReg_replyPoison ..

@[simp] theorem State.setFlag_pending (s : State) (f c b i) : (s.setFlag f c b i).pending = s.pending := State.setFld_pending ..
@[simp] theorem State.setFlag_freeCount (s : State) (f c b i) : (s.setFlag f c b i).freeCount = s.freeCount := State.setFld_freeCount ..
@[simp] theorem State.setFlag_now (s : State) (f c b i) : (s.setFlag f c b i).now = s.now := State.setFld_now ..
@[simp] theorem State.setFlag_timeFrac (s : State) (f c b i) : (s.setFlag f c b i).timeFrac = s.timeFrac := State.setFld_timeFrac ..
@[simp] theorem State.setFlag_mem (s : State) (f c b i) : (s.setFlag f c b i).mem = s.mem := State.setFld_mem ..
@[simp] theorem State.setFlag_lineErr (s : State) (f c b i) : (s.setFlag f c b i).lineErr = s.lineErr := State.setFld_lineErr ..
@[simp] theorem State.setFlag_valid (s : State) (f c b i) : (s.setFlag f c b i).valid = s.valid := State.setFld_valid ..
@[simp] theorem State.setFlag_bits (s : State) (f c b i) : (s.setFlag f c b i).bits = s.bits := State.setFld_bits ..
@[simp] theorem State.setFlag_cores (s : State) (f c b i) : (s.setFlag f c b i).cores = s.cores := State.setFld_cores ..
@[simp] theorem State.setFlag_clusters (s : State) (f c b i) : (s.setFlag f c b i).clusters = s.clusters := State.setFld_clusters ..
@[simp] theorem State.setFlag_prim (s : State) (f c b i) : (s.setFlag f c b i).prim = s.prim := State.setFld_prim ..
@[simp] theorem State.setFlag_movers (s : State) (f c b i) : (s.setFlag f c b i).movers = s.movers := State.setFld_movers ..
@[simp] theorem State.setFlag_col (s : State) (f c b i) : (s.setFlag f c b i).col = s.col := State.setFld_col ..
@[simp] theorem State.setFlag_pci (s : State) (f c b i) : (s.setFlag f c b i).pci = s.pci := State.setFld_pci ..
@[simp] theorem State.setFlag_eth (s : State) (f c b i) : (s.setFlag f c b i).eth = s.eth := State.setFld_eth ..
@[simp] theorem State.setFlag_sht (s : State) (f c b i) : (s.setFlag f c b i).sht = s.sht := State.setFld_sht ..
@[simp] theorem State.setFlag_spg (s : State) (f c b i) : (s.setFlag f c b i).spg = s.spg := State.setFld_spg ..
@[simp] theorem State.setFlag_trn (s : State) (f c b i) : (s.setFlag f c b i).trn = s.trn := State.setFld_trn ..
@[simp] theorem State.setFlag_cat (s : State) (f c b i) : (s.setFlag f c b i).cat = s.cat := State.setFld_cat ..
@[simp] theorem State.setFlag_eph (s : State) (f c b i) : (s.setFlag f c b i).eph = s.eph := State.setFld_eph ..
@[simp] theorem State.setFlag_hel (s : State) (f c b i) : (s.setFlag f c b i).hel = s.hel := State.setFld_hel ..
@[simp] theorem State.setFlag_chr (s : State) (f c b i) : (s.setFlag f c b i).chr = s.chr := State.setFld_chr ..
@[simp] theorem State.setFlag_power (s : State) (f c b i) : (s.setFlag f c b i).power = s.power := State.setFld_power ..
@[simp] theorem State.setFlag_dom (s : State) (f c b i) : (s.setFlag f c b i).dom = s.dom := State.setFld_dom ..
@[simp] theorem State.setFlag_exp (s : State) (f c b i) : (s.setFlag f c b i).exp = s.exp := State.setFld_exp ..
@[simp] theorem State.setFlag_flt (s : State) (f c b i) : (s.setFlag f c b i).flt = s.flt := State.setFld_flt ..
@[simp] theorem State.setFlag_keys (s : State) (f c b i) : (s.setFlag f c b i).keys = s.keys := State.setFld_keys ..
@[simp] theorem State.setFlag_rot (s : State) (f c b i) : (s.setFlag f c b i).rot = s.rot := State.setFld_rot ..
@[simp] theorem State.setFlag_busyNs (s : State) (f c b i) : (s.setFlag f c b i).busyNs = s.busyNs := State.setFld_busyNs ..
@[simp] theorem State.setFlag_epoch (s : State) (f c b i) : (s.setFlag f c b i).epoch = s.epoch := State.setFld_epoch ..
@[simp] theorem State.setFlag_reply (s : State) (f c b i) : (s.setFlag f c b i).reply = s.reply := State.setFld_reply ..
@[simp] theorem State.setFlag_replyPoison (s : State) (f c b i) : (s.setFlag f c b i).replyPoison = s.replyPoison := State.setFld_replyPoison ..

/-- A register reads what was written to it. -/
@[simp] theorem State.reg_setReg (s : State) (r c v i) : (s.setReg r c v i).reg r c i = v := by
  unfold State.setReg State.reg
  split <;> simp [smapGet_set]

/-- A write to one register leaves the register at any other address. -/
theorem State.reg_setReg_of_ne (s : State) {r r' : RegId} {c c' i i' : Nat} (v : BitVec 64) (h : regAddr r' c' i' ≠ regAddr r c i) :
    (s.setReg r c v i).reg r' c' i' = s.reg r' c' i' := by
  unfold State.setReg State.reg
  cases hr : r.isPhot <;> cases hr' : r'.isPhot <;> simp [smapGet_set_of_ne h]

/-- A field reads what was written to it, cut to its width. -/
theorem State.fld_setFld (s : State) (f : Fld) (c v i : Nat) (h : f.hi < 64) (hl : f.lo ≤ f.hi) :
    (s.setFld f c v i).fld f c i = v % 2 ^ (f.hi - f.lo + 1) := by
  unfold State.fld State.setFld
  rw [State.reg_setReg]
  exact bitsOf_ofNat_putBits (s.reg f.reg c i).isLt h hl

/-! ## Free values -/

@[simp] theorem State.free_pending (s : State) (w : Nat) : ((s.free w).2).pending = s.pending := rfl
@[simp] theorem State.free_now (s : State) (w : Nat) : ((s.free w).2).now = s.now := rfl
@[simp] theorem State.free_timeFrac (s : State) (w : Nat) : ((s.free w).2).timeFrac = s.timeFrac := rfl
@[simp] theorem State.free_regs (s : State) (w : Nat) : ((s.free w).2).regs = s.regs := rfl
@[simp] theorem State.free_phot (s : State) (w : Nat) : ((s.free w).2).phot = s.phot := rfl
@[simp] theorem State.free_mem (s : State) (w : Nat) : ((s.free w).2).mem = s.mem := rfl
@[simp] theorem State.free_lineErr (s : State) (w : Nat) : ((s.free w).2).lineErr = s.lineErr := rfl
@[simp] theorem State.free_valid (s : State) (w : Nat) : ((s.free w).2).valid = s.valid := rfl
@[simp] theorem State.free_bits (s : State) (w : Nat) : ((s.free w).2).bits = s.bits := rfl
@[simp] theorem State.free_cores (s : State) (w : Nat) : ((s.free w).2).cores = s.cores := rfl
@[simp] theorem State.free_clusters (s : State) (w : Nat) : ((s.free w).2).clusters = s.clusters := rfl
@[simp] theorem State.free_prim (s : State) (w : Nat) : ((s.free w).2).prim = s.prim := rfl
@[simp] theorem State.free_movers (s : State) (w : Nat) : ((s.free w).2).movers = s.movers := rfl
@[simp] theorem State.free_col (s : State) (w : Nat) : ((s.free w).2).col = s.col := rfl
@[simp] theorem State.free_pci (s : State) (w : Nat) : ((s.free w).2).pci = s.pci := rfl
@[simp] theorem State.free_eth (s : State) (w : Nat) : ((s.free w).2).eth = s.eth := rfl
@[simp] theorem State.free_sht (s : State) (w : Nat) : ((s.free w).2).sht = s.sht := rfl
@[simp] theorem State.free_spg (s : State) (w : Nat) : ((s.free w).2).spg = s.spg := rfl
@[simp] theorem State.free_trn (s : State) (w : Nat) : ((s.free w).2).trn = s.trn := rfl
@[simp] theorem State.free_cat (s : State) (w : Nat) : ((s.free w).2).cat = s.cat := rfl
@[simp] theorem State.free_eph (s : State) (w : Nat) : ((s.free w).2).eph = s.eph := rfl
@[simp] theorem State.free_hel (s : State) (w : Nat) : ((s.free w).2).hel = s.hel := rfl
@[simp] theorem State.free_chr (s : State) (w : Nat) : ((s.free w).2).chr = s.chr := rfl
@[simp] theorem State.free_power (s : State) (w : Nat) : ((s.free w).2).power = s.power := rfl
@[simp] theorem State.free_dom (s : State) (w : Nat) : ((s.free w).2).dom = s.dom := rfl
@[simp] theorem State.free_exp (s : State) (w : Nat) : ((s.free w).2).exp = s.exp := rfl
@[simp] theorem State.free_flt (s : State) (w : Nat) : ((s.free w).2).flt = s.flt := rfl
@[simp] theorem State.free_keys (s : State) (w : Nat) : ((s.free w).2).keys = s.keys := rfl
@[simp] theorem State.free_rot (s : State) (w : Nat) : ((s.free w).2).rot = s.rot := rfl
@[simp] theorem State.free_busyNs (s : State) (w : Nat) : ((s.free w).2).busyNs = s.busyNs := rfl
@[simp] theorem State.free_epoch (s : State) (w : Nat) : ((s.free w).2).epoch = s.epoch := rfl
@[simp] theorem State.free_reply (s : State) (w : Nat) : ((s.free w).2).reply = s.reply := rfl
@[simp] theorem State.free_replyPoison (s : State) (w : Nat) : ((s.free w).2).replyPoison = s.replyPoison := rfl
@[simp] theorem State.free_freeCount (s : State) (w : Nat) : ((s.free w).2).freeCount = s.freeCount + 1 := rfl

/-! ## Bits -/

@[simp] theorem State.noteBit_pending (s : State) (k v) : (s.noteBit k v).pending = s.pending := rfl
@[simp] theorem State.noteBit_freeCount (s : State) (k v) : (s.noteBit k v).freeCount = s.freeCount := rfl
@[simp] theorem State.noteBit_now (s : State) (k v) : (s.noteBit k v).now = s.now := rfl
@[simp] theorem State.noteBit_timeFrac (s : State) (k v) : (s.noteBit k v).timeFrac = s.timeFrac := rfl
@[simp] theorem State.noteBit_regs (s : State) (k v) : (s.noteBit k v).regs = s.regs := rfl
@[simp] theorem State.noteBit_phot (s : State) (k v) : (s.noteBit k v).phot = s.phot := rfl
@[simp] theorem State.noteBit_mem (s : State) (k v) : (s.noteBit k v).mem = s.mem := rfl
@[simp] theorem State.noteBit_lineErr (s : State) (k v) : (s.noteBit k v).lineErr = s.lineErr := rfl
@[simp] theorem State.noteBit_valid (s : State) (k v) : (s.noteBit k v).valid = s.valid := rfl
@[simp] theorem State.noteBit_bits (s : State) (k v) : (s.noteBit k v).bits = s.bits := rfl
@[simp] theorem State.noteBit_clusters (s : State) (k v) : (s.noteBit k v).clusters = s.clusters := rfl
@[simp] theorem State.noteBit_prim (s : State) (k v) : (s.noteBit k v).prim = s.prim := rfl
@[simp] theorem State.noteBit_movers (s : State) (k v) : (s.noteBit k v).movers = s.movers := rfl
@[simp] theorem State.noteBit_col (s : State) (k v) : (s.noteBit k v).col = s.col := rfl
@[simp] theorem State.noteBit_pci (s : State) (k v) : (s.noteBit k v).pci = s.pci := rfl
@[simp] theorem State.noteBit_eth (s : State) (k v) : (s.noteBit k v).eth = s.eth := rfl
@[simp] theorem State.noteBit_sht (s : State) (k v) : (s.noteBit k v).sht = s.sht := rfl
@[simp] theorem State.noteBit_spg (s : State) (k v) : (s.noteBit k v).spg = s.spg := rfl
@[simp] theorem State.noteBit_trn (s : State) (k v) : (s.noteBit k v).trn = s.trn := rfl
@[simp] theorem State.noteBit_cat (s : State) (k v) : (s.noteBit k v).cat = s.cat := rfl
@[simp] theorem State.noteBit_eph (s : State) (k v) : (s.noteBit k v).eph = s.eph := rfl
@[simp] theorem State.noteBit_hel (s : State) (k v) : (s.noteBit k v).hel = s.hel := rfl
@[simp] theorem State.noteBit_chr (s : State) (k v) : (s.noteBit k v).chr = s.chr := rfl
@[simp] theorem State.noteBit_power (s : State) (k v) : (s.noteBit k v).power = s.power := rfl
@[simp] theorem State.noteBit_dom (s : State) (k v) : (s.noteBit k v).dom = s.dom := rfl
@[simp] theorem State.noteBit_exp (s : State) (k v) : (s.noteBit k v).exp = s.exp := rfl
@[simp] theorem State.noteBit_flt (s : State) (k v) : (s.noteBit k v).flt = s.flt := rfl
@[simp] theorem State.noteBit_keys (s : State) (k v) : (s.noteBit k v).keys = s.keys := rfl
@[simp] theorem State.noteBit_rot (s : State) (k v) : (s.noteBit k v).rot = s.rot := rfl
@[simp] theorem State.noteBit_busyNs (s : State) (k v) : (s.noteBit k v).busyNs = s.busyNs := rfl
@[simp] theorem State.noteBit_epoch (s : State) (k v) : (s.noteBit k v).epoch = s.epoch := rfl
@[simp] theorem State.noteBit_reply (s : State) (k v) : (s.noteBit k v).reply = s.reply := rfl
@[simp] theorem State.noteBit_replyPoison (s : State) (k v) : (s.noteBit k v).replyPoison = s.replyPoison := rfl

@[simp] theorem State.putBit_pending (s : State) (k v) : (s.putBit k v).pending = s.pending := rfl
@[simp] theorem State.putBit_freeCount (s : State) (k v) : (s.putBit k v).freeCount = s.freeCount := rfl
@[simp] theorem State.putBit_now (s : State) (k v) : (s.putBit k v).now = s.now := rfl
@[simp] theorem State.putBit_timeFrac (s : State) (k v) : (s.putBit k v).timeFrac = s.timeFrac := rfl
@[simp] theorem State.putBit_regs (s : State) (k v) : (s.putBit k v).regs = s.regs := rfl
@[simp] theorem State.putBit_phot (s : State) (k v) : (s.putBit k v).phot = s.phot := rfl
@[simp] theorem State.putBit_mem (s : State) (k v) : (s.putBit k v).mem = s.mem := rfl
@[simp] theorem State.putBit_lineErr (s : State) (k v) : (s.putBit k v).lineErr = s.lineErr := rfl
@[simp] theorem State.putBit_valid (s : State) (k v) : (s.putBit k v).valid = s.valid := rfl
@[simp] theorem State.putBit_clusters (s : State) (k v) : (s.putBit k v).clusters = s.clusters := rfl
@[simp] theorem State.putBit_prim (s : State) (k v) : (s.putBit k v).prim = s.prim := rfl
@[simp] theorem State.putBit_movers (s : State) (k v) : (s.putBit k v).movers = s.movers := rfl
@[simp] theorem State.putBit_col (s : State) (k v) : (s.putBit k v).col = s.col := rfl
@[simp] theorem State.putBit_pci (s : State) (k v) : (s.putBit k v).pci = s.pci := rfl
@[simp] theorem State.putBit_eth (s : State) (k v) : (s.putBit k v).eth = s.eth := rfl
@[simp] theorem State.putBit_sht (s : State) (k v) : (s.putBit k v).sht = s.sht := rfl
@[simp] theorem State.putBit_spg (s : State) (k v) : (s.putBit k v).spg = s.spg := rfl
@[simp] theorem State.putBit_trn (s : State) (k v) : (s.putBit k v).trn = s.trn := rfl
@[simp] theorem State.putBit_cat (s : State) (k v) : (s.putBit k v).cat = s.cat := rfl
@[simp] theorem State.putBit_eph (s : State) (k v) : (s.putBit k v).eph = s.eph := rfl
@[simp] theorem State.putBit_hel (s : State) (k v) : (s.putBit k v).hel = s.hel := rfl
@[simp] theorem State.putBit_chr (s : State) (k v) : (s.putBit k v).chr = s.chr := rfl
@[simp] theorem State.putBit_power (s : State) (k v) : (s.putBit k v).power = s.power := rfl
@[simp] theorem State.putBit_dom (s : State) (k v) : (s.putBit k v).dom = s.dom := rfl
@[simp] theorem State.putBit_exp (s : State) (k v) : (s.putBit k v).exp = s.exp := rfl
@[simp] theorem State.putBit_flt (s : State) (k v) : (s.putBit k v).flt = s.flt := rfl
@[simp] theorem State.putBit_keys (s : State) (k v) : (s.putBit k v).keys = s.keys := rfl
@[simp] theorem State.putBit_rot (s : State) (k v) : (s.putBit k v).rot = s.rot := rfl
@[simp] theorem State.putBit_busyNs (s : State) (k v) : (s.putBit k v).busyNs = s.busyNs := rfl
@[simp] theorem State.putBit_epoch (s : State) (k v) : (s.putBit k v).epoch = s.epoch := rfl
@[simp] theorem State.putBit_reply (s : State) (k v) : (s.putBit k v).reply = s.reply := rfl
@[simp] theorem State.putBit_replyPoison (s : State) (k v) : (s.putBit k v).replyPoison = s.replyPoison := rfl
@[simp] theorem State.putBit_bits (s : State) (k v) : (s.putBit k v).bits = smapSet (fun _ => false) s.bits k v := rfl

@[simp] theorem State.noteLevels_pending (s : State) : (s.noteLevels).pending = s.pending := rfl
@[simp] theorem State.noteLevels_freeCount (s : State) : (s.noteLevels).freeCount = s.freeCount := rfl
@[simp] theorem State.noteLevels_now (s : State) : (s.noteLevels).now = s.now := rfl
@[simp] theorem State.noteLevels_timeFrac (s : State) : (s.noteLevels).timeFrac = s.timeFrac := rfl
@[simp] theorem State.noteLevels_regs (s : State) : (s.noteLevels).regs = s.regs := rfl
@[simp] theorem State.noteLevels_phot (s : State) : (s.noteLevels).phot = s.phot := rfl
@[simp] theorem State.noteLevels_mem (s : State) : (s.noteLevels).mem = s.mem := rfl
@[simp] theorem State.noteLevels_lineErr (s : State) : (s.noteLevels).lineErr = s.lineErr := rfl
@[simp] theorem State.noteLevels_valid (s : State) : (s.noteLevels).valid = s.valid := rfl
@[simp] theorem State.noteLevels_bits (s : State) : (s.noteLevels).bits = s.bits := rfl
@[simp] theorem State.noteLevels_clusters (s : State) : (s.noteLevels).clusters = s.clusters := rfl
@[simp] theorem State.noteLevels_prim (s : State) : (s.noteLevels).prim = s.prim := rfl
@[simp] theorem State.noteLevels_movers (s : State) : (s.noteLevels).movers = s.movers := rfl
@[simp] theorem State.noteLevels_col (s : State) : (s.noteLevels).col = s.col := rfl
@[simp] theorem State.noteLevels_pci (s : State) : (s.noteLevels).pci = s.pci := rfl
@[simp] theorem State.noteLevels_eth (s : State) : (s.noteLevels).eth = s.eth := rfl
@[simp] theorem State.noteLevels_sht (s : State) : (s.noteLevels).sht = s.sht := rfl
@[simp] theorem State.noteLevels_spg (s : State) : (s.noteLevels).spg = s.spg := rfl
@[simp] theorem State.noteLevels_trn (s : State) : (s.noteLevels).trn = s.trn := rfl
@[simp] theorem State.noteLevels_cat (s : State) : (s.noteLevels).cat = s.cat := rfl
@[simp] theorem State.noteLevels_eph (s : State) : (s.noteLevels).eph = s.eph := rfl
@[simp] theorem State.noteLevels_hel (s : State) : (s.noteLevels).hel = s.hel := rfl
@[simp] theorem State.noteLevels_chr (s : State) : (s.noteLevels).chr = s.chr := rfl
@[simp] theorem State.noteLevels_power (s : State) : (s.noteLevels).power = s.power := rfl
@[simp] theorem State.noteLevels_dom (s : State) : (s.noteLevels).dom = s.dom := rfl
@[simp] theorem State.noteLevels_exp (s : State) : (s.noteLevels).exp = s.exp := rfl
@[simp] theorem State.noteLevels_flt (s : State) : (s.noteLevels).flt = s.flt := rfl
@[simp] theorem State.noteLevels_keys (s : State) : (s.noteLevels).keys = s.keys := rfl
@[simp] theorem State.noteLevels_rot (s : State) : (s.noteLevels).rot = s.rot := rfl
@[simp] theorem State.noteLevels_busyNs (s : State) : (s.noteLevels).busyNs = s.busyNs := rfl
@[simp] theorem State.noteLevels_epoch (s : State) : (s.noteLevels).epoch = s.epoch := rfl
@[simp] theorem State.noteLevels_reply (s : State) : (s.noteLevels).reply = s.reply := rfl
@[simp] theorem State.noteLevels_replyPoison (s : State) : (s.noteLevels).replyPoison = s.replyPoison := rfl

/-- A bit reads what was written to it, and every other bit as before. -/
theorem State.bitAt_putBit (s : State) (k : Nat) (v : Bool) (j : Nat) :
    (s.putBit k v).bitAt j = if j = k then v else s.bitAt j := smapGet_set

/-! ## Cores -/

@[simp] theorem State.setCore_pending (s : State) (c k) : (s.setCore c k).pending = s.pending := rfl
@[simp] theorem State.setCore_freeCount (s : State) (c k) : (s.setCore c k).freeCount = s.freeCount := rfl
@[simp] theorem State.setCore_now (s : State) (c k) : (s.setCore c k).now = s.now := rfl
@[simp] theorem State.setCore_timeFrac (s : State) (c k) : (s.setCore c k).timeFrac = s.timeFrac := rfl
@[simp] theorem State.setCore_regs (s : State) (c k) : (s.setCore c k).regs = s.regs := rfl
@[simp] theorem State.setCore_phot (s : State) (c k) : (s.setCore c k).phot = s.phot := rfl
@[simp] theorem State.setCore_mem (s : State) (c k) : (s.setCore c k).mem = s.mem := rfl
@[simp] theorem State.setCore_lineErr (s : State) (c k) : (s.setCore c k).lineErr = s.lineErr := rfl
@[simp] theorem State.setCore_valid (s : State) (c k) : (s.setCore c k).valid = s.valid := rfl
@[simp] theorem State.setCore_bits (s : State) (c k) : (s.setCore c k).bits = s.bits := rfl
@[simp] theorem State.setCore_clusters (s : State) (c k) : (s.setCore c k).clusters = s.clusters := rfl
@[simp] theorem State.setCore_prim (s : State) (c k) : (s.setCore c k).prim = s.prim := rfl
@[simp] theorem State.setCore_movers (s : State) (c k) : (s.setCore c k).movers = s.movers := rfl
@[simp] theorem State.setCore_col (s : State) (c k) : (s.setCore c k).col = s.col := rfl
@[simp] theorem State.setCore_pci (s : State) (c k) : (s.setCore c k).pci = s.pci := rfl
@[simp] theorem State.setCore_eth (s : State) (c k) : (s.setCore c k).eth = s.eth := rfl
@[simp] theorem State.setCore_sht (s : State) (c k) : (s.setCore c k).sht = s.sht := rfl
@[simp] theorem State.setCore_spg (s : State) (c k) : (s.setCore c k).spg = s.spg := rfl
@[simp] theorem State.setCore_trn (s : State) (c k) : (s.setCore c k).trn = s.trn := rfl
@[simp] theorem State.setCore_cat (s : State) (c k) : (s.setCore c k).cat = s.cat := rfl
@[simp] theorem State.setCore_eph (s : State) (c k) : (s.setCore c k).eph = s.eph := rfl
@[simp] theorem State.setCore_hel (s : State) (c k) : (s.setCore c k).hel = s.hel := rfl
@[simp] theorem State.setCore_chr (s : State) (c k) : (s.setCore c k).chr = s.chr := rfl
@[simp] theorem State.setCore_power (s : State) (c k) : (s.setCore c k).power = s.power := rfl
@[simp] theorem State.setCore_dom (s : State) (c k) : (s.setCore c k).dom = s.dom := rfl
@[simp] theorem State.setCore_exp (s : State) (c k) : (s.setCore c k).exp = s.exp := rfl
@[simp] theorem State.setCore_flt (s : State) (c k) : (s.setCore c k).flt = s.flt := rfl
@[simp] theorem State.setCore_keys (s : State) (c k) : (s.setCore c k).keys = s.keys := rfl
@[simp] theorem State.setCore_rot (s : State) (c k) : (s.setCore c k).rot = s.rot := rfl
@[simp] theorem State.setCore_busyNs (s : State) (c k) : (s.setCore c k).busyNs = s.busyNs := rfl
@[simp] theorem State.setCore_epoch (s : State) (c k) : (s.setCore c k).epoch = s.epoch := rfl
@[simp] theorem State.setCore_reply (s : State) (c k) : (s.setCore c k).reply = s.reply := rfl
@[simp] theorem State.setCore_replyPoison (s : State) (c k) : (s.setCore c k).replyPoison = s.replyPoison := rfl

@[simp] theorem State.mapCore_pending (s : State) (c f) : (s.mapCore c f).pending = s.pending := rfl
@[simp] theorem State.mapCore_freeCount (s : State) (c f) : (s.mapCore c f).freeCount = s.freeCount := rfl
@[simp] theorem State.mapCore_now (s : State) (c f) : (s.mapCore c f).now = s.now := rfl
@[simp] theorem State.mapCore_timeFrac (s : State) (c f) : (s.mapCore c f).timeFrac = s.timeFrac := rfl
@[simp] theorem State.mapCore_regs (s : State) (c f) : (s.mapCore c f).regs = s.regs := rfl
@[simp] theorem State.mapCore_phot (s : State) (c f) : (s.mapCore c f).phot = s.phot := rfl
@[simp] theorem State.mapCore_mem (s : State) (c f) : (s.mapCore c f).mem = s.mem := rfl
@[simp] theorem State.mapCore_lineErr (s : State) (c f) : (s.mapCore c f).lineErr = s.lineErr := rfl
@[simp] theorem State.mapCore_valid (s : State) (c f) : (s.mapCore c f).valid = s.valid := rfl
@[simp] theorem State.mapCore_bits (s : State) (c f) : (s.mapCore c f).bits = s.bits := rfl
@[simp] theorem State.mapCore_clusters (s : State) (c f) : (s.mapCore c f).clusters = s.clusters := rfl
@[simp] theorem State.mapCore_prim (s : State) (c f) : (s.mapCore c f).prim = s.prim := rfl
@[simp] theorem State.mapCore_movers (s : State) (c f) : (s.mapCore c f).movers = s.movers := rfl
@[simp] theorem State.mapCore_col (s : State) (c f) : (s.mapCore c f).col = s.col := rfl
@[simp] theorem State.mapCore_pci (s : State) (c f) : (s.mapCore c f).pci = s.pci := rfl
@[simp] theorem State.mapCore_eth (s : State) (c f) : (s.mapCore c f).eth = s.eth := rfl
@[simp] theorem State.mapCore_sht (s : State) (c f) : (s.mapCore c f).sht = s.sht := rfl
@[simp] theorem State.mapCore_spg (s : State) (c f) : (s.mapCore c f).spg = s.spg := rfl
@[simp] theorem State.mapCore_trn (s : State) (c f) : (s.mapCore c f).trn = s.trn := rfl
@[simp] theorem State.mapCore_cat (s : State) (c f) : (s.mapCore c f).cat = s.cat := rfl
@[simp] theorem State.mapCore_eph (s : State) (c f) : (s.mapCore c f).eph = s.eph := rfl
@[simp] theorem State.mapCore_hel (s : State) (c f) : (s.mapCore c f).hel = s.hel := rfl
@[simp] theorem State.mapCore_chr (s : State) (c f) : (s.mapCore c f).chr = s.chr := rfl
@[simp] theorem State.mapCore_power (s : State) (c f) : (s.mapCore c f).power = s.power := rfl
@[simp] theorem State.mapCore_dom (s : State) (c f) : (s.mapCore c f).dom = s.dom := rfl
@[simp] theorem State.mapCore_exp (s : State) (c f) : (s.mapCore c f).exp = s.exp := rfl
@[simp] theorem State.mapCore_flt (s : State) (c f) : (s.mapCore c f).flt = s.flt := rfl
@[simp] theorem State.mapCore_keys (s : State) (c f) : (s.mapCore c f).keys = s.keys := rfl
@[simp] theorem State.mapCore_rot (s : State) (c f) : (s.mapCore c f).rot = s.rot := rfl
@[simp] theorem State.mapCore_busyNs (s : State) (c f) : (s.mapCore c f).busyNs = s.busyNs := rfl
@[simp] theorem State.mapCore_epoch (s : State) (c f) : (s.mapCore c f).epoch = s.epoch := rfl
@[simp] theorem State.mapCore_reply (s : State) (c f) : (s.mapCore c f).reply = s.reply := rfl
@[simp] theorem State.mapCore_replyPoison (s : State) (c f) : (s.mapCore c f).replyPoison = s.replyPoison := rfl

/-- A core reads as it was written; a core of another cell as before. -/
theorem State.core_setCore (s : State) (c d : CoreRef) (k : CoreState) :
    (s.setCore c k).core d = if d.cell = c.cell then k else s.core d := smapGet_set

@[simp] theorem State.core_setCore_same (s : State) (c : CoreRef) (k : CoreState) : (s.setCore c k).core c = k := by
  simp [State.core_setCore]

@[simp] theorem State.core_mapCore_same (s : State) (c : CoreRef) (f : CoreState → CoreState) : (s.mapCore c f).core c = f (s.core c) :=
  State.core_setCore_same ..

/-! ## The parts of the units -/

@[simp] theorem State.setHel_pending (s : State) (x) : (s.setHel x).pending = s.pending := rfl
@[simp] theorem State.setHel_freeCount (s : State) (x) : (s.setHel x).freeCount = s.freeCount := rfl
@[simp] theorem State.setHel_now (s : State) (x) : (s.setHel x).now = s.now := rfl
@[simp] theorem State.setHel_timeFrac (s : State) (x) : (s.setHel x).timeFrac = s.timeFrac := rfl
@[simp] theorem State.setHel_regs (s : State) (x) : (s.setHel x).regs = s.regs := rfl
@[simp] theorem State.setHel_phot (s : State) (x) : (s.setHel x).phot = s.phot := rfl
@[simp] theorem State.setHel_mem (s : State) (x) : (s.setHel x).mem = s.mem := rfl
@[simp] theorem State.setHel_lineErr (s : State) (x) : (s.setHel x).lineErr = s.lineErr := rfl
@[simp] theorem State.setHel_valid (s : State) (x) : (s.setHel x).valid = s.valid := rfl
@[simp] theorem State.setHel_bits (s : State) (x) : (s.setHel x).bits = s.bits := rfl
@[simp] theorem State.setHel_cores (s : State) (x) : (s.setHel x).cores = s.cores := rfl
@[simp] theorem State.setHel_clusters (s : State) (x) : (s.setHel x).clusters = s.clusters := rfl
@[simp] theorem State.setHel_prim (s : State) (x) : (s.setHel x).prim = s.prim := rfl
@[simp] theorem State.setHel_movers (s : State) (x) : (s.setHel x).movers = s.movers := rfl
@[simp] theorem State.setHel_col (s : State) (x) : (s.setHel x).col = s.col := rfl
@[simp] theorem State.setHel_pci (s : State) (x) : (s.setHel x).pci = s.pci := rfl
@[simp] theorem State.setHel_eth (s : State) (x) : (s.setHel x).eth = s.eth := rfl
@[simp] theorem State.setHel_sht (s : State) (x) : (s.setHel x).sht = s.sht := rfl
@[simp] theorem State.setHel_spg (s : State) (x) : (s.setHel x).spg = s.spg := rfl
@[simp] theorem State.setHel_trn (s : State) (x) : (s.setHel x).trn = s.trn := rfl
@[simp] theorem State.setHel_cat (s : State) (x) : (s.setHel x).cat = s.cat := rfl
@[simp] theorem State.setHel_eph (s : State) (x) : (s.setHel x).eph = s.eph := rfl
@[simp] theorem State.setHel_chr (s : State) (x) : (s.setHel x).chr = s.chr := rfl
@[simp] theorem State.setHel_power (s : State) (x) : (s.setHel x).power = s.power := rfl
@[simp] theorem State.setHel_dom (s : State) (x) : (s.setHel x).dom = s.dom := rfl
@[simp] theorem State.setHel_exp (s : State) (x) : (s.setHel x).exp = s.exp := rfl
@[simp] theorem State.setHel_flt (s : State) (x) : (s.setHel x).flt = s.flt := rfl
@[simp] theorem State.setHel_keys (s : State) (x) : (s.setHel x).keys = s.keys := rfl
@[simp] theorem State.setHel_rot (s : State) (x) : (s.setHel x).rot = s.rot := rfl
@[simp] theorem State.setHel_busyNs (s : State) (x) : (s.setHel x).busyNs = s.busyNs := rfl
@[simp] theorem State.setHel_epoch (s : State) (x) : (s.setHel x).epoch = s.epoch := rfl
@[simp] theorem State.setHel_reply (s : State) (x) : (s.setHel x).reply = s.reply := rfl
@[simp] theorem State.setHel_replyPoison (s : State) (x) : (s.setHel x).replyPoison = s.replyPoison := rfl
@[simp] theorem State.setHel_hel (s : State) (x) : (s.setHel x).hel = x := rfl

@[simp] theorem State.setCat_pending (s : State) (x) : (s.setCat x).pending = s.pending := rfl
@[simp] theorem State.setCat_freeCount (s : State) (x) : (s.setCat x).freeCount = s.freeCount := rfl
@[simp] theorem State.setCat_now (s : State) (x) : (s.setCat x).now = s.now := rfl
@[simp] theorem State.setCat_timeFrac (s : State) (x) : (s.setCat x).timeFrac = s.timeFrac := rfl
@[simp] theorem State.setCat_regs (s : State) (x) : (s.setCat x).regs = s.regs := rfl
@[simp] theorem State.setCat_phot (s : State) (x) : (s.setCat x).phot = s.phot := rfl
@[simp] theorem State.setCat_mem (s : State) (x) : (s.setCat x).mem = s.mem := rfl
@[simp] theorem State.setCat_lineErr (s : State) (x) : (s.setCat x).lineErr = s.lineErr := rfl
@[simp] theorem State.setCat_valid (s : State) (x) : (s.setCat x).valid = s.valid := rfl
@[simp] theorem State.setCat_bits (s : State) (x) : (s.setCat x).bits = s.bits := rfl
@[simp] theorem State.setCat_cores (s : State) (x) : (s.setCat x).cores = s.cores := rfl
@[simp] theorem State.setCat_clusters (s : State) (x) : (s.setCat x).clusters = s.clusters := rfl
@[simp] theorem State.setCat_prim (s : State) (x) : (s.setCat x).prim = s.prim := rfl
@[simp] theorem State.setCat_movers (s : State) (x) : (s.setCat x).movers = s.movers := rfl
@[simp] theorem State.setCat_col (s : State) (x) : (s.setCat x).col = s.col := rfl
@[simp] theorem State.setCat_pci (s : State) (x) : (s.setCat x).pci = s.pci := rfl
@[simp] theorem State.setCat_eth (s : State) (x) : (s.setCat x).eth = s.eth := rfl
@[simp] theorem State.setCat_sht (s : State) (x) : (s.setCat x).sht = s.sht := rfl
@[simp] theorem State.setCat_spg (s : State) (x) : (s.setCat x).spg = s.spg := rfl
@[simp] theorem State.setCat_trn (s : State) (x) : (s.setCat x).trn = s.trn := rfl
@[simp] theorem State.setCat_eph (s : State) (x) : (s.setCat x).eph = s.eph := rfl
@[simp] theorem State.setCat_hel (s : State) (x) : (s.setCat x).hel = s.hel := rfl
@[simp] theorem State.setCat_chr (s : State) (x) : (s.setCat x).chr = s.chr := rfl
@[simp] theorem State.setCat_power (s : State) (x) : (s.setCat x).power = s.power := rfl
@[simp] theorem State.setCat_dom (s : State) (x) : (s.setCat x).dom = s.dom := rfl
@[simp] theorem State.setCat_exp (s : State) (x) : (s.setCat x).exp = s.exp := rfl
@[simp] theorem State.setCat_flt (s : State) (x) : (s.setCat x).flt = s.flt := rfl
@[simp] theorem State.setCat_keys (s : State) (x) : (s.setCat x).keys = s.keys := rfl
@[simp] theorem State.setCat_rot (s : State) (x) : (s.setCat x).rot = s.rot := rfl
@[simp] theorem State.setCat_busyNs (s : State) (x) : (s.setCat x).busyNs = s.busyNs := rfl
@[simp] theorem State.setCat_epoch (s : State) (x) : (s.setCat x).epoch = s.epoch := rfl
@[simp] theorem State.setCat_reply (s : State) (x) : (s.setCat x).reply = s.reply := rfl
@[simp] theorem State.setCat_replyPoison (s : State) (x) : (s.setCat x).replyPoison = s.replyPoison := rfl
@[simp] theorem State.setCat_cat (s : State) (x) : (s.setCat x).cat = x := rfl

@[simp] theorem State.setChr_pending (s : State) (x) : (s.setChr x).pending = s.pending := rfl
@[simp] theorem State.setChr_freeCount (s : State) (x) : (s.setChr x).freeCount = s.freeCount := rfl
@[simp] theorem State.setChr_now (s : State) (x) : (s.setChr x).now = s.now := rfl
@[simp] theorem State.setChr_timeFrac (s : State) (x) : (s.setChr x).timeFrac = s.timeFrac := rfl
@[simp] theorem State.setChr_regs (s : State) (x) : (s.setChr x).regs = s.regs := rfl
@[simp] theorem State.setChr_phot (s : State) (x) : (s.setChr x).phot = s.phot := rfl
@[simp] theorem State.setChr_mem (s : State) (x) : (s.setChr x).mem = s.mem := rfl
@[simp] theorem State.setChr_lineErr (s : State) (x) : (s.setChr x).lineErr = s.lineErr := rfl
@[simp] theorem State.setChr_valid (s : State) (x) : (s.setChr x).valid = s.valid := rfl
@[simp] theorem State.setChr_bits (s : State) (x) : (s.setChr x).bits = s.bits := rfl
@[simp] theorem State.setChr_cores (s : State) (x) : (s.setChr x).cores = s.cores := rfl
@[simp] theorem State.setChr_clusters (s : State) (x) : (s.setChr x).clusters = s.clusters := rfl
@[simp] theorem State.setChr_prim (s : State) (x) : (s.setChr x).prim = s.prim := rfl
@[simp] theorem State.setChr_movers (s : State) (x) : (s.setChr x).movers = s.movers := rfl
@[simp] theorem State.setChr_col (s : State) (x) : (s.setChr x).col = s.col := rfl
@[simp] theorem State.setChr_pci (s : State) (x) : (s.setChr x).pci = s.pci := rfl
@[simp] theorem State.setChr_eth (s : State) (x) : (s.setChr x).eth = s.eth := rfl
@[simp] theorem State.setChr_sht (s : State) (x) : (s.setChr x).sht = s.sht := rfl
@[simp] theorem State.setChr_spg (s : State) (x) : (s.setChr x).spg = s.spg := rfl
@[simp] theorem State.setChr_trn (s : State) (x) : (s.setChr x).trn = s.trn := rfl
@[simp] theorem State.setChr_cat (s : State) (x) : (s.setChr x).cat = s.cat := rfl
@[simp] theorem State.setChr_eph (s : State) (x) : (s.setChr x).eph = s.eph := rfl
@[simp] theorem State.setChr_hel (s : State) (x) : (s.setChr x).hel = s.hel := rfl
@[simp] theorem State.setChr_power (s : State) (x) : (s.setChr x).power = s.power := rfl
@[simp] theorem State.setChr_dom (s : State) (x) : (s.setChr x).dom = s.dom := rfl
@[simp] theorem State.setChr_exp (s : State) (x) : (s.setChr x).exp = s.exp := rfl
@[simp] theorem State.setChr_flt (s : State) (x) : (s.setChr x).flt = s.flt := rfl
@[simp] theorem State.setChr_keys (s : State) (x) : (s.setChr x).keys = s.keys := rfl
@[simp] theorem State.setChr_rot (s : State) (x) : (s.setChr x).rot = s.rot := rfl
@[simp] theorem State.setChr_busyNs (s : State) (x) : (s.setChr x).busyNs = s.busyNs := rfl
@[simp] theorem State.setChr_epoch (s : State) (x) : (s.setChr x).epoch = s.epoch := rfl
@[simp] theorem State.setChr_reply (s : State) (x) : (s.setChr x).reply = s.reply := rfl
@[simp] theorem State.setChr_replyPoison (s : State) (x) : (s.setChr x).replyPoison = s.replyPoison := rfl
@[simp] theorem State.setChr_chr (s : State) (x) : (s.setChr x).chr = x := rfl

@[simp] theorem State.setEph_pending (s : State) (x) : (s.setEph x).pending = s.pending := rfl
@[simp] theorem State.setEph_freeCount (s : State) (x) : (s.setEph x).freeCount = s.freeCount := rfl
@[simp] theorem State.setEph_now (s : State) (x) : (s.setEph x).now = s.now := rfl
@[simp] theorem State.setEph_timeFrac (s : State) (x) : (s.setEph x).timeFrac = s.timeFrac := rfl
@[simp] theorem State.setEph_regs (s : State) (x) : (s.setEph x).regs = s.regs := rfl
@[simp] theorem State.setEph_phot (s : State) (x) : (s.setEph x).phot = s.phot := rfl
@[simp] theorem State.setEph_mem (s : State) (x) : (s.setEph x).mem = s.mem := rfl
@[simp] theorem State.setEph_lineErr (s : State) (x) : (s.setEph x).lineErr = s.lineErr := rfl
@[simp] theorem State.setEph_valid (s : State) (x) : (s.setEph x).valid = s.valid := rfl
@[simp] theorem State.setEph_bits (s : State) (x) : (s.setEph x).bits = s.bits := rfl
@[simp] theorem State.setEph_cores (s : State) (x) : (s.setEph x).cores = s.cores := rfl
@[simp] theorem State.setEph_clusters (s : State) (x) : (s.setEph x).clusters = s.clusters := rfl
@[simp] theorem State.setEph_prim (s : State) (x) : (s.setEph x).prim = s.prim := rfl
@[simp] theorem State.setEph_movers (s : State) (x) : (s.setEph x).movers = s.movers := rfl
@[simp] theorem State.setEph_col (s : State) (x) : (s.setEph x).col = s.col := rfl
@[simp] theorem State.setEph_pci (s : State) (x) : (s.setEph x).pci = s.pci := rfl
@[simp] theorem State.setEph_eth (s : State) (x) : (s.setEph x).eth = s.eth := rfl
@[simp] theorem State.setEph_sht (s : State) (x) : (s.setEph x).sht = s.sht := rfl
@[simp] theorem State.setEph_spg (s : State) (x) : (s.setEph x).spg = s.spg := rfl
@[simp] theorem State.setEph_trn (s : State) (x) : (s.setEph x).trn = s.trn := rfl
@[simp] theorem State.setEph_cat (s : State) (x) : (s.setEph x).cat = s.cat := rfl
@[simp] theorem State.setEph_hel (s : State) (x) : (s.setEph x).hel = s.hel := rfl
@[simp] theorem State.setEph_chr (s : State) (x) : (s.setEph x).chr = s.chr := rfl
@[simp] theorem State.setEph_power (s : State) (x) : (s.setEph x).power = s.power := rfl
@[simp] theorem State.setEph_dom (s : State) (x) : (s.setEph x).dom = s.dom := rfl
@[simp] theorem State.setEph_exp (s : State) (x) : (s.setEph x).exp = s.exp := rfl
@[simp] theorem State.setEph_flt (s : State) (x) : (s.setEph x).flt = s.flt := rfl
@[simp] theorem State.setEph_keys (s : State) (x) : (s.setEph x).keys = s.keys := rfl
@[simp] theorem State.setEph_rot (s : State) (x) : (s.setEph x).rot = s.rot := rfl
@[simp] theorem State.setEph_busyNs (s : State) (x) : (s.setEph x).busyNs = s.busyNs := rfl
@[simp] theorem State.setEph_epoch (s : State) (x) : (s.setEph x).epoch = s.epoch := rfl
@[simp] theorem State.setEph_reply (s : State) (x) : (s.setEph x).reply = s.reply := rfl
@[simp] theorem State.setEph_replyPoison (s : State) (x) : (s.setEph x).replyPoison = s.replyPoison := rfl
@[simp] theorem State.setEph_eph (s : State) (x) : (s.setEph x).eph = x := rfl

@[simp] theorem State.setExp_pending (s : State) (x) : (s.setExp x).pending = s.pending := rfl
@[simp] theorem State.setExp_freeCount (s : State) (x) : (s.setExp x).freeCount = s.freeCount := rfl
@[simp] theorem State.setExp_now (s : State) (x) : (s.setExp x).now = s.now := rfl
@[simp] theorem State.setExp_timeFrac (s : State) (x) : (s.setExp x).timeFrac = s.timeFrac := rfl
@[simp] theorem State.setExp_regs (s : State) (x) : (s.setExp x).regs = s.regs := rfl
@[simp] theorem State.setExp_phot (s : State) (x) : (s.setExp x).phot = s.phot := rfl
@[simp] theorem State.setExp_mem (s : State) (x) : (s.setExp x).mem = s.mem := rfl
@[simp] theorem State.setExp_lineErr (s : State) (x) : (s.setExp x).lineErr = s.lineErr := rfl
@[simp] theorem State.setExp_valid (s : State) (x) : (s.setExp x).valid = s.valid := rfl
@[simp] theorem State.setExp_bits (s : State) (x) : (s.setExp x).bits = s.bits := rfl
@[simp] theorem State.setExp_cores (s : State) (x) : (s.setExp x).cores = s.cores := rfl
@[simp] theorem State.setExp_clusters (s : State) (x) : (s.setExp x).clusters = s.clusters := rfl
@[simp] theorem State.setExp_prim (s : State) (x) : (s.setExp x).prim = s.prim := rfl
@[simp] theorem State.setExp_movers (s : State) (x) : (s.setExp x).movers = s.movers := rfl
@[simp] theorem State.setExp_col (s : State) (x) : (s.setExp x).col = s.col := rfl
@[simp] theorem State.setExp_pci (s : State) (x) : (s.setExp x).pci = s.pci := rfl
@[simp] theorem State.setExp_eth (s : State) (x) : (s.setExp x).eth = s.eth := rfl
@[simp] theorem State.setExp_sht (s : State) (x) : (s.setExp x).sht = s.sht := rfl
@[simp] theorem State.setExp_spg (s : State) (x) : (s.setExp x).spg = s.spg := rfl
@[simp] theorem State.setExp_trn (s : State) (x) : (s.setExp x).trn = s.trn := rfl
@[simp] theorem State.setExp_cat (s : State) (x) : (s.setExp x).cat = s.cat := rfl
@[simp] theorem State.setExp_eph (s : State) (x) : (s.setExp x).eph = s.eph := rfl
@[simp] theorem State.setExp_hel (s : State) (x) : (s.setExp x).hel = s.hel := rfl
@[simp] theorem State.setExp_chr (s : State) (x) : (s.setExp x).chr = s.chr := rfl
@[simp] theorem State.setExp_power (s : State) (x) : (s.setExp x).power = s.power := rfl
@[simp] theorem State.setExp_dom (s : State) (x) : (s.setExp x).dom = s.dom := rfl
@[simp] theorem State.setExp_flt (s : State) (x) : (s.setExp x).flt = s.flt := rfl
@[simp] theorem State.setExp_keys (s : State) (x) : (s.setExp x).keys = s.keys := rfl
@[simp] theorem State.setExp_rot (s : State) (x) : (s.setExp x).rot = s.rot := rfl
@[simp] theorem State.setExp_busyNs (s : State) (x) : (s.setExp x).busyNs = s.busyNs := rfl
@[simp] theorem State.setExp_epoch (s : State) (x) : (s.setExp x).epoch = s.epoch := rfl
@[simp] theorem State.setExp_reply (s : State) (x) : (s.setExp x).reply = s.reply := rfl
@[simp] theorem State.setExp_replyPoison (s : State) (x) : (s.setExp x).replyPoison = s.replyPoison := rfl
@[simp] theorem State.setExp_exp (s : State) (x) : (s.setExp x).exp = x := rfl

@[simp] theorem State.setPci_pending (s : State) (x) : (s.setPci x).pending = s.pending := rfl
@[simp] theorem State.setPci_freeCount (s : State) (x) : (s.setPci x).freeCount = s.freeCount := rfl
@[simp] theorem State.setPci_now (s : State) (x) : (s.setPci x).now = s.now := rfl
@[simp] theorem State.setPci_timeFrac (s : State) (x) : (s.setPci x).timeFrac = s.timeFrac := rfl
@[simp] theorem State.setPci_regs (s : State) (x) : (s.setPci x).regs = s.regs := rfl
@[simp] theorem State.setPci_phot (s : State) (x) : (s.setPci x).phot = s.phot := rfl
@[simp] theorem State.setPci_mem (s : State) (x) : (s.setPci x).mem = s.mem := rfl
@[simp] theorem State.setPci_lineErr (s : State) (x) : (s.setPci x).lineErr = s.lineErr := rfl
@[simp] theorem State.setPci_valid (s : State) (x) : (s.setPci x).valid = s.valid := rfl
@[simp] theorem State.setPci_bits (s : State) (x) : (s.setPci x).bits = s.bits := rfl
@[simp] theorem State.setPci_cores (s : State) (x) : (s.setPci x).cores = s.cores := rfl
@[simp] theorem State.setPci_clusters (s : State) (x) : (s.setPci x).clusters = s.clusters := rfl
@[simp] theorem State.setPci_prim (s : State) (x) : (s.setPci x).prim = s.prim := rfl
@[simp] theorem State.setPci_movers (s : State) (x) : (s.setPci x).movers = s.movers := rfl
@[simp] theorem State.setPci_col (s : State) (x) : (s.setPci x).col = s.col := rfl
@[simp] theorem State.setPci_eth (s : State) (x) : (s.setPci x).eth = s.eth := rfl
@[simp] theorem State.setPci_sht (s : State) (x) : (s.setPci x).sht = s.sht := rfl
@[simp] theorem State.setPci_spg (s : State) (x) : (s.setPci x).spg = s.spg := rfl
@[simp] theorem State.setPci_trn (s : State) (x) : (s.setPci x).trn = s.trn := rfl
@[simp] theorem State.setPci_cat (s : State) (x) : (s.setPci x).cat = s.cat := rfl
@[simp] theorem State.setPci_eph (s : State) (x) : (s.setPci x).eph = s.eph := rfl
@[simp] theorem State.setPci_hel (s : State) (x) : (s.setPci x).hel = s.hel := rfl
@[simp] theorem State.setPci_chr (s : State) (x) : (s.setPci x).chr = s.chr := rfl
@[simp] theorem State.setPci_power (s : State) (x) : (s.setPci x).power = s.power := rfl
@[simp] theorem State.setPci_dom (s : State) (x) : (s.setPci x).dom = s.dom := rfl
@[simp] theorem State.setPci_exp (s : State) (x) : (s.setPci x).exp = s.exp := rfl
@[simp] theorem State.setPci_flt (s : State) (x) : (s.setPci x).flt = s.flt := rfl
@[simp] theorem State.setPci_keys (s : State) (x) : (s.setPci x).keys = s.keys := rfl
@[simp] theorem State.setPci_rot (s : State) (x) : (s.setPci x).rot = s.rot := rfl
@[simp] theorem State.setPci_busyNs (s : State) (x) : (s.setPci x).busyNs = s.busyNs := rfl
@[simp] theorem State.setPci_epoch (s : State) (x) : (s.setPci x).epoch = s.epoch := rfl
@[simp] theorem State.setPci_reply (s : State) (x) : (s.setPci x).reply = s.reply := rfl
@[simp] theorem State.setPci_replyPoison (s : State) (x) : (s.setPci x).replyPoison = s.replyPoison := rfl
@[simp] theorem State.setPci_pci (s : State) (x) : (s.setPci x).pci = x := rfl

@[simp] theorem State.setPrim_pending (s : State) (x) : (s.setPrim x).pending = s.pending := rfl
@[simp] theorem State.setPrim_freeCount (s : State) (x) : (s.setPrim x).freeCount = s.freeCount := rfl
@[simp] theorem State.setPrim_now (s : State) (x) : (s.setPrim x).now = s.now := rfl
@[simp] theorem State.setPrim_timeFrac (s : State) (x) : (s.setPrim x).timeFrac = s.timeFrac := rfl
@[simp] theorem State.setPrim_regs (s : State) (x) : (s.setPrim x).regs = s.regs := rfl
@[simp] theorem State.setPrim_phot (s : State) (x) : (s.setPrim x).phot = s.phot := rfl
@[simp] theorem State.setPrim_mem (s : State) (x) : (s.setPrim x).mem = s.mem := rfl
@[simp] theorem State.setPrim_lineErr (s : State) (x) : (s.setPrim x).lineErr = s.lineErr := rfl
@[simp] theorem State.setPrim_valid (s : State) (x) : (s.setPrim x).valid = s.valid := rfl
@[simp] theorem State.setPrim_bits (s : State) (x) : (s.setPrim x).bits = s.bits := rfl
@[simp] theorem State.setPrim_cores (s : State) (x) : (s.setPrim x).cores = s.cores := rfl
@[simp] theorem State.setPrim_clusters (s : State) (x) : (s.setPrim x).clusters = s.clusters := rfl
@[simp] theorem State.setPrim_movers (s : State) (x) : (s.setPrim x).movers = s.movers := rfl
@[simp] theorem State.setPrim_col (s : State) (x) : (s.setPrim x).col = s.col := rfl
@[simp] theorem State.setPrim_pci (s : State) (x) : (s.setPrim x).pci = s.pci := rfl
@[simp] theorem State.setPrim_eth (s : State) (x) : (s.setPrim x).eth = s.eth := rfl
@[simp] theorem State.setPrim_sht (s : State) (x) : (s.setPrim x).sht = s.sht := rfl
@[simp] theorem State.setPrim_spg (s : State) (x) : (s.setPrim x).spg = s.spg := rfl
@[simp] theorem State.setPrim_trn (s : State) (x) : (s.setPrim x).trn = s.trn := rfl
@[simp] theorem State.setPrim_cat (s : State) (x) : (s.setPrim x).cat = s.cat := rfl
@[simp] theorem State.setPrim_eph (s : State) (x) : (s.setPrim x).eph = s.eph := rfl
@[simp] theorem State.setPrim_hel (s : State) (x) : (s.setPrim x).hel = s.hel := rfl
@[simp] theorem State.setPrim_chr (s : State) (x) : (s.setPrim x).chr = s.chr := rfl
@[simp] theorem State.setPrim_power (s : State) (x) : (s.setPrim x).power = s.power := rfl
@[simp] theorem State.setPrim_dom (s : State) (x) : (s.setPrim x).dom = s.dom := rfl
@[simp] theorem State.setPrim_exp (s : State) (x) : (s.setPrim x).exp = s.exp := rfl
@[simp] theorem State.setPrim_flt (s : State) (x) : (s.setPrim x).flt = s.flt := rfl
@[simp] theorem State.setPrim_keys (s : State) (x) : (s.setPrim x).keys = s.keys := rfl
@[simp] theorem State.setPrim_rot (s : State) (x) : (s.setPrim x).rot = s.rot := rfl
@[simp] theorem State.setPrim_busyNs (s : State) (x) : (s.setPrim x).busyNs = s.busyNs := rfl
@[simp] theorem State.setPrim_epoch (s : State) (x) : (s.setPrim x).epoch = s.epoch := rfl
@[simp] theorem State.setPrim_reply (s : State) (x) : (s.setPrim x).reply = s.reply := rfl
@[simp] theorem State.setPrim_replyPoison (s : State) (x) : (s.setPrim x).replyPoison = s.replyPoison := rfl
@[simp] theorem State.setPrim_prim (s : State) (x) : (s.setPrim x).prim = x := rfl

@[simp] theorem State.setRot_pending (s : State) (x) : (s.setRot x).pending = s.pending := rfl
@[simp] theorem State.setRot_freeCount (s : State) (x) : (s.setRot x).freeCount = s.freeCount := rfl
@[simp] theorem State.setRot_now (s : State) (x) : (s.setRot x).now = s.now := rfl
@[simp] theorem State.setRot_timeFrac (s : State) (x) : (s.setRot x).timeFrac = s.timeFrac := rfl
@[simp] theorem State.setRot_regs (s : State) (x) : (s.setRot x).regs = s.regs := rfl
@[simp] theorem State.setRot_phot (s : State) (x) : (s.setRot x).phot = s.phot := rfl
@[simp] theorem State.setRot_mem (s : State) (x) : (s.setRot x).mem = s.mem := rfl
@[simp] theorem State.setRot_lineErr (s : State) (x) : (s.setRot x).lineErr = s.lineErr := rfl
@[simp] theorem State.setRot_valid (s : State) (x) : (s.setRot x).valid = s.valid := rfl
@[simp] theorem State.setRot_bits (s : State) (x) : (s.setRot x).bits = s.bits := rfl
@[simp] theorem State.setRot_cores (s : State) (x) : (s.setRot x).cores = s.cores := rfl
@[simp] theorem State.setRot_clusters (s : State) (x) : (s.setRot x).clusters = s.clusters := rfl
@[simp] theorem State.setRot_prim (s : State) (x) : (s.setRot x).prim = s.prim := rfl
@[simp] theorem State.setRot_movers (s : State) (x) : (s.setRot x).movers = s.movers := rfl
@[simp] theorem State.setRot_col (s : State) (x) : (s.setRot x).col = s.col := rfl
@[simp] theorem State.setRot_pci (s : State) (x) : (s.setRot x).pci = s.pci := rfl
@[simp] theorem State.setRot_eth (s : State) (x) : (s.setRot x).eth = s.eth := rfl
@[simp] theorem State.setRot_sht (s : State) (x) : (s.setRot x).sht = s.sht := rfl
@[simp] theorem State.setRot_spg (s : State) (x) : (s.setRot x).spg = s.spg := rfl
@[simp] theorem State.setRot_trn (s : State) (x) : (s.setRot x).trn = s.trn := rfl
@[simp] theorem State.setRot_cat (s : State) (x) : (s.setRot x).cat = s.cat := rfl
@[simp] theorem State.setRot_eph (s : State) (x) : (s.setRot x).eph = s.eph := rfl
@[simp] theorem State.setRot_hel (s : State) (x) : (s.setRot x).hel = s.hel := rfl
@[simp] theorem State.setRot_chr (s : State) (x) : (s.setRot x).chr = s.chr := rfl
@[simp] theorem State.setRot_power (s : State) (x) : (s.setRot x).power = s.power := rfl
@[simp] theorem State.setRot_dom (s : State) (x) : (s.setRot x).dom = s.dom := rfl
@[simp] theorem State.setRot_exp (s : State) (x) : (s.setRot x).exp = s.exp := rfl
@[simp] theorem State.setRot_flt (s : State) (x) : (s.setRot x).flt = s.flt := rfl
@[simp] theorem State.setRot_keys (s : State) (x) : (s.setRot x).keys = s.keys := rfl
@[simp] theorem State.setRot_busyNs (s : State) (x) : (s.setRot x).busyNs = s.busyNs := rfl
@[simp] theorem State.setRot_epoch (s : State) (x) : (s.setRot x).epoch = s.epoch := rfl
@[simp] theorem State.setRot_reply (s : State) (x) : (s.setRot x).reply = s.reply := rfl
@[simp] theorem State.setRot_replyPoison (s : State) (x) : (s.setRot x).replyPoison = s.replyPoison := rfl
@[simp] theorem State.setRot_rot (s : State) (x) : (s.setRot x).rot = x := rfl

@[simp] theorem State.setSht_pending (s : State) (x) : (s.setSht x).pending = s.pending := rfl
@[simp] theorem State.setSht_freeCount (s : State) (x) : (s.setSht x).freeCount = s.freeCount := rfl
@[simp] theorem State.setSht_now (s : State) (x) : (s.setSht x).now = s.now := rfl
@[simp] theorem State.setSht_timeFrac (s : State) (x) : (s.setSht x).timeFrac = s.timeFrac := rfl
@[simp] theorem State.setSht_regs (s : State) (x) : (s.setSht x).regs = s.regs := rfl
@[simp] theorem State.setSht_phot (s : State) (x) : (s.setSht x).phot = s.phot := rfl
@[simp] theorem State.setSht_mem (s : State) (x) : (s.setSht x).mem = s.mem := rfl
@[simp] theorem State.setSht_lineErr (s : State) (x) : (s.setSht x).lineErr = s.lineErr := rfl
@[simp] theorem State.setSht_valid (s : State) (x) : (s.setSht x).valid = s.valid := rfl
@[simp] theorem State.setSht_bits (s : State) (x) : (s.setSht x).bits = s.bits := rfl
@[simp] theorem State.setSht_cores (s : State) (x) : (s.setSht x).cores = s.cores := rfl
@[simp] theorem State.setSht_clusters (s : State) (x) : (s.setSht x).clusters = s.clusters := rfl
@[simp] theorem State.setSht_prim (s : State) (x) : (s.setSht x).prim = s.prim := rfl
@[simp] theorem State.setSht_movers (s : State) (x) : (s.setSht x).movers = s.movers := rfl
@[simp] theorem State.setSht_col (s : State) (x) : (s.setSht x).col = s.col := rfl
@[simp] theorem State.setSht_pci (s : State) (x) : (s.setSht x).pci = s.pci := rfl
@[simp] theorem State.setSht_eth (s : State) (x) : (s.setSht x).eth = s.eth := rfl
@[simp] theorem State.setSht_spg (s : State) (x) : (s.setSht x).spg = s.spg := rfl
@[simp] theorem State.setSht_trn (s : State) (x) : (s.setSht x).trn = s.trn := rfl
@[simp] theorem State.setSht_cat (s : State) (x) : (s.setSht x).cat = s.cat := rfl
@[simp] theorem State.setSht_eph (s : State) (x) : (s.setSht x).eph = s.eph := rfl
@[simp] theorem State.setSht_hel (s : State) (x) : (s.setSht x).hel = s.hel := rfl
@[simp] theorem State.setSht_chr (s : State) (x) : (s.setSht x).chr = s.chr := rfl
@[simp] theorem State.setSht_power (s : State) (x) : (s.setSht x).power = s.power := rfl
@[simp] theorem State.setSht_dom (s : State) (x) : (s.setSht x).dom = s.dom := rfl
@[simp] theorem State.setSht_exp (s : State) (x) : (s.setSht x).exp = s.exp := rfl
@[simp] theorem State.setSht_flt (s : State) (x) : (s.setSht x).flt = s.flt := rfl
@[simp] theorem State.setSht_keys (s : State) (x) : (s.setSht x).keys = s.keys := rfl
@[simp] theorem State.setSht_rot (s : State) (x) : (s.setSht x).rot = s.rot := rfl
@[simp] theorem State.setSht_busyNs (s : State) (x) : (s.setSht x).busyNs = s.busyNs := rfl
@[simp] theorem State.setSht_epoch (s : State) (x) : (s.setSht x).epoch = s.epoch := rfl
@[simp] theorem State.setSht_reply (s : State) (x) : (s.setSht x).reply = s.reply := rfl
@[simp] theorem State.setSht_replyPoison (s : State) (x) : (s.setSht x).replyPoison = s.replyPoison := rfl
@[simp] theorem State.setSht_sht (s : State) (x) : (s.setSht x).sht = x := rfl

@[simp] theorem State.setSpg_pending (s : State) (x) : (s.setSpg x).pending = s.pending := rfl
@[simp] theorem State.setSpg_freeCount (s : State) (x) : (s.setSpg x).freeCount = s.freeCount := rfl
@[simp] theorem State.setSpg_now (s : State) (x) : (s.setSpg x).now = s.now := rfl
@[simp] theorem State.setSpg_timeFrac (s : State) (x) : (s.setSpg x).timeFrac = s.timeFrac := rfl
@[simp] theorem State.setSpg_regs (s : State) (x) : (s.setSpg x).regs = s.regs := rfl
@[simp] theorem State.setSpg_phot (s : State) (x) : (s.setSpg x).phot = s.phot := rfl
@[simp] theorem State.setSpg_mem (s : State) (x) : (s.setSpg x).mem = s.mem := rfl
@[simp] theorem State.setSpg_lineErr (s : State) (x) : (s.setSpg x).lineErr = s.lineErr := rfl
@[simp] theorem State.setSpg_valid (s : State) (x) : (s.setSpg x).valid = s.valid := rfl
@[simp] theorem State.setSpg_bits (s : State) (x) : (s.setSpg x).bits = s.bits := rfl
@[simp] theorem State.setSpg_cores (s : State) (x) : (s.setSpg x).cores = s.cores := rfl
@[simp] theorem State.setSpg_clusters (s : State) (x) : (s.setSpg x).clusters = s.clusters := rfl
@[simp] theorem State.setSpg_prim (s : State) (x) : (s.setSpg x).prim = s.prim := rfl
@[simp] theorem State.setSpg_movers (s : State) (x) : (s.setSpg x).movers = s.movers := rfl
@[simp] theorem State.setSpg_col (s : State) (x) : (s.setSpg x).col = s.col := rfl
@[simp] theorem State.setSpg_pci (s : State) (x) : (s.setSpg x).pci = s.pci := rfl
@[simp] theorem State.setSpg_eth (s : State) (x) : (s.setSpg x).eth = s.eth := rfl
@[simp] theorem State.setSpg_sht (s : State) (x) : (s.setSpg x).sht = s.sht := rfl
@[simp] theorem State.setSpg_trn (s : State) (x) : (s.setSpg x).trn = s.trn := rfl
@[simp] theorem State.setSpg_cat (s : State) (x) : (s.setSpg x).cat = s.cat := rfl
@[simp] theorem State.setSpg_eph (s : State) (x) : (s.setSpg x).eph = s.eph := rfl
@[simp] theorem State.setSpg_hel (s : State) (x) : (s.setSpg x).hel = s.hel := rfl
@[simp] theorem State.setSpg_chr (s : State) (x) : (s.setSpg x).chr = s.chr := rfl
@[simp] theorem State.setSpg_power (s : State) (x) : (s.setSpg x).power = s.power := rfl
@[simp] theorem State.setSpg_dom (s : State) (x) : (s.setSpg x).dom = s.dom := rfl
@[simp] theorem State.setSpg_exp (s : State) (x) : (s.setSpg x).exp = s.exp := rfl
@[simp] theorem State.setSpg_flt (s : State) (x) : (s.setSpg x).flt = s.flt := rfl
@[simp] theorem State.setSpg_keys (s : State) (x) : (s.setSpg x).keys = s.keys := rfl
@[simp] theorem State.setSpg_rot (s : State) (x) : (s.setSpg x).rot = s.rot := rfl
@[simp] theorem State.setSpg_busyNs (s : State) (x) : (s.setSpg x).busyNs = s.busyNs := rfl
@[simp] theorem State.setSpg_epoch (s : State) (x) : (s.setSpg x).epoch = s.epoch := rfl
@[simp] theorem State.setSpg_reply (s : State) (x) : (s.setSpg x).reply = s.reply := rfl
@[simp] theorem State.setSpg_replyPoison (s : State) (x) : (s.setSpg x).replyPoison = s.replyPoison := rfl
@[simp] theorem State.setSpg_spg (s : State) (x) : (s.setSpg x).spg = x := rfl

@[simp] theorem State.setTrn_pending (s : State) (x) : (s.setTrn x).pending = s.pending := rfl
@[simp] theorem State.setTrn_freeCount (s : State) (x) : (s.setTrn x).freeCount = s.freeCount := rfl
@[simp] theorem State.setTrn_now (s : State) (x) : (s.setTrn x).now = s.now := rfl
@[simp] theorem State.setTrn_timeFrac (s : State) (x) : (s.setTrn x).timeFrac = s.timeFrac := rfl
@[simp] theorem State.setTrn_regs (s : State) (x) : (s.setTrn x).regs = s.regs := rfl
@[simp] theorem State.setTrn_phot (s : State) (x) : (s.setTrn x).phot = s.phot := rfl
@[simp] theorem State.setTrn_mem (s : State) (x) : (s.setTrn x).mem = s.mem := rfl
@[simp] theorem State.setTrn_lineErr (s : State) (x) : (s.setTrn x).lineErr = s.lineErr := rfl
@[simp] theorem State.setTrn_valid (s : State) (x) : (s.setTrn x).valid = s.valid := rfl
@[simp] theorem State.setTrn_bits (s : State) (x) : (s.setTrn x).bits = s.bits := rfl
@[simp] theorem State.setTrn_cores (s : State) (x) : (s.setTrn x).cores = s.cores := rfl
@[simp] theorem State.setTrn_clusters (s : State) (x) : (s.setTrn x).clusters = s.clusters := rfl
@[simp] theorem State.setTrn_prim (s : State) (x) : (s.setTrn x).prim = s.prim := rfl
@[simp] theorem State.setTrn_movers (s : State) (x) : (s.setTrn x).movers = s.movers := rfl
@[simp] theorem State.setTrn_col (s : State) (x) : (s.setTrn x).col = s.col := rfl
@[simp] theorem State.setTrn_pci (s : State) (x) : (s.setTrn x).pci = s.pci := rfl
@[simp] theorem State.setTrn_eth (s : State) (x) : (s.setTrn x).eth = s.eth := rfl
@[simp] theorem State.setTrn_sht (s : State) (x) : (s.setTrn x).sht = s.sht := rfl
@[simp] theorem State.setTrn_spg (s : State) (x) : (s.setTrn x).spg = s.spg := rfl
@[simp] theorem State.setTrn_cat (s : State) (x) : (s.setTrn x).cat = s.cat := rfl
@[simp] theorem State.setTrn_eph (s : State) (x) : (s.setTrn x).eph = s.eph := rfl
@[simp] theorem State.setTrn_hel (s : State) (x) : (s.setTrn x).hel = s.hel := rfl
@[simp] theorem State.setTrn_chr (s : State) (x) : (s.setTrn x).chr = s.chr := rfl
@[simp] theorem State.setTrn_power (s : State) (x) : (s.setTrn x).power = s.power := rfl
@[simp] theorem State.setTrn_dom (s : State) (x) : (s.setTrn x).dom = s.dom := rfl
@[simp] theorem State.setTrn_exp (s : State) (x) : (s.setTrn x).exp = s.exp := rfl
@[simp] theorem State.setTrn_flt (s : State) (x) : (s.setTrn x).flt = s.flt := rfl
@[simp] theorem State.setTrn_keys (s : State) (x) : (s.setTrn x).keys = s.keys := rfl
@[simp] theorem State.setTrn_rot (s : State) (x) : (s.setTrn x).rot = s.rot := rfl
@[simp] theorem State.setTrn_busyNs (s : State) (x) : (s.setTrn x).busyNs = s.busyNs := rfl
@[simp] theorem State.setTrn_epoch (s : State) (x) : (s.setTrn x).epoch = s.epoch := rfl
@[simp] theorem State.setTrn_reply (s : State) (x) : (s.setTrn x).reply = s.reply := rfl
@[simp] theorem State.setTrn_replyPoison (s : State) (x) : (s.setTrn x).replyPoison = s.replyPoison := rfl
@[simp] theorem State.setTrn_trn (s : State) (x) : (s.setTrn x).trn = x := rfl

end Sys2Proof.Machine
end

