-- ==== Sys2Proof/WellFormed.lean ====
section
/-! DEFINITION. When a command is well-formed. -/

namespace Sys2Proof

open Sys2Proof.Machine

/-- R43: an id names a cell. -/
def isCell (cell : Nat) : Bool := (cellKind cell).isSome

/-- A cell that exists and has register r. -/
def regOf (r : RegId) (cell : Nat) : Bool := isCell cell && hasReg r cell

/-- R17: a register that holds the value of an RWP pair. -/
def rwpValue : RegId → Bool
  | .PRIM_MAP | .PRIM_CLK_CAP | .HEL_CAP_W | .HEL_PEAK | .CHR_TB_RATE => true
  | _ => false

/-- R17: a register of an RWP pair. -/
def isRwp : RegId → Bool
  | .PRIM_MAP_C | .PRIM_CLK_CAP_C | .HEL_CAP_W_C | .HEL_PEAK_C | .CHR_TB_RATE_C => true
  | r => rwpValue r

/-- A value of so many bytes. -/
def fits (size value : Nat) : Bool := decide (1 ≤ size ∧ size ≤ 8) && decide (value < 2 ^ (8 * size))

/-- Where a register access is addressed lies in the range of its kind: R3, R493, R527, R487. -/
def Machine.RegTarget.wf : RegTarget → Bool
  | .device a => decide (a < 2 ^ 48)
  | .bar0 off => decide (off < 2 ^ 26)
  | .vfBar0 v off => decide (v < 256) && decide (off < 2 ^ 16)
  | .config fn off en => decide (fn < 257) && decide (off < 4096) && off % 4 == 0 && decide (en < 16)

/-- R305: an access of the local memory aperture: 4 or 8 bytes, naturally aligned. -/
def inAperture (off size value : Nat) : Bool :=
  (size == 4 || size == 8) && off % size == 0 && decide (off + size ≤ 0x40000) && decide (value < 2 ^ (8 * size))

/-- R331: the fields of a run are within their widths, and so is each element within 32 bits. -/
def Machine.RunIn.wf (r : RunIn) : Bool :=
  r.conn.all (fun c => decide (c < 65536)) && decide (r.fmt < 16) && decide (r.rank < 4096) && decide (r.collId < 65536)
    && decide (r.step < 2 ^ 32) && decide (r.offset < 2 ^ 32) && r.elems.all fun e => decide (e.1 < 2 ^ 32)

/-- A write of at least one byte on a 64-bit bus. -/
def busWrite (addr n : Nat) : Bool := decide (0 < n) && decide (addr + n ≤ 2 ^ 64)

/-- R516: a request from below a port lies in the 64-bit space of its bus. -/
def Machine.InRequest.wf : InRequest → Bool
  | .write a bs _ => busWrite a bs.length
  | .read a n => busWrite a n
  | .atomic a => decide (a < 2 ^ 64)

/-- R366: a packet of a type whose header fields are within their widths. -/
def Machine.TrnPkt.wf (k : TrnPkt) (type : Nat) : Bool :=
  k.type == type && decide (k.version < 16) && decide (k.path < 16) && decide (k.dstConn < 65536) && decide (k.srcNode < 65536)
    && decide (k.dstNode < 65536) && decide (k.srcConn < 65536) && decide (k.dstGen < 65536) && decide (k.psn < 2 ^ 32)
    && decide (k.msn < 2 ^ 32) && decide (k.idx < 2 ^ 22)

/-- R621: an input of the part. -/
def isInput (i : Nat) : Bool := decide (i ≤ 3 ∨ 8 ≤ i ∧ i ≤ 31 ∨ 32 ≤ i ∧ i ≤ 55)

/-- A command is well-formed: its operands name things the part has, within the widths the spec gives them. -/
def Instr.wf : Instr → Bool
  | .registerWrite _ t size value => t.wf && fits size value
  | .rwpPairWrite _ r cell value => isRwp r && regOf r cell && decide (value < 2 ^ 32)
  | .rwpComplementCheck r cell _ => rwpValue r && regOf r cell
  | .cellCtrlEnWrite _ cell _ => isCell cell
  | .quiesceComplete cell => isCell cell
  | .cellResetWrite _ cell => isCell cell
  | .cellResetComplete cell => isCell cell
  | .powerGateApply cell => isCell cell
  | .powerRestoreComplete cell => isCell cell
  | .errStatusClear _ cell _ _ => isCell cell
  | .primMapWrite _ _ _ value => decide (value < 2 ^ 32)
  | .prim _ _ _ | .primAccept | .primPreload | .primFirstMultiply | .primArrayEnd | .primReadyNotice | .primComplete
  | .primPause _ _ | .primQueueFlush _ | .smcTrainingComplete _ _ | .smcTempUpdate _ _ | .ringEnWrite _ _ _
  | .ringChangeTakeEffect _ | .prefetch | .headStaged | .writeBehindDrain _ | .move _ _ _ _ | .moverCopy _ | .moverSweep _
  | .moverFeed _ | .moverComplete _ => true
  | .feedPush _ entry => decide (entry < 65536)
  | .feedVolume _ entry => decide (entry < 65536)
  | .feedFlush _ entry => decide (entry < 65536)
  | .feedFlushCompletion _ entry _ => decide (entry < 65536)
  | .feedWait _ entry => decide (entry < 65536)
  | .movNoticeCountWrite _ _ _ | .movQueuePause _ _ _ | .movQueueFlush _ _ | .add _ _ _ _ _ | .sub _ _ _ _ _ | .adc _ _ _ _ _
  | .sbc _ _ _ _ _ | .cmp _ _ _ _ | .neg _ _ _ _ | .mul _ _ _ _ _ | .mulhu _ _ _ _ _ | .mulhs _ _ _ _ _ | .divu _ _ _ _ _
  | .divs _ _ _ _ _ | .remu _ _ _ _ _ | .rems _ _ _ _ _ | .sel _ _ _ _ _ | .and _ _ _ _ _ | .or _ _ _ _ _ | .xor _ _ _ _ _
  | .andn _ _ _ _ _ | .tst _ _ _ _ | .shl _ _ _ _ _ | .shr _ _ _ _ _ | .sar _ _ _ _ _ | .ror _ _ _ _ _ | .clz _ _ _ _
  | .ctz _ _ _ _ | .popc _ _ _ _ | .bswap _ _ _ _ | .sextb _ _ _ | .sexth _ _ _ | .sextw _ _ _ | .zextw _ _ _ | .addi _ _ _ _
  | .cmpi _ _ _ | .andi _ _ _ _ | .ori _ _ _ _ | .xori _ _ _ _ | .shli _ _ _ _ _ | .shri _ _ _ _ _ | .sari _ _ _ _ _
  | .movi _ _ _ | .lmovhi _ _ _ | .ldb _ _ _ _ | .ldbs _ _ _ _ | .ldh _ _ _ _ | .ldhs _ _ _ _ | .ldw _ _ _ _ | .ldws _ _ _ _
  | .ldd _ _ _ _ | .stb _ _ _ _ | .sth _ _ _ _ | .stw _ _ _ _ | .std _ _ _ _ | .swap _ _ _ _ _ | .cas _ _ _ _ _
  | .fadd _ _ _ _ _ | .fand _ _ _ _ _ | .for_ _ _ _ _ _ | .fxor _ _ _ _ _ | .fmaxu _ _ _ _ _ | .fminu _ _ _ _ _
  | .fmaxs _ _ _ _ _ | .fmins _ _ _ _ _ | .bcc _ _ _ | .call _ _ | .br _ _ | .callr _ _ | .ret _ | .push _ _ | .pop _ _
  | .pushm _ _ _ | .popm _ _ _ | .addds _ _ | .getds _ _ _ | .crr _ _ _ | .crw _ _ _ | .crs _ _ _ | .crc _ _ _ | .nop _
  | .fence _ | .ifence _ | .xret _ | .brk _ | .rsfl _ _ | .sys _ _ | .setb _ _ | .clrb _ _ | .cplb _ _ | .tstb _ _ | .getb _ _ _
  | .putb _ _ _ | .movb _ _ _ | .bopb _ _ _ _ _ | .waitb _ _ _ | .waitbWake _ | .bb _ _ _ | .phaser _ _ | .phase _ _ | .time _ _
  | .vxor _ _ _ _ | .vshuf _ _ _ _ | .vinc32 _ _ _ | .vinc64 _ _ _ | .vinc128 _ _ _ | .vinc128l _ _ _ | .vmovg _ _ _ _
  | .vgetg _ _ _ _ | .fblk _ _ _ _ | .fblkInv _ _ _ _ | .fgmul _ _ _ _ | .fgmulX _ _ _ _ | .vld _ _ _ _ | .vst _ _ _ _
  | .interruptTake _ | .tcmpTimer _ | .guiderCoreStart _ | .attnRaise _ _ _ => true
  | .localApertureAccess _ core _ off size value => !core.isFilter && inAperture off size value
  | .dispatchDeliver _ | .gclPost _ _ _ | .clusterPause _ _ _ | .clusterFlush _ _ | .dbgHalt _ _ _ | .dbgStep _ _
  | .dbgRegDataAccess _ _ _ _ | .colOpen _ | .colClose _ _ | .colAbort _ _ | .colReset _ _ | .colMemberFail _ _ => true
  | .collectiveRunArrive run => run.wf
  | .bindingWrite _ addr bytes _ => busWrite addr bytes.length
  | .bindingRegWrite _ _ _ _ | .egressRunSend _ => true
  | .chunkComplete _ chunk _ => decide (chunk < 2 ^ 32)
  | .programItemRepost _ | .roundTimeout _ | .connEnWrite _ _ _ | .connectRetry _ | .connectTimeout _ | .disconnectRetry _
  | .drainTimeout _ => true
  | .transitConnect k => k.wf 10
  | .transitConnectReply k => k.wf 11
  | .transitDisconnect k => k.wf 12
  | .transitDisconnectReply k => k.wf 13
  | .transitWrite k => k.wf 1
  | .transitReadReq k => k.wf 2
  | .transitReadResp k => k.wf 3
  | .transitAtomic k => k.wf 4
  | .transitAtomicResp k => k.wf 5
  | .transitCollective k => k.wf 6
  | .transitAck k => k.wf 8
  | .transitNak k => k.wf 9
  | .lossyRetransmitTimer _ _ psn => decide (psn < 2 ^ 32)
  | .pathTimer _ _ | .ackTimer _ _ | .creditReturnTimer _ _ | .creditAckTimer _ | .trnSqTailWrite _ _ _ | .doorbellPoll _
  | .sqWrite _ | .sqRead _ | .sqAtomic _ | .cqEntryPost _ | .trnCqEnable _ _ | .regionValidate _ _ | .regionRevoke _ _
  | .revokeComplete _ => true
  | .frameReceive _ _ bytes _ => decide (bytes.length < 65536)
  | .flowAgeOut _ | .ethLinkChange _ _ _ | .pfcReceive _ _ _ _ | .pfcRefresh _ _ _ | .pfcXonSend _ _ _ | .loadBank _ _ _
  | .swapBank _ _ | .loadPatterns _ _ | .swapPatterns _ | .loadSanctum _ _ | .spgCmdComplete | .rxqEnable _ _
  | .rxqTailWrite _ _ _ | .heldFrameAdmit | .shutterSelect _ | .bucketRefill _ | .txRingEntry _ | .txrEnable _ _
  | .txrTailWrite _ _ _ | .catSqTailWrite _ _ _ | .catEntryTake _ => true
  | .catRead q slot => decide (q ≤ 4160) && decide (slot < 65536)
  | .catWrite q slot => decide (q ≤ 4160) && decide (slot < 65536)
  | .catFlush q slot => decide (q ≤ 4160) && decide (slot < 65536)
  | .catDeallocate q slot => decide (q ≤ 4160) && decide (slot < 65536)
  | .backendWriteback _ | .backendWriteFail _ _ _ => true
  | .backendTimeout _ id => decide (id < 65536)
  | .nvmeCqPoll _ | .programBackendResponse _ => true
  | .remoteBackendCompletion _ entry => entry.length == 8
  | .catQueueEnWrite _ _ _ | .catQueueReset _ _ | .catQueueResetComplete _ | .pcieLinkChange _ _ _ _ _
  | .upstreamFundamentalReset _ => true
  | .pfDoorbellWrite _ off _ => decide (off < 2 ^ 27) && off % 4 == 0
  | .bar4Write _ off bytes _ => decide (0 < bytes.length) && decide (off + bytes.length ≤ 2 ^ 36)
  | .irqRaise _ _ | .msixSend _ => true
  | .completionTimeout _ tag => decide (tag < 65536)
  | .tagQuarantineEnd _ tag => decide (tag < 65536)
  | .pcieCompletionReceive _ tag status _ _ => decide (tag < 65536) && decide (status < 8)
  | .atsInvalidation _ _ addr size => decide (12 ≤ size ∧ size ≤ 64) && decide (addr < 2 ^ 64)
  | .bmeClear _ _ | .bmeSet _ _ | .flrStart _ _ | .flrComplete _ _ => true
  | .inboundRequest _ r => r.wf
  | .dpCfgDataAccess _ _ _ _ _ _ | .dpcTrigger _ _ | .dpcRelease _ _ | .presenceChange _ _ | .vfShutdown _ _ _
  | .vfShutdownComplete _ _ | .vfEnable _ _ _ => true
  | .vfDoorbellWrite _ _ _ off bytes _ => decide (0 < bytes.length) && decide (off.toNat + bytes.length ≤ 4096)
  | .dirtySwap _ _ _ | .dirtySwapComplete _ _ | .dirtyLogEnWrite _ _ _ _ | .fltTailWrite _ _ _ | .fltQueueEnable _ _
  | .filterDescStart | .filterDescComplete _ | .filterStallTimeout _ | .loadPlain _ _ _ _ _ _ _ | .loadWrapped _ _ _ _ _ _ _
  | .erase _ _ | .keyEraseComplete _ | .secureBoot _ | .verify _ | .recoveryBoot _ | .svnCommit _ | .revokeKey _
  | .debugUnlock _ | .rotCmdDone | .flashRead _ _ _ | .flashErase _ _ | .flashProgram _ _ _ | .flashCmdDone _
  | .ephCmdqTailWrite _ _ | .boundary | .rollback | .restore | .endEpoch | .ephDrain | .ephDestCommit _ | .ephDrainEnd
  | .ephWarnSample | .flipArm _ _ _ | .sourceStable _ | .sourceFail _ | .safeRelease _ | .tbStep _ _ | .txtsTimeRead _ _ => true
  | .inputChange i _ => isInput i
  | .inputStuck i => isInput i
  | .warmReset _ | .warmResetReq _ | .powerOnResetEnd | .bootCellsEnable | .dpPerstRelease _ | .helTick _ | .helWindow
  | .thermalSample _ | .helDerate _ _ _ | .watchdogExpiry _ | .wdtKick _ _ | .domeCoreStart _ | .hostHeartbeat _ _
  | .heartbeatExpiry _ | .attach _ _ | .exposureEnable _ _ | .exposureTick | .inputPowerUp | .pwrEnAssert | .pwrEnDeassert
  | .powerLoss | .thermalShutdown | .pfcPauseExpiry _ _ _ | .flowMeterRefill _ _ => true
  | .mctpRequest _ addr _ => decide (addr < 128)
  | .standbyRailLoss => true
  | .pcieLinkError _ _ header => decide (header.length ≤ 4)
  | .undefinedEncoding _ _ | .instructionFetchFault _ => true

/-- The instruction is well-formed. -/
abbrev Instr.WellFormed (i : Instr) : Prop := i.wf = true

end Sys2Proof
end

