-- ==== Sys2Proof/Tests/Slice0.lean ====
section
/-! SUPPORT. Tests of the model on small states: what the well-formedness of a command refuses, examples of the spec, and for every statement
with hypotheses a state and operands that meet them together. -/

namespace Sys2Proof.Tests

set_option Elab.async false

open Sys2Proof Sys2Proof.Machine

/-! ## States -/

/-- The reset state with some cells' EN set, and the device cell's. -/
def up (l : List Nat) : State := l.foldl (fun s c => s.setFlag F.CELL_CTRL_EN c true) State.reset

/-- A state in which a core runs with its registers as given, by number. -/
def runs (c : CoreRef) (regs : List (Fin 32 × Word)) (s : State) : State :=
  s.setCore c { regs.foldl (fun k p => k.set p.1 p.2) (s.core c) with running := true }

/-- A state in which a control register of a core holds a value. -/
def crs (c : CoreRef) (n : Nat) (v : Word) (s : State) : State := s.mapCore c fun k => k.crPut c n v

def guider0 : CoreRef := .guider 0
def dome1 : CoreRef := .dome 1
def filter0 : CoreRef := .filter 0

/-- Guider core 0 runs in G mode, r1 its local window, r2 an odd address, r3 100. -/
def gState : State := runs guider0 [(1, BitVec.ofNat 64 localWindow), (2, BitVec.ofNat 64 (localWindow + 1)), (3, 100)] State.reset
/-- The same with the line at r1 poisoned. -/
def gPoison : State := { gState with lineErr := [(localBase guider0.cell, { marked := true } :: List.replicate 7 {})] }
/-- Guider core 0 in U mode. -/
def uState : State := crs guider0 0 0 gState
/-- Dome core 1 runs. -/
def dState : State := runs dome1 [(1, BitVec.ofNat 64 localWindow)] State.reset
/-- The sequencer of Filter unit 0 runs. -/
def fState : State := runs filter0 [(1, BitVec.ofNat 64 localWindow)] State.reset

/-! ## Witnesses: the cores -/

theorem ready_g : gState.Ready guider0 := by constructor <;> decide
theorem ready_poison : gPoison.Ready guider0 := by constructor <;> decide
theorem ready_u : uState.Ready guider0 := by constructor <;> decide
theorem ready_d : dState.Ready dome1 := by constructor <;> decide
theorem ready_f : fState.Ready filter0 := by constructor <;> decide

theorem witness_named : Named guider0 [1, 2, 31] ∧ Named filter0 [1, 15] := by delta Named; decide +kernel

/-- The address of the memory behind the window of a core. -/
def loc0 : Nat := localBase guider0.cell

theorem reaches_g (w : Bool) : gState.Reaches guider0 localWindow 8 w loc0 := by cases w <;> (delta State.Reaches; decide +kernel)
theorem reaches_poison : gPoison.Reaches guider0 localWindow 8 false loc0 := by delta State.Reaches; decide +kernel

/-- An interrupt pends for guider core 0: ATTN; with IE, the timer; with IE, a watched bit. -/
def attnState : State := crs guider0 0 5 (gState.setFlag F.GDR_ATTN_PENDING guider0.cell true)
def timerState : State := crs guider0 0x40 0 (crs guider0 0x41 1 (crs guider0 0 9 gState))
def watchState : State := (crs guider0 0x48 (BitVec.ofNat 64 (3 + 3 * 2 ^ 32)) (crs guider0 0 9 gState)).putBit (privateKey guider0.cell 3) true
/-- A data stack of two slots in the local window, a word below its top. -/
def stackState : State :=
  crs guider0 0x2A (BitVec.ofNat 64 (localWindow + 16))
    (crs guider0 0x29 (BitVec.ofNat 64 localWindow) (crs guider0 0x28 (BitVec.ofNat 64 (localWindow + 8)) gState))
/-- The core asleep in WAITB on bit 3. -/
def sleepState (left : Bool) : State :=
  gState.mapCore guider0 fun k => { k with asleep := some { bit := privateKey guider0.cell 3, value := false, left := left, len := 4 } }

theorem witness_IntegerArithmeticGivesResultAndFlags : gState.Ready guider0 ∧ Named guider0 [1, 2, 31] := ⟨ready_g, witness_named.1⟩
theorem witness_LogicShiftsAndImmediatesGiveResult : fState.Ready filter0 ∧ Named filter0 [1, 15] := ⟨ready_f, witness_named.2⟩
theorem witness_LoadsReadMemory :
    ((gState.core guider0).get 1 + (Imm.short 0).ext).toNat = localWindow ∧ (gState.readLine (lineOf loc0) false).poison = false ∧
    gState.lineErrOf (lineOf loc0) = LineErr.clean ∧ (gPoison.readLine (lineOf loc0) false).poison = true ∧
    ((gState.core guider0).get 2 + (Imm.long 0).ext).toNat % 2 ≠ 0 := by decide +kernel
theorem witness_StoresWriteMemory : gState.PlainLine loc0 := ⟨by decide, by decide, rfl⟩
theorem witness_AtomicsReadModifyWrite :
    ((gState.core guider0).get 1).toNat % 8 = 0 ∧ (0x020000000000 : Nat) % 8 = 0 ∧ (0x02FFFFFFFFF8 : Nat) ≤ 0x02FFFFFFFFFF := by decide +kernel
theorem witness_DataStackPushesAndPops :
    let k := stackState.core guider0
    (k.ds guider0).toNat % 8 = 0 ∧ k.dslo guider0 ≤ k.ds guider0 - 8 ∧ k.ds guider0 + 8 ≤ k.dshi guider0 ∧
    k.dslo guider0 ≤ k.ds guider0 + BitVec.signExtend 64 (8 : BitVec 14) ∧ k.ds guider0 + BitVec.signExtend 64 (8 : BitVec 14) ≤ k.dshi guider0 ∧
    ¬ k.dslo guider0 ≤ k.ds guider0 - 16 ∧ ¬ k.ds guider0 + 16 ≤ k.dshi guider0 := by decide +kernel
theorem reaches_stack (w : Bool) : stackState.Reaches guider0 localWindow 8 w loc0 ∧ stackState.Reaches guider0 (localWindow + 8) 8 w (loc0 + 8) := by
  cases w <;> (constructor <;> (delta State.Reaches; decide +kernel))
theorem witness_BranchesCallsAndReturnStack :
    let k := gState.core guider0
    k.Meets .cc ∧ ¬ k.Meets .cs ∧ (k.pc + (BrOff.short 4).bytes).toNat % 4 = 0 ∧ (k.get 3).toNat % 4 = 0 ∧
    (k.rsOf guider0 (k.mode guider0)).length < k.rsCap guider0 (k.mode guider0) ∧ k.rsOf guider0 1 = [] := by
  refine ⟨rfl, fun h => Bool.noConfusion h, ?_⟩; decide +kernel
theorem witness_XretRestoresPcFlagsAndMode :
    (gState.core guider0).mode guider0 ≠ modeU ∧ ((gState.core guider0).crGet guider0 0x12).toNat % 4 ≤ 1 ∧
    ((gState.core guider0).crGet guider0 0x10).toNat % 4 = 0 ∧ (uState.core guider0).mode guider0 = modeU ∧
    (dState.core dome1).mode dome1 = 2 ∧ ((dState.core dome1).crGet dome1 0x12).toNat % 4 ≠ 2 := by decide +kernel
theorem witness_InterruptsAreTakenInOrder :
    attnState.takeable guider0 = some 0x25 ∧ timerState.takeable guider0 = some 0x20 ∧ watchState.takeable guider0 = some 0x21 ∧
    gState.takeable guider0 = none ∧ gState.stopped = false ∧ gState.halted guider0 = false := by decide +kernel
theorem witness_ControlRegisterAccess :
    crExists guider0 0x48 = true ∧ crExists guider0 2 = true ∧ crExists dome1 2 = false ∧ (gState.core guider0).rsLow = [] ∧
    (gState.core guider0).rsG = [] ∧ (uState.core guider0).mode guider0 = modeU ∧
    gState.bitPlace guider0 0x10000 = none ∧ (gState.bitPlace guider0 3).isSome = true := by decide +kernel
theorem witness_BitsLieAndChangeAsTheMapSays :
    (gState.bitRead guider0 0xFFFF).isSome = true ∧ (gState.bitWrite guider0 0xFFFF true).isSome = true ∧ gState.bitRead guider0 0x10000 = none ∧
    (uState.bitWrite guider0 0x7FFF true).isSome = true ∧ uState.bitWrite guider0 0x8000 true = none ∧
    (gState.levelBit 0x40010000).isSome = true ∧ (gState.bitWrite guider0 0x210FFFFF true).isSome = true ∧
    gState.bitRead guider0 0x21100000 = none := by decide +kernel
theorem witness_BitTestsAndWaits :
    gState.bitRead guider0 3 = some false ∧ gState.bitPlace guider0 3 = some (.stored (privateKey guider0.cell 3)) ∧
    (sleepState true).takeable guider0 = none ∧ ((sleepState false).core guider0).asleep.isSome = true ∧
    (sleepState false).keyValue (privateKey guider0.cell 3) = false := by decide +kernel
theorem witness_TimeAndPhase :
    (gState.core guider0).mode guider0 ≠ modeU ∧ ¬ ((gState.core guider0).get 3).toNat ≤ 63 ∧ ((gState.core guider0).get 4).toNat ≤ 63 ∧
    ((uState.core guider0).crGet guider0 1).getLsbD 2 = false := by decide +kernel
theorem witness_VectorInstructionsAndMemory : fState.Reaches filter0 localWindow 16 true (localBase filter0.cell) ∧
    (fState.readLine (lineOf (localBase filter0.cell)) false).poison = false ∧ (localWindow + 0x4000) % 16 = 0 := by
  refine ⟨?_, by decide⟩; delta State.Reaches; decide +kernel


/-! ## Witnesses: registers and cells -/

def fw : Agent := .firmware 0

/-- The writes of registers that the statements name, each as a Dome core may send it right after reset. -/
def writes : List (RegId × Nat × Nat × Nat) :=
  [(.CELL_CTRL, chrCell, 0, 1), (.CELL_RESET, qnwCell, 0, 1), (.CELL_ERR_STATUS, qnwCell, 0, 3), (.PRIM_MAP, quarterCell 3, 0, 0x1010),
   (.PRIM_MAP_C, quarterCell 0, 0, 0xF0F), (.PRIM_QUEUE_CTRL, qnwPrim, 0, 3), (.MOV_QUEUE_CTRL, moverCell 63, 0, 3),
   (.MOV_NOTICE_COUNT, moverCell 0, 0, 0xFFFFFFFF), (.GCL_QUEUE_CTRL, clusterCell 15, 0, 3), (.PLT_RING_CTRL, platesCell 3, 0, 1),
   (.HEL_CAP_W, helCell, 0, 2000), (.HEL_PEAK_C, helCell, 0, 0), (.CHR_TB_RATE, chrCell, 0, 1),
   (.GCL_POST, clusterCell 0, 0, 64), (.GDR_ATTN, guiderCell 127, 0, 0xFFFF0001), (.COL_CMD, colCell, 0, 1),
   (.COL_BINDb_CTRL, colCell, 0, 1), (.TRN_CONNc_CTRL, trnCell, 65535, 1), (.TRN_CQq_CFG, trnCell, 0, 1), (.TRN_SQq_PTR, trnCell, 0, 1),
   (.TRN_REGION_CMD, trnCell, 0, 1), (.SPG_CMD, spgCell, 0, 1), (.SPG_RXQq_CFG, spgCell, 0, 1), (.SPG_RXQq_PTR, spgCell, 0, 1),
   (.SHT_TXRr_CFG, shtCell, 0, 1), (.SHT_TXRr_PTR, shtCell, 0, 1), (.CAT_Qq_CTRL, catCell, 4095, 1), (.CAT_Qq_PTR, catCell, 0, 1),
   (.PCI_IRQ_RAISE, pciCell, 0, 1), (.PCI_VFv_CTRL, upCell 1, 255, 1), (.PCI_VFv_DIRTY_CTRL, upCell 0, 0, 1), (.FLT_Qq_CFG, fltCell, 0, 1),
   (.FLT_Qq_PTR, fltCell, 0, 1), (.KEY_CMD, keyCell, 0, 1), (.ROT_CMD, rotCell, 0, 1), (.ROT_FLASH_CMD, rotCell, 0, 1),
   (.EPH_CMDQ_PTR, ephCell, 0, 1), (.CHR_TB_STEP, chrCell, 0, 1), (.CHR_SAFE_CTRL, chrCell, 0, 1), (.CHR_RESET_REQ, chrCell, 0, 1),
   (.HEL_DERATE, helCell, 0, 1), (.DOM_COREn_WDT_KICK, domeSub, 7, 1), (.DOM_HOST_ATTACH, domeSub, 1, 1), (.PHOT_EXP_CTRL, 0, 0, 1)]

theorem witness_writable : ∀ w ∈ writes, State.reset.Writable fw w.1 w.2.1 w.2.2.1 w.2.2.2 ∧ hasReg w.1 w.2.1 = true := by
  delta State.Writable; decide +kernel

/-- PF0 of port 0 answers its host, its link trained. -/
def hostState : State :=
  let s := ((up [pciCell, upCell 0]).setFlag F.PCI_FNf_STATUS_EXISTS (upCell 0) true 0).setCfg 0 0 0x04 6
  s.setPci { s.pci with retrain := [], retry := [] }
theorem witness_hostWritable : hostState.Writable (.host 0) .DOM_HOST_HEARTBEAT domeSub 0 5 := by delta State.Writable; decide +kernel

/-- A register access for each fate: its own register, another size, no cell, unmapped, reserved. -/
theorem witness_RegisterWriteFollowsFieldTypes :
    regHit (regAddr .DOM_HOST_HB_CFG domeSub 1) 4 = .register domeSub .DOM_HOST_HB_CFG 1 ∧ RegId.DOM_HOST_HB_CFG ∉ actingRegs ∧
    regHit (regAddr .CELL_CTRL 0 0 + 2) 2 = .misused 0 ∧ regHit 0x02000FFFF000 8 = .noCell ∧ regHit 0x02FFFFFFFFF8 8 = .unmapped ∧
    regHit (ccbBase 0 + 0xFF8) 8 = .reserved := by
  decide +kernel

def rwpPeak : RwpField := ⟨F.HEL_PEAK_PEAK_W, F.HEL_PEAK_C_PEAK_W_C, F.HEL_PEAK_PEAK_W_IN_FORCE, 500, 3300, 500⟩
theorem witness_RwpPairsAgreeOrFailSafe :
    rwpPeak ∈ rwpFields ∧ hasReg rwpPeak.value.reg helCell = true ∧ hasReg rwpPeak.comp.reg helCell = true ∧ State.reset.stopped = false ∧
    State.reset.flag F.CELL_ERR_STATUS_VALID helCell = false ∧ State.reset.resetting (quarterCell 3) = false := by decide +kernel

/-- The Primary and one mover enabled under their quarter; the mover then quiesces. -/
def moverUp : State := up [qnwCell, qnwPrim, cellParent (moverCell 0), moverCell 0]
def quiesceState : State := (moverUp.setFlag F.CELL_CTRL_EN (moverCell 0) false).setFlag F.CELL_STATE_QUIESCE_BUSY (moverCell 0) true
def resetState : State := moverUp.setFlag F.CELL_STATE_RESETTING qnwCell true
theorem witness_CellsEnableQuiesceAndReset :
    moverUp.cellState (moverCell 0) = 3 ∧ noEnable (moverCell 0) = false ∧ moverUp.fencedCell (moverCell 0) = false ∧
    quiesceState.flag F.CELL_STATE_QUIESCE_BUSY (moverCell 0) = true ∧ quiesceState.unitIdle (moverCell 0) = true ∧
    quiesceState.cellState (moverCell 0) = 1 ∧ resetIgnored qnwCell = false ∧ resetIgnored 0 = true ∧ State.reset.Writable fw .CELL_RESET 0 0 1 ∧
    resetState.resetting qnwCell = true ∧ resetState.chr.warm = false ∧ resetState.resetting (cellParent qnwCell) = false := by
  delta State.Writable; decide +kernel
theorem witness_ErrorRecordKeepsTheFirst :
    (cellKind qnwCell).isSome = true ∧ State.reset.flag F.CELL_ERR_STATUS_VALID qnwCell = false ∧
    (State.reset.recordError qnwCell 0xFF (2 ^ 48 - 1) (2 ^ 32 - 1)).flag F.CELL_ERR_STATUS_VALID qnwCell = true := by decide +kernel

def smcUp : State := up [cellParent (smcCell 0), smcCell 0]
theorem witness_GatingAndStackTraining :
    State.reset.cellState (moverCell 0) = 0 ∧ State.reset.resetting (moverCell 0) = false ∧ moverUp.flag F.CELL_CTRL_EN (moverCell 0) = true ∧
    smcUp.flag F.CELL_CTRL_EN (smcCell 0) = true ∧ smcUp.flag F.SMC_STATUS_TRAINED (smcCell 0) = false ∧ smcUp.faulted (smcCell 0) = false ∧
    smcUp.fld F.CELL_POWER_PSTATE (smcCell 0) = 0 ∧ smcUp.enabled (cellParent (smcCell 0)) = true ∧
    (smcUp.setFlag F.SMC_STATUS_TRAINED (smcCell 0) true).flag F.SMC_STATUS_TRAINED (smcCell 0) = true := by decide +kernel

/-- A cluster with core 0 enabled and one item of program 0. -/
def item : WorkItem := List.replicate 16 0
def clusterState : State :=
  let s := up [cellParent (clusterCell 0), clusterCell 0, guiderCell 0]
  let s := (s.setFld F.GCL_DISPATCH_EN_CORE_EN (clusterCell 0) 1).setFlag F.GCL_PROGp_VALID (clusterCell 0) true 0
  { s with clusters := [(0, [item])] }
theorem witness_ClustersDispatchWorkItems :
    clusterState.clusterQueue 0 = [item] ∧ clusterState.enabled (clusterCell 0) = true ∧
    clusterState.flag F.GCL_QUEUE_CTRL_PAUSE (clusterCell 0) = false ∧ clusterState.dispatchTarget 0 item = some 0 ∧
    clusterState.epoch.retained = false ∧ clusterState.epoch.broken = [] ∧ State.reset.clusterQueue 0 = [] ∧
    clusterState.flag F.GCL_PROGp_VALID (clusterCell 0) 0 = true ∧ clusterState.fld F.GCL_PROGp_STEER (clusterCell 0) 0 ≠ 3 := by decide +kernel
theorem witness_targets : clusterState.Targets 0 item 0 := by
  have one : ∀ m < 8, m ∈ (List.range 8).filter (fun n => bitsOf (clusterState.fld F.GCL_DISPATCH_EN_CORE_EN (clusterCell 0)) n n == 1) →
      m = 0 := by decide +kernel
  refine ⟨⟨by decide +kernel, fun m hm _ => ?_⟩, ⟨by decide +kernel, by decide +kernel⟩, by decide +kernel⟩
  have : m = 0 := one m (List.mem_range.mp (List.mem_of_mem_filter hm)) hm
  subst this
  exact ⟨le_rfl, fun _ => le_rfl⟩

/-- Debug opened; core 0 halted, or its cell enabled and not started. -/
def openState (s : State) (policy : Nat := 0) : State :=
  let a := regAddr .ROT_STATUS rotCell 0
  let v := BitVec.ofNat 64 (putBits 0 F.ROT_STATUS_DEBUG_POLICY.hi F.ROT_STATUS_DEBUG_POLICY.lo policy)
  { s with regs := s.regs.filter (fun p => decide (p.1 < a)) ++ (a, v) :: s.regs.filter (fun p => decide (a < p.1)) }
def haltedState : State := (openState gState).setFlag F.GDR_DBG_STATUS_HALTED guider0.cell true
def guiderUp : State := up [cellParent (clusterCell 0), clusterCell 0]
theorem witness_DebugAndCoreStart :
    (openState gState).Writable fw .GDR_DBG_CTRL guider0.cell 0 1 ∧ (gState.core guider0).running = true ∧ gState.halted guider0 = false ∧
    (State.reset.core guider0).running = false ∧ haltedState.halted guider0 = true ∧
    haltedState.Writable fw .GDR_DBG_REG_DATA guider0.cell 0 1 ∧ haltedState.debugOpen = true ∧
    (openState gState 2).debugOpen = false ∧
    State.reset.cellState guider0.cell = 0 ∧ guiderUp.Writable fw .CELL_CTRL guider0.cell 0 1 ∧
    guiderUp.cellState guider0.cell ≠ 3 ∧ guiderUp.resetting guider0.cell = false ∧ guiderUp.cellState (cellParent guider0.cell) = 3 ∧
    clusterState.enabled guider0.cell = true ∧ (clusterState.core guider0).running = false ∧
    ((timerState.core guider0).crGet guider0 0x41).getLsbD 0 = true ∧ timerState.timerPending guider0 = true := by
  delta State.Writable; and_intros <;> decide +kernel
theorem witness_ExceptionsAreTaken :
    ((crs guider0 0 5 gState).core guider0).xe guider0 = true ∧ ((crs guider0 0 1 gState).core guider0).xe guider0 = false ∧
    gState.flag F.CELL_ERR_STATUS_VALID guider0.cell = false ∧ gState.faulted guider0.cell = false ∧
    definedWord guider0 0 = false ∧ definedWord guider0 0x40 = false ∧ definedWord guider0 1 = true ∧ placeOf guider0 0x0300000000000000 = none ∧
    (∃ d, d = 0x02FFFFFFFFFC ∧ placeOf guider0 d = some (.reg d)) := by
  refine ⟨?_, ?_, ?_, ?_, ?_, ?_, ?_, ?_, _, rfl, ?_⟩ <;> decide +kernel

/-! ## Witnesses: the Primary, the movers, the Collector. (`canAccept` holds only where 1,024 segments are ENABLED, and which of them are
defective is a fuse, so no closed state decides it.) -/

/-- n words, some of them given. -/
def words (n : Nat) (l : List (Nat × Nat)) : List Word32 := l.foldl (fun ws p => ws.set p.1 (BitVec.ofNat 32 p.2)) (List.replicate n 0)

def dark : PrimDesc := { ticket := 1, words := words 48 [(0, 0x14), (1, 0xFFFFFFFF), (6, 1)], issuer := guider0, phase := 63 }
def bad : PrimDesc := { dark with words := words 48 [(0, 4)] }
def matmul : PrimDesc := { dark with words := words 48 [(0, 0x11), (1, 0xFFFFFFFF)] }
def darkOp : PrimOp := { desc := dark, acceptTime := 0, occupies := true }
def convertOp : PrimOp := { desc := { dark with words := words 48 [(0, 0x13)] }, acceptTime := 0, occupies := true }
def primState (q : List PrimDesc) (op : Option PrimOp) : State := State.reset.setPrim { State.reset.prim with queue := q, op := op }
def darkDone : PrimDone := { desc := dark, acceptTime := 0, status := 0 }
def doneState : State := State.reset.setPrim { State.reset.prim with done := [darkDone] }
def wbState : State := smcUp.setPrim { State.reset.prim with wb := [⟨1, ⟨0x012000000000, List.replicate 64 1, false, 0, 2, 0⟩⟩] }

theorem witness_PrimAndMoveQueueDescriptors :
    gState.May guider0 0 ∧ ¬ uState.May guider0 1 ∧ (gState.readImage guider0 localWindow 3).2.prim.queue.length < 64 ∧
    (gState.readImage guider0 localWindow 1).2.resetting qnwPrim = false ∧ ((gState.core guider0).get 0).toNat < 64 ∧
    64 ≤ ((gState.core guider0).get 3).toNat := by
  delta State.May; decide +kernel
theorem witness_image : (gState.readImage guider0 localWindow 3).1 = .ok (words 48 []) := rfl
theorem witness_PrimaryTakesItsHeadDescriptor :
    let s := primState [dark] none
    s.prim.queue = [dark] ∧ dark.actUsed = false ∧ (s.primChecks dark).1 = 0 ∧ (dark.lateChecks []).1 = 0 ∧
    (s.primChecks bad).1 = 1 ∧ (primState [matmul] (some darkOp)).canAccept = false ∧ (primState [matmul] (some darkOp)).primBusy = true ∧
    matmul.isMatmul = true ∧ darkOp.checking = false := by
  and_intros <;> decide +kernel
theorem witness_QueueAndRingControls :
    State.reset.prim.queue = [] ∧ State.reset.primBusy = false ∧ State.reset.prim.wb = [] ∧
    (State.reset.setFlag F.PLT_RING_CTRL_RING_EN (platesCell 3) false).flag F.PLT_RING_CTRL_RING_EN (platesCell 3) ≠
      (State.reset.setFlag F.PLT_RING_CTRL_RING_EN (platesCell 3) false).flag F.PLT_RING_CTRL_EN_IN_FORCE (platesCell 3) ∧
    (primState [dark] none).prim.queue ≠ [] := by decide +kernel
theorem witness_PrimaryOperationsEndAndComplete :
    (primState [] (some { darkOp with occupies := false })).prim.op = some { darkOp with occupies := false } ∧
    (primState [] (some darkOp)).primPathUp darkOp = true ∧ darkOp.desc.phase < 64 ∧ darkOp.desc.kind = 4 ∧
    1 ≤ convertOp.desc.kind ∧ convertOp.desc.kind ≤ 3 ∧ convertOp.desc.dest ≠ 2 ∧ convertOp.selfOverlap = false ∧
    (primState [] (some convertOp)).inputsHere convertOp = true ∧ doneState.nextDone = some darkDone ∧ doneState.doneReady darkDone = true ∧
    dark.cmplEn = false := by and_intros <;> decide +kernel
theorem witness_ArithmeticIsExactWhereTheSpecSaysSo :
    (0x3F800000 : Nat) / 2 ^ 23 % 256 ≠ 255 ∧ (0x00000001 : Nat) / 2 ^ 23 % 256 ≠ 255 ∧ (0x7F800000 : Nat) / 2 ^ 23 % 256 = 255 := by decide


/-- A COPY of one line, a SWEEP of it, a FEED of one entry in the memory of a stack. -/
def movDesc (op : Nat) : MovDesc :=
  { ticket := 1, words := words 16 [(0, op + 0x10), (1, 0xFFFFFFFF), (6, 64), (8, 64), (9, 1), (10, 64), (11, 64)], issuer := guider0, phase := 0 }
/-- A stack's memory is ENABLED, with an entry of each kind at its start; mover 0, and downstream port 0, are ENABLED. -/
def memUpState : State :=
  let s := (up [qnwCell, qnwPrim, cellParent (moverCell 0), moverCell 0, cellParent (smcCell 0), smcCell 0, pciCell, portCell 2]).setFlag
    F.SMC_STATUS_TRAINED (smcCell 0) true
  ((((s.setCfg 2 0 0x70 (2 ^ 29)).writeMem 32 (bytesOf (words 8 [(0, 1), (1, 64)])) false 2).writeMem 64
    (bytesOf (words 8 [(0, 2), (1, 64)])) false 2).writeMem 96 (bytesOf (words 8 [(0, 3)])) false 2).writeMem 128 (bytesOf (words 8 [(0, 4)])) false 2
def movState (d : MovDesc) : State := memUpState.setMover 0 { queue := [d] }
def feedRun (k : Nat) : MovRun := { desc := { movDesc 3 with words := (movDesc 3).words.set 4 (BitVec.ofNat 32 (32 * k)) }, startTime := 0 }
def feedState (k : Nat) : State := memUpState.setMover 0 { run := some (feedRun k) }
def endedState : State := memUpState.setMover 0 { run := some { desc := movDesc 1, startTime := 0, ended := true } }
def flushedState : State := memUpState.setMover 0 { flushed := [movDesc 1] }
theorem witness_MoversCopySweepAndFeed :
    (memUpState.setMover 0 { queue := [movDesc 1] }).MoverReady 0 (movDesc 1) [] ∧
    (∀ op ∈ [1, 2, 3], (movDesc op).op = op ∧ (movState (movDesc op)).movCheck (movDesc op) = 0) ∧
    (movState { movDesc 1 with words := (movDesc 1).words.set 6 1 }).movCheck { movDesc 1 with words := (movDesc 1).words.set 6 1 } = 7 ∧
    memUpState.memUp 0 64 = true ∧ memUpState.memUp 64 64 = true ∧ memUpState.lineErr = [] ∧ memUpState.epoch.retained = false ∧
    memUpState.epoch.broken = [] ∧ memUpState.dpUp 2 = true ∧ memUpState.dpUp 3 = false ∧ memUpState.cat.moverDone = [] ∧
    (feedState 4).noticeOk 0 0 = true ∧ (feedState 4).noticeOk 0 1 = false ∧ (endedState.mover 0).run.isSome = true ∧
    (flushedState.mover 0).flushed = [movDesc 1] := by
  delta State.MoverReady; and_intros <;> decide +kernel
theorem witness_feedEntries : ∀ k ∈ [1, 2, 3, 4], ∀ ws ∈ ((feedState k).readEntry 0 0).1, ws.2 = false ∧
    FeedEntry.kind { words := ws.1, status := .running } = k ∧
    (feedState k).entryCheck false { words := ws.1, status := .running } = 0 ∧
    (feedRun k).mayStart 0 { words := ws.1, status := .running } = true := by decide +kernel

/-! ## Witnesses: the Collector and Transit -/

/-- An open descriptor: REDUCE among two ranks, own rank 0, four elements, EXACT, out FP32; rank 1 is reached over connection 5. -/
def collWords : List Word32 :=
  words 32 [(0, 0x11), (1, 7), (2, 2), (3, 4), (4, 0), (5, 6), (6, 9), (7, 1), (16, 0)]
def collSlot : ColSlot := { words := collWords, members := [0, 5] }
def colUp : State := up [cellParent colCell, colCell, cellParent (smcCell 0), smcCell 0]
/-- It stands OPEN in slot 0 at step 9. -/
def openSlot (st : Nat) (c : ColSlot) : State :=
  ((((colUp.setColSlot 0 c).setFld F.COL_SLOTn_STATE_STATE colCell st 0).setFld F.COL_SLOTn_STATE_COLL_ID colCell 7 0)).setFld
    F.COL_SLOTn_STATE_STEP colCell 9 0
def collOpen : State := openSlot 1 collSlot
/-- An element of round 9 that one rank has contributed to, or that is delivered. -/
def collElem (p : ColPlace) : ColElem := { word := .exact {}, count := 0, place := p }
def collElems (p : ColPlace) : State := openSlot 1 (collSlot.setElem false 3 (collElem p))
def collDelivered : State :=
  openSlot 1 ([0, 1, 2, 3].foldl (fun (c : ColSlot) e => c.setElem false e (collElem .delivered)) { collSlot with timeoutMs := 1 })
def runIn : RunIn := { conn := some 5, result := false, fmt := 0, rank := 1, collId := 7, step := 9, offset := 3, elems := [(0x3F800000, false)] }
/-- The descriptor and its member table in memory. -/
def openImage : State :=
  (memUpState.setFlag F.CELL_CTRL_EN (cellParent colCell) true).setFlag F.CELL_CTRL_EN colCell true
def bindOn : State := (((colUp.setFlag F.COL_BINDb_CTRL_EN colCell true 0).setFld F.COL_BINDb_RANGE_LENGTH colCell 4 0))
theorem witness_CollectorCommandsAndBindings :
    openImage.fld F.COL_CMD_ARG_ARG colCell % 64 = 0 ∧ colUp.colCheck true collSlot = 0 ∧ colUp.colCheck true { collSlot with words := collWords.set 2 0 } = 3 ∧
    (collOpen.colCheck true collSlot) = 4 ∧ (match (openImage.colRead 0 2).1 with | .ok _ => true | .error _ => false) = true ∧
    colUp.colState 0 = 0 ∧ collOpen.colState 0 = 1 ∧ (openSlot 2 collSlot).colState 0 = 2 ∧
    bindOn.flag F.COL_BINDb_CTRL_EN colCell 0 = true ∧ colUp.flag F.COL_BINDb_CTRL_EN colCell 0 = false ∧
    writeFields .COL_BINDb_CTRL (bindOn.reg .COL_BINDb_CTRL colCell 0).toNat 0 / 2 = (bindOn.reg .COL_BINDb_CTRL colCell 0).toNat / 2 ∧
    4 < bitsOf 0x51 7 4 ∧ 2 % bindOn.bindBytes 0 ≠ 0 := by
  and_intros <;> decide +kernel
theorem witness_CollectorTakesRuns :
    collOpen.colDown = false ∧ collOpen.colFind 7 = some 0 ∧ State.reset.colFind 7 = none ∧ State.reset.colDown = true ∧
    collSlot.isLocal 1 = false ∧ runIn.conn = some (collSlot.conn 1) ∧ (1 : Nat) < collSlot.size ∧ collOpen.colStep 0 = 9 ∧
    (collElems .open).colFind 7 = some 0 ∧ (collElems .open).col.intake = [] ∧ collSlot.inL 3 = true ∧ collSlot.kind ≠ 3 ∧
    (((collElems .open).colSlot 0).elem false 3).isSome = true ∧ (collElems .open).roundDone 0 = false ∧ 0 + 1 ≠ collSlot.expected ∧
    (((collElems .delivered).colSlot 0).elem false 3).isSome = true ∧ collDelivered.chunkReady 0 0 false = true ∧
    collOpen.chunkReady 0 0 false = false ∧ collSlot.steer ≠ 1 ∧ collSlot.skew = 0 ∧ (collDelivered.colSlot 0).timeoutMs ≠ 0 ∧
    bindOn.bindAt 0 0 = some 0 ∧ bindOn.bindBytes 0 = 4 ∧ bindOn.fld F.COL_BINDb_RANGE_LENGTH colCell 0 * 4 = 16 := by
  and_intros <;> decide +kernel
/-- Downstream port 0 is up, with a collective window of 4 KiB at bus address 0 and the binding in it. -/
def windowOn : State :=
  let s := up [cellParent colCell, colCell, pciCell, portCell 2]
  let s := (s.setCfg 2 0 0x70 (2 ^ 29)).setFld F.PCI_DP_INWw_MAP_SIZE_LOG2 (downCell 0) 12 0
  let s := (s.setFlag F.PCI_DP_INWw_BUS_EN (downCell 0) true 0).setFlag F.PCI_DP_INWw_BUS_COLL (downCell 0) true 0
  (s.setFlag F.COL_BINDb_CTRL_EN colCell true 0).setFld F.COL_BINDb_RANGE_LENGTH colCell 4 0
theorem witness_bindingWrite :
    windowOn.dpUp 2 = true ∧ windowOn.pci.held = [] ∧ windowOn.inWindow 0 0 4 = some 0 ∧ windowOn.bindAt 0 0 = some 0 ∧
    windowOn.colHolds (windowOn.bindRun 0 0 [0, 0, 0, 0] false) false = false ∧ windowOn.inColWindow 0 0x2000 4 = false := by decide +kernel

/-- Connection 5 of Transit stands in PSTATE p, its entry valid: LOSSLESS or LOSSY, one path, two ports, 64 cells; packets are classified. -/
def trnUp : State := up [cellParent trnCell, trnCell, spgCell]
def connEntry (lossy : Bool) : List Word32 :=
  words 32 [(0, lossy.toNat), (2, 3), (14, 64 + 16 * 2 ^ 16)]
def connAt (p : Nat) (x : TrnConn) : State := (trnUp.setConn 5 x).setPstate 5 p
def conn5 : TrnConn := { entry := connEntry true, data := { rxLimit := 64, limit := 64 }, coll := {} }
def pkt (t : Nat) : TrnPkt :=
  { type := t, dstConn := 5, src := List.replicate 16 0, dst := List.replicate 16 0, ext := List.replicate 8 0, payload := List.replicate 64 0 }
/-- The command that brings a packet. -/
theorem pkt_rows : ∀ t ∈ [1, 2, 3, 4, 5, 6, 8, 9, 0xA, 0xB, 0xC, 0xD], ((pkt t).rows.map Prod.fst).contains t = true ∧ (pkt t).type = t := by decide
theorem pktOpen1 : (connAt psConnected conn5).PktOpen (pkt 1) where
  live := by decide +kernel
  classified := by decide +kernel
  version := rfl
  node := by decide +kernel
  named := by decide +kernel
  shape := by decide +kernel
  source := by decide +kernel
  addresses := by decide +kernel
  path := by decide +kernel
  up := by decide +kernel
  gen := by decide +kernel
theorem witness_pktOpen (t : Nat) : (connAt psConnected conn5).PktOpen (pkt t) :=
  have h := pktOpen1
  { live := h.live, classified := h.classified, version := rfl, node := h.node, named := h.named, shape := h.shape, source := h.source,
    addresses := h.addresses, path := h.path, up := h.up, gen := h.gen }
theorem witness_AcceptedPacketsTakeEffectOnce : (connAt psConnected conn5).PktTaken (pkt 1) where
  toPktOpen := pktOpen1
  fresh := by decide +kernel
  near := by decide +kernel
  fits := by decide +kernel
/-- Its completion queue 0 is enabled. -/
def cqUp : State := trnUp.setFlag F.TRN_CQq_CFG_EN trnCell true 0
theorem witness_ConnectionsOpenAndClose :
    cqUp.EntryMeets { entry := connEntry true } ∧ ¬ trnUp.EntryMeets { entry := connEntry true } ∧ trnUp.connPstate 0 = psIdle ∧
    trnUp.enabled trnCell = true ∧ (connAt psConnecting conn5).connPstate 5 = psConnecting ∧ (connAt psConnected conn5).connPstate 5 = psConnected ∧
    (connAt psDraining { conn5 with closing := true }).connPstate 5 = psDraining ∧ (connAt psDraining conn5).connEn 5 = false ∧
    (connAt psFailed conn5).connPstate 5 = psFailed := by
  refine ⟨⟨?_, ?_, ?_, ?_, ?_, ?_, ?_⟩, fun h => ?_, ?_⟩
  case refine_8 => exact absurd h.rcq (by decide +kernel)
  all_goals decide +kernel
theorem witness_PacketsMeetTheirChecks :
    (connAt psConnected conn5).classifying = true ∧ State.reset.classifying = false ∧ (pkt 1).version = 1 ∧
    (pkt 1).dstNode = trnUp.fld F.TRN_NODE_ADDR_ADDR trnCell ∧ trnUp.connPstate 5 = psIdle ∧ trnUp.connEn 5 = false ∧
    trnUp.flag F.TRN_SLOW_EN trnCell = false ∧ diff32 5 (conn5.path 0).base = 5 ∧ diff32 0xFFFFFFFF (conn5.path 0).base < 0 ∧
    (64 : Int) > 63 ∧ conn5.lossy = true ∧ ({ conn5 with entry := connEntry false } : TrnConn).lossy = false := by
  and_intros <;> decide +kernel

/-- The connection has one unacknowledged WRITE packet on path 0, sent by a send queue. -/
def conn5w : TrnConn :=
  { conn5 with paths := [(0, { next := 1, unacked := [{ type := 1, msn := 0 }], sinceAck := 1 })],
               ops := [{ origin := .sq 0 3 1 none, type := 1, msn := 0, notify := false, total := 1, sent := [(0, 0, 0)] }] }
theorem witness_AcknowledgementAndTimers :
    let s := connAt psConnected conn5w
    (s.conn 5).lossy = true ∧ ((s.conn 5).path 0).unacked.length = 1 ∧ ((s.conn 5).path 0).retries < s.fld F.TRN_TIMER_RETRY_LIMIT trnCell ∧
    (s.conn 5).data.changed = true ∧ 0 < ((s.conn 5).path 0).sinceAck ∧ (s.findOp 5 1 0).isSome = true ∧ (s.conn 5).out = [] ∧
    (connAt psDraining conn5w).connPstate 5 = psDraining ∧ ((connAt psConnected conn5).conn 5).path 0 = {} ∧
    (({} : TrnConn).data.changed = false) ∧ s.connEn 5 = false := by
  and_intros <;> decide +kernel

/-- Entry 0 of the region table is valid, or waits to be validated: 2 KiB at stack address 0x800, from address 0 on. -/
def regionEntry (st : Nat) : List Word32 := words 8 [(0, st + 4 * 15), (1, 0), (2, 0x800), (6, 2048)]
def regionState (st : Nat) : State :=
  (((memUpState.setFlag F.CELL_CTRL_EN (cellParent trnCell) true).setFlag F.CELL_CTRL_EN trnCell true).setFld
    F.TRN_REGION_TABLE_COUNT_LOG2 trnCell 3).writeMem 0 (bytesOf (regionEntry st)) false 2
theorem witness_regionOpen (st : Nat) (h : st < 3) : (regionState st).RegionOpen 0 where
  mapped := by revert st; decide +kernel
  free := by revert st; decide +kernel
  up := by revert st; decide +kernel
  clean := by revert st; decide +kernel
  whole := by revert st; decide +kernel
  noFlip := by revert st; decide +kernel
theorem witness_RegionsAreValidatedRevokedAndChecked :
    (regionState 0).regionAddr 0 = 0 ∧ (regionState 0).region0 0 % 4 = 0 ∧ (regionState 1).region0 0 % 4 = 1 ∧ (regionState 1).trn.revokes = [] ∧
    0 < 2 ^ min 20 ((regionState 0).fld F.TRN_REGION_TABLE_COUNT_LOG2 trnCell) ∧ touchesReserve 0 32 = false ∧
    extentOneQuad 0x800 2048 = true ∧ (regionState 1).memUp 0x800 64 = true ∧ (regionState 1).ringTouched 0x800 64 = none ∧
    extentMapped 0x800 64 = true ∧ touchesReserve 0x800 64 = false ∧
    (regionState 1).Writable fw .TRN_REGION_CMD trnCell 0 1 := by
  delta State.Writable; and_intros <;> decide +kernel
/-- Send queue 0 has one entry at stack address 0 for connection 5: a READ of 64 bytes. -/
def sqState (en : Bool) : State :=
  let s := ((((regionState 1).setFlag F.CELL_CTRL_EN spgCell true).setConn 5 conn5).setPstate 5 psConnected).writeMem 64
    (bytesOf (words 16 [(0, 2 + 16), (1, 5), (8, 63)])) false 2
  ((s.setFlag F.TRN_SQq_CFG_EN trnCell en 0).setFld F.TRN_SQq_CFG_SIZE_LOG2 trnCell 6 0).setReg .TRN_SQq_PTR trnCell (2 + 2 ^ 16) 0
def cqState : State :=
  let s := ((regionState 1).setFlag F.TRN_CQq_CFG_EN trnCell true 0).setFld F.TRN_CQq_CFG_SIZE_LOG2 trnCell 6 0
  s.setTrn { s.trn with cqs := [(0, [⟨List.replicate 8 0, true, none⟩])] }
theorem witness_TransitQueuesRunAndComplete :
    State.reset.Writable fw .TRN_SQq_PTR trnCell 0 (putBits (State.reset.reg .TRN_SQq_PTR trnCell 0).toNat 15 0 5) ∧
    State.reset.Writable fw .TRN_CQq_CFG trnCell 0 (putBits (State.reset.reg .TRN_CQq_CFG trnCell 0).toNat 0 0 1) ∧
    (sqState true).flag F.TRN_SQq_CFG_EN trnCell 0 = true ∧ (sqState false).flag F.TRN_SQq_CFG_EN trnCell 0 = false ∧
    (sqState true).fld F.TRN_SQq_PTR_HEAD trnCell 0 = 1 ∧ (sqState true).fld F.TRN_SQq_PTR_TAIL trnCell 0 = 2 ∧
    (sqState true).fld F.TRN_SQq_CFG_SIZE_LOG2 trnCell 0 = 6 ∧ (sqState true).tagFree = true ∧ (sqState true).enabled trnCell = true ∧
    (match ((sqState true).load 64 64 true).1 with
      | .ok bs p => !p && wfield (wordsOf 16 bs) 0 3 0 == 2 && wfield (wordsOf 16 bs) 1 15 0 == 5
      | _ => false) = true ∧
    (sqState true).connPstate 5 = psConnected ∧ conn5.pd = (sqState true).fld F.TRN_SQq_CFG_PD trnCell 0 ∧
    cqState.flag F.TRN_CQq_CFG_EN trnCell 0 = true ∧ cqState.fld F.TRN_CQq_CFG_SIZE_LOG2 trnCell 0 = 6 ∧
    smapGet (fun _ => []) cqState.trn.cqs 0 ≠ [] ∧ cqState.flag F.CAT_XCQ_EN catCell = false := by
  delta State.Writable; and_intros <;> decide +kernel
theorem witness_TransitHeadersReadBack : trnExtWords 1 = some 5 ∧ ({ pkt 1 with ext := List.replicate 5 0 } : TrnPkt).ext.length = 5 := by decide

/-! ## Witnesses: Ethernet, the Spectrograph, Shutter -/

/-- Ethernet port 0 has link, the Spectrograph and Shutter are enabled, and plain memory is at hand. -/
def netUp : State :=
  let s := up [cellParent trnCell, trnCell, spgCell, shtCell, cellParent (ethCell 0), ethCell 0, cellParent (smcCell 0), smcCell 0, catCell]
  ((s.setFlag F.SMC_STATUS_TRAINED (smcCell 0) true).setFlag F.ETH_STATUS_LINK0 (ethCell 0) true).setFlag F.ETH_STATUS_LINK1 (ethCell 0) true
/-- 96 zero bytes as a frame. -/
def frame0 : List Byte := List.replicate 96 0
/-- A default action of bank 0 of port 0, of the code given with more fields of word 0. -/
def actState (code more : Nat) : State :=
  netUp.setSpg { netUp.spg with banks := [(0, { dflt := words 8 [(0, code * 2 + more)] })] }
theorem witness_decides : ∀ x ∈ [(0, 0), (1, 0), (2, 0), (3, 0), (0, 16)],
    (actState x.1 x.2).Decides 0 ⟨frame0, 0, 0, 0, .clean, false⟩ (parseFrame netUp.parseCfg frame0) (words 8 [(0, x.1 * 2 + x.2)]) 0xFFFF
      false true := by
  have e : ∀ x ∈ [(0, 0), (1, 0), (2, 0), (3, 0), (0, 16)],
      (actState x.1 x.2).spgBank (2 * 0 + (actState x.1 x.2).fld F.SPG_PORTp_CTRL_ACTIVE spgCell 0) = { dflt := words 8 [(0, x.1 * 2 + x.2)] } := by
    decide +kernel
  refine fun x h => .inr (.inr ⟨rfl, rfl, rfl, fun q hq => ?_, fun q hq => ?_, ?_⟩)
  · exact absurd hq (List.not_mem_nil)
  · rw [e x h] at hq; exact absurd hq (List.not_mem_nil)
  · rw [e x h]
/-- No flip is armed where no flip register is listed. -/
theorem noFlip (s : State)
    (h : ∀ p ∈ s.regs, p.1 ≠ 8 ∧ p.1 ≠ 16 ∧ (p.1 < 0x024000000000 ∨ (p.1 % 0x1000000 ≠ 8 ∧ p.1 % 0x1000000 ≠ 16) ∨
      (kindOf ((p.1 - 0x024000000000) / 0x1000000) ≠ 0x14 ∧ kindOf ((p.1 - 0x024000000000) / 0x1000000) ≠ 0x12))) (z : Nat) :
    s.flipFor z = none := by
  have zero : ∀ c, (kindOf c = 0x14 ∨ kindOf c = 0x12) → s.reg .SMC_FLIP_CTRL c = 0 ∧ s.reg .PLT_FLIP_CTRL c = 0 := fun c k => by
    have base : unitBase c = 0 ∨ unitBase c = 0x024000000000 + 0x1000000 * c := by
      unfold unitBase unitSlotBase; split
      · exact .inl rfl
      · rw [if_neg (by omega)]; exact .inr rfl
    have out : ∀ o, o = 8 ∨ o = 16 → ∀ p ∈ s.regs, p.1 ≠ unitBase c + o := fun o ho p hp e => by
      obtain ⟨h1, h2, h3⟩ := h p hp
      rcases base with b | b
      · omega
      · have q : (p.1 - 0x024000000000) / 0x1000000 = c := by omega
        rw [q] at h3
        omega
    constructor <;> refine Classical.byContradiction fun g => ?_
    · exact out 8 (.inl rfl) _ (smapGet_listed (d := fun _ => resetValue .SMC_FLIP_CTRL c 0) (k := regAddr .SMC_FLIP_CTRL c 0) g) rfl
    · exact out 16 (.inr rfl) _ (smapGet_listed (d := fun _ => resetValue .PLT_FLIP_CTRL c 0) (k := regAddr .PLT_FLIP_CTRL c 0) g) rfl
  unfold State.flipFor
  split
  · rfl
  · next c _ =>
    split
    · rfl
    · next k =>
      obtain ⟨k1, k2⟩ := zero c (by omega)
      rw [if_neg]
      split <;> simp [k1, k2, bitsOf]
/-- Its subscriber queue 0, receive queue 0 and counters. -/
def queueState : State :=
  let s := ((netUp.setFlag F.SHT_SUBQq_CFG_EN shtCell true 0).setFld F.SHT_SUBQq_CFG_QLIMIT_KIB shtCell 1024 0)
  let s := ((s.setFlag F.SPG_RXQq_CFG_EN spgCell true 0).setFld F.SPG_RXQq_CFG_SIZE_LOG2 spgCell 6 0).setReg .SPG_RXQq_PTR spgCell 1 0
  s.setFld F.SPG_COUNT_BASE_COUNT_LOG2 spgCell 4
theorem plain_netUp : netUp.PlainMemory ∧ queueState.PlainMemory :=
  ⟨⟨fun _ => rfl, noFlip _ (by decide +kernel), ⟨rfl, rfl⟩⟩, ⟨fun _ => rfl, noFlip _ (by decide +kernel), ⟨rfl, rfl⟩⟩⟩
theorem atHand : queueState.AtHand 0 32 := ⟨by decide +kernel, by decide +kernel, by decide +kernel⟩
theorem witness_FramesAreClassified :
    netUp.macDiscard 0 0 frame0 true = none ∧ beAt frame0 12 2 ≠ 0x8808 ∧ netUp.classifying = true ∧ (∀ j < 8, (netUp.ethPort j).ingress = []) ∧
    netUp.pfcOn 0 0 = false ∧ frame0.length + 4 + netUp.pfcCount 0 * (1024 * netUp.fld F.ETH_PFC_HEADROOM_KIB (ethCell 0)) ≤ netUp.bufferBytes 0 ∧
    (parseFrame netUp.parseCfg frame0).fail = false ∧ netUp.transitFrame frame0 = none ∧ netUp.ingressPrio 0 frame0 = 0 ∧
    queueState.enabled shtCell = true ∧ State.reset.enabled shtCell = false ∧ queueState.admitCheck 0 ⟨frame0, 15, false⟩ true = .admitted ∧
    queueState.flag F.SPG_RXQq_CFG_EN spgCell 0 = true ∧ netUp.flag F.SPG_RXQq_CFG_EN spgCell 0 = false ∧
    (queueState.load 0 12).1 = .ok (List.replicate 12 0) false ∧
    queueState.fld F.SPG_RXQq_PTR_HEAD spgCell 0 ≠ queueState.fld F.SPG_RXQq_PTR_TAIL spgCell 0 ∧
    min 20 (queueState.fld F.SPG_COUNT_BASE_COUNT_LOG2 spgCell) = 4 ∧ min 20 (netUp.fld F.SPG_COUNT_BASE_COUNT_LOG2 spgCell) = 0 ∧
    netUp.onchipUsed < 131072 ∧ netUp.spillFlows ≤ netUp.spillUsed := by
  and_intros <;> decide +kernel
/-- PFC of priority 0 is on and the port pauses its peer, or is paused. -/
def pfcState : State :=
  let s := netUp.setFld F.ETH_PFC_PFC_EN (ethCell 0) 1
  s.setEthPort 0 { s.ethPort 0 with pausing := [(0, 0)], paused := [(0, 0)] }
def ethStable : State := netUp.setFlag F.CHR_STATUS_ETH_REF_OK chrCell true
theorem witness_EthernetPortsAdmitAndPause :
    ethStable.srcStable .ethRef = true ∧ ethStable.flag F.CHR_STATUS_SAFE chrCell = false ∧ State.reset.srcStable .ethRef = false ∧
    (up [cellParent (ethCell 0), ethCell 0]).flag F.ETH_STATUS_LINK0 (ethCell 0) = false ∧ netUp.flag F.ETH_STATUS_LINK0 (ethCell 0) = true ∧
    netUp.cellState (ethCell 0) = 3 ∧ (0, 0) ∈ (pfcState.ethPort 0).pausing ∧ pfcState.pfcOn 0 0 = true ∧
    pfcState.occupancy 0 0 (some 0) < 1024 * pfcState.fld F.ETH_PFC_XON_KIB (ethCell 0) ∧
    (pfcState.setFld F.ETH_PFC_XON_KIB (ethCell 0) 0).occupancy 0 0 (some 0) = 0 ∧
    frame0.length + 4 ≤ max 1518 (min 9216 (netUp.fld F.ETH_CFG_MAX_FRAME (ethCell 0))) ∧ RxCheck.bad.ok = false ∧ (RxCheck.good .clean).ok = true ∧
    0 + (frame0.length + 4) ≤ 1024 * pfcState.fld F.ETH_PFC_XOFF_KIB (ethCell 0) + 1024 * pfcState.fld F.ETH_PFC_HEADROOM_KIB (ethCell 0) ∧
    (State.reset.classifying = false) := by
  and_intros <;> decide +kernel
/-- Its command register busy, a command held, a flow's context on chip and in the spill area. -/
def spgState : State :=
  netUp.setSpg { netUp.spg with cmd := some ⟨5, 0, 0⟩, flows := [(0, some ⟨frame0, 0⟩), (131072, some ⟨[1], 5⟩)] }
theorem witness_SpectrographCommands :
    State.reset.fld F.SPG_CMD_RESULT_RESULT spgCell ≠ 3 ∧ (netUp.setFld F.SPG_CMD_RESULT_RESULT spgCell 3).fld F.SPG_CMD_RESULT_RESULT spgCell = 3 ∧
    netUp.fld F.SPG_CMD_ARG_ARG spgCell % 64 = 0 ∧ extentOneQuad 0 256 = true ∧ netUp.extentFree true 0 256 = true ∧
    bankOk false 0 (List.replicate 256 0) = true ∧ patternsOk 0 [] = true ∧ bankOk true 0 (1 :: List.replicate 255 0) = false ∧
    netUp.fld F.SPG_PORTp_CTRL_ACTIVE spgCell 0 < 2 ∧ netUp.fld F.SPG_STATUS_PATTERN_BANK spgCell < 2 ∧
    spgState.spg.cmd = some ⟨5, 0, 0⟩ ∧ netUp.spg.cmd = none ∧ spgState.flowAt 0 = some ⟨frame0, 0⟩ ∧ spgState.flowAt 131072 = some ⟨[1], 5⟩ ∧
    spgState.flowAt 1 = none ∧ (16384 : Nat) < 16385 ∧ State.reset.flag F.SPG_RXQq_CFG_EN spgCell 0 = false := by
  and_intros <;> decide +kernel
/-- Subscriber queue 0 holds a frame; its service 0 and port 0 are eligible. -/
def shtState : State :=
  let s := queueState.setFlag F.SHT_SVCs_CFG_EN shtCell true 0
  s.setSht { s.sht with queues := [(0, [⟨frame0, 15, false⟩])], eligible := [(0, true), (svcKey 0, true)] }
theorem witness_chosen : shtState.Chosen (svcKey 0) ((shtState.childServices 0).map svcKey) ∧
    shtState.Chosen 0 ((shtState.childQueues 0).filter fun q => shtState.subqEligible q) := by
  have a : (shtState.childServices 0).map svcKey = [svcKey 0] := by decide +kernel
  have b : ((shtState.childQueues 0).filter fun q => shtState.subqEligible q) = [0] := by decide +kernel
  rw [a, b]
  exact ⟨⟨List.mem_singleton.mpr rfl, fun k h n => absurd (List.mem_singleton.mp h) n⟩,
    ⟨List.mem_singleton.mpr rfl, fun k h n => absurd (List.mem_singleton.mp h) n⟩⟩
/-- Service 1 is a relay with a frame; port 8 moves frames to it. -/
def relayState : State :=
  let s := ((queueState.setFlag F.SHT_SVCs_CFG_EN shtCell true 1).setFld F.SHT_SVCs_CFG_RELAY shtCell 8 1)
  s.setSht { s.sht with relays := [(1, [⟨frame0, 0, false⟩])] }
/-- Transmit ring 0 has an entry: 96 bytes at 0x800 for queue 0, in memory; or its frame is held. -/
def ringState (en : Bool) : State :=
  let s := ((queueState.setFlag F.SHT_TXRr_CFG_EN shtCell en 0).setFld F.SHT_TXRr_CFG_SIZE_LOG2 shtCell 6 0).setReg .SHT_TXRr_PTR shtCell 1 0
  s.writeMem 0 (bytesOf (words 8 [(0, 0x800), (2, 96 + 15 * 2 ^ 16)])) false 2
def heldState : State := queueState.setSht { queueState.sht with held := [⟨.ring 0, 0, 15, frame0⟩] }
theorem shtSettled : shtState.shtUpdate = shtState := by
  have note : ∀ (s : State) (k p : Nat) (e : Bool), smapGet (fun _ => false) s.sht.eligible k = e → s.noteEligible k p e = s := by
    intro s k p e h; unfold State.noteEligible; exact if_pos h
  have k : ((shtState.sht.queues.map Prod.fst) ++ (shtState.sht.eligible.map Prod.fst).filter fun k => decide (k < 0x10000)).dedup = [0] := by
    decide +kernel
  have l : (shtState.liveServices ++ (shtState.sht.eligible.map Prod.fst).filterMap fun k => if 0x10000 ≤ k then some (k - 0x10000) else none).dedup
      = [0] := by decide +kernel
  unfold State.shtUpdate
  simp only [k, List.foldl_cons, List.foldl_nil]
  rw [note shtState 0 _ _ (by decide +kernel)]
  simp only [l, List.foldl_cons, List.foldl_nil]
  exact note shtState (svcKey 0) _ _ (by decide +kernel)
theorem witness_ShutterAdmitsSelectsAndRefills :
    shtState.portEligible 0 = true ∧ shtState.svcRelay 0 = 0 ∧ shtState.subqFrames 0 = [⟨frame0, 15, false⟩] ∧
    relayState.relayOf 8 0 = some 1 ∧ relayState.svcRelay 1 ≠ 0 ∧ relayState.relayFrames 1 = [⟨frame0, 0, false⟩] ∧
    queueState.childServices 0 = [] ∧ shtState.ethLink 0 0 = true ∧ shtState.ethLink 0 1 = true ∧ frame0.length + 4 ≤ shtState.maxFrame 0 ∧
    (shtState.setFlag F.CELL_STATE_QUIESCE_BUSY (ethCell 0) true).flag F.CELL_STATE_QUIESCE_BUSY (ethCell 0) = true ∧
    State.reset.enabled shtCell = false ∧ State.reset.flag F.CELL_STATE_QUIESCE_BUSY shtCell = false ∧
    (ringState true).flag F.SHT_TXRr_CFG_EN shtCell 0 = true ∧ (ringState false).flag F.SHT_TXRr_CFG_EN shtCell 0 = false ∧
    (ringState true).fld F.SHT_TXRr_PTR_HEAD shtCell 0 = 0 ∧ (ringState true).fld F.SHT_TXRr_PTR_TAIL shtCell 0 = 1 ∧
    (ringState true).subqAllowed 0 0 = true ∧ (ringState true).extentFree true 0x800 96 = true ∧ extentOneQuad 0x800 96 = true ∧
    (ringState true).admitCheck 0 ⟨frame0, 15, false⟩ false = .admitted ∧
    ((ringState true).setFld F.SHT_SUBQq_CFG_QLIMIT_KIB shtCell 0 0).admitCheck 0 ⟨frame0, 15, false⟩ false = .noRoom 3 ∧
    (heldState.admitCheck 0 ⟨frame0, 15, false⟩ false = .admitted) ∧ heldState.sht.held ≠ [] := by
  and_intros <;> decide +kernel

/-! ## Witnesses: the Catalogue -/

/-- A volume of 1,024 blocks of 512 bytes on backend 0: program, or drive behind downstream port 0, present. -/
def volWords : List Word32 := words 16 [(0, 1 + 9 * 16), (2, 1024)]
def beWords (kind : Nat) : List Word32 := words 16 [(0, kind + 4), (2, 6), (3, 63)]
/-- A command of slot 0: READ, WRITE, FLUSH or DEALLOCATE of block 0 at memory address 0x800. -/
def catEntry (opc : Nat) : List Word32 := words 16 [(0, opc + 16), (6, 0x800)]
def catCmd (opc : Nat) : CatCmd :=
  { seq := 0, slot := 0, words := catEntry opc, volNo := 0, vol := volWords, bes := [(0, beWords 2)], segs := [(0x800, 512)] }
/-- A READ whose part has ended. -/
def catReadDone (p : PartState) : CatCmd :=
  { catCmd 1 with phase := .running, parts := [{ lba := 0, nb := 1, be := 0, block := 0, addr := 0x400, state := p }] }
/-- Queue 0 is ENABLED with entries posted; entry k stands in memory, the completion ring beyond it. -/
def catState (x : CatQueue) (opc : Nat := 1) : State :=
  let s := ((netUp.setFlag F.CAT_Qq_CTRL_EN catCell true 0).setFld F.CAT_Qq_CFG_SIZE_LOG2 catCell 6 0)
  let s := ((s.setFld F.CAT_Qq_PTR_SQ_TAIL catCell 2 0).setFld F.CAT_Qq_PTR_CQ_TAIL catCell 16 0).writeMem 0 (bytesOf (catEntry opc)) false 2
  s.setCat { s.cat with queues := [(0, x)] }
def queue0 (l : List CatCmd) : CatQueue := { vol := volWords, bes := [(0, beWords 2)], cmds := l, nextSeq := 1 }
theorem noErr (s : State) (h : s.lineErr = []) (z : Nat) : s.lineErrOf z = LineErr.clean := by
  unfold State.lineErrOf; rw [h]; rfl
theorem catOpen (x : CatQueue) (h : x = queue0 [] ∨ x = queue0 [catCmd 2] ∨ x = queue0 [catReadDone .done]) : (catState x).CatOpen 0 := by
  rcases h with rfl | rfl | rfl <;>
    exact ⟨by decide +kernel, by decide +kernel, ⟨by decide +kernel, by decide +kernel, by decide +kernel⟩,
      ⟨noErr _ (by decide +kernel), noFlip _ (by decide +kernel), by decide +kernel⟩⟩
theorem witness_CatalogueTakesEntries :
    let s := catState (queue0 [])
    s.catQState 0 = 3 ∧ s.fld F.CAT_Qq_CFG_SIZE_LOG2 catCell 0 = 6 ∧ s.fld F.CAT_Qq_PTR_SQ_HEAD catCell 0 ≠ s.fld F.CAT_Qq_PTR_SQ_TAIL catCell 0 ∧
    s.tagFree = true ∧ s.catTurn 0 = true ∧ (match (s.load 0 64).1 with | .ok b p => b == bytesOf (catEntry 1) && !p | _ => false) = true ∧
    wfield (catEntry 1) 0 7 4 = 1 ∧ wfield (catEntry 0) 0 3 0 = 0 ∧ wlong (catEntry 1) 6 % 64 = 0 ∧
    wfield volWords 0 0 0 = 1 ∧ wfield volWords 0 7 4 = 9 ∧ wfield volWords 0 1 1 = 0 ∧ wlong (catEntry 1) 2 + 1 ≤ wlong volWords 2 ∧
    wfield (beWords 2) 0 2 2 = 1 ∧ wfield (beWords 2) 0 1 0 ≠ 3 ∧ wfield (words 16 []) 0 0 0 = 0 ∧ wfield (words 16 []) 0 2 2 = 0 ∧
    State.reset.catQState 0 = 0 := by
  and_intros <;> decide +kernel
/-- The store is empty, or one segment fills it. -/
def fullState : State :=
  let s := catState (queue0 [catCmd 2])
  s.setCat { s.cat with segs := [⟨0, 0, 0, 0, 0, false, 9, 0, 2 ^ 26, 0, beWords 2, 0, 0, 0, false⟩] }
theorem witness_store : (catState (queue0 [catCmd 2])).storeAlloc 512 = some 0 ∧ fullState.storeAlloc 512 = none := by
  constructor
  · have u : (catState (queue0 [catCmd 2])).storeUsed = [] := by decide +kernel
    have a : (catState (queue0 [catCmd 2])).storeArea = (0, 2 ^ 35) := by decide +kernel
    simp [State.storeAlloc, State.firstFree, State.storePages, u, a]
  · have u : fullState.storeUsed = [(0, 2 ^ 35)] := by decide +kernel
    have a : fullState.storeArea = (0, 2 ^ 35) := by decide +kernel
    refine List.find?_eq_none.mpr fun x hx => ?_
    rw [List.mem_mergeSort] at hx
    simp only [u, a, State.storePages] at hx ⊢
    simp at hx ⊢
    omega
theorem witness_CatalogueCommandsRun :
    (catState (queue0 [catCmd 2])).CatHolds 0 (catCmd 2) ∧ (catState (queue0 [catReadDone .done])).CatHolds 0 (catReadDone .done) ∧
    (catCmd 2).len = 512 ∧ (catCmd 2).opc = 2 ∧ (catCmd 4).opc = 4 ∧ (catReadDone (.failed 4 0)).parts.length = 1 ∧
    (catCmd 2).phase = .ready ∧ (catReadDone .done).phase = .running ∧
    (∀ j < 8, extentMapped (0x800 + 64 * j) 64 = true ∧ (catState (queue0 [])).memUp (0x800 + 64 * j) 64 = true ∧
      touchesReserve (0x800 + 64 * j) 64 = false) := by
  delta State.CatHolds; and_intros <;> decide +kernel
/-- Store segment 0 for backend 0 of a kind; a command of it in flight. -/
def seg0 (kind : Nat) (issued : Bool) : StoreSeg := ⟨0, 0, 0, 0, 0, false, 9, 0, 1, 0, beWords kind, 0, 0, 0, issued⟩
def beCmd0 (stale : Bool) : BeCmd := { be := 0, id := 1, serial := 0, opc := 2, owner := .seg 0, q := 0, stale := stale }
def beState (kind : Nat) (issued : Bool) (l : List BeCmd) : State :=
  let s := catState (queue0 [])
  let s := ((s.setFlag F.CELL_CTRL_EN pciCell true).setFlag F.CELL_CTRL_EN (portCell 10) true).setCfg 10 0 0x70 (2 ^ 29)
  s.setCat { s.cat with segs := [seg0 kind issued], becmds := l, bes := [(0, { words := beWords kind })] }
theorem witness_BackendCommandsRunAndFail :
    (beState 0 false []).SegIs (seg0 0 false) ∧ (beState 0 true []).SegIs (seg0 0 true) ∧ (seg0 0 true).issued = true ∧
    (beState 0 false []).beReachable (beWords 0) = true ∧ (catState (queue0 [])).beReachable (beWords 0) = false ∧
    (0 + 1) % (wfield (beWords 0) 3 11 0 + 1) ≠ 0 ∧
    (beState 0 true [beCmd0 false]).BeHas 0 1 (beCmd0 false) ∧ (beCmd0 true).stale = true ∧
    (beState 0 true [beCmd0 true]).cat.becmds.find? (fun d => d.owner == .seg 0 && !d.late) = some (beCmd0 true) ∧
    (beState 2 true [beCmd0 false]).catBackend 0 = { words := beWords 2 } ∧ wfield (beWords 1) 0 1 0 = 1 ∧ beWords 0 ≠ [] ∧
    State.reset.catBackend 0 = {} ∧ wfield (wordsOf 4 (List.replicate 16 0)) 3 16 16 = 0 := by
  delta State.SegIs State.BeHas; and_intros <;> decide +kernel
theorem witness_CatalogueQueuesEnableAndReset :
    State.reset.Writable fw .CAT_Qq_CTRL catCell 0 2 ∧ netUp.catQState 0 = 0 ∧ netUp.catBusy 0 = false ∧ netUp.enabled catCell = true ∧
    0 < 2 ^ min 16 (netUp.fld F.CAT_VOL_TABLE_COUNT_LOG2 catCell) ∧ (catState (queue0 [])).catQState 0 = 3 ∧ (catState (queue0 [])).catResetting 0 = false ∧
    (queue0 []).records = 0 ∧ (catState (queue0 [catCmd 2])).catQState 0 = 3 ∧ (catState { queue0 [] with fault := true }).catQState 0 = 4 ∧
    (netUp.setFlag F.CAT_Qq_STATE_RESETTING catCell true 0).catResetting 0 = true ∧ netUp.catMoves 0 = false ∧ netUp.catEn 0 = false := by
  delta State.Writable; and_intros <;> decide +kernel

/-! ## Witnesses: PCI Express -/

/-- Port 0 and its host, downstream port 0, an interrupt route, a request of port 0 under tag 3, VF 0. -/
def pciBase : State :=
  let s := up [pciCell, upCell 0, cellParent (smcCell 0), smcCell 0, portCell 2, catCell, shtCell, trnCell, spgCell]
  let s := (s.setFlag F.SMC_STATUS_TRAINED (smcCell 0) true).setCfg 0 0 0x04 6
  let s := ((s.setFlag F.PCI_FNf_STATUS_EXISTS (upCell 0) true 1).setCfg 2 0 0x70 (2 ^ 29)).setCfg 0 0 0x50 (2 ^ 31)
  s.setPci { s.pci with retrain := [], retry := [] }
def hostOp : HostOp := { id := 9, port := 0, fn := 0, write := false, addr := 0x1000, len := 64, purpose := .catEntry 0 }
def hostReq : HostReq := { port := 0, fn := 0, tag := 3, op := 9, off := 0, addr := 0x1000, len := 64 }
def reqState (st : HostReqState) : State := pciBase.setPci { pciBase.pci with ops := [hostOp], reqs := [{ hostReq with state := st }] }
def routeState : State :=
  let s := pciBase.setFlag F.PCI_IRQ_ROUTEs_EN pciCell true 0
  s.setPci { s.pci with routes := [(0, { pending := true })] }
def flrState (f : Nat) : State := pciBase.setFlag F.PCI_FNf_STATUS_FLR_BUSY (upCell 0) true f
def bmeState : State := pciBase.setFlag F.PCI_FNf_STATUS_BME (upCell 0) true 0
theorem witness_UpstreamPortsRequestAndReset :
    pciBase.Writable fw .PCI_IRQ_RAISE pciCell 0 15 ∧ (routeState.route 0).pending = true ∧ (pciBase.route 0).pending = false ∧
    routeState.flag F.PCI_IRQ_ROUTEs_EN pciCell 0 = true ∧ routeState.fnExists 0 0 = true ∧ routeState.pci.ops = [] ∧ (routeState.route 0).last = none ∧
    routeState.msixOn 0 0 = true ∧ bmeState.fnBme 0 0 = true ∧ pciBase.fnBme 0 0 = false ∧ (reqState .live).ReqIs 0 3 hostReq ∧
    (reqState .quarantine).ReqIs 0 3 { hostReq with state := .quarantine } ∧ (reqState .live).pci.ops.find? (fun q => q.id == 9) = some hostOp ∧
    pciBase.fnExists 0 1 = true ∧ pciBase.fnExists 0 2 = false ∧ (flrState 0).fnFlr 0 0 = true ∧ (flrState 1).fnFlr 0 1 = true ∧
    pciBase.fnFlr 0 0 = false ∧ (pciBase.pci.cache.filter fun q => q.1 == 0).length < 4096 := by
  delta State.Writable State.ReqIs; and_intros <;> decide +kernel
/-- Downstream port 0 has a memory window of 4 KiB at bus address 0; the port may train; port 0's segment 0 maps address 0. -/
def winState : State :=
  let s := pciBase.setFld F.PCI_DP_INWw_MAP_SIZE_LOG2 (downCell 0) 12 0
  let s := ((s.setFlag F.PCI_DP_INWw_BUS_EN (downCell 0) true 0).setFlag F.PCI_DP_INWw_BUS_W (downCell 0) true 0).setFlag F.PCI_DP_INWw_BUS_R
    (downCell 0) true 0
  s.setFlag F.PCI_BAR4_SEGn_EN (upCell 0) true 0
def trainState : State :=
  let s := (pciBase.setFlag F.CHR_STATUS_PCIE_REF_OK chrCell true).setCfg 2 0 0x70 0
  { s with chr := { s.chr with up := true, released := [0] } }
theorem witness_windowFor : winState.WindowFor 0 0 64 64 := by
  refine ⟨⟨?_, ?_, ?_, ?_, ?_, ?_, ?_, fun h => ?_⟩, fun v h => absurd h (Nat.not_lt_zero v)⟩
  case refine_8 => exact absurd h (by decide +kernel)
  all_goals decide +kernel
theorem plainWin : winState.PlainMemory ∧ winState.AtHand 64 64 :=
  ⟨⟨noErr _ (by decide +kernel), noFlip _ (by decide +kernel), by decide +kernel⟩, ⟨by decide +kernel, by decide +kernel, by decide +kernel⟩⟩
theorem witness_WindowsLinksAndDownstreamPorts :
    pciBase.fnAwake 0 0 = true ∧ (flrState 0).fnAwake 0 0 = false ∧ (up [pciCell, upCell 0]).fnAwake 0 0 = false ∧
    (up [pciCell, upCell 0]).fnFlr 0 0 = false ∧ pciBase.catOwnedBy 0 0 0 = false ∧
    ((pciBase.setFld F.CAT_Qq_CFG_OWNER catCell 1 0).catOwnedBy 0 0 0 = true) ∧
    winState.flag F.PCI_BAR4_SEGn_EN (upCell 0) 0 = true ∧ trains 0 6 16 = true ∧ trains 2 1 4 = true ∧ trains 2 7 16 = false ∧
    trainState.mayLink 0 = true ∧ trainState.mayLink 2 = true ∧ pciBase.mayLink 0 = false ∧ trainState.cellState (downCell 0) = 3 ∧
    bitsOf (trainState.cfg 2 0 0x158) 0 0 = 0 ∧ bitsOf (trainState.cfg 2 0 0x70) 4 4 = 0 ∧ bitsOf (trainState.cfg 2 0 0x3C) 22 22 = 0 ∧
    winState.dpUp 2 = true ∧ pciBase.dpUp 3 = false ∧ winState.pci.held = [] ∧ winState.flag F.PCI_DP_INWw_BUS_COLL (downCell 0) 0 = false ∧
    winState.flag F.PCI_DP_INWw_BUS_W (downCell 0) 0 = true := by
  and_intros <;> decide +kernel
/-- VF 0 of port 0 is ENABLED, or shuts down, with a MEMORY page and a doorbell page; its dirty-page log runs. -/
def vfState0 (en busy : Bool) : State :=
  let s := (pciBase.setFlag F.PCI_VFv_CTRL_EN (upCell 0) en 0).setFlag F.PCI_VFv_STATE_QUIESCE_BUSY (upCell 0) busy 0
  let s := ((s.setReg .PCI_VFv_PAGEp (upCell 0) (6 + 16) 0).setReg .PCI_VFv_PAGEp (upCell 0) 3 1).setCfg 0 0 0x168 8
  (s.setFlag F.PCI_VFv_DIRTY_CTRL_LOG_EN (upCell 0) en 0).setFlag F.PCI_VFv_DIRTY_CTRL_SWAP_BUSY (upCell 0) busy 0
theorem witness_VirtualFunctionsRunAndMigrate :
    State.reset.Writable fw .PCI_VFv_CTRL (upCell 0) 0 1 ∧ (vfState0 true false).vfState 0 0 = 3 ∧ (vfState0 false true).vfState 0 0 = 1 ∧
    (vfState0 false false).vfState 0 0 = 0 ∧ (vfState0 true true).vfBusy 0 0 = true ∧ (vfState0 true true).vfEn 0 0 = true ∧
    (vfState0 true true).enabled (upCell 0) = true ∧ (vfState0 true true).fnExists 0 1 = true ∧ ((vfState0 true true).vf 0 0).recorded = [] ∧
    (vfState0 true false).fnAwake 0 1 = true ∧ pciBase.fnAwake 0 1 = false ∧ (flrState 1).fnFlr 0 1 = true ∧ pciBase.fnExists 0 2 = false ∧
    bitsOf ((vfState0 true false).reg .PCI_VFv_PAGEp (upCell 0) 0).toNat 4 4 = 1 ∧
    (vfState0 true true).flag F.PCI_VFv_DIRTY_CTRL_SWAP_BUSY (upCell 0) 0 = true ∧ (vfState0 true true).dirtyLeft 0 0 1 = false ∧
    (pciBase.setPci { pciBase.pci with dirty := [⟨0, 0, 1, 5⟩] }).dirtyLeft 0 0 1 = true ∧
    State.reset.Writable fw .PCI_VFv_DIRTY_CTRL (upCell 0) 0 5 := by
  delta State.Writable; and_intros <;> decide +kernel

/-! ## Witnesses: Filter, the root of trust, Ephemeris, memory integrity -/

/-- A Filter descriptor of program 0 with an empty stream, its areas apart; one with a wrong version. -/
def fltWords (v : Nat) : List Word32 := words 16 [(0, v * 256), (4, 0x100), (6, 0x200), (9, 0x300), (11, 0x340), (13, 0x380)]
/-- Filter unit 0 is ENABLED with a posted descriptor in queue 0. -/
def fltState (v : Nat) : State :=
  let s := up [cellParent fltCell, fltCell, filterCell 0, keyCell, rotCell, cellParent (smcCell 0), smcCell 0]
  let s := (s.setFlag F.SMC_STATUS_TRAINED (smcCell 0) true).setFlag F.FLT_Qq_CFG_EN fltCell true 0
  ((s.setFld F.FLT_Qq_CFG_SIZE_LOG2 fltCell 6 0).setFld F.FLT_Qq_PTR_TAIL fltCell 1 0).writeMem 0 (bytesOf (fltWords v)) false 2
/-- It runs a descriptor that goes on, or that has ended. -/
def fltRun0 (e : Option (Nat × Nat)) : FltRun := { q := 0, idx := 0, words := fltWords 1, keys := [List.replicate 16 0], ended := e }
def fltRuns (e : Option (Nat × Nat)) : State :=
  let s := (fltState 1).setFld F.FLT_CFG_STALL_US fltCell 1
  let s := s.setFltUnit 0 { run := some (fltRun0 e) }
  { s with now := 5000 }
def key0 (st : Nat) : State := (fltState 1).setFld F.KEY_ATTRn_STATE keyCell st 0
theorem fltNext : (fltState 1).FltNext 0 0 :=
  have ready : (fltState 1).flag F.FLT_Qq_CFG_EN fltCell 0 = true ∧ 6 ≤ (fltState 1).fld F.FLT_Qq_CFG_SIZE_LOG2 fltCell 0 ∧
      (fltState 1).fld F.FLT_Qq_CFG_SIZE_LOG2 fltCell 0 ≤ 16 ∧
      (fltState 1).fld F.FLT_Qq_PTR_HEAD fltCell 0 ≠ (fltState 1).fld F.FLT_Qq_PTR_TAIL fltCell 0 := by and_intros <;> decide +kernel
  ⟨by decide +kernel, by decide +kernel, fun v h => absurd h (Nat.not_lt_zero v.val), 0, by decide, by decide +kernel,
    ⟨ready.1, ready.2.1, ready.2.2.1, ready.2.2.2, .inl (by decide +kernel)⟩, fun j h => absurd h (Nat.not_lt_zero j)⟩
theorem witness_FilterUnitsAndKeyStore :
    (runs filter0 [] (fltRuns none)).stopped = false ∧ ((fltRuns none).fltUnit 0).run = some (fltRun0 none) ∧
    ((fltRuns (some (0x0B, 0))).fltUnit 0).run = some (fltRun0 (some (0x0B, 0))) ∧ ((fltState 1).fltUnit 0).run = none ∧
    wfield (fltWords 1) 0 11 8 = 1 ∧ wfield (fltWords 2) 0 11 8 = 2 ∧ wfield (fltWords 1) 0 15 15 = 0 ∧
    (fltState 1).fltHeld 0 = none ∧ (fltState 1).fld F.FLT_CFG_PROG_LOG2 fltCell = 0 ∧ extentOneQuad 0x300 64 = true ∧
    (fltRuns none).fld F.FLT_CFG_STALL_US fltCell ≠ 0 ∧ (0 + 1000 * (fltRuns none).fld F.FLT_CFG_STALL_US fltCell ≤ 5000) ∧
    ((fltState 1).setFld F.FLT_CFG_STALL_US fltCell 0).fld F.FLT_CFG_STALL_US fltCell = 0 ∧ (key0 0).keyState 0 = 0 ∧ (key0 1).keyState 0 = 1 ∧ (key0 2).keyState 0 = 2 ∧
    (key0 2).fld F.KEY_ATTRn_RUNNING keyCell 0 = 0 ∧ (key0 0).fld F.KEY_CMD_ARG_ADDR keyCell % 64 = 0 ∧
    (fltState 1).Writable fw .KEY_CMD keyCell 0 (keyLoadWord 1 0 false false true true false) ∧ (fltState 1).faulted rotCell = false := by
  delta State.Writable; and_intros <;> decide +kernel
theorem witness_filterReady : (runs filter0 [] (fltRuns none)).Ready filter0 := by constructor <;> decide +kernel

/-- BOOT of `ROT_STATUS`, with the rest of the register 0. -/
def bootAt (b : Nat) (s : State) : State :=
  let a := regAddr .ROT_STATUS rotCell 0
  let v := BitVec.ofNat 64 (putBits 0 F.ROT_STATUS_BOOT.hi F.ROT_STATUS_BOOT.lo b)
  { s with regs := s.regs.filter (fun p => decide (p.1 < a)) ++ (a, v) :: s.regs.filter (fun p => decide (a < p.1)) }
def rotRuns (b : Nat) : State :=
  let s := bootAt b (fltState 1)
  { s with rot := { s.rot with running := true, svn := some 3 } }
theorem witness_RootOfTrustBootsAndObeys :
    State.reset.Writable fw .ROT_CMD rotCell 0 1 ∧ State.reset.rot.cmd = none ∧ (rotRuns 4).boot = 4 ∧ (rotRuns 0).boot = 0 ∧
    (rotRuns 0).rot.running = true ∧ (rotRuns 0).resetting rotCell = false ∧ (rotRuns 0).fuseSvn = 3 ∧
    (rotRuns 4).fld F.ROT_STATUS_BOOT_SVN rotCell = 0 ∧ (rotRuns 4).fld F.ROT_STATUS_KEY_SLOT rotCell = 0 ∧
    (rotRuns 4).fld F.ROT_CMD_ARG_VALUE rotCell ≤ 64 ∧
    State.reset.Writable fw .ROT_FLASH_CMD rotCell 0 (2 + 0x10000 * 2 ^ 8) ∧ State.reset.rot.flashCmd = none ∧
    (0x10000 + 0x10000 ≤ 0x4000000 ∧ 0x10000 % 0x10000 = 0) ∧ ¬ ((rotRuns 4).boot = 1) ∧ (rotRuns 1).boot = 1 ∧
    (rotRuns 4).fld F.ROT_FLASH_ARG_ADDR rotCell % 64 = 0 ∧ extentOneQuad 0 256 = true ∧ (rotRuns 4).ringTouched 0 256 = none := by
  delta State.Writable; and_intros <;> decide +kernel
theorem witness_header : ¬ (rotRuns 0).HeaderCode ((rotRuns 0).flashBytes 0 256) 1 := fun h => absurd h.1 (by decide +kernel)
theorem witness_flash :
    let s := { State.reset with rot := { State.reset.rot with flashCmd := some (0, some (0x10000, 0x10000)), cmd := some 0 } }
    s.rot.flashCmd = some (0, some (0x10000, 0x10000)) ∧ s.rot.cmd = some 0 ∧ s.stopped = false := by decide +kernel

/-- A job of one region of 64 KiB at 0x100000, its snapshots at 0x200000, both destinations; an entry of the command ring. -/
def jobWords : List Word32 :=
  words 32 [(0, 1 + 16 + 2 ^ 15 + 2 ^ 16), (2, 2 ^ 12), (4, 0x200000), (6, 0x80), (16, 0x100000), (18, 65536)]
def ephWords (opc : Nat) : List Word32 := words 16 [(0, opc + 16 + 2 ^ 8), (2, 7)]
def cellsOf (a n : Nat) : List Nat := ((List.range (n / 4096)).filterMap fun k => memCell (a + 4096 * k)).dedup
/-- A state of the registers listed. -/
def withRegs (l : List (RegId × Nat × Nat)) : State :=
  { State.reset with regs := l.foldl (fun m p => smapPut (regAddr p.1 p.2.1 0) (BitVec.ofNat 64 p.2.2) m) [] }
/-- The memory of every stack is at hand. -/
def stacksUp : List (RegId × Nat × Nat) :=
  ((List.range 8).map fun k => (.CELL_CTRL, smcCell k, 1)) ++ ((List.range 8).map fun k => (.SMC_STATUS, smcCell k, 1))
    ++ ([17920, 26112, 34304, 42496].map fun c => (.CELL_CTRL, c, 1))
/-- Ephemeris is ENABLED with the job and an entry posted. -/
def ephState (opc : Nat) (e : EphState) (p : EpochState) : State :=
  let s := withRegs ([(.CELL_CTRL, cellParent ephCell, 1), (.CELL_CTRL, ephCell, 1), (.EPH_CMDQ_CFG, ephCell, 1 + 6 * 2 ^ 2), (.EPH_CMDQ_PTR, ephCell, 1)]
    ++ stacksUp)
  { s.writeMem 0 (bytesOf (ephWords opc)) false 2 with eph := { e with job := jobWords }, epoch := p }
def liveEpoch : EpochState := { retained := true, regions := jobRegions jobWords, snapBase := 0x200000, copied := [(0, true)] }
def dest0 (ph : EphPhase) (out : List Nat) : EphDest := { phase := ph, slot := 0, out := out }
def drain0 (ph : EphPhase) (out : List Nat) : EphDrain :=
  { step := 7, map := [0, 0, 0, 0], hash := sha384Init, dests := [some (dest0 ph out), some (dest0 ph out)] }
def drainState (ph : EphPhase) (out : List Nat) : State := ephState 1 { drain := some (drain0 ph out) } liveEpoch
theorem loaded {r : MemRes} {w : List Word32} (h : (match r with | .ok bs p => !p && w == wordsOf 16 bs | _ => false) = true) :
    ∃ bs, r = .ok bs false ∧ w = wordsOf 16 bs := by
  cases r with
  | ok bs p => simp at h; exact ⟨bs, by rw [h.1], h.2⟩
  | _ => simp at h
theorem ephAsks : ∀ opc, opc = 1 ∨ opc = 2 ∨ opc = 3 ∨ opc = 4 → (ephState opc {} liveEpoch).EphAsks (ephWords opc) := by
  rintro _ (rfl | rfl | rfl | rfl) <;>
    exact {
      up := by decide +kernel
      size := by decide +kernel
      posted := by decide +kernel
      idle := by decide +kernel
      entry := loaded (by decide +kernel)
      room := ⟨by decide +kernel, by decide +kernel, by decide +kernel⟩
      clean := fun z => ⟨noErr _ (by decide +kernel) z, noFlip _ (by decide +kernel) z⟩
      apart := fun r h => by
        have g : ∀ r ∈ liveEpoch.regions ++ jobRegions jobWords, 0x100000 ≤ r.1 := by decide +kernel
        have a : (ephState 1 {} liveEpoch).EphAt = 0 := by decide +kernel
        exact .inl (Nat.le_trans (by decide +kernel) (g r (List.mem_append.mpr h))) }
theorem witness_EphemerisCheckpointsAndRestores :
    (ephState 1 {} liveEpoch).stopped = false ∧ EphPlain (ephWords 1) ∧ ¬ EphPlain (words 16 [(0, 1)]) ∧ wfield (ephWords 1) 0 8 8 = 1 ∧
    (ephState 1 {} liveEpoch).eph.drain = none ∧ (drainState .shards []).eph.drain.isSome = true ∧
    (ephState 1 {} liveEpoch).connPstate (wfield jobWords 8 31 16) ≠ psConnected ∧ wfield jobWords 0 16 16 = 1 ∧
    (ephState 2 {} {}).epoch.retained = false ∧ liveEpoch.copied = [(0, true)] ∧ granuleAddr liveEpoch.regions 0 = 0x100000 ∧
    (ephState 2 {} liveEpoch).memUp 0x100000 65536 = true ∧ (ephState 2 {} liveEpoch).memUp 0x200000 65536 = true ∧
    (ephState 3 {} liveEpoch).epoch.copyFailed = false ∧ wfield (ephWords 3) 0 10 9 = 0 ∧
    (drain0 .shards []).granule < jobBytes jobWords / 65536 ∧ wfield jobWords 0 14 11 = 0 ∧ 65536 ∣ jobBytes jobWords ∧
    (drainState .shards []).drainReady (drain0 .shards []) = true ∧ (drain0 .recordFlush []).live 0 = some (dest0 .recordFlush []) ∧
    (drain0 .manifest [3]).live 1 = some (dest0 .manifest [3]) ∧ (drain0 .ended []).live 0 = none ∧
    (drain0 .shards []).map.length = 4 * jobMembers jobWords ∧ State.reset.enabled ephCell = false ∧
    State.reset.fld F.EPH_CMDQ_PTR_HEAD ephCell = State.reset.fld F.EPH_CMDQ_PTR_TAIL ephCell ∧
    State.reset.Writable fw .EPH_CMDQ_PTR ephCell 0 (putBits (State.reset.reg .EPH_CMDQ_PTR ephCell).toNat 15 0 5) := by
  delta State.Writable EphPlain; and_intros <;> decide +kernel
/-- A flip armed in a stack; a line with each kind of word. -/
def flipState : State := { ephState 1 {} {} with regs := smapPut (regAddr .SMC_FLIP_CTRL 17921 0) (1 + 2 ^ 8) (ephState 1 {} {}).regs }
theorem witness_LinesAreJudgedWrittenAndFlipped :
    flipState.fld F.SMC_FLIP_CTRL_ARM 17921 = 1 ∧ flipState.fld F.SMC_FLIP_CTRL_MATCH_EN 17921 = 0 ∧ memCell 0 = some (smcCell 0) ∧
    (ephState 1 {} {}).epoch.retained = false ∧ (ephState 1 {} {}).epoch.broken = [] ∧ (ephState 1 {} {}).flipFor 0 = none ∧
    (State.reset.lineErrOf 0).length = 8 ∧ (WordErr.mk false 1 0 0).judge = .corrected false 0 ∧ (WordErr.mk false 3 0 0).judge = .bad ∧
    (WordErr.mk true 0 0 0).judge = .marked ∧ State.reset.Writable fw .SMC_FLIP_CTRL (smcCell 0) 0 1 := by
  delta State.Writable; and_intros <;> decide +kernel

/-! ## Witnesses: the Chronograph, power, the Heliostat, the Dome -/

/-- The crystal has failed; the part is up; a warm reset runs; the power is not good, and the part may start. -/
def lostState : State := { State.reset with chr := { State.reset.chr with xtalLost := true } }
def upState : State := { State.reset with chr := { State.reset.chr with everUp := true }, power := { State.reset.power with inputs := 1 } }
def warmState : State := { State.reset with chr := { State.reset.chr with warm := true } }
def darkPart : State := { State.reset with power := { State.reset.power with good := false } }
def xtalState : State := withRegs [(.CHR_STATUS, chrCell, 2 ^ F.CHR_STATUS_XTAL_STABLE.lo + 2 ^ F.CHR_STATUS_PCIE_REF_OK.lo)]
def perstState : State := { withRegs [(.CHR_STATUS, chrCell, 2 ^ F.CHR_STATUS_PCIE_REF_OK.lo), (.CELL_CTRL, pciCell, 1), (.CELL_CTRL, downCell 0, 1)]
  with now := 100000000 }
theorem witness_ClocksInputsAndTheTimeBase :
    State.reset.power.good = true ∧ xtalState.flag F.CHR_STATUS_XTAL_STABLE chrCell = true ∧ State.reset.flag F.CHR_STATUS_XTAL_STABLE chrCell = false ∧
    State.reset.chr.xtalLost = false ∧ State.reset.Writable fw .CHR_SAFE_CTRL chrCell 0 1 ∧ State.reset.Writable fw .CHR_TB_STEP chrCell 0 7 ∧
    State.reset.timeFrac < 2 ^ 32 ∧ State.reset.fld F.CHR_TB_PENDING_PENDING chrCell = 0 ∧ State.reset.chr.withheld = 0 ∧
    (State.reset.setFld F.CHR_TB_PENDING_PENDING chrCell (2 ^ 64 - 5)).tbPending = -5 ∧
    (State.reset.ethPort 0).stamps = [] ∧ State.reset.power.standby = true ∧ upState.power.inputs.testBit 0 = true ∧
    State.reset.power.inputs.testBit 55 = false ∧ ({ State.reset with power := { State.reset.power with inputs := 2 ^ 55 } }).power.inputs.testBit 55 = true ∧
    perstState.enabled (downCell 0) = true ∧ perstState.flag F.CHR_STATUS_SAFE chrCell = false ∧ perstState.chr.pcieAt + 100000000 ≤ perstState.now ∧
    State.reset.enabled (downCell 0) = false := by
  delta State.Writable; and_intros <;> decide +kernel
theorem witness_ResetsAndPowerAreSequenced :
    upState.power.good = true ∧ upState.power.inputs.testBit 0 = true ∧ upState.chr.everUp = true ∧ upState.chr.warm = false ∧ warmState.chr.warm = true ∧
    State.reset.chr.everUp = false ∧ State.reset.Writable fw .CHR_RESET_REQ chrCell 0 1 ∧ lostState.chr.xtalLost = true ∧
    lostState.flag F.CHR_STATUS_XTAL_STABLE chrCell = false ∧ xtalState.flag F.CHR_STATUS_XTAL_STABLE chrCell = true ∧ xtalState.chr.up = false ∧
    xtalState.stopped = false ∧ darkPart.power.input = true ∧ darkPart.power.standby = true ∧ darkPart.power.pwrEn = true ∧
    darkPart.power.latch = false ∧ darkPart.power.good = false ∧ State.reset.prim.op = none ∧ State.reset.pci.ops = [] ∧
    State.reset.cat.becmds = [] := by
  delta State.Writable; and_intros <;> decide +kernel
def helPairs : State := { State.reset with hel := { State.reset.hel with pairs := [(10, 10)], thermCold := 9, thermHot := 99 } }
theorem witness_HeliostatControlsPowerAndClocks :
    lostState.stopped = true ∧ State.reset.stopped = false ∧ ({} : HelTickIn).upsets = [] ∧ ({} : HelTickIn).sample = none ∧
    (up [qnwCell]).enabled qnwCell = true ∧ State.reset.hel.frame = none ∧ State.reset.hel.darkLevel = none ∧ 0 < ({ current := 5 } : HelTickIn).current ∧
    State.reset.cellState (guiderCell 0) = 0 ∧ guiderUp.cellState (guiderCell 0) = 0 ∧ clusterState.cellState (guiderCell 0) ≠ 0 ∧
    State.reset.hel.pairs = [] ∧ helPairs.hel.pairs ≠ [] ∧ helPairs.hel.thermCold = 9 ∧ helPairs.hel.thermHot = 99 ∧ State.reset.hel.trip = false ∧
    kindOf (guiderCell 0) = 0x18 ∧ kindOf 0 ≠ 0x11 ∧ State.reset.Writable fw .HEL_DERATE helCell 0 (guiderCell 0 + 3 * 2 ^ 16) := by
  delta State.Writable; and_intros <;> decide +kernel
/-- Dome core 0 runs with its watchdog run down; a host is present with its heartbeat armed and run down; the Dome answers. -/
def wdtState : State :=
  let s := withRegs [(.CELL_CTRL, cellParent (domeCell 0), 1), (.CELL_CTRL, domeCell 0, 1), (.DOM_COREn_WDT_CFG, domeSub, 1)]
  { s with dom := { s.dom with wdt := [(0, 0)], expiries := [(0, [1, 2])] } }
def beatState : State := State.reset.setFlag F.DOM_HOST_STATE_ARMED domeSub true 0
def expState : State :=
  { withRegs [(.PHOT_EXP_LIST, 0, 0)] with now := 5000 }
theorem witness_DomeCoresHostAndExposures :
    wdtState.stopped = false ∧ wdtState.flag F.DOM_COREn_WDT_CFG_EN domeSub 0 = true ∧ wdtState.enabled (domeCell 0) = true ∧
    wdtState.flag F.GDR_DBG_STATUS_HALTED (domeCell 0) = false ∧ smapGet (fun _ => 500000000) wdtState.dom.wdt 0 = 0 ∧
    smapGet (fun _ => []) wdtState.dom.expiries 0 = [1, 2] ∧ wdtState.now ≤ 2 + 60000000000 ∧
    State.reset.Writable fw .DOM_COREn_WDT_KICK domeSub 0 1 ∧ beatState.flag F.DOM_HOST_STATE_ARMED domeSub 0 = true ∧
    beatState.flag F.DOM_HOST_STATE_ABSENT domeSub 0 = false ∧ smapGet (fun _ => 0) beatState.dom.beat 0 = 0 ∧
    State.reset.Writable fw .DOM_HOST_ATTACH domeSub 0 1 ∧ wdtState.mgmtRuns = false ∧
    (({ wdtState with chr := { wdtState.chr with started := true } } : State).mgmtRuns = true) ∧ State.reset.Writable fw .PHOT_EXP_CTRL 0 0 (1 + 5 * 2 ^ 12) ∧
    State.reset.flag F.PHOT_EXP_CTRL_EN 0 = false := by
  delta State.Writable; and_intros <;> decide +kernel
/-- An exposure list of one counter of the device cell, and a tick that is due. -/
def tickState (full : Bool) : State :=
  let s := (State.reset.setFld F.PHOT_EXP_LIST_ENTRIES 0 1).setFld F.PHOT_EXP_RING_SIZE_LOG2 0 1
  let s := (s.setFlag F.PHOT_EXP_CTRL_EN 0 true).setFld F.PHOT_EXP_PTR_TAIL 0 (if full then 2 else 0)
  { s with now := 5000, exp := { s.exp with list := [(0, 0)] } }
theorem witness_exposureTick :
    (tickState false).flag F.PHOT_EXP_CTRL_EN 0 = true ∧ (tickState false).fld F.PHOT_EXP_CTRL_PERIOD_US 0 ≤ 1000000 ∧
    5000 / 1000 * 1000 ≠ 0 ∧ (tickState false).exp.last < 5000 ∧ (tickState true).fld F.PHOT_EXP_PTR_TAIL 0 = 2 ∧
    2 ^ (tickState true).fld F.PHOT_EXP_RING_SIZE_LOG2 0 = 2 ∧ (tickState false).fld F.PHOT_EXP_PTR_HEAD 0 = 0 := by
  and_intros <;> decide +kernel
theorem witness_NothingHappensWhileTheIslandsStand : lostState.stopped = true ∧ ¬ Reaches612 (.gclPost fw 0 0) ∧ Reaches612 .powerLoss :=
  ⟨rfl, id, trivial⟩
theorem witness_StepRunsTheFrontCommand :
    ({ State.reset with pending := [.powerLoss] } : State).pending = .powerLoss :: [] ∧ State.reset.pending = [] ∧ State.reset.power.good = true ∧
    darkPart.power.good = false ∧ State.reset.fld F.CHR_TB_RATE_RATE_IN_FORCE chrCell = 0 := by
  and_intros <;> decide +kernel
theorem witness_EveryStepKeepsThePartWell : State.reset.Inv ∧ State.reset.rot.svnFrom = none ∧
    ({ State.reset with rot := { State.reset.rot with svnFrom := some 1, svn := some 2 } } : State).fuseSvn = 2 := by
  refine ⟨?_, rfl, rfl⟩; constructor <;> decide +kernel

/-! ## Ill-formed commands, one for each check of the well-formedness -/

def run0 : RunIn := ⟨some 0, false, 0, 0, 0, 0, 0, [(0, false)], []⟩
/-- The packets of a type: one field beyond its width in each. -/
def illPackets (t : Nat) : List TrnPkt :=
  let k : TrnPkt := { type := t }
  [ { k with type := t + 1 }, { k with version := 16 }, { k with path := 16 }, { k with dstConn := 65536 }, { k with srcNode := 65536 },
    { k with dstNode := 65536 }, { k with srcConn := 65536 }, { k with dstGen := 65536 }, { k with psn := 2 ^ 32 }, { k with msn := 2 ^ 32 },
    { k with idx := 2 ^ 22 } ]
/-- The row of a packet type of R366. -/
def packetRows : List (Nat × (TrnPkt → Instr)) :=
  [ (1, .transitWrite), (2, .transitReadReq), (3, .transitReadResp), (4, .transitAtomic), (5, .transitAtomicResp), (6, .transitCollective),
    (8, .transitAck), (9, .transitNak), (10, .transitConnect), (11, .transitConnectReply), (12, .transitDisconnect), (13, .transitDisconnectReply) ]
/-- Commands of which the named check alone refuses each one. -/
theorem test_illformed_registers_refused :
    let fw : Agent := .firmware 0
    (([ .registerWrite fw (.device (2 ^ 48)) 4 0, .registerWrite fw (.device 0) 0 0, .registerWrite fw (.device 0) 9 0,
    .registerWrite fw (.device 0) 1 256, .registerWrite fw (.bar0 (2 ^ 26)) 4 0, .registerWrite fw (.vfBar0 256 0) 4 0,
    .registerWrite fw (.vfBar0 0 (2 ^ 16)) 4 0, .registerWrite fw (.config 257 0 15) 4 0, .registerWrite fw (.config 0 4096 15) 4 0,
    .registerWrite fw (.config 0 2 15) 4 0, .registerWrite fw (.config 0 0 16) 4 0,
    .rwpPairWrite fw .DOM_HOST_HEARTBEAT domeSub 0, .rwpPairWrite fw .HEL_CAP_W chrCell 0, .rwpPairWrite fw .HEL_CAP_W helCell (2 ^ 32),
    .rwpComplementCheck .HEL_CAP_W_C helCell true, .rwpComplementCheck .HEL_CAP_W chrCell true,
    .cellCtrlEnWrite fw 0xFFFF true, .quiesceComplete 0xFFFF, .cellResetWrite fw 0xFFFF, .cellResetComplete 0xFFFF,
    .powerGateApply 0xFFFF, .powerRestoreComplete 0xFFFF, .errStatusClear fw 0xFFFF true true, .primMapWrite fw 0 false (2 ^ 32),
    .localApertureAccess fw filter0 false 0 8 0, .localApertureAccess fw guider0 false 0 3 0, .localApertureAccess fw guider0 false 4 8 0,
    .localApertureAccess fw guider0 false 0x40000 8 0, .localApertureAccess fw guider0 true 0 4 (2 ^ 32) ] : List Instr).any Instr.wf) = false := by
  decide +kernel
theorem test_illformed_units_refused :
    (([ .feedPush 0 65536, .feedVolume 0 65536, .feedFlush 0 65536, .feedFlushCompletion 0 65536 true, .feedWait 0 65536,
    .collectiveRunArrive { run0 with conn := some 65536 }, .collectiveRunArrive { run0 with fmt := 16 },
    .collectiveRunArrive { run0 with rank := 4096 }, .collectiveRunArrive { run0 with collId := 65536 },
    .collectiveRunArrive { run0 with step := 2 ^ 32 }, .collectiveRunArrive { run0 with offset := 2 ^ 32 },
    .collectiveRunArrive { run0 with elems := [(2 ^ 32, false)] },
    .bindingWrite 0 0 [] false, .bindingWrite 0 (2 ^ 64) [0] false, .chunkComplete 0 (2 ^ 32) false,
    .lossyRetransmitTimer 0 0 (2 ^ 32), .frameReceive 0 0 (List.replicate 65536 0) .bad, .catRead 4161 0, .catRead 0 65536, .catWrite 4161 0,
    .catWrite 0 65536, .catFlush 4161 0, .catFlush 0 65536, .catDeallocate 4161 0, .catDeallocate 0 65536, .backendTimeout 0 65536,
    .remoteBackendCompletion 0 (List.replicate 7 0), .pfDoorbellWrite 0 (2 ^ 27) 0, .pfDoorbellWrite 0 2 0, .bar4Write 0 0 [] false,
    .bar4Write 0 (2 ^ 36) [0] false, .completionTimeout 0 65536, .tagQuarantineEnd 0 65536, .pcieCompletionReceive 0 65536 0 (.data []) false,
    .pcieCompletionReceive 0 0 8 (.data []) false, .atsInvalidation 0 0 0 11, .atsInvalidation 0 0 0 65, .atsInvalidation 0 0 (2 ^ 64) 12,
    .inboundRequest 0 (.write 0 [] false), .inboundRequest 0 (.read (2 ^ 64) 1), .inboundRequest 0 (.atomic (2 ^ 64)),
    .vfDoorbellWrite 0 0 0 0 [] false, .vfDoorbellWrite 0 0 0 4095 [0, 0] false, .inputChange 4 true, .inputStuck 56,
    .mctpRequest true 128 0, .pcieLinkError 0 .badTlp (List.replicate 5 0) ] : List Instr).any Instr.wf) = false := by
  decide +kernel
theorem test_illformed_packets_refused :
    (packetRows.all fun r => (illPackets r.1).all fun k => !(r.2 k).wf) = true ∧ (packetRows.all fun r => (r.2 { type := r.1 }).wf) = true := by
  decide +kernel
/-- The nearest terms inside each bound. -/
theorem test_wellformed_bounds :
    ([ .registerWrite (.host 0) (.device (2 ^ 48 - 1)) 1 255, .rwpPairWrite (.host 0) .HEL_CAP_W helCell (2 ^ 32 - 1),
       .rwpComplementCheck .HEL_CAP_W helCell true, .quiesceComplete helCell, .localApertureAccess (.host 0) guider0 true 0x3FFF8 8 (2 ^ 64 - 1),
       .collectiveRunArrive { run0 with fmt := 15, rank := 4095 }, .catRead 4160 65535, .feedPush 0 65535, .atsInvalidation 0 0 0 12,
       .bar4Write 0 (2 ^ 36 - 1) [0] false, .vfDoorbellWrite 0 0 0 4095 [0] false, .inputChange 55 true,
       .remoteBackendCompletion 0 (List.replicate 8 0), .pcieLinkError 0 .badTlp (List.replicate 4 0) ] : List Instr).all Instr.wf = true := by
  decide +kernel

/-! ## The spec's worked examples: expected values are those its text works out -/

/-- Chapter 2, "finding a cell by id". -/
theorem test_cell_ids : guiderCell (14 * 8 + 5) = 0xAE06 ∧ clusterCell 14 = 0xAE00 ∧ quadCell 0 1 289 = 0x4321 ∧ kindOf 0xAE06 = 0x18 := by
  decide +kernel
/-- Chapter 2, "interleave of a strided walk". -/
theorem test_interleave : stackOf 0x123000 = 3 ∧ stackLocal 0x123000 = 0x24000 ∧
    (List.range 8).map (fun i => stackOf (i * 0x8000)) = [0, 1, 2, 3, 4, 5, 6, 7] ∧
    (List.range 8).map (fun i => stackOf (i * 0x200000)) = [0, 1, 2, 3, 4, 5, 6, 7] := by
  decide +kernel
/-- Chapter 3, "one rounding per block". -/
theorem test_one_rounding :
    let p : Product := ⟨decodeElem .e4m3 true 0x3C, decodeElem .e4m3 true 0x48, mxScale 0x7F, mxScale 0x7C⟩
    let z : Product := { p with a := .zero, b := .zero }
    (blockStep 0x4B800000 ([p, p] ++ List.replicate 30 z)).1 = 0x4B800001 := by
  decide +kernel
/-- Chapter 3, "stochastic rounding to BF16": the draw decides at 24,576. -/
theorem test_stochastic_rounding :
    (convertOut .bf16 false false .sr 14864 (fromFp32 0x3F806000)).1 = 0x3F81 ∧
    (convertOut .bf16 false false .sr 24576 (fromFp32 0x3F806000)).1 = 0x3F80 := by
  decide +kernel
/-- Chapter 3, "quantising one block to MXFP8": 300.0, 0.01 and zeroes; and 460.0. -/
theorem test_mx_quantise :
    let b (v : Nat) := mxQuantise .e4m3 .rne ((fromFp32 v, 0) :: (fromFp32 0x3C23D70A, 0) :: List.replicate 30 (.zero, 0))
    (b 0x43960000).1 = 0x7F ∧ (b 0x43960000).2.1.take 2 = [0x79, 0x05] ∧ (b 0x43E60000).1 = 0x7F ∧ (b 0x43E60000).2.1.take 1 = [0x7E] := by
  decide +kernel
/-- Chapter 3, "one sum, three orders". -/
theorem test_exact_sum :
    let sum (l : List Nat) := l.foldl (fun w v => w.add (fromFp32 v) false) ({} : ExactWord)
    (sum [0x3F800000]).toNat = 2 ^ 149 ∧ (sum [0x3F800000, 0x71800000]).toNat = 2 ^ 149 + 2 ^ 249 ∧
    ([[0x71800000, 0x3F800000, 0xF1800000], [0x71800000, 0xF1800000, 0x3F800000], [0x3F800000, 0xF1800000, 0x71800000]].all fun l =>
      (sum l).sum == 2 ^ 149 && ((sum l).round .fp32 false).1 == 0x3F800000 && ExactWord.ofNat (sum l).toNat == sum l) = true := by
  decide +kernel
/-- Chapter 13, "weights, a late waker and overhead": queue 100 and nine frames of queue 101 under one service. -/
theorem test_start_tags :
    let s := State.reset.advance 100 (svcKey 5) (chargedLen 1518 0x0E) 3
    let s := (List.range 8).foldl (fun s _ => s.advance 101 (svcKey 5) (chargedLen 82 0x0E) 1) s
    s.startTag 100 = 32768000 ∧ s.startTag 101 = 33554432 ∧ s.vtimeOf (svcKey 5) = 29360128 ∧ chargedLen 1518 0x34 = 1538 := by
  decide +kernel
/-- Chapter 14, "a striped write": the parts of WRITE 0x0010 on drives D4 to D7. -/
theorem test_striped_write :
    let vol := words 16 [(0, 1 + 12 * 16 + 6 * 256 + 3 * 4096), (2, 0x100000)]
    (catSplit vol ([4, 5, 6, 7].map fun d => (d, beWords 1)) 1000 100 101).map (fun p => (p.lba, p.nb, p.be, p.block)) =
      [(1000, 24, 7, 232), (1024, 64, 4, 256), (1088, 12, 5, 256)] := by
  decide +kernel
/-- Chapter 4, "the reference operation" and "a short chunk": P in slots. -/
theorem test_slots :
    let d (m n k out : Nat) : PrimDesc := ⟨0, words 48 [(0, 1), (6, m), (7, n), (8, k), (9, out)], guider0, 0, false⟩
    let e4m3 := (List.range 16).find? (fun c => Fmt.ofCode c == some .e4m3)
    e4m3.map (fun c => ((d 65536 16384 16384 (c + c * 256)).slots, (d 1024 2048 8192 (c + c * 256)).slots)) = some (4194304, 13312) := by
  decide +kernel

/-! ## Instruction words -/

/-- Chapter 8, "issuing a descriptor and waiting on it": the words its table gives. -/
theorem test_decode_worked_example :
    decodeXq guider0 0x100000B8 0x00008010 = some (.clrb guider0 (.imm 0x8010)) ∧
    decodeXq guider0 0x0000853C 0 = some (.prim guider0 5 4) ∧
    decodeXq guider0 0x00004028 0 = some (.bcc guider0 .eq (.short 4)) ∧
    decodeXq guider0 0x800000B8 0x40010000 = some (.waitb guider0 (.imm 0x40010000) false) ∧
    decodeXq guider0 0x00004E28 0 = some (.bcc guider0 .al (.short 4)) ∧
    decodeXq guider0 0xFFFF7E28 0 = some (.bcc guider0 .al (.short (-9))) := by
  decide +kernel
/-- One word of each group, written out from the formats of R267: rd 1, ra 2, rb 3 where the format has them. -/
theorem test_decode_groups :
    let r (op fn : Nat) : BitVec 32 := BitVec.ofNat 32 (op + 1 * 2 ^ 8 + 2 * 2 ^ 13 + 3 * 2 ^ 18 + fn * 2 ^ 23)
    decodeXq guider0 (r 0x01 0x100) 0 = some (.add guider0 true 1 2 3) ∧ decodeXq guider0 (r 0x02 0x0A) 0 = some (.sar guider0 false 1 2 3) ∧
    decodeXq guider0 (r 0x04 0x101) 0 = some (.cas guider0 true 1 2 3) ∧ decodeXq guider0 (r 0x05 2) 0 = some (.sel guider0 .cs 1 2 3) ∧
    decodeXq guider0 (r 0x3C 1) 0 = some (.move guider0 1 2 3) ∧ decodeXq filter0 (r 0x40 0x18) 0 = some (.fgmul filter0 1 2 3) ∧
    decodeXq guider0 0xFFFC4108 0 = some (.addi guider0 1 2 (.short (-1))) ∧
    decodeXq guider0 0x0114410D 0 = some (.shli guider0 true 1 2 5) ∧ decodeXq guider0 0x00004188 7 = some (.addi guider0 1 2 (.long 7)) ∧
    decodeXq guider0 0x00100120 0 = some (.stb guider0 1 0 (.short 4)) ∧ decodeXq guider0 0xFFFFFF29 0 = some (.call guider0 (.short (-1))) ∧
    decodeXq guider0 0x02002130 0 = some (.crw guider0 1 1) ∧ decodeXq guider0 0x00123435 0 = some (.sys guider0 0x1234) ∧
    decodeXq guider0 0x720C4838 0 = some (.bopb guider0 2 3 4 8) ∧ decodeXq guider0 0x00144039 0 = some (.bb guider0 (.short 2 2) true) ∧
    decodeXq guider0 0x000021B9 9 = some (.bb guider0 (.long 9 2) true) ∧ decodeXq filter0 0x00104141 0 = some (.vld filter0 1 2 4) := by
  decide +kernel
/-- R268, R272: what is undefined, and what a core kind lacks. -/
theorem test_decode_undefined :
    ([0, 0x03, 0x07800005, 0x00000F28, 0x60000034, 0x00000040].all fun w => (decodeXq guider0 (BitVec.ofNat 32 w) 0).isNone) = true ∧
    decodeXq filter0 0x00000004 0 = none ∧ decodeXq filter0 0x00001001 0 = none := by
  decide +kernel
/-- Whether a defined word, and no other, selects an instruction, for every FN of the groups and every OP, with the other fields 0. -/
def selects (c : CoreRef) (w : Nat) : Bool := definedWord c w == (decodeXq c (BitVec.ofNat 32 w) 0).isSome
theorem test_decode_functions :
    ([0x01, 0x02, 0x04, 0x05, 0x2A, 0x2C, 0x34, 0x3C, 0x40].all fun op => (List.range 32 ++ [0x100, 0x105, 0x110, 0x114]).all fun fn =>
      selects guider0 (op + fn * 2 ^ 23) && selects filter0 (op + fn * 2 ^ 23)) = true := by
  decide +kernel
theorem test_decode_bit_functions :
    ([0x38, 0xB8].all fun op => (List.range 16).all fun fn => selects guider0 (op + fn * 2 ^ 28) && selects filter0 (op + fn * 2 ^ 28)) = true := by
  decide +kernel
theorem test_decode_ops : ((List.range 256).all fun op => selects guider0 op && selects dome1 op && selects filter0 op) = true := by
  decide +kernel

end Sys2Proof.Tests
end

section
/-! SUPPORT. What power-on reset leaves, and which cells are not ENABLED. -/

namespace Sys2Proof.Machine

open Sys2Proof

theorem State.reset_reg (r : RegId) (cell i : Nat) : State.reset.reg r cell i = resetValue r cell i := by
  unfold State.reg; split <;> rfl

theorem State.reset_inv : State.reset.Inv :=
  ⟨rfl, rfl, rfl, rfl, fun _ h => absurd h List.not_mem_nil, fun _ h => absurd h List.not_mem_nil⟩

/-- R54: a cell with an enable comes out of reset with EN 0. -/
theorem State.reset_en {cell : Nat} (h : noEnable cell = false) : State.reset.flag F.CELL_CTRL_EN cell = false := by
  unfold State.flag State.fld
  rw [State.reset_reg]
  simp [F.CELL_CTRL_EN, resetValue, h, bitsOf]

/-- Every path begins with the cell itself. -/
theorem cellPath_eq_cons (cell : Nat) : ∃ up, cellPath cell = cell :: up := by
  unfold cellPath
  split
  · next h => exact ⟨[], by rw [h]⟩
  · split
    · exact ⟨_, rfl⟩
    · split <;> exact ⟨_, rfl⟩

/-- R55: a cell whose EN is 0 is not ENABLED. -/
theorem State.enabled_of_en_eq_false {s : State} {cell : Nat} (h : s.flag F.CELL_CTRL_EN cell = false) : s.enabled cell = false := by
  obtain ⟨up, hp⟩ := cellPath_eq_cons cell
  have hs : s.cellState cell ≠ 3 := by
    unfold State.cellState
    rw [hp, State.pathState, h]
    split_ifs <;> simp_all
  simp [State.enabled, hs]

end Sys2Proof.Machine

open Sys2Proof.Machine in
/-- Settles O59: nothing is listed after reset, so every map reads its reset value. -/
theorem resetLeavesThePartWellKept : Obligations.ResetLeavesThePartWellKept := by
  refine ⟨State.reset_inv, rfl, rfl, rfl, rfl, rfl, State.reset_reg,
    fun _ => ⟨rfl, rfl, rfl, rfl⟩, fun d _ hd => ?_, ?_, ?_, ?_, ?_⟩
  · exact State.enabled_of_en_eq_false (State.reset_en hd)
  all_goals decide
end


section
/-! SUPPORT. The write of a register (R14 to R16): its bits, its fields by their types, who reaches it, and what an access meets. -/

namespace Sys2Proof.Machine

open Sys2Proof

/-! ### Bits of numbers -/

theorem testBit_bitsOf (v hi lo j : Nat) : (bitsOf v hi lo).testBit j = (decide (j < hi - lo + 1) && v.testBit (lo + j)) := by
  rw [bitsOf, Nat.testBit_mod_two_pow, Nat.testBit_div_two_pow, Nat.add_comm j lo]

/-- R14: a number with bits [hi:lo] replaced, bit by bit. -/
theorem testBit_putBits {v hi lo x : Nat} (hl : lo ≤ hi) (j : Nat) :
    (putBits v hi lo x).testBit j = if lo ≤ j ∧ j ≤ hi then x.testBit (j - lo) else v.testBit j := by
  have hlow : v % 2 ^ lo < 2 ^ lo := Nat.mod_lt _ (by positivity)
  have hmid : x % 2 ^ (hi - lo + 1) < 2 ^ (hi - lo + 1) := Nat.mod_lt _ (by positivity)
  rw [putBits_split hl, Nat.add_comm, Nat.testBit_two_pow_mul_add _ hlow, Nat.add_comm (x % _), Nat.testBit_two_pow_mul_add _ hmid,
    Nat.testBit_mod_two_pow, Nat.testBit_mod_two_pow, Nat.testBit_div_two_pow]
  rcases lt_or_ge j lo with hj | hj
  · simp [hj, Nat.not_le.mpr hj]
  · rcases le_or_gt j hi with hh | hh
    · simp [hj, hh, Nat.not_lt.mpr hj, show j - lo < hi - lo + 1 by omega]
    · simp [Nat.not_le.mpr hh, Nat.not_lt.mpr hj, show ¬ j - lo < hi - lo + 1 by omega, show j - lo - (hi - lo + 1) + (hi + 1) = j by omega]

/-- A field reads as before when other bits are replaced. -/
theorem bitsOf_putBits_of_disjoint {v hi lo x hi' lo' : Nat} (hl : lo ≤ hi) (hl' : lo' ≤ hi') (h : hi' < lo ∨ hi < lo') :
    bitsOf (putBits v hi lo x) hi' lo' = bitsOf v hi' lo' := by
  refine Nat.eq_of_testBit_eq fun j => ?_
  rw [testBit_bitsOf, testBit_bitsOf, testBit_putBits hl]
  by_cases hj : j < hi' - lo' + 1
  · rw [if_neg (by omega)]
  · simp [hj]

theorem bitsOf_lt (v hi lo : Nat) : bitsOf v hi lo < 2 ^ (hi - lo + 1) := Nat.mod_lt _ (by positivity)

theorem bitsOf_ofNat {v hi lo : Nat} (hv : v < 2 ^ 64) : bitsOf (BitVec.ofNat 64 v).toNat hi lo = bitsOf v hi lo := by
  rw [BitVec.toNat_ofNat, Nat.mod_eq_of_lt hv]

/-- R14: the ones of x that a mask takes out, counted off. -/
theorem and_mask_sub {x y w : Nat} (hx : x < 2 ^ w) (hy : y < 2 ^ w) : x &&& (2 ^ w - 1 - y) = x - (x &&& y) := by
  obtain ⟨X, rfl⟩ : ∃ X : BitVec w, X.toNat = x := ⟨⟨x, hx⟩, rfl⟩
  obtain ⟨Y, rfl⟩ : ∃ Y : BitVec w, Y.toNat = y := ⟨⟨y, hy⟩, rfl⟩
  have hd : (X &&& ~~~Y) &&& (X &&& Y) = 0#w := by
    ext i
    cases hX : X[i] <;> cases hY : Y[i] <;> simp [hX, hY]
  have hs : (X &&& ~~~Y) + (X &&& Y) = X := by
    rw [BitVec.add_eq_or_of_and_eq_zero _ _ hd]
    ext i
    cases hX : X[i] <;> cases hY : Y[i] <;> simp [hX, hY]
  have h := BitVec.toNat_add_of_and_eq_zero hd
  rw [hs, BitVec.toNat_and, BitVec.toNat_and, BitVec.toNat_not] at h
  omega

/-! ### The fields of a register -/

/-- R14: the fields of every map lie one above the other, within 64 bits. -/
theorem RegId.fields_apart (r : RegId) :
    r.map.fields.Pairwise (fun f g => f.hi < g.lo) ∧ ∀ f ∈ r.map.fields, f.lo ≤ f.hi ∧ f.hi < 64 := by
  cases r <;> decide

/-- R14: what one field of a register holds after a write of v to the register: x is the register's value before. -/
def FieldMap.write (v x : Nat) (f : FieldMap) : Nat :=
  match f.ty with
  | .rw | .rwp => putBits x f.hi f.lo (bitsOf v f.hi f.lo)
  | .rw1c => putBits x f.hi f.lo (bitsOf x f.hi f.lo &&& (2 ^ (f.hi - f.lo + 1) - 1 - bitsOf v f.hi f.lo))
  | _ => x

theorem writeFields_eq (r : RegId) (old v : Nat) : writeFields r old v = r.map.fields.foldl (FieldMap.write v) old := rfl

/-- R14, R16: what a write of `new` leaves in a field that held `old`. -/
def FieldTy.after (ty : FieldTy) (old new : Nat) : Nat :=
  match ty with
  | .rw | .rwp => new
  | .rw1c => old - (old &&& new)
  | _ => old

theorem FieldMap.bitsOf_write (v x : Nat) {f : FieldMap} (hf : f.lo ≤ f.hi) :
    bitsOf (f.write v x) f.hi f.lo = f.ty.after (bitsOf x f.hi f.lo) (bitsOf v f.hi f.lo) := by
  unfold FieldMap.write FieldTy.after
  split
  iterate 2 rw [bitsOf_putBits hf, Nat.mod_eq_of_lt (bitsOf_lt ..)]
  · rw [bitsOf_putBits hf, and_mask_sub (bitsOf_lt ..) (bitsOf_lt ..)]
    exact Nat.mod_eq_of_lt (lt_of_le_of_lt (Nat.sub_le ..) (bitsOf_lt ..))
  · rfl

theorem FieldMap.bitsOf_write_of_disjoint (v x : Nat) {f : FieldMap} {hi lo : Nat} (hf : f.lo ≤ f.hi) (hl : lo ≤ hi)
    (h : hi < f.lo ∨ f.hi < lo) : bitsOf (f.write v x) hi lo = bitsOf x hi lo := by
  unfold FieldMap.write
  split
  iterate 3 exact bitsOf_putBits_of_disjoint hf hl h
  rfl

theorem FieldMap.write_lt (v : Nat) {x : Nat} {f : FieldMap} (hx : x < 2 ^ 64) (hf : f.lo ≤ f.hi) (h : f.hi < 64) :
    f.write v x < 2 ^ 64 := by
  unfold FieldMap.write
  split
  iterate 3 exact putBits_lt hx h hf
  exact hx

/-- A field apart from all of the fields written reads as before. -/
theorem bitsOf_foldl_write_of_disjoint {v hi lo : Nat} (hl : lo ≤ hi) {l : List FieldMap} (x : Nat)
    (h : ∀ f ∈ l, f.lo ≤ f.hi ∧ (hi < f.lo ∨ f.hi < lo)) : bitsOf (l.foldl (FieldMap.write v) x) hi lo = bitsOf x hi lo := by
  induction l generalizing x with
  | nil => rfl
  | cons f l ih =>
    obtain ⟨hf, hd⟩ := h f List.mem_cons_self
    rw [List.foldl_cons, ih _ fun g hg => h g (List.mem_cons_of_mem _ hg), FieldMap.bitsOf_write_of_disjoint v x hf hl hd]

/-- Each of the fields written takes what its type lets through. -/
theorem bitsOf_foldl_write {v : Nat} {l : List FieldMap} (x : Nat) (hp : l.Pairwise (fun f g => f.hi < g.lo)) (hw : ∀ f ∈ l, f.lo ≤ f.hi)
    {f : FieldMap} (hf : f ∈ l) :
    bitsOf (l.foldl (FieldMap.write v) x) f.hi f.lo = f.ty.after (bitsOf x f.hi f.lo) (bitsOf v f.hi f.lo) := by
  induction l generalizing x with
  | nil => cases hf
  | cons g l ih =>
    obtain ⟨hg, hp⟩ := List.pairwise_cons.mp hp
    have hgw := hw g List.mem_cons_self
    have hlw := fun k hk => hw k (List.mem_cons_of_mem _ hk)
    rw [List.foldl_cons]
    rcases List.mem_cons.mp hf with rfl | hf
    · rw [bitsOf_foldl_write_of_disjoint hgw _ fun k hk => ⟨hlw k hk, .inl (hg k hk)⟩, FieldMap.bitsOf_write v x hgw]
    · rw [ih _ hp hlw hf, FieldMap.bitsOf_write_of_disjoint v x hgw (hlw f hf) (.inr (hg f hf))]

theorem foldl_write_lt {v : Nat} {l : List FieldMap} {x : Nat} (hx : x < 2 ^ 64) (hw : ∀ f ∈ l, f.lo ≤ f.hi ∧ f.hi < 64) :
    l.foldl (FieldMap.write v) x < 2 ^ 64 := by
  induction l generalizing x with
  | nil => exact hx
  | cons f l ih =>
    obtain ⟨hf, h64⟩ := hw f List.mem_cons_self
    exact ih (FieldMap.write_lt v hx hf h64) fun g hg => hw g (List.mem_cons_of_mem _ hg)

/-- R14, R16: a write of v to a register, field by field. -/
theorem bitsOf_writeFields (r : RegId) {old : Nat} (v : Nat) (ho : old < 2 ^ 64) {f : FieldMap} (hf : f ∈ r.map.fields) :
    bitsOf (BitVec.ofNat 64 (writeFields r old v)).toNat f.hi f.lo = f.ty.after (bitsOf old f.hi f.lo) (bitsOf v f.hi f.lo) := by
  obtain ⟨hp, hw⟩ := r.fields_apart
  rw [writeFields_eq, bitsOf_ofNat (foldl_write_lt ho hw), bitsOf_foldl_write old hp (fun f hf => (hw f hf).1) hf]

/-! ### What a write of a register's fields leaves -/

@[simp] theorem State.noteLevels_reg (s : State) (r : RegId) (cell i : Nat) : s.noteLevels.reg r cell i = s.reg r cell i := rfl
@[simp] theorem State.noteLevels_fld (s : State) (f : Fld) (cell i : Nat) : s.noteLevels.fld f cell i = s.fld f cell i := rfl
@[simp] theorem State.noteLevels_flag (s : State) (f : Fld) (cell i : Nat) : s.noteLevels.flag f cell i = s.flag f cell i := rfl

theorem State.reg_putFields (s : State) (r : RegId) (cell i v : Nat) :
    (s.putFields r cell i v).reg r cell i = BitVec.ofNat 64 (writeFields r (s.reg r cell i).toNat v) := State.reg_setReg ..

/-- R14: every field of a register written holds what its type lets through. -/
theorem State.bitField_putFields (s : State) (r : RegId) (cell i v : Nat) {f : FieldMap} (hf : f ∈ r.map.fields) :
    bitField ((s.putFields r cell i v).reg r cell i) f = f.ty.after (bitField (s.reg r cell i) f) (bitsOf v f.hi f.lo) := by
  rw [State.reg_putFields]
  exact bitsOf_writeFields r v (s.reg r cell i).isLt hf

theorem State.putFields_regsKept (s : State) (r : RegId) (cell i v : Nat) : RegsKept s (s.putFields r cell i v) [regAddr r cell i] :=
  fun _ _ _ h => State.reg_setReg_of_ne s _ fun e => h (List.mem_singleton.mpr e)

theorem State.putFields_memKept (s : State) (r : RegId) (cell i v : Nat) : MemKept s (s.putFields r cell i v) := by
  unfold MemKept State.putFields
  simp

/-! ### Who reaches a register -/

/-- R489, R509: an agent that can write a register reaches it. -/
theorem State.Writable.agentActs {s : State} {g : Agent} {r : RegId} {cell i v : Nat} (h : s.Writable g r cell i v) (f : State → State) :
    s.agentActs g f = f s := by
  obtain ⟨hs, hg, -, -⟩ := h
  unfold State.agentActs
  cases g with
  | firmware k => simp [hs]
  | host p =>
    obtain ⟨hflr, hawake⟩ := hg p rfl
    simp [hs, hflr, hawake]

/-- R14, R53: what an agent that can write a register does to it. -/
theorem State.Writable.regStore {s : State} {g : Agent} {r : RegId} {cell i v : Nat} (h : s.Writable g r cell i v) :
    s.regStore g r cell i v = (s.regEffect g r cell i v).noteLevels := by
  obtain ⟨-, -, hheld, hlimit⟩ := h
  simp [State.regStore, hheld, hlimit]

/-- A write to a device address that is a register, by an agent that can write it. -/
theorem State.Writable.agentWrite {s : State} {g : Agent} {r : RegId} {cell i a n v : Nat} (h : s.Writable g r cell i v)
    (ha : regHit a n = .register cell r i) : s.agentWrite g (.device a) n v = (s.regEffect g r cell i v).noteLevels := by
  have hw : s.regWrite g a n v = (s.regEffect g r cell i v).noteLevels := by
    have hs : s.stopped = false := h.1
    rw [State.regWrite, ha, hs]
    exact h.regStore
  cases g with
  | firmware k => exact hw
  | host p => exact (h.agentActs fun s => s.regWrite (.host p) a n v).trans hw

/-- A write of a register by its name, by an agent that can write it. -/
theorem State.Writable.nameWrite {s : State} {g : Agent} {r : RegId} {cell i v : Nat} (h : s.Writable g r cell i v) :
    s.nameWrite g r cell i v = (s.regEffect g r cell i v).noteLevels := (h.agentActs _).trans h.regStore

/-- R14: a register whose write sets nothing off takes its fields; R652 notes at most who posted an entry. -/
theorem State.regEffect_of_not_acting (s : State) (g : Agent) {r : RegId} (cell i v : Nat) (h : r ∉ actingRegs) :
    ∃ d, s.regEffect g r cell i v = { s.putFields r cell i v with dom := d } := by
  unfold State.regEffect
  split
  -- an arm of an acting register contradicts h
  any_goals (refine absurd ?_ h; decide)
  -- what is left are `EPH_JOB` and the registers that only take their fields
  · exact ⟨_, rfl⟩
  · exact ⟨_, rfl⟩

theorem exec_registerWrite (g : Agent) (t : RegTarget) (n v : Nat) (s : State) :
    exec (.registerWrite g t n v) s = .next (s.agentWrite g t n v) := rfl

theorem MemKept.refl (s : State) : MemKept s s := ⟨rfl, rfl, rfl, rfl⟩

end Sys2Proof.Machine

open Sys2Proof Sys2Proof.Machine in
/-- Settles O15, from what a write leaves in each field (`State.bitField_putFields`) and where an address leads. -/
theorem registerWriteFollowsFieldTypes : Obligations.RegisterWriteFollowsFieldTypes := by
  refine ⟨fun s g a n v r cell i ha hr hw => ?_, fun s k a n v hs => ⟨fun cell ha hh => ?_, fun ha => ?_, fun ha => ?_, fun ha => ?_⟩⟩
  · obtain ⟨d, hd⟩ := s.regEffect_of_not_acting g cell i v hr
    refine ⟨_, rfl, ?_⟩
    rw [hw.agentWrite ha, hd]
    exact ⟨fun f hf => s.bitField_putFields r cell i v hf, s.putFields_regsKept r cell i v, s.putFields_memKept r cell i v⟩
  all_goals
    rw [exec_registerWrite, State.agentWrite, State.regWrite, hs, ha]
  · simp [hh, clsAccess]
  all_goals rfl
end


section
/-! SUPPORT. The registers of one cell: where they lie, what a write of one field leaves of the others, what a photometer event and an error
record change (R49, R65, R671). -/

namespace Sys2Proof.Machine

open Sys2Proof

/-! ### Where the registers of a cell lie -/

theorem strideOffset_zero (l : List (Nat × Nat)) : strideOffset l 0 = 0 := by
  unfold strideOffset
  split <;> simp

theorem regAddr_of_ccb {r : RegId} (h : r.map.kinds.isEmpty = true) (cell : Nat) : regAddr r cell 0 = ccbBase cell + r.map.offset := by
  simp [regAddr, strideOffset_zero, h]

theorem regAddr_of_unit {r : RegId} (h : r.map.kinds.isEmpty = false) (cell : Nat) : regAddr r cell 0 = unitBase cell + r.map.offset := by
  simp [regAddr, strideOffset_zero, h]

theorem RegId.offset_lt (r : RegId) : r.map.offset < 0x1000000 := by
  cases r <;> decide

/-- R49: a register of the CCB lies in the 4 KiB of the CCB. -/
theorem RegId.offset_lt_of_ccb {r : RegId} : r.map.kinds.isEmpty = true → r.map.offset < 0x1000 := by
  cases r <;> decide

theorem unitBase_eq_zero_or_le (cell : Nat) : unitBase cell = 0 ∨ 0x021000000000 ≤ unitBase cell := by
  unfold unitBase unitSlotBase
  split_ifs <;> omega

/-- R48, R51: no register of a CCB lies where a unit's register does. -/
theorem regAddr_ccb_ne_unit {r r' : RegId} {cell : Nat} (hc : cell < 0x10000) (h : r.map.kinds.isEmpty = true)
    (h' : r'.map.kinds.isEmpty = false) (cell' : Nat) : regAddr r cell 0 ≠ regAddr r' cell' 0 := by
  have ho := RegId.offset_lt_of_ccb h
  have ho' := r'.offset_lt
  rw [regAddr_of_ccb h, regAddr_of_unit h', ccbBase]
  rcases unitBase_eq_zero_or_le cell' with hu | hu <;> omega

/-- R48: registers of the CCBs of two cells lie apart. -/
theorem regAddr_ccb_ne_ccb {r r' : RegId} {cell cell' : Nat} (h : r.map.kinds.isEmpty = true) (h' : r'.map.kinds.isEmpty = true)
    (hne : cell ≠ cell') : regAddr r cell 0 ≠ regAddr r' cell' 0 := by
  have ho := RegId.offset_lt_of_ccb h
  have ho' := RegId.offset_lt_of_ccb h'
  rw [regAddr_of_ccb h, regAddr_of_ccb h', ccbBase, ccbBase]
  omega

/-- Two registers of one cell at different places. -/
def RegId.apart (r r' : RegId) : Bool := r.map.kinds.isEmpty != r'.map.kinds.isEmpty || r.map.offset != r'.map.offset

theorem regAddr_ne_of_apart {r r' : RegId} {cell : Nat} (hc : cell < 0x10000) (h : r.apart r' = true) :
    regAddr r cell 0 ≠ regAddr r' cell 0 := by
  simp only [RegId.apart, Bool.or_eq_true, bne_iff_ne] at h
  cases hk : r.map.kinds.isEmpty <;> cases hk' : r'.map.kinds.isEmpty
  · rw [regAddr_of_unit hk, regAddr_of_unit hk']; simp_all
  · exact (regAddr_ccb_ne_unit hc hk' hk cell).symm
  · exact regAddr_ccb_ne_unit hc hk hk' cell
  · rw [regAddr_of_ccb hk, regAddr_of_ccb hk']; simp_all

/-- Two fields of one cell that share no bit. -/
def Fld.apart (f g : Fld) : Bool := if f.reg = g.reg then decide (f.hi < g.lo ∨ g.hi < f.lo) else f.reg.apart g.reg

/-- The bits of a field lie within its 64-bit register. -/
def Fld.wf (f : Fld) : Bool := decide (f.lo ≤ f.hi ∧ f.hi < 64)

theorem State.fld_lt (s : State) (f : Fld) (cell i : Nat) : s.fld f cell i < 2 ^ (f.hi - f.lo + 1) := bitsOf_lt ..

theorem State.reg_setFld_of_ne (s : State) {f : Fld} {r : RegId} {cell i cell' i' : Nat} (v : Nat)
    (h : regAddr r cell' i' ≠ regAddr f.reg cell i) : (s.setFld f cell v i).reg r cell' i' = s.reg r cell' i' :=
  State.reg_setReg_of_ne s _ h

/-- A field of a cell reads as before when a field apart from it is written. -/
theorem State.fld_setFld_of_apart {cell : Nat} (hc : cell < 0x10000) (s : State) {f g : Fld} (v : Nat) (hf : f.wf = true) (hg : g.wf = true)
    (h : f.apart g = true) : (s.setFld g cell v).fld f cell = s.fld f cell := by
  simp only [Fld.wf, decide_eq_true_eq] at hf hg
  unfold Fld.apart at h
  split at h
  · next e =>
    unfold State.fld State.setFld
    rw [e, State.reg_setReg, bitsOf_ofNat (putBits_lt (s.reg g.reg cell).isLt hg.2 hg.1)]
    exact bitsOf_putBits_of_disjoint hg.1 hf.1 (of_decide_eq_true h)
  · unfold State.fld
    rw [State.reg_setFld_of_ne s v (regAddr_ne_of_apart hc h)]

/-- A field of the map that has a type of R14. -/
def Fld.hasType (f : Fld) (ty : FieldTy) : Bool := f.reg.map.fields.any fun m => m.hi == f.hi && m.lo == f.lo && m.ty == ty

/-- R14: a field of a register written holds what its type lets through. -/
theorem State.fld_putFields (s : State) {f : Fld} {ty : FieldTy} (h : f.hasType ty = true) (cell i v : Nat) :
    (s.putFields f.reg cell i v).fld f cell i = ty.after (s.fld f cell i) (bitsOf v f.hi f.lo) := by
  obtain ⟨m, hm, e⟩ := List.any_eq_true.mp h
  obtain ⟨⟨hhi, hlo⟩, hty⟩ : (m.hi = f.hi ∧ m.lo = f.lo) ∧ m.ty = ty := by simpa using e
  rw [← hhi, ← hlo, ← hty]
  have hb := s.bitField_putFields f.reg cell i v hm
  unfold bitField at hb
  rw [hhi, hlo] at hb ⊢
  exact hb

/-- A write of a register leaves the fields of the other registers of its cell. -/
theorem State.fld_putFields_of_apart {cell : Nat} (hc : cell < 0x10000) (s : State) {f : Fld} {r : RegId} (v : Nat)
    (h : f.reg.apart r = true) : (s.putFields r cell 0 v).fld f cell = s.fld f cell := by
  unfold State.fld
  rw [State.putFields, State.reg_setReg_of_ne s _ (regAddr_ne_of_apart hc h)]

/-! ### Photometer events change the photometers alone -/

/-- Nothing differs but the photometer counters and their overflow bits (R670). -/
def State.PhotOnly (s t : State) : Prop := ∃ p, t = { s with phot := p }

theorem State.PhotOnly.refl (s : State) : s.PhotOnly s := ⟨s.phot, rfl⟩

theorem State.PhotOnly.trans {s t u : State} (h : s.PhotOnly t) (k : t.PhotOnly u) : s.PhotOnly u := by
  obtain ⟨p, rfl⟩ := h
  obtain ⟨q, rfl⟩ := k
  exact ⟨q, rfl⟩

theorem State.PhotOnly.foldl {α : Type} {f : State → α → State} (h : ∀ (s : State) a, s.PhotOnly (f s a)) (l : List α) (s : State) :
    s.PhotOnly (l.foldl f s) := by
  induction l generalizing s with
  | nil => exact .refl s
  | cons a l ih => exact (h s a).trans (ih _)

theorem State.PhotOnly.reg {s t : State} (h : s.PhotOnly t) {r : RegId} (hr : r.isPhot = false) (cell i : Nat) :
    t.reg r cell i = s.reg r cell i := by
  obtain ⟨p, rfl⟩ := h
  simp [State.reg, hr]

theorem State.setFld_photOnly (s : State) {f : Fld} (hf : f.reg.isPhot = true) (cell v i : Nat) : s.PhotOnly (s.setFld f cell v i) := by
  simp only [State.setFld, State.setReg, hf, if_true]
  exact ⟨_, rfl⟩

theorem State.bumpCounter_photOnly (s : State) (cell c inc : Nat) : s.PhotOnly (s.bumpCounter cell c inc) := by
  have hcnt := fun (s : State) v i => s.setFld_photOnly (f := F.PHOT_CNTc_COUNT) rfl cell v i
  have hovf := fun (s : State) v => s.setFld_photOnly (f := F.PHOT_OVF_OVF) rfl cell v 0
  unfold State.bumpCounter
  dsimp only
  split_ifs
  · exact hcnt ..
  · exact (hcnt ..).trans (hcnt ..)
  · exact ((hcnt ..).trans (hcnt ..)).trans (hovf ..)
  · exact (hcnt ..).trans (hovf ..)

theorem State.countIn_photOnly (s : State) (cell ev inc : Nat) (qual : Option Nat) : s.PhotOnly (s.countIn cell ev inc qual) := by
  refine State.PhotOnly.foldl (fun s c => ?_) _ s
  dsimp only
  split_ifs
  · exact s.bumpCounter_photOnly cell c inc
  · exact .refl s

/-- R671: an event that is counted changes the photometers alone. -/
theorem State.count_photOnly (s : State) (cell ev : Nat) (qual : Option Nat) (inc : Nat) : s.PhotOnly (s.count cell ev qual inc) := by
  unfold State.count
  split_ifs
  · exact .refl s
  · exact State.PhotOnly.foldl (fun s c => s.countIn_photOnly c ev inc qual) _ s

@[simp] theorem State.count_mem (s : State) (cell ev : Nat) (qual : Option Nat) (inc : Nat) : (s.count cell ev qual inc).mem = s.mem := by
  obtain ⟨p, hp⟩ := s.count_photOnly cell ev qual inc
  rw [hp]

/-! ### The error record -/

/-- R65, R585: what is counted of an error before it is recorded. -/
def State.errCounted (s : State) (cell cls : Nat) : State :=
  if cls = 0x02 then (s.count cell 0x004 (some cls)).noteEcc else s.count cell 0x004 (some cls)

theorem State.errCounted_reg (s : State) (cell cls : Nat) {r : RegId} (hr : r.isPhot = false) (cell' i : Nat) :
    (s.errCounted cell cls).reg r cell' i = s.reg r cell' i := by
  unfold State.errCounted
  split
  all_goals exact (s.count_photOnly cell 0x004 (some cls) 1).reg hr cell' i

@[simp] theorem State.errCounted_mem (s : State) (cell cls : Nat) : (s.errCounted cell cls).mem = s.mem := by
  unfold State.errCounted
  split
  · exact s.count_mem ..
  · exact s.count_mem ..

theorem State.errCounted_fld (s : State) (cell cls : Nat) {f : Fld} (hr : f.reg.isPhot = false) (cell' i : Nat) :
    (s.errCounted cell cls).fld f cell' i = s.fld f cell' i := by
  unfold State.fld
  rw [State.errCounted_reg s cell cls hr]

theorem State.errCounted_valid (s : State) (cell cls : Nat) :
    (s.errCounted cell cls).flag F.CELL_ERR_STATUS_VALID cell = s.flag F.CELL_ERR_STATUS_VALID cell := by
  unfold State.flag
  rw [State.errCounted_fld s cell cls rfl]

/-- R65: an error at a cell whose record is held: COUNT rises to its end, and OVERFLOW is set. -/
theorem State.recordError_held {s : State} {cell : Nat} (h : s.flag F.CELL_ERR_STATUS_VALID cell = true) (cls addr info : Nat) :
    ∃ n, s.recordError cell cls addr info =
      ((s.errCounted cell cls).setFld F.CELL_ERR_STATUS_COUNT cell n).setFlag F.CELL_ERR_STATUS_OVERFLOW cell true := by
  rw [← State.errCounted_valid s cell cls] at h
  exact ⟨_, if_pos h⟩

/-- R65: the record of an error at a cell that holds none. -/
def State.newRecord (s : State) (cell cls addr info : Nat) : State :=
  let s := s.setFld F.CELL_ERR_STATUS_CLASS cell cls
  let s := s.setFld F.CELL_ERR_STATUS_COUNT cell 1
  let s := s.setFlag F.CELL_ERR_STATUS_VALID cell true
  let s := s.setFld F.CELL_ERR_ADDR_ADDR cell addr
  let s := s.setFld F.CELL_ERR_TIME_TIME cell s.now
  s.setFld F.CELL_ERR_INFO_INFO cell info

@[simp] theorem State.event_reg (s : State) (b : Nat) (r : RegId) (cell i : Nat) : (s.event b).reg r cell i = s.reg r cell i := rfl
@[simp] theorem State.event_fld (s : State) (b : Nat) (f : Fld) (cell i : Nat) : (s.event b).fld f cell i = s.fld f cell i := rfl
@[simp] theorem State.event_flag (s : State) (b : Nat) (f : Fld) (cell i : Nat) : (s.event b).flag f cell i = s.flag f cell i := rfl
@[simp] theorem State.event_mem (s : State) (b : Nat) : (s.event b).mem = s.mem := rfl

theorem State.recordError_new {s : State} {cell : Nat} (h : s.flag F.CELL_ERR_STATUS_VALID cell = false) (cls addr info : Nat) :
    s.recordError cell cls addr info = ((s.errCounted cell cls).newRecord cell cls addr info).event (0x40000000 + cell) := by
  rw [← State.errCounted_valid s cell cls] at h
  exact if_neg fun e => Bool.false_ne_true (h.symm.trans e)

/-- The registers of the error record (R65). -/
def errRegs : List RegId := [.CELL_ERR_STATUS, .CELL_ERR_ADDR, .CELL_ERR_TIME, .CELL_ERR_INFO]

/-- R65: a register that is no part of a cell's error record stays when an error is recorded. -/
theorem State.newRecord_reg_of_ne (s : State) {cell cell' i : Nat} {r : RegId} (h : ∀ e ∈ errRegs, regAddr r cell' i ≠ regAddr e cell 0)
    (cls addr info : Nat) : (s.newRecord cell cls addr info).reg r cell' i = s.reg r cell' i := by
  have hf : ∀ (s : State) (f : Fld) v, f.reg ∈ errRegs → (s.setFld f cell v).reg r cell' i = s.reg r cell' i :=
    fun s f v hf => s.reg_setFld_of_ne v (h _ hf)
  unfold State.newRecord State.setFlag
  simp (disch := decide) only [hf]

/-- R65: an error leaves every register but the photometers and the cell's error record. -/
theorem State.recordError_reg_of_ne (s : State) {cell cell' i : Nat} {r : RegId} (hr : r.isPhot = false)
    (h : ∀ e ∈ errRegs, regAddr r cell' i ≠ regAddr e cell 0) (cls addr info : Nat) :
    (s.recordError cell cls addr info).reg r cell' i = s.reg r cell' i := by
  have hf : ∀ (s : State) (f : Fld) v, f.reg ∈ errRegs → (s.setFld f cell v).reg r cell' i = s.reg r cell' i :=
    fun s f v hf => s.reg_setFld_of_ne v (h _ hf)
  cases hv : s.flag F.CELL_ERR_STATUS_VALID cell
  · rw [State.recordError_new hv]
    rw [State.event_reg, State.newRecord_reg_of_ne _ h, s.errCounted_reg cell cls hr]
  · obtain ⟨n, hn⟩ := State.recordError_held hv cls addr info
    rw [hn, State.setFlag, hf _ _ _ (by decide), hf _ _ _ (by decide), s.errCounted_reg cell cls hr]

/-- R65: an error leaves the fields of its own cell that are no part of the error record. -/
theorem State.recordError_fld_of_apart {cell : Nat} (hc : cell < 0x10000) (s : State) {f : Fld} (hr : f.reg.isPhot = false)
    (h : (errRegs.all fun e => f.reg.apart e) = true) (cls addr info : Nat) :
    (s.recordError cell cls addr info).fld f cell = s.fld f cell := by
  unfold State.fld
  rw [s.recordError_reg_of_ne hr fun e he => regAddr_ne_of_apart hc (List.all_eq_true.mp h e he)]

/-- R65: an error leaves memory. -/
@[simp] theorem State.recordError_mem (s : State) (cell cls addr info : Nat) : (s.recordError cell cls addr info).mem = s.mem := by
  cases hv : s.flag F.CELL_ERR_STATUS_VALID cell
  · rw [State.recordError_new hv, State.event_mem]
    simp [State.newRecord]
  · obtain ⟨n, hn⟩ := State.recordError_held hv cls addr info
    simp [hn]

/-- R65: the first error at a cell sets VALID, and its class and INFO are held. -/
theorem State.recordError_first {s : State} {cell : Nat} (hc : cell < 0x10000) (h : s.flag F.CELL_ERR_STATUS_VALID cell = false)
    (cls addr info : Nat) :
    (s.recordError cell cls addr info).flag F.CELL_ERR_STATUS_VALID cell = true ∧
    (s.recordError cell cls addr info).fld F.CELL_ERR_STATUS_CLASS cell = cls % 2 ^ 8 ∧
    (s.recordError cell cls addr info).fld F.CELL_ERR_INFO_INFO cell = info % 2 ^ 32 := by
  rw [State.recordError_new h, State.event_flag, State.event_fld, State.event_fld]
  unfold State.newRecord State.setFlag State.flag
  simp (disch := decide) only [State.fld_setFld_of_apart hc, State.fld_setFld]
  exact ⟨rfl, rfl, rfl⟩

end Sys2Proof.Machine
end


section
/-! SUPPORT. The RWP pairs (R17 to R20): their maps, what a write of either register brings into force, and what it leaves. -/

namespace Sys2Proof.Machine

open Sys2Proof

/-! ### Cells by their kinds -/

theorem lt_of_cellKind {cell : Nat} (h : (cellKind cell).isSome = true) : cell < 0x10000 := by
  by_contra hc
  simp [cellKind, Nat.not_lt.mp hc] at h

/-- R45, R46: the one slot of the Heliostat's kind, and that the Chronograph has no member cells. -/
theorem slotInfo_hel : ∀ die < 8, ∀ slot < 16, ∀ p ∈ slotInfo die slot,
    (p.1 = 0x31 → die = 1 ∧ slot = 13) ∧ (p.1 = 0x30 → p.2 = 0) := by
  decide

theorem memberKind_eq_hel {k m : Nat} (h : memberKind k m = 0x31) : k = 0x30 := by
  unfold memberKind at h
  split_ifs at h <;> omega

/-- R45: no cell but the Heliostat's is of its kind. -/
theorem eq_helCell_of_kind {cell : Nat} (h : kindOf cell = 0x31) : cell = helCell := by
  unfold kindOf cellKind at h
  dsimp only at h
  split_ifs at h with hlt h0 hdie hslot h1 h2 hm
  all_goals try simp at h
  all_goals
    have hslots := slotInfo_hel (cellDie cell) (by unfold cellDie; omega) (cellSlot cell) (by unfold cellSlot; omega)
    cases hp : slotInfo (cellDie cell) (cellSlot cell) with
    | none => simp [hp] at h
    | some p => ?_
  all_goals
    obtain ⟨h31, h30⟩ := hslots p (by simp [hp])
    simp only [hp, Option.getD_some] at h
  · obtain ⟨hd, hs⟩ := h31 h
    unfold cellDie at hd; unfold cellSlot at hs; unfold cellMember at hm; unfold helCell
    omega
  · split_ifs at h with hn
    · have := h30 (memberKind_eq_hel h)
      omega
    · simp at h

/-! ### Fields written one after another -/

/-- An operation on the field of a pair leaves every field of the cell apart from the pair's value in force. -/
def ForcesOnly (cell : Nat) (op : State → RwpField → State) : Prop :=
  ∀ (s : State) (f : RwpField) (g : Fld), g.wf = true → g.apart f.force = true → f.force.wf = true → (op s f).fld g cell = s.fld g cell

theorem fld_foldl_of_forcesOnly {cell : Nat} {op : State → RwpField → State} (hop : ForcesOnly cell op) {g : Fld} (hg : g.wf = true)
    {l : List RwpField} (h : ∀ f ∈ l, f.force.wf = true ∧ g.apart f.force = true) (s : State) :
    (l.foldl op s).fld g cell = s.fld g cell := by
  induction l generalizing s with
  | nil => rfl
  | cons f l ih =>
    obtain ⟨hw, ha⟩ := h f List.mem_cons_self
    rw [List.foldl_cons, ih fun k hk => h k (List.mem_cons_of_mem _ hk), hop s f g hg ha hw]

/-- Of operations on several pairs, one sets the value in force of pair f: to what it gives on the state they begin with. -/
theorem fld_foldl_force {cell : Nat} {op : State → RwpField → State} (hop : ForcesOnly cell op) {val : State → Nat} {f : RwpField}
    (hval : ∀ s, (op s f).fld f.force cell = val s) {l : List RwpField} (hnd : l.Nodup) (hf : f ∈ l)
    (hkeep : ∀ g ∈ l, g ≠ f → ∀ s, val (op s g) = val s)
    (hl : ∀ g ∈ l, g.force.wf = true ∧ (g ≠ f → f.force.apart g.force = true)) (s : State) :
    (l.foldl op s).fld f.force cell = val s := by
  induction l generalizing s with
  | nil => cases hf
  | cons g l ih =>
    obtain ⟨hgl, hnd⟩ := List.nodup_cons.mp hnd
    have hl' := fun k hk => hl k (List.mem_cons_of_mem _ hk)
    rw [List.foldl_cons]
    rcases List.mem_cons.mp hf with rfl | hf
    · rw [fld_foldl_of_forcesOnly hop (hl f List.mem_cons_self).1
        fun k hk => ⟨(hl' k hk).1, (hl' k hk).2 fun e => hgl (e ▸ hk)⟩, hval]
    · rw [ih hnd hf (fun k hk => hkeep k (List.mem_cons_of_mem _ hk)) hl']
      exact hkeep g List.mem_cons_self (fun e => hgl (e ▸ hf)) s

/-! ### RWP pairs: the maps -/

/-- One of the two fields of a pair. -/
def RwpField.side (f : RwpField) (compl : Bool) : Fld := if compl then f.comp else f.value

/-- The pairs whose value or complement a register holds. -/
def rwpOn (r : RegId) : List RwpField := rwpFields.filter fun f => f.value.reg = r ∨ f.comp.reg = r

theorem mem_rwpOn_side {f : RwpField} (hf : f ∈ rwpFields) (compl : Bool) : f ∈ rwpOn (f.side compl).reg :=
  List.mem_filter.mpr ⟨hf, by cases compl <;> simp [RwpField.side]⟩

theorem rwpOn_nodup (r : RegId) : (rwpOn r).Nodup := List.Nodup.filter _ (by decide)

/-- R17, R20: how the fields of a pair lie in their registers. -/
theorem rwpFields_layout : ∀ f ∈ rwpFields,
    f.value.hasType .rwp = true ∧ f.comp.hasType .rwp = true ∧ f.force.hasType .ro = true ∧
    f.force.reg = f.value.reg ∧ f.value.reg.apart f.comp.reg = true ∧ f.comp.reg.apart f.value.reg = true ∧
    f.comp.hi - f.comp.lo = f.value.hi - f.value.lo := by
  decide

/-- R20: the range of a value in force fits its field. -/
theorem rwpFields_range : ∀ f ∈ rwpFields, f.force.wf = true ∧ max f.lo f.hi < 2 ^ (f.force.hi - f.force.lo + 1) := by
  decide

/-- R17, R20: of the pairs that one register holds, no value in force shares a bit with another field of them. -/
theorem rwpOn_apart : ∀ f ∈ rwpFields, ∀ compl, ∀ g ∈ rwpOn (f.side compl).reg,
    (g ≠ f → f.force.apart g.force = true) ∧ ∀ side, (f.side side).wf = true ∧ (f.side side).apart g.force = true := by
  decide

/-- The error record of a cell is no part of a register of a pair. -/
theorem rwpFields_err_apart : ∀ f ∈ rwpFields, ∀ h ∈ [F.CELL_ERR_STATUS_VALID, F.CELL_ERR_STATUS_COUNT],
    h.wf = true ∧ h.apart f.force = true ∧ ∀ compl, h.reg.apart (f.side compl).reg = true := by
  decide

/-! ### RWP pairs: what a write brings into force -/

/-- R18, R20: what is in force of a pair once a write has left its value and complement as they stand. -/
def State.rwpInForce (s : State) (f : RwpField) (cell : Nat) : Nat :=
  if s.fld f.value cell + s.fld f.comp cell = 2 ^ (f.value.hi - f.value.lo + 1) - 1 then max f.lo (min f.hi (s.fld f.value cell))
  else s.fld f.force cell

theorem State.rwpTake_forcesOnly {cell : Nat} (hc : cell < 0x10000) : ForcesOnly cell fun s f => s.rwpTake f cell := by
  intro s f g hg ha hw
  dsimp only [State.rwpTake]
  split
  · exact State.fld_setFld_of_apart hc s _ hg hw ha
  · rfl

theorem State.fld_rwpTake_force (s : State) {f : RwpField} (hf : f ∈ rwpFields) (cell : Nat) :
    (s.rwpTake f cell).fld f.force cell = s.rwpInForce f cell := by
  obtain ⟨hw, hfit⟩ := rwpFields_range f hf
  simp only [Fld.wf, decide_eq_true_eq] at hw
  have hv : max f.lo (min f.hi (s.fld f.value cell)) < 2 ^ (f.force.hi - f.force.lo + 1) := lt_of_le_of_lt (by omega) hfit
  unfold State.rwpTake State.rwpInForce State.agrees
  simp only [beq_iff_eq]
  split
  · rw [State.fld_setFld _ _ _ _ _ hw.2 hw.1, Nat.mod_eq_of_lt hv]
  · rfl

theorem State.rwpCommit_eq {r : RegId} (h : r ≠ .PRIM_MAP ∧ r ≠ .PRIM_MAP_C) (s : State) (cell : Nat) :
    s.rwpCommit r cell = (rwpOn r).foldl (fun (s : State) f => s.rwpTake f cell) s := by
  unfold State.rwpCommit
  rw [if_neg (by tauto)]
  rfl

theorem rwpFields_not_map : ∀ f ∈ rwpFields, ∀ compl, (f.side compl).reg ≠ .PRIM_MAP ∧ (f.side compl).reg ≠ .PRIM_MAP_C := by
  decide

/-- R18: a write of a register of pair f brings f into force where it agrees. -/
theorem State.fld_rwpCommit_force {cell : Nat} (hc : cell < 0x10000) (s : State) {f : RwpField} (hf : f ∈ rwpFields) (compl : Bool) :
    (s.rwpCommit (f.side compl).reg cell).fld f.force cell = s.rwpInForce f cell := by
  rw [State.rwpCommit_eq (rwpFields_not_map f hf compl)]
  refine fld_foldl_force (State.rwpTake_forcesOnly hc) (fun s => s.fld_rwpTake_force hf cell) (rwpOn_nodup _) (mem_rwpOn_side hf compl)
    (fun g hg hne s => ?_) (fun g hg => ?_) s
  all_goals
    obtain ⟨haf, hside⟩ := rwpOn_apart f hf compl g hg
    obtain ⟨⟨hv, hav⟩, hcp, hac⟩ := And.intro (hside false) (hside true)
    have hw := (rwpFields_range g (List.mem_of_mem_filter hg)).1
  · have hk : ∀ h : Fld, h.wf = true → h.apart g.force = true → (s.rwpTake g cell).fld h cell = s.fld h cell :=
      fun h hh ha => State.rwpTake_forcesOnly hc s g h hh ha hw
    unfold State.rwpInForce
    rw [hk f.value hv hav, hk f.comp hcp hac, hk f.force (rwpFields_range f hf).1 (haf hne)]
  · exact ⟨hw, haf⟩

/-- R18: bringing a pair into force leaves the other fields of the cell. -/
theorem State.fld_rwpCommit_of_apart {cell : Nat} (hc : cell < 0x10000) (s : State) {f : RwpField} (hf : f ∈ rwpFields) (compl : Bool)
    {g : Fld} (hg : g.wf = true) (h : ∀ k ∈ rwpOn (f.side compl).reg, g.apart k.force = true) :
    (s.rwpCommit (f.side compl).reg cell).fld g cell = s.fld g cell := by
  rw [State.rwpCommit_eq (rwpFields_not_map f hf compl)]
  exact fld_foldl_of_forcesOnly (State.rwpTake_forcesOnly hc) hg
    (fun k hk => ⟨(rwpFields_range k (List.mem_of_mem_filter hk)).1, h k hk⟩) s

theorem MemKept.trans {s t u : State} (h : MemKept s t) (k : MemKept t u) : MemKept s u := by
  obtain ⟨h1, h2, h3, h4⟩ := h
  obtain ⟨k1, k2, k3, k4⟩ := k
  exact ⟨k1.trans h1, k2.trans h2, k3.trans h3, k4.trans h4⟩

theorem MemKept.foldl {α : Type} {f : State → α → State} (h : ∀ (s : State) a, MemKept s (f s a)) (l : List α) (s : State) :
    MemKept s (l.foldl f s) := by
  induction l generalizing s with
  | nil => exact .refl s
  | cons a l ih => exact (h s a).trans (ih _)

theorem State.rwpTake_memKept (s : State) (f : RwpField) (cell : Nat) : MemKept s (s.rwpTake f cell) := by
  unfold State.rwpTake
  split
  · unfold MemKept; simp
  · exact .refl s

theorem State.rwpCommit_memKept {r : RegId} (h : r ≠ .PRIM_MAP ∧ r ≠ .PRIM_MAP_C) (s : State) (cell : Nat) :
    MemKept s (s.rwpCommit r cell) := by
  rw [State.rwpCommit_eq h]
  exact MemKept.foldl (fun s f => s.rwpTake_memKept f cell) _ s

/-! ### RWP pairs: the write of one register -/

/-- The registers of RWP pairs (R17). -/
def rwpRegs : List RegId :=
  [.PRIM_MAP, .PRIM_MAP_C, .PRIM_CLK_CAP, .PRIM_CLK_CAP_C, .HEL_CAP_W, .HEL_CAP_W_C, .HEL_PEAK, .HEL_PEAK_C, .CHR_TB_RATE, .CHR_TB_RATE_C]

theorem rwpFields_regs : ∀ f ∈ rwpFields, ∀ compl, (f.side compl).reg ∈ rwpRegs := by
  decide

/-- R18: a write of a register of an RWP pair takes its fields, and brings into force what agrees. -/
theorem State.regEffect_rwp (s : State) (g : Agent) {r : RegId} (hr : r ∈ rwpRegs) (cell i v : Nat) :
    s.regEffect g r cell i v = (s.putFields r cell i v).rwpCommit r cell := by
  fin_cases hr <;> rfl

theorem rwpRegs_written : ∀ r ∈ rwpRegs, (rwpFields.any fun f => f.value.reg = r ∨ f.comp.reg = r) ∨ r = .PRIM_MAP ∨ r = .PRIM_MAP_C := by
  decide

/-- R18: the command that writes a register of an RWP pair, by an agent that can write it. -/
theorem exec_rwpPairWrite {s : State} {g : Agent} {r : RegId} {cell v : Nat} (hr : r ∈ rwpRegs) (hk : (cellKind cell).isSome = true)
    (hh : hasReg r cell = true) (hw : s.Writable g r cell 0 v) :
    exec (.rwpPairWrite g r cell v) s = .next ((s.putFields r cell 0 v).rwpCommit r cell).noteLevels := by
  change execRwpPairWrite g r cell v s = _
  rw [execRwpPairWrite, if_pos (rwpRegs_written r hr), State.cellWrite, if_pos ⟨hk, hh⟩, hw.nameWrite, s.regEffect_rwp g hr]

/-- The two fields of pair f and its value in force after a write of v to the register of one of them. -/
theorem State.fld_putFields_rwp {cell : Nat} (hc : cell < 0x10000) (s : State) {f : RwpField} (hf : f ∈ rwpFields) (compl : Bool) (v : Nat) :
    (s.putFields (f.side compl).reg cell 0 v).fld f.value cell
        = (if compl then s.fld f.value cell else bitsOf v (f.side compl).hi (f.side compl).lo) ∧
    (s.putFields (f.side compl).reg cell 0 v).fld f.comp cell
        = (if compl then bitsOf v (f.side compl).hi (f.side compl).lo else s.fld f.comp cell) ∧
    (s.putFields (f.side compl).reg cell 0 v).fld f.force cell = s.fld f.force cell := by
  obtain ⟨hv, hcp, hro, hreg, hap, hap', -⟩ := rwpFields_layout f hf
  cases compl
  · refine ⟨s.fld_putFields hv cell 0 v, State.fld_putFields_of_apart hc s v hap', ?_⟩
    rw [RwpField.side, if_neg Bool.false_ne_true, ← hreg]
    exact s.fld_putFields hro cell 0 v
  · exact ⟨State.fld_putFields_of_apart hc s v hap, s.fld_putFields hcp cell 0 v, State.fld_putFields_of_apart hc s v (by rw [hreg]; exact hap)⟩

/-- R20, R634: what PEAK_W_IN_FORCE of the Heliostat reads. -/
theorem State.regNow_helPeak (s : State) :
    s.regNow .HEL_PEAK helCell 0 / 2 ^ 32 % 2 ^ 12
      = max (s.fld F.HEL_CAP_W_CAP_IN_FORCE helCell) (s.fld F.HEL_PEAK_PEAK_W_IN_FORCE helCell) := by
  have hp : s.helPeak < 2 ^ 12 := max_lt (s.fld_lt F.HEL_CAP_W_CAP_IN_FORCE helCell 0) (s.fld_lt F.HEL_PEAK_PEAK_W_IN_FORCE helCell 0)
  change bitsOf (putBits (s.reg .HEL_PEAK helCell 0).toNat 43 32 s.helPeak) 43 32 = _
  rw [bitsOf_putBits (by decide), Nat.mod_eq_of_lt hp]
  rfl

theorem rwpFields_peak : ∀ f ∈ rwpFields, f.value = F.HEL_PEAK_PEAK_W →
    f.force = F.HEL_PEAK_PEAK_W_IN_FORCE ∧ ∀ compl, (f.side compl).reg.map.kinds = [0x31] := by
  decide

theorem kindOf_of_hasReg {r : RegId} {cell k : Nat} (hk : r.map.kinds = [k]) (h : hasReg r cell = true) : kindOf cell = k := by
  simp [hasReg, hk] at h
  exact h.1.1

/-- R18, R19, R20: a write of either register of pair f. -/
theorem rwpPairWrite_spec {s : State} {g : Agent} {f : RwpField} {cell v : Nat} {compl : Bool} (hf : f ∈ rwpFields)
    (hk : (cellKind cell).isSome = true) (hh : hasReg (f.side compl).reg cell = true) (hw : s.Writable g (f.side compl).reg cell 0 v) :
    let w := f.value.hi - f.value.lo + 1
    let x := v / 2 ^ (f.side compl).lo % 2 ^ w
    let value := if compl then s.fld f.value cell else x
    let comp := if compl then x else s.fld f.comp cell
    ∃ t, exec (.rwpPairWrite g (f.side compl).reg cell v) s = .next t ∧
      t.fld (f.side compl) cell = x ∧
      t.fld f.force cell = (if value + comp = 2 ^ w - 1 then max f.lo (min f.hi value) else s.fld f.force cell) ∧
      (f.value = F.HEL_PEAK_PEAK_W →
        t.regNow .HEL_PEAK cell 0 / 2 ^ 32 % 2 ^ 12 = max (t.fld F.HEL_CAP_W_CAP_IN_FORCE cell) (t.fld f.force cell)) ∧
      t.fld F.CELL_ERR_STATUS_COUNT cell = s.fld F.CELL_ERR_STATUS_COUNT cell ∧ MemKept s t := by
  have hc := lt_of_cellKind hk
  have hx : bitsOf v (f.side compl).hi (f.side compl).lo = v / 2 ^ (f.side compl).lo % 2 ^ (f.value.hi - f.value.lo + 1) := by
    obtain ⟨-, -, -, -, -, -, hwidth⟩ := rwpFields_layout f hf
    cases compl <;> simp [RwpField.side, bitsOf, hwidth]
  obtain ⟨hvalue, hcomp, hforce⟩ := State.fld_putFields_rwp hc s hf compl v
  rw [hx] at hvalue hcomp
  have hkeep := fun (g : Fld) hg h => State.fld_rwpCommit_of_apart hc (s.putFields (f.side compl).reg cell 0 v) hf compl (g := g) hg h
  refine ⟨_, exec_rwpPairWrite (rwpFields_regs f hf compl) hk hh hw, ?_, ?_, fun hp => ?_, ?_, ?_⟩
  · have hside := fun k hk => (rwpOn_apart f hf compl k hk).2 compl
    rw [State.noteLevels_fld, hkeep _ (hside f (mem_rwpOn_side hf compl)).1 fun k hk => (hside k hk).2]
    cases compl
    · exact hvalue
    · exact hcomp
  · rw [State.noteLevels_fld, State.fld_rwpCommit_force hc _ hf, State.rwpInForce, hvalue, hcomp, hforce]
  · obtain ⟨hpf, hkind⟩ := rwpFields_peak f hf hp
    obtain rfl := eq_helCell_of_kind (kindOf_of_hasReg (hkind compl) hh)
    rw [hpf]
    exact State.regNow_helPeak _
  · obtain ⟨hwf, -, hreg⟩ := rwpFields_err_apart f hf F.CELL_ERR_STATUS_COUNT (by decide)
    have hforces : ∀ k ∈ rwpOn (f.side compl).reg, F.CELL_ERR_STATUS_COUNT.apart k.force = true := fun k hk => by
      obtain ⟨-, ha, -⟩ := rwpFields_err_apart k (List.mem_of_mem_filter hk) F.CELL_ERR_STATUS_COUNT (by decide)
      exact ha
    rw [State.noteLevels_fld, hkeep _ hwf hforces]
    exact State.fld_putFields_of_apart hc s v (hreg compl)
  · exact (s.putFields_memKept ..).trans (State.rwpCommit_memKept (rwpFields_not_map f hf compl) _ cell)

end Sys2Proof.Machine
end


section
/-! SUPPORT. The pair of `PRIM_MAP` (R109), and the check of a pair's held complement (R605). -/

namespace Sys2Proof.Machine

open Sys2Proof

/-! ### RWP pairs: the pair of `PRIM_MAP` -/

/-- R109: the register of the pair of `PRIM_MAP` that a write names. -/
def mapReg (compl : Bool) : RegId := if compl then .PRIM_MAP_C else .PRIM_MAP

theorem quarterCell_has_map : ∀ q < 4, (cellKind (quarterCell q)).isSome = true ∧ kindOf (quarterCell q) = 0x10 ∧
    ∀ compl, hasReg (mapReg compl) (quarterCell q) = true := by
  decide

/-- R109: a pair of `PRIM_MAP` with a field that disagrees changes nothing. -/
theorem State.mapTake_of_disagree {s : State} {cell : Nat}
    (h : s.fld F.PRIM_MAP_SPARE_ROW cell + s.fld F.PRIM_MAP_C_SPARE_ROW_C cell ≠ 31 ∨
      s.fld F.PRIM_MAP_SPARE_COL cell + s.fld F.PRIM_MAP_C_SPARE_COL_C cell ≠ 31) : s.mapTake cell = s := by
  refine if_neg fun ⟨hrow, hcol⟩ => ?_
  have hrow := beq_iff_eq.mp hrow
  have hcol := beq_iff_eq.mp hcol
  simp only [F.PRIM_MAP_SPARE_ROW, F.PRIM_MAP_SPARE_COL] at hrow hcol h
  omega

/-- The fields of the pair of `PRIM_MAP` that are written. -/
def mapFlds : List Fld := [F.PRIM_MAP_SPARE_ROW, F.PRIM_MAP_SPARE_COL, F.PRIM_MAP_C_SPARE_ROW_C, F.PRIM_MAP_C_SPARE_COL_C]

theorem mapFlds_apart : ∀ f ∈ mapFlds, f.hasType .rwp = true ∧ f.wf = true ∧ f.reg.isPhot = false ∧
    (errRegs.all fun e => f.reg.apart e) = true ∧ f.apart F.PRIM_MAP_ROW_IN_FORCE = true ∧ f.apart F.PRIM_MAP_COL_IN_FORCE = true := by
  decide

/-- R109: bringing a map into force, or refusing it, leaves the written fields of its pair. -/
theorem State.fld_mapTake {cell : Nat} (hc : cell < 0x10000) (s : State) {f : Fld} (hf : f ∈ mapFlds) :
    (s.mapTake cell).fld f cell = s.fld f cell := by
  obtain ⟨-, hw, hp, herr, hrow, hcol⟩ := mapFlds_apart f hf
  unfold State.mapTake
  dsimp only
  split_ifs
  · rw [State.fld_setFld_of_apart hc _ _ hw (by decide) hcol, State.fld_setFld_of_apart hc _ _ hw (by decide) hrow]
  · exact State.recordError_fld_of_apart hc s hp herr ..
  · rfl

/-- R18, R109: a write of either register of the pair of `PRIM_MAP`. -/
theorem mapPairWrite_spec {s : State} {g : Agent} {q : Nat} (hq : q < 4) {compl : Bool} {v : Nat}
    (hw : s.Writable g (mapReg compl) (quarterCell q) 0 v) :
    ∃ t, exec (.rwpPairWrite g (mapReg compl) (quarterCell q) v) s = .next t ∧
      (compl = false → t.fld F.PRIM_MAP_SPARE_ROW (quarterCell q) = v % 32 ∧ t.fld F.PRIM_MAP_SPARE_COL (quarterCell q) = v / 256 % 32) ∧
      (compl = true →
        t.fld F.PRIM_MAP_C_SPARE_ROW_C (quarterCell q) = v % 32 ∧ t.fld F.PRIM_MAP_C_SPARE_COL_C (quarterCell q) = v / 256 % 32) ∧
      (t.fld F.PRIM_MAP_SPARE_ROW (quarterCell q) + t.fld F.PRIM_MAP_C_SPARE_ROW_C (quarterCell q) ≠ 31 ∨
          t.fld F.PRIM_MAP_SPARE_COL (quarterCell q) + t.fld F.PRIM_MAP_C_SPARE_COL_C (quarterCell q) ≠ 31 →
        t.fld F.PRIM_MAP_ROW_IN_FORCE (quarterCell q) = s.fld F.PRIM_MAP_ROW_IN_FORCE (quarterCell q) ∧
        t.fld F.PRIM_MAP_COL_IN_FORCE (quarterCell q) = s.fld F.PRIM_MAP_COL_IN_FORCE (quarterCell q) ∧
        t.fld F.CELL_ERR_STATUS_COUNT (quarterCell q) = s.fld F.CELL_ERR_STATUS_COUNT (quarterCell q)) := by
  obtain ⟨hk, -, hh⟩ := quarterCell_has_map q hq
  have hc := lt_of_cellKind hk
  generalize quarterCell q = cell at *
  have hcommit : ∀ u : State, u.rwpCommit (mapReg compl) cell = u.mapTake cell := fun u => if_pos (by cases compl <;> simp [mapReg])
  have hfld : ∀ f ∈ mapFlds, f.reg = mapReg compl →
      ((s.putFields (mapReg compl) cell 0 v).mapTake cell).fld f cell = v / 2 ^ f.lo % 2 ^ (f.hi - f.lo + 1) :=
    fun f hf e => (State.fld_mapTake hc _ hf).trans (e ▸ s.fld_putFields (mapFlds_apart f hf).1 cell 0 v)
  refine ⟨_, exec_rwpPairWrite (by cases compl <;> decide) hk (hh compl) hw, ?_⟩
  simp only [State.noteLevels_fld, hcommit]
  refine ⟨?_, ?_, fun hd => ?_⟩
  · rintro rfl
    exact ⟨by simpa [F.PRIM_MAP_SPARE_ROW] using hfld F.PRIM_MAP_SPARE_ROW (by decide) rfl, hfld F.PRIM_MAP_SPARE_COL (by decide) rfl⟩
  · rintro rfl
    exact ⟨by simpa [F.PRIM_MAP_C_SPARE_ROW_C] using hfld F.PRIM_MAP_C_SPARE_ROW_C (by decide) rfl,
      hfld F.PRIM_MAP_C_SPARE_COL_C (by decide) rfl⟩
  · simp (disch := decide) only [State.fld_mapTake hc] at hd
    rw [State.mapTake_of_disagree hd]
    cases compl
    · exact ⟨s.fld_putFields (f := F.PRIM_MAP_ROW_IN_FORCE) (ty := .ro) (by decide) cell 0 v,
        s.fld_putFields (f := F.PRIM_MAP_COL_IN_FORCE) (ty := .ro) (by decide) cell 0 v, State.fld_putFields_of_apart hc s v (by decide)⟩
    · exact ⟨State.fld_putFields_of_apart hc s v (by decide), State.fld_putFields_of_apart hc s v (by decide),
        State.fld_putFields_of_apart hc s v (by decide)⟩

/-! ### RWP pairs: the check of the held complement -/

theorem exec_rwpComplementCheck (r : RegId) (cell : Nat) (agree : Bool) (s : State) :
    exec (.rwpComplementCheck r cell agree) s = execRwpComplementCheck r cell agree s := rfl

/-- R605: a check that finds the two equal does nothing. -/
theorem exec_rwpComplementCheck_agree (r : RegId) (cell : Nat) (s : State) : exec (.rwpComplementCheck r cell true) s = .next s := by
  rw [exec_rwpComplementCheck, execRwpComplementCheck, if_pos (.inl rfl)]

/-- R605: a check that finds them apart, of a register that the cell has. -/
theorem exec_rwpComplementCheck_disagree {s : State} (hs : s.stopped = false) {r : RegId} {cell : Nat}
    (hk : (cellKind cell).isSome = true) (hh : hasReg r cell = true) :
    exec (.rwpComplementCheck r cell false) s = .next (s.rwpDisagree r cell) := by
  rw [exec_rwpComplementCheck, execRwpComplementCheck, if_neg (by simp [hs, hk, hh])]

/-- R605, R634: the value in force of a pair falls to its fail-safe value; that of PEAK_W is CAP_W in force. -/
def State.failSafe (s : State) (f : RwpField) (cell : Nat) : Nat :=
  if f.value = F.HEL_PEAK_PEAK_W then s.fld F.HEL_CAP_W_CAP_IN_FORCE cell else f.safe

/-- R605: one pair of a register whose check fails. -/
def State.rwpFail (s : State) (cell : Nat) (f : RwpField) : State := s.setFld f.force cell (s.failSafe f cell)

theorem State.rwpFail_forcesOnly {cell : Nat} (hc : cell < 0x10000) : ForcesOnly cell fun s f => s.rwpFail cell f :=
  fun s _ _ hg ha hw => State.fld_setFld_of_apart hc s _ hg hw ha

/-- R605: a fail-safe value fits the field of the value in force, and CAP_W in force that of PEAK_W. -/
theorem rwpFields_safe : ∀ f ∈ rwpFields, f.safe < 2 ^ (f.force.hi - f.force.lo + 1) ∧
    (f.value = F.HEL_PEAK_PEAK_W → f.force.hi - f.force.lo = F.HEL_CAP_W_CAP_IN_FORCE.hi - F.HEL_CAP_W_CAP_IN_FORCE.lo) := by
  decide

theorem rwpOn_peak_cap_apart : ∀ f ∈ rwpFields, f.value = F.HEL_PEAK_PEAK_W →
    ∀ g ∈ rwpOn f.value.reg, F.HEL_CAP_W_CAP_IN_FORCE.apart g.force = true := by
  decide

theorem State.failSafe_lt (s : State) {f : RwpField} (hf : f ∈ rwpFields) (cell : Nat) :
    s.failSafe f cell < 2 ^ (f.force.hi - f.force.lo + 1) := by
  obtain ⟨hs, hp⟩ := rwpFields_safe f hf
  unfold State.failSafe
  split
  · next h => rw [hp h]; exact s.fld_lt ..
  · exact hs

theorem State.fld_rwpFail_force (s : State) {f : RwpField} (hf : f ∈ rwpFields) (cell : Nat) :
    (s.rwpFail cell f).fld f.force cell = s.failSafe f cell := by
  obtain ⟨hw, -⟩ := rwpFields_range f hf
  simp only [Fld.wf, decide_eq_true_eq] at hw
  rw [State.rwpFail, State.fld_setFld _ _ _ _ _ hw.2 hw.1, Nat.mod_eq_of_lt (s.failSafe_lt hf cell)]

/-- R605: what a failed check of a register's pairs leaves in force. -/
def State.rwpFails (s : State) (r : RegId) (cell : Nat) : State :=
  (rwpFields.filter fun f => f.value.reg = r).foldl (fun (s : State) f => s.rwpFail cell f) s

/-- R605: the check of these pairs is not the one of R566 and R607, and finds them. -/
theorem rwpFields_check : ∀ f ∈ rwpFields, f.value.reg ≠ .PRIM_MAP ∧ f.value.reg ≠ .ROT_STATUS ∧ f.value.reg ≠ .ROT_MEASUREm ∧
    (rwpFields.filter fun g => g.value.reg = f.value.reg).isEmpty = false := by
  decide

/-- R605: a check of a pair that fails: the fail-safe values, and the record. -/
theorem State.rwpDisagree_eq (s : State) {f : RwpField} (hf : f ∈ rwpFields) (cell : Nat) :
    s.rwpDisagree f.value.reg cell = (s.rwpFails f.value.reg cell).recordError cell clsEccUncorr (regAddr f.value.reg cell 0)
      (f.value.reg.map.offset % 2 ^ 12 + 2 ^ 31) := by
  obtain ⟨hm, hs, hr, he⟩ := rwpFields_check f hf
  unfold State.rwpDisagree
  rw [if_neg (by tauto)]
  dsimp only
  rw [he, if_neg Bool.false_ne_true]
  rfl

/-- A field of the cell apart from what is in force stays when a check fails. -/
theorem State.fld_rwpFails_of_apart {cell : Nat} (hc : cell < 0x10000) (s : State) (r : RegId) {h : Fld} (hw : h.wf = true)
    (ha : ∀ f ∈ rwpFields, f.value.reg = r → h.apart f.force = true) : (s.rwpFails r cell).fld h cell = s.fld h cell :=
  fld_foldl_of_forcesOnly (State.rwpFail_forcesOnly hc) hw (fun f hf => by
    obtain ⟨hf, hr⟩ := List.mem_filter.mp hf
    exact ⟨(rwpFields_range f hf).1, ha f hf (of_decide_eq_true hr)⟩) s

/-- R605: a failed check brings the value in force of pair f to its fail-safe value. -/
theorem State.fld_rwpFails_force {cell : Nat} (hc : cell < 0x10000) (s : State) {f : RwpField} (hf : f ∈ rwpFields) :
    (s.rwpFails f.value.reg cell).fld f.force cell = s.failSafe f cell := by
  refine fld_foldl_force (State.rwpFail_forcesOnly hc) (fun s => s.fld_rwpFail_force hf cell) (List.Nodup.filter _ (by decide))
    (List.mem_filter.mpr ⟨hf, by simp⟩) (fun g hg hne s => ?_) (fun g hg => ?_) s
  all_goals
    obtain ⟨hg, hr⟩ := List.mem_filter.mp hg
    have hon : g ∈ rwpOn f.value.reg := List.mem_filter.mpr ⟨hg, by simp_all⟩
    have hw := (rwpFields_range g hg).1
  · unfold State.failSafe
    split
    · next hp => exact State.fld_setFld_of_apart hc s _ (by decide) hw (rwpOn_peak_cap_apart f hf hp g hon)
    · rfl
  · exact ⟨hw, (rwpOn_apart f hf false g hon).1⟩

theorem rwpFields_force_err : ∀ f ∈ rwpFields, f.force.reg.isPhot = false ∧ (errRegs.all fun e => f.force.reg.apart e) = true := by
  decide

theorem State.rwpFails_mem (s : State) (r : RegId) (cell : Nat) : (s.rwpFails r cell).mem = s.mem :=
  (MemKept.foldl (fun (s : State) f => show MemKept s (s.rwpFail cell f) by unfold MemKept State.rwpFail; simp) _ s).1

/-- R605: a check that finds the value in force of pair f and its held complement apart. -/
theorem rwpComplementCheck_spec {s : State} (hs : s.stopped = false) {f : RwpField} (hf : f ∈ rwpFields) {cell : Nat}
    (hk : (cellKind cell).isSome = true) (hh : hasReg f.value.reg cell = true) (hv : s.flag F.CELL_ERR_STATUS_VALID cell = false) :
    ∃ t, exec (.rwpComplementCheck f.value.reg cell false) s = .next t ∧
      t.fld f.force cell = (if f.value = F.HEL_PEAK_PEAK_W then s.fld F.HEL_CAP_W_CAP_IN_FORCE cell else f.safe) ∧
      t.flag F.CELL_ERR_STATUS_VALID cell = true ∧ t.fld F.CELL_ERR_STATUS_CLASS cell = 0x03 ∧
      t.fld F.CELL_ERR_INFO_INFO cell = f.value.reg.map.offset % 2 ^ 12 + 2 ^ 31 ∧ t.mem = s.mem := by
  have hc := lt_of_cellKind hk
  have hvalid : (s.rwpFails f.value.reg cell).flag F.CELL_ERR_STATUS_VALID cell = false := by
    unfold State.flag at hv ⊢
    have herr : ∀ g ∈ rwpFields, g.value.reg = f.value.reg → F.CELL_ERR_STATUS_VALID.apart g.force = true := fun g hg _ => by
      obtain ⟨-, ha, -⟩ := rwpFields_err_apart g hg F.CELL_ERR_STATUS_VALID (by decide)
      exact ha
    rwa [State.fld_rwpFails_of_apart hc s _ (by decide) herr]
  obtain ⟨hset, hcls, hinfo⟩ := State.recordError_first hc hvalid clsEccUncorr (regAddr f.value.reg cell 0)
    (f.value.reg.map.offset % 2 ^ 12 + 2 ^ 31)
  obtain ⟨hphot, herr⟩ := rwpFields_force_err f hf
  refine ⟨_, (exec_rwpComplementCheck_disagree hs hk hh).trans (by rw [s.rwpDisagree_eq hf]), ?_, hset, hcls, ?_, ?_⟩
  · rw [State.recordError_fld_of_apart hc _ hphot herr, State.fld_rwpFails_force hc s hf, State.failSafe]
  · rw [hinfo, Nat.mod_eq_of_lt]
    have := Nat.mod_lt f.value.reg.map.offset (show 0 < 2 ^ 12 by decide)
    omega
  · rw [State.recordError_mem, State.rwpFails_mem]

end Sys2Proof.Machine
end


section
/-! SUPPORT. A quarter cell's FAULT (R63, R607): what the end of the operation in the array, with its writes of memory, leaves of the CCB of a cell
that holds no memory. -/

namespace Sys2Proof.Machine

open Sys2Proof

/-! ### The CCB of a cell that holds no memory -/

/-- R49: t reads every register of the CCB of cell d, but for the photometers, as s does. -/
structure CcbKept (d : Nat) (s t : State) : Prop where
  reg : ∀ r : RegId, r.map.kinds.isEmpty = true → r.isPhot = false → t.reg r d 0 = s.reg r d 0

theorem CcbKept.fld {d : Nat} {s t : State} (h : CcbKept d s t) {f : Fld} (hf : f.reg.map.kinds.isEmpty = true) (hp : f.reg.isPhot = false) :
    t.fld f d = s.fld f d := by
  unfold State.fld
  rw [h.reg f.reg hf hp]

theorem CcbKept.of_regs {d : Nat} {s0 s t : State} (h : CcbKept d s0 s) (e : t.regs = s.regs) : CcbKept d s0 t where
  reg r hr hp := by
    rw [← h.reg r hr hp]
    simp [State.reg, hp, e]

theorem CcbKept.refl (d : Nat) (s : State) : CcbKept d s s := ⟨fun _ _ _ => rfl⟩

theorem CcbKept.trans {d : Nat} {s t u : State} (h : CcbKept d s t) (k : CcbKept d t u) : CcbKept d s u :=
  ⟨fun r hr hp => (k.reg r hr hp).trans (h.reg r hr hp)⟩

theorem CcbKept.foldl {α : Type} {d : Nat} {f : State → α → State} {l : List α} (h : ∀ (s : State), ∀ a ∈ l, CcbKept d s (f s a))
    (s : State) : CcbKept d s (l.foldl f s) := by
  induction l generalizing s with
  | nil => exact .refl d s
  | cons a l ih => exact (h s a List.mem_cons_self).trans (ih (fun s b hb => h s b (List.mem_cons_of_mem _ hb)) _)

/-- A unit's register is no part of a CCB (R48, R51). -/
theorem State.setReg_unit_ccbKept {d : Nat} (hd : d < 0x10000) (s : State) {r : RegId} (hr : r.map.kinds.isEmpty = false) (cell : Nat)
    (v : BitVec 64) : CcbKept d s (s.setReg r cell v) :=
  ⟨fun _ hr' _ => State.reg_setReg_of_ne s v (regAddr_ccb_ne_unit hd hr' hr cell)⟩

/-- A register of another cell's CCB. -/
theorem State.setReg_other_ccbKept {d cell : Nat} (hne : d ≠ cell) (s : State) {r : RegId} (hr : r.map.kinds.isEmpty = true)
    (v : BitVec 64) : CcbKept d s (s.setReg r cell v) :=
  ⟨fun _ hr' _ => State.reg_setReg_of_ne s v (regAddr_ccb_ne_ccb hr' hr hne)⟩

theorem State.count_ccbKept (d : Nat) (s : State) (cell ev : Nat) (qual : Option Nat) (inc : Nat) :
    CcbKept d s (s.count cell ev qual inc) := ⟨fun _ _ hp => (s.count_photOnly cell ev qual inc).reg hp d 0⟩

theorem errRegs_ccb : ∀ e ∈ errRegs, e.map.kinds.isEmpty = true := by
  decide

/-- R65: an error of another cell. -/
theorem State.recordError_ccbKept {d cell : Nat} (hne : d ≠ cell) (s : State) (cls addr info : Nat) :
    CcbKept d s (s.recordError cell cls addr info) :=
  ⟨fun _ hr hp => s.recordError_reg_of_ne hp (fun e he => regAddr_ccb_ne_ccb hr (errRegs_ccb e he) hne) cls addr info⟩

/-! ### Writes of memory -/

/-- R595: the kinds of the cells that hold memory: stack controllers, Plates and cores. -/
def memKinds : List Nat := [0x14, 0x12, 0x18, 0x2F, 0x2B]

theorem stackOf_lt (a : Nat) : stackOf a < 8 := by
  have h8 : ∀ k, a / 2 ^ k % 8 < 2 ^ 3 := fun k => Nat.mod_lt _ (by decide)
  have h2 : a / 2 ^ 39 % 2 < 2 ^ 3 := lt_of_lt_of_le (Nat.mod_lt _ (by decide)) (by decide)
  unfold stackOf
  exact Nat.xor_lt_two_pow (Nat.xor_lt_two_pow (Nat.xor_lt_two_pow (Nat.xor_lt_two_pow (Nat.xor_lt_two_pow (Nat.xor_lt_two_pow
    (Nat.xor_lt_two_pow (Nat.xor_lt_two_pow (Nat.xor_lt_two_pow (h8 _) (h8 _)) (h8 _)) (h8 _)) (h8 _)) (h8 _)) (h8 _)) (h8 _)) (h8 _)) h2

theorem smcCell_kind : ∀ k < 8, kindOf (smcCell k) = 0x14 := by decide

theorem platesCell_kind : ∀ q < 4, kindOf (platesCell q) = 0x12 := by decide

/-- R595: the cell of a memory is of a kind that holds memory. -/
theorem kindOf_memCell {a cell : Nat} (h : memCell a = some cell) : kindOf cell ∈ memKinds := by
  unfold memCell at h
  split_ifs at h with hs hp hl
  · obtain rfl := Option.some.inj h
    rw [smcCell_kind _ (stackOf_lt a)]; decide
  · obtain rfl := Option.some.inj h
    have hq : platesQuad a < 4 := by
      unfold inPlates at hp; unfold platesQuad
      have := of_decide_eq_true hp
      omega
    rw [platesCell_kind _ hq]; decide
  · dsimp only at h
    split_ifs at h with hk
    obtain rfl := Option.some.inj h
    rcases hk.1 with hk | hk | hk <;> rw [hk] <;> decide

section
variable {d : Nat} (hd : d < 0x10000) (hm : kindOf d ∉ memKinds)
include hm

theorem ne_memCell {a cell : Nat} (h : memCell a = some cell) : d ≠ cell := fun e => hm (e ▸ kindOf_memCell h)

/-- R595: a read of a line leaves the CCBs of the cells that hold no memory. -/
theorem State.noteRead_ccbKept (s : State) (la : Nat) (r : LineRead) : CcbKept d s (s.noteRead la r) := by
  unfold State.noteRead
  split
  · exact .refl d s
  · next c h =>
    extract_lets u
    have hu : CcbKept d s u := by
      dsimp only [u]
      split_ifs
      · exact s.count_ccbKept ..
      · exact s.count_ccbKept ..
      · exact .refl d s
    split
    · exact hu
    · exact hu.trans (State.recordError_ccbKept (ne_memCell hm h) ..)

omit hm in
include hd in
theorem State.disarmFlip_ccbKept (s : State) (c : Nat) : CcbKept d s (s.disarmFlip c) := by
  unfold State.disarmFlip
  split_ifs
  · exact State.setReg_unit_ccbKept hd s (r := .SMC_FLIP_CTRL) rfl c _
  · exact State.setReg_unit_ccbKept hd s (r := .PLT_FLIP_CTRL) rfl c _

include hd

omit hm in
/-- R597, R602: a write of a line changes no register but those of the flip mask. -/
theorem State.writeLine_ccbKept (s : State) (la : Nat) (bs : List Byte) (mark : Bool) : CcbKept d s (s.writeLine la bs mark) := by
  unfold State.writeLine
  extract_lets u
  have hu : CcbKept d s u := by
    dsimp only [u]
    split
    · split_ifs
      · exact s.count_ccbKept ..
      · exact s.count_ccbKept ..
      · exact .refl d s
    · exact .refl d s
  clear_value u
  cases u.flipFor la with
  | none => exact hu.of_regs rfl
  | some p => exact (hu.trans (State.disarmFlip_ccbKept hd u p.1)).of_regs rfl

theorem State.writeInLine_ccbKept (s : State) (a : Nat) (bs : List Byte) (mark : Bool) : CcbKept d s (s.writeInLine a bs mark) := by
  unfold State.writeInLine
  dsimp only
  split_ifs
  · exact State.writeLine_ccbKept hd s ..
  · exact (State.noteRead_ccbKept hm s ..).trans (State.writeLine_ccbKept hd _ ..)

theorem State.copyLines_ccbKept (s : State) (src dst n : Nat) : CcbKept d s (s.copyLines src dst n) := by
  induction n generalizing s src dst with
  | zero => exact .refl d s
  | succ n ih => exact ((State.noteRead_ccbKept hm s ..).trans (State.writeLine_ccbKept hd _ ..)).trans (ih ..)

theorem State.copyOnWrite_ccbKept (s : State) (a : Nat) : CcbKept d s (s.copyOnWrite a) := by
  unfold State.copyOnWrite
  split
  · split
    · exact (CcbKept.refl d s).of_regs rfl
    · exact .refl d s
  · split
    · exact .refl d s
    · split
      · exact .refl d s
      · extract_lets dst src up u v
        split
        · exact ((State.copyLines_ccbKept hd hm s src dst 1024).trans (State.count_ccbKept ..)).of_regs rfl
        · exact (CcbKept.refl d s).of_regs rfl

/-- R572, R597: a write of memory leaves the CCBs of the cells that hold no memory. -/
theorem State.writeMem_ccbKept (s : State) (a : Nat) (bs : List Byte) (mark : Bool) (fuel : Nat) :
    CcbKept d s (s.writeMem a bs mark fuel) := by
  induction fuel generalizing s a bs with
  | zero => exact .refl d s
  | succ fuel ih =>
    cases bs with
    | nil => exact .refl d s
    | cons b bs => exact ((State.copyOnWrite_ccbKept hd hm s a).trans (State.writeInLine_ccbKept hd hm _ ..)).trans (ih ..)

end

/-! ### The early end of an operation -/

theorem State.freeCounts_regs (s : State) (op : PrimOp) : (s.freeCounts op).2.regs = s.regs := by
  unfold State.freeCounts
  dsimp only
  split_ifs <;> rfl

theorem State.primCount_ccbKept (d : Nat) (s : State) (cyc mult stall bubbles : Nat) : CcbKept d s (s.primCount cyc mult stall bubbles) :=
  (((s.count_ccbKept d ..).trans (State.count_ccbKept d ..)).trans (State.count_ccbKept d ..)).trans (State.count_ccbKept d ..)

/-- R141: the early end of the operation in the array leaves the CCBs of the cells that hold no memory. -/
theorem State.primEnd_ccbKept {d : Nat} (hd : d < 0x10000) (hm : kindOf d ∉ memKinds) (s : State) (status : Nat) :
    CcbKept d s (s.primEnd status) := by
  unfold State.primEnd
  split
  · exact .refl d s
  · extract_lets desc k fl x s1 all can n lines s2 lost missing wrote flags done wb s3
    have h1 : CcbKept d s s1 := (CcbKept.refl d s).of_regs (State.freeCounts_regs ..)
    have h2 : CcbKept d s s2 := h1.trans (CcbKept.foldl (fun u l _ => State.writeMem_ccbKept hd hm u ..) s1)
    have h3 : CcbKept d s s3 := h2.trans (State.primCount_ccbKept ..)
    exact (h3.trans (State.setReg_unit_ccbKept hd s3 (r := .PRIM_ACC_STATUS) rfl qnwPrim 0)).of_regs rfl

/-! ### FAULT of a quarter cell -/

/-- R63: a cell that is not resetting and has entered FAULT reads FAULT. -/
theorem State.cellState_of_faulted {s : State} {cell : Nat} (hr : s.resetting cell = false) (hf : s.faulted cell = true) :
    s.cellState cell = 4 := by
  obtain ⟨up, hp⟩ := cellPath_eq_cons cell
  unfold State.cellState
  rw [hp, State.pathState]
  unfold State.resetting at hr
  simp [hr, hf]

theorem State.beginQuiesces_ccbKept {d : Nat} {cells : List Nat} (h : d ∉ cells) (s : State) : CcbKept d s (s.beginQuiesces cells) :=
  CcbKept.foldl (fun u c hc => by
    have hne : d ≠ c := fun e => h (e ▸ List.mem_of_mem_filter hc)
    exact (State.setReg_other_ccbKept hne u (r := .CELL_STATE) rfl _).trans (State.count_ccbKept ..)) s

/-- R63: what entering FAULT leaves and sets of the CCB of a cell that is not among its own descendants. -/
theorem State.enterFault_spec {d : Nat} (hd : d < 0x10000) (h : d ∉ (cellSubtree d).drop 1) (s : State) :
    (s.enterFault d).faulted d = true ∧
    ∀ f : Fld, f.wf = true → f.reg.map.kinds.isEmpty = true → f.reg.isPhot = false → f.apart F.CELL_STATE_STATE = true →
      (s.enterFault d).fld f d = s.fld f d := by
  unfold State.enterFault
  split
  · next hf => exact ⟨hf, fun _ _ _ _ _ => rfl⟩
  · refine ⟨?_, fun f hw hc hp ha => ?_⟩
    · unfold State.faulted
      rw [State.fld_setFld _ _ _ _ _ (by decide) (by decide)]
      rfl
    · rw [State.fld_setFld_of_apart hd _ _ hw (by decide) ha, (State.beginQuiesces_ccbKept h s).fld hc hp]

/-- R46: the descendants of a quarter cell are its segments. -/
theorem quarterCell_descendants : ∀ q < 4, ∀ c ∈ (cellSubtree (quarterCell q)).drop 1, kindOf c = 0x11 := by
  decide +kernel

theorem State.unitDown_segment (s : State) {cell : Nat} (h : kindOf cell = 0x11) : s.unitDown cell = s := by
  unfold State.unitDown
  rw [h]
  rfl

theorem State.foldl_unitDown_segments {l : List Nat} (h : ∀ c ∈ l, kindOf c = 0x11) (s : State) :
    l.foldl (fun (s : State) c => s.unitDown c) s = s := by
  induction l with
  | nil => rfl
  | cons c l ih => rw [List.foldl_cons, s.unitDown_segment (h c List.mem_cons_self), ih fun k hk => h k (List.mem_cons_of_mem _ hk)]

/-- R63, R141: what a quarter cell's FAULT does: the cell enters it, and the operation in the array ends. -/
theorem State.faultCell_quarter (s : State) {q : Nat} (hq : q < 4) :
    s.faultCell (quarterCell q) = ((s.enterFault (quarterCell q)).primEnd primArrayFault).noteLevels := by
  unfold State.faultCell
  dsimp only
  rw [State.foldl_unitDown_segments fun c hc => quarterCell_descendants q hq c (List.mem_of_mem_filter hc)]
  unfold State.unitFault
  rw [(quarterCell_has_map q hq).2.1]
  rfl

/-- R605, R607: a check of `PRIM_MAP` that fails: INTERNAL is recorded, and the quarter cell enters FAULT. -/
theorem mapComplementCheck_spec {s : State} (hs : s.stopped = false) {q : Nat} (hq : q < 4) (hr : s.resetting (quarterCell q) = false) :
    ∃ t, exec (.rwpComplementCheck .PRIM_MAP (quarterCell q) false) s = .next t ∧ t.cellState (quarterCell q) = 4 ∧
      (s.flag F.CELL_ERR_STATUS_VALID (quarterCell q) = false → t.fld F.CELL_ERR_STATUS_CLASS (quarterCell q) = 0x08) := by
  obtain ⟨hk, hkind, hh⟩ := quarterCell_has_map q hq
  have hc := lt_of_cellKind hk
  have hself : quarterCell q ∉ (cellSubtree (quarterCell q)).drop 1 := fun hm => by
    have := quarterCell_descendants q hq _ hm
    omega
  have hd : s.rwpDisagree .PRIM_MAP (quarterCell q)
      = (s.recordError (quarterCell q) clsInternal (regAddr .PRIM_MAP (quarterCell q) 0) 0).faultCell (quarterCell q) := if_pos (.inl rfl)
  refine ⟨_, exec_rwpComplementCheck_disagree hs hk (hh false), ?_⟩
  rw [hd, State.faultCell_quarter _ hq]
  generalize hu : s.recordError (quarterCell q) clsInternal (regAddr .PRIM_MAP (quarterCell q) 0) 0 = u
  obtain ⟨hfault, hkeep⟩ := State.enterFault_spec hc hself u
  have hend := State.primEnd_ccbKept hc (by rw [hkind]; decide) (u.enterFault (quarterCell q)) primArrayFault
  refine ⟨State.cellState_of_faulted ?_ ?_, fun hv => ?_⟩
  · have hres : u.fld F.CELL_STATE_RESETTING (quarterCell q) = s.fld F.CELL_STATE_RESETTING (quarterCell q) := by
      rw [← hu]
      exact State.recordError_fld_of_apart hc s rfl (by decide) ..
    unfold State.resetting State.flag at hr ⊢
    rw [State.noteLevels_fld, hend.fld rfl rfl, hkeep _ (by decide) rfl rfl (by decide), hres]
    exact hr
  · unfold State.faulted at hfault ⊢
    rwa [State.noteLevels_fld, hend.fld rfl rfl]
  · rw [State.noteLevels_fld, hend.fld rfl rfl, hkeep _ (by decide) rfl rfl (by decide), ← hu]
    exact (State.recordError_first hc hv clsInternal _ 0).2.1

end Sys2Proof.Machine

open Sys2Proof Sys2Proof.Machine in
/-- Settles O16: the pair of `PRIM_MAP`, the other pairs, and the check of the held complement, each by its own lemma. -/
theorem rwpPairsAgreeOrFailSafe : Obligations.RwpPairsAgreeOrFailSafe := by
  refine ⟨⟨fun s g q compl v hw => mapPairWrite_spec q.isLt hw, fun s g f cell v compl hf hk hh hw => rwpPairWrite_spec hf hk hh hw⟩,
    fun s f cell hs hk => ⟨fun r => exec_rwpComplementCheck_agree r cell s, fun hf hh hv => rwpComplementCheck_spec hs hf hk hh hv,
      fun q hq hr => mapComplementCheck_spec hs hq hr⟩⟩
end

section
/-! SUPPORT. The error record of a cell (R65): the whole of a first record, what a later error adds, and what its clear releases. -/

namespace Sys2Proof.Machine

open Sys2Proof

/-! ### One-bit fields -/

/-- A flag reads what was written to it. -/
theorem State.flag_setFlag {f : Fld} (h : f.wf = true) (s : State) (cell i : Nat) (b : Bool) :
    (s.setFlag f cell b i).flag f cell i = b := by
  simp only [Fld.wf, decide_eq_true_eq] at h
  unfold State.flag State.setFlag
  rw [State.fld_setFld _ _ _ _ _ h.2 h.1]
  cases b
  · simp
  · simp [Nat.mod_eq_of_lt (Nat.one_lt_two_pow (Nat.succ_ne_zero (f.hi - f.lo)))]

/-- A flag of a cell reads as before when a field apart from it is written. -/
theorem State.flag_setFld_of_apart {cell : Nat} (hc : cell < 0x10000) (s : State) {f g : Fld} (v : Nat) (hf : f.wf = true)
    (hg : g.wf = true) (h : f.apart g = true) : (s.setFld g cell v).flag f cell = s.flag f cell := by
  unfold State.flag
  rw [State.fld_setFld_of_apart hc s v hf hg h]

theorem State.flag_setFlag_of_apart {cell : Nat} (hc : cell < 0x10000) (s : State) {f g : Fld} (b : Bool) (hf : f.wf = true)
    (hg : g.wf = true) (h : f.apart g = true) : (s.setFlag g cell b).flag f cell = s.flag f cell :=
  State.flag_setFld_of_apart hc s _ hf hg h

theorem State.fld_setFlag_of_apart {cell : Nat} (hc : cell < 0x10000) (s : State) {f g : Fld} (b : Bool) (hf : f.wf = true)
    (hg : g.wf = true) (h : f.apart g = true) : (s.setFlag g cell b).fld f cell = s.fld f cell :=
  State.fld_setFld_of_apart hc s _ hf hg h

theorem State.fld_eq_of_flag {s : State} {f : Fld} {cell i : Nat} (h : s.flag f cell i = true) : s.fld f cell i = 1 := beq_iff_eq.mp h

/-! ### What is counted of an error -/

/-- R585, R671: of an error that is counted, only the photometers and the measures of Ephemeris hear. -/
theorem State.errCounted_eq (s : State) (cell cls : Nat) : ∃ p e, s.errCounted cell cls = { s with phot := p, eph := e } := by
  obtain ⟨p, hp⟩ := s.count_photOnly cell 0x004 (some cls) 1
  unfold State.errCounted
  rw [hp]
  split
  · exact ⟨_, _, rfl⟩
  · exact ⟨_, _, rfl⟩

@[simp] theorem State.errCounted_now (s : State) (cell cls : Nat) : (s.errCounted cell cls).now = s.now := by
  obtain ⟨p, e, h⟩ := s.errCounted_eq cell cls
  rw [h]

@[simp] theorem State.errCounted_bits (s : State) (cell cls : Nat) : (s.errCounted cell cls).bits = s.bits := by
  obtain ⟨p, e, h⟩ := s.errCounted_eq cell cls
  rw [h]

/-- R248: an EVENT bit that is set reads 1. -/
theorem State.bitAt_event (s : State) (b : Nat) : (s.event b).bitAt b = true := by
  unfold State.bitAt State.event State.putBit State.noteBit
  rw [smapGet_set, if_pos rfl]

/-! ### The first error and the later ones -/

/-- R65: what a new record holds, with OVERFLOW as it was. -/
theorem State.newRecord_holds {cell : Nat} (hc : cell < 0x10000) (s : State) (cls addr info : Nat) :
    let t := s.newRecord cell cls addr info
    t.fld F.CELL_ERR_STATUS_CLASS cell = cls % 2 ^ 8 ∧ t.fld F.CELL_ERR_ADDR_ADDR cell = addr % 2 ^ 48 ∧
    t.fld F.CELL_ERR_INFO_INFO cell = info % 2 ^ 32 ∧ t.fld F.CELL_ERR_TIME_TIME cell = s.now % 2 ^ 64 ∧
    t.fld F.CELL_ERR_STATUS_COUNT cell = 1 ∧ t.fld F.CELL_ERR_STATUS_VALID cell = 1 ∧
    t.fld F.CELL_ERR_STATUS_OVERFLOW cell = s.fld F.CELL_ERR_STATUS_OVERFLOW cell := by
  unfold State.newRecord State.setFlag
  simp (disch := decide) only [State.fld_setFld_of_apart hc, State.fld_setFld, State.setFld_now]
  exact ⟨rfl, rfl, rfl, rfl, rfl, rfl, trivial⟩

theorem State.recordError_new_fld {s : State} {cell : Nat} (h : s.flag F.CELL_ERR_STATUS_VALID cell = false) (cls addr info : Nat)
    (f : Fld) : (s.recordError cell cls addr info).fld f cell = ((s.errCounted cell cls).newRecord cell cls addr info).fld f cell := by
  rw [State.recordError_new h, State.event_fld]

/-- R65: the first error while VALID is 0. -/
theorem State.recordError_fills {s : State} {cell : Nat} (hc : cell < 0x10000) (h : s.flag F.CELL_ERR_STATUS_VALID cell = false)
    {cls addr info : Nat} (hcls : cls < 2 ^ 8) (haddr : addr < 2 ^ 48) (hinfo : info < 2 ^ 32) :
    let t := s.recordError cell cls addr info
    t.fld F.CELL_ERR_STATUS_CLASS cell = cls ∧ t.fld F.CELL_ERR_ADDR_ADDR cell = addr ∧ t.fld F.CELL_ERR_INFO_INFO cell = info ∧
    t.fld F.CELL_ERR_TIME_TIME cell = s.now % 2 ^ 64 ∧ t.fld F.CELL_ERR_STATUS_COUNT cell = 1 ∧
    t.flag F.CELL_ERR_STATUS_VALID cell = true ∧ t.bitAt (0x40000000 + cell) = true ∧
    t.flag F.CELL_ERR_STATUS_OVERFLOW cell = s.flag F.CELL_ERR_STATUS_OVERFLOW cell := by
  obtain ⟨h1, h2, h3, h4, h5, h6, h7⟩ := (s.errCounted cell cls).newRecord_holds hc cls addr info
  rw [Nat.mod_eq_of_lt hcls] at h1
  rw [Nat.mod_eq_of_lt haddr] at h2
  rw [Nat.mod_eq_of_lt hinfo] at h3
  rw [State.errCounted_now] at h4
  rw [State.errCounted_fld _ _ _ rfl] at h7
  have hfld := fun f => State.recordError_new_fld h cls addr info f
  refine ⟨(hfld _).trans h1, (hfld _).trans h2, (hfld _).trans h3, (hfld _).trans h4, (hfld _).trans h5,
    beq_iff_eq.mpr ((hfld _).trans h6), ?_, congrArg (· == 1) ((hfld _).trans h7)⟩
  rw [State.recordError_new h, State.bitAt_event]

/-- R65: an error while VALID is 1, with what it adds to COUNT. -/
theorem State.recordError_adds {s : State} {cell : Nat} (h : s.flag F.CELL_ERR_STATUS_VALID cell = true) (cls addr info : Nat) :
    s.recordError cell cls addr info =
      ((s.errCounted cell cls).setFld F.CELL_ERR_STATUS_COUNT cell (min 0xFFFF (s.fld F.CELL_ERR_STATUS_COUNT cell + 1))).setFlag
        F.CELL_ERR_STATUS_OVERFLOW cell true := by
  have hn : (if s.fld F.CELL_ERR_STATUS_COUNT cell = 0xFFFF then s.fld F.CELL_ERR_STATUS_COUNT cell
      else s.fld F.CELL_ERR_STATUS_COUNT cell + 1) = min 0xFFFF (s.fld F.CELL_ERR_STATUS_COUNT cell + 1) := by
    have hlt : s.fld F.CELL_ERR_STATUS_COUNT cell < 2 ^ 16 := s.fld_lt F.CELL_ERR_STATUS_COUNT cell 0
    split
    · omega
    · omega
  rw [← hn, ← State.errCounted_fld s cell cls (f := F.CELL_ERR_STATUS_COUNT) rfl]
  rw [← State.errCounted_valid s cell cls] at h
  exact if_pos h

/-- R65: an error while VALID is 1 leaves the record, and is counted. -/
theorem State.recordError_keepsRecord {s : State} {cell : Nat} (hc : cell < 0x10000) (h : s.flag F.CELL_ERR_STATUS_VALID cell = true)
    (cls addr info : Nat) :
    let t := s.recordError cell cls addr info
    t.fld F.CELL_ERR_STATUS_CLASS cell = s.fld F.CELL_ERR_STATUS_CLASS cell ∧
    t.fld F.CELL_ERR_ADDR_ADDR cell = s.fld F.CELL_ERR_ADDR_ADDR cell ∧ t.fld F.CELL_ERR_INFO_INFO cell = s.fld F.CELL_ERR_INFO_INFO cell ∧
    t.fld F.CELL_ERR_STATUS_COUNT cell = min 0xFFFF (s.fld F.CELL_ERR_STATUS_COUNT cell + 1) ∧
    t.flag F.CELL_ERR_STATUS_VALID cell = true ∧ t.flag F.CELL_ERR_STATUS_OVERFLOW cell = true ∧ t.bits = s.bits := by
  have hv : s.fld F.CELL_ERR_STATUS_VALID cell = 1 := State.fld_eq_of_flag h
  dsimp only
  rw [State.recordError_adds h]
  refine ⟨?_, ?_, ?_, ?_, ?_, State.flag_setFlag rfl .., ?_⟩
  all_goals unfold State.setFlag
  · simp (disch := decide) only [State.fld_setFld_of_apart hc, State.errCounted_fld]
  · simp (disch := decide) only [State.fld_setFld_of_apart hc, State.errCounted_fld]
  · simp (disch := decide) only [State.fld_setFld_of_apart hc, State.errCounted_fld]
  · simp (disch := decide) only [State.fld_setFld_of_apart hc, State.fld_setFld]
    exact Nat.mod_eq_of_lt (lt_of_le_of_lt (min_le_left ..) (by decide))
  · unfold State.flag
    simp (disch := decide) only [State.fld_setFld_of_apart hc, State.errCounted_fld, hv]
    rfl
  · simp

/-! ### The clear -/

theorem State.errClear_valid {cell : Nat} (hc : cell < 0x10000) (s : State) (valid overflow : Bool) :
    (s.errClear cell valid overflow).flag F.CELL_ERR_STATUS_VALID cell = (s.flag F.CELL_ERR_STATUS_VALID cell && !valid) := by
  unfold State.errClear
  cases valid <;> cases overflow <;>
    simp (disch := decide) [State.flag_setFlag_of_apart hc, State.flag_setFld_of_apart hc, State.flag_setFlag]

theorem State.errClear_overflow {cell : Nat} (hc : cell < 0x10000) (s : State) (valid overflow : Bool) :
    (s.errClear cell valid overflow).flag F.CELL_ERR_STATUS_OVERFLOW cell = (s.flag F.CELL_ERR_STATUS_OVERFLOW cell && !overflow) := by
  unfold State.errClear
  cases valid <;> cases overflow <;>
    simp (disch := decide) [State.flag_setFlag_of_apart hc, State.flag_setFld_of_apart hc, State.flag_setFlag]

theorem State.errClear_count {cell : Nat} (hc : cell < 0x10000) (s : State) (valid overflow : Bool) :
    (s.errClear cell valid overflow).fld F.CELL_ERR_STATUS_COUNT cell = if valid then 0 else s.fld F.CELL_ERR_STATUS_COUNT cell := by
  unfold State.errClear
  cases valid <;> cases overflow <;>
    simp (disch := decide) [State.fld_setFlag_of_apart hc, State.fld_setFld]

@[simp] theorem State.errClear_now (s : State) (cell : Nat) (valid overflow : Bool) : (s.errClear cell valid overflow).now = s.now := by
  unfold State.errClear
  cases valid <;> cases overflow <;> simp

/-- R65: the clear writes `CELL_ERR_STATUS` alone. -/
theorem State.errClear_frame (s : State) (cell : Nat) (valid overflow : Bool) :
    RegsKept s (s.errClear cell valid overflow) [regAddr .CELL_ERR_STATUS cell 0] ∧ MemKept s (s.errClear cell valid overflow) := by
  constructor
  · intro r d i h
    have hf : ∀ (s : State) (f : Fld) v, f.reg = .CELL_ERR_STATUS → (s.setFld f cell v).reg r d i = s.reg r d i := fun s f v e =>
      s.reg_setFld_of_ne v fun e' => h (List.mem_singleton.mpr (e'.trans (by rw [e])))
    unfold State.errClear State.setFlag
    cases valid <;> cases overflow <;> simp (disch := decide) only [hf, if_true, Bool.false_eq_true, if_false]
  · unfold MemKept State.errClear
    cases valid <;> cases overflow <;> simp

/-- A register of every cell, written by its name by an agent that can write it. -/
theorem State.Writable.cellWrite {s : State} {g : Agent} {r : RegId} {cell v : Nat} (hw : s.Writable g r cell 0 v)
    (hk : (cellKind cell).isSome = true) (hh : hasReg r cell = true) : s.cellWrite g r cell v = (s.regEffect g r cell 0 v).noteLevels := by
  rw [State.cellWrite, if_pos ⟨hk, hh⟩, hw.nameWrite]

/-- R65: the command that clears the record, by an agent that can. -/
theorem exec_errStatusClear {s : State} {g : Agent} {cell : Nat} {valid overflow : Bool} (hk : (cellKind cell).isSome = true)
    (hw : s.Writable g .CELL_ERR_STATUS cell 0 (valid.toNat + overflow.toNat * 2)) :
    exec (.errStatusClear g cell valid overflow) s = .next (s.errClear cell valid overflow).noteLevels := by
  change Host.Outcome.next (s.cellWrite g .CELL_ERR_STATUS cell (valid.toNat + overflow.toNat * 2)) = _
  rw [hw.cellWrite hk rfl]
  cases valid <;> cases overflow <;> rfl

end Sys2Proof.Machine

open Sys2Proof Sys2Proof.Machine in
/-- Settles O18: a first error, a later one and the clear, each by its own lemma; after a clear of VALID the first error's lemma holds
again. -/
theorem errorRecordKeepsTheFirst : Obligations.ErrorRecordKeepsTheFirst := by
  intro s g cell cls addr info valid overflow hk hcls haddr hinfo
  have hc := lt_of_cellKind hk
  refine ⟨fun hv => State.recordError_fills hc hv hcls haddr hinfo, fun hv => State.recordError_keepsRecord hc hv cls addr info, fun hw => ?_⟩
  obtain ⟨hregs, hmem⟩ := s.errClear_frame cell valid overflow
  refine ⟨_, exec_errStatusClear hk hw, s.errClear_valid hc valid overflow, s.errClear_overflow hc valid overflow,
    s.errClear_count hc valid overflow, fun hv => ?_, hregs, hmem⟩
  have hfree : (s.errClear cell valid overflow).noteLevels.flag F.CELL_ERR_STATUS_VALID cell = false := by
    rw [State.noteLevels_flag, State.errClear_valid hc, hv, Bool.not_true, Bool.and_false]
  obtain ⟨hclass, ha, hi, htime, hcount, hvalid, -, hover⟩ := State.recordError_fills hc hfree hcls haddr hinfo
  exact ⟨hvalid, hclass, ha, hi, htime.trans (by rw [show (s.errClear cell valid overflow).noteLevels.now = s.now from State.errClear_now ..]),
    hcount, hover⟩
end

section
/-! SUPPORT. The lifecycle of a cell (R53, R55, R61, R64): `CELL_CTRL`, `CELL_STATE` and `CELL_POWER` hold it, and what the units do of their
own writes none of them. A frame that holds by definition is stated with `(rfl)`: simp then rewrites by it and unfolds no state. -/

namespace Sys2Proof.Machine

open Sys2Proof

/-! ### The registers of the lifecycle -/

/-- R53, R55, R64: the registers that say whether a cell is enabled, quiesces, is in reset or in FAULT, and how it is gated. -/
def lifeRegs : List RegId := [.CELL_CTRL, .CELL_STATE, .CELL_POWER]

/-- What stored registers hold of the lifecycle of every cell. -/
def lifeOf (regs : SMap (BitVec 64)) (d : Fin 0x10000) : List (BitVec 64) :=
  lifeRegs.map fun r => smapGet (fun _ => resetValue r d.val 0) regs (regAddr r d.val 0)

/-- What the state holds of the lifecycle of every cell. -/
abbrev State.life (s : State) : Fin 0x10000 → List (BitVec 64) := lifeOf s.regs

/-- The lifecycle of every cell is the same exactly where its registers are. -/
theorem life_eq_iff {s t : State} : t.life = s.life ↔ ∀ r ∈ lifeRegs, ∀ d < 0x10000, t.reg r d = s.reg r d := by
  simp only [State.life, funext_iff, lifeOf, List.map_inj_left]
  constructor
  · intro h r hr d hd
    have hp : r.isPhot = false := by revert r; decide
    simpa [State.reg, hp] using h ⟨d, hd⟩ r hr
  · intro h d r hr
    have hp : r.isPhot = false := by revert r; decide
    simpa [State.reg, hp] using h r hr d.val d.isLt

theorem life_fld {s t : State} (h : t.life = s.life) {f : Fld} (hf : f.reg ∈ lifeRegs) {d : Nat} (hd : d < 0x10000) :
    t.fld f d = s.fld f d := by
  unfold State.fld
  rw [life_eq_iff.mp h f.reg hf d hd]

theorem life_flag {s t : State} (h : t.life = s.life) {f : Fld} (hf : f.reg ∈ lifeRegs) {d : Nat} (hd : d < 0x10000) :
    t.flag f d = s.flag f d := by
  unfold State.flag
  rw [life_fld h hf hd]

/-! ### Registers that lie apart from them -/

theorem setReg_life_of_ne (s : State) {r : RegId} {cell i : Nat} (v : BitVec 64)
    (h : ∀ r' ∈ lifeRegs, ∀ d < 0x10000, regAddr r' d 0 ≠ regAddr r cell i) : (s.setReg r cell v i).life = s.life :=
  life_eq_iff.mpr fun r' hr d hd => State.reg_setReg_of_ne s v (h r' hr d hd)

theorem lifeRegs_ccb : ∀ r ∈ lifeRegs, r.map.kinds.isEmpty = true := by decide

/-- R49: no other register of a CCB has the place of a register of the lifecycle. -/
theorem offset_ne_of_not_mem_lifeRegs {r : RegId} (hr : r ∉ lifeRegs) (hk : r.map.kinds.isEmpty = true) :
    ∀ r' ∈ lifeRegs, r'.map.offset ≠ r.map.offset := by
  revert hr hk
  cases r <;> decide

/-- R48, R51: any register but theirs, of any cell, lies elsewhere. -/
theorem regAddr_ne_of_not_mem_lifeRegs {r r' : RegId} (hr : r ∉ lifeRegs) (hr' : r' ∈ lifeRegs) {d : Nat} (hd : d < 0x10000)
    (cell : Nat) : regAddr r' d 0 ≠ regAddr r cell 0 := by
  have hc := lifeRegs_ccb r' hr'
  cases hk : r.map.kinds.isEmpty
  · exact regAddr_ccb_ne_unit hd hc hk cell
  · have ho := offset_ne_of_not_mem_lifeRegs hr hk r' hr'
    have h1 := RegId.offset_lt_of_ccb hc
    have h2 := RegId.offset_lt_of_ccb hk
    rw [regAddr_of_ccb hc, regAddr_of_ccb hk, ccbBase, ccbBase]
    omega

@[simp] theorem State.setReg_life (s : State) {r : RegId} (hr : r ∉ lifeRegs) (cell : Nat) (v : BitVec 64) :
    (s.setReg r cell v).life = s.life :=
  setReg_life_of_ne s v fun _ hr' _ hd => regAddr_ne_of_not_mem_lifeRegs hr hr' hd cell

/-- R48, R51: a register of a cell that has a unit register block, at any index. -/
@[simp] theorem State.setReg_unit_life (s : State) {r : RegId} {cell : Nat} (hk : r.map.kinds.isEmpty = false) (hb : unitBase cell ≠ 0)
    (v : BitVec 64) (i : Nat) : (s.setReg r cell v i).life = s.life := by
  refine setReg_life_of_ne s v fun r' hr' d hd => ?_
  have ho := RegId.offset_lt_of_ccb (lifeRegs_ccb r' hr')
  have hu : 0x021000000000 ≤ unitBase cell := (unitBase_eq_zero_or_le cell).resolve_left hb
  have ha : unitBase cell ≤ regAddr r cell i := by
    simp only [regAddr, hk, Bool.false_eq_true, if_false]
    omega
  rw [regAddr_of_ccb (lifeRegs_ccb r' hr'), ccbBase]
  omega

/-- A register whose instances never take the place of a register of the lifecycle in its page. -/
def RegId.strideApart (r : RegId) : Bool :=
  match r.map.strides with
  | [(st, _)] => !r.map.kinds.isEmpty && 4096 % st == 0 && lifeRegs.all fun r' => r'.map.offset % st != r.map.offset % st
  | _ => false

@[simp] theorem State.setReg_stride_life (s : State) {r : RegId} (h : r.strideApart = true) (cell : Nat) (v : BitVec 64) (i : Nat) :
    (s.setReg r cell v i).life = s.life := by
  unfold RegId.strideApart at h
  split at h
  case h_2 => cases h
  next st n hst =>
  simp only [Bool.and_eq_true, Bool.not_eq_true', beq_iff_eq, List.all_eq_true, bne_iff_ne] at h
  obtain ⟨⟨hk, h4096⟩, hoff⟩ := h
  by_cases hb : unitBase cell = 0
  · refine setReg_life_of_ne s v fun r' hr' d hd e => hoff r' hr' ?_
    rw [regAddr_of_ccb (lifeRegs_ccb r' hr')] at e
    simp only [regAddr, hk, hst, strideOffset, hb, ccbBase, Bool.false_eq_true, if_false] at e
    obtain ⟨m, hm⟩ := Nat.dvd_of_mod_eq_zero h4096
    have e' : r'.map.offset + st * (m * (0x20000000 + d)) = r.map.offset + st * i := by
      rw [← Nat.mul_assoc, ← hm]
      omega
    have := congrArg (· % st) e'
    simpa using this
  · exact s.setReg_unit_life hk hb v i

@[simp] theorem State.setFld_life (s : State) {f : Fld} (h : f.reg ∉ lifeRegs) (cell v : Nat) : (s.setFld f cell v).life = s.life :=
  s.setReg_life h ..

@[simp] theorem State.setFld_unit_life (s : State) {f : Fld} {cell : Nat} (hk : f.reg.map.kinds.isEmpty = false) (hb : unitBase cell ≠ 0)
    (v i : Nat) : (s.setFld f cell v i).life = s.life := s.setReg_unit_life hk hb ..

@[simp] theorem State.setFld_stride_life (s : State) {f : Fld} (h : f.reg.strideApart = true) (cell v i : Nat) :
    (s.setFld f cell v i).life = s.life := s.setReg_stride_life h ..

@[simp] theorem State.setFlag_life (s : State) {f : Fld} (h : f.reg ∉ lifeRegs) (cell : Nat) (b : Bool) :
    (s.setFlag f cell b).life = s.life := s.setFld_life h ..

@[simp] theorem State.setFlag_unit_life (s : State) {f : Fld} {cell : Nat} (hk : f.reg.map.kinds.isEmpty = false) (hb : unitBase cell ≠ 0)
    (b : Bool) (i : Nat) : (s.setFlag f cell b i).life = s.life := s.setFld_unit_life hk hb ..

@[simp] theorem State.setFlag_stride_life (s : State) {f : Fld} (h : f.reg.strideApart = true) (cell : Nat) (b : Bool) (i : Nat) :
    (s.setFlag f cell b i).life = s.life := s.setFld_stride_life h ..

/-! ### How the frame of an operation is put together -/

theorem life_foldl {α : Type} {f : State → α → State} (h : ∀ (s : State) a, (f s a).life = s.life) (l : List α) (s : State) :
    (l.foldl f s).life = s.life := by
  induction l generalizing s with
  | nil => rfl
  | cons a l ih => exact (ih _).trans (h s a)

/-- A fold that carries a value beside the state. -/
theorem life_foldl_pair {α β : Type} {f : β × State → α → β × State} (h : ∀ p a, (f p a).2.life = p.2.life) (l : List α)
    (p : β × State) : (l.foldl f p).2.life = p.2.life := by
  induction l generalizing p with
  | nil => rfl
  | cons a l ih => exact (ih _).trans (h p a)

/-- A record update that leaves the registers. -/
@[simp] theorem life_upd (s : State) (pending freeCount now timeFrac phot mem lineErr valid bits cores clusters prim movers col pci eth sht
    spg trn cat eph hel chr power dom exp flt keys rot busyNs epoch reply replyPoison) :
    State.life ⟨pending, freeCount, now, timeFrac, s.regs, phot, mem, lineErr, valid, bits, cores, clusters, prim, movers, col, pci, eth,
      sht, spg, trn, cat, eph, hel, chr, power, dom, exp, flt, keys, rot, busyNs, epoch, reply, replyPoison⟩ = s.life := (rfl)

@[simp] theorem life_ite {c : Prop} [Decidable c] (s t : State) : (if c then s else t).life = if c then s.life else t.life := by
  split <;> rfl

theorem State.PhotOnly.life {s t : State} (h : s.PhotOnly t) : t.life = s.life := by
  obtain ⟨p, rfl⟩ := h
  rfl

@[simp] theorem State.count_life (s : State) (cell ev : Nat) (qual : Option Nat) (inc : Nat) : (s.count cell ev qual inc).life = s.life :=
  (s.count_photOnly cell ev qual inc).life

/-- R65: an error record is no part of a lifecycle. -/
@[simp] theorem State.recordError_life (s : State) (cell cls addr info : Nat) : (s.recordError cell cls addr info).life = s.life := by
  have herr : ∀ e ∈ errRegs, e ∉ lifeRegs := by decide
  have hphot : ∀ r ∈ lifeRegs, r.isPhot = false := by decide
  refine life_eq_iff.mpr fun r hr d hd => s.recordError_reg_of_ne (hphot r hr) (fun e he => ?_) cls addr info
  exact regAddr_ne_of_not_mem_lifeRegs (herr e he) hr hd cell

end Sys2Proof.Machine
end

section
/-! SUPPORT. What the operations of bits and memory leave: the lifecycle of every cell. -/

namespace Sys2Proof.Machine

open Sys2Proof

@[simp] theorem State.free_life (s : State) (w : Nat) : (s.free w).2.life = s.life := (rfl)

@[simp] theorem State.noteBit_life (s : State) (k v) : (s.noteBit k v).life = s.life := (rfl)

@[simp] theorem State.putBit_life (s : State) (k v) : (s.putBit k v).life = s.life := (rfl)

@[simp] theorem State.event_life (s : State) (b) : (s.event b).life = s.life := (rfl)

@[simp] theorem State.noteEcc_life (s : State) : s.noteEcc.life = s.life := (rfl)

@[simp] theorem State.bufErr_life (s : State) (cell e) : (s.bufErr cell e).life = s.life := by
  unfold State.bufErr
  split <;> simp (disch := decide)

@[simp] theorem State.noteRead_life (s : State) (la r) : (s.noteRead la r).life = s.life := by
  unfold State.noteRead
  split <;> simp (disch := decide)

@[simp] theorem State.disarmFlip_life (s : State) (c) : (s.disarmFlip c).life = s.life := by
  simp (disch := decide) [State.disarmFlip]

@[simp] theorem State.writeLine_life (s : State) (la bs mark) : (s.writeLine la bs mark).life = s.life := by
  unfold State.writeLine
  extract_lets u
  have hu : u.life = s.life := by
    dsimp only [u]
    split
    · split_ifs <;> simp
    · rfl
  clear_value u
  rw [life_upd]
  cases u.flipFor la with
  | none => exact hu
  | some p => exact (u.disarmFlip_life p.1).trans hu

@[simp] theorem State.writeInLine_life (s : State) (a bs mark) : (s.writeInLine a bs mark).life = s.life := by
  simp (disch := decide) [State.writeInLine]

@[simp] theorem State.copyLines_life (s : State) (src dst n : Nat) : (s.copyLines src dst n).life = s.life := by
  induction n generalizing s src dst with
  | zero => rfl
  | succ n ih => simp [State.copyLines, ih]

@[simp] theorem State.copyOnWrite_life (s : State) (a : Nat) : (s.copyOnWrite a).life = s.life := by
  unfold State.copyOnWrite
  split
  · split <;> rfl
  · split
    · rfl
    · next g _ =>
      split
      · rfl
      · dsimp only
        split
        · rw [life_upd, State.count_life, State.copyLines_life]
        · rfl

@[simp] theorem State.writeMem_life (s : State) (a : Nat) (bs : List Byte) (mark : Bool) (fuel : Nat) :
    (s.writeMem a bs mark fuel).life = s.life := by
  induction fuel generalizing s a bs with
  | zero => rfl
  | succ fuel ih =>
    unfold State.writeMem
    split
    · rfl
    · simp [ih]

@[simp] theorem State.readMem_life (s : State) (a n fuel : Nat) : (s.readMem a n fuel).2.2.life = s.life := by
  induction fuel generalizing s a n with
  | zero => rfl
  | succ fuel ih =>
    unfold State.readMem
    split
    · rfl
    · simp [ih]

theorem State.refusedRange_life {s t : State} {reserved : Bool} {a n : Nat} (h : s.refusedRange reserved a n = some t) :
    t.life = s.life := by
  unfold State.refusedRange at h
  split at h
  · obtain rfl := Option.some.inj h
    simp
  · obtain ⟨-, h⟩ := Option.ite_none_right_eq_some.mp h
    obtain rfl := Option.some.inj h
    simp

@[simp] theorem State.load_life (s : State) (a n : Nat) (reserved : Bool) : (s.load a n reserved).2.life = s.life := by
  unfold State.load
  split
  · rfl
  · split
    · next h => exact State.refusedRange_life h
    · split <;> simp

@[simp] theorem State.store_life (s : State) (a : Nat) (bs : List Byte) (mark reserved : Bool) :
    (s.store a bs mark reserved).2.life = s.life := by
  unfold State.store
  split
  · rfl
  · split
    · next h => exact State.refusedRange_life h
    · split <;> simp

@[simp] theorem State.clearMem_life (s : State) (a b : Nat) : (s.clearMem a b).life = s.life := (rfl)

@[simp] theorem State.setCore_life (s : State) (c k) : (s.setCore c k).life = s.life := (rfl)

@[simp] theorem State.mapCore_life (s : State) (c f) : (s.mapCore c f).life = s.life := (rfl)

end Sys2Proof.Machine
end


section
/-! SUPPORT. What the operations of rings leave: the lifecycle of every cell. -/

namespace Sys2Proof.Machine

open Sys2Proof

@[simp] theorem State.setPosted_life (s : State) (key l) : (s.setPosted key l).life = s.life := (rfl)

@[simp] theorem State.notifyBit_life (s : State) (b) : (s.notifyBit b).life = s.life := by
  simp (disch := decide) [State.notifyBit]

@[simp] theorem State.devRead_life (s : State) (a n) : (s.devRead a n).2.life = s.life := by
  unfold State.devRead
  dsimp only
  (repeat' split) <;> simp (disch := decide)

@[simp] theorem State.devWrite_life (s : State) (a bs mark) : (s.devWrite a bs mark).2.life = s.life := by
  unfold State.devWrite
  dsimp only
  (repeat' split) <;> simp (disch := decide)

end Sys2Proof.Machine
end


section
/-! SUPPORT. What the operations of device bits leave: the lifecycle of every cell. -/

namespace Sys2Proof.Machine

open Sys2Proof

@[simp] theorem State.noteLevels_life (s : State) : s.noteLevels.life = s.life := (rfl)

end Sys2Proof.Machine
end


section
/-! SUPPORT. What the operations of clusters leave: the lifecycle of every cell. -/

namespace Sys2Proof.Machine

open Sys2Proof

@[simp] theorem State.setClusterQueue_life (s : State) (c q) : (s.setClusterQueue c q).life = s.life := (rfl)

@[simp] theorem State.postItem_life (s : State) (c source program key args) : (s.postItem c source program key args).2.life = s.life := by
  unfold State.postItem
  dsimp only
  split_ifs <;> simp (disch := decide)

@[simp] theorem State.flushCluster_life (s : State) (c) : (s.flushCluster c).life = s.life := by
  unfold State.flushCluster
  exact life_foldl (fun s a => by simp (disch := decide)) _ _

@[simp] theorem State.dropInbox_life (s : State) (n) : (s.dropInbox n).life = s.life := by
  unfold State.dropInbox
  dsimp only
  rw [State.setFld_life _ (by decide)]
  refine life_foldl (fun s k => ?_) _ _
  split <;> simp

end Sys2Proof.Machine
end


section
/-! SUPPORT. What the operations of cores leave: the lifecycle of every cell. -/

namespace Sys2Proof.Machine

open Sys2Proof

@[simp] theorem State.clearPrivate_life (s : State) (cell) : (s.clearPrivate cell).life = s.life := (rfl)

@[simp] theorem State.coreUp_life (s : State) (c pc) : (s.coreUp c pc).life = s.life := (rfl)

end Sys2Proof.Machine
end


section
/-! SUPPORT. What the operations of the Primary leave: the lifecycle of every cell. -/

namespace Sys2Proof.Machine

open Sys2Proof

@[simp] theorem State.setPrim_life (s : State) (p) : (s.setPrim p).life = s.life := (rfl)

@[simp] theorem State.clearRetained_life (s : State) : s.clearRetained.life = s.life := by
  simp (disch := decide) [State.clearRetained]

@[simp] theorem State.primCount_life (s : State) (cyc mult stall bubbles) : (s.primCount cyc mult stall bubbles).life = s.life := by
  simp (disch := decide) [State.primCount]

@[simp] theorem State.freeCounts_life (s : State) (op) : (s.freeCounts op).2.life = s.life := by
  unfold State.freeCounts
  split <;> simp (disch := decide)

@[simp] theorem State.primEnd_life (s : State) (status) : (s.primEnd status).life = s.life := by
  unfold State.primEnd
  split
  · rfl
  · dsimp only
    rw [State.noteLevels_life, State.clearRetained_life, State.setPrim_life, State.primCount_life]
    refine (life_foldl (fun s l => State.writeMem_life ..) _ _).trans ?_
    rw [State.freeCounts_life, State.free_life, State.free_life]

@[simp] theorem State.failWriteBehind_life (s : State) (bad) : (s.failWriteBehind bad).life = s.life := by
  simp (disch := decide) [State.failWriteBehind]

@[simp] theorem State.primMemoryFail_life (s : State) (cell) : (s.primMemoryFail cell).life = s.life := by
  unfold State.primMemoryFail
  dsimp only
  (repeat' split) <;> simp (disch := decide)

@[simp] theorem State.primReset_life (s : State) : s.primReset.life = s.life := by
  simp (disch := decide) [State.primReset]

end Sys2Proof.Machine
end


section
/-! SUPPORT. What the operations of the accord leave: the lifecycle of every cell. -/

namespace Sys2Proof.Machine

open Sys2Proof

@[simp] theorem State.setHel_life (s : State) (x) : (s.setHel x).life = s.life := (rfl)

@[simp] theorem State.helEvent_life (s : State) (b) : (s.helEvent b).life = s.life := by
  simp (disch := decide) [State.helEvent]

@[simp] theorem State.accordEnd_life (s : State) : s.accordEnd.life = s.life := by
  simp (disch := decide) [State.accordEnd]

@[simp] theorem State.accordPace_life (s : State) (i w) : (s.accordPace i w).life = s.life := by
  simp (disch := decide) [State.accordPace]

@[simp] theorem State.accordRound_life (s : State) (n own busy first) : (s.accordRound n own busy first).life = s.life := by
  simp (disch := decide) [State.accordRound]

@[simp] theorem State.accordSlotLeft_life (s : State) (n) : (s.accordSlotLeft n).life = s.life := by
  simp (disch := decide) [State.accordSlotLeft]

end Sys2Proof.Machine
end


section
/-! SUPPORT. What the operations of the Collector leave: the lifecycle of every cell. -/

namespace Sys2Proof.Machine

open Sys2Proof

@[simp] theorem State.setColSlot_life (s : State) (n c) : (s.setColSlot n c).life = s.life := (rfl)

@[simp] theorem State.colProtocol_life (s : State) (slot rank sub) : (s.colProtocol slot rank sub).life = s.life := by
  simp (disch := decide) [State.colProtocol]

@[simp] theorem State.colDiscard_life (s : State) (qual) : (s.colDiscard qual).life = s.life := by
  simp (disch := decide) [State.colDiscard]

@[simp] theorem State.colBump_life (s : State) {f : Fld} (hf : f.reg.map.kinds.isEmpty = false) (n : Nat) :
    (s.colBump f n).life = s.life := by
  unfold State.colBump
  have hb : unitBase colCell ≠ 0 := by decide
  dsimp only
  split <;> simp [hf, hb]

@[simp] theorem State.colDrop_life (s : State) (n) : (s.colDrop n).life = s.life := by
  unfold State.colDrop
  extract_lets c u col v
  have hv : v.life = s.life := (life_upd ..).trans (State.setColSlot_life ..)
  split
  · split_ifs
    · exact (State.primEnd_life ..).trans hv
    · exact hv
    · exact hv
  · exact hv

@[simp] theorem State.colAbort_life (s : State) (n cause rank) : (s.colAbort n cause rank).life = s.life := by
  simp (disch := decide) [State.colAbort]

@[simp] theorem State.colMemoryFault_life (s : State) (n a) : (s.colMemoryFault n a).life = s.life := by
  simp (disch := decide) [State.colMemoryFault]

@[simp] theorem State.colConnLost_life (s : State) (conn) : (s.colConnLost conn).life = s.life := by
  unfold State.colConnLost
  refine life_foldl (fun s n => ?_) _ _
  split
  · rfl
  · dsimp only
    split <;> simp

@[simp] theorem State.colMakeRoom_life (s : State) (n) : (s.colMakeRoom n).2.life = s.life := by
  unfold State.colMakeRoom
  dsimp only
  (repeat' split) <;> simp (disch := decide)

@[simp] theorem State.colRefill_life (s : State) (n next e x) : (s.colRefill n next e x).life = s.life := by
  unfold State.colRefill
  dsimp only
  split_ifs <;> simp (disch := decide)

@[simp] theorem State.colAdded_life (s : State) : s.colAdded.life = s.life := by
  simp (disch := decide) [State.colAdded]

@[simp] theorem State.colAdd_life (s : State) (n next run e v) : (s.colAdd n next run e v).2.life = s.life := by
  unfold State.colAdd
  dsimp only
  (repeat' split) <;> simp (disch := decide)

@[simp] theorem State.colResult_life (s : State) (n next run e v) : (s.colResult n next run e v).2.life = s.life := by
  unfold State.colResult
  dsimp only
  split_ifs <;> simp (disch := decide)

@[simp] theorem State.colEgress_life (s : State) (g v) : (s.colEgress g v).life = s.life := (rfl)

@[simp] theorem State.colRoute_life (s : State) (n next run e v) : (s.colRoute n next run e v).life = s.life := (rfl)

@[simp] theorem State.colSendResult_life (s : State) (n next e v) : (s.colSendResult n next e v).life = s.life := by
  unfold State.colSendResult
  dsimp only
  split
  · rfl
  · refine life_foldl (fun s r => ?_) _ _
    split <;> simp

@[simp] theorem State.colDelivered_life (s : State) (n next e) : (s.colDelivered n next e).life = s.life := by
  unfold State.colDelivered
  dsimp only
  (repeat' split) <;> simp (disch := decide)

@[simp] theorem State.colWrite_life (s : State) (n next es) : (s.colWrite n next es).life = s.life := by
  unfold State.colWrite
  split
  · rfl
  · split
    · rfl
    · dsimp only
      split
      · exact (life_foldl (fun s p => State.colDelivered_life ..) _ _).trans (State.writeMem_life ..)
      · simp

@[simp] theorem State.colDeliver_life (s : State) (n next es) : (s.colDeliver n next es).life = s.life := by
  unfold State.colDeliver
  split
  · rfl
  · extract_lets c u
    have hu : u.life = s.life := life_foldl (fun s p => by split <;> simp) es s
    split
    · exact hu
    · exact hu
    · exact (life_foldl (fun s g => State.colWrite_life ..) _ _).trans hu

@[simp] theorem State.roundComplete_life (s : State) (n) : (s.roundComplete n).life = s.life := by
  refine (State.accordRound_life ..).trans ?_
  rw [State.count_life, State.event_life]
  simp (disch := decide) only [State.setFld_unit_life, State.setColSlot_life]
  split <;> split <;> rfl

@[simp] theorem State.roundCheck_life (s : State) (n k : Nat) : (s.roundCheck n k).life = s.life := by
  induction k generalizing s with
  | zero => rfl
  | succ k ih =>
    unfold State.roundCheck
    split
    · rw [ih, State.roundComplete_life]
    · rfl

@[simp] theorem State.colElems_life (s : State) (n : Nat) (next : Bool) (run : ColRun) (e : Nat) (vs : List (Nat × Bool))
    (acc : List (Nat × (Nat × Bool))) : (s.colElems n next run e vs acc).2.life = s.life := by
  induction vs generalizing s e acc with
  | nil => rfl
  | cons v vs ih =>
    unfold State.colElems
    dsimp only
    split
    · rfl
    · split
      · exact (ih ..).trans (State.colRoute_life ..)
      · have h : (if run.result then s.colResult n next run e v else s.colAdd n next run e v).2.life = s.life := by
          split <;> simp
        generalize (if run.result then s.colResult n next run e v else s.colAdd n next run e v) = p at h ⊢
        split
        · exact (ih ..).trans h
        · exact (ih ..).trans h
        · rw [ih, State.colProtocol_life, State.colDiscard_life, State.colBump_life _ rfl]
          exact h
        · exact h

@[simp] theorem State.noteRound_life (s : State) (n next time own) : (s.noteRound n next time own).life = s.life := (rfl)

@[simp] theorem State.colTakeRun_life (s : State) (r) : (s.colTakeRun r).life = s.life := by
  unfold State.colTakeRun
  split
  · simp
  · split
    · simp
    · simp (disch := decide)
    · dsimp only
      split <;> simp (disch := decide)
    · simp (disch := decide)
    · rfl
    · simp

@[simp] theorem State.colArrive_life (s : State) (r) : (s.colArrive r).life = s.life := by
  simp (disch := decide) [State.colArrive]

@[simp] theorem State.colTransitRun_life (s : State) (r) : (s.colTransitRun r).life = s.life := by
  simp (disch := decide) [State.colTransitRun]

@[simp] theorem State.colFeedPrimary_life (s : State) : s.colFeedPrimary.life = s.life := by
  unfold State.colFeedPrimary
  split
  · rfl
  · dsimp only
    split
    · rfl
    · split
      · rfl
      · exact (life_foldl (fun s p => State.colDelivered_life ..) _ _).trans (State.setPrim_life ..)

@[simp] theorem State.colForward_life (s : State) (f) : (s.colForward f).life = s.life := by
  simp (disch := decide) [State.colForward]

@[simp] theorem State.colPump_life (s : State) (k : Nat) : (s.colPump k).life = s.life := by
  induction k generalizing s with
  | zero => rfl
  | succ k ih =>
    unfold State.colPump
    split
    · rw [ih, State.colForward_life]
    · split
      · split
        · rw [ih, State.colTakeRun_life]
        · exact State.colFeedPrimary_life ..
      · exact State.colFeedPrimary_life ..

@[simp] theorem State.colSettle_life (s : State) : s.colSettle.life = s.life := by
  simp (disch := decide) [State.colSettle]

@[simp] theorem State.colClearSlot_life (s : State) (n) : (s.colClearSlot n).life = s.life := by
  simp (disch := decide) [State.colClearSlot]

@[simp] theorem State.colClose_life (s : State) (n) : (s.colClose n).life = s.life := by
  simp (disch := decide) [State.colClose]

@[simp] theorem State.colCellReset_life (s : State) : s.colCellReset.life = s.life := by
  unfold State.colCellReset
  dsimp only
  rw [life_upd]
  exact life_foldl (fun s n => by split <;> simp) _ _

end Sys2Proof.Machine
end


section
/-! SUPPORT. What the operations of Ethernet leave: the lifecycle of every cell. -/

namespace Sys2Proof.Machine

open Sys2Proof

@[simp] theorem State.setEthPort_life (s : State) (p x) : (s.setEthPort p x).life = s.life := (rfl)

@[simp] theorem State.notePaused_life (s : State) (p) : (s.notePaused p).life = s.life := by
  simp (disch := decide) [State.notePaused]

@[simp] theorem State.ethLinkChange_life (s : State) (p half up) : (s.ethLinkChange p half up).life = s.life := by
  unfold State.ethLinkChange
  split <;> simp (disch := decide)

@[simp] theorem State.ethDown_life (s : State) (p reset) : (s.ethDown p reset).life = s.life := by
  simp (disch := decide) [State.ethDown]

end Sys2Proof.Machine
end


section
/-! SUPPORT. What the operations of the ports leave: the lifecycle of every cell. -/

namespace Sys2Proof.Machine

open Sys2Proof

@[simp] theorem State.setPciFn_life (s : State) (port fn f) : (s.setPciFn port fn f).life = s.life := (rfl)

@[simp] theorem State.setPci_life (s : State) (p) : (s.setPci p).life = s.life := (rfl)

@[simp] theorem State.setCfg_life (s : State) (port fn off v) : (s.setCfg port fn off v).life = s.life := (rfl)

@[simp] theorem State.cfgSet_life (s : State) (port fn off mask) : (s.cfgSet port fn off mask).life = s.life := (rfl)

@[simp] theorem State.sendTlp_life (s : State) (t) : (s.sendTlp t).life = s.life := by
  simp (disch := decide) [State.sendTlp]

@[simp] theorem State.aerCor_life (s : State) (port fn bit) : (s.aerCor port fn bit).life = s.life := by
  simp (disch := decide) [State.aerCor]

@[simp] theorem State.aerHeader_life (s : State) (port fn bit hdr) : (s.aerHeader port fn bit hdr).life = s.life := by
  unfold State.aerHeader
  dsimp only
  split_ifs
  · simp
  · exact (life_foldl (fun s i => State.setCfg_life ..) _ _).trans (by simp)
  · simp
  · simp

@[simp] theorem State.aerUncor_life (s : State) (port fn bit advisory hdr) : (s.aerUncor port fn bit advisory hdr).life = s.life := by
  simp (disch := decide) [State.aerUncor]

@[simp] theorem State.setRoute_life (s : State) (src r) : (s.setRoute src r).life = s.life := (rfl)

@[simp] theorem State.routeFire_life (s : State) (src wait) : (s.routeFire src wait).life = s.life := by
  simp (disch := decide) [State.routeFire]

@[simp] theorem State.askTranslation_life (s : State) (port fn a w) : (s.askTranslation port fn a w).life = s.life := by
  unfold State.askTranslation
  split <;> simp (disch := decide)

@[simp] theorem State.setVf_life (s : State) (port v x) : (s.setVf port v x).life = s.life := (rfl)

@[simp] theorem State.logDirty_life (s : State) (port fn a) : (s.logDirty port fn a).life = s.life := by
  simp (disch := decide) [State.logDirty]

@[simp] theorem State.issueOp_life (s : State) (o : HostOp) (fuel : Nat) : (s.issueOp o fuel).2.2.life = s.life := by
  induction fuel generalizing s o with
  | zero => rfl
  | succ fuel ih =>
    unfold State.issueOp
    split
    · rfl
    split
    · rfl
    · dsimp only
      split
      · exact State.askTranslation_life ..
      · rfl
      · split
        · simp [ih]
        · split <;> simp [ih]

@[simp] theorem State.dirtyStopped_life (s : State) (port v) : (s.dirtyStopped port v).life = s.life := by
  simp (disch := decide) [State.dirtyStopped]

@[simp] theorem State.addHostOp_life (s : State) (o) : (s.addHostOp o).life = s.life := (rfl)

@[simp] theorem State.hostFinish_life (s : State) (d) : (s.hostFinish d).life = s.life := by
  unfold State.hostFinish
  split <;> simp (disch := decide)

@[simp] theorem State.dropOp_life (s : State) (id) : (s.dropOp id).life = s.life := (rfl)

@[simp] theorem State.putOp_life (s : State) (o) : (s.putOp o).life = s.life := (rfl)

@[simp] theorem State.issueOps_life (s : State) (ops : List HostOp) (blocked : List Nat) : (s.issueOps ops blocked).life = s.life := by
  induction ops generalizing s blocked with
  | nil => rfl
  | cons o ops ih =>
    unfold State.issueOps
    split
    · exact ih ..
    · dsimp only
      split
      · simp [ih]
      · simp [ih]
      · split <;> simp [ih]

@[simp] theorem State.dirtyStart_life (s : State) (l : List DirtyMark) : (s.dirtyStart l).life = s.life := by
  induction l generalizing s with
  | nil => rfl
  | cons m ms ih =>
    unfold State.dirtyStart
    dsimp only
    split <;> simp [ih]

@[simp] theorem State.pciePump_life (s : State) : s.pciePump.life = s.life := by
  simp (disch := decide) [State.pciePump]

@[simp] theorem State.hostRead_life (s : State) (port fn a n p) : (s.hostRead port fn a n p).life = s.life := by
  simp (disch := decide) [State.hostRead]

@[simp] theorem State.hostWrite_life (s : State) (port fn a bs ep p) : (s.hostWrite port fn a bs ep p).2.life = s.life := by
  unfold State.hostWrite
  split <;> simp (disch := decide)

@[simp] theorem State.failOp_life (s : State) (id timeout) : (s.failOp id timeout).life = s.life := by
  unfold State.failOp
  split <;> simp (disch := decide)

@[simp] theorem State.stopFn_life (s : State) (port fn all) : (s.stopFn port fn all).life = s.life := by
  unfold State.stopFn
  have h := life_foldl (fun s (o : HostOp) => State.failOp_life s o.id false)
    (s.pci.ops.filter fun o => o.port == port && o.fn == fn && (all || !o.purpose.waits)) s
  dsimp only
  split
  · exact (State.setPci_life ..).trans h
  · exact h

@[simp] theorem State.bmeOff_life (s : State) (port fn) : (s.bmeOff port fn).life = s.life := by
  simp (disch := decide) [State.bmeOff]

@[simp] theorem State.clearFn_life (s : State) (port fn table config) : (s.clearFn port fn table config).life = s.life := (rfl)

end Sys2Proof.Machine
end


section
/-! SUPPORT. What the operations of the Shutter leave: the lifecycle of every cell. -/

namespace Sys2Proof.Machine

open Sys2Proof

@[simp] theorem State.setSht_life (s : State) (x) : (s.setSht x).life = s.life := (rfl)

@[simp] theorem State.setSubq_life (s : State) (q l) : (s.setSubq q l).life = s.life := (rfl)

@[simp] theorem State.setTag_life (s : State) (key v) : (s.setTag key v).life = s.life := (rfl)

@[simp] theorem State.noteEligible_life (s : State) (key parent el) : (s.noteEligible key parent el).life = s.life := by
  simp (disch := decide) [State.noteEligible]

@[simp] theorem State.shtUpdate_life (s : State) : s.shtUpdate.life = s.life := by
  unfold State.shtUpdate
  exact (life_foldl (fun s n => State.noteEligible_life ..) _ _).trans (life_foldl (fun s q => State.noteEligible_life ..) _ _)

@[simp] theorem State.admitDrop_life (s : State) (q f why) : (s.admitDrop q f why).life = s.life := by
  simp (disch := decide) [State.admitDrop]

@[simp] theorem State.enqueue_life (s : State) (q f) : (s.enqueue q f).life = s.life := by
  simp (disch := decide) [State.enqueue]

@[simp] theorem State.admitSpg_life (s : State) (q bs mark) : (s.admitSpg q bs mark).2.life = s.life := by
  unfold State.admitSpg
  dsimp only
  (repeat' split) <;> simp (disch := decide)

@[simp] theorem State.admitHeld_life (s : State) (src q egress bs) : (s.admitHeld src q egress bs).2.life = s.life := by
  unfold State.admitHeld
  dsimp only
  (repeat' split) <;> simp (disch := decide)

@[simp] theorem State.txrWithdraw_life (s : State) (r) : (s.txrWithdraw r).life = s.life := (rfl)

@[simp] theorem State.txrEnable_life (s : State) (r) : (s.txrEnable r).life = s.life := by
  simp (disch := decide) [State.txrEnable]

@[simp] theorem State.shtReset_life (s : State) : s.shtReset.life = s.life := (rfl)

end Sys2Proof.Machine
end


section
/-! SUPPORT. What the operations of Transit leave: the lifecycle of every cell. -/

namespace Sys2Proof.Machine

open Sys2Proof

@[simp] theorem State.setTrn_life (s : State) (t) : (s.setTrn t).life = s.life := (rfl)

@[simp] theorem State.setConn_life (s : State) (c x) : (s.setConn c x).life = s.life := (rfl)

@[simp] theorem State.setPstate_life (s : State) (c p) : (s.setPstate c p).life = s.life := by
  simp (disch := decide) [State.setPstate]

@[simp] theorem State.trnSend_life (s : State) (c path k) : (s.trnSend c path k).life = s.life := by
  simp (disch := decide) [State.trnSend]

@[simp] theorem State.noteGranted_life (s : State) (c) : (s.noteGranted c).life = s.life := (rfl)

@[simp] theorem State.grantPool_life (s : State) (c coll) : (s.grantPool c coll).life = s.life := by
  simp (disch := decide) [State.grantPool]

@[simp] theorem State.grantAll_life (s : State) : s.grantAll.life = s.life := by
  unfold State.grantAll
  exact life_foldl (fun s a => by simp (disch := decide)) _ _

@[simp] theorem State.sendAck_life (s : State) (c p) : (s.sendAck c p).life = s.life := by
  simp (disch := decide) [State.sendAck]

@[simp] theorem State.creditAck_life (s : State) (c) : (s.creditAck c).life = s.life := by
  simp (disch := decide) [State.creditAck]

@[simp] theorem State.creditAckAll_life (s : State) : s.creditAckAll.life = s.life := by
  unfold State.creditAckAll
  exact life_foldl (fun s a => by simp (disch := decide)) _ _

@[simp] theorem State.sendNak_life (s : State) (c p code psn msn) : (s.sendNak c p code psn msn).life = s.life := by
  simp (disch := decide) [State.sendNak]

@[simp] theorem State.cqWait_life (s : State) (cq e) : (s.cqWait cq e).life = s.life := (rfl)

@[simp] theorem State.opDone_life (s : State) (c origin msn status old tag) : (s.opDone c origin msn status old tag).life = s.life := by
  unfold State.opDone
  split <;> simp (disch := decide)

@[simp] theorem State.slowItem_life (s : State) (c event cause node conn rkey addr) :
    (s.slowItem c event cause node conn rkey addr).life = s.life := by
  simp (disch := decide) [State.slowItem]

@[simp] theorem State.closeOps_life (s : State) (c status) : (s.closeOps c status).life = s.life := by
  unfold State.closeOps
  exact life_foldl (fun s a => by simp (disch := decide)) _ _

@[simp] theorem State.freeConn_life (s : State) (c) : (s.freeConn c).life = s.life := (rfl)

@[simp] theorem State.connFail_life (s : State) (c cause) : (s.connFail c cause).life = s.life := by
  simp (disch := decide) [State.connFail]

@[simp] theorem State.sendConnect_life (s : State) (c) : (s.sendConnect c).life = s.life := by
  simp (disch := decide) [State.sendConnect]

@[simp] theorem State.connStart_life (s : State) (c) : (s.connStart c).life = s.life := by
  unfold State.connStart
  extract_lets a u
  have hu : u.life = s.life := State.setFld_unit_life s rfl (by decide) ..
  have h := (u.load_life a 128 true).trans hu
  generalize u.load a 128 true = p at h ⊢
  split
  · dsimp only
    split <;> simpa (disch := decide) using h
  · simpa using h

@[simp] theorem State.connIdle_life (s : State) (c) : (s.connIdle c).life = s.life := by
  simp (disch := decide) [State.connIdle]

@[simp] theorem State.connLost_life (s : State) (c) : (s.connLost c).life = s.life := by
  simp (disch := decide) [State.connLost]

@[simp] theorem State.connDrained_life (s : State) (c) : (s.connDrained c).life = s.life := by
  simp (disch := decide) [State.connDrained]

@[simp] theorem State.connQuiesce_life (s : State) (c) : (s.connQuiesce c).life = s.life := by
  simp (disch := decide) [State.connQuiesce]

@[simp] theorem State.sendOut_life (s : State) (c : Nat) (l : List TrnOut) (stuck : List Bool) : (s.sendOut c l stuck).life = s.life := by
  induction l generalizing s stuck with
  | nil => rfl
  | cons k ks ih =>
    unfold State.sendOut
    dsimp only
    split
    · exact ih ..
    · split <;> simp [ih]

@[simp] theorem State.connPump_life (s : State) (c) : (s.connPump c).life = s.life := by
  simp (disch := decide) [State.connPump]

@[simp] theorem State.queueOut_life (s : State) (c ks) : (s.queueOut c ks).life = s.life := by
  simp (disch := decide) [State.queueOut]

@[simp] theorem State.resend_life (s : State) (c p sel) : (s.resend c p sel).life = s.life := by
  unfold State.resend
  exact life_foldl (fun s a => by simp (disch := decide)) _ _

@[simp] theorem State.goBack_life (s : State) (c p psn) : (s.goBack c p psn).life = s.life := by
  simp (disch := decide) [State.goBack]

@[simp] theorem State.regionCheck_life (s : State) (key pd right x n natural) :
    (s.regionCheck key pd right x n natural).2.life = s.life := by
  unfold State.regionCheck
  extract_lets i
  split
  · rfl
  · have h := s.load_life (s.regionAddr i) 32 true
    generalize s.load (s.regionAddr i) 32 true = p at h ⊢
    split
    · dsimp only
      split_ifs <;> exact h
    · exact h

@[simp] theorem State.setRegion0_life (s : State) (i w) : (s.setRegion0 i w).life = s.life := by
  simp (disch := decide) [State.setRegion0]

@[simp] theorem State.revokeDone_life (s : State) (i) : (s.revokeDone i).life = s.life := by
  simp (disch := decide) [State.revokeDone]

@[simp] theorem State.readMessage_life (s : State) (pmtu a n fuel : Nat) : (s.readMessage pmtu a n fuel).2.life = s.life := by
  induction fuel generalizing s a n with
  | zero => rfl
  | succ fuel ih =>
    unfold State.readMessage
    split
    · rfl
    · have h := s.load_life a (min pmtu n) true
      generalize s.load a (min pmtu n) true = p at h ⊢
      split
      · exact (ih ..).trans h
      · exact h

@[simp] theorem State.takeMsn_life (s : State) (c) : (s.takeMsn c).2.life = s.life := (rfl)

@[simp] theorem State.addOp_life (s : State) (c o) : (s.addOp c o).life = s.life := (rfl)

@[simp] theorem State.startWrite_life (s : State) (c origin rkey addr imm notify packets) :
    (s.startWrite c origin rkey addr imm notify packets).life = s.life := by
  simp (disch := decide) [State.startWrite]

@[simp] theorem State.nextNotify_life (s : State) (c) : (s.nextNotify c).life = s.life := by
  unfold State.nextNotify
  split <;> simp (disch := decide)

@[simp] theorem State.startRead_life (s : State) (c origin rkey addr len dst lkey pd) :
    (s.startRead c origin rkey addr len dst lkey pd).life = s.life := by
  simp (disch := decide) [State.startRead]

@[simp] theorem State.opCheck_life (s : State) (c o old) : (s.opCheck c o old).life = s.life := by
  simp (disch := decide) [State.opCheck]

@[simp] theorem State.ackOne_life (s : State) (c k nak) : (s.ackOne c k nak).life = s.life := by
  unfold State.ackOne
  split <;> simp (disch := decide)

@[simp] theorem State.trnProtocol_life (s : State) (k order) : (s.trnProtocol k order).life = s.life := by
  simp (disch := decide) [State.trnProtocol]

@[simp] theorem State.trnDiscard_life (s : State) (order) : (s.trnDiscard order).life = s.life := by
  simp (disch := decide) [State.trnDiscard]

@[simp] theorem State.answerDisconnect_life (s : State) (c) : (s.answerDisconnect c).life = s.life := by
  simp (disch := decide) [State.answerDisconnect]

@[simp] theorem State.acceptPkt_life (s : State) (c k) : (s.acceptPkt c k).life = s.life := by
  simp (disch := decide) [State.acceptPkt]

@[simp] theorem State.refuse_life (s : State) (c k code rkey addr) : (s.refuse c k code rkey addr).life = s.life := by
  simp (disch := decide) [State.refuse]

@[simp] theorem State.noteNotify_life (s : State) (c k total refused) : (s.noteNotify c k total refused).life = s.life := by
  simp (disch := decide) [State.noteNotify]

@[simp] theorem State.takeWrite_life (s : State) (c k) : (s.takeWrite c k).life = s.life := by
  unfold State.takeWrite
  extract_lets x len total
  have h := s.regionCheck_life (k.word 0) x.pd .w (k.long 1) len false
  generalize s.regionCheck (k.word 0) x.pd .w (k.long 1) len false = p at h ⊢
  split <;> simpa using h

@[simp] theorem State.takeReadReq_life (s : State) (c k) : (s.takeReadReq c k).life = s.life := by
  unfold State.takeReadReq
  extract_lets x len
  have h := s.regionCheck_life (k.word 0) x.pd .r (k.long 1) len false
  generalize s.regionCheck (k.word 0) x.pd .r (k.long 1) len false = p at h ⊢
  split <;> simpa using h

@[simp] theorem State.ephPlace_life (s : State) (off bs p) : (s.ephPlace off bs p).life = s.life := (rfl)

@[simp] theorem State.placeLocal_life (s : State) (o off bs p) : (s.placeLocal o off bs p).2.life = s.life := by
  unfold State.placeLocal
  split
  · split
    · rfl
    · have h := s.regionCheck_life o.lkey o.pd .w o.localAddr o.len false
      generalize s.regionCheck o.lkey o.pd .w o.localAddr o.len false = q at h ⊢
      split <;> simpa using h
  · simp
  · simp

@[simp] theorem State.takeReadResp_life (s : State) (c k) : (s.takeReadResp c k).life = s.life := by
  unfold State.takeReadResp
  split <;> simp (disch := decide)

@[simp] theorem State.takeAtomic_life (s : State) (c k) : (s.takeAtomic c k).life = s.life := by
  unfold State.takeAtomic
  extract_lets x n
  have h := s.regionCheck_life (k.word 0) x.pd .a (k.long 1) n true
  generalize s.regionCheck (k.word 0) x.pd .a (k.long 1) n true = p at h ⊢
  split
  · simpa using h
  · next a t =>
    have ht := (t.load_life a n true).trans h
    generalize t.load a n true = q at ht ⊢
    split
    · extract_lets old u
      have hu : u.life = s.life := by
        dsimp only [u]
        split
        · exact ht
        · split
          · exact (State.writeMem_life ..).trans ht
          · exact ht
      exact (State.queueOut_life ..).trans hu
    · simpa using ht

@[simp] theorem State.takeAtomicResp_life (s : State) (c k) : (s.takeAtomicResp c k).life = s.life := by
  unfold State.takeAtomicResp
  split <;> simp (disch := decide)

@[simp] theorem State.takeCollective_life (s : State) (c k) : (s.takeCollective c k).life = s.life := by
  unfold State.takeCollective
  extract_lets x
  have h := s.regionCheck_life (x.field 16 31 0) x.pd .red 0 0 false
  generalize s.regionCheck (x.field 16 31 0) x.pd .red 0 0 false = p at h ⊢
  split <;> simpa using h

@[simp] theorem State.ackDue_life (s : State) (c k) : (s.ackDue c k).life = s.life := by
  simp (disch := decide) [State.ackDue]

@[simp] theorem State.takeData_life (s : State) (c k) : (s.takeData c k).life = s.life := by
  unfold State.takeData
  dsimp only
  (repeat' split) <;> simp (disch := decide)

@[simp] theorem State.takeAck_life (s : State) (c k) : (s.takeAck c k).life = s.life := by
  unfold State.takeAck
  dsimp only
  rw [State.creditAckAll_life, State.grantAll_life, State.connPump_life]
  exact (life_foldl (fun s o => State.ackOne_life ..) _ _).trans ((State.noteGranted_life ..).trans (State.setConn_life ..))

@[simp] theorem State.takeNak_life (s : State) (c k) : (s.takeNak c k).life = s.life := by
  unfold State.takeNak
  dsimp only
  (repeat' split) <;> simp (disch := decide)

@[simp] theorem State.enterConnected_life (s : State) (c k) : (s.enterConnected c k).life = s.life := by
  simp (disch := decide) [State.enterConnected]

@[simp] theorem State.takeConnect_life (s : State) (c k) : (s.takeConnect c k).life = s.life := by
  simp (disch := decide) [State.takeConnect]

@[simp] theorem State.takeConnectReply_life (s : State) (c k) : (s.takeConnectReply c k).life = s.life := by
  simp (disch := decide) [State.takeConnectReply]

@[simp] theorem State.takeDisconnect_life (s : State) (c) : (s.takeDisconnect c).life = s.life := by
  simp (disch := decide) [State.takeDisconnect]

@[simp] theorem State.takeDisconnectReply_life (s : State) (c) : (s.takeDisconnectReply c).life = s.life := by
  simp (disch := decide) [State.takeDisconnectReply]

@[simp] theorem State.trnReceive_life (s : State) (k) : (s.trnReceive k).life = s.life := by
  unfold State.trnReceive
  dsimp only
  (repeat' split) <;> simp (disch := decide)

@[simp] theorem State.trnCellUp_life (s : State) : s.trnCellUp.life = s.life := by
  unfold State.trnCellUp
  exact life_foldl (fun s a => by simp (disch := decide)) _ _

@[simp] theorem State.trnCellDown_life (s : State) : s.trnCellDown.life = s.life := by
  unfold State.trnCellDown
  exact life_foldl (fun s a => by simp (disch := decide)) _ _

theorem State.colConnsLost_life (s : State) (l : List Nat) : (l.foldl (fun s c => s.colConnLost c) s).life = s.life := by
  induction l generalizing s with
  | nil => rfl
  | cons c l ih => rw [List.foldl_cons, ih, State.colConnLost_life]

theorem State.connsReset_life (s : State) (l : List (Nat × Nat)) :
    (l.foldl (fun s g => (s.setReg .TRN_CONNc_STATE trnCell (BitVec.ofNat 64 (g.2 % 65536 * 2 ^ 16)) g.1).setFlag
      F.TRN_CONNc_CTRL_EN trnCell false g.1) s).life = s.life :=
  life_foldl (fun s g => by simp (disch := decide)) _ _

/-- R358: a reset of Transit, over the connections that it gives a GEN and those that the Collector loses. -/
theorem State.trnReset_life_of (s : State) (gens : List (Nat × Nat)) (lost : List Nat) :
    (let s := s.trn.revokes.foldl (fun s i => s.revokeDone i) s
     let s := s.trn.conns.foldl (fun s p => s.setConn p.1 p.2.ended) (s.setTrn {})
     let s := lost.foldl (fun s c => s.colConnLost c) s
     let s := gens.foldl (fun s g => (s.setReg .TRN_CONNc_STATE trnCell (BitVec.ofNat 64 (g.2 % 65536 * 2 ^ 16)) g.1).setFlag
       F.TRN_CONNc_CTRL_EN trnCell false g.1) s
     { s with col := { s.col with granted := [] } } : State).life = s.life := by
  refine (life_upd ..).trans ((State.connsReset_life _ gens).trans ((State.colConnsLost_life _ lost).trans ?_))
  refine (life_foldl (fun s p => State.setConn_life ..) _ _).trans ((State.setTrn_life ..).trans ?_)
  exact life_foldl (fun s i => s.revokeDone_life i) _ _

@[simp] theorem State.trnReset_life (s : State) : s.trnReset.life = s.life := by
  unfold State.trnReset
  exact s.trnReset_life_of _ _

end Sys2Proof.Machine
end


section
/-! SUPPORT. What the operations of the Catalogue leave: the lifecycle of every cell. -/

namespace Sys2Proof.Machine

open Sys2Proof

@[simp] theorem State.setCat_life (s : State) (x) : (s.setCat x).life = s.life := (rfl)

@[simp] theorem State.setCatQueue_life (s : State) (q x) : (s.setCatQueue q x).life = s.life := (rfl)

@[simp] theorem State.setCatBackend_life (s : State) (b x) : (s.setCatBackend b x).life = s.life := (rfl)

/-- R475: an entry of a table of the Catalogue, read. -/
theorem life_of_devRead_match {α : Type} (s : State) (a n : Nat) (f : List Byte → α) (x : α) :
    (match s.devRead a n with
      | (some (bs, false), s) => (f bs, s)
      | (_, s) => (x, s) : α × State).2.life = s.life := by
  have h := s.devRead_life a n
  generalize s.devRead a n = p at h ⊢
  split <;> exact h

@[simp] theorem State.catTables_life (s : State) (v) : (s.catTables v).2.2.life = s.life := by
  unfold State.catTables
  extract_lets rd r nums out
  have hrd : ∀ (s : State) (a : Nat), (rd s a).2.life = s.life := fun s a => life_of_devRead_match s a 64 (wordsOf 16) []
  have hr : r.2.life = s.life := by
    dsimp only [r]
    split
    · exact hrd ..
    · rfl
  split
  · exact hr
  · refine (life_foldl_pair (fun p n => ?_) nums ([], r.2)).trans hr
    dsimp only
    split
    · exact hrd ..
    · rfl

@[simp] theorem State.putCmd_life (s : State) (q c) : (s.putCmd q c).life = s.life := (rfl)

@[simp] theorem State.catLog_life (s : State) (q ws) : (s.catLog q ws).life = s.life := by
  simp (disch := decide) [State.catLog]

@[simp] theorem State.catRecord_life (s : State) (q ws) : (s.catRecord q ws).life = s.life := by
  unfold State.catRecord
  dsimp only
  (repeat' split) <;> simp (disch := decide)

@[simp] theorem State.catComplete_life (s : State) (q c status info) : (s.catComplete q c status info).life = s.life := by
  simp (disch := decide) [State.catComplete]

@[simp] theorem State.segFail_life (s : State) (id cause status last) : (s.segFail id cause status last).life = s.life := by
  unfold State.segFail
  split <;> simp (disch := decide)

@[simp] theorem State.segDone_life (s : State) (id serial durable) : (s.segDone id serial durable).life = s.life := by
  unfold State.segDone
  split <;> simp (disch := decide)

@[simp] theorem State.partEnd_life (s : State) (q seq i st) : (s.partEnd q seq i st).life = s.life := by
  unfold State.partEnd
  split <;> simp (disch := decide)

@[simp] theorem State.flushFail_life (s : State) (q seq cause be status) : (s.flushFail q seq cause be status).life = s.life := by
  unfold State.flushFail
  split <;> simp (disch := decide)

@[simp] theorem State.ownerFail_life (s : State) (b cause status) : (s.ownerFail b cause status).life = s.life := by
  unfold State.ownerFail
  split <;> simp (disch := decide)

@[simp] theorem State.beDiscard_life (s : State) (b) : (s.beDiscard b).life = s.life := by
  unfold State.beDiscard
  split <;> simp (disch := decide)

@[simp] theorem State.beStale_life (s : State) (q) : (s.beStale q).life = s.life := (rfl)

@[simp] theorem State.beEnd_life (s : State) (be id fail durable) : (s.beEnd be id fail durable).life = s.life := by
  unfold State.beEnd
  dsimp only
  (repeat' split) <;> simp (disch := decide)

@[simp] theorem State.beLost_life (s : State) (be) : (s.beLost be).life = s.life := by
  unfold State.beLost
  exact life_foldl (fun s a => by simp (disch := decide)) _ _

@[simp] theorem State.beNewRings_life (s : State) (be) : (s.beNewRings be).life = s.life := (rfl)

@[simp] theorem State.catPortLost_life (s : State) (port) : (s.catPortLost port).life = s.life := by
  unfold State.catPortLost
  exact life_foldl (fun s a => by simp (disch := decide)) _ _

@[simp] theorem State.catConnsLost_life (s : State) : s.catConnsLost.life = s.life := by
  unfold State.catConnsLost
  exact life_foldl (fun s a => by simp (disch := decide)) _ _

@[simp] theorem State.catAccept_life (s : State) (q c segs) : (s.catAccept q c segs).life = s.life := by
  unfold State.catAccept
  split <;> simp (disch := decide)

@[simp] theorem State.catList_life (s : State) (q c) : (s.catList q c).life = s.life := by
  unfold State.catList
  dsimp only
  split
  · simp
  · split_ifs
    · simp
    · split <;> simp
  · have h := s.devRead_life c.buf (16 * wfield c.words 9 8 0)
    generalize s.devRead c.buf (16 * wfield c.words 9 8 0) = p at h ⊢
    split <;> simpa using h

@[simp] theorem State.catTake_life (s : State) (q slot ws volNo vol bes entry) :
    (s.catTake q slot ws volNo vol bes entry).life = s.life := by
  simp (disch := decide) [State.catTake]

@[simp] theorem State.catEntry_life (s : State) (q bs) : (s.catEntry q bs).life = s.life := by
  simp (disch := decide) [State.catEntry]

@[simp] theorem State.catQueueStart_life (s : State) (q) : (s.catQueueStart q).life = s.life := by
  simp (disch := decide) [State.catQueueStart]

@[simp] theorem State.catQueueOff_life (s : State) (q) : (s.catQueueOff q).life = s.life := by
  simp (disch := decide) [State.catQueueOff]

@[simp] theorem State.catSettleQueue_life (s : State) (q) : (s.catSettleQueue q).life = s.life := by
  simp (disch := decide) [State.catSettleQueue]

@[simp] theorem State.catQuiesce_life (s : State) (q) : (s.catQuiesce q).life = s.life := by
  simp (disch := decide) [State.catQuiesce]

@[simp] theorem State.catWriteEn_life (s : State) (q en) : (s.catWriteEn q en).life = s.life := by
  simp (disch := decide) [State.catWriteEn]

@[simp] theorem State.catQueueReset_life (s : State) (q records) : (s.catQueueReset q records).life = s.life := by
  unfold State.catQueueReset
  dsimp only
  split
  · simp
  · refine (life_foldl (fun s c => State.catComplete_life ..) _ _).trans ?_
    simp (disch := decide)

@[simp] theorem State.catMoved_life (s : State) (q seq ok lba poison) : (s.catMoved q seq ok lba poison).life = s.life := by
  unfold State.catMoved
  split <;> simp (disch := decide)

@[simp] theorem State.catListed_life (s : State) (q seq bytes) : (s.catListed q seq bytes).life = s.life := by
  unfold State.catListed
  dsimp only
  (repeat' split) <;> simp (disch := decide)

@[simp] theorem State.storeBytes_life (s : State) (a bs mark) : (s.storeBytes a bs mark).life = s.life := by
  simp (disch := decide) [State.storeBytes]

@[simp] theorem State.catHost_life (s : State) (d) : (s.catHost d).life = s.life := by
  unfold State.catHost
  split <;> simp (disch := decide)

@[simp] theorem State.catTransit_life (s : State) (d) : (s.catTransit d).life = s.life := by
  unfold State.catTransit
  dsimp only
  (repeat' split) <;> simp (disch := decide)

@[simp] theorem State.catConsume_life (s : State) : s.catConsume.life = s.life := by
  unfold State.catConsume
  dsimp only
  rw [State.noteLevels_life]
  refine (life_foldl (fun s q => State.catSettleQueue_life ..) _ _).trans ?_
  rw [State.catConnsLost_life]
  refine (life_foldl (fun s d => State.catTransit_life ..) _ _).trans ?_
  rw [State.setTrn_life]
  exact (life_foldl (fun s d => State.catHost_life ..) _ _).trans (State.setPci_life ..)

@[simp] theorem State.catCellUp_life (s : State) : s.catCellUp.life = s.life := by
  unfold State.catCellUp
  exact life_foldl (fun s a => by simp (disch := decide)) _ _

@[simp] theorem State.catCellDown_life (s : State) : s.catCellDown.life = s.life := by
  unfold State.catCellDown
  exact life_foldl (fun s a => by simp (disch := decide)) _ _

@[simp] theorem State.catReset_life (s : State) : s.catReset.life = s.life := by
  refine (State.event_life ..).trans ((life_foldl (fun s g => ?_) _ _).trans (State.setCat_life ..))
  simp (disch := decide)

@[simp] theorem State.catInternalCmd_life (s : State) (m entry opc volNo lba nb vol bes buf n inline) :
    (s.catInternalCmd m entry opc volNo lba nb vol bes buf n inline).2.life = s.life := by
  unfold State.catInternalCmd
  dsimp only
  (repeat' split) <;> simp (disch := decide)

end Sys2Proof.Machine
end


section
/-! SUPPORT. What the operations of the movers leave: the lifecycle of every cell. -/

namespace Sys2Proof.Machine

open Sys2Proof

@[simp] theorem State.setMover_life (s : State) (m x) : (s.setMover m x).life = s.life := (rfl)

@[simp] theorem State.setRun_life (s : State) (m r) : (s.setRun m r).life = s.life := (rfl)

@[simp] theorem State.movRefuse_life (s : State) (m r code) : (s.movRefuse m r code).life = s.life := by
  simp (disch := decide) [State.movRefuse]

@[simp] theorem State.feedSettle_life (s : State) (m) : (s.feedSettle m).life = s.life := by
  unfold State.feedSettle
  dsimp only
  (repeat' split) <;> simp (disch := decide)

@[simp] theorem State.putEntry_life (s : State) (m i e) : (s.putEntry m i e).life = s.life := by
  unfold State.putEntry
  split <;> simp (disch := decide)

@[simp] theorem State.movTakeOne_life (s : State) (d) : (s.movTakeOne d).life = s.life := by
  unfold State.movTakeOne
  dsimp only
  (repeat' split) <;> simp (disch := decide)

@[simp] theorem State.movTake_life (s : State) : s.movTake.life = s.life := by
  unfold State.movTake
  exact life_foldl (fun s a => by simp (disch := decide)) _ _

@[simp] theorem State.flushEnd_life (s : State) (m i info) : (s.flushEnd m i info).life = s.life := by
  unfold State.flushEnd
  split <;> simp (disch := decide)

@[simp] theorem State.movPortLost_life (s : State) (port) : (s.movPortLost port).life = s.life := by
  unfold State.movPortLost
  exact life_foldl (fun s a => life_foldl (fun s p => State.flushEnd_life ..) _ _) _ _

@[simp] theorem State.movDropReads_life (s : State) (m) : (s.movDropReads m).life = s.life := (rfl)

@[simp] theorem State.movFaulted_life (s : State) (m) : (s.movFaulted m).life = s.life := by
  unfold State.movFaulted
  split <;> simp (disch := decide)

@[simp] theorem State.movReset_life (s : State) (m) : (s.movReset m).life = s.life := by
  unfold State.movReset
  simp (disch := decide)

end Sys2Proof.Machine
end


section
/-! SUPPORT. What the operations of Ephemeris leave: the lifecycle of every cell. -/

namespace Sys2Proof.Machine

open Sys2Proof

@[simp] theorem State.setEph_life (s : State) (x) : (s.setEph x).life = s.life := (rfl)

@[simp] theorem State.ephBytes_life (s : State) (a n) : (s.ephBytes a n).2.life = s.life := by
  exact life_of_devRead_match s a n some none

@[simp] theorem State.jobRead_life (s : State) : s.jobRead.2.life = s.life := by
  unfold State.jobRead
  extract_lets base
  have h := s.ephBytes_life base 64
  generalize s.ephBytes base 64 = p at h ⊢
  split
  · exact h
  · next bs t =>
    extract_lets w
    split
    · exact h
    · have h := (t.ephBytes_life base (64 + 16 * wfield w 0 10 4)).trans h
      generalize t.ephBytes base (64 + 16 * wfield w 0 10 4) = p at h ⊢
      split
      · exact h
      · next bs t =>
        extract_lets w
        split
        · exact h
        · have h := (t.ephBytes_life (wlong w 6 % 2 ^ 48) (4 * jobMembers w)).trans h
          generalize t.ephBytes (wlong w 6 % 2 ^ 48) (4 * jobMembers w) = p at h ⊢
          split <;> exact h

@[simp] theorem State.epochEnd_life (s : State) : s.epochEnd.life = s.life := by
  simp (disch := decide) [State.epochEnd]

@[simp] theorem State.ephId_life (s : State) : s.ephId.2.life = s.life := (rfl)

@[simp] theorem State.ephCat_life (s : State) (opc off len bs) : (s.ephCat opc off len bs).2.life = s.life := by
  unfold State.ephCat
  dsimp only
  split_ifs <;> simp (disch := decide)

@[simp] theorem State.ephBuddy_life (s : State) (off len bs) : (s.ephBuddy off len bs).2.life = s.life := by
  unfold State.ephBuddy
  dsimp only
  (repeat' split) <;> simp (disch := decide)

@[simp] theorem State.ephWrite_life (s : State) (d slot off bs) : (s.ephWrite d slot off bs).2.life = s.life := by
  unfold State.ephWrite
  split <;> simp (disch := decide)

@[simp] theorem State.ephReadFrom_life (s : State) (src slot off len) : (s.ephReadFrom src slot off len).life = s.life := (rfl)

@[simp] theorem State.ephReadStep_life (s : State) (r) : (s.ephReadStep r).life = s.life := by
  unfold State.ephReadStep
  dsimp only
  (repeat' split) <;> simp (disch := decide)

@[simp] theorem State.ephPiece_life (s : State) (r ok) : (s.ephPiece r ok).life = s.life := (rfl)

@[simp] theorem State.scanFeed_life (s : State) (sc r) : (s.scanFeed sc r).life = s.life := (rfl)

@[simp] theorem State.noteCommits_life (s : State) (cands) : (s.noteCommits cands).life = s.life := by
  unfold State.noteCommits
  exact life_foldl (fun s a => by simp (disch := decide)) _ _

@[simp] theorem State.ephAnswer_life (s : State) (fs) : (s.ephAnswer fs).life = s.life := by
  simp (disch := decide) [State.ephAnswer]

@[simp] theorem State.restoreEnd_life (s : State) (r status step) : (s.restoreEnd r status step).life = s.life := by
  simp (disch := decide) [State.restoreEnd]

@[simp] theorem State.shardWrite_life (s : State) (rs : List (Nat × Nat)) (g n : Nat) (bs : List Byte) :
    (s.shardWrite rs g n bs).2.life = s.life := by
  induction n generalizing s g bs with
  | zero => rfl
  | succ n ih =>
    unfold State.shardWrite
    dsimp only
    split <;> simp [ih]

@[simp] theorem State.restoreFeed_life (s : State) (x r) : (s.restoreFeed x r).life = s.life := by
  unfold State.restoreFeed
  split <;> simp (disch := decide)

@[simp] theorem State.restoreNext_life (s : State) (x) : (s.restoreNext x).life = s.life := by
  unfold State.restoreNext
  split
  · rw [life_upd, State.restoreEnd_life]
  · split
    · rw [life_upd, State.restoreEnd_life]
    · split <;> simp

@[simp] theorem State.scanNext_life (s : State) (sc) : (s.scanNext sc).life = s.life := by
  unfold State.scanNext
  dsimp only
  (repeat' split) <;> simp (disch := decide)

@[simp] theorem State.ephGo_life (s : State) (fuel : Nat) : (s.ephGo fuel).life = s.life := by
  induction fuel generalizing s with
  | zero => rfl
  | succ fuel ih =>
    unfold State.ephGo
    split
    · dsimp only
      split_ifs
      · rfl
      · rw [ih]
        split <;> simp
      · split
        · split <;> simp [ih]
        · simp
    · split <;> simp [ih]

@[simp] theorem State.setDrain_life (s : State) (d) : (s.setDrain d).life = s.life := (rfl)

@[simp] theorem State.destEnd_life (s : State) (d status) : (s.destEnd d status).life = s.life := by
  unfold State.destEnd
  split
  · rfl
  · split
    · rfl
    · dsimp only
      split_ifs <;> simp (disch := decide)

@[simp] theorem State.drainFail_life (s : State) (status) : (s.drainFail status).life = s.life := by
  simp (disch := decide) [State.drainFail]

@[simp] theorem State.destOp_life (s : State) (d x next op) (h : State.life op.2 = s.life) : (s.destOp d x next op).life = s.life := by
  unfold State.destOp
  split
  · rfl
  · simp [h]
  · split <;> simp [h]

@[simp] theorem State.destBegin_life (s : State) (d) : (s.destBegin d).life = s.life := by
  unfold State.destBegin
  split
  · rfl
  · split
    · rfl
    · split_ifs <;> simp

@[simp] theorem State.ephOpDrain_life (s : State) (id ok) : (s.ephOpDrain id ok).life = s.life := by
  unfold State.ephOpDrain
  split
  · simp
  · split
    · simp
    · split
      · rfl
      · split_ifs <;> simp

@[simp] theorem State.ephOpDone_life (s : State) (id ok) : (s.ephOpDone id ok).life = s.life := by
  unfold State.ephOpDone
  split <;> simp (disch := decide)

@[simp] theorem State.ephCopyFailed_life (s : State) : s.ephCopyFailed.life = s.life := by
  simp (disch := decide) [State.ephCopyFailed]

@[simp] theorem State.ephTake_life (s : State) : s.ephTake.life = s.life := by
  unfold State.ephTake
  simp only [State.ephGo_life, State.destBegin_life, State.ephCopyFailed_life]
  refine (life_foldl (fun s d => State.ephOpDone_life ..) _ _).trans ?_
  rw [State.setTrn_life]
  exact (life_foldl (fun s d => State.ephOpDone_life ..) _ _).trans (State.setCat_life ..)

@[simp] theorem State.ephDown_life (s : State) : s.ephDown.life = s.life := by
  simp (disch := decide) [State.ephDown]

@[simp] theorem State.ephReset_life (s : State) : s.ephReset.life = s.life := by
  simp (disch := decide) [State.ephReset]

@[simp] theorem State.ephFresh_life (s : State) : s.ephFresh.life = s.life := by
  unfold State.ephFresh
  exact life_foldl (fun s a => by simp (disch := decide)) _ _

end Sys2Proof.Machine
end


section
/-! SUPPORT. What the operations of the Spectrograph leave: the lifecycle of every cell. -/

namespace Sys2Proof.Machine

open Sys2Proof

@[simp] theorem State.setSpg_life (s : State) (x) : (s.setSpg x).life = s.life := (rfl)

@[simp] theorem State.takeContext_life (s : State) (lo size key) : (s.takeContext lo size key).2.life = s.life := (rfl)

@[simp] theorem State.flowOf_life (s : State) (key) : (s.flowOf key).2.life = s.life := by
  unfold State.flowOf
  dsimp only
  (repeat' split) <;> simp (disch := decide)

@[simp] theorem State.setFlow_life (s : State) (k f) : (s.setFlow k f).life = s.life := (rfl)

@[simp] theorem State.rxItem_life (s : State) (v i q idx buf trunc) : (s.rxItem v i q idx buf trunc).2.life = s.life := by
  simp (disch := decide) [State.rxItem]

@[simp] theorem State.rxDeliver_life (s : State) (v i q program) : (s.rxDeliver v i q program).2.life = s.life := by
  unfold State.rxDeliver
  split
  · rfl
  · next a _ =>
    have h := s.devRead_life a 12
    generalize s.devRead a 12 = p at h ⊢
    split
    · exact (State.recordError_life ..).trans h
    · exact (State.recordError_life ..).trans h
    · refine (State.routeFire_life ..).trans ((State.notifyBit_life ..).trans ((State.setSpg_life ..).trans ?_))
      simp (disch := decide) only [State.setFld_unit_life, life_ite, State.recordError_life, State.devWrite_life, ite_self, State.count_life]
      split <;> simpa using h

@[simp] theorem State.rxqEnable_life (s : State) (q) : (s.rxqEnable q).life = s.life := by
  simp (disch := decide) [State.rxqEnable]

@[simp] theorem State.counterAdd_life (s : State) (a inc) : (s.counterAdd a inc).life = s.life := by
  unfold State.counterAdd
  have h := s.devRead_life a 8
  generalize s.devRead a 8 = p at h ⊢
  split <;> simpa using h

@[simp] theorem State.countFrame_life (s : State) (v bs) : (s.countFrame v bs).life = s.life := by
  simp (disch := decide) [State.countFrame]

@[simp] theorem State.mirrorFrame_life (s : State) (v i) : (s.mirrorFrame v i).life = s.life := by
  unfold State.mirrorFrame
  split_ifs <;> simp (disch := decide)

@[simp] theorem State.primaryAction_life (s : State) (v i) : (s.primaryAction v i).life = s.life := by
  unfold State.primaryAction
  split <;> simp (disch := decide)

@[simp] theorem State.actOn_life (s : State) (p f v flow) : (s.actOn p f v flow).life = s.life := by
  simp (disch := decide) [State.actOn]

/-- R421: the buffer error and the parse depth that a walk counts. -/
theorem State.classify_walk_life (s : State) (p n : Nat) (e : BufErr) :
    (let s := s.bufErr (ethCell p) e
      if n = 0 then s else s.count spgCell (evOf 0x25 1) none n).life = s.life := by
  dsimp only
  split <;> simp

@[simp] theorem State.classify_life (s : State) (p : Nat) (f : IngressFrame) : (s.classify p f).2.life = s.life := by
  unfold State.classify
  generalize parseFrame s.parseCfg f.bytes = x
  dsimp only
  split
  · simp
  · have hwalk : ∀ s : State, (let s := s.bufErr (ethCell p) f.err
        if x.depth = 0 then s else s.count spgCell (evOf 0x25 1) none x.depth).life = s.life := fun s => s.classify_walk_life ..
    split
    · split <;> simp [hwalk]
    · split
      · simp [hwalk]
      · next key _ =>
        have h := s.flowOf_life key
        generalize s.flowOf key = q at h ⊢
        split
        · simpa using (hwalk _).trans h
        · next k t =>
          have ht : t.life = s.life := h
          split
          · simpa using (hwalk _).trans ht
          · split
            · rw [State.noteLevels_life, State.actOn_life, State.count_life]
              exact (hwalk _).trans ((State.setFlow_life ..).trans ht)
            · split
              · rfl
              · simpa using (hwalk _).trans ht

@[simp] theorem State.classifyWaiting_life (s : State) (l kept : List (Nat × IngressFrame)) : (s.classifyWaiting l kept).life = s.life := by
  induction l generalizing s kept with
  | nil => exact life_foldl (fun s p => State.setEthPort_life ..) _ _
  | cons g l ih =>
    unfold State.classifyWaiting
    split
    · exact ih ..
    · dsimp only
      split <;> simp [ih]

@[simp] theorem State.classifyAll_life (s : State) : s.classifyAll.life = s.life := by
  simp (disch := decide) [State.classifyAll]

@[simp] theorem State.spgReset_life (s : State) : s.spgReset.life = s.life := (rfl)

end Sys2Proof.Machine
end


section
/-! SUPPORT. What the operations of the host functions leave: the lifecycle of every cell. -/

namespace Sys2Proof.Machine

open Sys2Proof

@[simp] theorem State.settle_life (s : State) : s.settle.life = s.life := by
  unfold State.settle
  rw [State.ephTake_life, State.movTake_life, State.catConsume_life]

@[simp] theorem State.vfStopQueue_life (s : State) (x) : (s.vfStopQueue x).life = s.life := by
  unfold State.vfStopQueue
  split <;> simp (disch := decide)

@[simp] theorem State.vfStartQueue_life (s : State) (x) : (s.vfStartQueue x).life = s.life := by
  unfold State.vfStartQueue
  split <;> simp (disch := decide)

@[simp] theorem State.resetFnQueues_life (s : State) (port fn) : (s.resetFnQueues port fn).life = s.life := by
  unfold State.resetFnQueues
  exact life_foldl (fun s a => by simp (disch := decide)) _ _

@[simp] theorem State.vfShutdown_life (s : State) (port v) : (s.vfShutdown port v).life = s.life := by
  unfold State.vfShutdown
  split
  · rfl
  · dsimp only
    rw [State.settle_life]
    refine (life_foldl (fun s x => State.vfStopQueue_life ..) _ _).trans ?_
    simp (disch := decide)

@[simp] theorem State.vfStarted_life (s : State) (port v) : (s.vfStarted port v).life = s.life := by
  unfold State.vfStarted
  split
  · rfl
  · exact (life_foldl (fun s q => State.vfStartQueue_life ..) _ _).trans (State.setVf_life ..)

@[simp] theorem State.wipeFn_life (s : State) (port fn) : (s.wipeFn port fn).life = s.life := (rfl)

@[simp] theorem State.setExists_life (s : State) (port v on) : (s.setExists port v on).life = s.life := by
  simp (disch := decide) [State.setExists]

@[simp] theorem State.vfsFollow_life (s : State) (port) : (s.vfsFollow port).life = s.life := by
  unfold State.vfsFollow
  exact life_foldl (fun s a => by simp (disch := decide)) _ _

@[simp] theorem State.upCellDown_life (s : State) (port) : (s.upCellDown port).life = s.life := by
  unfold State.upCellDown
  exact life_foldl (fun s a => by simp (disch := decide)) _ _

@[simp] theorem State.upCellUp_life (s : State) (port) : (s.upCellUp port).life = s.life := by
  unfold State.upCellUp
  exact life_foldl (fun s a => by simp (disch := decide)) _ _

/-- R509: an FLR of the function 0 of a port. -/
@[simp] theorem State.flrStart_life (s : State) (port) : (s.flrStart port 0).life = s.life := by
  unfold State.flrStart
  split
  · rfl
  · simp (disch := decide)

@[simp] theorem State.setLink_life (s : State) (j up speed width flit) : (s.setLink j up speed width flit).life = s.life := by
  simp (disch := decide) [State.setLink]

@[simp] theorem State.fundamental_life (s : State) (port) : (s.fundamental port).life = s.life := by
  unfold State.fundamental
  dsimp only
  rw [State.setPci_life, State.setLink_life]
  exact (life_foldl (fun s v => State.vfShutdown_life ..) _ _).trans (State.flrStart_life ..)

@[simp] theorem State.linkDisable_life (s : State) (j) : (s.linkDisable j).life = s.life := by
  simp (disch := decide) [State.linkDisable]

@[simp] theorem State.presentNow_life (s : State) (k) : (s.presentNow k).life = s.life := by
  exact State.setCfg_life ..

@[simp] theorem State.perstAssert_life (s : State) (k) : (s.perstAssert k).life = s.life := (rfl)

@[simp] theorem State.dpReset_life (s : State) (k) : (s.dpReset k).life = s.life := by
  simp (disch := decide) [State.dpReset]

end Sys2Proof.Machine
end


section
/-! SUPPORT. What the operations of the filters leave: the lifecycle of every cell. -/

namespace Sys2Proof.Machine

open Sys2Proof

@[simp] theorem State.keyReset_life (s : State) : s.keyReset.life = s.life := (rfl)

@[simp] theorem State.setFltUnit_life (s : State) (u x) : (s.setFltUnit u x).life = s.life := (rfl)

@[simp] theorem State.setFltRun_life (s : State) (u r) : (s.setFltRun u r).life = s.life := (rfl)

@[simp] theorem State.fltEnd_life (s : State) (u status code) : (s.fltEnd u status code).life = s.life := by
  unfold State.fltEnd
  dsimp only
  (repeat' split) <;> simp (disch := decide)

@[simp] theorem State.fltUnitReset_life (s : State) (u) : (s.fltUnitReset u).life = s.life := by
  simp (disch := decide) [State.fltUnitReset]

end Sys2Proof.Machine
end


section
/-! SUPPORT. What the operations of the root of trust leave: the lifecycle of every cell. -/

namespace Sys2Proof.Machine

open Sys2Proof

@[simp] theorem State.setRot_life (s : State) (r) : (s.setRot r).life = s.life := (rfl)

@[simp] theorem State.newNonce_life (s : State) : s.newNonce.life = s.life := by
  unfold State.newNonce
  exact life_foldl (fun s a => by simp (disch := decide)) _ _

@[simp] theorem State.svnBroken_life (s : State) : s.svnBroken.life = s.life := by
  unfold State.svnBroken
  split <;> simp

@[simp] theorem State.flashUnknown_life (s : State) (off n : Nat) : (s.flashUnknown off n).life = s.life := by
  induction n generalizing s off with
  | zero => rfl
  | succ n ih => simp [State.flashUnknown, ih]

@[simp] theorem State.flashBroken_life (s : State) : s.flashBroken.life = s.life := by
  unfold State.flashBroken
  split <;> simp (disch := decide)

@[simp] theorem State.rotReset_life (s : State) : s.rotReset.life = s.life := by
  simp (disch := decide) [State.rotReset]

end Sys2Proof.Machine
end


section
/-! SUPPORT. What the operations of the Chronograph leave: the lifecycle of every cell. -/

namespace Sys2Proof.Machine

open Sys2Proof

@[simp] theorem State.setWdt_life (s : State) (n v) : (s.setWdt n v).life = s.life := (rfl)

@[simp] theorem State.chrReset_life (s : State) : s.chrReset.life = s.life := by
  unfold State.chrReset
  refine (life_foldl (fun s p => ?_) _ _).trans ?_ <;> simp (disch := decide)

end Sys2Proof.Machine
end


section
/-! SUPPORT. What the operations of the Dome leave: the lifecycle of every cell. -/

namespace Sys2Proof.Machine

open Sys2Proof

@[simp] theorem State.wdtReload_life (s : State) (n) : (s.wdtReload n).life = s.life := by
  exact State.setWdt_life ..

end Sys2Proof.Machine
end


section
/-! SUPPORT. What the operations of the units at a change, a quiesce, a FAULT or a reset of their cell leave: the lifecycle of every cell. -/

namespace Sys2Proof.Machine

open Sys2Proof

@[simp] theorem State.coreStop_life (s : State) (c) : (s.coreStop c).life = s.life := (rfl)

@[simp] theorem State.coreClear_life (s : State) (c) : (s.coreClear c).life = s.life := (rfl)

@[simp] theorem State.unitDown_life (s : State) (cell) : (s.unitDown cell).life = s.life := by
  unfold State.unitDown
  split <;> simp (disch := decide)

@[simp] theorem State.leaveOff_life (s : State) (cell) : (s.leaveOff cell).life = s.life := by
  simp (disch := decide) [State.leaveOff]

@[simp] theorem State.unitQuiesced_life (s : State) (cell) : (s.unitQuiesced cell).life = s.life := by
  unfold State.unitQuiesced
  split
  iterate 2
    split
    · simp
    · rfl
  all_goals simp

@[simp] theorem State.unitFault_life (s : State) (cell) : (s.unitFault cell).life = s.life := by
  unfold State.unitFault
  split <;> simp (disch := decide)

@[simp] theorem State.dropDone_life (s : State) (c) : (s.dropDone c).life = s.life := (rfl)

@[simp] theorem State.clearBits_life (s : State) (lo hi) : (s.clearBits lo hi).life = s.life := by
  unfold State.clearBits
  exact life_foldl (fun s a => by simp (disch := decide)) _ _

@[simp] theorem State.unitReset_life (s : State) (cell) : (s.unitReset cell).life = s.life := by
  unfold State.unitReset
  dsimp only
  (repeat' split) <;> simp (disch := decide)

end Sys2Proof.Machine
end

section
/-! SUPPORT. The tree of the cells (R44, R50): parents and children, the path of a cell, its subtree; and the state a cell reads (R55) by its
own fields and its parent's state. -/

namespace Sys2Proof.Machine

open Sys2Proof

/-! ### Parents, paths and subtrees -/

theorem cellId_of_member_zero {id : Nat} (h : id < 0x10000) (hm : cellMember id = 0) :
    cellDie id < 8 ∧ cellSlot id < 16 ∧ id = cellId (cellDie id) (cellSlot id) 0 := by
  unfold cellMember at hm
  unfold cellDie cellSlot cellId
  omega

/-- R44, R50: the children of dies and subsystems are cells, with that parent; those of a subsystem are member cells. -/
theorem cellChildren_table : ∀ die < 8, ∀ slot < 16,
    (cellChildren (cellId die slot 0)).all (fun c => (cellKind c).isSome && cellParent c == cellId die slot 0 && c != 0) = true ∧
    (kindOf (cellId die slot 0) ∉ [0x01, 0x02, 0x03] → (cellChildren (cellId die slot 0)).all (fun c => cellMember c != 0) = true) := by
  decide +kernel

/-- R45, R46: the kind of a member cell comes from its subsystem's. -/
theorem kindOf_member {id : Nat} (h : cellMember id ≠ 0) :
    kindOf id = 0 ∨ ∃ p ∈ slotInfo (cellDie id) (cellSlot id), id < 0x10000 ∧ kindOf id = memberKind p.1 (cellMember id) := by
  have h0 : id ≠ 0 := fun e => h (by rw [e]; rfl)
  unfold kindOf cellKind
  dsimp only
  split_ifs with hlt hdie hslot
  · exact .inl rfl
  · exact .inl rfl
  · exact .inl rfl
  · cases hp : slotInfo (cellDie id) (cellSlot id) with
    | none => exact .inl rfl
    | some p =>
      dsimp only
      split_ifs
      · exact .inr ⟨p, rfl, Nat.not_le.mp hlt, rfl⟩
      · exact .inl rfl

theorem slotInfo_kinds : ∀ die < 8, ∀ slot < 16, ∀ p ∈ slotInfo die slot, 0x10 ≤ p.1 ∧ p.1 ≠ 0x2F := by decide

/-- R45, R46: no member cell is of the kind of the device, of a die or of the Chronograph. -/
theorem kindOf_of_member {id : Nat} (h : cellMember id ≠ 0) : kindOf id ∉ [0x01, 0x02, 0x03, 0x30] := by
  have hk : kindOf id = 0 ∨ 0x11 ≤ kindOf id ∧ kindOf id ≠ 0x30 := by
    refine (kindOf_member h).imp_right fun ⟨p, hp, hid, e⟩ => ?_
    obtain ⟨h10, h2f⟩ := slotInfo_kinds _ (by unfold cellDie; omega) _ (by unfold cellSlot; omega) p hp
    rw [e, memberKind]
    split_ifs <;> omega
  simp only [List.mem_cons, List.not_mem_nil, or_false]
  omega

/-- R45: no cell but the Chronograph's is of its kind. -/
theorem eq_chrCell_of_kind {id : Nat} (hid : id < 0x10000) (h : kindOf id = 0x30) : id = chrCell := by
  have htable : ∀ die < 8, ∀ slot < 16, kindOf (cellId die slot 0) = 0x30 → cellId die slot 0 = chrCell := by decide
  by_cases hm : cellMember id = 0
  · obtain ⟨hd, hs, e⟩ := cellId_of_member_zero hid hm
    rw [e] at h ⊢
    exact htable _ hd _ hs h
  · have := kindOf_of_member hm
    simp [h] at this

/-- R50: a member cell has no children. -/
theorem cellChildren_of_member {id : Nat} (h : cellMember id ≠ 0) : cellChildren id = [] := by
  have hk := kindOf_of_member h
  unfold cellChildren
  split
  · next e => simp [e] at hk
  · next e => simp [e] at hk
  · next e => simp [e] at hk
  · exact if_neg fun e => h e.1

/-- R44, R50: a child of a cell is a cell, with it for parent. -/
theorem child_isCell {id c : Nat} (hid : id < 0x10000) (hc : c ∈ cellChildren id) :
    (cellKind c).isSome = true ∧ cellParent c = id ∧ c ≠ 0 := by
  by_cases hm : cellMember id = 0
  · obtain ⟨hd, hs, e⟩ := cellId_of_member_zero hid hm
    have := (cellChildren_table _ hd _ hs).1
    rw [← e, List.all_eq_true] at this
    simpa [and_assoc] using this c hc
  · rw [cellChildren_of_member hm] at hc
    cases hc

/-- R43: a cell without a slot has no member number. -/
theorem member_zero_of_slot_zero {id : Nat} (hk : (cellKind id).isSome = true) (hs : cellSlot id = 0) : cellMember id = 0 := by
  by_contra hm
  have h0 : id ≠ 0 := fun e => hm (by rw [e]; rfl)
  simp [cellKind, hs, hm, h0] at hk

/-- R44: no cell but the device lies in die 0. -/
theorem le_of_cellKind {id : Nat} (hk : (cellKind id).isSome = true) (h0 : id ≠ 0) : 0x2000 ≤ id := by
  by_contra hlt
  have hd : cellDie id = 0 := Nat.div_eq_of_lt (Nat.not_le.mp hlt)
  simp [cellKind, hd, h0] at hk

/-- R44: the path of a cell is that of its parent below it. -/
theorem cellPath_parent {id : Nat} (hk : (cellKind id).isSome = true) (h0 : id ≠ 0) : cellPath id = id :: cellPath (cellParent id) := by
  have hle := le_of_cellKind hk h0
  by_cases hs : cellSlot id = 0
  · have hm := member_zero_of_slot_zero hk hs
    simp [cellPath, cellParent, h0, hs, hm]
  · by_cases hm : cellMember id = 0
    · have hp : cellParent id = id - 0x200 * cellSlot id := by simp [cellParent, hs, hm]
      have hp0 : cellParent id ≠ 0 ∧ cellSlot (cellParent id) = 0 := by
        rw [hp]
        unfold cellSlot
        omega
      simp [cellPath, h0, hs, hm, hp0]
    · have hp : cellParent id = id - cellMember id := by simp [cellParent, hm]
      have hp0 : cellParent id ≠ 0 ∧ cellSlot (cellParent id) ≠ 0 ∧ cellMember (cellParent id) = 0 := by
        rw [hp]
        unfold cellSlot cellMember at *
        omega
      simp [cellPath, h0, hs, hm, hp0]

/-- R50: every cell below another is a cell, and has that one on its path. -/
theorem mem_cellSubtree {id d : Nat} (hk : (cellKind id).isSome = true) (hd : d ∈ cellSubtree id) :
    (cellKind d).isSome = true ∧ id ∈ cellPath d := by
  have hstep : ∀ {a c : Nat}, (cellKind a).isSome = true ∧ id ∈ cellPath a → c ∈ cellChildren a →
      (cellKind c).isSome = true ∧ id ∈ cellPath c := fun ⟨ha, hp⟩ hc => by
    obtain ⟨hck, hcp, hc0⟩ := child_isCell (lt_of_cellKind ha) hc
    rw [cellPath_parent hck hc0, hcp]
    exact ⟨hck, List.mem_cons_of_mem _ hp⟩
  have hself : (cellKind id).isSome = true ∧ id ∈ cellPath id := by
    obtain ⟨up, hup⟩ := cellPath_eq_cons id
    rw [hup]
    exact ⟨hk, List.mem_cons_self⟩
  simp only [cellSubtree, List.mem_cons, List.mem_append, List.mem_flatMap] at hd
  rcases hd with rfl | ((hd | ⟨a, ha, hd⟩) | ⟨b, ⟨a, ha, hb⟩, hd⟩)
  · exact hself
  · exact hstep hself hd
  · exact hstep (hstep hself ha) hd
  · exact hstep (hstep (hstep hself ha) hb) hd

theorem lt_of_mem_cellSubtree {id d : Nat} (hk : (cellKind id).isSome = true) (hd : d ∈ cellSubtree id) : d < 0x10000 :=
  lt_of_cellKind (mem_cellSubtree hk hd).1

theorem self_mem_cellSubtree (id : Nat) : id ∈ cellSubtree id := List.mem_cons_self

/-- R45, R46: below a subsystem stand its member cells alone. -/
theorem cellSubtree_of_subsystem {id : Nat} (hid : id < 0x10000) (hk : kindOf id ∉ [0x01, 0x02, 0x03]) :
    cellSubtree id = id :: cellChildren id := by
  have hleaf : ∀ c ∈ cellChildren id, cellChildren c = [] := fun c hc => by
    by_cases hm : cellMember id = 0
    · obtain ⟨hd, hs, e⟩ := cellId_of_member_zero hid hm
      have := (cellChildren_table _ hd _ hs).2
      rw [← e, List.all_eq_true] at this
      exact cellChildren_of_member (by simpa using this hk c hc)
    · rw [cellChildren_of_member hm] at hc
      cases hc
  have hnil : (cellChildren id).flatMap cellChildren = [] := List.flatMap_eq_nil_iff.mpr hleaf
  simp [cellSubtree, hnil]

theorem cellChildren_nodup (id : Nat) (hk : kindOf id ∉ [0x01, 0x02, 0x03]) : (cellChildren id).Nodup ∧ id ∉ cellChildren id := by
  simp only [List.mem_cons, List.not_mem_nil, or_false, not_or] at hk
  obtain ⟨h1, h2, h3⟩ := hk
  unfold cellChildren
  split
  · contradiction
  · contradiction
  · contradiction
  · split_ifs
    · split
      · refine ⟨List.Nodup.map (fun a b h => by simpa using h) List.nodup_range, fun h => ?_⟩
        obtain ⟨m, -, hm⟩ := List.mem_map.mp h
        omega
      · exact ⟨List.nodup_nil, List.not_mem_nil⟩
    · exact ⟨List.nodup_nil, List.not_mem_nil⟩

theorem cellSubtree_nodup {id : Nat} (hid : id < 0x10000) (hk : kindOf id ∉ [0x01, 0x02, 0x03]) : (cellSubtree id).Nodup := by
  obtain ⟨hn, hself⟩ := cellChildren_nodup id hk
  rw [cellSubtree_of_subsystem hid hk]
  exact List.nodup_cons.mpr ⟨hself, hn⟩

/-! ### The state a cell reads -/

/-- R55, R62: the state a cell reads, by its own fields and the state its parent reads. -/
theorem State.cellState_eq (s : State) {id : Nat} (hk : (cellKind id).isSome = true) :
    s.cellState id =
      if s.flag F.CELL_STATE_RESETTING id then (if noEnable id then 2 else 0)
      else if s.faulted id then 4
      else if !s.flag F.CELL_CTRL_EN id then (if s.flag F.CELL_STATE_QUIESCE_BUSY id then 1 else 0)
      else if !s.flag F.CELL_STATE_QUIESCE_BUSY id && decide (id = 0 ∨ s.cellState (cellParent id) = 3)
          && s.fld F.CELL_POWER_PSTATE id == 0 && s.cellReady id then 3
      else 2 := by
  unfold State.cellState
  by_cases h0 : id = 0
  · subst h0
    simp [show cellPath 0 = [0] from rfl, State.pathState]
  · rw [cellPath_parent hk h0, State.pathState]
    simp [h0]

/-- R55: a path reads ENABLED only where each of its cells has EN 1, quiesces not and is not in FAULT. -/
theorem State.of_pathState {s : State} {l : List Nat} (h : s.pathState l = 3) :
    ∀ c ∈ l, s.flag F.CELL_CTRL_EN c = true ∧ s.flag F.CELL_STATE_QUIESCE_BUSY c = false ∧ s.faulted c = false := by
  induction l with
  | nil => exact fun _ hc => absurd hc List.not_mem_nil
  | cons id up ih =>
    rw [State.pathState] at h
    split_ifs at h with hr hn hf he hq hup
    all_goals cases h
    simp only [Bool.and_eq_true, Bool.not_eq_true', beq_iff_eq] at hup
    obtain ⟨⟨⟨hbusy, hup⟩, -⟩, -⟩ := hup
    intro c hc
    rcases List.mem_cons.mp hc with rfl | hc
    · exact ⟨by simpa using he, hbusy, by simpa using hf⟩
    · exact ih hup c hc

theorem State.enabled_iff {s : State} (hs : s.stopped = false) (id : Nat) : s.enabled id = true ↔ s.cellState id = 3 := by
  simp [State.enabled, hs]

/-- R55: a cell that is ENABLED quiesces not and is not in FAULT. -/
theorem State.of_enabled {s : State} {id : Nat} (h : s.enabled id = true) :
    s.flag F.CELL_STATE_QUIESCE_BUSY id = false ∧ s.faulted id = false := by
  obtain ⟨up, hup⟩ := cellPath_eq_cons id
  simp only [State.enabled, Bool.and_eq_true, beq_iff_eq] at h
  exact (State.of_pathState h.2 id (hup ▸ List.mem_cons_self)).2

/-- R55: with EN 0 in a cell, none below it is ENABLED. -/
theorem State.not_enabled_below {s : State} {id d : Nat} (hk : (cellKind id).isSome = true) (hd : d ∈ cellSubtree id)
    (h : s.flag F.CELL_CTRL_EN id = false) : s.enabled d = false := by
  have hne : s.cellState d ≠ 3 := fun h3 => by
    have := (State.of_pathState h3 id (mem_cellSubtree hk hd).2).1
    rw [h] at this
    cases this
  simp [State.enabled, hne]

end Sys2Proof.Machine
end

section
/-! SUPPORT. A change of a cell and its descendants (R55, R56): what begins a quiesce by it, what becomes ENABLED by it, and what of the
lifecycle it leaves. -/

namespace Sys2Proof.Machine

open Sys2Proof

/-! ### The fields of the lifecycle -/

/-- R53, R55, R61, R64: the fields of a cell's lifecycle, but for the stored STATE that FAULT keeps. -/
def lifeFlds : List Fld :=
  [F.CELL_CTRL_EN, F.CELL_STATE_QUIESCE_BUSY, F.CELL_STATE_RESETTING, F.CELL_STATE_GEN, F.CELL_POWER_PSTATE, F.CELL_POWER_POWER_REQ]

theorem lifeFlds_reg : ∀ f ∈ lifeFlds, f.reg ∈ lifeRegs := by decide

theorem lifeFlds_wf : ∀ f ∈ lifeFlds, f.wf = true ∧ f.reg.isPhot = false ∧ f.reg.map.kinds.isEmpty = true := by decide

theorem lifeFlds_apart_state : ∀ f ∈ lifeFlds, f.apart F.CELL_STATE_STATE = true := by decide

/-- A field of a CCB, where a field of another cell's is written. -/
theorem State.fld_setFld_other {c d : Nat} (hne : d ≠ c) (s : State) {f g : Fld} (hf : f.reg.map.kinds.isEmpty = true)
    (hp : f.reg.isPhot = false) (hg : g.reg.map.kinds.isEmpty = true) (v : Nat) : (s.setFld g c v).fld f d = s.fld f d :=
  (s.setReg_other_ccbKept hne hg _).fld hf hp

/-- A field of a CCB, where one apart from it is written, in whatever cell. -/
theorem State.fld_setFld_apart {d : Nat} (hd : d < 0x10000) (s : State) {f g : Fld} (hf : f.reg.map.kinds.isEmpty = true)
    (hp : f.reg.isPhot = false) (hg : g.reg.map.kinds.isEmpty = true) (hfw : f.wf = true) (hgw : g.wf = true) (ha : f.apart g = true)
    (c v : Nat) : (s.setFld g c v).fld f d = s.fld f d := by
  by_cases hne : d = c
  · subst hne
    exact s.fld_setFld_of_apart hd v hfw hgw ha
  · exact s.fld_setFld_other hne hf hp hg v

/-- A flag of a CCB, where it is set in some cell. -/
theorem State.flag_setFlag_true (s : State) {f : Fld} (hf : f.reg.map.kinds.isEmpty = true) (hp : f.reg.isPhot = false)
    (hw : f.wf = true) (c d : Nat) (b : Bool) : (s.setFlag f c b).flag f d = if d = c then b else s.flag f d := by
  split
  · next h =>
    subst h
    exact State.flag_setFlag hw ..
  · next h => exact congrArg (· == 1) (s.fld_setFld_other h hf hp hf _)

/-! ### What a unit does when its cell becomes ENABLED -/

theorem ephCell_descendants : (cellSubtree ephCell).drop 1 = [] := by decide +kernel

/-- R63: FAULT of a cell without descendants writes its stored STATE alone. -/
theorem State.enterFault_leaf {c : Nat} (h : (cellSubtree c).drop 1 = []) (s : State) :
    s.enterFault c = if s.faulted c then s else s.setFld F.CELL_STATE_STATE c 4 := by
  unfold State.enterFault
  rw [h]
  rfl

theorem State.enterFault_ephCell_fld {f : Fld} (hf : f ∈ lifeFlds) {d : Nat} (hd : d < 0x10000) (s : State) :
    (s.enterFault ephCell).fld f d = s.fld f d := by
  obtain ⟨hw, hp, hk⟩ := lifeFlds_wf f hf
  rw [State.enterFault_leaf ephCell_descendants]
  split
  · rfl
  · exact s.fld_setFld_apart hd hk hp rfl hw (by decide) (lifeFlds_apart_state f hf) _ _

/-- R570: Ephemeris begins a job, or cannot read it and enters FAULT. -/
theorem State.ephUp_fld {f : Fld} (hf : f ∈ lifeFlds) {d : Nat} (hd : d < 0x10000) (s : State) : s.ephUp.fld f d = s.fld f d := by
  have h := s.jobRead_life
  unfold State.ephUp
  generalize s.jobRead = p at h ⊢
  obtain ⟨w, t⟩ := p
  have ht : t.fld f d = s.fld f d := life_fld h (lifeFlds_reg f hf) hd
  cases w with
  | none =>
    exact (State.enterFault_ephCell_fld hf hd _).trans ((life_fld (t.recordError_life ..) (lifeFlds_reg f hf) hd).trans ht)
  | some w =>
    refine (life_fld ?_ (lifeFlds_reg f hf) hd).trans ht
    dsimp only
    rw [State.ephTake_life, State.setEph_life]
    exact life_foldl (fun s a => by simp (disch := decide)) _ _

/-- A cell that becomes ENABLED changes no field of any lifecycle but STATE, which FAULT may set. -/
theorem State.unitUp_fld {f : Fld} (hf : f ∈ lifeFlds) {d : Nat} (hd : d < 0x10000) (s : State) (cell : Nat) :
    (s.unitUp cell).fld f d = s.fld f d := by
  have of_life : ∀ {t : State}, t.life = s.life → t.fld f d = s.fld f d := fun h => life_fld h (lifeFlds_reg f hf) hd
  unfold State.unitUp
  split
  · exact of_life (by simp)
  · exact of_life (by simp)
  · exact of_life (by simp)
  · exact of_life (by simp)
  · exact s.ephUp_fld hf hd
  · dsimp only
    split <;> exact of_life (by simp)
  · dsimp only
    split <;> exact of_life (by simp)
  · rfl

theorem State.foldl_unitUp_fld {f : Fld} (hf : f ∈ lifeFlds) {d : Nat} (hd : d < 0x10000) (l : List Nat) (s : State) :
    (l.foldl (fun (t : State) c => t.unitUp c) s).fld f d = s.fld f d := by
  induction l generalizing s with
  | nil => rfl
  | cons c l ih => exact (ih _).trans (s.unitUp_fld hf hd c)

/-! ### What begins a quiesce -/

/-- R56, R59: a cell that was ENABLED and no longer is begins a quiesce. -/
def State.quiesceOne (s : State) (c : Nat) : State := ((s.setFlag F.CELL_STATE_QUIESCE_BUSY c true).count c 0x006).unitDown c

theorem State.quiesceOne_life (s : State) (c : Nat) : (s.quiesceOne c).life = (s.setFlag F.CELL_STATE_QUIESCE_BUSY c true).life := by
  rw [State.quiesceOne, State.unitDown_life, State.count_life]

/-- A field apart from QUIESCE_BUSY. -/
theorem State.foldl_quiesceOne_fld {f : Fld} (hr : f.reg ∈ lifeRegs) (hw : f.wf = true)
    (ha : f.apart F.CELL_STATE_QUIESCE_BUSY = true) {d : Nat} (hd : d < 0x10000) (l : List Nat) (s : State) :
    (l.foldl State.quiesceOne s).fld f d = s.fld f d := by
  have hp : ∀ r ∈ lifeRegs, r.isPhot = false := by decide
  induction l generalizing s with
  | nil => rfl
  | cons c l ih =>
    exact (ih _).trans ((life_fld (s.quiesceOne_life c) hr hd).trans
      (s.fld_setFld_apart hd (lifeRegs_ccb _ hr) (hp _ hr) rfl hw (by decide) ha _ _))

theorem State.foldl_quiesceOne_busy {d : Nat} (hd : d < 0x10000) (l : List Nat) (s : State) :
    (l.foldl State.quiesceOne s).flag F.CELL_STATE_QUIESCE_BUSY d = (decide (d ∈ l) || s.flag F.CELL_STATE_QUIESCE_BUSY d) := by
  induction l generalizing s with
  | nil => simp
  | cons c l ih =>
    rw [List.foldl_cons, ih, life_flag (s.quiesceOne_life c) (by decide) hd, s.flag_setFlag_true rfl rfl rfl]
    by_cases h : d = c <;> simp [h]

/-! ### A change of a cell and its descendants -/

/-- R56: the cells of a subtree that were ENABLED in s and are so no longer in t, but for FAULT. -/
def State.leavers (s t : State) (cell : Nat) : List Nat :=
  ((cellSubtree cell).filter s.enabled).filter fun c => !t.enabled c && !t.faulted c

/-- R55: the cells of a subtree that are ENABLED in t and were not in s. -/
def State.joiners (s t : State) (cell : Nat) : List Nat :=
  (cellSubtree cell).filter fun c => t.enabled c && !((cellSubtree cell).filter s.enabled).contains c

/-- The change of s to t, with the quiesces that it begins. -/
def State.withQuiesces (s t : State) (cell : Nat) : State := (s.leavers t cell).foldl State.quiesceOne t

theorem State.cellChange_eq (s : State) (cell : Nat) (f : State → State) :
    s.cellChange cell f =
      ((s.joiners (s.withQuiesces (f s) cell) cell).foldl (fun (t : State) c => t.unitUp c) (s.withQuiesces (f s) cell)).noteLevels := rfl

theorem State.mem_leavers {s t : State} {cell d : Nat} :
    d ∈ s.leavers t cell ↔ d ∈ cellSubtree cell ∧ s.enabled d = true ∧ t.enabled d = false ∧ t.faulted d = false := by
  simp only [State.leavers, List.mem_filter, Bool.and_eq_true, Bool.not_eq_true', and_assoc]

/-- R55, R56: a change keeps what it does not itself write, but for QUIESCE_BUSY. -/
theorem State.cellChange_fld {f : Fld} (hf : f ∈ lifeFlds) (hne : f.apart F.CELL_STATE_QUIESCE_BUSY = true) {d : Nat} (hd : d < 0x10000)
    (s : State) (cell : Nat) (g : State → State) : (s.cellChange cell g).fld f d = (g s).fld f d := by
  rw [State.cellChange_eq, State.noteLevels_fld, State.foldl_unitUp_fld hf hd]
  exact State.foldl_quiesceOne_fld (lifeFlds_reg f hf) (lifeFlds_wf f hf).1 hne hd _ _

/-- R56: after a change a cell quiesces where it did, or where the change took it from ENABLED. -/
theorem State.cellChange_busy {d : Nat} (hd : d < 0x10000) (s : State) (cell : Nat) (g : State → State) :
    (s.cellChange cell g).flag F.CELL_STATE_QUIESCE_BUSY d =
      (decide (d ∈ s.leavers (g s) cell) || (g s).flag F.CELL_STATE_QUIESCE_BUSY d) := by
  rw [State.cellChange_eq, State.noteLevels_flag]
  exact (congrArg (· == 1) (State.foldl_unitUp_fld (by decide) hd _ _)).trans (State.foldl_quiesceOne_busy hd _ _)

/-- R55: where the change leaves no cell ENABLED that was not, the stored STATE is kept. -/
theorem State.cellChange_state {d : Nat} (hd : d < 0x10000) {s : State} {cell : Nat} {g : State → State}
    (h : s.joiners (s.withQuiesces (g s) cell) cell = []) :
    (s.cellChange cell g).fld F.CELL_STATE_STATE d = (g s).fld F.CELL_STATE_STATE d := by
  rw [State.cellChange_eq, State.noteLevels_fld, h]
  exact State.foldl_quiesceOne_fld (by decide) (by decide) (by decide) hd _ _

end Sys2Proof.Machine
end

section
/-! SUPPORT. The enable, the quiesce and the reset of a cell with its subtree (R53 to R62). -/

namespace Sys2Proof.Machine

open Sys2Proof

/-! ### The write of EN -/

/-- R52, R53: EN of a cell that has one, written by an agent that can. -/
theorem exec_cellCtrlEnWrite {s : State} {g : Agent} {cell : Nat} {en : Bool} (hk : (cellKind cell).isSome = true)
    (hn : noEnable cell = false) (hfence : en = true → s.fencedCell cell = false) (hw : s.Writable g .CELL_CTRL cell 0 en.toNat) :
    exec (.cellCtrlEnWrite g cell en) s =
      .next ((if en then s.leaveOff cell else s).cellChange cell fun s => s.setFlag F.CELL_CTRL_EN cell en).noteLevels := by
  have hset : s.setEn cell en = (if en then s.leaveOff cell else s).cellChange cell fun s => s.setFlag F.CELL_CTRL_EN cell en :=
    if_neg (by cases en <;> simp_all)
  have heff : s.regEffect g .CELL_CTRL cell 0 en.toNat = s.setEn cell en := by cases en <;> rfl
  rw [← hset, ← heff, ← hw.cellWrite hk rfl]
  rfl

/-- R56: with EN 0 written, none of the subtree joins. -/
theorem State.joiners_of_disabled {s t : State} {cell : Nat} (hk : (cellKind cell).isSome = true)
    (h : t.flag F.CELL_CTRL_EN cell = false) : s.joiners t cell = [] := by
  refine List.filter_eq_nil_iff.mpr fun d hd => ?_
  simp [State.not_enabled_below hk hd h]

/-- R56: with EN 0 written, the cells of the subtree that were ENABLED leave. -/
theorem State.mem_leavers_of_disabled {s : State} {cell d : Nat} (hk : (cellKind cell).isSome = true) :
    d ∈ s.leavers (s.setFlag F.CELL_CTRL_EN cell false) cell ↔ d ∈ cellSubtree cell ∧ s.enabled d = true := by
  rw [State.mem_leavers]
  refine ⟨fun ⟨hd, he, _⟩ => ⟨hd, he⟩, fun ⟨hd, he⟩ => ⟨hd, he, State.not_enabled_below hk hd (State.flag_setFlag rfl ..), ?_⟩⟩
  have hf : s.faulted d = false := (State.of_enabled he).2
  unfold State.faulted State.setFlag at *
  rwa [s.fld_setFld_apart (lt_of_mem_cellSubtree hk hd) rfl rfl rfl (by decide) (by decide) (by decide)]

theorem State.cellChange_disable_state {s : State} {cell d : Nat} (hk : (cellKind cell).isSome = true) (hd : d < 0x10000) :
    (s.cellChange cell fun s => s.setFlag F.CELL_CTRL_EN cell false).fld F.CELL_STATE_STATE d = s.fld F.CELL_STATE_STATE d := by
  have hc := lt_of_cellKind hk
  refine (State.cellChange_state hd (State.joiners_of_disabled hk ?_)).trans ?_
  · refine (congrArg (· == 1) (State.foldl_quiesceOne_fld (by decide) (by decide) (by decide) hc _ _)).trans ?_
    exact State.flag_setFlag rfl ..
  · exact s.fld_setFld_apart hd rfl rfl rfl (by decide) (by decide) (by decide) _ _

/-- R53, R56: what a write of EN 0 does to the cells of the subtree. -/
theorem State.cellChange_disable {s : State} {cell : Nat} (hk : (cellKind cell).isSome = true) (hs : s.stopped = false) {d : Nat}
    (hd : d ∈ cellSubtree cell) :
    let t := s.cellChange cell fun s => s.setFlag F.CELL_CTRL_EN cell false
    t.flag F.CELL_STATE_QUIESCE_BUSY d = (decide (s.cellState d = 3) || s.flag F.CELL_STATE_QUIESCE_BUSY d) ∧
    t.fld F.CELL_STATE_GEN d = s.fld F.CELL_STATE_GEN d ∧ t.flag F.CELL_STATE_RESETTING d = s.flag F.CELL_STATE_RESETTING d := by
  have hdc := lt_of_mem_cellSubtree hk hd
  have hset : ∀ f ∈ lifeFlds, f.apart F.CELL_CTRL_EN = true → (s.setFlag F.CELL_CTRL_EN cell false).fld f d = s.fld f d := fun f hf ha => by
    obtain ⟨hw, hp, hc⟩ := lifeFlds_wf f hf
    exact s.fld_setFld_apart hdc hc hp rfl hw (by decide) ha _ _
  refine ⟨?_, ?_, ?_⟩
  · rw [State.cellChange_busy hdc]
    refine congrArg₂ (· || ·) ?_ (congrArg (· == 1) (hset _ (by decide) (by decide)))
    simp [State.mem_leavers_of_disabled hk, hd, State.enabled_iff hs]
  · exact (State.cellChange_fld (by decide) (by decide) hdc ..).trans (hset _ (by decide) (by decide))
  · exact congrArg (· == 1) ((State.cellChange_fld (by decide) (by decide) hdc ..).trans (hset _ (by decide) (by decide)))

theorem State.noteLevels_cellState (s : State) (id : Nat) : s.noteLevels.cellState id = s.cellState id := by
  have h : ∀ l, s.noteLevels.pathState l = s.pathState l := fun l => by
    induction l with
    | nil => rfl
    | cons c l ih =>
      rw [State.pathState, State.pathState, ih]
      rfl
  exact h _

/-- R53, R56: what a write of EN does. -/
theorem cellCtrlEnWrite_spec {s : State} {g : Agent} {cell : Nat} {en : Bool} (hk : (cellKind cell).isSome = true)
    (hs : s.stopped = false) (hn : noEnable cell = false) (hfence : en = true → s.fencedCell cell = false)
    (hw : s.Writable g .CELL_CTRL cell 0 en.toNat) :
    ∃ t, exec (.cellCtrlEnWrite g cell en) s = .next t ∧ t.flag F.CELL_CTRL_EN cell = en ∧
      (en = false → s.cellState cell = 3 → ∀ d ∈ cellSubtree cell, s.cellState d = 3 →
        t.flag F.CELL_STATE_QUIESCE_BUSY d = true ∧ t.fld F.CELL_STATE_GEN d = s.fld F.CELL_STATE_GEN d) ∧
      (en = false → s.faulted cell = false → s.resetting cell = false →
        t.cellState cell = if s.cellState cell = 3 ∨ s.flag F.CELL_STATE_QUIESCE_BUSY cell then 1 else 0) := by
  have hc := lt_of_cellKind hk
  have hen : ∀ u : State, (u.cellChange cell fun s => s.setFlag F.CELL_CTRL_EN cell en).flag F.CELL_CTRL_EN cell = en := fun u =>
    (congrArg (· == 1) (State.cellChange_fld (by decide) (by decide) hc ..)).trans (State.flag_setFlag rfl ..)
  refine ⟨_, exec_cellCtrlEnWrite hk hn hfence hw, ?_⟩
  simp only [State.noteLevels_flag, State.noteLevels_fld, State.noteLevels_cellState]
  refine ⟨hen _, ?_, ?_⟩
  · rintro rfl - d hd h3
    obtain ⟨hbusy, hgen, -⟩ := State.cellChange_disable hk hs hd
    exact ⟨hbusy.trans (by rw [h3]; rfl), hgen⟩
  · rintro rfl hf hr
    obtain ⟨hbusy, -, hres⟩ := State.cellChange_disable hk hs (self_mem_cellSubtree cell)
    have hstate := State.cellChange_disable_state (s := s) hk hc
    have hoff := hen s
    rw [if_neg Bool.false_ne_true]
    generalize (s.cellChange cell fun s => s.setFlag F.CELL_CTRL_EN cell false) = t at *
    have hfault : t.faulted cell = false := by
      unfold State.faulted at hf ⊢
      rwa [hstate]
    have hres : t.flag F.CELL_STATE_RESETTING cell = false := hres.trans hr
    rw [State.cellState_eq _ hk]
    simp [hres, hfault, hoff, hbusy]

/-! ### The completion of a quiesce -/

theorem exec_quiesceComplete {s : State} {cell : Nat} (hk : (cellKind cell).isSome = true) (hs : s.stopped = false) :
    exec (.quiesceComplete cell) s = .next (s.quiesceDone cell) := by
  change Host.Outcome.next _ = _
  rw [if_neg (by simp [Option.isNone_iff_eq_none, Option.isSome_iff_ne_none.mp hk, hs])]

/-- R57, R58: a quiesce that nothing keeps completes. -/
theorem State.quiesceDone_spec {s : State} {cell : Nat} (hc : cell < 0x10000) (hb : s.flag F.CELL_STATE_QUIESCE_BUSY cell = true)
    (hi : s.unitIdle cell = true) (hd : ∀ d ∈ (cellSubtree cell).drop 1, s.flag F.CELL_STATE_QUIESCE_BUSY d = false) :
    (s.quiesceDone cell).flag F.CELL_STATE_QUIESCE_BUSY cell = false ∧
    (s.quiesceDone cell).fld F.CELL_STATE_GEN cell = (s.fld F.CELL_STATE_GEN cell + 1) % 65536 := by
  have hgo : ¬(!s.flag F.CELL_STATE_QUIESCE_BUSY cell ∨ !s.unitIdle cell
      ∨ ((cellSubtree cell).drop 1).any (fun c => s.flag F.CELL_STATE_QUIESCE_BUSY c)) := by
    rw [hb, hi]
    simpa using hd
  have hu : (s.unitQuiesced cell).fld F.CELL_STATE_GEN cell = s.fld F.CELL_STATE_GEN cell := life_fld (by simp) (by decide) hc
  rw [State.quiesceDone, if_neg hgo]
  constructor
  · have hl : ∀ u : State, cell ∉ s.leavers u cell := fun u h => by
      have := (State.of_enabled (State.mem_leavers.mp h).2.1).1
      rw [hb] at this
      cases this
    rw [State.cellChange_busy hc, decide_eq_false (hl _), Bool.false_or,
      State.flag_setFld_of_apart hc _ _ (by decide) (by decide) (by decide), State.flag_setFlag rfl]
  · rw [State.cellChange_fld (by decide) (by decide) hc]
    dsimp only
    rw [State.fld_setFld _ _ _ _ _ (by decide) (by decide), hu]
    rfl

/-! ### The reset of a cell -/

/-- R48, R51: the registers of the lifecycle lie in no unit register block. -/
theorem regAddr_lt_of_mem_lifeRegs {r : RegId} (hr : r ∈ lifeRegs) {d : Nat} (hd : d < 0x10000) : regAddr r d 0 < 0x020010000000 := by
  have ho := RegId.offset_lt_of_ccb (lifeRegs_ccb r hr)
  rw [regAddr_of_ccb (lifeRegs_ccb r hr), ccbBase]
  omega

theorem regAddr_ne_unitBase {r : RegId} (hr : r ∈ lifeRegs) {d : Nat} (hd : d < 0x10000) (c : Nat) :
    ¬(0 < unitBase c ∧ unitBase c ≤ regAddr r d 0 ∧ regAddr r d 0 < unitBase c + unitSize c) := by
  have ha := regAddr_lt_of_mem_lifeRegs hr hd
  rcases unitBase_eq_zero_or_le c with hu | hu <;> omega

theorem mem_ccb_iff {r : RegId} (hr : r ∈ lifeRegs) (c d : Nat) :
    (ccbBase c ≤ regAddr r d 0 ∧ regAddr r d 0 < ccbBase c + 0x1000) ↔ d = c := by
  have ho := RegId.offset_lt_of_ccb (lifeRegs_ccb r hr)
  rw [regAddr_of_ccb (lifeRegs_ccb r hr), ccbBase, ccbBase]
  omega

theorem State.clearRegs_reg_kept (s : State) {c d : Nat} (hd : d < 0x10000) (h : d ≠ c ∨ kindOf c = 0x30) {r : RegId} (hr : r ∈ lifeRegs) :
    (s.clearRegs c).reg r d = s.reg r d := by
  have hp : r.isPhot = false := by revert r; decide
  have hcell : d = c → kindOf c = 0x30 := fun e => h.resolve_left fun hne => hne e
  unfold State.reg State.clearRegs
  simp only [hp, Bool.false_eq_true, if_false]
  refine smapGet_filter (fun a => !(decide (ccbBase c ≤ a ∧ a < ccbBase c + 0x1000) && a != regAddr .CELL_CLOCK c 0 && kindOf c != 0x30
    || decide (0 < unitBase c ∧ unitBase c ≤ a ∧ a < unitBase c + unitSize c) && !unitKeeps c a)) ?_
  simp only [mem_ccb_iff hr, decide_eq_false (regAddr_ne_unitBase hr hd c), Bool.false_and, Bool.or_false]
  by_cases e : d = c
  · simp [hcell e]
  · simp [e]

/-- R61: the registers of the lifecycle return to their reset values. -/
theorem State.clearRegs_reg_reset (s : State) {c : Nat} (hk : kindOf c ≠ 0x30) {r : RegId} (hr : r ∈ lifeRegs) :
    (s.clearRegs c).reg r c = resetValue r c 0 := by
  have hp : r.isPhot = false := by revert r; decide
  have hclock : regAddr r c 0 ≠ regAddr .CELL_CLOCK c 0 := by
    have ho : r.map.offset ≠ RegId.CELL_CLOCK.map.offset := by revert r; decide
    rw [regAddr_of_ccb (lifeRegs_ccb r hr), regAddr_of_ccb rfl]
    omega
  unfold State.reg State.clearRegs
  simp only [hp, Bool.false_eq_true, if_false]
  by_contra hne
  have hmem := (List.mem_filter.mp (smapGet_listed hne)).2
  simp [mem_ccb_iff hr, hclock, hk] at hmem

/-- A unit's own part once its registers hold their reset values leaves the lifecycle, but for the Chronograph's POWER_REQ (log 70). -/
theorem State.unitFresh_life (s : State) {c : Nat} (hk : kindOf c ≠ 0x30) : (s.unitFresh c).life = s.life := by
  unfold State.unitFresh
  split
  · contradiction
  · simp
  · simp (disch := decide)
  · simp
  · rfl

theorem State.unitFresh_chr (s : State) {c : Nat} (hk : kindOf c = 0x30) : s.unitFresh c = s.setFld F.CELL_POWER_POWER_REQ c 0 := by
  unfold State.unitFresh
  rw [hk]
  rfl

/-- R61: the reset of a cell leaves the lifecycle of the others. -/
theorem State.resetCell_other (s : State) {c d : Nat} (hd : d < 0x10000) (hne : d ≠ c) {f : Fld} (hf : f ∈ lifeFlds) :
    (s.resetCell c).fld f d = s.fld f d := by
  obtain ⟨-, hp, hc⟩ := lifeFlds_wf f hf
  have hr := lifeFlds_reg f hf
  have hbefore : ((s.count c 0x007).unitReset c).fld f d = s.fld f d := life_fld (by simp) hr hd
  have hclear : (((s.count c 0x007).unitReset c).clearRegs c).fld f d = s.fld f d := by
    rw [← hbefore, State.fld, State.clearRegs_reg_kept _ hd (.inl hne) hr, State.fld]
  unfold State.resetCell
  dsimp only
  generalize BitVec.ofNat 64 _ = v
  have hset := (State.setReg_other_ccbKept hne (((s.count c 0x007).unitReset c).clearRegs c) (r := .CELL_STATE) rfl v).fld hc hp
  by_cases hk : kindOf c = 0x30
  · rw [State.unitFresh_chr _ hk, State.fld_setFld_other hne _ hc hp rfl, hset, hclear]
  · rw [life_fld (State.unitFresh_life _ hk) hr hd, hset, hclear]

/-- R61: `CELL_STATE` after the reset of a cell: GEN, RESETTING and nothing else. -/
theorem State.resetCell_state (s : State) {c : Nat} (hc : c < 0x10000) :
    (s.resetCell c).reg .CELL_STATE c = BitVec.ofNat 64 ((s.fld F.CELL_STATE_GEN c + 1) % 65536 * 2 ^ 16 + 2 ^ 4) := by
  have hcount : (s.count c 0x007).fld F.CELL_STATE_GEN c = s.fld F.CELL_STATE_GEN c := life_fld (by simp) (by decide) hc
  unfold State.resetCell
  dsimp only
  rw [hcount]
  generalize BitVec.ofNat 64 _ = v
  by_cases hk : kindOf c = 0x30
  · rw [State.unitFresh_chr _ hk, State.reg_setFld_of_ne _ _ (regAddr_ne_of_apart hc (by decide)), State.reg_setReg]
  · rw [life_eq_iff.mp (State.unitFresh_life _ hk) _ (by decide) c hc, State.reg_setReg]

/-- R61: the other registers of the lifecycle after the reset of a cell, but for the Chronograph's (R709). -/
theorem State.resetCell_reset (s : State) {c : Nat} (hc : c < 0x10000) (hk : kindOf c ≠ 0x30) {r : RegId} (hr : r ∈ lifeRegs)
    (hne : r ≠ .CELL_STATE) : (s.resetCell c).reg r c = resetValue r c 0 := by
  have ha : r.apart .CELL_STATE = true := by revert r; decide
  unfold State.resetCell
  dsimp only
  rw [life_eq_iff.mp (State.unitFresh_life _ hk) r hr c hc, State.reg_setReg_of_ne _ _ (regAddr_ne_of_apart hc ha),
    State.clearRegs_reg_reset _ hk hr]

/-- What R61 gives the lifecycle of a cell that is reset, when its GEN was g; EN but in the Chronograph (R709). -/
structure State.Fresh (s : State) (c g : Nat) : Prop where
  gen : s.fld F.CELL_STATE_GEN c = (g + 1) % 65536
  resetting : s.flag F.CELL_STATE_RESETTING c = true
  busy : s.flag F.CELL_STATE_QUIESCE_BUSY c = false
  powerReq : s.fld F.CELL_POWER_POWER_REQ c = 0
  en : c ≠ chrCell → s.flag F.CELL_CTRL_EN c = noEnable c

theorem State.Fresh.of_fld {s t : State} {c g : Nat} (h : s.Fresh c g) (hf : ∀ f ∈ lifeFlds, t.fld f c = s.fld f c) : t.Fresh c g where
  gen := (hf _ (by decide)).trans h.gen
  resetting := (congrArg (· == 1) (hf _ (by decide))).trans h.resetting
  busy := (congrArg (· == 1) (hf _ (by decide))).trans h.busy
  powerReq := (hf _ (by decide)).trans h.powerReq
  en hc := (congrArg (· == 1) (hf _ (by decide))).trans (h.en hc)

theorem State.resetCell_fresh (s : State) {c : Nat} (hc : c < 0x10000) : (s.resetCell c).Fresh c (s.fld F.CELL_STATE_GEN c) := by
  have hstate : ∀ f : Fld, f.reg = .CELL_STATE → (s.resetCell c).fld f c =
      bitsOf ((s.fld F.CELL_STATE_GEN c + 1) % 65536 * 2 ^ 16 + 2 ^ 4) f.hi f.lo := fun f e => by
    rw [State.fld, e, s.resetCell_state hc, bitsOf_ofNat (by omega)]
  have hreset : ∀ (f : Fld) (hr : f.reg ∈ lifeRegs) (hne : f.reg ≠ .CELL_STATE) (hk : kindOf c ≠ 0x30),
      (s.resetCell c).fld f c = bitsOf (resetValue f.reg c 0).toNat f.hi f.lo := fun f hr hne hk => by
    rw [State.fld, s.resetCell_reset hc hk hr hne]
  constructor
  case gen =>
    rw [hstate _ rfl]
    simp only [F.CELL_STATE_GEN, bitsOf]
    omega
  case resetting =>
    rw [State.flag, hstate _ rfl]
    simp only [F.CELL_STATE_RESETTING, bitsOf, beq_iff_eq]
    omega
  case busy =>
    rw [State.flag, hstate _ rfl]
    simp only [F.CELL_STATE_QUIESCE_BUSY, bitsOf, beq_eq_false_iff_ne]
    omega
  case powerReq =>
    by_cases hk : kindOf c = 0x30
    · unfold State.resetCell
      dsimp only
      rw [State.unitFresh_chr _ hk]
      exact State.fld_setFld _ _ _ _ _ (by decide) (by decide)
    · rw [hreset _ (by decide) (by decide) hk]
      simp [F.CELL_POWER_POWER_REQ, resetValue, RegId.map, bitsOf]
  case en =>
    intro hne
    have hk : kindOf c ≠ 0x30 := fun h => hne (eq_chrCell_of_kind hc h)
    rw [State.flag, hreset _ (by decide) (by decide) hk]
    cases h : noEnable c
    · simp [F.CELL_CTRL_EN, resetValue, h, bitsOf]
    · simp [F.CELL_CTRL_EN, resetValue, h, bitsOf]

/-- R61: each cell of a list without repetition is reset once. -/
theorem State.foldl_resetCell_fresh {l : List Nat} (hn : l.Nodup) (hl : ∀ c ∈ l, c < 0x10000) (s : State) {d : Nat} (hd : d ∈ l) :
    (l.foldl (fun (s : State) c => s.resetCell c) s).Fresh d (s.fld F.CELL_STATE_GEN d) := by
  have hrest : ∀ (l : List Nat) (s : State) {d : Nat}, d < 0x10000 → d ∉ l → ∀ f ∈ lifeFlds,
      (l.foldl (fun (s : State) c => s.resetCell c) s).fld f d = s.fld f d := fun l s d hd => by
    induction l generalizing s with
    | nil => exact fun _ _ _ => rfl
    | cons c l ih =>
      intro h f hf
      rw [List.mem_cons, not_or] at h
      exact (ih _ h.2 f hf).trans (s.resetCell_other hd h.1 hf)
  induction l generalizing s with
  | nil => cases hd
  | cons c l ih =>
    obtain ⟨hc, hn⟩ := List.nodup_cons.mp hn
    have hlc := hl c List.mem_cons_self
    rcases List.mem_cons.mp hd with rfl | hd
    · exact (s.resetCell_fresh hlc).of_fld (hrest l _ hlc hc)
    · have hdl := hl d (List.mem_cons_of_mem _ hd)
      have := ih hn (fun c h => hl c (List.mem_cons_of_mem _ h)) (s.resetCell c) hd
      have hne : d ≠ c := fun e => hc (by rwa [← e])
      rwa [s.resetCell_other hdl hne (f := F.CELL_STATE_GEN) (by decide)] at this

/-- R61: the reset of a cell and its descendants. -/
theorem State.resetTree_fresh (s : State) {cell : Nat} (hk : (cellKind cell).isSome = true) (hi : resetIgnored cell = false) {d : Nat}
    (hd : d ∈ cellSubtree cell) : (s.resetTree cell).Fresh d (s.fld F.CELL_STATE_GEN d) := by
  have hkind : kindOf cell ∉ [0x01, 0x02, 0x03] := fun h => by
    have : kindOf cell ∈ [0x01, 0x02, 0x03, 0x2E] := List.mem_append_left [0x2E] h
    simp [resetIgnored, this] at hi
  have hlt : ∀ c ∈ (cellSubtree cell).reverse, c < 0x10000 := fun c hc => lt_of_mem_cellSubtree hk (List.mem_reverse.mp hc)
  have hn : (cellSubtree cell).reverse.Nodup := List.nodup_reverse.mpr (cellSubtree_nodup (lt_of_cellKind hk) hkind)
  have h := State.foldl_resetCell_fresh hn hlt s (List.mem_reverse.mpr hd)
  refine h.of_fld fun f hf => ?_
  rw [State.resetTree, State.noteLevels_fld]
  exact life_fld (State.settle_life _) (lifeFlds_reg f hf) (lt_of_mem_cellSubtree hk hd)

/-- R61: `CELL_RESET` written 1, by an agent that can. -/
theorem exec_cellResetWrite {s : State} {g : Agent} {cell : Nat} (hk : (cellKind cell).isSome = true)
    (hw : s.Writable g .CELL_RESET cell 0 1) : exec (.cellResetWrite g cell) s = .next (s.cellReset cell).noteLevels := by
  change Host.Outcome.next (s.cellWrite g .CELL_RESET cell 1) = _
  rw [hw.cellWrite hk rfl]
  rfl

theorem cellResetWrite_resets {s : State} {g : Agent} {cell : Nat} (hk : (cellKind cell).isSome = true) (hi : resetIgnored cell = false)
    (hw : s.Writable g .CELL_RESET cell 0 1) :
    ∃ t, exec (.cellResetWrite g cell) s = .next t ∧ ∀ d ∈ cellSubtree cell, t.Fresh d (s.fld F.CELL_STATE_GEN d) := by
  refine ⟨_, exec_cellResetWrite hk hw, fun d hd => ?_⟩
  rw [State.cellReset, if_neg (by rw [hi]; exact Bool.false_ne_true)]
  exact (s.resetTree_fresh hk hi hd).of_fld fun _ _ => State.noteLevels_fld ..

theorem cellResetWrite_ignored {s : State} {g : Agent} {cell : Nat} (hk : (cellKind cell).isSome = true) (hi : resetIgnored cell = true)
    (hw : s.Writable g .CELL_RESET cell 0 1) :
    ∃ t, exec (.cellResetWrite g cell) s = .next t ∧ t.regs = s.regs ∧ MemKept s t := by
  refine ⟨_, exec_cellResetWrite hk hw, ?_⟩
  rw [State.cellReset, if_pos hi]
  exact ⟨rfl, rfl, rfl, rfl, rfl⟩

/-! ### The completion of a reset -/

theorem exec_cellResetComplete {s : State} {cell : Nat} (hk : (cellKind cell).isSome = true) (hs : s.stopped = false)
    (hr : s.resetting cell = true) (hwarm : s.chr.warm = false) (hp : cell ≠ 0 → s.resetting (cellParent cell) = false) :
    exec (.cellResetComplete cell) s = .next (s.cellChange cell fun s =>
      ((cellSubtree cell).foldl (fun (s : State) c => s.setFlag F.CELL_STATE_RESETTING c false) s).restartCores (cellSubtree cell)) := by
  change Host.Outcome.next _ = _
  rw [if_neg (by simp [Option.isNone_iff_eq_none, Option.isSome_iff_ne_none.mp hk, hs]), State.resetDone,
    if_neg (by simpa [hr, hwarm] using hp)]

/-- R656: the restart of Dome cores writes their EN alone. -/
theorem State.restartCores_resetting (s : State) (l : List Nat) {d : Nat} (hd : d < 0x10000) :
    (s.restartCores l).fld F.CELL_STATE_RESETTING d = s.fld F.CELL_STATE_RESETTING d := by
  have hfold : ∀ (l : List Nat) (s : State),
      (l.foldl (fun (s : State) n => s.setFlag F.CELL_CTRL_EN (domeCell n) true) s).fld F.CELL_STATE_RESETTING d =
        s.fld F.CELL_STATE_RESETTING d := fun l => by
    induction l with
    | nil => exact fun _ => rfl
    | cons n l ih =>
      exact fun s => (ih _).trans (s.fld_setFld_apart hd rfl rfl rfl (by decide) (by decide) (by decide) _ _)
  exact hfold _ _

theorem State.foldl_setResetting (l : List Nat) (s : State) {d : Nat} (hd : d ∈ l ∨ s.flag F.CELL_STATE_RESETTING d = false) :
    (l.foldl (fun (s : State) c => s.setFlag F.CELL_STATE_RESETTING c false) s).flag F.CELL_STATE_RESETTING d = false := by
  induction l generalizing s with
  | nil => exact hd.resolve_left List.not_mem_nil
  | cons c l ih =>
    refine ih _ ?_
    rw [s.flag_setFlag_true rfl rfl rfl]
    by_cases e : d = c
    · exact .inr (if_pos e)
    · rw [if_neg e]
      exact hd.imp_left fun h => (List.mem_cons.mp h).resolve_left e

/-- R62: the reset of a cell and its descendants completes. -/
theorem cellResetComplete_spec {s : State} {cell : Nat} (hk : (cellKind cell).isSome = true) (hs : s.stopped = false)
    (hr : s.resetting cell = true) (hwarm : s.chr.warm = false) (hp : cell ≠ 0 → s.resetting (cellParent cell) = false) :
    ∃ t, exec (.cellResetComplete cell) s = .next t ∧ ∀ d ∈ cellSubtree cell, t.flag F.CELL_STATE_RESETTING d = false := by
  refine ⟨_, exec_cellResetComplete hk hs hr hwarm hp, fun d hd => ?_⟩
  have hdc := lt_of_mem_cellSubtree hk hd
  unfold State.flag
  rw [State.cellChange_fld (by decide) (by decide) hdc, State.restartCores_resetting _ _ hdc]
  exact State.foldl_setResetting _ _ (.inl hd)

end Sys2Proof.Machine

open Sys2Proof Sys2Proof.Machine in
/-- Settles O17: the equation of R55, the write of EN, the completion of a quiesce, and the reset with its completion, each by its own
lemma. -/
theorem cellsEnableQuiesceAndReset : Obligations.CellsEnableQuiesceAndReset := by
  refine ⟨fun s id hk => ?_, fun s g cell en hk hs => ⟨fun hn hfence hw => cellCtrlEnWrite_spec hk hs hn hfence hw, fun hb hi hd => ?_,
    fun hkept => ?_⟩, fun s g cell hk => ⟨fun hi hw => ?_, fun hi hw => cellResetWrite_ignored hk hi hw, fun hs hr hwarm hp =>
    cellResetComplete_spec hk hs hr hwarm hp⟩⟩
  · dsimp only
    rw [s.cellState_eq hk]
    cases s.flag F.CELL_CTRL_EN id <;> cases s.flag F.CELL_STATE_QUIESCE_BUSY id <;> simp [and_assoc]
  · exact ⟨_, exec_quiesceComplete hk hs, State.quiesceDone_spec (lt_of_cellKind hk) hb hi hd⟩
  · rw [exec_quiesceComplete hk hs, State.quiesceDone, if_pos (by simpa using hkept)]
  · obtain ⟨t, ht, hfresh⟩ := cellResetWrite_resets hk hi hw
    exact ⟨t, ht, fun d hd => ⟨(hfresh d hd).gen, (hfresh d hd).resetting, (hfresh d hd).busy, (hfresh d hd).powerReq, (hfresh d hd).en⟩⟩
end

section
/-! SUPPORT. The end of the operation in the array that a memory controller's FAULT brings (R177): it writes memory, and keeps the error
record that the controller holds and what its training left. -/

namespace Sys2Proof.Machine

open Sys2Proof

/-! ### A held error record and a training status -/

/-- R65, R708: the error record that s holds of the memory controller d stands in t, and TRAIN_FAIL of d reads as in s. -/
structure HoldsAs (d : Nat) (s t : State) : Prop where
  trainFail : t.fld F.SMC_STATUS_TRAIN_FAIL d = s.fld F.SMC_STATUS_TRAIN_FAIL d
  record : s.flag F.CELL_ERR_STATUS_VALID d = true →
    t.flag F.CELL_ERR_STATUS_VALID d = true ∧ t.fld F.CELL_ERR_STATUS_CLASS d = s.fld F.CELL_ERR_STATUS_CLASS d

theorem HoldsAs.refl (d : Nat) (s : State) : HoldsAs d s s := ⟨rfl, fun h => ⟨h, rfl⟩⟩

theorem HoldsAs.trans {d : Nat} {s t u : State} (h : HoldsAs d s t) (k : HoldsAs d t u) : HoldsAs d s u where
  trainFail := k.trainFail.trans h.trainFail
  record hv := by
    obtain ⟨hvt, hct⟩ := h.record hv
    exact (k.record hvt).imp_right fun hcu => hcu.trans hct

theorem HoldsAs.foldl {α : Type} {d : Nat} {f : State → α → State} (h : ∀ (s : State) a, HoldsAs d s (f s a)) (l : List α) (s : State) :
    HoldsAs d s (l.foldl f s) := by
  induction l generalizing s with
  | nil => exact .refl d s
  | cons a l ih => exact (h s a).trans (ih _)

/-- A state whose CCB of d and SMC_STATUS of d read as before. -/
theorem HoldsAs.of_ccbKept {d : Nat} {s t : State} (h : CcbKept d s t) (hs : t.reg .SMC_STATUS d = s.reg .SMC_STATUS d) :
    HoldsAs d s t where
  trainFail := by
    unfold State.fld
    exact congrArg (fun v : BitVec 64 => bitsOf v.toNat 1 1) hs
  record hv := ⟨(congrArg (· == 1) (h.fld rfl rfl)).trans hv, h.fld rfl rfl⟩

theorem HoldsAs.of_regs {d : Nat} {s0 s t : State} (h : HoldsAs d s0 s) (e : t.regs = s.regs) : HoldsAs d s0 t := by
  refine h.trans (.of_ccbKept ((CcbKept.refl d s).of_regs e) ?_)
  simp [State.reg, e, RegId.isPhot]

theorem State.count_holdsAs (d : Nat) (s : State) (cell ev : Nat) (qual : Option Nat) (inc : Nat) :
    HoldsAs d s (s.count cell ev qual inc) :=
  .of_ccbKept (s.count_ccbKept ..) ((s.count_photOnly cell ev qual inc).reg rfl _ _)

/-! ### The registers of the units that hold memory -/

theorem unitBase_of_kind {c : Nat} (h : kindOf c ≠ 0x22) : unitBase c = 0 ∨ unitBase c = 0x024000000000 + 0x1000000 * c := by
  unfold unitBase unitSlotBase
  rw [if_neg h]
  split_ifs
  · exact .inl rfl
  · exact .inr rfl

theorem unitBase_smc {d : Nat} (h : kindOf d = 0x14) : unitBase d = 0x024000000000 + 0x1000000 * d := by
  simp [unitBase, unitSize, unitSlotBase, h]

/-- R707: a register of another place in its unit's block, or of another unit, but for the downstream ports. -/
theorem regAddr_smc_ne_unit {c d : Nat} (hd : kindOf d = 0x14) (hc : kindOf c ≠ 0x22) {r r' : RegId}
    (hr : r.map.kinds.isEmpty = false) (hr' : r'.map.kinds.isEmpty = false) (ho : r.map.offset ≠ r'.map.offset) :
    regAddr r d 0 ≠ regAddr r' c 0 := by
  have h1 := r.offset_lt
  have h2 := r'.offset_lt
  rw [regAddr_of_unit hr, regAddr_of_unit hr', unitBase_smc hd]
  rcases unitBase_of_kind hc with hu | hu <;> rw [hu] <;> omega

theorem State.setReg_unit_holdsAs {d : Nat} (hd : kindOf d = 0x14) (hlt : d < 0x10000) (s : State) {c : Nat} (hc : kindOf c ≠ 0x22)
    {r : RegId} (hr : r.map.kinds.isEmpty = false) (ho : RegId.SMC_STATUS.map.offset ≠ r.map.offset) (v : BitVec 64) :
    HoldsAs d s (s.setReg r c v) :=
  .of_ccbKept (s.setReg_unit_ccbKept hlt hr c v) (s.reg_setReg_of_ne v (regAddr_smc_ne_unit hd hc rfl hr ho))

/-! ### Writes of memory -/

theorem lt_of_kindOf {c : Nat} (h : kindOf c ≠ 0) : c < 0x10000 := by
  refine lt_of_cellKind (Option.isSome_iff_ne_none.mpr fun e => h ?_)
  simp [kindOf, e]

section
variable {d : Nat} (hd : kindOf d = 0x14) (hlt : d < 0x10000)
include hd hlt

omit hd in
/-- R65: an error of the controller itself, or of another cell. -/
theorem State.recordError_holdsAs (s : State) {c : Nat} (hc : c < 0x10000) (cls addr info : Nat) :
    HoldsAs d s (s.recordError c cls addr info) := by
  have hs : ∀ e ∈ errRegs, regAddr .SMC_STATUS d 0 ≠ regAddr e c 0 := fun e he =>
    (regAddr_ccb_ne_unit hc (errRegs_ccb e he) rfl d).symm
  have hreg := s.recordError_reg_of_ne (r := .SMC_STATUS) rfl hs cls addr info
  by_cases hne : d = c
  · subst hne
    refine ⟨congrArg (fun v : BitVec 64 => bitsOf v.toNat 1 1) hreg, fun hv => ?_⟩
    obtain ⟨hcls, -, -, -, hvalid, -⟩ := State.recordError_keepsRecord hlt hv cls addr info
    exact ⟨hvalid, hcls⟩
  · exact .of_ccbKept (State.recordError_ccbKept hne s ..) hreg

omit hd in
theorem State.noteRead_holdsAs (s : State) (la : Nat) (r : LineRead) : HoldsAs d s (s.noteRead la r) := by
  unfold State.noteRead
  split
  · exact .refl d s
  · next c h =>
    have hc : c < 0x10000 := lt_of_kindOf fun e => absurd (e ▸ kindOf_memCell h) (by decide)
    extract_lets u
    have hu : HoldsAs d s u := by
      dsimp only [u]
      split_ifs
      · exact s.count_holdsAs ..
      · exact s.count_holdsAs ..
      · exact .refl d s
    split
    · exact hu
    · exact hu.trans (State.recordError_holdsAs hlt u hc ..)

theorem State.disarmFlip_holdsAs (s : State) {c : Nat} (hc : kindOf c ≠ 0x22) : HoldsAs d s (s.disarmFlip c) := by
  unfold State.disarmFlip
  split_ifs
  · exact State.setReg_unit_holdsAs hd hlt s (r := .SMC_FLIP_CTRL) hc rfl (by decide) _
  · exact State.setReg_unit_holdsAs hd hlt s (r := .PLT_FLIP_CTRL) hc rfl (by decide) _

omit hd hlt in
/-- R602: a flip mask is one of a stack controller or of the Plates. -/
theorem State.flipFor_kind {s : State} {la : Nat} {p : Nat × FlipMask} (h : s.flipFor la = some p) : kindOf p.1 ≠ 0x22 := by
  unfold State.flipFor at h
  split at h
  · cases h
  · next c _ =>
    dsimp only at h
    split_ifs at h with hk _
    all_goals obtain rfl := Option.some.inj h
    all_goals
      intro e
      have e : kindOf c = 0x22 := e
      exact hk (by rw [e]; decide)

theorem State.writeLine_holdsAs (s : State) (la : Nat) (bs : List Byte) (mark : Bool) : HoldsAs d s (s.writeLine la bs mark) := by
  unfold State.writeLine
  extract_lets u
  have hu : HoldsAs d s u := by
    dsimp only [u]
    split
    · split_ifs
      · exact s.count_holdsAs ..
      · exact s.count_holdsAs ..
      · exact .refl d s
    · exact .refl d s
  clear_value u
  cases h : u.flipFor la with
  | none => exact hu.of_regs rfl
  | some p => exact (hu.trans (State.disarmFlip_holdsAs hd hlt u (State.flipFor_kind h))).of_regs rfl

theorem State.writeInLine_holdsAs (s : State) (a : Nat) (bs : List Byte) (mark : Bool) : HoldsAs d s (s.writeInLine a bs mark) := by
  unfold State.writeInLine
  dsimp only
  split_ifs
  · exact State.writeLine_holdsAs hd hlt s ..
  · exact (State.noteRead_holdsAs hlt s ..).trans (State.writeLine_holdsAs hd hlt _ ..)

theorem State.copyLines_holdsAs (s : State) (src dst n : Nat) : HoldsAs d s (s.copyLines src dst n) := by
  induction n generalizing s src dst with
  | zero => exact .refl d s
  | succ n ih => exact ((State.noteRead_holdsAs hlt s ..).trans (State.writeLine_holdsAs hd hlt _ ..)).trans (ih ..)

theorem State.copyOnWrite_holdsAs (s : State) (a : Nat) : HoldsAs d s (s.copyOnWrite a) := by
  unfold State.copyOnWrite
  split
  · split
    · exact (HoldsAs.refl d s).of_regs rfl
    · exact .refl d s
  · split
    · exact .refl d s
    · split
      · exact .refl d s
      · extract_lets dst src up u v
        split
        · exact ((State.copyLines_holdsAs hd hlt s src dst 1024).trans (State.count_holdsAs ..)).of_regs rfl
        · exact (HoldsAs.refl d s).of_regs rfl

theorem State.writeMem_holdsAs (s : State) (a : Nat) (bs : List Byte) (mark : Bool) (fuel : Nat) :
    HoldsAs d s (s.writeMem a bs mark fuel) := by
  induction fuel generalizing s a bs with
  | zero => exact .refl d s
  | succ fuel ih =>
    cases bs with
    | nil => exact .refl d s
    | cons b bs => exact ((State.copyOnWrite_holdsAs hd hlt s a).trans (State.writeInLine_holdsAs hd hlt _ ..)).trans (ih ..)

/-! ### The end of the operation -/

theorem State.clearRetained_holdsAs (s : State) : HoldsAs d s s.clearRetained :=
  (State.setReg_unit_holdsAs hd hlt s (r := .PRIM_ACC_STATUS) (c := qnwPrim) (by decide) rfl (by decide) 0).of_regs rfl

omit hd hlt in
theorem State.primCount_holdsAs (d : Nat) (s : State) (cyc mult stall bubbles : Nat) : HoldsAs d s (s.primCount cyc mult stall bubbles) :=
  (((s.count_holdsAs d ..).trans (State.count_holdsAs d ..)).trans (State.count_holdsAs d ..)).trans (State.count_holdsAs d ..)

theorem State.primEnd_holdsAs (s : State) (status : Nat) : HoldsAs d s (s.primEnd status) := by
  unfold State.primEnd
  split
  · exact .refl d s
  · extract_lets desc k fl x s1 all can n lines s2 lost missing wrote flags done wb s3
    have h1 : HoldsAs d s s1 := (HoldsAs.refl d s).of_regs (State.freeCounts_regs ..)
    have h2 : HoldsAs d s s2 := h1.trans (HoldsAs.foldl (fun u l => State.writeMem_holdsAs hd hlt u ..) _ s1)
    have h3 : HoldsAs d s s3 := h2.trans (State.primCount_holdsAs ..)
    exact ((h3.of_regs rfl).trans (State.clearRetained_holdsAs hd hlt (s3.setPrim _))).of_regs rfl

theorem State.failWriteBehind_holdsAs (s : State) (bad : WbLine → Bool) : HoldsAs d s (s.failWriteBehind bad) := by
  unfold State.failWriteBehind
  extract_lets ts u done
  have hu : HoldsAs d s u := by
    dsimp only [u]
    split
    · exact State.primEnd_holdsAs hd hlt s _
    · exact .refl d s
  split
  · exact .refl d s
  · exact ((hu.of_regs rfl).trans (State.clearRetained_holdsAs hd hlt (u.setPrim _))).of_regs rfl

/-- R177: what a memory controller's FAULT ends. -/
theorem State.primMemoryFail_holdsAs (s : State) (cell : Nat) : HoldsAs d s (s.primMemoryFail cell) := by
  unfold State.primMemoryFail
  extract_lets u
  have hu : HoldsAs d s u := State.failWriteBehind_holdsAs hd hlt s _
  split
  · exact hu
  · split
    · exact hu.trans (State.primEnd_holdsAs hd hlt u _)
    · exact hu

end

end Sys2Proof.Machine
end

section
/-! SUPPORT. Gating and restore of a cell (R64), and the training of a stack memory controller (R183, R708). -/

namespace Sys2Proof.Machine

open Sys2Proof

/-! ### Gating -/

theorem State.setFld_frame (s : State) {f : Fld} (cell v : Nat) :
    RegsKept s (s.setFld f cell v) [regAddr f.reg cell 0] := fun _ _ _ h =>
  s.reg_setFld_of_ne v fun e => h (List.mem_singleton.mpr e)

theorem exec_powerGateApply {s : State} {cell : Nat} (hk : (cellKind cell).isSome = true) (hn : noEnable cell = false)
    (hs : s.stopped = false) : exec (.powerGateApply cell) s = .next (s.gateApply cell) := by
  change Host.Outcome.next _ = _
  rw [if_neg (by simp [Option.isNone_iff_eq_none, Option.isSome_iff_ne_none.mp hk, hn, hs])]

/-- R64, R640: the gating of a cell that is OFF. -/
theorem State.gateApply_spec {s : State} {cell : Nat} (h0 : s.cellState cell = 0) (hr : s.resetting cell = false) :
    RegsKept s (s.gateApply cell) [regAddr .CELL_POWER cell 0] ∧ MemKept s (s.gateApply cell) ∧
    (s.gateApply cell).fld F.CELL_POWER_PSTATE cell = (match s.fld F.CELL_POWER_POWER_REQ cell with
      | 0 => 1
      | 1 => 1
      | _ => 2) := by
  rw [State.gateApply, if_neg (by simp [h0, hr])]
  generalize s.fld F.CELL_POWER_POWER_REQ cell = q
  refine ⟨s.setFld_frame _ _, by simp [MemKept], ?_⟩
  rw [State.fld_setFld _ _ _ _ _ (by decide) (by decide)]
  match q with
  | 0 => rfl
  | 1 => rfl
  | q + 2 =>
    rw [Nat.min_eq_left (Nat.le_add_left 2 q)]
    rfl

/-- R64: the restore of a cell whose EN is 1. -/
theorem powerRestoreComplete_spec {s : State} {cell : Nat} (hk : (cellKind cell).isSome = true) (hs : s.stopped = false)
    (hen : s.flag F.CELL_CTRL_EN cell = true) :
    ∃ t, exec (.powerRestoreComplete cell) s = .next t ∧ t.fld F.CELL_POWER_PSTATE cell = 0 := by
  have hx : exec (.powerRestoreComplete cell) s = .next (s.cellChange cell fun s => s.setFld F.CELL_POWER_PSTATE cell 0) := by
    change Host.Outcome.next _ = _
    rw [if_neg (by simp [Option.isNone_iff_eq_none, Option.isSome_iff_ne_none.mp hk, hs, hen])]
  refine ⟨_, hx, ?_⟩
  rw [State.cellChange_fld (by decide) (by decide) (lt_of_cellKind hk), State.fld_setFld _ _ _ _ _ (by decide) (by decide)]
  rfl

/-! ### A stack memory controller -/

/-- R46: where the stack memory controllers stand in the tree. -/
theorem smcCell_place : ∀ n < 8, (cellKind (smcCell n)).isSome = true ∧ cellSubtree (smcCell n) = [smcCell n] ∧ smcCell n ≠ 0 ∧
    ∀ c ∈ cellPath (cellParent (smcCell n)), c < 0x10000 ∧ kindOf c ≠ 0x14 := by
  decide +kernel

/-- R55: the state a path reads depends on the lifecycle of its cells, and on the training of a stack controller alone. -/
theorem State.pathState_congr {s t : State} (h : t.life = s.life) {l : List Nat} (hl : ∀ c ∈ l, c < 0x10000 ∧ kindOf c ≠ 0x14) :
    t.pathState l = s.pathState l := by
  induction l with
  | nil => rfl
  | cons c l ih =>
    obtain ⟨hc, hk⟩ := hl c List.mem_cons_self
    rw [State.pathState, State.pathState, ih fun c hc => hl c (List.mem_cons_of_mem _ hc), life_flag h (by decide) hc,
      life_flag h (by decide) hc, life_flag h (by decide) hc, life_fld h (by decide) hc]
    simp only [State.faulted, life_fld h (f := F.CELL_STATE_STATE) (by decide) hc, State.cellReady, if_neg hk]

/-- R708: the conditions under which the training of a stack controller ends one way or the other. -/
def State.TrainingDue (s : State) (c : Nat) : Prop :=
  s.flag F.CELL_CTRL_EN c = true ∧ s.resetting c = false ∧ s.flag F.SMC_STATUS_TRAINED c = false ∧ s.faulted c = false ∧
    s.fld F.CELL_POWER_PSTATE c = 0 ∧ s.enabled (cellParent c) = true

theorem exec_smcTrainingComplete {s : State} {n : Fin 8} (h : s.TrainingDue (smcCell n.val)) (ok : Bool) :
    exec (.smcTrainingComplete n ok) s = .next (if ok then
        s.cellChange (smcCell n.val) fun s => s.setFlag F.SMC_STATUS_TRAINED (smcCell n.val) true
      else ((s.setFlag F.SMC_STATUS_TRAIN_FAIL (smcCell n.val) true).recordError (smcCell n.val) clsLink 0 0).faultCell (smcCell n.val)) := by
  obtain ⟨hen, hr, ht, hf, hp, hu⟩ := h
  change Host.Outcome.next _ = _
  rw [if_neg (by simp [hen, hr, ht, hf, hp, hu])]

/-- R55, R708: a controller that has everything but its training reads ENABLE_PENDING, and with it ENABLED. -/
theorem State.cellState_of_trainingDue {s : State} {n : Nat} (hn : n < 8) (h : s.TrainingDue (smcCell n))
    (hb : s.flag F.CELL_STATE_QUIESCE_BUSY (smcCell n) = false) {t : State} (hl : t.life = s.life) :
    t.cellState (smcCell n) = if t.flag F.SMC_STATUS_TRAINED (smcCell n) then 3 else 2 := by
  obtain ⟨hk, -, h0, hup⟩ := smcCell_place n hn
  have hc := lt_of_cellKind hk
  obtain ⟨hen, hr, -, hf, hp, hu⟩ := h
  have hparent : t.cellState (cellParent (smcCell n)) = 3 := by
    simp only [State.enabled, Bool.and_eq_true, beq_iff_eq] at hu
    exact (State.pathState_congr hl hup).trans hu.2
  have hfault : t.faulted (smcCell n) = false := by
    unfold State.faulted at hf ⊢
    rwa [life_fld hl (by decide) hc]
  have hres : t.flag F.CELL_STATE_RESETTING (smcCell n) = false := (life_flag hl (by decide) hc).trans hr
  rw [State.cellState_eq _ hk, hres, hfault, life_flag hl (by decide) hc, hen, life_flag hl (by decide) hc, hb, hparent,
    life_fld hl (by decide) hc, hp]
  simp [State.cellReady, smcCell_kind n hn]

/-- R708: no unit of a stack controller acts where its cell becomes ENABLED. -/
theorem State.foldl_unitUp_smc {l : List Nat} (h : ∀ c ∈ l, kindOf c = 0x14) (s : State) :
    l.foldl (fun (s : State) c => s.unitUp c) s = s := by
  induction l with
  | nil => rfl
  | cons c l ih =>
    have hc : s.unitUp c = s := by
      unfold State.unitUp
      rw [h c List.mem_cons_self]
      rfl
    rw [List.foldl_cons, hc, ih fun k hk => h k (List.mem_cons_of_mem _ hk)]

/-- R55: a change of a stack controller that was not ENABLED does nothing further. -/
theorem State.cellChange_smc {s : State} {n : Nat} (hn : n < 8) (h : s.enabled (smcCell n) = false) (g : State → State) :
    s.cellChange (smcCell n) g = (g s).noteLevels := by
  obtain ⟨-, hsub, -, -⟩ := smcCell_place n hn
  have hl : s.leavers (g s) (smcCell n) = [] := by
    simp [State.leavers, hsub, h]
  rw [State.cellChange_eq, State.withQuiesces, hl, State.foldl_unitUp_smc fun c hc => ?_]
  · rfl
  · rw [State.joiners, hsub] at hc
    rw [List.mem_singleton.mp (List.mem_of_mem_filter hc), smcCell_kind n hn]

/-- R708: the training completes. -/
theorem smcTraining_succeeds {s : State} {n : Fin 8} (h : s.TrainingDue (smcCell n.val))
    (hb : s.flag F.CELL_STATE_QUIESCE_BUSY (smcCell n.val) = false) :
    s.cellState (smcCell n.val) = 2 ∧ ∃ t, exec (.smcTrainingComplete n true) s = .next t ∧
      t.flag F.SMC_STATUS_TRAINED (smcCell n.val) = true ∧ t.cellState (smcCell n.val) = 3 := by
  have ⟨_, _, htrained, _⟩ := h
  have h2 : s.cellState (smcCell n.val) = 2 := by
    rw [State.cellState_of_trainingDue n.isLt h hb rfl, htrained]
    rfl
  have hne : s.enabled (smcCell n.val) = false := by simp [State.enabled, h2]
  refine ⟨h2, _, exec_smcTrainingComplete h true, ?_⟩
  rw [if_pos rfl, State.cellChange_smc n.isLt hne]
  have ht : (s.setFlag F.SMC_STATUS_TRAINED (smcCell n.val) true).noteLevels.flag F.SMC_STATUS_TRAINED (smcCell n.val) = true :=
    State.flag_setFlag rfl ..
  refine ⟨ht, ?_⟩
  rw [State.cellState_of_trainingDue n.isLt h hb (by simp (disch := decide)), if_pos ht]

/-- R63: FAULT of a stack controller: its STATE, then the end of what uses its memory. -/
theorem State.faultCell_smc (s : State) {n : Nat} (hn : n < 8) :
    s.faultCell (smcCell n) = ((s.enterFault (smcCell n)).primMemoryFail (smcCell n)).noteLevels := by
  obtain ⟨-, hsub, -, -⟩ := smcCell_place n hn
  unfold State.faultCell
  rw [hsub]
  unfold State.unitFault
  rw [smcCell_kind n hn]
  rfl

theorem State.enterFault_holdsAs {d : Nat} (hd : d < 0x10000) (hsub : (cellSubtree d).drop 1 = []) (s : State) :
    HoldsAs d s (s.enterFault d) := by
  rw [State.enterFault_leaf hsub]
  split
  · exact .refl d s
  · refine ⟨?_, fun hv => ⟨?_, ?_⟩⟩
    · exact s.fld_setFld_of_apart hd _ (by decide) (by decide) (by decide)
    · exact (s.flag_setFld_of_apart hd _ (by decide) (by decide) (by decide)).trans hv
    · exact s.fld_setFld_of_apart hd _ (by decide) (by decide) (by decide)

/-- R63, R708: the training fails. -/
theorem smcTraining_fails {s : State} {n : Fin 8} (h : s.TrainingDue (smcCell n.val)) :
    ∃ t, exec (.smcTrainingComplete n false) s = .next t ∧ t.flag F.SMC_STATUS_TRAIN_FAIL (smcCell n.val) = true ∧
      t.cellState (smcCell n.val) = 4 ∧
      (s.flag F.CELL_ERR_STATUS_VALID (smcCell n.val) = false → t.fld F.CELL_ERR_STATUS_CLASS (smcCell n.val) = 0x09) := by
  obtain ⟨hk, hsub, -, -⟩ := smcCell_place n.val n.isLt
  have hkind := smcCell_kind n.val n.isLt
  have hleaf : (cellSubtree (smcCell n.val)).drop 1 = [] := by rw [hsub]; rfl
  refine ⟨_, exec_smcTrainingComplete h false, ?_⟩
  obtain ⟨-, hr, -, -⟩ := h
  rw [if_neg Bool.false_ne_true, State.faultCell_smc _ n.isLt]
  generalize smcCell n.val = c at *
  have hc := lt_of_cellKind hk
  generalize hv : s.setFlag F.SMC_STATUS_TRAIN_FAIL c true = v
  have hvl : v.life = s.life := by
    rw [← hv]
    simp (disch := decide)
  obtain ⟨hfault, hkeep⟩ := State.enterFault_spec hc (by simp [hleaf]) (v.recordError c clsLink 0 0)
  have hheld : HoldsAs c (v.recordError c clsLink 0 0) (((v.recordError c clsLink 0 0).enterFault c).primMemoryFail c) :=
    (State.enterFault_holdsAs hc hleaf _).trans (State.primMemoryFail_holdsAs hkind hc _ c)
  have hlife := ((v.recordError c clsLink 0 0).enterFault c).primMemoryFail_life c
  rw [State.noteLevels_flag, State.noteLevels_cellState, State.noteLevels_fld]
  refine ⟨?_, State.cellState_of_faulted ?_ ?_, fun hvalid => ?_⟩
  · have hset : v.flag F.SMC_STATUS_TRAIN_FAIL c = true := by
      rw [← hv]
      exact State.flag_setFlag rfl ..
    have hrec := (State.recordError_holdsAs hc v hc clsLink 0 0).trainFail
    exact (congrArg (· == 1) (hheld.trainFail.trans hrec)).trans hset
  · have hrec := life_flag ((v.recordError_life c clsLink 0 0).trans hvl) (f := F.CELL_STATE_RESETTING) (by decide) hc
    refine (life_flag hlife (by decide) hc).trans (Eq.trans ?_ (hrec.trans hr))
    exact congrArg (· == 1) (hkeep F.CELL_STATE_RESETTING (by decide) rfl rfl (by decide))
  · unfold State.faulted at hfault ⊢
    rwa [life_fld hlife (by decide) hc]
  · have hfree : v.flag F.CELL_ERR_STATUS_VALID c = false := by
      rw [← hv]
      exact (s.flag_setFlag_of_apart hc _ (by decide) (by decide) (by decide)).trans hvalid
    obtain ⟨hcls, -, -, -, -, hset, -⟩ := State.recordError_fills hc hfree (cls := clsLink) (addr := 0) (info := 0) (by decide) (by decide)
      (by decide)
    exact (hheld.record hset).2.trans hcls

/-! ### Its temperature -/

theorem exec_smcTempUpdate_untrained {s : State} {n : Fin 8} (temp : BitVec 8) (h : s.flag F.SMC_STATUS_TRAINED (smcCell n.val) = false) :
    exec (.smcTempUpdate n temp) s = .next s := by
  change Host.Outcome.next _ = _
  rw [if_pos (.inl (by rw [h]; rfl))]

/-- R183, R708: a trained stack reports its temperature. -/
theorem smcTempUpdate_spec {s : State} {n : Fin 8} (temp : BitVec 8) (h : s.flag F.SMC_STATUS_TRAINED (smcCell n.val) = true)
    (hs : s.stopped = false) :
    ∃ t, exec (.smcTempUpdate n temp) s = .next t ∧ t.fld F.SMC_STATUS_TEMP_C (smcCell n.val) = temp.toNat ∧
      t.fld F.SMC_STATUS_REFRESH (smcCell n.val) = (if 95 < temp.toNat then 1 else 0) ∧
      RegsKept s t [regAddr .SMC_STATUS (smcCell n.val) 0] := by
  have hc := lt_of_cellKind (smcCell_place n.val n.isLt).1
  have hx : exec (.smcTempUpdate n temp) s = .next ((s.setFld F.SMC_STATUS_TEMP_C (smcCell n.val) temp.toNat).setFld F.SMC_STATUS_REFRESH
      (smcCell n.val) (if 95 < temp.toNat then 1 else 0)) := by
    change Host.Outcome.next _ = _
    rw [if_neg (by simp [h, hs])]
  refine ⟨_, hx, ?_, ?_, fun r d i hr => ?_⟩
  · rw [State.fld_setFld_of_apart hc _ _ (by decide) (by decide) (by decide), State.fld_setFld _ _ _ _ _ (by decide) (by decide)]
    exact Nat.mod_eq_of_lt temp.isLt
  · rw [State.fld_setFld _ _ _ _ _ (by decide) (by decide)]
    split <;> rfl
  · exact ((State.setFld_frame _ _ _) r d i hr).trans (s.setFld_frame _ _ r d i hr)

end Sys2Proof.Machine

open Sys2Proof Sys2Proof.Machine in
/-- Settles O19: the gating and the restore of a cell, and the training of a stack controller, its failure and its reports, each by its
own lemma. -/
theorem gatingAndStackTraining : Obligations.GatingAndStackTraining := by
  refine ⟨fun s cell hk hn hs => ⟨fun h0 hr => ⟨_, exec_powerGateApply hk hn hs, State.gateApply_spec h0 hr⟩, fun hne => ?_,
    fun hen => powerRestoreComplete_spec hk hs hen⟩, fun s n temp => ⟨fun h hb => smcTraining_succeeds h hb, fun h => smcTraining_fails h,
    fun h hs => smcTempUpdate_spec temp h hs, fun h => exec_smcTempUpdate_untrained temp h⟩⟩
  rw [exec_powerGateApply hk hn hs, State.gateApply, if_pos (.inl hne)]
end

section
/-! SUPPORT. The exact sums and the single roundings (chapter 3): contributions in any order (R98), INT32 saturation (R86), NaN in a block
(R85), the round trip of FP32 (R77), zeros (R91), and max and min of FAST mode (R101). -/

namespace Sys2Proof.Machine

/-! ### Running sums -/

/-- R98: a contribution adds to every field of the word what it leaves in an empty word. -/
theorem ExactWord.add_eq (w : ExactWord) (v : Num) (p : Bool) :
    w.add v p =
      let c := ExactWord.add {} v p
      ⟨w.sum + c.sum, w.nan || c.nan, w.pinf || c.pinf, w.ninf || c.ninf, w.poison || c.poison⟩ := by
  cases p
  · rcases v with _ | (_ | _) | _ <;> simp [ExactWord.add]
  · simp [ExactWord.add]

/-- R98: two contributions to an EXACT word commute, field by field. -/
theorem ExactWord.add_right_comm (w : ExactWord) (v u : Num) (p q : Bool) : (w.add v p).add u q = (w.add u q).add v p := by
  rw [(w.add v p).add_eq, (w.add u q).add_eq, w.add_eq v, w.add_eq u]
  simp only [Int.add_right_comm, Bool.or_right_comm]

/-- R98: the word does not depend on the order of its contributions. -/
theorem ExactWord.foldl_add_perm {l l' : List (Num × Bool)} (h : l.Perm l') (w : ExactWord) :
    l.foldl (fun w v => w.add v.1 v.2) w = l'.foldl (fun w v => w.add v.1 v.2) w :=
  h.foldl_eq' (fun v _ u _ w => w.add_right_comm v.1 u.1 v.2 u.2) w

/-- R86: the running sum is the exact sum held to the range of INT32. -/
theorem toInt_intBlockStep (acc : BitVec 32) (x : Int) :
    (intBlockStep acc x).1.toInt = max (-2147483648) (min 2147483647 (acc.toInt + x)) := by
  dsimp only [intBlockStep]
  split
  · next hhi =>
    rw [min_eq_left hhi.le]
    rfl
  · next hhi =>
    rw [min_eq_right (not_lt.mp hhi)]
    split
    · next hlo =>
      rw [max_eq_left hlo.le]
      rfl
    · next hlo =>
      rw [max_eq_right (not_lt.mp hlo)]
      exact BitVec.toInt_ofInt_eq_self (by decide) (by norm_num; omega) (by norm_num; omega)

/-- R86: SATURATED is raised exactly for a sum out of the range of INT32. -/
theorem saturated_intBlockStep_iff (acc : BitVec 32) (x : Int) :
    (intBlockStep acc x).2.saturated = true ↔ 2147483647 < acc.toInt + x ∨ acc.toInt + x < -2147483648 := by
  dsimp only [intBlockStep]
  split
  · simp [ArithFlags.mkSaturated, *]
  · split <;> simp [ArithFlags.mkSaturated, *]

/-- R85 rule 1: a NaN element, or a NaN scale, decides the block. -/
theorem blockStep_of_nanIn (acc : Nat) {ps : List Product} (h : ∃ p ∈ ps, p.nanIn = true) :
    blockStep acc ps = (Fmt.fp32.nanBits, .mkNanIn true) := by
  have hany : ps.any Product.nanIn = true := List.any_eq_true.mpr h
  have hne : ps.isEmpty = false := by
    obtain ⟨p, hp, -⟩ := h
    exact List.isEmpty_eq_false_iff_exists_mem.mpr ⟨p, hp⟩
  simp [blockStep, hany, hne]

/-! ### Zeros and the draw -/

/-- R91: a zero converts to the zero of its sign. -/
theorem convertOut_zero {f : Fmt} (hf : f ≠ .int8) (mx sat : Bool) (rnd : Rnd) (draw : Nat) (neg : Bool) (e : Int) :
    convertOut f mx sat rnd draw (.fin neg 0 e) = (signBits f neg, {}) := by
  simp [convertOut, hf]

/-- R92: the draw is the top 16 bits of a 64-bit word. -/
theorem srDraw_lt (seed : BitVec 64) (row col : Nat) : srDraw seed row col < 2 ^ 16 := by
  dsimp only [srDraw]
  rw [BitVec.toNat_ushiftRight, Nat.shiftRight_eq_div_pow]
  exact Nat.div_lt_of_lt_mul (BitVec.isLt _)

/-! ### The values of FP32 words -/

/-- The sign of an FP32 word (R74). -/
def fp32Sign (b : Nat) : Bool := b / 2 ^ 31 % 2 = 1

/-- R74: an FP32 word is its sign, its exponent field and its mantissa field. -/
theorem fp32_fields {b : Nat} (hb : b < 2 ^ 32) :
    signBits .fp32 (fp32Sign b) + (b / 2 ^ 23 % 256 * 2 ^ 23 + b % 2 ^ 23) = b := by
  have hs : signBits .fp32 (fp32Sign b) = b / 2 ^ 31 * 2 ^ 31 := by
    have hbit : b / 2 ^ 31 = 0 ∨ b / 2 ^ 31 = 1 := by omega
    rcases hbit with h | h <;> rw [fp32Sign, h] <;> rfl
  omega

/-- R74, R75: the value of an FP32 word by its fields. -/
theorem fromFp32_eq (b : Nat) :
    fromFp32 b =
      if b / 2 ^ 23 % 256 = 255 then (if b % 2 ^ 23 = 0 then .inf (fp32Sign b) else .nan)
      else if b / 2 ^ 23 % 256 = 0 then .fin (fp32Sign b) (b % 2 ^ 23) (-149)
      else .fin (fp32Sign b) (2 ^ 23 + b % 2 ^ 23) ((b / 2 ^ 23 % 256 : Nat) - 127 - 23) := by
  unfold fromFp32 decodeElem
  simp only [Fmt.ieee, true_and, reduceCtorEq, false_and, if_false]
  rfl

/-- The pairs m × 2^e by which FP32 has its finite values: subnormals at the least exponent, normals with 24 bits of mantissa (R74). -/
structure Fp32Grid (m : Nat) (e : Int) : Prop where
  lt : m < 2 ^ 24
  low : -149 ≤ e
  high : e ≤ 104
  normal : e ≠ -149 → 2 ^ 23 ≤ m

/-- The exponent and mantissa fields of a pair of the FP32 grid. -/
def fp32Mag (m : Nat) (e : Int) : Nat := if m < 2 ^ 23 then m else (e + 150).toNat * 2 ^ 23 + (m - 2 ^ 23)

/-- A finite FP32 word has a value on the grid, and its fields are those of that value. -/
theorem fromFp32_finite {b : Nat} (h : b / 2 ^ 23 % 256 ≠ 255) :
    ∃ m e, fromFp32 b = .fin (fp32Sign b) m e ∧ Fp32Grid m e ∧ fp32Mag m e = b / 2 ^ 23 % 256 * 2 ^ 23 + b % 2 ^ 23 := by
  rw [fromFp32_eq, if_neg h]
  by_cases h0 : b / 2 ^ 23 % 256 = 0
  · refine ⟨_, _, if_pos h0, ⟨by omega, le_refl _, by omega, fun hne => absurd rfl hne⟩, ?_⟩
    rw [fp32Mag, if_pos (by omega), h0, Nat.zero_mul, Nat.zero_add]
  · refine ⟨_, _, if_neg h0, ⟨by omega, by omega, by omega, fun _ => by omega⟩, ?_⟩
    rw [fp32Mag, if_neg (by omega)]
    omega

/-- A value on the FP32 grid has the exponent of its own binade for its step. -/
theorem Fp32Grid.step_eq {m : Nat} {e : Int} (h : Fp32Grid m e) (hm : m ≠ 0) : max ((log2Nat m : Int) + e) (1 - 127) - 23 = e := by
  have hlt : log2Nat m < 24 := (Nat.log2_lt hm).mpr h.lt
  have hlow := h.low
  by_cases he : e = -149
  · omega
  · have hge : 23 ≤ log2Nat m := (Nat.le_log2 hm).mpr (h.normal he)
    omega

@[simp] theorem roundSteps_self (rnd : Rnd) (neg : Bool) (draw m : Nat) (e : Int) : roundSteps rnd neg draw m e e = m := by
  simp [roundSteps]

theorem Fp32Grid.encodeSteps_eq {m : Nat} {e : Int} (h : Fp32Grid m e) : encodeSteps .fp32 m e = fp32Mag m e := by
  have hne : ¬ m = 2 ^ (Fmt.fp32.man + 1) := h.lt.ne
  simp only [encodeSteps, if_neg hne]
  rw [Int.add_assoc]
  rfl

theorem Fp32Grid.mag_le {m : Nat} {e : Int} (h : Fp32Grid m e) : fp32Mag m e ≤ Fmt.fp32.maxBits := by
  obtain ⟨hlt, hlow, hhigh, -⟩ := h
  change fp32Mag m e ≤ 0x7F7FFFFF
  unfold fp32Mag
  split <;> omega

/-- R77, R83: a value on the FP32 grid is not changed by the rounding, and raises no flag. -/
theorem toFp32_of_grid {m : Nat} {e : Int} (h : Fp32Grid m e) (neg : Bool) :
    toFp32 (.fin neg m e) = (signBits .fp32 neg + fp32Mag m e, {}) := by
  by_cases hm : m = 0
  · subst hm
    exact convertOut_zero (by decide) _ _ _ _ _ _
  · have hq : max ((log2Nat m : Int) + e) (1 - Fmt.fp32.bias) - (Fmt.fp32.man : Int) = e := h.step_eq hm
    have hfit : ¬ Fmt.fp32.maxBits < fp32Mag m e := not_lt.mpr h.mag_le
    simp [toFp32, convertOut, hm, hq, h.encodeSteps_eq, hfit]

/-- R77: a finite FP32 word is the rounding of its own value. -/
theorem toFp32_fromFp32 {b : Nat} (hb : b < 2 ^ 32) (h : b / 2 ^ 23 % 256 ≠ 255) : toFp32 (fromFp32 b) = (b, {}) := by
  obtain ⟨m, e, hv, hgrid, hmag⟩ := fromFp32_finite h
  rw [hv, toFp32_of_grid hgrid, hmag, fp32_fields hb]

/-! ### The order of FP32 words -/

theorem Num.lt_asymm {x y : Num} (h : x.lt y = true) : y.lt x = false := by
  match x, y with
  | .nan, y => exact absurd h (by simp [Num.lt])
  | .inf _, .nan => rfl
  | .fin _ _ _, .nan => rfl
  | .inf a, .inf b => revert h; cases a <;> cases b <;> decide
  | .inf a, .fin _ _ _ => exact congrArg not h
  | .fin _ _ _, .inf b => simpa [Num.lt] using h
  | .fin a m e, .fin b k g =>
    have hlt : dyInt a m e (min e g) < dyInt b k g (min e g) := of_decide_eq_true h
    rw [min_comm] at hlt
    exact decide_eq_false hlt.not_gt

/-- The scaled mantissas of two pairs of the grid agree only when the pairs do: the larger exponent belongs to a normal value. -/
theorem Fp32Grid.exp_le_of_scaled_eq {m k : Nat} {e g : Int} (hm : Fp32Grid m e) (hk : Fp32Grid k g)
    (h : m * 2 ^ (e - min e g).toNat = k * 2 ^ (g - min e g).toNat) : g ≤ e := by
  by_contra hlt
  have hnormal : 2 ^ 23 ≤ k := hk.normal (by have := hm.low; omega)
  have hpow : 2 ^ 1 ≤ 2 ^ (g - e).toNat := Nat.pow_le_pow_right (by decide) (by omega)
  rw [min_eq_left (by omega), Int.sub_self, Int.toNat_zero, Nat.pow_zero, Nat.mul_one] at h
  have := Nat.mul_le_mul hnormal hpow
  have := hm.lt
  omega

theorem Fp32Grid.eq_of_scaled_eq {m k : Nat} {e g : Int} (hm : Fp32Grid m e) (hk : Fp32Grid k g)
    (h : m * 2 ^ (e - min e g).toNat = k * 2 ^ (g - min e g).toNat) : m = k ∧ e = g := by
  obtain rfl : e = g := le_antisymm (hk.exp_le_of_scaled_eq hm (by rw [min_comm, h])) (hm.exp_le_of_scaled_eq hk h)
  exact ⟨by simpa using h, rfl⟩

/-- Two finite values of one sign, neither below the other, have equal scaled mantissas. -/
theorem scaled_eq_of_not_lt {n : Bool} {m k : Nat} {e g : Int} (h : (Num.fin n m e).lt (.fin n k g) = false)
    (h' : (Num.fin n k g).lt (.fin n m e) = false) : m * 2 ^ (e - min e g).toNat = k * 2 ^ (g - min e g).toNat := by
  simp only [Num.lt, decide_eq_false_iff_not, not_lt] at h h'
  rw [min_comm g e] at h'
  have hv : dyInt n m e (min e g) = dyInt n k g (min e g) := le_antisymm h' h
  cases n <;> simpa only [dyInt, Bool.false_eq_true, if_true, if_false, neg_inj, Int.natCast_inj] using hv

/-- R75: with the exponent field all ones, a word that is not NaN is an infinity, and its mantissa field is 0. -/
theorem fromFp32_of_exp_ones {b : Nat} (h : (fromFp32 b).isNan = false) (hx : b / 2 ^ 23 % 256 = 255) :
    b % 2 ^ 23 = 0 ∧ fromFp32 b = .inf (fp32Sign b) := by
  rw [fromFp32_eq, if_pos hx] at h ⊢
  split at h
  · next hm => exact ⟨hm, if_pos hm⟩
  · exact absurd h (by decide)

theorem fromFp32_neg {b : Nat} (h : (fromFp32 b).isNan = false) : (fromFp32 b).neg = fp32Sign b := by
  by_cases hx : b / 2 ^ 23 % 256 = 255
  · rw [(fromFp32_of_exp_ones h hx).2]
    rfl
  · obtain ⟨m, e, hv, -, -⟩ := fromFp32_finite hx
    rw [hv]
    rfl

/-- R101: of the words that are not NaN, two of one sign that stand at one place of the order are the same word. -/
theorem fp32_eq_of_not_lt {a b : Nat} (ha : a < 2 ^ 32) (hb : b < 2 ^ 32) (hna : (fromFp32 a).isNan = false)
    (hnb : (fromFp32 b).isNan = false) (hab : (fromFp32 a).lt (fromFp32 b) = false) (hba : (fromFp32 b).lt (fromFp32 a) = false)
    (hs : fp32Sign a = fp32Sign b) : a = b := by
  have hfields : a / 2 ^ 23 % 256 * 2 ^ 23 + a % 2 ^ 23 = b / 2 ^ 23 % 256 * 2 ^ 23 + b % 2 ^ 23 := by
    by_cases hx : a / 2 ^ 23 % 256 = 255 <;> by_cases hy : b / 2 ^ 23 % 256 = 255
    · rw [hx, hy, (fromFp32_of_exp_ones hna hx).1, (fromFp32_of_exp_ones hnb hy).1]
    · obtain ⟨m, e, hv, -, -⟩ := fromFp32_finite hy
      rw [(fromFp32_of_exp_ones hna hx).2, hv] at hab hba
      simp_all [Num.lt]
    · obtain ⟨m, e, hv, -, -⟩ := fromFp32_finite hx
      rw [(fromFp32_of_exp_ones hnb hy).2, hv] at hab hba
      simp_all [Num.lt]
    · obtain ⟨m, e, hv, hm, hmag⟩ := fromFp32_finite hx
      obtain ⟨k, g, hw, hk, hmag'⟩ := fromFp32_finite hy
      rw [hv, hw, hs] at hab hba
      obtain ⟨rfl, rfl⟩ := hm.eq_of_scaled_eq hk (scaled_eq_of_not_lt hab hba)
      exact hmag.symm.trans hmag'
  rw [← fp32_fields ha, ← fp32_fields hb, hs, hfields]

/-- R101: whether max leaves a for b: a's value is the lesser one, or the values are equal and a is negative. -/
def fp32Below (a b : Nat) : Bool :=
  (fromFp32 a).lt (fromFp32 b) || (!(fromFp32 b).lt (fromFp32 a) && (fromFp32 a).neg)

theorem fp32Max_eq (a b : Nat) :
    fp32Max a b =
      if (fromFp32 a).isNan || (fromFp32 b).isNan then Fmt.fp32.nanBits else if fp32Below a b then b else a := by
  cases hab : (fromFp32 a).lt (fromFp32 b) <;> cases hba : (fromFp32 b).lt (fromFp32 a) <;> simp [fp32Max, fp32Below, hab, hba]

theorem fp32Min_eq (a b : Nat) :
    fp32Min a b =
      if (fromFp32 a).isNan || (fromFp32 b).isNan then Fmt.fp32.nanBits else if fp32Below a b then a else b := by
  cases hab : (fromFp32 a).lt (fromFp32 b) <;> cases hba : (fromFp32 b).lt (fromFp32 a) <;> simp [fp32Min, fp32Below, hab, hba]

/-- R101: +0 above −0 makes the order total: of two different words that are not NaN, exactly one is below the other. -/
theorem fp32Below_swap {a b : Nat} (ha : a < 2 ^ 32) (hb : b < 2 ^ 32) (hna : (fromFp32 a).isNan = false)
    (hnb : (fromFp32 b).isNan = false) (hne : a ≠ b) : fp32Below b a = !fp32Below a b := by
  unfold fp32Below
  cases hab : (fromFp32 a).lt (fromFp32 b) <;> cases hba : (fromFp32 b).lt (fromFp32 a)
  · have hsign : fp32Sign a ≠ fp32Sign b := fun hs => hne (fp32_eq_of_not_lt ha hb hna hnb hab hba hs)
    rw [fromFp32_neg hna, fromFp32_neg hnb]
    simpa using Bool.eq_not_of_ne hsign.symm
  · rfl
  · rfl
  · exact absurd (hba.symm.trans (Num.lt_asymm hab)) (by decide)

/-- R101: max and min do not depend on the order in which two words arrive. -/
theorem fp32MaxMin_comm {a b : Nat} (ha : a < 2 ^ 32) (hb : b < 2 ^ 32) : fp32Max a b = fp32Max b a ∧ fp32Min a b = fp32Min b a := by
  rw [fp32Max_eq, fp32Max_eq b, fp32Min_eq, fp32Min_eq b, Bool.or_comm (fromFp32 b).isNan]
  by_cases hne : a = b
  · rw [hne]
    exact ⟨rfl, rfl⟩
  · cases hna : (fromFp32 a).isNan <;> cases hnb : (fromFp32 b).isNan
    · rw [fp32Below_swap ha hb hna hnb hne]
      cases fp32Below a b <;> exact ⟨rfl, rfl⟩
    all_goals exact ⟨rfl, rfl⟩

end Sys2Proof.Machine

open Sys2Proof Sys2Proof.Machine in
/-- Settles O27: the order of the contributions, saturation, a NaN, the round trip, zeros, the draw, and max and min, each by its own
lemma. -/
theorem arithmeticIsExactWhereTheSpecSaysSo : Obligations.ArithmeticIsExactWhereTheSpecSaysSo := by
  refine ⟨fun l l' h => ExactWord.foldl_add_perm h {}, fun acc x => ⟨toInt_intBlockStep acc x, ?_⟩, fun acc ps h => ?_,
    fun b hb h => toFp32_fromFp32 hb h, fun f sat neg rnd draw hf => ?_, srDraw_lt, fun a ha b hb => fp32MaxMin_comm ha hb⟩
  · rw [saturated_intBlockStep_iff, toInt_intBlockStep]
    omega
  · rw [blockStep_of_nanIn acc h]
    exact ⟨rfl, rfl⟩
  · rw [convertOut_zero hf]
    rfl
end

section
/-! SUPPORT. What an access of memory by the part leaves: every unit of the part but the photometers and Ephemeris, every core that is
awake, and every register but the error records and the flip masks. -/

namespace Sys2Proof.Machine

open Sys2Proof

/-! ### A core that is awake -/

/-- An entry of a sparse map that a change of the entries leaves. -/
theorem smapGet_map_of_fixed {α : Type} {d : Nat → α} {g : Nat × α → Nat × α} (hg : ∀ p, (g p).1 = p.1) {m : SMap α} {k : Nat}
    (h : g (k, smapGet d m k) = (k, smapGet d m k)) : smapGet d (m.map g) k = smapGet d m k := by
  induction m with
  | nil => rfl
  | cons p m ih =>
    obtain ⟨a, v⟩ := p
    rw [smapGet] at h ⊢
    rw [List.map_cons, smapGet, hg]
    split_ifs with ha
    · subst ha
      rw [if_pos rfl] at h
      rw [h]
    · rw [if_neg ha] at h
      exact ih h

/-- R251: a core that is awake in s is the same in t. -/
structure CoreKept (c : CoreRef) (s t : State) : Prop where
  core : (s.core c).asleep = none → t.core c = s.core c

theorem CoreKept.of_cores {c : CoreRef} {s t : State} (h : t.cores = s.cores) : CoreKept c s t where
  core _ := by
    unfold State.core
    rw [h]

theorem CoreKept.trans {c : CoreRef} {s t u : State} (h : CoreKept c s t) (k : CoreKept c t u) : CoreKept c s u where
  core ha := (k.core (by rw [h.core ha, ha])).trans (h.core ha)

theorem CoreKept.foldl {α : Type} {c : CoreRef} {f : State → α → State} (h : ∀ (s : State) a, CoreKept c s (f s a)) (l : List α)
    (s : State) : CoreKept c s (l.foldl f s) := by
  induction l generalizing s with
  | nil => exact .of_cores rfl
  | cons a l ih => exact (h s a).trans (ih _)

/-- R251: a bit that changes is noted for the cores asleep on it. -/
theorem State.noteBit_coreKept (c : CoreRef) (s : State) (k : Nat) (v : Bool) : CoreKept c s (s.noteBit k v) where
  core ha := by
    refine smapGet_map_of_fixed (fun p => ?_) ?_
    · dsimp only
      split
      · split <;> rfl
      · rfl
    · unfold State.core at ha
      simp only [ha]

theorem State.noteLevels_coreKept (c : CoreRef) (s : State) : CoreKept c s s.noteLevels where
  core ha := by
    refine smapGet_map_of_fixed (fun p => ?_) ?_
    · dsimp only
      split
      · split
        · split <;> rfl
        · rfl
      · rfl
    · unfold State.core at ha
      simp only [ha]

theorem State.event_coreKept (c : CoreRef) (s : State) (b : Nat) : CoreKept c s (s.event b) where
  core ha := (State.noteBit_coreKept c { s with bits := smapSet (fun _ => false) s.bits b true } b true).core ha

/-! ### The parts of the state that an access of memory leaves -/

/-- R595, R675: t differs from s at most in what an access of memory and its records touch. -/
def State.RestKept (s t : State) : Prop :=
  ∃ regs phot mem lineErr valid bits cores eph epoch, t = { s with
    regs := regs, phot := phot, mem := mem, lineErr := lineErr, valid := valid, bits := bits, cores := cores, eph := eph, epoch := epoch }

theorem State.RestKept.refl (s : State) : s.RestKept s := ⟨_, _, _, _, _, _, _, _, _, rfl⟩

theorem State.RestKept.trans {s t u : State} (h : s.RestKept t) (k : t.RestKept u) : s.RestKept u := by
  obtain ⟨_, _, _, _, _, _, _, _, _, rfl⟩ := h
  obtain ⟨_, _, _, _, _, _, _, _, _, rfl⟩ := k
  exact ⟨_, _, _, _, _, _, _, _, _, rfl⟩

theorem State.setReg_restKept (s : State) (r : RegId) (cell : Nat) (v : BitVec 64) (i : Nat) : s.RestKept (s.setReg r cell v i) := by
  unfold State.setReg
  split <;> exact ⟨_, _, _, _, _, _, _, _, _, rfl⟩

/-- R597, R602: a register of a unit that an access of memory does not write: none of the photometers, and at no place of a flip mask's
ARM. -/
def RegId.plain (r : RegId) : Bool :=
  !r.map.kinds.isEmpty && !r.isPhot && r.map.offset != RegId.SMC_FLIP_CTRL.map.offset && r.map.offset != RegId.PLT_FLIP_CTRL.map.offset

/-- R595 to R597: what an access of memory leaves: the units, the cores that are awake, the registers of the units (but for the downstream
ports, whose registers lie in apertures, R707). -/
structure MemFrame (s t : State) : Prop where
  rest : s.RestKept t
  core : ∀ c, CoreKept c s t
  reg : ∀ r d, r.plain = true → kindOf d ≠ 0x22 → t.reg r d = s.reg r d

theorem MemFrame.refl (s : State) : MemFrame s s := ⟨.refl s, fun _ => .of_cores rfl, fun _ _ _ _ => rfl⟩

theorem MemFrame.trans {s t u : State} (h : MemFrame s t) (k : MemFrame t u) : MemFrame s u :=
  ⟨h.rest.trans k.rest, fun c => (h.core c).trans (k.core c), fun r d hr hd => (k.reg r d hr hd).trans (h.reg r d hr hd)⟩

theorem MemFrame.foldl {α : Type} {f : State → α → State} (h : ∀ (s : State) a, MemFrame s (f s a)) (l : List α) (s : State) :
    MemFrame s (l.foldl f s) := by
  induction l generalizing s with
  | nil => exact .refl s
  | cons a l ih => exact (h s a).trans (ih _)

/-- A change of stored memory, its marks, the photometers or Ephemeris alone. -/
theorem MemFrame.of_stores (s : State) (phot mem lineErr valid eph epoch) : MemFrame s { s with
    phot := phot, mem := mem, lineErr := lineErr, valid := valid, eph := eph, epoch := epoch } where
  rest := ⟨_, _, _, _, _, _, _, _, _, rfl⟩
  core _ := .of_cores rfl
  reg r d hr _ := by
    simp only [RegId.plain, Bool.and_eq_true, Bool.not_eq_true'] at hr
    simp [State.reg, hr.1.1.2]

theorem MemFrame.prim {s t : State} (h : MemFrame s t) : t.prim = s.prim := by
  obtain ⟨_, _, _, _, _, _, _, _, _, rfl⟩ := h.rest
  rfl

theorem MemFrame.fld {s t : State} (h : MemFrame s t) {f : Fld} {d : Nat} (hr : f.reg.plain = true) (hd : kindOf d ≠ 0x22) :
    t.fld f d = s.fld f d := by
  unfold State.fld
  rw [h.reg f.reg d hr hd]

theorem State.PhotOnly.memFrame {s t : State} (h : s.PhotOnly t) : MemFrame s t := by
  obtain ⟨p, rfl⟩ := h
  exact .of_stores s ..

/-! ### Registers that an access of memory writes -/

/-- R48, R51: a register at another place of its unit's block. -/
theorem regAddr_ne_of_offset {r r' : RegId} {c d : Nat} (hr : r.map.kinds.isEmpty = false) (hr' : r'.map.kinds.isEmpty = false)
    (hc : kindOf c ≠ 0x22) (hd : kindOf d ≠ 0x22) (ho : r.map.offset ≠ r'.map.offset) : regAddr r d 0 ≠ regAddr r' c 0 := by
  have h1 := r.offset_lt
  have h2 := r'.offset_lt
  rw [regAddr_of_unit hr, regAddr_of_unit hr']
  rcases unitBase_of_kind hc with hu | hu <;> rcases unitBase_of_kind hd with hv | hv <;> rw [hu, hv] <;> omega

theorem State.setReg_memFrame (s : State) {r : RegId} {c : Nat} (v : BitVec 64)
    (h : ∀ r' d, r'.plain = true → kindOf d ≠ 0x22 → regAddr r' d 0 ≠ regAddr r c 0) : MemFrame s (s.setReg r c v) where
  rest := s.setReg_restKept r c v 0
  core _ := .of_cores (by simp)
  reg r' d hr hd := s.reg_setReg_of_ne v (h r' d hr hd)

/-- R49: a register of a CCB is none of a unit's block. -/
theorem State.setReg_ccb_memFrame (s : State) {r : RegId} (hr : r.map.kinds.isEmpty = true) {c : Nat} (hc : c < 0x10000) (v : BitVec 64) :
    MemFrame s (s.setReg r c v) :=
  s.setReg_memFrame v fun r' d hr' _ => by
    simp only [RegId.plain, Bool.and_eq_true, Bool.not_eq_true'] at hr'
    exact (regAddr_ccb_ne_unit hc hr hr'.1.1.1 d).symm

theorem State.event_memFrame (s : State) (b : Nat) : MemFrame s (s.event b) where
  rest := ⟨_, _, _, _, _, _, _, _, _, rfl⟩
  core c := s.event_coreKept c b
  reg _ _ _ _ := rfl

/-- R65: an error record of a cell. -/
theorem State.recordError_memFrame (s : State) {c : Nat} (hc : c < 0x10000) (cls addr info : Nat) :
    MemFrame s (s.recordError c cls addr info) := by
  have hf : ∀ (s : State) (f : Fld) v, f.reg ∈ errRegs → MemFrame s (s.setFld f c v) := fun s f v h =>
    s.setReg_ccb_memFrame (errRegs_ccb f.reg h) hc _
  have he : MemFrame s (s.errCounted c cls) := by
    obtain ⟨p, e, h⟩ := s.errCounted_eq c cls
    rw [h]
    exact .of_stores s ..
  cases hv : s.flag F.CELL_ERR_STATUS_VALID c
  · rw [State.recordError_new hv]
    refine MemFrame.trans ?_ (State.event_memFrame _ _)
    unfold State.newRecord
    exact (((((he.trans (hf _ _ _ (by decide))).trans (hf _ _ _ (by decide))).trans (hf _ _ _ (by decide))).trans
      (hf _ _ _ (by decide))).trans (hf _ _ _ (by decide))).trans (hf _ _ _ (by decide))
  · obtain ⟨n, h⟩ := State.recordError_held hv cls addr info
    rw [h]
    exact (he.trans (hf _ _ _ (by decide))).trans (hf _ _ _ (by decide))

/-- R65: an error record touches no core that is awake, whichever cell it is of. -/
theorem State.recordError_coreKept (c : CoreRef) (s : State) (cell cls addr info : Nat) :
    CoreKept c s (s.recordError cell cls addr info) := by
  have he : CoreKept c s (s.errCounted cell cls) := by
    obtain ⟨p, e, h⟩ := s.errCounted_eq cell cls
    rw [h]
    exact .of_cores rfl
  cases hv : s.flag F.CELL_ERR_STATUS_VALID cell
  · rw [State.recordError_new hv]
    refine he.trans (CoreKept.trans (.of_cores ?_) (State.event_coreKept c _ _))
    simp [State.newRecord]
  · obtain ⟨n, h⟩ := State.recordError_held hv cls addr info
    rw [h]
    exact he.trans (.of_cores (by simp))

/-! ### Reads and writes of lines -/

theorem memCell_lt {a c : Nat} (h : memCell a = some c) : c < 0x10000 :=
  lt_of_kindOf fun e => absurd (e ▸ kindOf_memCell h) (by decide)

/-- R595: a read of a line. -/
theorem State.noteRead_memFrame (s : State) (la : Nat) (r : LineRead) : MemFrame s (s.noteRead la r) := by
  unfold State.noteRead
  split
  · exact .refl s
  · next c h =>
    extract_lets u
    have hu : MemFrame s u := by
      dsimp only [u]
      split_ifs
      · exact (s.count_photOnly ..).memFrame
      · exact (s.count_photOnly ..).memFrame
      · exact .refl s
    split
    · exact hu
    · exact hu.trans (u.recordError_memFrame (memCell_lt h) ..)

/-- R602: a register of a flip mask's ARM is no plain one. -/
theorem State.setReg_flip_memFrame (s : State) {r : RegId} (hr : r = .SMC_FLIP_CTRL ∨ r = .PLT_FLIP_CTRL) {c : Nat} (hc : kindOf c ≠ 0x22)
    (v : BitVec 64) : MemFrame s (s.setReg r c v) :=
  s.setReg_memFrame v fun r' d hr' hd => by
    simp only [RegId.plain, Bool.and_eq_true, Bool.not_eq_true', bne_iff_ne] at hr'
    obtain ⟨⟨⟨hk, -⟩, hs⟩, hp⟩ := hr'
    rcases hr with rfl | rfl
    · exact regAddr_ne_of_offset hk rfl hc hd hs
    · exact regAddr_ne_of_offset hk rfl hc hd hp

theorem State.disarmFlip_memFrame (s : State) {c : Nat} (hc : kindOf c ≠ 0x22) : MemFrame s (s.disarmFlip c) := by
  unfold State.disarmFlip
  split_ifs
  · exact s.setReg_flip_memFrame (.inl rfl) hc _
  · exact s.setReg_flip_memFrame (.inr rfl) hc _

/-- R597, R602: a write of a whole line. -/
theorem State.writeLine_memFrame (s : State) (la : Nat) (bs : List Byte) (mark : Bool) : MemFrame s (s.writeLine la bs mark) := by
  unfold State.writeLine
  extract_lets u
  have hu : MemFrame s u := by
    dsimp only [u]
    split
    · split_ifs
      · exact (s.count_photOnly ..).memFrame
      · exact (s.count_photOnly ..).memFrame
      · exact .refl s
    · exact .refl s
  clear_value u
  cases hf : u.flipFor la with
  | none => exact hu.trans (.of_stores u ..)
  | some p => exact (hu.trans (u.disarmFlip_memFrame (State.flipFor_kind hf))).trans (.of_stores _ ..)

theorem State.writeInLine_memFrame (s : State) (a : Nat) (bs : List Byte) (mark : Bool) : MemFrame s (s.writeInLine a bs mark) := by
  unfold State.writeInLine
  dsimp only
  split_ifs
  · exact s.writeLine_memFrame ..
  · exact (s.noteRead_memFrame ..).trans (State.writeLine_memFrame ..)

theorem State.copyLines_memFrame (s : State) (src dst n : Nat) : MemFrame s (s.copyLines src dst n) := by
  induction n generalizing s src dst with
  | zero => exact .refl s
  | succ n ih => exact ((s.noteRead_memFrame ..).trans (State.writeLine_memFrame ..)).trans (ih ..)

/-- R572: the copy of a granule before a write. -/
theorem State.copyOnWrite_memFrame (s : State) (a : Nat) : MemFrame s (s.copyOnWrite a) := by
  unfold State.copyOnWrite
  split
  · split
    · exact .of_stores s ..
    · exact .refl s
  · split
    · exact .refl s
    · split
      · exact .refl s
      · extract_lets dst src up u v
        split
        · exact ((s.copyLines_memFrame src dst 1024).trans (u.count_photOnly ..).memFrame).trans (.of_stores v ..)
        · exact .of_stores s ..

/-- R572, R597: a write of memory. -/
theorem State.writeMem_memFrame (s : State) (a : Nat) (bs : List Byte) (mark : Bool) (fuel : Nat) :
    MemFrame s (s.writeMem a bs mark fuel) := by
  induction fuel generalizing s a bs with
  | zero => exact .refl s
  | succ fuel ih =>
    cases bs with
    | nil => exact .refl s
    | cons b bs => exact ((s.copyOnWrite_memFrame a).trans (State.writeInLine_memFrame ..)).trans (ih ..)

/-- R595, R598: a read of memory. -/
theorem State.readMem_memFrame (s : State) (a n fuel : Nat) : MemFrame s (s.readMem a n fuel).2.2 := by
  induction fuel generalizing s a n with
  | zero => exact .refl s
  | succ fuel ih =>
    unfold State.readMem
    split_ifs
    · exact .refl s
    · exact (s.noteRead_memFrame ..).trans (ih ..)

@[simp] theorem State.writeMem_prim (s : State) (a : Nat) (bs : List Byte) (mark : Bool) (fuel : Nat) :
    (s.writeMem a bs mark fuel).prim = s.prim := (s.writeMem_memFrame a bs mark fuel).prim

end Sys2Proof.Machine
end

section
/-! SUPPORT. How an instruction of an XQ core ends (R260, R320, R671): what its body comes to decides whether the core retires it or takes
an exception. -/

namespace Sys2Proof.Machine

open Sys2Proof

theorem CoreRef.cell_injective : Function.Injective CoreRef.cell := by
  intro c d h
  rcases c with ⟨n, hn⟩ | ⟨n, hn⟩ | ⟨n, hn⟩ <;> rcases d with ⟨m, hm⟩ | ⟨m, hm⟩ | ⟨m, hm⟩ <;>
    simp only [CoreRef.cell, guiderCell, clusterCell, quadCell, cellId, domeCell, filterCell, CoreRef.guider.injEq, CoreRef.dome.injEq,
      CoreRef.filter.injEq, Fin.mk.injEq, reduceCtorEq] at h ⊢ <;> omega

/-! ### Counting an instruction -/

/-- The state with other cores. -/
def State.withCores (s : State) (x : SMap CoreState) : State := { s with cores := x }

theorem State.fld_withCores (s : State) (x) (f : Fld) (cell i : Nat) : (s.withCores x).fld f cell i = s.fld f cell i := (rfl)

theorem State.setFld_withCores (s : State) (x) (f : Fld) (cell v i : Nat) :
    (s.withCores x).setFld f cell v i = (s.setFld f cell v i).withCores x := by
  unfold State.setFld State.setReg
  split <;> rfl

theorem State.withCores_ite (x) (p : Prop) [Decidable p] (s t : State) :
    (if p then s else t).withCores x = if p then s.withCores x else t.withCores x := apply_ite (fun s : State => s.withCores x) p s t

theorem State.bumpCounter_withCores (s : State) (x) (cell c inc : Nat) :
    (s.withCores x).bumpCounter cell c inc = (s.bumpCounter cell c inc).withCores x := by
  unfold State.bumpCounter
  simp only [State.fld_withCores, State.setFld_withCores, State.withCores_ite]

theorem State.countIn_withCores (s : State) (x) (cell ev inc : Nat) (qual : Option Nat) :
    (s.withCores x).countIn cell ev inc qual = (s.countIn cell ev inc qual).withCores x := by
  unfold State.countIn
  refine List.foldl_hom (fun s : State => s.withCores x) fun u c => ?_
  simp only [State.counterTakes, State.fld_withCores, State.bumpCounter_withCores]
  exact (State.withCores_ite ..).symm

/-- R671: what is counted does not depend on the cores. -/
theorem State.count_withCores (s : State) (x) (cell ev : Nat) (qual : Option Nat) (inc : Nat) :
    (s.withCores x).count cell ev qual inc = (s.count cell ev qual inc).withCores x := by
  unfold State.count
  by_cases hg : s.gated cell = true
  · rw [if_pos hg, if_pos (show (s.withCores x).gated cell = true from hg)]
  · rw [if_neg hg, if_neg (show ¬ (s.withCores x).gated cell = true from hg)]
    exact List.foldl_hom (fun s : State => s.withCores x) fun u c => u.countIn_withCores x c ev inc qual

/-! ### The end of an instruction -/

/-- R671: the count of a core's instruction: the state with the photometers that `counted` names. -/
theorem State.count_instr (u : State) (c : CoreRef) (x : SMap CoreState) :
    (match (if c.isGuider then some (evOf 0x18 0) else if c.isDome then some (evOf 0x2F 0) else none) with
      | some e => (u.withCores x).count c.cell e
      | none => u.withCores x) = { u.withCores x with phot := u.counted c } := by
  cases c
  case filter n => rfl
  all_goals
    simp only [CoreRef.isGuider, CoreRef.isDome, if_true, Bool.false_eq_true, if_false, State.counted, State.count_withCores]
    obtain ⟨p, hp⟩ := u.count_photOnly (CoreRef.cell _) (evOf _ 0) none 1
    rw [hp]
    rfl

/-- R320: the registers that a halt sets depend on the registers alone. -/
theorem State.haltCore_regs_congr {s t : State} (h : t.regs = s.regs) (c : CoreRef) (reason bp : Nat) :
    (t.haltCore c reason bp).regs = (s.haltCore c reason bp).regs := by
  simp [State.haltCore, State.setFlag, State.setFld, State.setReg, State.reg, RegId.isPhot, h, F.GDR_DBG_STATUS_HALTED,
    F.GDR_DBG_STATUS_REASON, F.GDR_DBG_STATUS_BP]

/-- R260, R320: an instruction that is due on a core which has it and its registers executes. -/
theorem State.Ready.instr {s : State} {c : CoreRef} (h : s.Ready c) {regs : List (Fin 32)} {onFilter : Bool}
    (hn : c.isFilter = true → onFilter = true ∧ ∀ r ∈ regs, r.val < 16) (len : Nat) (body : State → Fate) :
    s.instr c len regs onFilter body = s.conclude c len (body s) := by
  obtain ⟨hlive, hrun, hawake, hgoing, hquiet, hclear⟩ := h
  have hfree : (if (s.core c).stepping then none else s.takeable c) = none := by
    split
    · rfl
    · next hs => exact hquiet (by simpa using hs)
  unfold State.instr
  rw [if_neg (by simpa [hrun, hlive, hawake] using hgoing)]
  simp only [hfree, hclear]
  rw [if_neg]
  rintro ⟨hf, hx⟩
  obtain ⟨hon, hr⟩ := hn hf
  rcases hx with hx | hx
  · simp [hon] at hx
  · obtain ⟨r, hr', hx⟩ := List.any_eq_true.mp hx
    exact absurd (hr r hr') (by simpa using hx)

/-- R256: an instruction whose body takes an exception at the instruction. -/
theorem State.conclude_fault (s u : State) (c : CoreRef) (len : Nat) {e : Exc} (h : e.after = false) :
    s.conclude c len (.fault e u) = (u.takeException c e (s.core c).pc).afterInstr c := by
  simp [State.conclude, h]

/-- R320, R671: a state in which core c has ended an instruction with its core as k, and which is counted, once a STEP in progress has
halted the core. -/
theorem State.retires_of_core {u : State} {c : CoreRef} {x : SMap CoreState} {pc : Word} {k : CoreState}
    (hcore : (u.withCores x).core c = { k with pc := pc }) (hother : ∀ d, d ≠ c → (u.withCores x).core d = u.core d)
    (ha : k.asleep = none) (hs : k.stepping = (u.core c).stepping) :
    u.Retires (State.afterInstr { u.withCores x with phot := u.counted c } c) c pc k := by
  generalize hw : ({ u.withCores x with phot := u.counted c } : State) = w
  have hwc : w.core c = { k with pc := pc } := by rw [← hw]; exact hcore
  have hwo : ∀ d, d ≠ c → w.core d = u.core d := by rw [← hw]; exact hother
  have hwr : w.regs = u.regs := by rw [← hw]; rfl
  have hwp : w.phot = u.counted c := by rw [← hw]
  have hrest : w = { u with cores := w.cores, regs := w.regs, phot := w.phot } := by rw [← hw]; rfl
  unfold State.afterInstr
  rw [hwc]
  cases hst : k.stepping
  · rw [if_neg (by simp)]
    exact ⟨by rw [hwc, ← hst], hwo, by rw [← hs, hst, hwr]; rfl, hwp, hrest⟩
  · rw [if_pos rfl]
    refine ⟨?_, fun d hd => ?_, ?_, ?_, ?_⟩
    · unfold State.haltCore
      rw [State.core_mapCore_same]
      simp only [State.core, State.setFld_cores, State.setFlag_cores]
      rw [show smapGet _ w.cores c.cell = w.core c from rfl, hwc, ha]
    · unfold State.haltCore State.mapCore
      rw [State.core_setCore, if_neg fun e => hd (CoreRef.cell_injective e)]
      simpa only [State.core, State.setFld_cores, State.setFlag_cores] using hwo d hd
    · rw [← hs, hst, if_pos rfl]
      exact State.haltCore_regs_congr hwr c 2 0
    · exact hwp
    · rw [hrest]
      rfl

/-- R320, R671: an instruction whose body leaves the part as u, with the core as k, retires. -/
theorem State.conclude_next_retires (s u : State) (c : CoreRef) (len : Nat) {k : CoreState} (ha : k.asleep = none)
    (hs : k.stepping = (u.core c).stepping) :
    u.Retires (s.conclude c len (.next (u.setCore c k))) c ((s.core c).pc + BitVec.ofNat 64 len) k := by
  let pcOf := fun k : CoreState => { k with pc := (s.core c).pc + BitVec.ofNat 64 len }
  have hw : s.conclude c len (.next (u.setCore c k)) =
      State.afterInstr { u.withCores ((u.setCore c k).mapCore c pcOf).cores with phot := u.counted c } c :=
    congrArg (fun t : State => t.afterInstr c) (u.count_instr c _)
  rw [hw]
  refine State.retires_of_core ?_ (fun d hd => ?_) ha hs
  · show ((u.setCore c k).mapCore c pcOf).core c = _
    rw [State.core_mapCore_same, State.core_setCore_same]
  · have hne : d.cell ≠ c.cell := fun e => hd (CoreRef.cell_injective e)
    show ((u.setCore c k).mapCore c pcOf).core d = _
    rw [State.mapCore, State.core_setCore, if_neg hne, State.core_setCore, if_neg hne]

end Sys2Proof.Machine
end

section
/-! SUPPORT. PRIM and MOVE (R292 to R295): the read of a descriptor's image leaves the core that reads it, and the push of a descriptor
touches its queue and its ticket. -/

namespace Sys2Proof.Machine

open Sys2Proof

/-! ### The read of an image -/

theorem State.PhotOnly.coreKept {s t : State} (h : s.PhotOnly t) (c : CoreRef) : CoreKept c s t := h.memFrame.core c

theorem State.regRefused_coreKept (d : CoreRef) (s : State) (c : CoreRef) (a n : Nat) (write : Bool) :
    CoreKept d s (s.regRefused c a n write) := by
  unfold State.regRefused
  dsimp only
  split_ifs
  · exact .of_cores rfl
  · exact s.recordError_coreKept ..
  · split
    · exact s.recordError_coreKept ..
    · exact s.recordError_coreKept ..
    · split_ifs
      · exact .of_cores rfl
      · exact s.recordError_coreKept ..
    · exact .of_cores rfl

/-- R226 to R229: the checks of an access record at most an error. -/
theorem State.accessCheck_coreKept (d : CoreRef) (s : State) (c : CoreRef) (a n fl : Nat) (write : Bool) (rights : List Nat) :
    CoreKept d s (s.accessCheck c a n fl write rights).2 := by
  have hs : CoreKept d s s := .of_cores rfl
  have hf : CoreKept d s (s.addrFault c a fl).2 := s.recordError_coreKept ..
  unfold State.accessCheck
  split
  · exact hs
  dsimp only
  cases placeOf c a with
  | none => exact hf
  | some p =>
    cases p with
    | reg x =>
      have hr := s.regRefused_coreKept d c x n write
      dsimp only
      split_ifs <;> assumption
    | dev x =>
      dsimp only
      split_ifs <;> assumption
    | loc x =>
      dsimp only
      split_ifs <;> assumption

theorem RegId.width_le (r : RegId) : r.map.width ≤ 64 := by
  cases r <;> decide

/-- R14: no register is 64 bytes wide. -/
theorem regHit_line_ne_register (a cell : Nat) (r : RegId) (i : Nat) : regHit a 64 ≠ .register cell r i := by
  intro h
  have hw := r.width_le
  unfold regHit at h
  split at h
  · split_ifs at h with hc
    cases h
    omega
  · split_ifs at h
    split at h
    · unfold unitHit at h
      dsimp only at h
      split at h
      iterate 4 split_ifs at h
      · cases h
    · cases h

/-- R304, R517: a read of 64 bytes of register space. -/
theorem State.coreRegRead_coreKept (d : CoreRef) (s : State) (c : CoreRef) (a : Nat) : CoreKept d s (s.coreRegRead c a 64).2.2 := by
  unfold State.coreRegRead State.regRead
  have hne := regHit_line_ne_register a
  generalize regHit a 64 = hit at hne ⊢
  cases hit
  case register cell r i => exact absurd rfl (hne cell r i)
  case aperture cell off =>
    dsimp only [State.apertureRead]
    split_ifs
    · exact (s.readMem_memFrame ..).core d
    · exact s.recordError_coreKept ..
  case outbound k off =>
    dsimp only [State.outboundRead]
    split_ifs
    · exact ((s.count_photOnly ..).coreKept d).trans (((State.count_photOnly _ ..).coreKept d).trans (.of_cores rfl))
    · exact s.recordError_coreKept ..
  case noCell | unmapped | misused => exact s.recordError_coreKept ..
  case reserved | slot | config => exact .of_cores rfl

/-- R69, R187: a read of device memory. -/
theorem State.load_coreKept (d : CoreRef) (s : State) (a n : Nat) (reserved : Bool) : CoreKept d s (s.load a n reserved).2 := by
  unfold State.load
  split
  · exact .of_cores rfl
  · split
    · next t h =>
      unfold State.refusedRange at h
      split at h
      · obtain rfl := Option.some.inj h
        exact ((s.count_photOnly ..).coreKept d).trans (State.recordError_coreKept ..)
      · split_ifs at h
        obtain rfl := Option.some.inj h
        exact s.recordError_coreKept ..
    · split
      · exact .of_cores rfl
      · exact (s.readMem_memFrame ..).core d

/-- R293: the read of one line of an image. -/
theorem State.coreLoad_coreKept (d : CoreRef) (s : State) (c : CoreRef) (a fl : Nat) (rights : List Nat) :
    CoreKept d s (s.coreLoad c a 64 fl rights).2 := by
  have hc := s.accessCheck_coreKept d c a 64 fl false rights
  unfold State.coreLoad
  generalize s.accessCheck c a 64 fl false rights = r at hc ⊢
  obtain ⟨r, u⟩ := r
  refine hc.trans ?_
  match r with
  | .error e => exact .of_cores rfl
  | .ok (.reg x) =>
    dsimp only
    split_ifs <;> exact u.coreRegRead_coreKept ..
  | .ok (.loc x) =>
    dsimp only
    split_ifs <;> exact (u.readMem_memFrame ..).core d
  | .ok (.dev x) =>
    dsimp only
    split <;> exact u.load_coreKept ..

/-- R293: the read of an image leaves every core that is awake. -/
theorem State.readImage_coreKept (d : CoreRef) (s : State) (c : CoreRef) (a lines : Nat) {ws : List Word32} {u : State}
    (h : s.readImage c a lines = (.ok ws, u)) : CoreKept d s u := by
  unfold State.readImage at h
  dsimp only at h
  split at h
  · cases h
  split at h
  · cases h
  · split at h
    · cases h
    · next bs v hv =>
      obtain ⟨-, rfl⟩ := Prod.mk.inj h
      refine (congrArg (fun r : Except Exc (List Byte) × State => CoreKept d s r.2) hv).mp ?_
      refine List.foldlRecOn (motive := fun r : Except Exc (List Byte) × State => CoreKept d s r.2) _ _ (.of_cores rfl) fun r hr i _ => ?_
      match r with
      | (.error _, _) => exact hr
      | (.ok _, w) =>
        have hw := w.coreLoad_coreKept d c ((a + 64 * i) % 2 ^ 64) (accFlags false false false true 64) [1]
        dsimp only
        split <;> next hl => exact hr.trans (by rwa [hl] at hw)

/-! ### The push of a descriptor -/

/-- R134, R135: a descriptor that the Primary queue takes. -/
theorem State.primPush_of_room {u : State} (c : CoreRef) (ws : List Word32) (hr : u.resetting qnwPrim = false)
    (hq : u.prim.queue.length < 64) :
    let t := (u.reg .PRIM_ISSUE_TICKET qnwPrim).toNat
    let v := (u.primPush c ws).2
    (u.primPush c ws).1 = t ∧ v.prim.queue = u.prim.queue ++ [⟨t, ws, c, (u.core c).phase, false⟩] ∧
      v.reg .PRIM_ISSUE_TICKET qnwPrim = BitVec.ofNat 64 (t + 1) ∧ RegsKept u v [regAddr .PRIM_ISSUE_TICKET qnwPrim 0] ∧ MemKept u v := by
  unfold State.primPush
  rw [if_neg (by simp [hr, hq])]
  refine ⟨rfl, by simp, by simp [State.reg_setReg], fun r cell i h => ?_, by simp [MemKept]⟩
  exact State.reg_setReg_of_ne _ _ (by simpa using h)

/-- R134, R295: the Primary queue is full, or its cell is resetting. -/
theorem State.primPush_of_full {u : State} (c : CoreRef) (ws : List Word32) (h : u.resetting qnwPrim = true ∨ u.prim.queue.length = 64) :
    u.primPush c ws = (0, u) := by
  unfold State.primPush
  exact if_pos (h.imp_right fun h => h.ge)

theorem State.primPush_coreKept (d : CoreRef) (u : State) (c : CoreRef) (ws : List Word32) : CoreKept d u (u.primPush c ws).2 := by
  unfold State.primPush
  split
  · exact .of_cores rfl
  · exact (CoreKept.of_cores (by simp)).trans (State.noteLevels_coreKept d _)

/-- R134, R198: a descriptor that a mover's queue takes. -/
theorem State.movPush_of_room {u : State} (c : CoreRef) (m : Fin 64) (ws : List Word32) (hr : u.resetting (moverCell m.val) = false)
    (hq : (u.mover m.val).queue.length < 32) :
    let t := (u.reg .MOV_ISSUE_TICKET (moverCell m.val)).toNat
    let v := (u.movPush c m ws).2
    (u.movPush c m ws).1 = t ∧ (v.mover m.val).queue = (u.mover m.val).queue ++ [⟨t, ws, c, (u.core c).phase, false⟩] ∧
      v.reg .MOV_ISSUE_TICKET (moverCell m.val) = BitVec.ofNat 64 (t + 1) ∧
      RegsKept u v [regAddr .MOV_ISSUE_TICKET (moverCell m.val) 0] ∧ MemKept u v := by
  unfold State.movPush
  dsimp only
  rw [if_neg (by simp [hr, hq])]
  refine ⟨rfl, ?_, by simp [State.reg_setReg], fun r cell i h => ?_, by simp [MemKept, State.setMover]⟩
  · simp [State.mover, State.setMover, smapGet_set]
  · exact State.reg_setReg_of_ne _ _ (by simpa using h)

/-- R134, R198: the mover's queue is full, or its cell is resetting. -/
theorem State.movPush_of_full {u : State} (c : CoreRef) (m : Fin 64) (ws : List Word32)
    (h : u.resetting (moverCell m.val) = true ∨ (u.mover m.val).queue.length = 32) : u.movPush c m ws = (0, u) := by
  unfold State.movPush
  exact if_pos (h.imp_right fun h => h.ge)

theorem State.movPush_coreKept (d : CoreRef) (u : State) (c : CoreRef) (m : Fin 64) (ws : List Word32) :
    CoreKept d u (u.movPush c m ws).2 := by
  unfold State.movPush
  dsimp only
  split
  · exact .of_cores rfl
  · exact (CoreKept.of_cores (by simp [State.setMover])).trans (State.noteLevels_coreKept d _)

/-! ### The two instructions -/

theorem State.May.granted {s : State} {c : CoreRef} {b : Nat} (h : s.May c b) : (s.core c).granted c b = true := by
  unfold State.May at h
  simpa [CoreState.granted, bne_iff_ne] using h

theorem State.not_granted_of_not_may {s : State} {c : CoreRef} {b : Nat} (h : ¬ s.May c b) : (s.core c).granted c b = false := by
  unfold State.May at h
  simpa [CoreState.granted] using h

/-- R292: the ticket of a push reaches rd. -/
theorem State.tickets_of_push {s v : State} {i : Instr} {c : CoreRef} {rd : Fin 32} {t : Nat}
    (hx : exec i s = .next (s.conclude c 4 (v.ticketResult c rd t))) (ha : (v.core c).asleep = none) : s.Tickets i c rd t v := by
  refine ⟨_, hx, ?_⟩
  have hz : (t == 0) = decide (t = 0) := rfl
  unfold State.ticketResult
  rw [hz]
  exact s.conclude_next_retires v c 4 (k := { (v.core c).set rd (BitVec.ofNat 64 t) with z := decide (t = 0) }) ha rfl

section Push
variable {s u : State} {c : CoreRef} {rd ra rb : Fin 32} {ws : List Word32} (h : s.Ready c) (hf : c.isFilter = false)
include h hf

/-- R292, R293: PRIM pushes the image that it reads. -/
theorem exec_prim_of_image (hm : s.May c 0) (hi : s.readImage c ((s.core c).get ra).toNat 3 = (.ok ws, u)) :
    s.Tickets (.prim c rd ra) c rd (u.primPush c ws).1 (u.primPush c ws).2 := by
  refine State.tickets_of_push ?_ ?_
  · refine (congrArg Host.Outcome.next (h.instr (by simp [hf]) ..)).trans ?_
    simp [hm.granted, hi]
  · rw [((s.readImage_coreKept c c _ _ hi).trans (u.primPush_coreKept c c ws)).core h.awake, h.awake]

/-- R198, R293: MOVE pushes the image that it reads to the queue of mover rb. -/
theorem exec_move_of_image (hr : ((s.core c).get rb).toNat < 64) (hm : s.May c 1)
    (hi : s.readImage c ((s.core c).get ra).toNat 1 = (.ok ws, u)) :
    s.Tickets (.move c rd ra rb) c rd (u.movPush c ⟨_, hr⟩ ws).1 (u.movPush c ⟨_, hr⟩ ws).2 := by
  refine State.tickets_of_push ?_ ?_
  · refine (congrArg Host.Outcome.next (h.instr (by simp [hf]) ..)).trans ?_
    simp [hm.granted, hr, hi]
  · rw [((s.readImage_coreKept c c _ _ hi).trans (u.movPush_coreKept c c _ ws)).core h.awake, h.awake]

/-- R223: PRIM without the right. -/
theorem exec_prim_traps_priv (hm : ¬ s.May c 0) : s.Traps (.prim c rd ra) c privInstr s := by
  refine (congrArg Host.Outcome.next (h.instr (by simp [hf]) ..)).trans ?_
  simp only [State.not_granted_of_not_may hm]
  exact congrArg Host.Outcome.next (s.conclude_fault s c 4 rfl)

/-- R223: MOVE without the right. -/
theorem exec_move_traps_priv (hm : ¬ s.May c 1) : s.Traps (.move c rd ra rb) c privInstr s := by
  refine (congrArg Host.Outcome.next (h.instr (by simp [hf]) ..)).trans ?_
  simp only [State.not_granted_of_not_may hm]
  exact congrArg Host.Outcome.next (s.conclude_fault s c 4 rfl)

/-- R292: MOVE of a mover that the part does not have. -/
theorem exec_move_traps_device (hm : s.May c 1) (hr : 64 ≤ ((s.core c).get rb).toNat) : s.Traps (.move c rd ra rb) c
    { cause := causeDevice, xinfo := BitVec.ofNat 64 (((s.core c).get rb).toNat % 2 ^ 32) } s := by
  have hx : (((s.core c).get rb).setWidth 32).setWidth 64 = BitVec.ofNat 64 (((s.core c).get rb).toNat % 2 ^ 32) := by
    apply BitVec.eq_of_toNat_eq
    simp
  refine (congrArg Host.Outcome.next (h.instr (by simp [hf]) ..)).trans ?_
  simp only [hm.granted, hx, dif_neg (Nat.not_lt.mpr hr)]
  exact congrArg Host.Outcome.next (s.conclude_fault s c 4 rfl)

end Push

end Sys2Proof.Machine

open Sys2Proof Sys2Proof.Machine in
/-- Settles O23: a core that is due and awake is the same after the reads of the image, so that the push is under its phase tag and its
ticket reaches rd. -/
theorem primAndMoveQueueDescriptors : Obligations.PrimAndMoveQueueDescriptors := by
  intro s c rd ra rb ws u h hf k image q t tm
  have hphase : ∀ n, image n → (u.core c).phase = k.phase := fun n hi => by
    rw [(s.readImage_coreKept c c _ n hi).core h.awake]
  refine ⟨fun hm hi hr hq => ?_, fun hm hi hfull => ?_, fun hb hm hi hr hq => ?_, fun hb hm hi hfull => ?_,
    exec_prim_traps_priv h hf, exec_move_traps_priv h hf, exec_move_traps_device h hf⟩
  · obtain ⟨ht, hqueue, hnext, hregs, hmem⟩ := State.primPush_of_room c ws hr hq
    have hx := exec_prim_of_image (rd := rd) h hf hm hi
    rw [ht] at hx
    refine ⟨_, hx, ?_, hnext, hregs, hmem⟩
    rw [hqueue, hphase 3 hi]
  · have hx := exec_prim_of_image (rd := rd) h hf hm hi
    rwa [State.primPush_of_full c ws hfull] at hx
  · obtain ⟨ht, hqueue, hnext, hregs, hmem⟩ := State.movPush_of_room c ⟨_, hb⟩ ws hr hq
    have hx := exec_move_of_image (rd := rd) h hf hb hm hi
    rw [ht] at hx
    refine ⟨_, hx, ?_, hnext, hregs, hmem⟩
    rw [hqueue, hphase 1 hi]
  · have hx := exec_move_of_image (rd := rd) h hf hb hm hi
    rwa [State.movPush_of_full c ⟨_, hb⟩ ws hfull] at hx

end

section
/-! SUPPORT. The pair of `PRIM_MAP` in force (R109), and the head descriptor of the Primary queue (R127, R173, R174, R189, R195). -/

namespace Sys2Proof.Machine

open Sys2Proof

/-! ### The map in force -/

/-- R18: both fields of the pair of `PRIM_MAP` agree with their complements. -/
def State.mapAgrees (s : State) (cell : Nat) : Prop :=
  s.fld F.PRIM_MAP_SPARE_ROW cell + s.fld F.PRIM_MAP_C_SPARE_ROW_C cell = 31 ∧
    s.fld F.PRIM_MAP_SPARE_COL cell + s.fld F.PRIM_MAP_C_SPARE_COL_C cell = 31

/-- R109: the quarter cell is OFF, and the map written is one that the array has. -/
def State.mapOpen (s : State) (cell : Nat) : Prop :=
  s.cellState cell = 0 ∧ s.fld F.PRIM_MAP_SPARE_ROW cell ≤ 16 ∧ s.fld F.PRIM_MAP_SPARE_COL cell ≤ 16

theorem State.mapTake_of_agree {s : State} {cell : Nat} (ha : s.mapAgrees cell) : s.mapTake cell =
    if s.cellState cell = 0 ∧ s.fld F.PRIM_MAP_SPARE_ROW cell ≤ 16 ∧ s.fld F.PRIM_MAP_SPARE_COL cell ≤ 16 then
      (s.setFld F.PRIM_MAP_ROW_IN_FORCE cell (s.fld F.PRIM_MAP_SPARE_ROW cell)).setFld F.PRIM_MAP_COL_IN_FORCE cell
        (s.fld F.PRIM_MAP_SPARE_COL cell)
    else s.recordError cell clsAccess (regAddr .PRIM_MAP cell 0) 0 :=
  if_pos ⟨beq_iff_eq.mpr ha.1, beq_iff_eq.mpr ha.2⟩

/-- R109: the map written comes into force. -/
theorem State.mapTake_of_open {s : State} {cell : Nat} (hc : cell < 0x10000) (ha : s.mapAgrees cell) (ho : s.mapOpen cell) :
    (s.mapTake cell).fld F.PRIM_MAP_ROW_IN_FORCE cell = s.fld F.PRIM_MAP_SPARE_ROW cell ∧
    (s.mapTake cell).fld F.PRIM_MAP_COL_IN_FORCE cell = s.fld F.PRIM_MAP_SPARE_COL cell ∧
    (s.mapTake cell).fld F.CELL_ERR_STATUS_COUNT cell = s.fld F.CELL_ERR_STATUS_COUNT cell ∧ (s.mapTake cell).mem = s.mem := by
  rw [(State.mapTake_of_agree ha).trans (if_pos ho)]
  obtain ⟨-, hrow, hcol⟩ := ho
  refine ⟨?_, ?_, ?_, by simp⟩
  · rw [State.fld_setFld_of_apart hc _ _ (by decide) (by decide) (by decide), State.fld_setFld _ _ _ _ _ (by decide) (by decide)]
    exact Nat.mod_eq_of_lt (hrow.trans_lt (by decide))
  · rw [State.fld_setFld _ _ _ _ _ (by decide) (by decide)]
    exact Nat.mod_eq_of_lt (hcol.trans_lt (by decide))
  · rw [State.fld_setFld_of_apart hc _ _ (by decide) (by decide) (by decide),
      State.fld_setFld_of_apart hc _ _ (by decide) (by decide) (by decide)]

/-- R109: a map that may not come into force is refused with an error record. -/
theorem State.mapTake_of_not_open {s : State} {cell : Nat} (ha : s.mapAgrees cell) (ho : ¬ s.mapOpen cell) :
    s.mapTake cell = s.recordError cell clsAccess (regAddr .PRIM_MAP cell 0) 0 :=
  (State.mapTake_of_agree ha).trans (if_neg ho)

/-- R109: what a write that leaves the pair as in s brings into force. -/
theorem State.mapTake_spec {cell : Nat} (hc : cell < 0x10000) (s : State) :
    let t := s.mapTake cell
    t.mem = s.mem ∧
    (s.mapAgrees cell → s.mapOpen cell → t.fld F.PRIM_MAP_ROW_IN_FORCE cell = s.fld F.PRIM_MAP_SPARE_ROW cell ∧
      t.fld F.PRIM_MAP_COL_IN_FORCE cell = s.fld F.PRIM_MAP_SPARE_COL cell) ∧
    (¬ (s.mapAgrees cell ∧ s.mapOpen cell) → t.fld F.PRIM_MAP_ROW_IN_FORCE cell = s.fld F.PRIM_MAP_ROW_IN_FORCE cell ∧
      t.fld F.PRIM_MAP_COL_IN_FORCE cell = s.fld F.PRIM_MAP_COL_IN_FORCE cell) ∧
    (s.mapAgrees cell → ¬ s.mapOpen cell → s.flag F.CELL_ERR_STATUS_VALID cell = false →
      t.flag F.CELL_ERR_STATUS_VALID cell = true ∧ t.fld F.CELL_ERR_STATUS_CLASS cell = 0x01) ∧
    (¬ s.mapAgrees cell ∨ s.mapOpen cell → t.fld F.CELL_ERR_STATUS_COUNT cell = s.fld F.CELL_ERR_STATUS_COUNT cell) := by
  by_cases ha : s.mapAgrees cell
  · by_cases ho : s.mapOpen cell
    · obtain ⟨hrow, hcol, hcount, hmem⟩ := State.mapTake_of_open hc ha ho
      exact ⟨hmem, fun _ _ => ⟨hrow, hcol⟩, fun h => absurd ⟨ha, ho⟩ h, fun _ h => absurd ho h, fun _ => hcount⟩
    · dsimp only
      rw [State.mapTake_of_not_open ha ho]
      refine ⟨by simp, fun _ h => absurd h ho, fun _ => ⟨?_, ?_⟩, fun _ _ hv => ?_, fun h => absurd h (by simp [ha, ho])⟩
      · exact State.recordError_fld_of_apart hc s (by decide) (by decide) ..
      · exact State.recordError_fld_of_apart hc s (by decide) (by decide) ..
      · obtain ⟨hvalid, hcls, -⟩ := State.recordError_first hc hv clsAccess (regAddr .PRIM_MAP cell 0) 0
        exact ⟨hvalid, hcls⟩
  · have ht : s.mapTake cell = s := State.mapTake_of_disagree (not_and_or.mp ha)
    dsimp only
    rw [ht]
    exact ⟨rfl, fun h => absurd h ha, fun _ => ⟨rfl, rfl⟩, fun h => absurd h ha, fun _ => rfl⟩

theorem mapFlds_in_mapReg : ∀ f ∈ mapFlds, ∀ compl, f.reg = mapReg compl ∨ f.reg.apart (mapReg compl) = true := by
  decide

/-- R109: a write of the pair changes the two fields of its register. -/
theorem State.fld_putFields_map {cell : Nat} (hc : cell < 0x10000) (s : State) (compl : Bool) (v : Nat) {f : Fld} (hf : f ∈ mapFlds) :
    (s.putFields (mapReg compl) cell 0 v).fld f cell = if f.reg = mapReg compl then bitsOf v f.hi f.lo else s.fld f cell := by
  rcases mapFlds_in_mapReg f hf compl with h | h
  · rw [if_pos h, ← h]
    exact s.fld_putFields (mapFlds_apart f hf).1 cell 0 v
  · rw [if_neg (by rintro e; simp [e, RegId.apart] at h), State.fld_putFields_of_apart hc s v h]

/-- R109: the two fields and their complements after a write of the pair. -/
theorem State.flds_putFields_map {cell : Nat} (hc : cell < 0x10000) (s : State) (compl : Bool) (v : Nat) :
    let u := s.putFields (mapReg compl) cell 0 v
    u.fld F.PRIM_MAP_SPARE_ROW cell = (if compl then s.fld F.PRIM_MAP_SPARE_ROW cell else v % 32) ∧
    u.fld F.PRIM_MAP_SPARE_COL cell = (if compl then s.fld F.PRIM_MAP_SPARE_COL cell else v / 256 % 32) ∧
    u.fld F.PRIM_MAP_C_SPARE_ROW_C cell = (if compl then v % 32 else s.fld F.PRIM_MAP_C_SPARE_ROW_C cell) ∧
    u.fld F.PRIM_MAP_C_SPARE_COL_C cell = (if compl then v / 256 % 32 else s.fld F.PRIM_MAP_C_SPARE_COL_C cell) := by
  have h := fun f hf => s.fld_putFields_map hc compl v (f := f) hf
  refine ⟨(h _ (by decide)).trans ?_, (h _ (by decide)).trans ?_, (h _ (by decide)).trans ?_, (h _ (by decide)).trans ?_⟩ <;>
    cases compl <;> simp [F.PRIM_MAP_SPARE_ROW, F.PRIM_MAP_SPARE_COL, F.PRIM_MAP_C_SPARE_ROW_C, F.PRIM_MAP_C_SPARE_COL_C, mapReg, bitsOf]

/-- R109: a write of the pair of `PRIM_MAP` leaves the map in force, the errors and the state of the quarter cell. -/
theorem State.putFields_map {q : Nat} (hq : q < 4) (s : State) (compl : Bool) (v : Nat) :
    let cell := quarterCell q
    let u := s.putFields (mapReg compl) cell 0 v
    u.cellState cell = s.cellState cell ∧ u.flag F.CELL_ERR_STATUS_VALID cell = s.flag F.CELL_ERR_STATUS_VALID cell ∧
      ∀ f ∈ [F.PRIM_MAP_ROW_IN_FORCE, F.PRIM_MAP_COL_IN_FORCE, F.CELL_ERR_STATUS_COUNT], u.fld f cell = s.fld f cell := by
  have hpath : ∀ q < 4, ∀ c ∈ cellPath (quarterCell q), c < 0x10000 ∧ kindOf c ≠ 0x14 := by decide
  have hc := lt_of_cellKind (quarterCell_has_map q hq).1
  refine ⟨State.pathState_congr (s.setReg_life (by cases compl <;> decide) ..) (hpath q hq), ?_, ?_⟩
  · unfold State.flag
    rw [State.fld_putFields_of_apart hc s v (by cases compl <;> decide)]
  · simp only [List.forall_mem_cons, List.not_mem_nil, false_imp_iff, implies_true, and_true]
    cases compl
    · exact ⟨s.fld_putFields (f := F.PRIM_MAP_ROW_IN_FORCE) (ty := .ro) (by decide) _ 0 v,
        s.fld_putFields (f := F.PRIM_MAP_COL_IN_FORCE) (ty := .ro) (by decide) _ 0 v, State.fld_putFields_of_apart hc s v (by decide)⟩
    · exact ⟨State.fld_putFields_of_apart hc s v (by decide), State.fld_putFields_of_apart hc s v (by decide),
        State.fld_putFields_of_apart hc s v (by decide)⟩

theorem exec_primMapWrite {s : State} {g : Agent} {q : Fin 4} {compl : Bool} {v : Nat}
    (hw : s.Writable g (mapReg compl) (quarterCell q.val) 0 v) : exec (.primMapWrite g q compl v) s =
      .next ((s.putFields (mapReg compl) (quarterCell q.val) 0 v).mapTake (quarterCell q.val)).noteLevels := by
  have hr : mapReg compl ∈ rwpRegs := by cases compl <;> decide
  have hcommit : ∀ (u : State) c, u.rwpCommit (mapReg compl) c = u.mapTake c := fun u c => if_pos (by cases compl <;> simp [mapReg])
  change execPrimMapWrite g q compl v s = _
  unfold execPrimMapWrite
  rw [show (if compl then RegId.PRIM_MAP_C else .PRIM_MAP) = mapReg compl from rfl, hw.nameWrite, s.regEffect_rwp g hr, hcommit]

/-! ### The head descriptor -/

/-- R173: every code of a check before the table. -/
theorem State.primChecks_lt (s : State) (d : PrimDesc) : (s.primChecks d).1 < 2 ^ 8 := by
  have hcode : ∀ k < 2 ^ 8, ∀ l : List Nat, (k, l).1 < 2 ^ 8 := fun _ h _ => h
  have hite : ∀ (c : Prop) [Decidable c] (p q : Nat × List Nat), p.1 < 2 ^ 8 → q.1 < 2 ^ 8 → (if c then p else q).1 < 2 ^ 8 := by
    intro c _ p q hp hq
    split <;> assumption
  unfold State.primChecks
  dsimp only
  repeat' first | exact hcode _ (by decide) _ | apply hite

/-- R174: a refused descriptor waits for its completion, with the refusal recorded. -/
theorem State.primRefuse_spec (s : State) (d : PrimDesc) {code : Nat} (hcode : code < 2 ^ 8) (bases : List Nat) (accepted : Nat) :
    let t := s.primRefuse d code bases accepted
    t.prim = { s.prim with done := s.prim.done ++ [{ desc := d, acceptTime := accepted, status := primProtocol, refuse := code }] } ∧
      t.mem = s.mem ∧ (s.flag F.CELL_ERR_STATUS_VALID qnwPrim = false → t.fld F.CELL_ERR_STATUS_CLASS qnwPrim = 0x06 ∧
        t.fld F.CELL_ERR_INFO_INFO qnwPrim = code + d.ticket % 2 ^ 24 * 2 ^ 8) := by
  unfold State.primRefuse
  dsimp only
  set addr := bases.getD ((s.free 8).1.toNat % bases.length) 0
  have hprim := ((s.free 8).2.recordError_memFrame (c := qnwPrim) (by decide) clsProtocol addr (code + d.ticket % 2 ^ 24 * 2 ^ 8)).prim
  refine ⟨by rw [State.setPrim_prim, hprim]; rfl, by simp, fun hv => ?_⟩
  obtain ⟨-, hcls, hinfo⟩ := State.recordError_first (s := (s.free 8).2) (cell := qnwPrim) (by decide) hv clsProtocol addr
    (code + d.ticket % 2 ^ 24 * 2 ^ 8)
  refine ⟨hcls, hinfo.trans (Nat.mod_eq_of_lt ?_)⟩
  have := Nat.mod_lt d.ticket (show 2 ^ 24 > 0 by decide)
  omega

/-- R55: a change of the Primary's own state leaves the cells. -/
theorem State.setPrim_enabled (s : State) (p : PrimState) (c : Nat) : (s.setPrim p).enabled c = s.enabled c := by
  have hpath : ∀ l, (s.setPrim p).pathState l = s.pathState l := fun l => by
    induction l with
    | nil => rfl
    | cons a l ih =>
      rw [State.pathState, State.pathState, ih]
      rfl
  unfold State.enabled State.cellState
  rw [hpath]
  rfl

/-- The Primary with another queue and other marks of its head. -/
def State.withHead (s : State) (queue : List PrimDesc) (darkFrame : Bool) (prefetch staged : Option Nat) : State :=
  s.setPrim { s.prim with queue := queue, darkFrame := darkFrame, prefetch := prefetch, staged := staged }

section Head
variable (s : State) (d : PrimDesc) (queue : List PrimDesc) (darkFrame : Bool) (prefetch staged : Option Nat)

theorem State.misplaced_withHead : (s.withHead queue darkFrame prefetch staged).misplaced d = s.misplaced d := (rfl)

theorem State.accMatches_withHead : (s.withHead queue darkFrame prefetch staged).accMatches d = s.accMatches d := (rfl)

theorem State.loopMatches_withHead : (s.withHead queue darkFrame prefetch staged).loopMatches d = s.loopMatches d := (rfl)

theorem State.sourceOk_withHead : (s.withHead queue darkFrame prefetch staged).sourceOk d = s.sourceOk d := by
  have hopen : ∀ n, (s.withHead queue darkFrame prefetch staged).colOpenSlot n = s.colOpenSlot n := fun _ => rfl
  have hslot : ∀ n, (s.withHead queue darkFrame prefetch staged).colSlot n = s.colSlot n := fun _ => rfl
  have hen : ∀ c, (s.withHead queue darkFrame prefetch staged).enabled c = s.enabled c := s.setPrim_enabled _
  simp only [State.sourceOk, hopen, hslot, hen]

/-- R173: the checks of a descriptor do not depend on the queue, nor on the marks of its head. -/
theorem State.primChecks_withHead : (s.withHead queue darkFrame prefetch staged).primChecks d = s.primChecks d := by
  unfold State.primChecks
  rw [State.misplaced_withHead, State.accMatches_withHead, State.loopMatches_withHead, State.sourceOk_withHead]

end Head

/-- R127, R163: an operation that uses no activation table and passes its last checks enters its start latency. -/
theorem State.primCheckOn_of_not_actUsed {s : State} {op : PrimOp} (ha : op.desc.actUsed = false)
    (hl : ∀ table, (op.desc.lateChecks table).1 = 0) :
    ∃ op' : PrimOp, s.primCheckOn op = s.primStart op' ∧ op'.desc = op.desc ∧ op'.acceptTime = op.acceptTime ∧
      op'.occupies = op.occupies := by
  unfold State.primCheckOn
  dsimp only
  rw [if_neg (by simp [ha]), if_neg (by simp [ha]), if_neg (by simp [hl]), if_neg (by simp [ha])]
  exact ⟨_, rfl, rfl, rfl, rfl⟩

/-- R124, R163: what the start of an operation leaves. -/
theorem State.primStart_spec (s : State) (op : PrimOp) :
    (s.primStart op).prim.op = some op ∧ (s.primStart op).prim.queue = s.prim.queue ∧ (s.primStart op).prim.done = s.prim.done ∧
      MemKept s (s.primStart op) ∧ (op.desc.isMatmul = true → (s.primStart op).flag F.PRIM_ACC_STATUS_RETAINED qnwPrim = false) := by
  unfold State.primStart
  dsimp only
  split
  · refine ⟨rfl, by simp, by simp, by simp [MemKept], fun _ => ?_⟩
    have hreg : ∀ (u : State) p, (u.setPrim p).reg .PRIM_ACC_STATUS qnwPrim = u.reg .PRIM_ACC_STATUS qnwPrim := fun _ _ => rfl
    simp [State.flag, State.fld, F.PRIM_ACC_STATUS_RETAINED, hreg, bitsOf]
  · next h => exact ⟨rfl, rfl, rfl, .refl s, fun hm => absurd hm h⟩

theorem State.op_of_canAccept {s : State} (h : s.canAccept = true) : s.prim.op = none := by
  simp only [State.canAccept, Bool.and_eq_true, Option.isNone_iff_eq_none] at h
  exact h.2

/-- R127, R173: the head descriptor is taken. -/
theorem exec_primAccept_of_head {s : State} {d : PrimDesc} {rest : List PrimDesc} (hq : s.prim.queue = d :: rest)
    (hc : s.canAccept = true) : exec .primAccept s = .next (s.primTake d rest).noteLevels := by
  change execPrimAccept s = _
  simp [execPrimAccept, State.op_of_canAccept hc, hq, hc]

/-- R127: an acceptance that finds no head it can take, and no checks that wait. -/
theorem exec_primAccept_idle {s : State} {d : PrimDesc} {rest : List PrimDesc} (hq : s.prim.queue = d :: rest)
    (hc : s.canAccept = false) (ho : ∀ op, s.prim.op = some op → op.checking = false) : exec .primAccept s = .next s := by
  change execPrimAccept s = _
  unfold execPrimAccept
  cases hop : s.prim.op with
  | none => simp [hq, hc]
  | some op => simp [ho op hop]

/-- The Primary once the op sequencer has taken its head d from the queue. -/
def State.headTaken (s : State) (d : PrimDesc) (rest : List PrimDesc) : State :=
  s.withHead rest false (if s.prim.prefetch = some d.ticket then none else s.prim.prefetch)
    (if s.prim.staged = some d.ticket then none else s.prim.staged)

theorem State.primTake_eq (s : State) (d : PrimDesc) (rest : List PrimDesc) :
    let u := s.headTaken d rest
    let op := u.primOp d (s.feedStatus % 2 == 1)
    s.primTake d rest =
      if (s.primChecks d).1 ≠ 0 then u.primTurnAway op (s.primChecks d).1 (s.primChecks d).2 else u.primCheckOn op := by
  have h : s.primTake d rest =
      if ((s.headTaken d rest).primChecks d).1 ≠ 0 then
        (s.headTaken d rest).primTurnAway ((s.headTaken d rest).primOp d (s.feedStatus % 2 == 1))
          ((s.headTaken d rest).primChecks d).1 ((s.headTaken d rest).primChecks d).2
      else (s.headTaken d rest).primCheckOn ((s.headTaken d rest).primOp d (s.feedStatus % 2 == 1)) := rfl
  rwa [State.headTaken, State.primChecks_withHead] at h

/-- R129, R174: a head that fails a check. -/
theorem State.primTurnAway_spec (s : State) (op : PrimOp) {code : Nat} (hcode : code < 2 ^ 8) (bases : List Nat) :
    ∃ p, (s.primTurnAway op code bases).prim.queue = s.prim.queue ∧ (s.primTurnAway op code bases).prim.op = none ∧
      (s.primTurnAway op code bases).prim.done = s.prim.done ++ [p] ∧ p.desc = op.desc ∧ p.status = 1 ∧ p.refuse = code ∧
      (s.primTurnAway op code bases).mem = s.mem ∧
      (s.flag F.CELL_ERR_STATUS_VALID qnwPrim = false → (s.primTurnAway op code bases).fld F.CELL_ERR_STATUS_CLASS qnwPrim = 0x06 ∧
        (s.primTurnAway op code bases).fld F.CELL_ERR_INFO_INFO qnwPrim = code + op.desc.ticket % 2 ^ 24 * 2 ^ 8) := by
  unfold State.primTurnAway
  obtain ⟨hprim, hmem, herr⟩ := State.primRefuse_spec (s.setPrim { s.prim with
    op := none, preload := if s.prim.preload = some op.desc.ticket then none else s.prim.preload }) op.desc hcode bases op.acceptTime
  exact ⟨_, by rw [hprim]; rfl, by rw [hprim]; rfl, by rw [hprim]; rfl, rfl, rfl, rfl, hmem, herr⟩

end Sys2Proof.Machine

open Sys2Proof Sys2Proof.Machine in
/-- Settles O24: a write of `PRIM_MAP` brings its map into force or refuses it, and the acceptance refuses its head with the code of the
checks of R173 or starts it. -/
theorem primaryTakesItsHeadDescriptor : Obligations.PrimaryTakesItsHeadDescriptor := by
  constructor
  · intro s g q compl v cell r hw row col rowC colC agree open_
    set u := s.putFields (mapReg compl) cell 0 v
    have hc := lt_of_cellKind (quarterCell_has_map q.val q.isLt).1
    obtain ⟨hstate, hvalid, hkept⟩ := s.putFields_map q.isLt compl v
    obtain ⟨hrow, hcol, hrowC, hcolC⟩ := s.flds_putFields_map hc compl v
    obtain ⟨hput, -⟩ := s.putFields_memKept (mapReg compl) cell 0 v
    obtain ⟨hmem, htake, hstay, hrefuse, hquiet⟩ := u.mapTake_spec hc
    have hagree : u.mapAgrees cell ↔ agree := by
      unfold State.mapAgrees
      rw [hrow, hcol, hrowC, hcolC]
    have hopen : u.mapOpen cell ↔ open_ := by
      unfold State.mapOpen
      rw [hstate, hrow, hcol]
    rw [hagree, hopen] at htake hstay hrefuse hquiet
    rw [hrow, hcol] at htake
    rw [hkept _ (by decide), hkept _ (by decide)] at hstay
    rw [hvalid] at hrefuse
    rw [hkept _ (by decide)] at hquiet
    exact ⟨_, exec_primMapWrite hw, hmem.trans hput, htake, hstay, hrefuse, hquiet⟩
  · intro s d rest hs hq code
    refine ⟨?_, ?_, ?_, ?_, ?_, ?_⟩
    · exact exec_primAccept_idle hq
    · intro hc _ hcode
      obtain ⟨p, hqueue, hop, hdone, hd, hst, href, hmem, herr⟩ := State.primTurnAway_spec (s.headTaken d rest)
        ((s.headTaken d rest).primOp d (s.feedStatus % 2 == 1)) (s.primChecks_lt d) (s.primChecks d).2
      refine ⟨_, p, exec_primAccept_of_head hq hc, ?_⟩
      rw [(s.primTake_eq d rest).trans (if_pos hcode)]
      exact ⟨hqueue, hop, hdone, hd, hst, href, hmem, herr⟩
    · intro hc ha hcode hl
      obtain ⟨op, hcheck, hd, htime, hocc⟩ := State.primCheckOn_of_not_actUsed (s := s.headTaken d rest)
        (op := (s.headTaken d rest).primOp d (s.feedStatus % 2 == 1)) ha hl
      obtain ⟨hop, hqueue, hdone, hmem, hret⟩ := (s.headTaken d rest).primStart_spec op
      refine ⟨_, op, exec_primAccept_of_head hq hc, ?_⟩
      rw [(s.primTake_eq d rest).trans (if_neg (not_not.mpr hcode)), hcheck]
      exact ⟨hqueue, hop, hd, htime, hocc, hdone, hmem, fun hm => hret (hd ▸ hm)⟩
    · intro hb hm
      change execPrimPreload s = _
      simp [execPrimPreload, hs, hq, hb, hm]
    · intro hn hr hbe
      change execPrefetch s = _
      simp [execPrefetch, hs, hq, State.canPrefetch, hn, hr, hbe]
    · intro hp hc
      refine ⟨_, ?_, rfl, ?_⟩
      · change execHeadStaged s = _
        simp [execHeadStaged, hs, hq, hp, hc]
      · simp [State.feedStatus, hq]
end

section
/-! SUPPORT. PAUSE and FLUSH of the queues (R137, R138, R198, R309, R310), and the rings (R188, R192, R600). -/

namespace Sys2Proof.Machine

open Sys2Proof

/-! ### What a write of a control register sets off -/

/-- R138, R198, R310: a write of PAUSE alone. -/
theorem bitsOf_pause (p : Bool) : bitsOf p.toNat 0 0 = p.toNat ∧ bitsOf p.toNat 1 1 = 0 := by
  cases p <;> decide

/-- R137, R198, R309: a write of FLUSH, with PAUSE. -/
theorem bitsOf_flush (p : Bool) : bitsOf (p.toNat + 2) 0 0 = p.toNat ∧ bitsOf (p.toNat + 2) 1 1 = 1 := by
  cases p <;> decide

theorem bitsOf_word (n : BitVec 32) : bitsOf n.toNat 31 0 = n.toNat := by
  rw [bitsOf, Nat.pow_zero, Nat.div_one]
  exact Nat.mod_eq_of_lt n.isLt

/-- R14: a one-bit field of type RW takes the bit written. -/
theorem State.flag_putFields (s : State) {f : Fld} (h : f.hasType .rw = true) (cell : Nat) {v : Nat} {p : Bool}
    (hv : bitsOf v f.hi f.lo = p.toNat) : (s.putFields f.reg cell 0 v).flag f cell = p := by
  unfold State.flag
  rw [State.fld_putFields s h, hv]
  cases p <;> rfl

/-- R137, R138, R198, R309, R310: what a write of the control register of a queue comes to. -/
theorem State.regEffect_primCtrl (s : State) (g : Agent) (cell v : Nat) : s.regEffect g .PRIM_QUEUE_CTRL cell 0 v =
    if bitsOf v 1 1 = 1 then (s.putFields .PRIM_QUEUE_CTRL cell 0 v).primFlush else s.putFields .PRIM_QUEUE_CTRL cell 0 v := by
  simp [State.regEffect]

theorem State.regEffect_movCtrl (s : State) (g : Agent) (cell v : Nat) : s.regEffect g .MOV_QUEUE_CTRL cell 0 v =
    if bitsOf v 1 1 = 1 then (s.putFields .MOV_QUEUE_CTRL cell 0 v).movFlush (moverOf cell) else s.putFields .MOV_QUEUE_CTRL cell 0 v := by
  simp [State.regEffect]

theorem State.regEffect_gclCtrl (s : State) (g : Agent) (cell v : Nat) : s.regEffect g .GCL_QUEUE_CTRL cell 0 v =
    if bitsOf v 1 1 = 1 then (s.putFields .GCL_QUEUE_CTRL cell 0 v).flushCluster (clusterOf cell)
    else s.putFields .GCL_QUEUE_CTRL cell 0 v := by
  simp [State.regEffect]

/-- R198: the cell of a mover names it. -/
theorem moverOf_moverCell : ∀ m : Fin 64, moverOf (moverCell m.val) = m.val := by decide

/-- R309: the cell of a cluster names it. -/
theorem clusterOf_clusterCell : ∀ k : Fin 16, clusterOf (clusterCell k.val) = k.val := by decide

theorem MemKept.noteLevels {s t : State} (h : MemKept s t) : MemKept s t.noteLevels := h

theorem RegsKept.noteLevels {s t : State} {l : List Nat} (h : RegsKept s t l) : RegsKept s t.noteLevels l := h

/-- A write that only takes the fields of its register. -/
theorem State.Writable.nameWrite_fields {s : State} {g : Agent} {r : RegId} {cell v : Nat} (hw : s.Writable g r cell 0 v)
    (he : s.regEffect g r cell 0 v = s.putFields r cell 0 v) : s.nameWrite g r cell 0 v = (s.putFields r cell 0 v).noteLevels := by
  rw [hw.nameWrite, he]

@[simp] theorem State.putFields_prim (s : State) (r : RegId) (cell i v : Nat) : (s.putFields r cell i v).prim = s.prim := by
  simp [State.putFields]

@[simp] theorem State.putFields_movers (s : State) (r : RegId) (cell i v : Nat) : (s.putFields r cell i v).movers = s.movers := by
  simp [State.putFields]

@[simp] theorem State.putFields_clusters (s : State) (r : RegId) (cell i v : Nat) : (s.putFields r cell i v).clusters = s.clusters := by
  simp [State.putFields]

/-- R14: a write that sets nothing off, to a register with a one-bit field of type RW. -/
theorem State.Writable.takes_flag {s : State} {g : Agent} {f : Fld} {cell v : Nat} {p : Bool} (hw : s.Writable g f.reg cell 0 v)
    (he : s.regEffect g f.reg cell 0 v = s.putFields f.reg cell 0 v) (ht : f.hasType .rw = true) (hv : bitsOf v f.hi f.lo = p.toNat) :
    let t := (s.putFields f.reg cell 0 v).noteLevels
    s.nameWrite g f.reg cell 0 v = t ∧ t.flag f cell = p ∧ t.prim = s.prim ∧ t.movers = s.movers ∧ t.clusters = s.clusters ∧
      RegsKept s t [regAddr f.reg cell 0] ∧ MemKept s t :=
  ⟨hw.nameWrite_fields he, s.flag_putFields ht cell hv, by simp, by simp, by simp, (s.putFields_regsKept _ _ _ _).noteLevels,
    (s.putFields_memKept ..).noteLevels⟩

/-! ### The flushes -/

/-- R137: a flush of the Primary queue. -/
theorem State.primFlush_spec (s : State) : s.primFlush.prim.queue = [] ∧ s.primFlush.prim.op = s.prim.op ∧
    (∃ l, s.primFlush.prim.done = s.prim.done ++ l ∧ l.map PrimDone.desc = s.prim.queue ∧ ∀ d ∈ l, d.status = 2) ∧
    (∀ f cell, s.primFlush.flag f cell = s.flag f cell) ∧ MemKept s s.primFlush := by
  refine ⟨rfl, rfl, ⟨_, rfl, by simp [Function.comp_def], fun d hd => ?_⟩, fun _ _ => rfl, .refl s⟩
  obtain ⟨q, -, rfl⟩ := List.mem_map.mp hd
  rfl

/-- R198: a flush of a mover's queue. -/
theorem State.movFlush_spec (s : State) (m : Nat) : ((s.movFlush m).mover m).queue = [] ∧
    ((s.movFlush m).mover m).run = (s.mover m).run ∧ ((s.movFlush m).mover m).flushed = (s.mover m).flushed ++ (s.mover m).queue ∧
    (∀ f cell, (s.movFlush m).flag f cell = s.flag f cell) ∧ MemKept s (s.movFlush m) := by
  have hm : (s.movFlush m).mover m = { s.mover m with queue := [], flushed := (s.mover m).flushed ++ (s.mover m).queue } := by
    simp [State.movFlush, State.mover, State.setMover, smapGet_set]
  rw [hm]
  exact ⟨rfl, rfl, rfl, fun _ _ => rfl, .refl s⟩

/-- R309: a flush of a cluster's queue counts its items and discards them. -/
theorem State.flushCluster_spec (s : State) (k : Nat) : (s.flushCluster k).clusterQueue k = [] ∧
    (∀ f cell, f.reg.isPhot = false → (s.flushCluster k).flag f cell = s.flag f cell) ∧ MemKept s (s.flushCluster k) := by
  unfold State.flushCluster
  obtain ⟨p, hp⟩ := State.PhotOnly.foldl (f := fun s w => s.count (clusterCell k) (evOf 0x17 1) (some (itemSource w)))
    (fun s w => s.count_photOnly ..) (s.clusterQueue k) s
  dsimp only
  rw [hp]
  refine ⟨by simp [State.clusterQueue, State.setClusterQueue, smapGet_set], fun f cell hf => ?_, .refl s⟩
  simp [State.flag, State.fld, State.reg, State.setClusterQueue, hf]

/-! ### The rings -/

theorem smapGet_filter_of_not {α : Type} {d : Nat → α} {m : SMap α} (q : Nat → Bool) {k : Nat} (hk : q k = false) :
    smapGet d (m.filter fun p => q p.1) k = d k := by
  induction m with
  | nil => rfl
  | cons p m ih =>
    obtain ⟨a, w⟩ := p
    by_cases hq : q a = true
    · have hne : a ≠ k := by
        rintro rfl
        simp [hq] at hk
      rw [List.filter_cons_of_pos (by simpa using hq), smapGet, if_neg hne, ih]
    · rw [List.filter_cons_of_neg (by simpa using hq), ih]

/-- R600: the lines from lo to hi become invalid, and no other line changes. -/
theorem State.clearMem_spec (s : State) {lo hi : Nat} (hlo : lo % 64 = 0) (hhi : hi % 64 = 0) (a : Nat) :
    (lo ≤ a ∧ a < hi → (s.clearMem lo hi).byte a = 0 ∧ (s.clearMem lo hi).lineValid (lineOf a) = false) ∧
    (¬ (lo ≤ a ∧ a < hi) →
      (s.clearMem lo hi).byte a = s.byte a ∧ (s.clearMem lo hi).lineValid (lineOf a) = s.lineValid (lineOf a)) := by
  have hl : lineOf a = a - a % 64 := rfl
  let keepLine := fun la => decide (la < lo ∨ hi ≤ la)
  have hkeep : keepLine (lineOf a) = !decide (lo ≤ a ∧ a < hi) := by
    rw [← decide_not, decide_eq_decide]
    omega
  constructor
  · intro h
    have hk : keepLine (lineOf a) = false := by simp [hkeep, h]
    exact ⟨smapGet_filter_of_not (fun b => keepLine (lineOf b)) hk, smapGet_filter_of_not keepLine hk⟩
  · intro h
    have hk : keepLine (lineOf a) = true := by rw [hkeep, decide_eq_false h]; rfl
    exact ⟨smapGet_filter (fun b => keepLine (lineOf b)) hk, smapGet_filter keepLine hk⟩

theorem State.clearMem_flag (s : State) (lo hi : Nat) (f : Fld) (cell : Nat) : (s.clearMem lo hi).flag f cell = s.flag f cell := (rfl)

theorem ringRange_aligned : ∀ q : Fin 4, (ringRange q.val).1 % 64 = 0 ∧ (ringRange q.val).2 % 64 = 0 := by decide

/-- R188: a change of RING_EN takes effect. -/
theorem exec_ringChangeTakeEffect {s : State} {q : Fin 4} (hs : s.stopped = false) (hq : s.prim.queue = []) (hb : s.primBusy = false)
    (hwb : s.prim.wb = [])
    (hne : s.flag F.PLT_RING_CTRL_RING_EN (platesCell q.val) ≠ s.flag F.PLT_RING_CTRL_EN_IN_FORCE (platesCell q.val)) :
    exec (.ringChangeTakeEffect q) s = .next ((s.setFlag F.PLT_RING_CTRL_EN_IN_FORCE (platesCell q.val)
      (s.flag F.PLT_RING_CTRL_RING_EN (platesCell q.val))).clearMem (ringRange q.val).1 (ringRange q.val).2) := by
  change execRingChangeTakeEffect q s = _
  rw [execRingChangeTakeEffect, if_neg (by simp [hs]), State.ringChange, if_neg (by simp [hq, hb, hwb, hne])]

end Sys2Proof.Machine

open Sys2Proof Sys2Proof.Machine in
/-- Settles O25: each write is that of the register named, and a change of a ring clears the lines between the ring's bounds. -/
theorem queueAndRingControls : Obligations.QueueAndRingControls := by
  constructor
  · intro s g p m k q n mc cc pc may
    obtain ⟨hpause, hkeep⟩ := bitsOf_pause p
    have hflush := fun p => (bitsOf_flush p).2
    refine ⟨fun hw => ?_, fun hw => ?_, fun hw => ?_, fun hw => ?_, fun hw => ?_, fun hw => ?_, fun hw => ?_, fun hw => ?_⟩
    · obtain ⟨he, hflag, hprim, -, -, hregs, hmem⟩ := State.Writable.takes_flag (f := F.PRIM_QUEUE_CTRL_PAUSE) hw
        ((s.regEffect_primCtrl ..).trans (if_neg (by simp [hkeep]))) (by decide) hpause
      exact ⟨_, congrArg Host.Outcome.next he, hflag, hprim, hregs, hmem⟩
    · obtain ⟨he, hflag, -, hmovers, -, hregs, hmem⟩ := State.Writable.takes_flag (f := F.MOV_QUEUE_CTRL_PAUSE) hw
        ((s.regEffect_movCtrl ..).trans (if_neg (by simp [hkeep]))) (by decide) hpause
      exact ⟨_, congrArg Host.Outcome.next he, hflag, hmovers, hregs, hmem⟩
    · obtain ⟨he, hflag, -, -, hclusters, hregs, hmem⟩ := State.Writable.takes_flag (f := F.GCL_QUEUE_CTRL_PAUSE) hw
        ((s.regEffect_gclCtrl ..).trans (if_neg (by simp [hkeep]))) (by decide) hpause
      exact ⟨_, congrArg Host.Outcome.next he, hflag, hclusters, hregs, hmem⟩
    · refine ⟨_, congrArg Host.Outcome.next hw.nameWrite, ?_⟩
      rw [State.regEffect_primCtrl, if_pos (hflush _)]
      obtain ⟨hqueue, hop, ⟨l, hdone, hdesc, hst⟩, hflag, hmem⟩ := State.primFlush_spec (s.putFields .PRIM_QUEUE_CTRL qnwPrim 0 _)
      rw [State.putFields_prim] at hop hdone hdesc
      exact ⟨hqueue, hop, ⟨l, hdone, hdesc, hst⟩, (hflag ..).trans
        (s.flag_putFields (f := F.PRIM_QUEUE_CTRL_PAUSE) (by decide) _ (bitsOf_flush _).1),
        ((s.putFields_memKept ..).trans hmem).noteLevels⟩
    · refine ⟨_, congrArg Host.Outcome.next hw.nameWrite, ?_⟩
      rw [State.regEffect_movCtrl, if_pos (hflush _), moverOf_moverCell]
      obtain ⟨hqueue, hrun, hflushed, hflag, hmem⟩ := State.movFlush_spec (s.putFields .MOV_QUEUE_CTRL mc 0 _) m.val
      rw [State.mover, State.mover, State.putFields_movers] at hrun hflushed
      exact ⟨hqueue, hrun, hflushed, (hflag ..).trans
        (s.flag_putFields (f := F.MOV_QUEUE_CTRL_PAUSE) (by decide) _ (bitsOf_flush _).1),
        ((s.putFields_memKept ..).trans hmem).noteLevels⟩
    · refine ⟨_, congrArg Host.Outcome.next hw.nameWrite, ?_⟩
      rw [State.regEffect_gclCtrl, if_pos (hflush _), clusterOf_clusterCell]
      obtain ⟨hqueue, hflag, hmem⟩ := State.flushCluster_spec (s.putFields .GCL_QUEUE_CTRL cc 0 _) k.val
      exact ⟨hqueue, (hflag _ _ rfl).trans
        (s.flag_putFields (f := F.GCL_QUEUE_CTRL_PAUSE) (by decide) _ (bitsOf_flush _).1),
        ((s.putFields_memKept ..).trans hmem).noteLevels⟩
    · obtain ⟨he, hflag, -, -, -, -, hmem⟩ := State.Writable.takes_flag (f := F.PLT_RING_CTRL_RING_EN) hw rfl (by decide) hpause
      exact ⟨_, congrArg Host.Outcome.next he, hflag,
        congrArg (· == 1) (s.fld_putFields (f := F.PLT_RING_CTRL_EN_IN_FORCE) (ty := .ro) (by decide) ..), hmem⟩
    · refine ⟨_, congrArg Host.Outcome.next (hw.nameWrite_fields rfl), ?_, (s.putFields_regsKept _ _ _ _).noteLevels,
        (s.putFields_memKept ..).noteLevels⟩
      rw [State.noteLevels_fld]
      exact (s.fld_putFields (f := F.MOV_NOTICE_COUNT_COUNT) (ty := .rw) (by decide) mc 0 n.toNat).trans (bitsOf_word n)
  · intro s q hs c inRing
    refine ⟨fun hq hb hwb hne => ?_, fun h => ?_, fun l ls hwb hup => ?_⟩
    · have ht := exec_ringChangeTakeEffect hs hq hb hwb hne
      obtain ⟨hlo, hhi⟩ := ringRange_aligned q
      have hclear := State.clearMem_spec (s.setFlag F.PLT_RING_CTRL_EN_IN_FORCE c (s.flag F.PLT_RING_CTRL_RING_EN c)) hlo hhi
      refine ⟨_, ht, ?_, fun a => (hclear a).1, fun a ha => ?_, by simp [State.clearMem]⟩
      · exact (State.clearMem_flag ..).trans (State.flag_setFlag (by decide) s c 0 _)
      · refine ((hclear a).2 ha).imp (fun h => h.trans ?_) (fun h => h.trans ?_)
        · simp [State.byte]
        · simp [State.lineValid]
    · change execRingChangeTakeEffect q s = _
      rw [execRingChangeTakeEffect, if_neg (by simp [hs]), State.ringChange, if_pos (by simpa using .inr h)]
    · change execWriteBehindDrain 1 s = _
      simp [execWriteBehindDrain, hs, State.drain, State.drainOne, hwb, hup]
end

section
/-! SUPPORT. How an operation of the Primary begins, leaves the array, ends and completes (R124 to R133, R149, R162 to R171, R177, R192). -/

namespace Sys2Proof.Machine

open Sys2Proof

/-! ### Counts and free values -/

/-- t differs from s at most in its counts and in how many free values have been taken. -/
def State.Counted (s t : State) : Prop := ∃ n p, t = { s with freeCount := n, phot := p }

theorem State.Counted.refl (s : State) : s.Counted s := ⟨_, _, rfl⟩

theorem State.Counted.trans {s t u : State} (h : s.Counted t) (k : t.Counted u) : s.Counted u := by
  obtain ⟨_, _, rfl⟩ := h
  obtain ⟨_, _, rfl⟩ := k
  exact ⟨_, _, rfl⟩

theorem State.PhotOnly.counted {s t : State} (h : s.PhotOnly t) : s.Counted t := by
  obtain ⟨p, rfl⟩ := h
  exact ⟨_, p, rfl⟩

theorem State.free_counted (s : State) (w : Nat) : s.Counted (s.free w).2 := ⟨_, _, rfl⟩

theorem State.Counted.prim {s t : State} (h : s.Counted t) : t.prim = s.prim := by
  obtain ⟨_, _, rfl⟩ := h
  rfl

theorem State.Counted.memKept {s t : State} (h : s.Counted t) : MemKept s t := by
  obtain ⟨_, _, rfl⟩ := h
  exact ⟨rfl, rfl, rfl, rfl⟩

theorem State.Counted.reg {s t : State} (h : s.Counted t) {r : RegId} (hr : r.isPhot = false) (cell : Nat) :
    t.reg r cell = s.reg r cell := by
  obtain ⟨_, _, rfl⟩ := h
  simp [State.reg, hr]

theorem State.Counted.fld {s t : State} (h : s.Counted t) {f : Fld} (hf : f.reg.isPhot = false) (cell : Nat) :
    t.fld f cell = s.fld f cell := by
  unfold State.fld
  rw [h.reg hf]

theorem State.primCount_counted (s : State) (cyc mult stall bubbles : Nat) : s.Counted (s.primCount cyc mult stall bubbles) :=
  ((((s.count_photOnly ..).trans (State.count_photOnly ..)).trans (State.count_photOnly ..)).trans (State.count_photOnly ..)).counted

theorem State.primStalls_counted (s : State) (op : PrimOp) : s.Counted (s.primStalls op).2 := by
  unfold State.primStalls
  dsimp only
  split
  · exact .refl s
  · exact s.free_counted 64

theorem State.primCycles_counted (s : State) (d : PrimDesc) (stall : Nat) : s.Counted (s.primCycles d stall).2 := s.free_counted 16

theorem State.setFld_memKept (s : State) (f : Fld) (cell v : Nat) : MemKept s (s.setFld f cell v) := by
  simp [MemKept]

theorem State.setReg_memKept (s : State) (r : RegId) (cell : Nat) (v : BitVec 64) : MemKept s (s.setReg r cell v) := by
  simp [MemKept]

theorem State.setPrim_memKept (s : State) (p : PrimState) : MemKept s (s.setPrim p) := .refl s

/-! ### An operation leaves the array -/

/-- R169: the completion of an operation as it leaves the array. -/
def State.leftRecord (s : State) (op : PrimOp) (flags : ArithFlags) : PrimDone :=
  { desc := op.desc, acceptTime := op.acceptTime, status := primOk, flags := flags, poisonLines := op.poisonLines,
    arrayCycles := ((s.primStalls op).2.primCycles op.desc (s.primStalls op).1).1, stallSlots := (s.primStalls op).1,
    posted := op.posted, notices := if op.desc.kind = 4 then 0 else op.desc.noticeCount }

/-- R169: what an operation leaves as it leaves the array. -/
theorem State.primLeave_spec (s : State) (op : PrimOp) (flags : ArithFlags) :
    (s.primLeave op flags).prim = { s.prim with op := none, done := s.prim.done ++ [s.leftRecord op flags] } ∧
      MemKept s (s.primLeave op flags) ∧
      ∀ r : RegId, r.isPhot = false → ∀ cell, (s.primLeave op flags).reg r cell = s.reg r cell := by
  unfold State.primLeave
  dsimp only
  have hu := ((s.primStalls_counted op).trans (State.primCycles_counted _ op.desc (s.primStalls op).1)).trans
    (State.primCount_counted _ ((s.primStalls op).2.primCycles op.desc (s.primStalls op).1).1 op.desc.multSlots (s.primStalls op).1
      op.desc.bubbles)
  generalize State.primCount _ _ _ _ _ = u at hu ⊢
  exact ⟨congrArg (fun x : PrimState => { x with op := none, done := x.done ++ [s.leftRecord op flags] }) hu.prim, hu.memKept,
    fun r hr cell => hu.reg hr cell⟩

/-- R130, R133: a DARK occupies the cycles that its descriptor names, without a stall. -/
theorem State.leftRecord_dark (s : State) {op : PrimOp} (flags : ArithFlags) (hk : op.desc.kind = 4) :
    (s.leftRecord op flags).arrayCycles = op.desc.field 6 31 0 ∧ (s.leftRecord op flags).stallSlots = 0 := by
  simp [State.leftRecord, State.primStalls, State.primCycles, PrimDesc.slots, hk]

/-! ### The order of the output -/

/-- R121, R150: every line that leaves belongs to a pair of the operation. -/
theorem State.primResult_pair_lt {s : State} {op : PrimOp} {l : OutLine} (h : l ∈ (s.primResult op).lines) : l.pair < op.desc.pairs := by
  obtain ⟨p, hp, hl⟩ := List.mem_flatMap.mp h
  have hpair := (List.mem_filter.mp hl).2
  rw [beq_iff_eq] at hpair
  exact hpair ▸ List.mem_range.mp hp

/-! ### The write-behinds -/

theorem platesCell_kind_ne_port (q : Nat) : kindOf (platesCell q) ≠ 0x22 := by
  by_cases hq : q < 4
  · rw [platesCell_kind q hq]
    decide
  · have hd : cellDie (platesCell q) = q + 2 := by
      unfold cellDie platesCell quadCell cellId
      omega
    have hc : cellKind (platesCell q) = none := by
      unfold cellKind
      dsimp only
      split
      · rfl
      · rw [if_neg (by unfold platesCell quadCell cellId; omega), if_pos (.inr (by omega))]
    simp [kindOf, hc]

theorem MemFrame.ringUp {s t : State} (h : MemFrame s t) (q : Nat) : t.ringUp q = s.ringUp q :=
  congrArg (· == 1) (h.fld (f := F.PLT_RING_CTRL_EN_IN_FORCE) (by decide) (platesCell_kind_ne_port q))

theorem State.primOutput_of_not_via {s : State} {d : PrimDesc} {l : OutLine} (h : s.viaWriteBehind d l = false) :
    s.primOutput d l = s.writeMem l.addr l.bytes l.mark 2 := if_neg (by simp [h])

theorem State.primOutput_of_via {s : State} {d : PrimDesc} {l : OutLine} (h : s.viaWriteBehind d l = true) :
    s.primOutput d l = s.setPrim { s.prim with wb := s.prim.wb ++ [⟨d.ticket, l⟩] } := if_pos h

section Output
variable {s : State} {d : PrimDesc}

/-- R192: lines pass through the same write-behinds once a line of the output has left. -/
theorem State.primOutput_ringUp (s : State) (d : PrimDesc) (l : OutLine) (q : Nat) : (s.primOutput d l).ringUp q = s.ringUp q := by
  cases h : s.viaWriteBehind d l
  · rw [State.primOutput_of_not_via h]
    exact (s.writeMem_memFrame ..).ringUp q
  · rw [State.primOutput_of_via h]
    rfl

/-- R149, R192: a line of output leaves the Primary as it is, but for the write-behinds. -/
theorem State.primOutput_prim (s : State) (d : PrimDesc) (l : OutLine) : (s.primOutput d l).prim =
    { s.prim with wb := s.prim.wb ++ if s.viaWriteBehind d l then [⟨d.ticket, l⟩] else [] } := by
  cases h : s.viaWriteBehind d l
  · rw [State.primOutput_of_not_via h, State.writeMem_prim]
    simp
  · rw [State.primOutput_of_via h]
    rfl

theorem State.viaWriteBehind_congr {t : State} (h : ∀ q, t.ringUp q = s.ringUp q) : t.viaWriteBehind d = s.viaWriteBehind d := by
  funext l
  unfold State.viaWriteBehind
  rw [h]

/-- R168, R192: with room for the lines that go by the write-behinds, all of the lines leave. -/
theorem State.primOutputs_of_room {ls : List OutLine}
    (h : s.prim.wb.length + (ls.filter fun l => s.viaWriteBehind d l).length ≤ 131072) :
    s.primOutputs d ls = ([], ls.foldl (fun (u : State) l => u.primOutput d l) s) := by
  induction ls generalizing s with
  | nil => rfl
  | cons l ls ih =>
    have hvia := State.viaWriteBehind_congr (d := d) (s.primOutput_ringUp d l)
    have hroom : (s.viaWriteBehind d l && !s.wbRoom l.quad) = false := by
      cases hv : s.viaWriteBehind d l
      · rfl
      · rw [List.filter_cons_of_pos hv, List.length_cons] at h
        have := List.length_filter_le (fun w : WbLine => w.line.quad == l.quad) s.prim.wb
        simp only [State.wbRoom, Bool.true_and, Bool.not_eq_false', decide_eq_true_eq]
        omega
    rw [State.primOutputs, if_neg (by simp [hroom])]
    refine ih ?_
    rw [State.primOutput_prim, hvia]
    rw [List.filter_cons] at h
    cases hv : s.viaWriteBehind d l <;> simp [hv] at h ⊢ <;> omega

/-- R149, R192: the lines leave the Primary as it is, but for the write-behinds. -/
theorem State.primOutput_foldl_prim (s : State) (d : PrimDesc) (ls : List OutLine) :
    ∃ wb, (ls.foldl (fun (u : State) l => u.primOutput d l) s).prim = { s.prim with wb := wb } := by
  induction ls generalizing s with
  | nil => exact ⟨_, rfl⟩
  | cons l ls ih =>
    obtain ⟨wb, h⟩ := ih (s.primOutput d l)
    rw [State.primOutput_prim] at h
    exact ⟨wb, h⟩

end Output

/-! ### The end in the array -/

theorem State.setPrim_flag (s : State) (p : PrimState) (f : Fld) (cell : Nat) : (s.setPrim p).flag f cell = s.flag f cell := (rfl)

/-- R124, R162: what the accumulators of an operation leave. -/
theorem State.primRetain_spec (s : State) (d : PrimDesc) (sums : List (Nat × (BitVec 32 × Bool))) :
    (s.primRetain d sums).prim.done = s.prim.done ∧ MemKept s (s.primRetain d sums) ∧
      (d.retain = true → (s.primRetain d sums).flag F.PRIM_ACC_STATUS_RETAINED qnwPrim = true ∧
        (s.primRetain d sums).prim.accTicket = d.ticket) := by
  have hq : qnwPrim < 0x10000 := by decide
  have hmat : d.retain = true → d.isMatmul = true := fun h => by
    unfold PrimDesc.retain at h
    exact (Bool.and_eq_true_iff.mp h).2
  unfold State.primRetain
  split
  · next hn => exact ⟨rfl, .refl s, fun h => by simp [hmat h] at hn⟩
  · split
    · refine ⟨by simp, (((s.setFld_memKept ..).trans (State.setFld_memKept ..)).trans (State.setFld_memKept ..)).trans
        (State.setPrim_memKept ..), fun _ => ⟨?_, by simp⟩⟩
      rw [State.setPrim_flag, State.flag_setFld_of_apart hq _ _ (by decide) (by decide) (by decide),
        State.flag_setFld_of_apart hq _ _ (by decide) (by decide) (by decide), State.flag_setFlag (by decide)]
    · next hn => exact ⟨rfl, .refl s, fun h => absurd h hn⟩

section Finish
variable {s : State} {op : PrimOp}

/-- The state once an operation has read the lines of its inputs. -/
def State.primRead (s : State) (op : PrimOp) : State := op.readLines.foldl (fun u la => u.noteRead la (u.readLine la false)) s

theorem State.primRead_memFrame (s : State) (op : PrimOp) : MemFrame s (s.primRead op) :=
  MemFrame.foldl (fun u _ => u.noteRead_memFrame ..) op.readLines s

/-- R148 to R176: an operation that delivers nothing that it writes itself. -/
theorem State.primCompute_of_apart (hout : op.out = none) (hself : op.selfOverlap = false) :
    s.primCompute op = ((s.primRead op).primResult op, s.primRead op) := by
  unfold State.primCompute
  rw [hout]
  simp only [hself]
  rfl

/-- R168, R192: with room in the write-behinds all of the output leaves, in its order. -/
theorem State.primEmit_of_room (hout : op.out = none) (hself : op.selfOverlap = false)
    (hroom : s.prim.wb.length + (((s.primRead op).primResult op).lines.filter fun l => s.viaWriteBehind op.desc l).length ≤ 131072) :
    let r := (s.primRead op).primResult op
    s.primEmit op op.desc.pairs = ({ op with
      out := some { r with lines := [] }
      poisonLines := op.poisonLines + (r.lines.filter OutLine.mark).length },
      r.lines.foldl (fun (u : State) l => u.primOutput op.desc l) (s.primRead op)) := by
  intro r
  have hf := s.primRead_memFrame op
  have hall : r.lines.takeWhile (fun l => decide (l.pair < op.desc.pairs)) = r.lines :=
    List.takeWhile_eq_self_iff.mpr fun l hl => decide_eq_true (State.primResult_pair_lt hl)
  have hout' : (s.primRead op).primOutputs op.desc r.lines = ([], _) :=
    State.primOutputs_of_room (by rwa [hf.prim, State.viaWriteBehind_congr hf.ringUp])
  unfold State.primEmit
  rw [State.primCompute_of_apart hout hself]
  dsimp only
  rw [show ((s.primRead op).primResult op).lines = r.lines from rfl, hall, hout']
  simp [r]

/-- R124, R169: the state that an operation leaves once all of its output is out. -/
def State.primGone (s : State) (op : PrimOp) : State :=
  let r := (s.primRead op).primResult op
  ((r.lines.foldl (fun (u : State) l => u.primOutput op.desc l) (s.primRead op)).primRetain op.desc r.sums).primLeave { op with
    out := some { r with lines := [] }, poisonLines := op.poisonLines + (r.lines.filter OutLine.mark).length } r.flags

/-- R149, R166: an operation whose output goes to memory finishes. -/
theorem State.primFinish_of_room (hk : op.desc.kind ≠ 4) (hd : op.desc.dest ≠ 2) (hout : op.out = none) (hself : op.selfOverlap = false)
    (hroom : s.prim.wb.length + (((s.primRead op).primResult op).lines.filter fun l => s.viaWriteBehind op.desc l).length ≤ 131072) :
    s.primFinish op = (s.primGone op).colSettle := by
  unfold State.primFinish State.primGone
  rw [if_neg hk, State.primEmit_of_room hout hself hroom]
  simp only [Option.getD_some, List.isEmpty_nil, Bool.not_true, Bool.false_eq_true, if_false, if_neg hd]

/-- R124, R162, R169: what the operation leaves. -/
theorem State.primGone_spec (s : State) (op : PrimOp) :
    let r := (s.primRead op).primResult op
    ∃ p, (s.primGone op).prim.op = none ∧ (s.primGone op).prim.done = s.prim.done ++ [p] ∧ p.desc = op.desc ∧ p.status = 0 ∧
      p.flags = r.flags ∧ p.poisonLines = op.poisonLines + (r.lines.filter OutLine.mark).length ∧
      (s.primGone op).mem = (r.lines.foldl (fun (w : State) l => w.primOutput op.desc l) (s.primRead op)).mem ∧
      (op.desc.retain = true → (s.primGone op).flag F.PRIM_ACC_STATUS_RETAINED qnwPrim = true ∧
        (s.primGone op).prim.accTicket = op.desc.ticket) := by
  intro r
  unfold State.primGone
  dsimp only
  rw [show (s.primRead op).primResult op = r from rfl]
  obtain ⟨wb, hwb⟩ := State.primOutput_foldl_prim (s.primRead op) op.desc r.lines
  generalize r.lines.foldl (fun (u : State) l => u.primOutput op.desc l) (s.primRead op) = u at hwb ⊢
  obtain ⟨hdone, ⟨hmem, -⟩, hret⟩ := u.primRetain_spec op.desc r.sums
  set op' : PrimOp := { op with
    out := some { r with lines := [] }, poisonLines := op.poisonLines + (r.lines.filter OutLine.mark).length }
  obtain ⟨hprim, ⟨hmem', -⟩, hreg⟩ := (u.primRetain op.desc r.sums).primLeave_spec op' r.flags
  refine ⟨(u.primRetain op.desc r.sums).leftRecord op' r.flags, by rw [hprim], ?_, rfl, rfl, rfl, rfl, hmem'.trans hmem, fun h => ?_⟩
  · rw [hprim]
    show (u.primRetain op.desc r.sums).prim.done ++ [_] = _
    rw [hdone, hwb]
    show (s.primRead op).prim.done ++ [_] = _
    rw [(s.primRead_memFrame op).prim]
  · obtain ⟨hflag, hticket⟩ := hret h
    refine ⟨?_, by rw [hprim]; exact hticket⟩
    unfold State.flag State.fld at hflag ⊢
    rwa [hreg _ rfl]

end Finish

theorem exec_primArrayEnd {s : State} {op : PrimOp} (hs : s.stopped = false) (hop : s.prim.op = some op) (ho : op.occupies = true)
    (hup : s.primPathUp op = true) (hin : op.desc.kind = 4 ∨ s.inputsHere op = true ∧ op.desc.dest ≠ 2) :
    exec .primArrayEnd s = .next (s.primFinish op).noteLevels := by
  have hhere : ¬ (op.desc.kind ≠ 4 ∧ (!s.inputsHere op ∨ (op.desc.dest = 2 ∧ s.colHolds (op.run [] s.now) false))) := by
    rintro ⟨hk, hwait⟩
    obtain ⟨hh, hd⟩ := hin.resolve_left hk
    simp [hh, hd] at hwait
  change execPrimArrayEnd s = _
  unfold execPrimArrayEnd
  rw [if_neg (by simp [hs]), hop]
  dsimp only
  rw [if_neg (by simp [ho]), if_neg (by simp [hup]), if_neg hhere]

/-- R177: a DARK reads and writes nothing. -/
theorem State.primPathUp_dark (s : State) {op : PrimOp} (hk : op.desc.kind = 4) : s.primPathUp op = true := by
  simp [State.primPathUp, PrimOp.extents, hk]

/-! ### The first multiply -/

/-- R128: the state once an operation occupies the array. -/
def State.primOccupy (s : State) (op : PrimOp) : State :=
  (s.setPrim { s.prim with
    op := some { op with occupies := true, clock := s.arrayClock }, darkFrame := false
    preload := if s.prim.preload = some op.desc.ticket then none else s.prim.preload }).setFld F.HEL_PHASE_ARRAY_PHASE helCell op.desc.phase

theorem State.primOccupy_spec (s : State) (op : PrimOp) (hp : op.desc.phase < 64) :
    (s.primOccupy op).prim.op = some { op with occupies := true, clock := s.arrayClock } ∧
      (s.primOccupy op).prim.preload ≠ some op.desc.ticket ∧ (s.primOccupy op).prim.queue = s.prim.queue ∧
      (s.primOccupy op).prim.darkFrame = false ∧ (s.primOccupy op).fld F.HEL_PHASE_ARRAY_PHASE helCell = op.desc.phase ∧
      MemKept s (s.primOccupy op) := by
  unfold State.primOccupy
  rw [State.setFld_prim, State.fld_setFld _ _ _ _ _ (by decide) (by decide)]
  refine ⟨rfl, ?_, rfl, rfl, Nat.mod_eq_of_lt hp, (s.setPrim_memKept _).trans (State.setFld_memKept ..)⟩
  show (if s.prim.preload = some op.desc.ticket then none else s.prim.preload) ≠ _
  split
  · exact nofun
  · assumption

theorem exec_primFirstMultiply {s : State} {op : PrimOp} (hs : s.stopped = false) (hop : s.prim.op = some op) (ho : op.occupies = false)
    (hc : op.checking = false) : exec .primFirstMultiply s =
      .next (if s.primPathUp op = false then s.primEnd primMemoryFault else (s.primOccupy op).colSettle.noteLevels) := by
  change execPrimFirstMultiply s = _
  unfold execPrimFirstMultiply
  rw [if_neg (by simp [hs]), hop]
  dsimp only
  rw [if_neg (by simp [ho, hc])]
  simp only [Bool.not_eq_true']
  rfl

/-- R124: the accumulators are retained no more. -/
theorem State.clearRetained_spec (s : State) : s.clearRetained.prim = { s.prim with acc := [] } ∧ s.clearRetained.mem = s.mem ∧
    s.clearRetained.flag F.PRIM_ACC_STATUS_RETAINED qnwPrim = false := by
  unfold State.clearRetained
  rw [State.setPrim_flag]
  refine ⟨by simp, by simp, ?_⟩
  simp [State.flag, State.fld, F.PRIM_ACC_STATUS_RETAINED, bitsOf]

/-- R141, R177: the state in which an operation has ended early, with its completion p to post. -/
def State.ended (s : State) (p : PrimDone) (wb : List WbLine) : State :=
  (s.setPrim { s.prim with op := none, done := s.prim.done ++ [p], wb := wb, preload := none }).clearRetained.noteLevels

theorem State.Counted.ended {s u : State} (h : s.Counted u) (p : PrimDone) (wb : List WbLine) {d : PrimDesc} {status : Nat}
    (hp : p.desc = d ∧ p.status = status ∧ p.arrayCycles = 0) :
    ∃ q, (u.ended p wb).prim.op = none ∧ (u.ended p wb).prim.done = s.prim.done ++ [q] ∧ q.desc = d ∧ q.status = status ∧
      q.arrayCycles = 0 ∧ (u.ended p wb).mem = s.mem ∧ (u.ended p wb).flag F.PRIM_ACC_STATUS_RETAINED qnwPrim = false := by
  unfold State.ended
  obtain ⟨hprim, hmem, hflag⟩ := State.clearRetained_spec (u.setPrim { u.prim with
    op := none, done := u.prim.done ++ [p], wb := wb, preload := none })
  obtain ⟨hd, hst, hcycles⟩ := hp
  obtain ⟨hmem', -⟩ := h.memKept
  rw [State.noteLevels_prim, State.noteLevels_mem, State.noteLevels_flag, hprim]
  exact ⟨p, rfl, congrArg (fun x : PrimState => x.done ++ [p]) h.prim, hd, hst, hcycles, hmem.trans hmem', hflag⟩

/-- R177: an operation in its start latency ends. -/
theorem State.primEnd_before_array {s : State} {op : PrimOp} (hop : s.prim.op = some op) (ho : op.occupies = false) (status : Nat) :
    ∃ p, (s.primEnd status).prim.op = none ∧ (s.primEnd status).prim.done = s.prim.done ++ [p] ∧ p.desc = op.desc ∧
      p.status = status ∧ p.arrayCycles = 0 ∧ (s.primEnd status).mem = s.mem ∧
      (s.primEnd status).flag F.PRIM_ACC_STATUS_RETAINED qnwPrim = false := by
  have hcounts : ∀ u : State, u.freeCounts op = ((0, 0, 0, 0), u) := fun u => by simp [State.freeCounts, ho]
  have hlines : ∀ u : State, u.linesToCome op = [] := fun u => by simp [State.linesToCome, ho]
  unfold State.primEnd
  rw [hop]
  dsimp only
  simp only [hcounts, hlines, List.takeWhile_nil, ite_self, List.take_nil, List.foldl_nil]
  have hu := ((s.free_counted 64).trans (State.free_counted _ 4)).trans (State.primCount_counted _ 0 0 0 0)
  generalize ((s.free 64).2.free 4).2.primCount 0 0 0 0 = u at hu ⊢
  exact hu.ended _ _ ⟨rfl, rfl, rfl⟩

/-! ### Ready notices -/

/-- R203: a ready notice counts at its mover, modulo 2^32. -/
theorem State.moverNotice_spec (s : State) (m : Nat) : MemKept s (s.moverNotice m) ∧
    (s.moverNotice m).fld F.MOV_NOTICE_COUNT_COUNT (moverCell m) = (s.fld F.MOV_NOTICE_COUNT_COUNT (moverCell m) + 1) % 2 ^ 32 := by
  unfold State.moverNotice
  dsimp only
  have hc := (State.count_photOnly (s.setFld F.MOV_NOTICE_COUNT_COUNT (moverCell m) (s.fld F.MOV_NOTICE_COUNT_COUNT (moverCell m) + 1))
    (moverCell m) (evOf 0x16 4) none 1).counted
  refine ⟨(s.setFld_memKept ..).trans hc.memKept, (hc.fld rfl _).trans ?_⟩
  exact s.fld_setFld _ _ _ _ (by decide) (by decide)

theorem exec_primReadyNotice {s : State} {p : PrimDone} (hs : s.stopped = false)
    (hp : s.prim.done.find? (fun p => decide (p.posted < p.notices) && s.drained p.desc.ticket (p.posted + 1)) = some p) :
    exec .primReadyNotice s = .next ((s.setPrim { s.prim with
      done := s.prim.done.map fun q => if q.desc.ticket = p.desc.ticket then { q with posted := q.posted + 1 } else q }).moverNotice
        (p.desc.field 42 5 0)) := by
  change execPrimReadyNotice s = _
  unfold execPrimReadyNotice
  rw [if_neg (by simp [hs]), hp]

/-! ### The completion -/

/-- R171, R204: the record of a completion that asks for one. -/
theorem State.writeRecord_spec (s : State) (dome en : Bool) (a : Nat) (ws : List Word32) :
    MemFrame s (s.writeRecord dome en a ws qnwPrim) ∧
      (en = false → (s.writeRecord dome en a ws qnwPrim).mem = s.mem) ∧
      (en = true → s.cmplOk dome a = true → s.memUp a 64 = true →
        s.writeRecord dome en a ws qnwPrim = s.writeMem a (bytesOf ws) false 2) := by
  unfold State.writeRecord
  split
  · next h => exact ⟨.refl s, fun _ => rfl, fun he hok => by simp [he, hok] at h⟩
  · next h =>
    have hen : en ≠ false := fun he => by simp [he] at h
    split
    · exact ⟨s.writeMem_memFrame .., fun he => absurd he hen, fun _ _ _ => rfl⟩
    · next hup => exact ⟨s.recordError_memFrame (by decide) .., fun he => absurd he hen, fun _ _ h => absurd h hup⟩

/-- R60, R171: DONE_BIT of a completion. -/
theorem State.setDone_spec (s : State) (c : CoreRef) (b : Nat) (cut : Bool) :
    (s.setDone c b cut).prim = s.prim ∧ (s.setDone c b cut).mem = s.mem ∧
      ∀ k, doneKey c b = some k → k < 2 ^ 32 → b ≠ 0xFFFFFFFF → (s.setDone c b cut).bitAt k = true := by
  unfold State.setDone
  split
  · next h => exact ⟨rfl, rfl, fun _ _ _ hb => absurd h hb⟩
  · split
    · next hk => exact ⟨rfl, rfl, fun k h => by simp [hk] at h⟩
    · next k hk =>
      have hput : ∀ j, some k = some j → (s.putBit k true).bitAt j = true := fun j hj => by
        rw [State.bitAt_putBit, if_pos (Option.some.inj hj).symm]
      split
      · exact ⟨rfl, rfl, fun j h _ _ => hput j (hk ▸ h)⟩
      · next hn =>
        have hc := (s.count_photOnly c.cell 0x005 none 1).counted
        refine ⟨hc.prim, s.count_mem .., fun j h hj => ?_⟩
        obtain rfl := Option.some.inj (hk.symm.trans h)
        exact absurd (.inl hj) hn

/-- R171: a completion with status OK: its record, its DONE_BIT, its ticket. -/
theorem State.postDone_of_ok (s : State) {p : PrimDone} (hst : p.status = 0) :
    let c := p.desc.issuer
    let u := (s.writeRecord c.isDome p.desc.cmplEn p.desc.cmplAddr (p.record s.now) qnwPrim).setDone c p.desc.doneBit p.desc.cut
    let v := u.setReg .PRIM_DONE_TICKET qnwPrim (BitVec.ofNat 64 p.desc.ticket)
    s.postDone p = (v.setPrim { v.prim with
      done := v.prim.done.filter fun q => q.desc.ticket ≠ p.desc.ticket }).count qnwPrim (evOf 0x10 6) (some p.status) := by
  have hfails : ∀ o : Option PrimOp, (o.map fun op => op.failedBy p).getD false = false := fun o => by
    cases o <;> simp [PrimOp.failedBy, primOk, hst]
  unfold State.postDone
  dsimp only
  simp only [hfails, Bool.false_eq_true, if_false]
  rw [if_pos hst]

/-- R171: what a completion with status OK leaves. -/
theorem State.postDone_spec (s : State) {p : PrimDone} (hst : p.status = 0) (ht : p.desc.ticket < 2 ^ 64) :
    ((s.postDone p).reg .PRIM_DONE_TICKET qnwPrim).toNat = p.desc.ticket ∧
      (s.postDone p).prim.done = s.prim.done.filter (fun q => q.desc.ticket ≠ p.desc.ticket) ∧
      (∀ k, doneKey p.desc.issuer p.desc.doneBit = some k → k < 2 ^ 32 → p.desc.doneBit ≠ 0xFFFFFFFF →
        (s.postDone p).bitAt k = true) ∧
      (p.desc.cmplEn = false → (s.postDone p).mem = s.mem) ∧
      (p.desc.cmplEn = true → s.cmplOk p.desc.issuer.isDome p.desc.cmplAddr = true → s.memUp p.desc.cmplAddr 64 = true →
        (s.postDone p).mem = (s.writeMem p.desc.cmplAddr (bytesOf (p.record s.now)) false 2).mem) := by
  rw [s.postDone_of_ok hst]
  obtain ⟨hframe, hoff, hon⟩ := s.writeRecord_spec p.desc.issuer.isDome p.desc.cmplEn p.desc.cmplAddr (p.record s.now)
  generalize s.writeRecord p.desc.issuer.isDome p.desc.cmplEn p.desc.cmplAddr (p.record s.now) qnwPrim = w at hframe hoff hon ⊢
  obtain ⟨hprim, hmem, hbit⟩ := w.setDone_spec p.desc.issuer p.desc.doneBit p.desc.cut
  generalize w.setDone p.desc.issuer p.desc.doneBit p.desc.cut = u at hprim hmem hbit ⊢
  dsimp only
  have hkept := u.setReg_memKept .PRIM_DONE_TICKET qnwPrim (BitVec.ofNat 64 p.desc.ticket)
  have hticket : (u.setReg .PRIM_DONE_TICKET qnwPrim (BitVec.ofNat 64 p.desc.ticket)).reg .PRIM_DONE_TICKET qnwPrim =
    BitVec.ofNat 64 p.desc.ticket := u.reg_setReg ..
  have hvprim : (u.setReg .PRIM_DONE_TICKET qnwPrim (BitVec.ofNat 64 p.desc.ticket)).prim = s.prim :=
    (u.setReg_prim ..).trans (hprim.trans hframe.prim)
  generalize u.setReg .PRIM_DONE_TICKET qnwPrim (BitVec.ofNat 64 p.desc.ticket) = v at hkept hticket hvprim ⊢
  have hc := (State.count_photOnly (v.setPrim { v.prim with done := v.prim.done.filter fun q => q.desc.ticket ≠ p.desc.ticket }) qnwPrim
    (evOf 0x10 6) (some p.status) 1).counted
  obtain ⟨hmemv, -, -, hbits⟩ := hkept.trans hc.memKept
  refine ⟨?_, ?_, fun k hk hlt hb => ?_, fun he => ?_, fun he hok hup => ?_⟩
  · rw [hc.reg rfl]
    show (v.reg .PRIM_DONE_TICKET qnwPrim).toNat = _
    rw [hticket, BitVec.toNat_ofNat, Nat.mod_eq_of_lt ht]
  · rw [hc.prim, State.setPrim_prim, hvprim]
  · have := hbit k hk hlt hb
    unfold State.bitAt at this ⊢
    rwa [hbits]
  · rw [hmemv, hmem, hoff he]
  · rw [hmemv, hmem, hon he hok hup]

end Sys2Proof.Machine

open Sys2Proof Sys2Proof.Machine in
/-- Settles O26: what an operation delivers is computed from the state that its reads leave; with room in the write-behinds every line of
it leaves, and the operation with them. -/
theorem primaryOperationsEndAndComplete : Obligations.PrimaryOperationsEndAndComplete := by
  intro s hs
  refine ⟨?_, ?_, ?_, ?_, fun d l h => State.primOutput_of_not_via h, ?_, ?_, ?_⟩
  · intro op hop ho hc hup hp
    have hx := exec_primFirstMultiply hs hop ho hc
    rw [hup] at hx
    exact ⟨s.primOccupy op, hx, s.primOccupy_spec op hp⟩
  · intro op hop ho hc hup
    have hx := exec_primFirstMultiply hs hop ho hc
    rw [if_pos hup] at hx
    obtain ⟨p, hnone, hdone, hd, hst, hcycles, hmem, hret⟩ := State.primEnd_before_array hop ho primMemoryFault
    exact ⟨_, p, hx, hnone, hdone, hd, hst, hcycles, hmem, hret⟩
  · intro op hop ho hk
    have hfin : s.primFinish op = s.primLeave op {} := if_pos hk
    have hx := exec_primArrayEnd hs hop ho (s.primPathUp_dark hk) (.inl hk)
    rw [hfin] at hx
    obtain ⟨hprim, hmem, -⟩ := s.primLeave_spec op {}
    obtain ⟨hcycles, hstall⟩ := s.leftRecord_dark {} hk
    exact ⟨_, s.leftRecord op {}, hx, by simp [hprim], by simp [hprim], rfl, rfl, hcycles, hstall, hmem.noteLevels⟩
  · intro op hop ho _ hk3 hd hup hin hout hself read r hroom
    have hk : op.desc.kind ≠ 4 := by omega
    have hx := exec_primArrayEnd hs hop ho hup (.inr ⟨hin, hd⟩)
    rw [State.primFinish_of_room hk hd hout hself hroom] at hx
    obtain ⟨p, hp⟩ := s.primGone_spec op
    exact ⟨s.primGone op, p, hx, hp⟩
  · intro d l h
    rw [State.primOutput_of_via h]
    exact ⟨rfl, s.setPrim_memKept _⟩
  · intro p hp
    obtain ⟨hmem, hfld⟩ := State.moverNotice_spec (s.setPrim { s.prim with
      done := s.prim.done.map fun q => if q.desc.ticket = p.desc.ticket then { q with posted := q.posted + 1 } else q })
      (p.desc.field 42 5 0)
    exact ⟨_, exec_primReadyNotice hs hp, hmem, hfld⟩
  · intro p hp hr hst ht
    refine ⟨_, ?_, s.postDone_spec hst ht⟩
    change execPrimComplete s = _
    simp [execPrimComplete, hs, hp, hr]
end

section
/-! SUPPORT. What an access of memory turns on (R55, R187, R594 to R602): states that agree there read, write and refuse alike. -/

namespace Sys2Proof.Machine

open Sys2Proof

/-! ### What the registers decide -/

section Congr
variable {s t : State}

theorem State.reg_congr (hr : t.regs = s.regs) {r : RegId} (hp : r.isPhot = false) (cell i : Nat) : t.reg r cell i = s.reg r cell i := by
  simp only [State.reg, hp, hr, Bool.false_eq_true, if_false]

theorem State.fld_congr (hr : t.regs = s.regs) {f : Fld} (hp : f.reg.isPhot = false) (cell i : Nat) : t.fld f cell i = s.fld f cell i :=
  congrArg (fun v : BitVec 64 => bitsOf v.toNat f.hi f.lo) (State.reg_congr hr hp cell i)

theorem State.flag_congr (hr : t.regs = s.regs) {f : Fld} (hp : f.reg.isPhot = false) (cell i : Nat) :
    t.flag f cell i = s.flag f cell i := congrArg (· == 1) (State.fld_congr hr hp cell i)

/-- R55: the state of a cell is in the registers. -/
theorem State.cellState_congr (hr : t.regs = s.regs) (c : Nat) : t.cellState c = s.cellState c := by
  have hfld := fun (f : Fld) (hp : f.reg.isPhot = false) c => State.fld_congr hr hp c 0
  have hflag := fun (f : Fld) (hp : f.reg.isPhot = false) c => State.flag_congr hr hp c 0
  have hready : ∀ c, t.cellReady c = s.cellReady c := fun c => by
    rw [State.cellReady, State.cellReady, hflag _ rfl]
  have hpath : ∀ l, t.pathState l = s.pathState l := fun l => by
    induction l with
    | nil => rfl
    | cons c l ih =>
      rw [State.pathState, State.pathState, ih, hready, State.faulted, State.faulted, hfld F.CELL_STATE_STATE rfl,
        hfld F.CELL_POWER_PSTATE rfl, hflag F.CELL_STATE_RESETTING rfl, hflag F.CELL_CTRL_EN rfl, hflag F.CELL_STATE_QUIESCE_BUSY rfl]
  exact hpath _

/-- R55, R612: a cell is ENABLED by the registers and the clocks. -/
theorem State.enabled_congr (hr : t.regs = s.regs) (hc : t.chr = s.chr) (hp : t.power = s.power) (c : Nat) :
    t.enabled c = s.enabled c := by
  rw [State.enabled, State.enabled, State.cellState_congr hr, State.stopped, State.stopped, hc, hp]

theorem State.memUp_congr (hr : t.regs = s.regs) (hc : t.chr = s.chr) (hp : t.power = s.power) (a n : Nat) :
    t.memUp a n = s.memUp a n := by
  simp only [State.memUp, State.enabled_congr hr hc hp]

theorem State.ringTouched_congr (hr : t.regs = s.regs) (a n : Nat) : t.ringTouched a n = s.ringTouched a n := by
  simp only [State.ringTouched, State.flag_congr hr (f := F.PLT_RING_CTRL_EN_IN_FORCE) rfl]

theorem State.extentFree_congr (hr : t.regs = s.regs) (dome : Bool) (a n : Nat) : t.extentFree dome a n = s.extentFree dome a n := by
  simp only [State.extentFree, State.ringTouched_congr hr]

theorem State.cmplOk_congr (hr : t.regs = s.regs) (dome : Bool) (a : Nat) : t.cmplOk dome a = s.cmplOk dome a := by
  simp only [State.cmplOk, State.extentFree_congr hr]

theorem State.flipFor_congr (hr : t.regs = s.regs) (la : Nat) : t.flipFor la = s.flipFor la := by
  have hreg : ∀ (b : Bool) (x y : RegId), x.isPhot = false → y.isPhot = false → ∀ c,
      t.reg (if b then x else y) c = s.reg (if b then x else y) c := fun b x y hx hy c => by
    cases b <;> exact State.reg_congr hr (by assumption) c 0
  unfold State.flipFor
  cases memCell la with
  | none => rfl
  | some c => simp only [hreg _ .SMC_FLIP_CTRL .PLT_FLIP_CTRL rfl rfl, hreg _ .SMC_FLIP_ADDR .PLT_FLIP_ADDR rfl rfl,
      hreg _ .SMC_FLIP_DATA .PLT_FLIP_DATA rfl rfl]

theorem State.bytes_congr (h : t.mem = s.mem) (a n : Nat) : t.bytes a n = s.bytes a n := by
  induction n generalizing a with
  | zero => rfl
  | succ n ih => rw [State.bytes, State.bytes, ih, State.byte, State.byte, h]

theorem State.readLine_congr (hm : t.mem = s.mem) (he : t.lineErr = s.lineErr) (la : Nat) (sweep : Bool) :
    t.readLine la sweep = s.readLine la sweep := by
  have herr : t.lineErrOf la = s.lineErrOf la := by rw [State.lineErrOf, State.lineErrOf, he]
  unfold State.readLine
  rw [herr, State.bytes_congr hm]

end Congr

/-- R65: an error is counted, and then held back or recorded. -/
theorem State.recordError_eq (s : State) (cell cls addr info : Nat) :
    let u := s.errCounted cell cls
    let n := u.fld F.CELL_ERR_STATUS_COUNT cell
    s.recordError cell cls addr info = if u.flag F.CELL_ERR_STATUS_VALID cell
      then (u.setFld F.CELL_ERR_STATUS_COUNT cell (if n = 0xFFFF then n else n + 1)).setFlag F.CELL_ERR_STATUS_OVERFLOW cell true
      else (u.newRecord cell cls addr info).event (0x40000000 + cell) := rfl

/-! ### States that memory cannot tell apart -/

/-- t agrees with s in all that an access of memory turns on. -/
def MemAlike (s t : State) : Prop :=
  t.regs = s.regs ∧ t.mem = s.mem ∧ t.lineErr = s.lineErr ∧ t.valid = s.valid ∧ t.epoch = s.epoch ∧ t.now = s.now ∧ t.chr = s.chr ∧
    t.power = s.power

namespace MemAlike
variable {s t s' t' : State}

theorem regs (h : MemAlike s t) : t.regs = s.regs := h.1

theorem mem (h : MemAlike s t) : t.mem = s.mem := h.2.1

/-- Counts are nothing to memory. -/
theorem photOnly (h : MemAlike s t) (hs : s.PhotOnly s') (ht : t.PhotOnly t') : MemAlike s' t' := by
  obtain ⟨_, rfl⟩ := hs
  obtain ⟨_, rfl⟩ := ht
  exact h

theorem count (h : MemAlike s t) (cell ev : Nat) (qual : Option Nat) (inc : Nat) :
    MemAlike (s.count cell ev qual inc) (t.count cell ev qual inc) := h.photOnly (s.count_photOnly ..) (t.count_photOnly ..)

theorem setReg (h : MemAlike s t) (r : RegId) (cell : Nat) (v : BitVec 64) : MemAlike (s.setReg r cell v) (t.setReg r cell v) := by
  unfold State.setReg
  split
  · exact h
  · exact ⟨congrArg (fun m => smapSet (fun _ => resetValue r cell 0) m (regAddr r cell 0) v) h.regs, h.2⟩

theorem setFld (h : MemAlike s t) {f : Fld} (hp : f.reg.isPhot = false) (cell v : Nat) :
    MemAlike (s.setFld f cell v) (t.setFld f cell v) := by
  unfold State.setFld
  rw [State.reg_congr h.regs hp]
  exact h.setReg ..

theorem event (h : MemAlike s t) (b : Nat) : MemAlike (s.event b) (t.event b) := h

theorem errCounted (h : MemAlike s t) (cell cls : Nat) : MemAlike (s.errCounted cell cls) (t.errCounted cell cls) := by
  obtain ⟨_, _, hs⟩ := s.errCounted_eq cell cls
  obtain ⟨_, _, ht⟩ := t.errCounted_eq cell cls
  rw [hs, ht]
  exact h

theorem newRecord (h : MemAlike s t) (cell cls addr info : Nat) :
    MemAlike (s.newRecord cell cls addr info) (t.newRecord cell cls addr info) := by
  obtain ⟨-, -, -, -, -, hnow, -⟩ := id h
  simp only [State.newRecord, State.setFlag, State.setFld_now, hnow]
  exact (((((h.setFld rfl ..).setFld rfl ..).setFld rfl ..).setFld rfl ..).setFld rfl ..).setFld rfl ..

/-- R65: an error is recorded alike. -/
theorem recordError (h : MemAlike s t) (cell cls addr info : Nat) :
    MemAlike (s.recordError cell cls addr info) (t.recordError cell cls addr info) := by
  have hu := h.errCounted cell cls
  rw [State.recordError_eq, State.recordError_eq, State.flag_congr hu.regs rfl, State.fld_congr hu.regs rfl]
  split
  · exact (hu.setFld rfl ..).setFld rfl ..
  · exact (hu.newRecord cell cls addr info).event _

/-- R595: a read of a line is noted alike. -/
theorem noteRead (h : MemAlike s t) (la : Nat) (r : LineRead) : MemAlike (s.noteRead la r) (t.noteRead la r) := by
  unfold State.noteRead
  cases memCell la with
  | none => exact h
  | some c =>
    dsimp only
    have hu : MemAlike (if inStack la then s.count c (evOf 0x14 0) else if inPlates la then s.count c (evOf 0x12 0) else s)
        (if inStack la then t.count c (evOf 0x14 0) else if inPlates la then t.count c (evOf 0x12 0) else t) := by
      split_ifs
      · exact h.count ..
      · exact h.count ..
      · exact h
    split
    · exact hu
    · exact hu.recordError ..

theorem readLine (h : MemAlike s t) (la : Nat) (sweep : Bool) : t.readLine la sweep = s.readLine la sweep :=
  State.readLine_congr h.mem h.2.2.1 la sweep

theorem disarmFlip (h : MemAlike s t) (c : Nat) : MemAlike (s.disarmFlip c) (t.disarmFlip c) := by
  unfold State.disarmFlip
  split
  · exact h.setFld rfl ..
  · exact h.setFld rfl ..

/-- R597, R602: a line is written alike. -/
theorem writeLine (h : MemAlike s t) (la : Nat) (bs : List Byte) (mark : Bool) :
    MemAlike (s.writeLine la bs mark) (t.writeLine la bs mark) := by
  unfold State.writeLine
  extract_lets u v
  have hu : MemAlike u v := by
    dsimp only [u, v]
    cases memCell la with
    | none => exact h
    | some c =>
      dsimp only
      split_ifs
      · exact h.count ..
      · exact h.count ..
      · exact h
  clear_value u v
  have hstore : ∀ {u v : State}, MemAlike u v → ∀ (errs : LineErr) (bs : List Byte), MemAlike
      { u with
        mem := Memory.setBytes u.mem (lineOf la) (bs.take 64)
        lineErr := smapSet (fun _ => LineErr.clean) u.lineErr (lineOf la) errs
        valid := smapSet (fun _ => false) u.valid (lineOf la) true }
      { v with
        mem := Memory.setBytes v.mem (lineOf la) (bs.take 64)
        lineErr := smapSet (fun _ => LineErr.clean) v.lineErr (lineOf la) errs
        valid := smapSet (fun _ => false) v.valid (lineOf la) true } := by
    intro u v h errs bs
    obtain ⟨hregs, hmem, herr, hvalid, hrest⟩ := h
    exact ⟨hregs, by simp only [hmem], by simp only [herr], by simp only [hvalid], hrest⟩
  rw [State.flipFor_congr hu.regs la]
  cases u.flipFor la with
  | none => exact hstore hu _ _
  | some p => exact hstore (hu.disarmFlip p.1) _ _

theorem writeInLine (h : MemAlike s t) (a : Nat) (bs : List Byte) (mark : Bool) :
    MemAlike (s.writeInLine a bs mark) (t.writeInLine a bs mark) := by
  unfold State.writeInLine
  dsimp only
  rw [h.readLine]
  split
  · exact h.writeLine ..
  · exact (h.noteRead ..).writeLine ..

theorem copyLines (h : MemAlike s t) (src dst n : Nat) : MemAlike (s.copyLines src dst n) (t.copyLines src dst n) := by
  induction n generalizing s t src dst with
  | zero => exact h
  | succ n ih =>
    rw [State.copyLines, State.copyLines, h.readLine]
    exact ih ((h.noteRead ..).writeLine ..) ..

/-- R572: the copy of a granule is made alike. -/
theorem copyOnWrite (h : MemAlike s t) (a : Nat) : MemAlike (s.copyOnWrite a) (t.copyOnWrite a) := by
  obtain ⟨hregs, hmem, herr, hvalid, hepoch, hnow, hchr, hpower⟩ := id h
  have hwith : ∀ {u v : State}, MemAlike u v → ∀ f : EpochState → EpochState,
      MemAlike { u with epoch := f u.epoch } { v with epoch := f v.epoch } :=
    fun ⟨h1, h2, h3, h4, h5, h6⟩ f => ⟨h1, h2, h3, h4, congrArg f h5, h6⟩
  unfold State.copyOnWrite
  simp only [State.enabled_congr hregs hchr hpower, hepoch]
  split
  · split
    · exact ⟨hregs, hmem, herr, hvalid, rfl, hnow, hchr, hpower⟩
    · exact h
  · split
    · exact h
    · next g _ =>
      split
      · exact h
      · split
        · exact hwith ((h.copyLines ..).count ..) fun e => { e with copied := smapSet (fun _ => false) e.copied g true }
        · exact ⟨hregs, hmem, herr, hvalid, rfl, hnow, hchr, hpower⟩

/-- R572, R597: memory is written alike. -/
theorem writeMem (h : MemAlike s t) (a : Nat) (bs : List Byte) (mark : Bool) (fuel : Nat) :
    MemAlike (s.writeMem a bs mark fuel) (t.writeMem a bs mark fuel) := by
  induction fuel generalizing s t a bs with
  | zero => exact h
  | succ fuel ih =>
    cases bs with
    | nil => exact h
    | cons b bs => exact ih ((h.copyOnWrite a).writeInLine ..) ..

end MemAlike
end Sys2Proof.Machine
end

section
/-! SUPPORT. What the movers' own state holds, and how a mover takes its head descriptor (R198, R203, R207). -/

namespace Sys2Proof.Machine

open Sys2Proof

/-! ### What leaves the movers -/

section Rest
variable {s t : State}

theorem State.RestKept.movers (h : s.RestKept t) : t.movers = s.movers := by
  obtain ⟨_, _, _, _, _, _, _, _, _, rfl⟩ := h
  rfl

theorem State.RestKept.pci (h : s.RestKept t) : t.pci = s.pci := by
  obtain ⟨_, _, _, _, _, _, _, _, _, rfl⟩ := h
  rfl

theorem State.PhotOnly.restKept (h : s.PhotOnly t) : s.RestKept t := h.memFrame.rest

/-- R65: an error record leaves the units, whichever cell it is of. -/
theorem State.recordError_restKept (s : State) (cell cls addr info : Nat) : s.RestKept (s.recordError cell cls addr info) := by
  have hset := fun (s : State) (f : Fld) v => s.setReg_restKept f.reg cell v 0
  have he : s.RestKept (s.errCounted cell cls) := by
    obtain ⟨_, _, h⟩ := s.errCounted_eq cell cls
    rw [h]
    exact ⟨_, _, _, _, _, _, _, _, _, rfl⟩
  rw [State.recordError_eq]
  split
  · exact (he.trans (hset _ F.CELL_ERR_STATUS_COUNT _)).trans (hset _ F.CELL_ERR_STATUS_OVERFLOW _)
  · refine State.RestKept.trans ?_ (State.event_memFrame _ _).rest
    exact (((((he.trans (hset _ F.CELL_ERR_STATUS_CLASS _)).trans (hset _ F.CELL_ERR_STATUS_COUNT _)).trans
      (hset _ F.CELL_ERR_STATUS_VALID _)).trans (hset _ F.CELL_ERR_ADDR_ADDR _)).trans (hset _ F.CELL_ERR_TIME_TIME _)).trans
      (hset _ F.CELL_ERR_INFO_INFO _)

@[simp] theorem State.recordError_movers (s : State) (cell cls addr info : Nat) : (s.recordError cell cls addr info).movers = s.movers :=
  (s.recordError_restKept ..).movers

@[simp] theorem State.recordError_pci (s : State) (cell cls addr info : Nat) : (s.recordError cell cls addr info).pci = s.pci :=
  (s.recordError_restKept ..).pci

@[simp] theorem State.count_movers (s : State) (cell ev : Nat) (qual : Option Nat) (inc : Nat) :
    (s.count cell ev qual inc).movers = s.movers := (s.count_photOnly ..).restKept.movers

@[simp] theorem State.count_pci (s : State) (cell ev : Nat) (qual : Option Nat) (inc : Nat) :
    (s.count cell ev qual inc).pci = s.pci := (s.count_photOnly ..).restKept.pci

@[simp] theorem State.noteRead_movers (s : State) (la : Nat) (r : LineRead) : (s.noteRead la r).movers = s.movers :=
  (s.noteRead_memFrame ..).rest.movers

@[simp] theorem State.writeMem_movers (s : State) (a : Nat) (bs : List Byte) (mark : Bool) (fuel : Nat) :
    (s.writeMem a bs mark fuel).movers = s.movers := (s.writeMem_memFrame ..).rest.movers

end Rest

/-! ### The state of a mover -/

theorem State.mover_congr {s t : State} (h : t.movers = s.movers) (m : Nat) : t.mover m = s.mover m := by
  rw [State.mover, State.mover, h]

/-- A mover's state, after a mover's state is replaced. -/
theorem State.mover_setMover (s : State) (m k : Nat) (x : MoverState) : (s.setMover m x).mover k = if k = m then x else s.mover k :=
  smapGet_set

theorem State.mover_setRun (s : State) (m k : Nat) (r : MovRun) :
    (s.setRun m r).mover k = if k = m then { s.mover m with run := some r } else s.mover k := s.mover_setMover ..

@[simp] theorem State.mover_setRun_self (s : State) (m : Nat) (r : MovRun) :
    (s.setRun m r).mover m = { s.mover m with run := some r } := by
  rw [State.mover_setRun, if_pos rfl]

@[simp] theorem State.setRun_mem (s : State) (m : Nat) (r : MovRun) : (s.setRun m r).mem = s.mem := rfl

@[simp] theorem State.setRun_pci (s : State) (m : Nat) (r : MovRun) : (s.setRun m r).pci = s.pci := rfl

/-! ### The head descriptor starts -/

/-- R198: the state once mover m has taken its head descriptor d. -/
def State.movTaken (s : State) (m : Nat) (d : MovDesc) (rest : List MovDesc) : State :=
  (s.setMover m { s.mover m with queue := rest, run := some { desc := d, startTime := s.now } }).noteLevels

theorem State.mover_movTaken (s : State) (m : Nat) (d : MovDesc) (rest : List MovDesc) :
    (s.movTaken m d rest).mover m = { s.mover m with queue := rest, run := some { desc := d, startTime := s.now } } :=
  (s.mover_setMover m m _).trans (if_pos rfl)

/-- R207: the checks are those of the rings in force, not of the movers. -/
theorem State.movCheck_movTaken (s : State) (m : Nat) (d : MovDesc) (rest : List MovDesc) (e : MovDesc) :
    (s.movTaken m d rest).movCheck e = s.movCheck e := by
  simp only [State.movCheck, State.extentFree_congr (s := s) (t := s.movTaken m d rest) rfl]

/-- R198, R203, R207: nothing holds the head descriptor back: it is refused with the code of its checks, or starts. -/
theorem State.MoverReady.movStart {s : State} {m : Nat} {d : MovDesc} {rest : List MovDesc} (h : s.MoverReady m d rest) {op : Nat}
    (hop : d.op = op) (go : MovRun → State → State) :
    s.movStart m op go =
      let r : MovRun := { desc := d, startTime := s.now }
      if s.movCheck d ≠ 0 then (s.movTaken m d rest).movRefuse m r (s.movCheck d) else go r (s.movTaken m d rest) := by
  obtain ⟨-, hen, hpause, hqueue, hrun, hflushed, hwait⟩ := h
  have htaken : (s.setMover m { s.mover m with queue := rest, run := some { desc := d, startTime := s.now } }).noteLevels =
    s.movTaken m d rest := rfl
  unfold State.movStart
  simp only [hqueue]
  rw [if_neg (by simp [hop]), if_neg (by simp [hen, hpause, hrun, hflushed, hwait])]
  simp only [htaken, State.movCheck_movTaken]

theorem State.movCheck_lt (s : State) (d : MovDesc) : s.movCheck d < 2 ^ 8 := by
  unfold State.movCheck
  dsimp only
  split_ifs <;> decide

/-- R207: a refused descriptor has ended, with class PROTOCOL in the cell of its mover. -/
theorem State.movRefuse_spec (s : State) {m : Nat} (hm : moverCell m < 0x10000) (r : MovRun) {code : Nat} (hcode : code < 2 ^ 8) :
    let t := s.movRefuse m r code
    t.mover m = { s.mover m with run := some { r with status := 1, refuse := code, ended := true } } ∧ t.mem = s.mem ∧
      (s.flag F.CELL_ERR_STATUS_VALID (moverCell m) = false → t.fld F.CELL_ERR_STATUS_CLASS (moverCell m) = 0x06 ∧
        t.fld F.CELL_ERR_INFO_INFO (moverCell m) = code + r.desc.ticket % 2 ^ 24 * 2 ^ 8) := by
  refine ⟨?_, State.recordError_mem .., fun hv => ?_⟩
  · exact (State.mover_congr (State.recordError_movers ..) m).trans (s.mover_setRun_self m _)
  · obtain ⟨-, hcls, hinfo⟩ := State.recordError_first (s := s.setRun m { r with status := movProtocol, refuse := code, ended := true })
      hm hv clsProtocol 0 (code + r.desc.ticket % 2 ^ 24 * 2 ^ 8)
    refine ⟨hcls, hinfo.trans (Nat.mod_eq_of_lt ?_)⟩
    have := Nat.mod_lt r.desc.ticket (show 2 ^ 24 > 0 by decide)
    omega

theorem moverCell_lt : ∀ m : Fin 64, moverCell m.val < 0x10000 := by decide

end Sys2Proof.Machine
end

section
/-! SUPPORT. What reads and writes of memory do where nothing is met (R594, R597, R602), and the moves of COPY and SWEEP (R200 to R202). -/

namespace Sys2Proof.Machine

open Sys2Proof

/-! ### Lines without errors -/

/-- Stored bytes, one by one. -/
theorem State.bytes_eq_map (s : State) (a n : Nat) : s.bytes a n = (List.range n).map fun i => s.byte (a + i) := by
  induction n generalizing a with
  | zero => rfl
  | succ n ih =>
    rw [State.bytes, ih, List.range_succ_eq_map, List.map_cons, List.map_map]
    congr 1
    exact List.map_congr_left fun i _ => congrArg s.byte (by simp only [Nat.succ_eq_add_one]; omega)

@[simp] theorem State.length_bytes (s : State) (a n : Nat) : (s.bytes a n).length = n := by
  simp [State.bytes_eq_map]

theorem State.getD_bytes (s : State) (a : Nat) {n i : Nat} (h : i < n) : (s.bytes a n).getD i 0 = s.byte (a + i) := by
  simp [State.bytes_eq_map, List.getD_eq_getElem?_getD, h]

/-- R594: a line without errors reads as it is stored, and nothing is recorded of it. -/
theorem State.readLine_of_clean {s : State} {la : Nat} (h : s.lineErrOf la = LineErr.clean) (sweep : Bool) :
    s.readLine la sweep = ⟨s.bytes la 64, false, 0, 0⟩ := by
  have hjudge : LineErr.clean.map WordErr.judge = List.replicate 8 .clean := by decide
  have hfirst : ((List.range 8).find? fun w => (List.replicate 8 WordState.clean).getD w .clean != .clean) = none := by decide
  unfold State.readLine
  simp only [h, hjudge, hfirst]

/-- R595: such a read is counted, no more. -/
theorem State.noteRead_photOnly (s : State) (la : Nat) {r : LineRead} (h : r.cls = 0) : s.PhotOnly (s.noteRead la r) := by
  unfold State.noteRead
  split
  · exact .refl s
  · rw [if_pos h]
    split_ifs
    · exact s.count_photOnly ..
    · exact s.count_photOnly ..
    · exact .refl s

/-! ### Spans of memory -/

/-- R598: memory is at hand where the cell of every granule is ENABLED. -/
theorem State.memUp_iff (s : State) (a n : Nat) : s.memUp a n = true ↔
    ∀ k < (4095 + (n + a % 4096)) / 4096, ∃ c, memCell (a - a % 4096 + 4096 * k) = some c ∧ s.enabled c = true := by
  simp only [State.memUp, List.all_eq_true, List.mem_range]
  refine forall₂_congr fun k _ => ?_
  cases memCell (a - a % 4096 + 4096 * k) <;> simp

/-- What lies within memory at hand is at hand. -/
theorem State.memUp_within {s : State} {a n b k : Nat} (h : s.memUp a n = true) (hab : a ≤ b) (hk : b + k ≤ a + n) :
    s.memUp b k = true := by
  rw [State.memUp_iff] at h ⊢
  intro j hj
  obtain ⟨c, hc, hen⟩ := h (b / 4096 - a / 4096 + j) (by omega)
  refine ⟨c, ?_, hen⟩
  rw [← hc]
  congr 1
  omega

/-! ### Plain memory -/

/-- A store of memory: nothing else differs but counts. -/
def State.StoreOnly (s t : State) : Prop :=
  ∃ phot mem lineErr valid, t = { s with phot := phot, mem := mem, lineErr := lineErr, valid := valid }

/-- Memory in which a line read or written meets nothing. -/
def State.Plain (s : State) : Prop :=
  (∀ la, s.lineErrOf la = LineErr.clean) ∧ (∀ la, s.flipFor la = none) ∧ s.epoch.retained = false ∧ s.epoch.broken = []

section Plain
variable {s t u : State}

theorem State.StoreOnly.refl (s : State) : s.StoreOnly s := ⟨_, _, _, _, rfl⟩

theorem State.StoreOnly.trans (h : s.StoreOnly t) (k : t.StoreOnly u) : s.StoreOnly u := by
  obtain ⟨_, _, _, _, rfl⟩ := h
  obtain ⟨_, _, _, _, rfl⟩ := k
  exact ⟨_, _, _, _, rfl⟩

theorem State.PhotOnly.storeOnly (h : s.PhotOnly t) : s.StoreOnly t := by
  obtain ⟨_, rfl⟩ := h
  exact ⟨_, _, _, _, rfl⟩

theorem State.StoreOnly.movers (h : s.StoreOnly t) : t.movers = s.movers := by
  obtain ⟨_, _, _, _, rfl⟩ := h
  rfl

theorem State.StoreOnly.memUp (h : s.StoreOnly t) (a n : Nat) : t.memUp a n = s.memUp a n := by
  obtain ⟨_, _, _, _, rfl⟩ := h
  exact State.memUp_congr (by rfl) (by rfl) (by rfl) a n

theorem State.StoreOnly.plain (h : s.StoreOnly t) (hp : s.Plain) (hc : ∀ la, t.lineErrOf la = LineErr.clean) : t.Plain := by
  obtain ⟨_, _, _, _, rfl⟩ := h
  obtain ⟨-, hflip, hret, hbroken⟩ := hp
  exact ⟨hc, fun la => (State.flipFor_congr (by rfl) la).trans (hflip la), hret, hbroken⟩

theorem State.PhotOnly.plain (h : s.PhotOnly t) (hp : s.Plain) : t.Plain := by
  refine h.storeOnly.plain hp fun la => ?_
  obtain ⟨_, rfl⟩ := h
  exact hp.1 la

theorem State.PhotOnly.byte (h : s.PhotOnly t) (a : Nat) : t.byte a = s.byte a := by
  obtain ⟨_, rfl⟩ := h
  rfl

/-- R572: no epoch is retained or broken: a write copies nothing. -/
theorem State.Plain.copyOnWrite (h : s.Plain) (a : Nat) : s.copyOnWrite a = s := by
  obtain ⟨-, -, hret, hbroken⟩ := h
  simp [State.copyOnWrite, hret, hbroken, granuleOf]

/-- What a move of n bytes leaves: the destination holds the source's bytes, and every other byte is as it was. -/
structure State.Moved (s t : State) (src dst n : Nat) : Prop where
  stores : s.StoreOnly t
  plain : t.Plain
  inside : ∀ j < n, t.byte (dst + j) = s.byte (src + j)
  outside : ∀ a, (∀ j < n, a ≠ dst + j) → t.byte a = s.byte a

/-- R597: a whole line is written. -/
theorem State.Plain.writeLine (h : s.Plain) {la : Nat} (hla : la % 64 = 0) {bs : List Byte} (hbs : bs.length = 64) :
    s.StoreOnly (s.writeLine la bs false) ∧ (s.writeLine la bs false).Plain ∧
      ∀ a, (s.writeLine la bs false).byte a = if la ≤ a ∧ a < la + 64 then bs.getD (a - la) 0 else s.byte a := by
  have hline : lineOf la = la := by simp only [lineOf, hla, Nat.sub_zero]
  unfold State.writeLine
  extract_lets u
  have hu : s.PhotOnly u := by
    dsimp only [u]
    split
    · split_ifs
      · exact s.count_photOnly ..
      · exact s.count_photOnly ..
      · exact .refl s
    · exact .refl s
  clear_value u
  have hp := hu.plain h
  rw [hp.2.1 la]
  dsimp only
  have hstore : u.StoreOnly { u with
      mem := Memory.setBytes u.mem (lineOf la) (bs.take 64)
      lineErr := smapSet (fun _ => LineErr.clean) u.lineErr (lineOf la) (List.replicate 8 { marked := false })
      valid := smapSet (fun _ => false) u.valid (lineOf la) true } := ⟨_, _, _, _, rfl⟩
  refine ⟨hu.storeOnly.trans hstore, hstore.plain hp fun a => ?_, fun a => ?_⟩
  · change smapGet (fun _ => LineErr.clean) (smapSet (fun _ => LineErr.clean) u.lineErr (lineOf la) LineErr.clean) a = _
    rw [smapGet_set]
    split
    · rfl
    · exact hp.1 a
  · refine Memory.get_setBytes.trans ?_
    rw [hline, List.take_of_length_le hbs.le, hbs]
    exact if_congr Iff.rfl rfl (hu.byte a)

/-- R597: a write of one line that lies whole in it. -/
theorem State.Plain.writeMem_line (h : s.Plain) {la : Nat} (hla : la % 64 = 0) {bs : List Byte} (hbs : bs.length = 64) :
    s.writeMem la bs false 2 = s.writeLine la bs false := by
  have htake : bs.take (64 - la % 64) = bs := by rw [hla, List.take_of_length_le hbs.le]
  have hdrop : bs.drop (64 - la % 64) = [] := by rw [hla, List.drop_eq_nil_of_le hbs.le]
  have hline : lineOf la = la := by simp only [lineOf, hla, Nat.sub_zero]
  cases bs with
  | nil => simp at hbs
  | cons b bs => simp only [State.writeMem, htake, hdrop, h.copyOnWrite, State.writeInLine, if_pos hbs, hline]

/-- R200, R202: one line of a COPY whose source no write of it has changed. -/
theorem State.Plain.copyLine (h : s.Plain) {old : State} (hold : ∀ la, old.lineErrOf la = LineErr.clean) {src dst : Nat}
    (hdst : dst % 64 = 0) (hsame : ∀ j < 64, s.byte (src + j) = old.byte (src + j)) :
    ∃ t, s.copyLine old src dst = (false, t) ∧ s.Moved t src dst 64 := by
  have hbytes : old.bytes src 64 = s.bytes src 64 := by
    simp only [State.bytes_eq_map]
    exact List.map_congr_left fun j hj => (hsame j (List.mem_range.mp hj)).symm
  have hu := s.noteRead_photOnly src (r := ⟨s.bytes src 64, false, 0, 0⟩) rfl
  unfold State.copyLine
  simp only [State.readLine_of_clean (hold src), State.readLine_of_clean (h.1 src), hbytes, and_self, if_true]
  rw [(hu.plain h).writeMem_line hdst (s.length_bytes ..)]
  obtain ⟨hstore, hplain, hbyte⟩ := (hu.plain h).writeLine hdst (s.length_bytes src 64)
  refine ⟨_, rfl, hu.storeOnly.trans hstore, hplain, fun j hj => ?_, fun a ha => ?_⟩
  · rw [hbyte, if_pos (by omega), Nat.add_sub_cancel_left, s.getD_bytes src hj]
  · rw [hbyte, if_neg, hu.byte]
    exact fun hin => ha (a - dst) (by omega) (by omega)

theorem State.Moved.refl (h : s.Plain) (src dst : Nat) : s.Moved s src dst 0 where
  stores := .refl s
  plain := h
  inside j hj := absurd hj (Nat.not_lt_zero j)
  outside _ _ := rfl

/-- Two moves side by side are one. -/
theorem State.Moved.append {src dst n k : Nat} (h : s.Moved t src dst n) (g : t.Moved u (src + n) (dst + n) k)
    (hap : src + (n + k) ≤ dst ∨ dst + (n + k) ≤ src) : s.Moved u src dst (n + k) where
  stores := h.stores.trans g.stores
  plain := g.plain
  inside j hj := by
    by_cases hn : j < n
    · rw [g.outside _ fun i _ => by omega, h.inside j hn]
    · obtain ⟨i, rfl⟩ : ∃ i, j = n + i := ⟨j - n, by omega⟩
      rw [← Nat.add_assoc, g.inside i (by omega), h.outside _ fun i' _ => by omega, Nat.add_assoc]
  outside a ha := by
    rw [g.outside a fun i _ => by have := ha (n + i) (by omega); omega, h.outside a fun i _ => ha i (by omega)]

theorem State.Moved.photOnly {src dst n : Nat} (h : s.Moved t src dst n) (k : t.PhotOnly u) : s.Moved u src dst n where
  stores := h.stores.trans k.storeOnly
  plain := k.plain h.plain
  inside j hj := (k.byte _).trans (h.inside j hj)
  outside a ha := (k.byte a).trans (h.outside a ha)

/-- R200: one row of a COPY. -/
theorem State.Plain.copyRow (h : s.Plain) {old : State} (hold : ∀ la, old.lineErrOf la = LineErr.clean) (m : Nat) (r : MovRun)
    {src dst n : Nat} (hsrc : s.memUp src (64 * n) = true) (hdst : s.memUp dst (64 * n) = true) (hal : dst % 64 = 0)
    (hap : src + 64 * n ≤ dst ∨ dst + 64 * n ≤ src) (hsame : ∀ j < 64 * n, s.byte (src + j) = old.byte (src + j)) :
    ∃ t, s.copyRow old m r src dst n = ({ r with bytes := r.bytes + 64 * n }, false, t) ∧ s.Moved t src dst (64 * n) := by
  induction n generalizing s r src dst with
  | zero => exact ⟨s, rfl, .refl h src dst⟩
  | succ n ih =>
    obtain ⟨w, hw, hmoved⟩ := h.copyLine hold hal fun j hj => hsame j (by omega)
    have hcount : w.PhotOnly ((w.count (moverCell m) (evOf 0x16 0) none 64).count (moverCell m) (evOf 0x16 1) none 64) :=
      (w.count_photOnly ..).trans (State.count_photOnly ..)
    have hmoved' := hmoved.photOnly hcount
    obtain ⟨t, ht, hrest⟩ := ih hmoved'.plain { r with bytes := r.bytes + 64 } (src := src + 64) (dst := dst + 64)
      ((hmoved'.stores.memUp ..).trans (State.memUp_within hsrc (by omega) (by omega)))
      ((hmoved'.stores.memUp ..).trans (State.memUp_within hdst (by omega) (by omega))) (by omega) (by omega)
      fun j hj => by
        rw [hmoved'.outside _ fun i _ => by omega, Nat.add_assoc]
        exact hsame _ (by omega)
    refine ⟨t, ?_, ?_⟩
    · rw [State.copyRow, if_neg (by
        simp [State.memUp_within hsrc (b := src) (k := 64) le_rfl (by omega), State.memUp_within hdst (b := dst) (k := 64) le_rfl (by omega)])]
      simp only [hw, Bool.false_eq_true, if_false, Bool.toNat_false, Nat.add_zero, ht]
      congr 2
      omega
    · have := hmoved'.append hrest (by omega)
      rwa [show 64 + 64 * n = 64 * (n + 1) by ring] at this

end Plain

/-- What the moves of several rows of n bytes leave. -/
structure State.MovedRows (s t : State) (rows : List (Nat × Nat)) (n : Nat) : Prop where
  stores : s.StoreOnly t
  inside : ∀ p ∈ rows, ∀ j < n, t.byte (p.2 + j) = s.byte (p.1 + j)
  outside : ∀ a, (∀ p ∈ rows, ∀ j < n, a ≠ p.2 + j) → t.byte a = s.byte a

/-- Rows of n bytes that can be moved one after another: the destinations lie apart, and no source meets a destination. -/
structure RowsApart (rows : List (Nat × Nat)) (n : Nat) : Prop where
  dsts : rows.Pairwise fun p q => p.2 + n ≤ q.2 ∨ q.2 + n ≤ p.2
  srcs : ∀ p ∈ rows, ∀ q ∈ rows, p.1 + n ≤ q.2 ∨ q.2 + n ≤ p.1

/-- R200: a COPY whose rows do not overlap. -/
theorem State.Plain.copyRows {s old : State} (h : s.Plain) (hold : ∀ la, old.lineErrOf la = LineErr.clean) (m : Nat) (r : MovRun)
    {rows : List (Nat × Nat)} (hup : ∀ p ∈ rows, s.memUp p.1 r.desc.rowBytes = true ∧ s.memUp p.2 r.desc.rowBytes = true)
    (hal : ∀ p ∈ rows, p.2 % 64 = 0) (hn : r.desc.rowBytes % 64 = 0) (hap : RowsApart rows r.desc.rowBytes)
    (hsame : ∀ p ∈ rows, ∀ j < r.desc.rowBytes, s.byte (p.1 + j) = old.byte (p.1 + j)) :
    ∃ t, s.copyRows old m r rows = t.setRun m { r with bytes := r.bytes + rows.length * r.desc.rowBytes, ended := true } ∧
      s.MovedRows t rows r.desc.rowBytes := by
  induction rows generalizing s r with
  | nil => exact ⟨s, by simp [State.copyRows], .refl s, by simp, fun _ _ => rfl⟩
  | cons p rows ih =>
    obtain ⟨src, dst⟩ := p
    have hlines : 64 * (r.desc.rowBytes / 64) = r.desc.rowBytes := by omega
    obtain ⟨hdst, hdsts⟩ := List.pairwise_cons.mp hap.dsts
    have hhead : (src, dst) ∈ (src, dst) :: rows := List.mem_cons_self
    have htail : ∀ {q}, q ∈ rows → q ∈ (src, dst) :: rows := List.mem_cons_of_mem _
    obtain ⟨w, hw, hmoved⟩ := h.copyRow hold m r (n := r.desc.rowBytes / 64) (by rw [hlines]; exact (hup _ hhead).1)
      (by rw [hlines]; exact (hup _ hhead).2) (hal _ hhead) (by rw [hlines]; exact hap.srcs _ hhead _ hhead)
      (by rw [hlines]; exact hsame _ hhead)
    rw [hlines] at hw hmoved
    obtain ⟨t, ht, hrest⟩ := ih hmoved.plain { r with bytes := r.bytes + r.desc.rowBytes }
      (fun q hq => by simpa only [hmoved.stores.memUp] using hup q (htail hq)) (fun q hq => hal q (htail hq)) hn
      ⟨hdsts, fun q hq q' hq' => hap.srcs q (htail hq) q' (htail hq')⟩
      fun q hq j hj => by
        have hq' : q.1 + r.desc.rowBytes ≤ dst ∨ dst + r.desc.rowBytes ≤ q.1 := hap.srcs q (htail hq) _ hhead
        rw [hmoved.outside _ fun i hi => by dsimp only at hj; omega]
        exact hsame q (htail hq) j hj
    dsimp only at ht hrest
    refine ⟨t, ?_, hmoved.stores.trans hrest.stores, fun q hq j hj => ?_, fun a ha => ?_⟩
    · rw [State.copyRows, hw]
      simp only [Bool.false_eq_true, if_false, ht, List.length_cons]
      congr 2
      ring
    · rcases List.mem_cons.mp hq with rfl | hq
      · rw [hrest.outside _ fun q hq i hi => by have : dst + _ ≤ q.2 ∨ _ := hdst q hq; dsimp only; omega, hmoved.inside j hj]
      · rw [hrest.inside q hq j hj, hmoved.outside]
        intro i hi
        have hq' : q.1 + r.desc.rowBytes ≤ dst ∨ dst + r.desc.rowBytes ≤ q.1 := hap.srcs q (htail hq) _ hhead
        omega
    · rw [hrest.outside a fun q hq => ha q (htail hq), hmoved.outside a (ha _ hhead)]

end Sys2Proof.Machine
end

section
/-! SUPPORT. How a COPY and a SWEEP end (R200, R201, R204, R206), whatever memory they meet. -/

namespace Sys2Proof.Machine

open Sys2Proof

/-- A run q of r's descriptor that has ended, and that no check has refused. -/
structure MovRun.EndOf (r q : MovRun) : Prop where
  desc : q.desc = r.desc
  ended : q.ended = true
  status : q.status = r.status ∨ q.status = 6

/-! ### COPY -/

@[simp] theorem State.copyLine_movers (s old : State) (src dst : Nat) : (s.copyLine old src dst).2.movers = s.movers := by
  unfold State.copyLine
  dsimp only
  split_ifs <;> simp

theorem State.copyRow_frame (s old : State) (m : Nat) (r : MovRun) (src dst n : Nat) :
    (∃ b p, (s.copyRow old m r src dst n).1 = { r with bytes := b, poisonLines := p }) ∧
      (s.copyRow old m r src dst n).2.2.movers = s.movers := by
  induction n generalizing s r src dst with
  | zero => exact ⟨⟨_, _, rfl⟩, rfl⟩
  | succ n ih =>
    unfold State.copyRow
    split
    · exact ⟨⟨_, _, rfl⟩, rfl⟩
    · obtain ⟨⟨b, p, hrun⟩, hmovers⟩ := ih _ _ _ _
      refine ⟨⟨b, p, hrun⟩, hmovers.trans ?_⟩
      split_ifs <;> simp

theorem State.copyRows_ended (s old : State) (m : Nat) (r : MovRun) (rows : List (Nat × Nat)) :
    ∃ (t : State) (q : MovRun), s.copyRows old m r rows = t.setRun m q ∧ t.movers = s.movers ∧ r.EndOf q := by
  induction rows generalizing s r with
  | nil => exact ⟨s, _, rfl, rfl, rfl, rfl, .inl rfl⟩
  | cons p rows ih =>
    obtain ⟨⟨b, k, hrun⟩, hmovers⟩ := s.copyRow_frame old m r p.1 p.2 (r.desc.rowBytes / 64)
    unfold State.copyRows
    dsimp only
    rw [hrun]
    split
    · exact ⟨_, _, rfl, hmovers, rfl, rfl, .inr rfl⟩
    · obtain ⟨t, q, ht, hmovers', hend⟩ := ih (s.copyRow old m r p.1 p.2 (r.desc.rowBytes / 64)).2.2 { r with bytes := b, poisonLines := k }
      exact ⟨t, q, ht, hmovers'.trans hmovers, hend.desc, hend.ended, hend.status⟩

/-! ### The rows of a COPY -/

/-- The rows of a COPY: where each is read and where it is written. -/
def MovDesc.copyRows (d : MovDesc) (ss ds : Nat) : List (Nat × Nat) := (List.range d.rows).map fun i => (d.src + i * ss, d.dst + i * ds)

theorem MovDesc.mem_copyRows {d : MovDesc} {ss ds : Nat} {p : Nat × Nat} :
    p ∈ d.copyRows ss ds ↔ ∃ i < d.rows, p = (d.src + i * ss, d.dst + i * ds) := by
  simp [MovDesc.copyRows, eq_comm]

/-- R199: a row lies in the span of its rows. -/
theorem MovDesc.row_le_span (d : MovDesc) {i : Nat} (hi : i < d.rows) (st : Nat) : i * st + d.rowBytes ≤ d.span st := by
  unfold MovDesc.span
  split
  · next h =>
    obtain rfl : i = 0 := by omega
    omega
  · have := Nat.mul_le_mul_right st (show i ≤ d.rows - 1 by omega)
    omega

/-- R207, R209: a check whose code is no 0 has passed, and so have those after it. -/
theorem of_ite_eq_zero {c : Prop} [Decidable c] {code next : Nat} (hcode : code ≠ 0) (h : (if c then code else next) = 0) :
    ¬ c ∧ next = 0 := by
  split_ifs at h with hc
  · exact absurd h hcode
  · exact ⟨hc, h⟩

/-- R207: what the checks leave of a COPY. -/
structure MovDesc.CopyFits (d : MovDesc) (ss ds : Nat) : Prop where
  row : d.rowBytes % 64 = 0
  dst : d.dst % 64 = 0
  stride : 1 < d.rows → ds % 64 = 0 ∧ d.rowBytes ≤ ds

theorem State.copyFits_of_check {s : State} {d : MovDesc} (hop : d.op = 1) (h : s.movCheck d = 0) :
    d.CopyFits (wfield d.words 10 31 0) (wfield d.words 11 31 0) := by
  obtain ⟨-, h⟩ := of_ite_eq_zero (by decide) h
  obtain ⟨hrow, h⟩ := of_ite_eq_zero (by decide) h
  obtain ⟨halign, -⟩ := of_ite_eq_zero (by decide) h
  simp only [hop, not_or, not_and, not_not, Bool.and_eq_true, Bool.or_eq_true, decide_eq_true_eq, bne_iff_ne, ne_eq, not_lt] at hrow halign
  obtain ⟨-, hdst, -, -, hds⟩ := halign
  exact ⟨(hrow.2 (by decide)).2, hdst trivial, hds trivial⟩

theorem MovDesc.CopyFits.rowsApart {d : MovDesc} {ss ds : Nat} (h : d.CopyFits ss ds)
    (hap : d.src + d.span ss ≤ d.dst ∨ d.dst + d.span ds ≤ d.src) : RowsApart (d.copyRows ss ds) d.rowBytes where
  dsts := by
    refine List.pairwise_map.mpr (List.Pairwise.imp_of_mem ?_ List.pairwise_lt_range)
    intro i j hi hj hij
    obtain ⟨-, hds⟩ := h.stride (by have := List.mem_range.mp hj; omega)
    have := Nat.mul_le_mul_right ds (show i + 1 ≤ j from hij)
    rw [Nat.add_mul, Nat.one_mul] at this
    left
    dsimp only
    omega
  srcs p hp q hq := by
    obtain ⟨i, hi, rfl⟩ := mem_copyRows.mp hp
    obtain ⟨j, hj, rfl⟩ := mem_copyRows.mp hq
    have hsrc := d.row_le_span hi ss
    have hdst := d.row_le_span hj ds
    dsimp only
    rcases hap with hap | hap <;> omega

/-- R200: where a COPY meets nothing and its rows do not overlap, every row is moved. -/
theorem State.copyRows_of_plain {s : State} (h : s.Plain) (m : Nat) (r : MovRun) {ss ds : Nat} (hfit : r.desc.CopyFits ss ds)
    (hsrc : s.memUp r.desc.src (r.desc.span ss) = true) (hdst : s.memUp r.desc.dst (r.desc.span ds) = true)
    (hap : r.desc.src + r.desc.span ss ≤ r.desc.dst ∨ r.desc.dst + r.desc.span ds ≤ r.desc.src) :
    ∃ t, s.copyRows s m r (r.desc.copyRows ss ds) =
        t.setRun m { r with bytes := r.bytes + r.desc.rows * r.desc.rowBytes, ended := true } ∧
      s.MovedRows t (r.desc.copyRows ss ds) r.desc.rowBytes := by
  have hlen : (r.desc.copyRows ss ds).length = r.desc.rows := by simp [MovDesc.copyRows]
  rw [← hlen]
  refine h.copyRows h.1 m r (fun p hp => ?_) (fun p hp => ?_) hfit.row (hfit.rowsApart hap) fun _ _ _ _ => rfl
  · obtain ⟨i, hi, rfl⟩ := MovDesc.mem_copyRows.mp hp
    have hs := r.desc.row_le_span hi ss
    have hd := r.desc.row_le_span hi ds
    exact ⟨State.memUp_within hsrc (by omega) (by dsimp only; omega), State.memUp_within hdst (by omega) (by dsimp only; omega)⟩
  · obtain ⟨i, hi, rfl⟩ := MovDesc.mem_copyRows.mp hp
    have hal := hfit.dst
    dsimp only
    by_cases hr : 1 < r.desc.rows
    · obtain ⟨hds, -⟩ := hfit.stride hr
      rw [Nat.add_mod, Nat.mul_mod, hds, hal]
      simp
    · obtain rfl : i = 0 := by omega
      omega

/-! ### SWEEP -/

theorem State.sweepLine_movers (s : State) (a : Nat) : (s.sweepLine a).2.2.movers = s.movers := by
  unfold State.sweepLine
  dsimp only
  split_ifs
  · rfl
  · exact s.noteRead_movers ..
  · exact ((State.writeLine_memFrame ..).rest.movers.trans (State.copyOnWrite_memFrame ..).rest.movers).trans (s.noteRead_movers ..)
  · exact s.noteRead_movers ..

/-- R201, R602: a line without errors is swept. -/
theorem State.sweepLine_of_clean {s : State} (h : ∀ la, s.lineErrOf la = LineErr.clean) (a : Nat) :
    ∃ t, s.sweepLine a = (false, false, t) ∧ s.PhotOnly t := by
  unfold State.sweepLine
  split
  · exact ⟨s, rfl, .refl s⟩
  · rw [State.readLine_of_clean (h a)]
    exact ⟨_, rfl, s.noteRead_photOnly a rfl⟩

theorem State.sweepRow_frame (s : State) (m : Nat) (r : MovRun) (a n : Nat) :
    (∃ c p, (s.sweepRow m r a n).1 = { r with corrected := c, poisonLines := p }) ∧ (s.sweepRow m r a n).2.2.movers = s.movers := by
  induction n generalizing s r a with
  | zero => exact ⟨⟨_, _, rfl⟩, rfl⟩
  | succ n ih =>
    unfold State.sweepRow
    split
    · exact ⟨⟨_, _, rfl⟩, rfl⟩
    · obtain ⟨⟨c, p, hrun⟩, hmovers⟩ := ih _ _ _
      refine ⟨⟨c, p, hrun⟩, hmovers.trans ?_⟩
      split_ifs <;> simp [State.sweepLine_movers]

theorem State.sweepRow_of_clean {s : State} (h : ∀ la, s.lineErrOf la = LineErr.clean) (m : Nat) (r : MovRun) (a n : Nat) :
    (s.sweepRow m r a n).1 = r ∧ s.PhotOnly (s.sweepRow m r a n).2.2 := by
  induction n generalizing s a with
  | zero => exact ⟨rfl, .refl s⟩
  | succ n ih =>
    unfold State.sweepRow
    split
    · exact ⟨rfl, .refl s⟩
    · obtain ⟨t, ht, hphot⟩ := State.sweepLine_of_clean h a
      have hu := hphot.trans (t.count_photOnly (moverCell m) (evOf 0x16 0) none 64)
      simp only [ht, Bool.false_eq_true, if_false, Bool.toNat_false, Nat.add_zero]
      obtain ⟨hrun, hrest⟩ := ih (s := t.count (moverCell m) (evOf 0x16 0) none 64) (fun la => by
        obtain ⟨_, hu⟩ := hu
        rw [hu]
        exact h la) (a + 64)
      exact ⟨hrun, hu.trans hrest⟩

/-- R201, R206: a SWEEP ends, or a memory cell has failed; of a memory without errors it changes and finds nothing. -/
theorem State.sweepRows_ended (s : State) (m : Nat) (r : MovRun) (rows : List Nat) :
    ∃ (t : State) (q : MovRun), s.sweepRows m r rows = t.setRun m q ∧ t.movers = s.movers ∧ r.EndOf q ∧ q.bytes = r.bytes ∧
      ((∀ la, s.lineErrOf la = LineErr.clean) → t.mem = s.mem ∧ q.corrected = r.corrected ∧ q.poisonLines = r.poisonLines) := by
  induction rows generalizing s r with
  | nil => exact ⟨s, _, rfl, rfl, ⟨rfl, rfl, .inl rfl⟩, rfl, fun _ => ⟨rfl, rfl, rfl⟩⟩
  | cons a rows ih =>
    obtain ⟨⟨c, p, hrun⟩, hmovers⟩ := s.sweepRow_frame m r a (r.desc.rowBytes / 64)
    have hclean := fun h => State.sweepRow_of_clean (s := s) h m r a (r.desc.rowBytes / 64)
    unfold State.sweepRows
    dsimp only
    generalize s.sweepRow m r a (r.desc.rowBytes / 64) = x at hrun hmovers hclean ⊢
    obtain ⟨q, failed, u⟩ := x
    dsimp only at hrun hmovers hclean ⊢
    subst hrun
    split
    · refine ⟨u, _, rfl, hmovers, ⟨rfl, rfl, .inr rfl⟩, rfl, fun h => ?_⟩
      obtain ⟨hr, _, rfl⟩ := hclean h
      have hc : c = r.corrected := congrArg MovRun.corrected hr
      exact ⟨rfl, hc, (congrArg MovRun.poisonLines hr :)⟩
    · obtain ⟨t, q, ht, hmovers', hend, hbytes, hfound⟩ := ih u { r with corrected := c, poisonLines := p }
      refine ⟨t, q, ht, hmovers'.trans hmovers, ⟨hend.desc, hend.ended, hend.status⟩, hbytes, fun h => ?_⟩
      obtain ⟨hr, _, rfl⟩ := hclean h
      obtain ⟨hmem, hc, hp⟩ := hfound h
      exact ⟨hmem, hc.trans (congrArg MovRun.corrected hr), hp.trans (congrArg MovRun.poisonLines hr)⟩

/-! ### The commands -/

section Head
variable {s : State} {m : Fin 64} {d : MovDesc} {rest : List MovDesc}

/-- R200, R201, R209: the command that starts a descriptor of its operation is `movStart`. -/
theorem exec_mover_start {i : Instr}
    (hi : (i = .moverCopy m ∧ d.op = 1) ∨ (i = .moverSweep m ∧ d.op = 2) ∨ (i = .moverFeed m ∧ d.op = 3)) :
    ∃ go, exec i s = .next (s.movStart m.val d.op go) := by
  rcases hi with ⟨rfl, h⟩ | ⟨rfl, h⟩ | ⟨rfl, h⟩ <;> rw [h] <;> exact ⟨_, rfl⟩

/-- R207: the head descriptor fails a check. -/
theorem State.MoverReady.refused (h : s.MoverReady m.val d rest) (hcode : s.movCheck d ≠ 0) (go : MovRun → State → State) :
    ∃ r, let t := s.movStart m.val d.op go
      (t.mover m.val).run = some r ∧ (t.mover m.val).queue = rest ∧ r.desc = d ∧ r.ended = true ∧ r.status = 1 ∧
        r.refuse = s.movCheck d ∧ t.mem = s.mem ∧
        (s.flag F.CELL_ERR_STATUS_VALID (moverCell m.val) = false → t.fld F.CELL_ERR_STATUS_CLASS (moverCell m.val) = 0x06 ∧
          t.fld F.CELL_ERR_INFO_INFO (moverCell m.val) = s.movCheck d + d.ticket % 2 ^ 24 * 2 ^ 8) := by
  obtain ⟨hmover, hmem, hrecord⟩ := (s.movTaken m.val d rest).movRefuse_spec (moverCell_lt m) { desc := d, startTime := s.now }
    (s.movCheck_lt d)
  refine ⟨{ desc := d, startTime := s.now, status := 1, refuse := s.movCheck d, ended := true }, ?_⟩
  rw [h.movStart rfl]
  dsimp only
  rw [if_pos hcode, hmover]
  refine ⟨rfl, ?_, rfl, rfl, rfl, rfl, hmem, hrecord⟩
  rw [State.mover_movTaken]

theorem State.movTaken_plain (h : s.Plain) (m : Nat) : (s.movTaken m d rest).Plain := by
  obtain ⟨hclean, hflip, hepoch⟩ := h
  exact ⟨hclean, fun la => (State.flipFor_congr (by rfl) la).trans (hflip la), hepoch⟩

theorem State.movTaken_memUp (m a n : Nat) : (s.movTaken m d rest).memUp a n = s.memUp a n :=
  State.memUp_congr (by rfl) (by rfl) (by rfl) a n

/-- The mover of a run that has ended in a state with its movers as they were when the descriptor was taken. -/
theorem State.mover_setRun_of_taken {t : State} {m : Nat} (h : t.movers = (s.movTaken m d rest).movers) (q : MovRun) :
    ((t.setRun m q).mover m).run = some q ∧ ((t.setRun m q).mover m).queue = rest := by
  rw [State.mover_setRun_self, State.mover_congr h, State.mover_movTaken]
  exact ⟨rfl, rfl⟩

/-- R200, R204, R206: a COPY that passes its checks ends; where it meets nothing and its rows do not overlap, with every byte moved. -/
theorem State.MoverReady.copies (h : s.MoverReady m.val d rest) (hop : d.op = 1) (hcode : s.movCheck d = 0) :
    let ss := wfield d.words 10 31 0
    let ds := wfield d.words 11 31 0
    ∃ t r, exec (.moverCopy m) s = .next t ∧ (t.mover m.val).run = some r ∧ (t.mover m.val).queue = rest ∧
      r.desc = d ∧ r.ended = true ∧ (r.status = 0 ∨ r.status = 6) ∧
      (s.PlainCopy d.src (d.span ss) d.dst (d.span ds) → d.src + d.span ss ≤ d.dst ∨ d.dst + d.span ds ≤ d.src →
        r.status = 0 ∧ r.bytes = d.rows * d.rowBytes ∧ r.poisonLines = 0 ∧
        (∀ i < d.rows, ∀ j < d.rowBytes, t.byte (d.dst + i * ds + j) = s.byte (d.src + i * ss + j)) ∧
        (∀ a, (∀ i < d.rows, ∀ j < d.rowBytes, a ≠ d.dst + i * ds + j) → t.byte a = s.byte a)) := by
  intro ss ds
  set u := s.movTaken m.val d rest with hu
  set r : MovRun := { desc := d, startTime := s.now } with hr
  have hx : exec (.moverCopy m) s = .next (u.copyRows u m.val r (d.copyRows ss ds)) := by
    change Host.Outcome.next (s.movCopy m.val) = _
    rw [State.movCopy, h.movStart hop]
    simp only [hcode, ne_eq, not_true_eq_false, if_false]
    rfl
  by_cases hplain : s.PlainCopy d.src (d.span ss) d.dst (d.span ds) ∧ (d.src + d.span ss ≤ d.dst ∨ d.dst + d.span ds ≤ d.src)
  · obtain ⟨⟨hsrc, hdst, hmem⟩, hap⟩ := hplain
    obtain ⟨t, ht, hmoved⟩ := State.copyRows_of_plain (State.movTaken_plain hmem m.val) m.val r (State.copyFits_of_check hop hcode)
      ((State.movTaken_memUp ..).trans hsrc) ((State.movTaken_memUp ..).trans hdst) hap
    obtain ⟨hrun, hqueue⟩ := State.mover_setRun_of_taken (hmoved.stores.movers)
      { r with bytes := r.bytes + d.rows * d.rowBytes, ended := true }
    refine ⟨_, _, hx.trans (congrArg _ ht), hrun, hqueue, rfl, rfl, .inl rfl, fun _ _ => ⟨rfl, Nat.zero_add _, rfl, ?_, ?_⟩⟩
    · exact fun i hi j hj => hmoved.inside _ (MovDesc.mem_copyRows.mpr ⟨i, hi, rfl⟩) j hj
    · refine fun a ha => hmoved.outside a fun p hp j hj => ?_
      obtain ⟨i, hi, rfl⟩ := MovDesc.mem_copyRows.mp hp
      exact ha i hi j hj
  · obtain ⟨t, q, ht, hmovers, hend⟩ := u.copyRows_ended u m.val r (d.copyRows ss ds)
    obtain ⟨hrun, hqueue⟩ := State.mover_setRun_of_taken hmovers q
    exact ⟨_, q, hx.trans (congrArg _ ht), hrun, hqueue, hend.desc, hend.ended, hend.status, fun hp hap => absurd ⟨hp, hap⟩ hplain⟩

/-- R201, R204, R206: a SWEEP that passes its checks ends. -/
theorem State.MoverReady.sweeps (h : s.MoverReady m.val d rest) (hop : d.op = 2) (hcode : s.movCheck d = 0) :
    ∃ t r, exec (.moverSweep m) s = .next t ∧ (t.mover m.val).run = some r ∧ (t.mover m.val).queue = rest ∧
      r.desc = d ∧ r.ended = true ∧ (r.status = 0 ∨ r.status = 6) ∧ r.bytes = 0 ∧
      ((∀ la, s.lineErrOf la = LineErr.clean) → t.mem = s.mem ∧ r.corrected = 0 ∧ r.poisonLines = 0) := by
  obtain ⟨t, q, ht, hmovers, hend, hbytes, hfound⟩ := (s.movTaken m.val d rest).sweepRows_ended m.val { desc := d, startTime := s.now }
    ((List.range d.rows).map fun i => d.src + i * wfield d.words 10 31 0)
  obtain ⟨hrun, hqueue⟩ := State.mover_setRun_of_taken hmovers q
  refine ⟨_, q, ?_, hrun, hqueue, hend.desc, hend.ended, hend.status, hbytes, hfound⟩
  change Host.Outcome.next (s.movSweep m.val) = _
  rw [State.movSweep, h.movStart hop, ← ht]
  simp only [hcode, ne_eq, not_true_eq_false, if_false]

/-- R209: a FEED that passes its checks occupies its mover. -/
theorem State.MoverReady.feeds (h : s.MoverReady m.val d rest) (hop : d.op = 3) (hcode : s.movCheck d = 0) :
    ∃ t r, exec (.moverFeed m) s = .next t ∧ (t.mover m.val).run = some r ∧ (t.mover m.val).queue = rest ∧
      r.desc = d ∧ r.ended = false ∧ r.entries = [] ∧ r.startTime = s.now ∧ MemKept s t := by
  refine ⟨s.movTaken m.val d rest, { desc := d, startTime := s.now }, ?_, ?_, ?_, rfl, rfl, rfl, rfl, .refl s⟩
  · change Host.Outcome.next (s.movStart m.val 3 _) = _
    rw [h.movStart hop]
    simp only [hcode, ne_eq, not_true_eq_false, if_false]
  · rw [State.mover_movTaken]
  · rw [State.mover_movTaken]

end Head

end Sys2Proof.Machine
end

section
/-! SUPPORT. Reads of memory by a unit (R594, R598), and the entries of a feed list as their mover reaches them (R209, R210, R215). -/

namespace Sys2Proof.Machine

open Sys2Proof

/-! ### Reads -/

/-- A read of memory: the units are left, and what is stored, with its errors. -/
structure State.Reads (s t : State) : Prop where
  rest : s.RestKept t
  mem : t.mem = s.mem
  lineErr : t.lineErr = s.lineErr

section Reads
variable {s t u : State}

theorem State.Reads.refl (s : State) : s.Reads s := ⟨.refl s, rfl, rfl⟩

theorem State.Reads.trans (h : s.Reads t) (k : t.Reads u) : s.Reads u :=
  ⟨h.rest.trans k.rest, k.mem.trans h.mem, k.lineErr.trans h.lineErr⟩

theorem State.PhotOnly.reads (h : s.PhotOnly t) : s.Reads t := by
  refine ⟨h.restKept, ?_, ?_⟩ <;> obtain ⟨_, rfl⟩ := h <;> rfl

theorem State.event_lineErr (s : State) (b : Nat) : (s.event b).lineErr = s.lineErr := rfl

theorem State.recordError_reads (s : State) (cell cls addr info : Nat) : s.Reads (s.recordError cell cls addr info) where
  rest := s.recordError_restKept ..
  mem := s.recordError_mem ..
  lineErr := by
    have he : (s.errCounted cell cls).lineErr = s.lineErr := by
      obtain ⟨_, _, h⟩ := s.errCounted_eq cell cls
      rw [h]
    rw [State.recordError_eq]
    generalize s.errCounted cell cls = u at he
    split
    · simp [he]
    · rw [State.event_lineErr]
      simp [State.newRecord, he]

theorem State.noteRead_reads (s : State) (la : Nat) (r : LineRead) : s.Reads (s.noteRead la r) := by
  unfold State.noteRead
  split
  · exact .refl s
  · next c _ =>
    extract_lets v
    have hv : s.Reads v := by
      dsimp only [v]
      split_ifs
      · exact (s.count_photOnly ..).reads
      · exact (s.count_photOnly ..).reads
      · exact .refl s
    split
    · exact hv
    · exact hv.trans (v.recordError_reads ..)

theorem State.readMem_reads (s : State) (a n fuel : Nat) : s.Reads (s.readMem a n fuel).2.2 := by
  induction fuel generalizing s a n with
  | zero => exact .refl s
  | succ fuel ih =>
    unfold State.readMem
    split
    · exact .refl s
    · exact (s.noteRead_reads ..).trans (ih ..)

theorem State.refusedRange_reads {reserved : Bool} {a n : Nat} (h : s.refusedRange reserved a n = some t) : s.Reads t := by
  unfold State.refusedRange at h
  split at h
  · obtain rfl := Option.some.inj h
    exact (s.count_photOnly ..).reads.trans (State.recordError_reads ..)
  · split_ifs at h
    obtain rfl := Option.some.inj h
    exact s.recordError_reads ..

theorem State.load_reads (s : State) (a n : Nat) (reserved : Bool) : s.Reads (s.load a n reserved).2 := by
  unfold State.load
  split
  · exact .refl s
  · split
    · next h => exact State.refusedRange_reads h
    · split
      · exact .refl s
      · exact s.readMem_reads ..

theorem State.readEntry_reads (s : State) (m i : Nat) : s.Reads (s.readEntry m i).2 := by
  unfold State.readEntry
  split
  · exact .refl s
  · dsimp only
    split <;> exact s.load_reads ..

end Reads

/-! ### The running list -/

/-- A run q of the same list as r: what an end of the descriptor leaves. -/
structure MovRun.SameList (r q : MovRun) : Prop where
  entries : q.entries = r.entries
  bytes : q.bytes = r.bytes
  desc : q.desc = r.desc

/-- R215: where the list ends, its entries stay, and no other mover is concerned. -/
theorem State.feedSettle_spec {s : State} {m : Nat} {r : MovRun} (h : (s.mover m).run = some r) :
    (∃ q, ((s.feedSettle m).mover m).run = some q ∧ r.SameList q) ∧ (s.feedSettle m).mem = s.mem ∧ (s.feedSettle m).pci = s.pci ∧
      ∀ k ≠ m, (s.feedSettle m).mover k = s.mover k := by
  have hset : ∀ q : MovRun, r.SameList q → (∃ p, ((s.setRun m q).mover m).run = some p ∧ r.SameList p) ∧ (s.setRun m q).mem = s.mem ∧
      (s.setRun m q).pci = s.pci ∧ ∀ k ≠ m, (s.setRun m q).mover k = s.mover k := fun q hq =>
    ⟨⟨q, by simp, hq⟩, rfl, rfl, fun k hk => by rw [State.mover_setRun, if_neg hk]⟩
  unfold State.feedSettle
  rw [h]
  dsimp only
  split
  · exact ⟨⟨r, h, rfl, rfl, rfl⟩, rfl, rfl, fun _ _ => rfl⟩
  · split
    · exact hset _ ⟨rfl, rfl, rfl⟩
    · next i st info _ =>
      split
      · refine ⟨⟨{ r with failEntry := i, status := movProtocol, refuse := info, ended := true }, ?_, rfl, rfl, rfl⟩, ?_, ?_, fun k hk => ?_⟩
        · rw [State.movRefuse, State.mover_congr (State.recordError_movers ..), State.mover_setRun_self]
        · exact State.recordError_mem ..
        · exact State.recordError_pci ..
        · rw [State.movRefuse, State.mover_congr (State.recordError_movers ..), State.mover_setRun, if_neg hk, State.mover_setRun, if_neg hk]
      · exact hset _ ⟨rfl, rfl, rfl⟩

/-- R210, R215: an entry of the running list takes another state. -/
theorem State.putEntry_spec {s : State} {m : Nat} {r : MovRun} (h : (s.mover m).run = some r) (i : Nat) (e : FeedEntry) :
    (∃ q, ((s.putEntry m i e).mover m).run = some q ∧ q.entries = r.entries.set i e ∧ q.bytes = r.bytes ∧ q.desc = r.desc) ∧
      (s.putEntry m i e).mem = s.mem ∧ (s.putEntry m i e).pci = s.pci ∧ ∀ k ≠ m, (s.putEntry m i e).mover k = s.mover k := by
  unfold State.putEntry
  rw [h]
  dsimp only
  generalize hq : ({ r with entries := r.entries.set i e, stopping := _ } : MovRun) = q
  obtain ⟨⟨p, hp, hsame⟩, hmem, hpci, hother⟩ := State.feedSettle_spec (s := s.setRun m q) (m := m) (r := q) (by simp)
  subst hq
  exact ⟨⟨p, hp, hsame.entries, hsame.bytes, hsame.desc⟩, hmem, hpci, fun k hk => by
    rw [hother k hk, State.mover_setRun, if_neg hk]⟩

/-! ### An entry is reached -/

/-- The state once entry e follows the entries of the list r of mover m. -/
def State.placed (s : State) (m : Nat) (r : MovRun) (e : FeedEntry) : State := s.setRun m { r with entries := r.entries ++ [e] }

theorem State.run_placed (s : State) (m : Nat) (r : MovRun) (e : FeedEntry) :
    ((s.placed m r e).mover m).run = some { r with entries := r.entries ++ [e] } := by
  simp [State.placed]

theorem State.placed_dpUp (s : State) (m : Nat) (r : MovRun) (e : FeedEntry) (port : Nat) : (s.placed m r e).dpUp port = s.dpUp port := by
  unfold State.dpUp
  rw [State.enabled_congr (s := s) (t := s.placed m r e) rfl rfl rfl]
  rfl

theorem State.placed_cfg (s : State) (m : Nat) (r : MovRun) (e : FeedEntry) (port fn off : Nat) :
    (s.placed m r e).cfg port fn off = s.cfg port fn off := rfl

/-- R212, R214: an entry placed stays in its state. -/
theorem State.entered_of_movers {s t : State} {m : Nat} {r : MovRun} {e : FeedEntry} (h : t.movers = (s.placed m r e).movers) :
    t.Entered m r e := ⟨{ r with entries := r.entries ++ [e] }, by rw [State.mover_congr h, State.run_placed], rfl, rfl⟩

section Reaching
variable {s u : State} {m i : Nat} {r : MovRun} {ws : List Word32} (h : s.Reaching m i r ws u)
include h

theorem State.Reaching.reads : s.Reads u := by
  obtain ⟨-, -, hread, -⟩ := h
  have := s.readEntry_reads m i
  rwa [hread] at this

theorem State.Reaching.index : i = r.entries.length := by
  obtain ⟨-, -, -, hi, -⟩ := h
  exact hi

/-- The entry that is reached is none the list holds. -/
theorem State.Reaching.not_listed : ((s.mover m).run.bind fun r => r.entries[i]?) = none := by
  obtain ⟨-, hrun, -, hi, -⟩ := h
  simp [hrun, hi]

/-- R210: the command of its kind places the entry, and starts it. -/
theorem State.Reaching.feedReach {k : Nat} {e : FeedEntry} (he : e = { words := ws, status := .running }) (hk : e.kind = k)
    (go : FeedEntry → State → State) : s.feedReach m i k go = go e (u.placed m r e) := by
  subst he hk
  obtain ⟨-, hrun, hread, hi, hrows, hcheck, hstart⟩ := h
  have hgo : ¬ (r.desc.op ≠ 3 ∨ r.ended = true ∨ r.stopping = true ∨ i ≠ r.entries.length ∨ r.desc.rows ≤ i) := by
    simp only [MovRun.mayStart, Bool.and_eq_true, beq_iff_eq, Bool.not_eq_true'] at hstart
    obtain ⟨⟨⟨⟨⟨⟨hop, hended⟩, hstop⟩, -⟩, -⟩, -⟩, -⟩ := hstart
    simp [hop, hended, hstop, hi]
    omega
  unfold State.feedReach
  rw [hrun]
  dsimp only
  rw [if_neg hgo, hread]
  dsimp only
  rw [hcheck, hstart]
  rw [if_neg (by simp), if_neg (by simp)]
  rfl

/-- R210: the last entry of the list takes another state: what its run then holds. -/
theorem State.Reaching.putEntry {v : State} {q : MovRun} {e : FeedEntry} (hv : (v.mover m).run = some q)
    (hq : q.entries = r.entries ++ [e]) (hd : q.desc = r.desc) (x : FeedEntry) :
    (v.putEntry m i x).Entered m r x ∧ (∃ p, ((v.putEntry m i x).mover m).run = some p ∧ p.entries = r.entries ++ [x] ∧ p.bytes = q.bytes) ∧
      (v.putEntry m i x).mem = v.mem ∧ (v.putEntry m i x).pci = v.pci := by
  obtain ⟨⟨p, hp, hentries, hbytes, hdesc⟩, hmem, hpci, -⟩ := State.putEntry_spec hv i x
  rw [hq, h.index, List.set_append_right _ _ le_rfl, Nat.sub_self] at hentries
  exact ⟨⟨p, hp, hentries, hdesc.trans hd⟩, ⟨p, hp, hentries, hbytes⟩, hmem, hpci⟩

theorem State.Reaching.putEntry_placed (e x : FeedEntry) :
    ((u.placed m r e).putEntry m i x).Entered m r x ∧ ((u.placed m r e).putEntry m i x).mem = s.mem ∧
      ((u.placed m r e).putEntry m i x).pci = s.pci := by
  obtain ⟨hentered, -, hmem, hpci⟩ := h.putEntry (u.run_placed m r e) rfl rfl x
  exact ⟨hentered, hmem.trans h.reads.mem, hpci.trans h.reads.rest.pci⟩

end Reaching

/-! ### FLUSH and WAIT -/

section Entry
variable {s u : State} {m : Fin 64} {i : Nat} {r : MovRun} {ws : List Word32}

/-- R211, R215: a PUSH whose port is lost fails. -/
theorem State.Reaching.push_lost (h : s.Reaching m.val i r ws u) :
    let e : FeedEntry := { words := ws, status := .running }
    e.kind = 1 → u.dpUp e.pcie = false →
      ∃ t, exec (.feedPush m i) s = .next t ∧ t.Entered m.val r { e with status := .failed 7 portLostInfo } ∧ t.pci.sent = s.pci.sent := by
  intro e hk hdown
  obtain ⟨hentered, -, hpci⟩ := h.putEntry_placed e { e with status := .failed movPort portLostInfo }
  refine ⟨_, ?_, hentered, congrArg PciState.sent hpci⟩
  change Host.Outcome.next (if s.stopped then s else s.feedPush m.val i) = _
  rw [if_neg (by simp [h.1]), State.feedPush, h.feedReach (e := e) rfl hk, State.placed_dpUp, if_pos (by simp [hdown])]

/-- R212: a FLUSH sends its read, and waits for the answer. -/
theorem State.Reaching.flush_sent (h : s.Reaching m.val i r ws u) :
    let e : FeedEntry := { words := ws, status := .running }
    e.kind = 3 → u.dpUp e.pcie = true →
      ∃ t, exec (.feedFlush m i) s = .next t ∧ t.Entered m.val r e ∧
        t.pci.sent = s.pci.sent ++ [{ port := e.pcie, fn := 0, kind := .memRead, addr := e.peer, tag := m.val }] := by
  intro e hk hup
  refine ⟨(u.placed m.val r e).sendTlp { port := e.pcie, fn := 0, kind := .memRead, addr := e.peer, tag := m.val }, ?_, ?_, ?_⟩
  · change Host.Outcome.next (if s.stopped then s else s.feedFlush m.val i) = _
    rw [if_neg (by simp [h.1]), State.feedFlush, h.feedReach (e := e) rfl hk, State.placed_dpUp, if_neg (by simp [hup])]
  · exact State.entered_of_movers (s := u) (by simp [State.sendTlp])
  · simp [State.sendTlp, State.placed, h.reads.rest.pci]

/-- R203, R214: a WAIT completes at once, or waits for its notice condition. -/
theorem State.Reaching.wait (h : s.Reaching m.val i r ws u) :
    let e : FeedEntry := { words := ws, status := .running }
    e.kind = 4 → ∃ t, exec (.feedWait m i) s = .next t ∧
      t.Entered m.val r (if u.noticeOk m.val e.length then { e with status := .done } else e) := by
  intro e hk
  have hx : exec (.feedWait m i) s = .next (if u.noticeOk m.val e.length then (u.placed m.val r e).putEntry m.val i { e with status := .done }
      else u.placed m.val r e) := by
    change Host.Outcome.next (if s.stopped then s else s.feedWait m.val i) = _
    rw [if_neg (by simp [h.1]), State.feedWait, h.not_listed]
    dsimp only
    rw [h.feedReach (e := e) rfl hk]
    rfl
  refine ⟨_, hx, ?_⟩
  split
  · exact (h.putEntry_placed e _).1
  · exact State.entered_of_movers rfl

/-- R212: the answer to the read of a FLUSH ends it. -/
theorem exec_feedFlushCompletion_spec {q : MovRun} {x : FeedEntry} (hs : s.stopped = false) (hrun : (s.mover m.val).run = some q)
    (hx : q.entries[i]? = some x) (hk : x.kind = 3) (hst : x.status = .running) (ok : Bool) :
    ∃ t z, exec (.feedFlushCompletion m i ok) s = .next t ∧ (t.mover m.val).run = some z ∧
      z.entries = q.entries.set i { x with status := if ok then .done else .failed 7 0x06 } ∧ t.mem = s.mem := by
  have hmovers : (s.noteTlp x.pcie 0).movers = s.movers := by simp [State.noteTlp]
  have hmem : (s.noteTlp x.pcie 0).mem = s.mem := by simp [State.noteTlp]
  have hnote := (congrArg MoverState.run (State.mover_congr hmovers m.val)).trans hrun
  obtain ⟨⟨z, hz, hentries, -, -⟩, hkept, -, -⟩ := State.putEntry_spec hnote i { x with status := if ok then .done else .failed 7 0x06 }
  refine ⟨_, z, ?_, hz, hentries, hkept.trans hmem⟩
  change Host.Outcome.next (if s.stopped then s else s.flushAnswer m.val i ok) = _
  rw [if_neg (by simp [hs]), State.flushAnswer, hrun]
  simp only [Option.bind_some, hx, hk, hst, and_self, if_true, State.flushEnd, hnote]
  cases ok <;> rfl

end Entry

end Sys2Proof.Machine
end

section
/-! SUPPORT. PUSH entries (R211): the Memory Writes that carry the bytes. -/

namespace Sys2Proof.Machine

open Sys2Proof

/-- R598: a read of memory without errors gives as many bytes as asked for, and is counted, no more. -/
theorem State.readMem_of_clean {s : State} (h : ∀ la, s.lineErrOf la = LineErr.clean) {a n fuel : Nat}
    (hfuel : n = 0 ∨ n + a % 64 ≤ 64 * fuel) : (s.readMem a n fuel).1.length = n ∧ s.PhotOnly (s.readMem a n fuel).2.2 := by
  induction fuel generalizing s a n with
  | zero =>
    obtain rfl : n = 0 := by omega
    exact ⟨rfl, .refl s⟩
  | succ fuel ih =>
    unfold State.readMem
    split
    · next hn => exact ⟨hn.symm, .refl s⟩
    · rw [State.readLine_of_clean (h _)]
      dsimp only
      have hu := s.noteRead_photOnly (lineOf a) (r := ⟨s.bytes (lineOf a) 64, false, 0, 0⟩) rfl
      generalize s.noteRead (lineOf a) _ = u at hu ⊢
      obtain ⟨hlen, hphot⟩ := ih (s := u) (a := a + min n (64 - a % 64)) (n := n - min n (64 - a % 64)) (fun la => by
        obtain ⟨_, rfl⟩ := hu
        exact h la) (by omega)
      refine ⟨?_, hu.trans hphot⟩
      simp only [List.length_append, List.length_take, List.length_drop, State.length_bytes, hlen]
      omega

/-- What sends bytes of memory leaves: all but the counts and what the ports have sent. -/
def State.Sending (s t : State) : Prop := ∃ phot pci, t = { s with phot := phot, pci := pci }

theorem State.Sending.refl (s : State) : s.Sending s := ⟨_, _, rfl⟩

theorem State.Sending.trans {s t u : State} (h : s.Sending t) (k : t.Sending u) : s.Sending u := by
  obtain ⟨_, _, rfl⟩ := h
  obtain ⟨_, _, rfl⟩ := k
  exact ⟨_, _, rfl⟩

theorem State.PhotOnly.sending {s t : State} (h : s.PhotOnly t) : s.Sending t := by
  obtain ⟨_, rfl⟩ := h
  exact ⟨_, _, rfl⟩

theorem State.Sending.memUp {s t : State} (h : s.Sending t) (a n : Nat) : t.memUp a n = s.memUp a n := by
  obtain ⟨_, _, rfl⟩ := h
  exact State.memUp_congr (by rfl) (by rfl) (by rfl) a n

theorem State.Sending.lineErrOf {s t : State} (h : s.Sending t) (la : Nat) : t.lineErrOf la = s.lineErrOf la := by
  obtain ⟨_, _, rfl⟩ := h
  rfl

theorem State.sendTlp_spec (s : State) (t : Tlp) : s.Sending (s.sendTlp t) ∧ (s.sendTlp t).pci.sent = s.pci.sent ++ [t] := by
  unfold State.sendTlp
  dsimp only
  refine ⟨State.Sending.trans ((s.count_photOnly ..).trans (State.count_photOnly ..)).sending ⟨_, _, rfl⟩, ?_⟩
  simp

/-- R211: a Memory Write of a PUSH. -/
structure Tlp.PushPart (port mps : Nat) (p : Tlp) : Prop where
  kind : p.kind = .memWrite
  port : p.port = port
  payload : p.len ≤ mps
  page : p.addr % 4096 + p.len ≤ 4096
  bytes : p.bytes.length = p.len

/-- R211: the Memory Write that carries len bytes from a to peer. -/
def State.pushTlp (s : State) (port a peer len : Nat) : Tlp :=
  let r := s.readMem a len (len / 64 + 2)
  { port := port, fn := 0, kind := .memWrite, addr := peer, len := len, bytes := r.1, ep := r.2.1 }

/-- R211: one Memory Write is sent, and the rest of the bytes follow. -/
theorem State.pushBytes_step (s : State) (m port mps a peer n poison fuel : Nat) {len : Nat}
    (hlen : len = min n (min mps (4096 - peer % 4096))) (hn : n ≠ 0) (hup : s.memUp a len = true) :
    ∃ k, s.pushBytes m port mps a peer n poison (fuel + 1) =
      ((s.readMem a len (len / 64 + 2)).2.2.sendTlp (s.pushTlp port a peer len)).pushBytes m port mps (a + len) (peer + len) (n - len) k
        fuel := by
  rw [State.pushBytes, ← hlen]
  dsimp only
  rw [if_neg (by simp [hn, hup])]
  exact ⟨_, rfl⟩

/-- R211: memory at hand and without errors is sent whole. -/
theorem State.pushBytes_sent {s : State} (hclean : ∀ la, s.lineErrOf la = LineErr.clean) {a n peer mps fuel : Nat}
    (hup : s.memUp a n = true) (hmps : mps % 64 = 0) (hpos : 0 < mps) (hpeer : peer % 64 = 0) (hn : n % 64 = 0) (hfuel : n ≤ 64 * fuel)
    (m port poison : Nat) :
    ∃ l k t, s.pushBytes m port mps a peer n poison fuel = (0, k, t) ∧ s.Sending t ∧ t.pci.sent = s.pci.sent ++ l ∧
      (l.map Tlp.len).sum = n ∧ ∀ p ∈ l, p.PushPart port mps := by
  induction fuel generalizing s a n peer poison with
  | zero =>
    obtain rfl : n = 0 := by omega
    exact ⟨[], poison, s, rfl, .refl s, by simp, rfl, by simp⟩
  | succ fuel ih =>
    by_cases h0 : n = 0
    · subst h0
      exact ⟨[], poison, s, by simp [State.pushBytes], .refl s, by simp, rfl, by simp⟩
    · obtain ⟨len, hlen⟩ : ∃ len, len = min n (min mps (4096 - peer % 4096)) := ⟨_, rfl⟩
      have hwhole : s.memUp a len = true := State.memUp_within hup le_rfl (by omega)
      obtain ⟨hread, hphot⟩ := State.readMem_of_clean hclean (a := a) (n := len) (fuel := len / 64 + 2) (by omega)
      obtain ⟨k, hstep⟩ := s.pushBytes_step m port mps a peer n poison fuel hlen h0 hwhole
      obtain ⟨hsend, hsent⟩ := (s.readMem a len (len / 64 + 2)).2.2.sendTlp_spec (s.pushTlp port a peer len)
      have hu := hphot.sending.trans hsend
      obtain ⟨l, k', t, ht, hsend', hsent', hsum, hparts⟩ := ih (fun la => (hu.lineErrOf la).trans (hclean la)) (a := a + len)
        (n := n - len) (peer := peer + len) ((hu.memUp ..).trans (State.memUp_within hup (by omega) (by omega))) (by omega) (by omega)
        (by omega) k
      refine ⟨s.pushTlp port a peer len :: l, k', t, hstep.trans ht, hu.trans hsend', ?_, ?_, ?_⟩
      · rw [hsent', hsent, hphot.restKept.pci, List.append_assoc, List.singleton_append]
      · rw [List.map_cons, List.sum_cons, hsum]
        change len + (n - len) = n
        omega
      · refine List.forall_mem_cons.mpr ⟨⟨rfl, rfl, ?_, ?_, hread⟩, hparts⟩
        · change len ≤ mps
          omega
        · change peer % 4096 + len ≤ 4096
          omega

/-- R207, R209: what the checks leave of a PUSH. -/
theorem State.push_aligned {s : State} {dome : Bool} {e : FeedEntry} (hk : e.kind = 1) (h : s.entryCheck dome e = 0) :
    e.length % 64 = 0 ∧ e.peer % 64 = 0 := by
  obtain ⟨-, h⟩ := of_ite_eq_zero (by decide) h
  obtain ⟨hlocal, h⟩ := of_ite_eq_zero (by decide) h
  obtain ⟨hpeer, -⟩ := of_ite_eq_zero (by decide) h
  simp only [hk, not_or, not_and, not_not, ne_eq] at hlocal hpeer
  exact ⟨(hlocal rfl).1, hpeer.1 trivial⟩

section Entry
variable {s u : State} {m : Fin 64} {i : Nat} {r : MovRun} {ws : List Word32}

/-- R211: a PUSH of memory without errors, over a port that is up, is sent whole, and its entry has completed. -/
theorem State.Reaching.push_sent (h : s.Reaching m.val i r ws u) :
    let e : FeedEntry := { words := ws, status := .running }
    let mps := 128 * 2 ^ min 5 (bitsOf (u.cfg e.pcie 0 0x68) 7 5)
    e.kind = 1 → u.dpUp e.pcie = true → u.memUp e.local e.length = true → (∀ la, s.lineErrOf la = LineErr.clean) →
      ∃ t l q, exec (.feedPush m i) s = .next t ∧ t.pci.sent = s.pci.sent ++ l ∧ (t.mover m.val).run = some q ∧
        q.entries = r.entries ++ [{ e with status := .done }] ∧ q.bytes = r.bytes + e.length ∧ t.mem = s.mem ∧
        (l.map Tlp.len).sum = e.length ∧ ∀ p ∈ l, p.PushPart e.pcie mps := by
  intro e mps hk hport hup hclean
  have hreads := h.reads
  obtain ⟨-, -, -, -, -, hcheck, -⟩ := id h
  obtain ⟨hlen, hpeer⟩ := State.push_aligned hk hcheck
  have hclean' : ∀ la, (u.placed m.val r e).lineErrOf la = LineErr.clean := fun la => by
    rw [← hclean la, State.lineErrOf, State.lineErrOf, ← hreads.lineErr]
    rfl
  have hup' : (u.placed m.val r e).memUp e.local e.length = true := (State.memUp_congr (by rfl) (by rfl) (by rfl) ..).trans hup
  obtain ⟨l, k, t, ht, hsend, hsent, hsum, hparts⟩ := State.pushBytes_sent hclean' (mps := mps) (fuel := e.length / 64 + 1) hup' (by omega)
    (by positivity) hpeer hlen (by omega) m.val e.pcie 0
  obtain ⟨hmovers, hmem⟩ : t.movers = (u.placed m.val r e).movers ∧ t.mem = u.mem := by
    obtain ⟨_, _, rfl⟩ := hsend
    exact ⟨rfl, rfl⟩
  have hrun : (t.mover m.val).run = some { r with entries := r.entries ++ [e] } :=
    (congrArg MoverState.run (State.mover_congr hmovers m.val)).trans (u.run_placed ..)
  set q : MovRun := { r with entries := r.entries ++ [e], bytes := r.bytes + e.length, poisonLines := r.poisonLines + k } with hq
  set v := (((t.setRun m.val q).count (moverCell m.val) (evOf 0x16 0) none e.length).count (moverCell m.val) (evOf 0x16 1) none
    e.length).count (moverCell m.val) (evOf 0x16 3) none k with hv
  have hvrun : (v.mover m.val).run = some q := by
    rw [hv, State.mover_congr (State.count_movers ..), State.mover_congr (State.count_movers ..), State.mover_congr (State.count_movers ..),
      State.mover_setRun_self]
  obtain ⟨-, ⟨p, hp, hentries, hbytes⟩, hmem', hpci⟩ := h.putEntry hvrun rfl rfl { e with status := .done }
  refine ⟨_, l, p, ?_, ?_, hp, hentries, hbytes, ?_, hsum, hparts⟩
  · change Host.Outcome.next (if s.stopped then s else s.feedPush m.val i) = _
    rw [if_neg (by simp [h.1]), State.feedPush, h.feedReach (e := e) rfl hk]
    dsimp only
    rw [State.placed_dpUp, if_neg (by simp [hport])]
    rw [State.placed_cfg, ht]
    dsimp only
    rw [hrun]
    dsimp only
    rw [Nat.sub_zero, if_pos rfl]
  · rw [hpci, hv, State.count_pci, State.count_pci, State.count_pci, State.setRun_pci, hsent]
    exact congrArg (fun c : PciState => c.sent ++ l) hreads.rest.pci
  · rw [hmem', hv, State.count_mem, State.count_mem, State.count_mem, State.setRun_mem, hmem, hreads.mem]

end Entry

end Sys2Proof.Machine
end

section
/-! SUPPORT. VOLUME entries (R213): what their commands, and the ends of commands, leave of a running list. -/

namespace Sys2Proof.Machine

open Sys2Proof

/-! ### What the Catalogue leaves of the movers -/

theorem State.devRead_movers (s : State) (a n : Nat) : (s.devRead a n).2.movers = s.movers := by
  have h := (s.load_reads a n false).rest.movers
  unfold State.devRead
  dsimp only
  split <;> exact h

/-- A fold that carries a value beside the state. -/
theorem movers_foldl_pair {α β : Type} {f : β × State → α → β × State} (h : ∀ p a, (f p a).2.movers = p.2.movers) (l : List α)
    (p : β × State) : (l.foldl f p).2.movers = p.2.movers := by
  induction l generalizing p with
  | nil => rfl
  | cons a l ih => exact (ih _).trans (h p a)

/-- R454: the tables are read. -/
theorem State.catTables_movers (s : State) (v : Nat) : (s.catTables v).2.2.movers = s.movers := by
  unfold State.catTables
  extract_lets rd r nums out
  have hrd : ∀ (s : State) (a : Nat), (rd s a).2.movers = s.movers := fun s a => by
    have h := s.devRead_movers a 64
    dsimp only [rd]
    generalize s.devRead a 64 = p at h ⊢
    split <;> exact h
  have hr : r.2.movers = s.movers := by
    dsimp only [r]
    split
    · exact hrd ..
    · rfl
  split
  · exact hr
  · refine (movers_foldl_pair (fun p n => ?_) nums ([], r.2)).trans hr
    dsimp only
    split
    · exact hrd ..
    · rfl

/-- R459: a command of an internal queue completes to its mover, and nowhere else. -/
theorem State.catComplete_internal_movers (s : State) {q : Nat} (hq : 4096 ≤ q) (c : CatCmd) (status info : Nat) :
    (s.catComplete q c status info).movers = s.movers := by
  unfold State.catComplete
  dsimp only
  rw [if_pos hq]
  exact State.count_movers ..

/-- R213: a command of a VOLUME entry is asked for. -/
theorem State.catMoverRead_movers (s : State) (m entry volNo lba nb : Nat) (vol : List Word32) (bes : List (Nat × List Word32))
    (buf n : Nat) : (s.catMoverRead m entry volNo lba nb vol bes buf n).2.movers = s.movers := by
  unfold State.catMoverRead State.catInternalCmd
  split
  · rfl
  · dsimp only
    split
    · exact (State.catComplete_internal_movers _ (by unfold catInternal; omega) ..).trans (State.count_movers ..)
    · exact State.count_movers ..

/-! ### The entry stays -/

/-- The running list of mover m ends with entry i, of the words ws, that has asked for at most n bytes. -/
def State.Listed (s : State) (m i : Nat) (ws : List Word32) (n : Nat) : Prop :=
  ∃ q x, (s.mover m).run = some q ∧ q.entries.length = i + 1 ∧ q.entries[i]? = some x ∧ x.words = ws ∧ x.pos ≤ n

section Listed
variable {s t : State} {m i n : Nat} {ws : List Word32}

theorem State.Listed.of_movers (h : s.Listed m i ws n) (he : t.movers = s.movers) : t.Listed m i ws n := by
  unfold State.Listed
  rw [State.mover_congr he]
  exact h

/-- An entry takes another state: entry i of mover m keeps its words, and does not ask for more than n bytes. -/
theorem State.Listed.putEntry (h : s.Listed m i ws n) {k j : Nat} {y : FeedEntry} (hy : k = m → j = i → y.words = ws ∧ y.pos ≤ n) :
    (s.putEntry k j y).Listed m i ws n := by
  cases hk : (s.mover k).run with
  | none =>
    rw [State.putEntry, hk]
    exact h
  | some r =>
    obtain ⟨q, x, hq, hlen, hx, hwords, hpos⟩ := h
    obtain ⟨⟨p, hp, hentries, -, -⟩, -, -, hother⟩ := State.putEntry_spec hk j y
    by_cases hkm : k = m
    · subst hkm
      obtain rfl : r = q := Option.some.inj (hk.symm.trans hq)
      have hlen' : p.entries.length = i + 1 := by rw [hentries, List.length_set, hlen]
      by_cases hji : j = i
      · subst hji
        obtain ⟨hyw, hyp⟩ := hy rfl rfl
        exact ⟨p, y, hp, hlen', by rw [hentries, List.getElem?_set_self (by omega)], hyw, hyp⟩
      · exact ⟨p, x, hp, hlen', by rw [hentries, List.getElem?_set_ne hji, hx], hwords, hpos⟩
    · exact ⟨q, x, by rw [hother m (Ne.symm hkm), hq], hlen, hx, hwords, hpos⟩

/-- A run of the same list. -/
theorem State.Listed.setRun (h : s.Listed m i ws n) {k : Nat} {r q : MovRun} (hr : (s.mover k).run = some r) (hq : q.entries = r.entries) :
    (s.setRun k q).Listed m i ws n := by
  obtain ⟨p, x, hp, hlen, hx, hrest⟩ := h
  by_cases hkm : k = m
  · subst hkm
    obtain rfl : r = p := Option.some.inj (hr.symm.trans hp)
    exact ⟨q, x, by rw [State.mover_setRun_self], by rw [hq, hlen], by rw [hq, hx], hrest⟩
  · exact ⟨p, x, by rw [State.mover_setRun, if_neg (Ne.symm hkm), hp], hlen, hx, hrest⟩

/-- R213: the end of a command reaches its entry. -/
theorem State.Listed.movTakeOne (h : s.Listed m i ws n) (d : Nat × Nat × Nat × Nat) : (s.movTakeOne d).Listed m i ws n := by
  obtain ⟨k, j, st, info⟩ := d
  unfold State.movTakeOne
  dsimp only
  split
  · exact h
  · next r hr =>
    split
    · exact h
    · next e he =>
      have hy : k = m → j = i → e.words = ws ∧ e.pos ≤ n := by
        rintro rfl rfl
        obtain ⟨p, x, hp, -, hx, hrest⟩ := h
        obtain rfl : r = p := Option.some.inj (hr.symm.trans hp)
        obtain rfl : e = x := Option.some.inj (he.symm.trans hx)
        exact hrest
      split
      · exact h
      · generalize (if st = 0 then e.bad else some (e.bad.getD st)) = bad
        split
        · exact h.putEntry hy
        · split
          · exact h.putEntry hy
          · refine State.Listed.putEntry (State.Listed.of_movers ?_ (State.count_movers ..)) hy
            exact h.setRun hr rfl

/-- R213: the ends of the commands are taken up. -/
theorem State.Listed.movTake (h : s.Listed m i ws n) : s.movTake.Listed m i ws n := by
  have hfold : ∀ (l : List (Nat × Nat × Nat × Nat)) (s : State), s.Listed m i ws n →
      (l.foldl (fun s d => s.movTakeOne d) s).Listed m i ws n := fun l => by
    induction l with
    | nil => exact fun _ h => h
    | cons d l ih => exact fun s h => ih _ (h.movTakeOne d)
  exact hfold _ _ (h.of_movers rfl)

/-- R213: the entry asks for what it lacks. -/
theorem State.Listed.volumePump {e : FeedEntry} (h : s.Listed m i e.words e.length) (he : e.pos ≤ e.length) (vol : List Word32)
    (bes : List (Nat × List Word32)) (fuel : Nat) : (s.volumePump m i e vol bes fuel).Listed m i e.words e.length := by
  induction fuel generalizing s e with
  | zero => exact h
  | succ fuel ih =>
    unfold State.volumePump
    split
    · extract_lets block n nb r e'
      have hr : r.2.Listed m i e.words e.length := h.of_movers (State.catMoverRead_movers ..)
      have hpos : e'.pos ≤ e'.length := by
        change e.pos + min (e.length - e.pos) (65536 * block) ≤ e.length
        omega
      split
      · exact ih (e := e') (hr.putEntry fun _ _ => ⟨rfl, hpos⟩) hpos
      · exact hr
    · exact h

end Listed

/-! ### The command -/

theorem State.movTake_of_none {s : State} (h : s.cat.moverDone = []) : s.movTake = s := by
  have hcat : ({ s.cat with moverDone := [] } : CatState) = s.cat := by rw [← h]
  simp only [State.movTake, h, List.filter_nil, List.foldl_nil, hcat]
  rfl

section Entry
variable {s u : State} {m : Fin 64} {i : Nat} {r : MovRun} {ws : List Word32}

/-- R213: a VOLUME that is reached is running, or has ended. -/
theorem State.Reaching.volume (h : s.Reaching m.val i r ws u) (hdone : s.cat.moverDone = []) :
    let e : FeedEntry := { words := ws, status := .running }
    e.kind = 2 → ∃ t, exec (.feedVolume m i) s = .next t ∧ t.Listed m.val i ws e.length := by
  intro e hk
  have hplaced : (u.placed m.val r e).Listed m.val i ws e.length :=
    ⟨_, e, u.run_placed .., by simp [h.index], by simp [h.index], rfl, Nat.zero_le _⟩
  have hpumped := ((hplaced.of_movers (State.catTables_movers _ (wfield e.words 6 15 0))).volumePump (e := e) (Nat.zero_le _)
    ((u.placed m.val r e).catTables (wfield e.words 6 15 0)).1 ((u.placed m.val r e).catTables (wfield e.words 6 15 0)).2.1
    (e.length / 2 ^ 25 + 2)).movTake
  refine ⟨_, ?_, hpumped⟩
  change Host.Outcome.next (if s.stopped then s else s.movTake.feedVolume m.val i) = _
  rw [if_neg (by simp [h.1]), State.movTake_of_none hdone, State.feedVolume, h.not_listed]
  dsimp only
  rw [h.feedReach (e := e) rfl hk]

end Entry

end Sys2Proof.Machine
end

section
/-! SUPPORT. The completion of a mover's descriptor (R171, R204). -/

namespace Sys2Proof.Machine

open Sys2Proof

/-! ### The completion acts -/

/-- R204: a completion record leaves the movers, and is written where it is asked for and can be. -/
theorem State.writeRecord_movers_mem (s : State) (dome en : Bool) (a : Nat) (ws : List Word32) (cell : Nat) :
    (s.writeRecord dome en a ws cell).movers = s.movers ∧ (en = false → (s.writeRecord dome en a ws cell).mem = s.mem) ∧
      (en = true → s.cmplOk dome a = true → s.memUp a 64 = true →
        (s.writeRecord dome en a ws cell).mem = (s.writeMem a (bytesOf ws) false 2).mem) := by
  unfold State.writeRecord
  split
  · next h => exact ⟨rfl, fun _ => rfl, fun he hok => by simp [he, hok] at h⟩
  · next h =>
    have hen : en ≠ false := fun he => by simp [he] at h
    split
    · exact ⟨State.writeMem_movers .., fun he => absurd he hen, fun _ _ _ => rfl⟩
    · next hup => exact ⟨State.recordError_movers .., fun he => absurd he hen, fun _ _ h => absurd h hup⟩

/-- R60: a DONE_BIT leaves the movers. -/
theorem State.setDone_movers (s : State) (c : CoreRef) (b : Nat) (cut : Bool) : (s.setDone c b cut).movers = s.movers := by
  unfold State.setDone
  split
  · rfl
  · split
    · rfl
    · split
      · rfl
      · exact State.count_movers ..

/-- R171, R204: what the completion acts of a descriptor leave. -/
theorem State.movPost_spec (s : State) (m : Nat) (r : MovRun) :
    (s.movPost m r).movers = s.movers ∧ (s.movPost m r).reg .MOV_DONE_TICKET (moverCell m) = BitVec.ofNat 64 r.desc.ticket ∧
      (∀ k, doneKey r.desc.issuer r.desc.doneBit = some k → k < 2 ^ 32 → r.desc.doneBit ≠ 0xFFFFFFFF →
        (s.movPost m r).bitAt k = true) ∧
      (r.desc.cmplEn = false → (s.movPost m r).mem = s.mem) ∧
      (r.desc.cmplEn = true → s.cmplOk r.desc.issuer.isDome r.desc.cmplAddr = true → s.memUp r.desc.cmplAddr 64 = true →
        (s.movPost m r).mem = (s.writeMem r.desc.cmplAddr (bytesOf (r.record s.now)) false 2).mem) := by
  unfold State.movPost
  dsimp only
  obtain ⟨hmovers, hoff, hon⟩ :=
    s.writeRecord_movers_mem r.desc.issuer.isDome r.desc.cmplEn r.desc.cmplAddr (r.record s.now) (moverCell m)
  generalize s.writeRecord r.desc.issuer.isDome r.desc.cmplEn r.desc.cmplAddr (r.record s.now) (moverCell m) = w at hmovers hoff hon ⊢
  obtain ⟨-, hmem, hbit⟩ := w.setDone_spec r.desc.issuer r.desc.doneBit r.desc.cut
  have hmovers' := (w.setDone_movers r.desc.issuer r.desc.doneBit r.desc.cut).trans hmovers
  generalize w.setDone r.desc.issuer r.desc.doneBit r.desc.cut = u at hmem hbit hmovers' ⊢
  have hkept := u.setReg_memKept .MOV_DONE_TICKET (moverCell m) (BitVec.ofNat 64 r.desc.ticket)
  have hticket := u.reg_setReg .MOV_DONE_TICKET (moverCell m) (BitVec.ofNat 64 r.desc.ticket) 0
  have hvmovers := (State.setReg_movers u .MOV_DONE_TICKET (moverCell m) (BitVec.ofNat 64 r.desc.ticket) 0).trans hmovers'
  generalize u.setReg .MOV_DONE_TICKET (moverCell m) (BitVec.ofNat 64 r.desc.ticket) = v at hkept hticket hvmovers ⊢
  have hc := (v.count_photOnly (moverCell m) (evOf 0x16 2) (some r.status) 1).counted
  obtain ⟨hvmem, -, -, hbits⟩ := hkept.trans hc.memKept
  refine ⟨(State.count_movers ..).trans hvmovers, (hc.reg rfl _).trans hticket, fun k hk hlt hb => ?_, fun he => ?_, fun he hok hup => ?_⟩
  · have := hbit k hk hlt hb
    unfold State.bitAt at this ⊢
    rwa [hbits]
  · rw [hvmem, hmem, hoff he]
  · rw [hvmem, hmem, hon he hok hup]

/-! ### The command -/

theorem exec_moverComplete_of_running {s : State} (hs : s.stopped = false) (hdone : s.cat.moverDone = []) (m : Fin 64) :
    exec (.moverComplete m) s = .next (s.movComplete m.val) := by
  change Host.Outcome.next (if s.stopped then s else s.movTake.movComplete m.val) = _
  rw [if_neg (by simp [hs]), State.movTake_of_none hdone]

/-- The state of a mover, and the levels that follow from it, are not of memory. -/
theorem MemAlike.setMover_noteLevels (s : State) (m : Nat) (x : MoverState) : MemAlike s (s.setMover m x).noteLevels :=
  ⟨rfl, rfl, rfl, rfl, rfl, rfl, rfl, rfl⟩

section Complete
variable {s : State} {m : Nat}

/-- R204: the descriptor that has ended frees its mover, and is posted. -/
theorem State.movComplete_ended {q : MovRun} (hrun : (s.mover m).run = some q) (hended : q.ended = true) (ht : q.desc.ticket < 2 ^ 64) :
    let t := s.movComplete m
    (t.mover m).run = none ∧ (t.mover m).queue = (s.mover m).queue ∧
      (t.reg .MOV_DONE_TICKET (moverCell m)).toNat = q.desc.ticket ∧
      (∀ k, doneKey q.desc.issuer q.desc.doneBit = some k → k < 2 ^ 32 → q.desc.doneBit ≠ 0xFFFFFFFF → t.bitAt k = true) ∧
      (q.desc.cmplEn = false → t.mem = s.mem) ∧
      (q.desc.cmplEn = true → s.cmplOk q.desc.issuer.isDome q.desc.cmplAddr = true → s.memUp q.desc.cmplAddr 64 = true →
        t.mem = (s.writeMem q.desc.cmplAddr (bytesOf (q.record s.now)) false 2).mem) := by
  have hpost : s.movComplete m = ((s.setMover m { s.mover m with run := none }).noteLevels).movPost m q := by
    simp only [State.movComplete, hrun, hended, if_true]
  intro t
  have hfreed := (s.mover_setMover m m { s.mover m with run := none }).trans (if_pos rfl)
  have halike := MemAlike.setMover_noteLevels s m { s.mover m with run := none }
  obtain ⟨hmovers, hticket, hbit, hoff, hon⟩ := ((s.setMover m { s.mover m with run := none }).noteLevels).movPost_spec m q
  have hmover : t.mover m = { s.mover m with run := none } :=
    (congrArg (State.mover · m) hpost).trans ((State.mover_congr hmovers m).trans hfreed)
  rw [← hpost] at hticket hbit hoff hon
  refine ⟨by rw [hmover], by rw [hmover], ?_, hbit, hoff, fun he hok hup => ?_⟩
  · rw [hticket, BitVec.toNat_ofNat, Nat.mod_eq_of_lt ht]
  · rw [hon he ((State.cmplOk_congr rfl ..).trans hok) ((State.memUp_congr (by rfl) (by rfl) (by rfl) ..).trans hup)]
    exact (halike.writeMem ..).mem

/-- R137, R204: the next flushed descriptor is posted. -/
theorem State.movComplete_flushed {d : MovDesc} {rest : List MovDesc} (hrun : (s.mover m).run = none)
    (hflushed : (s.mover m).flushed = d :: rest) :
    ((s.movComplete m).mover m).flushed = rest ∧
      (s.movComplete m).reg .MOV_DONE_TICKET (moverCell m) = BitVec.ofNat 64 d.ticket := by
  have hpost : s.movComplete m =
      (s.setMover m { s.mover m with flushed := rest }).movPost m { desc := d, startTime := 0, status := movFlushed } := by
    simp only [State.movComplete, hrun, hflushed]
  obtain ⟨hmovers, hticket, -⟩ :=
    (s.setMover m { s.mover m with flushed := rest }).movPost_spec m { desc := d, startTime := 0, status := movFlushed }
  rw [← hpost] at hmovers hticket
  refine ⟨?_, hticket⟩
  rw [State.mover_congr hmovers, State.mover_setMover, if_pos rfl]

end Complete

end Sys2Proof.Machine

open Sys2Proof Sys2Proof.Machine in
/-- Settles O28: the lines of a COPY are placed one by one, apart from every line still to be read; an entry of a feed list joins the
entries of its run whatever its command does besides; what completes is posted by the acts of R171. -/
theorem moversCopySweepAndFeed : Obligations.MoversCopySweepAndFeed := by
  refine ⟨fun s m d rest h => ⟨fun i hi hcode => ?_, h.copies, h.sweeps, h.feeds⟩, fun s u m i r ws hdone =>
    ⟨fun h hk hport hup hclean => ?_, fun h => h.push_lost, fun h => h.flush_sent, fun h hk hok => ?_, fun h hk hok => ?_,
      fun h hk => ?_, fun q x ok hs hrun hx hk hst => exec_feedFlushCompletion_spec hs hrun hx hk hst ok,
      fun q hs hrun hended ht => ?_, fun d rest hs hrun hflushed => ?_⟩⟩
  · obtain ⟨go, hgo⟩ := exec_mover_start (s := s) hi
    obtain ⟨q, hq⟩ := h.refused hcode go
    exact ⟨_, q, hgo, hq⟩
  · obtain ⟨t, l, q, hx, hsent, hrun, hentries, hbytes, hmem, hsum, hparts⟩ := h.push_sent hk hport hup hclean
    exact ⟨t, l, q, hx, hsent, hrun, hentries, hbytes, hmem, hsum, fun p hp =>
      have part := hparts p hp
      ⟨part.kind, part.port, part.payload, part.page, part.bytes⟩⟩
  · have hx := h.wait hk
    rwa [if_pos hok] at hx
  · have hx := h.wait hk
    rwa [if_neg (by simp [hok])] at hx
  · obtain ⟨t, hx, q, x, hrun, hentry⟩ := h.volume hdone hk
    exact ⟨t, q, x, hx, hrun, hentry⟩
  · exact ⟨_, exec_moverComplete_of_running hs hdone m, State.movComplete_ended hrun hended ht⟩
  · exact ⟨_, exec_moverComplete_of_running hs hdone m, State.movComplete_flushed hrun hflushed⟩
end
